-- ==== Sys2Proof/Word.lean ====
section
/-! DEFINITION. Words, bytes and the one sparse table form that registers, queues and memory are kept in. -/
namespace Sys2Proof

abbrev Byte := BitVec 8
abbrev Word := BitVec 64

/-- A finite table from numbers to values in one canonical form: keys strictly rising, and no entry
equal to what an unlisted key reads as. -/
abbrev Table (α : Type) := List (Nat × α)

def Table.find {α : Type} : Table α → Nat → Option α
  | [], _ => none
  | (k, v) :: t, n => if k = n then some v else Table.find t n

/-- The value at `n`; `d` where nothing is listed. -/
def Table.get {α : Type} (d : α) (t : Table α) (n : Nat) : α :=
  (Table.find t n).getD d

def Table.erase {α : Type} : Table α → Nat → Table α
  | [], _ => []
  | (k, v) :: t, n => if k = n then Table.erase t n else (k, v) :: Table.erase t n

/-- Put an entry at its place; the table holds none under this key. -/
def Table.put {α : Type} : Table α → Nat → α → Table α
  | [], n, x => [(n, x)]
  | (k, v) :: t, n, x => if n < k then (n, x) :: (k, v) :: t else (k, v) :: Table.put t n x

/-- Write `x` at `n`; writing the default removes the entry. -/
def Table.set {α : Type} [DecidableEq α] (d : α) (t : Table α) (n : Nat) (x : α) : Table α :=
  if x = d then Table.erase t n else Table.put (Table.erase t n) n x

/-- The canonical form: keys strictly rising, no entry equal to the default. -/
def Table.wf {α : Type} [DecidableEq α] (d : α) : Table α → Bool
  | [] => true
  | (k, v) :: t =>
    decide (v ≠ d) && t.all (fun e => decide (k < e.1)) && Table.wf d t

/-- Replace the element at position `i` of a list by `f` of it. -/
def updAt {α : Type} : List α → Nat → (α → α) → List α
  | [], _, _ => []
  | x :: l, 0, f => f x :: l
  | x :: l, n + 1, f => x :: updAt l n f

/-- `n` as `k` bytes, least significant first (R36). -/
def leBytes : Nat → Nat → List Byte
  | 0, _ => []
  | k + 1, n => BitVec.ofNat 8 n :: leBytes k (n / 256)

/-- The number that bytes, least significant first, stand for (R36). -/
def ofLe : List Byte → Nat
  | [] => 0
  | b :: l => b.toNat + 256 * ofLe l

/-- Bits `hi` down to `lo` of a word, as a number. -/
def bits {w : Nat} (x : BitVec w) (hi lo : Nat) : Nat :=
  (x.toNat / 2 ^ lo) % 2 ^ (hi + 1 - lo)

/-- Bit `n` of a word. -/
def bitAt {w : Nat} (x : BitVec w) (n : Nat) : Bool := x.getLsbD n

/-- The word with bits `hi` down to `lo` replaced by `v`. -/
def setBits {w : Nat} (x : BitVec w) (hi lo v : Nat) : BitVec w :=
  let m := BitVec.ofNat w ((2 ^ (hi + 1 - lo) - 1) * 2 ^ lo)
  (x &&& ~~~m) ||| (BitVec.ofNat w (v * 2 ^ lo) &&& m)

def natOf (b : Bool) : Nat := if b then 1 else 0

/-- `n` raised by one, stopping at `m`. -/
def satInc (m n : Nat) : Nat := if n < m then n + 1 else m

/-- `n` plus `k`, stopping at `m`. -/
def satAdd (m n k : Nat) : Nat := if n + k < m then n + k else m

def clampNat (lo hi n : Nat) : Nat := if n < lo then lo else if hi < n then hi else n

end Sys2Proof
end

