-- ==== Sys2Proof/Syntax.lean ====
section
/-! DEFINITION. The commands of the XV6412 model: one constructor per row of the table of operations and
events, with the operands that the row's rule needs. A command that executes a command packet names the
accepted packet by its number `cid`; a command of a tile names the compute die, the tile and, where the
rule counts cycles, the CCLK cycle at which it happens. -/
namespace Sys2Proof

/-- Who waits for the response to a memory request (R148, R206). -/
inductive Requester where
  /-- a tile's access engine: logical compute die, tile, request slot -/
  | tile (d : Fin 32) (t : Fin 144) (slot : Nat)
  /-- the request logic of any other die, by control block and its own number -/
  | agent (block : Fin 64) (id : Nat)
  deriving DecidableEq, Repr

/-- A request as it reaches the memory or mesh it names (R148, R205). -/
structure MemReq where
  who   : Requester
  write : Bool
  addr  : BitVec 48
  len   : Nat
  data  : List Byte
  /-- the only half of its byte that a write of one FP4 element changes -/
  half  : Option Bool
  /-- beat of the first attempt (R206), counted since reset -/
  age   : Nat
  deriving DecidableEq, Repr

/-- A torus packet: the header fields of R269 and its payload. -/
structure Packet where
  dest   : BitVec 16
  src    : BitVec 16
  via    : BitVec 16
  ptype  : BitVec 6
  order  : BitVec 3
  phase  : Bool
  detour : Bool
  len    : Nat
  season : BitVec 4
  gen    : BitVec 8
  id     : BitVec 16
  born   : BitVec 16
  tag    : BitVec 16
  addr   : BitVec 48
  arg    : BitVec 64
  data   : List Byte
  deriving DecidableEq, Repr

/-- A flit of a torus port: its header's fields, its payload and its CRC (R266). -/
structure Flit where
  kind  : BitVec 2
  sop   : Bool
  eop   : Bool
  vc    : Fin 8
  seq   : BitVec 12
  ack   : BitVec 12
  nak   : Bool
  cvc   : Fin 8
  ctot  : BitVec 7
  bytes : BitVec 8
  payload : List Byte
  crc   : BitVec 32
  deriving DecidableEq, Repr

/-- A flit as it comes out of the decoder of its port's codewords, and how many symbols were wrong in each of the
codewords that were read for it (R266, R307). -/
structure Received where
  flit  : Flit
  wrong : List Nat
  deriving DecidableEq, Repr

/-- What an AUDIT flit says: for each virtual channel the free buffers and the CTOT, and the header's ACK (R280,
R281). -/
structure Audit where
  free  : List Nat
  ctot  : List (BitVec 7)
  ack   : BitVec 12
  deriving DecidableEq, Repr

/-- What a port learns of its peer while it trains: the peer's coordinate, if it has one, and the one-way delay
(R265, R315). -/
structure Peer where
  coord : Option (BitVec 16)
  delay : BitVec 32
  deriving DecidableEq, Repr

/-- What the buffers of a die-fabric edge hold when it fails: a request or the response to it, by its requester, a torus
packet in transit, or a command on its way from the hub to the field controller of one of its dies (R19, R22, R271). -/
inductive Held where
  | request (who : Requester)
  | packet (k : Packet)
  | command (cid : Nat) (die : Fin 64)
  deriving DecidableEq, Repr

/-- What an instruction fetch found in the instruction memory (R130). -/
inductive FetchEcc where
  | clean | single | double
  deriving DecidableEq, Repr

/-- What the reads of an instruction meet (R392, R397): a parity error in an accumulator bank, a V, M or S register, a
carry slot or a flag; an error of a queue or of the tile's own SRAM that SECDED cannot correct. -/
inductive Upset where
  | none | register | memory
  deriving DecidableEq, Repr

/-- What happens to an instruction from its fetch on: the fetch itself, and its reads. -/
structure Fetch where
  ecc   : FetchEcc
  upset : Upset
  deriving DecidableEq, Repr

/-- A request from the mesh as it reaches a tile: its CCLK cycle, and the offset of the first byte of a read that SECDED
cannot correct. -/
structure MeshReq where
  cycle : Nat
  item  : MemReq
  bad   : Option (Fin 256)
  deriving DecidableEq, Repr

/-- How one fuse word of one copy reads (R434). -/
inductive FuseRead where
  | clean | corrected | failed
  deriving DecidableEq, Repr

/-- A word whose read-back differs while fuses are blown (R437): the word, the copy it happens in, and the bits
that took there. -/
structure FuseMiss where
  word   : Nat
  second : Bool
  took   : BitVec 32
  deriving DecidableEq, Repr

/-- JTAG instructions by what they reach (R442); the manual gives no codes. `instrument` is an instrument of the
IEEE 1687 network: whether it is a sensor or margin instrument, and whether the access only reads. -/
inductive JtagInstr where
  | bypass | idcode | boundaryScan | internalScan | other
  | instrument (sensor readOnly : Bool)
  deriving DecidableEq, Repr

/-- The clocks a monitor or a lock detector watches (R414, R430). -/
inductive Clock where
  | cclk | fclk | mclk | hclk | lclk | wclk | ref156
  deriving DecidableEq, Repr

/-- What the warden measured for one telemetry record (R405): the words at 0x10, 0x18, 0x20, 0x28, 0x30 and
0x48. -/
structure TelemetryReading where
  words : List (BitVec 64)
  deriving DecidableEq, Repr

/-- What a PLL's domain reset ends in (R416): whether it locked again, and which stacks of a memory die then passed
training (R202). -/
structure Relock where
  locked : Bool
  stack0 : Bool
  stack1 : Bool
  deriving DecidableEq, Repr

/-- What the warden meets as it starts again after the loss of WCLK: how the fuses read, and whether the retained images
pass the measurement (R416, R424). -/
structure Restart where
  fuses : List (FuseRead × FuseRead)
  measured : Bool
  deriving DecidableEq, Repr

/-- What the checks of a start-up find (R426): the UCIe modules that train, and the engine self-tests that fail, by die,
tile and SRC of the engine. -/
structure PowerUp where
  modules : BitVec 9
  failed : List (Nat × Nat × Nat)
  deriving DecidableEq, Repr

/-- The first byte of an I3C private transfer: the target's address and the direction (R469). -/
structure I3cHead where
  target : BitVec 7
  write : Bool
  deriving DecidableEq, Repr

/-- An edge of ALM_PPS as the warden sees it: reference cycles since the edge before, and the phase at which it falls
(R313). -/
structure PpsEdge where
  refCycles : Nat
  phase : BitVec 12
  deriving DecidableEq, Repr

/-- What a UCIe module does with one frame: whether it has passed, and the writes that are lost if the module fails, by
command and place among the command's writes: a DMA_COPY's byte, a REG_WRITE's entry (R329). -/
structure UcieFrame where
  good  : Bool
  lost  : List (Nat × Nat)
  deriving DecidableEq, Repr

/-- One edge of the die fabric (R16). -/
structure Edge where
  a : Fin 64
  b : Fin 64
  deriving DecidableEq, Repr

/-- What reaches a tile, or happens at a memory die, with the CCLK or MCLK cycle in which it does. -/
structure Timed (α : Type) where
  cycle : Nat
  item  : α
  deriving DecidableEq, Repr

inductive Instr where
  -- tile stream
  | instructionDispatch (d : Fin 32) (t : Fin 144) (c : Nat) (fetch : Fetch)
  | breakEntry (d : Fin 32) (t : Fin 144)
  | streamHalted (d : Fin 32) (t : Fin 144)
  | illEngine (d : Fin 32) (t : Fin 144) (c : Nat)
  -- matrix arrays and the converter
  | mma (d : Fin 32) (t : Fin 144) (c : Nat)
  | mmaResultCycle (d : Fin 32) (t : Fin 144) (upset : Option (Fin 4096 × BitVec 72))
  | abftVerdict (d : Fin 32) (t : Fin 144)
  | accst (d : Fin 32) (t : Fin 144) (c : Nat)
  | converterRow (d : Fin 32) (t : Fin 144)
  | accsave (d : Fin 32) (t : Fin 144) (c : Nat)
  | accload (d : Fin 32) (t : Fin 144) (c : Nat)
  | accloadExchange (d : Fin 32) (t : Fin 144)
  | accumulatorReadComplete (d : Fin 32) (t : Fin 144)
  -- vector engine
  | vsetvl (d : Fin 32) (t : Fin 144) (c : Nat)
  | vfa (d : Fin 32) (t : Fin 144) (c : Nat)
  | vfd (d : Fin 32) (t : Fin 144) (c : Nat)
  | vtr (d : Fin 32) (t : Fin 144) (c : Nat)
  | via (d : Fin 32) (t : Fin 144) (c : Nat)
  | vcmp (d : Fin 32) (t : Fin 144) (c : Nat)
  | vicmp (d : Fin 32) (t : Fin 144) (c : Nat)
  | vmask (d : Fin 32) (t : Fin 144) (c : Nat)
  | vcvt (d : Fin 32) (t : Fin 144) (c : Nat)
  | vperm (d : Fin 32) (t : Fin 144) (c : Nat)
  | vqpop (d : Fin 32) (t : Fin 144) (c : Nat)
  | vqpush (d : Fin 32) (t : Fin 144) (c : Nat)
  | vectorComplete (d : Fin 32) (t : Fin 144)
  -- reduction unit
  | red (d : Fin 32) (t : Fin 144) (c : Nat)
  | racc (d : Fin 32) (t : Fin 144) (c : Nat)
  | rfold (d : Fin 32) (t : Fin 144) (c : Nat)
  | rclr (d : Fin 32) (t : Fin 144) (c : Nat)
  | reductionComplete (d : Fin 32) (t : Fin 144)
  -- scalar unit
  | sia (d : Fin 32) (t : Fin 144) (c : Nat)
  | sfa (d : Fin 32) (t : Fin 144) (c : Nat)
  | dividerComplete (d : Fin 32) (t : Fin 144)
  | scmp (d : Fin 32) (t : Fin 144) (c : Nat)
  | sicmp (d : Fin 32) (t : Fin 144) (c : Nat)
  | scvt (d : Fin 32) (t : Fin 144) (c : Nat)
  | sli (d : Fin 32) (t : Fin 144) (c : Nat)
  | br (d : Fin 32) (t : Fin 144) (c : Nat)
  -- access engine
  | ald (d : Fin 32) (t : Fin 144) (c : Nat)
  | ast (d : Fin 32) (t : Fin 144) (c : Nat)
  | acopy (d : Fin 32) (t : Fin 144) (c : Nat)
  | alds (d : Fin 32) (t : Fin 144) (c : Nat)
  | asts (d : Fin 32) (t : Fin 144) (c : Nat)
  | asig (d : Fin 32) (t : Fin 144) (c : Nat)
  | afence (d : Fin 32) (t : Fin 144) (c : Nat)
  | accessResponse (d : Fin 32) (t : Fin 144) (slot : Timed Nat)
  | oqBlockReady (d : Fin 32) (t : Fin 144) (matrix : Bool) (pos : Nat)
  | accessComplete (d : Fin 32) (t : Fin 144) (count : BitVec 64)
  | requestRetryResend (d : Fin 32) (t : Fin 144) (slot : Nat)
  -- sync; `acc` says on which side the instruction stands
  | signal (d : Fin 32) (t : Fin 144) (acc : Bool) (c : Nat)
  | wait (d : Fin 32) (t : Fin 144) (acc : Bool) (c : Nat)
  | waitalm (d : Fin 32) (t : Fin 144) (acc : Bool) (c : Nat)
  | notify (d : Fin 32) (t : Fin 144) (acc : Bool) (c : Nat)
  | fset (d : Fin 32) (t : Fin 144) (acc : Bool) (c : Nat)
  | notifyEventTake (d : Fin 32)
  -- misc and catch crops
  | nop (d : Fin 32) (t : Fin 144) (c : Nat)
  | halt (d : Fin 32) (t : Fin 144) (c : Nat)
  | loop (d : Fin 32) (t : Fin 144) (c : Nat)
  | rdcr (d : Fin 32) (t : Fin 144) (c : Nat)
  | wrcr (d : Fin 32) (t : Fin 144) (c : Nat)
  | yield (d : Fin 32) (t : Fin 144) (c : Nat)
  | catchCropSwitch (d : Fin 32) (t : Fin 144) (c : Nat)
  | catchCropSwitchComplete (d : Fin 32) (t : Fin 144)
  | cropReturnBeat (d : Fin 32) (t : Fin 144)
  | cropOverrun (d : Fin 32) (t : Fin 144)
  | circularWait (d : Fin 32) (t : Fin 144)
  -- stream control: the value written to CDT_STREAM_CTRL
  | start (d : Fin 32) (t : Fin 144) (w : BitVec 64)
  | stop (d : Fin 32) (t : Fin 144) (w : BitVec 64)
  | abort (d : Fin 32) (t : Fin 144) (w : BitVec 64)
  | restart (d : Fin 32) (t : Fin 144) (w : BitVec 64)
  | resume (d : Fin 32) (t : Fin 144) (w : BitVec 64)
  | cvtSeedWrite (d : Fin 32) (t : Fin 144) (bank : Bool) (seed : BitVec 64)
  | registerWrite (addr : BitVec 48) (value : BitVec 64)
  | meshSramRequest (d : Fin 32) (t : Fin 144) (r : MeshReq)
  | flagIncrement (d : Fin 32) (t : Fin 144) (ctx : Bool) (flag : Fin 64) (count : Timed (BitVec 16))
  -- die fabric and command delivery
  | dieFabricFlit (e : Edge) (good : Bool) (held : List Held)
  | routeTableChange (cid : Nat)
  | routeDrainTimeout (cid : Nat)
  | commandDeliver (cid : Nat)
  | execBeatReached (cid : Nat)
  -- factor engine
  | problemStart (f : Fin 4) (j : Nat) (cycles : Nat) (bad : Bool)
  | factorStageComplete (f : Fin 4) (j : Nat) (cycles : Nat) (bad : Bool)
  | refineResidual (f : Fin 4) (j : Nat) (cycles : Nat)
  | retainCommit (f : Fin 4) (j : Nat) (cycles : Nat)
  | factorDeadline (f : Fin 4)
  | factorBatchComplete (f : Fin 4)
  | factorBatch (cid : Nat)
  | factorStore (cid : Nat)
  | factorRelease (cid : Nat)
  | factorReset (cid : Nat)
  | factorAbort (cid : Nat)
  -- memory dies
  | memRequest (m : Fin 16) (r : Timed MemReq)
  | winnowerAccess (m : Fin 16) (stack : Bool) (pc : Fin 64) (now : Nat) (banks : List Nat) (errs : List (Nat × Nat))
      (odecc : List Nat)
  | scrubRead (m : Fin 16) (stack : Bool) (errs : Nat) (odecc : List (Fin 2))
  | refresh (m : Fin 16) (stack : Bool) (pc : Fin 64) (bank : Timed (Fin 48))
  | rfm (m : Fin 16) (stack : Bool) (pc : Fin 64) (bank : Fin 48)
  | repairCandidate (m : Fin 16) (stack : Bool) (row : BitVec 26)
  | hbmTempPoll (m : Fin 16) (t0 t1 : BitVec 8)
  | hbmLevel3Throttle (m : Fin 16) (stack : Bool)
  | hbmRecalibration (m : Fin 16) (stack : Bool) (pc : Fin 64) (converged : Bool)
  | memMode (cid : Nat)
  | hbmRepair (cid : Nat)
  | hbmMargin (cid : Nat) (records : List (BitVec 32))
  | eccInject (cid : Nat)
  -- training support
  | update (cid : Nat)
  | voteRoundComplete (vote : BitVec 8)
  | voteTimeout
  | updateComplete
  | trainCfg (cid : Nat)
  | stashPack (cid : Nat)
  | stashUnpack (cid : Nat)
  -- torus links
  | flitTransmit (p : Fin 12)
  | flitReceive (p : Fin 12) (f : Received)
  | laneLockLost (p : Fin 12)
  | linkTrainingComplete (p : Fin 12) (ok : Bool) (peer : Peer)
  | retrainComplete (p : Fin 12) (ok : Bool) (audit : Audit)
  | creditAudit (p : Fin 12) (marginOk : Bool)
  | auditFlit (p : Fin 12) (free : List Nat) (ctot : List (BitVec 7)) (delay : BitVec 32)
  | packetForward (l : Fin 8) (k : Packet)
  | write (k : Packet)
  | read (k : Packet)
  | readRsp (k : Packet)
  | writeAck (k : Packet)
  | errorRsp (k : Packet)
  | signalPacket (k : Packet)
  | remoteTimeout (l : Fin 8) (slot : Fin 4096)
  -- collectives and Rotation
  | coll (cid : Nat)
  | ldLaunch (l : Fin 8) (w : BitVec 64)
  | collData (k : Packet)
  | collCtrl (k : Packet)
  | collDeadline (slot : Fin 256)
  | collComplete (slot : Fin 256)
  | vote (k : Packet)
  | rotate (cid : Nat)
  | rotData (k : Packet)
  | rotationRoundComplete
  | torusCfg (cid : Nat)
  | routeSet (cid : Nat)
  | linkCtrl (cid : Nat)
  -- Almanac
  | beatBoundary
  | seasonStartBoundary
  | beatSend (depart : BitVec 48)
  | beat (p : Fin 12) (k : Packet) (phase : BitVec 12) (depart : BitVec 48)
  | almSyncLost
  | almCfgApply
  | almRefLost
  | almRefReturn
  | almPpsEdge (e : PpsEdge)
  | almPpsLost
  | almCfg (cid : Nat)
  | almSeasonStart (cid : Nat)
  | gleanWindowEdge (j : Nat)
  -- steward and node host
  | sdDoorbell (ring : Fin 8) (value : BitVec 64)
  | commandAccept (ring : Fin 8) (fetched : Option (List Byte))
  | nopCommand (cid : Nat)
  | regWrite (cid : Nat)
  | regRead (cid : Nat)
  | progLoad (cid : Nat)
  | runStart (cid : Nat)
  | runCtrl (cid : Nat)
  | runAbort (cid : Nat)
  | dmaCopy (cid : Nat) (hostData : List Byte)
  | maintEnter (cid : Nat)
  | maintExit (cid : Nat)
  | maintReset (cid : Nat)
  | dbgMode (cid : Nat)
  | sdBootGo (value : BitVec 64)
  | cbrkResume (value : BitVec 64)
  | ringEnable (ring : Fin 8) (value : BitVec 64)
  | hostBarAccess (bar : Fin 3) (write : Bool) (off : BitVec 34) (len : Nat) (data : List Byte)
  | pcieHostReset
  | ucieFrame (m : Fin 9) (frame : UcieFrame)
  -- resilience
  | sowCfg (cid : Nat)
  | sowOpen (cid : Nat)
  | sowRemirror
  | harvestCfg (cid : Nat)
  | harvestTake (cid : Nat)
  | harvestCapture
  | harvestPhaseEnd
  | harvestTallyCheck (area : Bool)
  | harvestDrain (cid : Nat)
  | harvestRestore (cid : Nat) (head entries : List Byte) (shards : List (List Byte))
  | spareAdopt (cid : Nat) (checkOk : Bool)
  | dieRetire (cid : Nat)
  -- errors, safety, Gleaning
  | pErrTailWrite (b : Fin 64) (value : BitVec 64)
  | pErrAck (b : Fin 64) (value : BitVec 64)
  | sealVerify (cid : Nat)
  | sealRelease (cid : Nat)
  | errInject (cid : Nat)
  | selftestRun (cid : Nat) (failed : List (Nat × Nat × Nat))
  | gleanCfg (cid : Nat)
  | gleanWindow (cid : Nat)
  | telemCfg (cid : Nat)
  | selftest (d : Fin 32) (t : Fin 144) (failed : Option (Fin 8))
  | selftestOverdue (d : Fin 32)
  | agingGuardband (low : List (Fin 64))
  | telemetryRecord (r : TelemetryReading)
  | watchdog
  | ctrlParity (b : Fin 64)
  | fuseParity
  -- clocks, reset, start-up
  | powerOnReset (rise : Bool) (fuses : List (FuseRead × FuseRead))
  | resetN (ns : Nat)
  | warmReset (fuses : List (FuseRead × FuseRead)) (remeasured : Bool)
  | oscWaitEnd (running : Bool)
  | oscRetry
  | powerUpReady (trained : BitVec 32) (checks : PowerUp)
  | clockMonitorWindow (b : Fin 64) (k : Clock) (n : Nat)
  | pllUnlock (b : Fin 64) (k : Clock)
  | pllRelock (b : Fin 64) (k : Clock) (locked : Relock)
  | wclkReturn (again : Restart)
  | optionCommit (value : BitVec 64)
  -- security
  | secAttest (cid : Nat)
  | secIdentity (cid : Nat)
  | secFuseBlow (cid : Nat) (miss : Option FuseMiss)
  | secKeyProvision (cid : Nat) (miss : Option FuseMiss)
  | jtagInstruction (instr : JtagInstr)
  | i3cTransfer (head : I3cHead) (data : BitVec 16)
  -- power and cooling
  | dieTempPoll (temps : List (BitVec 8))
  | powerLimitWindow (watts : Nat)
  | inputVoltage (mv : Nat) (us : Nat) (stages : BitVec 5)
  | supplyFault (stage2 : Bool) (group : Fin 64)
  | coolOkDeassert
  | coolLost
  | coolLostShutdown
  | pumpDutyUpdate
  | coolOkAssert
  | resetNRelease (fuses : List (FuseRead × FuseRead))
  | vinInRange (mv : Nat)
  deriving DecidableEq, Repr

end Sys2Proof
end

