-- ==== Sys2Proof/Config.lean ====
section
/-! DEFINITION. What the manual leaves open: constants without a body. Nothing can be proved of their
values, so a statement about them holds for every value. -/
namespace Sys2Proof

/-- Shape of a fixed binary tree over n leaves (R88, R121): at step k, which two of the partial sums
that are left are added next; each is taken modulo the number left. DESIGN CHOICE (log entry 3). -/
opaque Config.treeJoin : Nat → Nat → Nat × Nat

/-- Which of the results within 1 ulp a function (number, format code, input code) gives (R124). Log
entry 4. -/
opaque Config.ulpPick : Nat → Nat → Nat → Nat

/-- Code of a tail element in the block of a converted VQPUSH (R118 states none): free value number,
element. Log entry 5. -/
opaque Config.pushTail : Nat → Nat → Nat

/-- Shape of the reduction unit's tree once the inactive positions are gone (R121): the active
positions as a mask, the step. Log entry 3. -/
opaque Config.redJoin : Nat → Nat → Nat × Nat

/-- The other half of a byte of which a store writes one FP4 element only (R114 states none): free value
number, byte. Log entry 6. -/
opaque Config.halfByte : Nat → Nat → Nat

/-- Which of n equally good pages the Winnower takes (R207 breaks no ties): free value number. Log entry 7. -/
opaque Config.winnowPick : Nat → Nat

/-- Number of a memory die's edge among those of the die (R210 orders requests by it and gives no numbers): the die,
the die at the other end. Log entry 128. -/
opaque Config.edgeNumber : Nat → Nat → Nat

/-- The activations at which a stack asks for RFM, as its mode registers give them (R219), less one: the stack. Log
entry 129. -/
opaque Config.rfmAfter : Nat → Nat

/-- MCLK cycles between two refreshes of a bank at or below 85 °C (R219), less one. Log entry 129. -/
opaque Config.refreshAfter : Nat

/-- Whether a sector with three or more wrong symbols is reported uncorrectable (R214). Log entry 8. -/
opaque Config.sectorDetect : Nat → Bool

/-- A byte of a miscorrected sector (R214): free value number, byte. Log entry 8. -/
opaque Config.miscorrect : Nat → Nat → BitVec 8

/-- Spare rows of a bank group when new beyond the first (R220 and R224 give no number). Log entry 9. -/
opaque Config.moreSpares : Nat

/-- Spare rows of a bank group when new: R220 speaks of its spares, so there is one at least. -/
def Config.spareRows : Nat := Config.moreSpares + 1

/-- Whether a factor engine's division by a zero pivot that no rule of R181 catches ends its problem as
SINGULAR or as a range breach. Log entry 10. -/
opaque Config.zeroPivotSingular : Nat → Bool

/-- START of the result record of a problem that has not started (R193 states none). Log entry 11. -/
opaque Config.noStart : Nat → BitVec 32

/-- FUNC OR of a COLL on a float format (R285: OR applies to integers only): format code, the two codes. Log
entry 13. -/
opaque Config.collOr : Nat → Nat → Nat → Nat

/-- The bits that Pasoly blows at manufacture in words 0 to 11 (identity) and 17 to 28 (KEY_HASH[0]) of this
device's fuses (R436). Log entry 14. -/
opaque Config.maker : Nat → BitVec 32

/-- The private identity key that the boot ROM derives from IDENTITY_SEED (R447 gives no derivation), and the numbers
that a signature draws (R448): free value number, try. Log entry 14. -/
opaque Config.identityKey : Nat → Nat
opaque Config.nonce : Nat → Nat → Nat

/-- Pasoly's certificate (R447). Log entry 14. -/
opaque Config.certificate : Nat → BitVec 8
opaque Config.certBytes : Nat

/-- The shortest low pulse of RESET_N, in ns, that resets this device, where R417 leaves it open (80 to 120 ns).
Log entry 15. -/
opaque Config.resetPulse : Nat

/-- A start-up time in microseconds, counted on RC (R432): free value number. Log entry 16. -/
opaque Config.bootMark : Nat → BitVec 32

/-- Beats that the option-store load, the programming of one copy and the blowing of one fuse word take (R421, R424 and
R438 give typical times), less one: free value number. Log entry 104. -/
opaque Config.loadBeats : Nat → Nat
opaque Config.copyBeats : Nat → Nat
opaque Config.blowBeats : Nat → Nat

/-- What a reset leaves of a copy and of a fuse word that is being programmed (R424, R438): free value number. Log entry
104. -/
opaque Config.copyLeft : Nat → Nat
opaque Config.blowLeft : Nat → Nat

/-- Whether a byte that a running UPDATE has changed is the old one after a warm reset (R242): free value number,
place. Log entry 113. -/
opaque Config.updateOld : Nat → Nat → Bool

/-- What may stand of the new state of a row that an UPDATE could not read (R242, R257): free value number, place. Log
entry 113. -/
opaque Config.updateOpen : Nat → Nat → BitVec 32

/-- Which neighbour of a fenced edge takes its traffic where there are two (R19): a number of the edge. Log entry 125.
-/
opaque Config.detourUp : Nat → Bool

/-- Which of a link die's two edges a path takes, and the index at which a path to a factor die enters (R17 states
neither): the dies at its ends. Log entry 125. -/
opaque Config.linkEdge : Nat → Nat → Bool
opaque Config.storeEdge : Nat → Nat → Nat

/-- Packets of a class that an edge's buffers hold (R18 gives no number). Log entry 125. -/
opaque Config.poolSize : Nat → Nat

/-- A byte that a crossing between clock domains samples at the wrong edge (R413): free value number, byte. Log entry
103. -/
opaque Config.wrongEdge : Nat → Nat → BitVec 8

/-- CCLK cycles that pass on a die between one moment and the next (R311): the first moment's free value number, the
die. Log entry 133. -/
opaque Config.cycles : Nat → Nat → Nat

/-- A byte of a register as an engine's operand finds it (log entry 142): free value number, byte. -/
opaque Config.registerByte : Nat → Nat → BitVec 8

/-- Whether a duty that falls between two whole percents is rounded up (R463): the temperature. Log entry 17. -/
opaque Config.dutyUp : Nat → Bool

end Sys2Proof
end

