-- ==== Sys2Proof/Machine/State.lean ====
section
/-! DEFINITION. The state of one XV6412 as plain data: every register, queue, buffer and mode the manual
gives the device, and the queue of commands that wait. -/
namespace Sys2Proof.Machine

/-- Bytes by address; an unlisted byte reads 0 (R202, R426 step 12). -/
abbrev Memory := List Host.Cell

/-- Why the machine stops: nothing in the manual stops it, so there is no reason and nobody raises one. -/
inductive Fault where
  deriving DecidableEq, Repr

/-- Why a command has no meaning. -/
inductive Refusal where
  /-- Raised by an arm of exec whose command has no meaning yet. Safe. -/
  | notModelled (mnemonic : String)
  deriving DecidableEq, Repr

/-! ## Tiles -/

/-- One level of the loop stack (R154, R370): body start and end word, passes still to dispatch after this one. -/
structure LoopEntry where
  start  : Nat
  stop   : Nat
  passes : Nat
  deriving DecidableEq, Repr

/-- One bank of the converter registers (R63-R68). -/
structure CvtBank where
  ctrl   : BitVec 6
  seed   : BitVec 64
  scount : BitVec 32
  rmaxT  : BitVec 32
  satcnt : BitVec 32
  flags  : BitVec 8
  scale  : Table (BitVec 32)
  rmax   : Table (BitVec 32)
  /-- the last cycle in which CTRL or a scale was written, with both as they stood before it (R55) -/
  prior  : Option (Nat × BitVec 6 × Table (BitVec 32))
  deriving DecidableEq, Repr

/-- One program context (R131). -/
structure Ctx where
  entry  : BitVec 14
  /-- next word to dispatch; 16,384 when dispatch has run past the last word -/
  pc     : Nat
  icount : BitVec 64
  loops  : List LoopEntry
  sregs  : Table (BitVec 64)
  vl     : Nat
  flags  : Table (BitVec 16)
  layout : Table (BitVec 2)
  cvt    : CvtBank
  /-- the next switch into this context restores zero state (R160) -/
  fresh  : Bool
  deriving DecidableEq, Repr

/-- An instruction in an instruction queue: its word, its count and the cycle of its dispatch. -/
structure QEntry where
  word  : BitVec 64
  count : BitVec 64
  cycle : Nat
  /-- a WAITALM whose mark a Season start has cancelled (R317) -/
  dead  : Bool
  /-- what its reads will meet -/
  upset : Upset
  deriving DecidableEq, Repr

/-- Why dispatch waits or has stopped (R133). -/
inductive Stall where
  | none | branch | loop | halt | stopped | yield | breakpoint | fetchFault | range | cropReturn
  deriving DecidableEq, Repr

/-- Stream state of R167. -/
inductive StreamState where
  | idle | run | halted | brk | faultHold | abftHalt | cwait | imemFault
  deriving DecidableEq, Repr

/-- Catch-crop state of R167. -/
inductive CropState where
  | empty | ready | running | done
  deriving DecidableEq, Repr

/-- A block of the operand queue (R144). -/
structure OqBlock where
  id      : Nat
  /-- instruction count of the ALD that placed it -/
  owner   : BitVec 64
  size    : Nat
  /-- placeholder of R146 -/
  hole    : Bool
  /-- the cycle after its last byte has arrived (R144) -/
  readyAt : Option Nat
  ready   : Bool
  data    : List Byte
  deriving DecidableEq, Repr

/-- A block of the store queue (R145). -/
structure SqBlock where
  id       : Nat
  hole     : Bool
  complete : Bool
  size     : Nat
  data     : List Byte
  deriving DecidableEq, Repr

/-- A store passing through the converter, with its issue cycle and what it captured there (R55, R60, R61). -/
structure CvtJob where
  count  : BitVec 64
  ctx    : Bool
  issue  : Nat
  /-- accumulator store: tile, its captured bank, the partner's bank, layout -/
  acc    : Option (Fin 8 × Bool × Bool × BitVec 2)
  /-- vector store: source format, the codes of its elements (64 at most), scale row -/
  vec    : Option (Nat × List (BitVec 64) × Nat)
  /-- free value number of the codes behind a vector store's last element -/
  tail   : Nat
  fmt    : Nat
  scale  : Table (BitVec 32)
  ctrl   : BitVec 6
  seed   : BitVec 64
  n      : BitVec 32
  row    : Nat
  sq     : Nat
  deriving DecidableEq, Repr

/-- A reader that holds a bank of an accumulator tile (R83). -/
structure AccReader where
  acc  : Fin 8
  bank : Bool
  count : BitVec 64
  due  : Nat
  deriving DecidableEq, Repr

/-- An MMA between its issue and its result cycle (R81). -/
structure MmaJob where
  count : BitVec 64
  ctx   : Bool
  acc   : Fin 8
  add   : Bool
  fmtA  : Nat
  fmtB  : Nat
  a     : List Byte
  b     : List Byte
  /-- result cycle -/
  due   : Nat
  deriving DecidableEq, Repr

/-- A verdict that is pending (R88-R89): the operands, the old value and the value made visible. -/
structure AbftJob where
  mma   : MmaJob
  old   : Table (BitVec 72)
  oldLo : Table (BitVec 72)
  new   : Table (BitVec 72)
  newLo : Table (BitVec 72)
  deriving DecidableEq, Repr

/-- An ACCLOAD between its issue and its exchange (R86). -/
structure LoadJob where
  count  : BitVec 64
  ctx    : Bool
  acc    : Fin 8
  layout : BitVec 2
  /-- bytes of the image read so far, 256 a cycle -/
  data   : List Byte
  due    : Nat
  deriving DecidableEq, Repr

/-- An accumulator tile: two banks, which one is visible, and the busy bit (R74, R82). -/
structure Acc where
  bank0   : Table (BitVec 72)
  bank1   : Table (BitVec 72)
  visible : Bool
  busy    : Bool
  deriving DecidableEq, Repr

/-- One lane of a carry slot (R119). -/
structure CarryLane where
  hi  : BitVec 64
  lo  : BitVec 64
  idx : BitVec 64
  deriving DecidableEq, Repr

/-- A write that has issued and lands in a later cycle (R111, R150, R156). -/
inductive Landing where
  | sreg (ctx : Bool) (r : Nat) (v : BitVec 64)
  | vchunk (reg chunk : Nat) (mask v : BitVec 2048)
  | mreg (m : Nat) (mask v : BitVec 4096)
  | vl (ctx : Bool) (n : Nat)
  | flagInc (ctx : Bool) (f : Nat) (n : Nat)
  | flagSet (ctx : Bool) (f : Nat) (n : Nat)
  | cvtReg (ctx : Bool) (off : Nat) (v : BitVec 64)
  | saveChunk (a : Fin 8) (bank : Bool) (off k : Nat)
  | loadChunk (a : Fin 8) (bank : Bool) (off k : Nat)
  | sram (off : Nat) (data : List Byte)
  /-- S register of an ALDS, with the instruction's count -/
  | loadS (count : BitVec 64) (ctx : Bool) (r : Nat) (v : BitVec 64)
  /-- one half of a byte of own SRAM, by an FP4 element that is stored alone -/
  | sramHalf (off : Nat) (high : Bool) (v : Nat)
  /-- a reduction reads chunk h of its source (R120) -/
  | redRead (count : BitVec 64) (h : Nat)
  /-- a contribution to a converter bank (R60, R113): a row's maximum, clamps, flags -/
  | cvtUpdate (ctx : Bool) (row : Option (Nat × BitVec 32)) (clamps : Nat) (flags : BitVec 8)
  | sqDone (id : Nat)
  deriving DecidableEq, Repr

/-- A landing write, its cycle and its instruction's place in program order (R111, R112, R150, R156). -/
structure Pend where
  cycle : Nat
  ord   : Nat
  eff   : Landing
  deriving DecidableEq, Repr

/-- A vector instruction before its completion (R113). -/
structure VecJob where
  count : BitVec 64
  ctx   : Bool
  /-- completion cycle -/
  due   : Nat
  deriving DecidableEq, Repr

/-- A reduction instruction before its completion (R119, R120): what it took at issue, and the chunks of its
source that it has read. -/
structure RedJob where
  count : BitVec 64
  ctx   : Bool
  /-- completion cycle -/
  due   : Nat
  word  : BitVec 64
  /-- effective length, and the chunks it spans -/
  len   : Nat
  n     : Nat
  mask  : BitVec 4096
  /-- index base of a RACC -/
  base  : Nat
  got   : List (BitVec 2048)
  /-- lanes that a completing RACC or RCLR leaves in a slot -/
  carry : Option (Nat × Table CarryLane)
  deriving DecidableEq, Repr

/-- Where one part of an access instruction stands. -/
inductive SegState where
  | waiting | sent (slot : Nat) | written (slot : Nat) | done
  /-- error code, and the offset in the request of the first byte that failed -/
  | failed (code off : Nat)
  deriving DecidableEq, Repr

/-- One request's worth of an access instruction (R148): address as formed, length, place in the block. -/
structure Seg where
  addr  : BitVec 64
  len   : Nat
  pos   : Nat
  elem  : Nat
  field : Nat
  /-- second address of a copy -/
  dst   : BitVec 64
  /-- the only half of its byte that a store of one FP4 element writes -/
  half  : Option Bool
  state : SegState
  data  : List Byte
  deriving DecidableEq, Repr

/-- A request slot in use (R148): the instruction and its segment, and the request: 1 write, 2 read, 6 signal;
`stage` 0 on its way, 1 taken by the memory or mesh it names, 2 a copy's write that waits for bank places,
3 waiting out a RETRY (R206). -/
structure SlotUse where
  count : BitVec 64
  seg   : Nat
  kind  : Nat
  addr  : BitVec 64
  len   : Nat
  data  : List Byte
  half  : Option Bool
  stage : Nat
  /-- the cycle in which the request was made (R148) -/
  made  : Nat
  /-- place in the order in which the device's requests were issued (R18), and the beat of the first attempt
  (R206) -/
  seq   : Nat
  age   : Nat
  deriving DecidableEq, Repr

/-- An access instruction that has issued and not completed (R116, R151). -/
structure AccOp where
  count  : BitVec 64
  ctx    : Bool
  word   : BitVec 64
  segs   : List Seg
  /-- operand-queue blocks reserved -/
  blocks : List Nat
  /-- store-queue blocks a store took -/
  taken  : List SqBlock
  /-- effective length -/
  len    : Nat
  mask   : BitVec 4096
  s1     : BitVec 64
  s2     : BitVec 64
  s3     : BitVec 64
  idx    : List Int
  /-- the cycle at which what has been served so far was complete (R151) -/
  due    : Nat
  held   : Bool
  /-- a fault of its own has been logged while it was cancelled (R116) -/
  nested : Bool
  /-- its read of own SRAM meets an error that SECDED cannot correct -/
  upset  : Bool
  deriving DecidableEq, Repr

/-- Registers of a tile (R166-R172; R94-R98; R126-R128). -/
structure TileRegs where
  view     : Bool
  ctxSel   : Bool
  illLast  : BitVec 64
  cwmExec  : BitVec 64
  cwmAcc   : BitVec 64
  cropCtrl : BitVec 64
  cropRet  : BitVec 64
  brkCtrl  : BitVec 64
  brkCount : BitVec 64
  brkTag   : BitVec 64
  mxCtrl   : BitVec 3
  abftMis  : Bool
  abftHalt : Bool
  linesUn  : BitVec 32
  mismatch : BitVec 32
  abftFirst : BitVec 64
  vxFault  : BitVec 64
  vxAddr   : BitVec 64
  deriving DecidableEq, Repr

/-- The cycle that the tile has reached, and those at which each unit is next free (R81, R87, R111, R120, R135,
R147); `req` is the first cycle in which a request may leave (R148). Of the cycle it has reached the tile keeps ALM_NOW
as it found it, and, where the NOTIFY queue had room, how often that queue had left the full state (R135, R153). -/
structure TileTimes where
  now    : Nat
  exec   : Nat
  acc    : Nat
  array  : Nat
  vec    : Nat
  red    : Nat
  rport  : Nat
  wport  : Nat
  cvt    : Nat
  portA  : Nat
  req    : Nat
  dispatch : Nat
  beat   : Nat
  room   : Option Nat
  deriving DecidableEq, Repr

/-- One tile of a compute die (R130-R172). -/
structure Tile where
  imem    : Table (BitVec 64)
  sram    : Memory
  stream  : StreamState
  crop    : CropState
  active  : Bool
  switching : Bool
  stall   : Stall
  /-- the next dispatch does not meet a breakpoint again (R164) -/
  passBrk : Bool
  stepping : Bool
  ctx0    : Ctx
  ctx1    : Ctx
  eq      : List QEntry
  aq      : List QEntry
  oqm     : List OqBlock
  oqv     : List OqBlock
  sq      : List SqBlock
  cvt     : List CvtJob
  readers : List AccReader
  mmas    : List MmaJob
  abft    : List AbftJob
  loads   : List LoadJob
  accs    : Table Acc
  vregs   : Table (BitVec 4096)
  masks   : Table (BitVec 4096)
  carry   : Table (Table CarryLane)
  pend    : List Pend
  vjobs   : List VecJob
  rjobs   : List RedJob
  /-- cycle at which the scalar unit's divider delivers (R156) -/
  div     : Option Nat
  ops     : List AccOp
  slots   : Table SlotUse
  nextId  : Nat
  overrun : Bool
  /-- the crop's return beat was cancelled by a Season start (R317) -/
  retDead : Bool
  /-- a catch-crop switch has been decided and waits for quiescence (R161, R163); where its return beat decided it,
  in a cycle that nothing fixes, the cycle that the tile had reached -/
  leaving : Bool
  leftAt  : Option Nat
  /-- cycle at which the running switch began, how many of its cycles port B has run, and the incoming images as
  far as they have been read (R162) -/
  swAt    : Nat
  swDone  : Nat
  swAcc   : List Byte
  swVec   : List Byte
  /-- the cycle in which the dispatch of a stream that has been started begins (R133) -/
  begins  : Option Nat
  /-- the tick since which nothing has issued, dispatched, become ready or complete (R159) -/
  still   : Nat
  /-- ABORT waits for requests that are out (R166) -/
  aborting : Bool
  /-- not tested since its period began, and not by the end of the last one (R403) -/
  untested : Bool
  overdue : Bool
  /-- Season of its last ABFT_MISMATCH (R374) -/
  flawed  : Option (BitVec 16)
  regs    : TileRegs
  times   : TileTimes
  deriving DecidableEq, Repr

/-! ## Errors and the seal -/

/-- An entry of an error ring, its four words (R385). -/
structure ErrEntry where
  w0 : BitVec 64
  w1 : BitVec 64
  w2 : BitVec 64
  w3 : BitVec 64
  deriving DecidableEq, Repr

/-- Error ring, first capture and handler of one die (R385-R388, R408). -/
structure ErrRing where
  ring   : Table ErrEntry
  head   : Nat
  tail   : Nat
  unread : Nat
  ovf    : Nat
  logged : Nat
  first  : Option ErrEntry
  handling : Bool
  /-- classes of FATAL entries that the open handler holds -/
  fatal  : BitVec 16
  deriving DecidableEq, Repr

/-- One entry of the detection log (R410). -/
structure DetEntry where
  beat : BitVec 64
  word : BitVec 64
  deriving DecidableEq, Repr

/-- What every die has whatever its type. -/
structure Die where
  errs     : ErrRing
  debug    : Bool
  retired  : Bool
  railsOff : Bool
  /-- rails turned off by temperature -/
  hotOff   : Bool
  /-- rails turned off by R396 or R455; only a power-on restores them -/
  cut      : Bool
  /-- held in reset, on bypass, after a PLL that did not relock (R416) -/
  held     : Bool
  temp     : BitVec 8
  tempMax  : BitVec 8
  tempState : Nat
  /-- consecutive readings at or above the throttle, trip and shutdown limits (R466) -/
  hot      : Nat × Nat × Nat
  guard    : Nat
  deriving DecidableEq, Repr

/-- What a compute die has beside its tiles: the field controller's NOTIFY queue (R142), the tiles whose BREAK it
has been told of (R164), and how often the queue has left the full state. -/
structure ComputeDie where
  notify : List (BitVec 64)
  broke  : List Nat
  freed  : Nat
  deriving DecidableEq, Repr

/-! ## Memory dies -/

/-- An entry of a bank queue (R205): the request it belongs to, its bytes, whether it is a corrected write-back (R216)
or a partial write that is not known to succeed before its sector has been read (R215), the MCLK cycle of its admission
and MD_MEM_CFG as it stood then (R207, R223). -/
structure BankEntry where
  seq    : Nat
  who    : Requester
  addr   : Nat
  len    : Nat
  write  : Bool
  wide   : Bool
  wb     : Bool
  waits  : Bool
  born   : Nat
  cfg    : BitVec 32
  deriving DecidableEq, Repr

/-- An admitted request that is not fully served: stack, address, the data as of its admission (R210),
entries left, and the offset of its first byte that failed. -/
structure MemJob where
  seq    : Nat
  who    : Requester
  stack  : Bool
  addr   : Nat
  len    : Nat
  write  : Bool
  data   : List Byte
  left   : Nat
  err    : Option Nat
  deriving DecidableEq, Repr

/-- One HBM bank: queue, hold, corrected write-backs that wait for a place, open page (R205-R207, R216), activations
since the last RFM and the MCLK cycle of the last refresh (R219). -/
structure Bank where
  queue  : List BankEntry
  hold   : List MemReq
  back   : List BankEntry
  open?  : Option Nat
  served : Nat
  acts   : Nat
  fresh  : Nat
  deriving DecidableEq, Repr

/-- An armed injection (R226): its symbols and their positions, and the number of the die's next request when it was
armed. -/
structure Armed where
  symbols : Nat
  pos0    : Nat
  pos1    : Nat
  since   : Nat
  deriving DecidableEq, Repr

/-- What the device holds of one HBM sector beside its bytes (R215, R226). -/
structure Sector where
  poison   : Bool
  injected : Bool
  /-- symbols of the stored sector that are wrong -/
  bad      : Nat
  armed    : Option Armed
  corrected : Bool
  /-- bursts of which the stack's on-die ECC reports an uncorrectable error (R217) -/
  odecc    : List Nat
  deriving DecidableEq, Repr

/-- One HBM stack (R202, R218-R224, R229, R232). -/
structure HbmStack where
  trained : Bool
  down    : Bool
  oos     : Bool
  banks   : Table Bank
  sectors : Table Sector
  temp    : BitVec 8
  tempMax : BitVec 8
  level   : Nat
  hot     : Nat
  /-- pseudo-channels that a recalibration has taken out of service; the beat and the temperature of each one's last
  (R401) -/
  recal   : List Nat
  calAt   : Table Nat
  calTemp : Table Nat
  /-- repaired rows: page address, permanent or not -/
  repairs : List (Nat × Bool)
  rowCorr : Table Nat
  scrub   : Nat
  deriving DecidableEq, Repr

/-- Training registers and update engine of one memory die (R260-R262). -/
structure Train where
  scale   : BitVec 32
  backoff : BitVec 32
  growth  : BitVec 32
  smin    : BitVec 32
  smax    : BitVec 32
  interval : BitVec 16
  clean   : BitVec 32
  vtimeout : BitVec 32
  voteSat : Bool
  straggler : BitVec 2
  vstep   : BitVec 32
  vvalid  : Bool
  vote    : BitVec 8
  segDone : BitVec 32
  last    : BitVec 8
  active  : Bool
  nonfinite : BitVec 32
  skips   : BitVec 32
  deriving DecidableEq, Repr

/-- One memory die (R228-R231). -/
structure MemDie where
  cfg    : BitVec 32
  scrubCfg : BitVec 16
  passes : BitVec 32
  ue     : Nat
  odecc  : Nat
  ce     : Nat
  first  : BitVec 64
  st0    : HbmStack
  st1    : HbmStack
  train  : Train
  jobs   : List MemJob
  delivered : Nat
  retries : Nat
  nextSeq : Nat
  /-- the MCLK cycle that the die has reached, and the number of the edge over which the latest request of that
  cycle came (R210) -/
  clock  : Nat
  lastEdge : Nat
  /-- what Gleaning has moved, beat and bytes, in the last 10 ms (R402); the beat at which the scrub pass began -/
  spent  : List (Nat × Nat)
  passAt : Nat
  deriving DecidableEq, Repr

/-- One segment of a running UPDATE: its descriptor, what its result record will say (R257), and the
CARRIED and NONFINITE of its count word (R236). -/
structure SegRun where
  words  : List (BitVec 64)
  status : Nat
  nEff   : BitVec 32
  nonfin : Bool
  maxW   : BitVec 32
  left   : Nat
  gs     : BitVec 32
  deriving DecidableEq, Repr

/-- The running UPDATE (R246): S as the vote was taken with, the first error response's code plus one, and the
memory as it was before the segments ran (R242). -/
structure UpdateRun where
  cid    : Nat
  entered : BitVec 64
  scale  : BitVec 32
  segs   : List SegRun
  vote   : Option (BitVec 8)
  err    : Nat
  voteBeat : BitVec 64
  before : Memory
  deriving DecidableEq, Repr

/-! ## Factor dies -/

/-- Where a problem stands (R181, R183, R188): its factor, the two stages of a solve, a residual, a retain
that waits or whose header is BUSY. -/
inductive FactorStage where
  | factor | first | second | residual | commitWait | commit
  deriving DecidableEq, Repr

/-- A problem that has started (R176): its lane, its descriptor and where it stands. Right-hand sides,
intermediates and iterates are kept column by column. -/
structure Problem where
  index  : Nat
  lane   : Nat
  words  : List (BitVec 64)
  stage  : FactorStage
  start  : BitVec 64
  cycles : Nat
  /-- reason of a rejected warm start, or 0 (R192) -/
  warm   : Nat
  /-- A in FX48 until it is factorised, then the factor (R187), row by row -/
  mat    : List (List Int)
  /-- pivot rows, or the values of tau -/
  piv    : List Int
  /-- scale exponents of the factor -/
  fea    : Int
  fel    : Int
  /-- B in FP64 -/
  b      : List (List (BitVec 64))
  rhs    : List (List Int)
  mid    : List (List Int)
  /-- scale exponent of a correction's right-hand side (R183) -/
  er     : Option Int
  x      : List (List (BitVec 64))
  sweeps : Nat
  rnorm  : BitVec 64
  pivmin : BitVec 64
  status : Nat
  /-- store slot that the lane reads (R189) -/
  reading : Option Nat
  deriving DecidableEq, Repr

/-- The running batch of a factor die (R176, R194). -/
structure BatchRun where
  cid    : Nat
  start  : BitVec 64
  count  : Nat
  /-- next problem to assign -/
  next   : Nat
  probs  : List Problem
  done   : Nat
  lastBeat : BitVec 64
  /-- first error response: its code plus one, or 0 -/
  err    : Nat
  ok     : Nat
  partly : Nat
  notRun : Nat
  breach : Nat
  other  : Nat
  rejected : Nat
  /-- unchecked marks of R399: codes 1 and 5 -/
  off    : Bool
  unmet  : Bool
  deriving DecidableEq, Repr

/-- One factor die (R199). -/
structure FactorDie where
  base   : BitVec 48
  slotBytes : BitVec 19
  slots  : BitVec 23
  valid  : Bool
  breaches : BitVec 32
  faults : BitVec 32
  batch  : Option BatchRun
  deriving DecidableEq, Repr

/-! ## Torus -/

inductive PortState where
  | down | training | up | retrain | fenced | standby
  deriving DecidableEq, Repr

/-- A flit in a port's transmit or replay buffer, with the packet that it is part of. -/
structure BufFlit where
  flit   : Flit
  pkt    : Option Packet
  deriving DecidableEq, Repr

/-- One torus port (R265-R281, R307). -/
structure TorusPort where
  role   : BitVec 2
  medium : BitVec 2
  state  : PortState
  peer   : BitVec 16
  retrains : Nat
  uncorr : Nat
  replays : Nat
  corr   : Nat
  /-- transmitter: next sequence number, unacknowledged flits, credits and flits sent per VC -/
  seq    : Nat
  replay : List BufFlit
  /-- flits at the end of the replay buffer that are to be sent again, after a NAK or a retrain -/
  resend : Nat
  queue  : List BufFlit
  credits : Table Nat
  ctot   : Table Nat
  turn   : Bool
  /-- receiver: next expected sequence number, buffers in use and returned per VC -/
  expect : Nat
  nakOut : Bool
  used   : Table Nat
  back   : Table Nat
  /-- the channel that the next flit reports; buffers freed since a channel's last report, and buffers empty but not yet
  freed (R267) -/
  cvc    : Nat
  freed  : Table Nat
  vacated : Table Nat
  /-- payload of the packet that each channel is receiving -/
  rx     : Table (List Byte)
  /-- the flit that has gone out last (R266) -/
  wire   : Option Flit
  /-- the retrain began in STANDBY (R265) -/
  fromStandby : Bool
  nakSeq : Nat
  nakRun : Nat
  failed : Nat
  delay  : Option (BitVec 32)
  /-- bytes that Gleaning has sent in the last 10 ms, by beat (R402) -/
  spent  : List (Nat × Nat)
  deriving DecidableEq, Repr

/-- A remote-request slot of a link die (R282, R284). -/
structure RemSlot where
  gen    : Nat
  busy   : Option Requester
  /-- beats since reset: when its request left, and when it may be used again -/
  since  : Nat
  block  : Nat
  /-- the address of its request, in global form -/
  addr   : BitVec 64
  deriving DecidableEq, Repr

/-- A contribution as an owner has received it (R291). -/
structure Contribution where
  bytes  : Nat
  included : Bool
  excluded : Bool
  deriving DecidableEq, Repr

/-- A COLL that has started (R285-R295). -/
structure CollRun where
  cid    : Nat
  algo   : Nat
  rank   : Nat
  members : List (BitVec 16)
  /-- first element and size of each shard, by rank (R287) -/
  shards : List (Nat × Nat)
  launched : Option (BitVec 64)
  /-- the loss scale and the local vote at launch (R290, R293) -/
  scale  : BitVec 32
  vote   : BitVec 8
  /-- votes met so far -/
  votes  : BitVec 8
  /-- owner algorithm: contributions by rank, the shard under combination in WIRE codes, and what has become of
  this member's own contribution to each owner: 0 on its way, 1 included, 2 excluded and to be carried at the
  launch, 3 excluded and carried or dropped -/
  contribs : List Contribution
  acc    : List Nat
  anyIn  : Bool
  outs   : List Nat
  finished : Bool
  exclIn : Nat
  nEff   : Nat
  carried : Nat
  stale  : Nat
  /-- other schedules: own values by phase and element, packets that wait, events to come -/
  vals   : List (Nat × Nat × List Nat)
  wait   : List Packet
  left   : Nat
  /-- result-record STATUS of a COLL that an error has ended, and the error's code -/
  status : Nat
  code   : Nat
  ended   : Bool
  deriving DecidableEq, Repr

/-- A packet that has reached this device: the link die that has it, and that die's ALM_NOW as its last flit was
accepted (R320). -/
structure Delivered where
  ld     : Nat
  pkt    : Packet
  beat   : Nat
  deriving DecidableEq, Repr

/-- A packet received whole that waits in a link die: its port and virtual channel, and the die's ALM_NOW as its last
flit was accepted (R315, R320). -/
structure Arrival where
  port   : Nat
  vc     : Nat
  pkt    : Packet
  beat   : Nat
  deriving DecidableEq, Repr

/-- One collective slot (R282, R283, R290). -/
structure CollSlot where
  gen    : Nat
  held   : Bool
  /-- early packets in arrival order, each at the link die that stores it (R283) -/
  early  : List Delivered
  run    : Option CollRun
  deriving DecidableEq, Repr

/-- An entry of a Rotation schedule (R300), with the bytes written or acknowledged so far. -/
structure RotEntry where
  recv  : Bool
  peer  : BitVec 16
  round : Nat
  chunk : Nat
  addr  : Nat
  len   : Nat
  count : Nat
  deriving DecidableEq, Repr

/-- The running ROTATE (R301): the round it is in, and the first error's status. -/
structure RotRun where
  cid    : Nat
  round  : Nat
  rounds : Nat
  entries : List RotEntry
  status : Nat
  deriving DecidableEq, Repr

/-- The vote round this device is in (R294): the OR so far, children that have not answered, the parent, and
the result once it is known. -/
structure VoteRun where
  word   : BitVec 8
  children : List (BitVec 16)
  due    : List (BitVec 16)
  parent : Option (BitVec 16)
  result : Option (BitVec 8)
  deriving DecidableEq, Repr

/-- What each link die counts (R305, R306). -/
structure LinkDie where
  stale  : Nat
  late   : Nat
  audits : Nat
  misses : Nat
  missPort : Nat
  missVc : Nat
  deriving DecidableEq, Repr

/-- A remote request that no link die has taken into a slot yet (R282). -/
structure RemoteReq where
  who    : Requester
  dest   : BitVec 16
  ptype  : BitVec 6
  addr   : BitVec 48
  arg    : BitVec 64
  len    : Nat
  data   : List Byte
  deriving DecidableEq, Repr

/-- A packet on its way through the die fabric: the link die it comes from, the port and the channel it goes to
(R271). -/
structure Crossing where
  src    : Nat
  port   : Nat
  vc     : Nat
  pkt    : Packet
  deriving DecidableEq, Repr

/-- Torus configuration, link dies, packets (R34, R35; R282-R308). -/
structure Net where
  coordValid : Bool
  coord  : BitVec 16
  geom   : BitVec 18
  job    : BitVec 64
  jobAddr : BitVec 48
  lifetime : BitVec 16
  reqTimeout : BitVec 16
  auditPeriod : BitVec 8
  lds    : Table LinkDie
  waiting : List RemoteReq
  detour : Table (BitVec 64)
  ports  : Table TorusPort
  remote : Table RemSlot
  colls  : Table CollSlot
  rot    : Option RotRun
  rotGen : Nat
  voteGen : Nat
  vote   : Option VoteRun
  /-- the device's own packets that no link die has sent yet -/
  out    : List Packet
  /-- packets received whole that wait in a link die -/
  arrived : List Arrival
  /-- packets that a port has given up unsent: they hold no receive buffer and keep their virtual channel (R281) -/
  parked : List (Nat × Nat × Packet)
  /-- packets between two link dies -/
  crossing : List Crossing
  /-- trained ports that MAINT_EXIT's audit has not heard (R351) -/
  unheard : List Nat
  /-- packets delivered to this device -/
  inbox  : List Delivered
  deriving DecidableEq, Repr

/-! ## Almanac -/

/-- A die's copy of the Almanac, the CCLK cycles of its previous beat, and the moment from which those of the current
one are counted (R310, R311). -/
structure AlmCopy where
  now    : BitVec 64
  season : BitVec 16
  cycles : Nat
  mark   : Nat
  deriving DecidableEq, Repr

def AlmCopy.reset : AlmCopy := ⟨0, 0, 0, 0⟩

/-- Settings of ALM_CFG that wait for their beat (R323). -/
structure AlmPending where
  /-- beat at which its command executed, counted since reset -/
  since  : Nat
  set    : BitVec 5
  role   : BitVec 2
  parent : BitVec 4
  children : BitVec 12
  period : BitVec 12
  diverge : BitVec 8
  miss   : BitVec 4
  season : BitVec 16
  gen    : BitVec 8
  deriving DecidableEq, Repr

/-- A Season start that waits (R317). -/
structure SeasonPending where
  cid    : Nat
  start  : BitVec 64
  season : BitVec 16
  gen    : BitVec 8
  deriving DecidableEq, Repr

/-- A Gleaning window (R400-R406). -/
structure GleanWin where
  start  : BitVec 64
  stop   : BitVec 64
  tasks  : BitVec 4
  isOpen : Bool
  deriving DecidableEq, Repr

/-- The warden's Almanac (R309-R327). -/
structure Almanac where
  now    : BitVec 64
  /-- phase at the boundary or the step from which the current beat's cycles are counted -/
  phase  : BitVec 12
  season : BitVec 16
  children : BitVec 12
  parent : BitVec 4
  period : BitVec 12
  diverge : BitVec 8
  miss   : BitVec 4
  role   : BitVec 2
  offset : BitVec 32
  gen    : BitVec 8
  hops   : BitVec 8
  ppsOk  : Bool
  refOk  : Bool
  state  : BitVec 3
  adj    : BitVec 32
  refLost : Nat
  syncLost : Nat
  diverged : Nat
  staleBeats : Nat
  /-- beats counted since reset, through every Season: the model's own measure of time (R284, R159, R206) -/
  total  : Nat
  pend   : List AlmPending
  seasons : List SeasonPending
  joined : Bool
  inBand : Nat
  ppsRun : Nat
  refSeen : Bool
  lostLogged : Bool
  sinceBeat : Nat
  windows : List GleanWin
  /-- every die's own copy, by control block (R310) -/
  copies : Table AlmCopy
  /-- last boundary of this Season for which the master has sent its packets (R314) -/
  beatSent : Nat
  deriving DecidableEq, Repr

/-! ## Steward and node host -/

inductive CmdStage where
  | accepted | delivered | held | ready | running | finished
  deriving DecidableEq, Repr

/-- An accepted command: effective header and parameters (R336, R339). -/
structure Cmd where
  cid    : Nat
  ring   : Fin 8
  opcode : BitVec 16
  tag    : BitVec 16
  irq    : Bool
  fence  : Bool
  execEn : Bool
  execBeat : BitVec 64
  /-- control blocks it names, ascending; none for a device command -/
  targets : List Nat
  params : List Byte
  clamped : Bool
  late   : Bool
  /-- its reply is discarded (R331) -/
  mute   : Bool
  /-- first status other than OK so far, and RESULT so far -/
  status : Nat
  result : BitVec 64
  /-- beat at which it began to run, in the Almanac's count and in that of all beats since reset -/
  began  : BitVec 64
  since  : Nat
  /-- places of its writes that were lost in a UCIe module (R329) -/
  lost   : List Nat
  /-- dies whose copy of it an edge has lost (R19) -/
  cutOff : List Nat
  stage  : CmdStage
  deriving DecidableEq, Repr

/-- One command ring (R335, R337, R354, R357). -/
structure Ring where
  cqBase : BitVec 52
  rqBase : BitVec 52
  cqLog  : BitVec 5
  rqLog  : BitVec 5
  irqAll : Bool
  en     : Bool
  head   : Nat
  prod   : Nat
  outstanding : Nat
  brk    : Bool
  fetchErr : Bool
  passBrk : Bool
  rqTail : Nat
  rqPhase : Bool
  rqHead : BitVec 16
  /-- reply entries not yet consumed -/
  rqUsed : Nat
  seq    : BitVec 32
  deriving DecidableEq, Repr

/-- How the node host's last access through a BAR completed (R333, R444). -/
inductive BarReply where
  | none | done | unsupported | completerAbort
  | data (l : List Byte)
  deriving DecidableEq, Repr

/-- The steward and its host interface (R330-R358). -/
structure Steward where
  evLost : Nat
  hostDebug : Bool
  mode   : Nat
  boot   : Nat
  bars   : Bool
  aper   : BitVec 16
  bootLen : BitVec 25
  fails  : Nat
  result : BitVec 8
  staging : Memory
  evqBase : BitVec 52
  evqLog : BitVec 5
  evqEn  : Bool
  evqHead : BitVec 16
  evqTail : Nat
  /-- event records not yet consumed -/
  evqUsed : Nat
  evqPhase : Bool
  cbrkCtrl : BitVec 64
  cbrkCount : BitVec 32
  cbrkTag : BitVec 32
  rings  : Table Ring
  /-- ring at which the round-robin search begins (R337) -/
  turn   : Nat
  cmds   : List Cmd
  nextCid : Nat
  /-- MSI-X vectors raised, oldest first -/
  vectors : List Nat
  modules : Table Nat
  modRetry : Table Nat
  hostMem : Memory
  barReply : BarReply
  gpio   : Bool
  /-- compute dies that the runtime retires for their ABFT mismatches once their traffic has drained (R374) -/
  condemned : List Nat
  deriving DecidableEq, Repr

/-- A record that the buddy has not acknowledged in its latest state (R365): its step, the number of its
latest write, whether that write failed. -/
structure LagEntry where
  step   : BitVec 64
  seq    : Nat
  failed : Bool
  deriving DecidableEq, Repr

/-- The Sowing Log of this device (R362-R365, R382); `seq` numbers the mirror writes. -/
structure Sow where
  en     : Bool
  base   : BitVec 48
  records : BitVec 32
  dir    : BitVec 8
  mirrorOut : BitVec 48
  mirrorIn : BitVec 48
  step   : BitVec 64
  isOpen : Bool
  replay : Bool
  any    : Bool
  lost   : Bool
  lostLogged : Bool
  lag    : List LagEntry
  seq    : Nat
  deriving DecidableEq, Repr

/-- A running HARVEST_RESTORE (R373): its command, which of its reads are under way (0 the first words of the holder's
two manifests, 1 the manifest, 2 shards and mirror ring), the area it reads, answers that have not come, what has come
by its address on the holder, the manifest, and the code of an error response. -/
structure Restore where
  cid    : Nat
  phase  : Nat
  base   : Nat
  left   : Nat
  got    : Table (List Byte)
  manifest : List Byte
  err    : Option Nat
  deriving DecidableEq, Repr

/-- Harvests of this device (R366-R372, R382, R383): `state` as SD_HRV_STATUS.STATE but for a restore, `phase` 0
capture; small regions: 1 the holder's manifests are read, 2 the area is claimed, 3 its manifest is written, 4 the
regions; 5 tensors; completion: 6 the manifest with its Tallies, 7 the holder checks; `left` answers of the holder
that have not come, of `total`. -/
structure Harvest where
  interval : BitVec 32
  auto   : Bool
  regionAddr : BitVec 48
  regions : BitVec 32
  stage  : BitVec 48
  hold   : BitVec 48
  peerHold : BitVec 48
  area   : BitVec 64
  state  : Nat
  phase  : Nat
  take   : Bool
  step   : BitVec 64
  doneStep : BitVec 64
  anyDone : Bool
  beat   : BitVec 64
  season : BitVec 16
  /-- a Harvest point has come and its capture has not begun: its step, beat and Season -/
  pointDue : Bool
  dueStep : BitVec 64
  dueBeat : BitVec 64
  dueSeason : BitVec 16
  /-- first words of the holder's two manifests, as read before the copy (R369) -/
  heads  : Table (List Byte)
  /-- the holder drains the target area: the claim waits, and UPDATE with it (R372) -/
  waits  : Bool
  /-- on the holder: areas that the buddy has claimed and that have no verdict yet (R371) -/
  coming : List Nat
  /-- on the holder: requests to check an area that have not been answered (R368) -/
  checks : List Packet
  /-- on the holder: the hold area that the running drain reads (R372) -/
  drain  : Nat
  /-- hold area of the holder that the next Harvest goes to -/
  target : Bool
  total  : Nat
  left   : Nat
  /-- Tallies of the shards sent so far, in entry order -/
  tallies : List (List Byte)
  /-- a restore has failed or not finished (R373) -/
  restoreBad : Bool
  restore : Option Restore
  deriving DecidableEq, Repr

/-- Retired dies and the two fallow sites (R374, R375, R383). -/
structure Sites where
  retired : BitVec 32
  s32     : BitVec 2
  s32cd   : BitVec 5
  s33     : BitVec 2
  s33cd   : BitVec 5
  deriving DecidableEq, Repr

/-! ## Warden -/

/-- The result seal and the detection log (R394-R400, R409, R410). -/
structure Seal where
  isSealed : Bool
  faultN : Bool
  log    : Table DetEntry
  head   : Nat
  wrapped : Bool
  detections : Nat
  marks  : Nat
  fatalOpen : BitVec 16
  /-- detections not handled: die, code and whether a handler holds it -/
  unhandled : List (Nat × Nat × Bool)
  deriving DecidableEq, Repr

/-- Gleaning and telemetry (R404-R407, R411). -/
structure Glean where
  tasks  : BitVec 4
  hbm    : BitVec 16
  link   : BitVec 16
  period : BitVec 16
  /-- hours since the option store was last written for the guardband (R404) -/
  hours  : Nat
  telBase : BitVec 48
  telRecords : BitVec 32
  telPeriod : BitVec 32
  telEn  : Bool
  telSeq : Nat
  /-- beat from which the running period of telemetry counts, in all beats since reset (R405) -/
  telAt  : Nat
  deriving DecidableEq, Repr

/-- One copy of the option store: its bytes, whether it checks, its page and page writes. -/
structure OptCopy where
  data  : Memory
  page  : Nat
  writes : Table Nat
  deriving DecidableEq, Repr

/-- Where start-up stands (R426). -/
inductive BootStep where
  | resetHeld | crystalWait | crystalHung | waitVin | loading | boot | starting | ready | failed | oscFail | wclkLost
  deriving DecidableEq, Repr

/-- Clocks, resets and start-up (R411-R432). -/
structure Clocks where
  /-- warm resets that a source has begun and that have not taken place: source, block -/
  due    : List (Nat × Nat)
  warmCount : Nat
  loop   : Nat
  absorbed : Nat
  kind   : BitVec 4
  source : BitVec 4
  block  : BitVec 8
  forced : Nat
  oscRetries : Nat
  hclk   : BitVec 8
  cclk   : BitVec 8
  fclk   : BitVec 8
  mclk   : BitVec 8
  onRc   : Bool
  ref156 : Bool
  wclkOk : Bool
  locked : Bool
  lost   : BitVec 64
  step   : BootStep
  /-- the start-up that runs, or ran last, keeps the contents of HBM (R418) -/
  inWarm : Bool
  /-- what the measurement of a warm sequence's retained images will say (R424) -/
  passes : Bool
  /-- STATE of the Almanac when the 156.25 MHz reference was lost, until it is back (R416) -/
  almWas : Option (BitVec 3)
  oscWait : Nat
  xtal   : BitVec 32
  rails  : BitVec 32
  plls   : BitVec 32
  endpoint : BitVec 32
  armed  : Bool
  bypass : List (Nat × Nat)
  /-- memory dies whose PLL a warm reset locks again: their stacks are trained on the way to READY (R416) -/
  train  : List Nat
  deriving DecidableEq, Repr

/-- Programming of the option store that runs or waits (R422, R424, R404): whether the node host commits it, the copies
still to be programmed, the image, and the beats that the first of them still takes. -/
structure StoreWrite where
  host   : Bool
  copies : List Bool
  image  : Memory
  left   : Nat
  deriving DecidableEq, Repr

/-- The option store (R421-R424, R429): the beats that a running load still takes, and its writes, the running one
first. -/
structure Options where
  copy0  : OptCopy
  copy1  : OptCopy
  stage  : Memory
  inForce : Memory
  inUse  : Bool
  ok0    : Bool
  ok1    : Bool
  fault  : Bool
  restarts : Nat
  load   : Nat
  writes : List StoreWrite
  deriving DecidableEq, Repr

/-- A running SEC_FUSE_BLOW or SEC_KEY_PROVISION (R437): words and bits still to be blown and those that have been, the
word whose read-back will differ, and the beats that the next one still takes. -/
structure FuseJob where
  cid    : Nat
  todo   : List (Nat × BitVec 32)
  done   : List (Nat × BitVec 32)
  miss   : Option FuseMiss
  left   : Nat
  deriving DecidableEq, Repr

/-- Both copies of the fuses and their sensed words (R434-R436), without the bits that Pasoly blows at
manufacture in the identity words and in KEY_HASH[0], and what the boot ROM keeps of the running bundle. -/
structure Fuses where
  copy0  : Table (BitVec 32)
  copy1  : Table (BitVec 32)
  shadow : Table (BitVec 32)
  corr   : Nat
  failN  : Nat
  faulted : Bool
  /-- words of the key hashes or the identity that failed in both copies -/
  lostWords : List Nat
  slot   : BitVec 2
  loaded : Bool
  svn    : BitVec 8
  bundle : List Byte
  digests : List (BitVec 384)
  lockLogged : List Nat
  job    : Option FuseJob
  deriving DecidableEq, Repr

/-- Power, cooling and pins (R452-R474; R444). -/
structure Power where
  vin    : BitVec 16
  pin    : BitVec 16
  limiting : Bool
  cbus   : Bool
  qbus   : BitVec 4
  standby : Bool
  rails  : Bool
  lost   : BitVec 32
  duty   : BitVec 8
  coolOk : Bool
  /-- COOL_OK pin low -/
  pinLow : Bool
  /-- it has been low for COOL_DEBOUNCE -/
  coolGone : Bool
  /-- stage-1 groups that a fault has turned off: quadrants in bits 3:0, centre in bit 4 -/
  dead   : BitVec 5
  i3cPtr : BitVec 16
  /-- what the last private read returned -/
  i3cData : BitVec 64
  jtag   : JtagInstr
  resetN : Bool
  /-- holders of each quadrant's throttle (R458): quadrant, holder -/
  holders : List (Nat × Nat)
  deriving DecidableEq, Repr

/-- A response on its way to a requester: data, or an error code (R384) with the offset of the first byte
that failed as data; `retry` is R206's. -/
structure Response where
  who   : Requester
  data  : List Byte
  code  : Nat
  retry : Bool
  deriving DecidableEq, Repr

/-- A sync-flag increment on its way to a tile of this device (R152): who waits for its acknowledgement,
target, and the packet that answers one that came over the torus. -/
structure Sig where
  who    : Option Requester
  d      : Nat
  t      : Nat
  ctx    : Bool
  flag   : Nat
  count  : Nat
  answer : Option Packet
  deriving DecidableEq, Repr

/-- The ordering classes of the die fabric, each with a pool of credits of its own on every edge (R18). -/
inductive OrderClass where
  | request | response | command
  deriving DecidableEq, Repr

def OrderClass.num : OrderClass → Nat
  | .request => 0
  | .response => 1
  | .command => 2

/-- The die fabric (R16-R19): failed tries of the flit now on each edge; what the route tables hold beside R17's rules
(the edges fenced, the interleave; the adopted numbers stand in `Sites`); responses and flag increments on their way. -/
structure Fabric where
  retries : Table Nat
  fenced : List Edge
  quadLocal : Bool
  resp   : List Response
  sigs   : List Sig
  /-- requests issued so far: their order at the memory or mesh they name (R18) -/
  issued : Nat
  /-- the latest response to each request of another die's own request logic -/
  answers : List Response
  deriving DecidableEq, Repr

/-- The whole device and the queue of commands (R3, R21). -/
structure State where
  tiles  : Table Tile
  dies   : Table Die
  cds    : Table ComputeDie
  mds    : Table MemDie
  fds    : Table FactorDie
  mem    : Memory
  fabric : Fabric
  update : Option UpdateRun
  net    : Net
  alm    : Almanac
  sd     : Steward
  sow    : Sow
  hrv    : Harvest
  sites  : Sites
  wseal  : Seal
  glean  : Glean
  clk    : Clocks
  opt    : Options
  fuse   : Fuses
  pwr    : Power
  /-- counter of free values taken, by which moments are told apart; the model's own -/
  free   : Nat
  pending : List Instr
  deriving DecidableEq, Repr

/-! ## Reset values -/

def CvtBank.reset : CvtBank := ⟨0x03, 0, 0, 0, 0, 0, [], [], none⟩

def Ctx.reset : Ctx := ⟨0, 0, 0, [], [], 0, [], [], CvtBank.reset, false⟩

/-- CDT_CVT_SCALE[r] after reset: 1.0 (R67). -/
def scaleReset : BitVec 32 := 0x3F800000

def Acc.reset : Acc := ⟨[], [], false, false⟩

/-- CDT_CROP_CTRL: DRAIN_LIMIT 256, MIN_WINDOW 2 (R171); CDT_MX_CTRL: ABFT_HALT (R95);
CDT_ABFT_FIRST: COL and ROW 0xFF (R98). -/
def TileRegs.reset : TileRegs :=
  ⟨false, false, 0, 0, 0, 0x01000200, 0, 0, 0, 0, 0b010, false, false, 0, 0, 0xFFFF, 0, 0⟩

def TileTimes.reset : TileTimes :=
  { now := 0, exec := 0, acc := 0, array := 0, vec := 0, red := 0, rport := 0, wport := 0, cvt := 0, portA := 0,
    req := 0, dispatch := 0, beat := 0, room := none }

def Tile.reset : Tile :=
  { imem := [], sram := [], stream := .idle, crop := .empty, active := false, switching := false,
    stall := .none, passBrk := false, stepping := false, ctx0 := Ctx.reset, ctx1 := Ctx.reset,
    eq := [], aq := [], oqm := [], oqv := [], sq := [], cvt := [], readers := [], mmas := [], abft := [],
    loads := [], accs := [], vregs := [], masks := [], carry := [], pend := [], vjobs := [], rjobs := [],
    div := none, ops := [], slots := [], nextId := 0, overrun := false, retDead := false,
    leaving := false, leftAt := none, swAt := 0, swDone := 0, swAcc := [], swVec := [], begins := none, still := 0,
    aborting := false,
    untested := false, overdue := false, flawed := none, regs := TileRegs.reset, times := TileTimes.reset }

def CarryLane.reset : CarryLane := ⟨0, 0, 0⟩

def ErrEntry.zero : ErrEntry := ⟨0, 0, 0, 0⟩

def ErrRing.reset : ErrRing := ⟨[], 0, 0, 0, 0, 0, none, false, 0⟩

def Die.reset : Die := ⟨ErrRing.reset, false, false, false, false, false, false, 0, 0, 0, (0, 0, 0), 0⟩

def ComputeDie.reset : ComputeDie := ⟨[], [], 0⟩

def Bank.reset : Bank := ⟨[], [], [], none, 0, 0, 0⟩

def Sector.clean : Sector := ⟨false, false, 0, none, false, []⟩

def HbmStack.reset : HbmStack := ⟨false, false, false, [], [], 0, 0, 0, 0, [], [], [], [], [], 0⟩

/-- R261, R262. -/
def Train.reset : Train :=
  ⟨0x47000000, 0x3F000000, 0x40000000, 0x3F800000, 0x7F000000, 2000, 0, 100000, false, 0, 0, false, 0,
    0, 0, false, 0, 0⟩

def MemDie.reset : MemDie :=
  { cfg := 0x5F402006, scrubCfg := 0x0601, passes := 0, ue := 0, odecc := 0, ce := 0, first := 0,
    st0 := HbmStack.reset, st1 := HbmStack.reset, train := Train.reset, jobs := [],
    delivered := 0, retries := 0, nextSeq := 0, clock := 0, lastEdge := 0,
    spent := [], passAt := 0 }

def FactorDie.reset : FactorDie := ⟨0, 0, 0, false, 0, 0, none⟩

def TorusPort.reset : TorusPort :=
  { role := 0, medium := 3, state := .down, peer := 0, retrains := 0, uncorr := 0, replays := 0, corr := 0,
    seq := 0, replay := [], resend := 0, queue := [], credits := [], ctot := [], turn := false, expect := 0,
    nakOut := false, used := [], back := [], cvc := 0, freed := [], vacated := [], rx := [], wire := none
    fromStandby := false, nakSeq := 0, nakRun := 0, failed := 0, delay := none, spent := [] }

def RemSlot.reset : RemSlot := ⟨0, none, 0, 0, 0⟩

def LinkDie.reset : LinkDie := ⟨0, 0, 0, 0, 0, 0⟩

def CollSlot.reset : CollSlot := ⟨0, false, [], none⟩

def Net.reset : Net :=
  { coordValid := false, coord := 0, geom := 0x01041, job := 0, jobAddr := 0, lifetime := 1000,
    reqTimeout := 1000, auditPeriod := 100, lds := [], waiting := [], detour := [], ports := [], remote := []
    colls := [], rot := none, rotGen := 0,
    voteGen := 0, vote := none, out := [], arrived := [], parked := [], crossing := [], unheard := [], inbox := [] }

/-- R325, R326. -/
def Almanac.reset : Almanac :=
  { now := 0, phase := 0, season := 0, children := 0, parent := 15, period := 1000, diverge := 100,
    miss := 4, role := 2, offset := 0, gen := 1, hops := 0, ppsOk := false, refOk := false, state := 0,
    adj := 0, refLost := 0, syncLost := 0, diverged := 0, staleBeats := 0, total := 0, pend := [], seasons := [],
    joined := false, inBand := 0, ppsRun := 0, refSeen := false, lostLogged := false, sinceBeat := 0,
    windows := [], copies := [], beatSent := 0 }

/-- R357: CQ_LOG2 12, RQ_LOG2 8. -/
def Ring.reset : Ring :=
  { cqBase := 0, rqBase := 0, cqLog := 12, rqLog := 8, irqAll := false, en := false, head := 0, prod := 0,
    outstanding := 0, brk := false, fetchErr := false, passBrk := false, rqTail := 0, rqPhase := true,
    rqHead := 0, rqUsed := 0, seq := 0 }

def Steward.reset : Steward :=
  { evLost := 0, hostDebug := false, mode := 0, boot := 0, bars := false, aper := 0, bootLen := 0, fails := 0,
    result := 0, staging := [], evqBase := 0, evqLog := 8, evqEn := false, evqHead := 0, evqTail := 0,
    evqUsed := 0, evqPhase := true, cbrkCtrl := 0, cbrkCount := 0, cbrkTag := 0, rings := [], turn := 0, cmds := [],
    nextCid := 0, vectors := [], modules := [], modRetry := [], hostMem := [], barReply := .none, gpio := false,
    condemned := [] }

def Sow.reset : Sow :=
  { en := false, base := 0, records := 0, dir := 0, mirrorOut := 0, mirrorIn := 0, step := 0, isOpen := false,
    replay := false, any := false, lost := false, lostLogged := false, lag := [], seq := 0 }

def Harvest.reset : Harvest :=
  { interval := 0, auto := false, regionAddr := 0, regions := 0, stage := 0, hold := 0, peerHold := 0,
    area := 0, state := 0, phase := 0, take := false, step := 0, doneStep := 0, anyDone := false, beat := 0,
    season := 0, pointDue := false, dueStep := 0, dueBeat := 0, dueSeason := 0, heads := []
    waits := false, coming := [], checks := [], drain := 0
    target := false, total := 0, left := 0, tallies := [], restoreBad := false, restore := none }

def Sites.reset : Sites := ⟨0, 0, 0, 0, 0⟩

def Seal.reset : Seal := ⟨false, true, [], 0, false, 0, 0, 0, []⟩

def Glean.reset : Glean := ⟨0xF, 150, 20, 60, 24, 0, 0, 0, false, 0, 0⟩

def Clocks.reset : Clocks :=
  { due := [], warmCount := 0, loop := 0, absorbed := 0, kind := 0, source := 0, block := 0xFF, forced := 0,
    oscRetries := 0, hclk := 192, cclk := 144, fclk := 72, mclk := 96, onRc := true, ref156 := false,
    wclkOk := false, locked := false, lost := 0, step := .resetHeld, inWarm := false, passes := false, almWas := none,
    oscWait := 0,
    xtal := 0, rails := 0, plls := 0, endpoint := 0, armed := false, bypass := [], train := [] }

/-- A copy as shipped (R423): the defaults and their CRC. -/
def optShipped : Memory :=
  [(0, 0x58), (1, 0x53), (2, 0x50), (3, 0x4F), (4, 0x01), (16, 0x80), (17, 0x90), (18, 0x48), (19, 0x60),
   (20, 0xC0), (21, 0x30), (22, 0x64), (508, 0xCF), (509, 0x7E), (510, 0xEE), (511, 0xB5)]

def OptCopy.reset : OptCopy := ⟨optShipped, 0, []⟩

def Options.reset : Options := ⟨OptCopy.reset, OptCopy.reset, [], optShipped, false, false, false, false, 0, 0, []⟩

/-- Fuses as shipped (R436): ID_VALID, slot 0 valid, debug lock level 1. -/
def fusesShipped : Table (BitVec 32) := [(12, 0x11), (13, 0x1)]

def Fuses.reset : Fuses :=
  { copy0 := fusesShipped, copy1 := fusesShipped, shadow := fusesShipped, corr := 0, failN := 0
    faulted := false, lostWords := [], slot := 0, loaded := false, svn := 0, bundle := [], digests := []
    lockLogged := [], job := none }

/-- STANDBY_OK, DUTY 100 (R472). -/
def Power.reset : Power :=
  { vin := 0, pin := 0, limiting := false, cbus := false, qbus := 0, standby := true, rails := false,
    lost := 0, duty := 100, coolOk := false, pinLow := true, coolGone := false, dead := 0,
    i3cPtr := 0, i3cData := 0, jtag := .idcode, resetN := false, holders := [] }

def Fabric.reset : Fabric := ⟨[], [], false, [], [], 0, []⟩

/-- The device right after power-on: every register at its reset value, nothing in any queue. -/
def State.reset : State :=
  { tiles := [], dies := [], cds := [], mds := [], fds := [], mem := [], fabric := Fabric.reset,
    update := none, net := Net.reset, alm := Almanac.reset, sd := Steward.reset,
    sow := Sow.reset, hrv := Harvest.reset, sites := Sites.reset, wseal := Seal.reset, glean := Glean.reset,
    clk := Clocks.reset, opt := Options.reset, fuse := Fuses.reset, pwr := Power.reset, free := 0,
    pending := [] }

end Sys2Proof.Machine
end

