-- ==== Sys2Proof/Machine/Ops.lean ====
section
/-! DEFINITION. The named operations over the state: its tables, its memory and address maps (R28-R33),
and what every chapter uses of the Almanac and the node host's queues. -/
namespace Sys2Proof.Machine

/-! ## Words -/

/-- Fields put side by side: value, lowest bit. Each value is below its field's size. -/
def word64 (l : List (Nat × Nat)) : BitVec 64 := BitVec.ofNat 64 (l.map (fun e => e.1 * 2 ^ e.2)).sum

/-! ## Tables -/

def tileKey (d t : Nat) : Nat := d * 144 + t

def State.tile (s : State) (d t : Nat) : Tile := Table.get Tile.reset s.tiles (tileKey d t)

def State.setTile (s : State) (d t : Nat) (x : Tile) : State :=
  { s with tiles := Table.set Tile.reset s.tiles (tileKey d t) x }

def State.die (s : State) (b : Nat) : Die := Table.get Die.reset s.dies b

def State.setDie (s : State) (b : Nat) (x : Die) : State :=
  { s with dies := Table.set Die.reset s.dies b x }

def State.cd (s : State) (d : Nat) : ComputeDie := Table.get ComputeDie.reset s.cds d

def State.setCd (s : State) (d : Nat) (x : ComputeDie) : State :=
  { s with cds := Table.set ComputeDie.reset s.cds d x }

def State.md (s : State) (m : Nat) : MemDie := Table.get MemDie.reset s.mds m

def State.setMd (s : State) (m : Nat) (x : MemDie) : State :=
  { s with mds := Table.set MemDie.reset s.mds m x }

def State.fd (s : State) (f : Nat) : FactorDie := Table.get FactorDie.reset s.fds f

def State.setFd (s : State) (f : Nat) (x : FactorDie) : State :=
  { s with fds := Table.set FactorDie.reset s.fds f x }

def State.port (s : State) (p : Nat) : TorusPort := Table.get TorusPort.reset s.net.ports p

def State.setPort (s : State) (p : Nat) (x : TorusPort) : State :=
  { s with net := { s.net with ports := Table.set TorusPort.reset s.net.ports p x } }

def State.ring (s : State) (r : Nat) : Ring := Table.get Ring.reset s.sd.rings r

def State.setRing (s : State) (r : Nat) (x : Ring) : State :=
  { s with sd := { s.sd with rings := Table.set Ring.reset s.sd.rings r x } }

def State.colls (s : State) (k : Nat) : CollSlot := Table.get CollSlot.reset s.net.colls k

def State.setColl (s : State) (k : Nat) (x : CollSlot) : State :=
  { s with net := { s.net with colls := Table.set CollSlot.reset s.net.colls k x } }

/-- A tile's context, main (false) or catch crop (true). -/
def Tile.ctx (T : Tile) (c : Bool) : Ctx := if c then T.ctx1 else T.ctx0

def Tile.setCtx (T : Tile) (c : Bool) (x : Ctx) : Tile :=
  if c then { T with ctx1 := x } else { T with ctx0 := x }

/-- The active context (R131). -/
def Tile.cur (T : Tile) : Ctx := T.ctx T.active

/-! ## Dies and their control blocks (R32, R26) -/

def blkMd (m : Nat) : Nat := 32 + m
def blkLd (l : Nat) : Nat := 48 + l
def blkFd (f : Nat) : Nat := 56 + f
def blkSteward : Nat := 60
def blkWarden : Nat := 61

/-- The die behind a control block: an adopted fallow die keeps its state under the logical number it
has adopted, and answers at its own site too (R26). -/
def State.dieOf (s : State) (b : Nat) : Nat :=
  if b = 62 ∧ s.sites.s32 = 1 then s.sites.s32cd.toNat
  else if b = 63 ∧ s.sites.s33 = 1 then s.sites.s33cd.toNat
  else b

/-- A die that is retired, held in reset or without power answers nothing (R340, R375, R416, R455). -/
def State.absent (s : State) (b : Nat) : Bool := (s.die b).retired || (s.die b).held || (s.die b).railsOff

/-- Quadrant of a control block; none for the centre. -/
def blockQuad (b : Nat) : Option Nat :=
  if b < 32 then some (b / 8)
  else if b < 48 then some ((b - 32) / 4)
  else if b < 56 then some ((b - 48) / 2)
  else if b < 60 then some (b - 56)
  else none

/-! ## Gleaning's limits (R402) -/

/-- What has been moved within the last 10 ms. -/
def recent (now : Nat) (l : List (Nat × Nat)) : List (Nat × Nat) := l.filter (fun e => decide (now < e.1 + 10000))

def spentIn (now : Nat) (l : List (Nat × Nat)) : Nat := ((recent now l).map (·.2)).sum

/-- So many bytes more in this beat. -/
def spend (now bytes : Nat) (l : List (Nat × Nat)) : List (Nat × Nat) :=
  let l := recent now l
  match l.getLast? with
  | some e => if e.1 = now then l.dropLast ++ [(now, e.2 + bytes)] else l ++ [(now, bytes)]
  | none => [(now, bytes)]

/-! ## Time -/

/-- A die's own copy of the Almanac (R310). -/
def State.almOf (s : State) (b : Nat) : AlmCopy := Table.get AlmCopy.reset s.alm.copies b

def State.nowAt (s : State) (b : Nat) : Nat := (s.almOf b).now.toNat

/-- Phase `c` cycles after a boundary whose previous beat had `n` (R311). -/
def phaseOf (c n : Nat) : Nat := if n = 0 then 0 else min (4096 * c / n) 4095

/-- CCLK cycles on a die since the boundary of its beat, or since a step: those between the moments since then, each a
free value (R311). -/
def State.cyclesOn (s : State) (b : Nat) : Nat :=
  let m := (s.almOf b).mark
  ((List.range (s.free - m)).map (fun i => Config.cycles (m + i) b)).sum

/-- A die's phase: from the boundary, or on from where a step has put it (R316). -/
def State.phaseAt (s : State) (b : Nat) : Nat :=
  min (s.alm.phase.toNat + phaseOf (s.cyclesOn b) (s.almOf b).cycles) 4095

/-- ALM_STAMP: a beat and a phase of one cycle (R326). -/
def stampOf (beat phase : Nat) : BitVec 64 := BitVec.ofNat 64 ((beat % 2 ^ 52) * 2 ^ 12 + phase)

def State.stampAt (s : State) (b : Nat) : BitVec 64 := stampOf (s.nowAt b) (s.phaseAt b)

/-- The warden's. -/
def State.stamp (s : State) : BitVec 64 := stampOf s.alm.now.toNat (s.phaseAt blkWarden)

/-- A die that starts afresh takes the warden's count (R310). -/
def State.equalise (s : State) (b : Nat) : State :=
  let a := s.alm
  let x : AlmCopy := { s.almOf b with now := a.now, season := a.season, mark := s.free }
  { s with alm := { a with copies := Table.set AlmCopy.reset a.copies b x } }

/-- A free value's number, and the state that has taken it. -/
def State.take (s : State) : Nat × State := (s.free, { s with free := s.free + 1 })

/-- A moment passes: whatever is read after it is read in a cycle that may be a later one (R311). -/
def State.moment (s : State) : State := s.take.2

/-- The ratios of R413 hold between the multipliers in force. -/
def Clocks.ratiosHold (c : Clocks) : Bool :=
  c.cclk.toNat == 2 * c.fclk.toNat && 3 * c.mclk.toNat == 4 * c.fclk.toNat

/-- Data that crosses between clock domains: where a ratio is broken it is sampled at the wrong edges, and what comes
through is a free value (R413). -/
def State.cross (s : State) (l : List Byte) : State × List Byte :=
  if s.clk.ratiosHold then (s, l)
  else
    let (n, s) := s.take
    (s, (List.range l.length).map (Config.wrongEdge n))

/-! ## Bytes -/

def writeBytes (m : Memory) (a : Nat) : List Byte → Memory
  | [] => m
  | b :: l => writeBytes (Table.set 0 m a b) (a + 1) l

def readBytes (m : Memory) (a : Nat) : Nat → List Byte
  | 0 => []
  | n + 1 => Table.get 0 m a :: readBytes m (a + 1) n

/-- The canonical form of a memory: addresses strictly rising, no entry equal to what an unlisted one reads as. -/
def Memory.wf (m : Memory) : Bool := Table.wf 0 m

/-- A byte list cut or filled with zeros to `n` bytes. -/
def fitBytes (n : Nat) (l : List Byte) : List Byte := (l ++ List.replicate (n - l.length) 0).take n

def wordsOf (l : List Byte) : List (BitVec 64) :=
  (List.range (l.length / 8)).map (fun i => BitVec.ofNat 64 (ofLe ((l.drop (8 * i)).take 8)))

def bytesOfWords (l : List (BitVec 64)) : List Byte := l.flatMap (fun w => leBytes 8 w.toNat)

/-! ## The address map (R28-R33) -/

inductive Target where
  | hbm (stack off : Nat)
  | sram (d t off : Nat)
  | store (f off : Nat)
  | reg (block off : Nat)
  | unmapped
  deriving DecidableEq, Repr

/-- Stack and address within the stack of an HBM address (R29). -/
def hbmLoc (quadLocal : Bool) (a : Nat) : Nat × Nat :=
  if quadLocal then
    let q := a / 0x4800000000
    let r := a % 0x4800000000
    (8 * q + (r / 2 ^ 12) % 8, (r / 2 ^ 15) * 2 ^ 12 + r % 2 ^ 12)
  else ((a / 2 ^ 12) % 32, (a / 2 ^ 17) * 2 ^ 12 + a % 2 ^ 12)

def decodeLocal (quadLocal : Bool) (a : Nat) : Target :=
  if a < 0x012000000000 then
    let (k, o) := hbmLoc quadLocal a
    .hbm k o
  else if 0x400000000000 ≤ a ∧ a < 0x402000000000 then
    let r := a - 0x400000000000
    let o := r % 2 ^ 32
    if o / 2 ^ 21 < 144 then .sram (r / 2 ^ 32) (o / 2 ^ 21) (o % 2 ^ 21) else .unmapped
  else if 0x600000000000 ≤ a ∧ a < 0x600400000000 then
    let r := a - 0x600000000000
    if r % 2 ^ 32 < 0x04000000 then .store (r / 2 ^ 32) (r % 2 ^ 32) else .unmapped
  else if 0x7F0000000000 ≤ a ∧ a < 0x7F0040000000 then
    let r := a - 0x7F0000000000
    .reg (r / 2 ^ 24) (r % 2 ^ 24)
  else .unmapped

def State.locate (s : State) (a : Nat) : Target := decodeLocal s.fabric.quadLocal a

/-- Key of a stack's byte in the device's memory. -/
def hbmKey (stack off : Nat) : Nat := stack * 2 ^ 36 + off

/-- A stack address taken apart (R203). -/
structure StackAddr where
  pc   : Nat
  sid  : Nat
  row  : Nat
  bank : Nat
  deriving DecidableEq, Repr

def decodeStack (a : Nat) : StackAddr :=
  let p := a / 1024
  let q := p / 64
  let t := q / 16
  let row := t / 3
  ⟨p % 64, t % 3, row, q % 16 ^^^ row % 16⟩

/-- A bank of a stack as one number: pseudo-channel, stack ID, bank. -/
def bankNo (a : Nat) : Nat :=
  let x := decodeStack a
  x.pc * 48 + x.sid * 16 + x.bank

/-- The entries that a request of `len` bytes at a stack address becomes: bank, first byte, length and
whether it is wide (R205). The page that holds the first byte comes first. -/
def entriesIn (a len : Nat) : List (Nat × Nat × Nat × Bool) :=
  if len = 0 then []
  else if 64 ≤ len ∧ a % 64 = 0 ∧ len % 64 = 0 then [(bankNo a, a, len, true)]
  else
    let first := a / 32
    let last := (a + len - 1) / 32
    (List.range (last + 1 - first)).map (fun i =>
      let lo := max a (32 * (first + i))
      let hi := min (a + len) (32 * (first + i) + 32)
      (bankNo lo, lo, hi - lo, false))

def entriesOf (a len : Nat) : List (Nat × Nat × Nat × Bool) :=
  let room := 1024 - a % 1024
  if len ≤ room then entriesIn a len
  else entriesIn a room ++ entriesIn (a + room) (len - room)

/-- Where a global address leads (R33). -/
inductive Route where
  | here (a : Nat)
  | there (coord : BitVec 16) (a : Nat)
  | error (code : Nat)
  deriving DecidableEq, Repr

def State.route (s : State) (ga : BitVec 64) : Route :=
  let c := BitVec.ofNat 16 (bits ga 63 48)
  let a := bits ga 47 0
  if !s.net.coordValid then (if c = 0 then .here a else .error 0x22)
  else if bits s.net.geom 17 12 ≤ bits c 15 10 ∨ bits s.net.geom 11 6 ≤ bits c 9 4
      ∨ bits s.net.geom 5 0 ≤ bits c 3 0 then .error 0x23
  else if c = s.net.coord then .here a
  else .there c a

/-- Bytes of HBM at a device-local address below the HBM range's end. -/
def State.hbmBytes (s : State) (a : Nat) : Nat → List Byte
  | 0 => []
  | n + 1 =>
    let (k, o) := hbmLoc s.fabric.quadLocal a
    Table.get 0 s.mem (hbmKey k o) :: State.hbmBytes s (a + 1) n

def State.hbmPut (s : State) (a : Nat) : List Byte → State
  | [] => s
  | b :: l =>
    let (k, o) := hbmLoc s.fabric.quadLocal a
    State.hbmPut { s with mem := Table.set 0 s.mem (hbmKey k o) b } (a + 1) l

/-- A factor die's local store lies in the same table, above the stacks. -/
def storeKey (f off : Nat) : Nat := (64 + f) * 2 ^ 36 + off

/-! ## The node host's side -/

/-- Bytes the device writes into the node host's memory (R332). -/
def State.hostPut (s : State) (a : Nat) (l : List Byte) : State :=
  { s with sd := { s.sd with hostMem := writeBytes s.sd.hostMem a l } }

/-- An MSI-X vector raised (R330). -/
def State.raise (s : State) (v : Nat) : State :=
  { s with sd := { s.sd with vectors := s.sd.vectors ++ [v] } }

/-- A record into the event queue; its phase bit is bit 0 of the first word (R359). A record that
finds no place, or meets a disabled queue, is counted in EV_LOST. -/
def State.postEvent (s : State) (w0 w1 : BitVec 64) : State :=
  let d := s.sd
  let n := 2 ^ d.evqLog.toNat
  if d.evqEn && d.evqUsed < n then
    let w0 := setBits w0 0 0 (natOf d.evqPhase)
    let a := d.evqBase.toNat * 4096 + 16 * d.evqTail
    let s := s.hostPut a (leBytes 8 w0.toNat ++ leBytes 8 w1.toNat)
    let wrap := d.evqTail + 1 = n
    let s := { s with sd := { s.sd with
      evqTail := if wrap then 0 else d.evqTail + 1
      evqPhase := if wrap then !d.evqPhase else d.evqPhase
      evqUsed := d.evqUsed + 1 } }
    s.raise 8
  else { s with sd := { d with evLost := satInc 0xFFFF d.evLost } }

/-- Answers without effect on the state: the event finds nothing to act on. -/
abbrev Out := Host.Outcome State Fault Refusal

/-! ## Fuse fields in force (R436) -/

/-- Words that Pasoly writes: identity, and KEY_HASH[0] (R436). -/
def makerWord (w : Nat) : Bool := decide (w < 12) || (decide (17 ≤ w) && decide (w < 29))

/-- A sensed word (R434). -/
def State.fuseWord (s : State) (w : Nat) : BitVec 32 :=
  if makerWord w && !s.fuse.lostWords.contains w then Table.get 0 s.fuse.shadow w ||| Config.maker w
  else Table.get 0 s.fuse.shadow w

def State.safetyLock (s : State) : Bool := (s.fuseWord 13).getLsbD 9
def State.ostoreLock (s : State) : Bool := (s.fuseWord 13).getLsbD 8

/-- Position of the highest blown bit plus 1, or 0. -/
def topBit {w : Nat} (x : BitVec w) : Nat :=
  (List.range w).foldl (fun acc i => if x.getLsbD i then i + 1 else acc) 0

/-- Debug lock level, 0 to 3. -/
def State.debugLevel (s : State) : Nat := topBit (BitVec.ofNat 3 (s.fuseWord 13).toNat)

def State.hostMap (s : State) : BitVec 16 := BitVec.ofNat 16 (s.fuseWord 14).toNat

/-- MAINTENANCE, or MAINT_ONLY with its consequences (R345). -/
def State.maint (s : State) : Bool := s.sd.mode != 0

/-! ## Streams -/

/-- Dispatch stopped as at STOP (R166, R395): what has been dispatched runs on, then the stream halts. -/
def Tile.stopDispatch (T : Tile) : Tile :=
  if T.stream = .run then { T with stall := .stopped } else T

/-- A stream is running when its state is RUN or it waits in a state that holds work (R318). -/
def Tile.isRunning (T : Tile) : Bool := T.stream = .run

/-- Every tile of the device, by key. -/
def State.mapTiles (s : State) (f : Nat → Tile → Tile) : State :=
  { s with tiles :=
      s.tiles.foldr (fun e acc => Table.set Tile.reset acc e.1 (f e.1 e.2)) s.tiles }

end Sys2Proof.Machine
end

