-- ==== Sys2Proof/Machine/Errors.lean ====
section
/-! DEFINITION. The error rings, handlers, escalation, the detection log and the result seal (R384-R396),
and the quadrant throttles they hold (R458). -/
namespace Sys2Proof.Machine

/-! ## Codes (R391, R392, R433 and the security chapter's list) -/

/-- Severity (0 INFO, 1 CORR, 2 ERR, 3 FATAL), detection, event of a code number. -/
structure CodeInfo where
  sev : Nat
  det : Bool
  ev  : Bool
  deriving DecidableEq, Repr

def codeInfo (c : Nat) : CodeInfo :=
  match c with
  | 0x16 => ⟨0, false, false⟩
  | 0x17 => ⟨0, false, false⟩
  | 0x18 => ⟨2, false, true⟩
  | 0x19 => ⟨2, true, true⟩
  | 0x26 => ⟨2, true, true⟩
  | 0x30 => ⟨2, true, true⟩
  | 0x31 => ⟨2, false, true⟩
  | 0x32 => ⟨2, true, true⟩
  | 0x33 => ⟨2, true, true⟩
  | 0x34 => ⟨2, true, true⟩
  | 0x40 => ⟨1, false, false⟩
  | 0x41 => ⟨2, true, true⟩
  | 0x42 => ⟨2, true, true⟩
  | 0x43 => ⟨2, true, true⟩
  | 0x44 => ⟨0, false, false⟩
  | 0x45 => ⟨2, false, true⟩
  | 0x46 => ⟨0, false, true⟩
  | 0x50 => ⟨2, false, true⟩
  | 0x51 => ⟨2, false, true⟩
  | 0x60 => ⟨2, false, true⟩
  | 0x61 => ⟨0, false, false⟩
  | 0x62 => ⟨2, false, true⟩
  | 0x63 => ⟨2, true, true⟩
  | 0x70 => ⟨0, false, true⟩
  | 0x71 => ⟨0, false, true⟩
  | 0x72 => ⟨0, false, true⟩
  | 0x73 => ⟨0, false, true⟩
  | 0x74 => ⟨0, false, false⟩
  | 0x80 => ⟨2, false, true⟩
  | 0x81 => ⟨2, false, true⟩
  | 0x82 => ⟨2, false, true⟩
  | 0x83 => ⟨2, false, true⟩
  | 0x84 => ⟨2, true, true⟩
  | 0x85 => ⟨2, false, true⟩
  | 0x86 => ⟨2, true, true⟩
  | 0x87 => ⟨0, false, true⟩
  | 0x90 => ⟨3, true, true⟩
  | 0x91 => ⟨3, true, true⟩
  | 0x92 => ⟨3, true, true⟩
  | 0x93 => ⟨3, true, true⟩
  | 0x94 => ⟨2, false, true⟩
  | 0xA0 => ⟨3, true, true⟩
  | 0xA1 => ⟨3, true, true⟩
  | 0xA2 => ⟨0, false, true⟩
  | 0xA3 => ⟨0, false, false⟩
  | 0xA5 => ⟨0, false, true⟩
  | 0xA6 => ⟨0, false, true⟩
  | 0xA7 => ⟨2, false, true⟩
  | 0xA8 => ⟨2, false, true⟩
  | 0xB0 => ⟨3, true, true⟩
  | 0xB1 => ⟨3, true, true⟩
  | 0xB2 => ⟨3, true, true⟩
  | 0xB3 => ⟨0, false, true⟩
  | 0xB8 => ⟨3, true, true⟩
  | 0xB9 => ⟨3, true, true⟩
  | 0xC0 => ⟨2, false, true⟩
  | 0xC1 => ⟨0, false, true⟩
  | 0xD0 => ⟨0, false, true⟩
  | 0xD1 => ⟨2, false, true⟩
  | 0xD2 => ⟨0, false, true⟩
  | 0xD3 => ⟨0, false, true⟩
  | 0xE0 => ⟨2, false, true⟩
  | 0xE1 => ⟨2, false, true⟩
  | 0xE2 => ⟨2, false, true⟩
  | 0xE3 => ⟨0, false, true⟩
  | 0xE4 => ⟨2, false, true⟩
  | 0xE5 => ⟨2, false, true⟩
  | 0xE7 => ⟨2, false, true⟩
  | 0xE8 => ⟨0, false, false⟩
  | _ => ⟨2, false, false⟩

/-- Class of a code number (R391). -/
def codeClass (c : Nat) : Nat :=
  if c < 0x20 then 0
  else if c < 0xB0 then c / 16 - 1
  else if c < 0xB8 then 10
  else if c < 0xC0 then 11
  else c / 16

/-- The numbers that R392 defines; R433 and R451 assign others. -/
def codeDefined (c : Nat) : Bool :=
  (1 ≤ c && c ≤ 0x1A) || (0x20 ≤ c && c ≤ 0x27) || (0x30 ≤ c && c ≤ 0x34) || (0x40 ≤ c && c ≤ 0x46)
    || c == 0x50 || c == 0x51 || (0x60 ≤ c && c ≤ 0x68) || (0x70 ≤ c && c ≤ 0x74)
    || (0x80 ≤ c && c ≤ 0x88) || (0x90 ≤ c && c ≤ 0x95) || c == 0xA0
    || (0xB0 ≤ c && c ≤ 0xB3) || c == 0xB8 || c == 0xB9 || c == 0xC0 || c == 0xC1
    || (0xD0 ≤ c && c ≤ 0xD3)

/-- What an entry says beside its code (R385). -/
structure ErrSpec where
  code   : Nat
  src    : Nat := 0
  unit   : Nat := 0
  ctx    : Bool := false
  icount : Nat := 0
  addr   : Nat := 0
  detail : Nat := 0
  hold   : Bool := false
  /-- the condition of a code whose detection is conditional -/
  cond   : Bool := false
  /-- it concerns a fault record whose VALID is set (R387) -/
  again  : Bool := false
  inj    : Bool := false

def ErrSpec.det (e : ErrSpec) : Bool := (codeInfo e.code).det || e.cond
def ErrSpec.sev (e : ErrSpec) : Nat := (codeInfo e.code).sev

/-- The four words of an entry (R385). -/
def ErrSpec.entry (e : ErrSpec) (nested : Bool) (stamp : BitVec 64) (season : BitVec 16) : ErrEntry :=
  { w0 := BitVec.ofNat 64 (e.code % 256 * 2 ^ 56 + codeClass e.code % 16 * 2 ^ 52 + e.sev * 2 ^ 49
      + natOf nested * 2 ^ 48 + natOf e.det * 2 ^ 47 + natOf e.hold * 2 ^ 46 + natOf e.ctx * 2 ^ 45
      + e.src % 32 * 2 ^ 40 + e.unit % 256 * 2 ^ 32 + e.icount % 2 ^ 32)
    w1 := BitVec.ofNat 64 e.addr
    w2 := stamp
    w3 := BitVec.ofNat 64 (season.toNat * 2 ^ 48 + natOf e.inj * 2 ^ 47 + e.detail % 2 ^ 47) }

/-- Entry into a ring: written, or counted in OVF where the ring is full (R386); first capture; handler
(R387). -/
def ErrRing.push (r : ErrRing) (x : ErrEntry) (sev cls : Nat) (hold : Bool) : ErrRing :=
  let opens := sev == 3 || hold
  let r := { r with
    logged := (r.logged + 1) % 65536
    first := if 2 ≤ sev && r.first.isNone then some x else r.first
    handling := r.handling || opens
    fatal := if sev == 3 then r.fatal ||| BitVec.ofNat 16 (2 ^ cls) else r.fatal }
  if r.unread = 64 then { r with ovf := satInc 0xFFFF r.ovf }
  else { r with
    ring := Table.set ErrEntry.zero r.ring r.head x
    head := (r.head + 1) % 64
    unread := r.unread + 1 }

/-- One more entry of the warden's detection log (R410). -/
def Seal.record (w : Seal) (beat : Nat) (season : BitVec 16) (block code kind : Nat) : Seal :=
  let x : DetEntry :=
    ⟨BitVec.ofNat 64 beat,
     BitVec.ofNat 64 (season.toNat * 2 ^ 48 + block % 256 * 2 ^ 40 + code % 256 * 2 ^ 32 + kind % 4 * 2 ^ 30)⟩
  { w with
    log := Table.set ⟨0, 0⟩ w.log w.head x
    head := (w.head + 1) % 256
    wrapped := w.wrapped || w.head == 255
    detections := if kind = 0 then satInc 0xFFFFFFFF w.detections else w.detections
    marks := if kind = 1 ∨ kind = 2 then satInc 0xFFFFFFFF w.marks else w.marks }

/-- A mark into the detection log (R399): 1 unchecked, 2 mode, 3 Season. -/
def State.mark (s : State) (block code kind : Nat) : State :=
  let beat := if kind = 3 then 0 else s.alm.now.toNat
  { s with wseal := s.wseal.record beat s.alm.season block code kind }

/-- What a detection does (R394, R395): the log, the seal, FAULT_N, every stream's dispatch stopped as at
STOP. What the other units refuse while sealed is in their own meanings. -/
def State.detect (s : State) (b code : Nat) (joined : Bool) : State :=
  let w := s.wseal.record s.alm.now.toNat s.alm.season b code 0
  let s := { s with wseal := { w with
    isSealed := true, faultN := true, unhandled := w.unhandled ++ [(b, code, joined)] } }
  s.mapTiles (fun _ T => T.stopDispatch)

/-- The event record of an entry (R359). -/
def eventWord (b code : Nat) (nested det : Bool) : BitVec 64 :=
  BitVec.ofNat 64 (b % 256 * 2 ^ 56 + code % 256 * 2 ^ 48 + natOf nested * 2 ^ 47 + natOf det * 2 ^ 46)

/-- Everything one entry causes on its own die, whose copy of the Almanac stamps it (R310, R385), in the warden's log
and in the event queue (R386, R390), but for escalation and the reactions of R396. -/
def State.logRaw (s : State) (b : Nat) (e : ErrSpec) : State :=
  let d := s.die b
  let nested := d.errs.handling || e.again
  let x := e.entry nested (s.stampAt b) (s.almOf b).season
  let errs := d.errs.push x e.sev (codeClass e.code) e.hold
  let s := s.setDie b { d with errs := errs }
  let s := if e.det then s.detect b e.code (e.sev == 3 || e.hold) else s
  let s := if e.det || e.hold || e.sev == 3 || (codeInfo e.code).ev then
      s.postEvent (eventWord b e.code nested e.det) (s.stampAt b)
    else s
  s.moment

/-- A reset source begins a warm reset (R417); WARM_RESET carries it out. -/
def State.wantWarm (s : State) (source block : Nat) : State :=
  { s with clk := { s.clk with due := s.clk.due ++ [(source, block)] } }

/-! ## Throttle (R458) -/

def holdPower : Nat := 3000
def holdDie (b : Nat) : Nat := 4000 + b
def holdThermal (b : Nat) : Nat := 1000 + b
def holdDetect (b : Nat) : Nat := 2000 + b

def State.throttled (s : State) (q : Nat) : Bool := s.pwr.holders.any (fun h => h.1 == q)

/-- A holder joins a quadrant's throttle; DIE_THROTTLE is logged when the throttle takes effect. -/
def State.holdQuad (s : State) (holder q : Nat) : State :=
  if s.pwr.holders.contains (q, holder) then s
  else
    let was := s.throttled q
    let s := { s with pwr := { s.pwr with holders := s.pwr.holders ++ [(q, holder)] } }
    if was then s else s.logRaw blkWarden { code := 0xB3, src := 17 }

def State.holdQuads (s : State) (holder : Nat) (qs : List Nat) : State :=
  qs.foldl (fun s q => s.holdQuad holder q) s

def State.release (s : State) (holder : Nat) (qs : List Nat) : State :=
  { s with pwr := { s.pwr with
      holders := s.pwr.holders.filter (fun h => !(h.2 == holder && qs.contains h.1)) } }

/-- The quadrants that a die's throttle takes in: its own, or all four (R396, R466). -/
def quadsOf (b : Nat) : List Nat :=
  match blockQuad b with
  | some q => [q]
  | none => [0, 1, 2, 3]

/-- The throttles that THERMAL detections add (R396). A DIE_OVERTEMP of the warden's names the affected die in
UNIT. -/
def State.react (s : State) (b code unit : Nat) : State :=
  if code = 0xB0 then s.holdQuads (holdDetect b) (quadsOf b)
  else if code = 0xB1 then s.holdQuads (holdDetect b) (quadsOf (if b = blkWarden then unit else b))
  else if code = 0xB2 then s.holdQuads (holdDetect b) [0, 1, 2, 3]
  else s

/-- Escalation and FATAL_OPEN (R388), and the codes that are reset sources themselves. -/
def State.fatal (s : State) (b code : Nat) : State :=
  let c := codeClass code
  let isOpen := s.wseal.fatalOpen.getLsbD c
  let s := { s with wseal := { s.wseal with
    fatalOpen := s.wseal.fatalOpen ||| BitVec.ofNat 16 (2 ^ c) } }
  let s :=
    if isOpen then
      let s := s.logRaw blkWarden { code := 0x93, src := 17 }
      let s := { s with wseal := { s.wseal with
        fatalOpen := s.wseal.fatalOpen ||| BitVec.ofNat 16 (2 ^ 8) } }
      s.wantWarm 7 b
    else s
  if code = 0x90 then s.wantWarm 4 b
  else if code = 0x91 then s.wantWarm 5 b
  else if code = 0x92 then s.wantWarm 3 b
  else s

/-- A die logs an entry (R386): the ring, the first capture, the handler, detection and seal, escalation,
the reactions of R396 and the event record. -/
def State.logErr (s : State) (b : Nat) (e : ErrSpec) : State :=
  let b := s.dieOf b
  let s := s.logRaw b e
  let s := if e.det then s.react b e.code e.unit else s
  if e.sev == 3 then s.fatal b e.code else s

/-- A write that the safety-mode lock ignores: SAFETY_LOCKED once per register per reset (R446). -/
def State.lockedWrite (s : State) (block off : Nat) : State :=
  let k := block * 2 ^ 24 + off
  if s.fuse.lockLogged.contains k then s
  else
    let s := { s with fuse := { s.fuse with lockLogged := s.fuse.lockLogged ++ [k] } }
    s.logErr block { code := 0xE8, src := 0, addr := off }

/-- Blocks of every die, in order. -/
def allBlocks : List Nat := List.range 64

def State.anyHandler (s : State) : Bool := s.dies.any (fun e => e.2.errs.handling)

def State.fatalOpenNow (s : State) : BitVec 16 :=
  s.dies.foldl (fun acc e => if e.2.errs.handling then acc ||| e.2.errs.fatal else acc) 0

/-- Whether a THERMAL or POWER detection is unhandled (R394, R463). -/
def State.hotUnhandled (s : State) : Bool :=
  s.wseal.unhandled.any (fun u => codeClass u.2.1 == 10 || codeClass u.2.1 == 11)

/-- Full flow forced: before READY, while COOL_OK is deasserted, while a THERMAL or POWER detection is unhandled
(R463). -/
def State.flowForced (s : State) : Bool := s.sd.boot != 2 || !s.pwr.coolOk || s.pwr.pinLow || s.hotUnhandled

/-- A COOL_LOST detection is unhandled (R472). -/
def State.coolLostOpen (s : State) : Bool := s.wseal.unhandled.any (fun u => u.2.1 == 0xB2)

/-- The handler of a die closes (R387, R388): its detections are handled, its holds of R396 released. -/
def State.closeHandler (s : State) (b : Nat) : State :=
  let d := s.die b
  let s := s.setDie b { d with errs := { d.errs with handling := false, fatal := 0 } }
  let s := { s with wseal := { s.wseal with
    unhandled := s.wseal.unhandled.filter (fun u => !(u.1 == b && u.2.2)) } }
  let s := { s with wseal := { s.wseal with fatalOpen := s.fatalOpenNow } }
  s.release (holdDetect b) [0, 1, 2, 3]

/-- P_ERR_TAIL: a write frees entries (R408). -/
def ErrRing.free (r : ErrRing) (tail : Nat) : ErrRing :=
  let n := min ((tail + 64 - r.tail) % 64) r.unread
  { r with tail := (r.tail + n) % 64, unread := r.unread - n }

/-- Whether a stream runs, or a COLL, ROTATE, FACTOR_BATCH or UPDATE is active (R318). -/
def State.quiescent (s : State) : Bool :=
  !(s.tiles.any (fun e => e.2.isRunning))
    && s.net.colls.all (fun e => e.2.run.isNone) && s.net.rot.isNone
    && s.fds.all (fun e => e.2.batch.isNone) && s.update.isNone

end Sys2Proof.Machine
end

