-- ==== Sys2Proof/Machine/Clamp.lean ====
section
/-! DEFINITION. The opcode table (R344, R382, R406, R407, R449) and the clamping of headers and parameters
(R343, with each command's own legal values). -/
namespace Sys2Proof.Machine

/-- Targets a command may have (R344). -/
inductive TargetKind where
  | device | compute | oneMemory | oneFactor | oneDie | dies
  deriving DecidableEq, Repr

/-- A parameter: offset, bytes, and its effective value from the device, the die named, the parameters
clamped so far and the value written. -/
structure PField where
  off  : Nat
  size : Nat
  fix  : State → Nat → List Byte → Nat → Nat

def leField (l : List Byte) (off n : Nat) : Nat := ofLe ((l.drop off).take n)

def pAny (off n : Nat) : PField := ⟨off, n, fun _ _ _ v => v⟩
def pZero (off n : Nat) : PField := ⟨off, n, fun _ _ _ _ => 0⟩
def pMask (off n m : Nat) : PField := ⟨off, n, fun _ _ _ v => v &&& m⟩
def pRange (off n lo hi : Nat) : PField := ⟨off, n, fun _ _ _ v => clampNat lo hi v⟩
/-- Rounded down to its alignment, then brought to the nearer end of its range. -/
def pAlign (off n a lo hi : Nat) : PField := ⟨off, n, fun _ _ _ v => clampNat lo hi (v - v % a)⟩
/-- A device-local address, of 48 bits (R10, R28). -/
def pAddr (off a : Nat) : PField := pAlign off 8 a 0 (2 ^ 48 - a)
/-- An address of the node host's memory, or one that the command itself tests (R346). -/
def pHost (off a : Nat) : PField := ⟨off, 8, fun _ _ _ v => v - v % a⟩

def hbmEnd : Nat := 0x012000000000

/-- An address in HBM. -/
def pHbm (off a : Nat) : PField := pAlign off 8 a 0 (hbmEnd - a)

/-- An FP32 value brought into [lo, hi], both positive or zero; a NaN gives the lowest. -/
def clampF32 (lo hi v : Nat) : Nat :=
  if 0x7F800000 < v % 0x80000000 then lo
  else if v = 0x80000000 then (if lo = 0 then v else lo)
  else if 0x80000000 ≤ v then lo
  else clampNat lo hi v

def pF32 (off lo hi : Nat) : PField := ⟨off, 4, fun _ _ _ v => clampF32 lo hi v⟩

def f32One : Nat := 0x3F800000
/-- 2²⁴, 2¹²⁷, 2⁻¹²⁶, 2⁻²⁴ and 448 in FP32. -/
def f32P24 : Nat := 0x4B800000
def f32P127 : Nat := 0x7F000000
def f32M126 : Nat := 0x00800000
def f32M24 : Nat := 0x33800000
def f32w448 : Nat := 0x43E00000

/-- The nearest member of a rising list; the lower on a tie. -/
def nearest (l : List Nat) (v : Nat) : Nat :=
  let dist (x : Nat) : Nat := if x < v then v - x else x - v
  l.foldl (fun best x => if dist x < dist best then x else best) (l.headD 0)

def pOneOf (off n : Nat) (l : List Nat) : PField := ⟨off, n, fun _ _ _ v => nearest l v⟩

/-- TILES (R347). -/
def pTiles (off : Nat) : PField := pMask off 24 (2 ^ 144 - 1)

def pSignal (off : Nat) : List PField := [pAny off 8, pRange (off + 8) 2 1 65535]

/-- A group word of COLL (R303): MEMBERS of a list, steps of a box. -/
def fixGroup (v : Nat) : Nat :=
  let w := BitVec.ofNat 64 v
  if w.getLsbD 63 then (setBits w 62 48 (clampNat 1 16384 (bits w 62 48))).toNat
  else
    (setBits (setBits (setBits w 47 44 (max 1 (bits w 47 44))) 43 38 (max 1 (bits w 43 38)))
      37 32 (max 1 (bits w 37 32))).toNat

/-- WIRE for a format (R288). -/
def fixWire (fmt v : Nat) : Nat :=
  if 16 ≤ fmt then fmt
  else if fmt = 0 then 0
  else if fmt = 1 then nearest [0, 1] v
  else if fmt = 2 then nearest [1, 2] v
  else nearest [1, 3] v

/-- Bytes of an element of a COLL format: R71's codes, or the integer codes of R107. -/
def collBytes (fmt : Nat) : Nat :=
  if 16 ≤ fmt then 8 / 2 ^ (fmt % 4)
  else if fmt = 0 then 8
  else if fmt = 1 then 4
  else 2

/-- RECORDS that bounds INTERVAL (R382): that of the newest SOW_CFG accepted and not yet executed, or the
one in force. -/
def State.sowRecords (s : State) : Nat :=
  match (s.sd.cmds.filter (fun c => c.opcode == 0x0901)).getLast? with
  | some c => leField c.params 8 4
  | none => s.sow.records.toNat

/-- A limit of TRAIN_CFG: the field when SET names it, the register otherwise (R258). -/
def trainLimit (p : List Byte) (bit off n old : Nat) : Nat :=
  if leField p 0 4 / 2 ^ bit % 2 = 1 then leField p off n else old

def Train.of (s : State) : Train := (Table.get MemDie.reset s.mds 0).train

def trainMin (s : State) (p : List Byte) : Nat := trainLimit p 3 0x10 4 (Train.of s).smin.toNat
def trainMax (s : State) (p : List Byte) : Nat :=
  max (trainMin s p) (trainLimit p 4 0x14 4 (Train.of s).smax.toNat)

/-- Numbers of R392, rising. -/
def definedCodes : List Nat := (List.range 256).filter codeDefined

def portFields (off : Nat) : List PField :=
  (List.range 12).map (fun i => ⟨off + i, 1, fun _ _ _ v => min (v / 64) 2 * 64 + v / 16 % 4 * 16⟩)

def collFields : List PField :=
  [ pRange 0 1 0 5, pRange 1 1 0 3,
    ⟨2, 1, fun _ _ _ v => if v / 16 % 2 = 1 then 16 + min 3 (v % 16) else min 3 (v % 16)⟩,
    ⟨3, 1, fun _ _ p v => fixWire (leField p 2 1) v⟩,
    ⟨4, 1, fun _ _ p v => if 4 ≤ v then (if leField p 0 1 = 1 then 4 else 0) else v⟩,
    pAny 5 1,
    ⟨6, 2, fun _ _ p v =>
      v &&& (0x1E + (if leField p 0 1 = 1 then 1 else 0) + (if leField p 0 1 = 3 then 0x20 else 0))⟩,
    pAny 8 8, pAny 0x10 8,
    ⟨0x18, 8, fun s d p v => (pAddr 0x18 (collBytes (leField p 2 1))).fix s d p v⟩,
    ⟨0x20, 8, fun s d p v => (pAddr 0x20 (collBytes (leField p 2 1))).fix s d p v⟩,
    pRange 0x28 8 0 (2 ^ 40), pAddr 0x30 16, ⟨0x38, 8, fun _ _ _ v => fixGroup v⟩, pAddr 0x40 2,
    pAddr 0x48 8, pAddr 0x50 4096, pAddr 0x58 4096, pAddr 0x60 64 ] ++ pSignal 0x68 ++
  [ pZero 0x72 6, pAddr 0x78 2 ]

/-- FIRST and COUNT of a store range (R197). -/
def storeRange : List PField :=
  [ ⟨0, 4, fun s die _ v =>
      let n := (s.fd (die - 56)).slots.toNat
      if n = 0 then v else min v (n - 1)⟩,
    ⟨4, 4, fun s die p v =>
      let n := (s.fd (die - 56)).slots.toNat
      if n = 0 then v else min v (n - leField p 0 4)⟩ ]

def trainFields : List PField :=
  [ pMask 0 4 0x3FF, pF32 8 f32M24 f32One, pF32 0x0C f32One f32P24, pF32 0x10 f32M126 f32P127,
    ⟨0x14, 4, fun s _ p v => clampF32 (trainMin s p) f32P127 v⟩,
    ⟨4, 4, fun s _ p v => clampF32 (trainMin s p) (trainMax s p) v⟩,
    pRange 0x18 2 1 65535, pZero 0x1A 2,
    ⟨0x1C, 4, fun s _ p v => min v (trainLimit p 5 0x18 2 (Train.of s).interval.toNat - 1)⟩,
    pRange 0x20 1 0 1, pRange 0x21 1 0 1, pZero 0x22 2, pRange 0x24 4 1000 10000000 ]

def updateFields : List PField :=
  [ pAny 0 8, pRange 8 1 0 2, pMask 9 1 1, pZero 0x0A 2, pRange 0x0C 4 1 4096, pAddr 0x10 64, pAddr 0x18 32,
    pF32 0x20 0 f32One, pF32 0x24 0 f32One, pF32 0x28 0 f32One, pF32 0x2C 0 f32One,
    pF32 0x30 f32One f32P24, pF32 0x34 f32One f32P24, pF32 0x38 0 f32One, pF32 0x3C 0 f32One,
    pF32 0x40 0 f32One, pF32 0x44 f32M126 f32One, pF32 0x48 f32One f32w448, pZero 0x4C 4 ]
  ++ pSignal 0x50 ++ [pZero 0x5A 6]

/-- GEOM: each extent from 1 to its maximum (R35). -/
def fixGeom (v : Nat) : Nat :=
  clampNat 1 32 (v / 2 ^ 12 % 64) * 2 ^ 12 + clampNat 1 32 (v / 64 % 64) * 64 + clampNat 1 16 (v % 64)

def torusFields : List PField :=
  [ pMask 0 4 0x1F, pMask 4 4 0x1FFFF, ⟨8, 4, fun _ _ _ v => fixGeom v⟩, pZero 0x0C 4,
    ⟨0x10, 8, fun _ _ _ v => fixGroup v⟩, pAddr 0x18 8 ] ++ portFields 0x20 ++
  [ pRange 0x2C 2 100 65535, ⟨0x2E, 2, fun _ _ p v => clampNat 10 (leField p 0x2C 2) v⟩,
    pRange 0x30 1 10 100, pZero 0x31 15 ]

/-- The largest value of SEC_FUSE_BLOW's VALUE for a FIELD, or a mask (R437). -/
def fixFuseValue (field v : Nat) : Nat :=
  if field = 0 then min v 3
  else if field = 1 ∨ field = 2 then 1
  else if field = 3 then v % 16
  else if field = 4 then v
  else min v 64

/-- Target and parameters of an opcode, in the order in which they are clamped; `n` is the number of list
entries that follow the fixed part. -/
def opInfo (op n : Nat) : Option (TargetKind × List PField) :=
  match op with
  | 0x0000 => some (.device, [])
  | 0x0101 => some (.device, torusFields)
  | 0x0102 => some (.device, [pAddr 0 64, pRange 8 1 0 64])
  | 0x0103 => some (.device, [pMask 0 2 0xFFF, pRange 2 1 0 2])
  | 0x0104 => some (.device,
      [ pMask 0 4 0x3F, pRange 4 1 0 1, pRange 5 1 0 1, pRange 6 1 0 1, pRange 7 1 1 255, pRange 8 1 1 255,
        pRange 9 1 80 100, pZero 0x0A 6 ])
  | 0x0105 => some (.device, trainFields)
  | 0x0106 => some (.device, [pRange 0 2 1 255, pZero 2 6]
      ++ (List.range n).flatMap (fun i => [pHost (8 + 16 * i) 8, pAny (16 + 16 * i) 8]))
  | 0x0107 => some (.device, [pHost 0 8])
  | 0x0201 => some (.compute,
      [ pHbm 0 64, pRange 8 2 0 16383, ⟨0x0A, 2, fun _ _ p v => clampNat 1 (16384 - leField p 8 2) v⟩,
        pRange 0x0C 2 0 16383, pRange 0x0E 2 0 16383, pMask 0x10 1 3, pZero 0x11 7, pTiles 0x18 ])
  | 0x0301 => some (.compute,
      [ pRange 0 1 0 1, pMask 1 1 3, pRange 2 1 0 31, pRange 3 1 0 32, pRange 4 2 0 16383, pZero 6 2, pTiles 8 ]
      ++ (List.range n).flatMap (fun i =>
        [pRange (0x20 + 16 * i) 1 0 31, pZero (0x21 + 16 * i) 7, pAny (0x28 + 16 * i) 8]))
  | 0x0302 => some (.compute, [pRange 0 1 0 3, pZero 1 7, pTiles 8])
  | 0x0303 => some (.device, updateFields)
  | 0x0304 => some (.device, [])
  | 0x0401 => some (.device,
      [ pRange 0 1 0 2, pMask 1 1 1, pZero 2 6, pHost 8 64, pAddr 0x10 64, pAddr 0x18 64,
        pAlign 0x20 8 64 64 (2 ^ 40) ] ++ pSignal 0x28 ++ [pZero 0x32 14])
  | 0x0402 => some (.oneMemory,
      [pAddr 0 4096, pAddr 8 64, pRange 0x10 4 1 1048576, pMask 0x14 4 1] ++ pSignal 0x18 ++ [pZero 0x22 6])
  | 0x0403 => some (.oneMemory,
      [pAddr 0 64, pAddr 8 4096, pRange 0x10 4 1 1048576, pMask 0x14 4 1] ++ pSignal 0x18 ++ [pZero 0x22 6])
  | 0x0501 => some (.device, collFields)
  | 0x0601 => some (.device, [pAddr 0 32, pRange 8 4 1 1048576, pMask 0x0C 4 1] ++ pSignal 0x10)
  | 0x0701 => some (.oneFactor,
      [pAddr 0 128, pAddr 8 32, pAddr 0x10 64, pRange 0x18 4 1 65536, pMask 0x1C 4 3, pAny 0x20 8]
      ++ pSignal 0x28 ++ [pZero 0x32 14])
  | 0x0702 => some (.oneFactor,
      [ pAlign 8 4 64 256 262144, ⟨0, 8, fun _ _ p v => min (v - v % 64) (hbmEnd - leField p 8 4)⟩,
        ⟨0x0C, 4, fun _ _ p v => clampNat 1 (min 4194304 ((hbmEnd - leField p 0 8) / leField p 8 4)) v⟩ ])
  | 0x0703 => some (.oneFactor, storeRange)
  | 0x0704 => some (.oneFactor, storeRange)
  | 0x0705 => some (.oneFactor, [])
  | 0x0801 => some (.device,
      [ ⟨0, 4, fun s _ _ v => clampNat 1 ((s.sowRecords - 2) / 2) v⟩, pMask 4 1 1, pZero 5 3, pAddr 8 32,
        pRange 0x10 4 0 4096, pZero 0x14 4, pHbm 0x18 4096, pHbm 0x20 (2 ^ 30), pHbm 0x28 (2 ^ 30),
        pAlign 0x30 8 (2 ^ 30) (2 ^ 30) (512 * 2 ^ 30) ])
  | 0x0802 => some (.device, [])
  | 0x0803 => some (.device, [pRange 0 1 0 2, pZero 1 7, pHost 8 4096])
  | 0x0804 => some (.device, [pRange 0 1 0 1, pMask 1 1 3, pAny 2 2, pZero 4 4, pAny 8 8, pHost 0x10 4096])
  | 0x0810 => some (.device, [pRange 0 1 0 31, pRange 1 1 0 1])
  | 0x0811 => some (.device, [pRange 0 1 0 59])
  | 0x0901 => some (.device,
      [ pHbm 0 512, pRange 8 4 128 65536, pRange 0x0C 1 0 5, pMask 0x0D 1 1, pZero 0x0E 2, pAddr 0x10 512,
        pHbm 0x18 512 ])
  | 0x0902 => some (.device,
      [pAny 0 8, pAny 8 8, pRange 0x10 1 0 16, pMask 0x11 1 1, pZero 0x12 6, pAny 0x18 128, pAny 0x98 64])
  | 0x0A01 => some (.device,
      [ pMask 0 4 0x1F, pRange 4 1 0 2, pOneOf 5 1 ((List.range 12) ++ [15]), pMask 6 2 0xFFF,
        pRange 8 2 100 4000, pRange 0x0A 1 1 255, pRange 0x0B 1 1 15, pAny 0x0C 2, pRange 0x0E 1 1 255,
        pZero 0x0F 1 ])
  | 0x0A02 => some (.device, [pAny 0 8, pAny 8 2, pRange 0x0A 1 1 255, pZero 0x0B 5])
  | 0x0B01 => some (.device,
      [ pMask 0 4 0xF, ⟨4, 2, fun s _ _ v => v % 16 ||| (if s.safetyLock then 4 else 0)⟩, pRange 6 2 1 150,
        pRange 8 2 1 20, ⟨0x0A, 2, fun s _ _ v => clampNat 10 (if s.safetyLock then 60 else 1440) v⟩ ])
  | 0x0B02 => some (.device,
      [ pAny 0 8,
        ⟨8, 8, fun _ _ p v => clampNat (min (leField p 0 8 + 1) (2 ^ 64 - 1))
          (min (leField p 0 8 + 10000000) (2 ^ 64 - 1)) v⟩,
        pMask 0x10 2 0xF ])
  | 0x0B03 => some (.device, [pHbm 0 256, pRange 8 4 16 65536, pRange 0x0C 4 1000 60000000, pMask 0x10 1 1])
  | 0x0C01 => some (.device, [])
  | 0x0C02 => some (.device, [])
  | 0x0C03 => some (.device, [pRange 0 1 0 0])
  | 0x0C04 => some (.oneMemory, [pRange 0 1 0 1, pRange 1 1 0 1, pZero 2 6, pAddr 8 64])
  | 0x0C05 => some (.oneMemory, [pRange 0 1 0 1, pRange 1 1 0 3, pRange 2 1 1 8, pZero 3 5, pAddr 8 64, pAny 0x10 8])
  | 0x0D01 => some (.oneMemory,
      [ pRange 0 1 0 1, pRange 1 1 1 2, pRange 2 1 0 67,
        ⟨3, 1, fun _ _ p v =>
          let v := min v 67
          if v = leField p 2 1 then (if v = 0 then 1 else v - 1) else v⟩,
        pZero 4 4, pAlign 8 8 64 0 (0x900000000 - 64) ])
  | 0x0D02 => some (.device, [pAny 0 2, pZero 2 6, pAny 8 8, ⟨0x10, 8, fun _ _ p v => max v (leField p 8 8)⟩])
  | 0x0D03 => some (.device, [])
  | 0x0D04 => some (.oneDie, [pOneOf 0 1 definedCodes, pAny 1 1, pRange 2 1 0 19])
  | 0x0D05 => some (.compute, [pTiles 0])
  | 0x0E01 => some (.device, [pAny 0 32, pHbm 0x20 64])
  | 0x0E02 => some (.device, [pHbm 0 64])
  | 0x0E03 => some (.device, [pRange 0 1 0 5, pZero 1 1, ⟨2, 2, fun _ _ p v => fixFuseValue (leField p 0 1) v⟩])
  | 0x0E04 => some (.device, [pHbm 0 64])
  | 0x0F01 => some (.dies, [pRange 0 1 0 1, pRange 1 1 0 1])
  | _ => none

/-- Entries of the list that follows the fixed parameters, from the count as clamped. -/
def listCount (op : Nat) (raw : List Byte) : Nat :=
  if op = 0x0106 then clampNat 1 255 (leField raw 0 2)
  else if op = 0x0301 then min 32 (leField raw 3 1)
  else 0

def areaOf (l : List PField) : Nat := l.foldl (fun m f => max m (f.off + f.size)) 0

def putField (p : List Byte) (off n v : Nat) : List Byte :=
  p.take off ++ leBytes n v ++ p.drop (off + n)

/-- Every parameter made legal, in table order. -/
def clampParams (s : State) (die : Nat) (l : List PField) (p : List Byte) : List Byte :=
  l.foldl (fun p f => putField p f.off f.size (f.fix s die p (leField p f.off f.size) % 256 ^ f.size)) p

/-! ## Header (R339, R343) -/

/-- Blocks that a command of a kind may name. -/
def kindBlocks : TargetKind → List Nat
  | .device => []
  | .compute => List.range 32 ++ [62, 63]
  | .oneMemory => (List.range 16).map (· + 32)
  | .oneFactor => (List.range 4).map (· + 56)
  | .oneDie => allBlocks
  | .dies => allBlocks

def isOne : TargetKind → Bool
  | .oneMemory => true
  | .oneFactor => true
  | .oneDie => true
  | _ => false

/-- Word 0 with its reserved bits 0 and LENGTH at most 4,096. -/
def fixWord0 (w : BitVec 64) : BitVec 64 :=
  let w := setBits w 18 3 0
  if 4096 < bits w 31 19 then setBits w 31 19 4096 else w

/-- Word 1: reserved bits 0, TKIND one the opcode allows, DIE a block of its type. -/
def fixWord1 (k : TargetKind) (w : BitVec 64) : BitVec 64 :=
  let w := setBits (setBits w 59 56 0) 39 0 0
  let t := min 3 (bits w 63 60)
  let t := if k = .device then 0 else if isOne k then 1 else t
  let w := setBits w 63 60 t
  if t = 1 then setBits w 55 48 (nearest (kindBlocks k) (bits w 55 48)) else w

/-- Dies of a group (R340): types in quadrants. -/
def groupBlocks (quads types : Nat) : List Nat :=
  allBlocks.filter (fun b =>
    match blockQuad b with
    | none => false
    | some q => quads / 2 ^ q % 2 == 1
        && types / 2 ^ (if b < 32 then 0 else if b < 48 then 1 else if b < 56 then 2 else 3) % 2 == 1)

/-- Blocks that a command names, ascending. -/
def targetsOf (k : TargetKind) (w1 w3 : BitVec 64) : List Nat :=
  let t := bits w1 63 60
  if k = .device then []
  else if t = 0 then (kindBlocks k).filter (· < 62)
  else if t = 1 then [bits w1 55 48]
  else if t = 2 then (groupBlocks (bits w1 47 44) (bits w1 43 40)).filter (kindBlocks k).contains
  else (allBlocks.filter (fun b => w3.getLsbD b)).filter (kindBlocks k).contains

end Sys2Proof.Machine
end

