-- ==== Sys2Proof/Machine/Digest.lean ====
section
/-! DEFINITION. The digests the manual names: CRC-32 with the IEEE 802.3 polynomial (R362, R423) and SHA-384
(R368, R441). PRESUMED: their published forms (log entry 12). -/
namespace Sys2Proof.Machine

/-! ## CRC-32 -/

def crcBit (r : BitVec 32) : BitVec 32 :=
  if r.getLsbD 0 then (r >>> 1) ^^^ 0xEDB88320 else r >>> 1

def crcByte (r : BitVec 32) (b : Byte) : BitVec 32 :=
  (List.range 8).foldl (fun r _ => crcBit r) (r ^^^ b.setWidth 32)

def crc32 (l : List Byte) : BitVec 32 := ~~~(l.foldl crcByte 0xFFFFFFFF)

/-! ## SHA-384 -/

/-- Primes below 410, which no number from 2 to 20 divides: the first 80. -/
def shaPrimes : List Nat :=
  (List.range 410).filter (fun n => decide (2 ≤ n)
    && (List.range 19).all (fun i => n % (i + 2) != 0 || n == i + 2))

/-- The integer `k`-th root of `n`, built bit by bit from bit `i - 1` down onto the bits found so far. -/
def rootFrom (k n : Nat) : Nat → Nat → Nat
  | 0, found => found
  | i + 1, found =>
    let more := found + 2 ^ i
    rootFrom k n i (if more ^ k ≤ n then more else found)

/-- The first 64 bits behind the point of the `k`-th root of a prime. -/
def rootFraction (k p : Nat) : BitVec 64 := BitVec.ofNat 64 (rootFrom k (p * 2 ^ (64 * k)) 70 0)

/-- The constants of the 80 rounds: cube roots of the first 80 primes. -/
def shaConsts : List (BitVec 64) := shaPrimes.map (rootFraction 3)

/-- The digest before any block: square roots of the ninth to the sixteenth prime. -/
def shaStart : List (BitVec 64) := ((shaPrimes.drop 8).take 8).map (rootFraction 2)

def rotr64 (x : BitVec 64) (n : Nat) : BitVec 64 := (x >>> n) ||| (x <<< (64 - n))

/-- The word turned right by each of these amounts, added bit by bit to `acc`. -/
def turned (x acc : BitVec 64) (l : List Nat) : BitVec 64 := l.foldl (fun acc n => acc ^^^ rotr64 x n) acc

/-- Bytes, the most significant first. -/
def beBytes (n v : Nat) : List Byte := (leBytes n v).reverse

def beNat (l : List Byte) : Nat := ofLe l.reverse

/-- Word t of the message schedule from those before it, the newest first: t - 2, t - 7, t - 15 and t - 16. -/
def shaExtend (w : List (BitVec 64)) : List (BitVec 64) :=
  let back (i : Nat) : BitVec 64 := w.getD (i - 1) 0
  let late := back 2
  let early := back 15
  (turned late (late >>> 6) [19, 61] + back 7 + turned early (early >>> 7) [1, 8] + back 16) :: w

/-- The eight working words of a round. -/
structure ShaWork where
  a : BitVec 64
  b : BitVec 64
  c : BitVec 64
  d : BitVec 64
  e : BitVec 64
  f : BitVec 64
  g : BitVec 64
  h : BitVec 64
  deriving DecidableEq, Repr

def ShaWork.words (v : ShaWork) : List (BitVec 64) := [v.a, v.b, v.c, v.d, v.e, v.f, v.g, v.h]

def shaWork (l : List (BitVec 64)) : ShaWork :=
  ⟨l.getD 0 0, l.getD 1 0, l.getD 2 0, l.getD 3 0, l.getD 4 0, l.getD 5 0, l.getD 6 0, l.getD 7 0⟩

/-- One round: `e` chooses between `f` and `g`, and the majority of `a`, `b` and `c` counts. `k` is the round's constant
plus its word. -/
def ShaWork.round (v : ShaWork) (k : BitVec 64) : ShaWork :=
  let choice := v.g ^^^ (v.e &&& (v.f ^^^ v.g))
  let majority := (v.c &&& (v.a ||| v.b)) ||| (v.a &&& v.b)
  let x := k + v.h + choice + turned v.e 0 [14, 18, 41]
  { a := x + majority + turned v.a 0 [28, 34, 39], b := v.a, c := v.b, d := v.c, e := v.d + x, f := v.e, g := v.f
    h := v.g }

def shaBlock (digest : List (BitVec 64)) (m : List Byte) : List (BitVec 64) :=
  let first := (List.range 16).map (fun i => BitVec.ofNat 64 (beNat ((m.drop (8 * i)).take 8)))
  let schedule := ((List.range 64).foldl (fun w _ => shaExtend w) first.reverse).reverse
  let v := (List.zipWith (· + ·) shaConsts schedule).foldl ShaWork.round (shaWork digest)
  List.zipWith (· + ·) digest v.words

/-- A 1 bit, zeros, and the length in bits fill the last block. -/
def shaPad (l : List Byte) : List Byte :=
  l ++ 0x80 :: List.replicate ((239 - l.length % 128) % 128) 0 ++ beBytes 16 (8 * l.length)

/-- The SHA-384 digest, 48 bytes. -/
def sha384 (l : List Byte) : List Byte :=
  let m := shaPad l
  let digest := (List.range (m.length / 128)).foldl (fun h i => shaBlock h ((m.drop (128 * i)).take 128)) shaStart
  (digest.take 6).flatMap (fun w => beBytes 8 w.toNat)

end Sys2Proof.Machine
end

