-- ==== Sys2Proof/Machine/Flit.lean ====
section
/-! DEFINITION. What goes over a torus link: flits (R266) and the packets in them (R269). The CRC is that of log entry
12; a flit's header is stored as R269 stores a packet's words, and an AUDIT flit's payload has a layout of the model's
own (log entry 132). -/
namespace Sys2Proof
open Machine

/-! ## Flits (R266) -/

def payloadBytes : Nat := 244

def Flit.header (f : Flit) : BitVec 64 :=
  word64 [(f.kind.toNat, 62), (natOf f.sop, 61), (natOf f.eop, 60), (f.vc.val, 57), (f.seq.toNat, 45),
    (f.ack.toNat, 33),
    (natOf f.nak, 32), (f.cvc.val, 29), (f.ctot.toNat, 22), (f.bytes.toNat, 14)]

/-- Bytes 0 to 251, which the CRC covers. -/
def Flit.covered (f : Flit) : List Byte :=
  leBytes 8 f.header.toNat ++ f.payload ++ List.replicate (payloadBytes - f.payload.length) 0

def Flit.good (f : Flit) : Bool := f.crc == crc32 f.covered

/-- The flit with the CRC that its bytes have. -/
def Flit.seal (f : Flit) : Flit := { f with crc := crc32 f.covered }

/-- A flit without link-level fields, as it waits to be sent. -/
def bareFlit (kind : BitVec 2) (vc : Fin 8) (sop eop : Bool) (bytes : BitVec 8) (payload : List Byte) : Flit :=
  { kind := kind, sop := sop, eop := eop, vc := vc, seq := 0, ack := 0, nak := false, cvc := 0, ctot := 0
    bytes := bytes, payload := payload, crc := 0 }

/-- Bytes of the payload that belong to the packet: all of them but in its last flit. -/
def Flit.valid (f : Flit) : List Byte := if f.eop then f.payload.take f.bytes.toNat else f.payload

/-- A packet or link-control flit: it has a SEQ (R267). -/
def Flit.sequenced (f : Flit) : Bool := f.kind == 1 || f.kind == 2

/-- An AUDIT flit: it gets what it says as it is sent (R280). -/
def controlFlit : BufFlit := ⟨bareFlit 2 0 true true 0 [], none⟩

/-- A DELAY flit: half of what its exchange measures is the delay that the peer's answer tells (R315). -/
def delayFlit : BufFlit := ⟨bareFlit 2 1 true true 0 [], none⟩

/-! ## Packets (R269) -/

/-- Class of a TYPE: 0 REQ, 1 RSP, 2 COLL, 3 CTRL; none for an unknown one. -/
def classOf (t : BitVec 6) : Option Nat :=
  match t.toNat with
  | 0x01 => some 0
  | 0x02 => some 0
  | 0x06 => some 0
  | 0x03 => some 1
  | 0x04 => some 1
  | 0x05 => some 1
  | 0x10 => some 2
  | 0x11 => some 2
  | 0x12 => some 2
  | 0x20 => some 3
  | 0x21 => some 3
  | _ => none

/-- The four words of a packet's header. -/
def Packet.words (k : Packet) : List (BitVec 64) :=
  [word64 [(k.dest.toNat, 48), (k.src.toNat, 32), (k.via.toNat, 16), (k.ptype.toNat, 10), (k.order.toNat, 7),
      (natOf k.phase, 6), (natOf k.detour, 5)],
    word64 [(k.len, 51), (k.season.toNat, 47), (k.gen.toNat, 39), (k.id.toNat, 23), (k.born.toNat, 7)],
    word64 [(k.tag.toNat, 48), (k.addr.toNat, 0)], k.arg]

def Packet.bytes (k : Packet) : List Byte := k.words.flatMap (fun w => leBytes 8 w.toNat) ++ k.data

/-- The packet whose bytes a channel has received. -/
def packetOf (l : List Byte) : Packet :=
  let w (i : Nat) : BitVec 64 := BitVec.ofNat 64 (leField l (8 * i) 8)
  let len := bits (w 1) 63 51
  { dest := BitVec.ofNat 16 (bits (w 0) 63 48), src := BitVec.ofNat 16 (bits (w 0) 47 32)
    via := BitVec.ofNat 16 (bits (w 0) 31 16), ptype := BitVec.ofNat 6 (bits (w 0) 15 10)
    order := BitVec.ofNat 3 (bits (w 0) 9 7), phase := (w 0).getLsbD 6, detour := (w 0).getLsbD 5, len := len
    season := BitVec.ofNat 4 (bits (w 1) 50 47), gen := BitVec.ofNat 8 (bits (w 1) 46 39)
    id := BitVec.ofNat 16 (bits (w 1) 38 23), born := BitVec.ofNat 16 (bits (w 1) 22 7)
    tag := BitVec.ofNat 16 (bits (w 2) 63 48), addr := BitVec.ofNat 48 (bits (w 2) 47 0), arg := w 3
    data := (l.drop 32).take len }

/-- Flits of a packet. -/
def flitCount (k : Packet) : Nat := if k.len ≤ 212 then 1 else 1 + (k.len - 212 + 243) / payloadBytes

/-- The flits of a packet on a channel. -/
def flitsOf (vc : Nat) (k : Packet) : List BufFlit :=
  let l := k.bytes
  let n := flitCount k
  (List.range n).map (fun i =>
    let part := (l.drop (payloadBytes * i)).take payloadBytes
    let last := i + 1 == n
    ⟨bareFlit 1 (Fin.ofNat 8 vc) (i == 0) last (if last then BitVec.ofNat 8 part.length else 0) part, some k⟩)

/-- 64-byte sectors that a packet touches at its destination: first and last. A READ names its bytes in ARG. -/
def Packet.sectors (k : Packet) : Nat × Nat :=
  let n := if k.ptype = 2 then k.arg.toNat else k.len
  (k.addr.toNat / 64, (k.addr.toNat + (n - 1)) / 64)

/-- Packets whose order R274 keeps: of one class, from one source to one sector of one destination. -/
def Packet.sameFlow (j k : Packet) : Bool :=
  let a := j.sectors
  let b := k.sectors
  j.src == k.src && j.dest == k.dest && classOf j.ptype == classOf k.ptype && decide (a.1 ≤ b.2) && decide (b.1 ≤ a.2)

/-- Nothing ahead of a packet in a list is of its flow. -/
def inFlow {α : Type} [BEq α] (of : α → Packet) (e : α) (l : List α) : Bool :=
  (l.takeWhile (fun x => !(x == e))).all (fun x => !(of x).sameFlow (of e))

end Sys2Proof
end

