-- ==== Sys2Proof/Machine/Fabric.lean ====
section
/-! DEFINITION. The die fabric: its edges (R16), the paths that the route tables give (R17, R19, R25-R27), the ordering
classes with their pools, and the order that they keep (R18). -/
namespace Sys2Proof.Machine

/-! ## Edges (R16) -/

/-- An edge with the lower block first. -/
def edgeSorted (e : Edge) : Edge := if e.b.val < e.a.val then ⟨e.b, e.a⟩ else e

/-- The edges of R16, by the blocks at their ends, the lower one first. -/
def edgeThere (e : Edge) : Bool :=
  let a := e.a.val
  let b := e.b.val
  let mem (x : Nat) : Bool := decide (32 ≤ x) && decide (x < 48)
  let m := if mem a then a - 32 else b - 32
  if a < 32 ∧ mem b then m / 4 == a / 8
  else if mem a ∧ mem b then
    (a < b && ((m / 4 != (b - 32) / 4 && m % 4 == (b - 32) % 4) || (m / 4 == (b - 32) / 4 && a + 1 == b)))
  else if mem a ∧ 48 ≤ b ∧ b < 56 then m / 2 == b - 48
  else if 48 ≤ a ∧ b < 56 then a % 2 == 0 && a + 1 == b
  else if mem a ∧ 56 ≤ b ∧ b < 60 then m / 4 == b - 56
  else if mem a ∧ b = 62 then m % 4 == 1
  else if mem a ∧ b = 63 then m % 4 == 2
  else false

def edgeKey (e : Edge) : Nat := e.a.val * 64 + e.b.val

def edgeOf (a b : Nat) : Edge := edgeSorted ⟨Fin.ofNat 64 a, Fin.ofNat 64 b⟩

/-- The link dies that serve a port (R20): two for a split port. -/
def portLds (p : Nat) : List Nat :=
  match p with
  | 0 => [0]
  | 1 => [1]
  | 2 => [0, 1]
  | 3 => [2, 3]
  | 4 => [2]
  | 5 => [3]
  | 6 => [4]
  | 7 => [5]
  | 8 => [4, 5]
  | 9 => [6, 7]
  | 10 => [6]
  | _ => [7]

/-! ## The route tables (R25)

They hold what the interleave sends where (`quadLocal`), which site stands for an adopted number (`sites`) and which
edges are fenced (`fenced`); everything else in them is R17's. -/

/-- A site that has adopted a logical number. -/
def State.siteOf (s : State) (cd : Nat) : Option Nat :=
  if s.sites.s32 = 1 ∧ s.sites.s32cd.toNat = cd then some 0
  else if s.sites.s33 = 1 ∧ s.sites.s33cd.toNat = cd then some 1
  else none

/-- Where a die stands: CDn at its own site, or at the fallow site that has adopted its number (R26). -/
def State.standsAt (s : State) (b : Nat) : Nat :=
  match s.siteOf b with
  | some k => 62 + k
  | none => b

/-- An edge that carries traffic: there, not fenced, and between dies that are not retired. The four compute edges of
a die whose number a fallow die has adopted carry none (R27). -/
def State.edgeOpen (s : State) (a b : Nat) : Bool :=
  let e := edgeOf a b
  let shut (x : Nat) : Bool := (s.siteOf x).isSome || (s.die x).retired
  edgeThere e && !s.fabric.fenced.contains e && !shut a && !shut b

def memAt (q j : Nat) : Nat := 32 + 4 * q + j

/-- The chain of a quadrant from one index to another, both ends included. -/
def chainNodes (q j k : Nat) : List Nat :=
  if j ≤ k then (List.range (k - j + 1)).map (fun i => memAt q (j + i))
  else (List.range (j - k + 1)).map (fun i => memAt q (j - i))

/-- The edges of a path, by the dies along it. -/
def hops (l : List Nat) : List (Nat × Nat) := l.zip (l.drop 1)

def State.walks (s : State) (l : List Nat) : Bool := (hops l).all (fun h => s.edgeOpen h.1 h.2)

/-- Indexes that stand in for `j` behind it, the neighbours first (R19); which of two neighbours takes the traffic is a
free value of the edge. -/
def standIns (key j : Nat) : List Nat :=
  j :: [1, 2, 3].flatMap (fun n =>
    let up := if j + n < 4 then [j + n] else []
    let down := if n ≤ j then [j - n] else []
    if Config.detourUp key then up ++ down else down ++ up)

/-- A die that is no memory die reaches index `j` of a quadrant by its edge there, or by the edge to a neighbouring
memory die and the chain (R17, R19, R27). -/
def State.leaf (s : State) (b q j : Nat) : Option (List Nat) :=
  ((standIns (16 * b + 4 * q + j) j).map (fun k => b :: chainNodes q k j)).find? s.walks

/-- From a die to index `j` of a quadrant; a memory die goes along its chain. -/
def State.leg (s : State) (b q j : Nat) : Option (List Nat) :=
  if 32 ≤ b ∧ b < 48 then
    let l := chainNodes q (b % 4) j
    if s.walks l then some l else none
  else s.leaf b q j

/-- From one quadrant to another at index `j`: the spine edge, or a neighbouring one and the chains at both ends
(R17, R19). -/
def State.spine (s : State) (q r j : Nat) : Option (List Nat) :=
  if q = r then some [memAt q j]
  else
    ((standIns (2048 + 16 * min q r + 4 * max q r + j) j).map (fun k => chainNodes q j k ++ chainNodes r k j)).find?
      s.walks

/-- The index of the memory dies that a path takes: the destination's, the destination tile's number modulo 4 (R17), or
that of a memory die which sends. R17 leaves open which of a link die's two edges is taken, and gives no path to or from
a factor die but those to memory; there it is a free value. -/
def routeIndex (a b tile : Nat) : Nat :=
  if 32 ≤ b ∧ b < 48 then b % 4
  else if 32 ≤ a ∧ a < 48 then a % 4
  else if 48 ≤ b ∧ b < 56 then 2 * (b % 2) + natOf (Config.linkEdge a b)
  else if 56 ≤ b ∧ b < 60 then Config.storeEdge a b % 4
  else tile % 4

/-- Two stretches of a path that meet in one die. -/
def joinPath (x y : List Nat) : List Nat := x ++ y.drop 1

/-- The dies along the path from one die to another (R17, as redirected by R19 and R26); none where no open path is
left. `tile` is the destination tile's number. -/
def State.path (s : State) (src dst tile : Nat) : Option (List Nat) :=
  let a := s.standsAt src
  let b := s.standsAt dst
  if a = b then some [a]
  else
    let r := (blockQuad b).getD ((blockQuad a).getD (dst / 8))
    let q := (blockQuad a).getD r
    let j := routeIndex a b tile
    match s.leg a q j, s.spine q r j, s.leg b r j with
    | some x, some y, some z => some (joinPath x (joinPath y z.reverse))
    | _, _, _ => none

def State.pathMeets (s : State) (e : Edge) (src dst tile : Nat) : Bool :=
  match s.path src dst tile with
  | some l => (hops l).any (fun h => edgeOf h.1 h.2 == e)
  | none => false

/-! ## Classes and order (R18) -/

/-- Die and tile number behind a device-local address, as the fabric's destination. -/
def State.targetOf (s : State) (a : Nat) : Option (Nat × Nat) :=
  match s.locate a with
  | .hbm k _ => some (blkMd (k / 2), 0)
  | .sram d t _ => some (d, t)
  | .store f _ => some (blkFd f, 0)
  | .reg b _ => some (s.dieOf b, 0)
  | .unmapped => none

/-- The sectors of a request of this device, first and last. -/
def State.sectorSpan (s : State) (u : SlotUse) : Option (Nat × Nat) :=
  match s.route u.addr with
  | .here a => some (a / 64, (a + u.len - 1) / 64)
  | _ => none

/-- Two requests touch one 64-byte sector. -/
def State.sameSector (s : State) (u v : SlotUse) : Bool :=
  match s.sectorSpan u, s.sectorSpan v with
  | some (a, b), some (x, y) => decide (a ≤ y) && decide (x ≤ b)
  | _, _ => false

/-- A request that arrives at another die comes behind every request of its die to the same sector that was issued
before it and is still on its way (R18). -/
def State.inOrder (s : State) (d : Nat) (u : SlotUse) : Bool :=
  s.tiles.all (fun e => e.1 / 144 != d || e.2.slots.all (fun x =>
    let v := x.2
    v.stage != 0 || v.kind == 6 || decide (u.seq ≤ v.seq) || !s.sameSector u v))

/-- The class and the edge-crossing path of what a tile's slot has on its way: the request, or the response to it. -/
def State.carries (s : State) (e : Edge) (d t : Nat) (who : Requester) (u : SlotUse) : Option OrderClass :=
  let back := s.fabric.resp.any (fun r => r.who == who)
  let meets (b tile : Nat) : Option OrderClass :=
    if back || u.stage == 1 then (if s.pathMeets e b d t then some .response else none)
    else if s.pathMeets e d b tile then some .request
    else none
  if u.kind = 6 ∧ !(u.addr.getLsbD 47) then meets (bits u.addr 25 21) (bits u.addr 20 13)
  else
    match s.route u.addr with
    | .here a => (s.targetOf a).bind (fun b => meets b.1 b.2)
    | .there _ _ => (List.range 8).findSome? (fun l => meets (blkLd l) 0)
    | .error _ => none

/-- The class of what a requester has in the buffers of an edge, if its path crosses that edge. A request of another die
than a compute die is known by its die alone. -/
def State.heldClass (s : State) (e : Edge) (who : Requester) : Option OrderClass :=
  match who with
  | .agent b _ => if (List.range 16).any (fun m => s.pathMeets e b.val (blkMd m) 0) then some .request else none
  | .tile d t k =>
    match Table.find (s.tile d.val t.val).slots k with
    | some u => if u.stage ≤ 1 then s.carries e d.val t.val who u else none
    | none => none

/-- The die-fabric class of a torus class (R271): REQ and COLL are requests, RSP responses, CTRL commands. -/
def fabricClass (cls : Nat) : OrderClass :=
  match cls with
  | 1 => .response
  | 3 => .command
  | _ => .request

/-- The class of a packet between two link dies, if its path crosses the edge. -/
def State.packetClass (s : State) (e : Edge) (k : Packet) : Option OrderClass :=
  if s.net.crossing.any (fun x => x.pkt == k && s.pathMeets e (blkLd x.src) (blkLd ((portLds x.port).headD 0)) 0) then
    (classOf k.ptype).map fabricClass
  else none

/-- The class of a command on its way from its quadrant's hub to one of its dies, if its path crosses the edge (R4,
R22). -/
def State.commandClass (s : State) (e : Edge) (cid b : Nat) : Option OrderClass :=
  match s.sd.cmds.find? (fun c => c.cid == cid), blockQuad (s.dieOf b) with
  | some c, some q =>
    if c.stage = .accepted ∧ c.targets.contains b ∧ s.pathMeets e (memAt q 0) (s.dieOf b) 0 then some .command else none
  | _, _ => none

def State.classIn (s : State) (e : Edge) (h : Held) : Option OrderClass :=
  match h with
  | .request w => s.heldClass e w
  | .packet k => s.packetClass e k
  | .command cid b => s.commandClass e cid b.val

/-- What an edge's buffers hold at an error: each class in its own pool, and no more than that holds (R18, R19). -/
def State.inPools (s : State) (e : Edge) (held : List Held) : List Held :=
  let of (c : OrderClass) : List Held :=
    (held.eraseDups.filter (fun w => s.classIn e w == some c)).take (Config.poolSize c.num)
  of .request ++ of .response ++ of .command

end Sys2Proof.Machine
end

