-- ==== Sys2Proof/Machine/Flags.lean ====
section
/-! DEFINITION. The sticky exception flags of CDT_FPFLAGS (R52, R68) and the rounding directions (R48). -/
namespace Sys2Proof.Machine

abbrev FpFlags := BitVec 8

def fInexact   : FpFlags := 0x01
def fUnderflow : FpFlags := 0x02
def fOverflow  : FpFlags := 0x04
def fDivZero   : FpFlags := 0x08
def fInvalid   : FpFlags := 0x10
def fSat       : FpFlags := 0x20
def fNanOut    : FpFlags := 0x40
def fScaleBad  : FpFlags := 0x80

/-- `f` where `b` holds, else no flag. -/
def flagIf (b : Bool) (f : FpFlags) : FpFlags := if b then f else 0

/-- Flags of several results together. -/
def allFlags (l : List FpFlags) : FpFlags := l.foldl (· ||| ·) 0

/-- The rounding field of vector and scalar instructions (R48). -/
inductive Rm where
  | nearest | zero | up | down
  deriving DecidableEq, Repr

def rmOf (n : Nat) : Rm :=
  match n % 4 with
  | 0 => .nearest
  | 1 => .zero
  | 2 => .up
  | _ => .down

/-- Whether the magnitude kept is raised by one unit: `odd` is its last bit, `rest` compares what is cut
off with half a unit, `cut` says that something was cut off. -/
def Rm.raises (rm : Rm) (neg odd : Bool) (rest : Ordering) (cut : Bool) : Bool :=
  match rm with
  | .nearest => rest == .gt || (rest == .eq && odd)
  | .zero => false
  | .up => cut && !neg
  | .down => cut && neg

end Sys2Proof.Machine
end

