-- ==== Sys2Proof/Machine/Float.lean ====
section
/-! DEFINITION. Floating-point formats and their arithmetic (R37-R39, R48-R51): a value is decoded to an
exact number, the operation is exact, and one rounding gives the code and the flags. -/
namespace Sys2Proof.Machine

/-- A format: exponent and fraction widths and bias (the table before R36). -/
structure Fmt where
  ebits : Nat
  fbits : Nat
  bias  : Nat
  /-- greatest finite code without its sign -/
  maxFin : Nat
  /-- code of the infinity, where there is one -/
  inf   : Option Nat
  /-- canonical quiet NaN, where there is one -/
  qnan  : Option Nat
  deriving DecidableEq, Repr

def fp64 : Fmt := ⟨11, 52, 1023, 0x7FEFFFFFFFFFFFFF, some 0x7FF0000000000000, some 0x7FF8000000000000⟩
def fp32 : Fmt := ⟨8, 23, 127, 0x7F7FFFFF, some 0x7F800000, some 0x7FC00000⟩
def bf16 : Fmt := ⟨8, 7, 127, 0x7F7F, some 0x7F80, some 0x7FC0⟩
def fp16 : Fmt := ⟨5, 10, 15, 0x7BFF, some 0x7C00, some 0x7E00⟩
def e4m3 : Fmt := ⟨4, 3, 7, 0x7E, none, some 0x7F⟩
def e5m2 : Fmt := ⟨5, 2, 15, 0x7B, some 0x7C, some 0x7E⟩
def e2m1 : Fmt := ⟨2, 1, 1, 0x7, none, none⟩

/-- The format codes of R71. -/
def fmtOf (code : Nat) : Option Fmt :=
  match code with
  | 0 => some fp64
  | 1 => some fp32
  | 2 => some bf16
  | 3 => some fp16
  | 4 => some e4m3
  | 5 => some e5m2
  | 6 => some e2m1
  | _ => none

/-- Width of an element in bits. -/
def Fmt.width (f : Fmt) : Nat := 1 + f.ebits + f.fbits

/-- Width of a format code's element; 0 for a reserved code. -/
def fmtWidth (code : Nat) : Nat := ((fmtOf code).map Fmt.width).getD 0

/-- A number read from its code. A NaN's payload is kept from bit 63 downwards, so that it moves between
widths by its top bits (R50). A finite number is (−1)^neg · m · 2^e. -/
inductive FVal where
  | nan (neg signalling : Bool) (payload : Nat)
  | inf (neg : Bool)
  | fin (neg : Bool) (m : Nat) (e : Int)
  deriving DecidableEq, Repr

def FVal.isNan : FVal → Bool
  | .nan _ _ _ => true
  | _ => false

def FVal.isSnan : FVal → Bool
  | .nan _ s _ => s
  | _ => false

def FVal.isInf : FVal → Bool
  | .inf _ => true
  | _ => false

def FVal.neg? : FVal → Bool
  | .nan n _ _ => n
  | .inf n => n
  | .fin n _ _ => n

def FVal.isZero : FVal → Bool
  | .fin _ 0 _ => true
  | _ => false

def FVal.withSign (v : FVal) (n : Bool) : FVal :=
  match v with
  | .nan _ s p => .nan n s p
  | .inf _ => .inf n
  | .fin _ m e => .fin n m e

/-- The number a code stands for (R37, R38). -/
def Fmt.decode (f : Fmt) (code : Nat) : FVal :=
  let neg := (code >>> (f.ebits + f.fbits)) % 2 == 1
  let mag := code % 2 ^ (f.ebits + f.fbits)
  let ex := mag >>> f.fbits
  let fr := mag % 2 ^ f.fbits
  if f.inf == some mag then .inf neg
  else if f.maxFin < mag then
    if f.ebits == 4 || f.fbits == 2 then .nan neg false 0
    else
      .nan neg (fr < 2 ^ (f.fbits - 1))
        ((fr % 2 ^ (f.fbits - 1)) <<< (64 - (f.fbits - 1)))
  else if ex == 0 then .fin neg fr (1 - (f.bias : Int) - f.fbits)
  else .fin neg (2 ^ f.fbits + fr) ((ex : Int) - f.bias - f.fbits)

def Fmt.signBit (f : Fmt) (neg : Bool) : Nat := if neg then 2 ^ (f.ebits + f.fbits) else 0

/-- A NaN written in a format: sign kept, payload at the top, quiet bit set (R50). -/
def Fmt.nanCode (f : Fmt) (neg : Bool) (payload : Nat) : Nat :=
  match f.qnan with
  | none => 0
  | some q =>
    if f.ebits == 4 || f.fbits == 2 then q
    else f.signBit neg + q + (payload >>> (64 - (f.fbits - 1))) % 2 ^ (f.fbits - 1)

/-- The canonical quiet NaN, positive. -/
def Fmt.canonNan (f : Fmt) : Nat := f.qnan.getD 0

/-- The infinity of a sign; the greatest finite number where the format has none. -/
def Fmt.infCode (f : Fmt) (neg : Bool) : Nat := f.signBit neg + f.inf.getD f.maxFin

/-- `m · 2^e` as a multiple of 2^q, rounded; `sticky` says that the true magnitude lies strictly between
`m · 2^e` and `(m + 1) · 2^e`. Answers the multiple and whether something was cut off. -/
def roundTo (rm : Rm) (neg : Bool) (m : Nat) (e q : Int) (sticky : Bool) : Nat × Bool :=
  if q ≤ e then (m * 2 ^ (e - q).toNat, sticky)
  else
    let sh := (q - e).toNat
    let n := m >>> sh
    let r := m % 2 ^ sh
    let half := 2 ^ (sh - 1)
    let rest := if r < half then Ordering.lt else if r = half ∧ sticky = false then .eq else .gt
    let cut := r ≠ 0 || sticky
    (if rm.raises neg (n % 2 == 1) rest cut then n + 1 else n, cut)

/-- Exponent of the leading bit of `m · 2^e`, m not 0. -/
def leadExp (m : Nat) (e : Int) : Int := (Nat.log2 m : Int) + e

/-- Exponent of the last place at which the format writes a magnitude (R37, R58). -/
def Fmt.quantum (f : Fmt) (m : Nat) (e : Int) : Int :=
  let l := leadExp m e
  let emin : Int := 1 - (f.bias : Int)
  (if l < emin then emin else l) - f.fbits

/-- The code, as though exponents had no upper end, of `n · 2^q` with q a quantum of the format. -/
def Fmt.magCode (f : Fmt) (n : Nat) (q : Int) : Nat :=
  let qmin : Int := 1 - (f.bias : Int) - f.fbits
  (q - qmin).toNat * 2 ^ f.fbits + n

/-- Whether the magnitude, rounded as though the exponent had no lower end, is below the smallest
normal (R48). -/
def Fmt.tiny (f : Fmt) (rm : Rm) (neg : Bool) (m : Nat) (e : Int) (sticky : Bool) : Bool :=
  let q := leadExp m e - f.fbits
  let (n, _) := roundTo rm neg m e q sticky
  decide ((leadExp n q) < 1 - (f.bias : Int))

/-- A rounded magnitude before its range is judged: code without sign, cut off, tiny. -/
def Fmt.roundMag (f : Fmt) (rm : Rm) (neg : Bool) (m : Nat) (e : Int) (sticky : Bool) : Nat × Bool × Bool :=
  if m = 0 then (0, sticky, sticky)
  else
    let q := f.quantum m e
    let (n, cut) := roundTo rm neg m e q sticky
    (f.magCode n q, cut, f.tiny rm neg m e sticky)

/-- An exact number rounded once to an IEEE format, with its flags (R48). -/
def Fmt.round (f : Fmt) (rm : Rm) (neg : Bool) (m : Nat) (e : Int) (sticky : Bool) : Nat × FpFlags :=
  let (code, cut, tiny) := f.roundMag rm neg m e sticky
  if f.maxFin < code then
    let toInf := match rm with
      | .nearest => true
      | .zero => false
      | .up => !neg
      | .down => neg
    (if toInf then f.infCode neg else f.signBit neg + f.maxFin, fOverflow ||| fInexact)
  else (f.signBit neg + code, flagIf cut fInexact ||| flagIf (cut && tiny) fUnderflow)

/-- A value of any format written in format `f` (R50): one rounding, NaN and infinity kept. -/
def Fmt.ofVal (f : Fmt) (rm : Rm) (v : FVal) : Nat × FpFlags :=
  match v with
  | .nan n s p => (f.nanCode n p, flagIf s fInvalid)
  | .inf n => (f.infCode n, 0)
  | .fin n m e => f.round rm n m e false

/-! Exact numbers: an integer times a power of two. -/

structure Dyad where
  m : Int
  e : Int
  deriving DecidableEq, Repr

def Dyad.zero : Dyad := ⟨0, 0⟩

/-- Both numbers over the lower of the two exponents. -/
def Dyad.align (a b : Dyad) : Int × Int × Int :=
  if a.e ≤ b.e then (a.m, b.m * 2 ^ (b.e - a.e).toNat, a.e)
  else (a.m * 2 ^ (a.e - b.e).toNat, b.m, b.e)

def Dyad.add (a b : Dyad) : Dyad :=
  if a.m = 0 then b
  else if b.m = 0 then a
  else
    let (x, y, e) := a.align b
    ⟨x + y, e⟩

def Dyad.mul (a b : Dyad) : Dyad := ⟨a.m * b.m, a.e + b.e⟩

def Dyad.neg (a : Dyad) : Dyad := ⟨-a.m, a.e⟩

def Dyad.sub (a b : Dyad) : Dyad := a.add b.neg

def Dyad.abs (a : Dyad) : Dyad := ⟨a.m.natAbs, a.e⟩

def Dyad.le (a b : Dyad) : Bool :=
  let (x, y, _) := a.align b
  decide (x ≤ y)

def Dyad.lt (a b : Dyad) : Bool := !(b.le a)

def Dyad.sum (l : List Dyad) : Dyad := l.foldl Dyad.add Dyad.zero

/-- The exact number of a finite value. -/
def FVal.dyad : FVal → Dyad
  | .fin n m e => ⟨if n then -(m : Int) else m, e⟩
  | _ => Dyad.zero

def FVal.ofDyad (zeroNeg : Bool) (d : Dyad) : FVal :=
  if d.m = 0 then .fin zeroNeg 0 0 else .fin (decide (d.m < 0)) d.m.natAbs d.e

/-- An exact signed number rounded once; `zeroNeg` is the sign of an exact zero. -/
def Fmt.roundDyad (f : Fmt) (rm : Rm) (zeroNeg : Bool) (d : Dyad) : Nat × FpFlags :=
  if d.m = 0 then (f.signBit zeroNeg, 0)
  else f.round rm (decide (d.m < 0)) d.m.natAbs d.e false

/-- The first NaN of the operands, quieted and written in `out`; INVALID where any signals (R50). -/
def nanResult (out : Fmt) (l : List FVal) : Option (Nat × FpFlags) :=
  match l.find? FVal.isNan with
  | some (.nan n _ p) => some (out.nanCode n p, flagIf (l.any FVal.isSnan) fInvalid)
  | _ => none

/-- The first NaN of a reduction's elements; INVALID only where that one signals (R122). -/
def firstNan (out : Fmt) (l : List FVal) : Option (Nat × FpFlags) :=
  match l.find? FVal.isNan with
  | some (.nan n s p) => some (out.nanCode n p, flagIf s fInvalid)
  | _ => none

/-- The result of an invalid operation (R50). -/
def invalidResult (out : Fmt) : Nat × FpFlags := (out.canonNan, fInvalid)

/-- Sign of an exact zero sum of two signed parts (R49). -/
def zeroSumSign (rm : Rm) (a b : Bool) : Bool := if a = b then a else rm == .down

/-- The first NaN of `order` where there is one (R50), else a · b + c with one rounding to `out`. -/
def fmaNan (out : Fmt) (rm : Rm) (a b c : FVal) (order : List FVal) : Nat × FpFlags :=
  match nanResult out order with
  | some r => r
  | none =>
    let ps := a.neg? != b.neg?
    if (a.isInf && b.isZero) || (a.isZero && b.isInf) then invalidResult out
    else if a.isInf || b.isInf then
      if c.isInf && c.neg? != ps then invalidResult out else (out.infCode ps, 0)
    else if c.isInf then (out.infCode c.neg?, 0)
    else out.roundDyad rm (zeroSumSign rm ps c.neg?) ((a.dyad.mul b.dyad).add c.dyad)

def fmaVal (out : Fmt) (rm : Rm) (a b c : FVal) : Nat × FpFlags := fmaNan out rm a b c [a, b, c]

def mulVal (out : Fmt) (rm : Rm) (a b : FVal) : Nat × FpFlags :=
  match nanResult out [a, b] with
  | some r => r
  | none =>
    let ps := a.neg? != b.neg?
    if (a.isInf && b.isZero) || (a.isZero && b.isInf) then invalidResult out
    else if a.isInf || b.isInf then (out.infCode ps, 0)
    else out.roundDyad rm ps (a.dyad.mul b.dyad)

def addVal (out : Fmt) (rm : Rm) (a b : FVal) : Nat × FpFlags :=
  match nanResult out [a, b] with
  | some r => r
  | none =>
    if a.isInf && b.isInf && a.neg? != b.neg? then invalidResult out
    else if a.isInf then (out.infCode a.neg?, 0)
    else if b.isInf then (out.infCode b.neg?, 0)
    else out.roundDyad rm (zeroSumSign rm a.neg? b.neg?) (a.dyad.add b.dyad)

/-- a − b: b's sign inverted first, NaN operands kept as they stand (R50). -/
def subVal (out : Fmt) (rm : Rm) (a b : FVal) : Nat × FpFlags :=
  if b.isNan then addVal out rm a b else addVal out rm a (b.withSign (!b.neg?))

/-- Quotient of two magnitudes, with bits to spare below the format's precision, and whether a
remainder is left. -/
def divMag (p : Nat) (m1 : Nat) (e1 : Int) (m2 : Nat) (e2 : Int) : Nat × Int × Bool :=
  let k := p + 4 + Nat.log2 m2
  let n := m1 <<< k
  (n / m2, e1 - e2 - k, n % m2 != 0)

def divVal (out : Fmt) (rm : Rm) (a b : FVal) : Nat × FpFlags :=
  match nanResult out [a, b] with
  | some r => r
  | none =>
    let s := a.neg? != b.neg?
    match a, b with
    | .inf _, .inf _ => invalidResult out
    | .inf _, _ => (out.infCode s, 0)
    | _, .inf _ => (out.signBit s, 0)
    | .fin _ m1 e1, .fin _ m2 e2 =>
      if m2 = 0 then (if m1 = 0 then invalidResult out else (out.infCode s, fDivZero))
      else if m1 = 0 then (out.signBit s, 0)
      else
        let (q, e, st) := divMag out.fbits m1 e1 m2 e2
        out.round rm s q e st
    | _, _ => invalidResult out

/-- Integer square root, bit by bit from bit `k - 1`. -/
def isqrtAux (n : Nat) : Nat → Nat → Nat
  | 0, r => r
  | k + 1, r => if (r + 2 ^ k) * (r + 2 ^ k) ≤ n then isqrtAux n k (r + 2 ^ k) else isqrtAux n k r

def isqrt (n : Nat) : Nat := isqrtAux n (Nat.log2 n / 2 + 1) 0

/-- Square root of a magnitude, with bits to spare, and whether a remainder is left. -/
def sqrtMag (p : Nat) (m : Nat) (e : Int) : Nat × Int × Bool :=
  let k := 2 * (p + 4)
  let k := if (e - k) % 2 = 0 then k else k + 1
  let n := m <<< k
  let r := isqrt n
  (r, (e - k) / 2, r * r != n)

def sqrtVal (out : Fmt) (rm : Rm) (a : FVal) : Nat × FpFlags :=
  match nanResult out [a] with
  | some r => r
  | none =>
    match a with
    | .inf false => (out.infCode false, 0)
    | .fin n 0 _ => (out.signBit n, 0)
    | .fin false m e =>
      let (r, e', st) := sqrtMag out.fbits m e
      out.round rm false r e' st
    | _ => invalidResult out

/-- Total order of two numbers that are no NaN; −0 and +0 equal. -/
def cmpVal (a b : FVal) : Ordering :=
  match a, b with
  | .inf x, .inf y => if x = y then .eq else if x then .lt else .gt
  | .inf x, _ => if x then .lt else .gt
  | _, .inf y => if y then .gt else .lt
  | _, _ => if (a.dyad).lt b.dyad then .lt else if (b.dyad).lt a.dyad then .gt else .eq

/-- a before b in maximum and minimum, where −0 < +0 (R51). -/
def ltZ (a b : FVal) : Bool :=
  match cmpVal a b with
  | .lt => true
  | .gt => false
  | .eq => a.isZero && b.isZero && a.neg? && !b.neg?

/-- MAX and MIN (IEEE maximum and minimum, R51). -/
def maxminVal (out : Fmt) (isMax : Bool) (a b : FVal) : Nat × FpFlags :=
  match nanResult out [a, b] with
  | some r => r
  | none =>
    let pick := if ltZ a b then (if isMax then b else a) else (if isMax then a else b)
    out.ofVal .nearest pick

/-- MAXNUM and MINNUM (IEEE maximumNumber and minimumNumber, R51): a signalling NaN sets INVALID. -/
def maxminNumVal (out : Fmt) (isMax : Bool) (a b : FVal) : Nat × FpFlags :=
  let inv := flagIf (a.isSnan || b.isSnan) fInvalid
  if a.isNan && b.isNan then ((nanResult out [a, b]).getD (out.canonNan, 0)).1 |> fun c => (c, inv)
  else if a.isNan then ((out.ofVal .nearest b).1, inv)
  else if b.isNan then ((out.ofVal .nearest a).1, inv)
  else maxminVal out isMax a b

/-- The six comparisons, in the order EQ NE LT LE GT GE (R51). -/
inductive Cmp where
  | eq | ne | lt | le | gt | ge
  deriving DecidableEq, Repr

def Cmp.holds (c : Cmp) (o : Ordering) : Bool :=
  match c, o with
  | .eq, .eq => true
  | .ne, .lt => true
  | .ne, .gt => true
  | .lt, .lt => true
  | .le, .lt => true
  | .le, .eq => true
  | .gt, .gt => true
  | .ge, .gt => true
  | .ge, .eq => true
  | _, _ => false

/-- A comparison and its INVALID flag: an ordered comparison signals on every NaN, EQ and NE on a
signalling one (R51). -/
def cmpFlag (c : Cmp) (a b : FVal) : Bool × FpFlags :=
  if a.isNan || b.isNan then
    match c with
    | .eq => (false, flagIf (a.isSnan || b.isSnan) fInvalid)
    | .ne => (true, flagIf (a.isSnan || b.isSnan) fInvalid)
    | _ => (false, fInvalid)
  else (c.holds (cmpVal a b), 0)

end Sys2Proof.Machine
end

