-- ==== Sys2Proof/Machine/Convert.lean ====
section
/-! DEFINITION. One element through the writeback converter: scale, rounding, clamps, NaN (R54-R61). -/
namespace Sys2Proof.Machine

/-- The generator bits of stochastic rounding (R61). -/
def srBits (seed : BitVec 64) (n : BitVec 32) (r c : Nat) : Nat :=
  let x : BitVec 64 :=
    seed ^^^ (BitVec.ofNat 64 (n.toNat * 2 ^ 16)) ^^^ (BitVec.ofNat 64 (r * 2 ^ 8)) ^^^ BitVec.ofNat 64 c
  let x := (x ^^^ (x >>> 30)) * 0xBF58476D1CE4E5B9
  let x := (x ^^^ (x >>> 27)) * 0x94D049BB133111EB
  let x := x ^^^ (x >>> 31)
  bits x 15 0

/-- `m · 2^e` rounded stochastically to a multiple of 2^q by the generator bits `b`. -/
def srTo (b : Nat) (m : Nat) (e q : Int) : Nat × Bool :=
  if q ≤ e then (m * 2 ^ (e - q).toNat, false)
  else
    let sh := (q - e).toNat
    let n := m >>> sh
    let r := m % 2 ^ sh
    let t := (r * 2 ^ 16) >>> sh
    (if 2 ^ 16 ≤ t + b then n + 1 else n, r != 0)

/-- How the converter rounds an element: a direction, or stochastically with these bits. -/
inductive Rounding where
  | dir (rm : Rm)
  | sr (b : Nat)
  deriving DecidableEq, Repr

def Rounding.to (k : Rounding) (neg : Bool) (m : Nat) (e q : Int) : Nat × Bool :=
  match k with
  | .dir rm => roundTo rm neg m e q false
  | .sr b => srTo b m e q

/-- Magnitude code with no upper end, cut off, tiny (R48, R57, R58). -/
def Fmt.roundBy (f : Fmt) (k : Rounding) (neg : Bool) (m : Nat) (e : Int) : Nat × Bool × Bool :=
  if m = 0 then (0, false, false)
  else
    let q := f.quantum m e
    let (n, cut) := k.to neg m e q
    let q1 := leadExp m e - f.fbits
    let (n1, _) := k.to neg m e q1
    (f.magCode n q, cut, decide (leadExp n1 q1 < 1 - (f.bias : Int)))

/-- E4M3 with SAT8 = 1 clamps every magnitude above 448, also one that rounds to 448 (R57's last sentence; the
other targets are judged on the rounded result). DEDUCED, log entry 115. -/
def Fmt.clampsExact (f : Fmt) (m : Nat) (e : Int) : Bool :=
  f == e4m3 && Dyad.lt ⟨448, 0⟩ ⟨m, e⟩

/-- Code, flags and clamps (0 or 1) of one converted value. `sat` is the SAT field that applies to the
target; an FP4 target always clamps (R57). The sign of zero is kept: R56 is the caller's. -/
def convVal (f : Fmt) (k : Rounding) (sat : Bool) (y : FVal) : Nat × FpFlags × Nat :=
  let fp4 := f.qnan.isNone
  let clamps := fp4 || sat
  match y with
  | .nan n s p =>
    let inv := flagIf s fInvalid
    if fp4 then (0, inv ||| fNanOut, 0) else (f.nanCode n p, inv, 0)
  | .inf n =>
    if clamps then (f.signBit n + f.maxFin, fSat, 1)
    else if f.inf.isNone then (f.canonNan, fInvalid, 0)
    else (f.infCode n, 0, 0)
  | .fin n m e =>
    let (code, cut, tiny) := f.roundBy k n m e
    if f.maxFin < code || (clamps && f.clampsExact m e) then
      if clamps then (f.signBit n + f.maxFin, fSat ||| fInexact, 1)
      else if f.inf.isNone then (f.canonNan, fOverflow ||| fInexact, 0)
      else (f.infCode n, fOverflow ||| fInexact, 0)
    else (f.signBit n + code, flagIf cut fInexact ||| flagIf (cut && tiny) fUnderflow, 0)

/-- A zero code loses its sign (R56). -/
def plusZero (f : Fmt) (code : Nat) : Nat := if code = f.signBit true then 0 else code

/-! The fields of CDT_CVT_CTRL (R65). -/

def ctrlScaleEn (c : BitVec 6) : Bool := c.getLsbD 0
def ctrlSat8 (c : BitVec 6) : Bool := c.getLsbD 1
def ctrlSat16 (c : BitVec 6) : Bool := c.getLsbD 2
def ctrlSr8 (c : BitVec 6) : Bool := c.getLsbD 3
def ctrlSr16 (c : BitVec 6) : Bool := c.getLsbD 4
def ctrlFreeze (c : BitVec 6) : Bool := c.getLsbD 5

/-- The SAT field that governs a target (R57). -/
def satOf (ctrl : BitVec 6) (fmt : Nat) : Bool :=
  match fmt with
  | 2 => ctrlSat16 ctrl
  | 3 => ctrlSat16 ctrl
  | 4 => ctrlSat8 ctrl
  | 5 => ctrlSat8 ctrl
  | _ => false

/-- Whether stores of this format are rounded stochastically (R61). -/
def srOf (ctrl : BitVec 6) (fmt : Nat) : Bool :=
  match fmt with
  | 2 => ctrlSr16 ctrl
  | 3 => ctrlSr16 ctrl
  | 4 => ctrlSr8 ctrl
  | 5 => ctrlSr8 ctrl
  | 6 => ctrlSr8 ctrl
  | _ => false

/-- A scale register that is zero, negative, subnormal, infinite or NaN is unusable (R55). -/
def scaleBad (s : BitVec 32) : Bool :=
  s.getLsbD 31 || bits s 30 23 == 0 || bits s 30 23 == 255

/-- The scale in force for a row (R55). -/
def scaleInForce (ctrl : BitVec 6) (s : BitVec 32) : Dyad :=
  if !ctrlScaleEn ctrl || scaleBad s then ⟨1, 0⟩ else (fp32.decode s.toNat).dyad

/-- A magnitude rounded to FP32 toward +∞ (R54). -/
def up32 (v : FVal) : BitVec 32 :=
  BitVec.ofNat 32 (fp32.ofVal .up (v.withSign false)).1

/-- A running maximum raised by a magnitude; a NaN stays (R54). -/
def rmaxMax (old new : BitVec 32) : BitVec 32 :=
  BitVec.ofNat 32 (maxminVal fp32 true (fp32.decode old.toNat) (fp32.decode new.toNat)).1

/-- One element of row r, column c through the converter (R54): code, flags, clamps. -/
def convElem (fmt : Nat) (ctrl : BitVec 6) (seed : BitVec 64) (n : BitVec 32) (scale : Dyad)
    (r c : Nat) (v : FVal) : Nat × FpFlags × Nat :=
  match fmtOf fmt with
  | none => (0, 0, 0)
  | some f =>
    let y := match v with
      | .fin s m e => FVal.fin s (m * scale.m.natAbs) (e + scale.e)
      | w => w
    let k := if srOf ctrl fmt then Rounding.sr (srBits seed n r c) else Rounding.dir .nearest
    let (code, fl, cl) := convVal f k (satOf ctrl fmt) y
    (plusZero f code, fl, cl)

/-- Element codes of one width packed into bytes, lower index first (R36). -/
def packCodes (w : Nat) (codes : List Nat) : List Byte :=
  if w = 4 then
    let rec go : List Nat → List Byte
      | a :: b :: l => BitVec.ofNat 8 (a % 16 + 16 * (b % 16)) :: go l
      | [a] => [BitVec.ofNat 8 (a % 16)]
      | [] => []
    go codes
  else codes.flatMap (fun c => leBytes (w / 8) c)

/-- The element codes that bytes hold. -/
def unpackCodes (w : Nat) (l : List Byte) : List Nat :=
  if w = 4 then l.flatMap (fun b => [b.toNat % 16, b.toNat / 16])
  else
    let n := w / 8
    (List.range (l.length / n)).map (fun i => ofLe ((l.drop (i * n)).take n))

end Sys2Proof.Machine
end

