-- ==== Sys2Proof/Machine/Fields.lean ====
section
/-! DEFINITION. Fields of an instruction word: ENGINE, OPCODE and TAG of every engine (R134), and the fields of
the scalar, access, matrix, vector, reduction, sync and misc engines (R72, R107, R119, R140-R143). -/
namespace Sys2Proof.Machine

def wEng (w : BitVec 64) : Nat := bits w 63 61
def wOpc (w : BitVec 64) : Nat := bits w 60 56
def wTag (w : BitVec 64) : Nat := bits w 15 0

/-- A word of this engine and opcode. -/
def isOp (e o : Nat) (w : BitVec 64) : Bool := wEng w == e && wOpc w == o

/-- A word of this engine with this opcode, or with one of the engine's reserved opcodes. -/
def isOpOr (e o first : Nat) (w : BitVec 64) : Bool :=
  wEng w == e && (wOpc w == o || first ≤ wOpc w)

/-- Groups of the GRP field (R107). -/
def grpOf (n : Nat) : Nat := 2 ^ (n % 4)

def vlmax (w g : Nat) : Nat := if w = 0 then 0 else 4096 / w * g

/-- Chunks that `n` elements of width `w` span. -/
def chunksOf (w n : Nat) : Nat := (n * w + 2047) / 2048

/-- Width of an integer code (R107); 0 for a reserved one. -/
def intWidth (code : Nat) : Nat :=
  match code with
  | 0 => 64
  | 1 => 32
  | 2 => 16
  | 3 => 8
  | _ => 0

/-- 2's-complement reading of a field of `k` bits. -/
def signedOf (k n : Nat) : Int := if n < 2 ^ (k - 1) then (n : Int) else (n : Int) - 2 ^ k

def toSigned (w n : Nat) : Int := signedOf w (n % 2 ^ w)
def ofSigned (w : Nat) (x : Int) : Nat := (x % (2 ^ w : Nat)).toNat

/-! ## Matrix engine (R72) -/

def mAcc (w : BitVec 64) : Nat := bits w 55 53
def mAdd (w : BitVec 64) : Bool := w.getLsbD 52
def mFmtA (w : BitVec 64) : Nat := bits w 51 48
def mFmtB (w : BitVec 64) : Nat := bits w 47 44
def mSreg (w : BitVec 64) : Nat := bits w 50 46

/-! ## Vector engine (R107, R118) -/

def vFunc (w : BitVec 64) : Nat := bits w 55 52
def vVd (w : BitVec 64) : Nat := bits w 51 47
def vVs1 (w : BitVec 64) : Nat := bits w 46 42
def vVs2 (w : BitVec 64) : Nat := bits w 41 37
def vVs3 (w : BitVec 64) : Nat := bits w 36 32
def vFmt (w : BitVec 64) : Nat := bits w 31 28
def vGrp (w : BitVec 64) : Nat := grpOf (bits w 27 26)
def vRm (w : BitVec 64) : Rm := rmOf (bits w 25 24)
def vMen (w : BitVec 64) : Bool := w.getLsbD 23
def vMsk (w : BitVec 64) : Nat := bits w 22 20
def vMz (w : BitVec 64) : Bool := w.getLsbD 19
def vSsrc (w : BitVec 64) : Bool := w.getLsbD 18
def vqOut (w : BitVec 64) : Nat := bits w 35 32
def vqRow (w : BitVec 64) : Nat := bits w 41 36
def vqSel (w : BitVec 64) : Nat := bits w 22 20

/-- Whether a push goes through the converter (R118). -/
def vqConverts (w : BitVec 64) : Bool := vqOut w != vFmt w

/-! ## Reduction unit (R119) -/

def rSd (w : BitVec 64) : Nat := bits w 51 47
def rVs (w : BitVec 64) : Nat := bits w 46 42
def rSi (w : BitVec 64) : Nat := bits w 41 37
def rSlot (w : BitVec 64) : Nat := bits w 36 34
def rWide (w : BitVec 64) : Bool := w.getLsbD 33

/-! ## Access engine (R141) -/

def xSb (w : BitVec 64) : Nat := bits w 55 51
def xSx (w : BitVec 64) : Nat := bits w 50 46
def xSy (w : BitVec 64) : Nat := bits w 45 41
def xFmt (w : BitVec 64) : Nat := bits w 40 37
def xGrp (w : BitVec 64) : Nat := grpOf (bits w 36 35)
def xDest (w : BitVec 64) : Bool := w.getLsbD 34
def xForm (w : BitVec 64) : Nat := bits w 33 32
def xShift (w : BitVec 64) : Nat := bits w 29 28
def xIdx64 (w : BitVec 64) : Bool := w.getLsbD 27
def xMen (w : BitVec 64) : Bool := w.getLsbD 26
def xMsk (w : BitVec 64) : Nat := bits w 25 23
def xFlagEn (w : BitVec 64) : Bool := w.getLsbD 22
def xFlag (w : BitVec 64) : Nat := bits w 21 16

/-- Fields of a record: NF counts in the unit-stride form (R114); the other forms take no notice of it (DESIGN CHOICE,
log entry 150). -/
def xNf (w : BitVec 64) : Nat := if xForm w = 0 then bits w 31 30 + 1 else 1

def xWidth (w : BitVec 64) : Nat := fmtWidth (xFmt w)

/-- Bytes of one element; an FP4 element of a strided or indexed form has a byte of its own. -/
def elemBytes (w : BitVec 64) : Nat := max 1 (xWidth w / 8)

def idxWidth (w : BitVec 64) : Nat := if xIdx64 w then 64 else 32

/-! ## Sync and misc engines (R142, R143) -/

def yFlag (w : BitVec 64) : Nat := bits w 54 49
def yCount (w : BitVec 64) : Nat := bits w 48 33
def ySs (w : BitVec 64) : Nat := bits w 32 28

/-- A reserved opcode or a non-zero reserved field (R157). -/
def yIllegal (w : BitVec 64) : Bool := 5 ≤ wOpc w || bits w 27 16 != 0

def iSd (w : BitVec 64) : Nat := bits w 55 51
def iSs1 (w : BitVec 64) : Nat := bits w 50 46
def iOff (w : BitVec 64) : Nat := bits w 45 34
def iArg (w : BitVec 64) : Nat := bits w 29 16

/-- A reserved opcode or a non-zero reserved field (R157). -/
def iIllegal (w : BitVec 64) : Bool := 6 ≤ wOpc w || bits w 33 30 != 0

/-- The access queue takes engine 1 and sync instructions with SIDE = 1 (R133). -/
def toAccess (w : BitVec 64) : Bool := wEng w == 1 || (wEng w == 5 && w.getLsbD 55)

end Sys2Proof.Machine
end

