-- ==== Sys2Proof/Machine/W72.lean ====
section
/-! DEFINITION. The accumulator container W72 in its three layouts and the sums the matrix array and its
checker form (R43, R44, R76-R78, R88-R90). -/
namespace Sys2Proof.Machine

abbrev W72 := BitVec 72

def layFixed8 : Nat := 0
def layFixed4 : Nat := 1
def layFloat  : Nat := 2
def layPair   : Nat := 3

/-- Exponent of the last place of a fixed layout (R43). -/
def fixedLsb (layout : Nat) : Int := if layout = layFixed4 then -2 else -32

/-- A W72 word in the fixed or float layout as a number; the pair layout is read with its partner. -/
def w72Val (layout : Nat) (w : W72) : FVal :=
  if layout = layFloat then
    let s := w.getLsbD 71
    let ex := bits w 70 55
    let fr := bits w 54 0
    if ex = 0 then .fin s 0 0
    else if ex = 0xFFFF then
      if fr = 0 then .inf s else .nan s (!w.getLsbD 54) ((fr % 2 ^ 54) <<< 10)
    else .fin s (2 ^ 55 + fr) ((ex : Int) - 32767 - 55)
  else
    match bits w 71 70 with
    | 0 =>
      let n := signedOf 70 (bits w 69 0)
      .fin (decide (n < 0)) n.natAbs (fixedLsb layout)
    | 1 => .inf false
    | 2 => .inf true
    | _ => .nan false false 0

/-- Sum of two numbers of any kind, exact; NaN where it is invalid. -/
def addExact (a b : FVal) : FVal :=
  if a.isNan then a
  else if b.isNan then b
  else if a.isInf then (if b.isInf && a.neg? != b.neg? then .nan false false 0 else a)
  else if b.isInf then b
  else FVal.ofDyad (a.neg? && b.neg?) (a.dyad.add b.dyad)

/-- The value HI + LO of a pair (R43). -/
def pairVal (hi lo : W72) : FVal :=
  addExact (fp64.decode (bits hi 63 0)) (fp64.decode (bits lo 63 0))

/-- The float-layout word of a rounded number and the flags it sets: 56 significant bits, to nearest
even, no subnormals (R77). -/
def w72Float (v : FVal) : W72 × FpFlags :=
  let put (s : Bool) (ex fr : Nat) : W72 :=
    BitVec.ofNat 72 (natOf s * 2 ^ 71 + ex * 2 ^ 55 + fr)
  match v with
  | .nan _ _ _ => (put false 0xFFFF (2 ^ 54), 0)
  | .inf s => (put s 0xFFFF 0, 0)
  | .fin s 0 _ => (put s 0 0, 0)
  | .fin s m e =>
    let q := leadExp m e - 55
    let (n, _) := roundTo .nearest s m e q false
    let l := leadExp n q
    if 32768 ≤ l then (put s 0xFFFF 0, fOverflow)
    else if l < -32766 then (put s 0 0, fUnderflow)
    else (put s (l + 32767).toNat (n % 2 ^ 55), 0)

/-- The fixed-layout word of a number already on the layout's grid (R44). -/
def w72Fixed (layout : Nat) (v : FVal) : W72 × FpFlags :=
  match v with
  | .nan _ _ _ => (BitVec.ofNat 72 (3 * 2 ^ 70), 0)
  | .inf s => (BitVec.ofNat 72 ((if s then 2 else 1) * 2 ^ 70), 0)
  | .fin s m e =>
    let n : Int := (m : Int) * 2 ^ (e - fixedLsb layout).toNat
    let n := if s then -n else n
    if n < -(2 ^ 69) then (BitVec.ofNat 72 (2 * 2 ^ 70), fOverflow)
    else if 2 ^ 69 ≤ n then (BitVec.ofNat 72 (1 * 2 ^ 70), fOverflow)
    else (BitVec.ofNat 72 (n % 2 ^ 70).toNat, 0)

/-- HI and LO of an exact sum (R78). -/
def w72Pair (v : FVal) : W72 × W72 × FpFlags :=
  match v with
  | .nan _ _ _ => (BitVec.ofNat 72 fp64.canonNan, 0, 0)
  | .inf s => (BitVec.ofNat 72 (fp64.infCode s), 0, 0)
  | .fin s m e =>
    let d : Dyad := v.dyad
    let hi := (fp64.roundDyad .nearest s d).1
    let hv := fp64.decode hi
    if hv.isInf then (BitVec.ofNat 72 hi, 0, fOverflow)
    else if m = 0 then (BitVec.ofNat 72 hi, 0, 0)
    else
      let lo := (fp64.roundDyad .nearest false ((Dyad.mk (if s then -(m : Int) else m) e).sub hv.dyad)).1
      (BitVec.ofNat 72 hi, BitVec.ofNat 72 lo, 0)

/-- Product of two operands, exact; NaN where it is invalid. -/
def mulExact (a b : FVal) : FVal :=
  let s := a.neg? != b.neg?
  if a.isNan || b.isNan then .nan false false 0
  else if (a.isInf && b.isZero) || (a.isZero && b.isInf) then .nan false false 0
  else if a.isInf || b.isInf then .inf s
  else .fin s ((a.dyad.mul b.dyad).m.natAbs) (a.dyad.e + b.dyad.e)

/-- Sum of signed terms, exact (R76-R78); −0 only where every term is −0 (R49). The flag is INVALID
where an operand signals, a product is 0 × ∞, or infinities of both signs meet (R50). -/
def sumTerms (l : List FVal) : FVal :=
  if l.any FVal.isNan then .nan false false 0
  else
    let pos := l.any (fun v => v.isInf && !v.neg?)
    let neg := l.any (fun v => v.isInf && v.neg?)
    if pos && neg then .nan false false 0
    else if pos then .inf false
    else if neg then .inf true
    else FVal.ofDyad (l.all FVal.neg?) (Dyad.sum (l.map FVal.dyad))

/-- Whether a sum of products and an addend is an invalid case or has a signalling operand (R50). -/
def sumInvalid (ops : List (FVal × FVal)) (addend : List FVal) : Bool :=
  let prods := ops.map (fun p => mulExact p.1 p.2)
  let terms := addend ++ prods
  ops.any (fun p => p.1.isSnan || p.2.isSnan || (p.1.isInf && p.2.isZero) || (p.1.isZero && p.2.isInf))
    || addend.any FVal.isSnan
    || (terms.any (fun v => v.isInf && !v.neg?) && terms.any (fun v => v.isInf && v.neg?))

/-- One element of C ← P or C ← C + P: new HI (or the word) and LO, and flags (R76-R78). -/
def mmaElem (layout : Nat) (ops : List (FVal × FVal)) (addend : List FVal) : W72 × W72 × FpFlags :=
  let total := sumTerms (addend ++ ops.map (fun p => mulExact p.1 p.2))
  let inv := flagIf (sumInvalid ops addend) fInvalid
  if layout = layPair then
    let (h, l, f) := w72Pair total
    (h, l, f ||| inv)
  else if layout = layFloat then
    let (w, f) := w72Float total
    (w, 0, f ||| inv)
  else
    let (w, f) := w72Fixed layout total
    (w, 0, f ||| inv)

/-- A sum over a line in the one fixed tree of R88, whose shape the manual does not give. -/
def treeSumAux {α : Type} (join : Nat → Nat × Nat) (add : α → α → α) (z : α) : Nat → List α → α
  | _, [] => z
  | _, [x] => x
  | 0, x :: _ => x
  | k + 1, l =>
    let (i, j) := join k
    let i := i % l.length
    let a := l.getD i z
    let l := l.eraseIdx i
    let j := j % l.length
    let b := l.getD j z
    treeSumAux join add z k (l.eraseIdx j ++ [add a b])

def treeSum {α : Type} (add : α → α → α) (z : α) (l : List α) : α :=
  treeSumAux (Config.treeJoin l.length) add z l.length l

/-- One addition of the checker in a layout: exact in the fixed layouts, 56 bits in the float layout,
a pair addition in the pair layout (R88). -/
def lineAdd (layout : Nat) (a b : FVal) : FVal :=
  let v := addExact a b
  if layout = layFloat then w72Val layFloat (w72Float v).1
  else if layout = layPair then
    if v.isZero then v
    else
      let (h, l, _) := w72Pair v
      pairVal h l
  else v

/-- A term rounded once to the layout's precision (R88). -/
def lineRound (layout : Nat) (v : FVal) : FVal := lineAdd layout v (.fin false 0 0)

/-- A magnitude of the checker: exact, or beyond the layout's range (none, +∞). -/
abbrev Mag := Option Dyad

def FVal.mag? : FVal → Mag
  | .fin _ m e => some ⟨m, e⟩
  | _ => none

/-- A magnitude rounded up: 56 bits in the float layout, FP64 in the pair layout, where one past the greatest
finite number is +∞ (R89). -/
def magUp (layout : Nat) : Mag → Mag
  | none => none
  | some d =>
    if d.m = 0 then some Dyad.zero
    else if layout = layPair then (fp64.decode (fp64.roundDyad .up false d).1).mag?
    else
      let m := d.m.natAbs
      let q := leadExp m d.e - 55
      let (n, _) := roundTo .up false m d.e q false
      some ⟨n, q⟩

def magAdd (layout : Nat) (a b : Mag) : Mag :=
  match a, b with
  | some x, some y => magUp layout (some (x.add y))
  | _, _ => none

/-- What the verdict says of one line (R89, R90). -/
inductive LineVerdict where
  | pass | fail | unchecked
  deriving DecidableEq, Repr

def FVal.finite : FVal → Bool
  | .fin _ _ _ => true
  | _ => false

/-- A pair element's magnitude: |HI| + |LO| (R89). -/
def pairMag (hi lo : W72) : Dyad :=
  ((fp64.decode (bits hi 63 0)).dyad.abs).add (fp64.decode (bits lo 63 0)).dyad.abs

/-- Whether the difference of two sums lies within 2^-t of a magnitude; every difference lies within one of +∞
(R89). -/
def withinTol (t : Int) (total : Mag) (g e : FVal) : Bool :=
  match total with
  | none => !g.isNan
  | some d => g.finite && ((g.dyad.sub e.dyad).abs).le ⟨d.m, d.e - t⟩

/-- The verdict on one line from its new elements with their magnitudes, its old elements (empty where ADD = 0) and the
k-slice factors: `s k` with the other operand's element (R88, R89). The three magnitude sums are added as
(new + old) + k-slice, and a sum G that leaves the range while E and every element are finite fails (DESIGN CHOICE,
log entry 114). -/
def lineVerdict (layout : Nat) (newM oldM : List (FVal × Dyad)) (ks : List (FVal × FVal)) :
    LineVerdict :=
  let new := newM.map (·.1)
  let old := oldM.map (·.1)
  let kterm := sumTerms (ks.map (fun p => mulExact p.1 p.2))
  let zero := FVal.fin false 0 0
  let e :=
    if old.isEmpty then lineRound layout kterm
    else lineAdd layout (lineRound layout kterm) (treeSum (lineAdd layout) zero old)
  let g := treeSum (lineAdd layout) zero new
  if !e.finite || new.any (fun v => !v.finite) then .unchecked
  else if layout = layFixed8 || layout = layFixed4 then
    if (g.dyad.sub e.dyad).m = 0 then .pass else .fail
  else
    let mags (l : List (FVal × Dyad)) : Mag :=
      treeSum (magAdd layout) (some Dyad.zero) (l.map (fun v => magUp layout (some v.2)))
    let km := treeSum (magAdd layout) (some Dyad.zero)
      (ks.map (fun p => some (p.1.dyad.mul p.2.dyad).abs))
    let total := magAdd layout (magAdd layout (mags newM) (mags oldM)) km
    if withinTol (if layout = layPair then 96 else 48) total g e then .pass else .fail

end Sys2Proof.Machine
end

