-- ==== Sys2Proof/Machine/Fold.lean ====
section
/-! DEFINITION. What reductions compute (R119-R123): sums in double-FP64, maxima and minima with their indices,
and the lanes of a carry slot. -/
namespace Sys2Proof.Machine

/-- SUM, MAX, MIN, ISUM, IMAX, IMIN by FUNC. -/
def rIsFloat (fn : Nat) : Bool := fn ≤ 2
def rIsPick (fn : Nat) : Bool := fn == 1 || fn == 2 || fn == 4 || fn == 5
def rIsMax (fn : Nat) : Bool := fn == 1 || fn == 4

def noIndex : Nat := 0xFFFFFFFF

/-- A value with the index of its element. -/
structure Cand where
  v : FVal
  i : Nat
  deriving DecidableEq, Repr

/-- Whether candidate `b` takes the place of `a` under MAX or MIN (R122): a NaN over a number, the first
NaN kept, −0 below +0, the lower index on a tie. -/
def candWins (isMax : Bool) (a b : Cand) : Bool :=
  if a.v.isNan then b.v.isNan && decide (b.i < a.i)
  else if b.v.isNan then true
  else
    let better := if isMax then ltZ a.v b.v else ltZ b.v a.v
    let worse := if isMax then ltZ b.v a.v else ltZ a.v b.v
    better || (!worse && decide (b.i < a.i))

def bestCand (isMax : Bool) (l : List Cand) : Option Cand :=
  l.foldl (fun acc b =>
    match acc with
    | none => some b
    | some a => some (if candWins isMax a b then b else a)) none

/-- Integers with their indices: largest or smallest, lowest index on a tie. -/
def bestInt (isMax : Bool) (l : List (Int × Nat)) : Option (Int × Nat) :=
  l.foldl (fun acc b =>
    match acc with
    | none => some b
    | some a =>
      let better := if isMax then a.1 < b.1 else b.1 < a.1
      some (if better ∨ (a.1 = b.1 ∧ b.2 < a.2) then b else a)) none

/-- A pair addition of the reduction unit and whether it overflowed (R121, R78). -/
def dfAdd (a b : FVal × FpFlags) : FVal × FpFlags :=
  let v := addExact a.1 b.1
  let inv := flagIf (v.isNan && !a.1.isNan && !b.1.isNan) fInvalid
  let (_, _, f) := w72Pair v
  (lineAdd layPair a.1 b.1, a.2 ||| b.2 ||| inv ||| f)

/-- SUM of values that are no NaN: tree root and flags. -/
def dfTree (join : Nat → Nat × Nat) (l : List FVal) : FVal × FpFlags :=
  treeSumAux join dfAdd (.fin false 0 0, 0) l.length (l.map (fun v => (v, 0)))

/-- A SUM's result written once in `out`: INEXACT where it differs from the exact sum (R68, R121). -/
def sumResult (out : Fmt) (root : FVal × FpFlags) (exact : FVal) : Nat × FpFlags :=
  let (code, f) := out.ofVal .nearest root.1
  let same := match out.decode code, exact with
    | .fin _ _ _, .fin _ _ _ => ((out.decode code).dyad.sub exact.dyad).m == 0
    | _, _ => true
  let raised := (root.2 ||| f) &&& (fOverflow ||| fInvalid)
  let inx := !same || f &&& fInexact != 0 || raised &&& fOverflow != 0
  (code, raised ||| flagIf inx fInexact ||| (f &&& fUnderflow))

/-- SUM over active elements (R121, R122). -/
def sumOf (out : Fmt) (join : Nat → Nat × Nat) (l : List FVal) : Nat × FpFlags :=
  match firstNan out l with
  | some r => r
  | none =>
    if l.isEmpty then (0, 0)
    else
      let root := dfTree join l
      if root.1.isNan then invalidResult out else sumResult out root (sumTerms l)

/-- Value, index and flags of RED (R120-R122) over the active elements (index, code). -/
def redValue (fn fmt : Nat) (wide : Bool) (act : List (Nat × Nat)) : BitVec 64 × Nat × FpFlags :=
  if rIsFloat fn then
    match fmtOf fmt with
    | none => (0, 0, 0)
    | some f =>
      let vals := act.map (fun p => f.decode p.2)
      if fn = 0 then
        let mask := (act.map (fun p => 2 ^ p.1)).sum
        let (code, fl) := sumOf (if wide then fp64 else f) (Config.redJoin mask) vals
        (BitVec.ofNat 64 code, 0, fl)
      else
        match bestCand (rIsMax fn) (act.map (fun p => ⟨f.decode p.2, p.1⟩)) with
        | none => (BitVec.ofNat 64 (f.infCode (rIsMax fn)), noIndex, 0)
        | some x => (BitVec.ofNat 64 (f.ofVal .nearest x.v).1, x.i, flagIf x.v.isSnan fInvalid)
  else
    let w := intWidth fmt
    let ints := act.map (fun p => (toSigned w p.2, p.1))
    if fn = 3 then (BitVec.ofNat 64 (ofSigned 64 ((ints.map (·.1)).sum)), 0, 0)
    else
      match bestInt (rIsMax fn) ints with
      | none => (if rIsMax fn then 0x8000000000000000 else 0x7FFFFFFFFFFFFFFF, noIndex, 0)
      | some (v, i) => (BitVec.ofNat 64 (ofSigned 64 v), i, 0)

def laneVal (l : CarryLane) : FVal :=
  addExact (fp64.decode l.hi.toNat) (fp64.decode l.lo.toNat)

/-- One element applied to a lane (R123): its code, and the index it would win with. -/
def laneApply (fn fmt : Nat) (l : CarryLane) (code idx : Nat) : CarryLane × FpFlags :=
  if rIsFloat fn then
    match fmtOf fmt with
    | none => (l, 0)
    | some f =>
      let v := f.decode code
      let inv := flagIf v.isSnan fInvalid
      if fn = 0 then
        let old := laneVal l
        let sum := addExact old v
        let bad := flagIf (sum.isNan && !old.isNan && !v.isNan) fInvalid
        let (h, lo, fl) := w72Pair sum
        (⟨BitVec.ofNat 64 (bits h 63 0), BitVec.ofNat 64 (bits lo 63 0), l.idx + 1⟩, inv ||| bad ||| fl)
      else
        let x : Cand := ⟨fp64.decode l.hi.toNat, l.idx.toNat⟩
        let y : Cand := ⟨v, idx⟩
        if !(x.v.isNan) && candWins (rIsMax fn) x y then
          ({ l with hi := BitVec.ofNat 64 (fp64.ofVal .nearest v).1, idx := BitVec.ofNat 64 idx }, inv)
        else (l, 0)
  else
    let e := toSigned (intWidth fmt) code
    if fn = 3 then ({ l with hi := l.hi + BitVec.ofInt 64 e }, 0)
    else
      let x := l.hi.toInt
      let better := if rIsMax fn then x < e else e < x
      if better ∨ (x = e ∧ idx < l.idx.toNat) then
        ({ l with hi := BitVec.ofInt 64 e, idx := BitVec.ofNat 64 idx }, 0)
      else (l, 0)

/-- The 64 lanes combined (R123, R121, R122): value, index, flags. -/
def foldLanes (fn fmt : Nat) (wide : Bool) (lanes : Table CarryLane) : BitVec 64 × Nat × FpFlags :=
  let ls := (List.range 64).map (fun k => Table.get CarryLane.reset lanes k)
  if rIsFloat fn then
    match fmtOf fmt with
    | none => (0, 0, 0)
    | some f =>
      if fn = 0 then
        let (code, fl) := sumOf (if wide then fp64 else f) (Config.treeJoin 64) (ls.map laneVal)
        (BitVec.ofNat 64 code, 0, fl)
      else
        match bestCand (rIsMax fn) (ls.map (fun l => ⟨fp64.decode l.hi.toNat, l.idx.toNat⟩)) with
        | none => (0, noIndex, 0)
        | some x => (BitVec.ofNat 64 (f.ofVal .nearest x.v).1, x.i % 2 ^ 32, 0)
  else if fn = 3 then ((ls.map CarryLane.hi).foldl (· + ·) 0, 0, 0)
  else
    match bestInt (rIsMax fn) (ls.map (fun l => (l.hi.toInt, l.idx.toNat))) with
    | none => (0, noIndex, 0)
    | some (v, i) => (BitVec.ofInt 64 v, i % 2 ^ 32, 0)

/-- The identity of a function (R123). -/
def laneIdentity (fn : Nat) : CarryLane :=
  match fn with
  | 1 => ⟨BitVec.ofNat 64 (fp64.infCode true), 0, BitVec.ofNat 64 noIndex⟩
  | 2 => ⟨BitVec.ofNat 64 (fp64.infCode false), 0, BitVec.ofNat 64 noIndex⟩
  | 4 => ⟨0x8000000000000000, 0, BitVec.ofNat 64 noIndex⟩
  | 5 => ⟨0x7FFFFFFFFFFFFFFF, 0, BitVec.ofNat 64 noIndex⟩
  | _ => ⟨0, 0, 0⟩

/-- A slot after RCLR (R123). -/
def clearedLanes (fn : Nat) : Table CarryLane :=
  ((List.range 64).map (fun k => (k, laneIdentity fn))).filter (fun e => decide (e.2 ≠ CarryLane.reset))

/-- Elements with their codes applied to a slot's lanes in element order (R123). -/
def applyLanes (fn fmt base : Nat) (lanes : Table CarryLane) (act : List (Nat × Nat)) : Table CarryLane × FpFlags :=
  act.foldl (fun (x : Table CarryLane × FpFlags) p =>
    let k := p.1 % 64
    let (l, f) := laneApply fn fmt (Table.get CarryLane.reset x.1 k) p.2 ((base + p.1) % 2 ^ 32)
    (Table.set CarryLane.reset x.1 k l, x.2 ||| f)) (lanes, 0)

end Sys2Proof.Machine
end

