-- ==== Sys2Proof/Machine/TileOps.lean ====
section
/-! DEFINITION. The operations that tile instructions share: the registers of a context, landing writes (R112,
R150, R156), chunks of a vector group, queues and their placeholders, skipping (R157), stores through the
converter, and what a tile's own events are due (R81, R144, R151). -/
namespace Sys2Proof.Machine

/-! ## Registers of a context -/

def Tile.sreg (T : Tile) (c : Bool) (r : Nat) : BitVec 64 := Table.get 0 (T.ctx c).sregs r

def Tile.setS (T : Tile) (c : Bool) (r : Nat) (v : BitVec 64) : Tile :=
  T.setCtx c { T.ctx c with sregs := Table.set 0 (T.ctx c).sregs r v }

def Tile.flag (T : Tile) (c : Bool) (f : Nat) : BitVec 16 := Table.get 0 (T.ctx c).flags f

def Tile.setFlag (T : Tile) (c : Bool) (f : Nat) (v : BitVec 16) : Tile :=
  T.setCtx c { T.ctx c with flags := Table.set 0 (T.ctx c).flags f v }

def Tile.vreg (T : Tile) (r : Nat) : BitVec 4096 := Table.get 0 T.vregs r
def Tile.mask (T : Tile) (m : Nat) : BitVec 4096 := Table.get 0 T.masks m
def Tile.acc (T : Tile) (a : Nat) : Acc := Table.get Acc.reset T.accs a

def Tile.setAcc (T : Tile) (a : Nat) (x : Acc) : Tile :=
  { T with accs := Table.set Acc.reset T.accs a x }

def Tile.layout (T : Tile) (c : Bool) (a : Nat) : Nat := (Table.get 0 (T.ctx c).layout a).toNat

def Tile.setLayout (T : Tile) (c : Bool) (a : Nat) (l : Nat) : Tile :=
  T.setCtx c { T.ctx c with layout := Table.set 0 (T.ctx c).layout a (BitVec.ofNat 2 l) }

/-- A bank of an accumulator tile. -/
def Acc.bank (x : Acc) (b : Bool) : Table (BitVec 72) := if b then x.bank1 else x.bank0

def Acc.setBank (x : Acc) (b : Bool) (v : Table (BitVec 72)) : Acc :=
  if b then { x with bank1 := v } else { x with bank0 := v }

/-- The shadow bank takes `v` and becomes the visible one; the busy bit clears (R75). -/
def Acc.exchange (x : Acc) (v : Table (BitVec 72)) : Acc :=
  { x.setBank (!x.visible) v with visible := !x.visible, busy := false }

/-- The pin bit: a reader in flight holds the bank that is now the shadow (R82). -/
def Tile.pinned (T : Tile) (a : Nat) : Bool :=
  T.readers.any (fun r => r.acc.val == a && r.bank != (T.acc a).visible)

/-- A table of `n` entries from a function, in canonical form. -/
def tableOf {α : Type} [DecidableEq α] (d : α) (n : Nat) (f : Nat → α) : Table α :=
  ((List.range n).map (fun i => (i, f i))).filter (fun e => decide (e.2 ≠ d))

/-- A table of the values of a list. -/
def tableOfList {α : Type} [DecidableEq α] (d : α) (l : List α) : Table α :=
  (l.zipIdx.map (fun e => (e.2, e.1))).filter (fun e => decide (e.2 ≠ d))

/-- The full-width image of a bank: 9 bytes per element (R86). -/
def accImage (b : Table (BitVec 72)) : List Byte :=
  (List.range 4096).flatMap (fun i => leBytes 9 (Table.get 0 b i).toNat)

/-- The bank that an image holds. -/
def accOfImage (l : List Byte) : Table (BitVec 72) :=
  let v := l.toArray
  tableOf 0 4096 (fun i =>
    BitVec.ofNat 72 (ofLe ((List.range 9).map (fun k => v.getD (9 * i + k) 0))))

/-! ## Tile SRAM -/

def sramSize : Nat := 0x200000

def Tile.readSram (T : Tile) (off n : Nat) : List Byte := readBytes T.sram off n

def Tile.writeSram (T : Tile) (off : Nat) (l : List Byte) : Tile :=
  { T with sram := writeBytes T.sram off l }

/-! ## Converter registers (R63-R68) -/

def CvtBank.orFlags (b : CvtBank) (f : FpFlags) : CvtBank := { b with flags := b.flags ||| f }

def Tile.orFlags (T : Tile) (c : Bool) (f : FpFlags) : Tile :=
  T.setCtx c { T.ctx c with cvt := (T.ctx c).cvt.orFlags f }

/-- A register of a converter bank (R63). -/
def CvtBank.read (b : CvtBank) (off : Nat) : BitVec 64 :=
  if off = 0x00 then BitVec.ofNat 64 b.ctrl.toNat
  else if off = 0x08 then b.seed
  else if off = 0x10 then BitVec.ofNat 64 b.scount.toNat
  else if off = 0x18 then BitVec.ofNat 64 b.rmaxT.toNat
  else if off = 0x20 then BitVec.ofNat 64 b.satcnt.toNat
  else if off = 0x28 then BitVec.ofNat 64 b.flags.toNat
  else if 0x100 ≤ off ∧ off < 0x300 then
    BitVec.ofNat 64 (Table.get scaleReset b.scale ((off - 0x100) / 8)).toNat
  else if 0x300 ≤ off ∧ off < 0x500 then
    BitVec.ofNat 64 (Table.get 0 b.rmax ((off - 0x300) / 8)).toNat
  else 0

/-- A write to CTRL or a scale in cycle `c` leaves what stood before that cycle to a store that issues in it
(R55). -/
def CvtBank.keepPrior (b : CvtBank) (c : Nat) : CvtBank :=
  match b.prior with
  | some (c', _) => if c' = c then b else { b with prior := some (c, b.ctrl, b.scale) }
  | none => { b with prior := some (c, b.ctrl, b.scale) }

/-- CTRL and the scales that a store issuing in cycle `c` captures: a write of that cycle takes effect from the
next store (R55). DEDUCED, log entry 116. -/
def CvtBank.inForce (b : CvtBank) (c : Nat) : BitVec 6 × Table (BitVec 32) :=
  match b.prior with
  | some (c', x) => if c' = c then x else (b.ctrl, b.scale)
  | none => (b.ctrl, b.scale)

/-- A write under the access codes of R65-R68; the seed clears SCOUNT (R61). -/
def CvtBank.write (b : CvtBank) (off : Nat) (v : BitVec 64) : CvtBank :=
  let v32 := BitVec.ofNat 32 (bits v 31 0)
  if off = 0x00 then { b with ctrl := BitVec.ofNat 6 (bits v 5 0) }
  else if off = 0x08 then { b with seed := v, scount := 0 }
  else if off = 0x18 then { b with rmaxT := v32 }
  else if off = 0x20 then (if v32 = 0 then b else { b with satcnt := 0 })
  else if off = 0x28 then { b with flags := b.flags &&& ~~~(BitVec.ofNat 8 (bits v 7 0)) }
  else if 0x100 ≤ off ∧ off < 0x300 then
    { b with scale := Table.set scaleReset b.scale ((off - 0x100) / 8) v32 }
  else if 0x300 ≤ off ∧ off < 0x500 then
    { b with rmax := Table.set 0 b.rmax ((off - 0x300) / 8) v32 }
  else b

/-- A write in cycle `c`. -/
def CvtBank.writeAt (b : CvtBank) (c off : Nat) (v : BitVec 64) : CvtBank :=
  (if off = 0x00 ∨ (0x100 ≤ off ∧ off < 0x300) then b.keepPrior c else b).write off v

/-- A contribution becomes visible (R60): the larger maximum, the clamps added, the flags set. -/
def CvtBank.update (b : CvtBank) (row : Option (Nat × BitVec 32)) (clamps : Nat) (f : FpFlags) : CvtBank :=
  let b := match row with
    | some (r, x) =>
      { b with rmax := Table.set 0 b.rmax r (rmaxMax (Table.get 0 b.rmax r) x), rmaxT := rmaxMax b.rmaxT x }
    | none => b
  { b.orFlags f with satcnt := BitVec.ofNat 32 (satAdd 0xFFFFFFFF b.satcnt.toNat clamps) }

/-! ## Landing writes -/

/-- Place of an effect among those of its cycle: reads of an ACCLOAD, which see what landed before the cycle, and
FSETs first; writes to registers; then writes to own SRAM, a reduction's reads and the hardware updates of a
converter bank, which come after every write of the cycle (R60, R64, R86, R112, R150). -/
def Landing.rank : Landing → Nat
  | .loadChunk _ _ _ _ => 0
  | .flagSet _ _ _ => 0
  | .cvtUpdate _ _ _ _ => 2
  | .redRead _ _ => 2
  | .sram _ _ => 2
  | .sramHalf _ _ _ => 2
  | .saveChunk _ _ _ _ => 2
  | _ => 1

/-- Landing order: by cycle, by place in the cycle, then in program order (R112). -/
def Pend.before (a b : Pend) : Bool :=
  a.cycle < b.cycle || (a.cycle == b.cycle &&
    (a.eff.rank < b.eff.rank || (a.eff.rank == b.eff.rank && a.ord ≤ b.ord)))

def insertPend (p : Pend) : List Pend → List Pend
  | [] => [p]
  | x :: l => if x.before p then x :: insertPend p l else p :: x :: l

/-- An effect of the instruction of count `n` will land in cycle `c`. -/
def Tile.addPend (T : Tile) (n : BitVec 64) (c : Nat) (e : Landing) : Tile :=
  { T with pend := insertPend ⟨c, n.toNat, e⟩ T.pend }

/-- Loads into S registers that have not landed and belong to one of these instructions are gone. -/
def dropLoads (gone : BitVec 64 → Bool) (l : List Pend) : List Pend :=
  l.filter (fun p =>
    match p.eff with
    | .loadS n _ _ _ => !gone n
    | _ => true)

def setChunk (old : BitVec 4096) (chunk : Nat) (mask v : BitVec 2048) : BitVec 4096 :=
  let m : BitVec 4096 := (mask.setWidth 4096) <<< (2048 * chunk)
  let x : BitVec 4096 := (v.setWidth 4096) <<< (2048 * chunk)
  (old &&& ~~~m) ||| (x &&& m)

/-- Add to a flag; a count past 65,535 stays there and is logged (R150), once for each increment that passes it, two
of one cycle included (DESIGN CHOICE, log entry 154). -/
def State.incFlag (s : State) (d t : Nat) (c : Bool) (f n : Nat) : State :=
  let T := s.tile d t
  let v := (T.flag c f).toNat + n
  let s := s.setTile d t (T.setFlag c f (BitVec.ofNat 16 (min v 65535)))
  if 65535 < v then
    s.logErr d { code := 0x14, src := 6, unit := t, ctx := c, detail := f }
  else s

/-! ## Reductions in flight -/

/-- A slot with every earlier instruction applied, or as one that issues in cycle `c` reads it (R123). -/
def Tile.slotView (T : Tile) (slot : Nat) (c : Option Nat) : Table CarryLane :=
  T.rjobs.foldl (fun v j =>
    match j.carry with
    | some (k, l) => if k == slot && (c.map (fun c => decide (j.due ≤ c))).getD true then l else v
    | none => v) (Table.get [] T.carry slot)

/-- Active elements of a reduction's source, index and code, from the chunks it has read (R103, R104). -/
def RedJob.act (j : RedJob) : List (Nat × Nat) :=
  let w := if rIsFloat (vFunc j.word) then fmtWidth (vFmt j.word) else intWidth (vFmt j.word)
  let per := 2048 / w
  let chunks := j.got.toArray
  ((List.range j.len).filter (fun e => !vMen j.word || j.mask.getLsbD e)).map (fun e =>
    (e, ((chunks.getD (e / per) 0).toNat >>> (w * (e % per))) % 2 ^ w))

/-- The last chunk has been read: the result is set to land at completion, or the lanes are known to the next
instruction on the slot (R120, R123). -/
def Tile.finishRed (T : Tile) (j : RedJob) : Tile :=
  let w := j.word
  let fn := vFunc w
  if wOpc w = 1 then
    let (lanes, f) := applyLanes fn (vFmt w) j.base (T.slotView (rSlot w) none) j.act
    { T.addPend j.count j.due (.cvtUpdate j.ctx none 0 f) with
      rjobs := T.rjobs.map (fun x => if x.count = j.count then { j with carry := some (rSlot w, lanes) } else x) }
  else
    let (v, i, f) := redValue fn (vFmt w) (rWide w) j.act
    let T := T.addPend j.count j.due (.sreg j.ctx (rSd w) v)
    let T := if rIsPick fn then T.addPend j.count j.due (.sreg j.ctx (rSi w) (BitVec.ofNat 64 i)) else T
    T.addPend j.count j.due (.cvtUpdate j.ctx none 0 f)

/-- A reduction reads its next chunk; behind the last one its result follows. -/
def Tile.redRead (T : Tile) (count : BitVec 64) (h : Nat) : Tile :=
  match T.rjobs.find? (fun j => j.count == count) with
  | none => T
  | some j =>
    let x := BitVec.ofNat 2048 ((T.vreg (rVs j.word + h / 2)).toNat >>> (2048 * (h % 2)))
    let j := { j with got := j.got ++ [x] }
    let T : Tile := { T with rjobs := T.rjobs.map (fun y => if y.count = count then j else y) }
    if h + 1 = j.n then T.finishRed j else T

/-- One half of a byte of own SRAM is written. -/
def Tile.writeHalf (T : Tile) (off : Nat) (high : Bool) (v : Nat) : Tile :=
  let old := ofLe (T.readSram off 1)
  T.writeSram off [BitVec.ofNat 8 (if high then old % 16 + 16 * (v % 16) else old / 16 * 16 + v % 16)]

/-- An instruction has issued or been dispatched, or a block has become ready or complete: the monitor of R159 counts
anew. -/
def State.stir (s : State) (d t : Nat) : State :=
  s.setTile d t { s.tile d t with still := s.alm.total }

/-- One landing write takes effect. -/
def State.landOne (s : State) (d t : Nat) (p : Pend) : State :=
  let T := s.tile d t
  match p.eff with
  | .sreg c r v => s.setTile d t (T.setS c r v)
  | .vchunk r h m v =>
    s.setTile d t { T with vregs := Table.set 0 T.vregs r (setChunk (T.vreg r) h m v) }
  | .mreg k m v =>
    s.setTile d t { T with masks := Table.set 0 T.masks k ((T.mask k &&& ~~~m) ||| (v &&& m)) }
  | .vl c n => s.setTile d t (T.setCtx c { T.ctx c with vl := n })
  | .flagInc c f n => s.incFlag d t c f n
  | .flagSet c f n => s.setTile d t (T.setFlag c f (BitVec.ofNat 16 n))
  | .cvtReg c off v =>
    s.setTile d t (T.setCtx c { T.ctx c with cvt := (T.ctx c).cvt.writeAt p.cycle off v })
  | .saveChunk a b off k =>
    let img := accImage ((T.acc a.val).bank b)
    s.setTile d t (T.writeSram (off + 256 * k) ((img.drop (256 * k)).take 256))
  | .loadChunk a _ off k =>
    let l := T.readSram (off + 256 * k) 256
    s.setTile d t { T with loads := T.loads.map (fun j =>
      if j.acc = a then { j with data := j.data ++ l } else j) }
  | .sram off l => s.setTile d t (T.writeSram off l)
  | .loadS _ c r v => s.setTile d t (T.setS c r v)
  | .sramHalf off high v => s.setTile d t (T.writeHalf off high v)
  | .redRead n h => s.setTile d t (T.redRead n h)
  | .cvtUpdate c r n f => s.setTile d t (T.setCtx c { T.ctx c with cvt := (T.ctx c).cvt.update r n f })
  | .sqDone id => (s.setTile d t { T with
      sq := T.sq.map (fun b => if b.id = id then { b with complete := true } else b) }).stir d t

/-- An entry that an instruction issuing in cycle `c` finds landed: the last effects of a cycle come behind its
issues. -/
def Pend.landedBy (p : Pend) (c : Nat) : Bool := decide (p.cycle < c) || (p.cycle == c && decide (p.eff.rank < 2))

/-- The first landing writes take effect, one after the other, while `ok` holds of them and `n` lasts. -/
def State.landWhile (s : State) (d t : Nat) (ok : Pend → Bool) : Nat → State
  | 0 => s
  | n + 1 =>
    let T := s.tile d t
    match T.pend with
    | [] => s
    | p :: l => if ok p then ((s.setTile d t { T with pend := l }).landOne d t p).landWhile d t ok n else s

/-- Enough for every landing write and what the last reads of reductions add. -/
def Tile.pendBound (T : Tile) : Nat := T.pend.length + 4 * T.rjobs.length

/-- The NOTIFY queue of a die has room (R142): how often it had been full before. -/
def ComputeDie.room (C : ComputeDie) : Option Nat := if C.notify.length < 16 then some C.freed else none

/-- The tile has reached cycle `c`, and finds ALM_NOW and the NOTIFY queue as they stand. -/
def State.atCycle (s : State) (d t c : Nat) : State :=
  let T := s.tile d t
  s.setTile d t { T with times := { T.times with
    now := max c T.times.now, beat := s.nowAt d, room := (s.cd d).room } }

/-- Everything that an instruction of cycle `c` finds landed takes effect, and the tile has reached `c`. -/
def State.land (s : State) (d t c : Nat) : State :=
  (s.atCycle d t c).landWhile d t (fun p => p.landedBy c) (s.tile d t).pendBound

/-- The tile at the end of cycle `c`, as a read of that cycle returns it (R60, R64). -/
def State.settle (s : State) (d t c : Nat) : State :=
  (s.atCycle d t c).landWhile d t (fun p => decide (p.cycle ≤ c)) (s.tile d t).pendBound

/-- The last cycle in which anything is still to land. -/
def Tile.lastLand (T : Tile) : Nat := T.pend.foldl (fun m p => max m p.cycle) T.times.now

/-- A flag as it stands at the end of cycle `c`: a WAIT sees an increment a cycle after it has landed, a read of
the flag sees it at once (R150). -/
def Tile.flagSeen (T : Tile) (c : Nat) (ctx : Bool) (f : Nat) : BitVec 16 :=
  T.pend.foldl (fun (v : BitVec 16) p =>
    if c + 1 < p.cycle then v
    else
      match p.eff with
      | .flagInc x g n => if x = ctx ∧ g = f then BitVec.ofNat 16 (min (v.toNat + n) 65535) else v
      | .flagSet x g n => if x = ctx ∧ g = f then BitVec.ofNat 16 n else v
      | _ => v) (T.flag ctx f)

def Landing.isFlag : Landing → Bool
  | .flagInc _ _ _ => true
  | .flagSet _ _ _ => true
  | _ => false

/-- Flag effects that have landed by the end of the tile's present cycle are in the flags (R150). -/
def State.flushFlags (s : State) (d t : Nat) : State :=
  let T := s.tile d t
  let (now, later) := T.pend.partition (fun p => p.eff.isFlag && decide (p.cycle ≤ T.times.now + 1))
  now.foldl (fun s p => s.landOne d t p) (s.setTile d t { T with pend := later })

/-! ## Vector groups (R99-R101) -/

/-- A chunk of a register as a read in cycle `c` sees it (R112). -/
def Tile.chunkAt (T : Tile) (c r h : Nat) : BitVec 2048 :=
  let v := T.pend.foldl (fun (v : BitVec 4096) p =>
    match p.eff with
    | .vchunk r' h' m x => if r' = r ∧ p.cycle ≤ c then setChunk v h' m x else v
    | _ => v) (T.vreg r)
  BitVec.ofNat 2048 (v.toNat >>> (2048 * h))

/-- Steps of a group's elements of width `w` where chunks count on width `wide` (R111): the elements of step h,
their chunk and their place in it. -/
def stepsOf (g w wide : Nat) : List (Nat × Nat × Nat) :=
  let per := 2048 / wide
  (List.range (2 * g * wide / w)).map (fun h => (h, h * per * w / 2048, h * per % (2048 / w)))

/-- Element codes of a group: the elements of step h are read at cycle `i + cc * h`, steps counted on the wider
of source and destination (R111). -/
def Tile.groupAt (T : Tile) (i cc base g w wide : Nat) : List Nat :=
  (stepsOf g w wide).flatMap (fun (h, k, e0) =>
    let v := (T.chunkAt (i + cc * h) (base + k / 2) (k % 2)).toNat
    (List.range (2048 / wide)).map (fun e => (v >>> (w * (e0 + e))) % 2 ^ w))

/-- Writes of elements of a group by the instruction of count `n`: element e of width `w` where `f e` gives a
code; those of step h become visible at `i + lat + cc * (h - 1)`, steps counted on width `wide` (R111). -/
def Tile.putGroup (T : Tile) (n : BitVec 64) (i lat cc base g w wide : Nat) (f : Nat → Option Nat) : Tile :=
  let per := 2048 / wide
  (stepsOf g w wide).foldl (fun T (h, k, e0) =>
    let (m, v) := (List.range per).foldl (fun (mv : Nat × Nat) e =>
      match f (h * per + e) with
      | some x => (mv.1 + (2 ^ w - 1) * 2 ^ (w * (e0 + e)), mv.2 + (x % 2 ^ w) * 2 ^ (w * (e0 + e)))
      | none => mv) (0, 0)
    if m = 0 then T
    else T.addPend n (i + lat + cc * h - cc)
      (.vchunk (base + k / 2) (k % 2) (BitVec.ofNat 2048 m) (BitVec.ofNat 2048 v))) T

/-! ## Queues (R144-R146) -/

/-- Blocks of the operand queue's matrix part or vector part. -/
def Tile.oq (T : Tile) (matrix : Bool) : List OqBlock := if matrix then T.oqm else T.oqv

def Tile.setOq (T : Tile) (matrix : Bool) (l : List OqBlock) : Tile :=
  if matrix then { T with oqm := l } else { T with oqv := l }

/-- Bytes that a part holds; a placeholder holds none. -/
def oqBytes (l : List OqBlock) : Nat := (l.map (fun b => if b.hole then 0 else b.size)).sum

/-- Room in a part for blocks of these sizes (R144). -/
def Tile.oqRoom (T : Tile) (matrix : Bool) (sizes : List Nat) : Bool :=
  let l := T.oq matrix
  decide (l.length + sizes.length ≤ (if matrix then 8 else 16)) && decide (oqBytes l + sizes.sum ≤ 0x8000)

def sqBytes (l : List SqBlock) : Nat := (l.map (fun b => if b.hole then 0 else b.size)).sum

def Tile.sqRoom (T : Tile) (n : Nat) : Bool :=
  decide (T.sq.length + 1 ≤ 16) && decide (sqBytes T.sq + n ≤ 0x10000)

def Tile.addSqHole (T : Tile) : Tile :=
  { T with sq := T.sq ++ [⟨T.nextId, true, true, 0, []⟩], nextId := T.nextId + 1 }

def Tile.addOqHoles (T : Tile) (matrix : Bool) (owner : BitVec 64) (n : Nat) : Tile :=
  (List.range n).foldl (fun T _ =>
    { T.setOq matrix (T.oq matrix ++ [⟨T.nextId, owner, 0, true, some 0, true, []⟩]) with
      nextId := T.nextId + 1 }) T

/-- A part's head may be taken. -/
def headReady (l : List OqBlock) : Bool :=
  match l with
  | b :: _ => b.ready
  | [] => false

/-! ## Skipped instructions (R157, R169) -/

def illLast (old : BitVec 64) (q : QEntry) (c : Bool) (code : Nat) : BitVec 64 :=
  let skips := satInc 0xFFFF (bits old 15 0)
  BitVec.ofNat 64 (bits q.count 31 0 * 2 ^ 32 + 2 ^ 31 + natOf c * 2 ^ 30 + wEng q.word * 2 ^ 27
    + code % 256 * 2 ^ 19 + skips)

/-- Logged with code, engine, context and count, and recorded in CDT_ILL_LAST. -/
def State.skip (s : State) (d t : Nat) (q : QEntry) (code : Nat) : State :=
  let T := s.tile d t
  let c := T.active
  let s := s.setTile d t { T with regs := { T.regs with illLast := illLast T.regs.illLast q c code } }
  s.logErr d { code := code, src := wEng q.word + 1, unit := t, ctx := c, icount := bits q.count 31 0 }

/-- A consumer's entry: placeholder taken, or flag overflow. -/
def State.logTile (s : State) (d t : Nat) (q : QEntry) (code detail : Nat) : State :=
  s.logErr d { code := code, src := wEng q.word + 1, unit := t, ctx := (s.tile d t).active
               icount := bits q.count 31 0, detail := detail }

/-- The first code of a list of conditions that holds. -/
def firstCode : List (Bool × Nat) → Option Nat
  | [] => none
  | (b, c) :: l => if b then some c else firstCode l

/-! ## Stores through the converter -/

/-- What a store that captured this CTRL does to its converter bank at its issue cycle (R60, R61): the clear of
the maxima it touches, SCOUNT. -/
def CvtBank.capture (b : CvtBank) (ctrl : BitVec 6) (fmt : Nat) (clr : Bool) (row : Option Nat) : CvtBank :=
  let b := if clr then
      match row with
      | none => { b with rmax := [], rmaxT := 0 }
      | some r => { b with rmax := Table.set 0 b.rmax r 0, rmaxT := 0 }
    else b
  if srOf ctrl fmt then { b with scount := b.scount + 1 } else b

/-- The lowest unusable scale among the rows a store uses (R55); with SCALE_EN = 0 no register is in force and none
is checked (DESIGN CHOICE, log entry 117). -/
def badRow (ctrl : BitVec 6) (scale : Table (BitVec 32)) (rows : List Nat) : Option Nat :=
  if ctrlScaleEn ctrl then rows.find? (fun r => scaleBad (Table.get scaleReset scale r)) else none

/-- CVT_SCALE_BAD of a store's issue cycle: logged once, the flag visible a cycle later (R55, R60). -/
def State.scaleCheck (s : State) (d t c : Nat) (q : QEntry) (rows : List Nat) : State :=
  let T := s.tile d t
  let (ctrl, scale) := (T.cur.cvt).inForce c
  match badRow ctrl scale rows with
  | some r =>
    let s := s.logTile d t q 0x15 r
    s.setTile d t ((s.tile d t).addPend q.count (c + 1) (.cvtUpdate T.active none 0 fScaleBad))
  | none => s

/-! ## The tile's own events -/

/-- Cycle at which the next row of a store leaves the converter (R60). -/
def CvtJob.rowCycle (j : CvtJob) : Nat := j.issue + 6 + j.row

def AccOp.allDone (o : AccOp) : Bool := o.segs.all (fun g => g.state == .done)

/-- An instruction has completed, once its cycle has come: its requests are done and its blocks are ready or gone
(R151). -/
def Tile.opComplete (T : Tile) (o : AccOp) : Bool :=
  !o.held && o.allDone && (T.oqm ++ T.oqv).all (fun b => !o.blocks.contains b.id || b.ready)

def OqBlock.due (b : OqBlock) : Option Nat := if b.ready then none else b.readyAt

/-- The cycle in which the dispatch of a stream that a RUN has started begins (R133). -/
def Tile.beginsAt (T : Tile) : Option Nat :=
  if T.stream = .run ∧ T.stall = .none ∧ !T.aborting ∧ !T.leaving then T.begins else none

/-- Every dispatched instruction has issued and completed (R143); a verdict may be pending. -/
def Tile.drained (T : Tile) : Bool :=
  T.eq.isEmpty && T.aq.isEmpty && T.mmas.isEmpty && T.loads.isEmpty && T.cvt.isEmpty && T.readers.isEmpty
    && T.vjobs.isEmpty && T.rjobs.isEmpty && T.div.isNone && T.ops.isEmpty

/-- Quiescent behind the instruction that waits: engines, converter, queues and slots are idle, and no
verdict is pending (R93, R129, R161). -/
def Tile.quiet (T : Tile) : Bool :=
  T.drained && T.slots.isEmpty && T.oqm.isEmpty && T.oqv.isEmpty && T.sq.isEmpty && T.abft.isEmpty
    && T.stream != .faultHold

/-- Whether a switch may begin in cycle `c` (R162): in the cycle of quiescence, behind the last landing; where the
return beat found the tile quiescent already, in any cycle from there on. -/
def Tile.switchesAt (T : Tile) (c : Nat) : Bool :=
  match T.leftAt with
  | some n => if T.lastLand ≤ n then decide (T.lastLand ≤ c) else c == T.lastLand
  | none => c == T.lastLand

/-- The cycle in which a stream of a crop ends at its HALT, or a switch begins at quiescence (R162, R163). -/
def Tile.leavesAt (T : Tile) : Option Nat :=
  if T.stream != .run || T.switching then none
  else if T.leaving then
    (if T.quiet && (T.leftAt.map (fun n => decide (n < T.lastLand))).getD true then some T.lastLand else none)
  else if T.active && (T.stall == .halt || T.stall == .range) && T.drained && T.crop != .done then some T.lastLand
  else none

/-- Cycles at which events of the tile's own are due: the first dispatch of a stream that a RUN has started, result
cycles and verdicts of MMAs, exchanges of ACCLOADs, readers, converter rows, completions of the vector engine, the
reduction unit and the divider, blocks that become ready, access instructions that complete, the end of a crop and the
beginning and the end of a switch. -/
def Tile.dues (T : Tile) : List Nat :=
  T.mmas.map MmaJob.due ++ T.abft.map (fun x => x.mma.due + 16) ++ T.loads.map LoadJob.due
    ++ T.readers.map AccReader.due ++ T.cvt.map CvtJob.rowCycle ++ T.vjobs.map VecJob.due ++ T.rjobs.map RedJob.due
    ++ T.div.toList ++ (T.oqm ++ T.oqv).filterMap OqBlock.due
    ++ (T.ops.filter T.opComplete).map AccOp.due ++ (if T.switching then [T.swAt + 1280] else [])
    ++ T.beginsAt.toList ++ T.leavesAt.toList

/-- No event of the tile's own before cycle `c` is still to come. -/
def Tile.clear (T : Tile) (c : Nat) : Bool := T.dues.all (fun x => decide (c ≤ x))

end Sys2Proof.Machine
end

