-- ==== Sys2Proof/Machine/Form.lean ====
section
/-! DEFINITION. What an access instruction names (R100, R103, R114-R117, R139, R141, R145, R148, R149, R152): its
effective length, its blocks, the pieces it accesses with their places, and the checks made before any request. -/
namespace Sys2Proof.Machine

/-- Least of VL and the VLMAX values of source and destination (R103). -/
def effLen (vl : Nat) (maxes : List Nat) : Nat := maxes.foldl min vl

/-- Effective length (R103, R114). -/
def xLen (T : Tile) (w : BitVec 64) : Nat :=
  let g := xGrp w
  effLen T.cur.vl (if xForm w = 2 then [vlmax (xWidth w) g, vlmax (idxWidth w) g] else [vlmax (xWidth w) g])

/-- Rows and bytes per row of a block form (R141). -/
def rowsOf (sy : BitVec 64) : Nat := bits sy 15 0
def rowBytes (sy : BitVec 64) : Nat := bits sy 31 16

def packedBytes (width n : Nat) : Nat := (n * width + 7) / 8

/-- Sizes of the blocks that an ALD places, or that an AST takes, one for each field. -/
def blockSizes (T : Tile) (w : BitVec 64) : List Nat :=
  if xForm w = 3 then
    let sy := T.sreg T.active (xSy w)
    [rowsOf sy * rowBytes sy]
  else List.replicate (xNf w) (packedBytes (xWidth w) (xLen T w))

/-! ## Addresses -/

/-- Where one byte of an access lies, as the tile sees it: its own SRAM, beyond the tile, or nowhere. -/
inductive Place where
  | own (off : Nat)
  | beyond
  | bad (code : Nat)
  deriving DecidableEq, Repr

def placeOff : Place → Option Nat
  | .own off => some off
  | _ => none

/-- The save areas of R162 are closed while catch crops are on (R149). -/
def State.reserved (s : State) (d t off : Nat) : Bool :=
  (s.tile d t).regs.cropCtrl.getLsbD 0 && decide (0x160000 ≤ off)

def State.placeOf (s : State) (d t : Nat) (ga : BitVec 64) : Place :=
  match s.route ga with
  | .error c => .bad c
  | .there _ _ => .beyond
  | .here a =>
    match s.locate a with
    | .unmapped => .bad 0x20
    | .sram d' t' off =>
      if s.reserved d' t' off then .bad 0x25
      else if d' = d ∧ t' = t then .own off
      else .beyond
    | _ => .beyond

/-- A piece of an access that lies in one sector: address, bytes, place in the image, element and field,
a copy's destination, and the only half of its byte that an FP4 element stands for. -/
structure Piece where
  addr  : BitVec 64
  n     : Nat
  pos   : Nat
  elem  : Nat
  field : Nat
  dst   : BitVec 64
  half  : Option Bool
  deriving DecidableEq, Repr

/-- A run of bytes cut at 64-byte boundaries; elements count sectors from the image's start. -/
def sectorRun (a : BitVec 64) (len pos : Nat) : List Piece :=
  let a0 := a.toNat
  let first := a0 / 64
  let last := (a0 + len - 1) / 64
  if len = 0 then []
  else (List.range (last + 1 - first)).map (fun i =>
    let lo := max a0 (64 * (first + i))
    let hi := min (a0 + len) (64 * (first + i) + 64)
    ⟨BitVec.ofNat 64 lo, hi - lo, pos + (lo - a0), (pos + (lo - a0)) / 64, 0, 0, none⟩)

def AccOp.active (o : AccOp) (e : Nat) : Bool := !xMen o.word || o.mask.getLsbD e

/-- Element pieces of the unit-stride form: whole elements, or the bytes that hold active FP4 elements. Of a byte
whose other element is inactive or behind the last, one half alone is accessed (R103, R104). -/
def unitPieces (o : AccOp) : List Piece :=
  let w := xWidth o.word
  let nf := xNf o.word
  let n := o.len * nf
  if w = 4 then
    (List.range ((n + 1) / 2)).filterMap (fun b =>
      let on (i : Nat) : Bool := decide (i < n) && o.active (i / nf)
      let piece (i : Nat) (half : Option Bool) : Option Piece :=
        some ⟨o.s1 + BitVec.ofNat 64 b, 1, b, i / nf, i % nf, 0, half⟩
      match on (2 * b), on (2 * b + 1) with
      | true, true => piece (2 * b) none
      | true, false => piece (2 * b) (some false)
      | false, true => piece (2 * b + 1) (some true)
      | false, false => none)
  else
    (List.range n).filterMap (fun i =>
      if o.active (i / nf) then
        some ⟨o.s1 + BitVec.ofNat 64 (i * (w / 8)), w / 8, i * (w / 8), i / nf, i % nf, 0, none⟩
      else none)

/-- Element pieces of the strided and indexed forms. An FP4 element is the low half of its byte (log entry 6). -/
def elemPieces (o : AccOp) : List Piece :=
  let n := elemBytes o.word
  (List.range o.len).filterMap (fun e =>
    if o.active e then
      let off : BitVec 64 :=
        if xForm o.word = 1 then BitVec.ofNat 64 e * o.s2
        else BitVec.ofInt 64 (o.idx.getD e 0 * (2 ^ xShift o.word : Nat))
      some ⟨o.s1 + off, n, e * n, e, 0, 0, if xWidth o.word = 4 then some false else none⟩
    else none)

/-- Every piece an instruction accesses, in ascending element order (R148). -/
def AccOp.pieces (o : AccOp) : List Piece :=
  match wOpc o.word with
  | 2 => (sectorRun o.s1 o.s3.toNat 0).map (fun p => { p with dst := o.s2 + BitVec.ofNat 64 p.pos })
  | 3 => [⟨o.s1, 8, 0, 0, 0, 0, none⟩]
  | 4 => [⟨o.s1, 8, 0, 0, 0, 0, none⟩]
  | 0 | 1 =>
    if xForm o.word = 3 then
      (List.range (rowsOf o.s3)).flatMap (fun r =>
        sectorRun (o.s1 + BitVec.ofNat 64 r * o.s2) (rowBytes o.s3) (r * rowBytes o.s3))
    else if xForm o.word = 0 then unitPieces o
    else elemPieces o
  | _ => []

/-- Alignment that each piece must have (R115, R141). Pieces of a block's row are checked at its start. -/
def AccOp.align (o : AccOp) : Nat :=
  match wOpc o.word with
  | 2 => 64
  | 3 => 8
  | 4 => 8
  | _ => elemBytes o.word

/-- What the check before any request says of one address (R116). -/
def State.checkAddr (s : State) (d t align : Nat) (a : BitVec 64) : Option Nat :=
  if a.toNat % align ≠ 0 then some 0x21
  else
    match s.placeOf d t a with
    | .bad c => some c
    | _ => none

/-- The lowest piece that faults before any request: code, element, field, address. -/
def State.firstBad (s : State) (d t : Nat) (o : AccOp) : List Piece → Option (Nat × Nat × Nat × BitVec 64)
  | [] => none
  | p :: l =>
    match s.checkAddr d t o.align p.addr with
    | some c => some (c, p.elem, p.field, p.addr)
    | none =>
      if wOpc o.word = 2 then
        match s.checkAddr d t 64 p.dst with
        | some c => some (c, p.elem, p.field, p.dst)
        | none => s.firstBad d t o l
      else s.firstBad d t o l

/-! ## Own and other targets -/

/-- The descriptor of an ASIG (R152): whether it names this device, and what it names there. -/
def sigHere (s : State) (desc : BitVec 64) : Bool :=
  !desc.getLsbD 47 || (match s.route (desc &&& 0xFFFF000000000000) with
    | .here _ => true
    | _ => false)

def sigDie (desc : BitVec 64) : Nat := bits desc 25 21
def sigTile (desc : BitVec 64) : Nat := bits desc 20 13

/-- A descriptor that names no flag: TILE above 143, or a reserved field that is not zero (R152). -/
def sigBad (desc : BitVec 64) : Bool :=
  decide (143 < sigTile desc) || bits desc 46 27 != 0 || bits desc 12 6 != 0

/-- A flag of the tile itself (R148). -/
def State.sigOwn (s : State) (d t : Nat) (desc : BitVec 64) : Bool :=
  sigHere s desc && sigDie desc == d && sigTile desc == t

/-- Why the descriptor faults before anything is sent, if it does. -/
def State.sigFault (s : State) (desc : BitVec 64) : Option Nat :=
  if sigBad desc then some 0x24
  else if desc.getLsbD 47 then
    (match s.route (desc &&& 0xFFFF000000000000) with
     | .error c => some c
     | _ => none)
  else none

/-- What an instruction reads at its issue cycle (R139). -/
def accOpOf (T : Tile) (q : QEntry) (c : Nat) : AccOp :=
  let w := q.word
  let len := xLen T w
  { count := q.count, ctx := T.active, word := w, segs := [], blocks := [], taken := []
    len := len, mask := T.mask (xMsk w)
    s1 := T.sreg T.active (xSb w), s2 := T.sreg T.active (xSx w), s3 := T.sreg T.active (xSy w)
    idx := if xForm w = 2 then
        ((T.groupAt c 0 (xSy w) (xGrp w) (idxWidth w) (idxWidth w)).take len).map (fun x => toSigned (idxWidth w) x)
      else []
    due := c, held := false, nested := false, upset := q.upset == .memory }

/-- Own SRAM is touched, and something lies beyond the tile, in the pieces of an instruction. -/
def State.touchesOwn (s : State) (d t : Nat) (o : AccOp) : Bool :=
  o.pieces.any (fun p => (placeOff (s.placeOf d t p.addr)).isSome
    || (wOpc o.word == 2 && (placeOff (s.placeOf d t p.dst)).isSome))

def State.reaches (s : State) (d t : Nat) (o : AccOp) : Bool :=
  o.pieces.any (fun p => (placeOff (s.placeOf d t p.addr)).isNone
    || (wOpc o.word == 2 && (placeOff (s.placeOf d t p.dst)).isNone))

/-- The first rule of R100, R141 and R157 that an ALD or AST breaks. R157 gives ILL_VREG no place among its codes;
it stands behind ILL_FMT, as in R110 (DESIGN CHOICE, log entry 118). -/
def vecFormCode (T : Tile) (w : BitVec 64) : Option Nat :=
  let sy := T.sreg T.active (xSy w)
  firstCode
    [ (7 ≤ xFmt w, 0x03),
      (xFmt w == 6 && xGrp w == 8, 0x05),
      (wOpc w == 0 && (xForm w == 3) != xDest w, 0x04),
      (xForm w == 3 && decide (4096 < rowsOf sy * rowBytes sy), 0x04),
      (xForm w == 2 && (xSy w % xGrp w != 0), 0x04) ]

/-- A load or store whose effective length is 0 changes nothing but its flag (R103). -/
def emptyLen (T : Tile) (w : BitVec 64) : Bool := xForm w != 3 && xLen T w == 0

/-- Two ranges of one device's local space overlap (R149). -/
def State.overlaps (s : State) (a b : BitVec 64) (n : Nat) : Bool :=
  let near (x y : Nat) : Bool := decide (x < y + n) && decide (y < x + n)
  match s.route a, s.route b with
  | .here x, .here y => near x y
  | .there c x, .there e y => c == e && near x y
  | _, _ => false

def State.acopyBad (s : State) (o : AccOp) : Bool :=
  let n := o.s3.toNat
  n % 64 != 0 || decide (n < 64) || decide (0x40000 < n) || s.overlaps o.s1 o.s2 n

/-- ALDS and ASTS work on the tile's own SRAM (R141, R157); a misaligned or reserved address there is a
fault, not a skip. -/
def State.outsideOwn (s : State) (d t : Nat) (o : AccOp) : Bool :=
  match s.route o.s1 with
  | .here a =>
    match s.locate a with
    | .sram d' t' _ => !(d' == d && t' == t)
    | _ => true
  | _ => true

end Sys2Proof.Machine
end

