-- ==== Sys2Proof/Machine/Gate.lean ====
section
/-! DEFINITION. When an instruction issues: the gates of R136, the three conditions of R135, and the order of a
tile's events in time. -/
namespace Sys2Proof.Machine

/-! ## Slots and ports (R136, R148) -/

/-- Lowest free slot of the 48 (R148). -/
def Tile.freeSlot (T : Tile) : Option Nat :=
  (List.range 48).find? (fun k => !(T.slots.any (fun e => e.1 == k)))

/-- The previous access instruction has made all its requests by cycle `c`; requests leave in order, one a cycle. -/
def Tile.allMade (T : Tile) (c : Nat) : Bool :=
  T.ops.all (fun o => o.segs.all (fun g => g.state != .waiting)) && decide (T.times.req ≤ c)

/-- Slots and port A as R136 asks, for an instruction that may reach beyond the tile or touch its own SRAM. -/
def Tile.pathOpen (T : Tile) (c : Nat) (beyond own : Bool) : Bool :=
  (!beyond || (T.freeSlot.isSome && T.allMade c)) && (!own || decide (T.times.portA ≤ c))

/-- The path of a load or store. One that will be skipped, or has no element, is judged by its base address. -/
def State.vecPath (s : State) (d t c : Nat) (T : Tile) (w : BitVec 64) (o : AccOp) : Bool :=
  if (vecFormCode T w).isSome || emptyLen T w then
    let own := (placeOff (s.placeOf d t o.s1)).isSome
    T.pathOpen c (!own) own
  else T.pathOpen c (s.reaches d t o) (s.touchesOwn d t o)

/-- The path of a copy. One that will be skipped is judged by its two addresses. -/
def State.copyPath (s : State) (d t c : Nat) (T : Tile) (o : AccOp) : Bool :=
  if s.acopyBad o then
    let own (a : BitVec 64) : Bool := (placeOff (s.placeOf d t a)).isSome
    T.pathOpen c (!own o.s1 || !own o.s2) (own o.s1 || own o.s2)
  else T.pathOpen c (s.reaches d t o) (s.touchesOwn d t o)

/-- Sizes of the blocks for which an ALD's part must have room: nothing but places for one that will be skipped, no
block for one of effective length 0. -/
def aldRoom (T : Tile) (w : BitVec 64) : List Nat :=
  if (vecFormCode T w).isSome then List.replicate (xNf w) 0
  else if emptyLen T w then []
  else blockSizes T w

/-- Blocks that an AST takes: one for each field of its records. -/
def astTakes (w : BitVec 64) : Nat := xNf w

/-- Every block that an AST takes is there and complete. -/
def Tile.astReady (T : Tile) (w : BitVec 64) : Bool :=
  let blocks := T.sq.take (astTakes w)
  decide (blocks.length = astTakes w) && blocks.all (·.complete)

/-- Every earlier access instruction of the context has completed (R151). -/
def Tile.fenceOpen (T : Tile) : Bool := T.ops.isEmpty

/-- Gates of the access engine (R136). -/
def State.gateAccess (s : State) (d t c : Nat) (T : Tile) (q : QEntry) : Bool :=
  let w := q.word
  let o := accOpOf T q c
  match wOpc w with
  | 0 => T.oqRoom (xDest w) (aldRoom T w) && s.vecPath d t c T w o
  | 1 => T.astReady w && s.vecPath d t c T w o
  | 2 => s.copyPath d t c T o
  | 3 => s.outsideOwn d t o || decide (T.times.portA ≤ c)
  | 4 => s.outsideOwn d t o || decide (T.times.portA ≤ c)
  | 5 => T.fenceOpen && ((s.sigFault o.s1).isSome || s.sigOwn d t o.s1 || T.pathOpen c true false)
  | 6 => T.fenceOpen
  | _ => true

/-! ## Queues (R136, R144) -/

/-- Bytes of an ACCST's block (R145). -/
def accstBytes (fmt : Nat) : Nat := 4096 * fmtWidth fmt / 8

/-- Bytes of the block that a push produces (R145). -/
def vqBytes (T : Tile) (w : BitVec 64) : Nat :=
  if vqConverts w then 64 * fmtWidth (vqOut w) / 8
  else (effLen T.cur.vl [vlmax (fmtWidth (vFmt w)) (vGrp w)] * fmtWidth (vFmt w) + 7) / 8

/-! ## YIELD (R161) -/

def cropEn (T : Tile) : Bool := T.regs.cropCtrl.getLsbD 0

/-- A YIELD switches where it stands in the crop, or where catch crops are on and the crop is READY. -/
def Tile.mayYield (T : Tile) : Bool := T.active || (cropEn T && T.crop == .ready)

/-! ## Sync gates (R136, R150, R151, R153) -/

/-- Gates of the sync engine on either side. -/
def State.gateSync (s : State) (acc : Bool) (d : Nat) (T : Tile) (q : QEntry) : Bool :=
  let w := q.word
  if yIllegal w then true
  else
    match wOpc w with
    | 0 => !acc || T.fenceOpen
    | 1 => decide (yCount w ≤ (T.flag T.active (yFlag w)).toNat)
    | 2 => !q.dead && decide ((T.sreg T.active (ySs w)).toNat ≤ s.nowAt d)
    | 3 => decide ((s.cd d).notify.length < 16)
    | _ => true

/-! ## The gate of a head, and its issue (R135) -/

/-- The gate of an instruction on either side (R136). An instruction not listed there has an open gate. A
VQPUSH waits for room in the store queue whatever its effective length (DESIGN CHOICE, log entry 153). -/
def State.gate (s : State) (acc : Bool) (d t c : Nat) (T : Tile) (q : QEntry) : Bool :=
  let w := q.word
  match wEng w, wOpc w with
  | 1, _ => s.gateAccess d t c T q
  | 2, 0 => headReady T.oqm && headReady (T.oqm.drop 1)
  | 2, 1 => T.sqRoom (accstBytes (mFmtA w))
  | 3, 10 => headReady T.oqv
  | 3, 11 => T.sqRoom (vqBytes T w)
  | 5, _ => s.gateSync acc d T q
  | 6, 5 => iIllegal w || !T.mayYield || { T with eq := T.eq.drop 1 }.quiet
  | _, _ => true

/-- The stream issues in RUN, and drains in IMEM_FAULT; not while a switch runs, nor while a faulted access is held
(R116). -/
def Tile.issues (T : Tile) : Bool :=
  (T.stream = .run || T.stream = .imemFault) && !T.switching && !T.ops.any (·.held)

def Tile.side (T : Tile) (acc : Bool) : List QEntry := if acc then T.aq else T.eq
def Tile.sideFree (T : Tile) (acc : Bool) : Nat := if acc then T.times.acc else T.times.exec

/-- The head of a side meets R135's three conditions in cycle `c`. -/
def State.canIssue (s : State) (acc : Bool) (d t c : Nat) : Bool :=
  let s1 := s.land d t c
  let T := s1.tile d t
  match T.side acc with
  | [] => false
  | q :: _ => T.issues && decide (T.sideFree acc ≤ c) && decide (q.cycle < c) && s1.gate acc d t c T q

/-- What lets a head go does not come from beyond the tile in a cycle that nothing fixes: the beat of a WAITALM had
come, and a NOTIFY's queue had room and has had it since, when the tile reached its present cycle (R142, R153). -/
def State.sure (s : State) (d t c : Nat) (q : QEntry) : Bool :=
  let now := (s.tile d t).times
  let T := (s.land d t c).tile d t
  !isOp 5 2 q.word && !isOp 5 3 q.word || yIllegal q.word
    || isOp 5 2 q.word && decide ((T.sreg T.active (ySs q.word)).toNat ≤ now.beat)
    || isOp 5 3 q.word && now.room.isSome && now.room == (s.cd d).room

/-- Cycles before `c`, from the one that the tile has reached, each the last before something lands or before `c`:
between two of them no gate shuts. -/
def Tile.lastChances (T : Tile) (c : Nat) : List Nat :=
  let ahead (x : Nat) : Bool := decide (T.times.now < x) && decide (x ≤ c)
  ((c :: T.pend.map (fun p => p.cycle)).filter ahead).map (fun x => x - 1)

/-- A side's head should have issued in a cycle before `c` that the tile has not passed. -/
def State.late (s : State) (acc : Bool) (d t c : Nat) : Bool :=
  let T := s.tile d t
  match T.side acc with
  | [] => false
  | q :: _ => (T.lastChances c).any (fun x => s.canIssue acc d t x && s.sure d t x q)

/-- The tile may go on to cycle `c`: it has not passed it, no event of its own is due before it, and no head should
have issued before it. -/
def State.reached (s : State) (d t c : Nat) : Bool :=
  let T := s.tile d t
  decide (T.times.now ≤ c) && T.clear c && !s.late false d t c && !s.late true d t c

/-- The head of the execute side is a WAIT on this flag that issues in cycle `c`: it tests first (R150). -/
def State.execWaits (s : State) (d t c f : Nat) : Bool :=
  ((s.tile d t).eq.head?.map (fun q => isOp 5 1 q.word && !yIllegal q.word && yFlag q.word == f)).getD false
    && s.canIssue false d t c

/-- Instructions that read the operand queue, the store queue, or the image of an ACCLOAD (R144, R86). -/
def readsQueue (w : BitVec 64) : Bool := isOp 2 0 w || isOp 3 10 w || isOp 1 1 w || isOp 2 3 w

/-- Instructions that read a register, a bank, a slot or a flag: all but NOP and HALT and the words of no engine. -/
def readsRegs (w : BitVec 64) : Bool := wEng w < 6 || (wEng w == 6 && 2 ≤ wOpc w)

/-- What an instruction's reads meet is logged (R392, R397); own SRAM that a load or copy reads is in its own meaning.
-/
def State.met (s : State) (d t : Nat) (q : QEntry) : State :=
  match q.upset with
  | .none => s
  | .register => if readsRegs q.word then s.logTile d t q 0x33 0 else s
  | .memory => if readsQueue q.word then s.logTile d t q 0x41 0 else s

/-- What follows every issue: what its reads have met is logged, and the tile is not still (R159). -/
def State.issued (s : State) (d t : Nat) (q : QEntry) : State := (s.met d t q).stir d t

/-- A side's next issue, in cycle `c`: the head is such a word and issues in the first cycle that R135 allows, behind
every event of the tile up to that cycle; otherwise nothing happens. -/
def State.headIssue (s : State) (acc : Bool) (d t c : Nat) (ok : BitVec 64 → Bool) (run : State → QEntry → State) :
    Out :=
  let s1 := s.land d t c
  let T := s1.tile d t
  match T.side acc with
  | [] => .next s
  | q :: rest =>
    if ok q.word && s.reached d t c && (s.tile d t).clear (c + 1) && s.canIssue acc d t c
        && !(acc && isOp 5 1 q.word && s.execWaits d t c (yFlag q.word)) then
      let T : Tile := if acc then { T with aq := rest, times := { T.times with acc := c + 1 } }
        else { T with eq := rest, times := { T.times with exec := c + 1 } }
      .next ((run (s1.setTile d t T) q).issued d t q)
    else .next s

def State.execHead (s : State) (d t c : Nat) (ok : BitVec 64 → Bool) (run : State → QEntry → State) : Out :=
  s.headIssue false d t c ok run

def State.accHead (s : State) (d t c : Nat) (ok : BitVec 64 → Bool) (run : State → QEntry → State) : Out :=
  s.headIssue true d t c ok run

/-- The next event of the tile's own, due in cycle `c`: it happens unless something comes before it. -/
def State.ownEvent (s : State) (d t c : Nat) (run : State → State) : Out :=
  if s.reached d t c then .next (run (s.land d t c)) else .next s

end Sys2Proof.Machine
end

