-- ==== Sys2Proof/Machine/Transcendental.lean ====
section
/-! DEFINITION. RSQRT and the transcendentals (R124, R125): a value to many bits below the format's
precision, then the correctly rounded result in the 16-bit formats and one of the results within 1 ulp,
chosen by an open constant, in FP64 and FP32. -/
namespace Sys2Proof.Machine

/-- The functions of R124 that are not correctly rounded in every format. -/
inductive TFun where
  | exp | log | sin | cos | tanh | sigmoid | rsqrt
  deriving DecidableEq, Repr

def TFun.num : TFun → Nat
  | .exp => 0
  | .log => 1
  | .sin => 2
  | .cos => 3
  | .tanh => 4
  | .sigmoid => 5
  | .rsqrt => 6

/-! Fixed-point numbers with `p` fraction bits, rounded down. -/

/-- Σ x^k / k! from the k-th term `t` on, `n` terms. -/
def expTail (p : Nat) (x : Nat) : Nat → Nat → Nat → Nat
  | 0, _, _ => 0
  | n + 1, k, t => t + expTail p x n (k + 1) (t * x / 2 ^ p / (k + 1))

/-- e^x for 0 ≤ x < 1. -/
def expFix (p x : Nat) : Nat := expTail p x p 0 (2 ^ p)

/-- Σ y^(2k+1) / (2k+1), from the power `t` = y^(2k+1) on. -/
def atanhTail (p y2 : Nat) : Nat → Nat → Nat → Nat
  | 0, _, _ => 0
  | n + 1, k, t => t / (2 * k + 1) + atanhTail p y2 n (k + 1) (t * y2 / 2 ^ p)

/-- log of m / d for 1 ≤ m / d < 4. -/
def logFix (p m d : Nat) : Nat :=
  let y := (m - d) * 2 ^ p / (m + d)
  2 * atanhTail p (y * y / 2 ^ p) p 0 y

def ln2Fix (p : Nat) : Nat := logFix p 2 1

/-- Terms of arctan(1/k), alternating. -/
def atanInvTail (k2 : Nat) : Nat → Nat → Nat → Int
  | 0, _, _ => 0
  | n + 1, j, t => ((t / (2 * j + 1) : Nat) : Int) - atanInvTail k2 n (j + 1) (t / k2)

def atanInv (p k : Nat) : Int := atanInvTail (k * k) p 0 (2 ^ p / k)

def piFix (p : Nat) : Nat := (16 * atanInv p 5 - 4 * atanInv p 239).toNat

/-- Terms of the sine or cosine series, alternating, from the term `t` of degree `k` on. -/
def trigTail (p x2 : Nat) : Nat → Nat → Nat → Int
  | 0, _, _ => 0
  | n + 1, k, t => (t : Int) - trigTail p x2 n (k + 2) (t * x2 / 2 ^ p / ((k + 1) * (k + 2)))

def sinFix (p x : Nat) : Int := trigTail p (x * x / 2 ^ p) p 1 x
def cosFix (p x : Nat) : Int := trigTail p (x * x / 2 ^ p) p 0 (2 ^ p)

/-- A magnitude `m · 2^e` with p fraction bits, rounded down. -/
def toFix (p m : Nat) (e : Int) : Nat :=
  if 0 ≤ e + p then m * 2 ^ (e + p).toNat else m >>> (-(e + p)).toNat

/-- A result just above `n · 2^(-p)`: sign, magnitude, exponent, and that it is not exact. -/
structure TRes where
  neg    : Bool
  m      : Nat
  e      : Int
  sticky : Bool
  deriving DecidableEq, Repr

/-- Working precision for an argument: fraction bits for what is left below its own size. -/
def workBits (m : Nat) (e : Int) : Nat :=
  let l := leadExp m e
  320 + (if l < 0 then 3 * (-l).toNat else 2 * l.toNat)

/-- e^x for x = ±m·2^e as (n, k): n·2^(k - p) just below the value. -/
def expParts (p : Nat) (neg : Bool) (m : Nat) (e : Int) : Nat × Int :=
  let l2 := ln2Fix p
  let x : Int := if neg then -(toFix p m e : Int) - 1 else toFix p m e
  let k := x / (l2 : Int)
  (expFix p (x % (l2 : Int)).toNat, k)

/-- The value of a function at a finite argument that is no special case of R125. -/
def tValue (f : TFun) (neg : Bool) (m : Nat) (e : Int) : TRes :=
  let big := 20 ≤ leadExp m e
  match f with
  | .exp =>
    if big then (if neg then ⟨false, 1, -5000, true⟩ else ⟨false, 1, 5000, true⟩)
    else
      let p := workBits m e
      let (n, k) := expParts p neg m e
      ⟨false, n, k - p, true⟩
  | .log =>
    let l := leadExp m e
    let p := 400 + Nat.log2 m
    let frac := logFix p m (2 ^ Nat.log2 m)
    let v : Int := l * (ln2Fix p : Int) + frac
    if v < 0 then ⟨true, (-v).toNat - 1, -(p : Int), true⟩ else ⟨false, v.toNat, -(p : Int), true⟩
  | .sin =>
    let p := workBits m e
    let pi := piFix (p + 64) >>> 64
    let half := pi / 2
    let x := toFix p m e
    let q := x / half
    let r := x % half
    let v := if q % 2 = 0 then sinFix p r else cosFix p r
    ⟨neg != (q % 4 == 2 || q % 4 == 3), v.toNat, -(p : Int), true⟩
  | .cos =>
    let p := workBits m e
    let pi := piFix (p + 64) >>> 64
    let half := pi / 2
    let x := toFix p m e
    let q := x / half
    let r := x % half
    let v := if q % 2 = 0 then cosFix p r else sinFix p r
    ⟨q % 4 == 1 || q % 4 == 2, v.toNat - (if leadExp m e < -40 then 1 else 0), -(p : Int), true⟩
  | .tanh =>
    if big then ⟨neg, 2 ^ 400 - 1, -400, true⟩
    else
      let p := workBits m e
      let (n, k) := expParts p false m (e + 1)
      let ex := n * 2 ^ k.toNat
      ⟨neg, (ex - 2 ^ p) * 2 ^ p / (ex + 2 ^ p), -(p : Int), true⟩
  | .sigmoid =>
    if big then (if neg then ⟨false, 1, -5000, true⟩ else ⟨false, 2 ^ 400 - 1, -400, true⟩)
    else
      let p := workBits m e
      let (n, k) := expParts p false m e
      let ex := n * 2 ^ k.toNat
      if neg then
        let w := p + 2 * k.toNat + 64
        ⟨false, 2 ^ (p + w) / (ex + 2 ^ p), -(w : Int), true⟩
      else ⟨false, ex * 2 ^ p / (ex + 2 ^ p), -(p : Int), true⟩
  | .rsqrt =>
    let (m, e) := if e % 2 = 0 then (m, e) else (2 * m, e - 1)
    let k := 200 + Nat.log2 m
    let n := 2 ^ (2 * k) / m
    let r := isqrt n
    ⟨false, r, -(e / 2) - k, r * r * m != 2 ^ (2 * k)⟩

/-- One of the results within 1 ulp (R124): the value rounded down plus 0 or 1 unit, or, where the exact
value is on the grid, one of it and its neighbours. -/
def withinUlp (f : Fmt) (pick : Nat) (r : TRes) : Nat × FpFlags :=
  let q := f.quantum r.m r.e
  let (n, cut) := roundTo .zero false r.m r.e q r.sticky
  let code := f.magCode n q
  let code := if cut then code + pick % 2 else code + pick % 3 - 1
  let inexact := cut || pick % 3 != 1
  let tiny := decide (code < 2 ^ f.fbits)
  if f.maxFin < code then (f.infCode r.neg, fOverflow ||| fInexact)
  else (f.signBit r.neg + code, flagIf inexact fInexact ||| flagIf (inexact && tiny) fUnderflow)

/-- A finite result: correctly rounded in the 16-bit formats, within 1 ulp in the others. -/
def tFinish (fn : TFun) (fmt : Nat) (f : Fmt) (code : Nat) (r : TRes) : Nat × FpFlags :=
  if f.width ≤ 16 then f.round .nearest r.neg r.m r.e r.sticky
  else withinUlp f (Config.ulpPick fn.num fmt code) r

def oneCode (f : Fmt) : Nat := f.bias * 2 ^ f.fbits
def halfCode (f : Fmt) : Nat := (f.bias - 1) * 2 ^ f.fbits

/-- A function of R124 with the special inputs of R125. -/
def tEval (fn : TFun) (fmt code : Nat) : Nat × FpFlags :=
  match fmtOf fmt with
  | none => (0, 0)
  | some f =>
    let v := f.decode code
    match nanResult f [v] with
    | some r => r
    | none =>
      match fn, v with
      | .exp, .inf false => (f.infCode false, 0)
      | .exp, .inf true => (0, 0)
      | .exp, .fin _ 0 _ => (oneCode f, 0)
      | .log, .inf false => (f.infCode false, 0)
      | .log, .inf true => invalidResult f
      | .log, .fin _ 0 _ => (f.infCode true, fDivZero)
      | .log, .fin true _ _ => invalidResult f
      | .sin, .inf _ => invalidResult f
      | .cos, .inf _ => invalidResult f
      | .sin, .fin _ 0 _ => (code, 0)
      | .cos, .fin _ 0 _ => (oneCode f, 0)
      | .tanh, .inf n => (f.signBit n + oneCode f, 0)
      | .tanh, .fin _ 0 _ => (code, 0)
      | .sigmoid, .inf false => (oneCode f, 0)
      | .sigmoid, .inf true => (0, 0)
      | .sigmoid, .fin _ 0 _ => (halfCode f, 0)
      | .rsqrt, .inf false => (0, 0)
      | .rsqrt, .inf true => invalidResult f
      | .rsqrt, .fin n 0 _ => (f.infCode n, fDivZero)
      | .rsqrt, .fin true _ _ => invalidResult f
      | fn, .fin n m e =>
        if fn = .log ∧ code = oneCode f then (0, 0)
        else tFinish fn fmt f code (tValue fn n m e)
      | _, _ => invalidResult f

end Sys2Proof.Machine
end

