-- ==== Sys2Proof/Machine/Operands.lean ====
section
/-! DEFINITION. Operand forms of the vector and reduction engines: fields, effective length, masks and
their checks (R99-R110), and integer arithmetic that the vector and scalar units share (R108, R140). -/
namespace Sys2Proof.Machine

/-- The fields an instruction uses beside ENGINE, OPCODE and TAG. -/
structure Uses where
  func : Bool := true
  vd   : Bool := true
  vs1  : Bool := true
  vs2  : Bool := false
  vs3  : Bool := false
  fmt  : Bool := true
  grp  : Bool := true
  rm   : Bool := false
  mask : Bool := true
  mz   : Bool := true
  ssrc : Bool := false
  deriving DecidableEq, Repr

/-- A field the instruction does not use is not zero (R107, R110). MSK and MZ are used where MEN = 1. -/
def unusedSet (u : Uses) (w : BitVec 64) : Bool :=
  (!u.func && vFunc w != 0) || (!u.vd && vVd w != 0) || (!u.vs1 && vVs1 w != 0)
    || (!u.vs2 && vVs2 w != 0) || (!u.vs3 && vVs3 w != 0) || (!u.fmt && vFmt w != 0)
    || (!u.grp && bits w 27 26 != 0) || (!u.rm && bits w 25 24 != 0)
    || (!u.mask && bits w 23 20 != 0) || (!vMen w && vMsk w != 0)
    || (!(u.mz && vMen w) && vMz w) || (!u.ssrc && vSsrc w) || bits w 17 16 != 0

/-- A group of registers: base and how many. -/
structure Grp where
  base : Nat
  n    : Nat
  deriving DecidableEq, Repr

def Grp.bad (g : Grp) : Bool := g.base % g.n != 0 || decide (8 < g.n)

def Grp.overlaps (a b : Grp) : Bool := decide (a.base < b.base + b.n) && decide (b.base < a.base + a.n)

/-- Overlap that R101 forbids: `exact` says whether the destination may coincide with a source. -/
def overlapBad (exact : Bool) (dst : Grp) (srcs : List Grp) : Bool :=
  srcs.any (fun s => dst.overlaps s && !(exact && s == dst))

/-! ## Effective length and masks (R103, R104) -/

/-- Element e is active: no mask, or its bit is set (R104). -/
def activeIn (w : BitVec 64) (m : BitVec 4096) (e : Nat) : Bool := !vMen w || m.getLsbD e

/-- What is written for an element of the destination: its result, +0, or nothing (R103, R104). -/
def writeOf (w : BitVec 64) (m : BitVec 4096) (n : Nat) (f : Nat → Nat) (e : Nat) : Option Nat :=
  if n ≤ e then none
  else if activeIn w m e then some (f e)
  else if vMz w then some 0
  else none

/-! ## Integers -/

/-- VIA and SIA (R108, R140): codes of `w` bits. -/
def intOp (func w a b : Nat) : Nat :=
  let sa := toSigned w a
  let sb := toSigned w b
  match func with
  | 0 => (a + b) % 2 ^ w
  | 1 => ofSigned w (sa - sb)
  | 2 => (a * b) % 2 ^ w
  | 3 => a &&& b
  | 4 => a ||| b
  | 5 => a ^^^ b
  | 6 => (a <<< (b % w)) % 2 ^ w
  | 7 => (a % 2 ^ w) >>> (b % w)
  | 8 => ofSigned w (sa >>> (b % w))
  | 9 => if sa ≤ sb then a else b
  | 10 => if sa ≤ sb then b else a
  | 11 => if a ≤ b then a else b
  | _ => if a ≤ b then b else a

/-- VICMP and SICMP (R108, R140): EQ NE LT LE LTU LEU. -/
def intCmp (func w a b : Nat) : Bool :=
  let sa := toSigned w a
  let sb := toSigned w b
  match func with
  | 0 => a == b
  | 1 => a != b
  | 2 => decide (sa < sb)
  | 3 => decide (sa ≤ sb)
  | 4 => decide (a < b)
  | _ => decide (a ≤ b)

/-- The comparisons of VCMP and SCMP in FUNC order. -/
def cmpOf (func : Nat) : Cmp :=
  match func with
  | 0 => .eq
  | 1 => .ne
  | 2 => .lt
  | 3 => .le
  | 4 => .gt
  | _ => .ge

/-- Float arithmetic of VFA, functions 0 to 0xC (R108): codes of one format. -/
def faOp (func : Nat) (f : Fmt) (rm : Rm) (a b c : Nat) : Nat × FpFlags :=
  let va := f.decode a
  let vb := f.decode b
  let vc := f.decode c
  let order := [va, vb, vc]
  match func with
  | 0 => addVal f rm va vb
  | 1 => subVal f rm va vb
  | 2 => mulVal f rm va vb
  | 3 => fmaNan f rm va vb vc order
  | 4 => fmaNan f rm va vb (vc.withSign (!vc.neg?)) order
  | 5 => fmaNan f rm (va.withSign (!va.neg?)) vb vc order
  | 6 => maxminVal f true va vb
  | 7 => maxminVal f false va vb
  | 8 => maxminNumVal f true va vb
  | 9 => maxminNumVal f false va vb
  | 10 => (a % f.signBit true, 0)
  | 11 => (if f.signBit true ≤ a then a - f.signBit true else a + f.signBit true, 0)
  | _ => (a % f.signBit true + f.signBit vb.neg?, 0)

end Sys2Proof.Machine
end

