-- ==== Sys2Proof/Machine/Sector.lean ====
section
/-! DEFINITION. Sectors of the stacks under their code (R202, R203, R214-R217, R226), and the corrected write-backs. -/
namespace Sys2Proof.Machine

/-! ## Stacks -/

def MemDie.stk (M : MemDie) (b : Bool) : HbmStack := if b then M.st1 else M.st0

def MemDie.setStk (M : MemDie) (b : Bool) (x : HbmStack) : MemDie :=
  if b then { M with st1 := x } else { M with st0 := x }

/-- Stack number k of the device: stack k mod 2 of MD(k / 2) (R13). -/
def State.stk (s : State) (k : Nat) : HbmStack := (s.md (k / 2)).stk (k % 2 == 1)

def State.setStk (s : State) (k : Nat) (x : HbmStack) : State :=
  s.setMd (k / 2) ((s.md (k / 2)).setStk (k % 2 == 1) x)

def HbmStack.sector (x : HbmStack) (n : Nat) : Sector := Table.get Sector.clean x.sectors n

def HbmStack.setSector (x : HbmStack) (n : Nat) (v : Sector) : HbmStack :=
  { x with sectors := Table.set Sector.clean x.sectors n v }

def HbmStack.bank (x : HbmStack) (n : Nat) : Bank := Table.get Bank.reset x.banks n

def HbmStack.setBank (x : HbmStack) (n : Nat) (v : Bank) : HbmStack :=
  { x with banks := Table.set Bank.reset x.banks n v }

/-- The HBM address of a byte of a stack: the inverse of R29. -/
def hbmAddr (quadLocal : Bool) (k o : Nat) : Nat :=
  if quadLocal then k / 8 * 0x4800000000 + o / 4096 * 2 ^ 15 + k % 8 * 4096 + o % 4096
  else o / 4096 * 2 ^ 17 + k * 4096 + o % 4096

/-! ## Entries and their sectors (R205) -/

/-- The pieces of a range that lie in one block of `w` bytes each: offset in the range, address, length. -/
def blocksOf (w a n : Nat) : List (Nat × Nat × Nat) :=
  if n = 0 then []
  else (List.range ((a + n - 1) / w + 1 - a / w)).map (fun i =>
    let lo := max a (w * (a / w + i))
    let hi := min (a + n) (w * (a / w + i) + w)
    (lo - a, lo, hi - lo))

def sectorsOf (a n : Nat) : List (Nat × Nat × Nat) := blocksOf 64 a n

/-- Every 64-byte sector an entry touches, by number. -/
def BankEntry.sectors (e : BankEntry) : List Nat :=
  (sectorsOf e.addr e.len).map (fun p => p.2.1 / 64)

/-- Bytes of a sector that an entry covers: first and last + 1, within the sector. -/
def BankEntry.span (e : BankEntry) (sec : Nat) : Nat × Nat :=
  (max e.addr (64 * sec) - 64 * sec, min (e.addr + e.len) (64 * sec + 64) - 64 * sec)

def BankEntry.covers (e : BankEntry) (sec : Nat) : Bool := e.span sec == (0, 64)

/-- A byte of a sector lies in what one of these writes covers. -/
def byteWritten (l : List BankEntry) (sec i : Nat) : Bool :=
  l.any (fun e => e.write && !e.wb && e.sectors.contains sec && decide ((e.span sec).1 ≤ i)
    && decide (i < (e.span sec).2))

/-- Sectors of a stack. -/
def sectorsPerStack : Nat := 0x24000000

/-- Faults that have come about in a stack's cells: symbols that are wrong, by sector, and bursts that its on-die ECC
reports, by number in the stack. Whatever reads the sector next meets them (R214, R217). -/
def HbmStack.decay (x : HbmStack) (errs : List (Nat × Nat)) (odecc : List Nat) : HbmStack :=
  let x := (errs.filter (fun e => decide (e.1 < sectorsPerStack))).foldl (fun x e =>
    let v := x.sector e.1
    x.setSector e.1 { v with bad := v.bad + e.2 }) x
  (odecc.filter (fun b => decide (b / 2 < sectorsPerStack))).foldl (fun x b =>
    let v := x.sector (b / 2)
    if v.odecc.contains (b % 2) then x else x.setSector (b / 2) { v with odecc := v.odecc ++ [b % 2] }) x

/-! ## The sector code -/

/-- What a read of a sector delivers. -/
inductive Decoded where
  | clean
  | corrected
  /-- miscorrected: the bytes are a free value's (R214) -/
  | wrong (k : Nat)
  | dead
  deriving DecidableEq, Repr

/-- Bytes of a sector take what a miscorrection made of them, but for those that a write has replaced since. -/
def State.miscorrect (s : State) (k sec f : Nat) (kept : Nat → Bool) : State :=
  { s with mem := (List.range 64).foldl (fun m i =>
      if kept i then m else Table.set 0 m (hbmKey k (64 * sec) + i) (Config.miscorrect f i)) s.mem }

/-- A corrected write-back enters the bank's queue, or waits for a place there, unless a write to the sector was
admitted after the read (R216): one of those in `later`, which go with the read, or one in the queue. Like every write
it is visible from its admission on (R209). -/
def State.writeBack (s : State) (k sec : Nat) (d : Decoded) (later : List BankEntry) : State :=
  let M := s.md (k / 2)
  let x := s.stk k
  let b := bankNo (64 * sec)
  let q := x.bank b
  let newer := (later ++ q.queue).any (fun e => e.write && e.sectors.contains sec)
  let there := q.back.any (fun e => e.addr == 64 * sec)
  if newer || there then s
  else
    let e : BankEntry := ⟨M.nextSeq, .agent 0 0, 64 * sec, 64, true, true, true, false, M.clock, M.cfg⟩
    let q := if q.queue.length < 256 then { q with queue := q.queue ++ [e] } else { q with back := q.back ++ [e] }
    let s := s.setStk k (x.setBank b q)
    match d with
    | .wrong f => s.miscorrect k sec f (fun _ => false)
    | _ => s

/-- On-die reports of a sector's bursts: each counted, and logged with the burst's address (R217). -/
def State.reportBursts (s : State) (k sec : Nat) (l : List Nat) : State :=
  let m := k / 2
  l.foldl (fun s b =>
    let M := s.md m
    let s := s.setMd m { M with odecc := satInc 0xFFFF M.odecc }
    s.logErr (blkMd m)
      { code := 0x44, src := 13, unit := k % 2, addr := hbmAddr s.fabric.quadLocal k (64 * sec + 32 * b) })
    s

/-- A corrected read is counted, and logged for each sector once in a pass (R215). -/
def State.countCorrected (s : State) (k sec : Nat) : State :=
  let m := k / 2
  let M := s.md m
  let s := s.setMd m { M with ce := satInc 0xFFFFFFFF M.ce }
  let x := s.stk k
  let v := x.sector sec
  let x := { x with rowCorr := Table.set 0 x.rowCorr (sec / 16) (Table.get 0 x.rowCorr (sec / 16) + 1) }
  let s := s.setStk k (x.setSector sec { v with corrected := true })
  if v.corrected then s
  else
    s.logErr (blkMd m) { code := 0x40, src := 13, unit := k % 2, addr := hbmAddr s.fabric.quadLocal k (64 * sec) }

/-- An uncorrectable read is counted, recorded and logged, and its sector poisoned (R215). -/
def State.countDead (s : State) (k sec : Nat) (scrub : Bool) : State :=
  let m := k / 2
  let M := s.md m
  let rec1 : BitVec 64 := BitVec.ofNat 64 (2 ^ 63 + natOf scrub * 2 ^ 62 + k % 2 * 2 ^ 61 + 64 * sec % 2 ^ 36)
  let s := s.setMd m { M with
    ue := satInc 0xFFFF M.ue
    first := if M.first.getLsbD 63 then M.first else rec1 }
  let x := s.stk k
  let s := s.setStk k (x.setSector sec { x.sector sec with poison := true, bad := 0 })
  s.logErr (blkMd m) { code := 0x41, src := 13, unit := k % 2, addr := hbmAddr s.fabric.quadLocal k (64 * sec) }

/-- One read of a sector (R214, R215, R217). `back` says whether what it corrects is written back; `later` are the
entries behind it that are out of the queue already. -/
def State.decodeSector (s : State) (k sec : Nat) (scrub back : Bool) (later : List BankEntry) : State × Decoded :=
  let v := (s.stk k).sector sec
  let s := s.reportBursts k sec v.odecc
  let corrected (s : State) (d : Decoded) : State × Decoded :=
    let s := s.countCorrected k sec
    (if back then s.writeBack k sec d later else s, d)
  if v.poison then (s.countDead k sec scrub, .dead)
  else if v.bad = 0 then (s, .clean)
  else if v.bad = 1 then corrected s .corrected
  else
    let (f, s) := if v.bad < 3 then (0, s) else s.take
    if 3 ≤ v.bad ∧ !Config.sectorDetect f then corrected s (.wrong f)
    else (s.countDead k sec scrub, .dead)

/-- A sector's data is written with fresh check symbols; where one of these writes was admitted after the sector was
armed, with the armed symbols inverted (R226). -/
def HbmStack.stored (x : HbmStack) (sec : Nat) (l : List BankEntry) : HbmStack :=
  let v := x.sector sec
  let clean : Sector := { v with poison := false, bad := 0, injected := false, odecc := [] }
  x.setSector sec (match v.armed with
    | some a =>
      if l.any (fun e => decide (a.since ≤ e.seq)) then
        { clean with bad := a.symbols, armed := none, injected := true }
      else clean
    | none => clean)

/-- Any write to a sector drops a corrected write-back of older data (R216). -/
def HbmStack.dropBack (x : HbmStack) (sec : Nat) : HbmStack :=
  let b := bankNo (64 * sec)
  let q := x.bank b
  let old (e : BankEntry) : Bool := e.wb && e.addr == 64 * sec
  x.setBank b { q with queue := q.queue.filter (fun e => !old e), back := q.back.filter (fun e => !old e) }

end Sys2Proof.Machine
end

