-- ==== Sys2Proof/Machine/Access.lean ====
section
/-! DEFINITION. The access engine's instructions (R114-R117, R139, R141, R144-R149, R151, R152): faults, requests and
their slots, own tile SRAM through port A, issue, completion and restart. -/
namespace Sys2Proof.Machine

/-! ## Faults (R116, R128) -/

/-- Element and field of a byte of a request, and the address of that element (R116, R128, R149). -/
def AccOp.byteAt (o : AccOp) (g : Seg) (off : Nat) : Nat × Nat × BitVec 64 :=
  if wOpc o.word = 2 ∨ xForm o.word = 3 then
    let p := g.pos + off
    (p / 64, 0, g.addr + BitVec.ofNat 64 (off - off % 64))
  else if xForm o.word = 0 then
    let w := xWidth o.word
    let nf := xNf o.word
    let i := if w = 4 then 2 * (g.pos + off) else (g.pos + off) / (w / 8)
    let i := if w = 4 ∧ !o.active (i / nf) then i + 1 else i
    let back := if w = 4 then 0 else (g.pos + off) % (w / 8)
    (i / nf, i % nf, g.addr + BitVec.ofNat 64 (off - back))
  else
    let k := off / elemBytes o.word
    (g.elem + k, g.field, g.addr + BitVec.ofNat 64 (k * elemBytes o.word))

/-- The lowest element whose response carried an error. -/
def AccOp.worst (o : AccOp) : Option (Nat × Nat × Nat × BitVec 64) :=
  o.segs.foldl (fun b g =>
    match g.state with
    | .failed code off =>
      let (e, f, a) := o.byteAt g off
      (match b with
       | some (_, e', f', _) => if e < e' ∨ (e = e' ∧ f < f') then some (code, e, f, a) else b
       | none => some (code, e, f, a))
    | _ => b) none

/-- A slot of an instruction that no longer waits for it. -/
def lostSeg : Nat := 0x100000

/-- The instruction and every later one that has not completed are held; they keep no data, their queue
places stay reserved and their store-queue blocks go back. -/
def Tile.holdFrom (T : Tile) (count : BitVec 64) : Tile :=
  let after := T.ops.dropWhile (fun o => o.count != count)
  let fresh := after.filter (fun o => !o.held)
  let back := fresh.flatMap (·.taken)
  let ids := fresh.flatMap (·.blocks)
  let wipe (l : List OqBlock) : List OqBlock := l.map (fun b =>
    if ids.contains b.id then { b with readyAt := none, ready := false, data := [] } else b)
  let held := fresh.map (·.count)
  { T with
    ops := T.ops.map (fun o => if held.contains o.count then { o with held := true, segs := [], taken := [] } else o)
    oqm := wipe T.oqm
    oqv := wipe T.oqv
    sq := back ++ T.sq
    slots := (T.slots.filter (fun e => !(held.contains e.2.count && decide (2 ≤ e.2.stage)))).map (fun e =>
      if held.contains e.2.count then (e.1, { e.2 with seg := lostSeg }) else e)
    pend := dropLoads held.contains T.pend }

def vxRecord (o : AccOp) (code elem field : Nat) : BitVec 64 :=
  BitVec.ofNat 64 (bits o.count 31 0 * 2 ^ 32 + 2 ^ 31 + natOf o.ctx * 2 ^ 30 + field % 4 * 2 ^ 28
    + code % 256 * 2 ^ 20 + elem % 8192)

/-- A cancelled instruction meets a fault of its own: logged once with NESTED = 1, the record unchanged (R116, R128). -/
def State.nestedAt (s : State) (d t : Nat) (count : BitVec 64) (code : Nat) (addr : BitVec 64) : State :=
  let T := s.tile d t
  match T.ops.find? (fun o => o.count == count && o.held && !o.nested) with
  | some o =>
    let ops := T.ops.map (fun x => if x.count = count then { x with nested := true } else x)
    (s.setTile d t { T with ops := ops }).logErr d
      { code := code, src := 2, unit := t, ctx := o.ctx, icount := bits o.count 31 0, addr := addr.toNat
        again := true }
  | none => s

/-- The instructions behind the faulting one that have met an error response and waited for others when they are
cancelled. -/
def State.nestedBehind (s : State) (d t : Nat) (count : BitVec 64) (before : List AccOp) : State :=
  before.foldl (fun s o =>
    match o.worst with
    | some (code, _, _, a) => if o.count = count ∨ o.held then s else s.nestedAt d t o.count code a
    | none => s) s

/-- A fault of an access instruction: the stream stops issuing, whether it runs or drains behind a fetch fault. -/
def State.accFault (s : State) (d t : Nat) (o : AccOp) (code elem field : Nat) (addr : BitVec 64) : State :=
  let T := s.tile d t
  let behind := T.ops.dropWhile (fun x => x.count != o.count)
  let valid := T.regs.vxFault.getLsbD 31
  let stops := T.stream == .run || T.stream == .imemFault
  let T := T.holdFrom o.count
  let T : Tile := { T with
    stream := if stops then .faultHold else T.stream
    regs := if valid then T.regs else { T.regs with vxFault := vxRecord o code elem field, vxAddr := addr } }
  ((s.setTile d t T).logErr d
    { code := code, src := 2, unit := t, ctx := o.ctx, icount := bits o.count 31 0, addr := addr.toNat
      hold := stops, again := valid }).nestedBehind d t o.count behind

/-! ## Requests -/

/-- Neighbouring pieces joined into requests of up to `most` bytes of one 256-byte segment (R148). -/
def joinPieces (copy : Bool) (most : Nat) : List Piece → List Piece
  | [] => []
  | p :: l =>
    match joinPieces copy most l with
    | [] => [p]
    | q :: r =>
      if p.addr + BitVec.ofNat 64 p.n = q.addr ∧ p.pos + p.n = q.pos ∧ p.n + q.n ≤ most
          ∧ p.half = none ∧ q.half = none ∧ p.addr.toNat / 256 = q.addr.toNat / 256
          ∧ (!copy || p.dst.toNat / 256 = q.dst.toNat / 256) then
        { p with n := p.n + q.n } :: r
      else p :: q :: r

/-- The requests of an instruction. Up to 4 elements of a strided or indexed form share a slot; the model lets those do
so that follow each other in memory (DESIGN CHOICE, log entry 122). -/
def AccOp.requests (o : AccOp) (l : List Piece) : List Piece :=
  if wOpc o.word = 2 then joinPieces true 256 l
  else if (wOpc o.word = 0 ∨ wOpc o.word = 1) ∧ (xForm o.word = 1 ∨ xForm o.word = 2) then
    joinPieces false (4 * elemBytes o.word) l
  else joinPieces false 256 l

/-- When two active elements of a scatter name one address, the higher one's value stands (R115). -/
def lastOnly : List Piece → List Piece
  | [] => []
  | p :: l => if l.any (fun q => q.addr == p.addr) then lastOnly l else p :: lastOnly l

/-- Bytes of a store as it stands in its image (R114, R145). A half of a byte that no active element has is a free
value, which only a request that leaves the device carries (log entry 6). -/
def AccOp.storeImage (o : AccOp) (k : Nat) : Array Byte :=
  if wOpc o.word = 4 then (leBytes 8 o.s3.toNat).toArray
  else if xForm o.word = 3 then (o.taken.flatMap (·.data)).toArray
  else
    let w := xWidth o.word
    let nf := xNf o.word
    let fields := (o.taken.map (fun b => (unpackCodes w b.data).toArray)).toArray
    let code (i : Nat) : Nat := (fields.getD (i % nf) #[]).getD (i / nf) 0
    let half (b i : Nat) : Nat :=
      if i < o.len * nf && o.active (i / nf) then code i else Config.halfByte k b % 16
    if xForm o.word = 0 then
      if w = 4 then
        ((List.range ((o.len * nf + 1) / 2)).map (fun b =>
          BitVec.ofNat 8 (half b (2 * b) + 16 * half b (2 * b + 1)))).toArray
      else ((List.range (o.len * nf)).flatMap (fun i => leBytes (w / 8) (code i))).toArray
    else
      ((List.range o.len).flatMap (fun e =>
        if w = 4 then [BitVec.ofNat 8 (code e + 16 * (Config.halfByte k e % 16))]
        else leBytes (w / 8) (code e))).toArray

def sliceOf (a : Array Byte) (pos n : Nat) : List Byte := (List.range n).map (fun i => a.getD (pos + i) 0)

/-- The blocks that a load delivers, from what its requests have read (R114). -/
def AccOp.loadBlocks (o : AccOp) : List (List Byte) :=
  let size := o.segs.foldl (fun m g => max m (g.pos + g.len)) 0
  let img := o.segs.foldl (fun (a : Array Byte) g =>
    g.data.zipIdx.foldl (fun a e => a.setIfInBounds (g.pos + e.2) e.1) a)
    (Array.replicate size (0 : Byte))
  if xForm o.word = 3 then [sliceOf img 0 (rowsOf o.s3 * rowBytes o.s3)]
  else
    let w := xWidth o.word
    let nf := xNf o.word
    let n := elemBytes o.word
    let codeAt (i : Nat) : Nat :=
      if w = 4 then
        if xForm o.word = 0 then ((img.getD (i / 2) 0).toNat >>> (4 * (i % 2))) % 16
        else (img.getD i 0).toNat % 16
      else ofLe (sliceOf img (i * n) n)
    (List.range nf).map (fun f =>
      packCodes w ((List.range o.len).map (fun e => if o.active e then codeAt (e * nf + f) else 0)))

def reqOf (d t slot : Nat) : Requester := .tile (Fin.ofNat 32 d) (Fin.ofNat 144 t) slot

/-- The banks, one for each entry, that a request for a device-local address loads. -/
def State.localLoad (s : State) (a len : Nat) : List Nat :=
  match s.locate a with
  | .hbm k o => (entriesOf o len).map (fun e => k * 4096 + e.1)
  | _ => []

/-- The banks that a request loads in the memory dies of this device. -/
def State.bankLoad (s : State) (ga : BitVec 64) (len : Nat) : List Nat :=
  match s.route ga with
  | .here a => s.localLoad a len
  | _ => []

/-- The banks that a request on its way, or one to be sent again, is about to load. -/
def State.slotLoad (s : State) (d t k : Nat) (u : SlotUse) : List Nat :=
  let again := s.fabric.resp.any (fun r => r.retry && r.who == reqOf d t k)
  if u.kind = 6 ∨ u.stage = 2 ∨ (u.stage = 1 ∧ !again) then [] else s.bankLoad u.addr u.len

/-- Requests of one tile, or of one other die. -/
def sameSide : Requester → Requester → Bool
  | .tile d t _, .tile d' t' _ => d == d' && t == t'
  | .agent b _, .agent b' _ => b == b'
  | _, _ => false

/-- Entries of a requester's side in a bank's queue, and what its requests in the hold will make. -/
def State.sideEntries (s : State) (who : Requester) (b : Nat) : Nat :=
  let q := Table.get Bank.reset (((s.md (b / 4096 / 2)).stk (b / 4096 % 2 == 1)).banks) (b % 4096)
  (q.queue.filter (fun e => !e.wb && sameSide who e.who)).length
    + ((q.hold.filter (fun r => sameSide who r.who)).flatMap (fun r =>
        (entriesOf (hbmLoc s.fabric.quadLocal r.addr.toNat).2 r.len).filter (fun e => e.1 == b % 4096))).length

/-- R206: no bank queue takes more than 32 entries of one tile; those of acknowledged writes count until they are
served. -/
def State.bankRoom (s : State) (d t : Nat) (ga : BitVec 64) (len : Nat) : Bool :=
  let new := s.bankLoad ga len
  let old := (s.tile d t).slots.flatMap (fun e => s.slotLoad d t e.1 e.2)
  new.all (fun b => decide (s.sideEntries (reqOf d t 0) b + old.count b + new.count b ≤ 32))

/-- R206: every other die keeps to 32 entries in a bank in its own request logic. -/
def State.agentRoom (s : State) (r : MemReq) : Bool :=
  let new := s.localLoad r.addr.toNat r.len
  match r.who with
  | .tile _ _ _ => true
  | .agent _ _ => new.all (fun b => decide (s.sideEntries r.who b + new.count b ≤ 32))

def putSlot (t : Table SlotUse) (k : Nat) (v : SlotUse) : Table SlotUse := Table.put (Table.erase t k) k v

/-- Write access: AST, ASTS, and the second half of a copy. -/
def AccOp.writes (o : AccOp) : Bool := wOpc o.word = 1 || wOpc o.word = 4

/-- A request toward another device is left for a link die (R282). -/
def State.sendAway (s : State) (who : Requester) (ptype : Nat) (ga : BitVec 64) (arg : BitVec 64)
    (len : Nat) (data : List Byte) : State :=
  match s.route ga with
  | .there c a =>
    { s with net := { s.net with waiting := s.net.waiting ++
        [⟨who, c, BitVec.ofNat 6 ptype, BitVec.ofNat 48 a, arg, len, data⟩] } }
  | _ => s

/-- A signal leaves: within the device, or as a SIGNAL packet whose ARG is the descriptor and whose LEN
carries no payload; the count travels in ADDR. -/
def State.sendSignal (s : State) (who : Option Requester) (desc : BitVec 64) (count : Nat) : State :=
  if sigHere s desc then
    { s with fabric := { s.fabric with sigs := s.fabric.sigs ++
        [⟨who, sigDie desc, sigTile desc, desc.getLsbD 26, bits desc 5 0, count % 65536, none⟩] } }
  else
    s.sendAway (who.getD (.agent 0 0)) 6 ((desc &&& 0xFFFF000000000000) ||| BitVec.ofNat 64 (count % 65536))
      desc 0 []

/-- The request that a slot carries leaves, toward this device or another. -/
def State.sendSlot (s : State) (d t k : Nat) (u : SlotUse) : State :=
  let who := reqOf d t k
  if u.kind = 6 then s.sendSignal (some who) u.addr u.len
  else s.sendAway who u.kind u.addr 0 u.len u.data

/-- The request of a segment, on its way: what it asks, the cycle in which it is made, and its place in the order of
the device's requests. -/
def State.slotOf (s : State) (o : AccOp) (i : Nat) (kind : Nat) (addr : BitVec 64) (len : Nat) (data : List Byte)
    (half : Option Bool) (made : Nat) : SlotUse :=
  { count := o.count, seg := i, kind := kind, addr := addr, len := len, data := data, half := half, stage := 0
    made := made, seq := s.fabric.issued, age := s.alm.total }

/-- One waiting request leaves on a free slot in cycle `c` or, behind another of the tile, in a later one. A segment
that a copy reads from own SRAM takes its slot at its write request (R148). -/
def State.sendSeg (s : State) (d t c : Nat) (o : AccOp) (i : Nat) (g : Seg) (k : Nat) : State :=
  let T := s.tile d t
  let made := max c T.times.req
  let own := if wOpc o.word = 2 then placeOff (s.placeOf d t g.addr) else none
  let (st, u) : SegState × SlotUse :=
    match own with
    | some off => (.written k, s.slotOf o i 1 g.dst g.len (((s.settle d t made).tile d t).readSram off g.len) none made)
    | none =>
      if wOpc o.word = 5 then (.sent k, s.slotOf o i 6 g.addr (bits o.s2 15 0) [] none made)
      else if o.writes then (.sent k, s.slotOf o i 1 g.addr g.len g.data g.half made)
      else (.sent k, s.slotOf o i 2 g.addr g.len [] none made)
  let T : Tile := { T with
    times := { T.times with req := made + 1 }
    slots := putSlot T.slots k u
    ops := T.ops.map (fun x =>
      if x.count = o.count then { x with segs := updAt x.segs i (fun g => { g with state := st }) } else x) }
  let s := { s with fabric := { s.fabric with issued := s.fabric.issued + 1 } }
  (s.setTile d t T).sendSlot d t k u

/-- A tile's own request, as it may arrive at the memory or mesh it names: an open path leads there, and none that was
issued before it to the same sector is still on its way (R17, R18). Other dies' requests come from outside this part of
the model. -/
def State.requestIs (s : State) (r : MemReq) : Bool :=
  match r.who with
  | .agent _ _ => true
  | .tile d t k =>
    match Table.find (s.tile d.val t.val).slots k with
    | none => false
    | some u =>
      (match s.route u.addr with
       | .here a => a == r.addr.toNat
       | _ => false)
      && u.stage == 0 && u.kind == (if r.write then 1 else 2) && u.len == r.len && u.half == r.half && u.age == r.age
      && (!r.write || u.data == r.data)
      && (match s.targetOf r.addr.toNat with
          | some (b, tile) => b == d.val || ((s.path d.val b tile).isSome && s.inOrder d.val u)
          | none => true)

/-- A tile's request that its target has taken is on its way no longer. -/
def State.setStage (s : State) (who : Requester) (n : Nat) : State :=
  match who with
  | .agent _ _ => s
  | .tile d t k =>
    let T := s.tile d.val t.val
    match Table.find T.slots k with
    | some u => s.setTile d.val t.val { T with slots := putSlot T.slots k { u with stage := n } }
    | none => s

/-- The first request that waits, of the oldest instruction that has one. -/
def firstWaiting : List AccOp → Option (AccOp × Nat × Seg)
  | [] => none
  | o :: l =>
    if o.held then none
    else
      match o.segs.zipIdx.find? (fun e => e.1.state == .waiting) with
      | some (g, i) => some (o, i, g)
      | none => firstWaiting l

/-- Requests leave in order, one a cycle from cycle `c` on, while slots and bank places last. -/
def State.pumpN (s : State) (d t c : Nat) : Nat → State
  | 0 => s
  | n + 1 =>
    let T := s.tile d t
    match firstWaiting T.ops, T.freeSlot with
    | some (o, i, g), some k =>
      let target := if wOpc o.word = 2 ∧ (placeOff (s.placeOf d t g.addr)).isSome then g.dst else g.addr
      if wOpc o.word = 5 || s.bankRoom d t target g.len then (s.sendSeg d t c o i g k).pumpN d t c n else s
    | _, _ => s

/-- Writes of copies that waited for bank places leave in slot order. -/
def State.unpark (s : State) (d t : Nat) : State :=
  (List.range 48).foldl (fun s k =>
    let T := s.tile d t
    match Table.find T.slots k with
    | some u =>
      if u.stage = 2 && s.bankRoom d t u.addr u.len then
        let u := { u with stage := 0, seq := s.fabric.issued }
        let s := { s with fabric := { s.fabric with issued := s.fabric.issued + 1 } }
        (s.setTile d t { T with slots := putSlot T.slots k u }).sendSlot d t k u
      else s
    | none => s) s

def State.pump (s : State) (d t c : Nat) : State := (s.unpark d t).pumpN d t c 48

/-! ## Starting an instruction -/

def Tile.putOp (T : Tile) (o : AccOp) : Tile :=
  { T with ops := T.ops.map (fun x => if x.count = o.count then o else x) }

/-- A load all of whose requests are done delivers its blocks, ready from cycle `r` on, in which it completes (R116,
R144, R151). -/
def Tile.deliver (T : Tile) (o : AccOp) (r : Nat) : Tile :=
  let out := o.blocks.zip o.loadBlocks
  let give (l : List OqBlock) : List OqBlock := l.map (fun b =>
    match out.find? (fun e => e.1 == b.id) with
    | some (_, x) => { b with readyAt := some r, data := x }
    | none => b)
  { T.putOp { o with due := r } with oqm := give T.oqm, oqv := give T.oqv }

/-- Occupancy of port A in cycles (R147, R148). -/
def portCycles (o : AccOp) (own : List Piece) : Nat :=
  let b := (own.map (·.n)).sum
  if wOpc o.word = 3 ∨ wOpc o.word = 4 then 1
  else if (wOpc o.word = 0 ∨ wOpc o.word = 1) ∧ (xForm o.word = 1 ∨ xForm o.word = 2) then (own.length + 7) / 8
  else (b + 255) / 256

/-- The segment of a request: own SRAM is served at once, `T` being the tile as the reads of the cycle see it. -/
def State.segOf (s : State) (d t : Nat) (T : Tile) (o : AccOp) (img : Array Byte) (ownBoth : Bool) (p : Piece) : Seg :=
  let base : Seg := { addr := p.addr, len := p.n, pos := p.pos, elem := p.elem, field := p.field
                      dst := p.dst, half := p.half, state := .waiting, data := [] }
  if ownBoth then { base with state := .done }
  else
    match placeOff (s.placeOf d t p.addr), wOpc o.word == 2 with
    | some off, false =>
      if o.writes then { base with state := .done } else { base with state := .done, data := T.readSram off p.n }
    | _, _ => if o.writes then { base with data := sliceOf img p.pos p.n } else base

/-- No request of the instruction is out or waits to leave. -/
def AccOp.settled (o : AccOp) : Bool :=
  o.segs.all (fun g => match g.state with
    | .done => true
    | .failed _ _ => true
    | _ => false)

/-- The first read of own SRAM fails where the instruction meets an error there (R392). -/
def State.spoil (s : State) (d t : Nat) (o : AccOp) (segs : List Seg) : List Seg :=
  match segs.findIdx? (fun g => o.upset && !o.writes && (placeOff (s.placeOf d t g.addr)).isSome) with
  | some i => updAt segs i (fun g => { g with state := .failed 0x41 0 })
  | none => segs

/-- What a store or a copy within own SRAM will write in cycle `due`. -/
def State.ownWrite (s : State) (d t due : Nat) (view : Tile) (o : AccOp) (img : Array Byte) (ownBoth : Bool) (T : Tile)
    (p : Piece) : Tile :=
  match placeOff (s.placeOf d t p.addr) with
  | none => T
  | some off =>
    if o.writes then
      (match p.half with
       | some hi =>
         let b := ofLe (sliceOf img p.pos 1)
         T.addPend o.count due (.sramHalf off hi (if hi then b / 16 else b % 16))
       | none => T.addPend o.count due (.sram off (sliceOf img p.pos p.n)))
    else if ownBoth then
      (match placeOff (s.placeOf d t p.dst) with
       | some dest => T.addPend o.count due (.sram dest (view.readSram off p.n))
       | none => T)
    else T

/-- The instruction, already in the list, runs from its first element in cycle `c`: every address is
checked, own SRAM is read or its writes are set to land, and the rest becomes requests (R116). -/
def State.startOp (s : State) (d t c : Nat) (o : AccOp) : State :=
  let pieces := o.pieces
  match s.firstBad d t o pieces with
  | some (code, e, f, a) => s.accFault d t o code e f a
  | none =>
    let (k, s) := if wOpc o.word = 1 && xWidth o.word == 4 then s.take else (0, s)
    let T := s.tile d t
    let view := (s.settle d t c).tile d t
    let isCopy := wOpc o.word == 2
    let joined := o.requests (if wOpc o.word = 1 ∧ xForm o.word = 2 then lastOnly pieces else pieces)
    let img := if o.writes then o.storeImage k else #[]
    let own (a : BitVec 64) : Bool := (placeOff (s.placeOf d t a)).isSome
    let ownBoth := isCopy && joined.all (fun p => own p.addr && own p.dst)
    let here := pieces.filter (fun p => own p.addr || (isCopy && own p.dst))
    let p := if here.isEmpty then 0 else if ownBoth then 2 * portCycles o here else portCycles o here
    let x := if here.isEmpty then c else max c T.times.portA
    let due := if here.isEmpty then c else x + 5 + p
    let segs := s.spoil d t o (joined.map (s.segOf d t view o img ownBoth))
    let o : AccOp := { o with segs := segs, due := due, held := false, nested := false }
    let T := if o.worst.isSome then T else joined.foldl (s.ownWrite d t due view o img ownBoth) T
    let T := if wOpc o.word = 3 ∧ o.worst.isNone then
        T.addPend o.count due (.loadS o.count o.ctx (xSy o.word) (BitVec.ofNat 64 (ofLe (segs.flatMap (·.data)))))
      else T
    let T := T.putOp o
    let T := if wOpc o.word = 0 ∧ o.allDone then T.deliver o due else T
    let s := s.setTile d t { T with times := { T.times with portA := if here.isEmpty then T.times.portA else x + p } }
    match o.worst with
    | some (code, e, f, a) => if o.settled then s.accFault d t o code e f a else s
    | none => s

/-- An ASIG, already in the list, runs: its increment on an own flag lands a cycle later; any other takes a
slot (R148, R152). -/
def State.startSig (s : State) (d t c : Nat) (o : AccOp) : State :=
  match s.sigFault o.s1 with
  | some code => s.accFault d t o code 0 0 o.s1
  | none =>
    let T := s.tile d t
    if s.sigOwn d t o.s1 then
      let T := T.putOp { o with due := c + 1, held := false }
      s.setTile d t (T.addPend o.count (c + 2) (.flagInc (o.s1.getLsbD 26) (bits o.s1 5 0) (bits o.s2 15 0)))
    else
      let g : Seg := { addr := o.s1, len := 0, pos := 0, elem := 0, field := 0, dst := 0, half := none
                       state := .waiting, data := [] }
      s.setTile d t (T.putOp { o with segs := [g], held := false })

def State.startAny (s : State) (d t c : Nat) (o : AccOp) : State :=
  if wOpc o.word = 5 then s.startSig d t c o else s.startOp d t c o

/-- Instruction and every cancelled one run again from their first element, in issue order (R116). A store
takes its blocks from the store queue again. -/
def State.rerun (s : State) (d t c : Nat) : List AccOp → State
  | [] => s
  | o :: l =>
    let T := s.tile d t
    if T.ops.any (fun x => x.held && x.count.toNat < o.count.toNat) then s
    else
      let n := if wOpc o.word = 1 then xNf o.word else 0
      let o := { o with taken := T.sq.take n, held := false }
      let T := ({ T with sq := T.sq.drop n } : Tile).putOp o
      ((s.setTile d t T).startAny d t c o).rerun d t c l

def State.restartOps (s : State) (d t : Nat) : State :=
  let T := s.tile d t
  let held := T.ops.filter (·.held)
  let s := s.setTile d t { T with ops := T.ops.map (fun o =>
    if o.held then { o with segs := [], taken := [] } else o) }
  (s.rerun d t T.times.now held).pump d t T.times.now

/-! ## Issue -/

/-- An instruction that carries FLAGEN adds 1 to its flag one cycle after it completes (R151). -/
def Tile.flagOn (T : Tile) (o : AccOp) (done : Nat) : Tile :=
  if xFlagEn o.word then T.addPend o.count (done + 2) (.flagInc o.ctx (xFlag o.word) 1) else T

def State.aldIssue (s : State) (d t c : Nat) (q : QEntry) : State :=
  let T := s.tile d t
  let w := q.word
  if 7 ≤ wOpc w then s.skip d t q 0x01
  else
    match vecFormCode T w with
    | some code => (s.setTile d t (T.addOqHoles (xDest w) q.count (xNf w))).skip d t q code
    | none =>
      let o := accOpOf T q c
      if emptyLen T w then s.setTile d t (T.flagOn o c)
      else
        let sizes := blockSizes T w
        let new : List OqBlock := sizes.zipIdx.map (fun e =>
          ⟨T.nextId + e.2, q.count, e.1, false, none, false, []⟩)
        let o := { o with blocks := new.map (·.id) }
        let T := T.setOq (xDest w) (T.oq (xDest w) ++ new)
        let T : Tile := { T with nextId := T.nextId + new.length, ops := T.ops ++ [o] }
        ((s.setTile d t T).startOp d t c o).pump d t c

/-- R114, R141, R144; and every reserved opcode of the access engine (R157). -/
def execAld (d : Fin 32) (t : Fin 144) (c : Nat) (s : State) : Out :=
  s.accHead d.val t.val c (isOpOr 1 0 7) (fun s q => s.aldIssue d.val t.val c q)

def State.astIssue (s : State) (d t c : Nat) (q : QEntry) : State :=
  let T := s.tile d t
  let w := q.word
  let blocks := T.sq.take (astTakes w)
  let popped : Tile := { T with sq := T.sq.drop (astTakes w) }
  match vecFormCode T w with
  | some code => (s.setTile d t popped).skip d t q code
  | none =>
    let o := accOpOf T q c
    if emptyLen T w then s.setTile d t (T.flagOn o c)
    else if blocks.any (·.hole) then (s.setTile d t (popped.flagOn o c)).logTile d t q 0x13 0
    else if blocks.map (·.size) != blockSizes T w then (s.setTile d t popped).skip d t q 0x11
    else
      let o := { o with taken := blocks }
      let T : Tile := { popped with ops := T.ops ++ [o] }
      ((s.setTile d t T).startOp d t c o).pump d t c

/-- R145: takes the oldest store-queue block, whether or not it is skipped. -/
def execAst (d : Fin 32) (t : Fin 144) (c : Nat) (s : State) : Out :=
  s.accHead d.val t.val c (isOp 1 1) (fun s q => s.astIssue d.val t.val c q)

/-- An instruction of no queue block starts: ACOPY, ALDS, ASTS. -/
def State.plainIssue (s : State) (d t c : Nat) (q : QEntry) (bad : Bool) : State :=
  if bad then s.skip d t q 0x04
  else
    let T := s.tile d t
    let o := accOpOf T q c
    ((s.setTile d t { T with ops := T.ops ++ [o] }).startOp d t c o).pump d t c

def execAcopy (d : Fin 32) (t : Fin 144) (c : Nat) (s : State) : Out :=
  s.accHead d.val t.val c (isOp 1 2)
    (fun s q => s.plainIssue d.val t.val c q (s.acopyBad (accOpOf (s.tile d.val t.val) q c)))

def execAlds (d : Fin 32) (t : Fin 144) (c : Nat) (s : State) : Out :=
  s.accHead d.val t.val c (isOp 1 3)
    (fun s q => s.plainIssue d.val t.val c q
      (s.outsideOwn d.val t.val (accOpOf (s.tile d.val t.val) q c)))

def execAsts (d : Fin 32) (t : Fin 144) (c : Nat) (s : State) : Out :=
  s.accHead d.val t.val c (isOp 1 4)
    (fun s q => s.plainIssue d.val t.val c q
      (s.outsideOwn d.val t.val (accOpOf (s.tile d.val t.val) q c)))

def State.asigIssue (s : State) (d t c : Nat) (q : QEntry) : State :=
  let T := s.tile d t
  let o := accOpOf T q c
  ((s.setTile d t { T with ops := T.ops ++ [o] }).startSig d t c o).pump d t c

/-- R152, R136. -/
def execAsig (d : Fin 32) (t : Fin 144) (c : Nat) (s : State) : Out :=
  s.accHead d.val t.val c (isOp 1 5)
    (fun s q => s.asigIssue d.val t.val c q)

/-- R151: its gate is the fence. -/
def execAfence (d : Fin 32) (t : Fin 144) (c : Nat) (s : State) : Out :=
  s.accHead d.val t.val c (isOp 1 6) (fun s q =>
    let T := s.tile d.val t.val
    s.setTile d.val t.val (T.flagOn (accOpOf T q c) c))

/-! ## Blocks and completion (R144, R151) -/

/-- R144: the block in the place named becomes ready, in the cycle after its last byte has arrived. -/
def execOqBlockReady (d : Fin 32) (t : Fin 144) (matrix : Bool) (pos : Nat) (s : State) : Out :=
  match ((s.tile d.val t.val).oq matrix)[pos]?.bind OqBlock.due with
  | none => .next s
  | some r => s.ownEvent d.val t.val r (fun s =>
    let T := s.tile d.val t.val
    (s.setTile d.val t.val (T.setOq matrix (updAt (T.oq matrix) pos (fun b => { b with ready := true })))).stir
      d.val t.val)

/-- R151: an instruction completes, and with FLAGEN adds 1 to its flag a cycle later. -/
def execAccessComplete (d : Fin 32) (t : Fin 144) (count : BitVec 64) (s : State) : Out :=
  let T := s.tile d.val t.val
  match T.ops.find? (fun o => o.count == count && T.opComplete o) with
  | none => .next s
  | some o => s.ownEvent d.val t.val o.due (fun s =>
    let T := s.tile d.val t.val
    let T : Tile := { T with ops := T.ops.filter (fun x => x.count != o.count) }
    s.setTile d.val t.val (T.flagOn o o.due))

end Sys2Proof.Machine
end

