-- ==== Sys2Proof/Machine/Command.lean ====
section
/-! DEFINITION. The life of a command: acceptance (R336, R337, R354), delivery (R23, R24, R329, R334, R340),
the hold until its beat (R341), modes and the seal (R345, R395), and the reply (R338, R342). -/
namespace Sys2Proof.Machine

def Cmd.u (c : Cmd) (off n : Nat) : Nat := leField c.params off n

def Cmd.op (c : Cmd) : Nat := c.opcode.toNat

/-! ## Statuses (R342) -/

def stOk : Nat := 0
def stBusy : Nat := 4
def stMode : Nat := 5
def stSeason : Nat := 6
def stAborted : Nat := 7
def stDown : Nat := 8
def stIll : Nat := 9
def stErr (code : Nat) : Nat := 0x100 + code % 256

/-! ## Replies -/

/-- The first word of a reply entry. -/
def replyWord (c : Cmd) (status : Nat) (phase : Bool) : BitVec 64 :=
  BitVec.ofNat 64 (c.tag.toNat * 2 ^ 48 + status % 65536 * 2 ^ 32 + c.opcode.toNat * 2 ^ 16
    + natOf c.clamped * 4 + natOf c.late * 2 + natOf phase)

/-- The reply of a command is posted, and the command is over. -/
def State.reply (s : State) (c : Cmd) (status : Nat) (result : BitVec 64) : State :=
  let s := s.moment
  let s := { s with sd := { s.sd with cmds := s.sd.cmds.filter (fun x => x.cid != c.cid) } }
  let r := s.ring c.ring.val
  let r : Ring := { r with outstanding := r.outstanding - 1 }
  if c.mute then s.setRing c.ring.val r
  else
    let a := r.rqBase.toNat * 4096 + 16 * r.rqTail
    let s := s.hostPut a (leBytes 8 (replyWord c status r.rqPhase).toNat ++ leBytes 8 result.toNat)
    let wrap := r.rqTail + 1 = 2 ^ r.rqLog.toNat
    let s := s.setRing c.ring.val { r with
      rqTail := if wrap then 0 else r.rqTail + 1
      rqPhase := if wrap then !r.rqPhase else r.rqPhase
      rqUsed := r.rqUsed + 1 }
    if c.irq || r.irqAll then s.raise c.ring.val else s

/-! ## Acceptance -/

def Ring.units (r : Ring) : Nat := 2 ^ r.cqLog.toNat / 64

/-- Units that have been announced and not accepted. -/
def Ring.avail (r : Ring) : Nat := (r.prod + r.units - r.head % r.units) % r.units

/-- A ring has work and may accept it (R336, R337). -/
def Ring.hasWork (r : Ring) : Bool :=
  r.en && !r.fetchErr && (!r.brk || r.passBrk) && decide (0 < r.avail)
    && decide (r.outstanding + r.rqUsed < 2 ^ r.rqLog.toNat)

/-- Whose turn it is: the first ring with work from the round-robin position on (R337). A device without its firmware
does no work (R353). -/
def State.ringTurn (s : State) : Option Nat :=
  if s.sd.boot = 2 then ((List.range 8).map (fun i => (s.sd.turn + i) % 8)).find? (fun r => (s.ring r).hasWork)
  else none

/-- A command breakpoint matches (R354). -/
def State.cmdBreak (s : State) (ring : Nat) (r : Ring) (tag : Nat) : Bool :=
  let c := s.sd.cbrkCtrl
  let m := bits s.sd.cbrkTag 31 16
  s.sd.hostDebug && !r.passBrk && bits c 7 5 == ring
    && ((c.getLsbD 0 && r.seq == s.sd.cbrkCount)
      || (c.getLsbD 1 && tag &&& m == bits s.sd.cbrkTag 15 0 &&& m))

/-- Bytes of an entry written back, wrapping at the ring's end. -/
def State.ringPut (s : State) (r : Ring) (pos : Nat) (l : List Byte) : State :=
  let size := 2 ^ r.cqLog.toNat
  let base := r.cqBase.toNat * 4096
  let at? := pos % size
  let first := l.take (size - at?)
  let s := s.hostPut (base + at?) first
  s.hostPut base (l.drop (size - at?))

/-- What an entry is, once its header and parameters are legal. -/
structure Entry where
  units   : Nat
  known   : Bool
  header  : List Byte
  params  : List Byte
  length  : Nat
  targets : List Nat
  changed : Bool
  deriving DecidableEq, Repr

def State.readEntry (s : State) (raw : List Byte) : Entry :=
  let h := wordsOf (fitBytes 32 raw)
  let w0 := h.getD 0 0
  let w1 := h.getD 1 0
  let w3 := h.getD 3 0
  let op := bits w0 63 48
  let units := (32 + bits w0 31 19 + 63) / 64
  let len := min 4096 (bits w0 31 19)
  let body := (raw.drop 32).take len
  let n := listCount op (fitBytes 4 body)
  match opInfo op n with
  | none => ⟨units, false, fitBytes 32 raw, [], len, [], false⟩
  | some (k, fs) =>
    let w0' := fixWord0 w0
    let w1' := fixWord1 k w1
    let p := fitBytes (areaOf fs) body
    let p' := clampParams s (bits w1' 55 48) fs p
    let header := bytesOfWords [w0', w1', h.getD 2 0, w3]
    ⟨units, true, header, p', len, targetsOf k w1' w3, header != fitBytes 32 raw || p' != p⟩

def cmdOf (cid : Nat) (ring : Fin 8) (e : Entry) : Cmd :=
  let h := wordsOf e.header
  let w0 := h.getD 0 0
  { cid := cid, ring := ring, opcode := BitVec.ofNat 16 (bits w0 63 48), tag := BitVec.ofNat 16 (bits w0 47 32)
    irq := w0.getLsbD 2, fence := w0.getLsbD 1, execEn := w0.getLsbD 0, execBeat := h.getD 2 0
    targets := e.targets, params := e.params, clamped := e.changed, late := false, mute := false
    status := 0, result := 0, began := 0, since := 0, lost := [], cutOff := [], stage := .accepted }

/-- R336: fetch, clamp, write back, reserve a reply, advance. An undefined opcode completes at once. -/
def State.acceptEntry (s : State) (ring : Fin 8) (r : Ring) (e : Entry) : State :=
  let cid := s.sd.nextCid
  let c := cmdOf cid ring e
  let stepping := r.passBrk && s.sd.cbrkCtrl.getLsbD 3
  let s := if e.changed then
      s.ringPut r (64 * r.head) (e.header ++ e.params.take (64 * e.units - 32))
    else s
  let s := s.setRing ring.val { r with
    head := (r.head + e.units) % r.units, seq := r.seq + 1, outstanding := r.outstanding + 1
    passBrk := false, brk := stepping }
  let s := { s with sd := { s.sd with
    nextCid := cid + 1, turn := (ring.val + 1) % 8, cmds := s.sd.cmds ++ [c] } }
  if e.known then s else s.reply c stIll 0

/-- R336, R337, R354. `fetched` is the entry as the node host's memory holds it, none for a PCIe error. -/
def execCommandAccept (ring : Fin 8) (fetched : Option (List Byte)) (s : State) : Out :=
  let r := s.ring ring.val
  if s.ringTurn ≠ some ring.val then .next s
  else
    match fetched with
    | none =>
      let s := s.setRing ring.val { r with fetchErr := true }
      .next (s.logErr blkSteward { code := 0xC0, src := 18, unit := ring.val, hold := true
                                   addr := r.cqBase.toNat * 4096 + 64 * r.head })
    | some raw =>
      let tag := leField (fitBytes 8 raw) 4 2
      if s.cmdBreak ring.val r tag then
        let s := s.setRing ring.val { r with brk := true }
        let s := { s with sd := { s.sd with cbrkCtrl := s.sd.cbrkCtrl ||| 0x10 } }
        .next (s.logErr blkSteward { code := 0xC1, src := 18, unit := ring.val, icount := tag })
      else
        let e := s.readEntry raw
        if r.avail < e.units then .next s
        else .next (s.acceptEntry ring r e)

/-! ## Delivery -/

def State.cmd? (s : State) (cid : Nat) : Option Cmd := s.sd.cmds.find? (fun c => c.cid == cid)

def State.putCmd (s : State) (c : Cmd) : State :=
  { s with sd := { s.sd with cmds := s.sd.cmds.map (fun x => if x.cid = c.cid then c else x) } }

/-- The command moves behind every other one: the list is in order of arrival. -/
def State.arriveCmd (s : State) (c : Cmd) : State :=
  { s with sd := { s.sd with cmds := s.sd.cmds.filter (fun x => x.cid != c.cid) ++ [c] } }

/-- FENCE, and the order behind a DMA_COPY of the same ring (R337). -/
def State.mayDeliver (s : State) (c : Cmd) : Bool :=
  let before := s.sd.cmds.filter (fun x => x.ring == c.ring && decide (x.cid < c.cid))
  before.all (fun x => x.stage != .accepted && x.opcode != 0x0401) && (!c.fence || before.isEmpty)

/-- State of a UCIe module: 0 down, 1 training, 2 up (R360). -/
def State.module (s : State) (m : Nat) : Nat := Table.get 0 s.sd.modules m

/-- A quadrant's hub MD(4q) can be reached and passes commands on (R4, R329). -/
def State.hubUp (s : State) (q : Nat) : Bool :=
  (s.module (2 * q) == 2 || s.module (2 * q + 1) == 2) && !s.absent (blkMd (4 * q))

/-- The hubs' counts of delivered commands (R360). -/
def State.countDelivered (s : State) (targets : List Nat) : State :=
  [0, 1, 2, 3].foldl (fun s q =>
    if targets.any (fun b => blockQuad (s.dieOf b) == some q) && s.hubUp q then
      let M := s.md (4 * q)
      s.setMd (4 * q) { M with delivered := satInc 0xFFFFFFFF M.delivered }
    else s) s

/-- Every target die's own Almanac has reached the beat; for a device command, the steward's. -/
def Cmd.beatReached (s : State) (c : Cmd) : Bool :=
  (if c.targets.isEmpty then [blkSteward] else c.targets).all (fun b => decide (c.execBeat.toNat ≤ s.nowAt b))

/-- A held command whose beat comes before another's at a die that both name, or the same beat after an earlier
arrival (R23). -/
def State.heldBefore (s : State) (x c : Cmd) : Bool :=
  x.stage == .held && x.targets.any c.targets.contains
    && (decide (x.execBeat.toNat < c.execBeat.toNat)
      || (x.execBeat == c.execBeat && (s.sd.cmds.takeWhile (fun y => y.cid != c.cid)).any (fun y => y.cid == x.cid)))

/-- A held command whose beat has come and that none held goes before takes its place behind those that may already
run. -/
def State.wakeCmd (s : State) (c : Cmd) : State :=
  if c.stage = .held ∧ c.beatReached s ∧ !s.sd.cmds.any (fun x => s.heldBefore x c) then
    s.arriveCmd { c with stage := .ready }
  else s

/-- R341, R23. -/
def execExecBeatReached (cid : Nat) (s : State) : Out :=
  match s.cmd? cid with
  | none => .next s
  | some c => .next (s.wakeCmd c)

/-- A command put before those of later beats. -/
def insertCmd (c : Cmd) : List Cmd → List Cmd
  | [] => [c]
  | x :: l => if c.execBeat.toNat ≤ x.execBeat.toNat then c :: x :: l else x :: insertCmd c l

/-- What a command finds as it arrives: every held one whose beat has come is before it, by beat and then by arrival
(R23, R320). -/
def State.wakeHeld (s : State) : State := (s.sd.cmds.foldr insertCmd []).foldl State.wakeCmd s

/-- R24, R334, R337, R341: the command reaches its targets, or the steward for a device command. -/
def execCommandDeliver (cid : Nat) (s : State) : Out :=
  match s.cmd? cid with
  | none => .next s
  | some c =>
    if c.stage = .accepted ∧ s.mayDeliver c then
      let late := c.execEn && c.beatReached s
      let c := { c with late := late, stage := if c.execEn && !late then .held else .ready }
      .next ((s.wakeHeld.countDelivered c.targets).arriveCmd c)
    else .next s

/-! ## Execution -/

/-- R345. -/
def State.modeRefuses (s : State) (op : Nat) : Bool :=
  (s.sd.mode == 2
    && (op == 0x0C02 || !(op == 0 || op / 256 == 0x0C || op / 256 == 0x0D || op / 256 == 0x0E || op / 256 == 0x0F)))
  || ((op == 0x0C04 || op == 0x0C05) && s.sd.mode == 0)
  || ((op == 0x0E03 || op == 0x0E04) && s.sd.mode != 1)

/-- R395. -/
def State.sealRefuses (s : State) (c : Cmd) : Bool :=
  s.wseal.isSealed
    && ([0x0301, 0x0303, 0x0701, 0x0501, 0x0601, 0x0902, 0x0802].contains c.op
      || (c.op == 0x0302 && decide (2 ≤ c.u 0 1)))

/-- A field controller executes its commands in the order in which they arrived (R23). -/
def State.inTurn (s : State) (c : Cmd) : Bool :=
  (s.sd.cmds.takeWhile (fun x => x.cid != c.cid)).all (fun x =>
    x.stage != .ready || !(x.targets.any c.targets.contains))

/-- RUN_START, FACTOR_BATCH, COLL and ROTATE. -/
def workOps : List Nat := [0x0301, 0x0701, 0x0501, 0x0601]

/-- What a Harvest holds at the steward (R366, R372): new work from the Harvest point to the end of the small regions,
UPDATE during the tensors and while the target area is drained. -/
def State.heldBack (s : State) (op : Nat) : Bool :=
  let h := s.hrv
  (workOps.contains op && (h.pointDue || h.state == 1 || (h.state == 2 && decide (h.phase ≤ 4))))
    || (op == 0x0303 && h.state == 2 && (h.phase == 5 || h.waits))

/-- R373. -/
def State.restoreRefuses (s : State) (op : Nat) : Bool :=
  (s.hrv.restoreBad || s.hrv.restore.isSome) && (workOps.contains op || op == 0x0303)

/-- RESULT of a command that ends without effect: NOP and the ALMANAC family carry ALM_STAMP in every reply (R323), NOP
that of the steward, which executes it. -/
def State.bareResult (s : State) (c : Cmd) : BitVec 64 :=
  if c.op = 0 then s.stampAt blkSteward else if c.op = 0x0A01 ∨ c.op = 0x0A02 then s.stamp else 0

/-- A command that the seal refuses (R395). -/
def State.refuseSealed (s : State) (c : Cmd) : State :=
  (s.logErr blkSteward { code := 0x95, src := 0, icount := c.tag.toNat }).reply c (stErr 0x95) 0

/-- A ready command runs, unless its mode, the seal or an unfinished restore refuses it. -/
def State.runCmd (s : State) (c : Cmd) (f : State → Cmd → State) : State :=
  if s.modeRefuses c.op then s.reply c stMode (s.bareResult c)
  else if s.restoreRefuses c.op then s.reply c stBusy (s.bareResult c)
  else if s.sealRefuses c then s.refuseSealed c
  else f s c

/-- The command runs when it is ready, in turn and not held back. -/
def State.withCmd (s : State) (cid op : Nat) (f : State → Cmd → State) : Out :=
  match s.cmd? cid with
  | none => .next s
  | some c =>
    if c.stage = .ready ∧ c.op = op ∧ s.inTurn c ∧ !s.heldBack op then .next (s.runCmd c f) else .next s

/-- The command runs when it is ready, whatever precedes it (R176, R198). -/
def State.atOnce (s : State) (cid op : Nat) (f : State → Cmd → State) : Out :=
  match s.cmd? cid with
  | none => .next s
  | some c => if c.stage = .ready ∧ c.op = op then .next (s.runCmd c f) else .next s

/-- A command that goes on after its start. -/
def State.running (s : State) (c : Cmd) : State :=
  s.putCmd { c with stage := .running, began := s.alm.now, since := s.alm.total }

/-- The running command of an opcode. -/
def State.runningCmd (s : State) (cid : Nat) : Option Cmd :=
  s.sd.cmds.find? (fun c => c.cid == cid && c.stage == .running)

/-- Commands that complete with a status without running. -/
def State.endCmds (s : State) (which : Cmd → Bool) (status : Nat) : State :=
  (s.sd.cmds.filter which).foldl (fun s c => s.reply c status (s.bareResult c)) s

/-- Why a die cannot take a command at all (R329, R340): absent, in standby, or behind a hub that is down.
A site in standby takes MAINT and DIAG commands; one that has adopted a number stands in that number's place (R26). -/
def State.targetDown (s : State) (op b : Nat) : Bool :=
  let site (st : BitVec 2) : Bool :=
    st == 2 || (st == 0 && op / 256 != 0x0C && op / 256 != 0x0D)
  let n := s.dieOf b
  if b = 62 ∧ n = 62 then site s.sites.s32
  else if b = 63 ∧ n = 63 then site s.sites.s33
  else s.absent n || (match blockQuad n with
    | some q => !s.hubUp q
    | none => false)

/-- Why a die does not carry out its part of a command: it cannot take it, or an edge has lost it (R19). -/
def State.barred (s : State) (c : Cmd) (b : Nat) : Option Nat :=
  if s.targetDown c.op b then some stDown else if c.cutOff.contains b then some (stErr 0x50) else none

/-- Each named die in ascending order: the first status other than OK, and the sum of what the dies
return (R340). -/
def State.eachDie (s : State) (c : Cmd) (f : State → Nat → State × Nat × Nat) : State × Nat × Nat :=
  c.targets.foldl (fun (acc : State × Nat × Nat) b =>
    let (s, st, n) := acc
    let (s, st', k) := match s.barred c b with
      | some st => (s, st, 0)
      | none => f s (s.dieOf b)
    (s, if st = stOk then st' else st, n + k)) (s, stOk, 0)

/-- A command of one die: what bars it, or what it does there. -/
def State.oneDie (s : State) (c : Cmd) (f : State → Nat → State) : State :=
  match c.targets with
  | b :: _ =>
    match s.barred c b with
    | some st => s.reply c st 0
    | none => f s (s.dieOf b)
  | [] => s.reply c stDown 0

/-- Debug mode on a die, or a maintenance mode (R226, R407). -/
def State.diagOk (s : State) (b : Nat) : Bool := s.maint || (s.die b).debug

/-- The signal of a command (R152): a descriptor that names no flag is logged by the steward. -/
def State.cmdSignal (s : State) (block : Nat) (c : Cmd) (desc : BitVec 64) (count : Nat) : State :=
  match s.sigFault desc with
  | some code => s.logErr block { code := code, icount := c.tag.toNat, addr := desc.toNat }
  | none => s.sendSignal none desc count

end Sys2Proof.Machine
end

