-- ==== Sys2Proof/Machine/Io.lean ====
section
/-! DEFINITION. The steward's own requests over the torus: mirror writes of the Sowing Log (R365) and Harvest
copies (R366, R371), and what their responses do. -/
namespace Sys2Proof

/-- A request of the steward's for a Harvest. -/
def Requester.isHarvest : Requester → Bool
  | .agent b id => b == 60 && id % 4 == 1
  | _ => false

namespace Machine

/-- Numbers of the steward's requests: odd ones, which hold the address, are a Harvest's or a restore's, and even ones
but 0 those of mirror writes. -/
def harvestId (a : Nat) : Nat := 4 * a + 1
def restoreId (a : Nat) : Nat := 4 * a + 3
def mirrorId (seq : Nat) : Nat := 2 * (seq + 1)

/-- Start of an area on the holder. -/
def State.peerArea (s : State) (a : Nat) : Nat := s.hrv.peerHold.toNat + a * s.hrv.area.toNat

/-- A Harvest ends without completing (R371): the next Harvest point is the next committed step. -/
def State.harvestFail (s : State) (code addr : Nat) (entry : Nat := 0) : State :=
  let s := s.logErr blkSteward { code := code, src := 9, addr := addr, detail := entry }
  { s with hrv := { s.hrv with state := 4, take := true, left := 0, waits := false } }

/-- Code in the holder's answer to a claim of an area that it drains; R392 gives it to no error (log entry 92). -/
def waitCode : Nat := 0xFF

/-- What a Harvest does with the holder's answer to its request of address `a`. Code 0x84 comes with the number of an
entry, and any other error has met the request's address (R371). -/
def State.harvestAck (s : State) (a code : Nat) (data : List Byte) : State :=
  let h := s.hrv
  if h.state ≠ 2 then s
  else if code = 0 then
    let heads := if h.phase = 1 then Table.set [] h.heads (natOf (a == s.peerArea 1)) data else h.heads
    { s with hrv := { h with left := h.left - 1, heads := heads, waits := h.waits && h.phase != 2 } }
  else if code = waitCode ∧ h.phase = 2 then { s with hrv := { h with left := h.left - 1, waits := true } }
  else if code = 0x84 then s.harvestFail 0x84 0 (ofLe data)
  else s.harvestFail 0x83 a

/-- What a restore does with the answer to its read of address `a`: the first error ends it. -/
def State.restoreAck (s : State) (a code : Nat) (data : List Byte) : State :=
  match s.hrv.restore with
  | none => s
  | some r =>
    let r : Restore := if code = 0 then { r with left := r.left - 1, got := Table.set [] r.got a data }
      else { r with left := r.left - 1, err := some (r.err.getD code) }
    { s with hrv := { s.hrv with restore := some r } }

/-- What the steward does with a response: those to a Harvest's and to a restore's requests and to mirror writes. -/
def State.stewardAck (s : State) (id code : Nat) (data : List Byte) : State :=
  if id % 4 = 1 then s.harvestAck (id / 4) code data
  else if id % 4 = 3 then s.restoreAck (id / 4) code data
  else
    let hit (e : LagEntry) : Bool := mirrorId e.seq == id
    if code = 0 then { s with sow := { s.sow with lag := s.sow.lag.filter (fun e => !hit e) } }
    else
      let s := { s with sow := { s.sow with
        lag := s.sow.lag.map (fun e => if hit e then { e with failed := true } else e), lost := true } }
      if s.sow.lostLogged then s
      else
        let s := { s with sow := { s.sow with lostLogged := true } }
        s.logErr blkSteward { code := 0x81, src := 9 }

/-- Device-local bytes written on another device, 4,096 at most to a WRITE packet (R269); `id` numbers
each by its address. -/
def State.remoteWrite (s : State) (id : Nat → Nat) (dest : BitVec 16) (a : Nat) (l : List Byte) : State :=
  let n := (l.length + 4095) / 4096
  let reqs := (List.range n).map (fun i =>
    (⟨.agent 60 (id (a + 4096 * i)), dest, 1, BitVec.ofNat 48 (a + 4096 * i), 0, ((l.drop (4096 * i)).take 4096).length,
      (l.drop (4096 * i)).take 4096⟩ : RemoteReq))
  { s with net := { s.net with waiting := s.net.waiting ++ reqs } }

/-- Device-local bytes read on another device, 4,096 at most by a READ packet (R269); `id` numbers each by its
address. -/
def State.remoteRead (s : State) (id : Nat → Nat) (dest : BitVec 16) (a n : Nat) : State :=
  let reqs := (List.range ((n + 4095) / 4096)).map (fun i =>
    let a' := a + 4096 * i
    (⟨.agent 60 (id a'), dest, 2, BitVec.ofNat 48 a', 0, min 4096 (n - 4096 * i), []⟩ : RemoteReq))
  { s with net := { s.net with waiting := s.net.waiting ++ reqs } }

/-! ## Geometry -/

def coordX (c : BitVec 16) : Nat := bits c 15 10
def coordY (c : BitVec 16) : Nat := bits c 9 4
def coordZ (c : BitVec 16) : Nat := bits c 3 0

def mkCoord (x y z : Nat) : BitVec 16 := BitVec.ofNat 16 (x % 64 * 2 ^ 10 + y % 64 * 16 + z % 16)

/-- Extent of dimension g (0 X, 1 Y, 2 Z). -/
def Net.ext (n : Net) (g : Nat) : Nat :=
  if g = 0 then bits n.geom 17 12 else if g = 1 then bits n.geom 11 6 else bits n.geom 5 0

def axis (c : BitVec 16) (g : Nat) : Nat :=
  if g = 0 then coordX c else if g = 1 then coordY c else coordZ c

/-- Direction of a port: 0 X+, 1 X−, 2 Y+, 3 Y−, 4 Z+, 5 Z− (R263). -/
def dirOf (port : Nat) : Nat := port / 2

/-- The coordinate one step in a direction. -/
def Net.neighbour (n : Net) (d : Nat) : BitVec 16 :=
  let g := d / 2
  let e := max 1 (n.ext g)
  let v := axis n.coord g
  let w := if d % 2 = 0 then (v + 1) % e else (v + e - 1) % e
  mkCoord (if g = 0 then w else coordX n.coord) (if g = 1 then w else coordY n.coord)
    (if g = 2 then w else coordZ n.coord)

def State.buddy (s : State) : BitVec 16 := s.net.neighbour s.sow.dir.toNat

/-- No active port leads to the buddy any more, as after its warm reset (R371). -/
def State.buddyGone (s : State) : Bool :=
  [0, 1].all (fun i =>
    let P := s.port (2 * s.sow.dir.toNat + i)
    !((P.state == .up || P.state == .retrain) && P.role == 1))

/-- Start of a hold area of this device (R369). -/
def State.holdArea (s : State) (a : Nat) : Nat := s.hrv.hold.toNat + a * s.hrv.area.toNat

/-- A Harvest on its way to the buddy, and those that come from it, end as failed once the buddy is gone (R371). -/
def State.copiesLost (s : State) : State :=
  if s.buddyGone then
    let s := if s.hrv.state = 2 then s.harvestFail 0x83 (s.peerArea (natOf s.hrv.target)) else s
    let s := s.hrv.coming.foldl (fun s a => s.logErr blkSteward { code := 0x83, src := 9, addr := s.holdArea a }) s
    { s with hrv := { s.hrv with coming := [], checks := [] } }
  else s

end Machine
end Sys2Proof
end

