-- ==== Sys2Proof/Machine/Bank.lean ====
section
/-! DEFINITION. Bank queues and holds of the memory dies: admission (R204-R206, R209, R210), the service of entries
(R207, R208, R214-R217, R226), and responses. -/
namespace Sys2Proof.Machine

/-! ## Responses -/

/-- A response goes to its requester: a tile's waits for ACCESS_RESPONSE; that of another die's request logic has
arrived there, and the steward acts on its own. -/
def State.respond (s : State) (who : Requester) (data : List Byte) (code : Nat) (retry : Bool) : State :=
  match who with
  | .agent b id =>
    let s : State := { s with fabric := { s.fabric with
      answers := s.fabric.answers.filter (fun r => r.who != who) ++ [⟨who, data, code, retry⟩] } }
    if b = 60 then s.stewardAck id code data else s
  | .tile d t k =>
    if (Table.find (s.tile d.val t.val).slots k).isNone then s
    else
      let (s, data) := s.cross data
      { s with fabric := { s.fabric with resp := s.fabric.resp ++ [⟨who, data, code, retry⟩] } }

/-- The offset of the first byte that failed, as an error response carries it. -/
def offsetBytes (n : Nat) : List Byte := leBytes 2 n

/-! ## Admission -/

/-- A full write of a sector waits in the queue. -/
def Bank.renews (q : Bank) (sec : Nat) : Bool :=
  q.queue.any (fun f => f.write && !f.wb && f.sectors.contains sec && f.covers sec)

/-- A write of part of a sector, with no full write of it before it in the queue, or one that may store an armed fault:
whether it succeeds is known when its sector has been read, and it is acknowledged then (R209, R215; log entry 130). -/
def HbmStack.mustWait (x : HbmStack) (q : Bank) (e : BankEntry) : Bool :=
  e.write && e.sectors.any (fun sec => !e.covers sec && (!q.renews sec || (x.sector sec).armed.isSome))

/-- Every bank queue that a request enters has places for its entries (R206). -/
def HbmStack.room (x : HbmStack) (es : List (Nat × Nat × Nat × Bool)) : Bool :=
  es.all (fun e => decide ((x.bank e.1).queue.length + (es.filter (fun f => f.1 == e.1)).length ≤ 256))

/-- No request waits in the hold of a bank that these entries enter: nothing is overtaken (R206). -/
def HbmStack.noHold (x : HbmStack) (es : List (Nat × Nat × Nat × Bool)) : Bool :=
  es.all (fun e => (x.bank e.1).hold.isEmpty)

/-- The byte of a write that changes one half alone: the other half stays (R103, R104). -/
def mergeHalf (old : Byte) (half : Option Bool) (data : List Byte) : List Byte :=
  match half, data with
  | some high, [n] =>
    let o := old.toNat
    [BitVec.ofNat 8 (if high then o % 16 + n.toNat / 16 * 16 else o / 16 * 16 + n.toNat % 16)]
  | _, _ => data

/-- A request is admitted: entries at the ends of their queues, a write's bytes visible from now on and
acknowledged, a read's bytes as they stand now (R209, R210). -/
def State.admitReq (s : State) (k : Nat) (r : MemReq) : State :=
  let (_, o) := hbmLoc s.fabric.quadLocal r.addr.toNat
  let m := k / 2
  let M := s.md m
  let seq := M.nextSeq
  let x := M.stk (k % 2 == 1)
  let es := entriesOf o r.len
  let (x, waits) := es.foldl (fun (acc : HbmStack × Bool) e =>
    let (x, any) := acc
    let q := x.bank e.1
    let entry : BankEntry := ⟨seq, r.who, e.2.1, e.2.2.1, r.write, e.2.2.2, false, false, M.clock, M.cfg⟩
    let w := x.mustWait q entry
    (x.setBank e.1 { q with queue := q.queue ++ [{ entry with waits := w }] }, any || w)) (x, false)
  let x := if r.write then (sectorsOf o r.len).foldl (fun x p => x.dropBack (p.2.1 / 64)) x else x
  let keep := !r.write || waits
  let data := if r.write then [] else readBytes s.mem (hbmKey k o) r.len
  let job : MemJob := ⟨seq, r.who, k % 2 == 1, o, r.len, r.write, data, es.length, none⟩
  let M := M.setStk (k % 2 == 1) x
  let M : MemDie := { M with
    nextSeq := seq + 1
    jobs := if keep then M.jobs ++ [job] else M.jobs }
  let s := s.setMd m M
  let s : State := if r.write then
      { s with mem := writeBytes s.mem (hbmKey k o) (mergeHalf (Table.get 0 s.mem (hbmKey k o)) r.half r.data) }
    else s
  if r.write && !waits then s.respond r.who [] 0 false else s

/-- The hold of a bank is kept in age order (R206). -/
def insertHold (r : MemReq) : List MemReq → List MemReq
  | [] => [r]
  | x :: l => if x.age ≤ r.age then x :: insertHold r l else r :: x :: l

def State.retry (s : State) (who : Requester) : State := s.respond who [] 0 true

/-- A request whose queue is full enters the hold; a full hold keeps the older ones. -/
def State.hold (s : State) (k b : Nat) (r : MemReq) : State :=
  let x := s.stk k
  let q := x.bank b
  let all := insertHold r q.hold
  let put (l : List MemReq) : State := s.setStk k (x.setBank b { q with hold := l })
  if q.hold.length < 64 then put all
  else
    match all.getLast? with
    | some y => (put all.dropLast).retry y.who
    | none => s

/-- The first bank of a request that has no place for it, or whose hold it must not overtake. -/
def HbmStack.fullBank (x : HbmStack) (es : List (Nat × Nat × Nat × Bool)) : Nat :=
  match es.find? (fun e => !(x.room (es.filter (fun f => f.1 == e.1))) || !(x.bank e.1).hold.isEmpty) with
  | some e => e.1
  | none => 0

/-- A request that its stack takes enters the queues, or waits in the hold of the first bank that is full. -/
def State.enter (s : State) (k : Nat) (r : MemReq) : State :=
  let x := s.stk k
  let es := entriesOf (hbmLoc s.fabric.quadLocal r.addr.toNat).2 r.len
  if x.room es && x.noHold es then s.admitReq k r else s.hold k (x.fullBank es) r

/-! ## Service -/

def pageOf (e : BankEntry) : Nat := e.addr / 1024

/-- What the entries of one access wait for in one sector, in order: entries of one direction that follow
each other make one access; a wide entry stands alone. -/
def sectorRuns (sec : Nat) : List BankEntry → List (List BankEntry)
  | [] => []
  | e :: l =>
    match sectorRuns sec l with
    | (f :: r) :: rest =>
      if e.write = f.write ∧ !e.wide ∧ !f.wide ∧ !e.wb ∧ !f.wb then (e :: f :: r) :: rest
      else [e] :: (f :: r) :: rest
    | other => [e] :: other

/-- The bytes of a sector that a run of writes covers. -/
def runFull (sec : Nat) (l : List BankEntry) : Bool :=
  (List.range 64).all (fun i => l.any (fun e => decide ((e.span sec).1 ≤ i) && decide (i < (e.span sec).2)))

/-- What a miscorrection made of a sector, but for the bytes `kept`, in the data of a request's entry. -/
def MemJob.misread (j : MemJob) (sec : Nat) (e : BankEntry) (f : Nat) (kept : Nat → Bool) : MemJob :=
  let lo := (e.span sec).1
  let start := 64 * sec + lo - j.addr
  let n := (e.span sec).2 - lo
  { j with data := j.data.take start ++ (List.range n).map (fun i =>
      if kept (lo + i) then j.data.getD (start + i) 0 else Config.miscorrect f (lo + i)) ++ j.data.drop (start + n) }

/-- An outcome reaches the request that an entry belongs to. -/
def MemJob.outcome (j : MemJob) (sec : Nat) (e : BankEntry) (d : Decoded) : MemJob :=
  match d with
  | .dead =>
    let start := 64 * sec + (e.span sec).1 - j.addr
    { j with err := some (match j.err with
      | some o => min o start
      | none => start) }
  | .wrong f => j.misread sec e f (fun _ => false)
  | _ => j

def State.runOutcome (s : State) (m sec : Nat) (l : List BankEntry) (d : Decoded) : State :=
  let M := s.md m
  s.setMd m { M with jobs := M.jobs.map (fun j =>
    l.foldl (fun j e => if e.seq = j.seq ∧ !e.wb then j.outcome sec e d else j) j) }

/-- A sector is stored as a miscorrection made it. Of the entries `pending` behind, the writes replace their bytes,
and a read delivers what it finds then (R209, R210). -/
def State.spread (s : State) (k sec f : Nat) (pending : List BankEntry) : State :=
  let s := s.miscorrect k sec f (byteWritten pending sec)
  let M := s.md (k / 2)
  s.setMd (k / 2) { M with jobs := M.jobs.map (fun j =>
    pending.zipIdx.foldl (fun j p =>
      if p.1.seq = j.seq ∧ !p.1.write ∧ p.1.sectors.contains sec then
        j.misread sec p.1 f (byteWritten (pending.take p.2) sec)
      else j) j) }

def corrWb (cfg : BitVec 32) : Bool := cfg.getLsbD 2

/-- One access of one sector: a full write, a partial write, a write-back, or a read (R214-R217, R226). `later` are the
entries behind it that are served with it. A partial write's own read that is miscorrected leaves its other bytes as
that made them. -/
def State.sectorAccess (s : State) (k sec : Nat) (l later : List BankEntry) : State :=
  let m := k / 2
  let isWrite := l.any (·.write)
  if isWrite && runFull sec l then s.setStk k ((s.stk k).stored sec l)
  else
    let back := !isWrite && (l.head?.map (fun e => corrWb e.cfg)).getD false
    let (s, d) := s.decodeSector k sec false back later
    let s := if isWrite && d != .dead then s.setStk k ((s.stk k).stored sec l) else s
    let s := match isWrite, d with
      | true, .wrong f => s.spread k sec f (l ++ later ++ ((s.stk k).bank (bankNo (64 * sec))).queue)
      | _, _ => s
    s.runOutcome m sec l (if isWrite && d != .dead then .clean else d)

/-- Requests whose last entry has been served answer (R215). -/
def State.finishJobs (s : State) (m : Nat) (served : List BankEntry) : State :=
  let M := s.md m
  let jobs := M.jobs.map (fun j =>
    { j with left := j.left - (served.filter (fun e => e.seq == j.seq && !e.wb)).length })
  let done := jobs.filter (fun j => j.left == 0)
  let s := s.setMd m { M with jobs := jobs.filter (fun j => j.left != 0) }
  done.foldl (fun s j =>
    match j.err with
    | some o => s.respond j.who (offsetBytes o) 0x41 false
    | none => s.respond j.who (if j.write then [] else j.data) 0 false) s

/-- Corrected write-backs that waited for a place enter the queue. -/
def Bank.takeBack (q : Bank) : Bank :=
  let n := 256 - q.queue.length
  { q with queue := q.queue ++ q.back.take n, back := q.back.drop n }

/-- The oldest request that heads a hold of the stack and finds its places now. -/
def State.nextHeld (s : State) (k : Nat) : Option (Nat × MemReq) :=
  let x := s.stk k
  let heads := x.banks.filterMap (fun e => e.2.hold.head?.bind (fun r =>
    if x.room (entriesOf (hbmLoc s.fabric.quadLocal r.addr.toNat).2 r.len) then some (e.1, r) else none))
  heads.foldl (fun best e => match best with
    | none => some e
    | some o => if e.2.age < o.2.age then some e else best) none

/-- Held requests enter their queues, in age order, while there is room (R206): `n` of them at most. -/
def State.drainHoldN (s : State) (k : Nat) : Nat → State
  | 0 => s
  | n + 1 =>
    match s.nextHeld k with
    | none => s
    | some (b, r) =>
      let x := s.stk k
      let q := x.bank b
      ((s.setStk k (x.setBank b { q with hold := q.hold.drop 1 })).admitReq k r).drainHoldN k n

/-- Places of a bank have become free: they go to its write-backs and to what waits for them in any hold. -/
def State.drainHold (s : State) (k b : Nat) : State :=
  let x := s.stk k
  (s.setStk k (x.setBank b (x.bank b).takeBack)).drainHoldN k ((x.banks.map (fun e => e.2.hold.length)).sum)

/-- The runs of a list with what comes behind each. -/
def withLater : List (List BankEntry) → List (List BankEntry × List BankEntry)
  | [] => []
  | r :: l => (r, l.flatten) :: withLater l

/-- Requests that waited at a tile for places in a bank leave now that entries of its own have been served (R206). -/
def State.wake (s : State) (l : List BankEntry) : State :=
  (l.filterMap (fun e => match e.who with
    | .tile d t _ => some (d.val, t.val)
    | .agent _ _ => none)).eraseDups.foldl (fun s p => s.pump p.1 p.2 0) s

/-- These entries of a bank, already out of its queue, are served: sector by sector, in admission order within each. -/
def State.serveList (s : State) (k b : Nat) (l : List BankEntry) : State :=
  let s := (l.flatMap (·.sectors)).eraseDups.foldl (fun s sec =>
    (withLater (sectorRuns sec (l.filter (fun e => e.sectors.contains sec)))).foldl (fun s r =>
      s.sectorAccess k sec r.1 r.2) s) s
  ((s.finishJobs (k / 2) l).drainHold k b).wake l

end Sys2Proof.Machine
end

