-- ==== Sys2Proof/Machine/Winnower.lean ====
section
/-! DEFINITION. The Winnower (R207, R208), refresh and RFM before it (R219), and the requests of the device's own
engines in its queues (R206, R241). -/
namespace Sys2Proof.Machine

/-! ## The choice -/

/-- A page of a bank: bank number and row of the stack address. -/
abbrev BankPage := Nat × Nat

/-- The entry was admitted with WINNOW_EN = 1 (R223: a change of the fields is for entries admitted after it). -/
def BankEntry.winnowed (e : BankEntry) : Bool := e.cfg.getLsbD 1

/-- The entries among which a bank's next access is chosen: one that is served in admission order stands alone, and
nothing behind it goes before it (R208). -/
def Bank.front (q : Bank) : List BankEntry :=
  match q.queue with
  | [] => []
  | e :: l => if e.winnowed then (e :: l).takeWhile BankEntry.winnowed else [e]

def Bank.waiting (q : Bank) (page : Nat) : Nat := (q.front.filter (fun e => pageOf e == page)).length

/-- One of several that the rule does not tell apart: a free value chooses (R207 breaks no ties). -/
def State.pickOne (s : State) (l : List BankPage) : Option BankPage × State :=
  match l with
  | [] => (none, s)
  | [p] => (some p, s)
  | p :: _ =>
    let (f, s) := s.take
    (some (l.getD (Config.winnowPick f % l.length) p), s)

/-- The best of a list of pages by number of entries. -/
def State.bestPage (s : State) (l : List (BankPage × Nat)) : Option BankPage × State :=
  let top := l.foldl (fun m e => max m e.2) 0
  s.pickOne ((l.filter (fun e => e.2 == top && decide (0 < top))).map (·.1))

/-- Banks of a pseudo-channel by their full number. -/
def pcBanks (pc : Nat) : List Nat := (List.range 48).map (fun b => pc * 48 + b)

/-- An entry is older than the AGE_LIMIT it was admitted under, in units of 64 MCLK cycles. -/
def BankEntry.old (now : Nat) (e : BankEntry) : Bool := decide (64 * bits e.cfg 23 16 < now - e.born)

/-- Banks with an entry older than AGE_LIMIT, each with the page and the birth of its oldest entry. -/
def HbmStack.agedBanks (x : HbmStack) (pc now : Nat) : List (BankPage × Nat) :=
  (pcBanks pc).filterMap (fun b =>
    match (x.bank b).front with
    | e :: l => if e.winnowed && (e :: l).any (BankEntry.old now) then some ((b, pageOf e), e.born) else none
    | [] => none)

/-- The bank and page that a pseudo-channel serves next in MCLK cycle `now` (R207, R208); `banks` are those whose
timing allows an activation. -/
def State.winnowChoice (s : State) (x : HbmStack) (pc now : Nat) (banks : List Nat) : Option BankPage × State :=
  let mine := (banks.filter (fun b => b < 48)).map (fun b => pc * 48 + b)
  let inOrder (b : Nat) : Option BankPage :=
    ((x.bank b).front.head?).bind (fun e => if e.winnowed then none else some (b, pageOf e))
  let free (b : Nat) : List BankEntry := (x.bank b).front.filter BankEntry.winnowed
  match mine.findSome? inOrder with
  | some p => (some p, s)
  | none =>
    let aged := x.agedBanks pc now
    let first := aged.foldl (fun n e => min n e.2) now
    match s.pickOne ((aged.filter (fun e => e.2 == first)).map (·.1)) with
    | (some p, s) => (some p, s)
    | (none, s) =>
      let openPages := (pcBanks pc).filterMap (fun b =>
        (x.bank b).open?.map (fun p => ((b, p), ((free b).filter (fun e => pageOf e == p)).length)))
      match s.bestPage openPages with
      | (some p, s) => (some p, s)
      | (none, s) =>
        s.bestPage ((mine.flatMap (fun b =>
          (free b).map (fun e => ((b, pageOf e), (x.bank b).waiting (pageOf e))))).eraseDups)

/-- The entries of a page that one access serves: up to what is left of ROWHIT_MAX, or one (R207, R208). -/
def Bank.toServe (q : Bank) (page : Nat) : List BankEntry :=
  match q.front.filter (fun e => pageOf e == page) with
  | [] => []
  | e :: l =>
    if !e.winnowed then [e]
    else (e :: l).take (bits e.cfg 15 8 - (if q.open? = some page then q.served else 0))

/-- The bank after these entries of a page have been served: activation counted, the page open or closed. -/
def Bank.after (q : Bank) (page : Nat) (gone : List BankEntry) : Bank :=
  let hit := q.open? == some page
  let served := (if hit then q.served else 0) + gone.length
  let closes := match q.front.find? (fun e => pageOf e == page) with
    | some e => !e.winnowed || decide (bits e.cfg 15 8 ≤ served)
    | none => true
  { q with
    queue := q.queue.filter (fun e => !gone.contains e)
    open? := if closes then none else some page
    served := if closes then 0 else served
    acts := if hit then q.acts else q.acts + 1 }

def State.serve (s : State) (k b page : Nat) : State :=
  let x := s.stk k
  let q := x.bank b
  let l := q.toServe page
  (s.setStk k (x.setBank b (q.after page l))).serveList k b l

/-- A bank's activations have reached the stack's threshold (R219). -/
def Bank.rfmDue (k : Nat) (q : Bank) : Bool := decide (Config.rfmAfter k < q.acts)

/-- A bank's refresh is due: the interval is halved above 85 °C (R219, R221). -/
def Bank.refreshDue (level now : Nat) (q : Bank) : Bool :=
  let n := Config.refreshAfter + 1
  decide ((if 1 ≤ level then max 1 (n / 2) else n) ≤ now - q.fresh)

/-- Refresh and RFM go before the Winnower (R219). -/
def HbmStack.upkeepDue (x : HbmStack) (k pc now : Nat) : Bool :=
  (pcBanks pc).any (fun b => (x.bank b).rfmDue k || (x.bank b).refreshDue x.level now)

def Bank.close (q : Bank) : Bank := { q with open? := none, served := 0 }

/-- The refresh or RFM that a bank is due for. -/
def Bank.upkeep (k level now : Nat) (q : Bank) : Bank :=
  { q.close with
    acts := if q.rfmDue k then 0 else q.acts
    fresh := if q.refreshDue level now then now else q.fresh }

/-- A pseudo-channel does nothing while its stack is out of service (R222) or a recalibration has taken it (R401). -/
def HbmStack.waits (x : HbmStack) (pc : Nat) : Bool := x.oos || x.recal.contains pc

/-! ## Repair -/

/-- One sector of a row under repair: read through the code and written back as it was read; a poisoned one stays so.
What waits in the bank's queue comes after (R220). -/
def State.reread (s : State) (k sec : Nat) : State :=
  let (s, d) := s.decodeSector k sec false false []
  let x := s.stk k
  let v := x.sector sec
  if v.poison then s
  else
    let s := s.setStk k (x.setSector sec { v with bad := 0, odecc := [] })
    match d with
    | .wrong f => s.spread k sec f (x.bank (bankNo (64 * sec))).queue
    | _ => s

/-- A row is read through the code, corrected and written back (R220, R224). -/
def State.rereadRow (s : State) (k row : Nat) : State :=
  (List.range 16).foldl (fun s i => s.reread k (16 * row + i)) s

/-! ## Requests of the device's own engines -/

/-- What a pseudo-channel does next: a refresh or RFM that is due, or the Winnower's access. -/
def State.pcTurn (s : State) (k pc : Nat) : State :=
  let x := s.stk k
  let now := (s.md (k / 2)).clock
  match (pcBanks pc).find? (fun b => (x.bank b).rfmDue k || (x.bank b).refreshDue x.level now) with
  | some b => s.setStk k (x.setBank b ((x.bank b).upkeep k x.level now))
  | none =>
    match s.winnowChoice x pc now (List.range 48) with
    | (some (b, page), s) => s.serve k b page
    | (none, s) => s

/-- A pseudo-channel goes on until something holds, `n` turns at most. -/
def State.pcUntil (k pc : Nat) (done : State → Bool) : Nat → State → State
  | 0, s => s
  | n + 1, s => if done s then s else State.pcUntil k pc done n (s.pcTurn k pc)

/-- Turns that serve all that waits at a pseudo-channel: each access may leave a write-back and an RFM. -/
def State.backlog (s : State) (k pc : Nat) : Nat :=
  let x := s.stk k
  96 + 4 * ((pcBanks pc).map (fun b => (x.bank b).queue.length + 2 * (x.bank b).hold.length)).sum

/-- Places for a request's entries, behind the holds and within the 32 of its die (R206). -/
def State.fits (s : State) (k : Nat) (r : MemReq) (es : List (Nat × Nat × Nat × Bool)) : Bool :=
  let x := s.stk k
  x.room es && x.noHold es && s.agentRoom r

/-- What a request gets that waits while its pseudo-channel serves nothing: it fails where its sector cannot be read as
it stands, behind the writes that wait. -/
def State.foretold (s : State) (k : Nat) (r : MemReq) : Response :=
  let x := s.stk k
  let o := (hbmLoc s.fabric.quadLocal r.addr.toNat).2
  let bad := (sectorsOf o r.len).find? (fun p =>
    let v := x.sector (p.2.1 / 64)
    (v.poison || decide (2 ≤ v.bad)) && !(x.bank (bankNo p.2.1)).renews (p.2.1 / 64))
  match bad with
  | some p => ⟨r.who, offsetBytes p.1, 0x41, false⟩
  | none => ⟨r.who, if r.write then [] else readBytes s.mem (hbmKey k o) r.len, 0, false⟩

/-- A request of at most one sector by one of the device's own engines: an entry of its bank like every other (R206,
R209, R210, R241). A write is over with its admission. Within its event an engine waits for an answer while the
pseudo-channel goes on in the order of R207 and R208, each bank's timing allowing it; where the pseudo-channel is out of
service the entry stays, and the answer is told ahead (DESIGN CHOICE, log entry 131). -/
def State.ownRequest (s : State) (k : Nat) (r : MemReq) : State × Response :=
  let es := entriesOf (hbmLoc s.fabric.quadLocal r.addr.toNat).2 r.len
  let pc := (es.head?.map (·.1)).getD 0 / 48
  let idle := (s.stk k).waits pc
  let s := if idle then s else State.pcUntil k pc (fun s => s.fits k r es) (s.backlog k pc) s
  let seq := (s.md (k / 2)).nextSeq
  let told := s.foretold k r
  let s := s.admitReq k r
  let done (s : State) : Bool := !((s.md (k / 2)).jobs.any (fun j => j.seq == seq))
  let s := if idle then s else State.pcUntil k pc done (s.backlog k pc) s
  let M := s.md (k / 2)
  let s := s.setMd (k / 2) { M with jobs := M.jobs.filter (fun j => j.seq != seq) }
  let answer := (s.fabric.answers.find? (fun a => a.who == r.who)).getD told
  ({ s with fabric := { s.fabric with answers := s.fabric.answers.filter (fun a => a.who != r.who) } }, answer)

end Sys2Proof.Machine
end

