-- ==== Sys2Proof/Machine/MemOps.lean ====
section
/-! DEFINITION. Reads and writes of device-local addresses by every agent that is not a tile's access engine (R28,
R149, R202, R241, R384). -/
namespace Sys2Proof.Machine

/-- A byte as memory, tile SRAM or a store holds it. -/
def State.peekByte (s : State) (a : Nat) : Byte :=
  match s.locate a with
  | .hbm k o => Table.get 0 s.mem (hbmKey k o)
  | .sram d t o => Table.get 0 (s.tile d t).sram o
  | .store f o => Table.get 0 s.mem (storeKey f o)
  | _ => 0

/-- The byte of a write that changes one half alone, anywhere in the device (R103, R104). -/
def State.withHalf (s : State) (a : Nat) (half : Option Bool) (data : List Byte) : List Byte :=
  mergeHalf (s.peekByte a) half data

/-- Bytes read so far, or the first error: code and offset. -/
structure Got where
  data : List Byte
  err  : Option (Nat × Nat)
  deriving DecidableEq, Repr

/-- An address that leads nowhere answers ADDR_UNMAPPED and is logged (R28); the manual does not say by which die, and
here the steward logs it (DESIGN CHOICE, log entry 127). -/
def State.unmapped (s : State) (a : Nat) : State := s.logErr blkSteward { code := 0x20, src := 0, addr := a }

/-- An access to a save area is refused and logged by the tile's die (R149, R384). -/
def State.saveArea (s : State) (d t a : Nat) : State := s.logErr d { code := 0x25, src := 0, unit := t, addr := a }

/-- Block of the die behind an address of a tile window, a store or a register. -/
def State.homeOf (s : State) (a : Nat) : Option Nat :=
  match s.locate a with
  | .sram d _ _ => some d
  | .store f _ => some (56 + f)
  | .reg b _ => some (s.dieOf b)
  | _ => none

/-- No die answers at the address. -/
def State.gone (s : State) (a : Nat) : Bool :=
  match s.homeOf a with
  | some b => s.absent b
  | none => false

/-- A stack that is down answers HBM_STACK_DOWN, and the address is logged (R202). -/
def State.stackDown (s : State) (k a : Nat) : State :=
  s.logErr (blkMd (k / 2)) { code := 0x45, src := 13, unit := k % 2, addr := a }

/-- A request of the device's own request logic: at most one sector, as an entry of its bank (R205, R241). -/
def ownReq (k a n : Nat) (write : Bool) (l : List Byte) : MemReq :=
  ⟨.agent (Fin.ofNat 64 (blkMd (k / 2))) 0, write, BitVec.ofNat 48 a, n, l, none, 0⟩

/-- What reading one sector's worth gives: the bytes, or an error's code and its offset. -/
abbrev PieceRead := State × (List Byte ⊕ (Nat × Nat))

/-- One sector's worth, or an error's code and its offset. What an engine reads of a register is a free value (log entry
142). -/
def State.readPiece (s : State) (a n : Nat) : PieceRead :=
  if s.gone a then (s.unmapped a, .inr (0x20, 0))
  else match s.locate a with
  | .hbm k _ =>
    if (s.stk k).down then (s.stackDown k a, .inr (0x45, 0))
    else
      let (s, r) := s.ownRequest k (ownReq k a n false [])
      (s, if r.code = 0 then .inl r.data else .inr (r.code, ofLe r.data))
  | .sram d t o =>
    if s.reserved d t o then (s.saveArea d t a, .inr (0x25, 0)) else (s, .inl (readBytes (s.tile d t).sram o n))
  | .store f o => (s, .inl (readBytes s.mem (storeKey f o) n))
  | .reg _ _ =>
    let (f, s) := s.take
    (s, .inl ((List.range n).map (Config.registerByte f)))
  | .unmapped => (s.unmapped a, .inr (0x20, 0))

/-- A write of one sector's worth, or the error's code and its offset. What an engine writes to a register reaches it as
a REGISTER_WRITE of its own (log entry 142). -/
def State.writePiece (s : State) (a : Nat) (l : List Byte) : State × Option (Nat × Nat) :=
  if s.gone a then (s.unmapped a, some (0x20, 0))
  else match s.locate a with
  | .hbm k _ =>
    if (s.stk k).down then (s.stackDown k a, some (0x45, 0))
    else
      let (s, r) := s.ownRequest k (ownReq k a l.length true l)
      (s, if r.code = 0 then none else some (r.code, ofLe r.data))
  | .sram d t o =>
    if s.reserved d t o then (s.saveArea d t a, some (0x25, 0))
    else
      let T := s.tile d t
      (s.setTile d t { T with sram := writeBytes T.sram o l }, none)
  | .store f o => ({ s with mem := writeBytes s.mem (storeKey f o) l }, none)
  | .reg _ _ => (s, none)
  | .unmapped => (s.unmapped a, some (0x20, 0))

/-- A range read piece by piece, up to the first error. -/
def State.readLoop (piece : State → Nat → Nat → PieceRead) (s : State) (got : List Byte) :
    List (Nat × Nat × Nat) → State × Got
  | [] => (s, ⟨got, none⟩)
  | (off, a, n) :: l =>
    match piece s a n with
    | (s, .inl x) => State.readLoop piece s (got ++ x) l
    | (s, .inr (c, o)) => (s, ⟨got, some (c, off + o)⟩)

/-- Read a range of the device's memory, up to the first error. -/
def State.devRead (s : State) (a n : Nat) : State × Got :=
  let (s, g) := s.readLoop State.readPiece [] (sectorsOf a n)
  let (s, data) := s.cross g.data
  (s, { g with data := data })

/-- A range written piece by piece, up to the first error. -/
def State.writeLoop (piece : State → Nat → List Byte → State × Option (Nat × Nat)) (s : State) (l : List Byte) :
    List (Nat × Nat × Nat) → State × Option (Nat × Nat)
  | [] => (s, none)
  | (off, a, n) :: r =>
    match piece s a ((l.drop off).take n) with
    | (s, none) => State.writeLoop piece s l r
    | (s, some (c, o)) => (s, some (c, off + o))

/-- Write a range of the device's memory, up to the first error. -/
def State.devWrite (s : State) (a : Nat) (l : List Byte) : State × Option (Nat × Nat) :=
  let (s, l) := s.cross l
  s.writeLoop State.writePiece l (sectorsOf a l.length)

end Sys2Proof.Machine
end

