-- ==== Sys2Proof/Machine/Mem.lean ====
section
/-! DEFINITION. The memory dies' own events: arrival of requests (R204-R206, R209, R210), the Winnower (R207, R208),
patrol scrub (R218), refresh (R219), repair (R220), temperature (R221) and recalibration (R401). -/
namespace Sys2Proof.Machine

/-! ## Arrival -/

/-- Number of the edge over which a request of this requester arrives at a memory die (R210). -/
def State.arrivalEdge (s : State) (m : Nat) (who : Requester) : Nat :=
  let src := match who with
    | .tile d _ _ => d.val
    | .agent b _ => b.val
  match (s.path src (blkMd m) 0).map List.reverse with
  | some (_ :: n :: _) => Config.edgeNumber (blkMd m) n
  | _ => 0

/-- A memory die takes requests in the order of MCLK cycles, those of one cycle by the number of their edge (R210). -/
def State.arrives (s : State) (m c : Nat) (who : Requester) : Bool :=
  let M := s.md m
  decide (M.clock < c) || (M.clock == c && decide (M.lastEdge ≤ s.arrivalEdge m who))

/-- What a memory die does with a request that has reached it: an error response where it does not drive the stack or
the stack is down (R202, R204), a place in the queues or a hold otherwise (R206). -/
def State.takeReq (s : State) (m k : Nat) (r : MemReq) : State :=
  if k / 2 ≠ m then
    (s.logErr (blkMd m) { code := 0x26, src := 13, addr := r.addr.toNat }).respond r.who (offsetBytes 0) 0x26 false
  else if (s.stk k).down then
    (s.logErr (blkMd m) { code := 0x45, src := 13, unit := k % 2, addr := r.addr.toNat }).respond r.who (offsetBytes 0)
      0x45 false
  else s.enter k r

/-- R206, R209, R210, R204, R202. A request that meets two banks waits in the hold of the first that is full. -/
def execMemRequest (m : Fin 16) (x : Timed MemReq) (s : State) : Out :=
  let r := x.item
  if !(s.requestIs r && s.arrives m.val x.cycle r.who && s.agentRoom r) then .next s
  else
    match s.locate r.addr.toNat with
    | .hbm k _ =>
      let M := s.md m.val
      let s' := s.setMd m.val { M with clock := x.cycle, lastEdge := s.arrivalEdge m.val r.who }
      let (s', data) := s'.cross r.data
      .next ((s'.setStage r.who 1).takeReq m.val k { r with data := data })
    | _ => .next s

/-! ## The Winnower -/

/-- R207, R208. A pseudo-channel out of service serves nothing (R222, R401). `errs` are symbols that have gone wrong, by
sector, and `odecc` bursts that the stack's on-die ECC reports from now on, by number in it. -/
def execWinnowerAccess (m : Fin 16) (stack : Bool) (pc : Fin 64) (now : Nat) (banks : List Nat)
    (errs : List (Nat × Nat)) (odecc : List Nat) (s : State) : Out :=
  let M := s.md m.val
  let k := 2 * m.val + natOf stack
  let x := M.stk stack
  if x.waits pc.val || !x.trained || x.down || decide (now < M.clock) || x.upkeepDue k pc.val now then .next s
  else
    let s := (s.setMd m.val { M with clock := now }).setStk k (x.decay errs odecc)
    match s.winnowChoice x pc.val now banks with
    | (some (b, page), s) => .next (s.serve k b page)
    | (none, s) => .next s

/-! ## Scrub, refresh, repair -/

/-- MD_SCRUB_CFG as in force: SAFETY_LOCK keeps it at reset (R11). -/
def State.scrubCfgOf (s : State) (m : Nat) : BitVec 16 := if s.safetyLock then 0x0601 else (s.md m).scrubCfg

/-- A stack whose part of the pass is done, or that has none. -/
def HbmStack.scrubbed (x : HbmStack) : Bool := x.down || !x.trained || decide (sectorsPerStack ≤ x.scrub)

/-- A stack at the start of a pass: its corrections are counted and logged afresh (R215, R220). -/
def HbmStack.newPass (x : HbmStack) : HbmStack :=
  { x with
    scrub := 0, rowCorr := []
    sectors := (x.sectors.map (fun e => (e.1, { e.2 with corrected := false }))).filter
      (fun e => decide (e.2 ≠ Sector.clean)) }

/-- A pass ends when both stacks of the die have been read through, one that is not in service being left out (R218). -/
def MemDie.endPass (M : MemDie) (now : Nat) : MemDie :=
  let live (x : HbmStack) : Bool := x.trained && !x.down
  if (live M.st0 || live M.st1) && M.st0.scrubbed && M.st1.scrubbed then
    { M with
      st0 := M.st0.newPass, st1 := M.st1.newPass, passAt := now
      passes := BitVec.ofNat 32 (satInc 0xFFFFFFFF M.passes.toNat) }
  else M

/-! ### Gleaning's share of HBM (R402) -/

/-- HBM_BUDGET of a die's peak rate allows these bytes in 10 ms. -/
def State.gleanLimit (s : State) (m bytes : Nat) : Bool :=
  decide (spentIn s.alm.total (s.md m).spent + bytes ≤ 4915200 * s.glean.hbm.toNat)

def State.gleanSpend (s : State) (m bytes : Nat) : State :=
  s.setMd m { s.md m with spent := spend s.alm.total bytes (s.md m).spent }

/-- Sectors of a pass that have been read. -/
def MemDie.passDone (M : MemDie) : Nat := M.st0.scrub + M.st1.scrub

/-- The pass has fallen behind its PERIOD of hours: at this pace it would miss its cadence. -/
def State.passLate (s : State) (m : Nat) : Bool :=
  let M := s.md m
  decide (M.passDone * (bits (s.scrubCfgOf m) 15 8 * 3600000000) ≤ (s.alm.total - M.passAt) * (2 * sectorsPerStack))

/-- A Gleaning window is open for the task: bit i of TASKS, or one that no bit names (R402, R406). -/
def State.gleanOpen (s : State) (task : Option Nat) : Bool :=
  s.alm.windows.any (fun w => w.isOpen && (match task with
    | some i => w.tasks.getLsbD i
    | none => true))

/-- A bank whose queue holds fewer than 16 entries is a bubble (R402). -/
def Bank.bubble (q : Bank) : Bool := decide (q.queue.length < 16)

/-- Scrub's turn: a window, a bubble, or a pass that would miss its cadence. -/
def State.scrubTurn (s : State) (m k sec : Nat) : Bool :=
  s.gleanOpen none || ((s.stk k).bank (bankNo (64 * sec))).bubble || s.passLate m

/-- An access of a page outside the Winnower's: an activation unless the page is open, which it closes. -/
def Bank.touch (q : Bank) (page : Nat) : Bank :=
  { q.close with acts := if q.open? = some page then q.acts else q.acts + 1 }

/-- The next sector of a pass can be read: its pseudo-channel is in service, refresh and RFM are not due (R219), and
nothing admitted to the sector waits before it (R210). -/
def State.scrubReady (s : State) (m k sec : Nat) : Bool :=
  let x := s.stk k
  let pc := bankNo (64 * sec) / 48
  !x.waits pc && !x.upkeepDue k pc (s.md m).clock
    && (x.bank (bankNo (64 * sec))).queue.all (fun e => !e.sectors.contains sec)

/-- R218, R402: the next sector of the pass. A pass pauses while a stack of the die is out of service. `errs` are
symbols that have gone wrong in the sector and `odecc` bursts that the on-die ECC reports from now on. -/
def execScrubRead (m : Fin 16) (stack : Bool) (errs : Nat) (odecc : List (Fin 2)) (s : State) : Out :=
  let k := 2 * m.val + natOf stack
  let x := s.stk k
  let sec := x.scrub
  if !(s.scrubCfgOf m.val).getLsbD 0 || (s.md m.val).st0.oos || (s.md m.val).st1.oos then .next s
  else if x.scrubbed then .next (s.setMd m.val ((s.md m.val).endPass s.alm.total))
  else if !s.gleanLimit m.val 64 || !s.scrubTurn m.val k sec || !s.scrubReady m.val k sec then .next s
  else
    let s := s.gleanSpend m.val 64
    let x := (s.stk k).decay [(sec, errs)] (odecc.map (fun b => 2 * sec + b.val))
    let b := bankNo (64 * sec)
    let s := s.setStk k { x.setBank b ((x.bank b).touch (64 * sec / 1024)) with scrub := sec + 1 }
    let (s, _) := s.decodeSector k sec true true []
    .next (s.setMd m.val ((s.md m.val).endPass s.alm.total))

def State.onBank (s : State) (m : Nat) (stack : Bool) (b : Nat) (f : Bank → Bank) : State :=
  let k := 2 * m + natOf stack
  let x := s.stk k
  s.setStk k (x.setBank b (f (x.bank b)))

/-- R219. A refresh needs the bank's page closed. -/
def execRefresh (m : Fin 16) (stack : Bool) (pc : Fin 64) (bank : Timed (Fin 48)) (s : State) : Out :=
  let M := s.md m.val
  if bank.cycle < M.clock then .next s
  else
    let s := s.setMd m.val { M with clock := bank.cycle }
    .next (s.onBank m.val stack (pc.val * 48 + bank.item.val) (fun q => { q.close with fresh := bank.cycle }))

/-- R219. RFM is issued when the count of activations has reached the stack's threshold; the count starts again. -/
def execRfm (m : Fin 16) (stack : Bool) (pc : Fin 64) (bank : Fin 48) (s : State) : Out :=
  let k := 2 * m.val + natOf stack
  .next (s.onBank m.val stack (pc.val * 48 + bank.val) (fun q => if q.rfmDue k then { q.close with acts := 0 } else q))

/-- Bank group of a row: pseudo-channel, stack ID and bank[3:2] (R203). -/
def groupOfRow (row : Nat) : Nat := bankNo (row * 1024) / 4

def HbmStack.sparesLeft (x : HbmStack) (row : Nat) : Nat :=
  Config.spareRows - (x.repairs.filter (fun e => groupOfRow e.1 == groupOfRow row)).length

/-- R220: 4 or more corrections in one pass, or a sector poisoned other than by ECC_INJECT. -/
def HbmStack.candidate (x : HbmStack) (row : Nat) : Bool :=
  decide (4 ≤ Table.get 0 x.rowCorr row)
    || (List.range 16).any (fun i => (x.sector (16 * row + i)).poison && !(x.sector (16 * row + i)).injected)

/-- A repair's turn: the budget, and a window or a bubble in the row's bank (R402; log entry 140). -/
def State.repairTurn (s : State) (m k row : Nat) : Bool :=
  s.gleanLimit m 2048 && (s.gleanOpen none || ((s.stk k).bank (bankNo (1024 * row))).bubble)

/-- R220: the row is read through the code, mapped to a spare, a further one where it has one already, and written
back; poisoned sectors stay so. -/
def execRepairCandidate (m : Fin 16) (stack : Bool) (row : BitVec 26) (s : State) : Out :=
  let k := 2 * m.val + natOf stack
  let x := s.stk k
  let p := row.toNat
  if 16 * p + 15 < sectorsPerStack ∧ x.candidate p ∧ x.trained ∧ !x.down ∧ !x.waits (bankNo (1024 * p) / 48)
      ∧ s.repairTurn m.val k p then
    if x.sparesLeft p = 0 then
      .next (s.logErr (blkMd m.val) { code := 0x46, src := 13, unit := k % 2
                                      addr := hbmAddr s.fabric.quadLocal k (1024 * p) })
    else
      let s := (s.gleanSpend m.val 2048).rereadRow k p
      let x := s.stk k
      .next (s.setStk k { x with repairs := x.repairs ++ [(p, false)], rowCorr := Table.set 0 x.rowCorr p 0 })
  else .next s

/-! ## Temperature and recalibration -/

/-- LEVEL at a reading, from the level before it (R221): a level is left 3 °C below what raised it. Level 3
is taken by HBM_LEVEL3_THROTTLE. -/
def hbmLevel (thr old t : Nat) : Nat :=
  if old = 3 ∧ thr + 5 < t + 3 then 3
  else if thr ≤ t ∨ (2 ≤ old ∧ thr < t + 3) then 2
  else if 85 < t ∨ (1 ≤ old ∧ 85 < t + 3) then 1
  else 0

def throttleAt (M : MemDie) : Nat := bits M.cfg 31 24

def HbmStack.reading (x : HbmStack) (thr : Nat) (t : BitVec 8) : HbmStack :=
  { x with
    temp := t
    tempMax := if x.tempMax.toNat < t.toNat then t else x.tempMax
    level := hbmLevel thr x.level t.toNat
    hot := if thr + 5 ≤ t.toNat then x.hot + 1 else 0 }

def quadOfMd (m : Nat) : Nat := m / 4

/-- R221. A stack that reaches 105 °C raises the detection once for each crossing. -/
def execHbmTempPoll (m : Fin 16) (t0 t1 : BitVec 8) (s : State) : Out :=
  let M := s.md m.val
  let thr := throttleAt M
  let crosses (x : HbmStack) (t : BitVec 8) : Bool := decide (105 ≤ t.toNat) && decide (x.temp.toNat < 105)
  let o0 := crosses M.st0 t0
  let o1 := crosses M.st1 t1
  let M : MemDie := { M with st0 := M.st0.reading thr t0, st1 := M.st1.reading thr t1 }
  let s := s.setMd m.val M
  let s := if M.st0.level < 3 ∧ M.st1.level < 3 then
      s.release (holdThermal (blkMd m.val)) [quadOfMd m.val] else s
  let s := if o0 then s.logErr (blkMd m.val) { code := 0xB0, src := 13, unit := 0, detail := t0.toNat } else s
  .next (if o1 then s.logErr (blkMd m.val) { code := 0xB0, src := 13, unit := 1, detail := t1.toNat } else s)

/-- R221: ten readings in a row at T_THROTTLE + 5 °C or above make 1 ms. -/
def execHbmLevel3Throttle (m : Fin 16) (stack : Bool) (s : State) : Out :=
  let M := s.md m.val
  let x := M.stk stack
  if 10 ≤ x.hot ∧ x.level < 3 then
    let s := s.setMd m.val (M.setStk stack { x with level := 3 })
    .next (s.holdQuad (holdThermal (blkMd m.val)) (quadOfMd m.val))
  else .next s

/-- A pseudo-channel's recalibration is due: 64 ms after its last, or once the stack's temperature has changed by 5 °C
(R401). -/
def HbmStack.calDue (x : HbmStack) (pc now : Nat) : Bool :=
  let t := Table.get 0 x.calTemp pc
  decide (64000 ≤ now - Table.get 0 x.calAt pc) || decide (t + 5 ≤ x.temp.toNat) || decide (x.temp.toNat + 5 ≤ t)

/-- A recalibration's turn: in a window for it, with bubbles in all its banks, or when it is due (R402). -/
def State.calTurn (s : State) (k pc : Nat) : Bool :=
  let x := s.stk k
  s.glean.tasks.getLsbD 0
    && (s.gleanOpen (some 0) || (pcBanks pc).all (fun b => (x.bank b).bubble) || x.calDue pc s.alm.total)

/-- R401, R402, R406: a recalibration takes the pseudo-channel out of service, and its next event ends it; one that does
not converge is logged. -/
def execHbmRecalibration (m : Fin 16) (stack : Bool) (pc : Fin 64) (converged : Bool) (s : State) : Out :=
  let k := 2 * m.val + natOf stack
  let x := s.stk k
  if x.recal.contains pc.val then
    let s := s.setStk k { x with
      recal := x.recal.filter (· != pc.val), calAt := Table.set 0 x.calAt pc.val s.alm.total
      calTemp := Table.set 0 x.calTemp pc.val x.temp.toNat }
    if converged then .next s
    else .next (s.logErr (blkMd m.val) { code := 0xD1, src := 13, unit := k % 2, detail := pc.val })
  else if x.trained && !x.down && s.calTurn k pc.val then .next (s.setStk k { x with recal := x.recal ++ [pc.val] })
  else .next s

end Sys2Proof.Machine
end

