-- ==== Sys2Proof/Machine/Torus.lean ====
section
/-! DEFINITION. Torus ports: geometry and routing (R263, R270, R272, R273, R275), training (R265), flits and
their replay (R266-R268), credits and audits (R278-R281). -/
namespace Sys2Proof.Machine

/-! ## Routes -/

/-- Dimensions in the order of the ORDER field (R269). -/
def orderOf (o : Nat) : List Nat :=
  match o with
  | 1 => [0, 2, 1]
  | 2 => [1, 0, 2]
  | 3 => [1, 2, 0]
  | 4 => [2, 0, 1]
  | 5 => [2, 1, 0]
  | _ => [0, 1, 2]

/-- What R272 says of a packet at this device: delivered, or the direction it leaves by with its PHASE. -/
inductive Hop where
  | deliver
  | go (dir : Nat) (phase : Bool) (atVia : Bool)
  deriving DecidableEq, Repr

/-- The first dimension of an order that is not right yet. -/
def Net.dirTo (n : Net) (order : List Nat) (target : BitVec 16) : Option Nat :=
  order.findSome? (fun g =>
    let e := max 1 (n.ext g)
    let d := (axis target g + e - axis n.coord g % e) % e
    if d = 0 then none else some (2 * g + (if d ≤ e - d then 0 else 1)))

def Net.nextHop (n : Net) (k : Packet) : Hop :=
  let toVia := k.detour && !k.phase
  if toVia && k.via != n.coord then
    match n.dirTo (orderOf k.order.toNat) k.via with
    | some d => .go d false false
    | none => .deliver
  else if k.dest = n.coord then .deliver
  else
    match n.dirTo [0, 1, 2] k.dest with
    | some d => .go d (k.phase || toVia) toVia
    | none => .deliver

/-! ## Classes and virtual channels (R269, R270) -/

def poolOf (vc : Nat) : Nat :=
  match vc / 2 with
  | 3 => 128
  | 2 => 1920
  | _ => 1024

def fullPools : Table Nat := (List.range 8).map (fun v => (v, poolOf v))

/-! ## Link dies (R20) -/

/-- The link die that logs for a port. -/
def portBlock (p : Nat) : Nat := blkLd ((portLds p).headD 0)

def State.ld (s : State) (l : Nat) : LinkDie := Table.get LinkDie.reset s.net.lds l

def State.setLd (s : State) (l : Nat) (x : LinkDie) : State :=
  { s with net := { s.net with lds := Table.set LinkDie.reset s.net.lds l x } }

def State.countStale (s : State) (l : Nat) : State :=
  let x := s.ld l
  s.setLd l { x with stale := satInc 0xFFFFFFFF x.stale }

def State.countLate (s : State) (l : Nat) : State :=
  let x := s.ld l
  s.setLd l { x with late := satInc 0xFFFFFFFF x.late }

def PortState.num : PortState → Nat
  | .down => 0
  | .training => 1
  | .up => 2
  | .retrain => 3
  | .fenced => 4
  | .standby => 5

/-- Up, with role active: routing uses it (R273, R277). -/
def TorusPort.routes (p : TorusPort) : Bool := p.state == .up && p.role == 1

/-! ## Packets of this device -/

/-- A packet of this device before its injection. -/
def State.newPacket (s : State) (dest : BitVec 16) (ptype : Nat) (gen id : Nat) (tag : BitVec 16)
    (addr : BitVec 48) (arg : BitVec 64) (data : List Byte) : Packet :=
  { dest := dest, src := s.net.coord, via := 0, ptype := BitVec.ofNat 6 ptype, order := 0, phase := false
    detour := false, len := data.length, season := BitVec.ofNat 4 s.alm.season.toNat
    gen := BitVec.ofNat 8 gen, id := BitVec.ofNat 16 id, born := BitVec.ofNat 16 s.alm.now.toNat
    tag := tag, addr := addr, arg := arg, data := data }

def State.pushOut (s : State) (k : Packet) : State :=
  { s with net := { s.net with out := s.net.out ++ [k] } }

/-- An answer goes back to a packet's source under the packet's own identifier. -/
def State.answerPacket (s : State) (k : Packet) (ptype : Nat) (arg : BitVec 64) (data : List Byte) : Packet :=
  s.newPacket k.src ptype k.gen.toNat k.id.toNat k.tag k.addr arg data

def State.errorBack (s : State) (k : Packet) (code : Nat) : State :=
  s.pushOut (s.answerPacket k 0x05 (BitVec.ofNat 64 code) [])

/-- At injection: the beat and Season of now, and the first detour entry that matches (R275). -/
def Net.detourFor (n : Net) (dest : BitVec 16) : Option (BitVec 64) :=
  ((List.range 64).map (fun e => Table.get 0 n.detour e)).find? (fun w =>
    w.getLsbD 63 && (dest.toNat ^^^ bits w 61 46) &&& bits w 45 30 == 0)

/-- A packet leaves at link die `l`: SEASON and BORN are those of its Almanac (R282). -/
def State.born (s : State) (l : Nat) (k : Packet) : Packet :=
  { k with season := BitVec.ofNat 4 (s.almOf (blkLd l)).season.toNat, born := BitVec.ofNat 16 (s.nowAt (blkLd l)) }

def State.inject (s : State) (l : Nat) (k : Packet) : Packet :=
  let k := s.born l k
  match s.net.detourFor k.dest with
  | none => k
  | some w => { k with
      detour := true, phase := false, order := BitVec.ofNat 3 (bits w 13 11)
      via := if w.getLsbD 62 then k.dest else BitVec.ofNat 16 (bits w 29 14) }

/-! ## Remote-request slots (R282, R284) -/

def State.rem (s : State) (i : Nat) : RemSlot := Table.get RemSlot.reset s.net.remote i

def State.setRem (s : State) (i : Nat) (x : RemSlot) : State :=
  { s with net := { s.net with remote := Table.set RemSlot.reset s.net.remote i x } }

def nextGen (g : Nat) : Nat := if g = 255 then 1 else g + 1

/-- The request in a slot completes with what it says. -/
def State.finishRemote (s : State) (i : Nat) (data : List Byte) (code : Nat) : State :=
  let r := s.rem i
  match r.busy with
  | none => s
  | some who => (s.setRem i { r with busy := none }).respond who data code false

/-- Slot of an identifier of class REQ or RSP. -/
def slotOfId (id : BitVec 16) : Nat := id.toNat % 2 ^ 15

/-! ## Routing a packet out -/

/-- Where a packet goes: a port, nowhere for now, or no port at all (R273, R276). -/
inductive PortPick where
  | port (p : Nat)
  | wait
  | none
  deriving DecidableEq, Repr

def popcount {w : Nat} (x : BitVec w) : Nat := ((List.range w).filter (fun i => x.getLsbD i)).length

def State.pickPort (s : State) (dir vc : Nat) (k : Packet) : PortPick :=
  let a := 2 * dir
  let b := 2 * dir + 1
  let A := s.port a
  let B := s.port b
  let retr (x : TorusPort) : Bool := x.state == .retrain && x.role == 1
  if classOf k.ptype = some 2 then
    if A.routes && B.routes then
      (if Table.get 0 A.credits vc < Table.get 0 B.credits vc then .port b else .port a)
    else if A.routes then .port a
    else if B.routes then .port b
    else if retr A || retr B then .wait
    else .none
  else
    let even := (popcount (k.dest ^^^ k.src ^^^ BitVec.ofNat 16 (bits k.addr 21 6))) % 2 == 0
    let (p, q) := if even then (a, b) else (b, a)
    let P := s.port p
    let Q := s.port q
    if P.routes then .port p
    else if retr P then .wait
    else if Q.routes then .port q
    else if retr Q then .wait
    else .none

/-- The dateline bit of a hop (R270): 0 at injection, at a turn and at the VIA point; 1 once the wrap link of
the dimension is crossed. -/
def Net.dateline (n : Net) (dir : Nat) (from? : Option (Nat × Nat)) (atVia : Bool) : Nat :=
  let g := dir / 2
  let e := max 1 (n.ext g)
  let v := axis n.coord g
  let wraps := if dir % 2 = 0 then v + 1 == e else v == 0
  let old := match from? with
    | some (p, vc) => if dirOf p / 2 = g ∧ !atVia then vc % 2 else 0
    | none => 0
  if wraps then 1 else old

/-- A packet that this device holds leaves by a port; `none` for one that waits, its virtual channel for one that finds
no port. -/
def State.route? (s : State) (from? : Option (Nat × Nat)) (k : Packet) : Option (Except Nat (Nat × Nat × Packet)) :=
  match s.net.nextHop k with
  | .deliver => none
  | .go d ph via =>
    let vc := 2 * (classOf k.ptype).getD 0 + s.net.dateline d from? via
    let k := { k with phase := ph }
    match s.pickPort d vc k with
    | .port p => some (.ok (p, vc, k))
    | .wait => none
    | .none => some (.error vc)

def State.enqueue (s : State) (p vc : Nat) (k : Packet) : State :=
  let P := s.port p
  s.setPort p { P with queue := P.queue ++ flitsOf vc k }

/-- A request of this device completes with an error, if its slot still waits for it (R282). -/
def State.failOwn (s : State) (k : Packet) (code : Nat) : State :=
  if (s.rem (slotOfId k.id)).gen = k.gen.toNat then s.finishRemote (slotOfId k.id) (offsetBytes 0) code else s

/-- A packet that cannot go on its virtual channel: its requester hears of it, unless it is a response or control packet
(R276). -/
def State.noRoute (s : State) (l vc : Nat) (k : Packet) : State :=
  let s := s.logErr (blkLd l) { code := 0x64, src := 14, addr := k.addr.toNat, detail := vc }
  match classOf k.ptype with
  | some 1 => s
  | some 3 => s
  | some 2 => s.errorBack k 0x64
  | _ => if k.src = s.net.coord then s.failOwn k 0x64 else s.errorBack k 0x64

/-- A packet of this device that is lost: its request completes with ROUTE_NONE, its collective hears of it, and the
requester of a lost response gets an error response, one that was one already its own. -/
def State.loseOwn (s : State) (k : Packet) : State :=
  match classOf k.ptype with
  | some 0 => s.failOwn k 0x64
  | some 1 => s.pushOut (s.newPacket k.dest 0x05 k.gen.toNat k.id.toNat k.tag k.addr
      (if k.ptype = 0x05 then k.arg else 0x64) [])
  | some 2 => s.errorBack k 0x64
  | _ => s

/-! ## Fencing (R268, R281) -/

/-- A transit packet that a fenced port discards: ERROR_RSP ROUTE_NONE goes to its source. -/
def State.loseTransit (s : State) (k : Packet) : State :=
  if k.src = s.net.coord then s.loseOwn k else s.errorBack k 0x64

/-- A port goes to FENCED: packets with a flit in the replay buffer are lost, those behind wait for another
port. With the buddy's last port its Harvests are lost too (R371). -/
def State.fencePort (s : State) (p : Nat) : State :=
  let P := s.port p
  let lost := (P.replay.filterMap (·.pkt)).eraseDups
  let kept := ((P.queue.filterMap (fun f => f.pkt.map (fun k => (p, f.flit.vc.val, k)))).eraseDups).filter
    (fun e => !lost.contains e.2.2)
  let s := s.setPort p { P with state := .fenced, replay := [], resend := 0, queue := [], rx := [], nakRun := 0 }
  let s := { s with net := { s.net with parked := s.net.parked ++ kept } }
  (lost.foldl State.loseTransit s).copiesLost

def State.retrainPort (s : State) (p : Nat) : State :=
  let P := s.port p
  let s := s.setPort p { P with
    state := .retrain, fromStandby := P.state == .standby, retrains := satInc 0xFFFF P.retrains, nakRun := 0 }
  s.logErr (portBlock p) { code := 0x61, src := 14, unit := p }

/-! ## Receive buffers (R267, R278) -/

/-- Buffers of a channel that stand empty are freed, 127 at most between two reports. -/
def TorusPort.release (P : TorusPort) (vc : Nat) : TorusPort :=
  let n := min (Table.get 0 P.vacated vc) (127 - Table.get 0 P.freed vc)
  { P with
    vacated := Table.set 0 P.vacated vc (Table.get 0 P.vacated vc - n)
    freed := Table.set 0 P.freed vc (Table.get 0 P.freed vc + n)
    used := Table.set 0 P.used vc (Table.get 0 P.used vc - n)
    back := Table.set 0 P.back vc ((Table.get 0 P.back vc + n) % 128) }

/-- A packet of `n` flits has left the channel's buffers. -/
def TorusPort.vacate (P : TorusPort) (vc n : Nat) : TorusPort :=
  { P with vacated := Table.set 0 P.vacated vc (min (Table.get 0 P.used vc) (Table.get 0 P.vacated vc + n)) }.release vc

/-- The channel's CTOT has been reported. -/
def TorusPort.reported (P : TorusPort) (vc : Nat) : TorusPort :=
  { P with freed := Table.set 0 P.freed vc 0 }.release vc

def TorusPort.reportedAll (P : TorusPort) : TorusPort := (List.range 8).foldl TorusPort.reported P

def State.freeBuffers (s : State) (p vc : Nat) (k : Packet) : State :=
  s.setPort p ((s.port p).vacate vc (flitCount k))

/-- What an AUDIT flit says: free buffers and CTOT of each channel as they stand, two bytes each (R280). -/
def TorusPort.auditBytes (P : TorusPort) : List Byte :=
  (List.range 8).flatMap (fun v =>
    leBytes 2 (poolOf v - Table.get 0 P.used v) ++ leBytes 2 (Table.get 0 P.back v))

def TorusPort.auditFlit (P : TorusPort) : Flit := bareFlit 2 0 true true 32 P.auditBytes

/-! ## Transmitting -/

/-- First flit in the queue on a channel of a class that holds credit. -/
def TorusPort.sendable (P : TorusPort) (cls : Nat) : Option BufFlit :=
  P.queue.find? (fun f => f.flit.kind == 1 && f.flit.vc.val / 2 == cls
    && decide (0 < Table.get 0 P.credits f.flit.vc.val)
    && ((P.queue.find? (fun g => g.flit.kind == 1 && g.flit.vc == f.flit.vc)) == some f))

/-- The new flit sent next (R270): link control, CTRL, RSP, then COLL and REQ in turn. -/
def TorusPort.next (P : TorusPort) : Option BufFlit :=
  match P.queue.find? (fun f => f.flit.kind == 2) with
  | some f => some f
  | none =>
    match P.sendable 3 with
    | some f => some f
    | none =>
      match P.sendable 1 with
      | some f => some f
      | none =>
        let a := P.sendable (if P.turn then 0 else 2)
        match a with
        | some f => some f
        | none => P.sendable (if P.turn then 2 else 0)

/-- The link-level fields of a flit as it leaves (R266, R267): what was last received in order, whether to replay from
there, and the CTOT of the channel whose turn it is. -/
def TorusPort.stamp (P : TorusPort) (f : Flit) (seq : BitVec 12) : Flit :=
  { f with
    seq := seq, ack := BitVec.ofNat 12 (P.expect + 4095), nak := P.nakOut
    cvc := Fin.ofNat 8 P.cvc, ctot := BitVec.ofNat 7 (Table.get 0 P.back P.cvc) }.seal

/-- A flit has left: its report counts, and the next one is another channel's (R267). -/
def TorusPort.sent (P : TorusPort) : TorusPort :=
  { P.reported P.cvc with cvc := (P.cvc + 1) % 8, nakOut := false }

/-- A flit of the replay buffer goes out again with the report of now; its credit is spent already. -/
def TorusPort.sendAgain (P : TorusPort) : TorusPort :=
  let i := P.replay.length - P.resend
  let again (b : BufFlit) : BufFlit := { b with flit := P.stamp b.flit b.flit.seq }
  { P with
    replay := updAt P.replay i again, resend := P.resend - 1,
    wire := (P.replay[i]?).map (fun b => (again b).flit) }.sent

/-- A new flit goes out and into the replay buffer. An AUDIT flit takes up the counts of this cycle, which report every
channel (R280). -/
def TorusPort.sendNew (P : TorusPort) (b : BufFlit) : TorusPort :=
  let vc := b.flit.vc.val
  let audit := b == controlFlit
  let f := P.stamp (if audit then P.auditFlit else b.flit) (BitVec.ofNat 12 P.seq)
  let P : TorusPort := { P with
    queue := P.queue.erase b
    replay := P.replay ++ [⟨f, b.pkt⟩]
    wire := some f
    seq := (P.seq + 1) % 4096
    credits := if f.kind = 1 then Table.set 0 P.credits vc (Table.get 0 P.credits vc - 1) else P.credits
    turn := if f.kind = 1 ∧ (vc / 2 = 0 ∨ vc / 2 = 2) then vc / 2 == 2 else P.turn }
  if audit then P.sent.reportedAll else P.sent

/-- An idle flit: ACK, NAK and CTOT, no SEQ and no place in the replay buffer. -/
def TorusPort.idle (P : TorusPort) : TorusPort :=
  { P with wire := some (P.stamp (bareFlit 0 0 false false 0 []) 0) }.sent

def TorusPort.transmit (P : TorusPort) : TorusPort :=
  if P.resend ≠ 0 then P.sendAgain
  else match (if P.replay.length < 2048 then P.next else none) with
  | some b => P.sendNew b
  | none => P.idle

/-- A port that carries flits. -/
def TorusPort.live (P : TorusPort) : Bool := P.state == .up || P.state == .standby

/-- R267, R270, R278: what a NAK has called for goes first, then a new flit with a credit for its channel; with none to
send, an idle flit carries ACK and CTOT. -/
def execFlitTransmit (p : Fin 12) (s : State) : Out :=
  let P := s.port p.val
  .next (if P.live then s.setPort p.val P.transmit else s)

/-! ## Receiving -/

/-- Flits up to and with `ack` leave the replay buffer. -/
def TorusPort.acked (P : TorusPort) (ack : BitVec 12) : TorusPort :=
  let l := if P.replay.any (fun f => f.flit.seq == ack) then (P.replay.dropWhile (fun f => f.flit.seq != ack)).drop 1
    else P.replay
  { P with replay := l, resend := min P.resend l.length }

/-- Credits regained from a running total (R267, R278). -/
def TorusPort.regain (P : TorusPort) (vc total : Nat) : TorusPort :=
  let d := (total + 128 - Table.get 0 P.ctot vc % 128) % 128
  { P with
    credits := Table.set 0 P.credits vc (Table.get 0 P.credits vc + d)
    ctot := Table.set 0 P.ctot vc (total % 128) }

/-- ACK, NAK and CTOT of a good flit; a NAK has everything past its ACK sent again. Answers whether 8 NAKs in a row
named one SEQ (R268). -/
def TorusPort.control (P : TorusPort) (f : Flit) : TorusPort × Bool :=
  let P := (P.regain f.cvc.val f.ctot.toNat).acked f.ack
  if f.nak then
    let n := if P.nakRun ≠ 0 ∧ P.nakSeq = f.ack.toNat then P.nakRun + 1 else 1
    ({ P with
      resend := P.replay.length, replays := satInc 0xFFFF P.replays, nakSeq := f.ack.toNat, nakRun := n },
      decide (8 ≤ n))
  else (P, false)

/-- A flit's payload joins its packet, and a packet that ends is whole (R269). -/
def TorusPort.collect (P : TorusPort) (f : Flit) : TorusPort × Option Packet :=
  let vc := f.vc.val
  let l := (if f.sop then [] else Table.get [] P.rx vc) ++ f.valid
  if f.eop then ({ P with rx := Table.set [] P.rx vc [] }, some (packetOf l))
  else ({ P with rx := Table.set [] P.rx vc l }, none)

/-- A packet or link-control flit that is good: taken if it is the next one, else asked for again (R267). -/
def State.acceptFlit (s : State) (p : Nat) (f : Flit) : State :=
  let P := s.port p
  if f.seq.toNat ≠ P.expect then s.setPort p { P with nakOut := true }
  else
    let P : TorusPort := { P with expect := (P.expect + 1) % 4096 }
    if f.kind = 1 then
      let (P, k?) := { P with used := Table.set 0 P.used f.vc.val (Table.get 0 P.used f.vc.val + 1) }.collect f
      let s := s.setPort p P
      match k? with
      | some k => { s with net := { s.net with
          arrived := s.net.arrived ++ [⟨p, f.vc.val, k, s.nowAt (portBlock p)⟩] } }
      | none => s
    else s.setPort p P

/-- A code of 30 check symbols corrects 15 wrong ones (R266). -/
def rsLimit : Nat := 15

/-- Codewords that were corrected, and codewords past correction. -/
def wordsCorrected (x : Received) : Nat := (x.wrong.filter (fun n => n != 0 && decide (n ≤ rsLimit))).length
def wordsLost (x : Received) : Nat := (x.wrong.filter (fun n => decide (rsLimit < n))).length

/-- R266-R268: the codewords are counted; a flit whose CRC fails shows nothing else, and calls for a replay if it was
one that has a SEQ. -/
def execFlitReceive (p : Fin 12) (x : Received) (s : State) : Out :=
  let P := s.port p.val
  if !P.live then .next s
  else
    let f := x.flit
    let P : TorusPort := { P with
      corr := satAdd 0xFFFFFFFF P.corr (wordsCorrected x), uncorr := satAdd 0xFFFF P.uncorr (wordsLost x) }
    if !f.good then .next (s.setPort p.val { P with nakOut := P.nakOut || f.sequenced })
    else
      let (P, eight) := P.control f
      let s := s.setPort p.val P
      let s := if f.sequenced then s.acceptFlit p.val f else s
      .next (if eight then s.retrainPort p.val else s)

/-- R268. -/
def execLaneLockLost (p : Fin 12) (s : State) : Out :=
  let P := s.port p.val
  if P.live then .next (s.retrainPort p.val) else .next s

/-! ## Training (R265) -/

def TorusPort.fresh (P : TorusPort) (st : PortState) : TorusPort :=
  { P with
    state := st, seq := 0, replay := [], resend := 0, credits := fullPools, ctot := [], expect := 0, nakOut := false
    used := [], back := [], cvc := 0, freed := [], vacated := [], rx := [], fromStandby := false
    nakSeq := 0, nakRun := 0, failed := 0 }

/-- Whether what the peer sent passes the check: a device without a coordinate checks nothing, and a standby
port takes a null coordinate. -/
def State.peerOk (s : State) (p : Nat) (peer : Option (BitVec 16)) : Bool :=
  !s.net.coordValid
    || (match peer with
        | none => (s.port p).role == 2
        | some c => c == s.net.neighbour (dirOf p))

/-- What the training of a port has found of its peer, and the DELAY flit that it sends (R265, R315). -/
def TorusPort.met (P : TorusPort) (x : Peer) : TorusPort :=
  { P with peer := x.coord.getD P.peer, delay := some x.delay, queue := P.queue ++ [delayFlit] }

/-- R265: a trained port comes up or stays down; a standby port that becomes active exchanges coordinates
again. -/
def execLinkTrainingComplete (p : Fin 12) (ok : Bool) (peer : Peer) (s : State) : Out :=
  let P := s.port p.val
  let P := if ok then P.met peer else P
  let good := s.peerOk p.val peer.coord
  if P.state = .training then
    if !ok then .next (s.setPort p.val { P with state := .down })
    else if good then
      .next (s.setPort p.val (P.fresh (if !s.net.coordValid || P.role == 2 then .standby else .up)))
    else .next ((s.setPort p.val { P with state := .down, queue := [] }).logErr (portBlock p.val)
      { code := 0x60, src := 14, unit := p.val })
  else if P.state = .standby ∧ P.role = 1 ∧ s.net.coordValid then
    if ok && good then .next (s.setPort p.val { P with state := .up })
    else
      .next (((s.setPort p.val P).fencePort p.val).logErr (portBlock p.val) { code := 0x60, src := 14, unit := p.val })
  else .next s

/-- Flits of a channel that are to be sent again. -/
def TorusPort.unheld (P : TorusPort) (vc : Nat) : Nat :=
  (P.replay.filter (fun b => b.flit.kind == 1 && b.flit.vc.val == vc)).length

/-- R281: both ends' audits have been exchanged. The peer's sets the credits, less those that the flits past its ACK
spend as they are sent again; the own one, outside the sequence that the replay goes on with, has reported every
channel. -/
def TorusPort.resume (P : TorusPort) (a : Audit) (st : PortState) : TorusPort :=
  let P := { P with wire := some (P.stamp P.auditFlit 0) }.acked a.ack
  { P with
    state := st, failed := 0, resend := P.replay.length
    credits := (List.range 8).foldl (fun t v =>
      Table.set 0 t v (a.free.getD v (Table.get 0 P.credits v) - P.unheld v)) []
    ctot := (List.range 8).foldl (fun t v => Table.set 0 t v (a.ctot.getD v 0).toNat) [] }.reportedAll

/-- R281: traffic resumes; a port that was in STANDBY goes back there (R265). The third failure in succession fences the
port (R268). -/
def execRetrainComplete (p : Fin 12) (ok : Bool) (audit : Audit) (s : State) : Out :=
  let P := s.port p.val
  if P.state ≠ .retrain then .next s
  else if ok then
    .next (s.setPort p.val (P.resume audit
      (if s.net.coordValid && P.role == 1 && !P.fromStandby then .up else .standby)))
  else if P.failed + 1 < 3 then .next (s.setPort p.val { P with failed := P.failed + 1 })
  else
    let s := (s.setPort p.val { P with failed := P.failed + 1 }).fencePort p.val
    .next (s.logErr (portBlock p.val) { code := 0x62, src := 14, unit := p.val })

/-! ## Credit audits (R280) -/

/-- A port's audit is due: its AUDIT flit waits to be sent, and a DELAY flit behind it (R280, R315). -/
def State.queueAudit (s : State) (p : Nat) : State :=
  let P := s.port p
  s.setPort p { P with queue := P.queue ++ [controlFlit, delayFlit] }

/-- Bytes of the link-control flits of an audit, which its margin check takes with it (R401). -/
def auditBytes : Nat := 512

/-- The margin check that belongs to an audit is made: without it the task would miss its cadence, and LINK_BUDGET of
the port's raw rate leaves room for it (R401, R402). -/
def State.marginTurn (s : State) (p : Nat) : Bool :=
  s.glean.tasks.getLsbD 1
    && decide (spentIn s.alm.total (s.port p).spent + auditBytes ≤ 896000 * s.glean.link.toNat)

/-- R280, R401: the audit flit goes out; a margin check that fails retrains the port and logs RECAL_FAIL. -/
def execCreditAudit (p : Fin 12) (marginOk : Bool) (s : State) : Out :=
  if (s.port p.val).live then
    let turn := s.marginTurn p.val
    let s := s.queueAudit p.val
    if turn then
      let P := s.port p.val
      let s := s.setPort p.val { P with spent := spend s.alm.total auditBytes P.spent }
      if marginOk then .next s
      else .next ((s.logErr (portBlock p.val) { code := 0xD1, src := 14, unit := p.val }).retrainPort p.val)
    else .next s
  else .next s

/-- One channel of an audit: the receiver's figure stands, and a difference is a mismatch. -/
def State.auditVc (s : State) (p vc free : Nat) : State :=
  let P := s.port p
  if Table.get 0 P.credits vc = free then s
  else
    let s := s.setPort p { P with credits := Table.set 0 P.credits vc free }
    let l := (portLds p).headD 0
    let x := s.ld l
    let s := s.setLd l { x with misses := satInc 0xFFFF x.misses, missPort := p, missVc := vc }
    s.logErr (portBlock p) { code := 0x63, src := 14, unit := p, detail := vc }

/-- R280, R315: credits compared channel by channel; the delay of the exchange is kept, and an audit that MAINT_EXIT
waits for has run (R351). -/
def execAuditFlit (p : Fin 12) (free : List Nat) (ctot : List (BitVec 7)) (delay : BitVec 32) (s : State) : Out :=
  let P := s.port p.val
  if P.live then
    let P := ctot.zipIdx.foldl (fun (P : TorusPort) e => if e.2 < 8 then P.regain e.2 e.1.toNat else P) P
    let s := s.setPort p.val { P with delay := some delay }
    let s : State := { s with net := { s.net with unheard := s.net.unheard.filter (· != p.val) } }
    let l := (portLds p.val).headD 0
    let x := s.ld l
    let s := s.setLd l { x with audits := satInc 0xFFFFFFFF x.audits }
    .next ((free.take 8).zipIdx.foldl (fun s e => s.auditVc p.val e.2 e.1) s)
  else .next s

end Sys2Proof.Machine
end

