-- ==== Sys2Proof/Machine/Forward.lean ====
section
/-! DEFINITION. Packets in a link die: injection (R275, R282), the stale test (R283), forwarding and delivery
(R272-R276), and requests without an answer (R284). -/
namespace Sys2Proof.Machine

/-! ## The stale test -/

/-- Season and age (R283) by a link die's own Almanac (R311). -/
def State.fresh (s : State) (l : Nat) (k : Packet) : Bool :=
  k.season == BitVec.ofNat 4 (s.almOf (blkLd l)).season.toNat
    && decide ((s.nowAt (blkLd l) % 65536 + 65536 - k.born.toNat) % 65536 ≤ s.net.lifetime.toNat)

inductive Verdict where
  | deliver | early | stale
  deriving DecidableEq, Repr

/-- (GEN − current) mod 255. -/
def genDiff (gen cur : Nat) : Nat := (gen + 255 - cur % 255) % 255

/-- TAG of the packets of a collective or a Rotation; a remote request carries 0. Their answers carry it back. -/
def tagColl : BitVec 16 := 1
def tagRot : BitVec 16 := 2
/-- TAG of the holder's verdict on a Harvest (R368). -/
def tagHarvest : BitVec 16 := 3

/-- The generation test at the destination. A request's slot belongs to its sender, so a request passes. -/
def State.genTest (s : State) (k : Packet) : Verdict :=
  let test (cur : Nat) : Verdict := if genDiff k.gen.toNat cur = 0 then .deliver else .stale
  match classOf k.ptype with
  | some 0 => .deliver
  | some 1 =>
    let r := s.rem (slotOfId k.id)
    if k.tag = tagColl then test (s.colls (k.id.toNat % 256)).gen
    else if k.tag = tagRot then test s.net.rotGen
    else if k.tag = tagHarvest then (if s.hrv.state = 2 ∧ s.hrv.phase = 7 then .deliver else .stale)
    else if r.busy.isSome then test r.gen
    else .stale
  | _ =>
    if k.ptype = 0x12 then test s.net.rotGen
    else if k.ptype = 0x21 then test s.net.voteGen
    else if k.ptype = 0x20 then test s.alm.gen.toNat
    else
      let cur := (s.colls (k.id.toNat % 256)).gen
      let d := genDiff k.gen.toNat cur
      if d = 0 then .deliver else if d = 1 then .early else .stale

/-! ## Early packets (R283) -/

def earlyBytes (s : State) (l : Nat) : Nat :=
  s.net.colls.foldl (fun n e =>
    n + ((e.2.early.filter (fun x => x.ld == l)).map (fun x => 32 + x.pkt.len)).sum) 0

def earlySize : Nat := 0x100000

/-! ## Towards a port (R271, R274) -/

def portLd (q : Nat) : Nat := (portLds q).headD 0

/-- A packet of the same flow is between two link dies, or has been given up by a port. -/
def State.flowAway (s : State) (k : Packet) : Bool :=
  s.net.crossing.any (fun x => x.pkt.sameFlow k) || s.net.parked.any (fun e => e.2.2.sameFlow k)

/-- A packet of the same flow is in the buffers of another port than `q`. -/
def State.flowElsewhere (s : State) (q : Nat) (k : Packet) : Bool :=
  s.net.ports.any (fun e => e.1 != q && (e.2.queue ++ e.2.replay).any (fun b => b.pkt.any (fun j => j.sameFlow k)))

/-- A packet leaves link die `l` for a port: into the queue where the port is the die's own, else across the die fabric
along a path through memory dies (R271). It waits where no path is open, and where a packet of its flow is still on its
way to another port. -/
def State.leave (s : State) (l q vc : Nat) (k : Packet) : Option State :=
  if s.flowElsewhere q k then none
  else if (portLds q).contains l then some (s.enqueue q vc k)
  else if (s.path (blkLd l) (blkLd (portLd q)) 0).isSome then
    some { s with net := { s.net with crossing := s.net.crossing ++ [⟨l, q, vc, k⟩] } }
  else none

/-- A packet has crossed to the sending link die; a port that has been lost meanwhile gives it up. -/
def State.endCrossing (s : State) (x : Crossing) : State :=
  let s := { s with net := { s.net with crossing := s.net.crossing.erase x } }
  let P := s.port x.port
  if (P.state == .up || P.state == .retrain) && P.role == 1 then s.enqueue x.port x.vc x.pkt
  else { s with net := { s.net with parked := s.net.parked ++ [(x.port, x.vc, x.pkt)] } }

/-! ## Injection of requests (R282) -/

/-- The lowest slot of a link die that is free and not blocked. -/
def State.freeRem (s : State) (l : Nat) : Option Nat :=
  ((List.range 4096).map (fun i => l * 4096 + i)).find? (fun i =>
    (s.rem i).busy.isNone && decide ((s.rem i).block ≤ s.alm.total))

/-- A READ names its bytes in ARG; it carries none. -/
def RemoteReq.argOf (w : RemoteReq) : BitVec 64 := if w.ptype = 2 then BitVec.ofNat 64 w.len else w.arg

/-- The request's packet, but for what its slot and its injection give it. -/
def RemoteReq.shape (s : State) (w : RemoteReq) : Packet := s.newPacket w.dest w.ptype.toNat 0 0 0 w.addr w.argOf w.data

def RemoteReq.is (w : RemoteReq) (k : Packet) : Bool :=
  w.dest == k.dest && w.ptype == k.ptype && w.addr == k.addr && w.argOf == k.arg && w.data == k.data

/-- A request takes a slot of the link die and leaves, or fails at once for want of a port. -/
def State.injectReq (s : State) (l : Nat) (w : RemoteReq) : State :=
  match s.freeRem l with
  | none => s
  | some i =>
    let r := s.rem i
    let g := nextGen r.gen
    let k := s.inject l (s.newPacket w.dest w.ptype.toNat g i 0 w.addr w.argOf w.data)
    let taken : State := { s with net := { s.net with waiting := s.net.waiting.erase w } }
    let taken := taken.setRem i { r with
      gen := g, busy := some w.who, since := s.alm.total, addr := w.dest ++ w.addr }
    match s.route? none k with
    | none => s
    | some (.ok (p, vc, k)) => if s.flowAway k then s else (taken.leave l p vc k).getD s
    | some (.error vc) =>
      (taken.logErr (blkLd l) { code := 0x64, src := 14, addr := k.addr.toNat, detail := vc }).finishRemote i
        (offsetBytes 0) 0x64

/-! ## Delivery -/

/-- A packet has reached its destination: into the inbox, the early store, or away as stale. -/
def State.arrive (s : State) (x : Delivered) : State :=
  match s.genTest x.pkt with
  | .deliver => { s with net := { s.net with inbox := s.net.inbox ++ [x] } }
  | .early =>
    let slot := x.pkt.id.toNat % 256
    let c := s.colls slot
    s.setColl slot { c with early := c.early ++ [x] }
  | .stale => s.countStale x.ld

/-- An early packet that finds its store full waits where it is. -/
def State.earlyWaits (s : State) (l : Nat) (k : Packet) : Bool :=
  s.net.nextHop k == .deliver && s.genTest k == .early && decide (earlySize < earlyBytes s l + 32 + k.len)

def rotRoundOf (k : Packet) : Nat := bits k.arg 31 16

/-- A chunk of a later round of the Rotation waits in the COLL buffers (R301). -/
def State.rotWaits (s : State) (k : Packet) : Bool :=
  k.ptype == 0x12 && s.genTest k == .deliver &&
    (match s.net.rot with
      | some r => decide (r.round < rotRoundOf k)
      | none => false)

/-- A packet waits in its receive buffers: a BEAT for this device until BEAT consumes it at its port (R314), a later
round's chunk. -/
def State.staysHere (s : State) (k : Packet) : Bool := s.net.nextHop k == .deliver && (k.ptype == 0x20 || s.rotWaits k)

/-- A fresh packet goes on from where it is: delivered, unless it has to wait for the early store, sent to a port,
or without one (R276). `taken` is the state without it, `beat` when it was accepted. -/
def State.onward (s taken : State) (l : Nat) (came : Option (Nat × Nat)) (beat : Nat) (k : Packet) : State :=
  if s.net.nextHop k = .deliver then (if s.earlyWaits l k then s else taken.arrive ⟨l, k, beat⟩)
  else
    match s.route? came k with
    | none => s
    | some (.ok (q, vc, k)) => (taken.leave l q vc k).getD s
    | some (.error vc) => taken.noRoute l vc k

/-- A packet that has been received is taken whole: stale, unknown, delivered, or sent on. -/
def State.transit (s : State) (l : Nat) (e : Arrival) : State :=
  let k := e.pkt
  let taken : State :=
    let s := s.freeBuffers e.port e.vc k
    { s with net := { s.net with arrived := s.net.arrived.erase e } }
  if (classOf k.ptype).isNone then
    taken.logErr (blkLd l) { code := 0x65, src := 14, unit := e.port, addr := k.addr.toNat, detail := e.vc }
  else if !s.fresh l k ∧ !(k.ptype = 0x20 ∧ s.net.nextHop k = .deliver) then taken.countStale l
  else if s.staysHere k || s.flowAway k then s
  else s.onward taken l (some (e.port, e.vc)) e.beat k

/-- A packet that a port has given up takes another way. -/
def State.unshelve (s : State) (l : Nat) (e : Nat × Nat × Packet) : State :=
  let (p, vc, k) := e
  let taken : State := { s with net := { s.net with parked := s.net.parked.erase e } }
  if s.fresh l k then s.onward taken l (some (p, vc)) (s.nowAt (blkLd l)) k else taken.countStale l

/-- A packet of this device's own leaves, or comes straight back when it is meant for itself. -/
def State.sendOwn (s : State) (l : Nat) (k : Packet) : State :=
  let taken : State := { s with net := { s.net with out := s.net.out.erase k } }
  if s.flowAway (s.inject l k) then s else s.onward taken l none (s.nowAt (blkLd l)) (s.inject l k)

/-- R271-R276, R283: of a packet that has crossed to the link die of its port, of one that arrived on one of the link
die's ports, of one that a port has given up, of one of the device's own, or of a request that waits for a slot; each
behind the earlier ones of its flow (R274). -/
def execPacketForward (l : Fin 8) (k : Packet) (s : State) : Out :=
  let n := s.net
  match n.crossing.find? (fun x => x.pkt == k && (portLds x.port).contains l.val) with
  | some x => .next (if inFlow (·.pkt) x n.crossing then s.endCrossing x else s)
  | none =>
    match n.arrived.find? (fun e => e.pkt == k && (portLds e.port).contains l.val) with
    | some e => .next (if inFlow (·.pkt) e n.arrived then s.transit l.val e else s)
    | none =>
      match n.parked.find? (fun e => e.2.2 == k) with
      | some e => .next (if inFlow (fun x => x.2.2) e n.parked then s.unshelve l.val e else s)
      | none =>
        if !n.coordValid then .next s
        else if n.out.contains k then .next (if inFlow id k n.out then s.sendOwn l.val k else s)
        else
          match n.waiting.find? (fun w => w.is k) with
          | some w => .next (if inFlow (RemoteReq.shape s) w n.waiting then s.injectReq l.val w else s)
          | none => .next s

/-- R284, R384: the link die logs the request's address; the slot is not used again for LIFETIME beats. -/
def execRemoteTimeout (l : Fin 8) (slot : Fin 4096) (s : State) : Out :=
  let i := l.val * 4096 + slot.val
  let r := s.rem i
  if r.busy.isSome ∧ r.since + s.net.reqTimeout.toNat ≤ s.alm.total then
    let s := s.logErr (blkLd l.val) { code := 0x27, src := 0, addr := r.addr.toNat }
    let s := s.finishRemote i (offsetBytes 0) 0x27
    .next (s.setRem i { s.rem i with gen := nextGen r.gen, block := s.alm.total + s.net.lifetime.toNat })
  else .next s

/-! ## The inbox -/

/-- A delivered packet of this type is taken, behind the earlier ones of its flow. -/
def State.takeDelivered (s : State) (k : Packet) (t : Nat) : Option (Delivered × State) :=
  match s.net.inbox.find? (fun x => x.pkt == k && k.ptype.toNat == t) with
  | some x =>
    if inFlow (·.pkt) x s.net.inbox then
      some (x, { s with net := { s.net with inbox := s.net.inbox.erase x } })
    else none
  | none => none

def State.takePacket (s : State) (k : Packet) (t : Nat) : Option State := (s.takeDelivered k t).map (·.2)

end Sys2Proof.Machine
end

