-- ==== Sys2Proof/Machine/Group.lean ====
section
/-! DEFINITION. Groups of devices (R286) and the vote round over the job group (R245, R294). -/
namespace Sys2Proof.Machine

/-! ## Groups -/

/-- A box group: sizes, steps, origin (R286, R303). -/
structure Box where
  nx : Nat
  ny : Nat
  nz : Nat
  sx : Nat
  sy : Nat
  sz : Nat
  origin : BitVec 16
  deriving DecidableEq, Repr

def boxOf (w : BitVec 64) : Box :=
  { nx := bits w 21 16 + 1, ny := bits w 27 22 + 1, nz := bits w 31 28 + 1
    sx := max 1 (bits w 37 32), sy := max 1 (bits w 43 38), sz := max 1 (bits w 47 44)
    origin := BitVec.ofNat 16 (bits w 15 0) }

def Box.size (b : Box) : Nat := b.nx * b.ny * b.nz

/-- Coordinate of a rank of a box. -/
def Box.member (b : Box) (n : Net) (r : Nat) : BitVec 16 :=
  let ix := r % b.nx
  let iy := r / b.nx % b.ny
  let iz := r / (b.nx * b.ny)
  mkCoord ((coordX b.origin + ix * b.sx) % max 1 (n.ext 0)) ((coordY b.origin + iy * b.sy) % max 1 (n.ext 1))
    ((coordZ b.origin + iz * b.sz) % max 1 (n.ext 2))

/-- Members of a group in rank order, or the error that its list met. -/
def State.members (s : State) (w : BitVec 64) (addr : Nat) : State × (List (BitVec 16) ⊕ (Nat × Nat)) :=
  if w.getLsbD 63 then
    let n := bits w 62 48
    let (s, g) := s.devRead addr (2 * n)
    match g.err with
    | some (code, off) => (s, .inr (code, addr + off))
    | none => (s, .inl ((List.range n).map (fun i => BitVec.ofNat 16 (leField g.data (2 * i) 2))))
  else (s, .inl ((List.range (boxOf w).size).map ((boxOf w).member s.net)))

def indexOf? {α : Type} [DecidableEq α] (x : α) (l : List α) : Option Nat :=
  (List.range l.length).find? (fun i => l[i]? == some x)

/-! ## The vote round (R294) -/

/-- Parent of a rank in the tree: one step toward 0 along Z, then Y, then X. A list is one chain of ranks. -/
def voteParent (w : BitVec 64) (r : Nat) : Option Nat :=
  if w.getLsbD 63 then (if r = 0 then none else some (r - 1))
  else
    let b := boxOf w
    let plane := b.nx * b.ny
    if r / plane ≠ 0 then some (r - plane)
    else if r / b.nx ≠ 0 then some (r - b.nx)
    else if r ≠ 0 then some (r - 1)
    else none

def votePacket (s : State) (dest : BitVec 16) (word : BitVec 8) : Packet :=
  s.newPacket dest 0x21 s.net.voteGen 0xFFFF 0 0 (word.setWidth 64) []

def State.pushVote (s : State) (dest : List (BitVec 16)) (word : BitVec 8) : State :=
  dest.foldl (fun s d => s.pushOut (votePacket s d word)) s

/-- Every child has answered: the word goes up, or is the result at rank 0 and goes back down. -/
def State.voteOn (s : State) (v : VoteRun) : State :=
  if !v.due.isEmpty ∨ v.result.isSome then { s with net := { s.net with vote := some v } }
  else
    match v.parent with
    | some p =>
      let s := { s with net := { s.net with vote := some v } }
      s.pushVote [p] v.word
    | none =>
      let s := { s with net := { s.net with vote := some { v with result := some v.word } } }
      s.pushVote v.children v.word

/-- This device enters the round with its word (R245). A device outside the job group votes alone. -/
def State.enterVote (s : State) (word : BitVec 8) : State :=
  let s := { s with net := { s.net with voteGen := nextGen s.net.voteGen } }
  let alone : VoteRun := ⟨word, [], [], none, none⟩
  if !s.net.coordValid then s.voteOn alone
  else
    let (s, m) := s.members s.net.job s.net.jobAddr.toNat
    match m with
    | .inr _ => s.voteOn alone
    | .inl l =>
      match indexOf? s.net.coord l with
      | none => s.voteOn alone
      | some r =>
        let kids := (List.range l.length).filter (fun i => voteParent s.net.job i == some r)
        let at? (i : Nat) : BitVec 16 := l.getD i 0
        let children := kids.map at?
        s.voteOn ⟨word, children, children, (voteParent s.net.job r).map at?, none⟩

end Sys2Proof.Machine
end

