-- ==== Sys2Proof/Machine/Sow.lean ====
section
/-! DEFINITION. The Sowing Log (R362-R365): its records, their mirror, and the commands SOW_CFG and SOW_OPEN;
and the Harvest point of a commit (R366). -/
namespace Sys2Proof.Machine

/-! ## Records (R362) -/

def Sow.slot (w : Sow) (step : Nat) : Nat := step % max 1 w.records.toNat

def Sow.addr (w : Sow) (step : Nat) : Nat := w.base.toNat + 512 * w.slot step

/-- A record with its CRC made right. -/
def sealRecord (r : List Byte) : List Byte :=
  let body := fitBytes 0x1F8 r
  body ++ leBytes 8 (crc32 body).toNat

def recordSound (r : List Byte) : Bool :=
  r.length == 512 && leField r 0x1F8 4 == (crc32 (r.take 0x1F8)).toNat

/-- The open record of a step, as the ring holds it. -/
def State.openRecord (s : State) (step : Nat) : Option (List Byte) :=
  if !s.sow.en then none
  else
    let r := (s.devRead (s.sow.addr step) 512).2.data
    if recordSound r && leField r 0 8 == step && leField r 0x0A 1 == 0 then some r else none

/-- The record's latest state goes to the buddy (R365); without a coordinate that write fails at once. -/
def State.mirror (s : State) (step : Nat) (r : List Byte) : State :=
  let w := s.sow
  let key := BitVec.ofNat 64 step
  let s : State := { s with sow := { w with
    seq := w.seq + 1, lag := w.lag.filter (fun (e : LagEntry) => e.step != key) ++ [⟨key, w.seq, false⟩] } }
  if s.net.coordValid then
    s.remoteWrite (fun _ => mirrorId w.seq) s.buddy (w.mirrorOut.toNat + 512 * w.slot step) r
  else s.stewardAck (mirrorId w.seq) 0x22 []

/-- A record changes state: it is written to the ring and mirrored. -/
def State.writeRecord (s : State) (step : Nat) (r : List Byte) : State × Option (Nat × Nat) :=
  let r := sealRecord r
  let (s, e) := s.devWrite (s.sow.addr step) r
  (s.mirror step r, e)

/-! ## Harvest points (R366) -/

/-- STEP of the last Harvest: of one whose point has come, of one that is being taken, or of the last complete one. -/
def Harvest.last (h : Harvest) : Nat :=
  if h.pointDue then h.dueStep.toNat
  else if h.state = 1 ∨ h.state = 2 then h.step.toNat
  else if h.anyDone then h.doneStep.toNat
  else 0

/-- The commit of this step is a Harvest point. -/
def State.isPoint (s : State) (step : Nat) : Bool :=
  let h := s.hrv
  h.take || (h.auto && decide (h.last + h.interval.toNat ≤ step))

def State.harvestPoint (s : State) (step : Nat) : State :=
  { s with hrv := { s.hrv with
    pointDue := true, take := false, dueStep := BitVec.ofNat 64 step, dueBeat := s.alm.now,
    dueSeason := s.alm.season } }

/-! ## What COLL and UPDATE add (R363) -/

/-- The counts of a COLL at its completion, launched or not. A FIRST_LAUNCH of 0 is that of none yet. -/
def State.sowColl (s : State) (step : Nat) (launch : Option (BitVec 64)) (deadline : Option Nat)
    (exclIn exclOut carried stale nEff : Nat) : State :=
  match s.openRecord step with
  | none => s
  | some r =>
    let first := leField r 0xA8 8
    let n := leField r 0xEC 4
    let add (r : List Byte) (off k : Nat) : List Byte := putField r off 4 (leField r off 4 + k)
    let r := match launch with
      | some b => putField r 0xA8 8 (if first = 0 then b.toNat else min first b.toNat)
      | none => r
    let r := putField r 0xB0 8 (max (leField r 0xB0 8) (deadline.getD 0))
    let r := add (add (add (add r 0xD8 exclIn) 0xDC exclOut) 0xE0 carried) 0xE4 stale
    let r := putField r 0xE8 4 (if n = 0 then nEff else min (leField r 0xE8 4) nEff)
    let r := putField r 0xEC 4 (n + 1)
    (s.devWrite (s.sow.addr step) (sealRecord r)).1

/-- What an UPDATE writes into the record it closes. -/
structure SowClose where
  voteBeat : BitVec 64
  before   : BitVec 32
  after    : BitVec 32
  clean    : BitVec 32
  vote     : BitVec 8
  upd      : Nat
  point    : Bool

def State.sowClose (s : State) (step : Nat) (c : SowClose) : State :=
  match s.openRecord step with
  | none => s
  | some r =>
    let r := putField r 0x0A 2 (1 + leField r 0x0B 1 % 2 * 256 + natOf c.point * 512)
    let r := putField r 0xB8 8 c.voteBeat.toNat
    let r := putField r 0xC0 8 s.alm.now.toNat
    let r := putField (putField r 0xC8 4 c.before.toNat) 0xCC 4 c.after.toNat
    let r := putField (putField (putField r 0xD0 4 c.clean.toNat) 0xD4 1 c.vote.toNat) 0xD5 1 c.upd
    let s := (s.writeRecord step r).1
    if s.sow.step.toNat = step then { s with sow := { s.sow with isOpen := false } } else s

/-! ## Commands -/

/-- A Harvest or a restore is running (R382). -/
def State.harvesting (s : State) : Bool :=
  s.hrv.pointDue || s.hrv.state == 1 || s.hrv.state == 2 || s.hrv.restore.isSome

/-- R382. -/
def execSowCfg (cid : Nat) (s : State) : Out :=
  s.withCmd cid 0x0901 (fun s c =>
    if s.harvesting then s.reply c stBusy 0
    else
      let s := { s with sow := { s.sow with
        base := BitVec.ofNat 48 (c.u 0 8), records := BitVec.ofNat 32 (c.u 8 4), dir := BitVec.ofNat 8 (c.u 0xC 1)
        en := c.u 0xD 1 % 2 == 1, mirrorOut := BitVec.ofNat 48 (c.u 0x10 8)
        mirrorIn := BitVec.ofNat 48 (c.u 0x18 8) } }
      s.reply c stOk 0)

/-- The record that SOW_OPEN writes (R362). -/
def openRecordOf (s : State) (c : Cmd) : List Byte :=
  let runs := c.u 0x10 1
  fitBytes 0x1F8
    (leBytes 8 (c.u 0 8)
      ++ leBytes 8 (s.alm.season.toNat + c.u 0x11 1 % 2 * 2 ^ 24)
      ++ leBytes 8 (c.u 8 8) ++ leBytes 8 runs ++ (c.params.drop 0x18).take 128
      ++ leBytes 8 s.alm.now.toNat ++ List.replicate 0x28 0
      ++ leBytes 8 (0xFF * 2 ^ 40) ++ List.replicate 0x28 0
      ++ (c.params.drop 0x98).take 64)

/-- The converter seed of a bank of tile t on logical die n (R364); SCOUNT goes to 0 (R66). -/
def CvtBank.seeded (b : CvtBank) (seed : BitVec 64) : CvtBank := { b with seed := seed, scount := 0 }

/-- A WRCR to a bank's seed. One that an aborted stream has issued has landed before the step's seed is written. -/
def Landing.seeds : Landing → Bool
  | .cvtReg _ off _ => off == 0x08
  | _ => false

def State.seedTile (s : State) (seed : BitVec 64) (n t : Nat) : State :=
  let v := seed ^^^ BitVec.ofNat 64 (n * 2 ^ 56) ^^^ BitVec.ofNat 64 (t * 2 ^ 40)
  let T := s.tile n t
  s.setTile n t { T with
    pend := T.pend.filter (fun p => !p.eff.seeds)
    ctx0 := { T.ctx0 with cvt := T.ctx0.cvt.seeded v }
    ctx1 := { T.ctx1 with cvt := T.ctx1.cvt.seeded (v ^^^ BitVec.ofNat 64 (2 ^ 63)) } }

def State.seedAll (s : State) (seed : BitVec 64) : State :=
  (List.range 32).foldl (fun s n => (List.range 144).foldl (fun s t => s.seedTile seed n t) s) s

/-- Every tile's main context is IDLE or HALTED. -/
def State.mainIdle (s : State) : Bool := s.tiles.all (fun e => e.2.stream == .idle || e.2.stream == .halted)

/-- R363, R364. -/
def execSowOpen (cid : Nat) (s : State) : Out :=
  s.withCmd cid 0x0902 (fun s c =>
    if !s.mainIdle || !s.sow.en then s.reply c stBusy 0
    else
      let step := c.u 0 8
      let (s, e) := s.writeRecord step (openRecordOf s c)
      let s := { s with sow := { s.sow with
        step := BitVec.ofNat 64 step, isOpen := true, replay := c.u 0x11 1 % 2 == 1, any := true } }
      let s := s.seedAll (BitVec.ofNat 64 (c.u 8 8))
      s.reply c (match e with
        | some (code, _) => stErr code
        | none => stOk) 0)

/-- The ports of the buddy's direction with role active are UP. -/
def State.buddyUp (s : State) : Bool :=
  let l := [s.port (2 * s.sow.dir.toNat), s.port (2 * s.sow.dir.toNat + 1)].filter (fun p => p.role == 1)
  !l.isEmpty && l.all (fun p => p.state == .up)

/-- The failed entry of the lowest step. -/
def oldestFailed (l : List LagEntry) : Option LagEntry :=
  (l.filter (·.failed)).foldl (fun b e =>
    match b with
    | some x => if e.step < x.step then some e else some x
    | none => some e) none

def State.remirrorN (s : State) : Nat → State
  | 0 => s
  | n + 1 =>
    match oldestFailed s.sow.lag with
    | none => s
    | some e =>
      let (s, g) := s.devRead (s.sow.addr e.step.toNat) 512
      (s.mirror e.step.toNat g.data).remirrorN n

/-- R365. -/
def execSowRemirror (s : State) : Out :=
  if s.buddyUp ∧ s.net.coordValid then
    .next (s.remirrorN (s.sow.lag.filter (·.failed)).length)
  else .next s

end Sys2Proof.Machine
end

