-- ==== Sys2Proof/Machine/Train.lean ====
section
/-! DEFINITION. The update engines (R233-R242), the overflow vote and the loss scale (R243-R248, R251, R258). -/
namespace Sys2Proof.Machine

/-! ## FP32 arithmetic on codes -/

def f32 (c : Nat) : FVal := fp32.decode c
def f32mul (a b : Nat) : Nat := (mulVal fp32 .nearest (f32 a) (f32 b)).1
def f32add (a b : Nat) : Nat := (addVal fp32 .nearest (f32 a) (f32 b)).1
def f32sub (a b : Nat) : Nat := (subVal fp32 .nearest (f32 a) (f32 b)).1
def f32div (a b : Nat) : Nat := (divVal fp32 .nearest (f32 a) (f32 b)).1
def f32sqrt (a : Nat) : Nat := (sqrtVal fp32 .nearest (f32 a)).1
def f32fma (a b c : Nat) : Nat := (fmaVal fp32 .nearest (f32 a) (f32 b) (f32 c)).1

/-- Neither infinite nor NaN. -/
def f32fin (c : Nat) : Bool := decide (c % 2 ^ 31 < 0x7F800000)

/-- sign(±0) = +0 (R237). -/
def f32sign (c : Nat) : Nat :=
  match f32 c with
  | .nan _ _ _ => c
  | .fin _ 0 _ => 0
  | v => if v.neg? then 0xBF800000 else 0x3F800000

/-! ## Segments (R233-R235) -/

structure Segment where
  stack  : Nat
  rowLog : Nat
  wcFmt  : Nat
  count  : Nat
  w      : Nat
  m      : Nat
  v      : Nat
  g      : Nat
  wc     : Nat
  scl    : Nat
  cnt    : Nat
  zero   : Nat
  deriving DecidableEq, Repr

def segmentOf (l : List (BitVec 64)) : Segment :=
  let w (i : Nat) : BitVec 64 := l.getD i 0
  { stack := bits (w 0) 63 59, rowLog := bits (w 0) 55 52, wcFmt := bits (w 0) 51 48, count := bits (w 0) 31 0
    w := (w 1).toNat, m := (w 2).toNat, v := (w 3).toNat, g := (w 4).toNat, wc := (w 5).toNat, scl := (w 6).toNat
    cnt := (w 7).toNat, zero := bits (w 0) 58 56 + bits (w 0) 47 32 }

def Segment.copied (g : Segment) : Bool := g.wcFmt != 0xF
def Segment.rows (g : Segment) : Nat := (g.count + 2 ^ g.rowLog - 1) / 2 ^ g.rowLog

/-- Elements of a 4 KiB chunk. -/
def perChunk (esz : Nat) : Nat := 4096 / esz

def wcBytes (fmt : Nat) : Nat := if fmt = 4 then 1 else 2

/-- Arrays of a segment: base and chunks. -/
def Segment.arrays (g : Segment) (adam : Bool) : List (Nat × Nat) :=
  let chunks (n esz : Nat) : Nat := (n + perChunk esz - 1) / perChunk esz
  [(g.w, chunks g.count 4), (g.m, chunks g.count 4), (g.g, chunks g.count 2)]
    ++ (if adam then [(g.v, chunks g.count 4)] else [])
    ++ (if g.copied then [(g.wc, chunks g.count (wcBytes g.wcFmt)), (g.scl, chunks g.rows 8)] else [])

def State.stride (s : State) : Nat := if s.fabric.quadLocal then 0x8000 else 0x20000

/-- Stack offsets that an array takes, when it lies whole on its stack. -/
def State.arraySpan (s : State) (stack : Nat) (e : Nat × Nat) : Option (Nat × Nat) :=
  if e.1 % 4096 ≠ 0 ∨ 2 ^ 48 ≤ e.1 then none
  else
    match s.locate e.1, s.locate (e.1 + (e.2 - 1) * s.stride) with
    | .hbm k o, .hbm k' o' =>
      if k = stack ∧ k' = stack ∧ o' = o + (e.2 - 1) * 4096 then some (o, o + e.2 * 4096) else none
    | _, _ => none

def apart : List (Nat × Nat) → Bool
  | [] => true
  | x :: l => l.all (fun y => decide (x.2 ≤ y.1) || decide (y.2 ≤ x.1)) && apart l

/-- R233, R235. -/
def State.segmentOk (s : State) (g : Segment) (adam : Bool) : Bool :=
  let spans := (g.arrays adam).map (s.arraySpan g.stack)
  g.zero == 0 && decide (6 ≤ g.rowLog) && decide (g.rowLog ≤ 12) && (g.wcFmt == 2 || g.wcFmt == 4 || g.wcFmt == 0xF)
    && decide (1 ≤ g.count) && decide (g.count ≤ 2 ^ 30) && (adam || g.v == 0)
    && (g.copied || (g.wc == 0 && g.scl == 0)) && g.cnt % 8 == 0 && decide (g.cnt < hbmEnd)
    && spans.all Option.isSome && apart (spans.filterMap id)

/-- The contiguous pieces of elements p to p + n of a stack-striped array: address and bytes. -/
def stripePieces (base stride esz p n : Nat) : List (Nat × Nat) :=
  let per := perChunk esz
  if n = 0 then []
  else (List.range ((p + n - 1) / per + 1 - p / per)).map (fun i =>
    let c := p / per + i
    let lo := max p (c * per)
    let hi := min (p + n) (c * per + per)
    (base + c * stride + esz * (lo % per), esz * (hi - lo)))

def State.readPieces (s : State) (got : List Byte) : List (Nat × Nat) → State × (List Byte ⊕ (Nat × Nat))
  | [] => (s, .inl got)
  | (a, n) :: l =>
    let (s, g) := s.devRead a n
    match g.err with
    | some (code, off) => (s, .inr (code, a + off))
    | none => s.readPieces (got ++ g.data) l

/-- Several striped ranges read one after the other, up to the first error. -/
def State.readParts (s : State) (got : List (List Byte)) : List (List (Nat × Nat)) →
    State × (List (List Byte) ⊕ (Nat × Nat))
  | [] => (s, .inl got)
  | l :: rest =>
    match s.readPieces [] l with
    | (s, .inl x) => s.readParts (got ++ [x]) rest
    | (s, .inr e) => (s, .inr e)

/-- The writes of a range, one for each sector it meets. -/
def sectorWrites (data : List Byte) (pieces : List (Nat × Nat)) : List (Nat × List Byte) :=
  let l := pieces.flatMap (fun p => sectorsOf p.1 p.2)
  (l.foldl (fun (acc : List (Nat × List Byte) × List Byte) e =>
    (acc.1 ++ [(e.2.1, acc.2.take e.2.2)], acc.2.drop e.2.2)) ([], data)).1

/-- Every one of these writes; with it the first error, code and address, and the device as it left it. -/
def State.writeOn (s : State) (first : Option (Nat × Nat × State)) : List (Nat × List Byte) →
    State × Option (Nat × Nat × State)
  | [] => (s, first)
  | (a, l) :: rest =>
    match s.devWrite a l with
    | (s, none) => s.writeOn first rest
    | (s, some (code, off)) => s.writeOn (some (first.getD (code, a + off, s))) rest

/-- Elements as numbers. -/
def elems (esz : Nat) (l : List Byte) : List Nat :=
  (List.range (l.length / esz)).map (fun i => leField l (esz * i) esz)

def bytesOf (esz : Nat) (l : List Nat) : List Byte := l.flatMap (leBytes esz)

/-! ## The rules (R237) -/

/-- A parameter's state: master weight and moments. -/
structure Param where
  w : Nat
  m : Nat
  v : Nat
  deriving DecidableEq, Repr

/-- `none` where a result is not finite and the parameter stays as it is. -/
def applyRule (c : Cmd) (gs : Nat) (grad : Nat) (p : Param) : Option Param :=
  let b1 := c.u 0x20 4
  let omb1 := c.u 0x24 4
  let b2 := c.u 0x28 4
  let omb2 := c.u 0x2C 4
  let lr := c.u 0x3C 4
  let wd := c.u 0x40 4
  let g := f32mul (grad * 65536) gs
  let step (u : Nat) : Nat := f32sub p.w (f32mul lr (f32fma wd p.w u))
  let (w, m, v) :=
    match c.u 8 1 with
    | 0 =>
      let m := f32fma b1 p.m g
      (step m, m, p.v)
    | 1 =>
      let m := f32fma b1 p.m (f32mul omb1 g)
      let v := f32fma b2 p.v (f32mul omb2 (f32mul g g))
      let u := f32div (f32mul m (c.u 0x30 4)) (f32add (f32sqrt (f32mul v (c.u 0x34 4))) (c.u 0x38 4))
      (step u, m, v)
    | _ =>
      let k := f32fma b1 p.m (f32mul omb1 g)
      (step (f32sign k), f32fma b2 p.m (f32mul omb2 g), p.v)
  let finite := f32fin g && f32fin m && f32fin w && (c.u 8 1 != 1 || f32fin v)
  if finite then some ⟨w, m, v⟩ else none

/-- Scale, row maximum and copy of one row of new weights (R239). -/
def copyRow (fmt target : Nat) (ws : List Nat) : Nat × Nat × List Nat :=
  let rmax := ws.foldl (fun a w => (maxminVal fp32 true (f32 a) ((f32 w).withSign false)).1) 0
  let plus (sign mag : Nat) (c : Nat) : Nat := if c % mag = 0 ∧ c = sign then 0 else c
  if fmt = 2 then (f32One, rmax, ws.map (fun w => plus 0x8000 0x8000 (bf16.ofVal .nearest (f32 w)).1))
  else
    let q := f32div target rmax
    let s := if rmax = 0 then f32One else if f32P127 < q ∧ q ≤ 0x7F800000 then f32P127 else q
    (s, rmax, ws.map (fun w =>
      match f32 w, f32 s with
      | .fin n m e, .fin _ m' e' => plus 0x80 0x80 (e4m3.round .nearest n (m * m') (e + e') false).1
      | v, sc => (mulVal e4m3 .nearest v sc).1))

/-! ## Running a segment -/

/-- What a segment has done so far. At its first fault it stops, with the device and its counts as they were then; what
the rest of it would have written is followed on, for the mix that is left (R242, R257). -/
structure SegAcc where
  s     : State
  run   : SegRun
  fault : Option (State × SegRun)

def State.segError (s : State) (die code addr : Nat) : State :=
  s.logErr (blkMd die) { code := code, src := 12, addr := addr }

def SegAcc.fail (a : SegAcc) (s : State) (die : Nat) (e : Nat × Nat) : SegAcc :=
  { a with fault := some (a.fault.getD (s.segError die e.1 e.2, { a.run with status := 4 })) }

/-- Places of memory that a segment writes: every array but G. -/
def State.segSpans (s : State) (adam : Bool) (r : SegRun) : List (Nat × Nat) :=
  let g := segmentOf r.words
  ((g.arrays adam).filter (fun e => e.1 != g.g)).filterMap (fun e =>
    (s.arraySpan g.stack e).map (fun p => (hbmKey g.stack p.1, hbmKey g.stack p.2)))

/-- Memory within these places in an undefined mix of what it was and what it has become (R242): a free value chooses
for each byte that differs. -/
def State.mixMem (s : State) (spans : List (Nat × Nat)) (old new : Memory) : State :=
  let (n, s) := s.take
  let keys := ((old ++ new).map (·.1)).filter (fun k => spans.any (fun p => decide (p.1 ≤ k) && decide (k < p.2)))
  { s with mem := keys.foldl (fun m k =>
      Table.set 0 m k (Table.get 0 (if Config.updateOld n k then old else new) k)) s.mem }

/-- A parameter that stays unchanged: counted, and the first of the UPDATE on the die logged (R238). -/
def State.countNonfinite (s : State) (die addr : Nat) (first : Bool) : State :=
  let M := s.md die
  let s := s.setMd die { M with train := { M.train with
    nonfinite := BitVec.ofNat 32 (satInc 0xFFFFFFFF M.train.nonfinite.toNat) } }
  if first then s.logErr (blkMd die) { code := 0x31, src := 12, addr := addr, cond := true } else s

/-- Rows of a segment: where its arrays W, M, V, G, copy and records have it. -/
structure RowPlace where
  first : Nat
  count : Nat
  w     : List (Nat × Nat)
  m     : List (Nat × Nat)
  v     : List (Nat × Nat)
  g     : List (Nat × Nat)
  wc    : List (Nat × Nat)
  scl   : List (Nat × Nat)

def Segment.row (g : Segment) (stride row : Nat) : RowPlace :=
  let p := row * 2 ^ g.rowLog
  let n := min (2 ^ g.rowLog) (g.count - p)
  let at? (base esz : Nat) : List (Nat × Nat) := stripePieces base stride esz p n
  { first := p, count := n, w := at? g.w 4, m := at? g.m 4, v := at? g.v 4, g := at? g.g 2
    wc := at? g.wc (wcBytes g.wcFmt), scl := stripePieces g.scl stride 8 row 1 }

/-- What a row's new parameters are written as, in order: W, M, V, then the copy and its record (R239). -/
def Segment.rowWrites (g : Segment) (c : Cmd) (r : RowPlace) (now : List Param) : List (Nat × List Byte) :=
  let adam := c.u 8 1 == 1
  let (sc, rmax, codes) := copyRow g.wcFmt (c.u 0x48 4) (now.map (·.w))
  sectorWrites (bytesOf 4 (now.map (·.w))) r.w ++ sectorWrites (bytesOf 4 (now.map (·.m))) r.m
    ++ (if adam then sectorWrites (bytesOf 4 (now.map (·.v))) r.v else [])
    ++ (if g.copied then
        sectorWrites (bytesOf (wcBytes g.wcFmt) codes) r.wc ++ sectorWrites (leBytes 4 sc ++ leBytes 4 rmax) r.scl
      else [])

/-- A row that cannot be read: any new state of it may stand in the mix that is left. -/
def Segment.openRow (c : Cmd) (f : Nat) (r : RowPlace) : List Param :=
  (List.range r.count).map (fun i =>
    let any (j : Nat) : Nat := (Config.updateOpen f (4 * (r.first + i) + j)).toNat
    ⟨any 0, any 1, if c.u 8 1 = 1 then any 2 else 0⟩)

/-- One row: read, apply, write. -/
def rowStep (c : Cmd) (g : Segment) (others : Nat) (a : SegAcc) (row : Nat) : SegAcc :=
  let die := g.stack / 2
  let r := g.row a.s.stride row
  let (s, got) := a.s.readParts [] ([r.w, r.m] ++ (if c.u 8 1 = 1 then [r.v] else [[]]) ++ [r.g])
  match got with
  | .inr e =>
    let (f, s') := s.take
    { a.fail s die e with s := (s'.writeOn none (g.rowWrites c r (Segment.openRow c f r))).1 }
  | .inl bytes =>
    let part (i esz : Nat) : List Nat := elems esz (bytes.getD i [])
    let (ws, ms, vs, gr) := (part 0 4, part 1 4, part 2 4, part 3 2)
    let old := (List.range r.count).map (fun i => (⟨ws.getD i 0, ms.getD i 0, vs.getD i 0⟩ : Param))
    let new := old.zipIdx.map (fun e => applyRule c a.run.gs.toNat (gr.getD e.2 0) e.1)
    let now := (new.zip old).map (fun e => e.1.getD e.2)
    let bad := (new.zipIdx.filter (fun e => e.1.isNone)).map (·.2)
    let s := (bad.zipIdx.foldl (fun (s : State) e =>
      s.countNonfinite die (g.w + (r.first + e.1) / 1024 * a.s.stride + 4 * ((r.first + e.1) % 1024))
        (others + a.run.left + e.2 == 0)) s)
    let maxW := (new.filterMap id).foldl (fun m p => max m (p.w % 2 ^ 31)) a.run.maxW.toNat
    let a : SegAcc := { a with run := { a.run with left := a.run.left + bad.length, maxW := BitVec.ofNat 32 maxW } }
    match s.writeOn none (g.rowWrites c r now) with
    | (s, none) => { a with s := s }
    | (s, some (code, addr, t)) => { a.fail t die (code, addr) with s := s }

/-- gs (R237). -/
def gsOf (clip : Nat) (scale : BitVec 32) (nEff : Nat) : Nat :=
  f32div clip (mulVal fp32 .nearest (f32 scale.toNat) (.fin false nEff 0)).1

/-- A segment under a clean vote. `others` parameters of the die have stayed unchanged before it. -/
def State.runSegment (s : State) (c : Cmd) (scale : BitVec 32) (others : Nat) (r : SegRun) : State × SegRun :=
  let g := segmentOf r.words
  if r.status ≠ 0 then (s, r)
  else if r.nEff = 0 then (s, { r with status := 2 })
  else
    let r : SegRun := { r with gs := BitVec.ofNat 32 (gsOf (c.u 0x44 4) scale r.nEff.toNat) }
    let a := (List.range g.rows).foldl (rowStep c g others) ⟨s, r, none⟩
    match a.fault with
    | none => (a.s, a.run)
    | some (t, run) => (t.mixMem (t.segSpans (c.u 8 1 == 1) r) s.mem a.s.mem, run)

def State.segDone (s : State) (stack : Nat) : State :=
  let M := s.md (stack / 2)
  s.setMd (stack / 2) { M with train := { M.train with segDone := M.train.segDone + 1 } }

/-- Every segment, in descriptor order. One whose descriptor could not be read is no die's. -/
def State.runSegments (s : State) (c : Cmd) (scale : BitVec 32) (done : List SegRun) : List SegRun → State × List SegRun
  | [] => (s, done)
  | r :: l =>
    let stack := (segmentOf r.words).stack
    let others := ((done.filter (fun x => (segmentOf x.words).stack / 2 == stack / 2)).map (·.left)).sum
    let (s, r) := s.runSegment c scale others r
    (if r.words.isEmpty then s else s.segDone stack).runSegments c scale (done ++ [r]) l

/-! ## UPDATE -/

def State.mapTrain (s : State) (f : Train → Train) : State :=
  (List.range 16).foldl (fun s m =>
    let M := s.md m
    s.setMd m { M with train := f M.train }) s

/-- Vote bits 0 and 1 of a tile's main bank (R68, R243). -/
def Tile.voteBits (T : Tile) (sat : Bool) : Nat :=
  natOf (T.ctx0.cvt.flags.getLsbD 2) + 2 * natOf (sat && T.ctx0.cvt.flags.getLsbD 5)

/-- The local vote of R243, flags left as they are. -/
def State.localVote (s : State) : Nat :=
  s.tiles.foldl (fun v e => v ||| e.2.voteBits (Train.of s).voteSat) 0

/-- The vote take reads the flags of the vote and clears both, OVERFLOW and SAT (R244). -/
def State.voteTake (s : State) : Nat × State :=
  (s.localVote, s.mapTiles (fun _ T =>
    { T with ctx0 := { T.ctx0 with cvt := { T.ctx0.cvt with flags := T.ctx0.cvt.flags &&& 0xDB } } }))

/-- A segment as it stands when the UPDATE begins: its descriptor, checked, and its count word. -/
def State.loadSegment (s : State) (c : Cmd) (i : Nat) : State × SegRun :=
  let at? := c.u 0x10 8 + 64 * i
  let blank : SegRun := ⟨[], 0, 0, false, 0, 0, 0⟩
  let (s, d) := s.devRead at? 64
  match d.err with
  | some (code, off) => (s.logErr blkSteward { code := code, src := 12, addr := at? + off }, { blank with status := 4 })
  | none =>
    let words := wordsOf d.data
    let g := segmentOf words
    if !s.segmentOk g (c.u 8 1 == 1) then (s, { blank with words := words, status := 3 })
    else
      let (s, d) := s.devRead g.cnt 8
      match d.err with
      | some (code, off) => (s.segError (g.stack / 2) code (g.cnt + off), { blank with words := words, status := 4 })
      | none =>
        let w := BitVec.ofNat 64 (leField d.data 0 8)
        (s, { blank with words := words, nEff := BitVec.ofNat 32 (bits w 31 0), nonfin := w.getLsbD 48 })

def State.loadSegments (s : State) (c : Cmd) : List Nat → State × List SegRun
  | [] => (s, [])
  | i :: l =>
    let (s, r) := s.loadSegment c i
    let (s, rs) := s.loadSegments c l
    (s, r :: rs)

/-- No earlier ready command has one of these opcodes (R242, R246). -/
def State.firstOf (s : State) (ops : List Nat) (c : Cmd) : Bool :=
  (s.sd.cmds.takeWhile (fun x => x.cid != c.cid)).all (fun x => x.stage != .ready || !ops.contains x.op)

/-- R246: waits for the UPDATE that runs, takes the vote, enters the vote round. A device that its own reads of the
count words have sealed takes no vote (R395). -/
def execUpdate (cid : Nat) (s : State) : Out :=
  s.withCmd cid 0x0303 (fun s c =>
    if s.update.isSome ∨ !s.firstOf [0x0303, 0x0105] c then s
    else
      let scale := (Train.of s).scale
      let (s, segs) := s.loadSegments c (List.range (c.u 0x0C 4))
      if s.wseal.isSealed then s.refuseSealed c
      else
      let (v, s) := s.voteTake
      let v := v ||| (if segs.any (·.nonfin) then 4 else 0)
      let s := (s.running c).mapTrain (fun t => { t with active := true, segDone := 0 })
      let s := { s with update := some ⟨cid, s.alm.now, scale, segs, none, 0, 0, []⟩ }
      s.enterVote (BitVec.ofNat 8 v))

/-- R245, R246: the round's result is recorded; every segment is skipped or applied. -/
def execVoteRoundComplete (vote : BitVec 8) (s : State) : Out :=
  match s.update, s.net.vote with
  | some u, some v =>
    if u.vote.isSome ∨ v.result ≠ some vote then .next s
    else
      match s.cmd? u.cid with
      | none => .next s
      | some c =>
        let mem := s.mem
        let s := { s with net := { s.net with vote := none } }
        let s := s.mapTrain (fun t => { t with
          vstep := BitVec.ofNat 32 (c.u 0 8), vvalid := true, vote := vote
          skips := if vote = 0 then t.skips else BitVec.ofNat 32 (satInc 0xFFFFFFFF t.skips.toNat) })
        let (s, segs) :=
          if vote ≠ 0 then (s, u.segs.map (fun r => { r with status := 1, nEff := 0 }))
          else s.runSegments c u.scale [] u.segs
        .next { s with update := some { u with vote := some vote, segs := segs, voteBeat := s.alm.now, before := mem } }
  | _, _ => .next s

/-- R247. -/
def Train.lossRule (vote : BitVec 8) (t : Train) : Train :=
  if vote ≠ 0 then
    let x := f32mul t.scale.toNat t.backoff.toNat
    { t with scale := BitVec.ofNat 32 (max t.smin.toNat x), clean := 0 }
  else
    let n := t.clean + 1
    if t.interval.toNat ≤ n.toNat then
      { t with scale := BitVec.ofNat 32 (min t.smax.toNat (f32mul t.scale.toNat t.growth.toNat)), clean := 0 }
    else { t with clean := n }

/-- A segment's result record (R257). -/
def segRecord (r : SegRun) : List Byte :=
  leBytes 4 r.status ++ leBytes 4 r.nEff.toNat ++ leBytes 4 r.maxW.toNat ++ leBytes 4 r.left
    ++ leBytes 4 r.gs.toNat ++ List.replicate 12 0

/-- Each segment's record, whatever becomes of another's. -/
def State.writeRecords (s : State) (a : Nat) (l : List SegRun) : State :=
  l.zipIdx.foldl (fun s e => (s.devWrite (a + 32 * e.2) (segRecord e.1)).1) s

def State.updateOver (s : State) (last : Nat) : State :=
  let s := s.mapTrain (fun t => { t with active := false, last := BitVec.ofNat 8 last })
  { s with update := none, net := { s.net with vote := none } }

/-- RUN_ABORT waits for a running UPDATE (R349). -/
def State.endAborts (s : State) : State := s.endCmds (fun c => c.stage == .running && c.op == 0x0304) stOk

/-- R246, R247, R257, R363, R366: the loss scale, the records, the Sowing Log, signal and reply. -/
def execUpdateComplete (s : State) : Out :=
  match s.update with
  | none => .next s
  | some u =>
    match u.vote, s.cmd? u.cid with
    | some vote, some c =>
      let step := c.u 0 8
      let before := (Train.of s).scale
      let s := s.mapTrain (Train.lossRule vote)
      let t := Train.of s
      let s := s.writeRecords (c.u 0x18 8) u.segs
      let point := vote == 0 && s.isPoint step
      let s := s.sowClose step ⟨u.voteBeat, before, t.scale, t.clean, vote, natOf (vote != 0), point⟩
      let s := if point then s.harvestPoint step else s
      let s := s.updateOver (natOf (vote != 0))
      let s := if c.u 9 1 % 2 = 1 then
          s.cmdSignal blkSteward c (BitVec.ofNat 64 (c.u 0x50 8)) (c.u 0x58 2)
        else s
      .next (s.reply c (if vote = 0 then 1 else 2) (BitVec.ofNat 64 (t.scale.toNat * 2 ^ 32 + vote.toNat))).endAborts
    | _, _ => .next s

/-- R245. -/
def execVoteTimeout (s : State) : Out :=
  match s.update with
  | none => .next s
  | some u =>
    match s.cmd? u.cid with
    | none => .next s
    | some c =>
      if u.vote.isNone ∧ u.entered.toNat + (Train.of s).vtimeout.toNat ≤ s.alm.now.toNat then
        let t := Train.of s
        let s := s.logErr blkSteward { code := 0x80, src := 12, icount := c.tag.toNat }
        let s := s.mapTrain (fun t => { t with vstep := BitVec.ofNat 32 (c.u 0 8), vvalid := false })
        let s := s.sowClose (c.u 0 8) ⟨0, t.scale, t.scale, t.clean, 0, 2, false⟩
        let s := s.updateOver 2
        .next (s.reply c 3 (BitVec.ofNat 64 (t.scale.toNat * 2 ^ 32))).endAborts
      else .next s

/-! ## TRAIN_CFG (R258) -/

def Train.configure (t : Train) (c : Cmd) : Train :=
  let set := c.u 0 4
  let pick (bit off : Nat) (old : BitVec 32) : BitVec 32 :=
    if set / 2 ^ bit % 2 = 1 then BitVec.ofNat 32 (c.u off 4) else old
  let smin := pick 3 0x10 t.smin
  let smax := BitVec.ofNat 32 (max smin.toNat (pick 4 0x14 t.smax).toNat)
  { t with
    smin := smin, smax := smax, backoff := pick 1 8 t.backoff, growth := pick 2 0xC t.growth
    interval := if set / 2 ^ 5 % 2 = 1 then BitVec.ofNat 16 (c.u 0x18 2) else t.interval
    clean := pick 6 0x1C t.clean
    voteSat := if set / 2 ^ 7 % 2 = 1 then c.u 0x20 1 == 1 else t.voteSat
    straggler := if set / 2 ^ 8 % 2 = 1 then BitVec.ofNat 2 (c.u 0x21 1) else t.straggler
    vtimeout := pick 9 0x24 t.vtimeout
    scale := BitVec.ofNat 32 (clampF32 smin.toNat smax.toNat (pick 0 4 t.scale).toNat) }

/-- R248, R258: all 16 memory dies, between UPDATEs. -/
def execTrainCfg (cid : Nat) (s : State) : Out :=
  s.withCmd cid 0x0105 (fun s c =>
    if s.update.isSome ∨ !s.firstOf [0x0303, 0x0105] c then s
    else (s.mapTrain (fun t => t.configure c)).reply c stOk 0)

end Sys2Proof.Machine
end

