-- ==== Sys2Proof/Machine/Ring.lean ====
section
/-! DEFINITION. The ring schedules of a collective (R287-R289): wire codes, shards, and the way a piece of a
shard takes through the group. -/
namespace Sys2Proof.Machine

/-! ## Parameters (R303) -/

def Cmd.cOp (c : Cmd) : Nat := c.u 0 1
def Cmd.cFunc (c : Cmd) : Nat := c.u 1 1
def Cmd.cFmt (c : Cmd) : Nat := c.u 2 1
def Cmd.cSlot (c : Cmd) : Nat := c.u 5 1
def Cmd.cFlag (c : Cmd) (i : Nat) : Bool := c.u 6 2 / 2 ^ i % 2 == 1
def Cmd.cReduces (c : Cmd) : Bool := c.cOp == 0 || c.cOp == 1
/-- Moves keep their elements' codes. -/
def Cmd.cWire (c : Cmd) : Nat := if c.cReduces then c.u 3 1 else c.cFmt
def Cmd.cBytes (c : Cmd) : Nat := collBytes c.cFmt
def Cmd.cWBytes (c : Cmd) : Nat := collBytes c.cWire
def Cmd.cAddr (c : Cmd) (off : Nat) : Nat := c.u off 8
def Cmd.cGroup (c : Cmd) : BitVec 64 := BitVec.ofNat 64 (c.u 0x38 8)

/-! ## Elements on the wire (R288) -/

def toFormat (src dst code : Nat) : Nat :=
  if src = dst then code
  else
    match fmtOf src, fmtOf dst with
    | some f, some g => (g.ofVal .nearest (f.decode code)).1
    | _, _ => code

/-- Two codes of the WIRE format combined (R285, R288). -/
def collCombine (func wire a b : Nat) : Nat :=
  if 16 ≤ wire then
    let w := 8 * collBytes wire
    let x := BitVec.ofNat w a
    let y := BitVec.ofNat w b
    match func with
    | 0 => (x + y).toNat
    | 1 => if x.slt y then b else a
    | 2 => if x.slt y then a else b
    | _ => (x ||| y).toNat
  else
    match fmtOf wire with
    | none => a
    | some f =>
      match func with
      | 0 => (addVal f .nearest (f.decode a) (f.decode b)).1
      | 1 => (maxminVal f true (f.decode a) (f.decode b)).1
      | 2 => (maxminVal f false (f.decode a) (f.decode b)).1
      | _ => Config.collOr wire a b

def Cmd.combine (c : Cmd) (l m : List Nat) : List Nat :=
  (l.zip m).map (fun e => collCombine c.cFunc c.cWire e.1 e.2)

/-- Infinite or NaN, for a float format (R292). -/
def codeNonfinite (fmt code : Nat) : Bool :=
  match fmtOf fmt with
  | some f => (f.decode code).isNan || (f.decode code).isInf
  | none => false

/-! ## Shards (R287) -/

def evenShards (n count : Nat) : List (Nat × Nat) :=
  let c := (count + n - 1) / max 1 n
  (List.range n).map (fun r => (min (r * c) count, min ((r + 1) * c) count - min (r * c) count))

/-- RAGGED: the table as read. -/
def raggedShards (l : List Byte) (n : Nat) : List (Nat × Nat) :=
  (List.range n).map (fun r => (leField l (16 * r) 8, leField l (16 * r + 8) 8))

/-- No shard passes COUNT, and none overlaps another (R295). -/
def shardsOk (l : List (Nat × Nat)) (count : Nat) : Bool :=
  l.all (fun e => decide (e.1 + e.2 ≤ count))
    && apart ((l.filter (fun e => decide (0 < e.2))).map (fun e => (e.1, e.1 + e.2)))

def CollRun.shard (r : CollRun) (q : Nat) : Nat × Nat := r.shards.getD q (0, 0)
def CollRun.mine (r : CollRun) : Nat × Nat := r.shard r.rank

/-! ## Schedules (R289) -/

/-- Step between neighbours, and size, of each ring a track crosses, in order. ALGO 3 on a list group has one
dimension. -/
def ringDims (algo : Nat) (w : BitVec 64) (n track : Nat) : List (Nat × Nat) :=
  if algo ≠ 3 then [(1, n)]
  else
    let b := boxOf w
    let list := w.getLsbD 63
    let x := if list then (1, n) else (1, b.nx)
    let y := if list then (n, 1) else (b.nx, b.ny)
    let z := if list then (n, 1) else (b.nx * b.ny, b.nz)
    match track / 2 with
    | 0 => [x, y, z]
    | 1 => [y, z, x]
    | _ => [z, x, y]

/-- Parts of a shard that take ways of their own: one for the ring, one for each direction round it, one for each
direction of each third. -/
def trackCount (algo : Nat) : Nat := if algo = 1 then 1 else if algo = 2 then 2 else 6

def ringCoord (d : Nat × Nat) (r : Nat) : Nat := r / d.1 % max 1 d.2

/-- The piece of a shard that one packet carries. -/
structure ShardPiece where
  shard : Nat
  track : Nat
  first : Nat
  count : Nat
  deriving DecidableEq, Repr

/-- Pieces of every shard: 4,096 bytes at most (R269). -/
def piecesOf (shards : List (Nat × Nat)) (tracks per : Nat) : List ShardPiece :=
  shards.zipIdx.flatMap (fun e =>
    (List.range tracks).flatMap (fun t =>
      let lo := e.1.1 + e.1.2 * t / tracks
      let hi := e.1.1 + e.1.2 * (t + 1) / tracks
      (List.range ((hi - lo + per - 1) / per)).map (fun i =>
        (⟨e.2, t, lo + i * per, min per (hi - (lo + i * per))⟩ : ShardPiece))))

def Cmd.pieces (c : Cmd) (r : CollRun) : List ShardPiece := piecesOf r.shards (trackCount r.algo) (4096 / c.cWBytes)

/-- What a member does with a piece in one phase: the rings of the reduction in order, then back for the
gathering. -/
structure Role where
  gather : Bool
  takes  : Bool
  start  : Bool
  last   : Bool
  next   : Nat
  deriving DecidableEq, Repr

def roleOf (c : Cmd) (r : CollRun) (p : ShardPiece) (phase : Nat) : Role :=
  let dims := ringDims r.algo c.cGroup r.members.length p.track
  let k := dims.length
  let gather := decide (k ≤ phase)
  let g := if gather then 2 * k - 1 - phase else phase
  let d := dims.getD g (1, 1)
  let n := max 1 d.2
  let pos := ringCoord d r.rank
  let e := ringCoord d p.shard
  let back := r.algo != 1 && p.track % 2 == 1
  let fwd (x : Nat) : Nat := if back then (x + n - 1) % n else (x + 1) % n
  { gather := gather
    takes := (dims.take g).all (fun d => ringCoord d r.rank == ringCoord d p.shard)
    start := if gather then pos == e else pos == fwd e
    last := if gather then fwd pos == e else pos == e
    next := r.rank - pos * d.1 + fwd pos * d.1 }

def phaseCount (c : Cmd) (r : CollRun) : Nat := (ringDims r.algo c.cGroup r.members.length 0).length

def firstPhase (c : Cmd) (r : CollRun) : Nat := if c.cReduces then 0 else phaseCount c r
def endPhase (c : Cmd) (r : CollRun) : Nat := if c.cOp = 1 then phaseCount c r else 2 * phaseCount c r

/-- Everything that a member of a ring schedule does: one turn for each piece and phase it takes part in. -/
def turnsLeft (c : Cmd) (r : CollRun) : Nat :=
  ((c.pieces r).map (fun p =>
    ((List.range (endPhase c r)).filter (fun f => decide (firstPhase c r ≤ f) && (roleOf c r p f).takes)).length)).sum

/-! ## Data -/

/-- First byte in SRC of an element of a shard. -/
def srcByte (c : Cmd) (r : CollRun) (q e : Nat) : Nat :=
  c.cAddr 0x18 + c.cBytes * (if c.cOp = 2 then e - (r.shard q).1 else e)

/-- First byte in DST of an element of a shard. REDUCE_SCATTER writes the member's shard at DST. -/
def dstByte (c : Cmd) (r : CollRun) (q e : Nat) : Nat :=
  c.cAddr 0x20 + c.cBytes * (if c.cOp = 1 then e - (r.shard q).1 else e)

/-! ## The run and its ends -/

def State.collRun (s : State) (slot : Nat) : Option CollRun := (s.colls slot).run

def State.setRun (s : State) (slot : Nat) (r : CollRun) : State :=
  s.setColl slot { s.colls slot with run := some r }

def State.mapRun (s : State) (slot : Nat) (f : CollRun → CollRun) : State :=
  match s.collRun slot with
  | some r => s.setRun slot (f r)
  | none => s

/-- An error ends the member's part (R295). -/
def State.collFail (s : State) (slot status code : Nat) : State :=
  s.mapRun slot (fun r => if r.ended then r else { r with status := status, code := code, ended := true })

/-- Elements of FMT from memory, as WIRE codes; none after an error, which ends the run with DATA_FAULT. -/
def State.collRead (s : State) (slot : Nat) (c : Cmd) (a n : Nat) : State × Option (List Nat) :=
  let (s, g) := s.devRead a (n * c.cBytes)
  match g.err with
  | some (code, _) => (s.collFail slot 4 code, none)
  | none => (s, some ((elems c.cBytes g.data).map (toFormat c.cFmt c.cWire)))

def State.collWriteBytes (s : State) (slot a : Nat) (l : List Byte) : State :=
  match s.devWrite a l with
  | (s, some (code, _)) => s.collFail slot 4 code
  | (s, none) => s

/-- WIRE codes rounded once into FMT and written (R288). -/
def State.collWrite (s : State) (slot : Nat) (c : Cmd) (a : Nat) (l : List Nat) : State :=
  s.collWriteBytes slot a (bytesOf c.cBytes (l.map (toFormat c.cWire c.cFmt)))

/-- A packet of this COLL to a member. -/
def State.collSend (s : State) (slot : Nat) (r : CollRun) (dstRank type addr : Nat) (arg : Nat) (data : List Byte) :
    State :=
  s.pushOut (s.newPacket (r.members.getD dstRank 0) type (s.colls slot).gen slot tagColl (BitVec.ofNat 48 addr)
    (BitVec.ofNat 64 arg) data)

/-- ARG of a COLL_DATA: the vote in [23:16], a carry in [24], the phase in [7:0]. -/
def dataArg (vote : BitVec 8) (carried : Bool) (phase : Nat) : Nat :=
  natOf carried * 2 ^ 24 + vote.toNat * 2 ^ 16 + phase % 256

def packetPhase (k : Packet) : Nat := bits k.arg 7 0
def packetVote (k : Packet) : BitVec 8 := BitVec.ofNat 8 (bits k.arg 23 16)

/-! ## The way of a piece -/

/-- A member's turn at a piece in a phase, with the value it has there: it sends it on, or goes on with it; a
value of its own in a reduction waits for the partial that comes round. -/
def State.collTurn (s : State) (slot : Nat) (c : Cmd) (p : ShardPiece) : Nat → Nat → Bool → List Nat → State
  | 0, _, _, _ => s
  | fuel + 1, phase, own, val =>
    match s.collRun slot with
    | none => s
    | some r =>
      let role := roleOf c r p phase
      let addr := c.cWBytes * p.first
      if endPhase c r ≤ phase then s.collWrite slot c (dstByte c r p.shard p.first) val
      else
        let done (s : State) (r : CollRun) (val : List Nat) : State :=
          let s := s.setRun slot { r with left := r.left - 1 }
          let s := if role.last then s
            else s.collSend slot r role.next 0x10 addr (dataArg r.votes false phase) (bytesOf c.cWBytes val)
          if role.gather || role.last then s.collTurn slot c p fuel (phase + 1) true val else s
        if role.gather || !own || role.start then done s r val
        else
          match r.wait.find? (fun k => packetPhase k == phase && k.addr.toNat == addr) with
          | some k => done s { r with wait := r.wait.erase k } (c.combine val (elems c.cWBytes k.data))
          | none => s.setRun slot { r with vals := r.vals ++ [(phase, p.first, val)] }

/-- The launch of a member of a ring schedule: its own values begin their way. -/
def State.ringLaunch (s : State) (slot : Nat) (c : Cmd) (r : CollRun) : State :=
  (c.pieces r).foldl (fun s p =>
    if (s.collRun slot).all (·.ended) then s
    else if c.cReduces || (roleOf c r p (firstPhase c r)).start && (roleOf c r p (firstPhase c r)).takes then
      match s.collRead slot c (srcByte c r p.shard p.first) p.count with
      | (s, some val) => s.collTurn slot c p (2 * endPhase c r + 2) (firstPhase c r) true val
      | (s, none) => s
    else s) s

/-- The piece that a packet carries. -/
def pieceAt (c : Cmd) (r : CollRun) (k : Packet) : Option ShardPiece :=
  (c.pieces r).find? (fun p => c.cWBytes * p.first == k.addr.toNat)

/-- A packet of a ring schedule: combined with the member's own value, or waiting for it. -/
def State.ringData (s : State) (slot : Nat) (c : Cmd) (r : CollRun) (k : Packet) : State :=
  match pieceAt c r k with
  | none => s
  | some p =>
    let r : CollRun := { r with votes := r.votes ||| packetVote k }
    let val := elems c.cWBytes k.data
    let fuel := 2 * endPhase c r + 2
    if (roleOf c r p (packetPhase k)).gather then (s.setRun slot r).collTurn slot c p fuel (packetPhase k) false val
    else
      match r.vals.find? (fun v => v.1 == packetPhase k && v.2.1 == p.first) with
      | some v =>
        let r : CollRun := { r with vals := r.vals.filter (fun x => !(x.1 == v.1 && x.2.1 == v.2.1)) }
        (s.setRun slot r).collTurn slot c p fuel (packetPhase k) false (c.combine v.2.2 val)
      | none => s.setRun slot { r with wait := r.wait ++ [k] }

end Sys2Proof.Machine
end

