-- ==== Sys2Proof/Machine/Coll.lean ====
section
/-! DEFINITION. COLL and what follows it (R285-R295, R298): launch, the owner algorithm, the direct exchanges,
completion. -/
namespace Sys2Proof.Machine

/-! ## The owner algorithm (R291-R293) -/

/-- Bytes of a shard in WIRE format. -/
def shardBytes (c : Cmd) (r : CollRun) (q : Nat) : Nat := (r.shard q).2 * c.cWBytes

/-- COLL_CTRL: 1 EXCLUDED, 2 INCLUDED. -/
def ctrlExcluded : Nat := 1
def ctrlIncluded : Nat := 2

/-- The owner writes its shard and the count word (R291, R292). -/
def State.ownerFinish (s : State) (slot : Nat) (c : Cmd) : State :=
  match s.collRun slot with
  | none => s
  | some r =>
    if r.finished then s
    else
      let codes := r.acc.map (toFormat c.cWire c.cFmt)
      let nonfin := r.anyIn && codes.any (codeNonfinite c.cFmt)
      let s := s.setRun slot { r with finished := true }
      let s := if r.anyIn then s.collWriteBytes slot (c.cAddr 0x20) (bytesOf c.cBytes codes) else s
      if c.cFlag 2 then
        s.collWriteBytes slot (c.cAddr 0x48)
          (leBytes 8 (natOf nonfin * 2 ^ 48 + r.carried % 65536 * 2 ^ 32 + r.nEff % 2 ^ 32))
      else s

/-- Every contribution has been included or excluded. -/
def CollRun.allIn (r : CollRun) : Bool := r.contribs.all (fun x => x.included || x.excluded)

/-- A contribution that has fully arrived is added into the shard (R291). -/
def State.ownerInclude (s : State) (slot : Nat) (c : Cmd) (i : Nat) (val : List Nat) (vote : BitVec 8)
    (carried : Bool) : State :=
  match s.collRun slot with
  | none => s
  | some r =>
    let r : CollRun := { r with
      acc := if r.anyIn then c.combine r.acc val else val
      anyIn := true
      nEff := r.nEff + 1 + natOf carried
      carried := r.carried + natOf carried
      votes := r.votes ||| vote
      contribs := updAt r.contribs i (fun x => { x with included := true })
      outs := if i = r.rank then updAt r.outs i (fun _ => 1) else r.outs }
    let s := s.setRun slot r
    let s := if i = r.rank then s else s.collSend slot r i 0x11 0 ctrlIncluded []
    if r.allIn then s.ownerFinish slot c else s

/-- Header of a carry, by rank of its owner (R293). -/
def carryHead (c : Cmd) (j : Nat) : Nat := c.cAddr 0x58 + 16 * j

/-- Data of a carry: each rank's shard placed as in SRC. -/
def carryData (c : Cmd) (r : CollRun) (j : Nat) : Nat :=
  c.cAddr 0x58 + (16 * r.members.length + 4095) / 4096 * 4096 + (r.shard j).1 * c.cWBytes

/-- The member's shard for an owner that has excluded it is stored as a carry (R293). -/
def State.storeCarry (s : State) (slot : Nat) (c : Cmd) (r : CollRun) (j : Nat) : State :=
  match s.collRead slot c (srcByte c r j (r.shard j).1) (r.shard j).2 with
  | (s, none) => s
  | (s, some val) =>
    let s := s.collWriteBytes slot (carryData c r j) (bytesOf c.cWBytes val)
    s.collWriteBytes slot (carryHead c j)
      (leBytes 8 (c.u 8 8) ++ leBytes 8 (2 ^ 63 + slot * 2 ^ 32 + r.scale.toNat))

/-- An owner has excluded this member's contribution (R291, R293). Mode 1 of STRAGGLER_MODE carries it, once it is
launched. -/
def State.excludedBy (s : State) (slot : Nat) (c : Cmd) (j : Nat) : State :=
  match s.collRun slot with
  | none => s
  | some r =>
    if r.outs.getD j 1 ≠ 0 then s
    else
      let dest := r.members.getD j 0
      let mine (k : Packet) : Bool := k.ptype == 0x10 && k.id.toNat == slot && k.dest == dest
      let s := { s with net := { s.net with out := s.net.out.filter (fun k => !mine k) } }
      let carry := (Train.of s).straggler == 1
      let wait := carry && r.launched.isNone
      let r : CollRun := { r with outs := updAt r.outs j (fun _ => if wait then 2 else 3) }
      let s := s.setRun slot r
      if carry && !wait then s.storeCarry slot c r j else s

/-- What a valid carry does at the next launch on its slot: it is added, or dropped (R293). -/
def State.takeCarry (s : State) (slot : Nat) (c : Cmd) (r : CollRun) (j : Nat) (val : List Nat) :
    State × List Nat × Bool :=
  let (s, g) := s.devRead (carryHead c j) 16
  let h0 := leField g.data 0 8
  let h1 := BitVec.ofNat 64 (leField g.data 8 8)
  match g.err with
  | some (code, _) => (s.collFail slot 4 code, val, false)
  | none =>
    if !(h1.getLsbD 63 && bits h1 39 32 == slot) then (s, val, false)
    else
      let t := Train.of s
      let s := s.collWriteBytes slot (carryHead c j + 8) (leBytes 8 (setBits h1 63 63 0).toNat)
      if h0 = (c.u 8 8 + 2 ^ 64 - 1) % 2 ^ 64 ∧ bits h1 31 0 = t.scale.toNat ∧ t.vvalid
          ∧ t.vstep.toNat = h0 % 2 ^ 32 ∧ t.vote = 0 then
        let (s, g) := s.devRead (carryData c r j) (shardBytes c r j)
        match g.err with
        | some (code, _) => (s.collFail slot 4 code, val, false)
        | none => (s, c.combine val (elems c.cWBytes g.data), true)
      else (s.mapRun slot (fun r => { r with stale := r.stale + 1 }), val, false)

/-- A byte stream to a member, 4,096 bytes at most to a packet. -/
def State.sendStream (s : State) (slot : Nat) (r : CollRun) (dstRank : Nat) (carried : Bool) (l : List Byte) : State :=
  (List.range ((l.length + 4095) / 4096)).foldl (fun s i =>
    s.collSend slot r dstRank 0x10 (4096 * i) (dataArg r.vote carried 0) ((l.drop (4096 * i)).take 4096)) s

/-- The deadline of the owner algorithm has been reached in a beat (R320). -/
def Cmd.overdue (c : Cmd) (beat : Nat) : Bool := c.cFlag 0 && decide (c.u 0x10 8 ≤ beat)

/-- One shard of the launch: sent to its owner, added where it is the member's own and its deadline is not reached, or
carried where the owner has excluded it already. A carry for an owner whose shard is empty now is checked as any other
(R293). -/
def State.launchShard (s : State) (slot : Nat) (c : Cmd) (j : Nat) : State :=
  match s.collRun slot with
  | none => s
  | some r =>
    let (lo, n) := r.shard j
    if r.ended then s
    else if n = 0 then
      let s := s.setRun slot { r with outs := updAt r.outs j (fun o => if o = 0 then 1 else 3) }
      (s.takeCarry slot c r j []).1
    else
      match s.collRead slot c (srcByte c r j lo) n with
      | (s, none) => s
      | (s, some val) =>
        let (s, val, carried) := s.takeCarry slot c r j val
        if r.outs.getD j 1 = 2 then
          let s := s.storeCarry slot c r j
          s.mapRun slot (fun r => { r with outs := updAt r.outs j (fun _ => 3) })
        else if r.outs.getD j 1 ≠ 0 then s
        else if j = r.rank then
          (if c.overdue (s.nowAt (blkLd 0)) then s else s.ownerInclude slot c j val r.vote carried)
        else s.sendStream slot r j carried (bytesOf c.cWBytes val)

/-- A packet lands at its owner; the last one of a contribution adds it (R291). Packets of an excluded contribution are
late, and so are those accepted at or after the deadline (R320). -/
def State.ownerData (s : State) (slot : Nat) (c : Cmd) (r : CollRun) (i : Nat) (e : Delivered) : State :=
  let k := e.pkt
  let x := r.contribs.getD i ⟨0, true, true⟩
  if x.excluded || r.finished || (!x.included && c.overdue e.beat) then s.countLate e.ld
  else if x.included then s
  else
    let size := shardBytes c r r.rank
    let at? := c.cAddr 0x50 + i * size
    let s := s.collWriteBytes slot (at? + k.addr.toNat) k.data
    let bytes := x.bytes + k.len
    let s := s.mapRun slot (fun r => { r with contribs := updAt r.contribs i (fun x => { x with bytes := bytes }) })
    if bytes < size then s
    else
      let (s, g) := s.devRead at? size
      match g.err with
      | some (code, _) => s.collFail slot 4 code
      | none => s.ownerInclude slot c i (elems c.cWBytes g.data) (packetVote k) (k.arg.getLsbD 24)

/-! ## Direct exchanges (R285, R289, R298) -/

/-- The experts, with their ranks: the map ends at the first entry that names no member. -/
def expertRanks (l : List Byte) (n : Nat) : List Nat :=
  ((List.range (l.length / 2)).map (fun e => leField l (2 * e) 2)).takeWhile (fun r => decide (r < n))

/-- The map read from at most so many bytes. -/
def State.expertMapOf (s : State) (slot : Nat) (c : Cmd) (n bytes : Nat) : State × List Nat :=
  let (s, g) := s.devRead (c.cAddr 0x78) bytes
  let l := expertRanks g.data n
  match g.err with
  | some (code, _) => if 2 * l.length + 2 ≤ g.data.length then (s, l) else (s.collFail slot 4 code, l)
  | none => (s, l)

/-- The map of this COLL, of at most 65,536 experts. -/
def State.expertMap (s : State) (slot : Nat) (c : Cmd) (n : Nat) : State × List Nat :=
  s.expertMapOf slot c n (2 * 65536)

/-- What this member sends to each rank: one byte stream. -/
def State.streamsOf (s : State) (slot : Nat) (c : Cmd) (r : CollRun) : State × List (Nat × List Byte) :=
  let n := r.members.length
  let b := c.cBytes
  let src := c.cAddr 0x18
  let read (s : State) (a len : Nat) : State × List Byte :=
    let (s, g) := s.devRead a len
    match g.err with
    | some (code, _) => (s.collFail slot 4 code, [])
    | none => (s, g.data)
  if c.cOp = 5 then
    let (s, t) := read s (c.cAddr 0x30 + 2 * r.rank) 2
    let dstRank := leField t 0 2
    if t.length = 2 ∧ dstRank < n then
      let (s, l) := read s src (b * c.u 0x28 8)
      (s, [(dstRank, l)])
    else (s, [])
  else if c.cFlag 5 then
    let (s, map) := s.expertMap slot c n
    let (s, t) := read s (c.cAddr 0x30) (16 * map.length)
    (List.range n).foldl (fun (acc : State × List (Nat × List Byte)) j =>
      let mine := map.zipIdx.filter (fun e => e.1 == j)
      let head := mine.flatMap (fun e => leBytes 16 (leField t (16 * e.2 + 8) 8))
      let (s, data) := mine.foldl (fun (a : State × List Byte) e =>
        let (s, l) := read a.1 (src + b * leField t (16 * e.2) 8) (b * leField t (16 * e.2 + 8) 8)
        (s, a.2 ++ l)) (acc.1, [])
      (s, acc.2 ++ [(j, head ++ data)])) (s, [])
  else
    (List.range n).foldl (fun (acc : State × List (Nat × List Byte)) j =>
      let (s, l) := read acc.1 (src + b * (r.shard j).1) (b * (r.shard j).2)
      (s, acc.2 ++ [(j, l)])) (s, [])

def State.directLaunch (s : State) (slot : Nat) (c : Cmd) (r : CollRun) : State :=
  let (s, l) := s.streamsOf slot c r
  if (s.collRun slot).all (·.ended) then s
  else l.foldl (fun s e => s.sendStream slot r e.1 false e.2) s

/-- A source's stream without gaps: as many bytes have come as lie before its end. -/
def streamFilled (r : CollRun) (i : Nat) : Bool :=
  let mine := r.wait.filter (fun k => k.src == r.members.getD i 0)
  mine.foldl (fun m k => max m (k.addr.toNat + k.len)) 0 == (mine.map (·.len)).sum

/-- The bytes of one source's stream, in order. -/
def streamBytes (r : CollRun) (i : Nat) : List Byte :=
  let dest := r.members.getD i 0
  let mine := r.wait.filter (fun k => k.src == dest)
  let size := mine.foldl (fun m k => max m (k.addr.toNat + k.len)) 0
  mine.foldl (fun l k => l.take k.addr.toNat ++ k.data ++ l.drop (k.addr.toNat + k.data.length))
    (List.replicate size 0)

/-- Experts' blocks: once every source's counts and blocks are here, DST gets the counts and then the blocks by
source rank and by expert (R298). -/
def State.expertsDone (s : State) (slot : Nat) (c : Cmd) (held : Nat) : State :=
  match s.collRun slot with
  | none => s
  | some r =>
    let whole (l : List Byte) : Bool :=
      decide (16 * held + c.cBytes * ((List.range held).map (fun e => leField l (16 * e) 8)).sum ≤ l.length)
    let streams := (List.range r.members.length).map (streamBytes r)
    if r.left ≠ 0 ∧ (List.range r.members.length).all (streamFilled r)
        ∧ streams.all (fun l => decide (16 * held ≤ l.length) && whole l) then
      let s := s.setRun slot { r with left := 0, wait := [] }
      s.collWriteBytes slot (c.cAddr 0x20)
        (streams.flatMap (fun l => l.take (16 * held)) ++ streams.flatMap (fun l => l.drop (16 * held)))
    else s

def heldExperts (map : List Nat) (rank : Nat) : Nat := (map.filter (· == rank)).length

/-- A packet of a direct exchange: written where its source's block lies, or kept until the counts are known. -/
def State.directData (s : State) (slot : Nat) (c : Cmd) (r : CollRun) (i : Nat) (k : Packet) : State :=
  if c.cOp = 3 ∧ c.cFlag 5 then
    let s := s.setRun slot { r with wait := r.wait ++ [k], votes := r.votes ||| packetVote k }
    let (s, map) := s.expertMap slot c r.members.length
    s.expertsDone slot c (heldExperts map r.rank)
  else
    let base := if c.cOp = 3 then i * r.mine.2 * c.cBytes else 0
    let s := s.setRun slot { r with left := r.left - k.len, votes := r.votes ||| packetVote k }
    s.collWriteBytes slot (c.cAddr 0x20 + base + k.addr.toNat) k.data

/-- Bytes that a direct exchange brings this member; 1 stands for the experts' blocks. -/
def State.directLeft (s : State) (slot : Nat) (c : Cmd) (r : CollRun) : State × Nat :=
  let n := r.members.length
  if c.cOp = 5 then
    let (s, g) := s.devRead (c.cAddr 0x30) (2 * n)
    match g.err with
    | some (code, _) => (s.collFail slot 4 code, 0)
    | none =>
      let from? := (List.range n).filter (fun i => leField g.data (2 * i) 2 == r.rank)
      (s, from?.length * (c.u 0x28 8 * c.cBytes))
  else if c.cFlag 5 then (s, 1)
  else (s, n * (r.mine.2 * c.cBytes))

/-! ## Start and launch -/

/-- ALGO 0 chooses (R289); ALL_TO_ALL and PERMUTE have no schedule of their own and keep the choice. -/
def algoOf (c : Cmd) : Nat :=
  let a := c.u 4 1
  if a ≠ 0 then a
  else if c.cFlag 0 then 4
  else
    let b := boxOf c.cGroup
    let wide := natOf (b.nx != 1) + natOf (b.ny != 1) + natOf (b.nz != 1)
    if !c.cGroup.getLsbD 63 && decide (2 ≤ wide) then 3 else 2

def Cmd.cDirect (c : Cmd) : Bool := c.cOp == 3 || c.cOp == 5

/-- The contribution is launched: the local vote, the scale and the beat are taken, and the data sets out (R290). -/
def State.launchColl (s : State) (slot : Nat) : State :=
  match s.collRun slot with
  | none => s
  | some r =>
    match s.cmd? r.cid with
    | none => s
    | some c =>
      if r.launched.isSome ∨ r.ended then s
      else
        let v := BitVec.ofNat 8 s.localVote
        let r : CollRun := { r with
          launched := some s.alm.now, scale := (Train.of s).scale, vote := v
          votes := if r.algo = 4 then r.votes else r.votes ||| v }
        let s := s.setRun slot r
        if r.algo = 4 then (List.range r.members.length).foldl (fun s j => s.launchShard slot c j) s
        else if c.cDirect then s.directLaunch slot c r
        else s.ringLaunch slot c r

def blankRun (cid algo : Nat) : CollRun :=
  { cid := cid, algo := algo, rank := 0, members := [], shards := [], launched := none, scale := 0, vote := 0
    votes := 0, contribs := [], acc := [], anyIn := false, outs := [], finished := true, exclIn := 0, nEff := 0
    carried := 0, stale := 0, vals := [], wait := [], left := 0, status := 0, code := 0, ended := false }

/-- Shards as the parameters or the table at EXT_ADDR give them. -/
def State.shardsFor (s : State) (c : Cmd) (n : Nat) : State × (List (Nat × Nat) ⊕ (Nat × Nat)) :=
  let count := c.u 0x28 8
  if c.cOp = 4 then (s, .inl [(0, count)])
  else if c.cFlag 3 && c.cOp != 5 then
    let (s, g) := s.devRead (c.cAddr 0x30) (16 * n)
    match g.err with
    | some (code, _) => (s, .inr (4, code))
    | none =>
      let l := raggedShards g.data n
      if shardsOk l count then (s, .inl l)
      else (s.logErr (blkLd 0) { code := 0x66, src := 14, icount := c.tag.toNat }, .inr (5, 0x66))
  else (s, .inl (evenShards n count))

/-- Early packets of the generation that begins are delivered in their order of arrival; one that has become stale
meanwhile is counted (R283). -/
def State.releaseEarly (s : State) (slot : Nat) : State :=
  let x := s.colls slot
  let s := s.setColl slot { x with early := [] }
  x.early.foldl (fun s e =>
    if s.fresh e.ld e.pkt && s.genTest e.pkt == .deliver then
      { s with net := { s.net with inbox := s.net.inbox ++ [e] } }
    else s.countStale e.ld) s

/-- The member's part as it begins, launched or not. -/
def State.beginRun (s : State) (slot : Nat) (c : Cmd) (members : List (BitVec 16)) (rank : Nat) : State :=
  let n := members.length
  match s.shardsFor c n with
  | (s, .inr (status, code)) => s.collFail slot status code
  | (s, .inl shards) =>
    let algo := algoOf c
    let r : CollRun := { blankRun c.cid algo with rank := rank, members := members, shards := shards }
    if algo = 4 then
      let blank := r.mine.2 == 0
      let r : CollRun := { r with
        contribs := List.replicate n ⟨0, blank, false⟩, outs := List.replicate n 0, finished := false
        nEff := if blank then n else 0 }
      let s := s.setRun slot r
      if blank then s.ownerFinish slot c else s
    else if c.cDirect then
      let s := s.setRun slot { r with nEff := n }
      let (s, left) := s.directLeft slot c r
      let s := s.mapRun slot (fun r => { r with left := left })
      if c.cOp = 3 ∧ c.cFlag 5 then
        let (s, map) := s.expertMap slot c n
        let held := heldExperts map rank
        if held = 0 then s.expertsDone slot c 0 else s
      else s
    else s.setRun slot { r with nEff := n, left := turnsLeft c r }

/-- COLL begins on its slot: a new generation (R282), its group and its shards. -/
def State.beginColl (s : State) (c : Cmd) : State :=
  let slot := c.cSlot
  let x := s.colls slot
  let s := s.running c
  let s := s.setColl slot { x with gen := nextGen x.gen, held := false, run := some (blankRun c.cid (algoOf c)) }
  let s := s.releaseEarly slot
  let (s, m) := s.members c.cGroup (c.cAddr 0x40)
  let s := match m with
    | .inr (code, _) => s.collFail slot 4 code
    | .inl l =>
      if !s.net.coordValid then s.collFail slot 2 0
      else
        match indexOf? s.net.coord l with
        | none => s.collFail slot 2 0
        | some rank => s.beginRun slot c l rank
  if c.cFlag 4 && !x.held then s else s.launchColl slot

/-- No earlier COLL that is ready waits for the same slot. -/
def State.firstOnSlot (s : State) (c : Cmd) : Bool :=
  (s.sd.cmds.takeWhile (fun x => x.cid != c.cid)).all (fun x =>
    x.stage != .ready || x.op != 0x0501 || x.cSlot != c.cSlot)

/-- R285-R290. A COLL waits for the one that runs on its slot. -/
def execColl (cid : Nat) (s : State) : Out :=
  s.withCmd cid 0x0501 (fun s c =>
    if (s.collRun c.cSlot).isSome || !s.firstOnSlot c then s else s.beginColl c)

/-! ## Packets -/

/-- The running COLL that a packet belongs to, and its source's rank. -/
def State.collOf (s : State) (k : Packet) : Option (Cmd × CollRun × Nat) :=
  let slot := k.id.toNat % 256
  match s.collRun slot with
  | none => none
  | some r =>
    match s.cmd? r.cid, indexOf? k.src r.members with
    | some c, some i => if k.gen.toNat = (s.colls slot).gen ∧ !r.ended then some (c, r, i) else none
    | _, _ => none

/-- R283, R288, R291: a packet that the test has delivered. One that finds its collective over is late. -/
def execCollData (k : Packet) (s : State) : Out :=
  match s.takeDelivered k 0x10 with
  | none => .next s
  | some (e, s) =>
    let slot := k.id.toNat % 256
    match s.collOf k with
    | none => .next (s.countLate e.ld)
    | some (c, r, i) =>
      if r.algo = 4 then .next (s.ownerData slot c r i e)
      else if c.cDirect then .next (s.directData slot c r i k)
      else .next (s.ringData slot c r k)

/-- R293: EXCLUDED, or INCLUDED of an owner that has added the contribution. -/
def execCollCtrl (k : Packet) (s : State) : Out :=
  match s.takePacket k 0x11 with
  | none => .next s
  | some s =>
    let slot := k.id.toNat % 256
    match s.collOf k with
    | none => .next s
    | some (c, r, j) =>
      if bits k.arg 7 0 = ctrlExcluded then .next (s.excludedBy slot c j)
      else if bits k.arg 7 0 = ctrlIncluded ∧ r.outs.getD j 1 = 0 then
        .next (s.setRun slot { r with outs := updAt r.outs j (fun _ => 1) })
      else .next s

/-- One source is excluded by this owner (R291). -/
def State.exclude (s : State) (slot : Nat) (c : Cmd) (i : Nat) : State :=
  match s.collRun slot with
  | none => s
  | some r =>
    let r : CollRun := { r with
      exclIn := r.exclIn + 1, contribs := updAt r.contribs i (fun x => { x with excluded := true }) }
    let s := s.setRun slot r
    if i = r.rank then s.excludedBy slot c i else s.collSend slot r i 0x11 0 ctrlExcluded []

/-- Bytes of a member's contribution that a link die accepted before a beat and that have not reached the combiner. -/
def State.underway (s : State) (slot : Nat) (source : BitVec 16) (beat : Nat) : Nat :=
  let mine (k : Packet) (b : Nat) : Bool :=
    k.ptype == 0x10 && k.id.toNat % 256 == slot && k.gen.toNat == (s.colls slot).gen && k.src == source
      && k.dest == s.net.coord && decide (b < beat)
  ((s.net.arrived.filter (fun e => mine e.pkt e.beat)).map (·.pkt.len)).sum
    + ((s.net.inbox.filter (fun e => mine e.pkt e.beat)).map (·.pkt.len)).sum

/-- Members that the owner excludes: their contributions were not whole when the deadline was reached. -/
def State.missed (s : State) (slot : Nat) (c : Cmd) (r : CollRun) : List Nat :=
  (List.range r.contribs.length).filter (fun i =>
    let x := r.contribs.getD i ⟨0, true, true⟩
    !x.included && !x.excluded
      && decide (x.bytes + s.underway slot (r.members.getD i 0) (c.u 0x10 8) < shardBytes c r r.rank))

/-- R291, R320: a contribution whose last flit was accepted before the deadline is still included. -/
def execCollDeadline (slot : Fin 256) (s : State) : Out :=
  match s.collRun slot.val with
  | none => .next s
  | some r =>
    match s.cmd? r.cid with
    | none => .next s
    | some c =>
      if r.algo = 4 ∧ !r.finished ∧ !r.ended ∧ c.overdue (s.nowAt (blkLd 0)) then
        let s := (s.missed slot.val c r).foldl (fun s i => s.exclude slot.val c i) s
        .next (if (s.collRun slot.val).any CollRun.allIn then s.ownerFinish slot.val c else s)
      else .next s

/-! ## Completion (R295) -/

def CollRun.complete (r : CollRun) : Bool :=
  r.ended
    || (r.finished && r.left == 0
        && r.outs.all (fun o => o == 1 || o == 3)
        && (r.launched.isSome || (r.algo == 4 && r.outs.all (· == 3))))

def CollRun.exclOut (r : CollRun) : Nat := (r.outs.filter (fun o => o == 2 || o == 3)).length

def CollRun.endStatus (r : CollRun) : Nat :=
  if r.ended then r.status else if r.exclIn + r.exclOut = 0 then 0 else 1

/-- The result record. -/
def collRecord (r : CollRun) (now : BitVec 64) : List Byte :=
  fitBytes 64
    (leBytes 8 (r.nEff % 2 ^ 32 * 2 ^ 32 + r.votes.toNat * 2 ^ 16 + r.algo * 256 + r.endStatus)
      ++ leBytes 8 (r.carried % 2 ^ 32 * 2 ^ 32 + r.exclIn)
      ++ leBytes 8 (r.stale % 2 ^ 32 * 2 ^ 32 + r.exclOut)
      ++ leBytes 8 (r.launched.getD 0).toNat ++ leBytes 8 now.toNat)

/-- Reply STATUS of a result-record STATUS. -/
def collReply (status code : Nat) : Nat :=
  match status with
  | 3 => stErr 0x64
  | 4 => stErr code
  | 5 => stErr 0x66
  | 6 => stAborted
  | _ => stOk

/-- RESULT of a COLL: STATUS and N_EFF, and the ALGO used (R291) where the result record has it (DESIGN CHOICE, log
entry 57). -/
def CollRun.result (r : CollRun) : BitVec 64 :=
  BitVec.ofNat 64 (r.nEff % 2 ^ 32 * 2 ^ 32 + r.algo % 256 * 256 + r.endStatus)

/-- A COLL ends: record, signal, reply, and the counts of the step's Sowing Log record (R363). -/
def State.endColl (s : State) (slot : Nat) (r : CollRun) (c : Cmd) : State :=
  let s := s.setColl slot { s.colls slot with run := none }
  let s := (s.devWrite (c.cAddr 0x60) (collRecord r s.alm.now)).1
  let s := s.sowColl (c.u 8 8) r.launched (if c.cFlag 0 then some (c.u 0x10 8) else none) r.exclIn r.exclOut
    r.carried r.stale r.nEff
  let s := if c.cFlag 1 then s.cmdSignal (blkLd 0) c (BitVec.ofNat 64 (c.u 0x68 8)) (c.u 0x70 2) else s
  s.reply c (collReply r.endStatus r.code) r.result

/-- R295. -/
def execCollComplete (slot : Fin 256) (s : State) : Out :=
  match s.collRun slot.val with
  | none => .next s
  | some r =>
    match s.cmd? r.cid with
    | none => .next s
    | some c => if r.complete then .next (s.endColl slot.val r c) else .next s

end Sys2Proof.Machine
end

