-- ==== Sys2Proof/Machine/Fixed.lean ====
section
/-! DEFINITION. The fixed-point arithmetic of the factor engine (R40-R42, R180, R181): exact sums, each
rounded once to a 48-bit grid, the factorisations and the stages of a solve. -/
namespace Sys2Proof.Machine

/-- An FX48 matrix, row by row. -/
abbrev FxMat := List (List Int)

/-- Why the lanes stop a problem: a range guard with its column (R182), a zero pivot, a pivot at or below
zero (R181), a division by zero that R181 does not name. -/
inductive FxStop where
  | breach (col : Nat)
  | singular (k : Nat)
  | notSpd (k : Nat)
  | zeroDiv (k : Nat)
  deriving DecidableEq, Repr

def fxMax : Int := 2 ^ 47 - 1

/-- The value of an FX48 integer at a scale exponent (R40). -/
def fxVal (e n : Int) : Dyad := ⟨n, e - 46⟩

/-- num / den, den positive, to the nearest integer, ties to even. -/
def roundDiv (num den : Int) : Int :=
  let q := num / den
  let r := num % den
  if 2 * r > den ∨ (2 * r = den ∧ q % 2 = 1) then q + 1 else q

/-- a / b rounded once onto the grid of exponent e; b is not 0. -/
def fxQuot (e : Int) (a b : Dyad) : Int :=
  let sh := a.e - b.e + 46 - e
  let (num, den) := if 0 ≤ sh then (a.m * 2 ^ sh.toNat, b.m) else (a.m, b.m * 2 ^ (-sh).toNat)
  if den < 0 then roundDiv (-num) (-den) else roundDiv num den

def Dyad.one : Dyad := ⟨1, 0⟩

/-- An exact value rounded onto the grid of exponent e; the guard fires where it saturates (R42, R182). -/
def fxRound (col : Nat) (e : Int) (a : Dyad) : Except FxStop Int :=
  let n := fxQuot e a Dyad.one
  if fxMax < n.natAbs then .error (.breach col) else .ok n

def fxDiv (col k : Nat) (e : Int) (a b : Dyad) : Except FxStop Int :=
  if b.m = 0 then .error (.zeroDiv k)
  else
    let n := fxQuot e a b
    if fxMax < n.natAbs then .error (.breach col) else .ok n

/-- The square root of an exact value that is not negative, rounded onto the grid of exponent e. -/
def fxSqrt (col : Nat) (e : Int) (a : Dyad) : Except FxStop Int :=
  let sh := a.e + 92 - 2 * e
  let q := if 0 ≤ sh then a.m.toNat * 2 ^ sh.toNat else a.m.toNat / 2 ^ (-sh).toNat
  let r := isqrt q
  let n := if r * r + r < q then r + 1 else r
  if fxMax < (n : Int) then .error (.breach col) else .ok n

/-- An input converted to FX48 (R42). -/
def fxOfVal (col : Nat) (e : Int) (v : FVal) : Except FxStop Int :=
  match v with
  | .fin _ _ _ => fxRound col e v.dyad
  | _ => .error (.breach col)

def FxMat.at (m : FxMat) (i j : Nat) : Int := (m.getD i []).getD j 0

def FxMat.put (m : FxMat) (i j : Nat) (v : Int) : FxMat := updAt m i (fun r => updAt r j (fun _ => v))

def FxMat.swap (m : FxMat) (i j : Nat) : FxMat :=
  (m.set i (m.getD j [])).set j (m.getD i [])

/-- Σ over p < k of f p · g p. -/
def fxDot (k : Nat) (f g : Nat → Int) : Int := (List.range k).foldl (fun s p => s + f p * g p) 0

def ceilHalf (e : Int) : Int := -((-e) / 2)

/-- Rows i of a column from `lo` up to `hi`, each replaced by what `f` gives. -/
def FxMat.fill (m : FxMat) (cells : List (Nat × Nat)) (f : FxMat → Nat → Nat → Except FxStop Int) :
    Except FxStop FxMat :=
  cells.foldlM (fun acc c => do
    let v ← f acc c.1 c.2
    pure (acc.put c.1 c.2 v)) m

def colCells (k lo hi : Nat) : List (Nat × Nat) := (List.range (hi - lo)).map (fun t => (lo + t, k))
def rowCells (k lo hi : Nat) : List (Nat × Nat) := (List.range (hi - lo)).map (fun t => (k, lo + t))

/-! ## LU (R181) -/

/-- Lowest row from k on whose entry in column k is greatest in magnitude. -/
def pivotRow (m : FxMat) (n k : Nat) : Nat :=
  (List.range (n - k)).foldl (fun best t =>
    if (m.at best k).natAbs < (m.at (k + t) k).natAbs then k + t else best) k

/-- A step of the Crout order; L and U overwrite A. -/
def luStep (ea : Int) (n : Nat) (st : FxMat × List Int) (k : Nat) : Except FxStop (FxMat × List Int) := do
  let elem (m : FxMat) (i j : Nat) : Except FxStop Int :=
    fxRound k ea ((fxVal ea (m.at i j)).sub ⟨fxDot k (fun p => m.at i p) (fun p => m.at p j), ea - 92⟩)
  let m ← st.1.fill (colCells k k n) elem
  let piv := pivotRow m n k
  let m := m.swap k piv
  if m.at k k = 0 then .error (.singular k)
  else
    let m ← m.fill (rowCells k (k + 1) n) elem
    let m ← m.fill (colCells k (k + 1) n) (fun m i _ =>
      fxDiv k k 0 (fxVal ea (m.at i k)) (fxVal ea (m.at k k)))
    pure (m, st.2 ++ [(piv : Int)])

def luFactor (ea : Int) (n : Nat) (a : FxMat) : Except FxStop (FxMat × List Int) :=
  (List.range n).foldlM (luStep ea n) (a, [])

/-! ## CHOL and LDLT (R181); A is given by its lower triangle -/

def cholStep (ea : Int) (n : Nat) (m : FxMat) (k : Nat) : Except FxStop FxMat := do
  let c := ceilHalf ea
  let rest (m : FxMat) (i : Nat) : Dyad :=
    (fxVal ea (m.at i k)).sub ⟨fxDot k (fun p => m.at i p) (fun p => m.at k p), 2 * c - 92⟩
  let d := rest m k
  if d.m ≤ 0 then .error (.notSpd k)
  else
    let r ← fxSqrt k c d
    let m := m.put k k r
    m.fill (colCells k (k + 1) n) (fun m i _ => fxDiv k k c (rest m i) (fxVal c (m.at k k)))

def ldltStep (ea el : Int) (n : Nat) (m : FxMat) (k : Nat) : Except FxStop FxMat := do
  let rest (m : FxMat) (i : Nat) : Dyad :=
    (fxVal ea (m.at i k)).sub
      ⟨fxDot k (fun p => m.at i p * m.at k p) (fun p => m.at p p), 2 * el + ea - 138⟩
  let d ← fxRound k ea (rest m k)
  if d = 0 then .error (.singular k)
  else
    let m := m.put k k d
    m.fill (colCells k (k + 1) n) (fun m i _ => fxDiv k k el (rest m i) (fxVal ea (m.at k k)))

/-! ## QR (R174, R180, R181) -/

/-- v less τ (vᵀ h) h, exactly; `lo` is the first row of the reflector h, whose leading element is 1. -/
def reflect (h : List Int) (tau : Int) (lo : Nat) (v : List Dyad) : List Dyad :=
  let hv (i : Nat) : Dyad :=
    if i < lo then Dyad.zero else if i = lo then Dyad.one else fxVal 0 (h.getD i 0)
  let rows := List.range v.length
  let w := Dyad.sum (rows.map (fun i => (hv i).mul (v.getD i Dyad.zero)))
  let tw := (fxVal 0 tau).mul w
  rows.map (fun i => (v.getD i Dyad.zero).sub (tw.mul (hv i)))

def FxMat.col (m : FxMat) (rows j : Nat) : List Int := (List.range rows).map (fun i => m.at i j)

/-- The reflectors `ks` of a factor applied in that order. -/
def reflectAll (m : FxMat) (taus : List Int) (rows : Nat) (ks : List Nat) (v : List Dyad) : List Dyad :=
  ks.foldl (fun v k => reflect (m.col rows k) (taus.getD k 0) k v) v

/-- Column k: the earlier reflectors in one exact expression, one rounding per element, then its own
reflector. `m` holds A in the columns not yet formed. -/
def qrStep (ea : Int) (rows : Nat) (st : FxMat × List Int) (k : Nat) : Except FxStop (FxMat × List Int) := do
  let (m, taus) := st
  let er := ea + 4
  let v := reflectAll m taus rows (List.range k) ((m.col rows k).map (fxVal ea))
  let m ← m.fill (colCells k 0 rows) (fun _ i _ => fxRound k er (v.getD i Dyad.zero))
  if ((List.range (rows - (k + 1))).all (fun t => m.at (k + 1 + t) k == 0)) then pure (m, taus ++ [0])
  else
    let sq := (List.range (rows - k)).foldl (fun s t => s + m.at (k + t) k * m.at (k + t) k) 0
    let norm ← fxSqrt k er ⟨sq, 2 * er - 92⟩
    let a := m.at k k
    let beta := if a < 0 then norm else -norm
    let tau ← fxDiv k k 0 (fxVal er (beta - a)) (fxVal er beta)
    let m ← m.fill (colCells k (k + 1) rows) (fun m i _ =>
      fxDiv k k 0 (fxVal er (m.at i k)) (fxVal er (a - beta)))
    pure (m.put k k beta, taus ++ [tau])

/-- The factor of a kind (R174) from A at EA: the body of R187 and its pivots or taus. -/
def factorise (kind : Nat) (ea el : Int) (n rows : Nat) (a : FxMat) : Except FxStop (FxMat × List Int) :=
  match kind with
  | 0 => luFactor ea n a
  | 1 => do
    let m ← (List.range n).foldlM (cholStep ea n) a
    pure (m, [])
  | 2 => do
    let m ← (List.range n).foldlM (ldltStep ea el n) a
    pure (m, [])
  | 3 => (List.range n).foldlM (qrStep ea rows) (a, [])
  | _ => .ok (a, [])

/-- Exponent of a factor's pivots. -/
def pivExp (kind : Nat) (ea : Int) : Int :=
  if kind = 1 then ceilHalf ea else if kind = 3 then ea + 4 else ea

/-- Smallest pivot in magnitude (R193). -/
def leastPivot (n : Nat) (m : FxMat) : Nat :=
  (List.range n).foldl (fun b i => min b (m.at i i).natAbs) (2 ^ 48)

/-! ## Solves (R175) -/

/-- A triangular stage: x_i = (r_i − Σ coef i p · x_p) / d_i, rows in the order given. -/
def triStage (col : Nat) (eo : Int) (order : List Nat) (n : Nat) (r : Nat → Dyad) (coef : Nat → Nat → Dyad)
    (d : Nat → Dyad) : Except FxStop (List Int) :=
  order.foldlM (fun x i => do
    let s := Dyad.sum ((order.filter (· != i)).map (fun p => (coef i p).mul (fxVal eo (x.getD p 0))))
    let v ← fxDiv col i eo ((r i).sub s) (d i)
    pure (x.set i v)) (List.replicate n 0)

def permute (piv : List Int) (v : List Int) : List Int :=
  (List.range piv.length).foldl (fun v k =>
    let p := (piv.getD k 0).toNat
    (v.set k (v.getD p 0)).set p (v.getD k 0)) v

def unpermute (piv : List Int) (v : List Int) : List Int :=
  (List.range piv.length).reverse.foldl (fun v k =>
    let p := (piv.getD k 0).toNat
    (v.set k (v.getD p 0)).set p (v.getD k 0)) v

/-- What the two stages of a solve need: the factor and its exponents, and those of this solve. -/
structure SolveIn where
  kind : Nat
  trans : Bool
  n    : Nat
  rows : Nat
  ea   : Int
  el   : Int
  m    : FxMat
  piv  : List Int
  upper : Bool
  unit : Bool
  eb   : Int
  ey   : Int
  ex   : Int
  deriving DecidableEq, Repr

def SolveIn.up (q : SolveIn) : List Nat := List.range q.n
def SolveIn.down (q : SolveIn) : List Nat := (List.range q.n).reverse

/-- First stage of one column: from EB to EY. TRI has none. -/
def SolveIn.stage1 (q : SolveIn) (col : Nat) (b : List Int) : Except FxStop (List Int) :=
  let r (v : List Int) (i : Nat) : Dyad := fxVal q.eb (v.getD i 0)
  let low (e : Int) (i p : Nat) : Dyad := fxVal e (q.m.at i p)
  let upT (e : Int) (i p : Nat) : Dyad := fxVal e (q.m.at p i)
  let one (_ : Nat) : Dyad := Dyad.one
  match q.kind, q.trans with
  | 0, false => triStage col q.ey q.up q.n (r (permute q.piv b)) (low 0) one
  | 0, true => triStage col q.ey q.up q.n (r b) (upT q.ea) (fun i => fxVal q.ea (q.m.at i i))
  | 1, _ =>
    let c := ceilHalf q.ea
    triStage col q.ey q.up q.n (r b) (low c) (fun i => fxVal c (q.m.at i i))
  | 2, _ => triStage col q.ey q.up q.n (r b) (low q.el) one
  | 3, false =>
    let v := reflectAll q.m q.piv q.rows (List.range q.n) ((List.range q.rows).map (r b))
    (v.take q.n).mapM (fxRound col q.ey)
  | 3, true =>
    triStage col q.ey q.up q.n (r b) (upT (q.ea + 4)) (fun i => fxVal (q.ea + 4) (q.m.at i i))
  | _, _ => .ok b

/-- Second stage of one column: from EY to EX; TRI's one stage starts from EB. -/
def SolveIn.stage2 (q : SolveIn) (col : Nat) (y : List Int) : Except FxStop (List Int) :=
  let r (i : Nat) : Dyad := fxVal q.ey (y.getD i 0)
  let low (e : Int) (i p : Nat) : Dyad := fxVal e (q.m.at i p)
  let upT (e : Int) (i p : Nat) : Dyad := fxVal e (q.m.at p i)
  let diag (e : Int) (i : Nat) : Dyad := fxVal e (q.m.at i i)
  match q.kind, q.trans with
  | 0, false => triStage col q.ex q.down q.n r (low q.ea) (diag q.ea)
  | 0, true => (triStage col q.ex q.down q.n r (upT 0) (fun _ => Dyad.one)).map (unpermute q.piv)
  | 1, _ =>
    let c := ceilHalf q.ea
    triStage col q.ex q.down q.n r (upT c) (diag c)
  | 2, _ =>
    triStage col q.ex q.down q.n r (fun i p => (upT q.el i p).mul (diag q.ea i)) (diag q.ea)
  | 3, false => triStage col q.ex q.down q.n r (low (q.ea + 4)) (diag (q.ea + 4))
  | 3, true =>
    let v := (List.range q.rows).map (fun i => if i < q.n then r i else Dyad.zero)
    (reflectAll q.m q.piv q.rows (List.range q.n).reverse v).mapM (fxRound col q.ex)
  | _, t =>
    let r (i : Nat) : Dyad := fxVal q.eb (y.getD i 0)
    let d (i : Nat) : Dyad := if q.unit then Dyad.one else diag q.ea i
    triStage col q.ex (if q.upper == t then q.up else q.down) q.n r (if t then upT q.ea else low q.ea) d

/-- Every column of a stage. -/
def eachCol (l : List (List Int)) (f : Nat → List Int → Except FxStop (List Int)) :
    Except FxStop (List (List Int)) :=
  (List.range l.length).mapM (fun j => f j (l.getD j []))

end Sys2Proof.Machine
end

