-- ==== Sys2Proof/Machine/Factor.lean ====
section
/-! DEFINITION. The factor engine (R173-R199): batches, descriptors, handles, refinement, retained factors,
deadlines and results. -/
namespace Sys2Proof.Machine

/-! ## Descriptors (R178) -/

/-- A descriptor taken apart. -/
structure Desc where
  op     : Nat
  kind   : Nat
  retain : Bool
  refine : Bool
  warm   : Bool
  upper  : Bool
  unit   : Bool
  fa     : Nat
  fb     : Nat
  fx     : Nat
  rmax   : Nat
  m      : Nat
  n      : Nat
  nrhs   : Nat
  ea     : Int
  eb     : Int
  ex     : Int
  ey     : Int
  el     : Int
  a      : Nat
  lda    : Nat
  b      : Nat
  ldb    : Nat
  x      : Nat
  ldx    : Nat
  handle : Nat
  slot   : Nat
  sig    : Nat
  rtol   : Nat
  rchk   : Nat
  /-- bits that must be zero -/
  zero   : Nat
  deriving DecidableEq, Repr

def sExp (w : BitVec 64) (hi lo : Nat) : Int := (BitVec.ofNat 16 (bits w hi lo)).toInt

def descOf (l : List (BitVec 64)) : Desc :=
  let w (i : Nat) : BitVec 64 := l.getD i 0
  let v (i : Nat) : Nat := (w i).toNat
  { op := bits (w 0) 63 60, kind := bits (w 0) 59 56, retain := (w 0).getLsbD 55, refine := (w 0).getLsbD 54
    warm := (w 0).getLsbD 53, upper := (w 0).getLsbD 52, unit := (w 0).getLsbD 51
    fa := bits (w 0) 47 44, fb := bits (w 0) 43 40, fx := bits (w 0) 39 36, rmax := bits (w 0) 35 32
    m := bits (w 0) 31 24, n := bits (w 0) 23 16, nrhs := bits (w 0) 15 8
    ea := sExp (w 1) 63 48, eb := sExp (w 1) 47 32, ex := sExp (w 1) 31 16, ey := sExp (w 1) 15 0
    el := sExp (w 9) 31 16
    a := v 2, lda := v 3, b := v 4, ldb := v 5, x := v 6, ldx := v 7
    handle := bits (w 8) 63 32, slot := bits (w 8) 31 0, sig := bits (w 9) 63 32, rtol := v 10, rchk := v 11
    zero := bits (w 0) 50 48 + bits (w 0) 7 0 + bits (w 9) 15 0 + v 12 + v 13 + v 14 + v 15 }

def Desc.isQr (d : Desc) : Bool := d.kind == 3
def Desc.isTri (d : Desc) : Bool := d.kind == 4
def Desc.trans (d : Desc) : Bool := d.op == 3
def Desc.rowsA (d : Desc) : Nat := if d.isQr then d.m else d.n
def Desc.rowsB (d : Desc) : Nat := if d.isQr && !d.trans then d.m else d.n
def Desc.rowsX (d : Desc) : Nat := if d.isQr && d.trans then d.m else d.n
def Desc.quad (d : Desc) : Bool := decide (64 < d.n)

/-- It names a handle: SOLVE and SOLVE_T of a kind with a factor, and every warm start (R174, R192). -/
def Desc.named (d : Desc) : Bool := !d.isTri && (d.op == 2 || d.op == 3 || d.warm)

def esize (fmt : Nat) : Nat := if fmt = 0 then 8 else 4

/-- Bytes of the pivot area and of a whole record (R187). -/
def pivBytes (kind n : Nat) : Nat :=
  if kind = 3 then (8 * n + 63) / 64 * 64 else if n ≤ 64 then 64 else 128

def recordBytes (kind n m : Nat) : Nat := 64 + pivBytes kind n + 8 * ((if kind = 3 then m else n) * n)

/-- A matrix lies in HBM, in the die's local store or in a tile's window (R179). -/
def State.matrixOk (s : State) (f a ld rows rowBytes : Nat) : Bool :=
  let last := a + (rows - 1) * ld + rowBytes - 1
  a % 8 == 0 && ld % 8 == 0 && decide (rowBytes ≤ ld) && decide (a < 2 ^ 48)
    && (match s.locate a, s.locate (max a last) with
      | .hbm _ _, .hbm _ _ => true
      | .sram d t _, .sram d' t' _ => d == d' && t == t'
      | .store g _, .store g' _ => g == f && g' == f
      | _, _ => false)

def FVal.isFin : FVal → Bool
  | .fin _ _ _ => true
  | _ => false

/-- RCHK is +0, or positive, finite and no smaller than RTOL (R179). -/
def Desc.rchkOk (d : Desc) : Bool :=
  d.rchk == 0 ||
    (let c := fp64.decode d.rchk
     let t := fp64.decode d.rtol
     c.isFin && !c.neg? && !c.isZero && d.refine && !t.isNan && cmpVal c t != .lt)

def Desc.exps (d : Desc) : List Int := [d.ea, d.eb, d.ex, d.ey, d.el]

/-- R179. -/
def State.descOk (s : State) (f : Nat) (d : Desc) : Bool :=
  let F := s.fd f
  d.zero == 0 && decide (d.op ≤ 3) && decide (d.kind ≤ 4) && decide (d.fa ≤ 1) && decide (d.fb ≤ 1)
    && decide (d.fx ≤ 1) && decide (1 ≤ d.n)
    && (if d.isQr then decide (d.n ≤ 64) && decide (d.n ≤ d.m) && decide (d.m ≤ 128)
        else decide (d.n ≤ 128) && d.m == 0)
    && decide (d.nrhs ≤ 64) && (d.op == 0 || decide (1 ≤ d.nrhs))
    && d.exps.all (fun e => decide (-1000 ≤ e) && decide (e ≤ 1000)) && (d.kind == 2 || d.el == 0)
    && (!d.isTri || (decide (2 ≤ d.op) && !d.retain && !d.refine))
    && (!(d.isQr && d.refine) || d.m == d.n)
    && (!d.warm || (d.refine && !d.retain && !d.isTri))
    && d.rchkOk
    && s.matrixOk f d.a d.lda d.rowsA (d.n * esize d.fa)
    && s.matrixOk f d.b d.ldb d.rowsB (d.nrhs * esize d.fb)
    && s.matrixOk f d.x d.ldx d.rowsX (d.nrhs * esize d.fx)
    && decide (d.slot < 2 ^ 22)
    && (!d.retain || (F.valid && decide (d.slot < F.slots.toNat)
        && decide (recordBytes d.kind d.n d.m ≤ F.slotBytes.toNat)))

/-! ## Statuses (R194) -/

def psOk : Nat := 0
def psLimit : Nat := 1
def psDeadline : Nat := 2
def psNotRun : Nat := 3
def psExhausted : Nat := 4
def psBreach : Nat := 0x10
def psSingular : Nat := 0x11
def psNotSpd : Nat := 0x12
def psResidual : Nat := 0x13
def psStale : Nat := 0x20
def psForeign : Nat := 0x21
def psKind : Nat := 0x22
def psInvalid : Nat := 0x30
def psData : Nat := 0x31
def psAborted : Nat := 0x3F

def canonNan64 : BitVec 64 := 0x7FF8000000000000

/-! ## The batch -/

def State.batch (s : State) (f : Nat) : Option BatchRun := (s.fd f).batch

def State.setBatch (s : State) (f : Nat) (b : BatchRun) : State :=
  s.setFd f { s.fd f with batch := some b }

def BatchRun.put (b : BatchRun) (p : Problem) : BatchRun :=
  { b with probs := b.probs.map (fun q => if q.index = p.index then p else q) }

/-- Parameters of the running FACTOR_BATCH (R197). -/
def State.batchParam (s : State) (b : BatchRun) (off n : Nat) : Nat :=
  match s.cmd? b.cid with
  | some c => c.u off n
  | none => 0

/-- An error response of a problem: logged with its address, and kept for the reply (R194, R197). -/
def State.batchError (s : State) (f lane code addr : Nat) : State :=
  let s := s.logErr (blkFd f) { code := code, src := 10, unit := lane, addr := addr }
  match s.batch f with
  | some b => s.setBatch f { b with err := if b.err = 0 then code + 1 else b.err }
  | none => s

/-- What a result record says beside its status (R193). -/
structure Outcome where
  status : Nat
  stage  : Nat := 0
  info   : Nat := 0
  handle : Nat := 0

def resultWords (p : Problem) (o : Outcome) (start : BitVec 32) : List (BitVec 64) :=
  [ BitVec.ofNat 64 (o.handle * 2 ^ 32 + p.sweeps % 256 * 2 ^ 24 + o.info % 256 * 2 ^ 16 + o.stage % 8 * 2 ^ 11
      + p.warm % 4 * 2 ^ 9 + natOf (p.warm != 0) * 2 ^ 8 + o.status % 256),
    p.rnorm, p.pivmin,
    BitVec.ofNat 64 (min p.cycles 0xFFFFFFFF * 2 ^ 32 + start.toNat) ]

/-- Counts of the summary (R194). -/
def BatchRun.count1 (b : BatchRun) (status : Nat) (warm : Bool) : BatchRun :=
  let b := { b with done := b.done + 1, rejected := b.rejected + natOf warm }
  if status = psOk then { b with ok := b.ok + 1 }
  else if status = psLimit ∨ status = psDeadline then { b with partly := b.partly + 1 }
  else if status = psNotRun ∨ status = psAborted then { b with notRun := b.notRun + 1 }
  else if status = psBreach then { b with breach := b.breach + 1 }
  else { b with other := b.other + 1 }

/-- A problem's result record is written and the problem is over (R193, R199). -/
def State.endProblem (s : State) (f : Nat) (p : Problem) (o : Outcome) (start : BitVec 32) : State :=
  match s.batch f with
  | none => s
  | some b =>
    let at? := s.batchParam b 8 8 + 32 * p.index
    let (s, e) := s.devWrite at? (bytesOfWords (resultWords p o start))
    let s := match e with
      | some (code, off) => s.batchError f p.lane code (at? + off)
      | none => s
    let status := if e.isSome then psData else o.status
    let F := s.fd f
    let F := { F with
      breaches := if status = psBreach then BitVec.ofNat 32 (satInc 0xFFFFFFFF F.breaches.toNat) else F.breaches
      faults := if status = psData then BitVec.ofNat 32 (satInc 0xFFFFFFFF F.faults.toNat) else F.faults }
    let s := s.setFd f F
    match F.batch with
    | none => s
    | some b =>
      let b := { b with probs := b.probs.filter (fun q => q.index != p.index), lastBeat := s.alm.now }
      s.setBatch f (b.count1 status (p.warm != 0))

def Problem.new (i lane : Nat) (words : List (BitVec 64)) (now : BitVec 64) : Problem :=
  { index := i, lane := lane, words := words, stage := .factor, start := now, cycles := 0, warm := 0
    mat := [], piv := [], fea := 0, fel := 0, b := [], rhs := [], mid := [], er := none, x := []
    sweeps := 0, rnorm := canonNan64, pivmin := 0, status := 0, reading := none }

/-- A problem that never starts; START of its record is a free value. -/
def State.endUnstarted (s : State) (f i status : Nat) : State :=
  let (k, s) := s.take
  match s.batch f with
  | none => s
  | some b =>
    let s := s.setBatch f { b with next := i + 1 }
    s.endProblem f (Problem.new i 0 [] 0) { status := status } (Config.noStart k)

/-- Every problem from `i` on ends without a start. -/
def State.endRest (s : State) (f status : Nat) : State :=
  match s.batch f with
  | none => s
  | some b =>
    (List.range (b.count - b.next)).foldl (fun s t => s.endUnstarted f (b.next + t) status) s

/-- A started problem ends. -/
def State.endStarted (s : State) (f : Nat) (p : Problem) (o : Outcome) : State :=
  s.endProblem f p o (BitVec.ofNat 32 p.start.toNat)

/-- A lane stops a problem (R181, R182): the stage of a range breach, its column. -/
def State.stopProblem (s : State) (f : Nat) (p : Problem) (stage : Nat) (e : FxStop) : State :=
  let p : Problem := { p with rnorm := canonNan64 }
  match e with
  | .breach col => s.endStarted f p { status := psBreach, stage := stage, info := col }
  | .singular k => s.endStarted f p { status := psSingular, info := k }
  | .notSpd k => s.endStarted f p { status := psNotSpd, info := k }
  | .zeroDiv k =>
    let (n, s) := s.take
    if Config.zeroPivotSingular n then s.endStarted f p { status := psSingular, info := k }
    else s.endStarted f p { status := psBreach, stage := stage, info := k }

/-- DATA_FAULT. -/
def State.faultProblem (s : State) (f : Nat) (p : Problem) (code addr : Nat) : State :=
  (s.batchError f p.lane code addr).endStarted f { p with rnorm := canonNan64 } { status := psData }

/-- An uncorrectable word of a working store (R173). -/
def State.laneFault (s : State) (f : Nat) (p : Problem) : State :=
  let s := s.logErr (blkFd f) { code := 0x42, src := 10, unit := p.lane }
  s.endStarted f { p with rnorm := canonNan64 } { status := psData }

/-! ## Data -/

/-- Elements lo to hi of row i of a matrix, as they stand in memory. -/
def State.readRow (s : State) (a fmt lo hi : Nat) : State × (List FVal ⊕ (Nat × Nat)) :=
  let es := esize fmt
  let at? := a + lo * es
  let (s, g) := s.devRead at? ((hi - lo) * es)
  match g.err with
  | some (code, off) => (s, .inr (code, at? + off))
  | none =>
    let F := if fmt = 0 then fp64 else fp32
    (s, .inl ((List.range (hi - lo)).map (fun j => F.decode (leField g.data (j * es) es))))

/-- A matrix row by row, each row from `lo` up to `hi`, elements outside being zero. -/
def State.readMat (s : State) (a ld fmt cols : Nat) (span : Nat → Nat × Nat) :
    List Nat → State × (List (List FVal) ⊕ (Nat × Nat))
  | [] => (s, .inl [])
  | i :: l =>
    let (lo, hi) := span i
    match s.readRow (a + i * ld) fmt lo hi with
    | (s, .inr e) => (s, .inr e)
    | (s, .inl v) =>
      match State.readMat s a ld fmt cols span l with
      | (s, .inr e) => (s, .inr e)
      | (s, .inl r) =>
        let z : FVal := .fin false 0 0
        (s, .inl ((List.replicate lo z ++ v ++ List.replicate (cols - hi) z) :: r))

/-- The part of row i of A that is read (R174, R178). -/
def Desc.spanA (d : Desc) (i : Nat) : Nat × Nat :=
  if d.kind = 0 ∨ d.kind = 3 then (0, d.n)
  else
    let skip := natOf (d.isTri && d.unit)
    if d.upper then (min d.n (i + skip), d.n) else (0, i + 1 - skip)

/-- A as the problem uses it: a symmetric matrix from its triangle. -/
def Desc.full (d : Desc) (m : List (List FVal)) : List (List FVal) :=
  let z : FVal := .fin false 0 0
  let el (i j : Nat) : FVal := (m.getD i []).getD j z
  if d.kind = 1 ∨ d.kind = 2 then
    (List.range d.n).map (fun i => (List.range d.n).map (fun j =>
      if d.upper then (if i ≤ j then el i j else el j i) else (if j ≤ i then el i j else el j i)))
  else m

def State.readA (s : State) (d : Desc) : State × (List (List FVal) ⊕ (Nat × Nat)) :=
  match s.readMat d.a d.lda d.fa d.n d.spanA (List.range d.rowsA) with
  | (s, .inl m) => (s, .inl (d.full m))
  | r => r

def State.readB (s : State) (d : Desc) : State × (List (List FVal) ⊕ (Nat × Nat)) :=
  if d.op = 0 then (s, .inl [])
  else s.readMat d.b d.ldb d.fb d.nrhs (fun _ => (0, d.nrhs)) (List.range d.rowsB)

/-- A in FX48 at EA, row by row; CHOL and LDLT keep the lower triangle (R180, R182). -/
def fxMatrix (d : Desc) (m : List (List FVal)) : Except FxStop FxMat :=
  (List.range d.rowsA).mapM (fun i =>
    (List.range d.n).mapM (fun j =>
      if (d.kind = 1 ∨ d.kind = 2) ∧ i < j then .ok 0
      else fxOfVal j d.ea ((m.getD i []).getD j (.fin false 0 0))))

/-- The columns of B in FX48. -/
def fxColumns (e : Int) (rows cols : Nat) (m : List (List FVal)) : Except FxStop (List (List Int)) :=
  (List.range cols).mapM (fun j =>
    (List.range rows).mapM (fun i => fxOfVal j e ((m.getD i []).getD j (.fin false 0 0))))

def code64 (v : FVal) : BitVec 64 := BitVec.ofNat 64 (fp64.ofVal .nearest v).1

/-- Columns of a matrix in FP64; FP32 widens exactly. -/
def columns64 (rows cols : Nat) (m : List (List FVal)) : List (List (BitVec 64)) :=
  (List.range cols).map (fun j => (List.range rows).map (fun i => code64 ((m.getD i []).getD j (.fin false 0 0))))

/-! ## Handles and records (R186-R189) -/

/-- A retained record's header. -/
structure Header where
  state : Nat
  gen   : Nat
  kind  : Nat
  n     : Nat
  m     : Nat
  sig   : Nat
  ea    : Int
  el    : Int
  deriving DecidableEq, Repr

def headerOf (l : List Byte) : Header :=
  let w := wordsOf (fitBytes 16 l)
  let w0 := w.getD 0 0
  let w1 := w.getD 1 0
  ⟨bits w0 7 0, bits w0 15 8, bits w0 19 16, bits w0 31 24, bits w0 39 32, bits w1 31 0, sExp w1 47 32, sExp w1 63 48⟩

def headerBytes (h : Header) : List Byte :=
  let w0 := h.state + h.gen * 2 ^ 8 + h.kind * 2 ^ 16 + h.n * 2 ^ 24 + h.m * 2 ^ 32
  let w1 := h.sig + (BitVec.ofInt 16 h.ea).toNat * 2 ^ 32 + (BitVec.ofInt 16 h.el).toNat * 2 ^ 48
  fitBytes 64 (leBytes 8 w0 ++ leBytes 8 w1)

def State.slotAddr (s : State) (f slot : Nat) : Nat :=
  let F := s.fd f
  F.base.toNat + slot * F.slotBytes.toNat

/-- Slots that lanes read, and slots under commit (R189). -/
def State.slotRead (s : State) (f slot : Nat) : Bool :=
  match s.batch f with
  | some b => b.probs.any (fun p => p.reading == some slot)
  | none => false

def State.slotCommitting (s : State) (f slot : Nat) : Bool :=
  match s.batch f with
  | some b => b.probs.any (fun p => p.stage == .commit && (descOf p.words).slot == slot)
  | none => false

/-- An FX48 word of a record. -/
def fxWord (w : BitVec 64) : Int := (BitVec.ofNat 48 w.toNat).toInt

/-- Body and pivots of a record; the code that is no value is a range breach at input (R40, R182). -/
def recordOf (kind n m : Nat) (l : List Byte) : Except FxStop (FxMat × List Int) :=
  let rows := if kind = 3 then m else n
  let body := wordsOf (l.drop (64 + pivBytes kind n))
  let area := l.drop 64
  let piv : List Int :=
    if kind = 0 then (List.range n).map (fun k => (leField area k 1 : Int))
    else if kind = 3 then (List.range n).map (fun k => fxWord (BitVec.ofNat 64 (leField area (8 * k) 8)))
    else []
  let bad (x : Int) : Bool := x == -(2 ^ 47)
  do
    let mat ← (List.range rows).mapM (fun i => (List.range n).mapM (fun j =>
      let x := fxWord (body.getD (i * n + j) 0)
      if bad x then .error (.breach j) else .ok x))
    match (List.range piv.length).find? (fun k => bad (piv.getD k 0)) with
    | some k => .error (.breach k)
    | none => pure (mat, piv)

/-- What HANDLE_IN gives: a status, an error response, a breach, or the factor with its header. -/
inductive Resolved where
  | status (n : Nat)
  | error (code addr : Nat)
  | stop (e : FxStop)
  | factor (h : Header) (m : FxMat) (piv : List Int)

/-- R189. -/
def State.resolve (s : State) (f : Nat) (d : Desc) : State × Resolved :=
  let slot := d.handle % 2 ^ 22
  let gen := d.handle / 2 ^ 22 % 256
  let at? := s.slotAddr f slot
  if d.handle = 0 ∨ d.handle / 2 ^ 30 ≠ f then (s, .status psForeign)
  else if (s.fd f).slots.toNat ≤ slot ∨ s.slotCommitting f slot then (s, .status psStale)
  else
    let (s, g) := s.devRead at? 64
    match g.err with
    | some (code, off) => (s, .error code (at? + off))
    | none =>
      let h := headerOf g.data
      if h.state ≠ 1 ∨ h.gen ≠ gen then (s, .status psStale)
      else if h.kind ≠ d.kind ∨ h.n ≠ d.n ∨ h.m ≠ d.m then (s, .status psKind)
      else
        let (s, g) := s.devRead at? (recordBytes d.kind d.n d.m)
        match g.err with
        | some (code, off) => (s, .error code (at? + off))
        | none =>
          match recordOf d.kind d.n d.m g.data with
          | .error e => (s, .stop e)
          | .ok (m, piv) => (s, .factor h m piv)

/-! ## Starting a problem -/

/-- The deadline of the batch has come by the factor die's own Almanac (R191, R311). -/
def State.batchLate (s : State) (f : Nat) (b : BatchRun) : Bool :=
  s.batchParam b 0x1C 4 % 2 == 1 && decide (s.batchParam b 0x20 8 ≤ s.nowAt (blkFd f))

/-- The lowest free lane, or lane quad (R173). -/
def BatchRun.lane? (b : BatchRun) (quad : Bool) : Option Nat :=
  let size := if quad then 4 else 1
  let held (l : Nat) : Bool := b.probs.any (fun p =>
    decide (p.lane < l + size) && decide (l < p.lane + (if (descOf p.words).quad then 4 else 1)))
  ((List.range (256 / size)).map (size * ·)).find? (fun l => !held l)

/-- A factor is there: the solve begins, or the problem has nothing to solve. -/
def Problem.toSolve (p : Problem) (d : Desc) : Problem :=
  { p with stage := if d.isTri then .second else .first, mid := if d.isTri then p.rhs else [] }

/-- TRI's matrix is its factor (R174, R193). -/
def State.afterInput (s : State) (f : Nat) (p : Problem) (d : Desc) (a : List (List FVal)) : State :=
  match fxMatrix d a with
  | .error e => s.stopProblem f p 0 e
  | .ok m =>
    let p : Problem := { p with mat := m, fea := d.ea, fel := d.el }
    let put (s : State) (p : Problem) : State :=
      match s.batch f with
      | some b => s.setBatch f (b.put p)
      | none => s
    if d.isTri then
      let pm := if d.unit then 0x3FF0000000000000#64
        else code64 (FVal.ofDyad false (fxVal d.ea (leastPivot d.n m)))
      put s ({ p with pivmin := pm }.toSolve d)
    else put s p

/-- The problem's input arrives and its handle is resolved (R176, R182, R189, R192). -/
def State.startProblem (s : State) (f : Nat) (p : Problem) (d : Desc) : State :=
  let needA := decide (d.op < 2) || d.isTri || d.warm
  let (s, ra) := if needA then s.readA d else (s, .inl [])
  match ra with
  | .inr (code, addr) => s.faultProblem f p code addr
  | .inl a =>
    let (s, rb) := s.readB d
    match rb with
    | .inr (code, addr) => s.faultProblem f p code addr
    | .inl b =>
      match fxColumns d.eb d.rowsB d.nrhs (if d.op = 0 then [] else b) with
      | .error e => s.stopProblem f p 0 e
      | .ok rhs =>
        let p : Problem := { p with rhs := if d.op = 0 then [] else rhs, b := columns64 d.rowsB d.nrhs b }
        if !d.named then s.afterInput f p d a
        else
          let (s, r) := s.resolve f d
          match r with
          | .status st =>
            if d.warm then s.afterInput f { p with warm := 1 } d a else s.endStarted f p { status := st }
          | .error code addr => s.faultProblem f p code addr
          | .stop e => s.stopProblem f p 0 e
          | .factor h m piv =>
            if d.warm && h.sig != d.sig then s.afterInput f { p with warm := 2 } d a
            else
              let p : Problem := { p with
                mat := m, piv := piv, fea := h.ea, fel := h.el, reading := some (d.handle % 2 ^ 22) }
              match s.batch f with
              | some bt => s.setBatch f (bt.put (p.toSolve d))
              | none => s

/-- R176, R179, R191. The next problem in index order is checked, assigned and started. -/
def execProblemStart (f : Fin 4) (i cycles : Nat) (bad : Bool) (s : State) : Out :=
  match s.batch f.val with
  | none => .next s
  | some b =>
    if b.next ≠ i ∨ b.count ≤ i ∨ s.wseal.isSealed then .next s
    else if s.batchLate f.val b then .next (s.endRest f.val psNotRun)
    else
      let at? := s.batchParam b 0 8 + 128 * i
      let (s, g) := s.devRead at? 128
      match g.err with
      | some (code, off) =>
        .next ((s.batchError f.val 0 code (at? + off)).endUnstarted f.val i psData)
      | none =>
        let words := wordsOf g.data
        let d := descOf words
        if !s.descOk f.val d then .next (s.endUnstarted f.val i psInvalid)
        else
          match b.lane? d.quad with
          | none => .next s
          | some lane =>
            let p : Problem := { Problem.new i lane words s.alm.now with cycles := cycles }
            match s.batch f.val with
            | none => .next s
            | some b =>
              let s := s.setBatch f.val { b with next := i + 1, probs := b.probs ++ [p] }
              if bad then .next (s.laneFault f.val p) else .next (s.startProblem f.val p d)

/-! ## Stages -/

def State.problem? (s : State) (f i : Nat) : Option Problem :=
  (s.batch f).bind (fun b => b.probs.find? (fun p => p.index == i))

def State.putProblem (s : State) (f : Nat) (p : Problem) : State :=
  match s.batch f with
  | some b => s.setBatch f (b.put p)
  | none => s

/-- The solve that a problem is in: the first, or a correction at er (R183). -/
def solveIn (p : Problem) (d : Desc) : SolveIn :=
  let sh : Int := match p.er with
    | some e => e - d.eb
    | none => 0
  { kind := d.kind, trans := d.trans, n := d.n, rows := d.rowsA, ea := p.fea, el := p.fel, m := p.mat, piv := p.piv
    upper := d.upper, unit := d.unit, eb := d.eb + sh, ey := d.ey + sh, ex := d.ex + sh }

/-- X is written row by row, each element in FMT_X (R193, R194). -/
def State.writeX (s : State) (p : Problem) (d : Desc) : List Nat → State × Option (Nat × Nat)
  | [] => (s, none)
  | i :: l =>
    let F := if d.fx = 0 then fp64 else fp32
    let row := (List.range d.nrhs).flatMap (fun j =>
      leBytes (esize d.fx) (F.ofVal .nearest (fp64.decode ((p.x.getD j []).getD i 0).toNat)).1)
    match s.devWrite (d.x + i * d.ldx) row with
    | (s, some (code, off)) => (s, some (code, d.x + i * d.ldx + off))
    | (s, none) => State.writeX s p d l

/-- A retain may begin (R188, R189): earlier retains of the batch into the slot are over, and no lane
reads it. -/
def State.mayCommit (s : State) (f : Nat) (p : Problem) (slot : Nat) : Bool :=
  !s.slotRead f slot &&
    (match s.batch f with
    | some b => b.probs.all (fun q =>
        decide (p.index ≤ q.index) || !(descOf q.words).retain || (descOf q.words).slot != slot)
    | none => false)

/-- The header goes BUSY, unless its generation is spent (R188). -/
def State.beginCommit (s : State) (f : Nat) (p : Problem) : State :=
  let d := descOf p.words
  let at? := s.slotAddr f d.slot
  if !s.mayCommit f p d.slot then s.putProblem f { p with stage := .commitWait }
  else
    let (s, g) := s.devRead at? 64
    match g.err with
    | some (code, off) => s.faultProblem f p code (at? + off)
    | none =>
      let h := headerOf g.data
      if h.gen = 255 then s.endStarted f p { status := psExhausted }
      else
        match s.devWrite at? [2] with
        | (s, some (code, off)) => s.faultProblem f p code (at? + off)
        | (s, none) => s.putProblem f { p with stage := .commit }

/-- A solution, or the factor of OP FACTOR, is ready: X is written, then the factor retained (R188, R194). -/
def State.concludeProblem (s : State) (f : Nat) (p : Problem) (status : Nat) : State :=
  let d := descOf p.words
  let p : Problem := { p with status := status, reading := none }
  let (s, e) := if d.op = 0 then (s, none) else s.writeX p d (List.range d.rowsX)
  match e with
  | some (code, addr) => s.faultProblem f p code addr
  | none =>
    let s := match s.batch f with
      | some b => s.setBatch f { b with
          off := b.off || (d.op != 0 && (!d.refine || d.rchk == 0))
          unmet := b.unmet || status == psLimit || status == psDeadline }
      | none => s
    if d.retain then (s.putProblem f p).beginCommit f p else s.endStarted f p { status := status }

/-- A factorisation completes (R181). -/
def State.factorStage (s : State) (f : Nat) (p : Problem) (d : Desc) : State :=
  match factorise d.kind d.ea d.el d.n d.rowsA p.mat with
  | .error e => s.stopProblem f p 1 e
  | .ok (m, piv) =>
    let pm := code64 (FVal.ofDyad false (fxVal (pivExp d.kind d.ea) (leastPivot d.n m)))
    let p : Problem := { p with mat := m, piv := piv, pivmin := pm }
    if d.op = 0 then s.concludeProblem f p psOk else s.putProblem f (p.toSolve d)

/-- The corrected iterate, in FP64 (R183); a column whose iterate is not finite stops the problem (R182). -/
def corrected (x : List (List (BitVec 64))) (dx : List (List Int)) (e : Int) :
    Except FxStop (List (List (BitVec 64))) :=
  (List.range x.length).mapM (fun j =>
    (List.range (x.getD j []).length).mapM (fun i =>
      let old := fp64.decode ((x.getD j []).getD i 0).toNat
      let r := (addVal fp64 .nearest old (FVal.ofDyad false (fxVal e ((dx.getD j []).getD i 0)))).1
      if (fp64.decode r).isFin then .ok (BitVec.ofNat 64 r) else .error (.breach j)))

/-- The second stage completes: an iterate (R175, R183). -/
def State.solved (s : State) (f : Nat) (p : Problem) (d : Desc) (x : List (List Int)) : State :=
  let q := solveIn p d
  let next : Except FxStop (List (List (BitVec 64))) :=
    match p.er with
    | none => .ok (x.map (fun c => c.map (fun v => code64 (FVal.ofDyad false (fxVal q.ex v)))))
    | some _ => corrected p.x x q.ex
  match next with
  | .error e => s.stopProblem f p 3 e
  | .ok x =>
    let p : Problem := { p with x := x, sweeps := p.sweeps + natOf p.er.isSome }
    if d.refine then s.putProblem f { p with stage := .residual } else s.concludeProblem f p psOk

/-- R181, R195: a factorisation or a stage of a solve completes. -/
def execFactorStageComplete (f : Fin 4) (i cycles : Nat) (bad : Bool) (s : State) : Out :=
  match s.problem? f.val i with
  | none => .next s
  | some p =>
    let d := descOf p.words
    let p : Problem := { p with cycles := p.cycles + cycles }
    let stage := if p.er.isSome then 3 else 2
    if p.stage = .factor then .next (if bad then s.laneFault f.val p else s.factorStage f.val p d)
    else if p.stage = .first then
      if bad then .next (s.laneFault f.val p)
      else
        match eachCol p.rhs (solveIn p d).stage1 with
        | .error e => .next (s.stopProblem f.val p stage e)
        | .ok y => .next (s.putProblem f.val { p with stage := .second, mid := y, reading := none })
    else if p.stage = .second then
      if bad then .next (s.laneFault f.val p)
      else
        match eachCol p.mid (solveIn p d).stage2 with
        | .error e => .next (s.stopProblem f.val p stage e)
        | .ok x => .next (s.solved f.val p d x)
    else .next s

/-! ## Refinement (R183, R184) -/

/-- Greatest magnitude of a list of numbers that are no NaN. -/
def maxAbs (l : List FVal) : FVal :=
  l.foldl (fun m v =>
    let a := v.withSign false
    if cmpVal m a = .lt then a else m) (.fin false 0 0)

/-- ρ > t × ‖b‖∞, t finite or infinite and no NaN. -/
def exceeds (rho t bn : FVal) : Bool :=
  match t with
  | .nan _ _ _ => true
  | .inf neg => neg || bn.isZero
  | .fin _ _ _ =>
    match rho with
    | .fin _ _ _ => (t.dyad.mul bn.dyad).lt rho.dyad
    | _ => true

/-- r = b − op(A) x, each element exact and rounded once to FP64. -/
def residuals (d : Desc) (a : List (List FVal)) (b x : List (List (BitVec 64))) : List (List FVal) :=
  let n := d.n
  let A (i j : Nat) : Dyad := ((a.getD i []).getD j (.fin false 0 0)).dyad
  let val (m : List (List (BitVec 64))) (j i : Nat) : Dyad := (fp64.decode ((m.getD j []).getD i 0).toNat).dyad
  (List.range d.nrhs).map (fun j =>
    (List.range n).map (fun i =>
      let sum := Dyad.sum ((List.range n).map (fun k =>
        (if d.trans then A k i else A i k).mul (val x j k)))
      fp64.decode (fp64.roundDyad .nearest false ((val b j i).sub sum)).1))

/-- Smallest integer above the binary logarithm of a positive number: ρ < 2^er. -/
def expAbove (v : FVal) : Int :=
  match v with
  | .fin _ m e => leadExp m e + 1
  | _ => 0

/-- A column of A with an element that is not finite. -/
def badColumn (n : Nat) (a : List (List FVal)) : Option Nat :=
  (List.range n).find? (fun j => a.any (fun r => !(r.getD j (.fin false 0 0)).isFin))

/-- The loop test (R183, R184, R191). -/
def State.loopTest (s : State) (f : Nat) (p : Problem) (d : Desc) (r : List (List FVal)) : State :=
  let rho := maxAbs (r.flatMap id)
  let bn := maxAbs ((p.b.flatMap id).map (fun c => fp64.decode c.toNat))
  let p : Problem := { p with rnorm := code64 rho }
  if d.rchk ≠ 0 ∧ exceeds rho (fp64.decode d.rchk) bn then
    let s := s.logErr (blkFd f) { code := 0x34, src := 11, unit := p.lane, addr := d.x }
    s.endStarted f p { status := psResidual }
  else if !exceeds rho (fp64.decode d.rtol) bn then s.concludeProblem f p psOk
  else if p.sweeps = d.rmax then s.concludeProblem f p psLimit
  else if ((s.batch f).map (s.batchLate f)).getD false then s.concludeProblem f p psDeadline
  else
    let er := if rho.isZero then d.eb else expAbove rho
    match (List.range d.nrhs).mapM (fun j => (r.getD j []).mapM (fxOfVal j er)) with
    | .error e => s.stopProblem f p 3 e
    | .ok rhs => s.putProblem f { p with er := some er, rhs := rhs, stage := .first }

/-- R183: the refinement unit completes a residual. -/
def execRefineResidual (f : Fin 4) (i cycles : Nat) (s : State) : Out :=
  match s.problem? f.val i with
  | none => .next s
  | some p =>
    if p.stage = .residual then
      let d := descOf p.words
      let p : Problem := { p with cycles := p.cycles + cycles }
      let (s, ra) := s.readA d
      match ra with
      | .inr (code, addr) => .next (s.faultProblem f.val p code addr)
      | .inl a =>
        match badColumn d.n a with
        | some j => .next (s.stopProblem f.val p 3 (.breach j))
        | none => .next (s.loopTest f.val p d (residuals d a p.b p.x))
    else .next s

/-! ## Retaining (R187, R188) -/

/-- Pivot area and body of a record. -/
def recordBody (kind n : Nat) (m : FxMat) (piv : List Int) : List Byte :=
  let area := if kind = 0 then piv.flatMap (fun v => leBytes 1 v.toNat)
    else if kind = 3 then piv.flatMap (fun v => leBytes 8 (BitVec.ofInt 64 v).toNat)
    else []
  fitBytes (pivBytes kind n) area
    ++ (m.flatMap id).flatMap (fun v => leBytes 8 (BitVec.ofInt 64 v).toNat)

/-- The body, then the header with the next generation. -/
def State.finishCommit (s : State) (f : Nat) (p : Problem) : State :=
  let d := descOf p.words
  let at? := s.slotAddr f d.slot
  let (s, g) := s.devRead at? 64
  match g.err with
  | some (code, off) => s.faultProblem f p code (at? + off)
  | none =>
    let gen := (headerOf g.data).gen + 1
    match s.devWrite (at? + 64) (recordBody d.kind d.n p.mat p.piv) with
    | (s, some (code, off)) => s.faultProblem f p code (at? + 64 + off)
    | (s, none) =>
      match s.devWrite at? (headerBytes ⟨1, gen, d.kind, d.n, d.m, d.sig, p.fea, p.fel⟩) with
      | (s, some (code, off)) => s.faultProblem f p code (at? + off)
      | (s, none) =>
        s.endStarted f p { status := p.status, handle := f * 2 ^ 30 + gen * 2 ^ 22 + d.slot }

/-- R188, R189. -/
def execRetainCommit (f : Fin 4) (i cycles : Nat) (s : State) : Out :=
  match s.problem? f.val i with
  | none => .next s
  | some p =>
    let p : Problem := { p with cycles := p.cycles + cycles }
    let s := if p.stage = .commitWait then s.beginCommit f.val p
      else if p.stage = .commit then s.putProblem f.val p
      else s
    match s.problem? f.val i with
    | none => .next s
    | some p => if p.stage = .commit then .next (s.finishCommit f.val p) else .next s

/-! ## The end of a batch -/

/-- R191; on a sealed device the batch stays active (R395). -/
def execFactorDeadline (f : Fin 4) (s : State) : Out :=
  match s.batch f.val with
  | none => .next s
  | some b => if s.batchLate f.val b && !s.wseal.isSealed then .next (s.endRest f.val psNotRun) else .next s

def summaryWords (b : BatchRun) (tag : BitVec 16) : List (BitVec 64) :=
  let pair (lo hi : Nat) : BitVec 64 := BitVec.ofNat 64 (hi * 2 ^ 32 + lo)
  [ pair tag.toNat b.count, b.start, b.lastBeat, pair b.ok b.partly, pair b.notRun b.breach,
    pair b.other b.rejected, 0, 0 ]

/-- R194, R399: summary, marks, signal, reply. -/
def execFactorBatchComplete (f : Fin 4) (s : State) : Out :=
  match s.batch f.val with
  | none => .next s
  | some b =>
    match s.cmd? b.cid with
    | none => .next s
    | some c =>
      if b.done < b.count then .next s
      else
        let at? := c.u 0x10 8
        let (s, e) := s.devWrite at? (bytesOfWords (summaryWords b c.tag))
        let s := match e with
          | some (code, off) => s.batchError f.val 0 code (at? + off)
          | none => s
        let s := if b.off then s.mark (blkFd f.val) 1 1 else s
        let s := if b.unmet then s.mark (blkFd f.val) 5 1 else s
        let s := if c.u 0x1C 4 / 2 % 2 = 1 then
            s.cmdSignal (blkFd f.val) c (BitVec.ofNat 64 (c.u 0x28 8)) (c.u 0x30 2)
          else s
        let err := match s.batch f.val with
          | some b => b.err
          | none => 0
        let s := s.setFd f.val { s.fd f.val with batch := none }
        .next (s.reply c (if err = 0 then stOk else stErr (err - 1))
          (BitVec.ofNat 64 (b.count * 2 ^ 32 + b.ok)))

/-! ## Commands (R197, R198) -/

/-- A FACTOR command waits behind a batch of its die (R176). -/
def State.factorCmd (s : State) (cid op : Nat) (g : State → Cmd → Nat → State) : Out :=
  s.withCmd cid op (fun s c => s.oneDie c (fun s b =>
    if (s.batch (b - 56)).isSome then s else g s c (b - 56)))

def BatchRun.new (c : Cmd) (now : BitVec 64) : BatchRun :=
  { cid := c.cid, start := now, count := c.u 0x18 4, next := 0, probs := [], done := 0, lastBeat := now, err := 0
    ok := 0, partly := 0, notRun := 0, breach := 0, other := 0, rejected := 0, off := false, unmet := false }

/-- R176, R191, R197. -/
def execFactorBatch (cid : Nat) (s : State) : Out :=
  s.factorCmd cid 0x0701 (fun s c f =>
    let s := (s.running c).setBatch f (BatchRun.new c s.alm.now)
    if s.batchLate f (BatchRun.new c s.alm.now) then s.endRest f psNotRun else s)

/-- R185, R197, R199. -/
def execFactorStore (cid : Nat) (s : State) : Out :=
  s.factorCmd cid 0x0702 (fun s c f =>
    let F := s.fd f
    let s := s.setFd f { F with
      base := BitVec.ofNat 48 (c.u 0 8), slotBytes := BitVec.ofNat 19 (c.u 8 4)
      slots := BitVec.ofNat 23 (c.u 0x0C 4), valid := true }
    s.reply c stOk 0)

/-- Each slot of a range, and the first error. -/
def State.eachSlot (s : State) (f first count : Nat) (g : State → Nat → State × Option (Nat × Nat)) :
    State × Option Nat :=
  (List.range count).foldl (fun (acc : State × Option Nat) i =>
    let at? := acc.1.slotAddr f (first + i)
    match g acc.1 at? with
    | (s, none) => (s, acc.2)
    | (s, some (code, off)) =>
      (s.logErr (blkFd f) { code := code, src := 9, addr := at? + off }, acc.2.orElse (fun _ => some code)))
    (s, none)

def State.storeReply (c : Cmd) (r : State × Option Nat) : State :=
  r.1.reply c (match r.2 with
    | some code => stErr code
    | none => stOk) 0

/-- FIRST and COUNT within the store; none where no store is configured. -/
def State.storeSpan (s : State) (f : Nat) (c : Cmd) : Nat × Nat :=
  let n := (s.fd f).slots.toNat
  let first := min (c.u 0 4) (n - 1)
  (first, min (c.u 4 4) (n - first))

/-- R190: FREE, generation kept. -/
def execFactorRelease (cid : Nat) (s : State) : Out :=
  s.factorCmd cid 0x0703 (fun s c f =>
    let (first, n) := s.storeSpan f c
    State.storeReply c (s.eachSlot f first n (fun s a => s.devWrite a [0])))

/-- R190, R197: one 64-byte header per slot. -/
def execFactorReset (cid : Nat) (s : State) : Out :=
  s.factorCmd cid 0x0704 (fun s c f =>
    let (first, n) := s.storeSpan f c
    State.storeReply c (s.eachSlot f first n (fun s a => s.devWrite a (List.replicate 64 0))))

/-- Problems of a die's batch that have not started are ABORTED (R198). -/
def State.abortBatch (s : State) (f : Nat) : State := s.endRest f psAborted

/-- R198: at once, whatever precedes it (R176). -/
def execFactorAbort (cid : Nat) (s : State) : Out :=
  s.atOnce cid 0x0705 (fun s c => s.oneDie c (fun s b => (s.abortBatch (b - 56)).reply c stOk 0))

end Sys2Proof.Machine
end

