-- ==== Sys2Proof/Machine/Option.lean ====
section
/-! DEFINITION. The option store (R421-R424, R404, R445). -/
namespace Sys2Proof.Machine

def optBytes (m : Memory) : List Byte := readBytes m 0 512

/-- MAGIC, FORMAT and CRC are right (R421). -/
def optGood (m : Memory) : Bool :=
  let l := optBytes m
  ofLe (l.take 4) == 0x4F505358 && ofLe ((l.drop 4).take 2) == 1
    && ofLe (l.drop 508) == (crc32 (l.take 508)).toNat

def optSeq (m : Memory) : Nat := ofLe (readBytes m 8 4)

/-- A field of the copy in force, brought to its legal range (R423). -/
def State.optField (s : State) (off n lo hi : Nat) : Nat := clampNat lo hi (ofLe (readBytes s.opt.inForce off n))

def State.optOscWait (s : State) : Nat := s.optField 0x10 1 1 128
def State.optCoolDebounce (s : State) : Nat := s.optField 0x16 2 10 500
def State.optI3c (s : State) : Nat := s.optField 0x15 1 0x08 0x77

/-- The guardband step of control block b in RAIL_TRIM (R423). -/
def State.optTrim (s : State) (b : Nat) : Nat :=
  min 8 (ofLe (readBytes s.opt.inForce (0x20 + b / 2) 1) / 16 ^ (b % 2) % 16)

/-- The load begins at byte 0 of copy 0, again where it was running (R421, R422). -/
def State.startLoad (s : State) : State :=
  let (n, s) := s.take
  let o := s.opt
  { s with opt := { o with
    load := Config.loadBeats n + 1, restarts := if o.load = 0 then o.restarts else satInc 0xFF o.restarts } }

/-- The load (R421, R422): the good copy with the higher SEQ is in force, or the defaults. -/
def State.loadOptions (s : State) : State :=
  let o := s.opt
  let g0 := optGood o.copy0.data
  let g1 := optGood o.copy1.data
  let use1 := g1 && (!g0 || decide (optSeq o.copy0.data < optSeq o.copy1.data))
  let s := { s with opt := { o with
    load := 0, ok0 := g0, ok1 := g1, fault := !g0 && !g1, inUse := use1
    inForce := if !g0 && !g1 then optShipped else if use1 then o.copy1.data else o.copy0.data } }
  if !g0 && !g1 then s.logErr blkWarden { code := 0x94, src := 17 }
  else if g0 && g1 then s
  else s.logErr blkWarden { code := 0xA6, src := 17, detail := if g0 then 1 else 0 }

/-- A copy moves on to its next page and is written there (R404). -/
def OptCopy.program (c : OptCopy) (img : Memory) : OptCopy :=
  let p := (c.page + 1) % 8
  { data := img, page := p, writes := Table.set 0 c.writes p (Table.get 0 c.writes p + 1) }

def OptCopy.worn (c : OptCopy) : Bool := Table.get 0 c.writes c.page == 9001

def State.programCopy (s : State) (second : Bool) (img : Memory) : State :=
  let c := (if second then s.opt.copy1 else s.opt.copy0).program img
  let s := { s with opt := if second then { s.opt with copy1 := c } else { s.opt with copy0 := c } }
  if c.worn then s.logErr blkWarden { code := 0xD3, src := 19, unit := natOf second } else s

/-- Programming is queued behind what runs. -/
def State.queueWrite (s : State) (host : Bool) (copies : List Bool) (img : Memory) : State :=
  let (n, s) := s.take
  { s with opt := { s.opt with writes := s.opt.writes ++ [⟨host, copies, img, Config.copyBeats n + 1⟩] } }

/-- One beat of programming: the running write's copy is done when its time is over, and its next one begins. -/
def State.storeTurn (s : State) : State :=
  match s.opt.writes with
  | [] => s
  | w :: rest =>
    let put (s : State) (l : List StoreWrite) : State := { s with opt := { s.opt with writes := l } }
    if 1 < w.left then put s ({ w with left := w.left - 1 } :: rest)
    else
      match w.copies with
      | [] => put s rest
      | k :: more =>
        let s := s.programCopy k w.image
        if more.isEmpty then put s rest
        else
          let (n, s) := s.take
          put s ({ w with copies := more, left := Config.copyBeats n + 1 } :: rest)

/-- A reset ends the programming: of the copy that was being written as many bytes stand as had been programmed, on its
new page, which is zero behind them (DESIGN CHOICE, log entry 104). The other copy is whole (R424). -/
def State.cutStore (s : State) : State :=
  match s.opt.writes with
  | [] => s
  | w :: _ =>
    let (n, s) := s.take
    let part := fun (m : Memory) => m.filter (fun c => decide (c.1 < Config.copyLeft n % 513))
    let s := match w.copies with
      | [] => s
      | k :: _ => s.programCopy k (part w.image)
    { s with opt := { s.opt with writes := [] } }

/-- Once READY: a bad copy is written again from the good one (R422). -/
def State.repairOptions (s : State) : State :=
  if s.opt.ok0 && !s.opt.ok1 then s.queueWrite false [true] s.opt.copy0.data
  else if s.opt.ok1 && !s.opt.ok0 then s.queueWrite false [false] s.opt.copy1.data
  else s

/-- RAIL_TRIM in force. -/
def State.trimBytes (s : State) : List Byte :=
  (List.range 32).map (fun i => BitVec.ofNat 8 ((s.die (2 * i)).guard % 16 + (s.die (2 * i + 1)).guard % 16 * 16))

/-- An image as it is programmed: SEQ, RAIL_TRIM and CRC are the warden's (R424). -/
def State.optImage (s : State) (base : Memory) : Memory :=
  let m := writeBytes base 8 (leBytes 4 (optSeq s.opt.inForce + 1))
  let m := writeBytes m 0x20 s.trimBytes
  writeBytes m 0x1FC (leBytes 4 (crc32 (readBytes m 0 0x1FC)).toNat)

/-- The copy not in force, then the other. -/
def State.programBoth (s : State) (host : Bool) (base : Memory) : State :=
  s.queueWrite host [!s.opt.inUse, s.opt.inUse] (s.optImage base)

/-- What the store will hold once its writes are over: the latest image for both copies, else the copy in use. -/
def State.storedImage (s : State) : Memory :=
  match (s.opt.writes.filter (fun w => w.host || w.copies.length == 2)).getLast? with
  | some w => w.image
  | none => if s.opt.inUse then s.opt.copy1.data else s.opt.copy0.data

/-- R424, R445: a commit of the node host is ignored while an earlier one runs. -/
def State.optCommit (s : State) (v : BitVec 64) : State :=
  if !(v.getLsbD 0 && bits v 63 48 == 0x4F50 && s.maint) then s
  else if s.ostoreLock then s.logErr blkWarden { code := 0xE2, src := 17 }
  else if s.opt.writes.any (·.host) then s
  else s.programBoth true s.opt.stage

def execOptionCommit (value : BitVec 64) (s : State) : Out := .next (s.optCommit value)

end Sys2Proof.Machine
end

