-- ==== Sys2Proof/Machine/Rotate.lean ====
section
/-! DEFINITION. Rotation (R300, R301). -/
namespace Sys2Proof.Machine

/-! ## Schedules (R300) -/

def rotEntry (l : List Byte) : RotEntry :=
  let w := BitVec.ofNat 64 (leField l 0 8)
  { recv := w.getLsbD 63, peer := BitVec.ofNat 16 (bits w 47 32), round := bits w 31 16, chunk := bits w 15 0
    addr := leField l 8 8, len := leField l 0x10 8, count := 0 }

/-- The fields of one entry are legal. -/
def State.rotEntryOk (s : State) (l : List Byte) : Bool :=
  let e := rotEntry l
  leField l 6 2 % 2 ^ 15 == 0 && leField l 0x18 8 == 0 && e.addr % 64 == 0 && e.len % 64 == 0
    && decide (64 ≤ e.len) && decide (e.len ≤ 0x100000) && decide (e.addr + e.len ≤ hbmEnd)
    && (!s.net.coordValid || [0, 1, 2].all (fun g => decide (axis e.peer g < max 1 (s.net.ext g))))

def sortedRounds : List RotEntry → Bool
  | a :: b :: l => decide (a.round ≤ b.round) && sortedRounds (b :: l)
  | _ => true

def sentIn (l : List RotEntry) (round : Nat) : Nat :=
  ((l.filter (fun e => !e.recv && e.round == round)).map (·.len)).sum

def State.scheduleOk (s : State) (raw : List (List Byte)) : Bool :=
  let l := raw.map rotEntry
  raw.all s.rotEntryOk && sortedRounds l && l.all (fun e => decide (sentIn l e.round ≤ 64 * 0x100000))

/-! ## Rounds (R301) -/

/-- ARG of a ROT_DATA: chunk, round, bytes of the whole chunk; of its acknowledgement, bytes of the packet. -/
def rotArg (e : RotEntry) (len : Nat) : Nat := len * 2 ^ 32 + e.round * 2 ^ 16 + e.chunk

def RotEntry.done (e : RotEntry) : Bool := decide (e.len ≤ e.count)

/-- ROTATE ends; RESULT counts the rounds that have completed. -/
def State.endRotate (s : State) (r : RotRun) (status : Nat) : State :=
  let s := { s with net := { s.net with rot := none } }
  match s.cmd? r.cid with
  | none => s
  | some c =>
    let s := if c.u 0x0C 4 % 2 = 1 then s.cmdSignal (blkLd 0) c (BitVec.ofNat 64 (c.u 0x10 8)) (c.u 0x18 2) else s
    s.reply c status (BitVec.ofNat 64 r.round)

/-- One outgoing chunk is read and sets out. -/
def State.sendChunk (s : State) (e : RotEntry) : State :=
  let (s, g) := s.devRead e.addr e.len
  match g.err with
  | some (code, _) =>
    match s.net.rot with
    | some r =>
      let r : RotRun := { r with
        status := if r.status = 0 then stErr code else r.status
        entries := r.entries.map (fun x => if x = e then { x with count := x.len } else x) }
      { s with net := { s.net with rot := some r } }
    | none => s
  | none =>
    (List.range ((e.len + 4095) / 4096)).foldl (fun s i =>
      s.pushOut (s.newPacket e.peer 0x12 s.net.rotGen 0x8000 tagRot (BitVec.ofNat 48 (4096 * i))
        (BitVec.ofNat 64 (rotArg e e.len)) ((g.data.drop (4096 * i)).take 4096))) s

/-- The receive entry that a packet is for. -/
def RotRun.entryFor (r : RotRun) (k : Packet) : Option RotEntry :=
  r.entries.find? (fun e => e.recv && e.peer == k.src && e.round == rotRoundOf k && e.chunk == bits k.arg 15 0)

def State.rotAck (s : State) (k : Packet) : State :=
  s.pushOut (s.answerPacket k 0x04 (BitVec.ofNat 64 (k.len * 2 ^ 32 + bits k.arg 31 0)) [])

/-- A packet of the round that runs: written, or discarded where its chunk's length is wrong. -/
def State.rotWrite (s : State) (r : RotRun) (k : Packet) : State :=
  let put (s : State) (r : RotRun) : State := { s with net := { s.net with rot := some r } }
  let bad (r : RotRun) (code : Nat) : RotRun := { r with status := if r.status = 0 then code else r.status }
  let mismatch (s : State) : State :=
    s.logErr (blkLd 0) { code := 0x68, src := 14, addr := k.addr.toNat, detail := bits k.arg 15 0 }
  match r.entryFor k with
  | none => (mismatch (put s (bad r (stErr 0x68)))).rotAck k
  | some e =>
    let more (n : Nat) : List RotEntry := r.entries.map (fun x => if x = e then { x with count := x.count + n } else x)
    if bits k.arg 63 32 ≠ e.len then
      if e.done then s.rotAck k
      else (mismatch (put s (bad { r with entries := more e.len } (stErr 0x68)))).rotAck k
    else
      let s := put s { r with entries := more k.len }
      match s.devWrite (e.addr + k.addr.toNat) k.data with
      | (s, none) => s.rotAck k
      | (s, some (code, _)) =>
        (match s.net.rot with
          | some r => put s (bad r (stErr code))
          | none => s).rotAck k

/-- A round begins: every outgoing chunk is read, and from then on what comes for it is delivered and written. -/
def State.beginRound (s : State) (round : Nat) : State :=
  match s.net.rot with
  | none => s
  | some r =>
    let s := { s with net := { s.net with rot := some { r with round := round } } }
    (r.entries.filter (fun e => !e.recv && e.round == round)).foldl State.sendChunk s

/-- R300: the schedule is checked whole, and round 0 begins. A ROTATE waits for the one that runs. -/
def execRotate (cid : Nat) (s : State) : Out :=
  s.withCmd cid 0x0601 (fun s c =>
    if s.net.rot.isSome || !s.firstOf [0x0601] c then s
    else
      let n := c.u 8 4
      let s := { s with net := { s.net with rotGen := nextGen s.net.rotGen } }
      let (s, g) := s.devRead (c.u 0 8) (32 * n)
      let run (l : List RotEntry) : RotRun :=
        ⟨cid, 0, (l.foldl (fun m e => max m (e.round + 1)) 0), l, 0⟩
      match g.err with
      | some (code, _) => s.endRotate (run []) (stErr code)
      | none =>
        let raw := (List.range n).map (fun i => (g.data.drop (32 * i)).take 32)
        if s.scheduleOk raw then
          ({ s.running c with net := { s.net with rot := some (run (raw.map rotEntry)) } }).beginRound 0
        else
          (s.logErr (blkLd 0) { code := 0x67, src := 14, icount := c.tag.toNat, addr := c.u 0 8 }).endRotate
            (run []) (stErr 0x67))

/-- R301: a chunk of a later round waits until its round begins. -/
def execRotData (k : Packet) (s : State) : Out :=
  match s.takePacket k 0x12 with
  | none => .next s
  | some t =>
    match t.net.rot with
    | none => .next t
    | some r =>
      if k.gen.toNat ≠ t.net.rotGen then .next t
      else if r.round < rotRoundOf k then .next s
      else .next (t.rotWrite r k)

/-- A send's packet has been acknowledged, or has met an error, which ends the ROTATE. -/
def State.rotAnswer (s : State) (k : Packet) : State :=
  match s.net.rot with
  | none => s
  | some r =>
    if k.ptype = 0x05 then s.endRotate r (stErr (bits k.arg 7 0))
    else
      let hit (e : RotEntry) : Bool :=
        !e.recv && e.peer == k.src && e.round == rotRoundOf k && e.chunk == bits k.arg 15 0
      { s with net := { s.net with rot := some { r with
        entries := r.entries.map (fun e => if hit e then { e with count := e.count + bits k.arg 63 32 } else e) } } }

/-- R301: every send of the round is acknowledged and every receive written. -/
def execRotationRoundComplete (s : State) : Out :=
  match s.net.rot with
  | none => .next s
  | some r =>
    if (r.entries.filter (fun e => e.round == r.round)).all (·.done) then
      if r.round + 1 < r.rounds then .next (s.beginRound (r.round + 1))
      else .next (s.endRotate { r with round := r.rounds } r.status)
    else .next s

end Sys2Proof.Machine
end

