-- ==== Sys2Proof/Machine/Scalar.lean ====
section
/-! DEFINITION. The scalar unit, its divider and branches (R140, R155, R156). -/
namespace Sys2Proof.Machine

def sFunc (w : BitVec 64) : Nat := bits w 55 52
def sSd (w : BitVec 64) : Nat := bits w 51 47
def sSs1 (w : BitVec 64) : Nat := bits w 46 42
def sSs2 (w : BitVec 64) : Nat := bits w 41 37
def sFmt (w : BitVec 64) : Nat := bits w 36 33
def sRm (w : BitVec 64) : Rm := rmOf (bits w 32 31)
def sImmf (w : BitVec 64) : Bool := w.getLsbD 30
def sImm (w : BitVec 64) : Int := signedOf 14 (bits w 29 16)

/-- Width of the scalar unit's formats: 64 or 32 bits. -/
def sWidth (fmt : Nat) : Nat := if fmt = 0 then 64 else 32

def sFloat (fmt : Nat) : Fmt := if fmt = 0 then fp64 else fp32

/-- An INT32 result is sign-extended (R140). -/
def sExtend (width n : Nat) : BitVec 64 := BitVec.ofNat 64 (ofSigned 64 (toSigned width n))

/-- Low bits of an S register, as many as the format has. -/
def Tile.sLow (T : Tile) (r width : Nat) : Nat := (T.sreg T.active r).toNat % 2 ^ width

/-- An integer as a float, rounded. -/
def intToFp (f : Fmt) (rm : Rm) (x : Int) : Nat × FpFlags := f.roundDyad rm false ⟨x, 0⟩

/-- Second source of an integer class. -/
def Tile.sInt2 (T : Tile) (w : BitVec 64) (width : Nat) : Nat :=
  if sImmf w then ofSigned width (sImm w) else T.sLow (sSs2 w) width

/-- Second source of a float class. -/
def Tile.sFp2 (T : Tile) (w : BitVec 64) (f : Fmt) (width : Nat) : Nat :=
  if sImmf w then (intToFp f .nearest (sImm w)).1 else T.sLow (sSs2 w) width

/-- A result that lands in a cycle, with its flags. -/
def Tile.sPut (T : Tile) (q : QEntry) (i : Nat) (sd : Nat) (v : BitVec 64) (f : FpFlags) : Tile :=
  let T := T.addPend q.count i (.sreg T.active sd v)
  if f = 0 then T else T.addPend q.count i (.cvtUpdate T.active none 0 f)

/-- Skipped by the first condition that holds (R157), else run. -/
def State.scalTry (s : State) (d t : Nat) (q : QEntry) (checks : List (Bool × Nat))
    (run : Tile → Tile) : State :=
  match firstCode checks with
  | some code => s.skip d t q code
  | none => s.setTile d t (run (s.tile d t))

def siaChecks (_ : Tile) (_ : Nat) (w : BitVec 64) : List (Bool × Nat) :=
  let fn := sFunc w
  [(wOpc w != 0 || 13 ≤ fn, 0x01), (2 ≤ sFmt w, 0x03)]

def siaRun (c : Nat) (q : QEntry) (T : Tile) : Tile :=
  let w := q.word
  let fn := sFunc w
  let width := sWidth (sFmt w)
  let r := intOp fn width (T.sLow (sSs1 w) width) (T.sInt2 w width)
  T.sPut q (c + (if fn = 2 then 3 else 1)) (sSd w) (sExtend width r) 0

def State.siaIssue (s : State) (d t c : Nat) (q : QEntry) : State :=
  s.scalTry d t q (siaChecks (s.tile d t) c q.word) (siaRun c q)

/-- R140: SIA, and every reserved opcode of the scalar unit. -/
def execSia (d : Fin 32) (t : Fin 144) (c : Nat) (s : State) : Out :=
  s.execHead d.val t.val c (isOpOr 0 0 7) (fun s q => s.siaIssue d.val t.val c q)

/-- The SFA operations that are not division or root, in the order of faOp (R140). -/
def sfaResult (fn : Nat) (f : Fmt) (rm : Rm) (a b x : Nat) : Nat × FpFlags :=
  if fn ≤ 3 then faOp fn f rm a b x else faOp fn f rm a b 0

/-- The divider is occupied in cycle `c` (R156). -/
def Tile.divBusy (T : Tile) (c : Nat) : Bool :=
  match T.div with
  | some due => decide (c < due)
  | none => false

def sfaChecks (T : Tile) (c : Nat) (w : BitVec 64) : List (Bool × Nat) :=
  let fn := sFunc w
  let isDiv := fn == 4 || fn == 5
  [(12 ≤ fn, 0x01), (2 ≤ sFmt w, 0x03), (isDiv && T.divBusy c, 0x0E)]

def sfaRun (c : Nat) (q : QEntry) (T : Tile) : Tile :=
  let w := q.word
  let fn := sFunc w
  let isDiv := fn == 4 || fn == 5
  let width := sWidth (sFmt w)
  let f := sFloat (sFmt w)
  let a := T.sLow (sSs1 w) width
  let b := T.sFp2 w f width
  if isDiv then
    let (v, fl) := if fn = 4 then divVal f (sRm w) (f.decode a) (f.decode b)
      else sqrtVal f (sRm w) (f.decode a)
    let due := c + (if width = 64 then 22 else 12)
    { T.sPut q due (sSd w) (BitVec.ofNat 64 v) fl with div := some due }
  else
    let (v, fl) := sfaResult fn f (sRm w) a b (T.sLow (sSd w) width)
    T.sPut q (c + (if fn ≤ 3 then 4 else 2)) (sSd w) (BitVec.ofNat 64 v) fl

def State.sfaIssue (s : State) (d t c : Nat) (q : QEntry) : State :=
  s.scalTry d t q (sfaChecks (s.tile d t) c q.word) (sfaRun c q)

def execSfa (d : Fin 32) (t : Fin 144) (c : Nat) (s : State) : Out :=
  s.execHead d.val t.val c (isOp 0 1) (fun s q => s.sfaIssue d.val t.val c q)

/-- R156: the divider's result lands and it is free. -/
def execDividerComplete (d : Fin 32) (t : Fin 144) (s : State) : Out :=
  match (s.tile d.val t.val).div with
  | none => .next s
  | some due => s.ownEvent d.val t.val due (fun s => s.setTile d.val t.val { s.tile d.val t.val with div := none })

def scmpChecks (_ : Tile) (_ : Nat) (w : BitVec 64) : List (Bool × Nat) :=
  [(6 ≤ sFunc w, 0x01), (2 ≤ sFmt w, 0x03)]

def scmpRun (c : Nat) (q : QEntry) (T : Tile) : Tile :=
  let w := q.word
  let width := sWidth (sFmt w)
  let f := sFloat (sFmt w)
  let (b, fl) := cmpFlag (cmpOf (sFunc w)) (f.decode (T.sLow (sSs1 w) width))
    (f.decode (T.sFp2 w f width))
  T.sPut q (c + 2) (sSd w) (BitVec.ofNat 64 (natOf b)) fl

def State.scmpIssue (s : State) (d t c : Nat) (q : QEntry) : State :=
  s.scalTry d t q (scmpChecks (s.tile d t) c q.word) (scmpRun c q)

def execScmp (d : Fin 32) (t : Fin 144) (c : Nat) (s : State) : Out :=
  s.execHead d.val t.val c (isOp 0 2) (fun s q => s.scmpIssue d.val t.val c q)

def sicmpChecks (_ : Tile) (_ : Nat) (w : BitVec 64) : List (Bool × Nat) :=
  [(6 ≤ sFunc w, 0x01), (2 ≤ sFmt w, 0x03)]

def sicmpRun (c : Nat) (q : QEntry) (T : Tile) : Tile :=
  let w := q.word
  let width := sWidth (sFmt w)
  let b := intCmp (sFunc w) width (T.sLow (sSs1 w) width) (T.sInt2 w width)
  T.sPut q (c + 1) (sSd w) (BitVec.ofNat 64 (natOf b)) 0

def State.sicmpIssue (s : State) (d t c : Nat) (q : QEntry) : State :=
  s.scalTry d t q (sicmpChecks (s.tile d t) c q.word) (sicmpRun c q)

def execSicmp (d : Fin 32) (t : Fin 144) (c : Nat) (s : State) : Out :=
  s.execHead d.val t.val c (isOp 0 3) (fun s q => s.sicmpIssue d.val t.val c q)

/-- Float to integer (R140): NaN and values out of range give an end of the range with INVALID alone. -/
def fpToInt (f : Fmt) (width : Nat) (rm : Rm) (code : Nat) : Nat × FpFlags :=
  let most := 2 ^ (width - 1) - 1
  let least := 2 ^ (width - 1)
  match f.decode code with
  | .nan _ _ _ => (least, fInvalid)
  | .inf n => (if n then least else most, fInvalid)
  | .fin n m e =>
    let (k, cut) := roundTo rm n m e 0 false
    let v : Int := if n then -(k : Int) else k
    if (most : Int) < v then (most, fInvalid)
    else if v < -(least : Int) then (least, fInvalid)
    else (ofSigned width v, flagIf cut fInexact)

def scvtChecks (_ : Tile) (_ : Nat) (w : BitVec 64) : List (Bool × Nat) :=
  let fn := sFunc w
  let src := bits w 19 16
  [(3 ≤ fn, 0x01), (2 ≤ sFmt w || 2 ≤ src, 0x03)]

def scvtRun (c : Nat) (q : QEntry) (T : Tile) : Tile :=
  let w := q.word
  let fn := sFunc w
  let src := bits w 19 16
  let ws := sWidth src
  let a := T.sLow (sSs1 w) ws
  let width := sWidth (sFmt w)
  match fn with
  | 0 =>
    let (v, fl) := fpToInt (sFloat src) width (sRm w) a
    T.sPut q (c + 3) (sSd w) (sExtend width v) fl
  | 1 =>
    let (v, fl) := intToFp (sFloat (sFmt w)) (sRm w) (toSigned ws a)
    T.sPut q (c + 3) (sSd w) (BitVec.ofNat 64 v) fl
  | _ =>
    let (v, fl) := (sFloat (sFmt w)).ofVal (sRm w) ((sFloat src).decode a)
    T.sPut q (c + 3) (sSd w) (BitVec.ofNat 64 v) fl

def State.scvtIssue (s : State) (d t c : Nat) (q : QEntry) : State :=
  s.scalTry d t q (scvtChecks (s.tile d t) c q.word) (scvtRun c q)

def execScvt (d : Fin 32) (t : Fin 144) (c : Nat) (s : State) : Out :=
  s.execHead d.val t.val c (isOp 0 4) (fun s q => s.scvtIssue d.val t.val c q)

def sliChecks (_ : Tile) (_ : Nat) (w : BitVec 64) : List (Bool × Nat) :=
  let fn := sFunc w
  [(8 ≤ fn || bits w 46 32 != 0, 0x01)]

def sliRun (c : Nat) (q : QEntry) (T : Tile) : Tile :=
  let w := q.word
  let fn := sFunc w
  let old : BitVec 64 := if fn.testBit 2 then 0 else T.sreg T.active (sSd w)
  let k := fn % 4
  T.sPut q (c + 1) (sSd w) (setBits old (16 * k + 15) (16 * k) (bits w 31 16)) 0

def State.sliIssue (s : State) (d t c : Nat) (q : QEntry) : State :=
  s.scalTry d t q (sliChecks (s.tile d t) c q.word) (sliRun c q)

def execSli (d : Fin 32) (t : Fin 144) (c : Nat) (s : State) : Out :=
  s.execHead d.val t.val c (isOp 0 5) (fun s q => s.sliIssue d.val t.val c q)

/-! ## Branches and the loop stack (R154, R155) -/

/-- After word `last` of the stream: the next word, through the back edges of the loops that end there. -/
def loopNext (last : Nat) : List LoopEntry → Nat × List LoopEntry
  | [] => (last + 1, [])
  | e :: l =>
    if e.stop = last then
      if 0 < e.passes then (e.start, { e with passes := e.passes - 1 } :: l)
      else loopNext last l
    else (last + 1, e :: l)

/-- Dispatch goes on after word `last`. -/
def Ctx.advance (x : Ctx) (last : Nat) : Ctx :=
  let (pc, loops) := loopNext last x.loops
  { x with pc := pc, loops := loops }

/-- The loops that a jump to `target` leaves standing: those whose body holds it (R155). -/
def loopsAt (target : Nat) (l : List LoopEntry) : List LoopEntry :=
  l.dropWhile (fun e => decide (target < e.start) || decide (e.stop < target))

/-- Dispatch resumes a cycle after a BR, LOOP or YIELD issues; in single step it waits for RESUME
(R164). -/
def Tile.resumeDispatch (T : Tile) (c : Nat) : Tile :=
  { T with stall := if T.stall = .stopped then .stopped else if T.stepping then .breakpoint else .none
           times := { T.times with dispatch := c + 1 } }

/-- PC_RANGE: dispatch stops and the stream halts as at HALT (R155). -/
def State.pcRange (s : State) (d t : Nat) (count : BitVec 64) : State :=
  let T := s.tile d t
  (s.setTile d t { T with stall := .range }).logErr d
    { code := 0x18, src := 8, unit := t, ctx := T.active, icount := bits count 31 0 }

def brTaken (T : Tile) (w : BitVec 64) : Bool :=
  let v := T.sreg T.active (sSs1 w)
  match sFunc w with
  | 0 => true
  | 1 => v == 0
  | 2 => v != 0
  | 3 => v.getLsbD 63
  | _ => !v.getLsbD 63

def State.brIssue (s : State) (d t c : Nat) (q : QEntry) : State :=
  let T := s.tile d t
  let w := q.word
  let at? := T.cur.pc - 1
  if 5 ≤ sFunc w then
    let s := s.setTile d t ((T.setCtx T.active (T.cur.advance at?)).resumeDispatch c)
    s.skip d t q 0x01
  else
    let T := { T with times := { T.times with exec := c + 2 } }
    if brTaken T w then
      let target : Int := (at? : Int) + signedOf 21 (bits w 36 16)
      if target < 0 ∨ 16383 < target then (s.setTile d t T).pcRange d t q.count
      else
        let n := target.toNat
        let x := { T.cur with pc := n, loops := loopsAt n T.cur.loops }
        s.setTile d t ((T.setCtx T.active x).resumeDispatch c)
    else s.setTile d t ((T.setCtx T.active (T.cur.advance at?)).resumeDispatch c)

def execBr (d : Fin 32) (t : Fin 144) (c : Nat) (s : State) : Out :=
  s.execHead d.val t.val c (isOp 0 6) (fun s q => s.brIssue d.val t.val c q)

end Sys2Proof.Machine
end

