-- ==== Sys2Proof/Machine/TileRegs.lean ====
section
/-! DEFINITION. The registers of a tile: stream registers (R165-R172), array registers (R94-R98), vector
registers (R126-R128) and the two converter banks (R63-R68), read and written under their access codes. -/
namespace Sys2Proof.Machine

def StreamState.num : StreamState → Nat
  | .idle => 0
  | .run => 1
  | .halted => 2
  | .brk => 3
  | .faultHold => 4
  | .abftHalt => 5
  | .cwait => 6
  | .imemFault => 7

def CropState.num : CropState → Nat
  | .empty => 0
  | .ready => 1
  | .running => 2
  | .done => 3

/-- Slots in use: a request that leaves in a later cycle holds none yet (R148). -/
def Tile.slotsUsed (T : Tile) : Nat := (T.slots.filter (fun e => decide (e.2.made ≤ T.times.now))).length

/-- CDT_STREAM_STATUS (R167). -/
def Tile.streamStatus (T : Tile) : BitVec 64 :=
  BitVec.ofNat 64 (T.slotsUsed % 64 * 2 ^ 40 + T.sq.length % 32 * 2 ^ 35 + T.oqv.length % 32 * 2 ^ 30
    + T.oqm.length % 32 * 2 ^ 25 + T.aq.length % 64 * 2 ^ 19 + T.eq.length % 64 * 2 ^ 13
    + T.crop.num * 2 ^ 8 + natOf T.switching * 2 ^ 7 + natOf T.active * 2 ^ 6 + T.stream.num)

/-- CDT_MX_STATUS (R96). -/
def Tile.mxStatus (T : Tile) : BitVec 64 :=
  let each (f : Nat → Nat) : Nat := ((List.range 8).map f).sum
  BitVec.ofNat 64 (natOf (decide (T.times.now < T.times.array)) * 2 ^ 40
    + each (fun n => T.layout T.active n * 2 ^ (24 + 2 * n))
    + each (fun n => natOf (T.pinned n) * 2 ^ (16 + n))
    + each (fun n => natOf (T.acc n).busy * 2 ^ (8 + n))
    + each (fun n => natOf (T.acc n).visible * 2 ^ n))

/-- Four flags in one word (R165), as they stand at the end of the tile's present cycle. -/
def Tile.flagsWord (T : Tile) (c : Bool) (k : Nat) : BitVec 64 :=
  BitVec.ofNat 64 (((List.range 4).map (fun j =>
    (T.flagSeen T.times.now c (4 * k + j)).toNat * 2 ^ (16 * j))).sum)

/-- CDT_MX_CTRL as it is in force: ABFT_DIS has code RWS, and holds its reset value once SAFETY_LOCK is blown (R11,
R95, R446). -/
def State.mxCtrlOf (s : State) (T : Tile) : BitVec 3 :=
  if s.safetyLock then T.regs.mxCtrl &&& 6 else T.regs.mxCtrl

/-- A tile register as it reads at the end of the tile's present cycle (R63, R165). Breakpoint registers read 0 outside
debug mode (R164). -/
def State.readTileReg (s : State) (d t off : Nat) : BitVec 64 :=
  let s := s.settle d t (s.tile d t).times.now
  let T := s.tile d t
  let r := T.regs
  let dbg := (s.die d).debug
  if off = 0x000 then BitVec.ofNat 64 (natOf r.view * 128 + natOf r.ctxSel * 32)
  else if off = 0x008 then T.streamStatus
  else if off = 0x010 then (T.ctx0.entry).setWidth 64
  else if off = 0x018 then (T.ctx1.entry).setWidth 64
  else if off = 0x020 then T.ctx0.icount
  else if off = 0x028 then T.ctx1.icount
  else if off = 0x030 then BitVec.ofNat 64 ((T.ctx r.view).pc % 16384)
  else if off = 0x038 then r.illLast
  else if off = 0x040 then r.cwmExec
  else if off = 0x048 then r.cwmAcc
  else if off = 0x050 then r.cropCtrl
  else if off = 0x058 then r.cropRet
  else if off = 0x060 then (if dbg then r.brkCtrl else 0)
  else if off = 0x068 then (if dbg then r.brkCount else 0)
  else if off = 0x070 then (if dbg then r.brkTag else 0)
  else if 0x080 ≤ off ∧ off < 0x100 then T.flagsWord r.view ((off - 0x080) / 8)
  else if 0x100 ≤ off ∧ off < 0x200 then T.sreg r.view ((off - 0x100) / 8)
  else if off = 0x200 then (s.mxCtrlOf T).setWidth 64
  else if off = 0x208 then T.mxStatus
  else if off = 0x210 then
    BitVec.ofNat 64 (natOf ((s.mxCtrlOf T).getLsbD 0 && s.maint) * 8 + natOf (!T.abft.isEmpty) * 4
      + natOf r.abftHalt * 2 + natOf r.abftMis)
  else if off = 0x218 then BitVec.ofNat 64 (r.linesUn.toNat * 2 ^ 32 + r.mismatch.toNat)
  else if off = 0x220 then r.abftFirst
  else if off = 0x240 then
    BitVec.ofNat 64 (T.cur.vl % 8192 * 2 ^ 32 + natOf (decide (T.times.now < T.times.red)) * 4
      + natOf (decide (T.times.now < T.times.vec)) * 2 + natOf (T.ops.any (·.held)))
  else if off = 0x248 then r.vxFault
  else if off = 0x250 then r.vxAddr
  else if 0x400 ≤ off ∧ off < 0xA00 then T.ctx0.cvt.read (off - 0x400)
  else if 0xA00 ≤ off ∧ off < 0x1000 then T.ctx1.cvt.read (off - 0xA00)
  else 0

/-- Bits of `old` in `w1c` that `v` names are cleared. -/
def clearBits (old v w1c : BitVec 64) : BitVec 64 := old &&& ~~~(v &&& w1c)

/-- CDT_ILL_LAST: VALID by bit, SKIPS whole (R169). -/
def illLastWrite (old v : BitVec 64) : BitVec 64 :=
  let x := clearBits old v 0x80000000
  if bits v 15 0 = 0 then x else setBits x 15 0 0

/-- A window register is written only while the context it shows is not running (R165). -/
def Tile.windowOpen (T : Tile) : Bool := !(T.stream == .run && T.active == T.regs.view)

/-- A write that R64, R94 or R165 forbids in the stream's present state (R346). -/
def Tile.writeForbidden (T : Tile) (off : Nat) : Bool :=
  if 0x080 ≤ off ∧ off < 0x200 then !T.windowOpen
  else if 0x200 ≤ off ∧ off < 0x240 then off == 0x200 && T.stream == .run
  else if 0x400 ≤ off ∧ off < 0xA00 then T.stream == .run && !T.active
  else if 0xA00 ≤ off ∧ off < 0x1000 then T.stream == .run && T.active
  else false

/-- A write of a converter register in the tile's present cycle comes before the hardware's updates of that cycle
(R64). -/
def State.writeCvt (s : State) (d t : Nat) (x : Bool) (off : Nat) (v : BitVec 64) : State :=
  let c := (s.tile d t).times.now
  let s := s.land d t c
  let T := s.tile d t
  s.setTile d t (T.setCtx x { T.ctx x with cvt := (T.ctx x).cvt.writeAt c off v })

/-- The runtime's write of a tile register, but for the command bits of CDT_STREAM_CTRL. -/
def State.writeTileReg (s : State) (d t off : Nat) (v : BitVec 64) : State :=
  let T := s.tile d t
  let r := T.regs
  let put (r : TileRegs) : State := s.setTile d t { T with regs := r }
  let dbg := (s.die d).debug
  if off = 0x000 then put { r with view := v.getLsbD 7, ctxSel := v.getLsbD 5 }
  else if off = 0x010 then s.setTile d t { T with ctx0 := { T.ctx0 with entry := BitVec.ofNat 14 v.toNat } }
  else if off = 0x018 then s.setTile d t { T with ctx1 := { T.ctx1 with entry := BitVec.ofNat 14 v.toNat } }
  else if off = 0x038 then put { r with illLast := illLastWrite r.illLast v }
  else if off = 0x040 then put { r with cwmExec := clearBits r.cwmExec v 0x80000000 }
  else if off = 0x048 then put { r with cwmAcc := clearBits r.cwmAcc v 0x80000000 }
  else if off = 0x050 then put { r with cropCtrl := v &&& 0xFFFFFF01 }
  else if off = 0x060 then
    if dbg then put { r with brkCtrl := (clearBits (r.brkCtrl &&& 0x10) v 0x10) ||| (v &&& 0xF) } else s
  else if off = 0x068 then (if dbg then put { r with brkCount := v } else s)
  else if off = 0x070 then (if dbg then put { r with brkTag := v &&& 0xFFFFFFFF } else s)
  else if 0x080 ≤ off ∧ off < 0x100 then
    if T.windowOpen then
      let s := s.flushFlags d t
      s.setTile d t ((List.range 4).foldl (fun T j =>
        T.setFlag r.view (4 * ((off - 0x080) / 8) + j) (BitVec.ofNat 16 (bits v (16 * j + 15) (16 * j))))
        (s.tile d t))
    else s
  else if 0x100 ≤ off ∧ off < 0x200 then
    if T.windowOpen then
      let s := s.settle d t T.times.now
      s.setTile d t ((s.tile d t).setS r.view ((off - 0x100) / 8) v)
    else s
  else if off = 0x200 then
    let new : BitVec 3 := BitVec.ofNat 3 v.toNat &&& (if dbg then 7 else 3)
    if s.safetyLock then
      let s := s.setTile d t { T with regs := { r with mxCtrl := new &&& 6 } }
      if (new &&& 1) = 0 then s else s.lockedWrite d (0x100000 + t * 0x1000 + 0x200)
    else put { r with mxCtrl := new }
  else if off = 0x210 then put { r with abftMis := r.abftMis && !v.getLsbD 0 }
  else if off = 0x218 then
    put { r with
      linesUn := if bits v 63 32 = 0 then r.linesUn else 0
      mismatch := if bits v 31 0 = 0 then r.mismatch else 0 }
  else if off = 0x248 then put { r with vxFault := clearBits r.vxFault v 0x80000000 }
  else if 0x400 ≤ off ∧ off < 0xA00 then
    s.writeCvt d t false (off - 0x400) v
  else if 0xA00 ≤ off ∧ off < 0x1000 then
    s.writeCvt d t true (off - 0xA00) v
  else s

/-- R61: the runtime's write of a bank's seed, which clears SCOUNT. -/
def execCvtSeedWrite (d : Fin 32) (t : Fin 144) (bank : Bool) (seed : BitVec 64) (s : State) : Out :=
  .next (s.writeTileReg d.val t.val ((if bank then 0xA00 else 0x400) + 0x08) seed)

end Sys2Proof.Machine
end

