-- ==== Sys2Proof/Machine/Misc.lean ====
section
/-! DEFINITION. The misc engine (R143, R154, R161) and the word of no engine (R134). -/
namespace Sys2Proof.Machine

/-- R143: the next execute instruction issues ARG cycles later; ARG 0 counts as 1. -/
def execNop (d : Fin 32) (t : Fin 144) (c : Nat) (s : State) : Out :=
  s.execHead d.val t.val c (isOp 6 0) (fun s q =>
    if iIllegal q.word then s.skip d.val t.val q 0x01
    else
      let T := s.tile d.val t.val
      s.setTile d.val t.val { T with times := { T.times with exec := c + max 1 (iArg q.word) } })

/-- R143: dispatch has stopped behind it; one that is skipped lets dispatch go on. -/
def execHalt (d : Fin 32) (t : Fin 144) (c : Nat) (s : State) : Out :=
  s.execHead d.val t.val c (isOp 6 1) (fun s q =>
    if iIllegal q.word then
      (s.setTile d.val t.val ((s.tile d.val t.val).resumeDispatch c)).skip d.val t.val q 0x01
    else s)

/-- The body of a LOOP at word `a` would pass the last word or its enclosing body, or nest a fifth level
(R154). -/
def loopTooDeep (loops : List LoopEntry) (a arg : Nat) : Bool :=
  decide (16383 < a + arg) || decide (4 ≤ loops.length) ||
    (match loops with
     | e :: _ => decide (e.stop < a + arg)
     | [] => false)

def State.loopIssue (s : State) (d t c : Nat) (q : QEntry) : State :=
  let T := s.tile d t
  let w := q.word
  let x := T.cur
  let a := x.pc - 1
  let arg := iArg w
  let resume (x : Ctx) : State := s.setTile d t ((T.setCtx T.active x).resumeDispatch c)
  match firstCode [(iIllegal w, 0x01), (arg == 0, 0x04), (loopTooDeep x.loops a arg, 0x10)] with
  | some code => (resume (x.advance a)).skip d t q code
  | none =>
    let n := (T.sreg T.active (iSs1 w)).toNat
    if n = 0 then resume (x.advance (a + arg))
    else resume { x with loops := ⟨a + 1, a + arg, n - 1⟩ :: x.loops }

/-- R154, and every reserved opcode of the misc engine. -/
def execLoop (d : Fin 32) (t : Fin 144) (c : Nat) (s : State) : Out :=
  s.execHead d.val t.val c (isOpOr 6 2 6) (fun s q =>
    if 6 ≤ wOpc q.word then s.skip d.val t.val q 0x01 else s.loopIssue d.val t.val c q)

/-- Offsets that RDCR accepts (R143). -/
def rdcrOk (off : Nat) : Bool := off % 8 == 0 && (off < 0x280 || (0x400 ≤ off && off < 0xA00))

def wrcrOk (off : Nat) : Bool := off % 8 == 0 && (0x400 ≤ off && off < 0xA00)

/-- What RDCR reads at an offset in cycle `c`: the register as it stands at the end of that cycle (R60, R64); offsets
of the converter registers name the active context's bank (R143). -/
def State.rdcrValue (s : State) (d t c off : Nat) : BitVec 64 :=
  let s := s.settle d t c
  if 0x400 ≤ off then (s.tile d t).cur.cvt.read (off - 0x400) else s.readTileReg d t off

def execRdcr (d : Fin 32) (t : Fin 144) (c : Nat) (s : State) : Out :=
  s.execHead d.val t.val c (isOp 6 3) (fun s q =>
    let off := iOff q.word
    s.scalTry d.val t.val q [(iIllegal q.word, 0x01), (!rdcrOk off, 0x04)] (fun T =>
      T.addPend q.count (c + 2) (.sreg T.active (iSd q.word) (s.rdcrValue d.val t.val c off))))

def execWrcr (d : Fin 32) (t : Fin 144) (c : Nat) (s : State) : Out :=
  s.execHead d.val t.val c (isOp 6 4) (fun s q =>
    let off := iOff q.word
    s.scalTry d.val t.val q [(iIllegal q.word, 0x01), (!wrcrOk off, 0x04)] (fun T =>
      T.addPend q.count (c + 1) (.cvtReg T.active (off - 0x400) (T.sreg T.active (iSs1 q.word)))))

/-! ## YIELD (R161) -/

/-- ALM_NOW + MIN_WINDOW ≤ S[SS1] (R161). -/
def State.windowFits (s : State) (d : Nat) (T : Tile) (w : BitVec 64) : Bool :=
  decide (s.nowAt d + bits T.regs.cropCtrl 15 8 ≤ (T.sreg T.active (iSs1 w)).toNat)

def execYield (d : Fin 32) (t : Fin 144) (c : Nat) (s : State) : Out :=
  s.execHead d.val t.val c (isOp 6 5) (fun s q =>
    let T := s.tile d.val t.val
    if iIllegal q.word then (s.setTile d.val t.val (T.resumeDispatch c)).skip d.val t.val q 0x01
    else if T.active then s.setTile d.val t.val { T with leaving := true }
    else if T.mayYield && s.windowFits d.val T q.word then
      s.setTile d.val t.val { T with
        leaving := true
        regs := { T.regs with cropRet := T.sreg T.active (iSs1 q.word) } }
    else s.setTile d.val t.val (T.resumeDispatch c))

/-- R134: skipped as ILL_ENGINE; the entry's SRC is 8 (R157). -/
def execIllEngine (d : Fin 32) (t : Fin 144) (c : Nat) (s : State) : Out :=
  s.execHead d.val t.val c (fun w => wEng w == 7) (fun s q => s.skip d.val t.val q 0x02)

end Sys2Proof.Machine
end

