-- ==== Sys2Proof/Machine/Stream.lean ====
section
/-! DEFINITION. A tile's stream: dispatch and breakpoints (R130-R133, R164), halting (R143), circular
waits (R159), catch crops (R160-R163) and the command bits of CDT_STREAM_CTRL (R166). -/
namespace Sys2Proof.Machine

/-! ## Dispatch -/

/-- What dispatch waits on after a word (R133). -/
def stallOf (w : BitVec 64) : Stall :=
  if wEng w = 0 ∧ wOpc w = 6 then .branch
  else if wEng w = 6 then
    (match wOpc w with
     | 1 => .halt
     | 2 => .loop
     | 5 => .yield
     | _ => .none)
  else .none

/-- A breakpoint matches the next instruction (R164). -/
def Tile.brkMatch (T : Tile) (count w : BitVec 64) : Bool :=
  let r := T.regs
  let m := bits r.brkTag 31 16
  r.brkCtrl.getLsbD 3 == T.active
    && ((r.brkCtrl.getLsbD 0 && count == r.brkCount)
      || (r.brkCtrl.getLsbD 1 && wTag w &&& m == bits r.brkTag 15 0 &&& m))

/-- The word enters its queue with the count it takes (R132). -/
def Tile.enqueue (T : Tile) (c : Nat) (w : BitVec 64) (upset : Upset) : Tile :=
  let x := T.cur
  let n := x.icount + 1
  let st := stallOf w
  let x := { x with icount := n }
  let x := if st = .branch ∨ st = .loop then { x with pc := x.pc + 1 } else x.advance x.pc
  let T : Tile := { T.setCtx T.active x with
    passBrk := false
    begins := none
    stall := if st = .none ∧ T.stepping then .breakpoint else st
    times := { T.times with dispatch := c + 1 } }
  let q : QEntry := ⟨w, n, c, false, upset⟩
  if toAccess w then { T with aq := T.aq ++ [q] } else { T with eq := T.eq ++ [q] }

/-- Dispatch is open: nothing has stopped it, and the return beat of a crop has not come (R133, R163). -/
def State.dispatching (s : State) (d : Nat) (T : Tile) : Bool :=
  T.stream == .run && T.stall == .none && !T.switching && !T.leaving && !T.aborting
    && !(T.active && !T.retDead && decide (T.regs.cropRet.toNat ≤ s.nowAt d))

/-- Dispatch may take the next word in cycle `c`; a stream that a RUN has started takes its first in the cycle in which
all those of its die begin (R133). -/
def State.dispatches (s : State) (d : Nat) (T : Tile) (c : Nat) : Bool :=
  s.dispatching d T && decide (T.times.dispatch ≤ c) && (T.begins.map (fun b => b == c)).getD true

/-- R130, R133, R155, R164. -/
def execInstructionDispatch (d : Fin 32) (t : Fin 144) (c : Nat) (fetch : Fetch) (s : State) : Out :=
  let T := s.tile d.val t.val
  if !s.dispatches d.val T c || !s.reached d.val t.val c then .next s
  else
    let x := T.cur
    if 16384 ≤ x.pc then .next (s.pcRange d.val t.val x.icount)
    else if fetch.ecc = .double then
      .next ((s.setTile d.val t.val { T with stream := .imemFault, stall := .fetchFault }).logErr d.val
        { code := 0x43, src := 8, unit := t.val, ctx := T.active, icount := bits x.icount 31 0, hold := true })
    else
      let w := Table.get 0 T.imem x.pc
      if (s.die d.val).debug && !T.passBrk && T.brkMatch (x.icount + 1) w then
        .next (s.setTile d.val t.val { T with
          stall := .breakpoint
          begins := none
          regs := { T.regs with brkCtrl := T.regs.brkCtrl ||| 0x10 } })
      else if 32 ≤ (if toAccess w then T.aq else T.eq).length then .next s
      else
        let s := s.atCycle d.val t.val c
        .next ((s.setTile d.val t.val ((s.tile d.val t.val).enqueue c w fetch.upset)).stir d.val t.val)

/-- Everything has landed, in the last cycle in which anything does; every event of the tile's own before it has come.
-/
def Tile.mayLand (T : Tile) : Bool := T.clear T.lastLand

def State.landAll (s : State) (d t : Nat) : State := s.settle d t (s.tile d t).lastLand

/-- R164: everything dispatched has completed and no slot is in use; the field controller is notified. -/
def execBreakEntry (d : Fin 32) (t : Fin 144) (s : State) : Out :=
  let T := s.tile d.val t.val
  if T.stream = .run ∧ T.stall = .breakpoint ∧ T.drained ∧ T.slots.isEmpty ∧ T.mayLand then
    let s := s.landAll d.val t.val
    let C := s.cd d.val
    .next ((s.setTile d.val t.val { s.tile d.val t.val with stream := .brk, stepping := false }).setCd d.val
      { C with broke := C.broke ++ [t.val] })
  else .next s

/-- R143, R155, R163: after HALT, STOP or PC_RANGE. A crop's HALT makes it DONE and switches back. -/
def execStreamHalted (d : Fin 32) (t : Fin 144) (s : State) : Out :=
  let T := s.tile d.val t.val
  if T.stream = .run ∧ (T.stall = .halt ∨ T.stall = .stopped ∨ T.stall = .range) ∧ T.drained ∧ !T.switching
      ∧ T.mayLand then
    let s := s.landAll d.val t.val
    let T := s.tile d.val t.val
    if T.active && T.stall != .stopped then
      if T.crop = .done then .next s
      else .next (s.setTile d.val t.val { T with crop := .done, leaving := true })
    else .next (s.setTile d.val t.val { T with stream := .halted })
  else .next s

/-! ## Circular waits (R159, R170) -/

/-- What holds the head of a side: KIND of R170, or none. -/
def Tile.blockedBy (T : Tile) (acc : Bool) (w : BitVec 64) : Option Nat :=
  let shut (b : Bool) (kind : Nat) : Option Nat := if b then none else some kind
  match wEng w, wOpc w with
  | 1, 0 => shut (T.oqRoom (xDest w) (aldRoom T w)) 1
  | 1, 1 => shut (T.astReady w) 2
  | 1, 5 => shut T.fenceOpen 3
  | 1, 6 => shut T.fenceOpen 3
  | 2, 0 => shut (headReady T.oqm && headReady (T.oqm.drop 1)) 1
  | 2, 1 => shut (T.sqRoom (accstBytes (mFmtA w))) 2
  | 3, 10 => shut (headReady T.oqv) 1
  | 3, 11 => shut (T.sqRoom (vqBytes T w)) 2
  | 5, 0 => shut (yIllegal w || !acc || T.fenceOpen) 3
  | 5, 1 => shut (yIllegal w || decide (yCount w ≤ (T.flag T.active (yFlag w)).toNat)) 0
  | _, _ => none

/-- The next word waits for a place in the full queue of a side. -/
def Tile.waitsFor (T : Tile) (acc : Bool) : Bool :=
  decide (T.cur.pc < 16384) && toAccess (Table.get 0 T.imem T.cur.pc) == acc && decide (32 ≤ (T.side acc).length)

/-- Condition of a side: blocked by its head, or starved while dispatch, where it is open, waits on the full queue of
the other side. -/
def Tile.sideHeld (T : Tile) (acc isOpen : Bool) : Option Nat :=
  match T.side acc with
  | e :: _ => T.blockedBy acc e.word
  | [] => if isOpen && T.waitsFor (!acc) then some 4 else none

/-- CDT_CWM_EXEC or CDT_CWM_ACC at firing. -/
def Tile.cwmWord (T : Tile) (acc : Bool) (kind : Nat) : BitVec 64 :=
  let q := if acc then T.aq else T.eq
  let count := match q with
    | e :: _ => bits e.count 31 0
    | [] => 0xFFFFFFFF
  let (flag, n) := match kind, q with
    | 0, e :: _ => (yFlag e.word, (T.flag T.active (yFlag e.word)).toNat)
    | _, _ => (0, 0)
  BitVec.ofNat 64 (count * 2 ^ 32 + 2 ^ 31 + flag * 2 ^ 25 + kind * 2 ^ 22 + n)

/-- R159: the monitor fires after 4,096 beats in which nothing has issued or been dispatched, and no block has become
ready or complete; by then everything has landed. -/
def execCircularWait (d : Fin 32) (t : Fin 144) (s0 : State) : Out :=
  let s := s0.landAll d.val t.val
  let T := s.tile d.val t.val
  let isOpen := s.dispatching d.val T
  match T.sideHeld false isOpen, T.sideHeld true isOpen with
  | some a, some b =>
    if T.stream = .run ∧ !T.switching ∧ T.still + 4096 ≤ s.alm.total ∧ (s0.tile d.val t.val).mayLand then
      let we := T.cwmWord false a
      let wa := T.cwmWord true b
      let s := s.setTile d.val t.val { T with
        stream := .cwait, regs := { T.regs with cwmExec := we, cwmAcc := wa } }
      .next (s.logErr d.val { code := 0x19, src := 8, unit := t.val, ctx := T.active
                              icount := bits we 63 32, detail := bits wa 63 32, hold := true })
    else .next s0
  | _, _ => .next s0

/-! ## Catch-crop switches (R160-R163, R129) -/

def saveArea (crop : Bool) : Nat := if crop then 0x1B0000 else 0x160000

/-- The vector image of R129. -/
def Tile.vecImage (T : Tile) : List Byte :=
  (List.range 32).flatMap (fun r => leBytes 512 (T.vreg r).toNat)
    ++ (List.range 8).flatMap (fun m => leBytes 512 (T.mask m).toNat)
    ++ (List.range 8).flatMap (fun k =>
        let slot := Table.get [] T.carry k
        (List.range 64).flatMap (fun j =>
          let l := Table.get CarryLane.reset slot j
          leBytes 8 l.hi.toNat ++ leBytes 8 l.lo.toNat ++ leBytes 8 l.idx.toNat))

def leAt (v : Array Byte) (off n : Nat) : Nat := ofLe ((List.range n).map (fun i => v.getD (off + i) 0))

/-- Vector registers, masks and carry slots from an image. -/
def Tile.fromVecImage (T : Tile) (l : List Byte) : Tile :=
  let v := l.toArray
  { T with
    vregs := tableOf 0 32 (fun r => BitVec.ofNat 4096 (leAt v (512 * r) 512))
    masks := tableOf 0 8 (fun m => BitVec.ofNat 4096 (leAt v (0x4000 + 512 * m) 512))
    carry := tableOf [] 8 (fun k => tableOf CarryLane.reset 64 (fun j =>
      let o := 0x5000 + 1536 * k + 24 * j
      ⟨BitVec.ofNat 64 (leAt v o 8), BitVec.ofNat 64 (leAt v (o + 8) 8), BitVec.ofNat 64 (leAt v (o + 16) 8)⟩)) }

/-- Images of the visible banks of A0-A7, one behind the other. -/
def Tile.accImages (T : Tile) : List Byte :=
  (List.range 8).flatMap (fun n => accImage ((T.acc n).bank (T.acc n).visible))

/-- A piece of 256 bytes of an image. -/
def pieceOf (l : List Byte) (k : Nat) : List Byte := (l.drop (256 * k)).take 256

/-- Cycle k of a switch on port B (R162): the outgoing image is written, behind the read of the incoming one, which the
first switch after a START does without (R160). -/
def Tile.switchCycle (T : Tile) (k : Nat) : Tile :=
  let out := saveArea T.active
  let into := saveArea (!T.active)
  let T : Tile :=
    if (T.ctx (!T.active)).fresh then T
    else if k < 1152 then { T with swAcc := T.swAcc ++ T.readSram (into + 256 * k) 256 }
    else { T with swVec := T.swVec ++ T.readSram (into + 0x48000 + 256 * (k - 1152)) 256 }
  if k < 128 then T.writeSram (out + 0x48000 + 256 * k) (pieceOf T.vecImage k)
  else T.writeSram (out + 256 * (k - 128)) (pieceOf T.accImages (k - 128))

/-- Port B has run the switch through the cycles before `c`. -/
def Tile.switchTo (T : Tile) (c : Nat) : Tile :=
  if T.switching then
    let n := min 1280 (c - T.swAt)
    { (List.range (n - T.swDone)).foldl (fun T i => T.switchCycle (T.swDone + i)) T with swDone := max n T.swDone }
  else T

/-- The incoming images restored, or zero state on the first switch after START (R160); the banks
exchange and the context flips. -/
def Tile.restoreImages (T : Tile) : Tile :=
  let into := !T.active
  let zero := (T.ctx into).fresh
  let T := (List.range 8).foldl (fun T n =>
    let img := if zero then [] else accOfImage ((T.swAcc.drop (0x9000 * n)).take 0x9000)
    T.setAcc n ((T.acc n).exchange img)) T
  if zero then
    let x := T.ctx into
    let x : Ctx := { x with layout := [], vl := 0, fresh := false }
    { T.setCtx into x with vregs := [], masks := [], carry := [] }
  else T.fromVecImage T.swVec

/-- R162: from quiescence at cycle `c`, once everything has landed. -/
def execCatchCropSwitch (d : Fin 32) (t : Fin 144) (c : Nat) (s : State) : Out :=
  let T := s.tile d.val t.val
  if T.stream = .run ∧ T.leaving ∧ !T.switching ∧ T.quiet ∧ T.switchesAt c then
    s.ownEvent d.val t.val c (fun s =>
      let s := s.settle d.val t.val c
      s.setTile d.val t.val { s.tile d.val t.val with
        switching := true, swAt := c, swDone := 0, swAcc := [], swVec := [] })
  else .next s

/-- R162, R163: at s + 1,280 the banks exchange; the first incoming instruction may issue at s + 1,296. A
crop that has not finished stays READY. A STOP, of the runtime or of the seal, stands (R166, R395). -/
def Tile.switchOver (T : Tile) : Tile :=
  let first := T.swAt + 1296
  let wasCrop := T.active
  let T := (T.switchTo (T.swAt + 1280)).restoreImages
  { T with
    active := !wasCrop
    switching := false
    leaving := false
    leftAt := none
    overrun := false
    retDead := false
    stall := if T.stall = .stopped then .stopped else .none
    crop := if wasCrop then (if T.crop = .done then .done else .ready) else .running
    times := { T.times with exec := first, acc := first, dispatch := first - 1 } }

def execCatchCropSwitchComplete (d : Fin 32) (t : Fin 144) (s : State) : Out :=
  let T := s.tile d.val t.val
  if T.switching then
    s.ownEvent d.val t.val (T.swAt + 1280) (fun s => s.setTile d.val t.val (s.tile d.val t.val).switchOver)
  else .next s

/-- A stream that has neither ended nor not begun. -/
def StreamState.open (x : StreamState) : Bool := x != .idle && x != .halted

/-- R163: crop dispatch stops at the first beat at or after the return beat, in whatever state the stream stands. -/
def execCropReturnBeat (d : Fin 32) (t : Fin 144) (s : State) : Out :=
  let T := s.tile d.val t.val
  if T.stream.open ∧ T.active ∧ !T.leaving ∧ !T.retDead ∧ T.regs.cropRet.toNat ≤ s.nowAt d.val then
    .next (s.setTile d.val t.val { T with leaving := true, leftAt := some T.times.now })
  else .next s

/-- R163: logged once for the return that has not come to quiescence in DRAIN_LIMIT beats. -/
def execCropOverrun (d : Fin 32) (t : Fin 144) (s : State) : Out :=
  let T := s.tile d.val t.val
  if T.stream.open ∧ T.active ∧ !T.switching ∧ !T.overrun ∧ !T.retDead ∧ !T.quiet
      ∧ T.regs.cropRet.toNat + bits T.regs.cropCtrl 31 16 ≤ s.nowAt d.val then
    .next ((s.setTile d.val t.val { T with overrun := true }).logErr d.val
      { code := 0x17, src := 8, unit := t.val, ctx := true, icount := bits T.cur.icount 31 0 })
  else .next s

/-! ## Stream control (R166) -/

inductive CtrlAct where
  | abort | stop | restart | resume | start | none
  deriving DecidableEq, Repr

/-- START applies to the main context in IDLE or HALTED, to the crop in EMPTY or DONE. -/
def Tile.mayStart (T : Tile) (crop : Bool) : Bool :=
  if crop then T.crop == .empty || T.crop == .done
  else (T.stream == .idle || T.stream == .halted) && !T.aborting

/-- Which command bit of one write acts: the first of ABORT, STOP, RESTART, RESUME, START that applies. -/
def Tile.ctrlAct (T : Tile) (w : BitVec 64) : CtrlAct :=
  if w.getLsbD 4 && T.stream != .idle then .abort
  else if w.getLsbD 1 && T.stream == .run && !T.aborting then .stop
  else if w.getLsbD 3 && (T.stream == .faultHold || T.stream == .abftHalt) && !T.aborting then .restart
  else if w.getLsbD 2 && T.stream == .brk && !T.aborting then .resume
  else if w.getLsbD 0 && T.mayStart (w.getLsbD 5) then .start
  else .none

/-- While the result is sealed, dispatch stays stopped and held states stay held: START, RESUME and RESTART apply in no
state (R395). -/
def State.ctrlAct (s : State) (d t : Nat) (w : BitVec 64) : CtrlAct :=
  let a := (s.tile d t).ctrlAct w
  if s.wseal.isSealed && (a == .start || a == .resume || a == .restart) then .none else a

/-- Context `crop` at its entry point with count 0; S, VL and flags are unchanged. -/
def Tile.startCtx (T : Tile) (crop : Bool) : Tile :=
  let x := T.ctx crop
  let x := { x with pc := x.entry.toNat, icount := 0, loops := [] }
  if crop then { T.setCtx true { x with fresh := true } with crop := .ready }
  else { T.setCtx false x with
    stream := .run, stall := .none, active := false, passBrk := false, stepping := false, leaving := false
    leftAt := none, begins := none }

/-- ABORT: queues and their contents are gone, requests that are out are awaited and discarded, then IDLE. A store
still in the converter is dropped with its queue: its remaining rows reach no maximum, count or flag (DESIGN CHOICE,
log entry 143). -/
def Tile.abort (T : Tile) : Tile :=
  let slots := T.slots.filter (fun e => decide (e.2.stage < 2))
  let T : Tile := { T with
    eq := [], aq := [], oqm := [], oqv := [], sq := [], cvt := [], ops := []
    slots := slots, stall := .stopped, crop := .empty, active := false, leaving := false, leftAt := none,
      switching := false
    overrun := false, retDead := false, stepping := false, passBrk := false
    regs := { T.regs with abftHalt := false }
    pend := dropLoads (fun _ => true) T.pend }
  if slots.isEmpty then { T with stream := .idle, aborting := false }
  else { T with aborting := true }

/-- RESTART leaves FAULT_HOLD or ABFT_HALT (R91, R116); behind a fetch fault the stream stays where that put it. -/
def Tile.restart (T : Tile) : Tile :=
  { T with stream := if T.stall = .fetchFault then .imemFault else .run, regs := { T.regs with abftHalt := false } }

def State.resumeTile (s : State) (d : Nat) (T : Tile) : Tile :=
  { T with
    stream := .run, stall := .none, passBrk := true
    stepping := (s.die d).debug && T.regs.brkCtrl.getLsbD 2 }

def Tile.act (s : State) (d : Nat) (T : Tile) (w : BitVec 64) (a : CtrlAct) : Tile :=
  match a with
  | .abort => T.abort
  | .stop => T.stopDispatch
  | .restart => T.restart
  | .resume => s.resumeTile d T
  | .start => T.startCtx (w.getLsbD 5)
  | .none => T

/-- A write of CDT_STREAM_CTRL: VIEW and CTX are written, one command bit acts. RESTART runs the accesses
again that faulted or were cancelled (R116). -/
def State.streamCtrl (s : State) (d t : Nat) (w : BitVec 64) : State :=
  let s := s.writeTileReg d t 0 w
  let T := s.tile d t
  let a := s.ctrlAct d t w
  let C := s.cd d
  let s := if a = .resume ∨ a = .abort then s.setCd d { C with broke := C.broke.filter (fun x => x != t) } else s
  let s := s.setTile d t (Tile.act s d T w a)
  if a = .restart then s.restartOps d t else s

/-- A row of R166 is the write whose acting bit is its own; a die that is absent takes none. -/
def State.ctrlRow (s : State) (d t : Nat) (w : BitVec 64) (a : CtrlAct) : Out :=
  if !s.absent d ∧ s.ctrlAct d t w = a then .next (s.streamCtrl d t w) else .next s

def execStart (d : Fin 32) (t : Fin 144) (w : BitVec 64) (s : State) : Out :=
  s.ctrlRow d.val t.val w .start

def execStop (d : Fin 32) (t : Fin 144) (w : BitVec 64) (s : State) : Out :=
  s.ctrlRow d.val t.val w .stop

def execAbort (d : Fin 32) (t : Fin 144) (w : BitVec 64) (s : State) : Out :=
  s.ctrlRow d.val t.val w .abort

def execRestart (d : Fin 32) (t : Fin 144) (w : BitVec 64) (s : State) : Out :=
  s.ctrlRow d.val t.val w .restart

def execResume (d : Fin 32) (t : Fin 144) (w : BitVec 64) (s : State) : Out :=
  s.ctrlRow d.val t.val w .resume

end Sys2Proof.Machine
end

