-- ==== Sys2Proof/Machine/Regs.lean ====
section
/-! DEFINITION. Every control register by its address (R32), read and written under its access codes (R11). -/
namespace Sys2Proof.Machine

/-- A counter field is cleared by any 1 bit written to it. -/
def clearCount (v : BitVec 64) (hi lo n : Nat) : Nat := if bits v hi lo = 0 then n else 0

def clearCountBv {w : Nat} (v : BitVec 64) (hi lo : Nat) (x : BitVec w) : BitVec w :=
  if bits v hi lo = 0 then x else 0

/-! ## Error registers of every die (R408) -/

def ErrEntry.word (e : ErrEntry) (i : Nat) : BitVec 64 :=
  match i with
  | 0 => e.w0
  | 1 => e.w1
  | 2 => e.w2
  | _ => e.w3

def errBase : Nat := 0xF00000

def ErrRing.read (r : ErrRing) (off : Nat) : BitVec 64 :=
  if off = 0 then
    word64 [(r.ovf, 48), (r.logged, 32), (natOf r.handling, 15), (natOf r.first.isSome, 14), (r.unread, 7), (r.head, 0)]
  else if off = 8 then BitVec.ofNat 64 r.tail
  else if 0x20 ≤ off ∧ off < 0x40 then (r.first.getD ErrEntry.zero).word ((off - 0x20) / 8)
  else if 0x1000 ≤ off ∧ off < 0x1800 then
    (Table.get ErrEntry.zero r.ring ((off - 0x1000) / 32)).word ((off - 0x1000) % 32 / 8)
  else 0

/-- R408: a write of P_ERR_TAIL. -/
def State.errTail (s : State) (b : Nat) (v : BitVec 64) : State :=
  let D := s.die b
  s.setDie b { D with errs := D.errs.free (v.toNat % 64) }

/-- R387: a write of P_ERR_ACK. -/
def State.errAck (s : State) (b : Nat) (v : BitVec 64) : State := if v.getLsbD 0 then s.closeHandler b else s

def State.writeErr (s : State) (b off : Nat) (v : BitVec 64) : State :=
  let D := s.die b
  if off = 0 then
    s.setDie b { D with errs := { D.errs with
      ovf := clearCount v 63 48 D.errs.ovf, first := if v.getLsbD 14 then none else D.errs.first } }
  else if off = 8 then s.errTail b v
  else if off = 0x10 then s.errAck b v
  else s

/-! ## Memory dies (R227-R232, R260-R262, R360) -/

/-- Entries in the queues and holds of a stack (R229). -/
def State.entriesIn (s : State) (x : HbmStack) : Nat :=
  (x.banks.map (fun e => e.2.queue.length
    + (e.2.hold.map (fun r => (entriesOf (hbmLoc s.fabric.quadLocal r.addr.toNat).2 r.len).length)).sum)).sum

def HbmStack.therm (x : HbmStack) : BitVec 64 := word64 [(x.tempMax.toNat, 16), (x.level, 8), (x.temp.toNat, 0)]

def State.memStatus (s : State) (M : MemDie) : BitVec 64 :=
  let pend (x : HbmStack) : Nat := natOf (x.repairs.any (fun e => !e.2))
  word64 [(min 0xFFFF (s.entriesIn M.st0 + s.entriesIn M.st1), 32), (natOf M.st1.oos, 7), (natOf M.st0.oos, 6),
    (pend M.st1, 5), (pend M.st0, 4), (natOf M.st1.down, 3), (natOf M.st0.down, 2), (natOf M.st1.trained, 1),
    (natOf M.st0.trained, 0)]

/-- Sectors that the pass has read, in units of 1/65,536 of those of the stacks that take part. -/
def MemDie.scrubProgress (M : MemDie) : Nat :=
  let live := [M.st0, M.st1].filter (fun x => x.trained && !x.down)
  min 0xFFFF ((live.map (·.scrub)).sum * 65536 / (live.length * sectorsPerStack))

def Train.read (t : Train) (off : Nat) : BitVec 64 :=
  match off with
  | 0x00 => t.scale.setWidth 64
  | 0x08 => word64 [(t.growth.toNat, 32), (t.backoff.toNat, 0)]
  | 0x10 => word64 [(t.smax.toNat, 32), (t.smin.toNat, 0)]
  | 0x18 => word64 [(t.interval.toNat, 32), (t.clean.toNat, 0)]
  | 0x20 => word64 [(t.vtimeout.toNat, 32), (natOf t.voteSat, 2), (t.straggler.toNat, 0)]
  | 0x28 => word64 [(t.vstep.toNat, 32), (natOf t.vvalid, 8), (t.vote.toNat, 0)]
  | 0x30 => word64 [(t.segDone.toNat, 32), (t.last.toNat, 8), (natOf t.active, 0)]
  | 0x38 => word64 [(t.nonfinite.toNat, 32), (t.skips.toNat, 0)]
  | _ => 0

def State.readMd (s : State) (m off : Nat) : BitVec 64 :=
  let M := s.md m
  let q := m / 4
  if off = 0x00 then M.cfg.setWidth 64
  else if off = 0x08 then s.memStatus M
  else if off = 0x10 then word64 [(M.ue, 48), (M.odecc, 32), (M.ce, 0)]
  else if off = 0x18 then M.first
  else if off = 0x20 then (s.scrubCfgOf m).setWidth 64
  else if off = 0x28 then word64 [(M.passes.toNat, 32), (M.scrubProgress, 0)]
  else if off = 0x30 then M.st0.therm
  else if off = 0x38 then M.st1.therm
  else if 0x100 ≤ off ∧ off < 0x140 then M.train.read (off - 0x100)
  else if off = 0x200 ∧ m % 4 = 0 then word64 [(s.module (2 * q + 1), 4), (s.module (2 * q), 0)]
  else if off = 0x208 ∧ m % 4 = 0 then word64 [(M.delivered, 32), (M.retries, 0)]
  else 0

/-- R228. -/
def memCfgWrite (old : BitVec 32) (v : BitVec 64) : BitVec 32 :=
  BitVec.ofNat 32 (clampNat 80 100 (bits v 31 24) * 2 ^ 24 + max 1 (bits v 23 16) * 2 ^ 16
    + max 1 (bits v 15 8) * 2 ^ 8 + bits v 2 1 * 2 + bits old 0 0)

/-- R231. -/
def scrubCfgWrite (v : BitVec 64) : BitVec 16 := BitVec.ofNat 16 (clampNat 1 6 (bits v 15 8) * 256 + bits v 0 0)

def State.writeMd (s : State) (m off : Nat) (v : BitVec 64) : State :=
  let M := s.md m
  let hot (x : HbmStack) : HbmStack := { x with tempMax := clearCountBv v 23 16 x.tempMax }
  if off = 0x00 then s.setMd m { M with cfg := memCfgWrite M.cfg v }
  else if off = 0x10 then
    s.setMd m { M with
      ue := clearCount v 63 48 M.ue, odecc := clearCount v 47 32 M.odecc, ce := clearCount v 31 0 M.ce }
  else if off = 0x18 then s.setMd m { M with first := clearBits M.first v 0x8000000000000000 }
  else if off = 0x20 then
    if s.safetyLock then (if scrubCfgWrite v = s.scrubCfgOf m then s else s.lockedWrite (blkMd m) off)
    else s.setMd m { M with scrubCfg := scrubCfgWrite v }
  else if off = 0x30 then s.setMd m { M with st0 := hot M.st0 }
  else if off = 0x38 then s.setMd m { M with st1 := hot M.st1 }
  else if off = 0x138 then
    s.setMd m { M with train := { M.train with
      nonfinite := clearCountBv v 63 32 M.train.nonfinite, skips := clearCountBv v 31 0 M.train.skips } }
  else if off = 0x208 ∧ m % 4 = 0 then s.setMd m { M with retries := clearCount v 31 0 M.retries }
  else s

/-! ## Link dies (R304-R308) -/

/-- Port of the j-th slot of a link die's block. -/
def blockPort (l j : Nat) : Nat := 3 * (l / 2) + j

def State.readPort (s : State) (p i : Nat) : BitVec 64 :=
  let P := s.port p
  match i with
  | 0 => word64 [(P.role.toNat, 6), (P.medium.toNat, 4)]
  | 1 => word64 [(P.peer.toNat, 48), (P.retrains, 32), (P.state.num, 0)]
  | 2 => word64 [(P.uncorr, 48), (P.replays, 32), (P.corr, 0)]
  | _ => 0

/-- A packet waits for room in this link die's early store (R283). -/
def State.earlyFull (s : State) (l : Nat) : Bool :=
  s.net.arrived.any (fun e => (portLds e.port).contains l && s.earlyWaits l e.pkt)

def State.readLd (s : State) (l off : Nat) : BitVec 64 :=
  let n := s.net
  let x := s.ld l
  if off = 0x00 then word64 [(n.lifetime.toNat, 48), (n.reqTimeout.toNat, 32), (n.auditPeriod.toNat, 24)]
  else if off = 0x08 then
    word64 [((n.detour.filter (fun e => e.2.getLsbD 63)).length, 8), (natOf (s.earlyFull l), 2),
      (natOf n.rot.isSome, 1), (natOf (n.colls.any (fun e => e.2.run.isSome)), 0)]
  else if off = 0x10 then word64 [(x.late, 32), (x.stale, 0)]
  else if off = 0x18 then word64 [(x.audits, 32), (x.misses, 16), (x.missPort, 12), (x.missVc, 9)]
  else if 0x100 ≤ off ∧ off < 0x1C0 then s.readPort (blockPort l ((off - 0x100) / 0x40)) ((off - 0x100) % 0x40 / 8)
  else if 0x1000 ≤ off ∧ off < 0x1200 then Table.get 0 n.detour ((off - 0x1000) / 8)
  else 0

/-- R290: one link die takes the write of LD_LAUNCH, all eight launch. -/
def State.writeLaunch (s : State) (l : Nat) (w : BitVec 64) : State :=
  let slot := bits w 7 0
  let gen := bits w 15 8
  let x := s.colls slot
  if x.gen ≠ 0 ∧ gen = x.gen then s.launchColl slot
  else if gen = nextGen x.gen then s.setColl slot { x with held := true }
  else s.countStale l

def execLdLaunch (l : Fin 8) (w : BitVec 64) (s : State) : Out := .next (s.writeLaunch l.val w)

def State.writeLd (s : State) (l off : Nat) (v : BitVec 64) : State :=
  let x := s.ld l
  if off = 0x10 then s.setLd l { x with late := clearCount v 63 32 x.late, stale := clearCount v 31 0 x.stale }
  else if off = 0x18 then s.setLd l { x with misses := clearCount v 31 16 x.misses }
  else if off = 0x20 then s.writeLaunch l v
  else if 0x100 ≤ off ∧ off < 0x1C0 ∧ (off - 0x100) % 0x40 = 0x10 then
    let p := blockPort l ((off - 0x100) / 0x40)
    let P := s.port p
    s.setPort p { P with
      uncorr := clearCount v 63 48 P.uncorr, replays := clearCount v 47 32 P.replays, corr := clearCount v 31 0 P.corr }
  else s

/-! ## Factor dies (R199) -/

def State.readFd (s : State) (f off : Nat) : BitVec 64 :=
  let F := s.fd f
  let lanes (p : Problem) : Nat := if (descOf p.words).quad then 4 else 1
  match off with
  | 0x00 =>
    let (done, used) : Nat × Nat := match F.batch with
      | some b => (b.done, (b.probs.map lanes).sum)
      | none => (0, 0)
    word64 [(done, 11), (used, 2), (natOf F.valid, 1), (natOf F.batch.isSome, 0)]
  | 0x08 => F.base.setWidth 64
  | 0x10 => word64 [(F.slotBytes.toNat, 23), (F.slots.toNat, 0)]
  | 0x18 => word64 [(F.breaches.toNat, 32), (F.faults.toNat, 0)]
  | _ => 0

def State.writeFd (s : State) (f off : Nat) (v : BitVec 64) : State :=
  let F := s.fd f
  if off = 0x18 then
    s.setFd f { F with breaches := clearCountBv v 63 32 F.breaches, faults := clearCountBv v 31 0 F.faults }
  else s

/-! ## Steward (R34, R35, R383) -/

/-- A hold area's first manifest words, as they lie in HBM (R369). -/
def State.holdComplete (s : State) (a : Nat) : Bool :=
  let l := s.hbmBytes (s.holdArea a) 0x18
  s.hrv.area != 0 && leField l 0 2 == 1 && leField l 0x16 1 == 1

/-- A HARVEST_DRAIN is under way. -/
def State.draining (s : State) : Bool := s.sd.cmds.any (fun c => c.op == 0x0803 && c.stage == .running)

def State.readSteward (s : State) (off : Nat) : BitVec 64 :=
  let w := s.sow
  let h := s.hrv
  match off with
  | 0x100 => word64 [(natOf s.net.coordValid, 16), (s.net.coord.toNat, 0)]
  | 0x108 => s.net.geom.setWidth 64
  | 0x400 =>
    word64 [(w.step.toNat % 2 ^ 32, 32), (min 0xFFFF w.lag.length, 16), (natOf w.lost, 3), (natOf w.replay, 2),
      (natOf w.isOpen, 1), (natOf w.en, 0)]
  | 0x408 =>
    let progress := if h.state = 2 ∧ h.total ≠ 0 then min 0xFFFF ((h.total - h.left) * 65536 / h.total) else 0
    word64 [(if h.anyDone then h.doneStep.toNat % 2 ^ 32 else 0, 32), (if h.restore.isSome then 3 else h.state, 28),
      (natOf s.draining, 27),
      (natOf (s.holdComplete 1), 25), (natOf (s.holdComplete 0), 24), (progress, 0)]
  | 0x410 =>
    let m := s.sites
    word64 [(m.retired.toNat, 32), (m.s33.toNat, 14), (m.s33cd.toNat, 9), (m.s32.toNat, 6), (m.s32cd.toNat, 1)]
  | _ => 0

def State.writeSteward (s : State) (off : Nat) (v : BitVec 64) : State :=
  if off = 0x100 then
    { s with net := { s.net with coordValid := v.getLsbD 16, coord := BitVec.ofNat 16 v.toNat } }
  else if off = 0x108 then { s with net := { s.net with geom := BitVec.ofNat 18 (fixGeom (v.toNat % 2 ^ 18)) } }
  else if off = 0x400 then
    if v.getLsbD 3 then { s with sow := { s.sow with lost := false, lostLogged := false } } else s
  else s

/-! ## Warden (R324-R327, R409, R410, R428-R432, R450, R472, R473) -/

def State.readAlm (s : State) (off : Nat) : BitVec 64 :=
  let a := s.alm
  if off = 0x00 then
    word64 [(a.children.toNat, 32), (a.parent.toNat, 28), (a.period.toNat, 16), (a.diverge.toNat, 8), (a.miss.toNat, 4),
      (a.role.toNat, 0)]
  else if off = 0x08 then
    word64 [(a.offset.toNat, 32), (a.gen.toNat, 24), (a.hops.toNat, 16), (natOf a.ppsOk, 5), (natOf a.refOk, 4),
      (a.state.toNat, 0)]
  else if off = 0x10 then a.now
  else if off = 0x18 then s.stamp
  else if off = 0x20 then a.season.setWidth 64
  else if off = 0x28 then a.adj.setWidth 64
  else if off = 0x30 then word64 [(a.refLost, 48), (a.syncLost, 32), (a.diverged, 16), (a.staleBeats, 0)]
  else if 0x40 ≤ off ∧ off < 0xA0 then
    match (s.port ((off - 0x40) / 8)).delay with
    | some d => word64 [(1, 63), (d.toNat, 0)]
    | none => 0
  else 0

def State.writeAlm (s : State) (off : Nat) (v : BitVec 64) : State :=
  let a := s.alm
  if off = 0x30 then
    { s with alm := { a with
      refLost := clearCount v 63 48 a.refLost, syncLost := clearCount v 47 32 a.syncLost
      diverged := clearCount v 31 16 a.diverged, staleBeats := clearCount v 15 0 a.staleBeats } }
  else s

/-- Gleaning's share of the HBM of all dies and of the busiest port over the last 10 ms, in ppm of their peak and raw
rates (R402, R409): 4,915.2 GB/s of each of 16 dies, and 896 GB/s. -/
def State.hbmPpm (s : State) : Nat := (s.mds.map (fun e => spentIn s.alm.total e.2.spent)).sum / 786432

def State.linkPpm (s : State) : Nat :=
  (s.net.ports.map (fun e => spentIn s.alm.total e.2.spent)).foldl max 0 / 8960

def State.readSeal (s : State) (off : Nat) : BitVec 64 :=
  let w := s.wseal
  let g := s.glean
  match off with
  | 0x00 =>
    word64 [(w.fatalOpen.toNat, 48), (w.head, 40), (natOf w.wrapped, 3), (natOf w.faultN, 2), (natOf s.anyHandler, 1),
      (natOf w.isSealed, 0)]
  | 0x08 => word64 [(w.detections, 32), (w.marks, 0)]
  | 0x10 => word64 [(g.period.toNat, 48), (g.link.toNat, 32), (g.hbm.toNat, 16), (g.tasks.toNat, 0)]
  | 0x18 => word64 [(s.hbmPpm, 32), (min 0xFFFF s.linkPpm, 16), ((s.tiles.filter (fun e => e.2.overdue)).length, 3),
      (min 7 s.alm.windows.length, 0)]
  | _ => 0

def clockNum : Clock → Nat
  | .cclk => 0
  | .fclk => 1
  | .mclk => 2
  | .hclk => 3
  | .lclk => 4
  | .wclk => 5
  | .ref156 => 6

def State.readClk (s : State) (off : Nat) : BitVec 64 :=
  let c := s.clk
  let o := s.opt
  match off with
  | 0x00 =>
    word64 [(c.warmCount, 48), (c.loop, 40), (c.absorbed, 32), (c.kind.toNat, 12), (c.source.toNat, 8),
      (c.block.toNat, 0)]
  | 0x08 =>
    word64 [(c.forced, 48), (c.oscRetries, 40), (c.hclk.toNat, 32), (c.cclk.toNat, 24), (c.fclk.toNat, 16),
      (c.mclk.toNat, 8), (natOf c.onRc, 3), (natOf c.ref156, 2), (natOf c.wclkOk, 1), (natOf c.locked, 0)]
  | 0x10 => c.lost
  | 0x18 =>
    word64 [(optSeq o.inForce, 32), (o.restarts, 24), (o.copy0.page, 20), (o.copy1.page, 16), (natOf s.ostoreLock, 5),
      (natOf (!o.writes.isEmpty), 4), (natOf o.fault, 3), (natOf o.inUse, 2), (natOf o.ok1, 1), (natOf o.ok0, 0)]
  | 0x30 => word64 [(c.xtal.toNat, 32), (c.rails.toNat, 0)]
  | 0x38 => word64 [(c.plls.toNat, 32), (c.endpoint.toNat, 0)]
  | _ => 0

/-- SVN_MIN (R436). -/
def State.svnMin (s : State) : Nat := topBit (s.fuseWord 16 ++ s.fuseWord 15)

/-- Slots written and sensed whole; slots revoked (R434, R436). -/
def State.slotValid (s : State) (k : Nat) : Bool :=
  (s.fuseWord 12).getLsbD (4 + k)
    && !(s.fuse.lostWords.any (fun w => decide (17 + 12 * k ≤ w) && decide (w < 29 + 12 * k)))

def State.slotRevoked (s : State) (k : Nat) : Bool := (s.fuseWord 13).getLsbD (16 + k)

/-- The device identity is written and sensed whole. -/
def State.idValid (s : State) : Bool :=
  (s.fuseWord 12).getLsbD 0 && !(s.fuse.lostWords.any (fun w => decide (w < 12)))

def maskOf (f : Nat → Bool) : Nat := ((List.range 4).map (fun k => natOf (f k) * 2 ^ k)).sum

def State.readFuse (s : State) (off : Nat) : BitVec 64 :=
  let f := s.fuse
  if off = 0x00 then
    word64 [(min 0xFF f.corr, 56), (min 0xFF f.failN, 48), (natOf f.job.isSome, 2), (natOf s.idValid, 1),
      (natOf f.faulted, 0)]
  else if off = 0x08 then
    word64 [(s.hostMap.toNat, 48), (s.svnMin, 40), (maskOf s.slotValid, 16), (maskOf s.slotRevoked, 12),
      (s.debugLevel, 8), (natOf s.safetyLock, 1), (natOf s.ostoreLock, 0)]
  else if off = 0x10 then s.fuseWord 1 ++ s.fuseWord 0
  else if off = 0x18 then s.fuseWord 3 ++ s.fuseWord 2
  else if off = 0x20 then word64 [(f.svn.toNat, 8), (natOf f.loaded, 7), (f.slot.toNat, 0)]
  else if 0x100 ≤ off ∧ off < 0x1C0 then
    s.fuseWord (17 + (off - 0x100) / 8 * 2 + 1) ++ s.fuseWord (17 + (off - 0x100) / 8 * 2)
  else 0

/-- Trip limit of a die in °C (R466). -/
def tripOf (b : Nat) : Nat :=
  if b = 61 then 115
  else if 32 ≤ b ∧ b < 56 then 110
  else 105

/-- A die's core rails are on: ramped and not turned off. A fallow die's are on under the number that it has adopted
only (R455). -/
def State.railOn (s : State) (b : Nat) : Bool := s.pwr.rails && !(s.die b).railsOff && decide (b < 62)

/-- R473. Rails that temperature has turned off show STATE 3 (log entry 39). -/
def State.readTemp (s : State) (b : Nat) : BitVec 64 :=
  let b := s.dieOf b
  let D := s.die b
  let live := s.railOn b
  word64 [(tripOf b, 24), (D.tempMax.toNat, 16), (if live then D.tempState else if D.hotOff then 3 else 0, 8),
    (if live then D.temp.toNat else 0, 0)]

def State.readPower (s : State) (off : Nat) : BitVec 64 :=
  let p := s.pwr
  if off = 0x00 then
    word64 [(p.vin.toNat, 48), (p.pin.toNat, 32), (natOf p.limiting, 7), (natOf p.cbus, 6), (p.qbus.toNat, 2),
      (natOf p.standby, 1), (natOf p.rails, 0)]
  else if off = 0x08 then
    word64 [(p.lost.toNat, 32), (if s.flowForced then 100 else p.duty.toNat, 8), (natOf s.flowForced, 2),
      (natOf s.coolLostOpen, 1), (natOf p.coolOk, 0)]
  else if 0x100 ≤ off ∧ off < 0x300 then s.readTemp ((off - 0x100) / 8)
  else 0

def State.writePower (s : State) (off : Nat) (v : BitVec 64) : State :=
  if off = 0x08 then { s with pwr := { s.pwr with lost := clearCountBv v 63 32 s.pwr.lost } }
  else if 0x100 ≤ off ∧ off < 0x300 then
    let b := s.dieOf ((off - 0x100) / 8)
    let D := s.die b
    s.setDie b { D with tempMax := clearCountBv v 23 16 D.tempMax }
  else s

def wordAt (m : Memory) (off : Nat) : BitVec 64 := BitVec.ofNat 64 (ofLe (readBytes m off 8))

def State.readWarden (s : State) (off : Nat) : BitVec 64 :=
  if 0x1000 ≤ off ∧ off < 0x1040 then s.readClk (off - 0x1000)
  else if 0x1200 ≤ off ∧ off < 0x1400 then wordAt s.opt.stage (off - 0x1200)
  else if 0x1400 ≤ off ∧ off < 0x1600 then wordAt s.opt.inForce (off - 0x1400)
  else if 0x2000 ≤ off ∧ off < 0x3000 then s.readAlm (off - 0x2000)
  else if 0x3000 ≤ off ∧ off < 0x3020 then s.readSeal (off - 0x3000)
  else if 0x4000 ≤ off ∧ off < 0x5000 then
    let e := Table.get ⟨0, 0⟩ s.wseal.log ((off - 0x4000) / 16)
    if off % 16 = 0 then e.beat else e.word
  else if 0x6000 ≤ off ∧ off < 0x7000 then s.readFuse (off - 0x6000)
  else if 0x7000 ≤ off ∧ off < 0x8000 then s.readPower (off - 0x7000)
  else 0

/-- Some die beside the warden has its rails on: with none, and before they ramp, only the I3C target answers (R465,
R469). -/
def State.diesUp (s : State) : Bool := s.pwr.rails && (List.range 61).any (fun b => !(s.die b).railsOff)

def State.writeWarden (s : State) (off : Nat) (v : BitVec 64) : State :=
  if off = 0x1010 then { s with clk := { s.clk with lost := clearBits s.clk.lost v 0x8000000000000000 } }
  else if off = 0x1020 then s.optCommit v
  else if 0x1200 ≤ off ∧ off < 0x1400 then
    { s with opt := { s.opt with stage := writeBytes s.opt.stage (off - 0x1200) (leBytes 8 v.toNat) } }
  else if 0x2000 ≤ off ∧ off < 0x3000 then s.writeAlm (off - 0x2000) v
  else if 0x7000 ≤ off ∧ off < 0x8000 then s.writePower (off - 0x7000) v
  else s

/-! ## Compute dies (R63, R165, R324) -/

def tileRegBase : Nat := 0x100000
def tileRegEnd : Nat := 0x190000

def State.readCd (s : State) (d off : Nat) : BitVec 64 :=
  if tileRegBase ≤ off ∧ off < tileRegEnd then
    s.readTileReg d ((off - tileRegBase) / 0x1000) ((off - tileRegBase) % 0x1000)
  else if off = 0x8000 then (s.almOf d).now
  else if off = 0x8008 then s.stampAt d
  else if off = 0x8010 then (s.almOf d).season.setWidth 64
  else 0

def State.writeCd (s : State) (d off : Nat) (v : BitVec 64) : State :=
  if tileRegBase ≤ off ∧ off < tileRegEnd then
    let t := (off - tileRegBase) / 0x1000
    let o := (off - tileRegBase) % 0x1000
    if o = 0 then s.streamCtrl d t v else s.writeTileReg d t o v
  else s

/-! ## Any register -/

/-- The register at an 8-byte aligned offset of a control block. Offsets that name no register read 0. -/
def State.readReg (s : State) (block off : Nat) : BitVec 64 :=
  let b := s.dieOf block
  if errBase ≤ off then (s.die b).errs.read (off - errBase)
  else if b < 32 ∨ b = 62 ∨ b = 63 then s.readCd b off
  else if b < 48 then s.readMd (b - 32) off
  else if b < 56 then s.readLd (b - 48) off
  else if b < 60 then s.readFd (b - 56) off
  else if b = 60 then s.readSteward off
  else s.readWarden off

def State.writeReg (s : State) (block off : Nat) (v : BitVec 64) : State :=
  let b := s.dieOf block
  if errBase ≤ off then s.writeErr b (off - errBase) v
  else if b < 32 ∨ b = 62 ∨ b = 63 then s.writeCd b off v
  else if b < 48 then s.writeMd (b - 32) off v
  else if b < 56 then s.writeLd (b - 48) off v
  else if b < 60 then s.writeFd (b - 56) off v
  else if b = 60 then s.writeSteward off v
  else s.writeWarden off v

/-- A write that R64, R94 or R165 forbids the runtime in the stream's present state (R346). -/
def State.regForbidden (s : State) (block off : Nat) : Bool :=
  let b := s.dieOf block
  (b < 32 || b == 62 || b == 63) && decide (tileRegBase ≤ off) && decide (off < tileRegEnd)
    && (s.tile b ((off - tileRegBase) / 0x1000)).writeForbidden ((off - tileRegBase) % 0x1000)

/-- Bytes of registers, any number at any place. -/
def State.regBytes (s : State) (block off n : Nat) : List Byte :=
  let first := off / 8
  let last := (off + n + 7) / 8
  let l := (List.range (last - first)).flatMap (fun i => leBytes 8 (s.readReg block (8 * (first + i))).toNat)
  (l.drop (off % 8)).take n

/-- Whole aligned registers written in ascending order; a write of less is an alignment error. -/
def State.regPut (s : State) (block off : Nat) (l : List Byte) : State × Option Nat :=
  if off % 8 ≠ 0 ∨ l.length % 8 ≠ 0 then (s, some 0x21)
  else ((wordsOf l).zipIdx.foldl (fun s e => s.writeReg block (off + 8 * e.2) e.1) s, none)

/-! ## Rows -/

/-- R11: a write to any register, by its address. One to an address of R28 that holds no register, or to a die that is
absent, changes nothing; one to an unmapped address is logged (R28). No write comes while the die rails are off
(R469). -/
def execRegisterWrite (addr : BitVec 48) (value : BitVec 64) (s : State) : Out :=
  if !s.diesUp then .next s
  else match s.locate addr.toNat with
  | .reg b off => if s.absent (s.dieOf b) then .next s else .next (s.writeReg b (off / 8 * 8) value)
  | .unmapped => .next (s.unmapped addr.toNat)
  | _ => .next s

def execPErrTailWrite (b : Fin 64) (value : BitVec 64) (s : State) : Out :=
  .next (if s.diesUp then s.errTail (s.dieOf b.val) value else s)

def execPErrAck (b : Fin 64) (value : BitVec 64) (s : State) : Out :=
  .next (if s.diesUp then s.errAck (s.dieOf b.val) value else s)

end Sys2Proof.Machine
end

