-- ==== Sys2Proof/Machine/Packets.lean ====
section
/-! DEFINITION. Remote requests at their destination and their responses at the requester (R269, R282, R284), and
sync-flag increments as they arrive (R152). -/
namespace Sys2Proof.Machine

/-! ## Device-local accesses from elsewhere -/

/-- As an engine's piece, but for a register, which is read and written in place; the next is read at a later moment. -/
def State.localPiece (s : State) (a n : Nat) : PieceRead :=
  match s.locate a with
  | .reg b off => if s.gone a then s.readPiece a n else (s.moment, .inl (s.regBytes b off n))
  | _ => s.readPiece a n

/-- A register is written in whole words; another write of one is an alignment error of its die's. -/
def State.localPut (s : State) (a : Nat) (l : List Byte) : State × Option (Nat × Nat) :=
  match s.locate a with
  | .reg b off =>
    if s.gone a then s.writePiece a l
    else
      match s.regPut b off l with
      | (s, none) => (s, none)
      | (s, some c) => (s.logErr b { code := c, src := 0, addr := a }, some (c, 0))
  | _ => s.writePiece a l

/-- Bytes of any device-local range, up to the first error. -/
def State.localRead (s : State) (a n : Nat) : State × Got :=
  let (s, g) := s.readLoop State.localPiece [] (sectorsOf a n)
  let (s, data) := s.cross g.data
  (s, { g with data := data })

def State.localWrite (s : State) (a : Nat) (l : List Byte) : State × Option (Nat × Nat) :=
  let (s, l) := s.cross l
  s.writeLoop State.localPut l (sectorsOf a l.length)

/-! ## Requests (class REQ) -/

/-- ARG of an ERROR_RSP: the code, and the offset of the first byte that failed in [31:16]. -/
def errorArg (code off : Nat) : BitVec 64 := BitVec.ofNat 64 (off % 65536 * 65536 + code % 256)

def State.errorAt (s : State) (k : Packet) (code off : Nat) : State :=
  s.pushOut (s.answerPacket k 0x05 (errorArg code off) [])

/-- The word of a hold area's manifest that holds STATE. -/
def State.stateWord (s : State) (a : Nat) : Nat := s.holdArea a + 0x10

/-- ARG of the first and of the last write of a Harvest: they claim a hold area (R369) and ask the holder to check it
(R368; log entry 92). -/
def claimArg : BitVec 64 := 2
def checkArg : BitVec 64 := 1

/-- The hold area that a Harvest's first write claims. -/
def State.claimed (s : State) (k : Packet) : Option Nat :=
  if k.arg = claimArg then [0, 1].find? (fun a => s.holdArea a == k.addr.toNat) else none

/-- A write that has landed: an area is claimed, or a check asked for, which is kept until HARVEST_TALLY_CHECK has its
verdict. -/
def State.asksHolder (s : State) (k : Packet) : State :=
  let h := s.hrv
  match s.claimed k with
  | some a => { s with hrv := { h with coming := h.coming.filter (fun x => x != a) ++ [a] } }
  | none =>
    if k.arg = checkArg ∧ [0, 1].any (fun a => s.stateWord a == k.addr.toNat) then
      { s with hrv := { h with checks := h.checks ++ [k] } }
    else s

/-- The Harvest claims the area that a drain is reading: it has to wait (R372). -/
def State.mustWait (s : State) (k : Packet) : Bool := s.draining && s.claimed k == some s.hrv.drain

def execWrite (k : Packet) (s : State) : Out :=
  match s.takePacket k 0x01 with
  | none => .next s
  | some s =>
    if s.mustWait k then .next (s.errorAt k waitCode 0)
    else
      match s.localWrite k.addr.toNat k.data with
      | (s, none) => .next ((s.asksHolder k).pushOut (s.answerPacket k 0x04 0 []))
      | (s, some (code, off)) => .next (s.errorAt k code off)

/-- ARG holds the bytes to read, 4,096 at most. -/
def execRead (k : Packet) (s : State) : Out :=
  match s.takePacket k 0x02 with
  | none => .next s
  | some s =>
    let (s, g) := s.localRead k.addr.toNat (min 4096 k.arg.toNat)
    match g.err with
    | none => .next (s.pushOut (s.answerPacket k 0x03 0 g.data))
    | some (code, off) => .next (s.errorAt k code off)

/-- A SIGNAL's ARG is its R152 descriptor and ADDR[15:0] its count; the answer goes back once the increment has
landed. A descriptor that names no flag is logged by the steward (log entry 127). -/
def execSignalPacket (k : Packet) (s : State) : Out :=
  match s.takePacket k 0x06 with
  | none => .next s
  | some s =>
    if sigBad k.arg then
      .next ((s.logErr blkSteward { code := 0x24, src := 0, addr := k.arg.toNat }).errorAt k 0x24 0)
    else
      .next { s with fabric := { s.fabric with sigs := s.fabric.sigs ++
        [⟨none, sigDie k.arg, sigTile k.arg, k.arg.getLsbD 26, bits k.arg 5 0, bits k.addr 15 0, some k⟩] } }

def Sig.is (x : Sig) (d t : Nat) (ctx : Bool) (flag count : Nat) : Bool :=
  x.d == d && x.t == t && x.ctx == ctx && x.flag == flag && x.count == count

/-- An increment is over: acknowledged, or answered with an error code. -/
def State.sigAnswer (s : State) (x : Sig) (code : Nat) : State :=
  let s := match x.who with
    | some who => if code = 0 then s.respond who [] 0 false else s.respond who (offsetBytes 0) code false
    | none => s
  match x.answer with
  | some k => if code = 0 then s.pushOut (s.answerPacket k 0x04 0 []) else s.errorAt k code 0
  | none => s

/-- R152: an increment on its way lands in a cycle of the tile in the context's bank, active or not, behind an FSET of
that cycle (R150), and is acknowledged. One that fails because its die is absent is logged at the memory die before it
as R19 logs (log entry 126) and answered with an error. -/
def execFlagIncrement (d : Fin 32) (t : Fin 144) (ctx : Bool) (flag : Fin 64) (count : Timed (BitVec 16))
    (s : State) : Out :=
  let c := count.cycle
  match s.fabric.sigs.find? (fun x => x.is d.val t.val ctx flag.val count.item.toNat) with
  | none => .next s
  | some x =>
    let off : State := { s with fabric := { s.fabric with sigs := s.fabric.sigs.erase x } }
    if s.absent d.val then
      .next ((off.logErr (memAt (d.val / 8) (t.val % 4)) { code := 0x50, src := 15, unit := d.val }).sigAnswer x 0x50)
    else if s.reached d.val t.val c then
      let s := off.land d.val t.val c
      let T := (s.tile d.val t.val).addPend 0 (c + 1) (.flagInc ctx flag.val count.item.toNat)
      .next ((s.setTile d.val t.val T).sigAnswer x 0)
    else .next s

/-! ## Responses (class RSP) -/

/-- A response completes the request that waits in its slot, if that is still the same one (R282). -/
def State.answered (s : State) (k : Packet) (data : List Byte) (code : Nat) : State :=
  let i := slotOfId k.id
  let r := s.rem i
  if r.busy.isSome ∧ k.gen.toNat = r.gen then s.finishRemote i data code else s

def execReadRsp (k : Packet) (s : State) : Out :=
  match s.takePacket k 0x03 with
  | none => .next s
  | some s => .next (s.answered k k.data 0)

/-- An acknowledgement of a Rotation's packet goes to the ROTATE, a holder's verdict to the Harvest. -/
def execWriteAck (k : Packet) (s : State) : Out :=
  match s.takePacket k 0x04 with
  | none => .next s
  | some s =>
    .next (if k.tag = tagRot then s.rotAnswer k
      else if k.tag = tagHarvest then s.stewardAck (harvestId k.addr.toNat) 0 []
      else s.answered k [] 0)

/-- The code goes to the requester, or ends the collective or Rotation that the packet belonged to (R276, R295,
R301). -/
def execErrorRsp (k : Packet) (s : State) : Out :=
  match s.takePacket k 0x05 with
  | none => .next s
  | some s =>
    let code := bits k.arg 7 0
    if k.tag = tagColl then .next (s.collFail (k.id.toNat % 256) (if code = 0x64 then 3 else 4) code)
    else if k.tag = tagRot then .next (s.rotAnswer k)
    else if k.tag = tagHarvest then .next (s.stewardAck (harvestId k.addr.toNat) code (offsetBytes (bits k.arg 31 16)))
    else .next (s.answered k (offsetBytes (bits k.arg 31 16)) code)

end Sys2Proof.Machine
end

