-- ==== Sys2Proof/Machine/AccessResp.lean ====
section
/-! DEFINITION. Responses to a tile's requests (R116, R148, R206), and requests from the mesh at a tile's SRAM
(R147, R149). -/
namespace Sys2Proof.Machine

/-! ## Responses -/

def Tile.setSeg (T : Tile) (o : AccOp) (i : Nat) (f : Seg → Seg) : Tile :=
  T.putOp { o with segs := updAt o.segs i f }

def Tile.dropSlot (T : Tile) (k : Nat) : Tile :=
  let T : Tile := { T with slots := Table.erase T.slots k }
  if T.aborting ∧ T.slots.isEmpty then { T with stream := .idle, aborting := false } else T

/-- The last request of an instruction is over in cycle `c`: a load delivers its blocks, or the instruction
faults. -/
def State.opSettled (s : State) (d t c : Nat) (count : BitVec 64) : State :=
  let T := s.tile d t
  match T.ops.find? (fun o => o.count == count && !o.held) with
  | none => s
  | some o =>
    if !o.settled then s
    else
      match o.worst with
      | some (code, e, f, a) => s.accFault d t o code e f a
      | none =>
        if wOpc o.word = 0 then s.setTile d t (T.deliver o (max o.due (c + 1)))
        else s.setTile d t (T.putOp { o with due := max o.due c })

/-- The same for an error response that reaches the slot of a cancelled instruction. -/
def State.nestedFault (s : State) (d t : Nat) (u : SlotUse) (code off : Nat) : State :=
  s.nestedAt d t u.count code (u.addr + BitVec.ofNat 64 off)

/-- A read half of a copy has arrived in cycle `c`: its bytes go into the own SRAM behind what issues in that cycle
(R86), or out again on the same slot. -/
def State.copyOn (s : State) (d t k c : Nat) (u : SlotUse) (o : AccOp) (g : Seg) (data : List Byte) : State :=
  let T := s.tile d t
  match placeOff (s.placeOf d t g.dst) with
  | some off =>
    let T := (T.addPend u.count c (.sram off data)).setSeg o u.seg (fun g => { g with state := .done })
    s.setTile d t (T.dropSlot k)
  | none =>
    let T := T.setSeg o u.seg (fun g => { g with state := .written k })
    let w : SlotUse := { s.slotOf o u.seg 1 g.dst g.len data none u.made with stage := 2 }
    let s := { s with fabric := { s.fabric with issued := s.fabric.issued + 1 } }
    s.setTile d t { T with slots := putSlot T.slots k w }

/-- A response that is no RETRY reaches its slot in cycle `c`: the slot is freed, and data or error go to the
instruction. A write that fails leaves its instruction complete (R117). A cancelled instruction keeps nothing. -/
def State.slotDone (s : State) (d t k c : Nat) (u : SlotUse) (data : List Byte) (code : Nat) : State :=
  let T := s.tile d t
  let s' := s.setTile d t (T.dropSlot k)
  if u.seg = lostSeg then
    (if u.kind = 2 ∧ code ≠ 0 then s'.nestedFault d t u code (ofLe data) else s').pump d t c
  else
    match T.ops.find? (fun o => o.count == u.count && !o.held) with
    | none => s'.pump d t c
    | some o =>
      match o.segs[u.seg]? with
      | none => s'.pump d t c
      | some g =>
        let s :=
          if u.kind ≠ 2 then s'.setTile d t ((s'.tile d t).setSeg o u.seg (fun g => { g with state := .done }))
          else if code ≠ 0 then
            s'.setTile d t ((s'.tile d t).setSeg o u.seg (fun g => { g with state := .failed code (ofLe data) }))
          else if wOpc o.word = 2 then s.copyOn d t k c u o g data
          else s'.setTile d t ((s'.tile d t).setSeg o u.seg (fun g => { g with state := .done, data := data }))
        (s.opSettled d t c u.count).pump d t c

def removeResp (x : Response) : List Response → List Response
  | [] => []
  | y :: l => if y = x then l else y :: removeResp x l

/-- A request for a factor store or a register of this device is served as it is answered. -/
def State.serveSlot (s : State) (u : SlotUse) (a : Nat) : State × List Byte × Nat :=
  if u.kind = 1 then
    match s.localWrite a (s.withHalf a u.half u.data) with
    | (s, none) => (s, [], 0)
    | (s, some (c, off)) => (s, offsetBytes off, c)
  else
    let (s, g) := s.localRead a u.len
    match g.err with
    | none => (s, g.data, 0)
    | some (c, off) => (s, offsetBytes off, c)

/-- What reaches a slot in cycle `c`: a response that waits for it, or the answer of a factor store or register of this
device. A RETRY leaves the request to be sent again, unless nobody waits for it any longer (R148, R206). -/
def State.slotAnswer (s : State) (d : Fin 32) (t : Fin 144) (slot c : Nat) (u : SlotUse) : State :=
  match s.fabric.resp.find? (fun r => r.who == .tile d t slot) with
  | some r =>
    let s := { s with fabric := { s.fabric with resp := removeResp r s.fabric.resp } }
    if !r.retry then s.slotDone d.val t.val slot c u r.data r.code
    else if (s.tile d.val t.val).aborting ∨ u.seg = lostSeg then s.slotDone d.val t.val slot c u [] 0
    else s.setStage (.tile d t slot) 3
  | none =>
    if u.kind = 6 ∨ u.stage ≠ 0 then s
    else
      match s.route u.addr with
      | .here a =>
        match s.locate a with
        | .store _ _ | .reg _ _ =>
          if s.inOrder d.val u then
            let (s, data, code) := s.serveSlot u a
            s.slotDone d.val t.val slot c u data code
          else s
        | _ => s
      | _ => s

/-- R148, R206: a response returns to a slot, after the cycle in which its request was made. -/
def execAccessResponse (d : Fin 32) (t : Fin 144) (slot : Timed Nat) (s : State) : Out :=
  match Table.find (s.tile d.val t.val).slots slot.item with
  | none => .next s
  | some u =>
    if u.made < slot.cycle then
      s.ownEvent d.val t.val slot.cycle (fun s => s.slotAnswer d t slot.item slot.cycle u)
    else .next s

/-- R206: sent again 256 MCLK cycles later with its original age, as the latest request of its die (R18). -/
def execRequestRetryResend (d : Fin 32) (t : Fin 144) (slot : Nat) (s : State) : Out :=
  let T := s.tile d.val t.val
  match Table.find T.slots slot with
  | none => .next s
  | some u =>
    if u.stage = 3 then
      let s : State := { s with fabric := { s.fabric with issued := s.fabric.issued + 1 } }
      .next (s.setTile d.val t.val { T with
        slots := putSlot T.slots slot { u with stage := 0, seq := s.fabric.issued - 1 } })
    else .next s

/-! ## Requests from the mesh -/

/-- R147, R149: the third port serves the request; a save area of a tile with catch crops on is closed. `bad` is the
offset at which SECDED finds a read past correction (R392). -/
def State.meshServe (s : State) (r : MemReq) (bad : Option Nat) : State :=
  let s := s.setStage r.who 1
  let a := r.addr.toNat
  if r.write then
    match s.localWrite a (s.withHalf a r.half r.data) with
    | (s, none) => s.respond r.who [] 0 false
    | (s, some (x, off)) => s.respond r.who (offsetBytes off) x false
  else
    let (s, g) := s.localRead a r.len
    match g.err, bad with
    | none, none => s.respond r.who g.data 0 false
    | none, some off =>
      let s := match s.locate a with
        | .sram d t _ => s.logErr d { code := 0x41, src := 0, unit := t, addr := a + off }
        | _ => s
      s.respond r.who (offsetBytes off) 0x41 false
    | some (x, off), _ => s.respond r.who (offsetBytes off) x false

/-- The request reaches the tile in a cycle of its clock; a running switch has come that far. -/
def execMeshSramRequest (d : Fin 32) (t : Fin 144) (x : MeshReq) (s : State) : Out :=
  let c := x.cycle
  let r := x.item
  if !s.requestIs r then .next s
  else
    match s.locate r.addr.toNat with
    | .sram d' t' _ =>
      if d' ≠ d.val ∨ t' ≠ t.val then .next s
      else s.ownEvent d.val t.val c (fun s =>
        (s.setTile d.val t.val ((s.tile d.val t.val).switchTo c)).meshServe r (x.bad.map (·.val)))
    | _ => .next s

end Sys2Proof.Machine
end

