-- ==== Sys2Proof/Machine/AlmOps.lean ====
section
/-! DEFINITION. The Almanac (R309-R327): beats, beat packets and their discipline, the master's reference,
and Seasons. -/
namespace Sys2Proof.Machine

/-! ## States (R316) -/

def almFree : BitVec 3 := 0
def almAcquire : BitVec 3 := 1
def almLocked : BitVec 3 := 2
def almHoldover : BitVec 3 := 3

def roleFollower : BitVec 2 := 0
def roleMaster : BitVec 2 := 1
def roleIsolated : BitVec 2 := 2

def State.setAlm (s : State) (a : Almanac) : State := { s with alm := a }

/-- Every die's copy. -/
def State.setCopies (s : State) (f : Nat → AlmCopy → AlmCopy) : State :=
  let l := (List.range 64).map (fun b => (b, f b (s.almOf b)))
  s.setAlm { s.alm with copies := l.filter (fun e => decide (e.2 ≠ AlmCopy.reset)) }

/-- A step or a Season reaches every die's copy, which counts its cycles from here. -/
def State.copyAlm (s : State) : State :=
  s.setCopies (fun _ x => { x with now := s.alm.now, season := s.alm.season, mark := s.free })

/-! ## Pending configuration (R323) -/

/-- A new ROLE (R312, R316): nothing is known of the reference yet, and the beat is at nominal frequency. -/
def Almanac.setRole (a : Almanac) (role : BitVec 2) : Almanac :=
  { a with
    role := role, state := if role = roleMaster then almAcquire else almFree
    adj := 0, refOk := false, ppsOk := false, ppsRun := 0, refSeen := false, lostLogged := false }

/-- A join (R316): a device that is not isolated goes to ACQUIRE, a master without a reference at nominal frequency. -/
def Almanac.join (a : Almanac) (season : BitVec 16) (gen : BitVec 8) : Almanac :=
  { a with
    season := season, gen := gen, joined := true, inBand := 0, sinceBeat := 0
    state := if a.role = roleIsolated then almFree else almAcquire
    adj := if a.role = roleFollower ∨ a.refOk then a.adj else 0 }

def Almanac.apply (a : Almanac) (p : AlmPending) : Almanac :=
  let a : Almanac := if p.set.getLsbD 0 then a.setRole p.role else a
  let a : Almanac := if p.set.getLsbD 1 then { a with parent := p.parent, children := p.children } else a
  let a : Almanac := if p.set.getLsbD 2 then { a with period := p.period } else a
  let a : Almanac := if p.set.getLsbD 3 then { a with diverge := p.diverge, miss := p.miss } else a
  if p.set.getLsbD 4 then a.join p.season p.gen else a

def Almanac.applyAll (a : Almanac) : Almanac :=
  { a.pend.foldl Almanac.apply a with pend := [] }

/-- R323: at a multiple of the SYNC_PERIOD in force, for commands that executed before it. -/
def execAlmCfgApply (s : State) : Out :=
  let a := s.alm
  if a.now.toNat % max 1 a.period.toNat = 0 then
    let due := a.pend.filter (fun p => decide (p.since < a.total))
    let rest := a.pend.filter (fun p => !decide (p.since < a.total))
    .next (s.setAlm { due.foldl Almanac.apply a with pend := rest }).copyAlm
  else .next s

/-! ## Beat packets (R314, R315) -/

/-- A BEAT packet for a child port is put to that port; one in RETRAIN holds it (R273). -/
def State.sendBeat (s : State) (child : Nat) (hops b depart : Nat) : State :=
  let d := dirOf child
  let k := s.newPacket (s.net.neighbour d) 0x20 s.alm.gen.toNat 0xFFFE (BitVec.ofNat 16 hops)
    (BitVec.ofNat 48 depart) (BitVec.ofNat 64 b) []
  let P := s.port child
  if (P.state == .up || P.state == .retrain) && P.role == 1 then
    s.enqueue child (6 + s.net.dateline d none false) (s.born (portLd child) k)
  else s

def State.sendBeats (s : State) (hops b depart : Nat) : State :=
  ((List.range 12).filter (fun c => s.alm.children.getLsbD c)).foldl
    (fun s c => s.sendBeat c hops b depart) s

/-- R314: once for every multiple of SYNC_PERIOD, after its boundary; a Season's first is SYNC_PERIOD (R317). -/
def execBeatSend (depart : BitVec 48) (s : State) : Out :=
  let a := s.alm
  let n := a.now.toNat
  let b := n - n % max 1 a.period.toNat
  if a.role = roleMaster ∧ s.net.coordValid ∧ b ≠ 0 ∧ b ≠ a.beatSent then
    .next ((s.setAlm { a with beatSent := b }).sendBeats 0 b depart.toNat)
  else .next s

/-- Offset of R315 in units of 1/4,096 ps. -/
def offset4096 (now phase b depart delay : Nat) : Int :=
  (((now : Int) - b) * 1000000 - depart - delay) * 4096 + phase * 1000000

/-- The nearest integer to a quotient; a tie goes to the larger. -/
def nearestQuot (a : Int) (b : Nat) : Int := (2 * a + b) / (2 * b : Nat)

def clampInt (lo hi n : Int) : Int := if n < lo then lo else if hi < n then hi else n

/-- Nothing on the device depends on the beat (R316): no stream runs, no command waits for a beat, no deadline
is armed. -/
def State.mayStep (s : State) : Bool :=
  !(s.tiles.any (fun e => e.2.isRunning))
    && s.sd.cmds.all (fun c => !c.execEn || c.stage == .running || c.stage == .ready)
    && !(s.sd.cmds.any (fun c =>
        c.stage == .running && ((c.op == 0x0701 && c.u 0x1C 4 % 2 == 1) || (c.op == 0x0501 && c.u 6 2 % 2 == 1))))

/-- The correction in ppb: in ACQUIRE toward the reference at the limit of 100 ppm, otherwise what spreads the offset
over the next SYNC_PERIOD within that limit (R315, R316). -/
def adjOf (state : BitVec 3) (off : Int) (period : Nat) : Int :=
  if state = almAcquire then (if 0 < off then -100000 else if off < 0 then 100000 else 0)
  else clampInt (-100000) 100000 (-(nearestQuot (off * 1000) (4096 * max 1 period)))

/-- STATE after an accepted packet (R316): HOLDOVER ends, a far offset ends LOCKED, and three offsets in the band in
succession end ACQUIRE. -/
def nextState (state : BitVec 3) (far : Bool) (inBand : Nat) : BitVec 3 :=
  if state = almHoldover then almAcquire
  else if state = almLocked then (if far then almAcquire else almLocked)
  else if 3 ≤ inBand then almLocked
  else state

/-- A packet accepted at the parent port in the beat `beat` disciplines this device's; a step takes up the beats that
have passed since. -/
def State.discipline (s : State) (p : Nat) (k : Packet) (beat phase : Nat) : State :=
  let a := s.alm
  let delay := (((s.port p).delay).getD 0).toNat
  let off := offset4096 beat phase k.arg.toNat k.addr.toNat delay
  let ps := clampInt (-(2 ^ 31)) (2 ^ 31 - 1) (nearestQuot off 4096)
  let steps := a.state == almAcquire && a.joined && s.mayStep
  let inBand := if !steps ∧ -40960000 ≤ off ∧ off ≤ 40960000 then a.inBand + 1 else 0
  let far := decide (off.natAbs > a.diverge.toNat * 10000 * 4096)
  let state := nextState a.state far inBand
  let diverges := a.state == almLocked && far
  let t := k.addr.toNat + delay
  let a : Almanac := { a with
    offset := BitVec.ofInt 32 ps, hops := BitVec.ofNat 8 k.tag.toNat, sinceBeat := 0, joined := false
    adj := BitVec.ofInt 32 (if steps then 0 else adjOf state off a.period.toNat)
    inBand := inBand
    state := state
    diverged := if diverges then satInc 0xFFFF a.diverged else a.diverged
    now := if steps then k.arg + BitVec.ofNat 64 (t / 1000000 + (a.now.toNat - beat)) else a.now
    phase := if steps then BitVec.ofNat 12 (t % 1000000 * 4096 / 1000000) else a.phase }
  let s := s.setAlm a
  let s := if steps then s.copyAlm else s
  let s := if diverges then s.logErr blkWarden { code := 0x73, src := 17, unit := p } else s
  if steps then s.logErr blkWarden { code := 0x74, src := 17, unit := p } else s

/-- R314-R316, R283: `phase` is the device's own at the arrival of the packet's one flit, in the beat in which it was
accepted, `depart` the time from its boundary of B to the departure of the packets it sends on. -/
def execBeat (p : Fin 12) (k : Packet) (phase : BitVec 12) (depart : BitVec 48) (s : State) : Out :=
  match s.net.arrived.find? (fun e => e.port == p.val && e.pkt == k && k.ptype == 0x20 && k.dest == s.net.coord) with
  | none => .next s
  | some e =>
    let s := s.freeBuffers p.val e.vc k
    let s := { s with net := { s.net with arrived := s.net.arrived.erase e } }
    let a := s.alm
    let lost (s : State) : State :=
      s.setAlm { s.alm with staleBeats := satInc 0xFFFF s.alm.staleBeats }
    if !s.fresh (portLd p.val) k ∨ s.genTest k ≠ .deliver then .next (lost (s.countStale (portLd p.val)))
    else if a.role = roleFollower ∧ a.state ≠ almFree ∧ a.parent.toNat = p.val then
      let s := s.discipline p.val k e.beat phase.toNat
      .next (s.sendBeats (k.tag.toNat + 1) k.arg.toNat depart.toNat)
    else .next (lost s)

/-- R316. -/
def execAlmSyncLost (s : State) : Out :=
  let a := s.alm
  if a.role = roleFollower ∧ (a.state = almAcquire ∨ a.state = almLocked)
      ∧ a.miss.toNat * a.period.toNat ≤ a.sinceBeat then
    let s := s.setAlm { a with state := almHoldover, syncLost := satInc 0xFFFF a.syncLost, inBand := 0 }
    .next (s.logErr blkWarden { code := 0x72, src := 17 })
  else .next s

/-! ## The master's reference (R313) -/

/-- After a reference the master goes to HOLDOVER at its last correction; without one ever, the beat is nominal. -/
def execAlmRefLost (s : State) : Out :=
  let a := s.alm
  if a.role ≠ roleMaster then .next s
  else if a.refOk then
    let s := s.setAlm { a with refOk := false, state := almHoldover, refLost := satInc 0xFFFF a.refLost }
    .next (s.logErr blkWarden { code := 0x70, src := 17 })
  else if !a.refSeen ∧ !a.lostLogged then
    let s := s.setAlm { a with state := almAcquire, adj := 0, lostLogged := true, refLost := satInc 0xFFFF a.refLost }
    .next (s.logErr blkWarden { code := 0x70, src := 17 })
  else .next s

def execAlmRefReturn (s : State) : Out :=
  let a := s.alm
  if a.role = roleMaster ∧ !a.refOk then
    .next (s.setAlm { a with
      refOk := true, refSeen := true, state := if a.state = almHoldover then almAcquire else a.state })
  else .next s

/-- Two edges 10⁷ ± 1 reference cycles apart validate PPS. With the reference, the master in ACQUIRE slews until an edge
falls on its boundary, and is LOCKED then (R313, R316). -/
def execAlmPpsEdge (e : PpsEdge) (s : State) : Out :=
  let a := s.alm
  if a.role ≠ roleMaster then .next s
  else
    let good := decide (9999999 ≤ e.refCycles) && decide (e.refCycles ≤ 10000001) && decide (1 ≤ a.ppsRun)
    let ok := a.ppsOk || good
    let a : Almanac := { a with ppsOk := ok, ppsRun := a.ppsRun + 1 }
    let phase := e.phase.toNat
    if a.refOk && ok && a.state == almAcquire then
      let off : Int := if phase < 2048 then phase else phase - 4096
      .next (s.setAlm { a with
        state := if phase = 0 then almLocked else almAcquire, adj := BitVec.ofInt 32 (adjOf almAcquire off 0) })
    else .next (s.setAlm a)

def execAlmPpsLost (s : State) : Out :=
  let a := s.alm
  if a.role = roleMaster ∧ a.ppsOk then
    .next ((s.setAlm { a with ppsOk := false, ppsRun := 0 }).logErr blkWarden { code := 0x71, src := 17 })
  else .next s

/-! ## Commands (R323) -/

def pendingOf (s : State) (c : Cmd) : AlmPending :=
  { since := s.alm.total, set := BitVec.ofNat 5 (c.u 0 4), role := BitVec.ofNat 2 (c.u 4 1)
    parent := BitVec.ofNat 4 (c.u 5 1), children := BitVec.ofNat 12 (c.u 6 2)
    period := BitVec.ofNat 12 (c.u 8 2), diverge := BitVec.ofNat 8 (c.u 0x0A 1), miss := BitVec.ofNat 4 (c.u 0x0B 1)
    season := BitVec.ofNat 16 (c.u 0x0C 2), gen := BitVec.ofNat 8 (c.u 0x0E 1) }

def execAlmCfg (cid : Nat) (s : State) : Out :=
  s.withCmd cid 0x0A01 (fun s c =>
    (s.setAlm { s.alm with pend := s.alm.pend ++ [pendingOf s c] }).reply c stOk s.stamp)

/-- R317: armed; SEASON_START_BOUNDARY completes it. -/
def execAlmSeasonStart (cid : Nat) (s : State) : Out :=
  s.withCmd cid 0x0A02 (fun s c =>
    let p : SeasonPending :=
      { cid := c.cid, start := BitVec.ofNat 64 (max (c.u 0 8) (s.alm.now.toNat + 1))
        season := BitVec.ofNat 16 (c.u 8 2), gen := BitVec.ofNat 8 (c.u 0x0A 1) }
    (s.setAlm { s.alm with seasons := s.alm.seasons ++ [p] }).running c)

/-- A tile's marks are cancelled: the beat that a WAITALM at the head of a side waits for, and the crop's return beat
with its drain limit. -/
def Tile.cancelMarks (T : Tile) : Tile :=
  let cancel (l : List QEntry) : List QEntry :=
    match l with
    | q :: rest => { q with dead := q.dead || isOp 5 2 q.word } :: rest
    | [] => []
  { T with
    eq := cancel T.eq, aq := cancel T.aq, retDead := T.retDead || (T.stream.open && T.active) }

/-- Early packets of the old Season are stale (R283). -/
def State.dropEarly (s : State) : State :=
  s.net.colls.foldl (fun s e =>
    let s := e.2.early.foldl (fun s x => s.countStale x.ld) s
    s.setColl e.1 { s.colls e.1 with early := [] }) s

/-- A Season begins (R317). -/
def State.enterSeason (s : State) (p : SeasonPending) : State :=
  let others := s.alm.seasons.filter (fun q => q.cid != p.cid)
  let s := s.endCmds (fun c => c.execEn && (c.stage == .held || c.stage == .accepted)) stSeason
  let s := s.endCmds (fun c => others.any (fun q => q.cid == c.cid)) stSeason
  let a : Almanac := { s.alm with season := p.season, now := 0, phase := 0, gen := p.gen, seasons := [], beatSent := 0 }
  let a := { a.applyAll with windows := [] }
  let s := (s.setAlm a).copyAlm
  let s := (s.mapTiles (fun _ T => T.cancelMarks)).dropEarly
  s.mark blkWarden 0 3

/-- R317, R318: at the boundary of START; a device that is not quiescent answers BUSY and changes nothing. -/
def execSeasonStartBoundary (s : State) : Out :=
  match s.alm.seasons.find? (fun p => decide (p.start.toNat ≤ s.alm.now.toNat)) with
  | none => .next s
  | some p =>
    match s.runningCmd p.cid with
    | none => .next (s.setAlm { s.alm with seasons := s.alm.seasons.filter (fun q => q.cid != p.cid) })
    | some c =>
      if s.quiescent then
        let s := s.enterSeason p
        .next (s.reply c stOk s.stamp)
      else
        let s := s.setAlm { s.alm with seasons := s.alm.seasons.filter (fun q => q.cid != p.cid) }
        .next (s.reply c stBusy s.stamp)

/-- R320, R406: a window opens at its start beat and is over at its end beat. -/
def execGleanWindowEdge (i : Nat) (s : State) : Out :=
  let a := s.alm
  match a.windows[i]? with
  | none => .next s
  | some w =>
    if w.stop.toNat ≤ a.now.toNat then
      .next (s.setAlm { a with windows := a.windows.eraseIdx i })
    else if w.start.toNat ≤ a.now.toNat then
      .next (s.setAlm { a with windows := updAt a.windows i (fun w => { w with isOpen := true }) })
    else .next s

end Sys2Proof.Machine
end

