-- ==== Sys2Proof/Machine/Fuse.lean ====
section
/-! DEFINITION. Sensing and blowing the fuses (R434-R437). -/
namespace Sys2Proof.Machine

/-! ## Sensing (R434) -/

/-- Identity and key-hash words: one that fails makes its slot or the identity not valid. -/
def guardedWord (w : Nat) : Bool := decide (w < 12) || (decide (17 ≤ w) && decide (w < 65))

/-- A word that fails in both copies takes its most restrictive value: not valid in word 12, all ones elsewhere. -/
def failedValue (w : Nat) : BitVec 32 := if w = 12 ∨ guardedWord w then 0 else 0xFFFFFFFF

/-- One word into its shadow. -/
def State.senseWord (s : State) (w : Nat) (r : FuseRead × FuseRead) : State :=
  let f := s.fuse
  let v0 := Table.get 0 f.copy0 w
  let v1 := Table.get 0 f.copy1 w
  let put (s : State) (v : BitVec 32) : State :=
    { s with fuse := { s.fuse with shadow := Table.set 0 s.fuse.shadow w v } }
  let count (s : State) : State := { s with fuse := { s.fuse with corr := satInc 0xFF s.fuse.corr } }
  let bad (s : State) : State := s.logErr blkWarden { code := 0xE3, src := 17, detail := w }
  match r with
  | (.failed, .failed) =>
    let s := put s (failedValue w)
    let s := { s with fuse := { s.fuse with
      failN := satInc 0xFF s.fuse.failN, faulted := true
      lostWords := if guardedWord w then s.fuse.lostWords ++ [w] else s.fuse.lostWords } }
    s.logErr blkWarden { code := 0xE4, src := 17, detail := w }
  | (.failed, _) => bad (count (put s v1))
  | (_, .failed) => bad (count (put s v0))
  | (.clean, .clean) => put s (v0 ||| v1)
  | _ => count (put s (v0 ||| v1))

/-- Every word; a word that `reads` does not give reads clean. -/
def State.senseFuses (s : State) (reads : List (FuseRead × FuseRead)) : State :=
  let s := { s with fuse := { s.fuse with
    shadow := [], corr := 0, failN := 0, faulted := false, lostWords := [], lockLogged := [] } }
  (List.range 96).foldl (fun s w => s.senseWord w (reads.getD w (.clean, .clean))) s

/-! ## Blowing (R437) -/

/-- What a word of one copy holds once bits are blown in it, of which only `took` take where its read-back is to
differ. -/
def blown (old v : BitVec 32) (miss : Option FuseMiss) (w : Nat) (second : Bool) : BitVec 32 :=
  match miss with
  | some m => if m.word = w ∧ m.second = second then old ||| (v &&& m.took) else old ||| v
  | none => old ||| v

/-- One word: copy 0, read back, copy 1, read back. A word that a valid bit guards must read as it was given, any other
as what it held with the new bits (R436, R437). Answers whether both read-backs are right. -/
def State.blowWord (s : State) (w : Nat) (v : BitVec 32) (miss : Option FuseMiss) : State × Bool :=
  let f := s.fuse
  let want (old : BitVec 32) : BitVec 32 := if guardedWord w then v else old ||| v
  let a := Table.get 0 f.copy0 w
  let b := Table.get 0 f.copy1 w
  let x := blown a v miss w false
  let s : State := { s with fuse := { f with copy0 := Table.set 0 f.copy0 w x } }
  if x ≠ want a then (s, false)
  else
    let y := blown b v miss w true
    ({ s with fuse := { s.fuse with copy1 := Table.set 0 f.copy1 w y } }, decide (y = want b))

/-- The words that have been written take effect (R437). -/
def State.shadowWords (s : State) (l : List (Nat × BitVec 32)) : State :=
  { s with fuse := { s.fuse with
    shadow := l.foldl (fun t e => Table.set 0 t e.1 (Table.get 0 t e.1 ||| e.2)) s.fuse.shadow } }

/-- A reset during a blow leaves the word at hand as it was, or blown in copy 0 or in both (R438). -/
def State.cutBlow (s : State) : State :=
  match s.fuse.job with
  | none => s
  | some j =>
    let (n, s) := s.take
    let f := s.fuse
    let left := Config.blowLeft n % 3
    match j.todo with
    | [] => { s with fuse := { f with job := none } }
    | (w, v) :: _ =>
      let set (on : Bool) (t : Table (BitVec 32)) : Table (BitVec 32) :=
        if on then Table.set 0 t w (Table.get 0 t w ||| v) else t
      { s with fuse := { f with
        job := none, copy0 := set (decide (1 ≤ left)) f.copy0, copy1 := set (decide (2 ≤ left)) f.copy1 } }

end Sys2Proof.Machine
end

