-- ==== Sys2Proof/Machine/Curve.lean ====
section
/-! DEFINITION. ECDSA over brainpoolP384r1 as the boot ROM verifies it (R439, R441). PRESUMED: the curve's
published parameters and the standard's byte order (log entry 12). -/
namespace Sys2Proof.Machine

def curveP : Nat :=
  0x8CB91E82A3386D280F5D6F7E50E641DF152F7109ED5456B412B1DA197FB71123ACD3A729901D1A71874700133107EC53
def curveA : Nat :=
  0x7BC382C63D8C150C3C72080ACE05AFA0C2BEA28E4FB22787139165EFBA91F90F8AA5814A503AD4EB04A8C7DD22CE2826
def curveB : Nat :=
  0x04A8C7DD22CE28268B39B55416F0447C2FB77DE107DCD2A62E880EA53EEB62D57CB4390295DBC9943AB78696FA504C11
def curveN : Nat :=
  0x8CB91E82A3386D280F5D6F7E50E641DF152F7109ED5456B31F166E6CAC0425A7CF3AB6AF6B7FC3103B883202E9046565
def curveG : Nat × Nat :=
  (0x1D1C64F068CF45FFA2A63A81B7C13F6B8847A3E77EF14FE3DB7FCAFE0CBD10E8E826E03436D646AAEF87B2E247D4AF1E,
   0x8ABE1D7520F9C2A45CB1EB8E95CFD55262B70B29FEEC5864E19C054FF99129280E4646217791811142820341263C5315)

/-- b to the power e modulo m; e below 2^384. -/
def modPow (b e m : Nat) : Nat :=
  ((List.range 384).foldl (fun (a : Nat × Nat) i =>
    (if e / 2 ^ i % 2 = 1 then a.1 * a.2 % m else a.1, a.2 * a.2 % m)) (1 % m, b % m)).1

def modInv (a m : Nat) : Nat := modPow a (m - 2) m

def subMod (a b : Nat) : Nat := (a + curveP - b % curveP) % curveP

/-- A point (X, Y, Z) of affine coordinates X / Z² and Y / Z³; Z = 0 at infinity. -/
structure CurvePt where
  x : Nat
  y : Nat
  z : Nat
  deriving DecidableEq, Repr

def CurvePt.infinity : CurvePt := ⟨1, 1, 0⟩

def CurvePt.double (p : CurvePt) : CurvePt :=
  if p.z = 0 then p
  else
    let yy := p.y * p.y % curveP
    let zz := p.z * p.z % curveP
    let s := 4 * p.x * yy % curveP
    let m := (3 * p.x * p.x + curveA * (zz * zz)) % curveP
    let x := subMod (m * m) (2 * s)
    ⟨x, subMod (m * subMod s x) (8 * (yy * yy)), 2 * p.y * p.z % curveP⟩

def CurvePt.add (p q : CurvePt) : CurvePt :=
  if p.z = 0 then q
  else if q.z = 0 then p
  else
    let pz := p.z * p.z % curveP
    let qz := q.z * q.z % curveP
    let u := p.x * qz % curveP
    let h := subMod (q.x * pz) u
    let t := p.y * (qz * q.z) % curveP
    let r := subMod (q.y * (pz * p.z)) t
    if h = 0 then (if r = 0 then p.double else .infinity)
    else
      let hh := h * h % curveP
      let v := u * hh % curveP
      let x := subMod (r * r) (hh * h + 2 * v)
      ⟨x, subMod (r * subMod v x) (t * (hh * h)), h * p.z * q.z % curveP⟩

/-- k times a point; k below 2^384. -/
def CurvePt.mul (k : Nat) (q : CurvePt) : CurvePt :=
  ((List.range 384).foldl (fun (a : CurvePt × CurvePt) i =>
    (if k / 2 ^ i % 2 = 1 then CurvePt.add a.1 a.2 else a.1, a.2.double)) (.infinity, q)).1

/-- An uncompressed public key that is a point of the curve. -/
def keyPoint (key : List Byte) : Option CurvePt :=
  let x := beNat ((key.drop 1).take 48)
  let y := beNat ((key.drop 49).take 48)
  if key.take 1 = [0x04] ∧ x < curveP ∧ y < curveP ∧ y * y % curveP = (x * x * x + curveA * x + curveB) % curveP then
    some ⟨x, y, 1⟩
  else none

/-- The signature (r, s) of the SHA-384 digest of a message holds under a key. -/
def ecdsaOk (key msg sig : List Byte) : Bool :=
  let r := beNat (sig.take 48)
  let t := beNat ((sig.drop 48).take 48)
  if r = 0 ∨ curveN ≤ r ∨ t = 0 ∨ curveN ≤ t then false
  else
    let e := beNat (sha384 msg)
    let w := modInv t curveN
    let p := CurvePt.add (CurvePt.mul (e * w % curveN) ⟨curveG.1, curveG.2, 1⟩)
      (CurvePt.mul (r * w % curveN) ((keyPoint key).getD .infinity))
    p.z != 0 && p.x * modInv (p.z * p.z) curveP % curveP % curveN == r

/-- A point's affine coordinates. -/
def CurvePt.affine (p : CurvePt) : Nat × Nat :=
  (p.x * modInv (p.z * p.z) curveP % curveP, p.y * modInv (p.z * p.z * p.z) curveP % curveP)

/-- An uncompressed public key (R439). -/
def pointKey (p : CurvePt) : List Byte := 0x04 :: (beBytes 48 p.affine.1 ++ beBytes 48 p.affine.2)

/-- The signature (r, s) of a message under a private key, with the number that it draws; none where the standard draws
another. -/
def signWith (key nonce : Nat) (msg : List Byte) : Option (List Byte) :=
  let k := nonce % (curveN - 1) + 1
  let r := (CurvePt.mul k ⟨curveG.1, curveG.2, 1⟩).affine.1 % curveN
  let t := modInv k curveN * (beNat (sha384 msg) + r * key) % curveN
  if r = 0 ∨ t = 0 then none else some (beBytes 48 r ++ beBytes 48 t)

/-- The first number that serves is taken. -/
def ecdsaSign (key : Nat) (nonce : Nat → Nat) (msg : List Byte) : List Byte :=
  ((List.range 64).findSome? (fun i => signWith key (nonce i) msg)).getD []

end Sys2Proof.Machine
end

