-- ==== Sys2Proof/Machine/MemCmds.lean ====
section
/-! DEFINITION. The memory commands (R223-R226). -/
namespace Sys2Proof.Machine

/-! ## MEM_MODE -/

/-- MD_MEM_CFG after a MEM_MODE that names the fields of `set` (R223, R228). -/
def memCfgSet (cfg : BitVec 32) (c : Cmd) : BitVec 32 :=
  let set := c.u 0 4
  let put (w : BitVec 32) (bit hi lo off : Nat) : BitVec 32 :=
    if set / 2 ^ bit % 2 = 1 then setBits w hi lo (c.u off 1) else w
  put (put (put (put (put (put cfg 0 0 0 4) 1 1 1 5) 2 2 2 6) 3 23 16 7) 4 15 8 8) 5 31 24 9

/-- Every memory die takes the fields, and every die's route tables the interleave. -/
def State.applyMemMode (s : State) (c : Cmd) : State :=
  let s := (List.range 16).foldl (fun s m =>
    let M := s.md m
    s.setMd m { M with cfg := memCfgSet M.cfg c }) s
  if c.u 0 4 % 2 = 1 then { s with fabric := { s.fabric with quadLocal := c.u 4 1 == 1 } } else s

/-- R223: a change of interleave is a route-table change (R25) and waits for ROUTE_TABLE_CHANGE. -/
def execMemMode (cid : Nat) (s : State) : Out :=
  s.withCmd cid 0x0104 (fun s c =>
    if c.u 0 4 % 2 = 1 then s.running c else (s.applyMemMode c).reply c stOk 0)

/-! ## HBM_REPAIR -/

def repairWord (x : HbmStack) (e : Nat × Bool) : BitVec 64 :=
  BitVec.ofNat 64 (natOf e.2 * 2 ^ 44 + min 15 (x.sparesLeft e.1) * 2 ^ 40 + e.1 * 1024)

/-- Every pending repair becomes permanent; each row keeps its contents under the sequence of R220 (R224). -/
def State.hardRepair (s : State) (k : Nat) : State :=
  let s := ((s.stk k).repairs.filter (fun e => !e.2)).foldl (fun s e => s.rereadRow k e.1) s
  s.setStk k { s.stk k with repairs := (s.stk k).repairs.map (fun e => (e.1, true)) }

/-- R224: the pending repairs, listed as they are or made permanent and then listed. -/
def execHbmRepair (cid : Nat) (s : State) : Out :=
  s.withCmd cid 0x0C04 (fun s c => s.oneDie c (fun s b =>
    let k := 2 * (b - 32) + c.u 0 1
    let x := s.stk k
    let pending := (x.repairs.filter (fun e => !e.2)).take 4096
    let hard := c.u 1 1 == 1
    let s := if hard then s.hardRepair k else s
    let x := s.stk k
    let (s, e) := s.devWrite (c.u 8 8)
      (bytesOfWords (pending.map (fun e => repairWord x (e.1, hard))))
    s.reply c (match e with
      | some (code, _) => stErr code
      | none => stOk) 0))

/-! ## HBM_MARGIN -/

/-- Stack that a command names with its die. -/
def State.namedStack (s : State) (c : Cmd) : Nat :=
  match c.targets with
  | b :: _ => 2 * (s.dieOf b - 32) + c.u 0 1
  | [] => c.u 0 1

/-- A stack is out of service: margining runs (R222). -/
def State.margining (s : State) : Bool := (List.range 32).any (fun k => (s.stk k).oos)

def State.setService (s : State) (k : Nat) (out : Bool) : State := s.setStk k { s.stk k with oos := out }

/-- R225: 2,176 records as the pass measured them. -/
def State.marginResult (s : State) (c : Cmd) (records : List (BitVec 32)) : State :=
  let l := (records ++ List.replicate (2176 - records.length) 0).take 2176
  let (s, e) := s.devWrite (c.u 8 8) (l.flatMap (fun r => leBytes 4 r.toNat))
  s.reply c (match e with
    | some (code, _) => stErr code
    | none => stOk) 0

/-- R222, R225: the pass begins, one at a time, and the stack is out of service until the command's next event, which
ends it with what was measured; the stack's contents survive. -/
def execHbmMargin (cid : Nat) (records : List (BitVec 32)) (s : State) : Out :=
  match s.runningCmd cid with
  | some c =>
    if c.op = 0x0C05 then .next ((s.setService (s.namedStack c) false).marginResult c records) else .next s
  | none => s.withCmd cid 0x0C05 (fun s c => s.oneDie c (fun s _ =>
      if s.margining then s else (s.setService (s.namedStack c) true).running c))

/-! ## ECC_INJECT -/

def MemDie.armed (M : MemDie) : Nat :=
  let n (x : HbmStack) : Nat := (x.sectors.filter (fun e => e.2.armed.isSome)).length
  n M.st0 + n M.st1

/-- R226: the sector's own next write is the first that is admitted after the command (log entry 141). -/
def execEccInject (cid : Nat) (s : State) : Out :=
  s.withCmd cid 0x0D01 (fun s c => s.oneDie c (fun s b =>
    if !s.diagOk b then s.reply c stMode 0
    else
      let m := b - 32
      let k := 2 * m + c.u 0 1
      let x := s.stk k
      let sec := c.u 8 8 / 64
      let v := x.sector sec
      if v.armed.isNone && decide (16 ≤ (s.md m).armed) then s.reply c stBusy 0
      else
        let x := x.setSector sec { v with armed := some ⟨c.u 1 1, c.u 2 1, c.u 3 1, (s.md m).nextSeq⟩ }
        (s.setStk k x).reply c stOk 0))

end Sys2Proof.Machine
end

