-- ==== Sys2Proof/Machine/NetCmds.lean ====
section
/-! DEFINITION. TORUS_CFG, ROUTE_SET and LINK_CTRL (R275, R277, R302). -/
namespace Sys2Proof.Machine

/-- The role and medium of a port change: a port that becomes disabled goes DOWN, unless it is FENCED (R268), one that
becomes standby leaves UP for STANDBY, and one that becomes active waits in STANDBY for the exchange of coordinates; a
port in RETRAIN comes back to STANDBY (R265). -/
def TorusPort.configure (P : TorusPort) (b : Nat) : TorusPort :=
  let role := b / 64
  let P : TorusPort := { P with role := BitVec.ofNat 2 role, medium := BitVec.ofNat 2 (b / 16) }
  if role = 0 then
    { P with state := if P.state = .fenced then .fenced else .down, replay := [], resend := 0, queue := [], rx := [] }
  else if role = 2 then
    { P with state := if P.state = .up then .standby else P.state, fromStandby := P.fromStandby || P.state == .retrain }
  else P

def State.applyTorusCfg (s : State) (c : Cmd) : State :=
  let set (i : Nat) : Bool := c.u 0 4 / 2 ^ i % 2 == 1
  let n := s.net
  let n : Net := if set 0 then { n with
    coordValid := c.u 4 4 / 2 ^ 16 % 2 == 1, coord := BitVec.ofNat 16 (c.u 4 4) } else n
  let n : Net := if set 1 then { n with geom := BitVec.ofNat 18 (c.u 8 4) } else n
  let n : Net := if set 2 then { n with
    job := BitVec.ofNat 64 (c.u 0x10 8), jobAddr := BitVec.ofNat 48 (c.u 0x18 8) } else n
  let n : Net := if set 4 then { n with
    lifetime := BitVec.ofNat 16 (c.u 0x2C 2), reqTimeout := BitVec.ofNat 16 (c.u 0x2E 2)
    auditPeriod := BitVec.ofNat 8 (c.u 0x30 1) } else n
  let s : State := { s with net := n }
  if set 3 then (List.range 12).foldl (fun s p => s.setPort p ((s.port p).configure (c.u (0x20 + p) 1))) s else s

/-- R302: with COORD, GEOM or PORTS a route-table change (R25), otherwise at once. -/
def execTorusCfg (cid : Nat) (s : State) : Out :=
  s.withCmd cid 0x0101 (fun s c =>
    if c.u 0 4 &&& 0xB ≠ 0 then s.running c else (s.applyTorusCfg c).reply c stOk 0)

/-- The detour table as the command's memory holds it; entries past ENTRIES are invalid. -/
def State.applyRouteSet (s : State) (c : Cmd) : State × Nat :=
  let n := c.u 8 1
  let (s, g) := s.devRead (c.u 0 8) (8 * n)
  match g.err with
  | some (code, _) => (s, stErr code)
  | none =>
    let t := (List.range n).foldl (fun t e =>
      Table.set 0 t e (setBits (BitVec.ofNat 64 (leField g.data (8 * e) 8)) 10 0 0)) ([] : Table (BitVec 64))
    ({ s with net := { s.net with detour := t } }, stOk)

/-- R275, R25. -/
def execRouteSet (cid : Nat) (s : State) : Out :=
  s.withCmd cid 0x0102 (fun s c => s.running c)

/-- What LINK_CTRL does to one port (R265, R268): 0 train, 1 retrain, 2 fence. -/
def State.linkAction (s : State) (action p : Nat) : State :=
  let P := s.port p
  let alive := (portLds p).all (fun l => !s.absent (blkLd l))
  if action = 0 then
    if (P.state = .down ∨ P.state = .fenced) ∧ P.role ≠ 0 ∧ alive then s.setPort p (P.fresh .training) else s
  else if action = 1 then
    if P.live then s.retrainPort p else s
  else s.fencePort p

def State.portStates (s : State) : Nat :=
  ((List.range 12).map (fun p => (s.port p).state.num * 16 ^ p)).sum

/-- R302. -/
def execLinkCtrl (cid : Nat) (s : State) : Out :=
  s.withCmd cid 0x0103 (fun s c =>
    let s := ((List.range 12).filter (fun p => c.u 0 2 / 2 ^ p % 2 == 1)).foldl
      (fun s p => s.linkAction (c.u 2 1) p) s
    s.reply c stOk (BitVec.ofNat 64 s.portStates))

end Sys2Proof.Machine
end

