-- ==== Sys2Proof/Machine/Route.lean ====
section
/-! DEFINITION. Errors of the die fabric (R19), and route-table changes (R25, R26, R375). -/
namespace Sys2Proof.Machine

/-! ## Fencing (R19) -/

/-- A request that a fenced edge held answers its requester with an error; a sync-flag increment is lost (R19, R152),
and no link die sends it on or waits for its answer. -/
def State.loseRequest (s : State) (who : Requester) : State :=
  let n := s.net
  let s : State := { s with net := { n with
    waiting := n.waiting.filter (fun w => w.who != who)
    remote := n.remote.map (fun e => (e.1, if e.2.busy = some who then { e.2 with busy := none } else e.2)) } }
  match who with
  | .agent _ _ => s.respond who (offsetBytes 0) 0x50 false
  | .tile d t k =>
    match Table.find (s.tile d.val t.val).slots k with
    | none => s
    | some u =>
      let f := s.fabric
      let s : State := { s with fabric := { f with
        resp := f.resp.filter (fun r => r.who != who), sigs := f.sigs.filter (fun x => x.who != some who) } }
      if u.stage ≤ 1 then (s.setStage who 1).respond who (offsetBytes 0) 0x50 false else s

/-- A torus packet that a fenced edge held is lost; the source of a request or of a collective's packet hears of it. -/
def State.losePacket (s : State) (k : Packet) : State :=
  match s.net.crossing.find? (fun x => x.pkt == k) with
  | none => s
  | some x =>
    let s := { s with net := { s.net with crossing := s.net.crossing.erase x } }
    match classOf k.ptype with
    | some 0 => if k.src = s.net.coord then s.finishRemote (slotOfId k.id) (offsetBytes 0) 0x50 else s.errorBack k 0x50
    | some 2 => s.errorBack k 0x50
    | _ => s

def State.loseHeld (s : State) (h : Held) : State :=
  match h with
  | .request who => s.loseRequest who
  | .packet k => s.losePacket k
  | .command cid b =>
    match s.cmd? cid with
    | some c => s.putCmd { c with cutOff := c.cutOff ++ [b.val] }
    | none => s

/-- An edge fenced at both ends: every path from now on avoids it, and what its buffers held is answered with errors.
UNIT of the entries is the block at the other end: R385 lets it name an edge and numbers none (DESIGN CHOICE, log
entry 124). -/
def State.fenceEdge (s : State) (e : Edge) (held : List Held) : State :=
  let lost := s.inPools e held
  let s : State := { s with fabric := { s.fabric with
    fenced := s.fabric.fenced ++ [e], retries := Table.set 0 s.fabric.retries (edgeKey e) 0 } }
  let s := s.logErr e.a.val { code := 0x50, src := 15, unit := e.b.val }
  let s := s.logErr e.b.val { code := 0x50, src := 15, unit := e.a.val }
  lost.foldl State.loseHeld s

/-- R19: the ninth failure of one flit fences the edge. -/
def execDieFabricFlit (e : Edge) (good : Bool) (held : List Held) (s : State) : Out :=
  let e := edgeSorted e
  let n := Table.get 0 s.fabric.retries (edgeKey e)
  if !s.edgeOpen e.a.val e.b.val then .next s
  else if good then .next { s with fabric := { s.fabric with retries := Table.set 0 s.fabric.retries (edgeKey e) 0 } }
  else if n < 8 then
    .next { s with fabric := { s.fabric with retries := Table.set 0 s.fabric.retries (edgeKey e) (n + 1) } }
  else .next (s.fenceEdge e held)

/-! ## Route tables (R25) -/

/-- A request that is on its way inside this device, or has been taken and not answered. -/
def State.inFlight (s : State) (u : SlotUse) : Bool :=
  decide (u.stage < 2) && (u.kind == 6 || (match s.route u.addr with
    | .here _ => true
    | _ => false))

/-- Nothing moves between the dies of this device. -/
def State.fabricDrained (s : State) : Bool :=
  s.tiles.all (fun e => e.2.slots.all (fun u => !s.inFlight u.2))
    && s.fabric.resp.isEmpty && s.fabric.sigs.isEmpty && s.net.crossing.isEmpty
    && s.mds.all (fun e => e.2.jobs.isEmpty && e.2.st0.banks.all (fun b => b.2.hold.isEmpty)
        && e.2.st1.banks.all (fun b => b.2.hold.isEmpty))

/-- No packet lies in a link die, in a port's buffers or between two link dies. -/
def State.linksDrained (s : State) : Bool :=
  let n := s.net
  n.out.isEmpty && n.waiting.isEmpty && n.arrived.isEmpty && n.parked.isEmpty && n.crossing.isEmpty
    && n.ports.all (fun e => (e.2.queue ++ e.2.replay).all (fun b => b.pkt.isNone))

/-- The sites' registers, by site number. -/
def State.site (s : State) (k : Nat) : BitVec 2 := if k = 0 then s.sites.s32 else s.sites.s33

def State.setSite (s : State) (k : Nat) (st : BitVec 2) (cd : BitVec 5) : State :=
  if k = 0 then { s with sites := { s.sites with s32 := st, s32cd := cd } }
  else { s with sites := { s.sites with s33 := st, s33cd := cd } }

/-- A link die's whole port and its half port go to FENCED (R20). -/
def State.fenceLd (s : State) (l : Nat) : State :=
  ((List.range 12).filter (fun p => (portLds p).contains l)).foldl (fun s p => s.fencePort p) s

/-- The tiles of a logical die are gone. -/
def State.dropTiles (s : State) (d : Nat) : State :=
  { s with
    tiles := s.tiles.filter (fun e => e.1 / 144 != d)
    fabric := { s.fabric with resp := s.fabric.resp.filter (fun r =>
      match r.who with
      | .tile d' _ _ => d'.val != d
      | _ => true) } }

/-- What runs on a die that is retired ends (R375). -/
def State.dropRunning (s : State) (b : Nat) : State :=
  let s := if 56 ≤ b ∧ b < 60 then s.setFd (b - 56) { s.fd (b - 56) with batch := none } else s
  s.endCmds (fun c => c.stage == .running && c.targets == [b]) stDown

/-- What retiring a die changes beside the route tables (R375, R374, R20, R222): a compute die's rails go off
(R455), a memory die's stacks are down, a link die's ports are fenced. -/
def State.retire (s : State) (b : Nat) : State :=
  let s := s.dropRunning b
  let s : State := { s with sd := { s.sd with condemned := s.sd.condemned.erase b } }
  let s := s.setDie b { s.die b with retired := true, railsOff := decide (b < 32) || (s.die b).railsOff }
  let s : State :=
    if b < 32 then
      let s := match s.siteOf b with
        | some k => s.setSite k 2 (BitVec.ofNat 5 b)
        | none => s
      { s with sites := { s.sites with retired := s.sites.retired ||| BitVec.ofNat 32 (2 ^ b) } }.dropTiles b
    else if b < 48 then
      let M := s.md (b - 32)
      s.setMd (b - 32) { M with st0 := { M.st0 with down := true }, st1 := { M.st1 with down := true } }
    else if b < 56 then s.fenceLd (b - 48)
    else s
  s.logErr blkWarden { code := 0x87, src := 17, unit := b }

/-- A fallow die takes a logical number and keeps its own error ring; its tiles start afresh (R26, R375). -/
def State.adopt (s : State) (k cd : Nat) : State :=
  let own := s.die (62 + k)
  let s := s.setSite k 1 (BitVec.ofNat 5 cd)
  let s : State := { s with
    sites := { s.sites with retired := s.sites.retired &&& ~~~BitVec.ofNat 32 (2 ^ cd) }
    wseal := { s.wseal with unhandled := s.wseal.unhandled.map (fun u => if u.1 = 62 + k then (cd, u.2) else u) } }
  let s := s.dropTiles cd
  let s := (s.setCd cd ComputeDie.reset).equalise cd
  (s.setDie cd { own with retired := false, railsOff := false, hotOff := false }).setDie (62 + k) Die.reset

/-- Why a site cannot be adopted (R375). -/
def State.adoptBars (s : State) (k cd : Nat) : Option Nat :=
  if s.site k = 2 ∨ (s.die (62 + k)).railsOff then some stDown
  else if !s.quiescent || s.site k != 0 || !s.sites.retired.getLsbD cd then some stBusy
  else none

/-- R375: `checkOk` is the outcome of the site's check. -/
def execSpareAdopt (cid : Nat) (checkOk : Bool) (s : State) : Out :=
  s.withCmd cid 0x0810 (fun s c =>
    let k := c.u 1 1
    match s.adoptBars k (c.u 0 1) with
    | some st => s.reply c st 0
    | none =>
      if checkOk then s.running c else (s.setSite k 2 0).reply c stDown 0)

/-- R375. -/
def execDieRetire (cid : Nat) (s : State) : Out := s.withCmd cid 0x0811 (fun s c => s.running c)

/-- Commands that change route tables; those of the link dies wait for the link dies only. -/
def fabricOps : List Nat := [0x0104, 0x0810, 0x0811]
def linkOps : List Nat := [0x0101, 0x0102]

def State.drainedFor (s : State) (op : Nat) : Bool := if fabricOps.contains op then s.fabricDrained else s.linksDrained

/-- The change that a command makes once the dies have drained, and its status. -/
def State.routeChange (s : State) (c : Cmd) : State × Nat :=
  if c.op = 0x0104 then (s.applyMemMode c, stOk)
  else if c.op = 0x0101 then (s.applyTorusCfg c, stOk)
  else if c.op = 0x0102 then s.applyRouteSet c
  else if c.op = 0x0811 then (s.retire (c.u 0 1), stOk)
  else
    match s.adoptBars (c.u 1 1) (c.u 0 1) with
    | some st => (s, st)
    | none => (s.adopt (c.u 1 1) (c.u 0 1), stOk)

/-- Beats for which a command has waited. -/
def State.waited (s : State) (c : Cmd) : Nat := s.alm.total - c.since

/-- R374: the runtime retires a die on its own account, as DIE_RETIRE does. -/
def State.runtimeRetires (s : State) : State :=
  match s.sd.condemned with
  | d :: _ => if s.fabricDrained then s.retire d else s
  | [] => s

/-- R25: the dies have drained within 4,096 beats. Where no command of that number is running, the change is the
runtime's own (R374). -/
def execRouteTableChange (cid : Nat) (s : State) : Out :=
  match s.runningCmd cid with
  | none => .next s.runtimeRetires
  | some c =>
    if (fabricOps ++ linkOps).contains c.op && s.drainedFor c.op && decide (s.waited c < 4096) then
      let (s, st) := s.routeChange c
      .next (s.reply c st 0)
    else .next s

/-- R25: BUSY, and the tables are not changed. -/
def execRouteDrainTimeout (cid : Nat) (s : State) : Out :=
  match s.runningCmd cid with
  | none => .next s
  | some c =>
    if (fabricOps ++ linkOps).contains c.op && decide (4096 ≤ s.waited c) then .next (s.reply c stBusy 0)
    else .next s

end Sys2Proof.Machine
end

