-- ==== Sys2Proof/Machine/Host.lean ====
section
/-! DEFINITION. The host interface (R330-R335, R353-R359, R443, R444): BAR0 registers, the windows BAR2 and BAR4,
link resets, and the UCIe modules behind it (R328, R329). -/
namespace Sys2Proof.Machine

/-- The steward has power and its endpoint is ready (R426 step 7); nothing else answers the node host. -/
def State.hostUp (s : State) : Bool := s.pwr.rails && !(s.die blkSteward).railsOff && !(s.die blkSteward).held

/-! ## Rings (R335, R357) -/

/-- R335: PROD of a doorbell, unless the ring is disabled. -/
def State.doorbell (s : State) (n : Nat) (v : BitVec 64) : State :=
  let r := s.ring n
  if r.en then s.setRing n { r with prod := bits v 17 0 % r.units } else s

def execSdDoorbell (ring : Fin 8) (value : BitVec 64) (s : State) : Out :=
  .next (if s.hostUp then s.doorbell ring.val value else s)

/-- SD_RING_CFG. While EN is 1 the sizes stand; setting EN starts the ring afresh (R335, R355). -/
def Ring.configure (r : Ring) (v : BitVec 64) : Ring :=
  let r : Ring := if r.en then r else { r with
    rqLog := BitVec.ofNat 5 (clampNat 8 16 (bits v 24 20)), cqLog := BitVec.ofNat 5 (clampNat 12 24 (bits v 12 8)) }
  let r : Ring := { r with irqAll := v.getLsbD 1 }
  if v.getLsbD 0 && !r.en then
    { r with en := true, head := 0, prod := 0, brk := false, fetchErr := false, passBrk := false
             rqTail := 0, rqPhase := true, rqHead := 0, rqUsed := 0, seq := 0 }
  else { r with en := v.getLsbD 0 }

def State.ringCfg (s : State) (n : Nat) (v : BitVec 64) : State := s.setRing n ((s.ring n).configure v)

/-- R335. -/
def execRingEnable (ring : Fin 8) (value : BitVec 64) (s : State) : Out :=
  .next (if s.hostUp then s.ringCfg ring.val value else s)

/-- Entries between the node host's HEAD and the tail of a queue of 2^log entries. -/
def usedFrom (head tail log : Nat) : Nat := (tail + 2 ^ log - head % 2 ^ log) % 2 ^ log

def Ring.read (r : Ring) (off : Nat) : BitVec 64 :=
  match off with
  | 0x00 => word64 [(r.cqBase.toNat, 12)]
  | 0x08 => word64 [(r.rqBase.toNat, 12)]
  | 0x10 => word64 [(r.rqLog.toNat, 20), (r.cqLog.toNat, 8), (natOf r.irqAll, 1), (natOf r.en, 0)]
  | 0x18 =>
    word64 [(r.head, 32), (r.outstanding % 65536, 16), (natOf r.brk, 2), (natOf r.fetchErr, 1),
      (natOf (!r.en && r.outstanding == 0), 0)]
  | 0x20 => r.rqHead.setWidth 64
  | 0x28 => r.seq.setWidth 64
  | _ => 0

def State.writeRing (s : State) (n off : Nat) (v : BitVec 64) : State :=
  let r := s.ring n
  match off with
  | 0x00 => if r.en then s else s.setRing n { r with cqBase := BitVec.ofNat 52 (bits v 63 12) }
  | 0x08 => if r.en then s else s.setRing n { r with rqBase := BitVec.ofNat 52 (bits v 63 12) }
  | 0x10 => s.ringCfg n v
  | 0x20 =>
    s.setRing n { r with
      rqHead := BitVec.ofNat 16 v.toNat, rqUsed := usedFrom (v.toNat % 65536) r.rqTail r.rqLog.toNat }
  | _ => s

/-! ## Boot (R353, R440, R441) -/

/-- STATE changes, and vector 9 says so (R330). -/
def State.setBoot (s : State) (st : Nat) : State :=
  if s.sd.boot = st then s else { s with sd := { s.sd with boot := st } }.raise 9

/-- A bundle's header (R440). -/
structure Bundle where
  images : Nat
  svn    : Nat
  slot   : Nat
  key    : List Byte
  sig    : List Byte
  /-- type, offset, length, digest of each image -/
  table  : List (Nat × Nat × Nat × List Byte)
  deriving DecidableEq, Repr

def bundleOf (b : List Byte) : Bundle :=
  let n := leField b 0x0C 4
  { images := n, svn := leField b 0x10 1, slot := leField b 0x11 1, key := (b.drop 0x18).take 97
    sig := (b.drop 0x480).take 96
    table := (List.range (min n 16)).map (fun i =>
      let e := (b.drop (0x80 + 64 * i)).take 64
      (leField e 0 1, leField e 4 4, leField e 8 4, (e.drop 16).take 48)) }

/-- MAGIC, FORMAT, LENGTH, the image table, SVN and SLOT are in order. -/
def bundleFormat (b : List Byte) : Bool :=
  let h := bundleOf b
  let ends := h.table.map (fun (e : Nat × Nat × Nat × List Byte) => (e.2.1, e.2.1 + e.2.2.1))
  leField b 0 4 == 0x4E444258 && leField b 4 2 == 1 && leField b 8 4 == b.length && decide (0x4E0 ≤ b.length)
    && decide (b.length ≤ 2 ^ 24) && decide (6 ≤ h.images) && decide (h.images ≤ 16) && decide (h.slot < 4)
    && decide (h.svn ≤ 64) && h.table.all (fun e => e.2.1 % 4096 == 0) && ends.all (fun e => decide (e.2 ≤ b.length))
    && apart (ends.filter (fun e => decide (e.1 < e.2)))
    && (List.range 6).all (fun t => (h.table.filter (fun e => e.1 == t)).length == 1)

/-- Bytes of KEY_HASH[k]. -/
def State.keyHash (s : State) (k : Nat) : List Byte :=
  (List.range 12).flatMap (fun i => leBytes 4 (s.fuseWord (17 + 12 * k + i)).toNat)

def State.slotUsable (s : State) (k : Nat) : Bool := s.slotValid k && !s.slotRevoked k

/-- R441: RESULT. -/
def State.verifyBundle (s : State) (b : List Byte) : Nat :=
  let h := bundleOf b
  if !bundleFormat b then 2
  else if !s.slotUsable h.slot then 4
  else if sha384 h.key != s.keyHash h.slot then 3
  else if (keyPoint h.key).isNone then 3
  else if !ecdsaOk h.key (b.take 0x480) h.sig then 3
  else if h.svn < s.svnMin then 4
  else if h.table.all (fun e => sha384 ((b.drop e.2.1).take e.2.2.1) == e.2.2.2) then 1
  else 3

/-- A failed load (R441, R419). -/
def State.loadFails (s : State) (result : Nat) : State :=
  let s : State := { s with
    sd := { s.sd with result := BitVec.ofNat 8 result, fails := satInc 0xFFFF s.sd.fails }
    clk := { s.clk with step := .failed } }
  s.setBoot 3

/-- These dies held in reset (R416, R419), or let go but for those whose PLL has not locked again. -/
def State.holdDies (s : State) (l : List Nat) : State := l.foldl (fun s b => s.setDie b { s.die b with held := true }) s

def State.letGo (s : State) : State :=
  allBlocks.foldl (fun s b =>
    s.setDie b { s.die b with held := s.clk.bypass.any (fun e => e.1 == b) && (s.die b).held }) s

/-- A write of SD_BOOT_CTRL. GO counts in BOOT, once the endpoint is there, and in FAILED; the
part then starts, up to POWER_UP_READY. -/
def State.bootCtrl (s : State) (v : BitVec 64) : State :=
  let s : State := { s with sd := { s.sd with bootLen := BitVec.ofNat 25 v.toNat } }
  if v.getLsbD 63 && (s.clk.step == .boot || s.clk.step == .failed) then
    let b := readBytes s.sd.staging 0 s.sd.bootLen.toNat
    let s := s.setBoot 1
    let result := s.verifyBundle b
    if result = 1 then
      let h := bundleOf b
      let digest (t : Nat) : BitVec 384 :=
        match h.table.find? (fun e => e.1 == t) with
        | some e => BitVec.ofNat 384 (ofLe e.2.2.2)
        | none => 0
      { s.letGo with
        sd := { s.sd with result := 1 }
        clk := { s.clk with step := .starting }
        fuse := { s.fuse with
          slot := BitVec.ofNat 2 h.slot, loaded := true, svn := BitVec.ofNat 8 h.svn, bundle := b.take 0x480
          digests := (List.range 6).map digest } }
    else (s.loadFails result).logErr blkWarden { code := 0xE5, src := 17, detail := result }
  else s

def execSdBootGo (value : BitVec 64) (s : State) : Out := .next (if s.hostUp then s.bootCtrl value else s)

/-! ## Command breakpoints (R354, R358) -/

def State.cbrkWrite (s : State) (v : BitVec 64) : State :=
  if !s.sd.hostDebug then s
  else
    let old := s.sd.cbrkCtrl
    let new := (clearBits (old &&& 0x10) v 0x10) ||| (v &&& 0xEB)
    let s : State := { s with sd := { s.sd with cbrkCtrl := new } }
    let n := bits new 7 5
    let r := s.ring n
    if v.getLsbD 2 && r.brk then s.setRing n { r with brk := false, passBrk := true } else s

def execCbrkResume (value : BitVec 64) (s : State) : Out := .next (if s.hostUp then s.cbrkWrite value else s)

/-! ## BAR0 (R355) -/

def State.readBar0 (s : State) (off : Nat) : BitVec 64 :=
  let d := s.sd
  if off = 0x00 then
    word64 [(d.evLost, 48), (natOf s.opt.fault, 7), (natOf d.hostDebug, 6), (d.mode, 4), (d.boot, 0)]
  else if off = 0x10 then word64 [(d.aper.toNat, 32)]
  else if off = 0x18 then word64 [(d.evqBase.toNat, 12)]
  else if off = 0x20 then word64 [(d.evqLog.toNat, 8), (natOf d.evqEn, 0)]
  else if off = 0x28 then d.evqHead.setWidth 64
  else if off = 0x40 then (if d.hostDebug then d.cbrkCtrl else 0)
  else if off = 0x48 then (if d.hostDebug then d.cbrkCount.setWidth 64 else 0)
  else if off = 0x50 then (if d.hostDebug then d.cbrkTag.setWidth 64 else 0)
  else if off = 0x80 then d.bootLen.setWidth 64
  else if off = 0x88 then word64 [(d.fails, 48), (d.result.toNat, 8)]
  else if 0x1000 ≤ off ∧ off < 0x1800 then (s.ring ((off - 0x1000) / 0x100)).read (off % 0x100)
  else 0

def State.writeBar0 (s : State) (off : Nat) (v : BitVec 64) : State :=
  let d := s.sd
  let put (d : Steward) : State := { s with sd := d }
  if off = 0x00 then put { d with evLost := clearCount v 63 48 d.evLost }
  else if off = 0x10 then put { d with aper := BitVec.ofNat 16 (bits v 47 32) }
  else if off = 0x18 then put { d with evqBase := BitVec.ofNat 52 (bits v 63 12) }
  else if off = 0x20 then
    put { d with evqLog := BitVec.ofNat 5 (clampNat 8 16 (bits v 12 8)), evqEn := v.getLsbD 0 }
  else if off = 0x28 then
    put { d with evqHead := BitVec.ofNat 16 v.toNat, evqUsed := usedFrom (v.toNat % 65536) d.evqTail d.evqLog.toNat }
  else if off = 0x40 then s.cbrkWrite v
  else if off = 0x48 then (if d.hostDebug then put { d with cbrkCount := BitVec.ofNat 32 v.toNat } else s)
  else if off = 0x50 then (if d.hostDebug then put { d with cbrkTag := BitVec.ofNat 32 v.toNat } else s)
  else if off = 0x80 then s.bootCtrl v
  else if 0x1000 ≤ off ∧ off < 0x1800 then s.writeRing ((off - 0x1000) / 0x100) (off % 0x100) v
  else if 0x2000 ≤ off ∧ off < 0x2040 then s.doorbell ((off - 0x2000) / 8) v
  else s

def stagingBase : Nat := 0x1000000

def State.barAnswer (s : State) (r : BarReply) : State := { s with sd := { s.sd with barReply := r } }

/-- Whole aligned registers of a write. -/
def wholeWords (off len : Nat) : Bool := off % 8 == 0 && len % 8 == 0

/-- A read of SD_HIF_STATUS that finds STATE READY opens BAR2 and BAR4 again (R331). -/
def State.reopen (s : State) (off : Nat) : State :=
  if off = 0 ∧ s.sd.boot = 2 then { s with sd := { s.sd with bars := true } } else s

def State.bar0 (s : State) (write : Bool) (off len : Nat) (l : List Byte) : State :=
  if stagingBase ≤ off then
    if write then
      if s.sd.boot = 0 ∨ s.sd.boot = 3 then
        { s with sd := { s.sd with staging := writeBytes s.sd.staging (off - stagingBase) l } }.barAnswer .done
      else s.barAnswer .done
    else
      s.barAnswer (.data (if s.sd.boot = 0 ∨ s.sd.boot = 3 then readBytes s.sd.staging (off - stagingBase) len
        else List.replicate len 0))
  else if write then
    if wholeWords off len then
      ((wordsOf l).zipIdx.foldl (fun s e => s.writeBar0 (off + 8 * e.2) e.1) s).barAnswer .done
    else s.barAnswer .unsupported
  else
    let all := (List.range ((off + len + 7) / 8 - off / 8)).flatMap (fun i =>
      leBytes 8 (s.readBar0 (8 * (off / 8 + i))).toNat)
    (s.reopen off).barAnswer (.data ((all.drop (off % 8)).take len))

/-! ## BAR2 and BAR4 (R333, R443, R444) -/

/-- HOST_MAP bits that an access to a control block meets. -/
def blockBits (write : Bool) (b : Nat) : List Nat :=
  if b < 32 ∨ 62 ≤ b then [if write then 5 else 6]
  else if write then
    if b < 48 then [7] else if b < 56 then [8] else if b < 60 then [9] else if b = 60 then [10] else [11]
  else if 60 ≤ b then [12]
  else []

def targetBits (write : Bool) : Target → List Nat
  | .hbm _ _ => [if write then 1 else 0]
  | .sram _ _ _ => [if write then 3 else 2]
  | .store _ _ => [4]
  | _ => []

def State.mapForbids (s : State) (l : List Nat) : Bool := l.any (fun i => s.hostMap.getLsbD i)

/-- A forbidden access reaches no die: a read completes with Completer Abort, a write is dropped (R444). -/
def State.deny (s : State) (write : Bool) (a : Nat) : State :=
  let s := s.logErr blkSteward { code := 0xE0, src := 18, addr := a }
  s.barAnswer (if write then .done else .completerAbort)

def State.barDone (s : State) : State := s.barAnswer .done

/-- What an access to a device address does once it is permitted. The steward logs every error that one meets (R384);
it has found an unmapped address itself. -/
def State.barAccess (s : State) (write : Bool) (a len : Nat) (l : List Byte) : State :=
  let failed (s : State) (code off : Nat) : State :=
    (if code = 0x20 then s else s.logErr blkSteward { code := code, src := 18, addr := a + off }).barAnswer .unsupported
  if write then
    match s.localWrite a l with
    | (s, none) => s.barDone
    | (s, some (code, off)) => failed s code off
  else
    let (s, g) := s.localRead a len
    match g.err with
    | none => s.barAnswer (.data g.data)
    | some (code, off) => failed s code off

/-- R333, R443, R444: bar 0 is BAR0, 1 BAR2, 2 BAR4. -/
def execHostBarAccess (bar : Fin 3) (write : Bool) (off : BitVec 34) (len : Nat) (data : List Byte) (s : State) : Out :=
  let o := off.toNat
  let last := o + (len - 1)
  if write && data.length != len then .next s
  else if !s.hostUp then .next (s.barAnswer (if write then .done else .unsupported))
  else if bar = 0 then .next (s.bar0 write (o % 0x2000000) len data)
  else if !(s.sd.bars && s.sd.boot == 2) then .next (s.barAnswer (if write then .done else .unsupported))
  else if bar = 1 then
    let a := 0x7F0000000000 + o % 2 ^ 30
    let ends := [o % 2 ^ 30 / 2 ^ 24, last % 2 ^ 30 / 2 ^ 24]
    if s.mapForbids (ends.flatMap (blockBits write)) then .next (s.deny write a)
    else .next (s.barAccess write a len data)
  else
    let a := s.sd.aper.toNat * 2 ^ 32 + o
    if s.mapForbids ([s.locate a, s.locate (a + (len - 1))].flatMap (targetBits write)) then .next (s.deny write a)
    else .next (s.barAccess write a len data)

/-! ## Link resets (R331) -/

/-- The host interface starts again: rings off, replies not written are discarded, BAR2 and BAR4 closed. -/
def State.hostReset (s : State) : State :=
  let d := s.sd
  { s with sd := { d with
    bars := false, cmds := d.cmds.map (fun c => { c with mute := true })
    rings := (List.range 8).foldl (fun t n =>
      Table.set Ring.reset t n { Table.get Ring.reset t n with en := false }) d.rings } }

def execPcieHostReset (s : State) : Out := .next s.hostReset

/-! ## UCIe (R328, R329) -/

/-- A write of a command is lost: those of a DMA_COPY or REG_WRITE that is not over are the steward's own (R24). -/
def Cmd.lose (c : Cmd) (lost : List (Nat × Nat)) : Cmd :=
  if c.op = 0x0401 ∨ c.op = 0x0106 then
    { c with lost := c.lost ++ (lost.filter (fun e => e.1 == c.cid)).map (fun e => e.2) }
  else c

/-- R329: the ninth failure of one frame takes the module down, and what it was writing is lost. -/
def execUcieFrame (m : Fin 9) (frame : UcieFrame) (s : State) : Out :=
  let n := Table.get 0 s.sd.modRetry m.val
  let put (s : State) (k : Nat) : State := { s with sd := { s.sd with modRetry := Table.set 0 s.sd.modRetry m.val k } }
  if s.module m.val ≠ 2 then .next s
  else if frame.good then .next (put s 0)
  else if n < 8 then
    let s := put s (n + 1)
    if m.val = 8 then .next s
    else
      let hub := 4 * (m.val / 2)
      let M := s.md hub
      .next (s.setMd hub { M with retries := satInc 0xFFFFFFFF M.retries })
  else
    let s := put s 0
    let s : State := { s with sd := { s.sd with
      modules := Table.set 0 s.sd.modules m.val 0, cmds := s.sd.cmds.map (fun c => c.lose frame.lost) } }
    .next (s.logErr blkSteward { code := 0x51, src := 16, unit := m.val })

end Sys2Proof.Machine
end

