-- ==== Sys2Proof/Machine/Steward.lean ====
section
/-! DEFINITION. The steward's own commands (R346-R352): registers, programs and streams, copies, modes. -/
namespace Sys2Proof.Machine

/-- RESULT of a command whose target may span several dies (R340). -/
def Cmd.count (c : Cmd) (n : Nat) : BitVec 64 := if c.targets.length ≤ 1 then 0 else BitVec.ofNat 64 n

/-- R342: RESULT is ALM_STAMP. -/
def execNopCommand (cid : Nat) (s : State) : Out := s.withCmd cid 0 (fun s c => s.reply c stOk (s.stampAt blkSteward))

/-! ## Registers (R346) -/

/-- The die behind a control block cannot be reached (R329, R340). A site in standby answers at its own block. -/
def State.regDown (s : State) (block : Nat) : Bool :=
  let b := s.dieOf block
  s.absent b || (block == 62 && s.sites.s32 == 2) || (block == 63 && s.sites.s33 == 2)
    || (match blockQuad b with
      | some q => !s.hubUp q
      | none => false)

/-- One entry: the state, its status, and whether it was written. -/
def State.writeEntry (s : State) (c : Cmd) (a : Nat) (v : BitVec 64) : State × Nat × Nat :=
  match s.locate a with
  | .reg b off =>
    if s.regDown b then (s, stDown, 0)
    else if s.regForbidden b off then (s, stBusy, 0)
    else (s.writeReg b off v, stOk, 1)
  | _ => (s.logErr blkSteward { code := 0x20, src := 0, icount := c.tag.toNat, addr := a }, stErr 0x20, 0)

/-- A write that a failed UCIe module has lost answers its command with this error (R329, log entry 134). -/
def lostWriteCode : Nat := 0x51

/-- The entries of a REG_WRITE in list order: the first status other than OK, and how many were written. -/
def State.writeEntries (s : State) (c : Cmd) : State × Nat × Nat :=
  (List.range (c.u 0 2)).foldl (fun (acc : State × Nat × Nat) i =>
    let (s, st, n) := acc
    let (s, st', k) :=
      if c.lost.contains i then (s, stErr lostWriteCode, 0)
      else s.writeEntry c (c.u (8 + 16 * i) 8) (BitVec.ofNat 64 (c.u (16 + 16 * i) 8))
    (s, if st = stOk then st' else st, n + k)) (s, stOk, 0)

/-- The reply with a status and a count. -/
def State.replyCount (x : State × Nat × Nat) (c : Cmd) : State := x.1.reply c x.2.1 (BitVec.ofNat 64 x.2.2)

def execRegWrite (cid : Nat) (s : State) : Out :=
  s.withCmd cid 0x0106 (fun s c => State.replyCount (s.writeEntries c) c)

def execRegRead (cid : Nat) (s : State) : Out :=
  s.withCmd cid 0x0107 (fun s c =>
    let a := c.u 0 8
    match s.locate a with
    | .reg b off => if s.regDown b then s.reply c stDown 0 else s.reply c stOk (s.readReg b off)
    | _ =>
      (s.logErr blkSteward { code := 0x20, src := 0, icount := c.tag.toNat, addr := a }).reply c (stErr 0x20) 0)

/-! ## Programs and streams (R347-R349) -/

/-- Tiles that TILES at an offset names. -/
def Cmd.tiles (c : Cmd) (off : Nat) : List Nat := (List.range 144).filter (fun t => c.u off 24 / 2 ^ t % 2 == 1)

/-- Each named tile of a die in turn: BUSY if one does not act, and how many did. -/
def State.eachTile (s : State) (d : Nat) (ts : List Nat) (f : State → Tile → Option Tile) : State × Nat × Nat :=
  ts.foldl (fun (acc : State × Nat × Nat) t =>
    let (s, st, n) := acc
    match f s (s.tile d t) with
    | some T => (s.setTile d t T, st, n + 1)
    | none => (s, stBusy, n)) (s, stOk, 0)

/-- Both contexts are at rest. -/
def Tile.loadable (T : Tile) : Bool :=
  (T.stream == .idle || T.stream == .halted) && !T.aborting && (T.crop == .empty || T.crop == .done)

def Tile.load (T : Tile) (base : Nat) (words : List (BitVec 64)) (e0 e1 : Option Nat) : Tile :=
  let imem := words.zipIdx.foldl (fun t e => Table.set 0 t (base + e.2) e.1) T.imem
  let T : Tile := { T with imem := imem }
  let T : Tile := match e0 with
    | some e => { T with ctx0 := { T.ctx0 with entry := BitVec.ofNat 14 e } }
    | none => T
  match e1 with
  | some e => { T with ctx1 := { T.ctx1 with entry := BitVec.ofNat 14 e } }
  | none => T

/-- PROG_LOAD on one die: the program is read once, and every named tile at rest takes it. -/
def State.loadDie (s : State) (c : Cmd) (d : Nat) : State × Nat × Nat :=
  let entry (k off : Nat) : Option Nat := if c.u 0x10 1 / 2 ^ k % 2 = 1 then some (c.u off 2) else none
  let (s, g) := s.devRead (c.u 0 8) (8 * c.u 0x0A 2)
  match g.err with
  | some (code, _) => (s, stErr code, 0)
  | none =>
    s.eachTile d (c.tiles 0x18) (fun _ T =>
      if T.loadable then some (T.load (c.u 8 2) (wordsOf g.data) (entry 0 0x0C) (entry 1 0x0E)) else none)

def execProgLoad (cid : Nat) (s : State) : Out :=
  s.withCmd cid 0x0201 (fun s c => State.replyCount (s.eachDie c (fun s d => s.loadDie c d)) c)

/-- The cycle in which the streams that one RUN starts on a die begin dispatch (R133): the first that every one of its
tiles can still take (DESIGN CHOICE, log entry 123). -/
def State.runCycle (s : State) (c : Cmd) (d : Nat) : Nat :=
  (c.tiles 8).foldl (fun m t => max m (max ((s.tile d t).times.now + 1) (s.tile d t).times.dispatch)) 0

/-- The tile as RUN_START starts it: entry point, S registers in list order, the loss scale last, then START. -/
def State.runTile (s : State) (c : Cmd) (d first : Nat) (T : Tile) : Tile :=
  let x := c.u 0 1 == 1
  let T : Tile :=
    if c.u 1 1 / 2 % 2 = 1 then T.setCtx x { T.ctx x with entry := BitVec.ofNat 14 (c.u 4 2) } else T
  let T := (List.range (c.u 3 1)).foldl (fun (T : Tile) i =>
    T.setS x (c.u (0x20 + 16 * i) 1) (BitVec.ofNat 64 (c.u (0x28 + 16 * i) 8))) T
  let T :=
    if c.u 1 1 % 2 = 1 then T.setS x (c.u 2 1) ((s.md (4 * (d / 8))).train.scale.setWidth 64) else T
  let T := T.startCtx x
  if x then T else { T with begins := some first }

/-- RUN_START on one die: every named tile that may start does, all of them from one cycle. -/
def State.runDie (s : State) (c : Cmd) (d : Nat) : State × Nat × Nat :=
  let first := s.runCycle c d
  s.eachTile d (c.tiles 8) (fun s T =>
    if T.mayStart (c.u 0 1 == 1) then some (s.runTile c d first T) else none)

def execRunStart (cid : Nat) (s : State) : Out :=
  s.withCmd cid 0x0301 (fun s c => State.replyCount (s.eachDie c (fun s d => s.runDie c d)) c)

/-- The write of CDT_STREAM_CTRL that ACTION stands for; VIEW and CTX keep their values. -/
def ctrlWord (T : Tile) (action : Nat) : BitVec 64 :=
  BitVec.ofNat 64 (2 ^ (if action = 0 then 1 else if action = 1 then 4 else if action = 2 then 2 else 3)
    + natOf T.regs.view * 128 + natOf T.regs.ctxSel * 32)

/-- RUN_CTRL on one die; the count is of the tiles in whose state the action has an effect. -/
def State.ctrlDie (s : State) (c : Cmd) (d : Nat) : State × Nat × Nat :=
  (c.tiles 8).foldl (fun (acc : State × Nat × Nat) t =>
    let (s, st, n) := acc
    let T := s.tile d t
    let w := ctrlWord T (c.u 0 1)
    (s.streamCtrl d t w, st, n + natOf (s.ctrlAct d t w != .none))) (s, stOk, 0)

def execRunCtrl (cid : Nat) (s : State) : Out :=
  s.withCmd cid 0x0302 (fun s c => State.replyCount (s.eachDie c (fun s d => s.ctrlDie c d)) c)

/-! ## RUN_ABORT (R349) -/

/-- A running COLL ends with ABORTED; its slot's generation advances and what is early for it is stale (R283). -/
def State.abortColl (s : State) (slot : Nat) : State :=
  match (s.colls slot).run with
  | none => s
  | some r =>
    let s := (s.colls slot).early.foldl (fun s e => s.countStale e.ld) s
    let x := s.colls slot
    let s := s.setColl slot { x with gen := nextGen x.gen, early := [] }
    match s.cmd? r.cid with
    | some c => s.endColl slot { r with status := 6, code := 0, ended := true } c
    | none => s.setColl slot { s.colls slot with run := none }

def State.abortRotate (s : State) : State :=
  match s.net.rot with
  | none => s
  | some r => { s with net := { s.net with rotGen := nextGen s.net.rotGen } }.endRotate r stAborted

/-- What RUN_ABORT ends: streams, batches, collectives and the Rotation. -/
def State.abortAll (s : State) : State :=
  let s := s.mapTiles (fun _ T => if T.stream = .idle then T else T.abort)
  let s := (List.range 4).foldl State.abortBatch s
  let s := (s.net.colls.map (fun e => e.1)).foldl State.abortColl s
  s.abortRotate

/-- The reply waits for a running UPDATE. -/
def execRunAbort (cid : Nat) (s : State) : Out :=
  s.withCmd cid 0x0304 (fun s c =>
    let s := s.abortAll
    if s.update.isSome then s.running c else s.reply c stOk 0)

/-! ## DMA_COPY (R350) -/

/-- Bytes that a copy writes before the first of its writes that was lost (R329), and the error if one was. -/
def Cmd.reaches (c : Cmd) (l : List Byte) (err : Option Nat) : List Byte × Option Nat :=
  let n := c.lost.foldl min l.length
  (l.take n, if n < l.length then some lostWriteCode else err)

/-- The copy: bytes moved before an error, and the error. -/
def State.dmaMove (s : State) (c : Cmd) (hostData : List Byte) : State × Nat × Option Nat :=
  let n := c.u 0x20 8
  let a := c.u 0x10 8
  let put (s : State) (dest : Nat) (l : List Byte) (err : Option Nat) : State × Nat × Option Nat :=
    let (l, err) := c.reaches l err
    match s.localWrite dest l with
    | (s, none) => (s, l.length, err)
    | (s, some (code, off)) => (s, off, some code)
  if c.u 0 1 = 0 then put s a hostData none
  else
    let (s, g) := s.localRead a n
    let (l, err) := match g.err with
      | none => (g.data, none)
      | some (code, off) => (g.data.take off, some code)
    if c.u 0 1 = 1 then (s.hostPut (c.u 8 8) l, l.length, err)
    else put s (c.u 0x18 8) l err

/-- `hostData` is what the node host's memory holds, for DIR 0. -/
def execDmaCopy (cid : Nat) (hostData : List Byte) (s : State) : Out :=
  s.withCmd cid 0x0401 (fun s c =>
    if c.u 0 1 = 0 ∧ hostData.length ≠ c.u 0x20 8 then s
    else
      match s.dmaMove c hostData with
      | (s, n, none) =>
        let s := if c.u 1 1 % 2 = 1 then s.cmdSignal blkSteward c (BitVec.ofNat 64 (c.u 0x28 8)) (c.u 0x30 2) else s
        s.reply c stOk (BitVec.ofNat 64 n)
      | (s, n, some code) => s.reply c (stErr code) (BitVec.ofNat 64 n))

/-! ## Modes (R345, R351) -/

/-- OPERATE and MAINTENANCE change places, with a mode mark (R399): code 2 entering, 3 leaving. -/
def State.setMode (s : State) (m : Nat) : State :=
  if s.sd.mode = m then s
  else { s with sd := { s.sd with mode := m } }.mark blkWarden (if m = 0 then 3 else 2) 2

def execMaintEnter (cid : Nat) (s : State) : Out :=
  s.withCmd cid 0x0C01 (fun s c =>
    if s.quiescent then (if s.sd.mode = 0 then s.setMode 1 else s).reply c stOk 0
    else s.reply c stBusy 0)

/-- Ports that carry flits: those that are trained. -/
def State.trained (s : State) : List Nat := (List.range 12).filter (fun p => (s.port p).live)

/-- The audit of every trained port, as CREDIT_AUDIT starts it (R280). -/
def State.auditAll (s : State) : State :=
  let s := s.trained.foldl State.queueAudit s
  { s with net := { s.net with unheard := s.trained } }

/-- Every port's audit has run, or the port is trained no longer. -/
def State.audited (s : State) : Bool := s.net.unheard.all (fun p => !(s.port p).live)

/-- Every tile's checking is on again, and the audits begin. -/
def State.checkAgain (s : State) : State :=
  (s.mapTiles (fun _ T => { T with regs := { T.regs with mxCtrl := T.regs.mxCtrl &&& 6 } })).auditAll

def State.leaveMaint (s : State) (c : Cmd) : State := (s.setMode 0).reply c stOk 0

/-- R351: checking is on again and the audits begin; the command ends, at its own next event, once they have run. -/
def execMaintExit (cid : Nat) (s : State) : Out :=
  match s.runningCmd cid with
  | some c => .next (if c.op = 0x0C02 ∧ s.audited then s.leaveMaint c else s)
  | none =>
    s.withCmd cid 0x0C02 (fun s c =>
      if s.sd.cmds.any (fun x => x.cid != c.cid && x.stage == .running && x.op / 256 == 0x0C) then s.reply c stBusy 0
      else
        let s := s.checkAgain
        if s.audited then s.leaveMaint c else s.running c)

/-- The reply is posted, then the reset begins. -/
def execMaintReset (cid : Nat) (s : State) : Out :=
  s.withCmd cid 0x0C03 (fun s c => (s.reply c stOk 0).wantWarm 2 0xFF)

/-! ## Debug (R352, R442) -/

/-- The debug lock level permits the command. -/
def State.debugAllowed (s : State) (host : Bool) : Bool :=
  s.debugLevel < 2 || (s.debugLevel == 2 && s.sd.mode == 1 && !host)

/-- A die leaves debug mode. -/
def State.leaveDebug (s : State) (b : Nat) : State :=
  let s := s.setDie b { s.die b with debug := false }
  s.mapTiles (fun k T =>
    if k / 144 = b then
      { T with regs := { T.regs with brkCtrl := 0, brkCount := 0, brkTag := 0, mxCtrl := T.regs.mxCtrl &&& 3 } }
    else T)

/-- The command breakpoints are gone. -/
def State.leaveHostDebug (s : State) : State :=
  { s with sd := { s.sd with hostDebug := false, cbrkCtrl := 0, cbrkCount := 0, cbrkTag := 0 } }

/-- DBG_MODE on one die: it enters or leaves debug mode, or the lock level denies it. -/
def State.debugDie (s : State) (c : Cmd) (on host : Bool) (b : Nat) : State × Nat × Nat :=
  if s.debugAllowed host then
    (if on then s.setDie b { s.die b with debug := true } else s.leaveDebug b, stOk, 1)
  else (s.logErr b { code := 0xE1, src := 0, icount := c.tag.toNat }, stMode, 0)

/-- The node host's own debug mode, where the command asks for it and the lock level permits it. -/
def State.debugHost (s : State) (on host : Bool) : State :=
  if host && s.debugAllowed host then
    if on then { s with sd := { s.sd with hostDebug := true } } else s.leaveHostDebug
  else s

def execDbgMode (cid : Nat) (s : State) : Out :=
  s.withCmd cid 0x0F01 (fun s c =>
    let on := c.u 0 1 == 1
    let host := c.u 1 1 == 1
    let (s, st, n) := s.eachDie c (fun s b => s.debugDie c on host b)
    (s.debugHost on host).reply c st (c.count n))

end Sys2Proof.Machine
end

