-- ==== Sys2Proof/Machine/Clocks.lean ====
section
/-! DEFINITION. Resets and what they reach (R416-R420, R424), start-up (R426, R427), clock losses (R414-R416). -/
namespace Sys2Proof.Machine

/-! ## What a die loses -/

/-- Bytes of the device's memory whose space is kept. -/
def State.keepMem (s : State) (keep : Nat → Bool) : State :=
  { s with mem := s.mem.filter (fun c => keep (c.1 / 2 ^ 36)) }

/-- Every request in a memory die's queues answers HBM_STACK_DOWN (R202). -/
def State.failQueues (s : State) (m : Nat) : State :=
  let M := s.md m
  let waits (x : HbmStack) : List Requester := x.banks.flatMap (fun b => b.2.hold.map (fun r => r.who))
  let who := M.jobs.map (fun j => j.who) ++ waits M.st0 ++ waits M.st1
  who.foldl (fun s w => s.respond w (offsetBytes 0) 0x45 false) s

/-- A stack without contents, to be trained: its soft repairs go with them. -/
def HbmStack.lost (x : HbmStack) : HbmStack :=
  { HbmStack.reset with
    down := true, temp := x.temp, level := x.level, hot := x.hot, scrub := x.scrub
    repairs := x.repairs.filter (fun e => e.2) }

/-- The contents of a memory die's stacks and its error state are lost (R202, R418). -/
def State.loseStacks (s : State) (m : Nat) : State :=
  let s := s.failQueues m
  let s := s.keepMem (fun k => !(k == 2 * m || k == 2 * m + 1))
  let M := s.md m
  s.setMd m { M with ue := 0, odecc := 0, ce := 0, first := 0, st0 := M.st0.lost, st1 := M.st1.lost, jobs := [] }

def TorusPort.down (P : TorusPort) : TorusPort := { P.fresh .down with queue := [] }

/-- The ports of a link die go DOWN, and what they hold is gone. -/
def State.downPorts (s : State) (l : Nat) : State :=
  let mine := (List.range 12).filter (fun p => (portLds p).contains l)
  let s := mine.foldl (fun s p => s.setPort p (s.port p).down) s
  { s with net := { s.net with
    arrived := s.net.arrived.filter (fun e => !mine.contains e.port)
    parked := s.net.parked.filter (fun e => !mine.contains e.1)
    crossing := s.net.crossing.filter (fun x => x.src != l && !mine.contains x.port) } }

/-- What a die holds is cleared: tiles, stacks, ports, lanes and local store. -/
def State.clearDie (s : State) (b : Nat) : State :=
  if b < 32 then
    let s := s.dropTiles b
    (s.setCd b { s.cd b with notify := [] }).equalise b
  else if b < 48 then (s.loseStacks (b - 32)).dropRunning b
  else if b < 56 then s.downPorts (b - 48)
  else if b < 60 then (s.keepMem (fun k => k != 64 + (b - 56))).dropRunning b
  else s

/-- Domain reset of one die (R418). -/
def State.domainReset (s : State) (b : Nat) : State := (s.clearDie b).leaveDebug b

/-- A stack is trained and written to zero, or has failed training and is DOWN (R202). -/
def HbmStack.train (x : HbmStack) (passes : Bool) : HbmStack := { x with trained := passes, down := !passes }

def State.trainMd (s : State) (m : Nat) (pass0 pass1 : Bool) : State :=
  let M := s.md m
  s.setMd m { M with st0 := M.st0.train pass0, st1 := M.st1.train pass1 }

/-! ## Warm reset (R418) -/

/-- Writes that a bank has admitted complete; its reads are gone (R219). -/
def State.flushBank (s : State) (k b : Nat) : State :=
  let q := (s.stk k).bank b
  let s := s.setStk k ((s.stk k).setBank b { q with queue := [], back := [], open? := none, served := 0 })
  s.serveList k b ((q.queue ++ q.back).filter (·.write))

def State.flushMd (s : State) (m : Nat) : State :=
  let s := [2 * m, 2 * m + 1].foldl (fun s k =>
    let numbers := (s.stk k).banks.map (fun e => e.1)
    let s := numbers.foldl (fun s b => s.setStk k ((s.stk k).setBank b { (s.stk k).bank b with hold := [] })) s
    numbers.foldl (fun s b => s.flushBank k b) s) s
  s.setMd m { s.md m with jobs := [] }

/-- A warm reset disarms every sector and ends margining (R226, R222). -/
def HbmStack.warm (x : HbmStack) : HbmStack :=
  { x with
    oos := false, recal := []
    sectors := (x.sectors.map (fun e => (e.1, { e.2 with armed := none }))).filter
      (fun e => decide (e.2 ≠ Sector.clean)) }

/-- Registers that a warm reset keeps, and the rest at their reset values. -/
def MemDie.warm (M : MemDie) : MemDie :=
  let t := M.train
  { M with
    delivered := 0, retries := 0, st0 := M.st0.warm, st1 := M.st1.warm
    train := { t with segDone := 0, last := 0, active := false } }

def Net.warm (n : Net) : Net :=
  { Net.reset with
    coordValid := n.coordValid, coord := n.coord, geom := n.geom, job := n.job, jobAddr := n.jobAddr
    lifetime := n.lifetime, reqTimeout := n.reqTimeout, auditPeriod := n.auditPeriod, detour := n.detour
    ports := (List.range 12).foldl (fun t p =>
      let P := Table.get TorusPort.reset n.ports p
      Table.set TorusPort.reset t p { TorusPort.reset with
        role := P.role, medium := P.medium, retrains := P.retrains }) [] }

/-- Every die leaves debug mode, its handler closes, a PLL out of lock is locked again. -/
def Die.warm (D : Die) : Die :=
  { D with debug := false, held := false, errs := { D.errs with handling := false, fatal := 0 } }

def isDetectHold (h : Nat) : Bool := decide (2000 ≤ h) && decide (h < 3000)

/-- The PLLs of the link dies, which nothing locks while their reference is lost (R411, R416). -/
def Clocks.refless (c : Clocks) : List (Nat × Nat) :=
  c.bypass.filter (fun e => e.2 == clockNum .lclk && c.almWas.isSome)

/-- Memory dies on bypass, which a reset locks again (R416). -/
def Clocks.relocked (c : Clocks) : List Nat :=
  ((c.bypass.map (·.1)).filter (fun b => decide (32 ≤ b) && decide (b < 48))).map (fun b => b - 32)

/-- A reset leaves what the segments of a running UPDATE write in an undefined mix of old and new bytes (R242). -/
def State.mixUpdate (s : State) : State :=
  match s.update with
  | none => s
  | some u =>
    if u.vote ≠ some 0 then s
    else
      let adam := (s.cmd? u.cid).any (fun c => c.u 8 1 == 1)
      s.mixMem (u.segs.flatMap (s.segSpans adam)) u.before s.mem

/-- What every warm reset clears and keeps. -/
def State.warmClear (s : State) : State :=
  let s := s.mixUpdate.cutStore.cutBlow
  let s := (List.range 16).foldl State.flushMd s
  let s := s.keepMem (fun k => decide (k < 64))
  let s := s.hostReset.leaveHostDebug
  let s : State := { s with
    tiles := [], dies := s.dies.map (fun e => (e.1, e.2.warm))
    mds := s.mds.map (fun e => (e.1, e.2.warm)), fds := s.fds.map (fun e => (e.1, { e.2 with batch := none }))
    fabric := { Fabric.reset with quadLocal := s.fabric.quadLocal }, update := none, net := s.net.warm
    sd := { s.sd with
      cmds := [], modules := [], modRetry := [], gpio := false, condemned := []
      rings := s.sd.rings.map (fun e => (e.1, { e.2 with outstanding := 0 })) }
    sow := Sow.reset, hrv := Harvest.reset
    wseal := { s.wseal with
      faultN := true, fatalOpen := 0, unhandled := s.wseal.unhandled.filter (fun u => !u.2.2) }
    glean := { Glean.reset with hours := s.glean.hours }
    clk := { s.clk with
      armed := false, train := s.clk.train ++ s.clk.relocked, bypass := s.clk.refless, locked := s.clk.refless.isEmpty }
    pwr := { s.pwr with duty := 100, holders := s.pwr.holders.filter (fun h => !isDetectHold h.2) } }
  { s with cds := [] }.copyAlm

/-- The entry after a reset (R420). -/
def State.resetEvent (s : State) (kind source block : Nat) : State :=
  s.logErr blkWarden { code := 0xA5, src := 17, detail := block * 256 + source * 16 + kind }

/-- WD_RESET_CAUSE at the start of a warm sequence. -/
def State.warmCause (s : State) (source block : Nat) : State :=
  { s with clk := { s.clk with
    warmCount := satInc 0xFFFF s.clk.warmCount, loop := satInc 0xFF s.clk.loop, kind := 2
    source := BitVec.ofNat 4 source, block := BitVec.ofNat 8 block } }

/-- The runtime is restarted from retained images that pass the measurement, and the watchdog armed; otherwise the
images are discarded and STATE reads BOOT (R424), as it does where no bundle has been retained (R9, R353). -/
def State.restartRuntime (s : State) (measured : Bool) : State :=
  if s.fuse.bundle.isEmpty then { s with clk := { s.clk with step := .boot } }.setBoot 0
  else if measured then { s with clk := { s.clk with step := .starting, armed := true } }
  else
    let s := s.logErr blkWarden { code := 0xA7, src := 17 }
    { s with
      clk := { s.clk with step := .boot }
      fuse := { s.fuse with bundle := [], digests := [] } }.setBoot 0

/-- A warm sequence from its start to the load of the option store. -/
def State.warmSequence (s : State) (source block : Nat) (fuses : List (FuseRead × FuseRead)) (measured : Bool) :
    State :=
  let s := (s.warmCause source block).setBoot 4
  let s := (s.senseFuses fuses).startLoad.resetEvent 2 source block
  { s with clk := { s.clk with step := .loading, passes := measured } }

/-- Its rest, to the restart of the runtime. The fourth sequence without a READY ends in FAILED, every die but the
warden and the steward in reset (R419). -/
def State.warmGoesOn (s : State) : State :=
  if 4 ≤ s.clk.loop then
    let s := (s.logErr blkWarden { code := 0xA8, src := 17 }).holdDies (allBlocks.filter (fun b => b != 60 && b != 61))
    { s with clk := { s.clk with step := .failed }, sd := { s.sd with result := 5 } }.setBoot 3
  else s.restartRuntime s.clk.passes

/-- Resets that arrive while a sequence runs are absorbed (R419). RESET_EVENT has no number for a domain reset, so one
reads as a warm reset of its source (DESIGN CHOICE, log entry 99). -/
def State.absorb (s : State) (l : List (Nat × Nat)) : State :=
  l.foldl (fun s e =>
    ({ s with clk := { s.clk with absorbed := satInc 0xFF s.clk.absorbed } }).resetEvent 2 e.1 e.2) s

/-- R417-R420, R424. The source that came first is carried out. `measured` says whether the retained images pass. -/
def execWarmReset (fuses : List (FuseRead × FuseRead)) (remeasured : Bool) (s : State) : Out :=
  match s.clk.due with
  | [] => .next s
  | (source, block) :: rest =>
    let s : State := { s with clk := { s.clk with due := [] } }
    if s.clk.armed then
      let s := s.warmClear
      let s : State := { s with clk := { s.clk with inWarm := true } }
      .next ((s.warmSequence source block fuses remeasured).absorb rest)
    else .next (s.absorb ((source, block) :: rest))

/-! ## Cold reset (R418, R425) -/

/-- Everything at its reset value but what outlives power: fuses, option store, and what is outside the device. -/
def Die.cold (D : Die) : Die :=
  if D.cut then { Die.reset with railsOff := true, cut := true, hotOff := D.hotOff } else Die.reset

/-- What a memory die keeps without power: the repairs that its stacks' fuses hold (R220, R224). -/
def MemDie.cold (M : MemDie) : MemDie :=
  let x (y : HbmStack) : HbmStack := { HbmStack.reset with repairs := y.repairs.filter (fun e => e.2) }
  { MemDie.reset with st0 := x M.st0, st1 := x M.st1 }

/-- The dies whose rails only a power-on restores (R396, R455). -/
def State.cutDies (s : State) : Table Die :=
  (s.dies.map (fun e => (e.1, e.2.cold))).filter (fun e => e.2 != Die.reset)

def State.cold (s : State) (powerOn : Bool) : State :=
  let s := s.cutStore.cutBlow
  { State.reset with
    dies := if powerOn then [] else s.cutDies
    mds := (s.mds.map (fun e => (e.1, e.2.cold))).filter (fun e => decide (e.2 ≠ MemDie.reset))
    sd := { Steward.reset with hostMem := s.sd.hostMem, vectors := s.sd.vectors, nextCid := s.sd.nextCid }
    fuse := { Fuses.reset with copy0 := s.fuse.copy0, copy1 := s.fuse.copy1 }
    opt := { Options.reset with
      copy0 := s.opt.copy0, copy1 := s.opt.copy1
      restarts := if powerOn then 0 else if s.opt.load = 0 then s.opt.restarts else satInc 0xFF s.opt.restarts }
    glean := { Glean.reset with hours := s.glean.hours }
    pwr := { Power.reset with
      vin := if powerOn then 0 else s.pwr.vin, resetN := s.pwr.resetN, pinLow := s.pwr.pinLow
      dead := if powerOn then 0 else s.pwr.dead }
    free := s.free, pending := s.pending }

/-- The multipliers and guardband steps that a cold reset takes from the option store. -/
def State.takeOptions (s : State) : State :=
  let s : State := { s with clk := { s.clk with
    hclk := BitVec.ofNat 8 (s.optField 0x14 1 160 192), cclk := BitVec.ofNat 8 (s.optField 0x11 1 64 144)
    fclk := BitVec.ofNat 8 (s.optField 0x12 1 32 72), mclk := BitVec.ofNat 8 (s.optField 0x13 1 43 96)
    oscWait := s.optOscWait } }
  allBlocks.foldl (fun s b => s.setDie b { s.die b with guard := s.optTrim b }) s

/-- The load ends (R421): a cold reset takes its clocks and rails from it, a warm sequence goes on. -/
def State.endLoad (s : State) : State :=
  if s.opt.load = 0 then s
  else
    let s := s.loadOptions
    if s.clk.step = .crystalWait then s.takeOptions
    else if s.clk.step = .loading then s.warmGoesOn
    else s

/-- One beat of the load. -/
def State.loadTurn (s : State) : State :=
  if 1 < s.opt.load then { s with opt := { s.opt with load := s.opt.load - 1 } } else s.endLoad

/-- Steps 1 to 3 of R426: the fuses are sensed, the load of the option store and the wait for the crystal begin. -/
def State.coldStart (s : State) (kind : Nat) (fuses : List (FuseRead × FuseRead)) : State :=
  let s : State := { s with clk := { s.clk with
    kind := BitVec.ofNat 4 kind, source := BitVec.ofNat 4 kind, block := 0xFF, step := .crystalWait } }
  (s.senseFuses fuses).startLoad.resetEvent kind kind 0xFF

/-- R417, R426: the always-on rail rises or falls through its limit. -/
def execPowerOnReset (rise : Bool) (fuses : List (FuseRead × FuseRead)) (s : State) : Out :=
  let s := s.cold true
  if rise && !s.pwr.resetN then .next (s.coldStart 0 fuses) else .next s

/-- R417: RESET_N has been low for `ns` nanoseconds. -/
def execResetN (ns : Nat) (s : State) : Out :=
  if s.pwr.standby ∧ (120 ≤ ns ∨ (80 ≤ ns ∧ Config.resetPulse ≤ ns)) then
    let s := s.cold false
    .next { s with pwr := { s.pwr with resetN := true } }
  else .next s

/-- R426: T0. -/
def execResetNRelease (fuses : List (FuseRead × FuseRead)) (s : State) : Out :=
  if s.pwr.resetN then
    .next ({ s with pwr := { s.pwr with resetN := false } }.coldStart 1 fuses)
  else .next s

/-! ## Start-up (R426, R427) -/

def vinOk (mv : Nat) : Bool := decide (44000 ≤ mv) && decide (mv ≤ 56000)

/-- A time of R432. -/
def State.mark32 (s : State) : BitVec 32 × State :=
  let (n, s) := s.take
  (Config.bootMark n, s)

/-- Steps 5 to 7: rails, PLLs, endpoint; STATE reads BOOT. A steward without rails brings nothing further up. -/
def State.railsUp (s : State) : State :=
  let s : State := { s with pwr := { s.pwr with
    qbus := BitVec.ofNat 4 (15 - s.pwr.dead.toNat % 16), cbus := !s.pwr.dead.getLsbD 4, rails := true
    coolOk := !s.pwr.pinLow } }
  if (s.die blkSteward).railsOff then { s with clk := { s.clk with step := .failed } }
  else
    let (t0, s) := s.mark32
    let (t1, s) := s.mark32
    let (t2, s) := s.mark32
    let s : State := { s with
      clk := { s.clk with rails := t0, plls := t1, endpoint := t2, locked := true, step := .boot } }
    s.raise 9

/-- R426 step 4: with the option store loaded, the switch to WCLK completes, or hangs on a crystal that does not run. -/
def execOscWaitEnd (running : Bool) (s : State) : Out :=
  let s := s.endLoad
  if s.clk.step ≠ .crystalWait then .next s
  else if running then
    let (t, s) := s.mark32
    let s : State := { s with clk := { s.clk with onRc := false, wclkOk := true, xtal := t, step := .waitVin } }
    if vinOk s.pwr.vin.toNat then .next s.railsUp else .next s
  else .next { s with clk := { s.clk with step := .crystalHung } }

/-- R454: the conversion stages start. -/
def execVinInRange (mv : Nat) (s : State) : Out :=
  if vinOk mv then
    let s : State := { s with pwr := { s.pwr with vin := BitVec.ofNat 16 mv } }
    if s.clk.step = .waitVin then .next s.railsUp else .next s
  else .next s

/-- A forced-select escape (R416). -/
def State.escape (s : State) (k : Clock) : State :=
  let s : State := { s with clk := { s.clk with forced := satInc 0xFFFF s.clk.forced } }
  s.logErr blkWarden { code := 0xA2, src := 17, detail := clockNum k }

/-- R427: the wait doubles, up to 64 ms; the sixth failure is OSC_FAIL. -/
def execOscRetry (s : State) : Out :=
  if s.clk.step ≠ .crystalHung then .next s
  else
    let s := s.escape .wclk
    if 5 ≤ s.clk.oscRetries then
      .next ({ s with clk := { s.clk with step := .oscFail } }.logErr blkWarden { code := 0xA4, src := 17 })
    else
      let s : State := { s with clk := { s.clk with
        step := .crystalWait, oscRetries := s.clk.oscRetries + 1, oscWait := min 128 (2 * s.clk.oscWait) } }
      .next (s.logErr blkWarden { code := 0xA3, src := 17 })

/-- UCIe modules that train, and UCIE_DOWN for each that does not (R329). -/
def State.trainModules (s : State) (ifc : BitVec 9) : State :=
  (List.range 9).foldl (fun s m =>
    let up := ifc.getLsbD m
    let s : State := { s with sd := { s.sd with modules := Table.set 0 s.sd.modules m (if up then 2 else 0) } }
    if up then s else s.logErr blkSteward { code := 0x51, src := 16, unit := m }) s

/-- The stacks of these memory dies are trained (R202). A die that is absent stays as it is. -/
def State.trainStacks (s : State) (l : List Nat) (trained : BitVec 32) : State :=
  l.foldl (fun s m =>
    if s.absent (blkMd m) then s else s.trainMd m (trained.getLsbD (2 * m)) (trained.getLsbD (2 * m + 1))) s

/-- FAULT_N once READY (R425, R465). -/
def State.readyFault (s : State) : State :=
  { s with wseal := { s.wseal with faultN := s.wseal.isSealed || s.sd.mode != 0 || !s.diesUp } }

/-- The test of one tile: a failure is logged with the engine in SRC; every value is restored (R403). -/
def State.testTile (s : State) (d t : Nat) (failed : Option Nat) : State :=
  let s := s.setTile d t { s.tile d t with untested := false, overdue := false }
  match failed with
  | some src => s.logErr d { code := 0x32, src := src, unit := t }
  | none => s

/-- Every tile runs its self-test; those that fail are logged, on dies that are there (R426 step 12). -/
def State.testAll (s : State) (failed : List (Nat × Nat × Nat)) : State :=
  failed.foldl (fun s x => if s.absent x.1 then s else s.testTile x.1 x.2.1 (some x.2.2)) s

/-- R426 steps 10 to 13. `trained` names the stacks that pass, `checks` the UCIe modules that do and the engines that do
not. -/
def execPowerUpReady (trained : BitVec 32) (checks : PowerUp) (s : State) : Out :=
  let s := s.endLoad
  if s.clk.step ≠ .starting then .next s
  else
    let s := s.trainModules checks.modules
    let s := s.trainStacks (if s.clk.inWarm then s.clk.train else List.range 16) trained
    let s := s.testAll checks.failed
    let s := s.setMode (if s.opt.fault then 2 else 0)
    let s : State := { s with
      clk := { s.clk with step := .ready, armed := true, loop := 0, train := [] }
      sd := { s.sd with bars := true, gpio := true } }
    .next (s.setBoot 2).readyFault.repairOptions

/-! ## Clock losses (R414, R416) -/

/-- WD_CLK_LOST keeps the first loss. -/
def State.recordLoss (s : State) (b : Nat) (k : Clock) (action : Nat) : State :=
  if s.clk.lost.getLsbD 63 then s
  else { s with clk := { s.clk with
    lost := word64 [(1, 63), (b, 48), (clockNum k, 44), (action, 40), (s.alm.now.toNat % 2 ^ 40, 0)] } }

/-- What the lost clock decides: 0 domain reset, 1 warm reset, 2 beat from WCLK, 3 everything held. -/
def lossAction (b : Nat) (k : Clock) : Nat :=
  if k = .ref156 then 2 else if k = .wclk then 3 else if b = 60 then 1 else 0

/-- The device without WCLK: every other die in reset, the stacks' contents lost. -/
def State.holdAll (s : State) : State :=
  let s := ((List.range 16).foldl State.loseStacks s.warmClear).holdDies (allBlocks.filter (· != blkWarden))
  { s with clk := { s.clk with step := .wclkLost, onRc := true, wclkOk := false, locked := false } }.setBoot 4

/-- A PLL's output escapes to bypass. -/
def Clocks.bypassed (c : Clocks) (b : Nat) (k : Clock) : Clocks :=
  { c with locked := false, bypass := (c.bypass.filter (· != (b, clockNum k))) ++ [(b, clockNum k)] }

/-- Domain resets of dies, absorbed as one while a cold or warm sequence runs (R419). -/
def State.domainResets (s : State) (block : Nat) (l : List Nat) : State :=
  if s.clk.armed then l.foldl State.domainReset s else s.absorb [(6, block)]

/-- The escape, and what the lost clock decides (R416). The PLLs of the link dies lose lock with their reference. -/
def State.lossReset (s : State) (b : Nat) (k : Clock) : State :=
  let s := s.escape k
  match lossAction b k with
  | 0 => { s with clk := s.clk.bypassed b k }.domainResets b [b]
  | 1 => { s with clk := s.clk.bypassed b k }.wantWarm 6 blkWarden
  | 2 =>
    let links := (List.range 8).map blkLd
    let s : State := { s with
      clk := { links.foldl (fun c l => c.bypassed l .lclk) s.clk with ref156 := false, almWas := some s.alm.state }
      alm := { s.alm with state := 3, adj := 0 } }
    (List.range 8).foldl State.downPorts (s.domainResets 0xFF links)
  | _ => s.holdAll

/-- A clock loss as a monitor or a lock detector reports it. -/
def State.clockLost (s : State) (b : Nat) (k : Clock) (code : Nat) : State :=
  let s := s.recordLoss b k (lossAction b k)
  (s.logErr blkWarden { code := code, src := 17, unit := b, detail := clockNum k }).lossReset b k

/-- The clock of a die's own domain. -/
def coreClock (b : Nat) : Clock :=
  if b = blkWarden then .wclk
  else if b = blkSteward then .fclk
  else if 32 ≤ b ∧ b < 48 then .mclk
  else if 48 ≤ b ∧ b < 56 then .lclk
  else .cclk

/-- The PLLs of a die, by the clocks they make. -/
def hasPll (b : Nat) : Clock → Bool
  | .cclk => decide (b < 32) || (decide (56 ≤ b) && decide (b < 60)) || decide (62 ≤ b)
  | .fclk => b != blkWarden
  | .mclk => decide (32 ≤ b) && decide (b < 48)
  | .hclk => decide (32 ≤ b) && decide (b < 48)
  | .lclk => decide (48 ≤ b) && decide (b < 56)
  | .wclk => false
  | .ref156 => false

/-- A PLL that runs, with its first lock behind it. -/
def State.pllRuns (s : State) (b : Nat) (k : Clock) : Bool :=
  let early : List BootStep := [.resetHeld, .crystalWait, .crystalHung, .waitVin, .oscFail, .wclkLost]
  hasPll b k && !early.contains s.clk.step && !s.absent b && s.railOn b && !s.clk.bypass.contains (b, clockNum k)

/-- What a monitor expects to count in a window of 32 RC cycles of 8 MHz (R411, R412, R414). -/
def Clocks.expected (c : Clocks) : Clock → Nat
  | .cclk => 100 * c.cclk.toNat
  | .fclk => 100 * c.fclk.toNat
  | .mclk => 100 * c.mclk.toNat
  | .hclk => 100 * c.hclk.toNat
  | .lclk => 7000
  | .wclk => 100
  | .ref156 => 625

/-- A clock is lost below half the expected count, or above one and a half times it. -/
def Clocks.misses (c : Clocks) (k : Clock) (n : Nat) : Bool :=
  decide (2 * n < c.expected k) || decide (3 * c.expected k < 2 * n)

/-- The 156.25 MHz reference is back: the link dies' PLLs lock again, and the Almanac leaves the HOLDOVER of the loss
for ACQUIRE, or for FREE if that is where it was (R316, R416). -/
def State.refBack (s : State) : State :=
  match s.clk.almWas with
  | none => { s with clk := { s.clk with ref156 := true } }
  | some was =>
    let rest := s.clk.bypass.filter (fun e => e.2 != clockNum .lclk)
    { s with
      clk := { s.clk with ref156 := true, almWas := none, bypass := rest, locked := rest.isEmpty }
      alm := { s.alm with state := if s.alm.state ≠ 3 then s.alm.state else if was = 0 then 0 else 1 } }

/-- R414: a count in range shows a reference present; one out of range is a loss. -/
def execClockMonitorWindow (b : Fin 64) (k : Clock) (n : Nat) (s : State) : Out :=
  let c := s.clk
  if k = .ref156 then
    if !c.misses k n then .next (if c.ref156 then s else s.refBack)
    else if c.ref156 then .next (s.clockLost 61 k 0xA0) else .next s
  else if k = .wclk then
    if c.misses k n ∧ c.wclkOk then .next (s.clockLost 61 k 0xA0) else .next s
  else if c.misses k n ∧ s.pllRuns (s.dieOf b.val) k then .next (s.clockLost (s.dieOf b.val) k 0xA0) else .next s

/-- A lock detector's report is a loss of the PLL's domain. -/
def execPllUnlock (b : Fin 64) (k : Clock) (s : State) : Out :=
  if s.pllRuns (s.dieOf b.val) k then .next (s.clockLost (s.dieOf b.val) k 0xA1) else .next s

/-- R416: a PLL that locks again takes its die back, and a memory die trains its stacks (R202); one that does not leaves
its die held in reset, a link die with its ports fenced (R20). -/
def execPllRelock (b : Fin 64) (k : Clock) (locked : Relock) (s : State) : Out :=
  let b := s.dieOf b.val
  if !s.clk.bypass.contains (b, clockNum k) then .next s
  else if locked.locked then
    let rest := s.clk.bypass.filter (fun e => e != (b, clockNum k))
    let s : State := { s with clk := { s.clk with bypass := rest, locked := rest.isEmpty } }
    if rest.any (fun e => e.1 == b) then .next s
    else
      let s := s.setDie b { s.die b with held := s.clk.step == .failed && s.sd.result == 5 }
      .next (if 32 ≤ b ∧ b < 48 ∧ !s.absent b then s.trainMd (b - 32) locked.stack0 locked.stack1 else s)
  else
    let s := s.setDie b { s.die b with held := true }
    .next (if 48 ≤ b ∧ b < 56 then s.fenceLd (b - 48) else s)

/-- R416: WCLK has run for OSC_WAIT after its loss. The warm reset that follows reaches HBM. -/
def execWclkReturn (again : Restart) (s : State) : Out :=
  if s.clk.step = .wclkLost then
    let due := s.clk.due
    let s : State := { s.letGo with clk := { s.clk with
      onRc := false, wclkOk := true, locked := s.clk.bypass.isEmpty, inWarm := false, due := [] } }
    .next ((s.warmSequence 6 blkWarden again.fuses again.measured).absorb due)
  else .next s

end Sys2Proof.Machine
end

