-- ==== Sys2Proof/Machine/Power.lean ====
section
/-! DEFINITION. Power, cooling and temperature: conversion stages, rails, the power limit, COOL_OK, PUMP_REQ and the
warden's sensors (R396, R454-R458, R463-R466). -/
namespace Sys2Proof.Machine

/-! ## Rails (R396, R455) -/

/-- The steward without power: what it held is gone, and it answers no longer. -/
def State.stewardOff (s : State) : State :=
  let s := s.hostReset
  { s with sd := { s.sd with cmds := [], modules := [], modRetry := [], evqEn := false } }

/-- The rails of one die turned off: what the die held is lost, and only a power-on restores them. The ports of a link
die are fenced (R20). -/
def State.powerOff (s : State) (b : Nat) : State :=
  if (s.die b).railsOff then s.setDie b { s.die b with cut := true }
  else
    let isLd := decide (48 ≤ b) && decide (b < 56)
    let s := s.setDie b { s.die b with railsOff := true, cut := true }
    let s := if isLd then s.fenceLd (b - 48) else s
    let s := (s.clearDie b).leaveDebug b
    if b = blkSteward then s.stewardOff else if isLd then s.fenceLd (b - 48) else s

/-- Dies that a stage-1 group feeds: 0 to 3 a quadrant's, 4 the steward, the warden's core and the fallow sites.
A fallow die keeps its feed when it adopts a number. -/
def State.groupDies (s : State) (g : Nat) : List Nat :=
  let adopted := (if s.sites.s32 = 1 then [s.sites.s32cd.toNat] else [])
    ++ (if s.sites.s33 = 1 then [s.sites.s33cd.toNat] else [])
  if g = 4 then [60, 61] ++ (if s.sites.s32 = 1 then [] else [62]) ++ (if s.sites.s33 = 1 then [] else [63]) ++ adopted
  else (List.range 60).filter (fun b => blockQuad b == some g && !adopted.contains b)

/-- A stage-1 group turned off, with every rail that its bus feeds. -/
def State.groupOff (s : State) (g : Nat) : State :=
  let p := s.pwr
  let s : State := { s with pwr := { p with
    dead := p.dead ||| BitVec.ofNat 5 (2 ^ g)
    qbus := if g < 4 then p.qbus &&& ~~~BitVec.ofNat 4 (2 ^ g) else p.qbus
    cbus := p.cbus && g != 4 } }
  (s.groupDies g).foldl State.powerOff s

/-- FAULT_N is asserted whenever the die rails are off (R465). -/
def State.assertFaultN (s : State) : State := { s with wseal := { s.wseal with faultN := true } }

/-- Every die's rails turned off but those named. -/
def State.allOff (s : State) (keep : List Nat) : State :=
  ((allBlocks.filter (fun b => !keep.contains b)).foldl State.powerOff s).assertFaultN

/-! ## Input and supply (R454, R455, R457) -/

/-- The always-on rail is up and the warden out of reset. -/
def State.wardenOn (s : State) : Bool := s.pwr.standby && s.clk.step != .resetHeld

def State.busOn (s : State) (g : Nat) : Bool := if g = 4 then s.pwr.cbus else s.pwr.qbus.getLsbD g

/-- The input at `mv` millivolts for `us` microseconds. Outside 44 to 56 V for more than 5 µs turns off the stages
it reaches; below 36 V the standby stage stops. -/
def execInputVoltage (mv us : Nat) (stages : BitVec 5) (s : State) : Out :=
  if vinOk mv then
    .next (if s.wardenOn then { s with pwr := { s.pwr with vin := BitVec.ofNat 16 mv } } else s)
  else if us ≤ 5 ∨ !s.wardenOn then .next s
  else if mv < 36000 then .next (s.cold true)
  else
    let s : State := { s with pwr := { s.pwr with vin := BitVec.ofNat 16 (min 65535 mv) } }
    let s := s.logErr blkWarden { code := 0xB9, src := 17 }
    let hit := (List.range 5).filter (fun g => stages.getLsbD g && s.busOn g)
    .next (hit.foldl State.groupOff s)

/-- The standby stage has failed: the device is off until the next power-on. -/
def State.standbyLost (s : State) : State :=
  let s := s.cold true
  { s with pwr := { s.pwr with standby := false } }

/-- A stage-2 regulator names its die, a stage-1 converter its group (4 the centre); 5 is the standby stage, and
without it the device is off until the next power-on. -/
def execSupplyFault (stage2 : Bool) (group : Fin 64) (s : State) : Out :=
  let log (s : State) : State := s.logErr blkWarden { code := 0xB8, src := 17, unit := group.val }
  if !s.wardenOn then .next s
  else if stage2 then
    let b := s.dieOf group.val
    .next (if s.railOn b then (log s).powerOff b else s)
  else if group.val < 5 then .next (if s.busOn group.val then (log s).groupOff group.val else s)
  else if group.val = 5 then .next (log s).standbyLost
  else .next s

/-- R457: the mean of one window. -/
def execPowerLimitWindow (watts : Nat) (s : State) : Out :=
  if !s.wardenOn then .next s
  else
    let s : State := { s with pwr := { s.pwr with pin := BitVec.ofNat 16 (min 65535 watts) } }
    if 16000 < watts ∧ !s.pwr.limiting then
      .next ({ s with pwr := { s.pwr with limiting := true } }.holdQuads holdPower [0, 1, 2, 3])
    else if watts < 15500 ∧ s.pwr.limiting then
      .next ({ s with pwr := { s.pwr with limiting := false } }.release holdPower [0, 1, 2, 3])
    else .next s

/-! ## Cooling (R396, R463, R464) -/

def execCoolOkDeassert (s : State) : Out := .next { s with pwr := { s.pwr with pinLow := true } }

/-- The pin has been low for COOL_DEBOUNCE while it is watched. -/
def execCoolLost (s : State) : Out :=
  let p := s.pwr
  if s.wardenOn ∧ p.rails ∧ p.pinLow ∧ !p.coolGone then
    let s : State := { s with pwr := { p with
      coolOk := false, coolGone := true, lost := if p.lost = -1 then p.lost else p.lost + 1 } }
    .next (s.logErr blkWarden { code := 0xB2, src := 17 })
  else .next s

/-- The pin has been low for 2 s. -/
def execCoolLostShutdown (s : State) : Out :=
  if s.pwr.coolGone ∧ s.pwr.pinLow then .next (s.allOff [blkWarden]) else .next s

/-- The level after debounce is read while the warden watches the pin. -/
def execCoolOkAssert (s : State) : Out :=
  .next { s with pwr := { s.pwr with pinLow := false, coolGone := false, coolOk := s.pwr.rails } }

/-- Every die whose rails are on, and its latest temperature; the stacks of the memory dies among them. -/
def State.liveTemps (s : State) : List Nat :=
  ((allBlocks.filter s.railOn).map (fun b => (s.die b).temp.toNat))
    ++ ((List.range 16).filter (fun m => s.railOn (blkMd m))).flatMap (fun m =>
      [(s.md m).st0.temp.toNat, (s.md m).st1.temp.toNat])

/-- 40 % at or below 60 °C, 100 % from 85 °C, linear between. A percent that is not whole is rounded one way or
the other. -/
def dutyAt (t : Nat) : Nat :=
  if t ≤ 60 then 40
  else if 85 ≤ t then 100
  else
    let n := 12 * (t - 60)
    40 + n / 5 + (if n % 5 ≠ 0 ∧ Config.dutyUp t then 1 else 0)

def execPumpDutyUpdate (s : State) : Out :=
  if s.sd.boot = 2 then
    .next { s with pwr := { s.pwr with duty := BitVec.ofNat 8 (dutyAt (s.liveTemps.foldl max 0)) } }
  else .next s

/-! ## Pins (R470) -/

/-- Level of a GPIO pin, none while it is high-impedance: READY, SEALED, a MODE other than OPERATE, the Almanac LOCKED;
the others low. -/
def State.gpioPin (s : State) (k : Fin 8) : Option Bool :=
  if s.sd.gpio then
    some (match k.val with
      | 0 => s.sd.boot == 2
      | 1 => s.wseal.isSealed
      | 2 => s.sd.mode != 0
      | 3 => s.alm.state == almLocked
      | _ => false)
  else none

/-! ## Temperatures (R466) -/

/-- One reading of a die: the limits reached three times in a row, and the level it is at. -/
def Die.reading (D : Die) (b : Nat) (t : BitVec 8) : Die :=
  let trip := tripOf b
  let n := t.toNat
  let count (k limit : Nat) : Nat := if limit ≤ n then min 3 (k + 1) else 0
  let (h1, h2, h3) := D.hot
  let h := (if b = blkWarden then 0 else count h1 (trip - 5), count h2 trip, count h3 (trip + 10))
  let up := if h.2.1 = 3 then 2 else if h.1 = 3 then 1 else 0
  let held :=
    if D.tempState = 2 ∧ trip < n + 3 then 2
    else if 1 ≤ D.tempState ∧ b ≠ blkWarden ∧ trip - 5 < n + 3 then 1
    else 0
  { D with
    temp := t, tempMax := if D.tempMax.toNat < n then t else D.tempMax
    hot := h, tempState := max up held }

/-- What a die's new level does: throttle, DIE_OVERTEMP on reaching the trip limit, rails off 10 °C above it. -/
def State.afterReading (s : State) (b : Nat) (was : Nat) : State :=
  let D := s.die b
  let s :=
    if was = 0 ∧ 1 ≤ D.tempState ∧ b ≠ blkWarden then s.holdQuads (holdDie b) (quadsOf b)
    else if D.tempState = 0 then s.release (holdDie b) [0, 1, 2, 3]
    else s
  let s :=
    if was ≠ 2 ∧ D.tempState = 2 then s.logErr blkWarden { code := 0xB1, src := 17, unit := b, detail := D.temp.toNat }
    else s
  if D.hot.2.2 = 3 then
    let s := s.setDie b { s.die b with hotOff := true }
    if b = blkWarden then s.allOff [] else s.powerOff b
  else s

/-- One polling of every sensor: each die's highest, by control block; a die the list does not reach has no
reading. -/
def execDieTempPoll (temps : List (BitVec 8)) (s : State) : Out :=
  if !s.wardenOn then .next s
  else .next ((allBlocks.zip temps).foldl (fun s e =>
    if s.railOn e.1 then
      let D := s.die e.1
      (s.setDie e.1 (D.reading e.1 e.2)).afterReading e.1 D.tempState
    else s) s)

end Sys2Proof.Machine
end

