-- ==== Sys2Proof/Machine/Gleaning.lean ====
section
/-! DEFINITION. The result seal's commands (R399, R400), injected errors and self-tests (R403, R407), Gleaning and
telemetry (R401-R406), and the monitors that are reset sources (R388, R417, R435). -/
namespace Sys2Proof.Machine

/-! ## SEAL_VERIFY (R399) -/

/-- The detection log, oldest entry first. -/
def Seal.entries (w : Seal) : List DetEntry :=
  let at? (i : Nat) : DetEntry := Table.get ⟨0, 0⟩ w.log i
  if w.wrapped then (List.range 256).map (fun i => at? ((w.head + i) % 256)) else (List.range w.head).map at?

def DetEntry.season (e : DetEntry) : Nat := bits e.word 63 48
def DetEntry.code (e : DetEntry) : Nat := bits e.word 39 32
def DetEntry.kind (e : DetEntry) : Nat := bits e.word 31 30

/-- Position from which entries of another Season lie behind the span: its newest Season mark, or, with none, in
the current Season its oldest entry. -/
def spanBegins (log : List DetEntry) (season : Nat) (isNow : Bool) : Nat :=
  let at? (p : DetEntry → Bool) : List Nat := (log.zipIdx.filter (fun x => p x.1)).map (fun x => x.2)
  match (at? (fun e => e.kind == 3 && e.season == season)).getLast? with
  | some i => i
  | none => if isNow then ((at? (fun e => e.season == season)).head?.getD log.length) else 0

/-- The entry at a position lies before a beat of the span's Season. -/
def liesBefore (season began i : Nat) (e : DetEntry) (beat : Nat) : Bool :=
  if e.season = season then decide (e.beat.toNat < beat) else decide (i < began)

/-- The device was outside OPERATE at a beat. -/
def outsideAt (log : List DetEntry) (season began mode beat : Nat) : Bool :=
  let marks := log.zipIdx.filter (fun x => x.1.kind == 2)
  match marks with
  | [] => mode != 0
  | first :: _ =>
    match (marks.filter (fun x => liesBefore season began x.2 x.1 beat)).getLast? with
    | some m => m.1.code == 2
    | none => first.1.code == 3

/-- RESULT of SEAL_VERIFY. -/
def State.sealVerify (s : State) (season start stop : Nat) : BitVec 64 :=
  let log := s.wseal.entries
  let isNow := season == s.alm.season.toNat
  let began := spanBegins log season isNow
  let inSpan (e : DetEntry) : Bool :=
    e.season == season && decide (start ≤ e.beat.toNat) && decide (e.beat.toNat ≤ stop)
  let dets := (log.filter (fun e => e.kind == 0 && inSpan e)).length
  let beats := start :: (log.filter (fun e =>
    e.kind == 2 && inSpan e && decide (e.beat.toNat < stop))).map (fun e => e.beat.toNat + 1)
  let unchecked := log.any (fun e => e.kind == 1 && inSpan e)
    || beats.any (outsideAt log season began s.sd.mode)
  let seasonMarks := log.zipIdx.filter (fun x => x.1.kind == 3 && x.1.season == season)
  let reaches := (!s.wseal.wrapped && (isNow || !seasonMarks.isEmpty))
    || (match log.head? with
      | some e => e.season == season && decide (e.beat.toNat < start)
      | none => false)
    || seasonMarks.any (fun x => decide (0 < x.2))
  let bad := [s.wseal.isSealed, s.anyHandler, decide (0 < dets), unchecked, !reaches]
  word64 ((min 0xFFFF dets, 32) :: (natOf (bad.all (!·)), 0) :: bad.zipIdx.map (fun e => (natOf e.1, e.2 + 1)))

/-- Every ABFT verdict of what has issued has been given. -/
def State.verdictsGiven (s : State) : Bool := s.tiles.all (fun e => e.2.abft.isEmpty && e.2.mmas.isEmpty)

/-- The command waits until the span is over and the verdicts are in. -/
def execSealVerify (cid : Nat) (s : State) : Out :=
  s.withCmd cid 0x0D02 (fun s c =>
    if (c.u 0 2 == s.alm.season.toNat && decide (s.alm.now.toNat ≤ c.u 0x10 8)) || !s.verdictsGiven then s
    else s.reply c stOk (s.sealVerify (c.u 0 2) (c.u 8 8) (c.u 0x10 8)))

/-! ## SEAL_RELEASE (R400) -/

/-- A THERMAL or POWER condition persists: COOL_OK off, a die or a stack at its limit, the input outside 44 to 56
V, a rail or a stage that is off because of one. -/
def State.hazardLasts (s : State) : Bool :=
  !s.pwr.coolOk || s.dies.any (fun e => decide (tripOf e.1 ≤ e.2.temp.toNat))
    || s.mds.any (fun e => decide (105 ≤ e.2.st0.temp.toNat) || decide (105 ≤ e.2.st1.temp.toNat))
    || !vinOk s.pwr.vin.toNat || s.pwr.dead != 0 || s.dies.any (fun e => e.2.cut)

/-- R400, R425, R465: FAULT_N stays asserted while such a condition persists, in MAINT_ONLY, outside READY, and while
the die rails are off. -/
def State.sealRelease (s : State) : State :=
  let keeps := s.hazardLasts || s.sd.mode == 2 || s.sd.boot != 2 || !s.diesUp
  { s with wseal := { s.wseal with isSealed := false, faultN := s.wseal.faultN && keeps, unhandled := [] } }

def execSealRelease (cid : Nat) (s : State) : Out :=
  s.withCmd cid 0x0D03 (fun s c =>
    if s.anyHandler || !s.quiescent then s.reply c stBusy 0 else s.sealRelease.reply c stOk 0)

/-! ## ERR_INJECT (R407) -/

/-- The reset of an injected CLK_LOST (R388, R417): the lost clock is that of the die's own domain. One of the
warden's names the die in UNIT. -/
def State.injectedLoss (s : State) (b unit code : Nat) : State :=
  let d := if b = blkWarden then unit else b
  if code = 0xA0 ∧ d < 64 then s.lossReset d (coreClock d) else s

/-- The rails of an injected SUPPLY_FAULT or INPUT_VOLTAGE (R396, R455): those of the die that logs it, or, of the
warden's, the stage that UNIT names as it does in a real one, 0 to 4 a stage-1 group and 5 the standby stage. -/
def State.injectedSupply (s : State) (b unit code : Nat) : State :=
  if code = 0xB8 ∧ b ≠ blkWarden then s.powerOff b
  else if (code = 0xB8 ∨ code = 0xB9) ∧ unit < 5 then (if s.busOn unit then s.groupOff unit else s)
  else if code = 0xB8 ∧ unit = 5 then s.standbyLost
  else s

/-- The mark of an injected SELFTEST_OVERDUE (R399). -/
def State.injectedMark (s : State) (b code : Nat) : State := if code = 0xD0 then s.mark b 4 1 else s

/-- The condition of a code whose detection is conditional counts as met. -/
def execErrInject (cid : Nat) (s : State) : Out :=
  s.withCmd cid 0x0D04 (fun s c => s.oneDie c (fun s b =>
    if !s.diagOk b then s.reply c stMode 0
    else
      let s := (s.reply c stOk 0).logErr b
        { code := c.u 0 1, src := c.u 2 1, unit := c.u 1 1, icount := c.tag.toNat, inj := true
          cond := c.u 0 1 == 0x31 }
      ((s.injectedMark b (c.u 0 1)).injectedSupply b (c.u 1 1) (c.u 0 1)).injectedLoss b (c.u 1 1) (c.u 0 1)))

/-! ## Self-tests (R403, R407) -/

/-- SELFTEST_RUN on one die: every named tile at rest is tested; the count is of those that pass. -/
def State.testDie (s : State) (c : Cmd) (failed : List (Nat × Nat × Nat)) (d : Nat) : State × Nat × Nat :=
  (c.tiles 0).foldl (fun (acc : State × Nat × Nat) t =>
    let (s, st, n) := acc
    if (s.tile d t).loadable then
      let bad := (failed.find? (fun x => x.1 == d && x.2.1 == t)).map (fun x => x.2.2)
      (s.testTile d t bad, st, n + natOf bad.isNone)
    else (s, stBusy, n)) (s, stOk, 0)

/-- `failed` lists the tests that fail: die, tile, SRC of the engine. -/
def execSelftestRun (cid : Nat) (failed : List (Nat × Nat × Nat)) (s : State) : Out :=
  s.withCmd cid 0x0D05 (fun s c => State.replyCount (s.eachDie c (fun s d => s.testDie c failed d)) c)

/-- A tile at rest is tested in its turn; `failed` is the SRC of the engine that fails. -/
def execSelftest (d : Fin 32) (t : Fin 144) (failed : Option (Fin 8)) (s : State) : Out :=
  if s.glean.tasks.getLsbD 2 && (s.tile d.val t.val).loadable && !(s.die d.val).retired then
    .next (s.testTile d.val t.val (failed.map (fun x => x.val)))
  else .next s

/-- The end of a self-test period on a die: the tiles not tested are overdue, and the next period begins. -/
def execSelftestOverdue (d : Fin 32) (s : State) : Out :=
  if !s.glean.tasks.getLsbD 2 || (s.die d.val).retired then .next s
  else
    let late := (List.range 144).filter (fun t => (s.tile d.val t).untested)
    let s := (List.range 144).foldl (fun s t =>
      s.setTile d.val t { s.tile d.val t with untested := true, overdue := late.contains t }) s
    if late.isEmpty then .next s
    else .next ((s.logErr d.val { code := 0xD0, src := 19, detail := late.length }).mark d.val 4 1)

/-! ## GLEAN family (R406) -/

def execGleanCfg (cid : Nat) (s : State) : Out :=
  s.withCmd cid 0x0B01 (fun s c =>
    let g := s.glean
    let set (i : Nat) : Bool := c.u 0 4 / 2 ^ i % 2 == 1
    let g : Glean := { g with
      tasks := if set 0 then BitVec.ofNat 4 (c.u 4 2) else g.tasks
      hbm := if set 1 then BitVec.ofNat 16 (c.u 6 2) else g.hbm
      link := if set 2 then BitVec.ofNat 16 (c.u 8 2) else g.link
      period := if set 3 then BitVec.ofNat 16 (c.u 0x0A 2) else g.period }
    { s with glean := g }.reply c stOk 0)

/-- A fifth pending window is BUSY. -/
def execGleanWindow (cid : Nat) (s : State) : Out :=
  s.withCmd cid 0x0B02 (fun s c =>
    let a := s.alm
    if 4 ≤ (a.windows.filter (fun w => !w.isOpen)).length then s.reply c stBusy 0
    else
      let w : GleanWin :=
        ⟨BitVec.ofNat 64 (c.u 0 8), BitVec.ofNat 64 (c.u 8 8), BitVec.ofNat 4 (c.u 0x10 2), false⟩
      { s with alm := { a with windows := a.windows ++ [w] } }.reply c stOk 0)

/-- Record 0 follows each TELEM_CFG. -/
def execTelemCfg (cid : Nat) (s : State) : Out :=
  s.withCmd cid 0x0B03 (fun s c =>
    { s with glean := { s.glean with
      telBase := BitVec.ofNat 48 (c.u 0 8), telRecords := BitVec.ofNat 32 (c.u 8 4)
      telPeriod := BitVec.ofNat 32 (c.u 0x0C 4), telEn := c.u 0x10 1 % 2 == 1, telSeq := 0
      telAt := s.alm.total } }.reply c stOk 0)

/-! ## Aging (R404) -/

/-- A rail's setpoint goes up one step of 5 mV, eight at most. -/
def State.raiseRail (s : State) (b : Nat) : State :=
  let D := s.die b
  if 8 ≤ D.guard then s
  else
    let s := s.setDie b { D with guard := D.guard + 1 }
    if D.guard = 7 then s.logErr blkWarden { code := 0xD2, src := 17, unit := b } else s

/-- RAIL_TRIM of what the store holds, or will hold once its writes are over, differs from the steps in force. -/
def State.trimUnsaved (s : State) : Bool := readBytes s.storedImage 0x20 32 != s.trimBytes

/-- `low` are the dies whose timing margin has fallen below its threshold. The steps reach the option store at
most once a day. -/
def execAgingGuardband (low : List (Fin 64)) (s : State) : Out :=
  if !s.glean.tasks.getLsbD 3 then .next s
  else
    let s := (allBlocks.filter (fun b => low.any (fun x => x.val == b))).foldl State.raiseRail s
    if 24 ≤ s.glean.hours ∧ s.trimUnsaved then
      .next { s.programBoth false s.storedImage with glean := { s.glean with hours := 1 } }
    else .next { s with glean := { s.glean with hours := min 24 (s.glean.hours + 1) } }

/-! ## Telemetry (R405) -/

def sumDies (s : State) (f : ErrRing → Nat) : Nat := (s.dies.map (fun e => f e.2.errs)).sum

def sumMds (s : State) (f : MemDie → Nat) : Nat := (s.mds.map (fun e => f e.2)).sum

def sumPorts (s : State) (f : TorusPort → Nat) : Nat := (s.net.ports.map (fun e => f e.2)).sum

/-- The slowest scrub's progress. -/
def State.slowScrub (s : State) : Nat :=
  (List.range 16).foldl (fun m k => min m (s.md k).scrubProgress) 65535

/-- The words of a record that the device's own counts give; the others are as measured. -/
def State.telemetryWords (s : State) (r : TelemetryReading) : List (BitVec 64) :=
  let m (i : Nat) : BitVec 64 := r.words.getD i 0
  let soft (x : HbmStack) : Nat := (x.repairs.filter (fun e => !e.2)).length
  let warm (x : HbmStack) : Nat := natOf (decide (2 ≤ x.level))
  [ s.alm.now, word64 [(s.glean.telSeq % 2 ^ 32, 32), (s.alm.season.toNat, 0)], m 0, m 1, m 2, m 3,
    setBits (m 4) 39 32 (sumMds s (fun M => warm M.st0 + warm M.st1)),
    word64 [(min 0xFFFF (sumMds s (fun M => soft M.st0 + soft M.st1)), 48), (min 0xFFFF (sumMds s (fun M => M.ue)), 32),
      (min 0xFFFFFFFF (sumMds s (fun M => M.ce)), 0)],
    word64 [(min 0xFFFF (sumPorts s (fun P => P.retrains)), 48), (min 0xFFFF (sumPorts s (fun P => P.replays)), 32),
      (min 0xFFFFFFFF (sumPorts s (fun P => P.corr)), 0)],
    m 5,
    word64 [(min 0xFFFF (sumDies s (fun e => e.ovf)), 48), (min 0xFFFF s.wseal.detections, 32),
      (sumDies s (fun e => e.logged), 0)],
    word64 [((List.range 64).foldl (fun n b => max n (s.die b).guard) 0, 32),
      ((s.tiles.filter (fun e => e.2.overdue)).length, 16), (s.slowScrub, 0)] ]

/-- One record every PERIOD beats. -/
def execTelemetryRecord (r : TelemetryReading) (s : State) : Out :=
  let g := s.glean
  if !g.telEn || decide (s.alm.total < g.telAt + g.telPeriod.toNat) then .next s
  else
    let body := fitBytes 0xF8 (bytesOfWords (s.telemetryWords r))
    let a := g.telBase.toNat + g.telSeq % max 1 g.telRecords.toNat * 256
    let s := (s.devWrite a (body ++ leBytes 8 (crc32 body).toNat)).1
    .next { s with glean := { s.glean with telSeq := g.telSeq + 1, telAt := g.telAt + g.telPeriod.toNat } }

/-! ## Monitors that are reset sources -/

/-- The warden's watchdog, once armed, expires (R417). -/
def execWatchdog (s : State) : Out :=
  if s.clk.armed then .next (s.logErr blkWarden { code := 0x92, src := 17 }) else .next s

/-- R388. -/
def execCtrlParity (b : Fin 64) (s : State) : Out := .next (s.logErr b.val { code := 0x90, src := 0 })

/-- R435. -/
def execFuseParity (s : State) : Out := .next (s.logErr blkWarden { code := 0x91, src := 17 })

end Sys2Proof.Machine
end

