-- ==== Sys2Proof/Machine/Security.lean ====
section
/-! DEFINITION. Attestation, fuse programming, key provisioning, JTAG and the I3C target (R437-R439, R442,
R447-R449, R469). -/
namespace Sys2Proof.Machine

/-! ## Violations that the warden finds for a command (R384) -/

/-- Logged in the warden's ring, and the status of the reply. -/
def State.refuse (s : State) (c : Cmd) (code detail : Nat) : State :=
  (s.logErr blkWarden { code := code, src := 17, icount := c.tag.toNat, detail := detail }).reply c (stErr code) 0

/-! ## Identity and attestation (R447, R448) -/

/-- SEC_IDENTITY and SEC_ATTEST need a device identity. -/
def State.withIdentity (s : State) (c : Cmd) (f : State → State) : State :=
  if s.idValid then f s else s.refuse c 0xE4 0

/-- Bytes written at RES_ADDR, then the reply. -/
def State.answerAt (s : State) (c : Cmd) (a : Nat) (l : List Byte) (result : BitVec 64) : State :=
  match s.devWrite a l with
  | (s, none) => s.reply c stOk result
  | (s, some (code, _)) => s.reply c (stErr code) 0

/-- The private identity key (R447): a function of IDENTITY_SEED, words 4 to 11. -/
def State.identityKey (s : State) : Nat :=
  Config.identityKey (ofLe ((List.range 8).flatMap (fun i => leBytes 4 (s.fuseWord (4 + i)).toNat))) % (curveN - 1) + 1

def State.publicKeyBytes (s : State) : List Byte := pointKey (CurvePt.mul s.identityKey ⟨curveG.1, curveG.2, 1⟩)

/-- A signature by the identity key. -/
def State.identitySign (s : State) (n : Nat) (msg : List Byte) : List Byte :=
  ecdsaSign s.identityKey (Config.nonce n) msg

def certificateBytes : List Byte := (List.range (min 2048 Config.certBytes)).map Config.certificate

def execSecIdentity (cid : Nat) (s : State) : Out :=
  s.withCmd cid 0x0E02 (fun s c => s.withIdentity c (fun s =>
    s.answerAt c (c.u 0 8) (s.publicKeyBytes ++ certificateBytes) (BitVec.ofNat 64 certificateBytes.length)))

/-- The sensed words with the identity seed taken as zero. -/
def State.sensedBytes (s : State) : List Byte :=
  (List.range 96).flatMap (fun w => leBytes 4 (if 4 ≤ w ∧ w < 12 then 0 else (s.fuseWord w).toNat))

def State.deviceId (s : State) : List Byte := (List.range 4).flatMap (fun w => leBytes 4 (s.fuseWord w).toNat)

/-- Words 0x040 and 0x1F8 of the report. -/
def State.reportMode (s : State) : BitVec 64 :=
  word64 [(s.fuse.svn.toNat, 40), (s.svnMin, 32), (natOf s.opt.fault, 20),
    (natOf (s.dies.any (fun e => e.2.debug)), 19), (natOf s.wseal.isSealed, 18), (s.sd.mode, 16), (s.alm.season.toNat, 0)]

def State.reportLocks (s : State) : BitVec 64 :=
  word64 [(s.hostMap.toNat, 32), (natOf s.safetyLock, 17), (natOf s.ostoreLock, 16), (s.debugLevel, 12),
    (maskOf s.slotValid, 8), (maskOf s.slotRevoked, 4), (s.fuse.slot.toNat, 0)]

/-- Bytes 0x000 to 0x1FF of the report. -/
def State.reportBody (s : State) (nonce : List Byte) : List Byte :=
  leBytes 4 0x54415658 ++ leBytes 2 1 ++ leBytes 2 608 ++ s.deviceId ++ nonce
    ++ leBytes 8 s.stamp.toNat ++ leBytes 8 s.reportMode.toNat
    ++ sha384 s.sensedBytes ++ sha384 (optBytes s.opt.inForce) ++ sha384 s.fuse.bundle
    ++ (List.range 6).flatMap (fun t => leBytes 48 (s.fuse.digests.getD t 0).toNat)
    ++ leBytes 8 s.reportLocks.toNat

def execSecAttest (cid : Nat) (s : State) : Out :=
  s.withCmd cid 0x0E01 (fun s c => s.withIdentity c (fun s =>
    let body := s.reportBody (c.params.take 32)
    let (n, s) := s.take
    s.answerAt c (c.u 0x20 8) (body ++ s.identitySign n body) 0))

/-! ## Blowing fuses (R437, R438) -/

/-- The words and bits of a FIELD and VALUE; a level or a version below the one in force blows nothing, and the one in
force is blown again in copies that lack it (R438). -/
def State.fieldBits (s : State) (field v : Nat) : List (Nat × BitVec 32) :=
  match field with
  | 0 => if 0 < v ∧ s.debugLevel ≤ v then [(13, BitVec.ofNat 32 (2 ^ (min v 3 - 1)))] else []
  | 1 => [(13, 0x100)]
  | 2 => [(13, 0x200)]
  | 3 => [(13, BitVec.ofNat 32 (v % 16 * 2 ^ 16))]
  | 4 => [(14, BitVec.ofNat 32 (v % 2 ^ 13))]
  | _ =>
    if 0 < v ∧ s.svnMin ≤ v then
      if v ≤ 32 then [(15, BitVec.ofNat 32 (2 ^ (v - 1)))] else [(16, BitVec.ofNat 32 (2 ^ (min v 64 - 33)))]
    else []

/-- A slot stays both valid and unrevoked. -/
def State.slotRemains (s : State) (mask : Nat) : Bool :=
  (List.range 4).any (fun k => s.slotUsable k && mask / 2 ^ k % 2 == 0)

/-- A raised debug level clears debug mode on every die, and the command breakpoints with it where it forbids
them (R442). -/
def State.levelRaised (s : State) : State :=
  let s := allBlocks.foldl State.leaveDebug s
  if 2 ≤ s.debugLevel then s.leaveHostDebug else s

/-- A blow runs: the words are written one after the other, each in beats of its own. -/
def State.startBlow (s : State) (c : Cmd) (miss : Option FuseMiss) (l : List (Nat × BitVec 32)) : State :=
  if l.isEmpty then s.reply c stOk 0
  else
    let (n, s) := s.take
    { s.running c with fuse := { s.fuse with job := some ⟨c.cid, l, [], miss, Config.blowBeats n + 1⟩ } }

/-- A blow is over: the shadows of what it has written are updated and it replies, with the word whose read-back
differed if there is one (R437). -/
def State.endBlow (s : State) (j : FuseJob) (done : List (Nat × BitVec 32)) (bad : Option Nat) : State :=
  let level := s.debugLevel
  let s := { s with fuse := { s.fuse with job := none } }.shadowWords done
  let s := if level < s.debugLevel then s.levelRaised else s
  match s.runningCmd j.cid, bad with
  | some c, some w => s.refuse c 0xE7 w
  | some c, none => s.reply c stOk 0
  | none, some w => s.logErr blkWarden { code := 0xE7, src := 17, detail := w }
  | none, none => s

/-- One beat of a blow. A word whose read-back differs ends it. -/
def State.fuseTurn (s : State) : State :=
  match s.fuse.job with
  | none => s
  | some j =>
    let put (s : State) (j : FuseJob) : State := { s with fuse := { s.fuse with job := some j } }
    if 1 < j.left then put s { j with left := j.left - 1 }
    else
      match j.todo with
      | [] => s.endBlow j j.done none
      | (w, v) :: rest =>
        let (s, good) := s.blowWord w v j.miss
        let done := j.done ++ [(w, v)]
        if !good then s.endBlow j j.done (some w)
        else if rest.isEmpty then s.endBlow j done none
        else
          let (n, s) := s.take
          put s { j with todo := rest, done := done, left := Config.blowBeats n + 1 }

/-- A second blow waits for the one that runs. -/
def execSecFuseBlow (cid : Nat) (miss : Option FuseMiss) (s : State) : Out :=
  s.withCmd cid 0x0E03 (fun s c =>
    if s.fuse.job.isSome then s
    else if c.u 0 1 = 3 ∧ !s.slotRemains (c.u 2 2) then s.refuse c 0xE6 0
    else s.startBlow c miss (s.fieldBits (c.u 0 1) (c.u 2 2)))

/-! ## Provisioning a key (R439) -/

/-- Number of the first check that a provisioning block fails, from 1 in the order of R439. -/
def State.provisionFails (s : State) (b : List Byte) : Option Nat :=
  let slot := leField b 0 1
  let signer := leField b 1 1
  let key := (b.drop 0x48).take 97
  if slot = 0 ∨ 3 < slot ∨ (s.fuseWord 12).getLsbD (4 + slot) then some 1
  else if (b.drop 8).take 16 ≠ s.deviceId then some 2
  else if 3 < signer ∨ !s.slotUsable signer then some 3
  else if sha384 key ≠ s.keyHash signer then some 4
  else if (keyPoint key).isNone then some 5
  else if !ecdsaOk key (b.take 0xC0) ((b.drop 0xC0).take 96) then some 6
  else none

/-- The twelve words of the hash, each read back as it was given, and then the slot's valid bit (R436). -/
def provisionBits (b : List Byte) : List (Nat × BitVec 32) :=
  let slot := leField b 0 1
  (List.range 12).map (fun i => (17 + 12 * slot + i, BitVec.ofNat 32 (leField b (0x18 + 4 * i) 4)))
    ++ [(12, BitVec.ofNat 32 (2 ^ (4 + slot)))]

def execSecKeyProvision (cid : Nat) (miss : Option FuseMiss) (s : State) : Out :=
  s.withCmd cid 0x0E04 (fun s c =>
    if s.fuse.job.isSome then s
    else
      let (s, g) := s.devRead (c.u 0 8) 288
      match g.err with
      | some (code, _) => s.reply c (stErr code) 0
      | none =>
        match s.provisionFails g.data with
        | some k => s.refuse c 0xE5 k
        | none => s.startBlow c miss (provisionBits g.data))

/-! ## JTAG (R442) -/

/-- What a debug lock level lets JTAG reach. -/
def jtagAllowed (level : Nat) : JtagInstr → Bool
  | .bypass => true
  | .idcode => true
  | .boundaryScan => level < 3
  | .internalScan => level = 0
  | .other => level = 0
  | .instrument sensor readOnly => level = 0 || (level = 1 && sensor && readOnly)

def execJtagInstruction (instr : JtagInstr) (s : State) : Out :=
  if !s.diesUp then .next s
  else if jtagAllowed s.debugLevel instr then .next { s with pwr := { s.pwr with jtag := instr } }
  else
    let s : State := { s with pwr := { s.pwr with jtag := .bypass } }
    .next (s.logErr blkWarden { code := 0xE1, src := 17 })

/-! ## I3C (R469) -/

def i3cServed (off : Nat) : Bool :=
  (decide (0x1000 ≤ off) && decide (off < 0x2000)) || (decide (0x3000 ≤ off) && decide (off < 0x4000))
    || (decide (0x6000 ≤ off) && decide (off < 0x6100)) || (decide (0x7000 ≤ off) && decide (off < 0x7300))

/-- A private write sets the pointer; a private read returns the register there and moves on by 8 bytes. The target
answers at I3C_ADDR once the option store is loaded (R425). -/
def execI3cTransfer (head : I3cHead) (data : BitVec 16) (s : State) : Out :=
  if !s.wardenOn || s.opt.load != 0 || head.target.toNat != s.optI3c then .next s
  else if head.write then .next { s with pwr := { s.pwr with i3cPtr := data } }
  else
    let off := 8 * s.pwr.i3cPtr.toNat
    let v := if i3cServed off then s.readWarden off else 0
    .next { s with pwr := { s.pwr with i3cPtr := s.pwr.i3cPtr + 1, i3cData := v } }

end Sys2Proof.Machine
end

