-- ==== Sys2Proof/Machine/Beat.lean ====
section
/-! DEFINITION. The beat boundary (R309-R311), and what the warden has done by it of the work that takes it many beats:
the option-store load and programming, the blowing of fuses (R421, R424, R437; log entry 104). -/
namespace Sys2Proof.Machine

/-- R309-R311: the warden's strobe adds 1 at every die, which counts from here the cycles of its new beat; the beat that
has ended had those counted in it, and that of its boundary. -/
def State.beat (s : State) : State :=
  let a := s.alm
  let s := s.moment
  let s := s.setAlm { a with now := a.now + 1, phase := 0, total := a.total + 1, sinceBeat := a.sinceBeat + 1 }
  s.setCopies (fun b x => { x with now := x.now + 1, cycles := s.cyclesOn b + 1, mark := s.free })

/-- One beat of the warden's own work. -/
def State.wardenTurn (s : State) : State := s.loadTurn.storeTurn.fuseTurn

def execBeatBoundary (s : State) : Out := .next s.beat.wardenTurn

end Sys2Proof.Machine
end

