-- ==== Sys2Proof/Machine/Image.lean ====
section
/-! DEFINITION. The control image of a Harvest (R370): each of its words from the state, and the state from its
words (R373). -/
namespace Sys2Proof.Machine

def imageBytes : Nat := 0x1210000

/-! ## Tile records -/

/-- A word of a context's part of the record, at its offset from the context's base. -/
def Tile.ctxWord (T : Tile) (x : Bool) (off : Nat) : BitVec 64 :=
  let c := T.ctx x
  if off = 0x00 then word64 [(T.crop.num, 8), (T.stream.num, 0)]
  else if off = 0x08 then BitVec.ofNat 64 c.pc
  else if off = 0x10 then c.icount
  else if off = 0x18 then c.entry.setWidth 64
  else if 0x20 ≤ off ∧ off < 0x60 then
    match c.loops[(off - 0x20) / 16]? with
    | some l => if off % 16 = 0 then word64 [(l.stop % 2 ^ 14, 16), (l.start % 2 ^ 14, 0)] else BitVec.ofNat 64 l.passes
    | none => 0
  else if off = 0x60 then BitVec.ofNat 64 c.vl
  else if off = 0x68 ∧ !x then T.regs.cropCtrl
  else if off = 0x70 ∧ !x then T.regs.mxCtrl.setWidth 64
  else if 0x80 ≤ off ∧ off < 0x100 then T.flagsWord x ((off - 0x80) / 8)
  else if 0x100 ≤ off ∧ off < 0x200 then T.sreg x ((off - 0x100) / 8)
  else 0

def Tile.recordWord (T : Tile) (off : Nat) : BitVec 64 :=
  if off < 0x400 then T.ctxWord (decide (0x200 ≤ off)) (off % 0x200)
  else if off < 0xA00 then T.ctx0.cvt.read (off - 0x400)
  else T.ctx1.cvt.read (off - 0xA00)

/-! ## Device section -/

/-- Eight generations of collective slots, one byte each. -/
def State.genWord (s : State) (k : Nat) : BitVec 64 :=
  word64 ((List.range 8).map (fun i => ((s.colls (8 * k + i)).gen % 256, 8 * i)))

/-- Beat at which the step began, from its Sowing Log record. -/
def State.runBeat (s : State) : BitVec 64 :=
  if s.sow.en then BitVec.ofNat 64 (leField (s.hbmBytes (s.sow.addr s.hrv.step.toNat) 512) 0xA0 8) else 0

def State.deviceWord (s : State) (off : Nat) : BitVec 64 :=
  if off < 0x30 then (Train.of s).read off
  else if off = 0x30 then s.hrv.step
  else if off = 0x38 then s.hrv.season.setWidth 64
  else if off = 0x40 then s.hrv.beat
  else if off = 0x48 then s.runBeat
  else if off = 0x50 then BitVec.ofNat 64 (s.net.rotGen % 256)
  else if off = 0x58 then BitVec.ofNat 64 (s.net.voteGen % 256)
  else if 0x100 ≤ off ∧ off < 0x200 then s.genWord ((off - 0x100) / 8)
  else if 0x200 ≤ off ∧ off < 0x240 then s.readFd ((off - 0x200) / 16) (0x08 + off % 16)
  else if off = 0x300 then s.readSteward 0x410
  else 0

/-- The image, word by word; CDT_MX_CTRL as it is in force. -/
def State.imageWord (s : State) (off : Nat) : BitVec 64 :=
  if off < 0x10000 then s.deviceWord off
  else
    let k := (off - 0x10000) / 0x1000
    let T := s.tile (k / 144) (k % 144)
    { T with regs := { T.regs with mxCtrl := s.mxCtrlOf T } }.recordWord ((off - 0x10000) % 0x1000)

def State.image (s : State) : List Byte :=
  (List.range (imageBytes / 8)).flatMap (fun i => leBytes 8 (s.imageWord (8 * i)).toNat)

/-! ## Back into the state -/

/-- A context from the words of its part of a record. -/
def Ctx.ofWords (g : Nat → BitVec 64) (cvt : CvtBank) : Ctx :=
  let loop (i : Nat) : LoopEntry :=
    ⟨bits (g (0x20 + 16 * i)) 13 0, bits (g (0x20 + 16 * i)) 29 16, (g (0x28 + 16 * i)).toNat⟩
  { entry := BitVec.ofNat 14 (g 0x18).toNat, pc := (g 0x08).toNat, icount := g 0x10
    loops := ((List.range 4).map loop).takeWhile (fun l => l != ⟨0, 0, 0⟩)
    sregs := tableOf 0 32 (fun r => g (0x100 + 8 * r)), vl := (g 0x60).toNat
    flags := tableOf 0 64 (fun f => BitVec.ofNat 16 (bits (g (0x80 + 8 * (f / 4))) (16 * (f % 4) + 15) (16 * (f % 4))))
    layout := [], cvt := cvt, fresh := false }

/-- A converter bank from its words (R63). -/
def CvtBank.ofWords (g : Nat → BitVec 64) : CvtBank :=
  { ctrl := BitVec.ofNat 6 (g 0x00).toNat, seed := g 0x08, scount := BitVec.ofNat 32 (g 0x10).toNat
    rmaxT := BitVec.ofNat 32 (g 0x18).toNat, satcnt := BitVec.ofNat 32 (g 0x20).toNat
    flags := BitVec.ofNat 8 (g 0x28).toNat, prior := none
    scale := tableOf scaleReset 64 (fun r => BitVec.ofNat 32 (g (0x100 + 8 * r)).toNat)
    rmax := tableOf 0 64 (fun r => BitVec.ofNat 32 (g (0x300 + 8 * r)).toNat) }

/-- CDT_MX_CTRL as a restore leaves it: SAFETY_LOCK holds ABFT_DIS, HAZARD_MON needs debug mode. -/
def mxRestored (locked debug : Bool) (v : BitVec 64) : BitVec 3 :=
  BitVec.ofNat 3 v.toNat &&& (if debug then 7 else 3) &&& (if locked then 6 else 7)

/-- A tile from its record: at rest, crops empty, accumulators with layout 0 (R367, R373). -/
def Tile.ofRecord (T : Tile) (locked debug : Bool) (g : Nat → BitVec 64) : Tile :=
  { T with
    stream := if (g 0).toNat % 8 = 2 then .halted else .idle
    crop := .empty, active := false, stall := .none, leaving := false, switching := false
    ctx0 := Ctx.ofWords g (CvtBank.ofWords (fun o => g (0x400 + o)))
    ctx1 := Ctx.ofWords (fun o => g (0x200 + o)) (CvtBank.ofWords (fun o => g (0xA00 + o)))
    regs := { T.regs with cropCtrl := g 0x68 &&& 0xFFFFFF01, mxCtrl := mxRestored locked debug (g 0x70) } }

/-- MD_LS and MD_VOTE registers from the image. -/
def Train.ofImage (t : Train) (g : Nat → BitVec 64) : Train :=
  { t with
    scale := BitVec.ofNat 32 (g 0x00).toNat
    backoff := BitVec.ofNat 32 (bits (g 0x08) 31 0), growth := BitVec.ofNat 32 (bits (g 0x08) 63 32)
    smin := BitVec.ofNat 32 (bits (g 0x10) 31 0), smax := BitVec.ofNat 32 (bits (g 0x10) 63 32)
    clean := BitVec.ofNat 32 (bits (g 0x18) 31 0), interval := BitVec.ofNat 16 (bits (g 0x18) 47 32)
    straggler := BitVec.ofNat 2 (bits (g 0x20) 1 0), voteSat := (g 0x20).getLsbD 2
    vtimeout := BitVec.ofNat 32 (bits (g 0x20) 63 32)
    vote := BitVec.ofNat 8 (bits (g 0x28) 7 0), vvalid := (g 0x28).getLsbD 8
    vstep := BitVec.ofNat 32 (bits (g 0x28) 63 32) }

def FactorDie.ofImage (F : FactorDie) (base geom : BitVec 64) : FactorDie :=
  { F with
    base := BitVec.ofNat 48 base.toNat, slotBytes := BitVec.ofNat 19 (bits geom 41 23)
    slots := BitVec.ofNat 23 (bits geom 22 0), valid := bits geom 22 0 != 0 }

def sitesOfWord (w : BitVec 64) : Sites :=
  ⟨BitVec.ofNat 32 (bits w 63 32), BitVec.ofNat 2 (bits w 7 6), BitVec.ofNat 5 (bits w 5 1),
    BitVec.ofNat 2 (bits w 15 14), BitVec.ofNat 5 (bits w 13 9)⟩

/-- The control image applied: `g` gives its words. Tile records go by logical number; a retired die has no tiles
to receive them. -/
def State.applyImage (s : State) (g : Nat → BitVec 64) : State :=
  let s := s.mapTrain (fun t => t.ofImage g)
  let s : State := { s with
    net := { s.net with rotGen := bits (g 0x50) 7 0, voteGen := bits (g 0x58) 7 0 }, sites := sitesOfWord (g 0x300) }
  let s := (List.range 256).foldl (fun s k =>
    s.setColl k { s.colls k with gen := bits (g (0x100 + 8 * (k / 8))) (8 * (k % 8) + 7) (8 * (k % 8)) }) s
  let s := (List.range 4).foldl (fun s f =>
    s.setFd f ((s.fd f).ofImage (g (0x200 + 16 * f)) (g (0x208 + 16 * f)))) s
  (List.range 4608).foldl (fun s k =>
    let d := k / 144
    if (s.die d).retired then s
    else
      s.setTile d (k % 144) ((s.tile d (k % 144)).ofRecord s.safetyLock (s.die d).debug
        (fun o => g (0x10000 + 0x1000 * k + o)))) s

end Sys2Proof.Machine
end

