-- ==== Sys2Proof/Machine/Harvest.lean ====
section
/-! DEFINITION. Harvests and restores (R366-R373, R382). -/
namespace Sys2Proof.Machine

/-! ## Commands that configure -/

/-- R382. -/
def execHarvestCfg (cid : Nat) (s : State) : Out :=
  s.withCmd cid 0x0801 (fun s c =>
    if s.harvesting then s.reply c stBusy 0
    else
      let s := { s with hrv := { s.hrv with
        interval := BitVec.ofNat 32 (c.u 0 4), auto := c.u 4 1 % 2 == 1, regionAddr := BitVec.ofNat 48 (c.u 8 8)
        regions := BitVec.ofNat 32 (c.u 0x10 4), stage := BitVec.ofNat 48 (c.u 0x18 8)
        hold := BitVec.ofNat 48 (c.u 0x20 8), peerHold := BitVec.ofNat 48 (c.u 0x28 8)
        area := BitVec.ofNat 64 (c.u 0x30 8) } }
      s.reply c stOk 0)

/-- R366: the next committed step is a Harvest point. -/
def execHarvestTake (cid : Nat) (s : State) : Out :=
  s.withCmd cid 0x0802 (fun s c => { s with hrv := { s.hrv with take := true } }.reply c stOk 0)

/-! ## Regions and shards (R368) -/

structure Region where
  addr : Nat
  len  : Nat
  kind : Nat
  deriving DecidableEq, Repr

structure Shard where
  kind  : Nat
  stack : Nat
  part  : Nat
  src   : Nat
  len   : Nat
  off   : Nat
  tally : List Byte
  deriving DecidableEq, Repr

/-- The first chunk of a stack, counted within the stack, at or after an address. -/
def firstChunk (quadLocal : Bool) (k a : Nat) : Nat :=
  if quadLocal then
    let q := a / 0x4800000000
    let c := a % 0x4800000000 / 4096
    if q < k / 8 then 0
    else if k / 8 < q then 0x4800000000 / 2 ^ 15
    else c / 8 + natOf (decide (k % 8 < c % 8))
  else a / 4096 / 32 + natOf (decide (k < a / 4096 % 32))

def partChunks : Nat := 2 ^ 18

/-- The shards of a region, by stack and part. -/
def Region.shards (quadLocal : Bool) (r : Region) : List Shard :=
  (List.range 32).flatMap (fun k =>
    let n := firstChunk quadLocal k (r.addr + r.len) - firstChunk quadLocal k r.addr
    (List.range ((n + partChunks - 1) / partChunks)).map (fun p =>
      ⟨r.kind, k, p, r.addr, 4096 * min partChunks (n - partChunks * p), 0, []⟩))

/-- Where a shard's chunks lie, in order. -/
def Shard.chunks (quadLocal : Bool) (x : Shard) : List Nat :=
  let first := firstChunk quadLocal x.stack x.src + partChunks * x.part
  (List.range (x.len / 4096)).map (fun i => hbmAddr quadLocal x.stack (4096 * (first + i)))

/-- A shard's bytes, or the first error's code and address. -/
def State.readChunks (s : State) (got : List Byte) : List Nat → State × (List Byte ⊕ (Nat × Nat))
  | [] => (s, .inl got)
  | a :: l =>
    let (s, g) := s.devRead a 4096
    match g.err with
    | some (code, off) => (s, .inr (code, a + off))
    | none => s.readChunks (got ++ g.data) l

def State.writeChunks (s : State) (b : List Byte) : List Nat → State × Option Nat
  | [] => (s, none)
  | a :: l =>
    match s.devWrite a (b.take 4096) with
    | (s, some (code, _)) => (s, some code)
    | (s, none) => s.writeChunks (b.drop 4096) l

def State.readShard (s : State) (x : Shard) : State × (List Byte ⊕ (Nat × Nat)) :=
  s.readChunks [] (x.chunks s.fabric.quadLocal)

/-- Regions as the region list gives them. -/
def regionsOf (n : Nat) (l : List Byte) : List Region :=
  (List.range n).map (fun i => ⟨leField l (32 * i) 8, leField l (32 * i + 8) 8, leField l (32 * i + 16) 1⟩)

def Region.ok (r : Region) : Bool :=
  r.addr % 4096 == 0 && r.len % 4096 == 0 && decide (r.addr + r.len ≤ hbmEnd) && decide (r.kind ≤ 3)

/-! ## The manifest (R369) -/

def manifestBytes : Nat := 0x800000

structure Manifest where
  step   : Nat
  coord  : BitVec 16
  holder : BitVec 16
  season : BitVec 16
  beat   : BitVec 64
  shards : List Shard
  deriving DecidableEq, Repr

/-- Shards placed one after another behind the manifest. -/
def placeShards (l : List Shard) : List Shard :=
  (l.foldl (fun (acc : List Shard × Nat) x => (acc.1 ++ [{ x with off := acc.2 }], acc.2 + x.len))
    ([], manifestBytes)).1

def Shard.entry (x : Shard) : List Byte :=
  leBytes 8 (x.part * 2 ^ 16 + x.stack * 2 ^ 8 + x.kind) ++ leBytes 8 x.src ++ leBytes 8 x.len ++ leBytes 8 x.off
    ++ fitBytes 48 x.tally ++ List.replicate 48 0

def Manifest.head (m : Manifest) : List Byte :=
  fitBytes 0xD0 (leBytes 8 (m.shards.length * 2 ^ 32 + 1) ++ leBytes 8 m.step
    ++ leBytes 8 (m.season.toNat * 2 ^ 32 + m.holder.toNat * 2 ^ 16 + m.coord.toNat) ++ leBytes 8 m.beat.toNat
    ++ leBytes 8 (m.shards.map (fun x => x.len)).sum)

/-- The manifest with STATE INVALID. -/
def Manifest.bytes (m : Manifest) : List Byte :=
  let table := m.shards.flatMap Shard.entry
  m.head ++ sha384 (m.head ++ table) ++ table

def entriesIn? (b : List Byte) : Nat := leField b 4 4

/-- The entry table of a manifest. -/
def shardsOf (b : List Byte) : List Shard :=
  (List.range (entriesIn? b)).map (fun i =>
    let e := (b.drop (0x100 + 128 * i)).take 128
    ⟨leField e 0 1, leField e 1 1 % 32, leField e 2 2, leField e 8 8, leField e 16 8, leField e 24 8,
      (e.drop 0x20).take 48⟩)

/-- MTALLY agrees. -/
def manifestTally (b : List Byte) : Bool :=
  let head := putField (b.take 0xD0) 0x16 1 0
  sha384 (head ++ (b.drop 0x100).take (128 * entriesIn? b)) == (b.drop 0xD0).take 48

def State.shardPlan (s : State) (regions : List Region) : List Shard :=
  placeShards ((⟨s.hrv.stage.toNat, imageBytes, 7⟩ :: regions).flatMap (Region.shards s.fabric.quadLocal))

def State.manifest (s : State) (shards : List Shard) : Manifest :=
  ⟨s.hrv.step.toNat, s.net.coord, s.buddy, s.hrv.season, s.hrv.beat, shards⟩

/-! ## Taking a Harvest (R366) -/

/-- No write of an earlier Harvest to the holder is without its answer. -/
def State.copiesOver (s : State) : Bool :=
  s.net.waiting.all (fun r => !r.who.isHarvest) && s.net.remote.all (fun e => !e.2.busy.any Requester.isHarvest)

/-- Everything that the capture waits for has come to rest. -/
def State.captureQuiet (s : State) : Bool :=
  s.copiesOver && s.mainIdle && s.tiles.all (fun e => e.2.crop != .running)
    && s.fds.all (fun e => e.2.batch.isNone) && s.net.colls.all (fun e => e.2.run.isNone) && s.net.rot.isNone

/-- The regions of the list, or the address at which reading it failed. -/
def State.readRegions (s : State) : State × (List Region ⊕ Nat) :=
  let a := s.hrv.regionAddr.toNat
  let n := s.hrv.regions.toNat
  let (s, g) := s.devRead a (32 * n)
  match g.err with
  | some (_, off) => (s, .inr (a + off))
  | none =>
    let l := regionsOf n g.data
    match l.find? (fun r => !r.ok) with
    | some r => (s, .inr r.addr)
    | none => (s, .inl l)

/-- Bytes of the copy fit the hold area, and its entries the manifest (R371). -/
def State.harvestFits (s : State) (l : List Region) : Bool :=
  decide (imageBytes + (l.map (fun r => r.len)).sum + manifestBytes ≤ s.hrv.area.toNat)
    && decide (0x100 + 128 * (s.shardPlan l).length ≤ manifestBytes)

/-- The control image is written to the staging area. -/
def State.writeImage (s : State) (l : List Byte) : Out :=
  match s.devWrite s.hrv.stage.toNat l with
  | (s, some (_, off)) => .next (s.harvestFail 0x83 (s.hrv.stage.toNat + off))
  | (s, none) => .next { s with hrv := { s.hrv with state := 1, phase := 0 } }

/-- The Harvest of the point that is due begins. -/
def State.takePoint (s : State) : State :=
  let h := s.hrv
  { s with hrv := { h with pointDue := false, step := h.dueStep, beat := h.dueBeat, season := h.dueSeason } }

/-- R366, R371: once everything is at rest and the Harvest before has ended. -/
def execHarvestCapture (s : State) : Out :=
  if s.hrv.pointDue ∧ s.hrv.state ≠ 1 ∧ s.hrv.state ≠ 2 ∧ s.captureQuiet then
    match s.takePoint.readRegions with
    | (s, .inr a) => .next (s.harvestFail 0x83 a)
    | (s, .inl l) => if !s.harvestFits l then .next (s.harvestFail 0x82 0) else s.writeImage s.image
  else .next s

/-! ## Copying -/

/-- Start of the area on the holder that this Harvest goes to. -/
def State.targetArea (s : State) : Nat := s.peerArea (natOf s.hrv.target)

/-- First bytes of a manifest: those up to STATE. -/
def headBytes : Nat := 0x18

/-- A manifest that begins so is COMPLETE. -/
def headComplete (l : List Byte) : Bool := leField l 0 2 == 1 && leField l 0x16 1 == 1

/-- The area for the next Harvest: one without a complete Harvest, or that of the lower STEP (R369); whether it is area
1. -/
def nextArea (h0 h1 : List Byte) : Bool :=
  headComplete h0 && (!headComplete h1 || decide (leField h1 8 8 < leField h0 8 8))

/-- The first words of both manifests of a holder are asked for. -/
def State.readHeads (s : State) (id : Nat → Nat) (dest : BitVec 16) : State :=
  [0, 1].foldl (fun s a => s.remoteRead id dest (s.peerArea a) headBytes) s

/-- The holder's two manifests are asked for (R369): the small-region phase has begun. -/
def State.askHeads (s : State) : State :=
  let s := { s with hrv := { s.hrv with state := 2, phase := 1, left := 2, total := 0, heads := [] } }
  if s.net.coordValid then s.readHeads harvestId s.buddy else s.harvestFail 0x83 0

/-- One write to the holder that carries a word to it in ARG. -/
def State.askHolder (s : State) (a : Nat) (arg : BitVec 64) (l : List Byte) : State :=
  let req : RemoteReq := ⟨.agent 60 (harvestId a), s.buddy, 1, BitVec.ofNat 48 a, arg, l.length, l⟩
  { s with net := { s.net with waiting := s.net.waiting ++ [req] } }

/-- Writes to the holder, and the acknowledgements they will bring. -/
def State.toHolder (s : State) (off : Nat) (l : List Byte) : State :=
  let n := (l.length + 4095) / 4096
  let s := s.remoteWrite harvestId s.buddy (s.targetArea + off) l
  { s with hrv := { s.hrv with left := s.hrv.left + n, total := s.hrv.total + n } }

/-- The shards are read, their Tallies kept, and the bytes sent. -/
def State.sendShards (s : State) : List Shard → State
  | [] => s
  | x :: l =>
    match s.readShard x with
    | (s, .inr (_, a)) => s.harvestFail 0x83 a
    | (s, .inl b) =>
      let s := { s with hrv := { s.hrv with tallies := s.hrv.tallies ++ [sha384 b] } }
      (s.toHolder x.off b).sendShards l

def Shard.small (x : Shard) : Bool := x.kind != 0

/-- The first page of a manifest, which holds STATE. -/
def pageBytes : Nat := 4096

/-- The area is claimed: the first page of its manifest, marked INVALID, goes before everything else (R369). -/
def State.claim (s : State) (m : List Byte) : State :=
  let h := s.hrv
  let s := { s with hrv := { h with
    left := 1, tallies := [], target := nextArea (Table.get [] h.heads 0) (Table.get [] h.heads 1) } }
  s.askHolder s.targetArea claimArg (m.take pageBytes)

/-- A copy phase begins: 2 the area is claimed, 3 its manifest, marked INVALID; 4 small regions; 5 tensors; 6 the
manifest with every Tally. -/
def State.beginPhase (s : State) (phase : Nat) : State :=
  let s := { s with hrv := { s.hrv with phase := phase, left := 0, total := 0 } }
  match s.readRegions with
  | (s, .inr a) => s.harvestFail 0x83 a
  | (s, .inl l) =>
    let plan := s.shardPlan l
    if phase = 2 then s.claim (s.manifest plan).bytes
    else if phase = 3 then s.toHolder pageBytes ((s.manifest plan).bytes.drop pageBytes)
    else if phase = 4 then s.sendShards (plan.filter Shard.small)
    else if phase = 5 then s.sendShards (plan.filter (fun x => !x.small))
    else
      let order := plan.filter Shard.small ++ plan.filter (fun x => !x.small)
      let done := (order.zip s.hrv.tallies).map (fun e => { e.1 with tally := e.2 })
      let tallied := plan.map (fun x => (done.find? (fun y => y.off == x.off)).getD x)
      s.toHolder 0 (s.manifest tallied).bytes

/-- The manifest is written: the holder is asked to check every Tally and to mark it COMPLETE (R368). Its verdict comes
beside the acknowledgement of the write. -/
def State.askCheck (s : State) : State :=
  { s with hrv := { s.hrv with phase := 7, left := 2, total := 0 } }.askHolder (s.targetArea + 0x10) checkArg
    (((s.manifest []).head.drop 0x10).take 8)

/-- The Harvest has completed (R366). -/
def State.harvestDone (s : State) : State :=
  { s with hrv := { s.hrv with
    state := 0, phase := 0, doneStep := s.hrv.step, anyDone := true, total := 0, tallies := [], heads := [] } }

/-- R366, R372: the next phase begins once the holder has answered all of the one before; a claim that the holder's
drain has turned away is made again. -/
def execHarvestPhaseEnd (s : State) : Out :=
  let h := s.hrv
  if h.state = 1 then .next s.askHeads
  else if h.state = 2 ∧ h.left = 0 then
    .next (if h.waits then s.beginPhase 2 else if h.phase < 6 then s.beginPhase (h.phase + 1)
      else if h.phase = 6 then s.askCheck else s.harvestDone)
  else .next s

/-! ## The holder's side (R368, R372) -/

/-- Bytes of this device's memory, whole or an error code. -/
def State.readAll (s : State) (a n : Nat) : State × (List Byte ⊕ Nat) :=
  let (s, g) := s.devRead a n
  match g.err with
  | some (code, _) => (s, .inr code)
  | none => (s, .inl g.data)

/-- A hold area's manifest. -/
def State.readManifest (s : State) (base : Nat) : State × (List Byte ⊕ Nat) :=
  match s.readAll base 0x100 with
  | (s, .inr code) => (s, .inr code)
  | (s, .inl h) => s.readAll base (min manifestBytes (0x100 + 128 * entriesIn? h))

/-- HARVEST_TALLY on this device, with the entry. -/
def State.tallyBad (s : State) (entry : Nat) : State :=
  s.logErr blkSteward { code := 0x84, src := 9, detail := entry }

/-- The first entry whose shard, read back from the area, has another Tally, or an error's code. -/
def State.checkShards (s : State) (base : Nat) : List (Nat × Shard) → State × Option (Nat ⊕ Nat)
  | [] => (s, none)
  | (i, x) :: l =>
    match s.readAll (base + x.off) x.len with
    | (s, .inr code) => (s, some (.inr code))
    | (s, .inl b) => if sha384 b == x.tally then s.checkShards base l else (s, some (.inl i))

def indexed {α : Type} (l : List α) : List (Nat × α) := l.zipIdx.map (fun e => (e.2, e.1))

/-- The manifest's STATE byte. -/
def State.markArea (s : State) (base st : Nat) : State := (s.devWrite (base + 0x16) [BitVec.ofNat 8 st]).1

/-- The holder's verdict on an area goes to the source that asked for it: an acknowledgement, or an error's code. -/
def State.verdict (s : State) (k : Packet) (code : Nat) (entry : Nat := 0) : State :=
  let h := s.hrv
  let s := { s with hrv := { h with
    checks := h.checks.filter (fun x => x != k), coming := h.coming.filter (fun a => s.stateWord a != k.addr.toNat) } }
  let ptype := if code = 0 then 0x04 else 0x05
  s.pushOut (s.newPacket k.src ptype k.gen.toNat k.id.toNat tagHarvest k.addr (errorArg code entry) [])

/-- R368, R371: every shard of an area that a source has asked to have checked, unless its manifest is COMPLETE. -/
def execHarvestTallyCheck (area : Bool) (s : State) : Out :=
  let a := natOf area
  let base := s.holdArea a
  match s.hrv.checks.find? (fun k => k.addr.toNat == s.stateWord a) with
  | none => .next s
  | some k =>
    match s.readManifest base with
    | (s, .inr code) => .next (s.verdict k code)
    | (s, .inl m) =>
      if leField m 0 2 ≠ 1 ∨ leField m 0x16 1 ≠ 0 ∨ !manifestTally m then
        .next ((s.tallyBad (entriesIn? m)).verdict k 0x84 (entriesIn? m))
      else
        match s.checkShards base (indexed (shardsOf m)) with
        | (s, none) => .next ((s.markArea base 1).verdict k 0)
        | (s, some (.inl i)) => .next ((s.tallyBad i).verdict k 0x84 i)
        | (s, some (.inr code)) => .next ((s.logErr blkSteward { code := 0x83, src := 9, addr := base }).verdict k code)

/-- The area that AREA names: 2 is the newest COMPLETE one. -/
def State.drainArea (s : State) (n : Nat) : Option Nat :=
  let step (a : Nat) : Nat := leField (s.hbmBytes (s.holdArea a + 8) 8) 0 8
  let l := [0, 1].filter (fun a => s.holdComplete a && (n == 2 || n == a))
  match l with
  | [a, b] => some (if step a < step b then b else a)
  | a :: _ => some a
  | [] => none

/-- Shards to the node host: bytes drained, and what stopped it. -/
def State.drainShards (s : State) (base host n : Nat) : List (Nat × Shard) → State × Nat × Option (Nat ⊕ Nat)
  | [] => (s, n, none)
  | (i, x) :: l =>
    match s.readAll (base + x.off) x.len with
    | (s, .inr code) => (s, n, some (.inr code))
    | (s, .inl b) =>
      if sha384 b == x.tally then (s.hostPut (host + x.off) b).drainShards base host (n + x.len) l
      else (s, n, some (.inl i))

/-- A drain that a mismatch stops. -/
def State.drainBad (s : State) (base entry : Nat) : State := (s.tallyBad entry).markArea base 0

/-- The drain's reads and writes, the manifest first, and its reply. -/
def State.drainEnd (s : State) (c : Cmd) : State :=
  let base := s.holdArea s.hrv.drain
  let host := c.u 8 8
  match s.readManifest base with
  | (s, .inr code) => s.reply c (stErr code) 0
  | (s, .inl m) =>
    if !manifestTally m then (s.drainBad base (entriesIn? m)).reply c (stErr 0x84) 0
    else
      match (s.hostPut host m).drainShards base host m.length (indexed (shardsOf m)) with
      | (s, n, none) => s.reply c stOk (BitVec.ofNat 64 n)
      | (s, n, some (.inl i)) => (s.drainBad base i).reply c (stErr 0x84) (BitVec.ofNat 64 n)
      | (s, n, some (.inr code)) => s.reply c (stErr code) (BitVec.ofNat 64 n)

/-- R372: the drain begins, and ends at the command's next event. -/
def execHarvestDrain (cid : Nat) (s : State) : Out :=
  match s.runningCmd cid with
  | some c => .next (if c.op = 0x0803 then s.drainEnd c else s)
  | none =>
    s.withCmd cid 0x0803 (fun s c =>
      match s.drainArea (c.u 0 1) with
      | none => s.reply c stBusy 0
      | some a => { s with hrv := { s.hrv with drain := a } }.running c)

/-! ## Restore (R373) -/

/-- A restore has failed: RUN_START, UPDATE, FACTOR_BATCH, COLL and ROTATE are refused. -/
def State.restoreFails (s : State) (verifyOnly : Bool) : State :=
  if verifyOnly then s else { s with hrv := { s.hrv with restoreBad := true, state := 4 } }

/-- A manifest that begins so is COMPLETE and of the step asked for, 0 for any. -/
def headFits (step : Nat) (l : List Byte) : Bool := headComplete l && (step == 0 || leField l 8 8 == step)

/-- No SOW_CFG has named a buddy: a spare elsewhere, which keeps its own coordinate (R377). -/
def State.buddyless (s : State) : Bool := s.sow.records == 0

/-- The manifest is that of the COMPLETE Harvest asked for, and of this device, or of the one that a spare elsewhere
takes the place of (R373, R377). -/
def State.manifestFits (s : State) (m : List Byte) (step : Nat) : Bool :=
  headFits step m && manifestTally m && (s.buddyless || leField m 0x10 2 == s.net.coord.toNat)

/-- The RESTORE record (R362). -/
def restoreRecord (s : State) (step : Nat) (m : List Byte) : List Byte :=
  fitBytes 0x1F8
    (leBytes 8 step ++ leBytes 8 (s.alm.season.toNat + 2 * 2 ^ 16) ++ List.replicate 0x90 0
      ++ leBytes 8 s.alm.now.toNat ++ (m.drop 0x18).take 8 ++ List.replicate 0x20 0
      ++ leBytes 8 (0xFF * 2 ^ 40))

/-- Every shard written to its stack, up to an error. -/
def State.restoreShards (s : State) : List (Shard × List Byte) → State × Option Nat
  | [] => (s, none)
  | (x, b) :: l =>
    match s.writeChunks b (x.chunks s.fabric.quadLocal) with
    | (s, some code) => (s, some code)
    | (s, none) => s.restoreShards l

/-- What follows the shards: the control image, the mirror ring, the record. -/
def State.restoreEnd (s : State) (m mirror : List Byte) (withMirror : Bool) : State :=
  let step := leField m 8 8
  let s := match (shardsOf m).find? (fun x => x.kind == 7) with
    | some x => s.applyImage (fun o => BitVec.ofNat 64 (ofLe (s.hbmBytes (x.src + o) 8)))
    | none => s
  let s := if withMirror then
      (s.devWrite s.sow.base.toNat (fitBytes (512 * s.sow.records.toNat) mirror)).1
    else s
  let s := if s.buddyless then s
    else
      let s := (s.writeRecord step (restoreRecord s step m)).1
      { s with sow := { s.sow with step := BitVec.ofNat 64 step, isOpen := false, replay := false, any := true } }
  { s with hrv := { s.hrv with
    state := 0, phase := 0, pointDue := false, left := 0, heads := [], restoreBad := false
    doneStep := BitVec.ofNat 64 step, anyDone := true } }

/-- VERIFY_ONLY: the Harvest is checked and nothing is written. -/
def Cmd.verifyOnly (c : Cmd) : Bool := c.u 1 1 / 2 % 2 == 1

/-- A restore is over: a Harvest that was under way has been given up with its beginning. -/
def State.endRestore (s : State) : State := { s with hrv := { s.hrv with restore := none } }

/-- The restore of what has been read, and its reply. -/
def State.restoreWith (s : State) (c : Cmd) (manifest : List Byte) (shards : List (List Byte)) (mirror : List Byte) :
    State :=
  let l := (shardsOf manifest).zipIdx.map (fun e => (e.1, fitBytes e.1.len (shards.getD e.2 [])))
  let (s, e) := if c.verifyOnly then (s, none) else s.restoreShards l
  match e with
  | some code => (s.restoreFails false).reply c (stErr code) 0
  | none =>
    match (indexed l).find? (fun y => sha384 y.2.2 != y.2.1.tally) with
    | some y =>
      ((s.logErr blkSteward { code := 0x86, src := 9, icount := c.tag.toNat, detail := y.1 }).restoreFails
        c.verifyOnly).reply c (stErr 0x86) 0
    | none =>
      let step := BitVec.ofNat 64 (leField manifest 8 8)
      if c.verifyOnly then s.reply c stOk step
      else (s.restoreEnd manifest mirror (c.u 1 1 % 2 == 1)).reply c stOk step

/-- R373: no such area, or its manifest is not right. -/
def State.noManifest (s : State) (c : Cmd) : State :=
  ((s.endRestore.logErr blkSteward { code := 0x85, src := 9, icount := c.tag.toNat }).restoreFails c.verifyOnly).reply c
    (stErr 0x85) 0

/-! ### Reading the holder -/

/-- Bytes of the holder that the restore has read. -/
def Restore.bytes (r : Restore) (a n : Nat) : List Byte :=
  ((List.range ((n + 4095) / 4096)).flatMap (fun i => Table.get [] r.got (a + 4096 * i))).take n

/-- The holder that the command names. -/
def Cmd.holder (c : Cmd) : BitVec 16 := BitVec.ofNat 16 (c.u 2 2)

/-- READ requests of a restore, and the answers they will bring; without a coordinate they fail at once. -/
def State.fetchHolder (s : State) (c : Cmd) (r : Restore) (l : List (Nat × Nat)) : State :=
  let n := (l.map (fun e => (e.2 + 4095) / 4096)).sum
  let put (r : Restore) : State := { s with hrv := { s.hrv with restore := some r } }
  if s.net.coordValid then
    l.foldl (fun s e => s.remoteRead restoreId c.holder e.1 e.2) (put { r with left := n, got := [] })
  else put { r with left := 0, got := [], err := if n = 0 then none else some 0x22 }

/-- The holder's mirror ring of this device, where the command asks for it. -/
def State.mirrorRange (s : State) (c : Cmd) : List (Nat × Nat) :=
  if c.u 1 1 % 2 = 1 ∧ c.verifyOnly = false then [(s.sow.mirrorOut.toNat, 512 * s.sow.records.toNat)] else []

/-- The source is the node host. -/
def Cmd.fromHost (c : Cmd) : Bool := c.u 0 1 == 1

/-- A restore begins with the two manifests, or, from a drained copy, with the mirror ring. A Harvest under way is given
up. -/
def State.startRestore (s : State) (c : Cmd) : State :=
  let h := s.hrv
  let r : Restore := ⟨c.cid, 0, 0, 0, [], [], none⟩
  let s : State := if c.verifyOnly then s
    else { s with hrv := { h with state := 0, phase := 0, pointDue := false, left := 0, waits := false } }
  if c.fromHost then s.fetchHolder c { r with phase := 2 } (s.mirrorRange c)
  else s.fetchHolder c r [(s.peerArea 0, headBytes), (s.peerArea 1, headBytes)]

/-- The area of the holder that the command asks for: the newest COMPLETE one of its STEP. -/
def State.restoreArea (s : State) (step : Nat) (r : Restore) : Option Nat :=
  let head (a : Nat) : List Byte := r.bytes (s.peerArea a) headBytes
  match [0, 1].filter (fun a => headFits step (head a)) with
  | [a, b] => some (if leField (head a) 8 8 < leField (head b) 8 8 then b else a)
  | a :: _ => some a
  | [] => none

/-- The next reads of a restore from the holder, or its end. -/
def State.restoreStep (s : State) (c : Cmd) (r : Restore) : State :=
  if r.phase = 0 then
    match s.restoreArea (c.u 8 8) r with
    | none => s.noManifest c
    | some a =>
      let n := 0x100 + 128 * entriesIn? (r.bytes (s.peerArea a) headBytes)
      s.fetchHolder c { r with phase := 1, base := s.peerArea a } [(s.peerArea a, min manifestBytes n)]
  else if r.phase = 1 then
    let m := r.bytes r.base manifestBytes
    if s.manifestFits m (c.u 8 8) then
      s.fetchHolder c { r with phase := 2, manifest := m }
        ((shardsOf m).map (fun x => (r.base + x.off, x.len)) ++ s.mirrorRange c)
    else s.noManifest c
  else
    s.endRestore.restoreWith c r.manifest ((shardsOf r.manifest).map (fun x => r.bytes (r.base + x.off) x.len))
      (r.bytes s.sow.mirrorOut.toNat (512 * s.sow.records.toNat))

/-- What follows once every read has its answer: an error response ends the restore as failed. -/
def State.restoreTurn (s : State) (c : Cmd) (manifest : List Byte) (shards : List (List Byte)) : State :=
  match s.hrv.restore with
  | none => s
  | some r =>
    if r.left ≠ 0 then s
    else
      match r.err with
      | some code => (s.endRestore.restoreFails c.verifyOnly).reply c (stErr code) 0
      | none =>
        if c.fromHost then
          if s.manifestFits manifest (c.u 8 8) then
            s.endRestore.restoreWith c manifest shards (r.bytes s.sow.mirrorOut.toNat (512 * s.sow.records.toNat))
          else s.noManifest c
        else s.restoreStep c r

/-- R373: the restore begins on a quiescent device and goes on at its command's later events: it reads the holder, and
with SOURCE 1 the drained copy that lies at HOST_ADDR, whose first 256 bytes, entry table and shards the operands
give. -/
def execHarvestRestore (cid : Nat) (head entries : List Byte) (shards : List (List Byte)) (s : State) : Out :=
  match s.runningCmd cid with
  | some c => .next (if c.op = 0x0804 then s.restoreTurn c (fitBytes 0x100 head ++ entries) shards else s)
  | none =>
    s.withCmd cid 0x0804 (fun s c =>
      if !s.quiescent || s.hrv.restore.isSome then s.reply c stBusy 0 else (s.startRestore c).running c)

end Sys2Proof.Machine
end

