-- ==== Sys2Proof/Machine/Matrix.lean ====
section
/-! DEFINITION. The matrix array, the accumulator tiles, their checker and the accumulator side of the
writeback converter (R53-R61, R69-R98). -/
namespace Sys2Proof.Machine

/-- The k-slice of an operand format (R69). -/
def kSlice (fmt : Nat) : Nat :=
  match fmt with
  | 0 => 2
  | 1 => 8
  | 2 => 32
  | 3 => 32
  | 6 => 128
  | _ => 64

/-- Layout of an operand format's results (R69, R74). -/
def fmtLayout (fmt : Nat) : Nat :=
  match fmt with
  | 0 => layPair
  | 1 => layFloat
  | 2 => layFloat
  | 3 => layFloat
  | 6 => layFixed4
  | _ => layFixed8

/-- Bytes of an operand block of a format (R69). -/
def blockBytes (fmt : Nat) : Nat := 64 * kSlice fmt * fmtWidth fmt / 8

/-- Whether A and B may be paired (R46): one format, or the two FP8 variants. -/
def fmtPairs (a b : Nat) : Bool := a == b || ((a == 4 || a == 5) && (b == 4 || b == 5))

/-- The accumulator tiles that an instruction names: both of a pair. -/
def accNames (acc : Nat) (pair : Bool) : List Nat := if pair then [acc, acc + 1] else [acc]

/-- A block passes the size check: a placeholder, or the size that R69 gives (R70, R146). -/
def OqBlock.fits (b : OqBlock) (n : Nat) : Bool := b.hole || b.size == n

/-- The conditions of R73 for an MMA, in the table's order. -/
def mmaChecks (T : Tile) (c : Nat) (w : BitVec 64) : List (Bool × Nat) :=
  let acc := mAcc w
  let fa := mFmtA w
  let fb := mFmtB w
  let pair := fa == 0
  let names := accNames acc pair
  let blk (n : Nat) (f : Nat) : Bool := (T.oqm[n]?.map (fun b => b.fits (blockBytes f))).getD false
  [ (wOpc w != 0 || bits w 43 16 != 0, 0x01),
    (7 ≤ fa || 7 ≤ fb || !fmtPairs fa fb, 0x03),
    (pair && acc % 2 == 1, 0x07),
    (mAdd w && names.any (fun a => T.layout T.active a != fmtLayout fa), 0x08),
    (decide (c < T.times.array), 0x0B),
    (names.any (fun a => (T.acc a).busy || T.pinned a), 0x09),
    (!(blk 0 fa && blk 1 fb), 0x1A) ]

/-- An MMA at its issue cycle: its blocks are taken and the tile's busy bit is set (R70, R81). -/
def State.mmaIssue (s : State) (d t c : Nat) (q : QEntry) : State :=
  let T := s.tile d t
  let w := q.word
  match firstCode (mmaChecks T c w) with
  | some code =>
    let s := s.setTile d t (if wOpc w = 0 then { T with oqm := T.oqm.drop 2 } else T)
    s.skip d t q code
  | none =>
    let fa := mFmtA w
    let fb := mFmtB w
    let take (n f : Nat) : List Byte :=
      match T.oqm[n]? with
      | some b => if b.hole then List.replicate (blockBytes f) 0 else b.data
      | none => []
    let hole := (T.oqm.take 2).any OqBlock.hole
    let acc : Fin 8 := Fin.ofNat 8 (mAcc w)
    let job : MmaJob :=
      ⟨q.count, T.active, acc, mAdd w, fa, fb, take 0 fa, take 1 fb, c + 76⟩
    let T := (accNames acc.val (fa == 0)).foldl (fun T a => T.setAcc a { T.acc a with busy := true })
      { T with oqm := T.oqm.drop 2, mmas := T.mmas ++ [job], times := { T.times with array := c + 64 } }
    let s := s.setTile d t T
    if hole then s.logTile d t q 0x12 0 else s

/-- R69-R73: MMA, and every reserved opcode of the matrix engine. -/
def execMma (d : Fin 32) (t : Fin 144) (c : Nat) (s : State) : Out :=
  s.execHead d.val t.val c (isOpOr 2 0 4) (fun s q => s.mmaIssue d.val t.val c q)

/-- Operand values of a block, in row-major order (R70). -/
def opVals (fmt : Nat) (l : List Byte) : Array FVal :=
  match fmtOf fmt with
  | none => #[]
  | some f => ((unpackCodes f.width l).map f.decode).toArray

/-- The factors of element (i, j) over the k-slice. -/
def kPairs (a b : Array FVal) (k i j : Nat) : List (FVal × FVal) :=
  let z := FVal.fin false 0 0
  (List.range k).map (fun n => (a.getD (i * k + n) z, b.getD (n * 64 + j) z))

/-- Values of a bank's element, in the layout in force. -/
def elemVal (layout : Nat) (hi lo : Table (BitVec 72)) (e : Nat) : FVal :=
  if layout = layPair then pairVal (Table.get 0 hi e) (Table.get 0 lo e)
  else w72Val layout (Table.get 0 hi e)

/-- The addend terms of an element: HI and LO of a pair, or the old word (R76-R78). -/
def addends (layout : Nat) (hi lo : Table (BitVec 72)) (e : Nat) : List FVal :=
  if layout = layPair then
    [fp64.decode (bits (Table.get 0 hi e) 63 0), fp64.decode (bits (Table.get 0 lo e) 63 0)]
  else [w72Val layout (Table.get 0 hi e)]

/-- The new element values of an MMA with their flags, element by element (R76-R78). -/
def MmaJob.result (j : MmaJob) (oldHi oldLo : Table (BitVec 72)) : List (W72 × W72 × FpFlags) :=
  let lay := fmtLayout j.fmtA
  let k := kSlice j.fmtA
  let a := opVals j.fmtA j.a
  let b := opVals j.fmtB j.b
  (List.range 4096).map (fun e =>
    mmaElem lay (kPairs a b k (e / 64) (e % 64)) (if j.add then addends lay oldHi oldLo e else []))

/-- A visible bank of an accumulator tile. -/
def Tile.visBank (T : Tile) (a : Nat) : Table (BitVec 72) := (T.acc a).bank (T.acc a).visible

/-- The checker is off: ABFT_DIS in maintenance mode (R92); under SAFETY_LOCK the field holds its reset value 0 (R11,
R95). -/
def State.abftOff (s : State) (T : Tile) : Bool := T.regs.mxCtrl.getLsbD 0 && s.maint && !s.safetyLock

/-- The result of the oldest MMA: its banks are exchanged, its busy bits clear, its layout is in force (DESIGN CHOICE,
log entry 119), its flags are recorded (R75, R79). `upset` is a hardware fault in one element of the value made
visible. A result that falls while checking is off gets no verdict (DESIGN CHOICE, log entry 120). -/
def State.mmaResult (s : State) (d t : Nat) (upset : Option (Fin 4096 × BitVec 72)) (j : MmaJob) : State :=
  let T := s.tile d t
  let lay := fmtLayout j.fmtA
  let pair := lay == layPair
  let a := j.acc.val
  let oldHi := T.visBank a
  let oldLo := if pair then T.visBank (a + 1) else []
  let r := j.result oldHi oldLo
  let hi := tableOfList 0 (r.map (·.1))
  let lo := if pair then tableOfList 0 (r.map (fun x => x.2.1)) else []
  let hi := match upset with
    | some (e, v) => Table.set 0 hi e.val v
    | none => hi
  let T := T.setAcc a ((T.acc a).exchange hi)
  let T := if pair then T.setAcc (a + 1) ((T.acc (a + 1)).exchange lo) else T
  let T := (accNames a pair).foldl (fun T n => T.setLayout j.ctx n lay) T
  let T := T.addPend j.count j.due (.cvtUpdate j.ctx none 0 (allFlags (r.map (fun x => x.2.2))))
  let job : AbftJob := ⟨j, if j.add then oldHi else [], if j.add then oldLo else [], hi, lo⟩
  s.setTile d t { T with mmas := T.mmas.drop 1, abft := if s.abftOff T then T.abft else T.abft ++ [job] }

/-- R75: the oldest MMA reaches its result cycle. -/
def execMmaResultCycle (d : Fin 32) (t : Fin 144) (upset : Option (Fin 4096 × BitVec 72)) (s : State) :
    Out :=
  match (s.tile d.val t.val).mmas with
  | [] => .next s
  | j :: _ => s.ownEvent d.val t.val j.due (fun s => s.mmaResult d.val t.val upset j)

/-- Verdicts of the 64 columns and of the 64 rows (R88-R90). -/
def AbftJob.verdicts (x : AbftJob) : List LineVerdict × List LineVerdict :=
  let j := x.mma
  let lay := fmtLayout j.fmtA
  let k := kSlice j.fmtA
  let a := opVals j.fmtA j.a
  let b := opVals j.fmtB j.b
  let z := FVal.fin false 0 0
  let elem (hi lo : Table (BitVec 72)) : Array (FVal × Dyad) :=
    ((List.range 4096).map (fun e =>
      let v := elemVal lay hi lo e
      (v, if lay = layPair then pairMag (Table.get 0 hi e) (Table.get 0 lo e) else v.dyad.abs))).toArray
  let new := elem x.new x.newLo
  let old := elem x.old x.oldLo
  let dz := (z, Dyad.zero)
  let colSum := (List.range k).map (fun n => sumTerms ((List.range 64).map (fun i => a.getD (i * k + n) z)))
  let rowSum := (List.range k).map (fun n => sumTerms ((List.range 64).map (fun i => b.getD (n * 64 + i) z)))
  let col (i : Nat) : LineVerdict :=
    lineVerdict lay ((List.range 64).map (fun r => new.getD (r * 64 + i) dz))
      (if j.add then (List.range 64).map (fun r => old.getD (r * 64 + i) dz) else [])
      (colSum.zipIdx.map (fun p => (p.1, b.getD (p.2 * 64 + i) z)))
  let row (i : Nat) : LineVerdict :=
    lineVerdict lay ((List.range 64).map (fun r => new.getD (i * 64 + r) dz))
      (if j.add then (List.range 64).map (fun r => old.getD (i * 64 + r) dz) else [])
      (rowSum.zipIdx.map (fun p => (p.1, a.getD (i * k + p.2) z)))
  ((List.range 64).map col, (List.range 64).map row)

/-- First failing line, or 0xFF (R98). -/
def firstFail (l : List LineVerdict) : Nat :=
  if l.any (· == .fail) then l.findIdx (· == .fail) else 0xFF

/-- CDT_ABFT_FIRST of a failure (R98). -/
def abftRecord (j : MmaJob) (col row : Nat) : BitVec 64 :=
  BitVec.ofNat 64 (bits j.count 31 0 * 2 ^ 32 + j.acc.val * 2 ^ 29 + fmtLayout j.fmtA * 2 ^ 27
    + col % 256 * 2 ^ 8 + row % 256)

/-- R374: the runtime retires the die of a tile after its second mismatch in one Season, or after one that only columns
or only rows show. -/
def State.condemn (s : State) (d : Nat) : State :=
  if s.sd.condemned.contains d then s else { s with sd := { s.sd with condemned := s.sd.condemned ++ [d] } }

/-- What a failed verdict does (R91, R374). -/
def State.abftFail (s : State) (d t : Nat) (j : MmaJob) (col row : Nat) : State :=
  let T := s.tile d t
  let rec64 := abftRecord j col row
  let halts := T.regs.mxCtrl.getLsbD 1 && (T.stream == .run || T.stream == .halted)
  let T := { T with
    regs := { T.regs with
      abftFirst := if T.regs.abftMis then T.regs.abftFirst else rec64
      abftMis := true
      abftHalt := T.regs.abftHalt || halts
      mismatch := BitVec.ofNat 32 (satInc 0xFFFFFFFF T.regs.mismatch.toNat) }
    flawed := some s.alm.season
    stream := if halts then .abftHalt else T.stream }
  let lost := (s.tile d t).flawed == some s.alm.season || col == 0xFF || row == 0xFF
  let s := (s.setTile d t T).logErr d
    { code := 0x30, src := 3, unit := t, ctx := j.ctx, icount := bits j.count 31 0,
      detail := bits rec64 31 0, hold := halts }
  if lost then s.condemn d else s

/-- The verdict on the oldest result (R89, R90). -/
def State.abftJudge (s : State) (d t : Nat) (x : AbftJob) : State :=
  let T := s.tile d t
  let s := s.setTile d t { T with abft := T.abft.drop 1 }
  if s.abftOff T then s
  else
    let (cols, rows) := x.verdicts
    let n := (cols ++ rows).countP (· == .unchecked)
    let T := s.tile d t
    let s := s.setTile d t { T with regs := { T.regs with
      linesUn := BitVec.ofNat 32 (satAdd 0xFFFFFFFF T.regs.linesUn.toNat n) } }
    let c := firstFail cols
    let r := firstFail rows
    if c = 0xFF ∧ r = 0xFF then s else s.abftFail d t x.mma c r

/-- R89: at the result cycle + 16 every line passes, one fails, or none is compared. -/
def execAbftVerdict (d : Fin 32) (t : Fin 144) (s : State) : Out :=
  match (s.tile d.val t.val).abft with
  | [] => .next s
  | x :: _ => s.ownEvent d.val t.val (x.mma.due + 16) (fun s => s.abftJudge d.val t.val x)

/-! ## Readers -/

/-- The writers in flight to a tile, oldest first: their counts (R84). -/
def Tile.writersOf (T : Tile) (a : Nat) : List (BitVec 64) :=
  (T.mmas.filter (fun j => (accNames j.acc.val (j.fmtA == 0)).contains a)).map MmaJob.count
    ++ (T.loads.filter (fun j => j.acc.val == a)).map LoadJob.count

/-- The hazard monitor (R84): in debug mode, with HAZARD_MON, unless the reader has EARLY_OK. Of the tiles that a
reader reads, the first with a writer in flight is logged. -/
def State.hazard (s : State) (d t : Nat) (q : QEntry) (accs : List Nat) (early : Bool) : State :=
  let T := s.tile d t
  match accs.find? (fun a => !(T.writersOf a).isEmpty) with
  | some a =>
    if (s.die (s.dieOf d)).debug && T.regs.mxCtrl.getLsbD 2 && !early then
      s.logTile d t q 0x16 (a * 2 ^ 40 + bits ((T.writersOf a).headD 0) 31 0)
    else s
  | none => s

/-- The conditions of R73 for an ACCST, in the table's order. -/
def accstChecks (T : Tile) (c : Nat) (w : BitVec 64) : List (Bool × Nat) :=
  let acc := mAcc w
  let pair := T.layout T.active acc == layPair
  [ (bits w 46 16 != 0, 0x01),
    (7 ≤ mFmtA w, 0x03),
    (pair && acc % 2 == 1, 0x07),
    (pair && T.layout T.active (acc + 1) != layPair, 0x08),
    (decide (c < T.times.rport), 0x0A),
    (decide (c < T.times.cvt), 0x0F) ]

def State.accstIssue (s : State) (d t c : Nat) (q : QEntry) : State :=
  let T := s.tile d t
  let w := q.word
  match firstCode (accstChecks T c w) with
  | some code => (s.setTile d t T.addSqHole).skip d t q code
  | none =>
    let acc : Fin 8 := Fin.ofNat 8 (mAcc w)
    let fmt := mFmtA w
    let lay := T.layout T.active acc.val
    let pair := lay == layPair
    let b := T.cur.cvt
    let (ctrl, scale) := b.inForce c
    let job : CvtJob :=
      { count := q.count, ctx := T.active, issue := c
        acc := some (acc, (T.acc acc.val).visible, (T.acc (acc.val + 1)).visible, BitVec.ofNat 2 lay)
        vec := none, tail := 0, fmt := fmt, scale := scale, ctrl := ctrl, seed := b.seed, n := b.scount
        row := 0, sq := T.nextId }
    let readers := (accNames acc.val pair).map (fun a =>
      (⟨Fin.ofNat 8 a, (T.acc a).visible, q.count, c + 64⟩ : AccReader))
    let s := s.hazard d t q (accNames acc.val pair) (w.getLsbD 47)
    let s := s.scaleCheck d t c q (List.range 64)
    let T := s.tile d t
    let T := T.setCtx T.active { T.cur with cvt := (T.cur.cvt).capture ctrl fmt (w.getLsbD 52) none }
    s.setTile d t { T with
      sq := T.sq ++ [⟨T.nextId, false, false, accstBytes fmt, []⟩], nextId := T.nextId + 1
      cvt := T.cvt ++ [job], readers := T.readers ++ readers
      times := { T.times with rport := c + 64, cvt := c + 64 } }

/-- R85: the captured bank through the converter into one store-queue block. -/
def execAccst (d : Fin 32) (t : Fin 144) (c : Nat) (s : State) : Out :=
  s.execHead d.val t.val c (isOp 2 1) (fun s q => s.accstIssue d.val t.val c q)

/-- Values of the row that a job converts next, by element index. -/
def CvtJob.rowVals (j : CvtJob) (T : Tile) : List FVal :=
  match j.acc, j.vec with
  | some (a, b, pb, lay), _ =>
    let hi := (T.acc a.val).bank b
    let lo := (T.acc (a.val + 1)).bank pb
    (List.range 64).map (fun i => elemVal lay.toNat hi lo (64 * j.row + i))
  | none, some (fmt, codes, _) =>
    match fmtOf fmt with
    | some f => codes.map (fun x => f.decode x.toNat)
    | none => []
  | none, none => []

/-- The converter's row number: the accumulator row, or the store's scale row (R54). -/
def CvtJob.rowNo (j : CvtJob) : Nat :=
  match j.vec with
  | some (_, _, r) => r
  | none => j.row

/-- The greatest magnitude of a row, as it is raised into the running maxima (R54, R59). -/
def rowMax (vs : List FVal) : BitVec 32 := vs.foldl (fun x v => rmaxMax x (up32 v)) 0

/-- The codes of a store's block behind a vector store's last element: free values, which contribute nothing (R59,
R103, R118; log entry 5). -/
def CvtJob.tailCodes (j : CvtJob) (n : Nat) : List Nat :=
  match j.vec with
  | some _ => (List.range (64 - n)).map (fun e => Config.pushTail j.tail (n + e) % 2 ^ fmtWidth j.fmt)
  | none => []

/-- The next row of the oldest store leaves the converter; its contribution becomes visible a cycle later, and behind
the last row the block is complete (R60, R145). The element index of the random bits (R61) is the place in the row,
of a vector store with SEL above 0 too (DESIGN CHOICE, log entry 149). -/
def Tile.cvtRow (T : Tile) (j : CvtJob) : Tile :=
  let r := j.rowNo
  let vs := j.rowVals T
  let sc := scaleInForce j.ctrl (Table.get scaleReset j.scale r)
  let out := vs.zipIdx.map (fun p => convElem j.fmt j.ctrl j.seed j.n sc r p.2 p.1)
  let bytes := packCodes (fmtWidth j.fmt) (out.map (·.1) ++ j.tailCodes out.length)
  let last := j.vec.isSome || j.row == 63
  let seen := j.rowCycle + 1
  let T := T.addPend j.count seen (.cvtUpdate j.ctx (if ctrlFreeze j.ctrl then none else some (r, rowMax vs))
    (out.map (fun x => x.2.2)).sum (allFlags (out.map (fun x => x.2.1))))
  let T := if last then T.addPend j.count seen (.sqDone j.sq) else T
  { T with
    sq := T.sq.map (fun q => if q.id = j.sq then { q with data := q.data ++ bytes } else q)
    cvt := if last then T.cvt.drop 1 else { j with row := j.row + 1 } :: T.cvt.drop 1 }

/-- R60: row r leaves at i + 6 + r. -/
def execConverterRow (d : Fin 32) (t : Fin 144) (s : State) : Out :=
  match (s.tile d.val t.val).cvt with
  | [] => .next s
  | j :: _ => s.ownEvent d.val t.val j.rowCycle (fun s =>
    s.setTile d.val t.val ((s.tile d.val t.val).cvtRow j))

/-- The conditions of R73 for an ACCSAVE or ACCLOAD's offset. -/
def imageBad (off : BitVec 64) : Bool := off.toNat % 64 != 0 || decide (sramSize < off.toNat + 36864)

def accsaveChecks (T : Tile) (c : Nat) (w : BitVec 64) : List (Bool × Nat) :=
  [ (bits w 52 51 != 0 || bits w 45 16 != 0, 0x01),
    (decide (c < T.times.rport), 0x0A),
    (imageBad (T.sreg T.active (mSreg w)), 0x04) ]

def State.accsaveIssue (s : State) (d t c : Nat) (q : QEntry) : State :=
  let T := s.tile d t
  let w := q.word
  match firstCode (accsaveChecks T c w) with
  | some code => s.skip d t q code
  | none =>
    let acc : Fin 8 := Fin.ofNat 8 (mAcc w)
    let off := (T.sreg T.active (mSreg w)).toNat
    let bank := (T.acc acc.val).visible
    let s := s.hazard d t q [acc.val] false
    let T := s.tile d t
    let T := (List.range 144).foldl (fun T k => T.addPend q.count (c + 7 + k) (.saveChunk acc bank off k)) T
    s.setTile d t { T with
      readers := T.readers ++ [⟨acc, bank, q.count, c + 150⟩], times := { T.times with rport := c + 144 } }

/-- R86: a full-width image of the captured bank into tile SRAM, 144 chunks. -/
def execAccsave (d : Fin 32) (t : Fin 144) (c : Nat) (s : State) : Out :=
  s.execHead d.val t.val c (isOp 2 2) (fun s q => s.accsaveIssue d.val t.val c q)

def accloadChecks (T : Tile) (c : Nat) (w : BitVec 64) : List (Bool × Nat) :=
  let acc := mAcc w
  [ (bits w 45 16 != 0, 0x01),
    ((T.acc acc).busy || T.pinned acc, 0x09),
    (decide (c < T.times.wport), 0x0A),
    (imageBad (T.sreg T.active (mSreg w)), 0x04) ]

def State.accloadIssue (s : State) (d t c : Nat) (q : QEntry) : State :=
  let T := s.tile d t
  let w := q.word
  match firstCode (accloadChecks T c w) with
  | some code => s.skip d t q code
  | none =>
    let acc : Fin 8 := Fin.ofNat 8 (mAcc w)
    let off := (T.sreg T.active (mSreg w)).toNat
    let job : LoadJob := ⟨q.count, T.active, acc, BitVec.ofNat 2 (bits w 52 51), [], c + 150⟩
    let T := T.setAcc acc.val { T.acc acc.val with busy := true }
    let T := (List.range 144).foldl (fun T k => T.addPend q.count (c + k) (.loadChunk acc false off k)) T
    let T := { T with loads := T.loads ++ [job], times := { T.times with wport := c + 144 } }
    (s.setTile d t T).land d t c

/-- R86: an image from tile SRAM is built into the shadow bank, 144 chunks. -/
def execAccload (d : Fin 32) (t : Fin 144) (c : Nat) (s : State) : Out :=
  s.execHead d.val t.val c (isOp 2 3) (fun s q => s.accloadIssue d.val t.val c q)

/-- The oldest ACCLOAD exchanges banks; the tile takes its layout code (R74, R86). -/
def Tile.loadExchange (T : Tile) : Tile :=
  match T.loads with
  | [] => T
  | j :: rest =>
    let a := j.acc.val
    let T := T.setAcc a ((T.acc a).exchange (accOfImage j.data))
    { T.setLayout j.ctx a j.layout.toNat with loads := rest }

/-- R86: at i + 150 the oldest ACCLOAD exchanges banks. -/
def execAccloadExchange (d : Fin 32) (t : Fin 144) (s : State) : Out :=
  match (s.tile d.val t.val).loads with
  | [] => .next s
  | j :: _ => s.ownEvent d.val t.val j.due (fun s => s.setTile d.val t.val (s.tile d.val t.val).loadExchange)

/-- R83: the oldest reader finishes and releases its bank: an ACCST once it has left the read port, an ACCSAVE with
its last byte (DESIGN CHOICE, log entry 121). -/
def execAccumulatorReadComplete (d : Fin 32) (t : Fin 144) (s : State) : Out :=
  match (s.tile d.val t.val).readers with
  | [] => .next s
  | r :: _ => s.ownEvent d.val t.val r.due (fun s =>
    let T := s.tile d.val t.val
    s.setTile d.val t.val { T with readers := T.readers.filter (fun x => x.count != r.count) })

end Sys2Proof.Machine
end

