-- ==== Sys2Proof/Machine/Reduce.lean ====
section
/-! DEFINITION. The instructions of the reduction unit (R119, R120, R123). -/
namespace Sys2Proof.Machine

/-- The fields an instruction of the unit does not use are zero (R119). -/
def redUnused (w : BitVec 64) : Bool :=
  let o := wOpc w
  let fn := vFunc w
  (!(o == 0 || o == 2) && rSd w != 0) || (!(o == 0 || o == 1) && rVs w != 0)
    || (!(o ≤ 2 && rIsPick fn) && rSi w != 0) || (o == 0 && rSlot w != 0)
    || (!((o == 0 || o == 2) && fn == 0) && rWide w) || w.getLsbD 32
    || (o == 3 && vFmt w != 0) || (2 ≤ o && bits w 27 26 != 0) || bits w 25 24 != 0
    || (2 ≤ o && bits w 23 20 != 0) || (!vMen w && vMsk w != 0) || bits w 19 16 != 0

/-- R110's order, with ILL_RED_BUSY. -/
def redChecks (T : Tile) (c : Nat) (w : BitVec 64) : List (Bool × Nat) :=
  let o := wOpc w
  let fn := vFunc w
  let fmtBad := o != 3 && 4 ≤ vFmt w
  [ (4 ≤ o || 6 ≤ fn || redUnused w, 0x01),
    (fmtBad, 0x03),
    (o ≤ 1 && (Grp.mk (rVs w) (vGrp w)).bad, 0x05),
    (decide (c < T.times.red), 0x0D) ]

/-- The job of an instruction that issues in cycle `c` and completes `lat` cycles behind its chunks, with the
effective length and the chunks of its source (R120). -/
def redJobOf (T : Tile) (c lat : Nat) (q : QEntry) : RedJob :=
  let w := q.word
  let width := if rIsFloat (vFunc w) then fmtWidth (vFmt w) else intWidth (vFmt w)
  let len := effLen T.cur.vl [vlmax width (vGrp w)]
  let n := chunksOf width len
  { count := q.count, ctx := T.active, due := c + lat + n, word := w, len := len, n := n
    mask := T.mask (vMsk w), base := (T.sreg T.active (rSi w)).toNat, got := [], carry := none }

/-- The unit is occupied, and the job is in flight. -/
def Tile.redBusy (T : Tile) (c busy : Nat) (j : RedJob) : Tile :=
  { T with times := { T.times with red := c + max 1 busy }, rjobs := T.rjobs ++ [j] }

/-- An instruction that reads source chunk h at `c + h` (R120); one without an element has its result at once. -/
def Tile.redStart (T : Tile) (c : Nat) (j : RedJob) : Tile :=
  let T := T.redBusy c j.n j
  if j.n = 0 then T.finishRed j
  else (List.range j.n).foldl (fun T h => T.addPend j.count (c + h) (.redRead j.count h)) T

/-- Skipped by the first condition of R110 that holds, else run. -/
def State.redTry (s : State) (d t c : Nat) (q : QEntry) (run : Tile → Tile) : State :=
  let T := s.tile d t
  match firstCode (redChecks T c q.word) with
  | some code => s.skip d t q code
  | none => s.setTile d t (run T)

def redRun (c : Nat) (q : QEntry) (T : Tile) : Tile := T.redStart c (redJobOf T c 12 q)

def State.redIssue (s : State) (d t c : Nat) (q : QEntry) : State :=
  s.redTry d t c q (redRun c q)

/-- R120, and every reserved opcode of the reduction unit. -/
def execRed (d : Fin 32) (t : Fin 144) (c : Nat) (s : State) : Out :=
  s.execHead d.val t.val c (isOpOr 4 0 4) (fun s q => s.redIssue d.val t.val c q)

def raccRun (c : Nat) (q : QEntry) (T : Tile) : Tile := T.redStart c (redJobOf T c 6 q)

def State.raccIssue (s : State) (d t c : Nat) (q : QEntry) : State :=
  s.redTry d t c q (raccRun c q)

def execRacc (d : Fin 32) (t : Fin 144) (c : Nat) (s : State) : Out :=
  s.execHead d.val t.val c (isOp 4 1) (fun s q => s.raccIssue d.val t.val c q)

/-- A job that reads no V register: it completes at `due`. -/
def slotJob (T : Tile) (due : Nat) (q : QEntry) (carry : Option (Nat × Table CarryLane)) : RedJob :=
  { count := q.count, ctx := T.active, due := due, word := q.word, len := 0, n := 0, mask := 0, base := 0
    got := [], carry := carry }

/-- RFOLD combines the slot as it stands in its issue cycle (R123). -/
def rfoldRun (c : Nat) (q : QEntry) (T : Tile) : Tile :=
  let w := q.word
  let fn := vFunc w
  let (v, i, f) := foldLanes fn (vFmt w) (rWide w) (T.slotView (rSlot w) (some c))
  let T := T.redBusy c 2 (slotJob T (c + 14) q none)
  let T := T.addPend q.count (c + 14) (.sreg T.active (rSd w) v)
  let T := if rIsPick fn then T.addPend q.count (c + 14) (.sreg T.active (rSi w) (BitVec.ofNat 64 i)) else T
  T.addPend q.count (c + 14) (.cvtUpdate T.active none 0 f)

def State.rfoldIssue (s : State) (d t c : Nat) (q : QEntry) : State :=
  s.redTry d t c q (rfoldRun c q)

def execRfold (d : Fin 32) (t : Fin 144) (c : Nat) (s : State) : Out :=
  s.execHead d.val t.val c (isOp 4 2) (fun s q => s.rfoldIssue d.val t.val c q)

def rclrRun (c : Nat) (q : QEntry) (T : Tile) : Tile :=
  T.redBusy c 1 (slotJob T (c + 1) q (some (rSlot q.word, clearedLanes (vFunc q.word))))

def State.rclrIssue (s : State) (d t c : Nat) (q : QEntry) : State :=
  s.redTry d t c q (rclrRun c q)

def execRclr (d : Fin 32) (t : Fin 144) (c : Nat) (s : State) : Out :=
  s.execHead d.val t.val c (isOp 4 3) (fun s q => s.rclrIssue d.val t.val c q)

/-- The reduction that is due first, and the others. -/
def firstRed : List RedJob → Option (RedJob × List RedJob)
  | [] => none
  | j :: l =>
    match firstRed l with
    | none => some (j, [])
    | some (k, r) => if j.due ≤ k.due then some (j, l) else some (k, j :: r)

/-- The lanes that a completing instruction leaves in its slot. -/
def Tile.leaveLanes (T : Tile) (j : RedJob) : Tile :=
  match j.carry with
  | some (k, l) => { T with carry := Table.set [] T.carry k l }
  | none => T

/-- R120: the reduction due first completes: its S registers and flags land, its lanes stand in their slot. -/
def execReductionComplete (d : Fin 32) (t : Fin 144) (s : State) : Out :=
  match firstRed (s.tile d.val t.val).rjobs with
  | none => .next s
  | some (j, _) => s.ownEvent d.val t.val j.due (fun s =>
    let T := s.tile d.val t.val
    match firstRed T.rjobs with
    | none => s
    | some (j, rest) => s.setTile d.val t.val { T.leaveLanes j with rjobs := rest })

end Sys2Proof.Machine
end

