-- ==== Sys2Proof/Machine/Stash.lean ====
section
/-! DEFINITION. The lossless packing of the BF16 stash (R253, R254, R259). -/
namespace Sys2Proof.Machine

/-! ## Blocks -/

def stashExp (v : Nat) : Nat := v / 128 % 256

/-- How often each exponent field occurs among a block's values. -/
def stashCounts (vs : List Nat) : List (Nat × Nat) :=
  ((List.range 256).map (fun e => (e, (vs.filter (fun v => stashExp v == e)).length))).filter (fun x => x.2 != 0)

/-- The most frequent of the entries, the lower exponent on a tie. -/
def mostFrequent (l : List (Nat × Nat)) : Option (Nat × Nat) :=
  l.foldl (fun b e =>
    match b with
    | none => some e
    | some x => if x.2 < e.2 then some e else some x) none

def stashDictN (l : List (Nat × Nat)) : Nat → List Nat
  | 0 => []
  | n + 1 =>
    match mostFrequent l with
    | none => []
    | some e => e.1 :: stashDictN (l.filter (· != e)) n

/-- The dictionary: up to 15 exponents by frequency. -/
def stashDict (vs : List Nat) : List Nat := stashDictN (stashCounts vs) 15

/-- Code of a value: its place in the dictionary, or 15. -/
def stashCode (dict : List Nat) (v : Nat) : Nat :=
  ((List.range dict.length).find? (fun i => dict.getD i 256 == stashExp v)).getD 15

def padTo64 (l : List Byte) : List Byte := fitBytes ((l.length + 63) / 64 * 64) l

/-- A block's record, and whether it is raw. -/
def packBlock (l : List Byte) : List Byte × Bool :=
  let vs := (List.range 2048).map (fun i => leField l (2 * i) 2)
  let dict := stashDict vs
  let codes := vs.map (stashCode dict)
  let esc := vs.filter (fun v => stashCode dict v == 15)
  if 992 < esc.length then
    (padTo64 (fitBytes 0x20 (leBytes 2 0 ++ leBytes 1 1) ++ fitBytes 4096 l), true)
  else
    let head := fitBytes 0x10 (leBytes 2 esc.length ++ leBytes 1 0 ++ leBytes 1 dict.length)
    let plane := vs.map (fun v => BitVec.ofNat 8 (v / 32768 * 128 + v % 128))
    let nibbles := (List.range 1024).map (fun i =>
      BitVec.ofNat 8 (codes.getD (2 * i) 0 + 16 * codes.getD (2 * i + 1) 0))
    (padTo64 (head ++ fitBytes 0x10 (dict.map (BitVec.ofNat 8 ·)) ++ plane ++ nibbles
      ++ esc.map (fun v => BitVec.ofNat 8 (stashExp v))), false)

/-- Bytes of a record with these escapes. -/
def recordLen (raw : Bool) (esc : Nat) : Nat := if raw then 4160 else (0xC20 + esc + 63) / 64 * 64

/-- The values of a packed record, escapes taken in order. -/
def unpackValues (dict : List Nat) (plane : List Byte) : List Nat → List Nat → List Nat
  | [], _ => []
  | c :: cs, esc =>
    let i := plane.headD 0
    let v (e : Nat) : Nat := i.toNat / 128 * 32768 + e * 128 + i.toNat % 128
    if c = 15 then v (esc.headD 0) :: unpackValues dict plane.tail cs esc.tail
    else v (dict.getD c 0) :: unpackValues dict plane.tail cs esc

/-- A record checked against its index entry, its ESC and NDICT, and its code plane. -/
def unpackRecord (raw : Bool) (r : List Byte) : Option (List Byte) :=
  let esc := leField r 0 2
  let ndict := leField r 3 1
  let isRaw := leField r 2 1 % 2 == 1
  if isRaw != raw then none
  else if raw then (if esc = 0 ∧ ndict = 0 then some ((r.drop 0x20).take 4096) else none)
  else
    let codes := ((r.drop 0x820).take 1024).flatMap (fun b => [b.toNat % 16, b.toNat / 16])
    if 15 < ndict ∨ 2048 < esc then none
    else if codes.any (fun c => decide (ndict ≤ c) && c != 15) then none
    else if (codes.filter (· == 15)).length ≠ esc then none
    else
      let dict := ((r.drop 0x10).take 15).map (·.toNat)
      let vals := unpackValues dict ((r.drop 0x20).take 2048) codes (((r.drop 0xC20).take esc).map (·.toNat))
      some (vals.flatMap (leBytes 2))

/-! ## STASH_PACK -/

def indexBytes (blocks : Nat) : Nat := (4 * blocks + 63) / 64 * 64

/-- The stream of a source: index and records. -/
def packStream (blocks : Nat) (src : List Byte) : List Byte :=
  let recs := (List.range blocks).map (fun i => packBlock ((src.drop (4096 * i)).take 4096))
  let (index, _) := recs.foldl (fun (acc : List Byte × Nat) r =>
    (acc.1 ++ leBytes 4 (acc.2 / 64 + natOf r.2 * 2 ^ 31), acc.2 + r.1.length)) ([], indexBytes blocks)
  fitBytes (indexBytes blocks) index ++ recs.flatMap (·.1)

/-- The completion of a stash command: its signal, and its reply (R259, R342). -/
def State.stashDone (s : State) (b : Nat) (c : Cmd) (err : Option Nat) (len bad : Nat) : State :=
  let s := if c.u 0x14 4 % 2 = 1 then s.cmdSignal b c (BitVec.ofNat 64 (c.u 0x18 8)) (c.u 0x20 2) else s
  s.reply c (match err with
    | some code => stErr code
    | none => stOk) (BitVec.ofNat 64 (bad % 2 ^ 21 * 2 ^ 40 + len % 2 ^ 40))

def State.stashError (s : State) (b code addr : Nat) : State :=
  s.logErr b { code := code, src := 0, addr := addr }

/-- R253, R254. -/
def execStashPack (cid : Nat) (s : State) : Out :=
  s.withCmd cid 0x0402 (fun s c => s.oneDie c (fun s b =>
    let src := c.u 0 8
    let dst := c.u 8 8
    let n := c.u 0x10 4
    let (s, g) := s.devRead src (4096 * n)
    match g.err with
    | some (code, off) => (s.stashError b code (src + off)).stashDone b c (some code) 0 0
    | none =>
      let out := packStream n g.data
      match s.devWrite dst out with
      | (s, some (code, off)) => (s.stashError b code (dst + off)).stashDone b c (some code) out.length 0
      | (s, none) => s.stashDone b c none out.length 0))

/-! ## STASH_UNPACK -/

/-- What an unpacking has come to: the first error, the end of the stream, the blocks that failed. -/
structure Unpack where
  s   : State
  err : Option Nat
  len : Nat
  bad : Nat

def unpackStep (b src dst : Nat) (u : Unpack) (i : Nat) : Unpack :=
  if u.err.isSome then u
  else
    let fail (s : State) (code addr : Nat) : Unpack := { u with s := s.stashError b code addr, err := some code }
    let (s, g) := u.s.devRead (src + 4 * i) 4
    match g.err with
    | some (code, off) => fail s code (src + 4 * i + off)
    | none =>
      let e := leField g.data 0 4
      let raw := e / 2 ^ 31 == 1
      let at? := src + e % 2 ^ 31 * 64
      let (s, h) := s.devRead at? 32
      match h.err with
      | some (code, off) => fail s code (at? + off)
      | none =>
        let n := recordLen raw (min 2048 (leField h.data 0 2))
        let (s, r) := s.devRead at? n
        match r.err with
        | some (code, off) => fail s code (at? + off)
        | none =>
          let len := max u.len (at? + n - src)
          match unpackRecord raw r.data with
          | none => { u with s := s.stashError b 0x88 at?, len := len, bad := u.bad + 1 }
          | some l =>
            match s.devWrite (dst + 4096 * i) l with
            | (s, some (code, off)) => fail s code (dst + 4096 * i + off)
            | (s, none) => { u with s := s, len := len }

/-- R254. -/
def execStashUnpack (cid : Nat) (s : State) : Out :=
  s.withCmd cid 0x0403 (fun s c => s.oneDie c (fun s b =>
    let n := c.u 0x10 4
    let u := (List.range n).foldl (unpackStep b (c.u 0 8) (c.u 8 8)) ⟨s, none, indexBytes n, 0⟩
    u.s.stashDone b c u.err u.len u.bad))

end Sys2Proof.Machine
end

