-- ==== Sys2Proof/Machine/Sync.lean ====
section
/-! DEFINITION. Sync instructions on either side (R142, R150-R153) and the field controller's NOTIFY
queue. -/
namespace Sys2Proof.Machine

def State.syncTry (s : State) (d t : Nat) (q : QEntry) (run : Tile → Tile) : State :=
  if yIllegal q.word then s.skip d t q 0x01 else s.setTile d t (run (s.tile d t))

/-- R142, R150: SIGNAL, and every reserved opcode of the sync engine. The increment lands in the next cycle; a WAIT,
which tests the count as its cycle starts, finds it a cycle later. -/
def execSignal (d : Fin 32) (t : Fin 144) (acc : Bool) (c : Nat) (s : State) : Out :=
  s.headIssue acc d.val t.val c (isOpOr 5 0 5)
    (fun s q => s.syncTry d.val t.val q (fun T =>
      T.addPend q.count (c + 2) (.flagInc T.active (yFlag q.word) (yCount q.word))))

/-- R150: its gate has tested the flag at the start of the cycle; it subtracts. -/
def execWait (d : Fin 32) (t : Fin 144) (acc : Bool) (c : Nat) (s : State) : Out :=
  s.headIssue acc d.val t.val c (isOp 5 1)
    (fun s q => s.syncTry d.val t.val q (fun T =>
      let f := T.flag T.active (yFlag q.word)
      T.setFlag T.active (yFlag q.word) (f - BitVec.ofNat 16 (yCount q.word))))

/-- R153: its gate tests the die's own ALM_NOW. -/
def execWaitalm (d : Fin 32) (t : Fin 144) (acc : Bool) (c : Nat) (s : State) : Out :=
  s.headIssue acc d.val t.val c (isOp 5 2)
    (fun s q => s.syncTry d.val t.val q (fun T => T))

/-- The fields of a NOTIFY record (R359). -/
def notifyWord (code t : Nat) (ctx : Bool) (count : BitVec 64) : BitVec 64 :=
  BitVec.ofNat 64 (code % 65536 * 2 ^ 30 + t % 256 * 2 ^ 22 + natOf ctx * 2 ^ 21 + bits count 19 0 * 2)

/-- R142: posted to the field controller; its gate is closed while the 16 entries are taken. -/
def execNotify (d : Fin 32) (t : Fin 144) (acc : Bool) (c : Nat) (s : State) : Out :=
  s.headIssue acc d.val t.val c (isOp 5 3)
    (fun s q =>
      if yIllegal q.word then s.skip d.val t.val q 0x01
      else
        let C := s.cd d.val
        let w := notifyWord (yCount q.word) t.val (s.tile d.val t.val).active q.count
        s.setCd d.val { C with notify := C.notify ++ [w] })

/-- R150: lands like an increment, and before the increments of its cycle. -/
def execFset (d : Fin 32) (t : Fin 144) (acc : Bool) (c : Nat) (s : State) : Out :=
  s.headIssue acc d.val t.val c (isOp 5 4)
    (fun s q => s.syncTry d.val t.val q (fun T =>
      T.addPend q.count (c + 2) (.flagSet T.active (yFlag q.word) (yCount q.word))))

/-- R142, R359: the oldest event goes to the event queue as a NOTIFY record, whether or not it finds a
place there. -/
def execNotifyEventTake (d : Fin 32) (s : State) : Out :=
  let C := s.cd d.val
  match C.notify with
  | [] => .next s
  | w :: rest =>
    let s := s.setCd d.val { C with notify := rest, freed := if C.notify.length < 16 then C.freed else C.freed + 1 }
    .next (s.postEvent (setBits w 63 56 d.val) (s.stampAt d.val)).moment

end Sys2Proof.Machine
end

