-- ==== Sys2Proof/Machine/Vector.lean ====
section
/-! DEFINITION. The vector engine (R99-R113, R117-R118, R124-R125). -/
namespace Sys2Proof.Machine

/-- A source of an element-wise instruction: a group of a width, or a broadcast code. -/
inductive VSrc where
  | grp (g : Grp) (w : Nat)
  | scal (code : Nat)
  deriving DecidableEq, Repr

def VSrc.max : VSrc → List Nat
  | .grp g w => [vlmax w g.n]
  | .scal _ => []

def VSrc.width : VSrc → Nat
  | .grp _ w => w
  | .scal _ => 0

def VSrc.groups : VSrc → List Grp
  | .grp g _ => [g]
  | .scal _ => []

/-- The codes of a source as the instruction's read cycles see them, its steps counted on width `wide` (R111,
R112). -/
def VSrc.codes (T : Tile) (i cc wide : Nat) : VSrc → Array Nat
  | .grp g w => (T.groupAt i cc g.base g.n w wide).toArray
  | .scal _ => #[]

def VSrc.at (a : Array Nat) (e : Nat) : VSrc → Nat
  | .grp _ _ => a.getD e 0
  | .scal c => c

/-- The vector engine is held for `busy` cycles; flags and clamps are recorded at the completion cycle (R57, R111,
R113). -/
def Tile.vecBusy (T : Tile) (q : QEntry) (i busy due : Nat) (f : FpFlags) (clamps : Nat) : Tile :=
  let T := if f = 0 ∧ clamps = 0 then T else T.addPend q.count due (.cvtUpdate T.active none clamps f)
  { T with
    times := { T.times with vec := i + busy }
    vjobs := T.vjobs ++ [⟨q.count, T.active, due⟩] }

/-- An instruction of effective length 0: the engine for one cycle, no change (R103). -/
def Tile.vecIdle (T : Tile) (i : Nat) : Tile := { T with times := { T.times with vec := i + 1 } }

/-- Element-wise execution (R103, R104, R111): `f codes` is the result of an active element with its flags and its
clamps. -/
def Tile.vecElem (T : Tile) (i : Nat) (q : QEntry) (lat cc : Nat) (srcs : List VSrc) (dst : Grp) (w : Nat)
    (f : List Nat → Nat × FpFlags × Nat) : Tile :=
  let len := effLen T.cur.vl (vlmax w dst.n :: srcs.flatMap VSrc.max)
  if len = 0 then T.vecIdle i
  else
    let wide := (srcs.map VSrc.width).foldl max w
    let n := chunksOf wide len
    let m := T.mask (vMsk q.word)
    let data := srcs.map (fun s => (s, s.codes T i cc wide))
    let act := (List.range len).map (fun e =>
      if activeIn q.word m e then some (f (data.map (fun p => p.1.at p.2 e))) else none)
    let res := act.toArray
    let fl := allFlags (act.map (fun r => (r.map (·.2.1)).getD 0))
    let clamps := (act.map (fun r => (r.map (·.2.2)).getD 0)).sum
    let T := T.putGroup q.count i lat cc dst.base dst.n w wide
      (writeOf q.word m len (fun e => ((res.getD e none).map (·.1)).getD 0))
    T.vecBusy q i (cc * n) (i + lat + cc * n - 2 * cc) fl clamps

/-- Element-wise execution of a class that never clamps. -/
def Tile.vecMap (T : Tile) (i : Nat) (q : QEntry) (lat cc : Nat) (srcs : List VSrc) (dst : Grp) (w : Nat)
    (f : List Nat → Nat × FpFlags) : Tile :=
  T.vecElem i q lat cc srcs dst w (fun l => ((f l).1, (f l).2, 0))

/-- Compare: bit e of the destination mask for each active element, chunk by chunk (R105, R111). -/
def Tile.vecCmp (T : Tile) (i : Nat) (q : QEntry) (lat : Nat) (srcs : List VSrc) (dst w g : Nat)
    (f : List Nat → Bool × FpFlags) : Tile :=
  let len := effLen T.cur.vl (vlmax w g :: srcs.flatMap VSrc.max)
  if len = 0 then T.vecIdle i
  else
    let n := chunksOf w len
    let m := T.mask (vMsk q.word)
    let data := srcs.map (fun s => (s, s.codes T i 1 w))
    let act := (List.range len).map (fun e =>
      if activeIn q.word m e then some (f (data.map (fun p => p.1.at p.2 e))) else none)
    let per := 2048 / w
    let T := (List.range n).foldl (fun T h =>
      let (mm, v) := (act.zipIdx).foldl (fun (mv : Nat × Nat) p =>
        if p.2 / per = h then
          match p.1 with
          | some (b, _) => (mv.1 + 2 ^ p.2, mv.2 + (if b then 2 ^ p.2 else 0))
          | none => mv
        else mv) (0, 0)
      if mm = 0 then T
      else T.addPend q.count (i + lat + h - 1) (.mreg dst (BitVec.ofNat 4096 mm) (BitVec.ofNat 4096 v))) T
    T.vecBusy q i n (i + lat + n - 2) (allFlags (act.map (fun r => (r.map (·.2)).getD 0))) 0

/-- The S register an instruction names as VS2 under SSRC, in `w` bits. -/
def Tile.scalSrc (T : Tile) (r w : Nat) : Nat := (T.sreg T.active r).toNat % 2 ^ w

def vec2 (T : Tile) (w : BitVec 64) (width g : Nat) : VSrc :=
  if vSsrc w then .scal (T.scalSrc (vVs2 w) width) else .grp ⟨vVs2 w, g⟩ width

/-- Skipped by the first condition that holds, else run (R110). -/
def State.vecTry (s : State) (d t : Nat) (q : QEntry) (checks : List (Bool × Nat))
    (run : Tile → Tile) : State :=
  match firstCode checks with
  | some code => s.skip d t q code
  | none => s.setTile d t (run (s.tile d t))

/-- The first rows of R110 in order: opcode, format, registers, overlap, occupancy. -/
def vecChecks (T : Tile) (c : Nat) (op fmt vreg beyond : Bool) : List (Bool × Nat) :=
  [(op, 0x01), (fmt, 0x03), (vreg, 0x05), (beyond, 0x06), (decide (c < T.times.vec), 0x0C)]

/-! ## VSETVL (R102) -/

def vsetvlChecks (T : Tile) (c : Nat) (w : BitVec 64) : List (Bool × Nat) :=
  let u : Uses := { func := false, mask := false, mz := false }
  vecChecks T c (unusedSet u w) (7 ≤ vFmt w) (vFmt w == 6 && vGrp w == 8) false

def vsetvlRun (c : Nat) (q : QEntry) (T : Tile) : Tile :=
  let w := q.word
  let n := min (T.sreg T.active (vVs1 w)).toNat (vlmax (fmtWidth (vFmt w)) (vGrp w))
  let T := T.addPend q.count (c + 1) (.vl T.active n)
  let T := T.addPend q.count (c + 1) (.sreg T.active (vVd w) (BitVec.ofNat 64 n))
  T.vecBusy q c 1 (c + 1) 0 0

def State.vsetvlIssue (s : State) (d t c : Nat) (q : QEntry) : State :=
  s.vecTry d t q (vsetvlChecks (s.tile d t) c q.word) (vsetvlRun c q)

def execVsetvl (d : Fin 32) (t : Fin 144) (c : Nat) (s : State) : Out :=
  s.execHead d.val t.val c (isOp 3 0) (fun s q => s.vsetvlIssue d.val t.val c q)

/-! ## VFA (R108) -/

def vfaUses (fn : Nat) : Uses :=
  { vs2 := fn != 10 && fn != 11
    vs3 := fn == 3 || fn == 4 || fn == 5 || fn == 13
    rm := fn ≤ 5 || fn == 13
    ssrc := fn != 10 && fn != 11 }

/-- Latency of the pipelined float classes (R111). -/
def fmaLat (fmt : Nat) : Nat := if fmt = 0 then 9 else if fmt = 1 then 7 else 6

def vfaChecks (T : Tile) (c : Nat) (w : BitVec 64) : List (Bool × Nat) :=
  let fn := vFunc w
  let fmt := vFmt w
  let g := vGrp w
  let u := vfaUses fn
  let wide := fn == 13
  let dg := if wide then 2 * g else g
  let dst : Grp := ⟨vVd w, dg⟩
  let s1 : Grp := ⟨vVs1 w, g⟩
  let s2 : List Grp := if u.vs2 && !vSsrc w then [⟨vVs2 w, g⟩] else []
  let s3 : List Grp := if u.vs3 then [⟨vVs3 w, dg⟩] else []
  let fmtBad := if wide then fmt != 2 && fmt != 3 else 4 ≤ fmt
  vecChecks T c (14 ≤ fn || unusedSet u w) fmtBad
    ((dst :: s1 :: (s2 ++ s3)).any Grp.bad) (overlapBad (!wide) dst (s1 :: (s2 ++ s3)))

def vfaRun (c : Nat) (q : QEntry) (T : Tile) : Tile :=
  let w := q.word
  let fn := vFunc w
  let fmt := vFmt w
  let g := vGrp w
  let u := vfaUses fn
  let wide := fn == 13
  let dg := if wide then 2 * g else g
  let dst : Grp := ⟨vVd w, dg⟩
  let s1 : Grp := ⟨vVs1 w, g⟩
  match fmtOf fmt with
  | none => T
  | some f =>
    let width := f.width
    let src2 := if u.vs2 then [vec2 T w width g] else []
    if wide then
      T.vecMap c q 7 1 ([.grp s1 width] ++ src2 ++ [.grp ⟨vVs3 w, dg⟩ 32]) dst 32 (fun l =>
        let a := f.decode (l.getD 0 0)
        let b := f.decode (l.getD 1 0)
        let x := fp32.decode (l.getD 2 0)
        fmaVal fp32 (vRm w) a b x)
    else
      let src3 := if u.vs3 then [VSrc.grp ⟨vVs3 w, g⟩ width] else []
      let lat := if fn ≤ 5 then fmaLat fmt else 4
      T.vecMap c q lat 1 ([.grp s1 width] ++ src2 ++ src3) dst width (fun l =>
        faOp fn f (vRm w) (l.getD 0 0) (l.getD 1 0) (l.getD 2 0))

def State.vfaIssue (s : State) (d t c : Nat) (q : QEntry) : State :=
  s.vecTry d t q (vfaChecks (s.tile d t) c q.word) (vfaRun c q)

def execVfa (d : Fin 32) (t : Fin 144) (c : Nat) (s : State) : Out :=
  s.execHead d.val t.val c (isOpOr 3 1 12) (fun s q =>
    if wOpc q.word = 1 then s.vfaIssue d.val t.val c q else s.skip d.val t.val q 0x01)

/-! ## VFD and VTR (R124, R125) -/

/-- Cycles per chunk of division, roots and transcendentals (R111). -/
def slowCc (fmt : Nat) : Nat := if fmt = 0 then 4 else if fmt = 1 then 2 else 1

def vfdChecks (T : Tile) (c : Nat) (w : BitVec 64) : List (Bool × Nat) :=
  let fn := vFunc w
  let fmt := vFmt w
  let g := vGrp w
  let u : Uses := { vs2 := fn == 0, rm := fn != 3, ssrc := fn == 0 }
  let dst : Grp := ⟨vVd w, g⟩
  let s1 : Grp := ⟨vVs1 w, g⟩
  let s2 : List Grp := if fn == 0 && !vSsrc w then [⟨vVs2 w, g⟩] else []
  vecChecks T c (4 ≤ fn || unusedSet u w) (4 ≤ fmt)
    ((dst :: s1 :: s2).any Grp.bad) (overlapBad true dst (s1 :: s2))

def vfdRun (c : Nat) (q : QEntry) (T : Tile) : Tile :=
  let w := q.word
  let fn := vFunc w
  let fmt := vFmt w
  let g := vGrp w
  let dst : Grp := ⟨vVd w, g⟩
  let s1 : Grp := ⟨vVs1 w, g⟩
  match fmtOf fmt with
  | none => T
  | some f =>
    let lat := if fmt = 0 then 28 else if fmt = 1 then 14 else 10
    let src2 := if fn = 0 then [vec2 T w f.width g] else []
    T.vecMap c q lat (slowCc fmt) (.grp s1 f.width :: src2) dst f.width (fun l =>
      let a := f.decode (l.getD 0 0)
      match fn with
      | 0 => divVal f (vRm w) a (f.decode (l.getD 1 0))
      | 1 => sqrtVal f (vRm w) a
      | 2 => if a.isNan then divVal f (vRm w) a a else divVal f (vRm w) (f.decode (oneCode f)) a
      | _ => tEval .rsqrt fmt (l.getD 0 0))

def State.vfdIssue (s : State) (d t c : Nat) (q : QEntry) : State :=
  s.vecTry d t q (vfdChecks (s.tile d t) c q.word) (vfdRun c q)

def execVfd (d : Fin 32) (t : Fin 144) (c : Nat) (s : State) : Out :=
  s.execHead d.val t.val c (isOp 3 2) (fun s q => s.vfdIssue d.val t.val c q)

def tFunOf (fn : Nat) : TFun :=
  match fn with
  | 0 => .exp
  | 1 => .log
  | 2 => .sin
  | 3 => .cos
  | 4 => .tanh
  | _ => .sigmoid

def vtrChecks (T : Tile) (c : Nat) (w : BitVec 64) : List (Bool × Nat) :=
  let fn := vFunc w
  let fmt := vFmt w
  let g := vGrp w
  let u : Uses := {}
  let dst : Grp := ⟨vVd w, g⟩
  let s1 : Grp := ⟨vVs1 w, g⟩
  vecChecks T c (6 ≤ fn || unusedSet u w) (4 ≤ fmt)
    (dst.bad || s1.bad) (overlapBad true dst [s1])

def vtrRun (c : Nat) (q : QEntry) (T : Tile) : Tile :=
  let w := q.word
  let fn := vFunc w
  let fmt := vFmt w
  let g := vGrp w
  let dst : Grp := ⟨vVd w, g⟩
  let s1 : Grp := ⟨vVs1 w, g⟩
  let lat := if fmt = 0 then 40 else if fmt = 1 then 20 else 12
  let width := fmtWidth fmt
  T.vecMap c q lat (slowCc fmt) [.grp s1 width] dst width (fun l => tEval (tFunOf fn) fmt (l.getD 0 0))

def State.vtrIssue (s : State) (d t c : Nat) (q : QEntry) : State :=
  s.vecTry d t q (vtrChecks (s.tile d t) c q.word) (vtrRun c q)

def execVtr (d : Fin 32) (t : Fin 144) (c : Nat) (s : State) : Out :=
  s.execHead d.val t.val c (isOp 3 3) (fun s q => s.vtrIssue d.val t.val c q)

/-! ## VIA, VCMP, VICMP (R105, R108) -/

def viaChecks (T : Tile) (c : Nat) (w : BitVec 64) : List (Bool × Nat) :=
  let fn := vFunc w
  let width := intWidth (vFmt w)
  let g := vGrp w
  let u : Uses := { vs2 := true, ssrc := true }
  let dst : Grp := ⟨vVd w, g⟩
  let srcs : List Grp := ⟨vVs1 w, g⟩ :: (if vSsrc w then [] else [⟨vVs2 w, g⟩])
  vecChecks T c (13 ≤ fn || unusedSet u w) (width == 0)
    ((dst :: srcs).any Grp.bad) (overlapBad true dst srcs)

def viaRun (c : Nat) (q : QEntry) (T : Tile) : Tile :=
  let w := q.word
  let fn := vFunc w
  let width := intWidth (vFmt w)
  let g := vGrp w
  let dst : Grp := ⟨vVd w, g⟩
  T.vecMap c q (if fn = 2 then 6 else 3) 1 [.grp ⟨vVs1 w, g⟩ width, vec2 T w width g] dst width
    (fun l => (intOp fn width (l.getD 0 0) (l.getD 1 0), 0))

def State.viaIssue (s : State) (d t c : Nat) (q : QEntry) : State :=
  s.vecTry d t q (viaChecks (s.tile d t) c q.word) (viaRun c q)

def execVia (d : Fin 32) (t : Fin 144) (c : Nat) (s : State) : Out :=
  s.execHead d.val t.val c (isOp 3 4) (fun s q => s.viaIssue d.val t.val c q)

def vcmpChecks (T : Tile) (c : Nat) (w : BitVec 64) : List (Bool × Nat) :=
  let fn := vFunc w
  let fmt := vFmt w
  let g := vGrp w
  let u : Uses := { vs2 := true, ssrc := true, mz := false }
  let srcs : List Grp := ⟨vVs1 w, g⟩ :: (if vSsrc w then [] else [⟨vVs2 w, g⟩])
  vecChecks T c (6 ≤ fn || unusedSet u w || bits w 51 50 != 0) (4 ≤ fmt)
    (srcs.any Grp.bad) false

def vcmpRun (c : Nat) (q : QEntry) (T : Tile) : Tile :=
  let w := q.word
  let fn := vFunc w
  let fmt := vFmt w
  let g := vGrp w
  match fmtOf fmt with
  | none => T
  | some f =>
    T.vecCmp c q 4 [.grp ⟨vVs1 w, g⟩ f.width, vec2 T w f.width g] (bits w 49 47) f.width g (fun l =>
      cmpFlag (cmpOf fn) (f.decode (l.getD 0 0)) (f.decode (l.getD 1 0)))

def State.vcmpIssue (s : State) (d t c : Nat) (q : QEntry) : State :=
  s.vecTry d t q (vcmpChecks (s.tile d t) c q.word) (vcmpRun c q)

def execVcmp (d : Fin 32) (t : Fin 144) (c : Nat) (s : State) : Out :=
  s.execHead d.val t.val c (isOp 3 5) (fun s q => s.vcmpIssue d.val t.val c q)

def vicmpChecks (T : Tile) (c : Nat) (w : BitVec 64) : List (Bool × Nat) :=
  let fn := vFunc w
  let width := intWidth (vFmt w)
  let g := vGrp w
  let u : Uses := { vs2 := true, ssrc := true, mz := false }
  let srcs : List Grp := ⟨vVs1 w, g⟩ :: (if vSsrc w then [] else [⟨vVs2 w, g⟩])
  vecChecks T c (6 ≤ fn || unusedSet u w || bits w 51 50 != 0) (width == 0)
    (srcs.any Grp.bad) false

def vicmpRun (c : Nat) (q : QEntry) (T : Tile) : Tile :=
  let w := q.word
  let fn := vFunc w
  let width := intWidth (vFmt w)
  let g := vGrp w
  T.vecCmp c q 3 [.grp ⟨vVs1 w, g⟩ width, vec2 T w width g] (bits w 49 47) width g (fun l =>
    (intCmp fn width (l.getD 0 0) (l.getD 1 0), 0))

def State.vicmpIssue (s : State) (d t c : Nat) (q : QEntry) : State :=
  s.vecTry d t q (vicmpChecks (s.tile d t) c q.word) (vicmpRun c q)

def execVicmp (d : Fin 32) (t : Fin 144) (c : Nat) (s : State) : Out :=
  s.execHead d.val t.val c (isOp 3 6) (fun s q => s.vicmpIssue d.val t.val c q)

/-! ## VMASK (R105) -/

/-- The lowest set bit below `n`, else `n`. -/
def lowestBit (m : BitVec 4096) (n : Nat) : Nat := ((List.range n).find? (fun i => m.getLsbD i)).getD n

def popCount (m : BitVec 4096) (n : Nat) : Nat := (List.range n).countP (fun i => m.getLsbD i)

def maskLogic (fn : Nat) (a b : BitVec 4096) : BitVec 4096 :=
  match fn with
  | 0 => a &&& b
  | 1 => a ||| b
  | 2 => a ^^^ b
  | 3 => a &&& ~~~b
  | _ => ~~~a

def vmaskChecks (T : Tile) (c : Nat) (w : BitVec 64) : List (Bool × Nat) :=
  let fn := vFunc w
  let u : Uses := { vs2 := fn ≤ 3, fmt := false, grp := false, mask := false, mz := false }
  let highBits := (fn ≤ 4 && bits w 51 50 != 0) || bits w 46 45 != 0 || bits w 41 40 != 0
  vecChecks T c (7 ≤ fn || unusedSet u w || highBits) false false false

def vmaskRun (c : Nat) (q : QEntry) (T : Tile) : Tile :=
  let w := q.word
  let fn := vFunc w
  let vl := T.cur.vl
  let a := T.mask (vVs1 w % 8)
  let b := T.mask (vVs2 w % 8)
  if vl = 0 then T.vecIdle c
  else if fn ≤ 4 then
    let m := BitVec.ofNat 4096 (2 ^ vl - 1)
    (T.addPend q.count (c + 2) (.mreg (vVd w % 8) m (maskLogic fn a b))).vecBusy q c 1 (c + 2) 0 0
  else
    let n := if fn = 5 then popCount a vl
      else if lowestBit a vl < vl then lowestBit a vl else 0xFFFFFFFF
    (T.addPend q.count (c + 4) (.sreg T.active (vVd w) (BitVec.ofNat 64 n))).vecBusy q c 1 (c + 4) 0 0

def State.vmaskIssue (s : State) (d t c : Nat) (q : QEntry) : State :=
  s.vecTry d t q (vmaskChecks (s.tile d t) c q.word) (vmaskRun c q)

def execVmask (d : Fin 32) (t : Fin 144) (c : Nat) (s : State) : Out :=
  s.execHead d.val t.val c (isOp 3 7) (fun s q => s.vmaskIssue d.val t.val c q)

/-! ## VCVT (R109) -/

/-- Destination group of a conversion (R101). -/
def cvtGroup (ws wd g : Nat) : Nat := if ws = 0 then g else if ws ≤ wd then wd / ws * g else max 1 (g / (ws / wd))

/-- FP4 with GRP x8 is ILL_VREG (R100); the group that counts for a destination is the one that it gets, so a x8 source
narrowed to FP4 is legal (DESIGN CHOICE, log entry 152). -/
def vcvtChecks (T : Tile) (c : Nat) (w : BitVec 64) : List (Bool × Nat) :=
  let fmt := vFmt w
  let from? := bits w 35 32
  let g := vGrp w
  let ws := fmtWidth from?
  let wd := fmtWidth fmt
  let u : Uses := { func := false, vs3 := true, rm := true }
  let dg := if wd = 0 then 1 else cvtGroup ws wd g
  let dst : Grp := ⟨vVd w, dg⟩
  let s1 : Grp := ⟨vVs1 w, g⟩
  vecChecks T c (unusedSet u w || w.getLsbD 36) (7 ≤ fmt || 7 ≤ from?)
    (dst.bad || s1.bad || (from? == 6 && g == 8) || (fmt == 6 && dg == 8)) (overlapBad (ws == wd) dst [s1])

def vcvtRun (c : Nat) (q : QEntry) (T : Tile) : Tile :=
  let w := q.word
  let fmt := vFmt w
  let from? := bits w 35 32
  let g := vGrp w
  let ws := fmtWidth from?
  let wd := fmtWidth fmt
  let dg := if wd = 0 then 1 else cvtGroup ws wd g
  let dst : Grp := ⟨vVd w, dg⟩
  let s1 : Grp := ⟨vVs1 w, g⟩
  match fmtOf from?, fmtOf fmt with
  | some fs, some fd =>
    T.vecElem c q 5 1 [.grp s1 ws] dst wd (fun l =>
      convVal fd (.dir (vRm w)) (satOf (T.cur.cvt).ctrl fmt) (fs.decode (l.getD 0 0)))
  | _, _ => T

def State.vcvtIssue (s : State) (d t c : Nat) (q : QEntry) : State :=
  s.vecTry d t q (vcvtChecks (s.tile d t) c q.word) (vcvtRun c q)

/-- R109. -/
def execVcvt (d : Fin 32) (t : Fin 144) (c : Nat) (s : State) : Out :=
  s.execHead d.val t.val c (isOp 3 8) (fun s q => s.vcvtIssue d.val t.val c q)

/-! ## VPERM (R106, R108) -/

/-- Fields that a permutation uses. A slide's, EXTRACT's and INSERT's VS2 names an S register whatever SSRC says, and
EXTRACT and INSERT take no mask: SSRC there, and MEN, MSK and MZ of those two, are unused fields and zero (DESIGN
CHOICE, log entry 146). -/
def permUses (fn : Nat) : Uses :=
  match fn with
  | 0 => {}
  | 1 => {}
  | 2 => { vs2 := true }
  | 3 => { vs2 := true }
  | 4 => { vs2 := true, ssrc := true }
  | 5 => { vs1 := false }
  | 6 => {}
  | 7 => { vs2 := true, mask := false, mz := false }
  | _ => { vs2 := true, mask := false, mz := false }

/-- Active elements below `e`. -/
def activeBelow (w : BitVec 64) (m : BitVec 4096) (e : Nat) : Nat :=
  (List.range e).countP (fun i => activeIn w m i)

/-- A permutation that writes a group (R106, R108): what element e becomes. -/
def permWrite (T : Tile) (c : Nat) (w : BitVec 64) (fn width g len : Nat) : Nat → Option Nat :=
  let m := T.mask (vMsk w)
  let src := (T.groupAt c 1 (vVs1 w) g width width).toArray
  let top := vlmax width g
  let k := (T.sreg T.active (vVs2 w)).toNat
  match fn with
  | 0 =>
    let picked := (((List.range len).filter (fun e => activeIn w m e)).map (fun e => src.getD e 0)).toArray
    fun e =>
      if len ≤ e then none
      else if e < picked.size then some (picked.getD e 0)
      else if vMz w then some 0 else none
  | 1 => writeOf w m len (fun e => src.getD (activeBelow w m e) 0)
  | 2 => fun e => if e < k then none else writeOf w m len (fun e => src.getD (e - k) 0) e
  | 3 => writeOf w m len (fun e => if top ≤ e + k then 0 else src.getD (e + k) 0)
  | 4 =>
    let ix := (vec2 T w width g)
    let a := ix.codes T c 1 width
    writeOf w m len (fun e => let j := ix.at a e; if top ≤ j then 0 else src.getD j 0)
  | 5 => writeOf w m len (fun e => e)
  | _ => writeOf w m len (fun _ => T.scalSrc (vVs1 w) width)

def vpermChecks (T : Tile) (c : Nat) (w : BitVec 64) : List (Bool × Nat) :=
  let fn := vFunc w
  let fmt := vFmt w
  let g := vGrp w
  let u := permUses fn
  let dst : Grp := ⟨vVd w, g⟩
  let s1 : List Grp := if fn == 5 || fn == 6 || fn == 8 then [] else [⟨vVs1 w, g⟩]
  let s2 : List Grp := if fn == 4 && !vSsrc w then [⟨vVs2 w, g⟩] else []
  let dsts : List Grp := if fn == 7 then [] else [dst]
  vecChecks T c (9 ≤ fn || unusedSet u w || (fn ≤ 1 && !vMen w)) (6 ≤ fmt)
    ((dsts ++ s1 ++ s2).any Grp.bad) (fn ≤ 4 && overlapBad false dst (s1 ++ s2))

/-- EXTRACT takes chunk h of its source at c + h (DESIGN CHOICE, log entry 144), and an index of EXTRACT or INSERT is
held to VLMAX alone, whatever VL is (DESIGN CHOICE, log entry 145). -/
def vpermRun (c : Nat) (q : QEntry) (T : Tile) : Tile :=
  let w := q.word
  let fn := vFunc w
  let fmt := vFmt w
  let width := fmtWidth fmt
  let g := vGrp w
  let dst : Grp := ⟨vVd w, g⟩
  let len := effLen T.cur.vl [vlmax width g]
  let n := chunksOf width len
  if len = 0 then T.vecIdle c
  else if fn = 7 then
    let j := (T.sreg T.active (vVs2 w)).toNat
    let src := T.groupAt c 1 (vVs1 w) g width width
    let v := if vlmax width g ≤ j then 0 else src.getD j 0
    (T.addPend q.count (c + 4) (.sreg T.active (vVd w) (BitVec.ofNat 64 v))).vecBusy q c 1 (c + 4) 0 0
  else if fn = 8 then
    let j := (T.sreg T.active (vVs2 w)).toNat
    let T := T.putGroup q.count c 3 1 dst.base g width width (fun e =>
      if e = j then some (T.scalSrc (vVs1 w) width) else none)
    T.vecBusy q c n (c + 3 + n - 2) 0 0
  else
    let lat := if fn ≤ 4 then 8 + n else 3
    let T := T.putGroup q.count c lat 1 dst.base g width width (permWrite T c w fn width g len)
    T.vecBusy q c n (c + lat + n - 2) 0 0

def State.vpermIssue (s : State) (d t c : Nat) (q : QEntry) : State :=
  s.vecTry d t q (vpermChecks (s.tile d t) c q.word) (vpermRun c q)

def execVperm (d : Fin 32) (t : Fin 144) (c : Nat) (s : State) : Out :=
  s.execHead d.val t.val c (isOp 3 9) (fun s q => s.vpermIssue d.val t.val c q)

/-! ## VQPOP and VQPUSH (R114, R118) -/

def vqpopChecks (T : Tile) (c : Nat) (w : BitVec 64) : List (Bool × Nat) :=
  let fmt := vFmt w
  let g := vGrp w
  let u : Uses := { func := false, vs1 := false }
  vecChecks T c (unusedSet u w) (7 ≤ fmt) ((Grp.mk (vVd w) g).bad || (fmt == 6 && g == 8)) false

/-- An element of VD that the block does not hold stays as it is (DESIGN CHOICE, log entry 151). -/
def State.vqpopIssue (s : State) (d t c : Nat) (q : QEntry) : State :=
  let T := s.tile d t
  let w := q.word
  let width := fmtWidth (vFmt w)
  let g := vGrp w
  match firstCode (vqpopChecks T c w) with
  | some code => (s.setTile d t { T with oqv := T.oqv.drop 1 }).skip d t q code
  | none =>
    let len := effLen T.cur.vl [vlmax width g]
    if len = 0 then s.setTile d t (T.vecIdle c)
    else
      match T.oqv with
      | [] => s
      | b :: rest =>
        let n := chunksOf width len
        let a := if b.hole then #[] else (unpackCodes width b.data).toArray
        let T := { T with oqv := rest }
        let T := T.putGroup q.count c 3 1 (vVd w) g width width (fun e =>
          if b.hole || e < a.size then writeOf w (T.mask (vMsk w)) len (fun e => a.getD e 0) e else none)
        let s := s.setTile d t (T.vecBusy q c n (c + 3 + n - 2) 0 0)
        if b.hole then s.logTile d t q 0x12 0 else s

def execVqpop (d : Fin 32) (t : Fin 144) (c : Nat) (s : State) : Out :=
  s.execHead d.val t.val c (isOp 3 10)
    (fun s q => s.vqpopIssue d.val t.val c q)

/-- A push takes no mask, so MEN and MZ are unused fields of either form (DESIGN CHOICE, log entry 147). A converted
push of a group other than x1 is ILL_OPCODE, one whose FMT_OUT is no narrower than FMT is ILL_FMT (DESIGN CHOICE, log
entry 148). -/
def vqpushChecks (T : Tile) (c : Nat) (w : BitVec 64) : List (Bool × Nat) :=
  let fmt := vFmt w
  let out := vqOut w
  let g := vGrp w
  let src : Grp := ⟨vVs1 w, g⟩
  let conv := vqConverts w
  let unused := vFunc w != 0 || vVd w != 0 || bits w 25 24 != 0 || w.getLsbD 16 || vMz w || vSsrc w || vMen w
  [ (unused || (conv && g != 1) || (!conv && (vqRow w != 0 || vqSel w != 0 || w.getLsbD 17)), 0x01),
    (7 ≤ fmt || 7 ≤ out || (conv && fmtWidth fmt ≤ fmtWidth out), 0x03),
    (src.bad || (fmt == 6 && g == 8), 0x05),
    (decide (c < T.times.vec), 0x0C),
    (conv && decide (c < T.times.cvt), 0x0F) ]

/-- A push through the converter (R118): one row of at most 64 elements, whose block is complete at `c + 7` (R60,
R145). The elements behind the effective length take no part. -/
def State.vqpushConvert (s : State) (d t c : Nat) (q : QEntry) (len : Nat) : State :=
  let w := q.word
  let fmt := vFmt w
  let out := vqOut w
  let row := vqRow w
  let base := 64 * vqSel w
  let (k, s) := s.take
  let T := s.tile d t
  let codes := ((T.groupAt c 1 (vVs1 w) 1 (fmtWidth fmt) (fmtWidth fmt)).take len).drop base
  let b := T.cur.cvt
  let (ctrl, scale) := b.inForce c
  let job : CvtJob :=
    { count := q.count, ctx := T.active, issue := c, acc := none
      vec := some (fmt, (codes.take 64).map (BitVec.ofNat 64), row), tail := k, fmt := out
      scale := scale, ctrl := ctrl, seed := b.seed, n := b.scount, row := 0, sq := T.nextId }
  let s := s.scaleCheck d t c q [row]
  let T := s.tile d t
  let T := T.setCtx T.active { T.cur with cvt := (T.cur.cvt).capture ctrl out (w.getLsbD 17) (some row) }
  let T : Tile := { T with
    sq := T.sq ++ [⟨T.nextId, false, false, vqBytes T w, []⟩], nextId := T.nextId + 1
    cvt := T.cvt ++ [job], times := { T.times with cvt := c + 1 } }
  s.setTile d t (T.vecBusy q c (chunksOf (fmtWidth fmt) len) (c + 6) 0 0)

/-- A push that bypasses the converter: the group's effective length, whole (R118). -/
def Tile.vqpushWhole (T : Tile) (c : Nat) (q : QEntry) (len : Nat) : Tile :=
  let w := q.word
  let width := fmtWidth (vFmt w)
  let codes := (T.groupAt c 1 (vVs1 w) (vGrp w) width width).take len
  let T : Tile := { T with
    sq := T.sq ++ [⟨T.nextId, false, false, vqBytes T w, packCodes width codes⟩], nextId := T.nextId + 1 }
  let n := chunksOf width len
  let T := T.addPend q.count (c + n + 1) (.sqDone (T.nextId - 1))
  T.vecBusy q c n (c + 2 + n - 2) 0 0

def State.vqpushIssue (s : State) (d t c : Nat) (q : QEntry) : State :=
  let T := s.tile d t
  let w := q.word
  match firstCode (vqpushChecks T c w) with
  | some code => (s.setTile d t T.addSqHole).skip d t q code
  | none =>
    let len := effLen T.cur.vl [vlmax (fmtWidth (vFmt w)) (vGrp w)]
    if len = 0 then s.setTile d t (T.vecIdle c)
    else if vqConverts w then s.vqpushConvert d t c q len
    else s.setTile d t (T.vqpushWhole c q len)

def execVqpush (d : Fin 32) (t : Fin 144) (c : Nat) (s : State) : Out :=
  s.execHead d.val t.val c (isOp 3 11) (fun s q => s.vqpushIssue d.val t.val c q)

/-- The job with the earliest completion cycle, and the others. -/
def firstDue : List VecJob → Option (VecJob × List VecJob)
  | [] => none
  | j :: l =>
    match firstDue l with
    | none => some (j, [])
    | some (k, r) => if j.due ≤ k.due then some (j, l) else some (k, j :: r)

/-- R113: the vector instruction that is due first completes; its flags land. -/
def execVectorComplete (d : Fin 32) (t : Fin 144) (s : State) : Out :=
  match firstDue (s.tile d.val t.val).vjobs with
  | none => .next s
  | some (j, rest) => s.ownEvent d.val t.val j.due (fun s =>
    s.setTile d.val t.val { s.tile d.val t.val with vjobs := rest })

end Sys2Proof.Machine
end

