-- ==== Sys2Proof/Machine/Vote.lean ====
section
/-! DEFINITION. The VOTE packet (R294). -/
namespace Sys2Proof.Machine

/-- R294: a child's word is ORed in; the parent's is the result and goes on down. -/
def execVote (k : Packet) (s : State) : Out :=
  match s.takePacket k 0x21 with
  | none => .next s
  | some s =>
    match s.net.vote with
    | none => .next s
    | some v =>
      let word := BitVec.ofNat 8 (bits k.arg 7 0)
      if v.due.contains k.src then
        .next (s.voteOn { v with word := v.word ||| word, due := v.due.filter (· != k.src) })
      else if v.parent = some k.src ∧ v.due.isEmpty ∧ v.result.isNone then
        let s := { s with net := { s.net with vote := some { v with result := some word } } }
        .next (s.pushVote v.children word)
      else .next s

end Sys2Proof.Machine
end

