-- ==== Sys2Proof/Machine/Dispatch.lean ====
section
/-! DEFINITION. One arm for each command: the meaning it calls. -/
namespace Sys2Proof.Machine

-- The command's effect on everything but the queue (the rules that each meaning cites).
def exec (i : Instr) (s : State) : Host.Outcome State Fault Refusal :=
  match i with
  | .instructionDispatch d t c ecc => Sys2Proof.Machine.execInstructionDispatch d t c ecc s
  | .breakEntry d t => Sys2Proof.Machine.execBreakEntry d t s
  | .streamHalted d t => Sys2Proof.Machine.execStreamHalted d t s
  | .illEngine d t c => Sys2Proof.Machine.execIllEngine d t c s
  | .mma d t c => Sys2Proof.Machine.execMma d t c s
  | .mmaResultCycle d t upset => Sys2Proof.Machine.execMmaResultCycle d t upset s
  | .abftVerdict d t => Sys2Proof.Machine.execAbftVerdict d t s
  | .accst d t c => Sys2Proof.Machine.execAccst d t c s
  | .converterRow d t => Sys2Proof.Machine.execConverterRow d t s
  | .accsave d t c => Sys2Proof.Machine.execAccsave d t c s
  | .accload d t c => Sys2Proof.Machine.execAccload d t c s
  | .accloadExchange d t => Sys2Proof.Machine.execAccloadExchange d t s
  | .accumulatorReadComplete d t => Sys2Proof.Machine.execAccumulatorReadComplete d t s
  | .vsetvl d t c => Sys2Proof.Machine.execVsetvl d t c s
  | .vfa d t c => Sys2Proof.Machine.execVfa d t c s
  | .vfd d t c => Sys2Proof.Machine.execVfd d t c s
  | .vtr d t c => Sys2Proof.Machine.execVtr d t c s
  | .via d t c => Sys2Proof.Machine.execVia d t c s
  | .vcmp d t c => Sys2Proof.Machine.execVcmp d t c s
  | .vicmp d t c => Sys2Proof.Machine.execVicmp d t c s
  | .vmask d t c => Sys2Proof.Machine.execVmask d t c s
  | .vcvt d t c => Sys2Proof.Machine.execVcvt d t c s
  | .vperm d t c => Sys2Proof.Machine.execVperm d t c s
  | .vqpop d t c => Sys2Proof.Machine.execVqpop d t c s
  | .vqpush d t c => Sys2Proof.Machine.execVqpush d t c s
  | .vectorComplete d t => Sys2Proof.Machine.execVectorComplete d t s
  | .red d t c => Sys2Proof.Machine.execRed d t c s
  | .racc d t c => Sys2Proof.Machine.execRacc d t c s
  | .rfold d t c => Sys2Proof.Machine.execRfold d t c s
  | .rclr d t c => Sys2Proof.Machine.execRclr d t c s
  | .reductionComplete d t => Sys2Proof.Machine.execReductionComplete d t s
  | .sia d t c => Sys2Proof.Machine.execSia d t c s
  | .sfa d t c => Sys2Proof.Machine.execSfa d t c s
  | .dividerComplete d t => Sys2Proof.Machine.execDividerComplete d t s
  | .scmp d t c => Sys2Proof.Machine.execScmp d t c s
  | .sicmp d t c => Sys2Proof.Machine.execSicmp d t c s
  | .scvt d t c => Sys2Proof.Machine.execScvt d t c s
  | .sli d t c => Sys2Proof.Machine.execSli d t c s
  | .br d t c => Sys2Proof.Machine.execBr d t c s
  | .ald d t c => Sys2Proof.Machine.execAld d t c s
  | .ast d t c => Sys2Proof.Machine.execAst d t c s
  | .acopy d t c => Sys2Proof.Machine.execAcopy d t c s
  | .alds d t c => Sys2Proof.Machine.execAlds d t c s
  | .asts d t c => Sys2Proof.Machine.execAsts d t c s
  | .asig d t c => Sys2Proof.Machine.execAsig d t c s
  | .afence d t c => Sys2Proof.Machine.execAfence d t c s
  | .accessResponse d t slot => Sys2Proof.Machine.execAccessResponse d t slot s
  | .oqBlockReady d t matrix pos => Sys2Proof.Machine.execOqBlockReady d t matrix pos s
  | .accessComplete d t count => Sys2Proof.Machine.execAccessComplete d t count s
  | .requestRetryResend d t slot => Sys2Proof.Machine.execRequestRetryResend d t slot s
  | .signal d t acc c => Sys2Proof.Machine.execSignal d t acc c s
  | .wait d t acc c => Sys2Proof.Machine.execWait d t acc c s
  | .waitalm d t acc c => Sys2Proof.Machine.execWaitalm d t acc c s
  | .notify d t acc c => Sys2Proof.Machine.execNotify d t acc c s
  | .fset d t acc c => Sys2Proof.Machine.execFset d t acc c s
  | .notifyEventTake d => Sys2Proof.Machine.execNotifyEventTake d s
  | .nop d t c => Sys2Proof.Machine.execNop d t c s
  | .halt d t c => Sys2Proof.Machine.execHalt d t c s
  | .loop d t c => Sys2Proof.Machine.execLoop d t c s
  | .rdcr d t c => Sys2Proof.Machine.execRdcr d t c s
  | .wrcr d t c => Sys2Proof.Machine.execWrcr d t c s
  | .yield d t c => Sys2Proof.Machine.execYield d t c s
  | .catchCropSwitch d t c => Sys2Proof.Machine.execCatchCropSwitch d t c s
  | .catchCropSwitchComplete d t => Sys2Proof.Machine.execCatchCropSwitchComplete d t s
  | .cropReturnBeat d t => Sys2Proof.Machine.execCropReturnBeat d t s
  | .cropOverrun d t => Sys2Proof.Machine.execCropOverrun d t s
  | .circularWait d t => Sys2Proof.Machine.execCircularWait d t s
  | .start d t w => Sys2Proof.Machine.execStart d t w s
  | .stop d t w => Sys2Proof.Machine.execStop d t w s
  | .abort d t w => Sys2Proof.Machine.execAbort d t w s
  | .restart d t w => Sys2Proof.Machine.execRestart d t w s
  | .resume d t w => Sys2Proof.Machine.execResume d t w s
  | .cvtSeedWrite d t bank seed => Sys2Proof.Machine.execCvtSeedWrite d t bank seed s
  | .registerWrite addr value => Sys2Proof.Machine.execRegisterWrite addr value s
  | .meshSramRequest d t r => Sys2Proof.Machine.execMeshSramRequest d t r s
  | .flagIncrement d t ctx flag count => Sys2Proof.Machine.execFlagIncrement d t ctx flag count s
  | .dieFabricFlit e good held => Sys2Proof.Machine.execDieFabricFlit e good held s
  | .routeTableChange cid => Sys2Proof.Machine.execRouteTableChange cid s
  | .routeDrainTimeout cid => Sys2Proof.Machine.execRouteDrainTimeout cid s
  | .commandDeliver cid => Sys2Proof.Machine.execCommandDeliver cid s
  | .execBeatReached cid => Sys2Proof.Machine.execExecBeatReached cid s
  | .problemStart f j cycles bad => Sys2Proof.Machine.execProblemStart f j cycles bad s
  | .factorStageComplete f j cycles bad => Sys2Proof.Machine.execFactorStageComplete f j cycles bad s
  | .refineResidual f j cycles => Sys2Proof.Machine.execRefineResidual f j cycles s
  | .retainCommit f j cycles => Sys2Proof.Machine.execRetainCommit f j cycles s
  | .factorDeadline f => Sys2Proof.Machine.execFactorDeadline f s
  | .factorBatchComplete f => Sys2Proof.Machine.execFactorBatchComplete f s
  | .factorBatch cid => Sys2Proof.Machine.execFactorBatch cid s
  | .factorStore cid => Sys2Proof.Machine.execFactorStore cid s
  | .factorRelease cid => Sys2Proof.Machine.execFactorRelease cid s
  | .factorReset cid => Sys2Proof.Machine.execFactorReset cid s
  | .factorAbort cid => Sys2Proof.Machine.execFactorAbort cid s
  | .memRequest m r => Sys2Proof.Machine.execMemRequest m r s
  | .winnowerAccess m stack pc now banks errs odecc => Sys2Proof.Machine.execWinnowerAccess m stack pc now banks errs odecc s
  | .scrubRead m stack errs odecc => Sys2Proof.Machine.execScrubRead m stack errs odecc s
  | .refresh m stack pc bank => Sys2Proof.Machine.execRefresh m stack pc bank s
  | .rfm m stack pc bank => Sys2Proof.Machine.execRfm m stack pc bank s
  | .repairCandidate m stack row => Sys2Proof.Machine.execRepairCandidate m stack row s
  | .hbmTempPoll m t0 t1 => Sys2Proof.Machine.execHbmTempPoll m t0 t1 s
  | .hbmLevel3Throttle m stack => Sys2Proof.Machine.execHbmLevel3Throttle m stack s
  | .hbmRecalibration m stack pc converged => Sys2Proof.Machine.execHbmRecalibration m stack pc converged s
  | .memMode cid => Sys2Proof.Machine.execMemMode cid s
  | .hbmRepair cid => Sys2Proof.Machine.execHbmRepair cid s
  | .hbmMargin cid records => Sys2Proof.Machine.execHbmMargin cid records s
  | .eccInject cid => Sys2Proof.Machine.execEccInject cid s
  | .update cid => Sys2Proof.Machine.execUpdate cid s
  | .voteRoundComplete vote => Sys2Proof.Machine.execVoteRoundComplete vote s
  | .voteTimeout => Sys2Proof.Machine.execVoteTimeout s
  | .updateComplete => Sys2Proof.Machine.execUpdateComplete s
  | .trainCfg cid => Sys2Proof.Machine.execTrainCfg cid s
  | .stashPack cid => Sys2Proof.Machine.execStashPack cid s
  | .stashUnpack cid => Sys2Proof.Machine.execStashUnpack cid s
  | .flitTransmit p => Sys2Proof.Machine.execFlitTransmit p s
  | .flitReceive p f => Sys2Proof.Machine.execFlitReceive p f s
  | .laneLockLost p => Sys2Proof.Machine.execLaneLockLost p s
  | .linkTrainingComplete p ok peer => Sys2Proof.Machine.execLinkTrainingComplete p ok peer s
  | .retrainComplete p ok audit => Sys2Proof.Machine.execRetrainComplete p ok audit s
  | .creditAudit p marginOk => Sys2Proof.Machine.execCreditAudit p marginOk s
  | .auditFlit p free ctot delay => Sys2Proof.Machine.execAuditFlit p free ctot delay s
  | .packetForward l k => Sys2Proof.Machine.execPacketForward l k s
  | .write k => Sys2Proof.Machine.execWrite k s
  | .read k => Sys2Proof.Machine.execRead k s
  | .readRsp k => Sys2Proof.Machine.execReadRsp k s
  | .writeAck k => Sys2Proof.Machine.execWriteAck k s
  | .errorRsp k => Sys2Proof.Machine.execErrorRsp k s
  | .signalPacket k => Sys2Proof.Machine.execSignalPacket k s
  | .remoteTimeout l slot => Sys2Proof.Machine.execRemoteTimeout l slot s
  | .coll cid => Sys2Proof.Machine.execColl cid s
  | .ldLaunch l w => Sys2Proof.Machine.execLdLaunch l w s
  | .collData k => Sys2Proof.Machine.execCollData k s
  | .collCtrl k => Sys2Proof.Machine.execCollCtrl k s
  | .collDeadline slot => Sys2Proof.Machine.execCollDeadline slot s
  | .collComplete slot => Sys2Proof.Machine.execCollComplete slot s
  | .vote k => Sys2Proof.Machine.execVote k s
  | .rotate cid => Sys2Proof.Machine.execRotate cid s
  | .rotData k => Sys2Proof.Machine.execRotData k s
  | .rotationRoundComplete => Sys2Proof.Machine.execRotationRoundComplete s
  | .torusCfg cid => Sys2Proof.Machine.execTorusCfg cid s
  | .routeSet cid => Sys2Proof.Machine.execRouteSet cid s
  | .linkCtrl cid => Sys2Proof.Machine.execLinkCtrl cid s
  | .beatBoundary => Sys2Proof.Machine.execBeatBoundary s
  | .seasonStartBoundary => Sys2Proof.Machine.execSeasonStartBoundary s
  | .beatSend depart => Sys2Proof.Machine.execBeatSend depart s
  | .beat p k phase depart => Sys2Proof.Machine.execBeat p k phase depart s
  | .almSyncLost => Sys2Proof.Machine.execAlmSyncLost s
  | .almCfgApply => Sys2Proof.Machine.execAlmCfgApply s
  | .almRefLost => Sys2Proof.Machine.execAlmRefLost s
  | .almRefReturn => Sys2Proof.Machine.execAlmRefReturn s
  | .almPpsEdge e => Sys2Proof.Machine.execAlmPpsEdge e s
  | .almPpsLost => Sys2Proof.Machine.execAlmPpsLost s
  | .almCfg cid => Sys2Proof.Machine.execAlmCfg cid s
  | .almSeasonStart cid => Sys2Proof.Machine.execAlmSeasonStart cid s
  | .gleanWindowEdge j => Sys2Proof.Machine.execGleanWindowEdge j s
  | .sdDoorbell ring value => Sys2Proof.Machine.execSdDoorbell ring value s
  | .commandAccept ring fetched => Sys2Proof.Machine.execCommandAccept ring fetched s
  | .nopCommand cid => Sys2Proof.Machine.execNopCommand cid s
  | .regWrite cid => Sys2Proof.Machine.execRegWrite cid s
  | .regRead cid => Sys2Proof.Machine.execRegRead cid s
  | .progLoad cid => Sys2Proof.Machine.execProgLoad cid s
  | .runStart cid => Sys2Proof.Machine.execRunStart cid s
  | .runCtrl cid => Sys2Proof.Machine.execRunCtrl cid s
  | .runAbort cid => Sys2Proof.Machine.execRunAbort cid s
  | .dmaCopy cid hostData => Sys2Proof.Machine.execDmaCopy cid hostData s
  | .maintEnter cid => Sys2Proof.Machine.execMaintEnter cid s
  | .maintExit cid => Sys2Proof.Machine.execMaintExit cid s
  | .maintReset cid => Sys2Proof.Machine.execMaintReset cid s
  | .dbgMode cid => Sys2Proof.Machine.execDbgMode cid s
  | .sdBootGo value => Sys2Proof.Machine.execSdBootGo value s
  | .cbrkResume value => Sys2Proof.Machine.execCbrkResume value s
  | .ringEnable ring value => Sys2Proof.Machine.execRingEnable ring value s
  | .hostBarAccess bar write off len data => Sys2Proof.Machine.execHostBarAccess bar write off len data s
  | .pcieHostReset => Sys2Proof.Machine.execPcieHostReset s
  | .ucieFrame m frame => Sys2Proof.Machine.execUcieFrame m frame s
  | .sowCfg cid => Sys2Proof.Machine.execSowCfg cid s
  | .sowOpen cid => Sys2Proof.Machine.execSowOpen cid s
  | .sowRemirror => Sys2Proof.Machine.execSowRemirror s
  | .harvestCfg cid => Sys2Proof.Machine.execHarvestCfg cid s
  | .harvestTake cid => Sys2Proof.Machine.execHarvestTake cid s
  | .harvestCapture => Sys2Proof.Machine.execHarvestCapture s
  | .harvestPhaseEnd => Sys2Proof.Machine.execHarvestPhaseEnd s
  | .harvestTallyCheck area => Sys2Proof.Machine.execHarvestTallyCheck area s
  | .harvestDrain cid => Sys2Proof.Machine.execHarvestDrain cid s
  | .harvestRestore cid head entries shards => Sys2Proof.Machine.execHarvestRestore cid head entries shards s
  | .spareAdopt cid checkOk => Sys2Proof.Machine.execSpareAdopt cid checkOk s
  | .dieRetire cid => Sys2Proof.Machine.execDieRetire cid s
  | .pErrTailWrite b value => Sys2Proof.Machine.execPErrTailWrite b value s
  | .pErrAck b value => Sys2Proof.Machine.execPErrAck b value s
  | .sealVerify cid => Sys2Proof.Machine.execSealVerify cid s
  | .sealRelease cid => Sys2Proof.Machine.execSealRelease cid s
  | .errInject cid => Sys2Proof.Machine.execErrInject cid s
  | .selftestRun cid failed => Sys2Proof.Machine.execSelftestRun cid failed s
  | .gleanCfg cid => Sys2Proof.Machine.execGleanCfg cid s
  | .gleanWindow cid => Sys2Proof.Machine.execGleanWindow cid s
  | .telemCfg cid => Sys2Proof.Machine.execTelemCfg cid s
  | .selftest d t failed => Sys2Proof.Machine.execSelftest d t failed s
  | .selftestOverdue d => Sys2Proof.Machine.execSelftestOverdue d s
  | .agingGuardband low => Sys2Proof.Machine.execAgingGuardband low s
  | .telemetryRecord r => Sys2Proof.Machine.execTelemetryRecord r s
  | .watchdog => Sys2Proof.Machine.execWatchdog s
  | .ctrlParity b => Sys2Proof.Machine.execCtrlParity b s
  | .fuseParity => Sys2Proof.Machine.execFuseParity s
  | .powerOnReset rise fuses => Sys2Proof.Machine.execPowerOnReset rise fuses s
  | .resetN ns => Sys2Proof.Machine.execResetN ns s
  | .warmReset fuses remeasured => Sys2Proof.Machine.execWarmReset fuses remeasured s
  | .oscWaitEnd running => Sys2Proof.Machine.execOscWaitEnd running s
  | .oscRetry => Sys2Proof.Machine.execOscRetry s
  | .powerUpReady trained checks => Sys2Proof.Machine.execPowerUpReady trained checks s
  | .clockMonitorWindow b k n => Sys2Proof.Machine.execClockMonitorWindow b k n s
  | .pllUnlock b k => Sys2Proof.Machine.execPllUnlock b k s
  | .pllRelock b k locked => Sys2Proof.Machine.execPllRelock b k locked s
  | .wclkReturn again => Sys2Proof.Machine.execWclkReturn again s
  | .optionCommit value => Sys2Proof.Machine.execOptionCommit value s
  | .secAttest cid => Sys2Proof.Machine.execSecAttest cid s
  | .secIdentity cid => Sys2Proof.Machine.execSecIdentity cid s
  | .secFuseBlow cid miss => Sys2Proof.Machine.execSecFuseBlow cid miss s
  | .secKeyProvision cid miss => Sys2Proof.Machine.execSecKeyProvision cid miss s
  | .jtagInstruction instr => Sys2Proof.Machine.execJtagInstruction instr s
  | .i3cTransfer head data => Sys2Proof.Machine.execI3cTransfer head data s
  | .dieTempPoll temps => Sys2Proof.Machine.execDieTempPoll temps s
  | .powerLimitWindow watts => Sys2Proof.Machine.execPowerLimitWindow watts s
  | .inputVoltage mv us stages => Sys2Proof.Machine.execInputVoltage mv us stages s
  | .supplyFault stage2 group => Sys2Proof.Machine.execSupplyFault stage2 group s
  | .coolOkDeassert => Sys2Proof.Machine.execCoolOkDeassert s
  | .coolLost => Sys2Proof.Machine.execCoolLost s
  | .coolLostShutdown => Sys2Proof.Machine.execCoolLostShutdown s
  | .pumpDutyUpdate => Sys2Proof.Machine.execPumpDutyUpdate s
  | .coolOkAssert => Sys2Proof.Machine.execCoolOkAssert s
  | .resetNRelease fuses => Sys2Proof.Machine.execResetNRelease fuses s
  | .vinInRange mv => Sys2Proof.Machine.execVinInRange mv s

end Sys2Proof.Machine
end

