-- ==== Sys2Proof/Safety.lean ====
section
/-! DEFINITION. The terms in which statements speak of the machine: when the head of a tile's queue issues and
what the state is then, when a command of the node host runs, the canonical form of every memory, the fuses that
no command may blow, what a correctly rounded number is, and what the lanes of a vector group, a row of the converter
and a fixed-point problem hold. -/
namespace Sys2Proof.Machine

/-! ## Tile instructions -/

/-- The head of a side of tile t of die d is `q`, a word that `ok` accepts, and it issues in cycle c: nothing of the
tile comes before that cycle or is still due in it, and R135's conditions hold with the gate of R136. A WAIT of the
access side gives way to one of the execute side on the same flag (R150). -/
def State.sideTurn (s : State) (acc : Bool) (d t c : Nat) (ok : BitVec 64 → Bool) (q : QEntry)
    (rest : List QEntry) : Bool :=
  decide (((s.land d t c).tile d t).side acc = q :: rest) && ok q.word && s.reached d t c
    && (s.tile d t).clear (c + 1) && s.canIssue acc d t c
    && !(acc && isOp 5 1 q.word && s.execWaits d t c (yFlag q.word))

/-- The state in which an instruction of a side runs: what lands by cycle c has landed, the queue has lost its head,
and the side's next issue is a cycle later at the earliest. -/
def State.sideTaken (s : State) (acc : Bool) (d t c : Nat) (rest : List QEntry) : State :=
  let s1 := s.land d t c
  let T := s1.tile d t
  s1.setTile d t (if acc then { T with aq := rest, times := { T.times with acc := c + 1 } }
    else { T with eq := rest, times := { T.times with exec := c + 1 } })

def State.execTurn (s : State) (d t c : Nat) (ok : BitVec 64 → Bool) (q : QEntry) (rest : List QEntry) : Bool :=
  s.sideTurn false d t c ok q rest

def State.execTaken (s : State) (d t c : Nat) (rest : List QEntry) : State := s.sideTaken false d t c rest

def State.accTurn (s : State) (d t c : Nat) (ok : BitVec 64 → Bool) (q : QEntry) (rest : List QEntry) : Bool :=
  s.sideTurn true d t c ok q rest

def State.accTaken (s : State) (d t c : Nat) (rest : List QEntry) : State := s.sideTaken true d t c rest

/-- Two states agree but for the instructions, registers and SRAM of tiles. -/
def State.sameButTiles (s t : State) : Prop := { t with tiles := s.tiles } = s

/-! ## Commands of the node host -/

/-- Command `cid` is accepted, ready and first for its dies, nothing holds it back, and neither the device's mode,
an unfinished restore nor the seal refuses it (R23, R345, R366, R373, R395). -/
def State.canRun (s : State) (cid op : Nat) (c : Cmd) : Bool :=
  decide (s.cmd? cid = some c) && decide (c.stage = .ready) && decide (c.op = op) && s.inTurn c && !s.heldBack op
    && !s.modeRefuses op && !s.restoreRefuses op && !s.sealRefuses c

/-- The same of a command that runs whatever precedes it (R176). -/
def State.canRunNow (s : State) (cid op : Nat) (c : Cmd) : Bool :=
  decide (s.cmd? cid = some c) && decide (c.stage = .ready) && decide (c.op = op)
    && !s.modeRefuses op && !s.restoreRefuses op && !s.sealRefuses c

/-! ## Memory -/

/-- The device's HBM and local stores, the node host's memory and the boot staging area are in canonical form. -/
def State.memoryWf (s : State) : Bool := Memory.wf s.mem && Memory.wf s.sd.hostMem && Memory.wf s.sd.staging

/-! ## Fuses (R436, R437) -/

/-- Bits of a fuse word that are blown as shipped or that a command may blow: outside them lie the identity,
KEY_HASH[0] (which Pasoly writes at manufacture), HOST_MAP bits 15:13 and the reserved words. -/
def fuseMask (w : Nat) : BitVec 32 :=
  if w = 12 then 0xF1
  else if w = 13 then 0xF0307
  else if w = 14 then 0x1FFF
  else if w = 15 ∨ w = 16 ∨ (29 ≤ w ∧ w < 65) then 0xFFFFFFFF
  else 0

/-- No bit outside the mask is blown in a copy. -/
def fuseCopyOk (c : Table (BitVec 32)) : Prop := ∀ w, Table.get 0 c w &&& ~~~fuseMask w = 0

/-- Every bit blown in `a` is blown in `b`. -/
def fuseGrows (a b : Table (BitVec 32)) : Prop := ∀ w, Table.get 0 a w &&& ~~~Table.get 0 b w = 0

/-- What every step keeps: no reserved fuse bit is blown in either copy, or is to be blown by the command that runs. -/
def State.fusesOk (s : State) : Prop :=
  fuseCopyOk s.fuse.copy0 ∧ fuseCopyOk s.fuse.copy1 ∧
    ∀ j ∈ s.fuse.job, ∀ e ∈ j.todo, e.2 &&& ~~~fuseMask e.1 = 0

/-! ## Vector groups (R99 to R112) -/

/-- Element e, of w bits, of the group at `base`, as the read cycle of its step sees it; a step is `cc` cycles, and
steps count on width `wide`. -/
def Tile.elemAt (T : Tile) (c cc base w wide e : Nat) : Nat :=
  (T.chunkAt (c + cc * (e / (2048 / wide))) (base + e * w / 4096) (e * w / 2048 % 2)).toNat
    >>> (w * (e % (2048 / w))) % 2 ^ w

/-- What an instruction puts in hand for a group of g registers at `base`: behind what was still to land, the codes that
f gives its elements, each at the cycle of its step, and nothing for the elements to which f gives none; and for the
completion cycle the flags and clamps of the elements `act` below `len`, where there are any. -/
def Tile.lanes (T T' : Tile) (q : QEntry) (c lat cc base g w wide len : Nat) (act : Nat → Bool)
    (f : Nat → Option Nat) (flags : Nat → FpFlags × Nat) : Prop :=
  ∃ (l : List Pend) (fl : FpFlags) (clamps : Nat), T'.pend.Perm (T.pend ++ l) ∧
    (∀ e < vlmax w g, match f e with
      | some x => ∃ m v : BitVec 2048,
          (⟨c + lat + cc * (e / (2048 / wide)) - cc, q.count.toNat,
            .vchunk (base + e * w / 4096) (e * w / 2048 % 2) m v⟩ : Pend) ∈ l ∧
          ∀ i < w, m.getLsbD (w * (e % (2048 / w)) + i) = true ∧ v.getLsbD (w * (e % (2048 / w)) + i) = x.testBit i
      | none => ∀ p ∈ l, ∀ m v, p.eff = .vchunk (base + e * w / 4096) (e * w / 2048 % 2) m v →
          ∀ i < w, m.getLsbD (w * (e % (2048 / w)) + i) = false) ∧
    (∀ i, fl.getLsbD i = true ↔ ∃ e < len, act e = true ∧ (flags e).1.getLsbD i = true) ∧
    clamps = (((List.range len).filter act).map (fun e => (flags e).2)).sum ∧
    (fl ≠ 0 ∨ clamps ≠ 0 → (⟨c + lat + cc * chunksOf wide len - 2 * cc, q.count.toNat,
      .cvtUpdate T.active none clamps fl⟩ : Pend) ∈ l)

/-- What a comparison puts in hand for mask register `dst`: the result of each element `act` below `len`, at the cycle
of its step, and nothing for the others; and their flags at the completion cycle, where there are any. -/
def Tile.bitLanes (T T' : Tile) (q : QEntry) (c lat dst w len : Nat) (act : Nat → Bool)
    (f : Nat → Bool × FpFlags) : Prop :=
  ∃ (l : List Pend) (fl : FpFlags), T'.pend.Perm (T.pend ++ l) ∧
    (∀ e < 4096, if decide (e < len) && act e then
        ∃ m v : BitVec 4096, (⟨c + lat + e / (2048 / w) - 1, q.count.toNat, .mreg dst m v⟩ : Pend) ∈ l ∧
          m.getLsbD e = true ∧ v.getLsbD e = (f e).1
      else ∀ p ∈ l, ∀ m v, p.eff = .mreg dst m v → m.getLsbD e = false) ∧
    (∀ i, fl.getLsbD i = true ↔ ∃ e < len, act e = true ∧ (f e).2.getLsbD i = true) ∧
    (fl ≠ 0 → (⟨c + lat + chunksOf w len - 2, q.count.toNat, .cvtUpdate T.active none 0 fl⟩ : Pend) ∈ l)

/-! ## Numbers (R37, R48) -/

/-- A decoded value is the finite number x. -/
def FVal.is (v : FVal) (x : ℝ) : Prop :=
  ∃ n m e, v = .fin n m e ∧ x = (if n then -1 else 1) * (m * 2 ^ e)

/-- The direction raises a magnitude of this sign. -/
def Rm.away (rm : Rm) (neg : Bool) : Bool := (rm == .up && !neg) || (rm == .down && neg)

/-- n units u are the magnitude x rounded to a multiple of u (R48): to the nearest, to the even one of two that are
equally near, or to the next one above or below. -/
def Rm.rounds (rm : Rm) (neg : Bool) (n : Nat) (u x : ℝ) : Prop :=
  if rm = .nearest then 2 * |n * u - x| ≤ u ∧ (2 * |n * u - x| = u → n % 2 = 0)
  else if rm.away neg then x ≤ n * u ∧ n * u < x + u
  else n * u ≤ x ∧ x < n * u + u

/-- In units of 2^q the magnitude x has the format's precision. -/
def Fmt.precise (f : Fmt) (q : Int) (x : ℝ) : Prop := 2 ^ f.fbits * 2 ^ q ≤ x ∧ x < 2 ^ (f.fbits + 1) * 2 ^ q

/-- 2^q is the unit of the format at a magnitude x: that of its precision, but not below the subnormal grid (R37). -/
def Fmt.unit (f : Fmt) (q : Int) (x : ℝ) : Prop :=
  let low : Int := 1 - f.bias - f.fbits
  f.precise q x ∧ low ≤ q ∨ q = low ∧ x < 2 ^ f.fbits * 2 ^ q

/-- The magnitude, rounded as though exponents had no lower end, is below the smallest normal (R48). -/
def Fmt.tinyAt (f : Fmt) (rm : Rm) (neg : Bool) (x : ℝ) : Prop :=
  ∃ q n, f.precise q x ∧ rm.rounds neg n (2 ^ q) x ∧ n * (2 : ℝ) ^ q < 2 ^ (1 - (f.bias : Int))

/-- A code and its flags are those of the magnitude x of this sign, rounded once to an IEEE format: the code's own
number where the rounded one does not pass the greatest, INEXACT where it is another number, UNDERFLOW where it is
also tiny; beyond the greatest, infinity or the greatest as the direction says, with OVERFLOW and INEXACT (R48). -/
def Fmt.rounded (f : Fmt) (rm : Rm) (neg : Bool) (x : ℝ) (r : Nat × FpFlags) : Prop :=
  ∃ (q : Int) (n : Nat), f.unit q x ∧ rm.rounds neg n (2 ^ q) x ∧ ∀ top, (f.decode f.maxFin).is top →
    (n * 2 ^ q ≤ top → (∃ m e, f.decode r.1 = .fin neg m e ∧ m * (2 : ℝ) ^ e = n * 2 ^ q) ∧
      ∃ cut tiny, r.2 = flagIf cut fInexact ||| flagIf (cut && tiny) fUnderflow ∧
        (cut = true ↔ n * (2 : ℝ) ^ q ≠ x) ∧ (tiny = true ↔ f.tinyAt rm neg x)) ∧
    (top < n * 2 ^ q → r.2 = fOverflow ||| fInexact ∧
      r.1 = if rm == .nearest || rm.away neg then f.infCode neg else f.signBit neg + f.maxFin)

/-- Code and flags of the number x, which is not 0, rounded once. -/
def Fmt.gives (f : Fmt) (rm : Rm) (x : ℝ) (r : Nat × FpFlags) : Prop :=
  ∃ neg, (neg = true ↔ x < 0) ∧ f.rounded rm neg |x| r

/-- n units u are the magnitude x as the converter rounds it: in a direction, or stochastically, where the fraction cut
off, in units of 2^−16 rounded down, and the generator bits reach 2^16 (R54, R61). -/
def Rounding.rounds (k : Rounding) (neg : Bool) (n : Nat) (u x : ℝ) : Prop :=
  match k with
  | .dir rm => rm.rounds neg n u x
  | .sr b => ∃ i t : Nat, i * u ≤ x ∧ x < (i + 1) * u ∧ t * u ≤ 2 ^ 16 * (x - i * u) ∧
      2 ^ 16 * (x - i * u) < (t + 1) * u ∧ n = if 2 ^ 16 ≤ t + b then i + 1 else i

/-- Code, flags and clamps of the magnitude x of this sign, which is not 0, through the converter (R54, R57, R58):
beyond the greatest number the greatest where the format clamps, else infinity, or NaN where it has none; else the
rounded number. -/
def Fmt.converts (f : Fmt) (k : Rounding) (clamps neg : Bool) (x : ℝ) (r : Nat × FpFlags × Nat) : Prop :=
  ∃ (q : Int) (n : Nat), f.unit q x ∧ k.rounds neg n (2 ^ q) x ∧ ∀ top, (f.decode f.maxFin).is top →
    ((top < n * 2 ^ q ∨ clamps = true ∧ f = e4m3 ∧ top < x) →
      (clamps = true → r = (f.signBit neg + f.maxFin, fSat ||| fInexact, 1)) ∧
      (clamps = false → r = (if f.inf.isNone then f.canonNan else f.infCode neg, fOverflow ||| fInexact, 0))) ∧
    (n * 2 ^ q ≤ top → (clamps = true → f = e4m3 → x ≤ top) →
      (∃ m e, f.decode r.1 = .fin neg m e ∧ m * (2 : ℝ) ^ e = n * 2 ^ q) ∧ r.2.2 = 0 ∧
      ∃ cut tiny, r.2.1 = flagIf cut fInexact ||| flagIf (cut && tiny) fUnderflow ∧
        (cut = true ↔ n * (2 : ℝ) ^ q ≠ x) ∧
        (tiny = true ↔ ∃ q n, f.precise q x ∧ k.rounds neg n (2 ^ q) x ∧ n * (2 : ℝ) ^ q < 2 ^ (1 - (f.bias : Int))))

/-- HI and LO of the exact number x, which is not 0: HI is x rounded to FP64, LO the rest rounded again (R78). -/
def pairOf (x : ℝ) (hi lo : Nat) : Prop :=
  ∃ f1 f2 : FpFlags, fp64.gives .nearest x (hi, f1) ∧ ∀ h, (fp64.decode hi).is h →
    (x - h = 0 → lo = 0) ∧ (x - h ≠ 0 → fp64.gives .nearest (x - h) (lo, f2))

/-- A value and its flags are those of the exact number x, which is not 0, in the float layout: 56 significant bits to
nearest even, infinity beyond the exponents, a zero below them (R43, R77). -/
def floatOf (x : ℝ) (r : FVal × FpFlags) : Prop :=
  ∃ (neg : Bool) (q : Int) (n : Nat), (neg = true ↔ x < 0) ∧ 2 ^ 55 * 2 ^ q ≤ |x| ∧ |x| < 2 ^ 56 * 2 ^ q ∧
    Rm.nearest.rounds neg n (2 ^ q) |x| ∧
    (2 ^ (32768 : Int) ≤ n * (2 : ℝ) ^ q → r = (.inf neg, fOverflow)) ∧
    (n * (2 : ℝ) ^ q < 2 ^ (-32766 : Int) → r = (.fin neg 0 0, fUnderflow)) ∧
    (2 ^ (-32766 : Int) ≤ n * (2 : ℝ) ^ q → n * (2 : ℝ) ^ q < 2 ^ (32768 : Int) →
      r.2 = 0 ∧ r.1.is ((if neg then -1 else 1) * (n * 2 ^ q)))

/-- The number that an FX48 integer at a scale exponent stands for (R40). -/
noncomputable def fxReal (e n : Int) : ℝ := n * 2 ^ (e - 46)

/-- n is the number x rounded to the nearest multiple of the grid of exponent e, to the even one of two that are equally
near, and lies in FX48's range (R40, R42). -/
def fxNear (e n : Int) (x : ℝ) : Prop :=
  2 * |fxReal e n - x| ≤ 2 ^ (e - 46) ∧ (2 * |fxReal e n - x| = 2 ^ (e - 46) → n % 2 = 0) ∧ |n| < 2 ^ 47

/-- An FP32 or FP64 code is that of the exact number x rounded once to nearest even, a zero for 0 (R48). -/
def Fmt.near (f : Fmt) (x : ℝ) (c : Nat) : Prop :=
  (x = 0 → (f.decode c).is 0) ∧ (x ≠ 0 → ∃ fl, f.gives .nearest x (c, fl))

/-- A vector less τ (vᵀ h) h, over `rows` rows (R174). -/
noncomputable def houseReal (rows : Nat) (tau : ℝ) (h v : Nat → ℝ) (i : Nat) : ℝ :=
  v i - tau * ((List.range rows).map (fun t => h t * v t)).sum * h i

/-- The reflectors `ks` of a factor applied to a vector, in that order (R174, R187). -/
noncomputable def housesReal (m : FxMat) (taus : List Int) (rows : Nat) (ks : List Nat) (v : Nat → ℝ) : Nat → ℝ :=
  ks.foldl (fun v k => houseReal rows (fxReal 0 (taus.getD k 0))
    (fun i => if i < k then 0 else if i = k then 1 else fxReal 0 (m.at i k)) v) v

/-- x solves a triangular system row by row: each element is one exact sum divided by its diagonal and rounded once, the
rows before it, or behind it, already solved (R175, R181). -/
def triSolved (up : Bool) (n : Nat) (e : Int) (r : Nat → ℝ) (coef : Nat → Nat → ℝ) (d : Nat → ℝ)
    (x : List Int) : Prop :=
  x.length = n ∧ ∀ i < n, fxNear e (x.getD i 0)
    ((r i - (((List.range n).filter (fun p => if up then p < i else i < p)).map
    (fun p => coef i p * fxReal e (x.getD p 0))).sum) / d i)

/-- A binary tree of additions over the values of a list, each of them once, ends in a value (R88, R121). -/
inductive SumTree {α : Type} (add : α → α → α) : List α → α → Prop
  | leaf (x : α) : SumTree add [x] x
  | node (l a b : List α) (x y : α) : l.Perm (a ++ b) → SumTree add a x → SumTree add b y → SumTree add l (add x y)

end Sys2Proof.Machine
end

