-- ==== Sys2Proof/Certificates/Slice0/Obligations.lean ====
section
/-! DEFINITION. The statements for the provers: what the commands of each family do, what they leave alone, and
what every step keeps. -/

open Sys2Proof Sys2Proof.Machine

/-- SIA, SFA, SCMP, SICMP, SCVT and SLI, where they issue in cycle c (R135) and none of the conditions that skip them
holds (R157), change nothing beyond what the issue takes but the tile itself, by the meaning of the word: siaRun,
sfaRun, scmpRun, sicmpRun, scvtRun or sliRun. Each of these lands its value in S[SD], and the flags it raises, with
its latency: SIA and SICMP the two's-complement operation on sources of 64 or 32 bits, sign-extended, or 1 or 0; SFA
and SCMP the operation of the function on numbers of the format; SCVT the conversion, out of range an end of it with
INVALID; SLI the quarter it writes (R140, R156). An operation on finite numbers gives the exact sum, product, quotient
or root rounded once to the format, by Fmt.gives, and a zero with the sign of R49 where the exact result is 0; a
comparison gives what the numbers say, and MAX and MIN the greater and the smaller of two that differ. The first NaN
of the operands comes through, quieted, with INVALID where one signals; infinities of unlike sign in a sum, a product
or a quotient of 0 and infinity, and the root of a negative number are invalid, and a finite number over zero sets
DIVZERO (R48 to R51). -/
def Obligations.ScalarUnitComputesItsResult : Prop :=
  (∀ (d : Fin 32) (t : Fin 144) (c : Nat) (s : State) (q : QEntry) (rest : List QEntry),
    let s1 := s.execTaken d t c rest
    let T := s1.tile d t
    (s.execTurn d t c (isOpOr 0 0 7) q rest → firstCode (siaChecks T c q.word) = none →
      exec (.sia d t c) s = .next ((s1.setTile d t (siaRun c q T)).issued d t q)) ∧
    (s.execTurn d t c (isOp 0 1) q rest → firstCode (sfaChecks T c q.word) = none →
      exec (.sfa d t c) s = .next ((s1.setTile d t (sfaRun c q T)).issued d t q)) ∧
    (s.execTurn d t c (isOp 0 2) q rest → firstCode (scmpChecks T c q.word) = none →
      exec (.scmp d t c) s = .next ((s1.setTile d t (scmpRun c q T)).issued d t q)) ∧
    (s.execTurn d t c (isOp 0 3) q rest → firstCode (sicmpChecks T c q.word) = none →
      exec (.sicmp d t c) s = .next ((s1.setTile d t (sicmpRun c q T)).issued d t q)) ∧
    (s.execTurn d t c (isOp 0 4) q rest → firstCode (scvtChecks T c q.word) = none →
      exec (.scvt d t c) s = .next ((s1.setTile d t (scvtRun c q T)).issued d t q)) ∧
    (s.execTurn d t c (isOp 0 5) q rest → firstCode (sliChecks T c q.word) = none →
      exec (.sli d t c) s = .next ((s1.setTile d t (sliRun c q T)).issued d t q))) ∧
  (∀ (c : Nat) (q : QEntry) (T : Tile),
    let w := q.word
    let fn := sFunc w
    let N := sWidth (sFmt w)
    let f := sFloat (sFmt w)
    let x : BitVec N := (T.sreg T.active (sSs1 w)).setWidth N
    let y : BitVec N := if sImmf w then BitVec.ofInt N (sImm w) else (T.sreg T.active (sSs2 w)).setWidth N
    let a := f.decode x.toNat
    let b := f.decode (T.sFp2 w f N)
    let lands (T' : Tile) (lat : Nat) (v : BitVec 64) (flags : FpFlags) : Prop :=
      (⟨c + lat, q.count.toNat, .sreg T.active (sSd w) v⟩ : Pend) ∈ T'.pend ∧
      (flags ≠ 0 → (⟨c + lat, q.count.toNat, .cvtUpdate T.active none 0 flags⟩ : Pend) ∈ T'.pend)
    let float (T' : Tile) (lat : Nat) (r : Nat × FpFlags) : Prop := lands T' lat (BitVec.ofNat 64 r.1) r.2
    lands (siaRun c q T) (if fn = 2 then 3 else 1) (BitVec.signExtend 64 (match fn with
      | 0 => x + y
      | 1 => x - y
      | 2 => x * y
      | 3 => x &&& y
      | 4 => x ||| y
      | 5 => x ^^^ y
      | 6 => x <<< (y.toNat % N)
      | 7 => x >>> (y.toNat % N)
      | 8 => x.sshiftRight (y.toNat % N)
      | 9 => if x.sle y then x else y
      | 10 => if x.sle y then y else x
      | 11 => if x.ule y then x else y
      | _ => if x.ule y then y else x)) 0 ∧
    lands (sicmpRun c q T) 1 (if (match fn with
      | 0 => x == y
      | 1 => x != y
      | 2 => x.slt y
      | 3 => x.sle y
      | 4 => x.ult y
      | _ => x.ule y) then 1 else 0) 0 ∧
    (fn = 0 → float (sfaRun c q T) 4 (addVal f (sRm w) a b)) ∧
    (fn = 1 → float (sfaRun c q T) 4 (subVal f (sRm w) a b)) ∧
    (fn = 2 → float (sfaRun c q T) 4 (mulVal f (sRm w) a b)) ∧
    (fn = 3 → float (sfaRun c q T) 4 (fmaVal f (sRm w) a b (f.decode (T.sLow (sSd w) N)))) ∧
    (fn = 4 → float (sfaRun c q T) (if N = 64 then 22 else 12) (divVal f (sRm w) a b)) ∧
    (fn = 5 → float (sfaRun c q T) (if N = 64 then 22 else 12) (sqrtVal f (sRm w) a)) ∧
    (fn = 6 ∨ fn = 7 → float (sfaRun c q T) 2 (maxminVal f (fn == 6) a b)) ∧
    (fn = 8 ∨ fn = 9 → float (sfaRun c q T) 2 (maxminNumVal f (fn == 8) a b)) ∧
    (fn = 10 → ∃ v : BitVec 64, lands (sfaRun c q T) 2 v 0 ∧
      ∀ i, v.getLsbD i = (decide (i < N - 1) && x.getLsbD i)) ∧
    (fn = 11 → ∃ v : BitVec 64, lands (sfaRun c q T) 2 v 0 ∧
      ∀ i, v.getLsbD i = (x.getLsbD i ^^ decide (i = N - 1))) ∧
    float (scmpRun c q T) 2 (natOf (cmpFlag (cmpOf fn) a b).1, (cmpFlag (cmpOf fn) a b).2) ∧
    (let g := sFloat (bits w 19 16)
     let ws := sWidth (bits w 19 16)
     let src : BitVec ws := (T.sreg T.active (sSs1 w)).setWidth ws
     (fn = 0 → ∀ (n : Bool) (m : Nat) (e : Int), g.decode src.toNat = .fin n m e →
       ∃ k : Nat, (sRm w).rounds n k 1 (m * 2 ^ e) ∧
         let v : Int := if n then -(k : Int) else k
         (-(2 : Int) ^ (N - 1) ≤ v → v < 2 ^ (N - 1) → ∃ cut : Bool, (cut = true ↔ (k : ℝ) ≠ m * 2 ^ e) ∧
           lands (scvtRun c q T) 3 (BitVec.ofInt 64 v) (flagIf cut fInexact)) ∧
         ((2 : Int) ^ (N - 1) ≤ v → lands (scvtRun c q T) 3 (BitVec.ofInt 64 (2 ^ (N - 1) - 1)) fInvalid) ∧
         (v < -(2 : Int) ^ (N - 1) → lands (scvtRun c q T) 3 (BitVec.ofInt 64 (-(2 : Int) ^ (N - 1))) fInvalid)) ∧
     (fn = 1 → float (scvtRun c q T) 3 (f.roundDyad (sRm w) false ⟨src.toInt, 0⟩)) ∧
     (fn = 2 → float (scvtRun c q T) 3 (f.ofVal (sRm w) (g.decode src.toNat)))) ∧
    (∃ v : BitVec 64, lands (sliRun c q T) 1 v 0 ∧ ∀ i < 64, v.getLsbD i =
      if i / 16 = fn % 4 then w.getLsbD (16 + i % 16)
      else !w.getLsbD 54 && (T.sreg T.active (sSd w)).getLsbD i)) ∧
  (∀ f ∈ [fp64, fp32, bf16, fp16], ∀ (rm : Rm) (a b z : FVal) (x y u : ℝ), a.is x → b.is y → z.is u →
    let zero (n : Bool) : Nat × FpFlags := (f.signBit n, 0)
    let sumSign (m n : Bool) : Bool := if m = n then m else rm == .down
    (x + y ≠ 0 → f.gives rm (x + y) (addVal f rm a b)) ∧
    (x + y = 0 → addVal f rm a b = zero (sumSign a.neg? b.neg?)) ∧
    (x - y ≠ 0 → f.gives rm (x - y) (subVal f rm a b)) ∧
    (x - y = 0 → subVal f rm a b = zero (sumSign a.neg? (!b.neg?))) ∧
    (x * y ≠ 0 → f.gives rm (x * y) (mulVal f rm a b)) ∧
    (x * y = 0 → mulVal f rm a b = zero (a.neg? != b.neg?)) ∧
    (x * y + u ≠ 0 → f.gives rm (x * y + u) (fmaVal f rm a b z)) ∧
    (x * y + u = 0 → fmaVal f rm a b z = zero (sumSign (a.neg? != b.neg?) z.neg?)) ∧
    (x ≠ 0 → y ≠ 0 → f.gives rm (x / y) (divVal f rm a b)) ∧
    (x = 0 → y ≠ 0 → divVal f rm a b = zero (a.neg? != b.neg?)) ∧
    (x ≠ 0 → y = 0 → divVal f rm a b = (f.infCode (a.neg? != b.neg?), fDivZero)) ∧
    (x = 0 → y = 0 → divVal f rm a b = (f.canonNan, fInvalid)) ∧
    (0 < x → f.gives rm (Real.sqrt x) (sqrtVal f rm a)) ∧
    (x = 0 → sqrtVal f rm a = zero a.neg?) ∧
    (x < 0 → sqrtVal f rm a = (f.canonNan, fInvalid)) ∧
    (x ≠ 0 → f.gives rm x (f.ofVal rm a)) ∧
    (x < y → maxminVal f true a b = f.ofVal .nearest b ∧ maxminVal f false a b = f.ofVal .nearest a) ∧
    (y < x → maxminVal f true a b = f.ofVal .nearest a ∧ maxminVal f false a b = f.ofVal .nearest b) ∧
    ((cmpFlag .lt a b = (true, 0) ↔ x < y) ∧ (cmpFlag .eq a b = (true, 0) ↔ x = y) ∧
      (cmpFlag .le a b = (true, 0) ↔ x ≤ y) ∧ (cmpFlag .ne a b = (true, 0) ↔ x ≠ y))) ∧
  (∀ (f : Fmt) (rm : Rm) (a b : FVal),
    (∀ n g p, [a, b].find? FVal.isNan = some (.nan n g p) →
      let r := (f.nanCode n p, flagIf (a.isSnan || b.isSnan) fInvalid)
      addVal f rm a b = r ∧ subVal f rm a b = r ∧ mulVal f rm a b = r ∧ divVal f rm a b = r ∧
        maxminVal f true a b = r ∧ maxminVal f false a b = r) ∧
    (∀ z n g p, [a, b, z].find? FVal.isNan = some (.nan n g p) →
      fmaVal f rm a b z = (f.nanCode n p, flagIf (a.isSnan || b.isSnan || z.isSnan) fInvalid)) ∧
    (∀ m n : Bool, addVal f rm (.inf m) (.inf n) = if m = n then (f.infCode m, 0) else (f.canonNan, fInvalid)) ∧
    (∀ (m n : Bool) (e : Int), mulVal f rm (.inf m) (.fin n 0 e) = (f.canonNan, fInvalid) ∧
      divVal f rm (.inf m) (.inf n) = (f.canonNan, fInvalid) ∧ divVal f rm (.fin n 0 e) (.inf m) = (f.signBit (n !=
        m), 0) ∧
      sqrtVal f rm (.inf true) = (f.canonNan, fInvalid)))

/-- Where nothing of the tile comes before its cycle: the end of a division or root frees the divider; the vector
instruction that is due first is over; the reduction that is due first is over, and where it leaves lanes, they stand
in their carry slot. Everything that lands by that cycle has landed, and nothing else changes (R113, R120, R156). -/
def Obligations.EngineCompletionsRecordTheirResults : Prop :=
  ∀ (d : Fin 32) (t : Fin 144) (s : State),
    (∀ due, (s.tile d t).div = some due → s.reached d t due = true →
      exec (.dividerComplete d t) s
        = .next ((s.land d t due).setTile d t { (s.land d t due).tile d t with div := none })) ∧
    (∀ j rest, firstDue (s.tile d t).vjobs = some (j, rest) → s.reached d t j.due = true →
      exec (.vectorComplete d t) s
        = .next ((s.land d t j.due).setTile d t { (s.land d t j.due).tile d t with vjobs := rest })) ∧
    (∀ j0 l0 j rest, firstRed (s.tile d t).rjobs = some (j0, l0) → s.reached d t j0.due = true →
      firstRed ((s.land d t j0.due).tile d t).rjobs = some (j, rest) →
      let s1 := s.land d t j0.due
      let T := s1.tile d t
      (j.carry = none → exec (.reductionComplete d t) s = .next (s1.setTile d t { T with rjobs := rest })) ∧
      (∀ k l, j.carry = some (k, l) → exec (.reductionComplete d t) s
        = .next (s1.setTile d t { T with carry := Table.set [] T.carry k l, rjobs := rest })))

/-- A BR that is taken sends dispatch to its word plus the signed offset and ends the loops whose bodies do not hold
the target; one that is not taken sends it on behind the branch, through the back edges that end there; a target
beyond the program stops dispatch and logs PC_RANGE. In each of these the next execute issue is two cycles later. A BR
of a reserved condition is skipped as ILL_OPCODE, and dispatch goes on behind it (R155). -/
def Obligations.BranchGoesToItsTarget : Prop :=
  ∀ (d : Fin 32) (t : Fin 144) (c : Nat) (s : State) (q : QEntry) (rest : List QEntry),
    s.execTurn d t c (isOp 0 6) q rest →
    let s1 := s.execTaken d t c rest
    let T0 := s1.tile d t
    let T : Tile := { T0 with times := { T0.times with exec := c + 2 } }
    let word := T.cur.pc - 1
    let target := (word : Int) + signedOf 21 (bits q.word 36 16)
    (sFunc q.word < 5 →
      (brTaken T q.word = false → exec (.br d t c) s
        = .next ((s1.setTile d t ((T.setCtx T.active (T.cur.advance word)).resumeDispatch c)).issued d t q)) ∧
      (brTaken T q.word = true → 0 ≤ target → target ≤ 16383 → exec (.br d t c) s
        = .next ((s1.setTile d t ((T.setCtx T.active
            { T.cur with pc := target.toNat, loops := loopsAt target.toNat T.cur.loops }).resumeDispatch c)).issued d
              t q)) ∧
      (brTaken T q.word = true → (target < 0 ∨ 16383 < target) →
        exec (.br d t c) s = .next (((s1.setTile d t T).pcRange d t q.count).issued d t q))) ∧
    (5 ≤ sFunc q.word → exec (.br d t c) s = .next (((s1.setTile d t
      ((T0.setCtx T0.active (T0.cur.advance word)).resumeDispatch c)).skip d t q 0x01).issued d t q))

/-- An MMA that issues in cycle c and that no condition of R73 skips takes two blocks from the operand queue, the data
of the first for A and of the second for B, marks its accumulator tiles busy, holds the array for 64 cycles, and has
its result cycle 76 cycles after its issue. A placeholder reads as zero bits, and OQ_PLACEHOLDER is logged; without
one nothing outside the tile changes. Vector registers, masks, SRAM and both contexts stay as they are (R70, R81,
R146). -/
def Obligations.MmaTakesItsBlocksAndTheArray : Prop :=
  ∀ (d : Fin 32) (t : Fin 144) (c : Nat) (s : State) (q : QEntry) (rest : List QEntry),
    let s1 := s.execTaken d t c rest
    let T := s1.tile d t
    s.execTurn d t c (isOpOr 2 0 4) q rest → firstCode (mmaChecks T c q.word) = none →
    let bytes (n f : Nat) : List Byte := match T.oqm[n]? with
      | some b => if b.hole then List.replicate (blockBytes f) 0 else b.data
      | none => []
    ∃ T', exec (.mma d t c) s = .next ((if (T.oqm.take 2).any OqBlock.hole
        then (s1.setTile d t T').logTile d t q 0x12 0 else s1.setTile d t T').issued d t q) ∧
      T'.oqm = T.oqm.drop 2 ∧ T'.times.array = c + 64 ∧
      (∀ a ∈ accNames (mAcc q.word) (mFmtA q.word == 0), (T'.acc a).busy = true) ∧
      (∃ j, T'.mmas = T.mmas ++ [j] ∧ j.count = q.count ∧ j.due = c + 76 ∧ j.acc.val = mAcc q.word
        ∧ j.add = mAdd q.word ∧ j.fmtA = mFmtA q.word ∧ j.fmtB = mFmtB q.word
        ∧ j.a = bytes 0 (mFmtA q.word) ∧ j.b = bytes 1 (mFmtB q.word)) ∧
      T'.vregs = T.vregs ∧ T'.masks = T.masks ∧ T'.sram = T.sram ∧ T'.ctx0 = T.ctx0 ∧ T'.ctx1 = T.ctx1

/-- ACCST, ACCSAVE and ACCLOAD that issue in cycle c and that no condition of R73 skips. An ACCST adds its block to
the store queue and its rows to the converter, captures its converter bank, reads the visible bank and holds the read
port and the converter for 64 cycles; an ACCSAVE reads the visible bank, writes its 144 chunks to tile SRAM from cycle
c + 7 and holds the read port for 144 cycles; an ACCLOAD marks its tile busy, reads its 144 chunks from cycle c and
holds the write port for 144 cycles. A reader meets the hazard monitor first (R85, R86, R84). Where a condition holds,
an instruction is skipped with the code of the first; an MMA still loses its two blocks, and an ACCST leaves a
placeholder in the store queue (R73, R146). That a reader releases its bank 64 cycles after an ACCST began and 150
after an ACCSAVE did is the model's choice (log entry 121). -/
def Obligations.AccumulatorInstructionsIssue : Prop :=
  ∀ (d : Fin 32) (t : Fin 144) (c : Nat) (s : State) (q : QEntry) (rest : List QEntry),
    let s1 := s.execTaken d t c rest
    let T := s1.tile d t
    let a : Fin 8 := Fin.ofNat 8 (mAcc q.word)
    let off := (T.sreg T.active (mSreg q.word)).toNat
    (s.execTurn d t c (isOp 2 1) q rest → firstCode (accstChecks T c q.word) = none →
      let fmt := mFmtA q.word
      let lay := T.layout T.active a.val
      let tiles := accNames a.val (lay == layPair)
      let b := T.cur.cvt
      let s2 := (s1.hazard d t q tiles (q.word.getLsbD 47)).scaleCheck d t c q (List.range 64)
      let T2 := (s2.tile d t).setCtx (s2.tile d t).active { (s2.tile d t).cur with
        cvt := ((s2.tile d t).cur.cvt).capture (b.inForce c).1 fmt (q.word.getLsbD 52) none }
      exec (.accst d t c) s = .next ((s2.setTile d t { T2 with
        sq := T2.sq ++ [⟨T2.nextId, false, false, accstBytes fmt, []⟩], nextId := T2.nextId + 1
        cvt := T2.cvt ++ [{ count := q.count, ctx := T.active, issue := c
                            acc := some (a, (T.acc a.val).visible, (T.acc (a.val + 1)).visible, BitVec.ofNat 2 lay)
                            vec := none, tail := 0, fmt := fmt, scale := (b.inForce c).2, ctrl := (b.inForce c).1
                            seed := b.seed, n := b.scount, row := 0, sq := T.nextId }]
        readers := T2.readers ++ tiles.map (fun x => ⟨Fin.ofNat 8 x, (T.acc x).visible, q.count, c + 64⟩)
        times := { T2.times with rport := c + 64, cvt := c + 64 } }).issued d t q)) ∧
    (s.execTurn d t c (isOp 2 2) q rest → firstCode (accsaveChecks T c q.word) = none →
      let s2 := s1.hazard d t q [a.val] false
      let T2 := (List.range 144).foldl (fun T' k =>
        T'.addPend q.count (c + 7 + k) (.saveChunk a (T.acc a.val).visible off k)) (s2.tile d t)
      exec (.accsave d t c) s = .next ((s2.setTile d t { T2 with
        readers := T2.readers ++ [⟨a, (T.acc a.val).visible, q.count, c + 150⟩]
        times := { T2.times with rport := c + 144 } }).issued d t q)) ∧
    (s.execTurn d t c (isOp 2 3) q rest → firstCode (accloadChecks T c q.word) = none →
      let T2 := (List.range 144).foldl (fun T' k => T'.addPend q.count (c + k) (.loadChunk a false off k))
        (T.setAcc a.val { T.acc a.val with busy := true })
      exec (.accload d t c) s = .next (((s1.setTile d t { T2 with
        loads := T2.loads ++ [⟨q.count, T.active, a, BitVec.ofNat 2 (bits q.word 52 51), [], c + 150⟩]
        times := { T2.times with wport := c + 144 } }).land d t c).issued d t q)) ∧
    (∀ code,
      (s.execTurn d t c (isOpOr 2 0 4) q rest → firstCode (mmaChecks T c q.word) = some code →
        exec (.mma d t c) s = .next (((s1.setTile d t
          (if wOpc q.word = 0 then { T with oqm := T.oqm.drop 2 } else T)).skip d t q code).issued d t q)) ∧
      (s.execTurn d t c (isOp 2 1) q rest → firstCode (accstChecks T c q.word) = some code →
        exec (.accst d t c) s = .next (((s1.setTile d t T.addSqHole).skip d t q code).issued d t q)) ∧
      (s.execTurn d t c (isOp 2 2) q rest → firstCode (accsaveChecks T c q.word) = some code →
        exec (.accsave d t c) s = .next ((s1.skip d t q code).issued d t q)) ∧
      (s.execTurn d t c (isOp 2 3) q rest → firstCode (accloadChecks T c q.word) = some code →
        exec (.accload d t c) s = .next ((s1.skip d t q code).issued d t q)))

/-- Where nothing of the tile comes before its cycle: in the result cycle of the oldest MMA that MMA is gone, and its
accumulator tiles show their other bank and are no longer busy; in the cycle of its exchange the oldest ACCLOAD shows
the image it has read and gives the tile its layout; the oldest reader releases its bank in its last cycle. Registers,
masks and SRAM stay as what has landed leaves them, and nothing outside the tile changes (R75, R83, R86). In its cycle
the verdict on the oldest result takes it from the list; with the checker off nothing else changes; with it on, the
lines that could not be checked are counted, and where a line fails State.abftFail records it (R89 to R92). Each
element of the new bank is the exact sum of its products and, under ADD, of its old value, by mmaElem: in the fixed
layouts that number itself, or an infinity beyond 70 bits, in the float layout rounded once to 56 bits, in the pair
layout HI and LO (R76 to R78). A line's sum G is a tree of additions over its elements, E the rounded k-slice term and
the tree over its old elements; the line is unchecked where E or an element is not finite; in the fixed layouts it
passes where G = E, in the others where |G − E| is at most 2^−48 or 2^−96 of the magnitudes' sum, which is rounded up
(R88 to R90). The shape of the tree is Config's (log entry 3), the order of the three magnitude sums the model's
choice (log entry 114). -/
def Obligations.AccumulatorBanksExchange : Prop :=
  (∀ (d : Fin 32) (t : Fin 144) (s : State),
    (∀ upset j rest, (s.tile d t).mmas = j :: rest → s.reached d t j.due = true →
      let s1 := s.land d t j.due
      let T := s1.tile d t
      ∃ T', exec (.mmaResultCycle d t upset) s = .next (s1.setTile d t T') ∧ T'.mmas = T.mmas.drop 1 ∧
        (∀ a ∈ accNames j.acc.val (fmtLayout j.fmtA == layPair),
          (T'.acc a).visible = !(T.acc a).visible ∧ (T'.acc a).busy = false) ∧
        (let lay := fmtLayout j.fmtA
         let a := j.acc.val
         let r (e : Nat) := mmaElem lay (kPairs (opVals j.fmtA j.a) (opVals j.fmtB j.b) (kSlice j.fmtA) (e / 64) (e %
             64))
           (if j.add then addends lay (T.visBank a) (T.visBank (a + 1)) e else [])
         (∀ e < 4096, (∀ u ∈ upset, u.1.val ≠ e) → Table.get 0 (T'.visBank a) e = (r e).1) ∧
         (lay = layPair → a % 2 = 0 → ∀ e < 4096, Table.get 0 (T'.visBank (a + 1)) e = (r e).2.1) ∧
         ∃ fl : FpFlags, (∀ i, fl.getLsbD i = true ↔ ∃ e < 4096, (r e).2.2.getLsbD i = true) ∧
           (⟨j.due, j.count.toNat, .cvtUpdate j.ctx none 0 fl⟩ : Pend) ∈ T'.pend) ∧
        T'.vregs = T.vregs ∧ T'.masks = T.masks ∧ T'.sram = T.sram ∧ T'.oqm = T.oqm) ∧
    (∀ j0 rest0 j rest, (s.tile d t).loads = j0 :: rest0 → s.reached d t j0.due = true →
      let s1 := s.land d t j0.due
      let T := s1.tile d t
      T.loads = j :: rest → exec (.accloadExchange d t) s = .next (s1.setTile d t
        { (T.setAcc j.acc.val ((T.acc j.acc.val).exchange (accOfImage j.data))).setLayout j.ctx j.acc.val j.layout.toNat
          with loads := rest })) ∧
    (∀ r l, (s.tile d t).readers = r :: l → s.reached d t r.due = true →
      let s1 := s.land d t r.due
      exec (.accumulatorReadComplete d t) s = .next (s1.setTile d t
        { s1.tile d t with readers := (s1.tile d t).readers.filter (fun x => x.count != r.count) })) ∧
    (∀ x rest, (s.tile d t).abft = x :: rest → s.reached d t (x.mma.due + 16) = true →
      let s1 := s.land d t (x.mma.due + 16)
      let T : Tile := { s1.tile d t with abft := (s1.tile d t).abft.drop 1 }
      let n := (x.verdicts.1 ++ x.verdicts.2).countP (· == .unchecked)
      let s2 := (s1.setTile d t T).setTile d t { T with regs := { T.regs with
        linesUn := BitVec.ofNat 32 (satAdd 0xFFFFFFFF T.regs.linesUn.toNat n) } }
      let col := firstFail x.verdicts.1
      let row := firstFail x.verdicts.2
      (s1.abftOff T = true → exec (.abftVerdict d t) s = .next (s1.setTile d t T)) ∧
      (s1.abftOff T = false → col = 0xFF → row = 0xFF → exec (.abftVerdict d t) s = .next s2) ∧
      (s1.abftOff T = false → (col ≠ 0xFF ∨ row ≠ 0xFF) →
        exec (.abftVerdict d t) s = .next (s2.abftFail d t x.mma col row)))) ∧
  (∀ (ops : List (FVal × FVal)) (old : List FVal) (xs : List (ℝ × ℝ)) (us : List ℝ),
    List.Forall₂ (fun p x => p.1.is x.1 ∧ p.2.is x.2) ops xs → List.Forall₂ FVal.is old us →
    let total := us.sum + (xs.map (fun x => x.1 * x.2)).sum
    let sign := (old.map FVal.neg? ++ ops.map (fun p => p.1.neg? != p.2.neg?)).all id
    (total ≠ 0 → ∃ hi lo, pairOf total hi lo ∧
      (∀ h, (fp64.decode hi).is h → mmaElem layPair ops old = (BitVec.ofNat 72 hi, BitVec.ofNat 72 lo, 0)) ∧
      (∀ n, fp64.decode hi = .inf n → mmaElem layPair ops old = (BitVec.ofNat 72 hi, 0, fOverflow))) ∧
    (total = 0 → mmaElem layPair ops old = (BitVec.ofNat 72 (fp64.signBit sign), 0, 0)) ∧
    (let r := mmaElem layFloat ops old
     (total ≠ 0 → floatOf total (w72Val layFloat r.1, r.2.2)) ∧
     (total = 0 → w72Val layFloat r.1 = .fin sign 0 0 ∧ r.2.2 = 0)) ∧
    (∀ lay < 2, (∀ p ∈ ops, ∃ x y, if lay = layFixed4 then p = (e2m1.decode x, e2m1.decode y)
        else ∃ f ∈ [e4m3, e5m2], ∃ g ∈ [e4m3, e5m2], p = (f.decode x, g.decode y)) →
      (∀ v ∈ old, ∃ w, v = w72Val lay w) →
      let r := mmaElem lay ops old
      ∃ N : Int, total = N * 2 ^ fixedLsb lay ∧
        (-(2 ^ 69) ≤ N → N < 2 ^ 69 → r.2.2 = 0 ∧ (w72Val lay r.1).is total) ∧
        (2 ^ 69 ≤ N → r.2.2 = fOverflow ∧ w72Val lay r.1 = .inf false) ∧
        (N < -(2 ^ 69) → r.2.2 = fOverflow ∧ w72Val lay r.1 = .inf true))) ∧
  (∀ (lay : Nat) (a b : FVal) (x y : ℝ), a.is x → b.is y →
    (lay < 2 → (lineAdd lay a b).is (x + y)) ∧
    (x + y ≠ 0 → (∃ fl, floatOf (x + y) (lineAdd layFloat a b, fl)) ∧
      ∃ hi lo, pairOf (x + y) hi lo ∧
        ∀ h l, (fp64.decode hi).is h → (fp64.decode lo).is l → (lineAdd layPair a b).is (h + l)) ∧
    (x + y = 0 → lay < 4 → (lineAdd lay a b).is 0)) ∧
  (∀ d : Dyad, 0 < d.m →
    let x : ℝ := d.m * 2 ^ d.e
    (∃ (q : Int) (n : Nat), 2 ^ 55 * 2 ^ q ≤ x ∧ x < 2 ^ 56 * 2 ^ q ∧ Rm.up.rounds false n (2 ^ q) x ∧
      magUp layFloat (some d) = some ⟨n, q⟩) ∧
    ∃ code fl, fp64.gives .up x (code, fl) ∧ magUp layPair (some d) = (fp64.decode code).mag?) ∧
  (∀ (lay : Nat) (new old : List (FVal × Dyad)) (ks : List (FVal × FVal)), lay < 4 → new ≠ [] → ks ≠ [] →
    let k := lineRound lay (sumTerms (ks.map (fun p => mulExact p.1 p.2)))
    let v := lineVerdict lay new old ks
    ∃ g e : FVal, SumTree (lineAdd lay) (new.map (·.1)) g ∧
      (old = [] → e = k) ∧ (old ≠ [] → ∃ o, SumTree (lineAdd lay) (old.map (·.1)) o ∧ e = lineAdd lay k o) ∧
      ((e.finite = false ∨ ∃ n ∈ new, n.1.finite = false) → v = .unchecked) ∧
      (e.finite = true → (∀ n ∈ new, n.1.finite = true) →
        (lay < 2 → ∀ x y, g.is x → e.is y → (v = .pass ↔ x = y) ∧ (v = .fail ↔ x ≠ y)) ∧
        (2 ≤ lay → ∃ mn mo mk, SumTree (magAdd lay) (new.map (fun n => magUp lay (some n.2))) mn ∧
          (old = [] → mo = some Dyad.zero) ∧
          (old ≠ [] → SumTree (magAdd lay) (old.map (fun n => magUp lay (some n.2))) mo) ∧
          SumTree (magAdd lay) (ks.map (fun p => some (p.1.dyad.mul p.2.dyad).abs)) mk ∧
          (magAdd lay (magAdd lay mn mo) mk = none → g.isNan = false → v = .pass) ∧
          ∀ M : Dyad, magAdd lay (magAdd lay mn mo) mk = some M →
            (g.finite = false → v = .fail) ∧
            ∀ x y, g.is x → e.is y →
              let near := |x - y| ≤ M.m * 2 ^ (M.e - if lay = layPair then 96 else 48)
              (v = .pass ↔ near) ∧ (v = .fail ↔ ¬ near))))

/-- Where nothing of the tile comes before its cycle, the next row of the oldest store leaves the converter: its bytes
go to the end of the store's block, no other block changes, and with its last row the store has left the converter.
Accumulators, vector registers and SRAM stay as what has landed leaves them, and nothing outside the tile changes
(R60, R145). The bytes are the codes of the row's elements in order, and behind a vector store's last element free
codes (log entry 5); a cycle later the row's maximum, unless frozen, its clamps and flags reach the bank (R59). An
element is multiplied exactly by its row's scale, 1 where scaling is off or the register unusable (R55), and rounded
once, to nearest even or stochastically by the generator bits of seed, store, row and column (R54, R61); by SAT, and
always to FP4, what passes the greatest number becomes that number and is counted, else infinity, or NaN in E4M3 (R57,
R58); a zero is +0 (R56); a NaN stays one, zero in FP4. That E4M3 clamps what is above 448 before rounding is log
entry 115, and that the column of a pushed element is its place in the row is log entry 149. -/
def Obligations.ConverterPassesARow : Prop :=
  (∀ (d : Fin 32) (t : Fin 144) (s : State) (j : CvtJob) (rest : List CvtJob), (s.tile d t).cvt = j :: rest →
    s.reached d t j.rowCycle = true →
    let s1 := s.land d t j.rowCycle
    let T := s1.tile d t
    let T' := T.cvtRow j
    exec (.converterRow d t) s = .next (s1.setTile d t T') ∧
      T'.cvt = (if j.vec.isSome || j.row == 63 then T.cvt.drop 1 else { j with row := j.row + 1 } :: T.cvt.drop 1) ∧
      (let vs := j.rowVals T
       let out := vs.zipIdx.map (fun p => convElem j.fmt j.ctrl j.seed j.n
         (scaleInForce j.ctrl (Table.get scaleReset j.scale j.rowNo)) j.rowNo p.2 p.1)
       let tail := match j.vec with
         | some _ => (List.range (64 - vs.length)).map (fun e =>
             Config.pushTail j.tail (vs.length + e) % 2 ^ fmtWidth j.fmt)
         | none => []
       let bytes := packCodes (fmtWidth j.fmt) (out.map (·.1) ++ tail)
       T'.sq = T.sq.map (fun b => if b.id = j.sq then { b with data := b.data ++ bytes } else b) ∧
       ∃ fl : FpFlags, (∀ i, fl.getLsbD i = true ↔ ∃ x ∈ out, x.2.1.getLsbD i = true) ∧
         (⟨j.rowCycle + 1, j.count.toNat, .cvtUpdate j.ctx (if ctrlFreeze j.ctrl then none else some (j.rowNo,
           rowMax vs))
           (out.map (fun x => x.2.2)).sum fl⟩ : Pend) ∈ T'.pend) ∧
      T'.accs = T.accs ∧ T'.vregs = T.vregs ∧ T'.sram = T.sram) ∧
  (∀ (fmt : Nat) (f : Fmt), fmtOf fmt = some f → ∀ (ctrl : BitVec 6) (seed : BitVec 64) (n : BitVec 32) (s : BitVec 32)
      (row col : Nat) (v : FVal),
    let scale := scaleInForce ctrl s
    let unit : ℝ := scale.m * 2 ^ scale.e
    let r := convElem fmt ctrl seed n scale row col v
    let k := if srOf ctrl fmt then Rounding.sr (srBits seed n row col) else .dir .nearest
    let clamps := fmt == 6 || satOf ctrl fmt
    (ctrl.getLsbD 0 = false ∨ scaleBad s = true → unit = 1) ∧
    (ctrl.getLsbD 0 = true → scaleBad s = false → 0 < unit ∧ (fp32.decode s.toNat).is unit) ∧
    (∀ x, v.is x → x ≠ 0 → ∃ r', f.converts k clamps v.neg? |x * unit| r' ∧
      r = (if r'.1 = f.signBit true then 0 else r'.1, r'.2)) ∧
    (v.is 0 → r = (0, 0, 0)) ∧
    (∀ b sg p, v = .nan b sg p → r.2 = (flagIf sg fInvalid ||| flagIf (fmt == 6) fNanOut, 0) ∧
      r.1 = if fmt = 6 then 0 else f.nanCode b p) ∧
    (∀ b, v = .inf b → r = if clamps then (f.signBit b + f.maxFin, fSat, 1)
      else if fmt = 4 then (f.canonNan, fInvalid, 0) else (f.infCode b, 0, 0)) ∧
    (∀ x, v.is x → x ≠ 0 → ∃ code fl, fp32.gives .up |x| (code, fl) ∧ up32 v = BitVec.ofNat 32 code)) ∧
  (∀ (seed : BitVec 64) (n : BitVec 32) (row col : Nat), ∃ z1 z2 z3 : BitVec 64,
    z1 = seed ^^^ BitVec.ofNat 64 (n.toNat * 2 ^ 16 % 2 ^ 64) ^^^ BitVec.ofNat 64 (row * 2 ^ 8) ^^^ BitVec.ofNat 64
      col ∧
    z2 = (z1 ^^^ z1 >>> 30) * 0xBF58476D1CE4E5B9 ∧ z3 = (z2 ^^^ z2 >>> 27) * 0x94D049BB133111EB ∧
    srBits seed n row col = (z3 ^^^ z3 >>> 31).toNat % 2 ^ 16)
/-- VSETVL, VFA, VFD, VTR, VIA, VCMP, VICMP, VMASK, VCVT and VPERM, where they issue in cycle c (R135) and no
condition of R110 skips them, change nothing beyond what the issue takes but the tile itself, by the meaning of the
word: vsetvlRun, vfaRun, vfdRun, vtrRun, viaRun, vcmpRun, vicmpRun, vmaskRun, vcvtRun or vpermRun (R102 to R109,
R111). Each puts in hand, for the active elements below the effective length, the value of its function on the
elements of its sources: VFA the sum, product or fused sum, the greater or smaller, or the bits of ABS, NEG and
COPYSIGN; its FMS and FNMA give a·b − c and c − a·b, rounded once; VFD the quotient, the root, the reciprocal; VTR and
RSQRT what R125 says of special inputs; VIA the two's-complement operation; VCMP and VICMP one mask bit for each;
VMASK the bits below VL, their number or the lowest that is set; VCVT the converted value; VPERM the element that its
function picks. Inactive elements are written +0 under MZ, else left; elements behind the effective length are left;
flags come with the completion (R48 to R51, R103 to R109, R113, R124). The cycle in which EXTRACT reads its element
(log entry 144), and that an INSERT or EXTRACT index between the effective length and VLMAX acts (log entry 145), are
the model's choices. -/
def Obligations.VectorEngineComputesItsResult : Prop :=
  (∀ (d : Fin 32) (t : Fin 144) (c : Nat) (s : State) (q : QEntry) (rest : List QEntry),
    let s1 := s.execTaken d t c rest
    let T := s1.tile d t
    (s.execTurn d t c (isOp 3 0) q rest → firstCode (vsetvlChecks T c q.word) = none →
      exec (.vsetvl d t c) s = .next ((s1.setTile d t (vsetvlRun c q T)).issued d t q)) ∧
    (s.execTurn d t c (isOpOr 3 1 12) q rest → wOpc q.word = 1 → firstCode (vfaChecks T c q.word) = none →
      exec (.vfa d t c) s = .next ((s1.setTile d t (vfaRun c q T)).issued d t q)) ∧
    (s.execTurn d t c (isOp 3 2) q rest → firstCode (vfdChecks T c q.word) = none →
      exec (.vfd d t c) s = .next ((s1.setTile d t (vfdRun c q T)).issued d t q)) ∧
    (s.execTurn d t c (isOp 3 3) q rest → firstCode (vtrChecks T c q.word) = none →
      exec (.vtr d t c) s = .next ((s1.setTile d t (vtrRun c q T)).issued d t q)) ∧
    (s.execTurn d t c (isOp 3 4) q rest → firstCode (viaChecks T c q.word) = none →
      exec (.via d t c) s = .next ((s1.setTile d t (viaRun c q T)).issued d t q)) ∧
    (s.execTurn d t c (isOp 3 5) q rest → firstCode (vcmpChecks T c q.word) = none →
      exec (.vcmp d t c) s = .next ((s1.setTile d t (vcmpRun c q T)).issued d t q)) ∧
    (s.execTurn d t c (isOp 3 6) q rest → firstCode (vicmpChecks T c q.word) = none →
      exec (.vicmp d t c) s = .next ((s1.setTile d t (vicmpRun c q T)).issued d t q)) ∧
    (s.execTurn d t c (isOp 3 7) q rest → firstCode (vmaskChecks T c q.word) = none →
      exec (.vmask d t c) s = .next ((s1.setTile d t (vmaskRun c q T)).issued d t q)) ∧
    (s.execTurn d t c (isOp 3 8) q rest → firstCode (vcvtChecks T c q.word) = none →
      exec (.vcvt d t c) s = .next ((s1.setTile d t (vcvtRun c q T)).issued d t q)) ∧
    (s.execTurn d t c (isOp 3 9) q rest → firstCode (vpermChecks T c q.word) = none →
      exec (.vperm d t c) s = .next ((s1.setTile d t (vpermRun c q T)).issued d t q))) ∧
  (∀ (c : Nat) (q : QEntry) (T : Tile),
    let w := q.word
    let fn := vFunc w
    let g := vGrp w
    let m := T.mask (vMsk w)
    let act := activeIn w m
    let N := fmtWidth (vFmt w)
    let I := intWidth (vFmt w)
    let vl := T.cur.vl
    let s2 := (T.sreg T.active (vVs2 w)).toNat
    let src2 (cc W wide e : Nat) : Nat := if vSsrc w then s2 % 2 ^ W else T.elemAt c cc (vVs2 w) W wide e
    let puts (T' : Tile) (lat cc dg W wide : Nat) (val : Nat → Nat × FpFlags) : Prop :=
      T.lanes T' q c lat cc (vVd w) dg W wide (min vl (vlmax W dg)) act
        (writeOf w m (min vl (vlmax W dg)) (fun e => (val e).1)) (fun e => ((val e).2, 0))
    (∀ f, fmtOf (vFmt w) = some f → vFmt w < 4 →
      let x (cc wide e : Nat) : FVal := f.decode (T.elemAt c cc (vVs1 w) N wide e)
      let y (cc wide e : Nat) : FVal := f.decode (src2 cc N wide e)
      let cc := if N = 64 then 4 else if N = 32 then 2 else 1
      (fn < 13 → puts (vfaRun c q T) (if 5 < fn then 4 else if N = 64 then 9 else if N = 32 then 7 else 6) 1 g N N
        (fun e => faOp fn f (vRm w) (T.elemAt c 1 (vVs1 w) N N e) (src2 1 N N e) (T.elemAt c 1 (vVs3 w) N N e))) ∧
      (fn = 13 → N = 16 → puts (vfaRun c q T) 7 1 (2 * g) 32 32
        (fun e => fmaVal fp32 (vRm w) (x 1 32 e) (y 1 32 e) (fp32.decode (T.elemAt c 1 (vVs3 w) 32 32 e)))) ∧
      (fn < 4 → puts (vfdRun c q T) (if N = 64 then 28 else if N = 32 then 14 else 10) cc g N N (fun e =>
        match fn with
        | 0 => divVal f (vRm w) (x cc N e) (y cc N e)
        | 1 => sqrtVal f (vRm w) (x cc N e)
        | 2 => divVal f (vRm w) (if (x cc N e).isNan then x cc N e else f.decode (oneCode f)) (x cc N e)
        | _ => tEval .rsqrt (vFmt w) (T.elemAt c cc (vVs1 w) N N e))) ∧
      (fn < 6 → puts (vtrRun c q T) (if N = 64 then 40 else if N = 32 then 20 else 12) cc g N N
        (fun e => tEval (tFunOf fn) (vFmt w) (T.elemAt c cc (vVs1 w) N N e))) ∧
      (fn < 6 → T.bitLanes (vcmpRun c q T) q c 4 (bits w 49 47) N (min vl (vlmax N g)) act
        (fun e => cmpFlag (cmpOf fn) (x 1 N e) (y 1 N e)))) ∧
    (vFmt w < 4 →
      let x (e : Nat) : BitVec I := BitVec.ofNat I (T.elemAt c 1 (vVs1 w) I I e)
      let y (e : Nat) : BitVec I := BitVec.ofNat I (src2 1 I I e)
      (fn < 13 → puts (viaRun c q T) (if fn = 2 then 6 else 3) 1 g I I (fun e => (BitVec.toNat (match fn with
        | 0 => x e + y e
        | 1 => x e - y e
        | 2 => x e * y e
        | 3 => x e &&& y e
        | 4 => x e ||| y e
        | 5 => x e ^^^ y e
        | 6 => x e <<< ((y e).toNat % I)
        | 7 => x e >>> ((y e).toNat % I)
        | 8 => (x e).sshiftRight ((y e).toNat % I)
        | 9 => if (x e).sle (y e) then x e else y e
        | 10 => if (x e).sle (y e) then y e else x e
        | 11 => if (x e).ule (y e) then x e else y e
        | _ => if (x e).ule (y e) then y e else x e), 0))) ∧
      (fn < 6 → T.bitLanes (vicmpRun c q T) q c 3 (bits w 49 47) I (min vl (vlmax I g)) act (fun e => (match fn with
        | 0 => x e == y e
        | 1 => x e != y e
        | 2 => (x e).slt (y e)
        | 3 => (x e).sle (y e)
        | 4 => (x e).ult (y e)
        | _ => (x e).ule (y e), 0)))) ∧
    (0 < vl → vl ≤ 4096 →
      let a := T.mask (vVs1 w % 8)
      let b := T.mask (vVs2 w % 8)
      (fn ≤ 4 → ∃ k v : BitVec 4096, (⟨c + 2, q.count.toNat, .mreg (vVd w % 8) k v⟩ : Pend) ∈ (vmaskRun c q T).pend ∧
        ∀ e < 4096, k.getLsbD e = decide (e < vl) ∧ (e < vl → v.getLsbD e = match fn with
          | 0 => a.getLsbD e && b.getLsbD e
          | 1 => a.getLsbD e || b.getLsbD e
          | 2 => a.getLsbD e ^^ b.getLsbD e
          | 3 => a.getLsbD e && !b.getLsbD e
          | _ => !a.getLsbD e)) ∧
      (fn = 5 → (⟨c + 4, q.count.toNat, .sreg T.active (vVd w)
        (BitVec.ofNat 64 ((List.range vl).countP (fun e => a.getLsbD e)))⟩ : Pend) ∈ (vmaskRun c q T).pend) ∧
      (fn = 6 → ∃ n, (⟨c + 4, q.count.toNat, .sreg T.active (vVd w) (BitVec.ofNat 64 n)⟩ : Pend) ∈ (vmaskRun c q
        T).pend ∧
        (n < vl ∧ a.getLsbD n = true ∧ (∀ e < n, a.getLsbD e = false) ∨
          n = 0xFFFFFFFF ∧ ∀ e < vl, a.getLsbD e = false))) ∧
    (∀ fs fd, fmtOf (bits w 35 32) = some fs → fmtOf (vFmt w) = some fd →
      let W := fs.width
      let dg := cvtGroup W N g
      let len := min vl (min (vlmax N dg) (vlmax W g))
      let val (e : Nat) := convVal fd (.dir (vRm w)) (satOf T.cur.cvt.ctrl (vFmt w))
        (fs.decode (T.elemAt c 1 (vVs1 w) W (max N W) e))
      T.lanes (vcvtRun c q T) q c 5 1 (vVd w) dg N (max N W) len act (writeOf w m len (fun e => (val e).1))
        (fun e => (val e).2)) ∧
    (vFmt w < 6 →
      let len := min vl (vlmax N g)
      let top := vlmax N g
      let x (e : Nat) : Nat := T.elemAt c 1 (vVs1 w) N N e
      let s1 := (T.sreg T.active (vVs1 w)).toNat % 2 ^ N
      let picks (f : Nat → Option Nat) : Prop := T.lanes (vpermRun c q T) q c (if fn ≤ 4 then 8 + chunksOf N len else
          3) 1
        (vVd w) g N N len act f (fun _ => (0, 0))
      (fn = 0 → picks (fun e => if len ≤ e then none else match ((List.range len).filter act)[e]? with
        | some j => some (x j)
        | none => if vMz w then some 0 else none)) ∧
      (fn = 1 → picks (writeOf w m len (fun e => x ((List.range e).countP act)))) ∧
      (fn = 2 → picks (fun e => if e < s2 then none else writeOf w m len (fun e => x (e - s2)) e)) ∧
      (fn = 3 → picks (writeOf w m len (fun e => if top ≤ e + s2 then 0 else x (e + s2)))) ∧
      (fn = 4 → picks (writeOf w m len (fun e => if top ≤ src2 1 N N e then 0 else x (src2 1 N N e)))) ∧
      (fn = 5 → picks (writeOf w m len (fun e => e))) ∧
      (fn = 6 → picks (writeOf w m len (fun _ => s1))) ∧
      (fn = 7 → 0 < len → (⟨c + 4, q.count.toNat, .sreg T.active (vVd w)
        (BitVec.ofNat 64 (if top ≤ s2 then 0 else x s2))⟩ : Pend) ∈ (vpermRun c q T).pend) ∧
      (fn = 8 → 0 < len → picks (fun e => if e = s2 then some s1 else none)))) ∧
  (∀ f ∈ [fp64, fp32, bf16, fp16], ∀ (rm : Rm) (x y z : Nat),
    let a := f.decode x
    let b := f.decode y
    let d := f.decode z
    faOp 0 f rm x y z = addVal f rm a b ∧ faOp 1 f rm x y z = subVal f rm a b ∧ faOp 2 f rm x y z = mulVal f rm a b ∧
    faOp 3 f rm x y z = fmaVal f rm a b d ∧ faOp 6 f rm x y z = maxminVal f true a b ∧
    faOp 7 f rm x y z = maxminVal f false a b ∧ faOp 8 f rm x y z = maxminNumVal f true a b ∧
    faOp 9 f rm x y z = maxminNumVal f false a b ∧
    (∀ r s u : ℝ, a.is r → b.is s → d.is u →
      (r * s - u ≠ 0 → f.gives rm (r * s - u) (faOp 4 f rm x y z)) ∧
      (u - r * s ≠ 0 → f.gives rm (u - r * s) (faOp 5 f rm x y z)) ∧
      (r ≠ 0 → f.gives rm (1 / r) (divVal f rm (f.decode (oneCode f)) a))) ∧
    (x < 2 ^ f.width → y < 2 ^ f.width → ∀ i < f.width,
      let top := i + 1 = f.width
      (faOp 10 f rm x y z).1.testBit i = (!decide top && x.testBit i) ∧
      (faOp 11 f rm x y z).1.testBit i = (decide top ^^ x.testBit i) ∧
      (faOp 12 f rm x y z).1.testBit i = if top then y.testBit i else x.testBit i)) ∧
  (∀ fmt < 4, ∀ f, fmtOf fmt = some f → ∀ (x m : Nat) (n : Bool) (e : Int),
    let zero (b : Bool) : Nat × FpFlags := (f.signBit b, 0)
    let inf (b : Bool) : Nat × FpFlags := (f.infCode b, 0)
    let bad : Nat × FpFlags := (f.canonNan, fInvalid)
    let one : Nat × FpFlags := (oneCode f, 0)
    (f.decode x = .inf n →
      tEval .exp fmt x = (if n then zero false else inf false) ∧ tEval .log fmt x = (if n then bad else inf false) ∧
      tEval .sin fmt x = bad ∧ tEval .cos fmt x = bad ∧ tEval .tanh fmt x = (f.signBit n + oneCode f, 0) ∧
      tEval .sigmoid fmt x = (if n then zero false else one) ∧ tEval .rsqrt fmt x = (if n then bad else zero false)) ∧
    (f.decode x = .fin n 0 e →
      tEval .exp fmt x = one ∧ tEval .log fmt x = (f.infCode true, fDivZero) ∧ tEval .sin fmt x = (x, 0) ∧
      tEval .cos fmt x = one ∧ tEval .tanh fmt x = (x, 0) ∧ tEval .sigmoid fmt x = (halfCode f, 0) ∧
      tEval .rsqrt fmt x = (f.infCode n, fDivZero)) ∧
    (f.decode x = .fin true m e → m ≠ 0 → tEval .log fmt x = bad ∧ tEval .rsqrt fmt x = bad))

/-- VSETVL that issues in cycle c and that no condition of R110 skips gives VL and S[VD] the smaller of S[VS1],
unsigned, and the group's VLMAX, both one cycle later; vector registers, masks, SRAM and both contexts stay as they
are until then, and so does everything outside the tile (R102). -/
def Obligations.VsetvlTakesTheSmaller : Prop :=
  ∀ (d : Fin 32) (t : Fin 144) (c : Nat) (s : State) (q : QEntry) (rest : List QEntry),
    let s1 := s.execTaken d t c rest
    let T := s1.tile d t
    s.execTurn d t c (isOp 3 0) q rest → firstCode (vsetvlChecks T c q.word) = none →
    let n := min (T.sreg T.active (vVs1 q.word)).toNat (vlmax (fmtWidth (vFmt q.word)) (vGrp q.word))
    ∃ T', exec (.vsetvl d t c) s = .next ((s1.setTile d t T').issued d t q) ∧
      ⟨c + 1, q.count.toNat, .vl T.active n⟩ ∈ T'.pend ∧
      ⟨c + 1, q.count.toNat, .sreg T.active (vVd q.word) (BitVec.ofNat 64 n)⟩ ∈ T'.pend ∧
      T'.vregs = T.vregs ∧ T'.masks = T.masks ∧ T'.sram = T.sram ∧ T'.ctx0 = T.ctx0 ∧ T'.ctx1 = T.ctx1

/-- A vector instruction that a condition of R110 stops is skipped with the code of the first, as is a reserved opcode
of the engine with ILL_OPCODE; a VQPOP still loses its block, and a VQPUSH leaves a placeholder in the store queue.
Skipping changes no byte of memory and no vector register, mask, SRAM or accumulator of any tile (R110, R146, R157).
Which fields a permutation and a push leave unused, the codes of a push that R118 does not allow, and FP4 behind a
narrowing are the model's choices (log entries 146, 147, 148 and 152). -/
def Obligations.StoppedVectorInstructionsAreSkipped : Prop :=
  ∀ (d : Fin 32) (t : Fin 144) (c : Nat) (s : State) (q : QEntry) (rest : List QEntry) (code : Nat),
    let s1 := s.execTaken d t c rest
    let T := s1.tile d t
    let skipped := (s1.skip d t q code).issued d t q
    (s.execTurn d t c (isOp 3 0) q rest → firstCode (vsetvlChecks T c q.word) = some code →
      exec (.vsetvl d t c) s = .next skipped) ∧
    (s.execTurn d t c (isOpOr 3 1 12) q rest → wOpc q.word = 1 → firstCode (vfaChecks T c q.word) = some code →
      exec (.vfa d t c) s = .next skipped) ∧
    (s.execTurn d t c (isOpOr 3 1 12) q rest → wOpc q.word ≠ 1 → code = 0x01 → exec (.vfa d t c) s = .next skipped) ∧
    (s.execTurn d t c (isOp 3 2) q rest → firstCode (vfdChecks T c q.word) = some code →
      exec (.vfd d t c) s = .next skipped) ∧
    (s.execTurn d t c (isOp 3 3) q rest → firstCode (vtrChecks T c q.word) = some code →
      exec (.vtr d t c) s = .next skipped) ∧
    (s.execTurn d t c (isOp 3 4) q rest → firstCode (viaChecks T c q.word) = some code →
      exec (.via d t c) s = .next skipped) ∧
    (s.execTurn d t c (isOp 3 5) q rest → firstCode (vcmpChecks T c q.word) = some code →
      exec (.vcmp d t c) s = .next skipped) ∧
    (s.execTurn d t c (isOp 3 6) q rest → firstCode (vicmpChecks T c q.word) = some code →
      exec (.vicmp d t c) s = .next skipped) ∧
    (s.execTurn d t c (isOp 3 7) q rest → firstCode (vmaskChecks T c q.word) = some code →
      exec (.vmask d t c) s = .next skipped) ∧
    (s.execTurn d t c (isOp 3 8) q rest → firstCode (vcvtChecks T c q.word) = some code →
      exec (.vcvt d t c) s = .next skipped) ∧
    (s.execTurn d t c (isOp 3 9) q rest → firstCode (vpermChecks T c q.word) = some code →
      exec (.vperm d t c) s = .next skipped) ∧
    (s.execTurn d t c (isOp 3 10) q rest → firstCode (vqpopChecks T c q.word) = some code →
      exec (.vqpop d t c) s
        = .next (((s1.setTile d t { T with oqv := T.oqv.drop 1 }).skip d t q code).issued d t q)) ∧
    (s.execTurn d t c (isOp 3 11) q rest → firstCode (vqpushChecks T c q.word) = some code →
      exec (.vqpush d t c) s = .next (((s1.setTile d t T.addSqHole).skip d t q code).issued d t q)) ∧
    (∀ s2 : State, (s2.skip d t q code).mem = s2.mem ∧
      ∀ d' t', ((s2.skip d t q code).tile d' t').vregs = (s2.tile d' t').vregs ∧
        ((s2.skip d t q code).tile d' t').masks = (s2.tile d' t').masks ∧
        ((s2.skip d t q code).tile d' t').sram = (s2.tile d' t').sram ∧
        ((s2.skip d t q code).tile d' t').accs = (s2.tile d' t').accs)

/-- VQPOP and VQPUSH that issue in cycle c and that no condition of R110 skips. With no element to move both only let
the engine rest (that such a push has waited for room is log entry 153). Otherwise a VQPOP takes the oldest block of
the vector part of the operand queue, changes only the tile, and gives the elements of VD those of the block; a
placeholder reads as zero bits, and OQ_PLACEHOLDER is logged (R146). That elements behind the block's last are left is
the model's choice (log entry 151). A VQPUSH that stays in its format adds a block of its elements to the store queue
and changes only the tile; one that converts goes through the converter, by State.vqpushConvert (R118, R145). -/
def Obligations.VectorQueuesPopAndPush : Prop :=
  ∀ (d : Fin 32) (t : Fin 144) (c : Nat) (s : State) (q : QEntry) (rest : List QEntry),
    let s1 := s.execTaken d t c rest
    let T := s1.tile d t
    let width := fmtWidth (vFmt q.word)
    let len := effLen T.cur.vl [vlmax width (vGrp q.word)]
    (s.execTurn d t c (isOp 3 10) q rest → firstCode (vqpopChecks T c q.word) = none →
      (len = 0 → exec (.vqpop d t c) s = .next ((s1.setTile d t (T.vecIdle c)).issued d t q)) ∧
      (∀ b l, 0 < len → T.oqv = b :: l →
        let codes := if b.hole then List.replicate len 0 else unpackCodes width b.data
        ∃ T', exec (.vqpop d t c) s = .next ((if b.hole then (s1.setTile d t T').logTile d t q 0x12 0
            else s1.setTile d t T').issued d t q) ∧
          T.lanes T' q c 3 1 (vVd q.word) (vGrp q.word) width width len (activeIn q.word (T.mask (vMsk q.word)))
            (fun e => if e < codes.length then writeOf q.word (T.mask (vMsk q.word)) len (fun e => codes.getD e 0) e
              else none) (fun _ => (0, 0)) ∧
          T'.oqv = l ∧ T'.oqm = T.oqm ∧ T'.sq = T.sq ∧ T'.sram = T.sram ∧ T'.masks = T.masks ∧ T'.ctx0 = T.ctx0 ∧
          T'.ctx1 = T.ctx1)) ∧
    (s.execTurn d t c (isOp 3 11) q rest → firstCode (vqpushChecks T c q.word) = none →
      (len = 0 → exec (.vqpush d t c) s = .next ((s1.setTile d t (T.vecIdle c)).issued d t q)) ∧
      (0 < len → vqConverts q.word = true →
        exec (.vqpush d t c) s = .next ((s1.vqpushConvert d t c q len).issued d t q)) ∧
      (0 < len → vqConverts q.word = false →
        ∃ T', exec (.vqpush d t c) s = .next ((s1.setTile d t T').issued d t q) ∧
          T'.sq = T.sq ++ [⟨T.nextId, false, false, vqBytes T q.word,
            packCodes width ((T.groupAt c 1 (vVs1 q.word) (vGrp q.word) width width).take len)⟩] ∧
          T'.vregs = T.vregs ∧ T'.masks = T.masks ∧ T'.sram = T.sram ∧ T'.oqv = T.oqv))

/-- RED, RACC, RFOLD and RCLR, where they issue in cycle c (R135) and no condition of R110 skips them, change nothing
beyond what the issue takes but the tile itself, by the meaning of the word: redRun, raccRun, rfoldRun or rclrRun
(R119 to R123). One that a condition stops is skipped with the code of the first. RED and RACC read chunk h of their
source in cycle c + h; behind the last, RED lands its value, index and flags n + 12 cycles after c, RACC leaves its
lanes. SUM adds the exact elements by pair additions in a binary tree and rounds its root once; +0 of none, −0 of
zeros all −0; the first NaN comes through; infinities of both signs are invalid. MAX and MIN give the element before
which none comes, −0 below +0, of equal ones the lowest index, a NaN before all, and −∞ or +∞ with index 0xFFFFFFFF of
none. ISUM adds modulo 2^64; IMAX and IMIN compare signed. RACC applies element e to lane e mod 64, in order: pair
addition and count, sum modulo 2^64, or the element with its index where it wins. RFOLD combines the 64 lanes in the
same ways; RCLR leaves the identities. The shape of the tree is Config's (log entry 3). -/
def Obligations.ReductionUnitComputesItsResult : Prop :=
  (∀ (d : Fin 32) (t : Fin 144) (c : Nat) (s : State) (q : QEntry) (rest : List QEntry),
    let s1 := s.execTaken d t c rest
    let T := s1.tile d t
    (firstCode (redChecks T c q.word) = none →
      (s.execTurn d t c (isOpOr 4 0 4) q rest →
        exec (.red d t c) s = .next ((s1.setTile d t (redRun c q T)).issued d t q)) ∧
      (s.execTurn d t c (isOp 4 1) q rest →
        exec (.racc d t c) s = .next ((s1.setTile d t (raccRun c q T)).issued d t q)) ∧
      (s.execTurn d t c (isOp 4 2) q rest →
        exec (.rfold d t c) s = .next ((s1.setTile d t (rfoldRun c q T)).issued d t q)) ∧
      (s.execTurn d t c (isOp 4 3) q rest →
        exec (.rclr d t c) s = .next ((s1.setTile d t (rclrRun c q T)).issued d t q))) ∧
    (∀ code, firstCode (redChecks T c q.word) = some code →
      let skipped := (s1.skip d t q code).issued d t q
      (s.execTurn d t c (isOpOr 4 0 4) q rest → exec (.red d t c) s = .next skipped) ∧
      (s.execTurn d t c (isOp 4 1) q rest → exec (.racc d t c) s = .next skipped) ∧
      (s.execTurn d t c (isOp 4 2) q rest → exec (.rfold d t c) s = .next skipped) ∧
      (s.execTurn d t c (isOp 4 3) q rest → exec (.rclr d t c) s = .next skipped))) ∧
  (∀ (c : Nat) (q : QEntry) (T : Tile),
    let w := q.word
    let fn := vFunc w
    let N := if fn < 3 then fmtWidth (vFmt w) else intWidth (vFmt w)
    let len := min T.cur.vl (vlmax N (vGrp w))
    let n := chunksOf N len
    let reads (T' : Tile) (lat : Nat) : Prop := n ≠ 0 →
      (∃ j : RedJob, T'.rjobs = T.rjobs ++ [j] ∧ j.count = q.count ∧ j.ctx = T.active ∧ j.due = c + lat + n ∧
        j.word = w ∧
        j.len = len ∧ j.n = n ∧ j.mask = T.mask (vMsk w) ∧ j.base = (T.sreg T.active (rSi w)).toNat ∧ j.got = []) ∧
      T'.times.red = c + n ∧
      ∀ h < n, (⟨c + h, q.count.toNat, .redRead q.count h⟩ : Pend) ∈ T'.pend
    let fold := foldLanes fn (vFmt w) (rWide w) (T.slotView (rSlot w) (some c))
    let lands (T' : Tile) (e : Landing) : Prop := (⟨c + 14, q.count.toNat, e⟩ : Pend) ∈ T'.pend
    reads (redRun c q T) 12 ∧ reads (raccRun c q T) 6 ∧
    lands (rfoldRun c q T) (.sreg T.active (rSd w) fold.1) ∧
    lands (rfoldRun c q T) (.cvtUpdate T.active none 0 fold.2.2) ∧
    (rIsPick fn = true → lands (rfoldRun c q T) (.sreg T.active (rSi w) (BitVec.ofNat 64 fold.2.1))) ∧
    ∀ j : RedJob,
      (∀ h, T.rjobs.find? (fun x => x.count == j.count) = some j →
        let j' := { j with got := j.got ++ [BitVec.ofNat 2048 ((T.vreg (rVs j.word + h / 2)).toNat >>> (2048 * (h %
            2)))] }
        let T' : Tile := { T with rjobs := T.rjobs.map (fun x => if x.count = j.count then j' else x) }
        T.redRead j.count h = if h + 1 = j.n then T'.finishRed j' else T') ∧
      (let fn := vFunc j.word
       let W := if fn < 3 then fmtWidth (vFmt j.word) else intWidth (vFmt j.word)
       ∀ e x, (e, x) ∈ j.act ↔ e < j.len ∧ activeIn j.word j.mask e = true ∧
         x = (j.got.getD (e / (2048 / W)) 0).toNat >>> (W * (e % (2048 / W))) % 2 ^ W) ∧
      (let fn := vFunc j.word
       let r := redValue fn (vFmt j.word) (rWide j.word) j.act
       let lands (e : Landing) : Prop := (⟨j.due, j.count.toNat, e⟩ : Pend) ∈ (T.finishRed j).pend
       wOpc j.word = 0 → lands (.sreg j.ctx (rSd j.word) r.1) ∧ lands (.cvtUpdate j.ctx none 0 r.2.2) ∧
         (rIsPick fn = true → lands (.sreg j.ctx (rSi j.word) (BitVec.ofNat 64 r.2.1)))) ∧
      (let r := applyLanes (vFunc j.word) (vFmt j.word) j.base (T.slotView (rSlot j.word) none) j.act
       wOpc j.word = 1 → (⟨j.due, j.count.toNat, .cvtUpdate j.ctx none 0 r.2⟩ : Pend) ∈ (T.finishRed j).pend ∧
         (T.finishRed j).rjobs = T.rjobs.map (fun x =>
           if x.count = j.count then { j with carry := some (rSlot j.word, r.1) } else x))) ∧
  (∀ fmt < 4, ∀ f, fmtOf fmt = some f → ∀ (wide : Bool) (act : List (Nat × Nat)), act.Pairwise (fun x y => x.1 < y.1) →
    let out := if wide then fp64 else f
    let vals := act.map (fun x => f.decode x.2)
    let sum := redValue 0 fmt wide act
    (act = [] → sum = (0, 0, 0) ∧ redValue 1 fmt wide act = (BitVec.ofNat 64 (f.infCode true), 0xFFFFFFFF, 0) ∧
      redValue 2 fmt wide act = (BitVec.ofNat 64 (f.infCode false), 0xFFFFFFFF, 0)) ∧
    (∀ x n s p, act.find? (fun x => (f.decode x.2).isNan) = some x → f.decode x.2 = .nan n s p →
      sum = (BitVec.ofNat 64 (out.nanCode n p), 0, flagIf s fInvalid) ∧
      ∀ fn ∈ [1, 2], redValue fn fmt wide act = (BitVec.ofNat 64 (f.nanCode n p), x.1, flagIf s fInvalid)) ∧
    ((∀ v ∈ vals, v.isNan = false) → .inf false ∈ vals → .inf true ∈ vals →
      sum = (BitVec.ofNat 64 out.canonNan, 0, fInvalid)) ∧
    ((∀ v ∈ vals, ∃ x, v.is x) → act ≠ [] → ∃ root : FVal × FpFlags, SumTree dfAdd (vals.map (fun v => (v, 0))) root ∧
      (∀ x, root.1.is x → (x ≠ 0 → ∃ code fl, out.gives .nearest x (code, fl) ∧ sum.1 = BitVec.ofNat 64 code) ∧
        (x = 0 → sum.1 = BitVec.ofNat 64 (out.signBit root.1.neg?))) ∧
      (∀ n, root.1 = .inf n → sum.1 = BitVec.ofNat 64 (out.infCode n) ∧ sum.2.2 &&& fOverflow = root.2 &&& fOverflow)) ∧
    ((∀ v ∈ vals, v.isNan = false) → act ≠ [] → ∀ fn ∈ [1, 2],
      let before (a b : FVal) : Bool := if fn = 1 then ltZ b a else ltZ a b
      ∃ x ∈ act, redValue fn fmt wide act = (BitVec.ofNat 64 (f.ofVal .nearest (f.decode x.2)).1, x.1, 0) ∧
        ∀ y ∈ act, y = x ∨ before (f.decode x.2) (f.decode y.2) = true ∨
          before (f.decode y.2) (f.decode x.2) = false ∧ x.1 < y.1)) ∧
  (∀ (a b : FVal) (p q : FpFlags) (x y : ℝ), a.is x → b.is y →
    (ltZ a b = true ↔ x < y ∨ x = 0 ∧ y = 0 ∧ a.neg? = true ∧ b.neg? = false) ∧
    (x + y = 0 → ∃ m e, dfAdd (a, p) (b, q) = (.fin m 0 e, p ||| q) ∧ (x ≠ 0 → m = false) ∧
      (x = 0 → m = (a.neg? && b.neg?))) ∧
    (x + y ≠ 0 → ∃ hi lo, pairOf (x + y) hi lo ∧
      (∀ h l, (fp64.decode hi).is h → (fp64.decode lo).is l → ∃ v, dfAdd (a, p) (b, q) = (v, p ||| q) ∧ v.is (h + l)) ∧
      (∀ n, fp64.decode hi = .inf n → dfAdd (a, p) (b, q) = (.inf n, p ||| q ||| fOverflow)))) ∧
  (∀ fmt < 4, ∀ (wide : Bool) (act : List (Nat × Nat)), act.Pairwise (fun x y => x.1 < y.1) →
    let W := intWidth fmt
    let val (x : Nat × Nat) : BitVec 64 := (BitVec.ofNat W x.2).signExtend 64
    redValue 3 fmt wide act = ((act.map val).foldr (· + ·) 0, 0, 0) ∧
    (act = [] → redValue 4 fmt wide act = (0x8000000000000000, 0xFFFFFFFF, 0) ∧
      redValue 5 fmt wide act = (0x7FFFFFFFFFFFFFFF, 0xFFFFFFFF, 0)) ∧
    (act ≠ [] → ∀ fn ∈ [4, 5], ∃ x ∈ act, redValue fn fmt wide act = (val x, x.1, 0) ∧
      ∀ y ∈ act, y = x ∨ (if fn = 4 then (val y).slt (val x) else (val x).slt (val y)) = true ∨
        val y = val x ∧ x.1 < y.1)) ∧
  (∀ (fn fmt base : Nat) (lanes : Table CarryLane) (act : List (Nat × Nat)) (e x k : Nat),
    let r := applyLanes fn fmt base lanes act
    let r' := applyLanes fn fmt base lanes (act ++ [(e, x)])
    let one := laneApply fn fmt (Table.get CarryLane.reset r.1 (e % 64)) x ((base + e) % 2 ^ 32)
    applyLanes fn fmt base lanes [] = (lanes, 0) ∧ r'.2 = r.2 ||| one.2 ∧
    Table.get CarryLane.reset r'.1 k = if k = e % 64 then one.1 else Table.get CarryLane.reset r.1 k) ∧
  (∀ fmt < 4, ∀ f, fmtOf fmt = some f → ∀ (l : CarryLane) (code i : Nat),
    let v := f.decode code
    (∀ x y, (laneVal l).is x → v.is y → x + y ≠ 0 → ∃ hi lo, pairOf (x + y) hi lo ∧
      ∀ h, (fp64.decode hi).is h → laneApply 0 fmt l code i = (⟨BitVec.ofNat 64 hi, BitVec.ofNat 64 lo, l.idx + 1⟩,
          0)) ∧
    (v.isNan = false → (fp64.decode l.hi.toNat).isNan = false → ∀ fn ∈ [1, 2],
      let a := fp64.decode l.hi.toNat
      let wins := if fn = 1 then ltZ a v else ltZ v a
      let loses := if fn = 1 then ltZ v a else ltZ a v
      laneApply fn fmt l code i = (if wins || !loses && decide (i < l.idx.toNat)
        then { l with hi := BitVec.ofNat 64 (fp64.ofVal .nearest v).1, idx := BitVec.ofNat 64 i } else l, 0)) ∧
    let z : BitVec 64 := (BitVec.ofNat (intWidth fmt) code).signExtend 64
    laneApply 3 fmt l code i = ({ l with hi := l.hi + z }, 0) ∧
    ∀ fn ∈ [4, 5], laneApply fn fmt l code i =
      (if (if fn = 4 then l.hi.slt z else z.slt l.hi) || l.hi == z && decide (i < l.idx.toNat)
        then { l with hi := z, idx := BitVec.ofNat 64 i } else l, 0)) ∧
  (∀ fmt < 4, ∀ f, fmtOf fmt = some f → ∀ (wide : Bool) (t : Table CarryLane),
    let out := if wide then fp64 else f
    let lanes := (List.range 64).map (Table.get CarryLane.reset t)
    let sum := foldLanes 0 fmt wide t
    ((∀ l ∈ lanes, ∃ x, (laneVal l).is x) → ∃ root : FVal × FpFlags,
      SumTree dfAdd (lanes.map (fun l => (laneVal l, 0))) root ∧ ∀ x, root.1.is x →
        (x ≠ 0 → ∃ code fl, out.gives .nearest x (code, fl) ∧ sum.1 = BitVec.ofNat 64 code) ∧
        (x = 0 → sum.1 = BitVec.ofNat 64 (out.signBit root.1.neg?))) ∧
    ((∀ l ∈ lanes, (fp64.decode l.hi.toNat).isNan = false) → ∀ fn ∈ [1, 2],
      let val (l : CarryLane) := fp64.decode l.hi.toNat
      let before (a b : FVal) : Bool := if fn = 1 then ltZ b a else ltZ a b
      ∃ l ∈ lanes, foldLanes fn fmt wide t = (BitVec.ofNat 64 (f.ofVal .nearest (val l)).1, l.idx.toNat % 2 ^ 32, 0) ∧
        ∀ m ∈ lanes, before (val m) (val l) = false ∧
          (before (val l) (val m) = false → l.idx.toNat ≤ m.idx.toNat)) ∧
    foldLanes 3 fmt wide t = ((lanes.map CarryLane.hi).foldl (· + ·) 0, 0, 0) ∧
    (∀ fn ∈ [4, 5], ∃ l ∈ lanes, foldLanes fn fmt wide t = (l.hi, l.idx.toNat % 2 ^ 32, 0) ∧
      ∀ m ∈ lanes, (if fn = 4 then l.hi.slt m.hi else m.hi.slt l.hi) = false ∧ (m.hi = l.hi →
          l.idx.toNat ≤ m.idx.toNat))) ∧
  (∀ (c : Nat) (q : QEntry) (T : Tile), ∃ j : RedJob, (rclrRun c q T).rjobs = T.rjobs ++ [j] ∧ j.due = c + 1 ∧
    ∃ l, j.carry = some (rSlot q.word, l) ∧ ∀ k < 64, Table.get CarryLane.reset l k =
      match vFunc q.word with
      | 1 => ⟨0xFFF0000000000000, 0, 0xFFFFFFFF⟩
      | 2 => ⟨0x7FF0000000000000, 0, 0xFFFFFFFF⟩
      | 4 => ⟨0x8000000000000000, 0, 0xFFFFFFFF⟩
      | 5 => ⟨0x7FFFFFFFFFFFFFFF, 0, 0xFFFFFFFF⟩
      | _ => ⟨0, 0, 0⟩)
/-- ALD, AST, ACOPY, ALDS and ASTS that issue in cycle c (R135) in a legal form, with an element to move, start on the
access side with the operands of their issue cycle: ALD with its blocks reserved in the operand queue, AST with the
blocks it has taken from the store queue, where none of them is a placeholder and each has the size that its format
gives (R114, R115, R141, R144, R145). An ALD or AST of length 0 is complete at once. One of an illegal form is
skipped; an ALD leaves its placeholders and an AST loses its blocks; a store that takes a placeholder stores nothing
and is logged, and one with a block of another size is skipped (R141, R145, R146). Three clauses are the model's
choices: that an access of length 0 is complete at once and takes no block (log entry 24), that the gates of an access
of no length and the cycle of a head without one of its own are as they are (log entry 138), and where ILL_VREG stands
among the codes (log entry 118). NF counts in the unit-stride form only (log entry 150). -/
def Obligations.AccessInstructionsStart : Prop :=
  ∀ (d : Fin 32) (t : Fin 144) (c : Nat) (s : State) (q : QEntry) (rest : List QEntry),
    let s1 := s.accTaken d t c rest
    let T := s1.tile d t
    let o := accOpOf T q c
    let starts (T' : Tile) (o' : AccOp) : State := ((s1.setTile d t T').startOp d t c o').pump d t c
    (s.accTurn d t c (isOpOr 1 0 7) q rest →
      (7 ≤ wOpc q.word → exec (.ald d t c) s = .next ((s1.skip d t q 0x01).issued d t q)) ∧
      (∀ code, wOpc q.word < 7 → vecFormCode T q.word = some code → exec (.ald d t c) s = .next
        (((s1.setTile d t (T.addOqHoles (xDest q.word) q.count (xNf q.word))).skip d t q code).issued d t q)) ∧
      (wOpc q.word < 7 → vecFormCode T q.word = none → emptyLen T q.word = true →
        exec (.ald d t c) s = .next ((s1.setTile d t (T.flagOn o c)).issued d t q)) ∧
      (wOpc q.word < 7 → vecFormCode T q.word = none → emptyLen T q.word = false →
        let new : List OqBlock := (blockSizes T q.word).zipIdx.map (fun e =>
          ⟨T.nextId + e.2, q.count, e.1, false, none, false, []⟩)
        let o' : AccOp := { o with blocks := new.map (·.id) }
        let T1 := T.setOq (xDest q.word) (T.oq (xDest q.word) ++ new)
        exec (.ald d t c) s = .next
          ((starts { T1 with nextId := T1.nextId + new.length, ops := T1.ops ++ [o'] } o').issued d t q))) ∧
    (s.accTurn d t c (isOp 1 1) q rest →
      let blocks := T.sq.take (astTakes q.word)
      let popped : Tile := { T with sq := T.sq.drop (astTakes q.word) }
      (∀ code, vecFormCode T q.word = some code →
        exec (.ast d t c) s = .next (((s1.setTile d t popped).skip d t q code).issued d t q)) ∧
      (vecFormCode T q.word = none → emptyLen T q.word = true →
        exec (.ast d t c) s = .next ((s1.setTile d t (T.flagOn o c)).issued d t q)) ∧
      (vecFormCode T q.word = none → emptyLen T q.word = false → blocks.any (·.hole) = true →
        exec (.ast d t c) s = .next (((s1.setTile d t (popped.flagOn o c)).logTile d t q 0x13 0).issued d t q)) ∧
      (vecFormCode T q.word = none → emptyLen T q.word = false → blocks.any (·.hole) = false →
        blocks.map (·.size) ≠ blockSizes T q.word →
        exec (.ast d t c) s = .next (((s1.setTile d t popped).skip d t q 0x11).issued d t q)) ∧
      (vecFormCode T q.word = none → emptyLen T q.word = false → blocks.any (·.hole) = false →
        blocks.map (·.size) = blockSizes T q.word →
        let o' : AccOp := { o with taken := blocks }
        exec (.ast d t c) s = .next ((starts { popped with ops := T.ops ++ [o'] } o').issued d t q))) ∧
    (let plain := (starts { T with ops := T.ops ++ [o] } o).issued d t q
     let skipped := (s1.skip d t q 0x04).issued d t q
     (s.accTurn d t c (isOp 1 2) q rest →
       exec (.acopy d t c) s = .next (if s1.acopyBad o then skipped else plain)) ∧
     (s.accTurn d t c (isOp 1 3) q rest →
       exec (.alds d t c) s = .next (if s1.outsideOwn d t o then skipped else plain)) ∧
     (s.accTurn d t c (isOp 1 4) q rest →
       exec (.asts d t c) s = .next (if s1.outsideOwn d t o then skipped else plain)))

/-- An AFENCE that issues in cycle c raises its flag if it carries FLAGEN, and an ASIG starts its increment; neither
issues while an earlier access instruction of the tile has not completed (R151, R152). Where nothing of the tile comes
before its cycle: a block of the operand queue whose bytes have arrived becomes ready in its place; a complete access
instruction leaves the list and raises its flag; a response that is no RETRY, in a cycle behind that of its request,
ends the request's slot with its data or its error code (R144, R148, R151). A request that was refused with RETRY
waits to go out again as the latest of its die (R18, R206). -/
def Obligations.FencesAndAccessesEnd : Prop :=
  (∀ (d : Fin 32) (t : Fin 144) (c : Nat) (s : State) (q : QEntry) (rest : List QEntry),
     let s1 := s.accTaken d t c rest
     let T := s1.tile d t
     let o := accOpOf T q c
     (s.accTurn d t c (isOp 1 6) q rest →
       exec (.afence d t c) s = .next ((s1.setTile d t (T.flagOn o c)).issued d t q)) ∧
     (s.accTurn d t c (isOp 1 5) q rest → exec (.asig d t c) s = .next
         ((((s1.setTile d t { T with ops := T.ops ++ [o] }).startSig d t c o).pump d t c).issued d t q)) ∧
     (((s.land d t c).tile d t).ops ≠ [] → ∀ e l, ((s.land d t c).tile d t).aq = e :: l →
       (isOp 1 6 e.word = true → exec (.afence d t c) s = .next s) ∧
       (isOp 1 5 e.word = true → exec (.asig d t c) s = .next s))) ∧
  (∀ (d : Fin 32) (t : Fin 144) (s : State),
     (∀ matrix pos b due, ((s.tile d t).oq matrix)[pos]? = some b → b.due = some due → s.reached d t due = true →
       let s1 := s.land d t due
       exec (.oqBlockReady d t matrix pos) s = .next ((s1.setTile d t ((s1.tile d t).setOq matrix
         (updAt ((s1.tile d t).oq matrix) pos (fun b => { b with ready := true })))).stir d t)) ∧
     (∀ count o, (s.tile d t).ops.find? (fun o => o.count == count && (s.tile d t).opComplete o) = some o →
       s.reached d t o.due = true →
       let s1 := s.land d t o.due
       let T : Tile := { s1.tile d t with ops := (s1.tile d t).ops.filter (fun x => x.count != o.count) }
       exec (.accessComplete d t count) s = .next (s1.setTile d t (T.flagOn o o.due))) ∧
     (∀ slot c u r, Table.find (s.tile d t).slots slot = some u → u.made < c → s.reached d t c = true →
       let s1 := s.land d t c
       s1.fabric.resp.find? (fun r => r.who == .tile d t slot) = some r → r.retry = false →
       exec (.accessResponse d t ⟨c, slot⟩) s = .next
         (({ s1 with fabric := { s1.fabric with resp := removeResp r s1.fabric.resp } } : State).slotDone d t slot c u
           r.data r.code)) ∧
     (∀ slot u, Table.find (s.tile d t).slots slot = some u → u.stage = 3 →
       exec (.requestRetryResend d t slot) s = .next
         (({ s with fabric := { s.fabric with issued := s.fabric.issued + 1 } } : State).setTile d t { s.tile d t with
           slots := putSlot (s.tile d t).slots slot { u with stage := 0, seq := s.fabric.issued } })))

/-- The sync instructions that issue in cycle c, on the side on which they stand. The amounts of SIGNAL and FSET land
in cycle c + 1 and a WAIT passes on them from cycle c + 2 (R150, R156): that they stand in the tile's list under the
cycle c + 2, from which an issue finds them landed, is the model's choice (log entry 25), as is that each increment
past 65,535 is logged (log entry 154). WAIT takes its count from the flag; WAITALM changes nothing; NOTIFY adds its
record to the die's queue; nothing else changes beyond what the issue takes (R142, R150, R153). One of an illegal form
is skipped as ILL_OPCODE (R157). A WAIT whose count the flag does not hold stays at the head of its queue (R150). The
field controller posts its oldest NOTIFY event with the number of its die (R142, R359). -/
def Obligations.SyncInstructionsComplete : Prop :=
  (∀ (d : Fin 32) (t : Fin 144) (acc : Bool) (c : Nat) (s : State) (q : QEntry) (rest : List QEntry),
     let s1 := s.sideTaken acc d t c rest
     let T := s1.tile d t
     let f := yFlag q.word
     (yIllegal q.word = false →
       (s.sideTurn acc d t c (isOpOr 5 0 5) q rest → exec (.signal d t acc c) s
         = .next ((s1.setTile d t (T.addPend q.count (c + 2) (.flagInc T.active f (yCount q.word)))).issued d t q)) ∧
       (s.sideTurn acc d t c (isOp 5 1) q rest → exec (.wait d t acc c) s = .next ((s1.setTile d t
         (T.setFlag T.active f (T.flag T.active f - BitVec.ofNat 16 (yCount q.word)))).issued d t q)) ∧
       (s.sideTurn acc d t c (isOp 5 2) q rest →
         exec (.waitalm d t acc c) s = .next ((s1.setTile d t T).issued d t q)) ∧
       (s.sideTurn acc d t c (isOp 5 3) q rest →
         exec (.notify d t acc c) s = .next ((s1.setCd d { s1.cd d with
           notify := (s1.cd d).notify ++ [notifyWord (yCount q.word) t T.active q.count] }).issued d t q)) ∧
       (s.sideTurn acc d t c (isOp 5 4) q rest → exec (.fset d t acc c) s
         = .next ((s1.setTile d t (T.addPend q.count (c + 2) (.flagSet T.active f (yCount q.word)))).issued d t q))) ∧
     (yIllegal q.word = true →
       let skipped := (s1.skip d t q 0x01).issued d t q
       (s.sideTurn acc d t c (isOpOr 5 0 5) q rest → exec (.signal d t acc c) s = .next skipped) ∧
       (s.sideTurn acc d t c (isOp 5 1) q rest → exec (.wait d t acc c) s = .next skipped) ∧
       (s.sideTurn acc d t c (isOp 5 2) q rest → exec (.waitalm d t acc c) s = .next skipped) ∧
       (s.sideTurn acc d t c (isOp 5 3) q rest → exec (.notify d t acc c) s = .next skipped) ∧
       (s.sideTurn acc d t c (isOp 5 4) q rest → exec (.fset d t acc c) s = .next skipped))) ∧
  (∀ (d : Fin 32) (t : Fin 144) (acc : Bool) (c : Nat) (s : State) (q : QEntry) (rest : List QEntry),
     let T := (s.land d t c).tile d t
     T.side acc = q :: rest → isOp 5 1 q.word = true → yIllegal q.word = false →
     (T.flag T.active (yFlag q.word)).toNat < yCount q.word → exec (.wait d t acc c) s = .next s) ∧
  (∀ (d : Fin 32) (s : State) (w : BitVec 64) (rest : List (BitVec 64)), (s.cd d).notify = w :: rest →
     let freed := if (s.cd d).notify.length < 16 then (s.cd d).freed else (s.cd d).freed + 1
     exec (.notifyEventTake d) s = .next ((s.setCd d { s.cd d with notify := rest, freed := freed }).postEvent
       (setBits w 63 56 d) (s.stampAt d)).moment)

/-- The misc engine and the word of no engine, where they issue in cycle c. NOP delays the next execute issue by ARG
cycles, and by one where ARG is 0. HALT changes nothing more: dispatch has stopped behind it. RDCR gives its register
two cycles later what the tile register of its offset holds at the end of cycle c, and WRCR writes the converter
register of its offset a cycle later. LOOP with a count that is not 0 pushes its body, one with 0 goes on behind the
body. A YIELD of the main context that may switch sets the crop's return beat and leaves; one that may not goes on; a
YIELD of the crop leaves. An operand that a rule forbids is skipped with its code. ENGINE 0b111 is skipped as
ILL_ENGINE (R134, R143, R154, R157, R161). -/
def Obligations.MiscInstructionsComplete : Prop :=
  ∀ (d : Fin 32) (t : Fin 144) (c : Nat) (s : State) (q : QEntry) (rest : List QEntry),
    let s1 := s.execTaken d t c rest
    let T := s1.tile d t
    let w := q.word
    let word := T.cur.pc - 1
    let goesOn (x : Ctx) : State := s1.setTile d t ((T.setCtx T.active x).resumeDispatch c)
    let skipped (s2 : State) (code : Nat) : State := (s2.skip d t q code).issued d t q
    (s.execTurn d t c (fun w => wEng w == 7) q rest → exec (.illEngine d t c) s = .next (skipped s1 0x02)) ∧
    (s.execTurn d t c (isOp 6 0) q rest → exec (.nop d t c) s = .next (if iIllegal w then skipped s1 0x01
      else (s1.setTile d t { T with times := { T.times with exec := c + max 1 (iArg w) } }).issued d t q)) ∧
    (s.execTurn d t c (isOp 6 1) q rest → exec (.halt d t c) s = .next (if iIllegal w
      then skipped (s1.setTile d t (T.resumeDispatch c)) 0x01 else s1.issued d t q)) ∧
    (s.execTurn d t c (isOp 6 3) q rest → exec (.rdcr d t c) s = .next (if iIllegal w then skipped s1 0x01
      else if rdcrOk (iOff w) then (s1.setTile d t
        (T.addPend q.count (c + 2) (.sreg T.active (iSd w) (s1.rdcrValue d t c (iOff w))))).issued d t q
      else skipped s1 0x04)) ∧
    (s.execTurn d t c (isOp 6 4) q rest → exec (.wrcr d t c) s = .next (if iIllegal w then skipped s1 0x01
      else if wrcrOk (iOff w) then (s1.setTile d t
        (T.addPend q.count (c + 1) (.cvtReg T.active (iOff w - 0x400) (T.sreg T.active (iSs1 w))))).issued d t q
      else skipped s1 0x04)) ∧
    (s.execTurn d t c (isOp 6 5) q rest → exec (.yield d t c) s = .next (
      if iIllegal w then skipped (s1.setTile d t (T.resumeDispatch c)) 0x01
      else if T.active then (s1.setTile d t { T with leaving := true }).issued d t q
      else if T.mayYield && s1.windowFits d T w then (s1.setTile d t { T with
        leaving := true, regs := { T.regs with cropRet := T.sreg T.active (iSs1 w) } }).issued d t q
      else (s1.setTile d t (T.resumeDispatch c)).issued d t q)) ∧
    (s.execTurn d t c (isOpOr 6 2 6) q rest →
      let n := (T.sreg T.active (iSs1 w)).toNat
      exec (.loop d t c) s = .next (
        if 6 ≤ wOpc w then skipped s1 0x01
        else if iIllegal w then skipped (goesOn (T.cur.advance word)) 0x01
        else if iArg w = 0 then skipped (goesOn (T.cur.advance word)) 0x04
        else if loopTooDeep T.cur.loops word (iArg w) then skipped (goesOn (T.cur.advance word)) 0x10
        else if n = 0 then (goesOn (T.cur.advance (word + iArg w))).issued d t q
        else (goesOn { T.cur with loops := ⟨word + 1, word + iArg w, n - 1⟩ :: T.cur.loops }).issued d t q))
/-- Where dispatch may take the word at the pc in cycle c, in the text and without a breakpoint, it sends the word to
its queue, if that has room, with the context's next instruction count: a word of the access side to the access queue,
every other to the execute queue; a full queue leaves it where it is (R132, R133). What the word's reads will meet,
which the command brings (log entry 157), goes with it (R397). An uncorrectable word stops dispatch in IMEM_FAULT and
is logged with its context and count (R130); a pc beyond the program stops it at PC_RANGE (R155). In debug mode a
breakpoint that matches stops dispatch before its instruction and sets HIT; the stream enters BREAK, and its die's
field controller is told, when all that was dispatched is done, its results have landed and no slot is in use (R164).
That the count compared with a breakpoint and kept in the queue is the one after its increment is the model's reading
of R132 and no rule's words (log entry 32). -/
def Obligations.DispatchSendsAndStops : Prop :=
  (∀ (d : Fin 32) (t : Fin 144) (c : Nat) (fetch : Fetch) (s : State),
     let T := s.tile d t
     let w := Table.get 0 T.imem T.cur.pc
     let hits := (s.die d).debug && !T.passBrk && T.brkMatch (T.cur.icount + 1) w
     let queue := if toAccess w then T.aq else T.eq
     s.dispatches d T c = true → s.reached d t c = true →
     (T.cur.pc < 16384 → fetch.ecc ≠ .double → hits = false → queue.length < 32 →
       exec (.instructionDispatch d t c fetch) s = .next (((s.atCycle d t c).setTile d t (((s.atCycle d t c).tile d
         t).enqueue c w fetch.upset)).stir d t)) ∧
     (T.cur.pc < 16384 → fetch.ecc ≠ .double → hits = false → 32 ≤ queue.length →
       exec (.instructionDispatch d t c fetch) s = .next s) ∧
     (T.cur.pc < 16384 → fetch.ecc ≠ .double → hits = true → exec (.instructionDispatch d t c fetch) s
       = .next (s.setTile d t { T with
           stall := .breakpoint, begins := none, regs := { T.regs with brkCtrl := T.regs.brkCtrl ||| 0x10 } })) ∧
     (T.cur.pc < 16384 → fetch.ecc = .double → exec (.instructionDispatch d t c fetch) s
       = .next ((s.setTile d t { T with stream := .imemFault, stall := .fetchFault }).logErr d
           { code := 0x43, src := 8, unit := t, ctx := T.active, icount := bits T.cur.icount 31 0, hold := true })) ∧
     (16384 ≤ T.cur.pc →
       exec (.instructionDispatch d t c fetch) s = .next (s.pcRange d t T.cur.icount))) ∧
  (∀ (T : Tile) (c : Nat) (w : BitVec 64) (u : Upset),
     (T.enqueue c w u).cur.icount = T.cur.icount + 1 ∧
     (toAccess w = true → (T.enqueue c w u).aq = T.aq ++ [⟨w, T.cur.icount + 1, c, false, u⟩] ∧
       (T.enqueue c w u).eq = T.eq) ∧
     (toAccess w = false → (T.enqueue c w u).eq = T.eq ++ [⟨w, T.cur.icount + 1, c, false, u⟩] ∧
       (T.enqueue c w u).aq = T.aq)) ∧
  (∀ (d : Fin 32) (t : Fin 144) (s : State),
     let T := s.tile d t
     T.stream = .run → T.stall = .breakpoint → T.drained = true → T.slots.isEmpty = true →
     T.mayLand = true →
       let s1 := s.landAll d t
       exec (.breakEntry d t) s = .next ((s1.setTile d t { s1.tile d t with
         stream := .brk, stepping := false }).setCd d { s1.cd d with broke := (s1.cd d).broke ++ [t.val] }))

/-- The ends of a stream's run. A stream whose dispatch has stopped at HALT, at STOP or at PC_RANGE and that has run
out, once everything has landed, is HALTED; a crop that has not been stopped is DONE instead and leaves (R143, R155,
R163). A crop leaves when its die's Almanac has reached the return beat, in whatever state it stands; one that has not
come to rest DRAIN_LIMIT beats later is logged once (R163). A tile at rest that leaves its context begins the switch
in its cycle s; at s + 1,280 the contexts have changed places, and the next issue is at s + 1,296 (R162). Both sides
held for 4,096 beats in which nothing moved stop the stream in CWAIT, with what holds them recorded and logged (R159,
R170). That a crop stopped by STOP ends HALTED and not DONE is the model's choice (log entry 30). -/
def Obligations.StreamsHaltSwitchAndWait : Prop :=
  ∀ (d : Fin 32) (t : Fin 144) (c : Nat) (s : State),
    let T := s.tile d t
    (T.stream = .run → (T.stall = .halt ∨ T.stall = .stopped ∨ T.stall = .range) → T.drained = true →
      T.switching = false → T.mayLand = true →
      let s1 := s.landAll d t
      let T1 := s1.tile d t
      ((T1.active = false ∨ T1.stall = .stopped) →
        exec (.streamHalted d t) s = .next (s1.setTile d t { T1 with stream := .halted })) ∧
      (T1.active = true → T1.stall ≠ .stopped → T1.crop ≠ .done →
        exec (.streamHalted d t) s = .next (s1.setTile d t { T1 with crop := .done, leaving := true }))) ∧
    (T.stream = .run → T.leaving = true → T.switching = false → T.quiet = true → T.switchesAt c = true →
      s.reached d t c = true →
      let s1 := (s.land d t c).settle d t c
      exec (.catchCropSwitch d t c) s = .next (s1.setTile d t { s1.tile d t with
        switching := true, swAt := c, swDone := 0, swAcc := [], swVec := [] })) ∧
    (T.switching = true → s.reached d t (T.swAt + 1280) = true →
      let s1 := s.land d t (T.swAt + 1280)
      let T1 := s1.tile d t
      let T2 := T1.switchOver
      exec (.catchCropSwitchComplete d t) s = .next (s1.setTile d t T2) ∧ T2.active = !T1.active ∧
        T2.switching = false ∧ T2.leaving = false ∧ T2.times.exec = T1.swAt + 1296 ∧ T2.times.acc = T1.swAt + 1296 ∧
        (T1.active = false → T2.crop = .running)) ∧
    (T.stream.open = true → T.active = true → T.leaving = false → T.retDead = false →
      T.regs.cropRet.toNat ≤ s.nowAt d →
      exec (.cropReturnBeat d t) s = .next (s.setTile d t { T with leaving := true, leftAt := some T.times.now })) ∧
    (T.stream.open = true → T.active = true → T.switching = false → T.overrun = false → T.retDead = false →
      T.quiet = false → T.regs.cropRet.toNat + bits T.regs.cropCtrl 31 16 ≤ s.nowAt d →
      exec (.cropOverrun d t) s = .next ((s.setTile d t { T with overrun := true }).logErr d
        { code := 0x17, src := 8, unit := t, ctx := true, icount := bits T.cur.icount 31 0 })) ∧
    (let s1 := s.landAll d t
     let T1 := s1.tile d t
     ∀ a b, T1.sideHeld false (s1.dispatching d T1) = some a → T1.sideHeld true (s1.dispatching d T1) = some b →
      T1.stream = .run → T1.switching = false → T1.still + 4096 ≤ s1.alm.total → T.mayLand = true →
      exec (.circularWait d t) s = .next ((s1.setTile d t { T1 with stream := .cwait, regs := { T1.regs with
          cwmExec := T1.cwmWord false a, cwmAcc := T1.cwmWord true b } }).logErr d
        { code := 0x19, src := 8, unit := t, ctx := T1.active, icount := bits (T1.cwmWord false a) 63 32
          detail := bits (T1.cwmWord true b) 63 32, hold := true }))

/-- Of the command bits of one write to CDT_STREAM_CTRL, the one acts that the stream's state takes first in the order
ABORT, STOP, RESTART, RESUME, START; VIEW and CTX are written with it. Only the tile changes, but that a RESTART
starts the accesses that wait for it again and that RESUME and ABORT withdraw the notice of a breakpoint (R116, R164,
R166). While the result is sealed no START, RESTART or RESUME acts (R395). That an ABORT drops a store still in the
converter is the model's choice (log entry 143). -/
def Obligations.OneStreamCommandActs : Prop :=
  ∀ (d : Fin 32) (t : Fin 144) (w : BitVec 64) (s : State), s.absent d = false →
    let T := s.tile d t
    let V : Tile := { T with regs := { T.regs with view := w.getLsbD 7, ctxSel := w.getLsbD 5 } }
    let untold := s.setCd d { s.cd d with broke := (s.cd d).broke.filter (fun x => x != t.val) }
    (s.ctrlAct d t w = .start → exec (.start d t w) s = .next (s.setTile d t (V.startCtx (w.getLsbD 5)))) ∧
    (s.ctrlAct d t w = .stop → exec (.stop d t w) s = .next (s.setTile d t V.stopDispatch)) ∧
    (s.ctrlAct d t w = .abort → exec (.abort d t w) s = .next (untold.setTile d t V.abort)) ∧
    (s.ctrlAct d t w = .restart → exec (.restart d t w) s = .next ((s.setTile d t V.restart).restartOps d t)) ∧
    (s.ctrlAct d t w = .resume → exec (.resume d t w) s = .next (untold.setTile d t (s.resumeTile d V))) ∧
    (w.getLsbD 4 = true → T.stream ≠ .idle → s.ctrlAct d t w = .abort) ∧
    (w.getLsbD 4 = false → w.getLsbD 1 = true → T.stream = .run → T.aborting = false →
      s.ctrlAct d t w = .stop) ∧
    (w.getLsbD 4 = false → w.getLsbD 3 = true → (T.stream = .faultHold ∨ T.stream = .abftHalt) → T.aborting = false →
      s.wseal.isSealed = false → s.ctrlAct d t w = .restart) ∧
    (w.getLsbD 4 = false → w.getLsbD 2 = true → T.stream = .brk → T.aborting = false →
      s.wseal.isSealed = false → s.ctrlAct d t w = .resume) ∧
    (w.getLsbD 0 = true → T.stream = .idle → w.getLsbD 5 = false → T.aborting = false →
      s.wseal.isSealed = false → s.ctrlAct d t w = .start) ∧
    (s.wseal.isSealed = true →
      s.ctrlAct d t w ≠ .start ∧ s.ctrlAct d t w ≠ .restart ∧ s.ctrlAct d t w ≠ .resume)

/-- Writes and requests that reach a tile from outside. The runtime's write of a bank's seed clears its SCOUNT (R61).
A write goes to the register that its address names, unless its die is absent; one to an unmapped address is logged
(R28); none comes while the die rails are off (R469). A read or a write of tile SRAM, in a cycle that nothing of the
tile comes before, is served, behind what a running switch has moved by then, and answered with its data or its error
(R147, R149); a read that SECDED finds past correction is logged and answered with that error (R392). -/
def Obligations.TilesAnswerTheMesh : Prop :=
  ∀ (d : Fin 32) (t : Fin 144) (s : State),
    (∀ bank seed, let s1 := s.land d t (s.tile d t).times.now
      let T := s1.tile d t
      exec (.cvtSeedWrite d t bank seed) s = .next (s1.setTile d t (T.setCtx bank { T.ctx bank with
        cvt := { (T.ctx bank).cvt with seed := seed, scount := 0 } }))) ∧
    (∀ (addr : BitVec 48) v b off, s.diesUp = true → s.locate addr.toNat = .reg b off →
      exec (.registerWrite addr v) s
        = .next (if s.absent (s.dieOf b) then s else s.writeReg b (off / 8 * 8) v)) ∧
    (∀ (addr : BitVec 48) v, s.diesUp = true → s.locate addr.toNat = .unmapped →
      exec (.registerWrite addr v) s = .next (s.unmapped addr.toNat)) ∧
    (∀ (addr : BitVec 48) v, s.diesUp = false → exec (.registerWrite addr v) s = .next s) ∧
    (∀ c r o, s.requestIs r = true → s.locate r.addr.toNat = .sram d t o → s.reached d t c = true →
      let s1 := s.land d t c
      let s2 := (s1.setTile d t ((s1.tile d t).switchTo c)).setStage r.who 1
      let g := s2.localRead r.addr.toNat r.len
      let p := s2.localWrite r.addr.toNat (s2.withHalf r.addr.toNat r.half r.data)
      (r.write = false → g.2.err = none →
        exec (.meshSramRequest d t ⟨c, r, none⟩) s = .next (g.1.respond r.who g.2.data 0 false)) ∧
      (∀ (off : Fin 256), r.write = false → g.2.err = none → g.1.locate r.addr.toNat = .sram d t o →
        exec (.meshSramRequest d t ⟨c, r, some off⟩) s = .next ((g.1.logErr d
          { code := 0x41, src := 0, unit := t, addr := r.addr.toNat + off }).respond r.who (offsetBytes off.val) 0x41
            false)) ∧
      (∀ code at? bad, r.write = false → g.2.err = some (code, at?) →
        exec (.meshSramRequest d t ⟨c, r, bad⟩) s = .next (g.1.respond r.who (offsetBytes at?) code false)) ∧
      (∀ bad, r.write = true → p.2 = none →
        exec (.meshSramRequest d t ⟨c, r, bad⟩) s = .next (p.1.respond r.who [] 0 false)) ∧
      (∀ code at? bad, r.write = true → p.2 = some (code, at?) →
        exec (.meshSramRequest d t ⟨c, r, bad⟩) s = .next (p.1.respond r.who (offsetBytes at?) code false)))

/-- On an edge that is in service, a good flit clears the count of its flit's failed tries; a failed one adds to the
count, and the ninth failure of one flit fences the edge with what its buffers hold, by State.fenceEdge (R19). An
accepted command that may be delivered is counted by its hubs and becomes ready, marked late where the beat it names
has come, or is held until its execution beat has come at every die it names; the held commands whose beat has come
become ready before it. A held command whose beat has come, with none before it that waits, becomes ready in its turn
(R23, R24, R334, R341). That a command whose beat is the beat of its arrival is late is the model's choice (log entry
56). -/
def Obligations.FabricAndCommandsMove : Prop :=
  (∀ (e : Edge) (held : List Held) (s : State),
     let e' := edgeSorted e
     let n := Table.get 0 s.fabric.retries (edgeKey e')
     let count (x : Nat) : State :=
       { s with fabric := { s.fabric with retries := Table.set 0 s.fabric.retries (edgeKey e') x } }
     s.edgeOpen e'.a.val e'.b.val = true →
     exec (.dieFabricFlit e true held) s = .next (count 0) ∧
     (n < 8 → exec (.dieFabricFlit e false held) s = .next (count (n + 1))) ∧
     (8 ≤ n → exec (.dieFabricFlit e false held) s = .next (s.fenceEdge e' held))) ∧
  (∀ (cid : Nat) (c : Cmd) (s : State), s.cmd? cid = some c →
     (c.stage = .accepted → s.mayDeliver c = true →
       (c.execEn = false → exec (.commandDeliver cid) s
         = .next ((s.wakeHeld.countDelivered c.targets).arriveCmd { c with late := false, stage := .ready })) ∧
       (c.execEn = true → c.beatReached s = false → exec (.commandDeliver cid) s
         = .next ((s.wakeHeld.countDelivered c.targets).arriveCmd { c with late := false, stage := .held })) ∧
       (c.execEn = true → c.beatReached s = true → exec (.commandDeliver cid) s
         = .next ((s.wakeHeld.countDelivered c.targets).arriveCmd { c with late := true, stage := .ready }))) ∧
     (c.stage = .held → c.beatReached s = true → s.sd.cmds.any (fun x => s.heldBefore x c) = false →
       exec (.execBeatReached cid) s = .next (s.arriveCmd { c with stage := .ready })) ∧
     (c.stage = .held → c.beatReached s = false → exec (.execBeatReached cid) s = .next s))
/-- A route-table change takes place once what it drains is drained, within 4,096 beats of its command, which is
answered with the change's status; at 4,096 beats the command is answered BUSY and no table changes; until one of
these nothing happens (R25). SPARE_ADOPT of a site that nothing bars, and whose check succeeds, and DIE_RETIRE wait
for their change; a site that fails its check is out of service and its command is answered TARGET_DOWN; a barred one
is answered with the bar (R375). TORUS_CFG that sets COORD, GEOM or PORTS, and ROUTE_SET, wait for their change;
another TORUS_CFG acts at once; LINK_CTRL acts on the ports it names, in ascending order, and is answered with the
states of all ports (R275, R302). What counts as drained (log entry 52), that LINK_CTRL is answered at once (log entry
69) and the statuses of a barred site (log entry 94) are the model's choices. -/
def Obligations.RouteTablesChange : Prop :=
  (∀ (cid : Nat) (c : Cmd) (s : State), s.runningCmd cid = some c → (fabricOps ++ linkOps).contains c.op = true →
     (s.drainedFor c.op = true → s.waited c < 4096 →
       exec (.routeTableChange cid) s = .next ((s.routeChange c).1.reply c (s.routeChange c).2 0)) ∧
     (4096 ≤ s.waited c → exec (.routeDrainTimeout cid) s = .next (s.reply c stBusy 0)) ∧
     (s.waited c < 4096 → exec (.routeDrainTimeout cid) s = .next s) ∧
     (s.drainedFor c.op = false → exec (.routeTableChange cid) s = .next s)) ∧
  (∀ (cid : Nat) (c : Cmd) (s : State),
     (s.canRun cid 0x0810 c = true → s.adoptBars (c.u 1 1) (c.u 0 1) = none →
       exec (.spareAdopt cid true) s = .next (s.running c) ∧
       exec (.spareAdopt cid false) s = .next ((s.setSite (c.u 1 1) 2 0).reply c stDown 0)) ∧
     (∀ st checkOk, s.canRun cid 0x0810 c = true → s.adoptBars (c.u 1 1) (c.u 0 1) = some st →
       exec (.spareAdopt cid checkOk) s = .next (s.reply c st 0)) ∧
     (s.canRun cid 0x0811 c = true → exec (.dieRetire cid) s = .next (s.running c))) ∧
  (∀ (cid : Nat) (c : Cmd) (s : State),
     (s.canRun cid 0x0101 c = true → c.u 0 4 &&& 0xB ≠ 0 → exec (.torusCfg cid) s = .next (s.running c)) ∧
     (s.canRun cid 0x0101 c = true → c.u 0 4 &&& 0xB = 0 →
       exec (.torusCfg cid) s = .next ((s.applyTorusCfg c).reply c stOk 0)) ∧
     (s.canRun cid 0x0102 c = true → exec (.routeSet cid) s = .next (s.running c)) ∧
     (s.canRun cid 0x0103 c = true →
       let t := ((List.range 12).filter (fun p => c.u 0 2 / 2 ^ p % 2 == 1)).foldl
         (fun s p => s.linkAction (c.u 2 1) p) s
       exec (.linkCtrl cid) s = .next (t.reply c stOk (BitVec.ofNat 64 t.portStates))))

/-- The commands of a factor die that is in service and has no batch. FACTOR_BATCH starts a batch with no problem
started, or, with its deadline past, with none to start; FACTOR_STORE sets the die's store; FACTOR_RELEASE writes FREE
to the slots it names, and FACTOR_RESET clears their headers (R185, R190, R191, R197). FACTOR_ABORT acts at once,
whatever precedes it, and ends the problems of the die's batch that have not started (R176, R198). A die that is down
is answered TARGET_DOWN, and one that a fenced edge has cut off EDGE_FENCED (R19, R25). -/
def Obligations.FactorCommandsRun : Prop :=
  ∀ (cid : Nat) (c : Cmd) (s : State) (b : Nat) (l : List Nat), c.targets = b :: l →
    let f := s.dieOf b - 56
    let r := BatchRun.new c s.alm.now
    let s1 := (s.running c).setBatch f r
    (s.canRun cid 0x0701 c = true → s.barred c b = none → s.batch f = none →
      exec (.factorBatch cid) s = .next (if s1.batchLate f r then s1.endRest f psNotRun else s1)) ∧
    (s.canRun cid 0x0702 c = true → s.barred c b = none → s.batch f = none →
      exec (.factorStore cid) s = .next ((s.setFd f { s.fd f with
        base := BitVec.ofNat 48 (c.u 0 8), slotBytes := BitVec.ofNat 19 (c.u 8 4)
        slots := BitVec.ofNat 23 (c.u 0x0C 4), valid := true }).reply c stOk 0)) ∧
    (s.canRun cid 0x0703 c = true → s.barred c b = none → s.batch f = none →
      exec (.factorRelease cid) s = .next (State.storeReply c
        (s.eachSlot f (s.storeSpan f c).1 (s.storeSpan f c).2 (fun s a => s.devWrite a [0])))) ∧
    (s.canRun cid 0x0704 c = true → s.barred c b = none → s.batch f = none →
      exec (.factorReset cid) s = .next (State.storeReply c
        (s.eachSlot f (s.storeSpan f c).1 (s.storeSpan f c).2 (fun s a => s.devWrite a (List.replicate 64 0))))) ∧
    (s.canRunNow cid 0x0705 c = true → s.barred c b = none →
      exec (.factorAbort cid) s = .next ((s.endRest f psAborted).reply c stOk 0)) ∧
    (∀ st, (s.targetDown c.op b = true ∧ st = stDown ∨
        s.targetDown c.op b = false ∧ c.cutOff.contains b = true ∧ st = stErr 0x50) →
      (s.canRun cid 0x0701 c = true → exec (.factorBatch cid) s = .next (s.reply c st 0)) ∧
      (s.canRun cid 0x0702 c = true → exec (.factorStore cid) s = .next (s.reply c st 0)) ∧
      (s.canRun cid 0x0703 c = true → exec (.factorRelease cid) s = .next (s.reply c st 0)) ∧
      (s.canRun cid 0x0704 c = true → exec (.factorReset cid) s = .next (s.reply c st 0)) ∧
      (s.canRunNow cid 0x0705 c = true → exec (.factorAbort cid) s = .next (s.reply c st 0)))

/-- The next problem of a batch in index order, with its record read and legal and a lane free, starts on the lowest
free lane, or lane quad, and a fault of its lane there ends it; a record that cannot be read ends its problem as a
data fault, and one that is not legal as INVALID. Where the batch's deadline has come, every problem that has not
started ends as not run (R173, R176, R179, R191, R195); on a sealed device the batch stays active (R395). That the
lane is the lowest free one is the model's choice (log entry 85). -/
def Obligations.FactorProblemsStartInOrder : Prop :=
  ∀ (f : Fin 4) (j cycles : Nat) (s : State) (b : BatchRun), s.batch f = some b →
    (s.batchLate f b = true → s.wseal.isSealed = false → exec (.factorDeadline f) s = .next (s.endRest f psNotRun)) ∧
    (s.wseal.isSealed = true → exec (.factorDeadline f) s = .next s) ∧
    (b.next = j → j < b.count → s.wseal.isSealed = false →
      let at? := s.batchParam b 0 8 + 128 * j
      let s1 := (s.devRead at? 128).1
      let words := wordsOf (s.devRead at? 128).2.data
      (∀ bad, s.batchLate f b = true → exec (.problemStart f j cycles bad) s = .next (s.endRest f psNotRun)) ∧
      (s.batchLate f b = false →
        (∀ bad code off, (s.devRead at? 128).2.err = some (code, off) → exec (.problemStart f j cycles bad) s
          = .next ((s1.batchError f 0 code (at? + off)).endUnstarted f j psData)) ∧
        ((s.devRead at? 128).2.err = none →
          (∀ bad, s1.descOk f (descOf words) = false →
            exec (.problemStart f j cycles bad) s = .next (s1.endUnstarted f j psInvalid)) ∧
          (∀ (lane : Nat) (b1 : BatchRun), s1.descOk f (descOf words) = true →
            b.lane? (descOf words).quad = some lane → s1.batch f = some b1 →
            let p : Problem := { Problem.new j lane words s1.alm.now with cycles := cycles }
            let s2 := s1.setBatch f { b1 with next := j + 1, probs := b1.probs ++ [p] }
            exec (.problemStart f j cycles false) s = .next (s2.startProblem f p (descOf words)) ∧
            exec (.problemStart f j cycles true) s = .next (s2.laneFault f p)))))

/-- The stages of a problem, each of which adds its cycles. A factorisation ends by State.factorStage, or by the fault
of its lane; the first stage of a solve goes to the second, and the second ends by State.solved; a residual of a
matrix that is read and finite goes to the loop test; a retain that has its slot writes body and header (R181, R183,
R188, R195). A batch whose problems have all ended writes its summary, leaves its marks, sends the signal it asks for,
and is answered with the number of its problems and of those that ended OK; its die is free for the next batch (R194,
R399). The arithmetic: an input, a sum, a quotient and a square root are rounded once to nearest even onto their grid,
or stop the problem as a breach (R42, R180 to R182); a step of LU pivots on the lowest row of the greatest magnitude,
and of each kind forms every element from one exact sum, SINGULAR or NOT_SPD at the pivots R181 names; the stages of a
solve are rows of triangular systems and applied reflectors (R175, R180); a residual is one exact sum rounded to FP64,
er the smallest integer with ρ below 2^er, and a correction is added in FP64 (R183). -/
def Obligations.FactorStagesAndBatchesEnd : Prop :=
  (∀ (f : Fin 4) (j cycles : Nat) (s : State) (p : Problem), s.problem? f j = some p →
     let p1 : Problem := { p with cycles := p.cycles + cycles }
     let d := descOf p.words
     (p.stage = .factor → exec (.factorStageComplete f j cycles false) s = .next (s.factorStage f p1 d)) ∧
     (p.stage = .factor → exec (.factorStageComplete f j cycles true) s = .next (s.laneFault f p1)) ∧
     (∀ y, p.stage = .first → eachCol p1.rhs (solveIn p1 d).stage1 = .ok y →
       exec (.factorStageComplete f j cycles false) s
         = .next (s.putProblem f { p1 with stage := .second, mid := y, reading := none })) ∧
     (∀ x, p.stage = .second → eachCol p1.mid (solveIn p1 d).stage2 = .ok x →
       exec (.factorStageComplete f j cycles false) s = .next (s.solved f p1 d x)) ∧
     (∀ a, p.stage = .residual → (s.readA d).2 = .inl a → badColumn d.n a = none →
       exec (.refineResidual f j cycles) s
         = .next ((s.readA d).1.loopTest f p1 d (residuals d a p1.b p1.x))) ∧
     (∀ p2, p.stage = .commit → (s.putProblem f p1).problem? f j = some p2 → p2.stage = .commit →
       exec (.retainCommit f j cycles) s = .next ((s.putProblem f p1).finishCommit f p2))) ∧
  (∀ (f : Fin 4) (s : State) (b : BatchRun) (c : Cmd), s.batch f = some b → s.cmd? b.cid = some c → b.count ≤ b.done →
     let g := s.devWrite (c.u 0x10 8) (bytesOfWords (summaryWords b c.tag))
     let s1 := match g.2 with
       | some (code, off) => g.1.batchError f 0 code (c.u 0x10 8 + off)
       | none => g.1
     let s2 := if b.off then s1.mark (blkFd f) 1 1 else s1
     let s3 := if b.unmet then s2.mark (blkFd f) 5 1 else s2
     let s4 := if c.u 0x1C 4 / 2 % 2 = 1 then
         s3.cmdSignal (blkFd f) c (BitVec.ofNat 64 (c.u 0x28 8)) (c.u 0x30 2)
       else s3
     let err := match s4.batch f with
       | some b => b.err
       | none => 0
     exec (.factorBatchComplete f) s = .next ((s4.setFd f { s4.fd f with batch := none }).reply c
       (if err = 0 then stOk else stErr (err - 1)) (BitVec.ofNat 64 (b.count * 2 ^ 32 + b.ok)))) ∧
  (∀ (col k : Nat) (e : Int) (a b : Dyad),
     let x : ℝ := a.m * 2 ^ a.e
     let y : ℝ := b.m * 2 ^ b.e
     let rounded (x : ℝ) (r : Except FxStop Int) : Prop :=
       (∃ n, fxNear e n x ∧ r = .ok n) ∨ ((∀ n, ¬fxNear e n x) ∧ r = .error (.breach col))
     rounded x (fxRound col e a) ∧
     (y ≠ 0 → rounded (x / y) (fxDiv col k e a b)) ∧
     (y = 0 → fxDiv col k e a b = .error (.zeroDiv k)) ∧
     (0 ≤ x → 0 ≤ a.e + 92 - 2 * e → rounded (Real.sqrt x) (fxSqrt col e a)) ∧
     (∀ v : FVal, (∀ x, v.is x → rounded x (fxOfVal col e v)) ∧
       ((¬∃ x, v.is x) → fxOfVal col e v = .error (.breach col)))) ∧
  (∀ (ea el : Int) (n rows k : Nat) (m m1 : FxMat) (piv piv1 : List Int), k < n → m.length = rows →
     (∀ r ∈ m, r.length = n) →
     let sum (f : Nat → ℝ) : ℝ := ((List.range k).map f).sum
     (rows = n →
       let v? (i : Nat) : ℝ := fxReal ea (m.at i k) - sum (fun q => fxReal 0 (m.at i q) * fxReal ea (m.at q k))
       (luStep ea n (m, piv) k = .ok (m1, piv1) → ∃ (p : Nat) (v : Nat → Int), k ≤ p ∧ p < n ∧
         piv1 = piv ++ [(p : Int)] ∧
         (∀ i, k ≤ i → i < n → fxNear ea (v i) (v? i) ∧ |v i| ≤ |v p| ∧ (|v i| = |v p| → p ≤ i)) ∧ v p ≠ 0 ∧
         m1.at k k = v p ∧
         ∀ i j, i < n → j < n →
           let row := if i = k then p else if i = p then k else i
           (i = k → k < j → fxNear ea (m1.at k j)
             (fxReal ea (m.at p j) - sum (fun q => fxReal 0 (m.at p q) * fxReal ea (m.at q j)))) ∧
           (k < i → j = k → fxNear 0 (m1.at i k) (fxReal ea (v row) / fxReal ea (v p))) ∧
           (i < k ∨ j < k ∨ k < i ∧ k < j → m1.at i j = m.at row j)) ∧
       (luStep ea n (m, piv) k = .error (.singular k) ↔ ∀ i, k ≤ i → i < n → fxNear ea 0 (v? i)) ∧
       (∀ e, luStep ea n (m, piv) k = .error e → e = .singular k ∨ e = .breach k)) ∧
     (rows = n →
       let c := ceilHalf ea
       let rest (i : Nat) : ℝ := fxReal ea (m.at i k) - sum (fun q => fxReal c (m.at i q) * fxReal c (m.at k q))
       (cholStep ea n m k = .ok m1 → 0 < rest k ∧ fxNear c (m1.at k k) (Real.sqrt (rest k)) ∧
         (∀ i, k < i → i < n → fxNear c (m1.at i k) (rest i / fxReal c (m1.at k k))) ∧
         ∀ i j, i < n → j < n → i < k ∨ j ≠ k → m1.at i j = m.at i j) ∧
       (cholStep ea n m k = .error (.notSpd k) ↔ rest k ≤ 0)) ∧
     (rows = n →
       let rest (i : Nat) : ℝ := fxReal ea (m.at i k)
         - sum (fun q => fxReal el (m.at i q) * fxReal el (m.at k q) * fxReal ea (m.at q q))
       (ldltStep ea el n m k = .ok m1 → m1.at k k ≠ 0 ∧ fxNear ea (m1.at k k) (rest k) ∧
         (∀ i, k < i → i < n → fxNear el (m1.at i k) (rest i / fxReal ea (m1.at k k))) ∧
         ∀ i j, i < n → j < n → i < k ∨ j ≠ k → m1.at i j = m.at i j) ∧
       (ldltStep ea el n m k = .error (.singular k) ↔ fxNear ea 0 (rest k))) ∧
     (n ≤ rows → qrStep ea rows (m, piv) k = .ok (m1, piv1) →
       ∃ r : Nat → Int, (∀ i < rows, fxNear (ea + 4) (r i)
         (housesReal m piv rows (List.range k) (fun t => fxReal ea (m.at t k)) i)) ∧
       (∀ i j, i < rows → j < n → j ≠ k → m1.at i j = m.at i j) ∧ (∀ i < k, m1.at i k = r i) ∧
       ((∀ i, k < i → i < rows → r i = 0) → piv1 = piv ++ [0] ∧ ∀ i, k ≤ i → i < rows → m1.at i k = r i) ∧
       ((∃ i, k < i ∧ i < rows ∧ r i ≠ 0) → ∃ norm tau : Int, piv1 = piv ++ [tau] ∧
         fxNear (ea + 4) norm (Real.sqrt ((((List.range rows).filter (fun i => k ≤ i)).map
           (fun i => fxReal (ea + 4) (r i) ^ 2)).sum)) ∧
         let beta := if r k < 0 then norm else -norm
         m1.at k k = beta ∧ fxNear 0 tau (((beta - r k : Int) : ℝ) / beta) ∧
         ∀ i, k < i → i < rows → fxNear 0 (m1.at i k) ((r i : ℝ) / (r k - beta : Int))))) ∧
  (∀ (q : SolveIn) (col : Nat) (b y x : List Int),
     let at' (m : FxMat) (i j : Nat) : Int := m.at i j
     let low (e : Int) (i p : Nat) : ℝ := fxReal e (at' q.m i p)
     let high (e : Int) (i p : Nat) : ℝ := fxReal e (at' q.m p i)
     let diag (e : Int) (i : Nat) : ℝ := fxReal e (at' q.m i i)
     let from? (e : Int) (v : List Int) (i : Nat) : ℝ := fxReal e (v.getD i 0)
     let one (_ : Nat) : ℝ := 1
     let c := ceilHalf q.ea
     (q.stage1 col b = .ok y →
       (q.kind = 0 → q.trans = false → triSolved true q.n q.ey (from? q.eb (permute q.piv b)) (low 0) one y) ∧
       (q.kind = 0 → q.trans = true → triSolved true q.n q.ey (from? q.eb b) (high q.ea) (diag q.ea) y) ∧
       (q.kind = 1 → triSolved true q.n q.ey (from? q.eb b) (low c) (diag c) y) ∧
       (q.kind = 2 → triSolved true q.n q.ey (from? q.eb b) (low q.el) one y) ∧
       (q.kind = 3 → q.trans = false → q.n ≤ q.rows → y.length = q.n ∧ ∀ i < q.n, fxNear q.ey (y.getD i 0)
         (housesReal q.m q.piv q.rows (List.range q.n) (from? q.eb b) i)) ∧
       (q.kind = 3 → q.trans = true →
         triSolved true q.n q.ey (from? q.eb b) (high (q.ea + 4)) (diag (q.ea + 4)) y)) ∧
     (q.stage2 col y = .ok x →
       (q.kind = 0 → q.trans = false → triSolved false q.n q.ex (from? q.ey y) (low q.ea) (diag q.ea) x) ∧
       (q.kind = 0 → q.trans = true → ∃ z, triSolved false q.n q.ex (from? q.ey y) (high 0) one z ∧
         x = unpermute q.piv z) ∧
       (q.kind = 1 → triSolved false q.n q.ex (from? q.ey y) (high c) (diag c) x) ∧
       (q.kind = 2 → triSolved false q.n q.ex (from? q.ey y) (fun i p => high q.el i p * diag q.ea i) (diag q.ea) x) ∧
       (q.kind = 3 → q.trans = false →
         triSolved false q.n q.ex (from? q.ey y) (low (q.ea + 4)) (diag (q.ea + 4)) x) ∧
       (q.kind = 3 → q.trans = true → x.length = q.rows ∧ ∀ i < q.rows, fxNear q.ex (x.getD i 0)
         (housesReal q.m q.piv q.rows (List.range q.n).reverse (fun i => if i < q.n then from? q.ey y i else 0) i)) ∧
       (4 ≤ q.kind → triSolved (q.upper == q.trans) q.n q.ex (from? q.eb y)
         (if q.trans then high q.ea else low q.ea) (if q.unit then one else diag q.ea) x))) ∧
  (∀ (d : Desc) (a : List (List FVal)) (b x : List (List (BitVec 64))) (A : Nat → Nat → ℝ) (B X : Nat → Nat → ℝ),
     (∀ i k, i < d.n → k < d.n → ((a.getD i []).getD k (.fin false 0 0)).is (A i k)) →
     (∀ j i, j < d.nrhs → i < d.n → (fp64.decode ((b.getD j []).getD i 0).toNat).is (B j i) ∧
       (fp64.decode ((x.getD j []).getD i 0).toNat).is (X j i)) →
     ∀ j i, j < d.nrhs → i < d.n → ∃ code, ((residuals d a b x).getD j []).getD i (.inf false) = fp64.decode code ∧
       fp64.near (B j i - ((List.range d.n).map
         (fun k => (if d.trans then A k i else A i k) * X j k)).sum) code) ∧
  (∀ (v : FVal) (rho : ℝ), v.is rho → 0 < rho → rho < 2 ^ expAbove v ∧ 2 ^ (expAbove v - 1) ≤ rho) ∧
  (∀ (x x1 : List (List (BitVec 64))) (dx : List (List Int)) (e : Int), corrected x dx e = .ok x1 →
     ∀ (j i : Nat) (X : ℝ), j < x.length → i < (x.getD j []).length →
       (fp64.decode ((x.getD j []).getD i 0).toNat).is X →
       fp64.near (X + fxReal e ((dx.getD j []).getD i 0)) ((x1.getD j []).getD i 0).toNat ∧
       (fp64.decode ((x1.getD j []).getD i 0).toNat).isFin = true)

/-- A request that reaches memory die m, in an MCLK cycle and over an edge that R210 puts behind its last, has reached
it for good, and its bytes have crossed into the die's clock. One for a stack of another die is answered MEM_MISROUTE
(R204), one for a stack that is down HBM_STACK_DOWN (R202), and both are logged. One whose entries all have room, with
no hold of their banks to overtake, is admitted; any other waits in the hold of the first bank in its way, which
bank's hold that is being the model's choice (log entry 48; R206, R209). -/
def Obligations.MemoryRequestsAreAdmitted : Prop :=
  ∀ (m : Fin 16) (cycle : Nat) (r : MemReq) (s : State) (k o : Nat), s.requestIs r = true →
    s.arrives m cycle r.who = true → s.agentRoom r = true → s.locate r.addr.toNat = .hbm k o →
    let s0 := (s.setMd m { s.md m with clock := cycle, lastEdge := s.arrivalEdge m r.who }).cross r.data
    let s1 := s0.1.setStage r.who 1
    let r1 : MemReq := { r with data := s0.2 }
    let entries := entriesOf (hbmLoc s1.fabric.quadLocal r.addr.toNat).2 r.len
    let free := (s1.stk k).room entries && (s1.stk k).noHold entries
    (k / 2 = m → (s1.stk k).down = false → free = true →
      exec (.memRequest m ⟨cycle, r⟩) s = .next (s1.admitReq k r1)) ∧
    (k / 2 = m → (s1.stk k).down = false → free = false →
      exec (.memRequest m ⟨cycle, r⟩) s = .next (s1.hold k ((s1.stk k).fullBank entries) r1)) ∧
    (k / 2 ≠ m → exec (.memRequest m ⟨cycle, r⟩) s = .next
      ((s1.logErr (blkMd m) { code := 0x26, src := 13, addr := r.addr.toNat }).respond r.who (offsetBytes 0) 0x26
        false)) ∧
    (k / 2 = m → (s1.stk k).down = true → exec (.memRequest m ⟨cycle, r⟩) s = .next
      ((s1.logErr (blkMd m) { code := 0x45, src := 13, unit := k % 2, addr := r.addr.toNat }).respond r.who
        (offsetBytes 0) 0x45 false))

/-- While a pseudo-channel is in service and no refresh or RFM of it is due, the Winnower serves the page that
State.winnowChoice gives (R207, R208). A refresh closes its bank's page and starts the bank's refresh interval again;
an RFM whose bank's activations have reached the threshold closes the page and starts their count again, and one
before that changes nothing (R219); that RFM puts the count to 0, and that both close the page and go before the
Winnower, are the model's choices (log entries 49 and 129). A recalibration whose turn it is takes its pseudo-channel
out of service; its end puts it back and keeps the time and the temperature it was made at, and one that does not
converge is logged (R401, R402, R406). -/
def Obligations.WinnowerServesAndRefreshCloses : Prop :=
  ∀ (m : Fin 16) (stack : Bool) (pc : Fin 64) (s : State),
    let k := 2 * m.val + natOf stack
    let x := (s.md m).stk stack
    (∀ now banks errs odecc b page, x.waits pc = false → x.trained = true → x.down = false → (s.md m).clock ≤ now →
      x.upkeepDue k pc now = false →
      let s0 := (s.setMd m { s.md m with clock := now }).setStk k (x.decay errs odecc)
      let s1 := s0.winnowChoice x pc now banks
      s1.1 = some (b, page) →
      exec (.winnowerAccess m stack pc now banks errs odecc) s = .next (s1.2.serve k b page)) ∧
    (∀ (cycle : Nat) (bank : Fin 48), (s.md m).clock ≤ cycle →
      exec (.refresh m stack pc ⟨cycle, bank⟩) s = .next ((s.setMd m { s.md m with clock := cycle }).onBank m stack
        (pc * 48 + bank) (fun q => { q.close with fresh := cycle }))) ∧
    (∀ bank : Fin 48, exec (.rfm m stack pc bank) s = .next (s.onBank m stack (pc * 48 + bank)
      (fun q => if q.rfmDue k then { q.close with acts := 0 } else q))) ∧
    (∀ converged, (s.stk k).recal.contains pc.val = false → (s.stk k).trained = true → (s.stk k).down = false →
      s.calTurn k pc = true →
      exec (.hbmRecalibration m stack pc converged) s = .next (s.setStk k { s.stk k with
        recal := (s.stk k).recal ++ [pc.val] })) ∧
    ((s.stk k).recal.contains pc.val = true →
      let y := s.stk k
      let s1 := s.setStk k { y with
        recal := y.recal.filter (· != pc.val), calAt := Table.set 0 y.calAt pc s.alm.total
        calTemp := Table.set 0 y.calTemp pc y.temp.toNat }
      exec (.hbmRecalibration m stack pc true) s = .next s1 ∧
      exec (.hbmRecalibration m stack pc false) s = .next (s1.logErr (blkMd m)
        { code := 0xD1, src := 13, unit := k % 2, detail := pc.val }))

/-- While the Gleaning's budget has room and its turn has come (R402), the scrubber spends 64 bytes of it, reads the
next sector of its pass, to which nothing admitted waits, and ends the die's pass where it was the last sector of both
stacks; it pauses while a stack of the die is out of service (R218). A repair candidate in its turn, by the budget and
in a window or a bubble (log entry 140), is read through the code and written back, mapped to a spare row and listed
as pending; HBM_REPAIR_EXHAUSTED is logged where its bank group has none left (R220). Readings of both stacks below
105 °C are kept with what they do to the levels, and the quadrant is released of the die's throttle once both are
below level 3; ten readings in a row at T_THROTTLE + 5 °C or more put a stack into level 3 and throttle its quadrant
(R221). That ten polls stand for the time of level 3 (log entry 50) and what the budget counts and where it starts
(log entry 135) are the model's choices. -/
def Obligations.MemoryDiesAreWatched : Prop :=
  (∀ (m : Fin 16) (stack : Bool) (row : BitVec 26) (s : State),
     let k := 2 * m.val + natOf stack
     let x := s.stk k
     (∀ errs odecc, (s.scrubCfgOf m).getLsbD 0 = true → (s.md m).st0.oos = false → (s.md m).st1.oos = false →
       x.scrubbed = false → s.gleanLimit m 64 = true → s.scrubTurn m k x.scrub = true →
       s.scrubReady m k x.scrub = true →
       let s1 := s.gleanSpend m 64
       let y := (s1.stk k).decay [(x.scrub, errs)] (odecc.map (fun b => 2 * x.scrub + b.val))
       let b := bankNo (64 * x.scrub)
       let s2 := s1.setStk k { y.setBank b ((y.bank b).touch (64 * x.scrub / 1024)) with scrub := x.scrub + 1 }
       let s3 := (s2.decodeSector k x.scrub true true []).1
       exec (.scrubRead m stack errs odecc) s = .next (s3.setMd m ((s3.md m).endPass s3.alm.total))) ∧
     (∀ errs odecc, ((s.md m).st0.oos = true ∨ (s.md m).st1.oos = true) →
       exec (.scrubRead m stack errs odecc) s = .next s) ∧
     (16 * row.toNat + 15 < sectorsPerStack → x.candidate row.toNat = true → x.trained = true → x.down = false →
       x.waits (bankNo (1024 * row.toNat) / 48) = false → s.repairTurn m k row.toNat = true →
       (x.sparesLeft row.toNat = 0 → exec (.repairCandidate m stack row) s = .next (s.logErr (blkMd m)
         { code := 0x46, src := 13, unit := k % 2, addr := hbmAddr s.fabric.quadLocal k (1024 * row.toNat) })) ∧
       (x.sparesLeft row.toNat ≠ 0 →
         let s1 := (s.gleanSpend m 2048).rereadRow k row.toNat
         exec (.repairCandidate m stack row) s = .next (s1.setStk k { s1.stk k with
           repairs := (s1.stk k).repairs ++ [(row.toNat, false)]
           rowCorr := Table.set 0 (s1.stk k).rowCorr row.toNat 0 })))) ∧
  (∀ (m : Fin 16) (stack : Bool) (t0 t1 : BitVec 8) (s : State),
     let M := s.md m
     let M1 : MemDie := { M with st0 := M.st0.reading (throttleAt M) t0, st1 := M.st1.reading (throttleAt M) t1 }
     (t0.toNat < 105 → t1.toNat < 105 → exec (.hbmTempPoll m t0 t1) s = .next (
       if M1.st0.level < 3 ∧ M1.st1.level < 3 then (s.setMd m M1).release (holdThermal (blkMd m)) [quadOfMd m]
       else s.setMd m M1)) ∧
     (10 ≤ (M.stk stack).hot → (M.stk stack).level < 3 → exec (.hbmLevel3Throttle m stack) s
       = .next ((s.setMd m (M.setStk stack { M.stk stack with level := 3 })).holdQuad
           (holdThermal (blkMd m)) (quadOfMd m))))

/-- The commands of the memory dies. A change of interleave waits for its route-table change, and every other MEM_MODE
acts at once (R223). HBM_REPAIR of a stack of a die in service lists the pending repairs, or makes all repairs
permanent, each row read through the code and written back, and lists those that were pending, and is answered with
what its write of the list meets (R224). HBM_MARGIN, one at a time, takes its stack out of service, and at its next
event puts it back, writes the 2,176 records measured and is answered likewise (R222, R225). ECC_INJECT on a die in
debug or maintenance mode arms a sector, or answers BUSY where 16 others are armed; that the fault waits for the first
write admitted after the command is the model's reading (log entry 141; R226), and that HBM_REPAIR writes its list for
either action is its choice (log entry 51). -/
def Obligations.MemoryCommandsRun : Prop :=
  ∀ (cid : Nat) (c : Cmd) (s : State),
    let status (e : Option (Nat × Nat)) : Nat := match e with
      | some (code, _) => stErr code
      | none => stOk
    (s.canRun cid 0x0104 c = true → c.u 0 4 % 2 = 1 → exec (.memMode cid) s = .next (s.running c)) ∧
    (s.canRun cid 0x0104 c = true → c.u 0 4 % 2 ≠ 1 →
      exec (.memMode cid) s = .next ((s.applyMemMode c).reply c stOk 0)) ∧
    (∀ b l, s.canRun cid 0x0C04 c = true → c.targets = b :: l → s.barred c b = none →
      let k := 2 * (s.dieOf b - 32) + c.u 0 1
      let x := s.stk k
      let hard := c.u 1 1 == 1
      let s1 := if hard then s.hardRepair k else s
      let pending := (x.repairs.filter (fun e => !e.2)).take 4096
      let g := s1.devWrite (c.u 8 8) (bytesOfWords (pending.map (fun e => repairWord (s1.stk k) (e.1, hard))))
      exec (.hbmRepair cid) s = .next (g.1.reply c (status g.2) 0)) ∧
    (∀ b l records, s.canRun cid 0x0C05 c = true → s.runningCmd cid = none → c.targets = b :: l →
      s.barred c b = none → s.margining = false →
      exec (.hbmMargin cid records) s = .next ((s.setService (s.namedStack c) true).running c)) ∧
    (∀ records : List (BitVec 32), s.runningCmd cid = some c → c.op = 0x0C05 → records.length = 2176 →
      let g := (s.setService (s.namedStack c) false).devWrite (c.u 8 8) (records.flatMap (fun r => leBytes 4 r.toNat))
      exec (.hbmMargin cid records) s = .next (g.1.reply c (status g.2) 0)) ∧
    (∀ b l, s.canRun cid 0x0D01 c = true → c.targets = b :: l → s.barred c b = none →
      s.diagOk (s.dieOf b) = true →
      let m := s.dieOf b - 32
      let k := 2 * m + c.u 0 1
      let v := (s.stk k).sector (c.u 8 8 / 64)
      ((v.armed.isSome = true ∨ (s.md m).armed < 16) → exec (.eccInject cid) s = .next ((s.setStk k
        ((s.stk k).setSector (c.u 8 8 / 64) { v with
          armed := some ⟨c.u 1 1, c.u 2 1, c.u 3 1, (s.md m).nextSeq⟩ })).reply c stOk 0)) ∧
      (v.armed = none → 16 ≤ (s.md m).armed → exec (.eccInject cid) s = .next (s.reply c stBusy 0)))

/-- With no UPDATE running and none before it, UPDATE loads its segments, takes the vote, which clears the flags it
has read, and enters the vote round, and TRAIN_CFG sets all 16 memory dies; a device that its reads have sealed is
answered so (R244 to R246, R258, R395). The result of a vote round other than 0 skips every segment: no byte of memory
changes, the skip is counted, and the segments say SKIPPED; the result 0 runs the segments in their order, by
State.runSegments (R245, R246). A vote that does not come within VOTE_TIMEOUT ends the UPDATE with its status and logs
it (R245). An UPDATE whose segments are done is answered with its vote and the loss scale that Train.lossRule gives,
once its records are written, its step is closed in the Sowing Log, a Harvest point is made where one is due and its
signal is sent (R246, R247, R257). gs is CLIP over S × N_EFF, each rounded once; every operation of the rule rounds
once to FP32; a parameter takes the results of its command's rule, or stays as it is where one is not finite (R237). A
working copy has the row's greatest magnitude and its scale; an element is rounded once, E4M3 clamped to its greatest
number, a zero positive (R239). What a skipped segment says and when the vote takes its flags (log entry 82), the
steward as the logger of VOTE_TIMEOUT (log entry 41) and the vote's word and group (log entry 81) are the model's
choices. -/
def Obligations.UpdatesRunToTheirEnd : Prop :=
  (∀ (cid : Nat) (c : Cmd) (s : State), s.update = none → s.firstOf [0x0303, 0x0105] c = true →
     (s.canRun cid 0x0105 c = true →
       exec (.trainCfg cid) s = .next ((s.mapTrain (fun t => t.configure c)).reply c stOk 0)) ∧
     (s.canRun cid 0x0303 c = true →
       let l := s.loadSegments c (List.range (c.u 0x0C 4))
       let v := l.1.voteTake.1 ||| (if l.2.any (·.nonfin) then 4 else 0)
       let s1 := (l.1.voteTake.2.running c).mapTrain (fun t => { t with active := true, segDone := 0 })
       (l.1.wseal.isSealed = true → exec (.update cid) s = .next (l.1.refuseSealed c)) ∧
       (l.1.wseal.isSealed = false → exec (.update cid) s = .next
         (({ s1 with update := some ⟨cid, s1.alm.now, (Train.of s).scale, l.2, none, 0, 0, []⟩ } : State).enterVote
           (BitVec.ofNat 8 v))))) ∧
  (∀ (s : State) (u : UpdateRun) (c : Cmd), s.update = some u → s.cmd? u.cid = some c → u.vote = none →
     (∀ (v : VoteRun) (vote : BitVec 8), s.net.vote = some v → v.result = some vote →
       let s1 := ({ s with net := { s.net with vote := none } } : State).mapTrain (fun t => { t with
         vstep := BitVec.ofNat 32 (c.u 0 8), vvalid := true, vote := vote
         skips := if vote = 0 then t.skips else BitVec.ofNat 32 (satInc 0xFFFFFFFF t.skips.toNat) })
       let r := s1.runSegments c u.scale [] u.segs
       (vote ≠ 0 → exec (.voteRoundComplete vote) s = .next { s1 with update := some { u with
         vote := some vote, segs := u.segs.map (fun r => { r with status := 1, nEff := 0 })
         voteBeat := s1.alm.now, before := s.mem } } ∧ s1.mem = s.mem) ∧
       (vote = 0 → exec (.voteRoundComplete vote) s = .next { r.1 with update := some { u with
         vote := some vote, segs := r.2, voteBeat := r.1.alm.now, before := s.mem } })) ∧
     (u.entered.toNat + (Train.of s).vtimeout.toNat ≤ s.alm.now.toNat →
       let t := Train.of s
       let s1 := (s.logErr blkSteward { code := 0x80, src := 12, icount := c.tag.toNat }).mapTrain (fun t =>
         { t with vstep := BitVec.ofNat 32 (c.u 0 8), vvalid := false })
       let s2 := (s1.sowClose (c.u 0 8) ⟨0, t.scale, t.scale, t.clean, 0, 2, false⟩).updateOver 2
       exec .voteTimeout s = .next (s2.reply c 3 (BitVec.ofNat 64 (t.scale.toNat * 2 ^ 32))).endAborts)) ∧
  (∀ (s : State) (u : UpdateRun) (c : Cmd) (vote : BitVec 8), s.update = some u → s.cmd? u.cid = some c →
     u.vote = some vote →
     let s1 := s.mapTrain (Train.lossRule vote)
     let t := Train.of s1
     let s2 := s1.writeRecords (c.u 0x18 8) u.segs
     let point := vote == 0 && s2.isPoint (c.u 0 8)
     let s3 := s2.sowClose (c.u 0 8)
       ⟨u.voteBeat, (Train.of s).scale, t.scale, t.clean, vote, natOf (vote != 0), point⟩
     let s4 := (if point then s3.harvestPoint (c.u 0 8) else s3).updateOver (natOf (vote != 0))
     let s5 := if c.u 9 1 % 2 = 1 then
         s4.cmdSignal blkSteward c (BitVec.ofNat 64 (c.u 0x50 8)) (c.u 0x58 2) else s4
     exec .updateComplete s = .next
       (s5.reply c (if vote = 0 then 1 else 2) (BitVec.ofNat 64 (t.scale.toNat * 2 ^ 32 + vote.toNat))).endAborts) ∧
  (∀ (a b c : Nat) (x y z : ℝ), (f32 a).is x → (f32 b).is y → (f32 c).is z →
     fp32.near (x * y) (f32mul a b) ∧ fp32.near (x + y) (f32add a b) ∧ fp32.near (x - y) (f32sub a b) ∧
     (y ≠ 0 → fp32.near (x / y) (f32div a b)) ∧ fp32.near (x * y + z) (f32fma a b c) ∧
     (0 ≤ x → fp32.near (Real.sqrt x) (f32sqrt a)) ∧
     (f32sign a = if 0 < x then f32One else if x < 0 then 2 ^ 31 + f32One else 0) ∧
     (∀ (scale : BitVec 32) (n : Nat) (S : ℝ), (f32 scale.toNat).is S → ∃ code, fp32.near (S * n) code ∧
       ∀ t, (f32 code).is t → t ≠ 0 → fp32.near (x / t) (gsOf a scale n))) ∧
  (∀ (c : Cmd) (gs grad : Nat) (p : Param),
     let b1 := c.u 0x20 4
     let b2 := c.u 0x28 4
     let rest1 := c.u 0x24 4
     let rest2 := c.u 0x2C 4
     let g := f32mul (grad * 65536) gs
     let stepped (u : Nat) : Nat := f32sub p.w (f32mul (c.u 0x3C 4) (f32fma (c.u 0x40 4) p.w u))
     let kept (w m v : Nat) : Option Param :=
       if [g, w, m, v].all f32fin then some ⟨w, m, v⟩ else none
     (c.u 8 1 = 0 → f32fin p.v = true →
       let m := f32fma b1 p.m g
       applyRule c gs grad p = kept (stepped m) m p.v) ∧
     (c.u 8 1 = 1 →
       let m := f32fma b1 p.m (f32mul rest1 g)
       let v := f32fma b2 p.v (f32mul rest2 (f32mul g g))
       let u := f32div (f32mul m (c.u 0x30 4)) (f32add (f32sqrt (f32mul v (c.u 0x34 4))) (c.u 0x38 4))
       applyRule c gs grad p = kept (stepped u) m v) ∧
     (c.u 8 1 = 2 → f32fin p.v = true →
       let k := f32fma b1 p.m (f32mul rest1 g)
       applyRule c gs grad p = kept (stepped (f32sign k)) (f32fma b2 p.m (f32mul rest2 g)) p.v)) ∧
  (∀ (fmt target : Nat) (ws : List Nat) (t : ℝ) (X : Nat → ℝ), (∀ w ∈ ws, (f32 w).is (X w)) →
     (f32 target).is t → 0 < t →
     let row := copyRow fmt target ws
     (∃ R : ℝ, (f32 row.2.1).is R ∧ (∀ w ∈ ws, |X w| ≤ R) ∧ (R = 0 ∨ ∃ w ∈ ws, R = |X w|) ∧
       (fmt = 4 → (R = 0 → row.1 = f32One) ∧
         (R ≠ 0 → ∃ q, fp32.near (t / R) q ∧ row.1 = if f32P127 < q then f32P127 else q))) ∧
     row.2.2.length = ws.length ∧
     (fmt = 2 → row.1 = f32One ∧ ∀ i < ws.length,
       (X (ws.getD i 0) = 0 → row.2.2.getD i 1 = 0) ∧
       (X (ws.getD i 0) ≠ 0 → ∃ code fl, bf16.gives .nearest (X (ws.getD i 0)) (code, fl) ∧
         row.2.2.getD i 1 = if code = 0x8000 then 0 else code)) ∧
     (fmt = 4 → ∃ S : ℝ, (f32 row.1).is S ∧ ∀ i < ws.length,
       (X (ws.getD i 0) * S = 0 → row.2.2.getD i 1 = 0) ∧
       (X (ws.getD i 0) * S ≠ 0 → ∃ code fl, e4m3.gives .nearest (X (ws.getD i 0) * S) (code, fl) ∧
         row.2.2.getD i 1 = if code = 0x80 then 0 else code)))

/-- The stash commands on a memory die in service, whose reads and writes succeed: STASH_PACK reads its blocks and
writes the compressed stream, and is answered with the stream's length (R253); STASH_UNPACK unpacks record by record,
and is answered with the stream's length, the number of blocks that failed their check, and the first error (R254). -/
def Obligations.StashCommandsRun : Prop :=
  ∀ (cid : Nat) (c : Cmd) (s : State) (b : Nat) (l : List Nat), c.targets = b :: l → s.barred c b = none →
    (s.canRun cid 0x0402 c = true →
      let g := s.devRead (c.u 0 8) (4096 * c.u 0x10 4)
      let out := packStream (c.u 0x10 4) g.2.data
      let w := g.1.devWrite (c.u 8 8) out
      g.2.err = none → w.2 = none →
      exec (.stashPack cid) s = .next (w.1.stashDone (s.dieOf b) c none out.length 0)) ∧
    (s.canRun cid 0x0403 c = true →
      let u := (List.range (c.u 0x10 4)).foldl
        (unpackStep (s.dieOf b) (c.u 0 8) (c.u 8 8)) ⟨s, none, indexBytes (c.u 0x10 4), 0⟩
      exec (.stashUnpack cid) s = .next (u.s.stashDone (s.dieOf b) c u.err u.len u.bad))
/-- On a port in UP or STANDBY, FLIT_TRANSMIT sends a flit: of the replay buffer where a NAK has called for it, else
the new flit that R270 puts next while the replay buffer holds fewer than 2,048, else an idle one. A flit received
adds its codewords of 1 to 15 wrong symbols and those of more to the port's counts; one whose CRC fails, and that has
a SEQ, makes the next flit sent a NAK; a good one gives its ACK, NAK and CTOT, and the packet flit that is next in
sequence and no packet's last joins its packet, while one out of sequence asks for a replay (R266, R267). A port whose
lanes lose lock retrains (R268). Training answers with the port UP, STANDBY or DOWN, with LINK_PEER logged for a wrong
neighbour; a port in STANDBY whose role is active, on a device with a coordinate, goes UP, or is fenced and logged
(R265). A retrain resumes traffic from the exchanged audit, and a failed one is counted and fences the port the third
time (R268, R281). On a port in UP or STANDBY an audit puts its AUDIT flit and a DELAY flit into the port's queue; the
margin check that belongs to it is made while that task of the Gleaning is on and LINK_BUDGET has room for it, and one
that fails is logged as RECAL_FAIL and retrains the port. The peer's AUDIT flit gives the channels' CTOT, keeps the
delay of the exchange, ends the wait of MAINT_EXIT for the port, counts itself, and is compared channel by channel
(R280, R315, R351, R401). What a port does after a failed training (log entry 69), and that the audits are exchanged
once more at the end of a retrain, are the model's choices (log entry 132). -/
def Obligations.LinksCarryFlits : Prop :=
  (∀ (p : Fin 12) (s : State),
     let P := s.port p.val
     let lost : ErrSpec := { code := 0x60, src := 14, unit := p.val }
     (P.live = true →
       (P.resend ≠ 0 → exec (.flitTransmit p) s = .next (s.setPort p.val P.sendAgain)) ∧
       (∀ b, P.resend = 0 → P.replay.length < 2048 → P.next = some b →
         exec (.flitTransmit p) s = .next (s.setPort p.val (P.sendNew b))) ∧
       (P.resend = 0 → (2048 ≤ P.replay.length ∨ P.next = none) →
         exec (.flitTransmit p) s = .next (s.setPort p.val P.idle)) ∧
       (∀ x : Received,
         let f := x.flit
         let P1 : TorusPort := { P with
           corr := satAdd 0xFFFFFFFF P.corr (wordsCorrected x), uncorr := satAdd 0xFFFF P.uncorr (wordsLost x) }
         let P2 := (P1.control f).1
         let P3 : TorusPort := { P2 with expect := (P2.expect + 1) % 4096 }
         (f.good = false → exec (.flitReceive p x) s
           = .next (s.setPort p.val { P1 with nakOut := P1.nakOut || f.sequenced })) ∧
         (f.good = true → (P1.control f).2 = false →
           (f.sequenced = false → exec (.flitReceive p x) s = .next (s.setPort p.val P2)) ∧
           (f.sequenced = true → f.seq.toNat ≠ P2.expect → exec (.flitReceive p x) s
             = .next ((s.setPort p.val P2).setPort p.val { P2 with nakOut := true })) ∧
           (f.kind = 1 → f.seq.toNat = P2.expect → f.eop = false → exec (.flitReceive p x) s
             = .next ((s.setPort p.val P2).setPort p.val { P3 with
                 used := Table.set 0 P3.used f.vc.val (Table.get 0 P3.used f.vc.val + 1)
                 rx := Table.set [] P3.rx f.vc.val
                   ((if f.sop then [] else Table.get [] P3.rx f.vc.val) ++ f.valid) })))) ∧
       exec (.laneLockLost p) s = .next (s.retrainPort p.val)) ∧
     (∀ peer : Peer, P.state = .training →
       let P1 := P.met peer
       exec (.linkTrainingComplete p false peer) s = .next (s.setPort p.val { P with state := .down }) ∧
       (s.peerOk p.val peer.coord = true → exec (.linkTrainingComplete p true peer) s = .next (s.setPort p.val
         (P1.fresh (if !s.net.coordValid || P1.role == 2 then .standby else .up)))) ∧
       (s.peerOk p.val peer.coord = false → exec (.linkTrainingComplete p true peer) s
         = .next ((s.setPort p.val { P1 with state := .down, queue := [] }).logErr (portBlock p.val) lost))) ∧
     (∀ peer : Peer, P.state = .standby → P.role = 1 → s.net.coordValid = true →
       (s.peerOk p.val peer.coord = true → exec (.linkTrainingComplete p true peer) s
         = .next (s.setPort p.val { P.met peer with state := .up })) ∧
       (s.peerOk p.val peer.coord = false → exec (.linkTrainingComplete p true peer) s
         = .next (((s.setPort p.val (P.met peer)).fencePort p.val).logErr (portBlock p.val) lost))) ∧
     (∀ audit : Audit, P.state = .retrain →
       exec (.retrainComplete p true audit) s = .next (s.setPort p.val
         (P.resume audit (if s.net.coordValid && P.role == 1 && !P.fromStandby then .up else .standby))) ∧
       (P.failed < 2 → exec (.retrainComplete p false audit) s
         = .next (s.setPort p.val { P with failed := P.failed + 1 })) ∧
       (2 ≤ P.failed → exec (.retrainComplete p false audit) s = .next
         (((s.setPort p.val { P with failed := P.failed + 1 }).fencePort p.val).logErr (portBlock p.val)
           { code := 0x62, src := 14, unit := p.val })))) ∧
  (∀ (p : Fin 12) (s : State),
     let P := s.port p.val
     P.live = true →
     let s1 := s.queueAudit p.val
     let P1 := s1.port p.val
     let s2 := s1.setPort p.val { P1 with spent := spend s1.alm.total auditBytes P1.spent }
     (s1.port p.val).queue = P.queue ++ [controlFlit, delayFlit] ∧
     (∀ ok, s.marginTurn p.val = false → exec (.creditAudit p ok) s = .next s1) ∧
     (s.marginTurn p.val = true → exec (.creditAudit p true) s = .next s2) ∧
     (s.marginTurn p.val = true → exec (.creditAudit p false) s = .next
       ((s2.logErr (portBlock p.val) { code := 0xD1, src := 14, unit := p.val }).retrainPort p.val)) ∧
     (∀ free ctot delay,
       let P1 := ctot.zipIdx.foldl (fun (P : TorusPort) e => if e.2 < 8 then P.regain e.2 e.1.toNat else P) P
       let s1 := s.setPort p.val { P1 with delay := some delay }
       let s2 : State := { s1 with net := { s1.net with unheard := s1.net.unheard.filter (· != p.val) } }
       let l := (portLds p.val).headD 0
       let s3 := s2.setLd l { s2.ld l with audits := satInc 0xFFFFFFFF (s2.ld l).audits }
       exec (.auditFlit p free ctot delay) s = .next
         ((free.take 8).zipIdx.foldl (fun s e => s.auditVc p.val e.2 e.1) s3)))

/-- A packet that takePacket takes from the inbox: a WRITE writes its bytes and is acknowledged, a READ is answered
with up to 4,096 bytes, a SIGNAL sets an increment on its way, and each of the three is answered ERROR_RSP with the
code and the offset where it fails; the WRITE that claims the hold area that a drain reads is told to wait, which the
spec says of the Harvest's data and the model does by an answer of its own (log entry 92). A READ_RSP, a WRITE_ACK and
an ERROR_RSP of a remote request complete the request of their slot; an ERROR_RSP of a collective ends it (R269, R276,
R282, R372). An increment lands in its tile's cycle; one whose die is absent is logged and answered with an error
(R150, R152; log entry 126). Where a SIGNAL carries its descriptor and count (log entry 33), where an ERROR_RSP
carries the offset of the byte that failed (log entry 54), and that a READ has its length in ARG (log entry 62) are
the model's choices. -/
def Obligations.PacketsReachTheirDie : Prop :=
  (∀ (k : Packet) (s s1 : State),
    (s.takePacket k 0x01 = some s1 →
      let w := s1.localWrite k.addr.toNat k.data
      (s1.mustWait k = true → exec (.write k) s = .next (s1.errorAt k waitCode 0)) ∧
      (s1.mustWait k = false → w.2 = none →
        exec (.write k) s = .next ((w.1.asksHolder k).pushOut (w.1.answerPacket k 0x04 0 []))) ∧
      (∀ code off, s1.mustWait k = false → w.2 = some (code, off) →
        exec (.write k) s = .next (w.1.errorAt k code off))) ∧
    (s.takePacket k 0x02 = some s1 →
      let g := s1.localRead k.addr.toNat (min 4096 k.arg.toNat)
      (g.2.err = none → exec (.read k) s = .next (g.1.pushOut (g.1.answerPacket k 0x03 0 g.2.data))) ∧
      (∀ code off, g.2.err = some (code, off) → exec (.read k) s = .next (g.1.errorAt k code off))) ∧
    (s.takePacket k 0x06 = some s1 →
      (sigBad k.arg = true → exec (.signalPacket k) s = .next
        ((s1.logErr blkSteward { code := 0x24, src := 0, addr := k.arg.toNat }).errorAt k 0x24 0)) ∧
      (sigBad k.arg = false →
        exec (.signalPacket k) s = .next { s1 with fabric := { s1.fabric with sigs := s1.fabric.sigs ++
          [⟨none, sigDie k.arg, sigTile k.arg, k.arg.getLsbD 26, bits k.arg 5 0, bits k.addr 15 0, some k⟩] } })) ∧
    (s.takePacket k 0x03 = some s1 → exec (.readRsp k) s = .next (s1.answered k k.data 0)) ∧
    (s.takePacket k 0x04 = some s1 → k.tag ≠ tagRot → k.tag ≠ tagHarvest →
      exec (.writeAck k) s = .next (s1.answered k [] 0)) ∧
    (s.takePacket k 0x05 = some s1 →
      (k.tag = tagColl → exec (.errorRsp k) s
        = .next (s1.collFail (k.id.toNat % 256) (if bits k.arg 7 0 = 0x64 then 3 else 4) (bits k.arg 7 0))) ∧
      (k.tag ≠ tagColl → k.tag ≠ tagRot → k.tag ≠ tagHarvest → exec (.errorRsp k) s
        = .next (s1.answered k (offsetBytes (bits k.arg 31 16)) (bits k.arg 7 0))))) ∧
  (∀ (d : Fin 32) (t : Fin 144) (ctx : Bool) (flag : Fin 64) (c : Nat) (count : BitVec 16) (x : Sig) (s : State),
    s.fabric.sigs.find? (fun x => x.is d.val t.val ctx flag.val count.toNat) = some x →
    let off : State := { s with fabric := { s.fabric with sigs := s.fabric.sigs.erase x } }
    (s.absent d.val = true → exec (.flagIncrement d t ctx flag ⟨c, count⟩) s = .next
      ((off.logErr (memAt (d.val / 8) (t.val % 4)) { code := 0x50, src := 15, unit := d.val }).sigAnswer x 0x50)) ∧
    (s.absent d.val = false → s.reached d.val t.val c = true →
      let s1 := off.land d.val t.val c
      exec (.flagIncrement d t ctx flag ⟨c, count⟩) s = .next ((s1.setTile d.val t.val
        ((s1.tile d.val t.val).addPend 0 (c + 1) (.flagInc ctx flag.val count.toNat))).sigAnswer x 0)))

/-- A COLL begins on a slot where none runs and no earlier one waits, and waits otherwise. A packet of data that
takePacket takes goes to the owner, the direct exchange or the ring, or is late, on the link die that took it in,
where its collective is over; EXCLUDED excludes this member at the owner that says so, INCLUDED marks its shard as
added. At the deadline the owner algorithm excludes the contributions that are not here, finishing once every other
has been added, and before it nothing happens; a collective that is complete ends, and one that is not does not (R285,
R288, R291, R293, R295). A write of the launch register does what writeLaunch says. A VOTE packet that takePacket
takes while a vote round runs: a child's word is ORed into the round's, and the parent's word, once every child has
been heard, is the result and goes down to the children; a packet of neither changes nothing more (R294). Where COLL
and VOTE packets carry their fields (log entries 75 and 81), and that a COLL waits for its slot (log entry 79), are
the model's choices. -/
def Obligations.CollectivesRunToTheirEnd : Prop :=
  (∀ (s s1 : State) (k : Packet) (slot : Fin 256),
     let i := k.id.toNat % 256
     (∀ (cid : Nat) (c : Cmd), s.canRun cid 0x0501 c = true →
       (s.collRun c.cSlot = none → s.firstOnSlot c = true → exec (.coll cid) s = .next (s.beginColl c)) ∧
       ((s.collRun c.cSlot).isSome = true → exec (.coll cid) s = .next s)) ∧
     (∀ (l : Fin 8) (w : BitVec 64), exec (.ldLaunch l w) s = .next (s.writeLaunch l.val w)) ∧
     (∀ e : Delivered, s.takeDelivered k 0x10 = some (e, s1) →
       (s1.collOf k = none → exec (.collData k) s = .next (s1.countLate e.ld)) ∧
       (∀ c r j, s1.collOf k = some (c, r, j) →
         (r.algo = 4 → exec (.collData k) s = .next (s1.ownerData i c r j e)) ∧
         (r.algo ≠ 4 → c.cDirect = true → exec (.collData k) s = .next (s1.directData i c r j k)) ∧
         (r.algo ≠ 4 → c.cDirect = false → exec (.collData k) s = .next (s1.ringData i c r k)))) ∧
     (∀ c r j, s.takePacket k 0x11 = some s1 → s1.collOf k = some (c, r, j) →
       (bits k.arg 7 0 = ctrlExcluded → exec (.collCtrl k) s = .next (s1.excludedBy i c j)) ∧
       (bits k.arg 7 0 = ctrlIncluded → r.outs.getD j 1 = 0 → exec (.collCtrl k) s
         = .next (s1.setRun i { r with outs := updAt r.outs j (fun _ => 1) }))) ∧
     (∀ r c, s.collRun slot.val = some r → s.cmd? r.cid = some c →
       (r.algo = 4 → c.cFlag 0 = true → r.finished = false → r.ended = false →
         c.overdue (s.nowAt (blkLd 0)) = true →
         let s2 := (s.missed slot.val c r).foldl (fun s j => s.exclude slot.val c j) s
         exec (.collDeadline slot) s
           = .next (if (s2.collRun slot.val).any CollRun.allIn then s2.ownerFinish slot.val c else s2)) ∧
       (c.overdue (s.nowAt (blkLd 0)) = false → exec (.collDeadline slot) s = .next s) ∧
       (r.complete = true → exec (.collComplete slot) s = .next (s.endColl slot.val r c)) ∧
       (r.complete = false → exec (.collComplete slot) s = .next s))) ∧
  (∀ (k : Packet) (s s1 : State) (v : VoteRun), s.takePacket k 0x21 = some s1 → s1.net.vote = some v →
     let word := BitVec.ofNat 8 (bits k.arg 7 0)
     (v.due.contains k.src = true → exec (.vote k) s
       = .next (s1.voteOn { v with word := v.word ||| word, due := v.due.filter (· != k.src) })) ∧
     (v.due = [] → v.parent = some k.src → v.result = none →
       let s2 : State := { s1 with net := { s1.net with vote := some { v with result := some word } } }
       exec (.vote k) s = .next (s2.pushVote v.children word)) ∧
     (v.due.contains k.src = false → v.parent ≠ some k.src → exec (.vote k) s = .next s1))

/-- A ROTATE that no other precedes reads its schedule whole: a legal one begins with round 0, one that is not legal
ends with ROT_INVALID logged, and one whose read fails ends with its error. A chunk of the round that runs is written
or discarded as rotWrite says, and one of a later round stays where it is. A round with every entry done is followed
by the next, the last one by the end of the Rotation, and one with an entry left waits (R300, R301). That a ROTATE
waits for a running one, and where a chunk's packet carries its round, are the model's choices (log entry 80). -/
def Obligations.RotationsGoRoundByRound : Prop :=
  ∀ (cid : Nat) (c : Cmd) (k : Packet) (s s1 : State),
    (s.canRun cid 0x0601 c = true → s.net.rot = none → s.firstOf [0x0601] c = true →
      let s2 : State := { s with net := { s.net with rotGen := nextGen s.net.rotGen } }
      let n := c.u 8 4
      let g := s2.devRead (c.u 0 8) (32 * n)
      let raw := (List.range n).map (fun j => (g.2.data.drop (32 * j)).take 32)
      let l := raw.map rotEntry
      let blank : RotRun := ⟨cid, 0, 0, [], 0⟩
      (∀ code off, g.2.err = some (code, off) →
        exec (.rotate cid) s = .next (g.1.endRotate blank (stErr code))) ∧
      (g.2.err = none → g.1.scheduleOk raw = false → exec (.rotate cid) s = .next
        ((g.1.logErr (blkLd 0) { code := 0x67, src := 14, icount := c.tag.toNat, addr := c.u 0 8 }).endRotate blank
          (stErr 0x67))) ∧
      (g.2.err = none → g.1.scheduleOk raw = true →
        let s3 := g.1.running c
        let s4 : State := { s3 with net := { s3.net with
          rot := some ⟨cid, 0, l.foldl (fun m e => max m (e.round + 1)) 0, l, 0⟩ } }
        exec (.rotate cid) s = .next (s4.beginRound 0))) ∧
    (∀ r, s.takePacket k 0x12 = some s1 → s1.net.rot = some r → k.gen.toNat = s1.net.rotGen →
      (r.round < rotRoundOf k → exec (.rotData k) s = .next s) ∧
      (rotRoundOf k ≤ r.round → exec (.rotData k) s = .next (s1.rotWrite r k))) ∧
    (∀ r, s.net.rot = some r →
      let allDone := (r.entries.filter (fun e => e.round == r.round)).all (·.done)
      (allDone = true → r.round + 1 < r.rounds →
        exec .rotationRoundComplete s = .next (s.beginRound (r.round + 1))) ∧
      (allDone = true → r.rounds ≤ r.round + 1 →
        exec .rotationRoundComplete s = .next (s.endRotate { r with round := r.rounds } r.status)) ∧
      (allDone = false → exec .rotationRoundComplete s = .next s))

/-- A beat adds 1 to ALM_NOW and to the copy of every die, each of which keeps its Season and counts its cycles from
this moment, in which the warden does a beat's part of its own work (R309 to R311). How many CCLK cycles lie between
two moments is free (log entry 133), and what of an option-store access or of a fuse's blowing falls into one beat is
the model's choice (log entry 104). At a multiple of the SYNC_PERIOD in force the configurations that executed before
it take effect, and elsewhere nothing happens (R323). A window of the Gleaning opens at its start beat and is gone at
its end beat (R320, R406). ALM_CFG is answered at once and waits for the boundary where it takes effect;
ALM_SEASON_START is armed (R317, R323). At the boundary of its START a quiescent device enters the Season and answers
OK, and another answers BUSY and only drops the pending start (R317, R318). That a copy counts in the boundary's own
event (log entry 97), that the fields of ALM_CFG take effect in the order of their commands (log entry 96) and the
count of beats since reset (log entry 139) are the model's choices. -/
def Obligations.BeatsAndAlmanacCommands : Prop :=
  (∀ s : State,
     let a := s.alm
     let s1 := s.moment.setAlm { a with
       now := a.now + 1, phase := 0, total := a.total + 1, sinceBeat := a.sinceBeat + 1 }
     let t := s1.setCopies (fun b x => { x with now := x.now + 1, cycles := s1.cyclesOn b + 1, mark := s1.free })
     let due := a.pend.filter (fun p => decide (p.since < a.total))
     let rest := a.pend.filter (fun p => !decide (p.since < a.total))
     exec .beatBoundary s = .next t.wardenTurn ∧
     (∀ b : Fin 64, (t.almOf b).now = (s.almOf b).now + 1 ∧ (t.almOf b).season = (s.almOf b).season) ∧
     (a.now.toNat % max 1 a.period.toNat = 0 → exec .almCfgApply s
       = .next (s.setAlm { due.foldl Almanac.apply a with pend := rest }).copyAlm) ∧
     (a.now.toNat % max 1 a.period.toNat ≠ 0 → exec .almCfgApply s = .next s) ∧
     (∀ (j : Nat) (w : GleanWin), a.windows[j]? = some w →
       (w.stop.toNat ≤ a.now.toNat → exec (.gleanWindowEdge j) s
         = .next (s.setAlm { a with windows := a.windows.eraseIdx j })) ∧
       (w.start.toNat ≤ a.now.toNat → a.now.toNat < w.stop.toNat → exec (.gleanWindowEdge j) s
         = .next (s.setAlm { a with windows := updAt a.windows j (fun w => { w with isOpen := true }) })) ∧
       (a.now.toNat < w.start.toNat → a.now.toNat < w.stop.toNat → exec (.gleanWindowEdge j) s = .next s))) ∧
  (∀ (cid : Nat) (c : Cmd) (s : State),
     (s.canRun cid 0x0A01 c = true → exec (.almCfg cid) s
       = .next ((s.setAlm { s.alm with pend := s.alm.pend ++ [pendingOf s c] }).reply c stOk s.stamp)) ∧
     (s.canRun cid 0x0A02 c = true → exec (.almSeasonStart cid) s
       = .next ((s.setAlm { s.alm with seasons := s.alm.seasons ++ [⟨c.cid,
           BitVec.ofNat 64 (max (c.u 0 8) (s.alm.now.toNat + 1)), BitVec.ofNat 16 (c.u 8 2),
           BitVec.ofNat 8 (c.u 0x0A 1)⟩] }).running c)) ∧
     (∀ p, s.alm.seasons.find? (fun p => decide (p.start.toNat ≤ s.alm.now.toNat)) = some p →
       s.runningCmd p.cid = some c →
       let dropped := s.setAlm { s.alm with seasons := s.alm.seasons.filter (fun q => q.cid != p.cid) }
       (s.quiescent = true →
         exec .seasonStartBoundary s = .next ((s.enterSeason p).reply c stOk (s.enterSeason p).stamp)) ∧
       (s.quiescent = false → exec .seasonStartBoundary s = .next (dropped.reply c stBusy dropped.stamp))))

/-- The master, on a device with a coordinate, sends the BEAT packets of a multiple of SYNC_PERIOD to its children
once, and none of beat 0 (R314, R317). A BEAT packet for the device leaves its port's buffers: a follower that is not
FREE disciplines itself by a fresh one of its parent port, in the beat of its arrival, and sends it on, and any other
is lost and counted (R283, R314 to R316). A follower in ACQUIRE or LOCKED whose packets stop goes to HOLDOVER and logs
ALM_SYNC_LOST (R316). A master without its reference goes to HOLDOVER and logs ALM_REF_LOST; one that has never had it
stays in ACQUIRE at nominal frequency and logs once; the reference's return ends HOLDOVER. A PPS edge 10^7 ± 1
reference cycles after another makes PPS valid; with the reference, a master in ACQUIRE is LOCKED by an edge at phase
0 and slews at another; PPS that stops is logged as ALM_PPS_LOST (R313, R316). That an edge's phase is its operand,
and that the master's ADJ is 0 but for the slew, are the model's choices (log entry 133). -/
def Obligations.AlmanacsFollowTheirReference : Prop :=
  ∀ (s : State),
    let a := s.alm
    (∀ depart : BitVec 48,
      let b := a.now.toNat - a.now.toNat % max 1 a.period.toNat
      (a.role = roleMaster → s.net.coordValid = true → b ≠ 0 → b ≠ a.beatSent → exec (.beatSend depart) s
        = .next ((s.setAlm { a with beatSent := b }).sendBeats 0 b depart.toNat)) ∧
      ((b = 0 ∨ b = a.beatSent) → exec (.beatSend depart) s = .next s)) ∧
    (∀ (p : Fin 12) (k : Packet) (phase : BitVec 12) (depart : BitVec 48) e, s.net.arrived.find? (fun e =>
          e.port == p.val && e.pkt == k && k.ptype == 0x20 && k.dest == s.net.coord) = some e →
      let s1 := s.freeBuffers p.val e.vc k
      let s2 : State := { s1 with net := { s1.net with arrived := s1.net.arrived.erase e } }
      let count (s : State) : State := s.setAlm { s.alm with staleBeats := satInc 0xFFFF s.alm.staleBeats }
      let good := s2.fresh (portLd p.val) k && s2.genTest k == .deliver
      let mine := s2.alm.role == roleFollower && s2.alm.state != almFree && s2.alm.parent.toNat == p.val
      (good = true → mine = true → exec (.beat p k phase depart) s
        = .next ((s2.discipline p.val k e.beat phase.toNat).sendBeats (k.tag.toNat + 1) k.arg.toNat depart.toNat)) ∧
      (good = true → mine = false → exec (.beat p k phase depart) s = .next (count s2)) ∧
      (good = false → exec (.beat p k phase depart) s = .next (count (s2.countStale (portLd p.val))))) ∧
    (a.role = roleFollower → a.state = almAcquire ∨ a.state = almLocked →
      (a.miss.toNat * a.period.toNat ≤ a.sinceBeat → exec .almSyncLost s = .next ((s.setAlm { a with
        state := almHoldover, syncLost := satInc 0xFFFF a.syncLost, inBand := 0 }).logErr blkWarden
          { code := 0x72, src := 17 })) ∧
      (a.sinceBeat < a.miss.toNat * a.period.toNat → exec .almSyncLost s = .next s)) ∧
    (a.role = roleMaster →
      (a.refOk = true → exec .almRefLost s = .next ((s.setAlm { a with
        refOk := false, state := almHoldover, refLost := satInc 0xFFFF a.refLost }).logErr blkWarden
          { code := 0x70, src := 17 })) ∧
      (a.refOk = false → a.refSeen = false → a.lostLogged = false → exec .almRefLost s = .next ((s.setAlm { a with
        state := almAcquire, adj := 0, lostLogged := true, refLost := satInc 0xFFFF a.refLost }).logErr blkWarden
          { code := 0x70, src := 17 })) ∧
      (a.refOk = false → exec .almRefReturn s = .next (s.setAlm { a with
        refOk := true, refSeen := true, state := if a.state = almHoldover then almAcquire else a.state })) ∧
      (∀ e : PpsEdge,
        let ok := a.ppsOk || (decide (9999999 ≤ e.refCycles) && decide (e.refCycles ≤ 10000001) && decide (1 ≤
            a.ppsRun))
        let a1 : Almanac := { a with ppsOk := ok, ppsRun := a.ppsRun + 1 }
        let steers := a.refOk && ok && a.state == almAcquire
        (steers = true → e.phase = 0 → exec (.almPpsEdge e) s = .next (s.setAlm { a1 with state := almLocked, adj :=
          0 })) ∧
        (steers = true → e.phase ≠ 0 → exec (.almPpsEdge e) s = .next (s.setAlm { a1 with
          state := almAcquire, adj := BitVec.ofInt 32 (if e.phase.toNat < 2048 then -100000 else 100000) })) ∧
        (steers = false → exec (.almPpsEdge e) s = .next (s.setAlm a1))) ∧
      (a.ppsOk = true → exec .almPpsLost s
        = .next ((s.setAlm { a with ppsOk := false, ppsRun := 0 }).logErr blkWarden { code := 0x71, src := 17 })))

/-- While the steward answers the node host, a doorbell sets PROD of an enabled ring and changes no other, and a write
of a ring's configuration does what Ring.configure says (R335). The entry of the ring whose turn it is: a PCIe error
on its fetch stops the ring and is logged, a command breakpoint that it meets stops the ring and is logged, one that
its ring does not hold whole waits, and any other is accepted; a ring whose turn it is not accepts nothing (R336,
R337, R354). -/
def Obligations.RingsTakeCommands : Prop :=
  ∀ (ring : Fin 8) (value : BitVec 64) (s : State),
    let r := s.ring ring.val
    (s.hostUp = true →
      (r.en = true → exec (.sdDoorbell ring value) s
        = .next (s.setRing ring.val { r with prod := bits value 17 0 % r.units })) ∧
      (r.en = false → exec (.sdDoorbell ring value) s = .next s) ∧
      exec (.ringEnable ring value) s = .next (s.setRing ring.val (r.configure value))) ∧
    (∀ fetched, s.ringTurn ≠ some ring.val → exec (.commandAccept ring fetched) s = .next s) ∧
    (s.ringTurn = some ring.val →
      exec (.commandAccept ring none) s = .next ((s.setRing ring.val { r with fetchErr := true }).logErr blkSteward
        { code := 0xC0, src := 18, unit := ring.val, hold := true, addr := r.cqBase.toNat * 4096 + 64 * r.head }) ∧
      (∀ raw : List Byte,
        let tag := leField (fitBytes 8 raw) 4 2
        (s.cmdBreak ring.val r tag = true →
          let s1 := s.setRing ring.val { r with brk := true }
          let s2 : State := { s1 with sd := { s1.sd with cbrkCtrl := s1.sd.cbrkCtrl ||| 0x10 } }
          exec (.commandAccept ring (some raw)) s
            = .next (s2.logErr blkSteward { code := 0xC1, src := 18, unit := ring.val, icount := tag })) ∧
        (s.cmdBreak ring.val r tag = false →
          ((s.readEntry raw).units ≤ r.avail →
            exec (.commandAccept ring (some raw)) s = .next (s.acceptEntry ring r (s.readEntry raw))) ∧
          (r.avail < (s.readEntry raw).units → exec (.commandAccept ring (some raw)) s = .next s))))

/-- A command that may run has its effect and is answered: NOP with ALM_STAMP; REG_WRITE with the entries that it has
written, REG_READ with the register, or TARGET_DOWN, or ADDR_UNMAPPED logged (R342, R346); PROG_LOAD, RUN_START and
RUN_CTRL with what each named die gives (R340, R347, R348); RUN_ABORT once no UPDATE runs (R349); DMA_COPY with the
bytes copied and, where asked, its signal (R350); MAINT_ENTER on a quiescent device, and BUSY on another; MAINT_EXIT,
with checking on again, once every port's audit has run, and BUSY while another maintenance command runs; MAINT_RESET
before its reset (R345, R351); DBG_MODE with what each named die and the node host's own mode give (R352, R442). Which
sites answer and what stands in a reply with several statuses (log entry 62), how far a DMA_COPY goes before a failure
(log entry 64), what an abort ends besides (log entry 65) and the corners of MAINT_ENTER, MAINT_EXIT and DBG_MODE (log
entry 66) are the model's choices. -/
def Obligations.StewardCommandsRun : Prop :=
  ∀ (cid : Nat) (c : Cmd) (s : State),
    (s.canRun cid 0 c = true → exec (.nopCommand cid) s = .next (s.reply c stOk (s.stampAt blkSteward))) ∧
    (s.canRun cid 0x0106 c = true → exec (.regWrite cid) s = .next (State.replyCount (s.writeEntries c) c)) ∧
    (s.canRun cid 0x0107 c = true →
      let a := c.u 0 8
      (∀ b off, s.locate a = .reg b off → s.regDown b = false →
        exec (.regRead cid) s = .next (s.reply c stOk (s.readReg b off))) ∧
      (∀ b off, s.locate a = .reg b off → s.regDown b = true → exec (.regRead cid) s = .next (s.reply c stDown 0)) ∧
      ((∀ b off, s.locate a ≠ .reg b off) → exec (.regRead cid) s = .next
        ((s.logErr blkSteward { code := 0x20, src := 0, icount := c.tag.toNat, addr := a }).reply c (stErr 0x20) 0))) ∧
    (s.canRun cid 0x0201 c = true →
      exec (.progLoad cid) s = .next (State.replyCount (s.eachDie c (fun s d => s.loadDie c d)) c)) ∧
    (s.canRun cid 0x0301 c = true →
      exec (.runStart cid) s = .next (State.replyCount (s.eachDie c (fun s d => s.runDie c d)) c)) ∧
    (s.canRun cid 0x0302 c = true →
      exec (.runCtrl cid) s = .next (State.replyCount (s.eachDie c (fun s d => s.ctrlDie c d)) c)) ∧
    (s.canRun cid 0x0304 c = true →
      (s.abortAll.update = none → exec (.runAbort cid) s = .next (s.abortAll.reply c stOk 0)) ∧
      (s.abortAll.update.isSome = true → exec (.runAbort cid) s = .next (s.abortAll.running c))) ∧
    (∀ (l : List Byte) (t : State) (n : Nat), s.canRun cid 0x0401 c = true →
      (c.u 0 1 = 0 → l.length = c.u 0x20 8) →
      (s.dmaMove c l = (t, n, none) →
        (c.u 1 1 % 2 ≠ 1 → exec (.dmaCopy cid l) s = .next (t.reply c stOk (BitVec.ofNat 64 n))) ∧
        (c.u 1 1 % 2 = 1 → exec (.dmaCopy cid l) s = .next
          ((t.cmdSignal blkSteward c (BitVec.ofNat 64 (c.u 0x28 8)) (c.u 0x30 2)).reply c stOk (BitVec.ofNat 64 n)))) ∧
      (∀ code, s.dmaMove c l = (t, n, some code) →
        exec (.dmaCopy cid l) s = .next (t.reply c (stErr code) (BitVec.ofNat 64 n)))) ∧
    (s.canRun cid 0x0C01 c = true →
      (s.quiescent = true → s.sd.mode = 0 → exec (.maintEnter cid) s = .next ((s.setMode 1).reply c stOk 0)) ∧
      (s.quiescent = true → s.sd.mode ≠ 0 → exec (.maintEnter cid) s = .next (s.reply c stOk 0)) ∧
      (s.quiescent = false → exec (.maintEnter cid) s = .next (s.reply c stBusy 0))) ∧
    (s.canRun cid 0x0C02 c = true → s.runningCmd cid = none →
      let other := s.sd.cmds.any (fun x => x.cid != c.cid && x.stage == .running && x.op / 256 == 0x0C)
      (other = true → exec (.maintExit cid) s = .next (s.reply c stBusy 0)) ∧
      (other = false → s.checkAgain.audited = true →
        exec (.maintExit cid) s = .next ((s.checkAgain.setMode 0).reply c stOk 0)) ∧
      (other = false → s.checkAgain.audited = false → exec (.maintExit cid) s = .next (s.checkAgain.running c))) ∧
    (s.runningCmd cid = some c → c.op = 0x0C02 →
      (s.audited = true → exec (.maintExit cid) s = .next ((s.setMode 0).reply c stOk 0)) ∧
      (s.audited = false → exec (.maintExit cid) s = .next s)) ∧
    (s.canRun cid 0x0C03 c = true → exec (.maintReset cid) s = .next ((s.reply c stOk 0).wantWarm 2 0xFF)) ∧
    (s.canRun cid 0x0F01 c = true →
      let on := c.u 0 1 == 1
      let host := c.u 1 1 == 1
      let x := s.eachDie c (fun s b => s.debugDie c on host b)
      exec (.dbgMode cid) s = .next ((x.1.debugHost on host).reply c x.2.1 (c.count x.2.2)))

/-- While the steward answers the node host, SD_BOOT_CTRL and the command breakpoint take their writes (R353, R354)
and an access to BAR0 does what State.bar0 says (R355). Through an open BAR2 or BAR4 of a READY device an access that
the host map does not forbid does what State.barAccess says at its address (R333, R443); through a closed one a read
is unsupported and a write is dropped. A reset of the PCIe link disables the rings and closes BAR2 and BAR4 (R331). A
good frame clears its module's count of failed tries; a failed one adds to it and to the quadrant hub's count; the
ninth in succession takes the module down, loses what it was writing and is logged as UCIE_DOWN (R328, R329). -/
def Obligations.HostAccessesReachTheirWindow : Prop :=
  (∀ (value : BitVec 64) (off : BitVec 34) (len : Nat) (data : List Byte) (write : Bool) (s : State),
     exec .pcieHostReset s = .next s.hostReset ∧
     (s.hostUp = true →
       exec (.sdBootGo value) s = .next (s.bootCtrl value) ∧
       exec (.cbrkResume value) s = .next (s.cbrkWrite value) ∧
       ((write = true → data.length = len) →
         let o := off.toNat
         let last := o + (len - 1)
         let a4 := s.sd.aper.toNat * 2 ^ 32 + o
         let map2 := s.mapForbids ([o % 2 ^ 30 / 2 ^ 24, last % 2 ^ 30 / 2 ^ 24].flatMap (blockBits write))
         let map4 := s.mapForbids ([s.locate a4, s.locate (a4 + (len - 1))].flatMap (targetBits write))
         exec (.hostBarAccess 0 write off len data) s = .next (s.bar0 write (o % 0x2000000) len data) ∧
         ((s.sd.bars && s.sd.boot == 2) = true →
           (map2 = false → exec (.hostBarAccess 1 write off len data) s
             = .next (s.barAccess write (0x7F0000000000 + o % 2 ^ 30) len data)) ∧
           (map4 = false → exec (.hostBarAccess 2 write off len data) s = .next (s.barAccess write a4 len data))) ∧
         ((s.sd.bars && s.sd.boot == 2) = false → ∀ bar : Fin 3, bar ≠ 0 →
           exec (.hostBarAccess bar write off len data) s
             = .next (s.barAnswer (if write then .done else .unsupported)))))) ∧
  (∀ (m : Fin 9) (lost : List (Nat × Nat)) (s : State), s.module m.val = 2 →
     let n := Table.get 0 s.sd.modRetry m.val
     let put (k : Nat) : State := { s with sd := { s.sd with modRetry := Table.set 0 s.sd.modRetry m.val k } }
     let hub := 4 * (m.val / 2)
     exec (.ucieFrame m ⟨true, lost⟩) s = .next (put 0) ∧
     (n < 8 →
       (m.val = 8 → exec (.ucieFrame m ⟨false, lost⟩) s = .next (put (n + 1))) ∧
       (m.val ≠ 8 → exec (.ucieFrame m ⟨false, lost⟩) s = .next ((put (n + 1)).setMd hub
         { (put (n + 1)).md hub with retries := satInc 0xFFFFFFFF (s.md hub).retries }))) ∧
     (8 ≤ n →
       let s1 : State := { put 0 with sd := { (put 0).sd with
         modules := Table.set 0 s.sd.modules m.val 0, cmds := s.sd.cmds.map (fun c => c.lose lost) } }
       exec (.ucieFrame m ⟨false, lost⟩) s
         = .next (s1.logErr blkSteward { code := 0x51, src := 16, unit := m.val })))

/-- SOW_CFG takes its parameters, and answers BUSY while a Harvest or a restore runs (R382). SOW_OPEN, with every main
context at rest and the log on, writes the step's record, opens the step and seeds every converter, and answers OK or
the error of its write; otherwise it answers BUSY (R362 to R364). With the buddy's ports up the records that its
mirror missed are sent again (R365). HARVEST_CFG takes its parameters, and answers BUSY while a Harvest runs;
HARVEST_TAKE makes the next committed step a Harvest point (R366, R382). A point that is due, with everything at rest,
reads its regions: an error ends the Harvest, as does a copy that does not fit, and otherwise the image is written to
the staging area, where an error ends it too (R366, R371). The copy begins by asking for the holder's manifests, and
each phase follows the answers to the one before, a claim that the holder's drain has turned away being made again;
the last asks the holder for its check, and the Harvest is done once that has come (R366, R368): the division into
phases, the claim and the exchange about them are the model's choice (log entry 92). The holder answers a source with
its verdict: an area that agrees with its Tallies is marked COMPLETE (R368, R371). HARVEST_DRAIN begins, or answers
BUSY with no complete area, and ends with what the area holds (R372). HARVEST_RESTORE begins on a quiescent device
where none runs, or answers BUSY; it goes on once all its reads of the holder have their answers, an error response
ending it, and a drained copy is taken from the operands (R373; log entry 93). That SOW_OPEN with the log off is BUSY
is the model's choice (log entry 89). -/
def Obligations.SowAndHarvestRun : Prop :=
  (∀ (cid : Nat) (c : Cmd) (s : State),
     (s.canRun cid 0x0901 c = true →
       (s.harvesting = true → exec (.sowCfg cid) s = .next (s.reply c stBusy 0)) ∧
       (s.harvesting = false →
         let s1 : State := { s with sow := { s.sow with
           base := BitVec.ofNat 48 (c.u 0 8), records := BitVec.ofNat 32 (c.u 8 4), dir := BitVec.ofNat 8 (c.u 0xC 1)
           en := c.u 0xD 1 % 2 == 1, mirrorOut := BitVec.ofNat 48 (c.u 0x10 8)
           mirrorIn := BitVec.ofNat 48 (c.u 0x18 8) } }
         exec (.sowCfg cid) s = .next (s1.reply c stOk 0))) ∧
     (s.canRun cid 0x0902 c = true →
       let w := s.writeRecord (c.u 0 8) (openRecordOf s c)
       let s1 : State := { w.1 with sow := { w.1.sow with
         step := BitVec.ofNat 64 (c.u 0 8), isOpen := true, replay := c.u 0x11 1 % 2 == 1, any := true } }
       let s2 := s1.seedAll (BitVec.ofNat 64 (c.u 8 8))
       ((s.mainIdle && s.sow.en) = false → exec (.sowOpen cid) s = .next (s.reply c stBusy 0)) ∧
       ((s.mainIdle && s.sow.en) = true →
         (w.2 = none → exec (.sowOpen cid) s = .next (s2.reply c stOk 0)) ∧
         (∀ code off, w.2 = some (code, off) → exec (.sowOpen cid) s = .next (s2.reply c (stErr code) 0)))) ∧
     (s.buddyUp = true → s.net.coordValid = true →
       exec .sowRemirror s = .next (s.remirrorN (s.sow.lag.filter (·.failed)).length)) ∧
     (s.canRun cid 0x0801 c = true →
       (s.harvesting = true → exec (.harvestCfg cid) s = .next (s.reply c stBusy 0)) ∧
       (s.harvesting = false →
         let s1 : State := { s with hrv := { s.hrv with
           interval := BitVec.ofNat 32 (c.u 0 4), auto := c.u 4 1 % 2 == 1, regionAddr := BitVec.ofNat 48 (c.u 8 8)
           regions := BitVec.ofNat 32 (c.u 0x10 4), stage := BitVec.ofNat 48 (c.u 0x18 8)
           hold := BitVec.ofNat 48 (c.u 0x20 8), peerHold := BitVec.ofNat 48 (c.u 0x28 8)
           area := BitVec.ofNat 64 (c.u 0x30 8) } }
         exec (.harvestCfg cid) s = .next (s1.reply c stOk 0))) ∧
     (s.canRun cid 0x0802 c = true →
       let s1 : State := { s with hrv := { s.hrv with take := true } }
       exec (.harvestTake cid) s = .next (s1.reply c stOk 0))) ∧
  (∀ s : State, s.hrv.pointDue = true → s.hrv.state ≠ 1 → s.hrv.state ≠ 2 → s.captureQuiet = true →
     (∀ s1 a, s.takePoint.readRegions = (s1, .inr a) → exec .harvestCapture s = .next (s1.harvestFail 0x83 a)) ∧
     (∀ s1 l, s.takePoint.readRegions = (s1, .inl l) →
       (s1.harvestFits l = false → exec .harvestCapture s = .next (s1.harvestFail 0x82 0)) ∧
       (s1.harvestFits l = true →
         let w := s1.devWrite s1.hrv.stage.toNat s1.image
         (w.2 = none → exec .harvestCapture s = .next { w.1 with hrv := { w.1.hrv with state := 1, phase := 0 } }) ∧
         (∀ code off, w.2 = some (code, off) →
           exec .harvestCapture s = .next (w.1.harvestFail 0x83 (w.1.hrv.stage.toNat + off)))))) ∧
  (∀ s : State,
     (s.hrv.state = 1 → exec .harvestPhaseEnd s = .next s.askHeads) ∧
     (s.hrv.state = 2 → s.hrv.left = 0 →
       (s.hrv.waits = true → exec .harvestPhaseEnd s = .next (s.beginPhase 2)) ∧
       (s.hrv.waits = false → s.hrv.phase < 6 → exec .harvestPhaseEnd s = .next (s.beginPhase (s.hrv.phase + 1))) ∧
       (s.hrv.waits = false → s.hrv.phase = 6 → exec .harvestPhaseEnd s = .next s.askCheck) ∧
       (s.hrv.waits = false → 6 < s.hrv.phase → exec .harvestPhaseEnd s = .next s.harvestDone)) ∧
     (s.hrv.state = 2 → s.hrv.left ≠ 0 → exec .harvestPhaseEnd s = .next s)) ∧
  (∀ (area : Bool) (k : Packet) (s s1 s2 : State) (m : List Byte),
     s.hrv.checks.find? (fun k => k.addr.toNat == s.stateWord (natOf area)) = some k →
     s.readManifest (s.holdArea (natOf area)) = (s1, .inl m) →
     let good := leField m 0 2 == 1 && leField m 0x16 1 == 0 && manifestTally m
     (good = false → exec (.harvestTallyCheck area) s
       = .next ((s1.tallyBad (entriesIn? m)).verdict k 0x84 (entriesIn? m))) ∧
     (good = true → s1.checkShards (s.holdArea (natOf area)) (indexed (shardsOf m)) = (s2, none) →
       exec (.harvestTallyCheck area) s = .next ((s2.markArea (s.holdArea (natOf area)) 1).verdict k 0)) ∧
     (∀ j, good = true → s1.checkShards (s.holdArea (natOf area)) (indexed (shardsOf m)) = (s2, some (.inl j)) →
       exec (.harvestTallyCheck area) s = .next ((s2.tallyBad j).verdict k 0x84 j))) ∧
  (∀ (cid : Nat) (c : Cmd) (head entries : List Byte) (shards : List (List Byte)) (s : State),
     (s.runningCmd cid = none →
       (s.canRun cid 0x0803 c = true →
         (s.drainArea (c.u 0 1) = none → exec (.harvestDrain cid) s = .next (s.reply c stBusy 0)) ∧
         (∀ a, s.drainArea (c.u 0 1) = some a →
           let s1 : State := { s with hrv := { s.hrv with drain := a } }
           exec (.harvestDrain cid) s = .next (s1.running c))) ∧
       (s.canRun cid 0x0804 c = true →
         ((s.quiescent = false ∨ s.hrv.restore.isSome = true) →
           exec (.harvestRestore cid head entries shards) s = .next (s.reply c stBusy 0)) ∧
         (s.quiescent = true → s.hrv.restore = none →
           exec (.harvestRestore cid head entries shards) s = .next ((s.startRestore c).running c)))) ∧
     (s.runningCmd cid = some c →
       (c.op = 0x0803 → exec (.harvestDrain cid) s = .next (s.drainEnd c)) ∧
       (∀ r, c.op = 0x0804 → s.hrv.restore = some r →
         let m := fitBytes 0x100 head ++ entries
         (r.left ≠ 0 → exec (.harvestRestore cid head entries shards) s = .next s) ∧
         (∀ code, r.left = 0 → r.err = some code → exec (.harvestRestore cid head entries shards) s
           = .next ((s.endRestore.restoreFails c.verifyOnly).reply c (stErr code) 0)) ∧
         (r.left = 0 → r.err = none →
           (c.fromHost = false → exec (.harvestRestore cid head entries shards) s = .next (s.restoreStep c r)) ∧
           (c.fromHost = true → s.manifestFits m (c.u 8 8) = false →
             exec (.harvestRestore cid head entries shards) s = .next (s.noManifest c)) ∧
           (c.fromHost = true → s.manifestFits m (c.u 8 8) = true →
             exec (.harvestRestore cid head entries shards) s = .next (s.endRestore.restoreWith c m shards
               (r.bytes s.sow.mirrorOut.toNat (512 * s.sow.records.toNat))))))))

/-- A write of P_ERR_TAIL frees records of the die's ring, and one of P_ERR_ACK with bit 0 closes its handler (R385,
R387); none comes while the die rails are off (R469). SEAL_VERIFY answers once its span is over and every verdict is
given, and waits until then (R399). ERR_INJECT on a die that may be tested is answered, then logged with the error's
flag and, for SELFTEST_OVERDUE, SUPPLY_FAULT, INPUT_VOLTAGE and CLK_LOST, followed by its mark, the loss of its rails
or its reset; on another die it answers MODE (R388, R396, R399, R407). Which marks lie in a span, and that the command
waits in its queue (log entry 42), that the answer to ERR_INJECT comes before what the entry causes (log entry 44),
and which rails an injected entry names (log entry 156), are the model's choices. A control parity error, a fuse
parity error and an armed watchdog that expires are logged (R388, R417, R435). -/
def Obligations.ErrorsAreLoggedAndFreed : Prop :=
  ∀ (b : Fin 64) (value : BitVec 64) (cid : Nat) (c : Cmd) (s : State),
    (s.diesUp = true →
      exec (.pErrTailWrite b value) s = .next (s.setDie (s.dieOf b) { s.die (s.dieOf b) with
        errs := (s.die (s.dieOf b)).errs.free (value.toNat % 64) }) ∧
      (value.getLsbD 0 = true → exec (.pErrAck b value) s = .next (s.closeHandler (s.dieOf b))) ∧
      (value.getLsbD 0 = false → exec (.pErrAck b value) s = .next s)) ∧
    (s.diesUp = false → exec (.pErrTailWrite b value) s = .next s ∧ exec (.pErrAck b value) s = .next s) ∧
    (s.canRun cid 0x0D02 c = true →
      let open? := c.u 0 2 == s.alm.season.toNat && decide (s.alm.now.toNat ≤ c.u 0x10 8)
      (open? = false → s.verdictsGiven = true →
        exec (.sealVerify cid) s = .next (s.reply c stOk (s.sealVerify (c.u 0 2) (c.u 8 8) (c.u 0x10 8)))) ∧
      ((open? = true ∨ s.verdictsGiven = false) → exec (.sealVerify cid) s = .next s)) ∧
    (∀ x l, s.canRun cid 0x0D04 c = true → c.targets = x :: l → s.barred c x = none →
      let d := s.dieOf x
      let t := (s.reply c stOk 0).logErr d { code := c.u 0 1, src := c.u 2 1, unit := c.u 1 1, icount := c.tag.toNat
                                             inj := true, cond := c.u 0 1 == 0x31 }
      (s.diagOk d = false → exec (.errInject cid) s = .next (s.reply c stMode 0)) ∧
      (s.diagOk d = true → exec (.errInject cid) s = .next (((t.injectedMark d (c.u 0 1)).injectedSupply d (c.u 1 1)
        (c.u 0 1)).injectedLoss d (c.u 1 1) (c.u 0 1)))) ∧
    exec (.ctrlParity b) s = .next (s.logErr b.val { code := 0x90, src := 0 }) ∧
    exec .fuseParity s = .next (s.logErr blkWarden { code := 0x91, src := 17 }) ∧
    (s.clk.armed = true → exec .watchdog s = .next (s.logErr blkWarden { code := 0x92, src := 17 })) ∧
    (s.clk.armed = false → exec .watchdog s = .next s)

/-- GLEAN_CFG changes the fields its SET names; GLEAN_WINDOW adds a window, and answers BUSY with four pending;
TELEM_CFG takes its parameters and begins at record 0 (R405, R406). SELFTEST_RUN answers what each named die gives
(R407). While the task is on, a tile at rest on a die not retired is tested and a failure is logged; at the end of a
period the tiles left untested are overdue and, if there are any, logged and marked in the seal's log (R399, R403).
While the task is on, each rail named goes up a step below eight, and the steps reach the option store when a day has
passed since the last time and they differ from what it holds or will hold (R404). With telemetry on, a record of the
readings and counts is written every PERIOD beats at its place in the ring, with its CRC, and the next record's number
is one higher (R405). When a tile is overdue and which words of a record come from counts of the device (log entry
45), and that the steps reach the store at the first hour of change behind a day (log entry 46), are the model's
choices. -/
def Obligations.GleaningRuns : Prop :=
  (∀ (cid : Nat) (c : Cmd) (s : State),
    (s.canRun cid 0x0B01 c = true →
      let g := s.glean
      let set (i : Nat) : Bool := c.u 0 4 / 2 ^ i % 2 == 1
      let s1 : State := { s with glean := { g with
        tasks := if set 0 then BitVec.ofNat 4 (c.u 4 2) else g.tasks
        hbm := if set 1 then BitVec.ofNat 16 (c.u 6 2) else g.hbm
        link := if set 2 then BitVec.ofNat 16 (c.u 8 2) else g.link
        period := if set 3 then BitVec.ofNat 16 (c.u 0x0A 2) else g.period } }
      exec (.gleanCfg cid) s = .next (s1.reply c stOk 0)) ∧
    (s.canRun cid 0x0B02 c = true →
      let waiting := (s.alm.windows.filter (fun w => !w.isOpen)).length
      let s1 : State := { s with alm := { s.alm with windows := s.alm.windows ++
        [⟨BitVec.ofNat 64 (c.u 0 8), BitVec.ofNat 64 (c.u 8 8), BitVec.ofNat 4 (c.u 0x10 2), false⟩] } }
      (waiting < 4 → exec (.gleanWindow cid) s = .next (s1.reply c stOk 0)) ∧
      (4 ≤ waiting → exec (.gleanWindow cid) s = .next (s.reply c stBusy 0))) ∧
    (s.canRun cid 0x0B03 c = true →
      let s1 : State := { s with glean := { s.glean with
        telBase := BitVec.ofNat 48 (c.u 0 8), telRecords := BitVec.ofNat 32 (c.u 8 4)
        telPeriod := BitVec.ofNat 32 (c.u 0x0C 4), telEn := c.u 0x10 1 % 2 == 1, telSeq := 0
        telAt := s.alm.total } }
      exec (.telemCfg cid) s = .next (s1.reply c stOk 0)) ∧
    (∀ failed, s.canRun cid 0x0D05 c = true → exec (.selftestRun cid failed) s
      = .next (State.replyCount (s.eachDie c (fun s d => s.testDie c failed d)) c))) ∧
  (∀ (d : Fin 32) (s : State), s.glean.tasks.getLsbD 2 = true → (s.die d.val).retired = false →
    (∀ t : Fin 144, (s.tile d.val t.val).loadable = true →
      let s1 := s.setTile d.val t.val { s.tile d.val t.val with untested := false, overdue := false }
      exec (.selftest d t none) s = .next s1 ∧
      ∀ src, exec (.selftest d t (some src)) s
        = .next (s1.logErr d.val { code := 0x32, src := src.val, unit := t.val })) ∧
    (let late := (List.range 144).filter (fun t => (s.tile d.val t).untested)
     let s1 := (List.range 144).foldl (fun s t => s.setTile d.val t
       { s.tile d.val t with untested := true, overdue := late.contains t }) s
     (late = [] → exec (.selftestOverdue d) s = .next s1) ∧
     (late ≠ [] → exec (.selftestOverdue d) s
       = .next ((s1.logErr d.val { code := 0xD0, src := 19, detail := late.length }).mark d.val 4 1)) ∧
     (∀ t : Fin 144, (s1.tile d.val t.val).overdue = (s.tile d.val t.val).untested))) ∧
  (∀ (low : List (Fin 64)) (s : State), s.glean.tasks.getLsbD 3 = true →
    let s1 := (allBlocks.filter (fun b => low.any (fun x => x.val == b))).foldl State.raiseRail s
    ((s1.glean.hours < 24 ∨ s1.trimUnsaved = false) → exec (.agingGuardband low) s
      = .next { s1 with glean := { s1.glean with hours := min 24 (s1.glean.hours + 1) } }) ∧
    (24 ≤ s1.glean.hours → s1.trimUnsaved = true → exec (.agingGuardband low) s
      = .next { s1.programBoth false s1.storedImage with glean := { s1.glean with hours := 1 } }) ∧
    (∀ x : Fin 64, (s1.die x.val).guard
      = if x ∈ low ∧ (s.die x.val).guard < 8 then (s.die x.val).guard + 1 else (s.die x.val).guard)) ∧
  (∀ (r : TelemetryReading) (s : State), s.glean.telEn = true →
    let body := fitBytes 0xF8 (bytesOfWords (s.telemetryWords r))
    let a := s.glean.telBase.toNat + s.glean.telSeq % max 1 s.glean.telRecords.toNat * 256
    let s1 := (s.devWrite a (body ++ leBytes 8 (crc32 body).toNat)).1
    let due := s.glean.telAt + s.glean.telPeriod.toNat
    (due ≤ s.alm.total → exec (.telemetryRecord r) s
      = .next { s1 with glean := { s1.glean with telSeq := s.glean.telSeq + 1, telAt := due } }) ∧
    (s.alm.total < due → exec (.telemetryRecord r) s = .next s))

/-- A rise of the always-on rail with RESET_N high starts the device cold, and a fall leaves it off (R417, R425,
R426). A RESET_N pulse of 120 ns or more, with the standby supply on, clears the device but for what a cold reset
keeps, and one shorter than 80 ns does nothing; its release starts the device (R417, R425). The crystal that runs ends
its wait, with the rails brought up where the input is in range, and one that does not is hung; a retry waits again
and is logged, the sixth failure is OSC_FAIL (R426, R427). The end of the start-up trains the modules and the stacks,
tests the engines, sets the mode and answers READY (R426). A warm reset carries out the source that came first and
absorbs the others while the watchdog is armed, and absorbs all of them otherwise (R417 to R420, R424); behind the
load of the option store it restarts the runtime, but for the fourth in a row without a READY, and images that do not
pass the measurement are discarded (R419, R424). The return of WCLK runs a warm sequence (R416). That sources outside
READY are absorbed and what counts as a fourth sequence (log entry 99), and that the load of the store is over before
the next event of the start-up that needs it (log entry 104), are the model's choices. -/
def Obligations.ResetsRunTheirSequence : Prop :=
  ∀ (fuses : List (FuseRead × FuseRead)) (s : State),
    (s.pwr.resetN = false → exec (.powerOnReset true fuses) s = .next ((s.cold true).coldStart 0 fuses)) ∧
    exec (.powerOnReset false fuses) s = .next (s.cold true) ∧
    (∀ ns : Nat, s.pwr.standby = true → 120 ≤ ns → exec (.resetN ns) s
      = .next { s.cold false with pwr := { (s.cold false).pwr with resetN := true } }) ∧
    (∀ ns : Nat, ns < 80 → exec (.resetN ns) s = .next s) ∧
    (s.pwr.resetN = true →
      let s1 : State := { s with pwr := { s.pwr with resetN := false } }
      exec (.resetNRelease fuses) s = .next (s1.coldStart 1 fuses)) ∧
    (s.endLoad.clk.step = .crystalWait →
      let s0 := s.endLoad
      let m := s0.mark32
      let s1 : State := { m.2 with clk := { m.2.clk with onRc := false, wclkOk := true, xtal := m.1, step :=
          .waitVin } }
      exec (.oscWaitEnd false) s = .next { s0 with clk := { s0.clk with step := .crystalHung } } ∧
      (vinOk s0.pwr.vin.toNat = true → exec (.oscWaitEnd true) s = .next s1.railsUp) ∧
      (vinOk s0.pwr.vin.toNat = false → exec (.oscWaitEnd true) s = .next s1)) ∧
    (s.clk.step = .crystalHung →
      let s1 := s.escape .wclk
      let failed : State := { s1 with clk := { s1.clk with step := .oscFail } }
      let again : State := { s1 with clk := { s1.clk with
        step := .crystalWait, oscRetries := s1.clk.oscRetries + 1, oscWait := min 128 (2 * s1.clk.oscWait) } }
      (5 ≤ s1.clk.oscRetries → exec .oscRetry s = .next (failed.logErr blkWarden { code := 0xA4, src := 17 })) ∧
      (s1.clk.oscRetries < 5 → exec .oscRetry s = .next (again.logErr blkWarden { code := 0xA3, src := 17 }))) ∧
    (∀ (trained : BitVec 32) (checks : PowerUp), s.endLoad.clk.step = .starting →
      let s1 := s.endLoad.trainModules checks.modules
      let s2 := (s1.trainStacks (if s1.clk.inWarm then s1.clk.train else List.range 16) trained).testAll checks.failed
      let s3 := s2.setMode (if s2.opt.fault then 2 else 0)
      let s4 : State := { s3 with
        clk := { s3.clk with step := .ready, armed := true, loop := 0, train := [] }
        sd := { s3.sd with bars := true, gpio := true } }
      exec (.powerUpReady trained checks) s = .next (s4.setBoot 2).readyFault.repairOptions) ∧
    (∀ source block rest pass, s.clk.due = (source, block) :: rest →
      let s1 : State := { s with clk := { s.clk with due := [] } }
      let s2 : State := { s1.warmClear with clk := { s1.warmClear.clk with inWarm := true } }
      (s.clk.armed = true → exec (.warmReset fuses pass) s
        = .next ((s2.warmSequence source block fuses pass).absorb rest)) ∧
      (s.clk.armed = false → exec (.warmReset fuses pass) s = .next (s1.absorb ((source, block) :: rest)))) ∧
    (s.clk.step = .loading → s.opt.load ≠ 0 →
      let s1 := s.loadOptions
      s.endLoad = (if 4 ≤ s1.clk.loop then s1.warmGoesOn else s1.restartRuntime s1.clk.passes) ∧
      (s.clk.loop < 4 → s.clk.passes = false → s.endLoad.fuse.bundle = [] ∧ s.endLoad.sd.boot = 0)) ∧
    (∀ again : Restart, s.clk.step = .wclkLost →
      let s1 := s.letGo
      let s2 : State := { s1 with clk := { s.clk with
        onRc := false, wclkOk := true, locked := s.clk.bypass.isEmpty, inWarm := false, due := [] } }
      exec (.wclkReturn again) s
        = .next ((s2.warmSequence 6 blkWarden again.fuses again.measured).absorb s.clk.due))

/-- A count of a clock below half of what its monitor expects, or above one and a half times that, is a loss where the
PLL that makes it runs and nothing otherwise, as is its lock detector's report; a loss of the torus reference or of
WCLK counts once (R414, R416). A count of the torus reference in range shows it present: the link dies' PLLs lock
again, and the Almanac, if it is still in the HOLDOVER of the loss, goes to ACQUIRE, or to FREE if that is where it
was (R316, R416). A PLL on bypass that locks again leaves the bypass, and with none left on its die the die is taken
back, a memory die training its stacks; one that does not lock leaves its die held in reset, a link die with its ports
fenced (R20, R202, R416). Where a loss is logged, what its escape to bypass counts as, and that a monitor's window has
the cycles of its nominal rate, are the model's choices (log entry 98). -/
def Obligations.LostClocksAreCaught : Prop :=
  ∀ (b : Fin 64) (k : Clock) (n : Nat) (s : State),
    let d := s.dieOf b.val
    let out := s.clk.misses k n
    (out = true ↔ 2 * n < s.clk.expected k ∨ 3 * s.clk.expected k < 2 * n) ∧
    (k ≠ .ref156 → k ≠ .wclk →
      (out = true → s.pllRuns d k = true → exec (.clockMonitorWindow b k n) s = .next (s.clockLost d k 0xA0)) ∧
      (s.pllRuns d k = false → exec (.clockMonitorWindow b k n) s = .next s) ∧
      (out = false → exec (.clockMonitorWindow b k n) s = .next s)) ∧
    (k = .wclk → exec (.clockMonitorWindow b k n) s
      = .next (if out ∧ s.clk.wclkOk then s.clockLost 61 .wclk 0xA0 else s)) ∧
    (k = .ref156 →
      (out = true → exec (.clockMonitorWindow b k n) s
        = .next (if s.clk.ref156 then s.clockLost 61 .ref156 0xA0 else s)) ∧
      (out = false → s.clk.ref156 = true → exec (.clockMonitorWindow b k n) s = .next s) ∧
      (∀ was, out = false → s.clk.ref156 = false → s.clk.almWas = some was →
        let rest := s.clk.bypass.filter (fun e => e.2 != clockNum .lclk)
        exec (.clockMonitorWindow b k n) s = .next { s with
          clk := { s.clk with ref156 := true, almWas := none, bypass := rest, locked := rest.isEmpty }
          alm := { s.alm with state := if s.alm.state ≠ 3 then s.alm.state else if was = 0 then 0 else 1 } })) ∧
    (s.pllRuns d k = true → exec (.pllUnlock b k) s = .next (s.clockLost d k 0xA1)) ∧
    (s.pllRuns d k = false → exec (.pllUnlock b k) s = .next s) ∧
    (s.clk.bypass.contains (d, clockNum k) = true →
      let rest := s.clk.bypass.filter (fun e => e != (d, clockNum k))
      let s1 : State := { s with clk := { s.clk with bypass := rest, locked := rest.isEmpty } }
      let free := s1.setDie d { s1.die d with held := s.clk.step == .failed && s.sd.result == 5 }
      let shut := s.setDie d { s.die d with held := true }
      (∀ x : Relock, x.locked = true → rest.any (fun e => e.1 == d) = true →
        exec (.pllRelock b k x) s = .next s1) ∧
      (∀ x : Relock, x.locked = true → rest.any (fun e => e.1 == d) = false → exec (.pllRelock b k x) s = .next (
        if 32 ≤ d ∧ d < 48 ∧ !free.absent d then free.trainMd (d - 32) x.stack0 x.stack1 else free)) ∧
      (∀ x : Relock, x.locked = false → exec (.pllRelock b k x) s
        = .next (if 48 ≤ d ∧ d < 56 then shut.fenceLd (d - 48) else shut)))
/-- A commit that carries its key in a maintenance mode programs the staged image into both copies of the option
store, with OSTORE_WLOCK blown is ignored and logged, and while an earlier one runs is ignored; any other changes
nothing (R424, R445). SEC_IDENTITY and SEC_ATTEST answer at RES_ADDR what a device with an identity has, the report
with an ECDSA signature by the identity key, and one without an identity refuses both (R447, R448): the key's
derivation, the nonce and the certificate are free values (log entry 14). A fuse command waits for one that runs; one
that would leave no key slot is refused (R438, R442), and a key bundle whose read fails or that fails a check blows
nothing and is answered so (R439). A blow goes word by word; a word whose read-back differs ends it with
FUSE_BLOW_FAIL, and a blow that ends is answered with what it has written in force, debug mode being left where the
lock level rises (R437, R442); how many beats a word takes is free (log entry 104). JTAG, on a device whose dies have
power, takes an instruction that the lock level allows, and another selects BYPASS and is logged (R442, R469); the
instruction kept is the model's own state (log entry 106). An I3C write to the device's address sets the pointer; a
read gives the register there, or 0 where none is served, and moves on; a transfer to another address changes nothing
(R425, R469). -/
def Obligations.OptionAndSecurityCommandsRun : Prop :=
  (∀ (value : BitVec 64) (s : State),
     let asked := value.getLsbD 0 && bits value 63 48 == 0x4F50 && s.maint
     (asked = true → s.ostoreLock = true →
       exec (.optionCommit value) s = .next (s.logErr blkWarden { code := 0xE2, src := 17 })) ∧
     (asked = true → s.ostoreLock = false → s.opt.writes.any (·.host) = false →
       exec (.optionCommit value) s = .next (s.programBoth true s.opt.stage)) ∧
     (asked = true → s.ostoreLock = false → s.opt.writes.any (·.host) = true → exec (.optionCommit value) s = .next s) ∧
     (asked = false → exec (.optionCommit value) s = .next s)) ∧
  (∀ (cid : Nat) (c : Cmd) (s : State),
     (s.canRun cid 0x0E02 c = true →
       (s.idValid = true → exec (.secIdentity cid) s
         = .next (s.answerAt c (c.u 0 8) (s.publicKeyBytes ++ certificateBytes) (BitVec.ofNat 64
           certificateBytes.length))) ∧
       (s.idValid = false → exec (.secIdentity cid) s = .next (s.refuse c 0xE4 0))) ∧
     (s.canRun cid 0x0E01 c = true →
       let body := s.reportBody (c.params.take 32)
       let sig := s.take.2.identitySign s.take.1 body
       (s.idValid = true → exec (.secAttest cid) s = .next (s.take.2.answerAt c (c.u 0x20 8) (body ++ sig) 0)) ∧
       (s.idValid = false → exec (.secAttest cid) s = .next (s.refuse c 0xE4 0))) ∧
     (∀ miss : Option FuseMiss, s.fuse.job.isSome = true →
       (s.canRun cid 0x0E03 c = true → exec (.secFuseBlow cid miss) s = .next s) ∧
       (s.canRun cid 0x0E04 c = true → exec (.secKeyProvision cid miss) s = .next s)) ∧
     (∀ miss : Option FuseMiss, s.canRun cid 0x0E03 c = true → s.fuse.job = none →
       (c.u 0 1 = 3 → s.slotRemains (c.u 2 2) = false → exec (.secFuseBlow cid miss) s = .next (s.refuse c 0xE6 0)) ∧
       ((c.u 0 1 = 3 → s.slotRemains (c.u 2 2) = true) → exec (.secFuseBlow cid miss) s
         = .next (s.startBlow c miss (s.fieldBits (c.u 0 1) (c.u 2 2))))) ∧
     (∀ miss : Option FuseMiss, s.canRun cid 0x0E04 c = true → s.fuse.job = none →
       let g := s.devRead (c.u 0 8) 288
       (∀ code off, g.2.err = some (code, off) →
         exec (.secKeyProvision cid miss) s = .next (g.1.reply c (stErr code) 0)) ∧
       (g.2.err = none →
         (∀ k, g.1.provisionFails g.2.data = some k →
           exec (.secKeyProvision cid miss) s = .next (g.1.refuse c 0xE5 k)) ∧
         (g.1.provisionFails g.2.data = none →
           exec (.secKeyProvision cid miss) s = .next (g.1.startBlow c miss (provisionBits g.2.data))))) ∧
     (∀ (miss : Option FuseMiss) (e : Nat × BitVec 32) (l : List (Nat × BitVec 32)),
       s.startBlow c miss [] = s.reply c stOk 0 ∧
       (s.startBlow c miss (e :: l)).fuse.job = some ⟨c.cid, e :: l, [], miss, Config.blowBeats s.free + 1⟩)) ∧
  (∀ (s : State) (j : FuseJob) (w : Nat) (v : BitVec 32) (rest : List (Nat × BitVec 32)),
     s.fuse.job = some j → j.todo = (w, v) :: rest →
     let b := s.blowWord w v j.miss
     let done := j.done ++ [(w, v)]
     (1 < j.left → s.fuseTurn = { s with fuse := { s.fuse with job := some { j with left := j.left - 1 } } }) ∧
     (j.left ≤ 1 → b.2 = false → s.fuseTurn = b.1.endBlow j j.done (some w)) ∧
     (j.left ≤ 1 → b.2 = true → rest = [] → s.fuseTurn = b.1.endBlow j done none) ∧
     (j.left ≤ 1 → b.2 = true → rest ≠ [] → ∃ n, s.fuseTurn.fuse.job = some { j with
       todo := rest, done := done, left := n }) ∧
     (∀ c bad, s.runningCmd j.cid = some c →
       let s1 := ({ s with fuse := { s.fuse with job := none } } : State).shadowWords j.done
       let s2 := if s.debugLevel < s1.debugLevel then s1.levelRaised else s1
       s2.runningCmd j.cid = some c →
       s.endBlow j j.done bad = (match bad with
         | some w => s2.refuse c 0xE7 w
         | none => s2.reply c stOk 0))) ∧
  (∀ s : State,
     (∀ j : JtagInstr, s.diesUp = true →
       let bypassed : State := { s with pwr := { s.pwr with jtag := .bypass } }
       (jtagAllowed s.debugLevel j = true →
         exec (.jtagInstruction j) s = .next { s with pwr := { s.pwr with jtag := j } }) ∧
       (jtagAllowed s.debugLevel j = false →
         exec (.jtagInstruction j) s = .next (bypassed.logErr blkWarden { code := 0xE1, src := 17 }))) ∧
     (∀ (target : BitVec 7) (data : BitVec 16), s.wardenOn = true → s.opt.load = 0 → target.toNat = s.optI3c →
       let a := 8 * s.pwr.i3cPtr.toNat
       exec (.i3cTransfer ⟨target, true⟩ data) s = .next { s with pwr := { s.pwr with i3cPtr := data } } ∧
       exec (.i3cTransfer ⟨target, false⟩ data) s = .next { s with pwr := { s.pwr with
         i3cPtr := s.pwr.i3cPtr + 1, i3cData := if i3cServed a then s.readWarden a else 0 } }) ∧
     (∀ (h : I3cHead) (data : BitVec 16), h.target.toNat ≠ s.optI3c → exec (.i3cTransfer h data) s = .next s))

/-- While the warden is on: an input in range is kept, and brings the rails up where the start-up waits for it; one
outside the range for 5 µs or less changes nothing, one below 36 V for longer turns the device off, and any other for
longer is logged and turns off the stages it reaches (R454, R455). A supply fault is logged and turns off the die or
the group that it feeds, and one of the standby stage turns the device off (R455). Low coolant is kept with the pin,
logged after its debounce, and turns every die off but the warden after 2 s; its return is kept (R463, R464). A READY
device sets the pump's duty from the hottest reading (R463). A poll of temperatures gives each die with power its
reading and what it does (R466). The mean input power of each window is kept; above 16.0 kW all four quadrants are
throttled and LIMITING is set, below 15.5 kW they are released and it is clear, and between them neither changes
(R457). GPIO0 to GPIO3 give READY, SEALED, a MODE other than OPERATE and the Almanac LOCKED, the others are low, and
all are high-impedance until they are driven (R470). Which stages an input out of range reaches (log entry 107), that
the flow is forced from the pin's edge on (log entry 108), and how a duty between two percents is rounded (log entry
17) are the model's choices. -/
def Obligations.PowerAndCoolingAreWatched : Prop :=
  (∀ (s : State), s.wardenOn = true →
     (∀ mv, vinOk mv = true →
       let s1 : State := { s with pwr := { s.pwr with vin := BitVec.ofNat 16 mv } }
       (s.clk.step ≠ .waitVin → exec (.vinInRange mv) s = .next s1) ∧
       (s.clk.step = .waitVin → exec (.vinInRange mv) s = .next s1.railsUp) ∧
       (∀ us stages, exec (.inputVoltage mv us stages) s = .next s1)) ∧
     (∀ mv us stages, vinOk mv = false →
       let s1 : State := { s with pwr := { s.pwr with vin := BitVec.ofNat 16 (min 65535 mv) } }
       let s2 := s1.logErr blkWarden { code := 0xB9, src := 17 }
       (us ≤ 5 → exec (.inputVoltage mv us stages) s = .next s) ∧
       (5 < us → mv < 36000 → exec (.inputVoltage mv us stages) s = .next (s.cold true)) ∧
       (5 < us → 36000 ≤ mv → exec (.inputVoltage mv us stages) s
         = .next (((List.range 5).filter (fun g => stages.getLsbD g && s2.busOn g)).foldl State.groupOff s2))) ∧
     (∀ g : Fin 64,
       let s1 := s.logErr blkWarden { code := 0xB8, src := 17, unit := g.val }
       (s.railOn (s.dieOf g.val) = true → exec (.supplyFault true g) s = .next (s1.powerOff (s.dieOf g.val))) ∧
       (g.val < 5 → s.busOn g.val = true → exec (.supplyFault false g) s = .next (s1.groupOff g.val)) ∧
       (g.val = 5 → exec (.supplyFault false g) s = .next s1.standbyLost)) ∧
     exec .coolOkDeassert s = .next { s with pwr := { s.pwr with pinLow := true } } ∧
     exec .coolOkAssert s
       = .next { s with pwr := { s.pwr with pinLow := false, coolGone := false, coolOk := s.pwr.rails } } ∧
     (s.pwr.rails = true → s.pwr.pinLow = true → s.pwr.coolGone = false →
       let s1 : State := { s with pwr := { s.pwr with
         coolOk := false, coolGone := true, lost := if s.pwr.lost = -1 then s.pwr.lost else s.pwr.lost + 1 } }
       exec .coolLost s = .next (s1.logErr blkWarden { code := 0xB2, src := 17 })) ∧
     (s.pwr.coolGone = true → s.pwr.pinLow = true → exec .coolLostShutdown s = .next (s.allOff [blkWarden])) ∧
     (s.sd.boot = 2 → exec .pumpDutyUpdate s = .next { s with pwr := { s.pwr with
       duty := BitVec.ofNat 8 (dutyAt (s.liveTemps.foldl max 0)) } }) ∧
     (∀ temps : List (BitVec 8), exec (.dieTempPoll temps) s = .next ((allBlocks.zip temps).foldl (fun s e =>
       if s.railOn e.1 then
         (s.setDie e.1 ((s.die e.1).reading e.1 e.2)).afterReading e.1 (s.die e.1).tempState
       else s) s)) ∧
     (∀ k : Fin 8,
       (s.sd.gpio = false → s.gpioPin k = none) ∧
       (s.sd.gpio = true → s.gpioPin k = some (match k.val with
         | 0 => s.sd.boot == 2
         | 1 => s.wseal.isSealed
         | 2 => s.sd.mode != 0
         | 3 => s.alm.state == almLocked
         | _ => false)))) ∧
  (∀ (s : State) (watts : Nat), s.wardenOn = true →
     let s1 : State := { s with pwr := { s.pwr with pin := BitVec.ofNat 16 (min 65535 watts) } }
     let limited : State := ({ s1 with pwr := { s1.pwr with limiting := true } } : State).holdQuads holdPower [0, 1,
         2, 3]
     let freed : State := ({ s1 with pwr := { s1.pwr with limiting := false } } : State).release holdPower [0, 1, 2, 3]
     (16000 < watts → s.pwr.limiting = false → exec (.powerLimitWindow watts) s = .next limited ∧
       limited.pwr.limiting = true ∧ ∀ q < 4, limited.throttled q = true) ∧
     (watts < 15500 → s.pwr.limiting = true → exec (.powerLimitWindow watts) s = .next freed ∧
       freed.pwr.limiting = false ∧ (∀ q < 4, freed.pwr.holders.contains (q, holdPower) = false) ∧
       (∀ q h, h ≠ holdPower → freed.pwr.holders.contains (q, h) = s.pwr.holders.contains (q, h))) ∧
     (15500 ≤ watts → watts ≤ 16000 → exec (.powerLimitWindow watts) s = .next s1))

/-- R400: SEAL_RELEASE succeeds only with every handler of every die closed and the device quiescent: SEALED is
cleared, and FAULT_N is deasserted unless a THERMAL or POWER condition persists, or the device is not READY, in
MAINT_ONLY or without its die rails, where R425 and R465 hold it. Otherwise it completes with BUSY. The log of
detections stays, so a span that holds one never verifies. -/
def Obligations.SealReleaseObeysItsConditions : Prop :=
  ∀ (cid : Nat) (c : Cmd) (s : State), s.canRun cid 0x0D03 c = true →
    let t := s.sealRelease
    (s.anyHandler = false → s.quiescent = true → exec (.sealRelease cid) s = .next (t.reply c stOk 0) ∧
      t.wseal.isSealed = false ∧ 
      t.wseal.faultN = (s.wseal.faultN && (s.hazardLasts || s.sd.mode == 2 || s.sd.boot != 2 || !s.diesUp)) ∧
        t.wseal.log = s.wseal.log ∧
      t.wseal.detections = s.wseal.detections ∧ t.dies = s.dies ∧ t.tiles = s.tiles ∧ t.mem = s.mem ∧
      (∀ (season b1 b2 : Nat) (e : DetEntry), e ∈ s.wseal.entries → e.kind = 0 → e.season = season →
        b1 ≤ e.beat.toNat → e.beat.toNat ≤ b2 → (t.sealVerify season b1 b2).getLsbD 0 = false)) ∧
    (s.anyHandler = true ∨ s.quiescent = false → exec (.sealRelease cid) s = .next (s.reply c stBusy 0))

/-- R444: an access through BAR2 or BAR4 whose first or last byte lies where the map forbids it is forbidden as a
whole. A read completes with Completer Abort, a write is dropped, and the steward logs HOST_WINDOW_DENIED with the
address; the access reaches no die and changes nothing. -/
def Obligations.ForbiddenAccessesAreDenied : Prop :=
  ∀ (off : BitVec 34) (len : Nat) (data : List Byte) (write : Bool) (s : State),
    (write = true → data.length = len) → s.hostUp = true → s.sd.bars = true → s.sd.boot = 2 →
    let denied (a : Nat) : State := (s.logErr blkSteward { code := 0xE0, src := 18, addr := a }).barAnswer
      (if write then .done else .completerAbort)
    (let a := 0x7F0000000000 + off.toNat % 2 ^ 30
     (s.mapForbids (blockBits write (off.toNat % 2 ^ 30 / 2 ^ 24)) = true ∨
       s.mapForbids (blockBits write ((off.toNat + (len - 1)) % 2 ^ 30 / 2 ^ 24)) = true) →
     exec (.hostBarAccess 1 write off len data) s = .next (denied a)) ∧
    (let a := s.sd.aper.toNat * 2 ^ 32 + off.toNat
     (s.mapForbids (targetBits write (s.locate a)) = true ∨
       s.mapForbids (targetBits write (s.locate (a + (len - 1)))) = true) →
     exec (.hostBarAccess 2 write off len data) s = .next (denied a))

/-- R30, R31: the windows of the tile SRAMs and of the factor dies' local stores, and the holes behind them. They do
not depend on which physical die serves a number. -/
def Obligations.WindowsStandAtTheirAddresses : Prop :=
  ∀ (s : State),
    (∀ n t off, n < 32 → t < 144 → off < 2 ^ 21 →
      s.locate (0x400000000000 + n * 2 ^ 32 + t * 2 ^ 21 + off) = .sram n t off) ∧
    (∀ n off, n < 32 → 0x12000000 ≤ off → off < 2 ^ 32 → s.locate (0x400000000000 + n * 2 ^ 32 + off) = .unmapped) ∧
    (∀ q off, q < 4 → off < 0x4000000 → s.locate (0x600000000000 + q * 2 ^ 32 + off) = .store q off) ∧
    (∀ q off, q < 4 → 0x4000000 ≤ off → off < 2 ^ 32 → s.locate (0x600000000000 + q * 2 ^ 32 + off) = .unmapped) ∧
    (∀ sites a, ({ s with sites := sites } : State).locate a = s.locate a)

/-- R29, R204: either interleave sends every HBM address to one place of one stack, and no two to the same place. -/
def Obligations.InterleavesAreOneToOne : Prop :=
  ∀ (quadLocal : Bool) (a : Nat), a < 0x012000000000 →
    (hbmLoc quadLocal a).1 < 32 ∧ (hbmLoc quadLocal a).2 < 0x900000000 ∧
    (∀ b, b < 0x012000000000 → hbmLoc quadLocal b = hbmLoc quadLocal a → b = a) ∧
    decodeLocal quadLocal a = .hbm (hbmLoc quadLocal a).1 (hbmLoc quadLocal a).2

/-- R36: bytes written are read back, every other byte reads as before, and a memory in canonical form stays in it. -/
def Obligations.MemoryKeepsWhatIsWritten : Prop :=
  ∀ (m : Memory) (a : Nat) (l : List Byte),
    readBytes (writeBytes m a l) a l.length = l ∧
    (∀ x, x < a ∨ a + l.length ≤ x → Table.get 0 (writeBytes m a l) x = Table.get 0 m x) ∧
    (Memory.wf m = true → Memory.wf (writeBytes m a l) = true)

/-- R343: a parameter with a range, an alignment or a list of values is brought to a legal value; a legal one stays,
and for a range or a list no legal value lies nearer to the one written. -/
def Obligations.ParametersAreBroughtToLegalValues : Prop :=
  ∀ (s : State) (die off n v : Nat) (p : List Byte),
    (∀ lo hi, lo ≤ hi → let x := (pRange off n lo hi).fix s die p v
      lo ≤ x ∧ x ≤ hi ∧ (lo ≤ v → v ≤ hi → x = v) ∧
      ∀ w, lo ≤ w → w ≤ hi → max x v - min x v ≤ max w v - min w v) ∧
    (∀ a lo hi, 0 < a → lo ≤ hi → lo % a = 0 → hi % a = 0 → let x := (pAlign off n a lo hi).fix s die p v
      lo ≤ x ∧ x ≤ hi ∧ x % a = 0 ∧ (v % a = 0 → lo ≤ v → v ≤ hi → x = v)) ∧
    (∀ l : List Nat, l ≠ [] → let x := (pOneOf off n l).fix s die p v
      x ∈ l ∧ (v ∈ l → x = v) ∧ ∀ w ∈ l, max x v - min x v ≤ max w v - min w v)

/-- A step takes the command at the front of the queue and runs it with the queue's rest; an empty queue idles (the
model's choice, log entry 1). -/
def Obligations.StepRunsTheFrontCommand : Prop :=
  ∀ (s : State), (∀ c rest, s.pending = c :: rest → step s = exec c { s with pending := rest }) ∧
    (s.pending = [] → step s = .next s)

/-- The state after reset keeps the invariant of the fuses (R436), its memories are in canonical form, and streams,
vector lengths, rings, the coordinate, Almanac, UPDATE and seal are at rest (R102, R165, R262, R326, R355, R409). The
queue of commands (log entry 1), what memories hold before they are first written (log entry 18) and the rest of what
no register table gives (log entry 109) are the model's choices. -/
def Obligations.ResetIsAtRest : Prop :=
  State.reset.fusesOk ∧ State.reset.memoryWf = true ∧ State.reset.pending = [] ∧
  (∀ d t, (State.reset.tile d t).stream = .idle ∧ (State.reset.tile d t).ctx0.vl = 0 ∧
    (State.reset.tile d t).ctx1.vl = 0) ∧
  (∀ n, (State.reset.ring n).en = false) ∧ State.reset.alm.now = 0 ∧ State.reset.net.coordValid = false ∧
  State.reset.wseal.isSealed = false ∧ State.reset.update = none

/-- R436, R437, R439: no command blows a fuse bit outside the fields that commands may blow: where no bit outside them
is blown in either copy, none is after a step. -/
def Obligations.StepsKeepTheReservedFuses : Prop :=
  ∀ (s t : State), s.fusesOk → step s = .next t → t.fusesOk

/-- R437: a bit already blown stays blown, in each copy, whatever command the step runs. -/
def Obligations.BlownFusesStayBlown : Prop :=
  ∀ (s t : State), step s = .next t → fuseGrows s.fuse.copy0 t.fuse.copy0 ∧ fuseGrows s.fuse.copy1 t.fuse.copy1

/-- No command changes the queue of commands that wait (the model's queue, log entry 1), so a step takes one command
from its front and leaves the rest in their order. -/
def Obligations.CommandsLeaveTheQueue : Prop :=
  (∀ (c : Instr) (s t : State), exec c s = .next t → t.pending = s.pending) ∧
  (∀ (s t : State), step s = .next t → t.pending = s.pending.tail)

/-- Every command answers a next state in every state: none faults and none is refused. That an event which finds
nothing to act on answers the same state is the model's reading (log entry 20). -/
def Obligations.EveryCommandAnswers : Prop := ∀ (c : Instr) (s : State), ∃ t, exec c s = .next t

/-- PACKET_FORWARD takes a packet behind the earlier ones of its flow: one that has crossed to its port's link die
ends its crossing, one that has arrived goes through the link die, one that a port has given up takes another way, one
of the device's own leaves, and a request that waits for a slot is injected; an earlier packet of the flow keeps it
where it is (R271 to R276, R282). A request that no response has met within REQ_TIMEOUT beats completes as
REMOTE_TIMEOUT, logged with its address; its slot has the next generation and is held back for LIFETIME beats
(R284). -/
def Obligations.PacketsAreForwarded : Prop :=
  ∀ (l : Fin 8) (k : Packet) (s : State),
    let n := s.net
    let crossed := n.crossing.find? (fun x => x.pkt == k && (portLds x.port).contains l.val)
    let came := n.arrived.find? (fun e => e.pkt == k && (portLds e.port).contains l.val)
    let left := n.parked.find? (fun e => e.2.2 == k)
    (∀ x, crossed = some x →
      exec (.packetForward l k) s = .next (if inFlow (·.pkt) x n.crossing then s.endCrossing x else s)) ∧
    (∀ e, crossed = none → came = some e → exec (.packetForward l k) s
      = .next (if inFlow (·.pkt) e n.arrived then s.transit l.val e else s)) ∧
    (∀ e, crossed = none → came = none → left = some e → exec (.packetForward l k) s
      = .next (if inFlow (fun x => x.2.2) e n.parked then s.unshelve l.val e else s)) ∧
    (crossed = none → came = none → left = none → n.coordValid = true → n.out.contains k = true →
      exec (.packetForward l k) s = .next (if inFlow id k n.out then s.sendOwn l.val k else s)) ∧
    (∀ w, crossed = none → came = none → left = none → n.coordValid = true → n.out.contains k = false →
      n.waiting.find? (fun w => w.is k) = some w → exec (.packetForward l k) s
        = .next (if inFlow (RemoteReq.shape s) w n.waiting then s.injectReq l.val w else s)) ∧
    (∀ slot : Fin 4096,
      let i := l.val * 4096 + slot.val
      let t := (s.logErr (blkLd l.val) { code := 0x27, src := 0, addr := (s.rem i).addr.toNat }).finishRemote i
        (offsetBytes 0) 0x27
      ((s.rem i).busy.isSome = true → (s.rem i).since + n.reqTimeout.toNat ≤ s.alm.total →
        exec (.remoteTimeout l slot) s = .next (t.setRem i { t.rem i with
          gen := nextGen (s.rem i).gen, block := s.alm.total + n.lifetime.toNat })) ∧
      (s.alm.total < (s.rem i).since + n.reqTimeout.toNat → exec (.remoteTimeout l slot) s = .next s))
end

