-- ==== Sys2Proof/Laws/Numbers.lean ====
section
/-! SUPPORT. What the arithmetic of Machine/Float computes, in real numbers: one rounding of the exact result (R48,
R49). -/
set_option Elab.async false
namespace Sys2Proof.Machine

/-- The magnitude x lies at m units of 2^e or, where something is cut off, between them and one more. -/
def within (m : Nat) (e : Int) (sticky : Bool) (x : ℝ) : Prop :=
  (m : ℝ) * 2 ^ e ≤ x ∧ x < (m + 1) * 2 ^ e ∧ (sticky = true ↔ x ≠ m * 2 ^ e)

theorem roundTo_rounds (rm : Rm) (neg : Bool) (m : Nat) (e q : Int) (sticky : Bool) (x : ℝ)
    (h : within m e sticky x) (hs : sticky = true → e < q) :
    rm.rounds neg (roundTo rm neg m e q sticky).1 (2 ^ q) x ∧
    ((roundTo rm neg m e q sticky).2 = true ↔ (roundTo rm neg m e q sticky).1 * (2:ℝ) ^ q ≠ x) := by
  obtain ⟨h1, h2, h3⟩ := h
  unfold roundTo
  split
  · rename_i hq
    have hst : sticky = false := by
      cases hsb : sticky with
      | false => rfl
      | true => exact absurd (hs hsb) (by omega)
    subst hst
    have hx : x = m * 2 ^ e := by
      by_contra hne; simpa using h3.2 hne
    have hpow : (2:ℝ) ^ (e - q).toNat * 2 ^ q = 2 ^ e := by
      rw [← zpow_natCast, ← zpow_add₀ (by norm_num)]; congr 1; omega
    have hv : ((m * 2 ^ (e - q).toNat : ℕ) : ℝ) * 2 ^ q = x := by
      push_cast; rw [mul_assoc, hpow, hx]
    have hu : (0:ℝ) < 2 ^ q := by positivity
    refine ⟨?_, fun h => absurd h (by simp), fun h => absurd hv h⟩
    unfold Rm.rounds
    dsimp only
    rw [hv]
    split
    · simp only [sub_self, abs_zero, mul_zero]
      exact ⟨hu.le, fun h0 => absurd h0.symm hu.ne'⟩
    · split
      · exact ⟨le_refl _, by linarith⟩
      · exact ⟨le_refl _, by linarith⟩
  · rename_i hq
    set sh := (q - e).toNat with hsh
    have hsh1 : 1 ≤ sh := by omega
    have hpow : (2:ℝ) ^ q = 2 ^ sh * 2 ^ e := by
      rw [← zpow_natCast (2:ℝ) sh, ← zpow_add₀ (by norm_num)]; congr 1; omega
    have hE : (0:ℝ) < 2 ^ e := by positivity
    dsimp only
    rw [Nat.shiftRight_eq_div_pow]
    set n := m / 2 ^ sh
    set r := m % 2 ^ sh
    have hmr : m = n * 2 ^ sh + r := by
      have := Nat.div_add_mod m (2 ^ sh); rw [mul_comm] at this; exact this.symm
    have hr : r < 2 ^ sh := Nat.mod_lt _ (by positivity)
    obtain ⟨half, hhalf⟩ : ∃ half, half = 2 ^ (sh - 1) := ⟨_, rfl⟩
    have hh2 : 2 ^ sh = 2 * half := by
      rw [hhalf, ← pow_succ']; congr 1; omega
    rw [← hhalf]
    -- in units of 2^e
    obtain ⟨y, hy⟩ : ∃ y : ℝ, x = y * 2 ^ e := ⟨x / 2 ^ e, by field_simp⟩
    have hy1 : (m : ℝ) ≤ y := by
      rw [hy] at h1; exact le_of_mul_le_mul_right h1 hE
    have hy2 : y < m + 1 := by
      rw [hy] at h2; exact lt_of_mul_lt_mul_right h2 hE.le
    have hy3 : sticky = true ↔ y ≠ m := by
      rw [h3, hy]; simp [hE.ne']
    have hS : ((2:ℝ) ^ sh) = 2 * half := by exact_mod_cast hh2
    have hmR : (m : ℝ) = n * (2 * half) + r := by
      rw [← hS]; exact_mod_cast hmr
    have hrR : (r : ℝ) + 1 ≤ 2 * half := by
      have : r + 1 ≤ 2 * half := by omega
      exact_mod_cast this
    have hhp : (0:ℝ) < half := by
      have : 0 < half := by rw [hhalf]; positivity
      exact_mod_cast this
    have hr0 : (0:ℝ) ≤ r := Nat.cast_nonneg r
    -- key facts over y
    have key : ∀ k : ℕ, (k : ℝ) * 2 ^ q = (k * (2 * half)) * 2 ^ e := by
      intro k; rw [hpow, hS]; ring
    have rnd : ∀ k : ℕ, Rm.rounds rm neg k (2 ^ q) x ↔
        Rm.rounds rm neg k (2 * half) y := by
      intro k
      unfold Rm.rounds
      rw [key, hy, hpow, hS]
      have ea : ∀ a b : ℝ, (a * 2 ^ e ≤ b * 2 ^ e ↔ a ≤ b) := fun a b => mul_le_mul_iff_left₀ hE
      have eb : ∀ a b : ℝ, (a * 2 ^ e < b * 2 ^ e ↔ a < b) := fun a b => mul_lt_mul_iff_left₀ hE
      have ec : |(k : ℝ) * (2 * half) * 2 ^ e - y * 2 ^ e| = |(k : ℝ) * (2 * half) - y| * 2 ^ e := by
        rw [← sub_mul, abs_mul, abs_of_pos hE]
      rw [ec, ← mul_assoc 2 |_| _, ea, mul_left_inj' hE.ne', ← add_mul, ← add_mul, ea, ea, eb, eb]
    have cutiff : ((r ≠ 0 || sticky : Bool) = true ↔ y ≠ n * (2 * half)) := by
      simp only [ne_eq, Bool.or_eq_true, decide_not, Bool.not_eq_true']
      constructor
      · rintro (h | h)
        · intro hc
          have h0 : 0 < r := Nat.pos_of_ne_zero (by simpa using h)
          have : (1:ℝ) ≤ r := by exact_mod_cast h0
          rw [hmR] at hy1; linarith
        · intro hc
          have := hy3.1 h
          apply this
          rw [hmR] at hy1 ⊢
          have hlt := hy2
          have : (r : ℝ) ≤ 0 := by linarith
          have hr00 : (r:ℝ) = 0 := le_antisymm this hr0
          rw [hc, hr00]; ring
      · intro hc
        by_cases h : r = 0
        · right
          apply hy3.2
          intro hym; apply hc; rw [hym, hmR, h]; simp
        · left; simpa using h
    rw [rnd]
    have cut2 : ∀ k : ℕ, (k * (2:ℝ) ^ q ≠ x ↔ y ≠ k * (2 * half)) := by
      intro k
      rw [key, hy]
      constructor
      · intro h1 h2; apply h1; rw [h2]
      · intro h1 h2; apply h1; exact (mul_right_cancel₀ hE.ne' h2).symm
    have lo : (n:ℝ) * (2 * half) ≤ y := by rw [hmR] at hy1; linarith
    have hi : y < n * (2 * half) + 2 * half := by rw [hmR] at hy2; linarith
    have up1 : (((n + 1 : ℕ) : ℝ)) * (2 * half) = n * (2 * half) + 2 * half := by push_cast; ring
    -- rest
    have hrest : ∀ o : Ordering, o = (if r < half then Ordering.lt else if r = half ∧
        sticky = false then .eq else .gt) →
        (o = .lt ↔ y < n * (2 * half) + half) ∧ (o = .eq ↔ y = n * (2 * half) + half) := by
      intro o ho
      by_cases h1 : r < half
      · have hr1 : (r:ℝ) + 1 ≤ half := by exact_mod_cast h1
        simp only [h1, if_true] at ho
        subst ho
        have : y < n * (2 * half) + half := by rw [hmR] at hy2; linarith
        simp [this]; exact ne_of_lt this
      · have hr1 : (half:ℝ) ≤ r := by exact_mod_cast (not_lt.1 h1)
        have hge : n * (2 * half) + half ≤ y := by rw [hmR] at hy1; linarith
        simp only [h1, if_false] at ho
        by_cases h2 : r = half ∧ sticky = false
        · rw [if_pos h2] at ho
          subst ho
          have hym : y = m := by by_contra hne; have := hy3.2 hne; simp [h2.2] at this
          have : y = n * (2 * half) + half := by rw [hym, hmR, h2.1]
          simp [this]
        · rw [if_neg h2] at ho
          subst ho
          have : y ≠ n * (2 * half) + half := by
            intro hc
            apply h2
            have h4 : (r:ℝ) = half := by
              rw [hmR] at hy1; linarith
            have h5 : r = half := by exact_mod_cast h4
            refine ⟨h5, ?_⟩
            by_contra hsf
            have := hy3.1 (by simpa using hsf)
            apply this; rw [hc, hmR, h5]
          have hgt : n * (2 * half) + half < y := lt_of_le_of_ne hge (Ne.symm this)
          simp [this]; exact hge
    obtain ⟨o, ho⟩ : ∃ o : Ordering, o = (if r < half then Ordering.lt else if r = half ∧
      sticky = false then .eq else .gt) := ⟨_, rfl⟩
    obtain ⟨ol, oe⟩ := hrest o ho
    rw [← ho]
    obtain ⟨cut, hcut⟩ : ∃ cut : Bool, cut = (r ≠ 0 || sticky : Bool) := ⟨_, rfl⟩
    rw [← hcut] at cutiff ⊢
    have fin : ∀ up : Bool, up = rm.raises neg (n % 2 == 1) o cut →
      Rm.rounds rm neg (if up then n + 1 else n) (2 * half) y ∧
      (cut = true ↔ ((if up then n + 1 else n : ℕ) : ℝ) * (2:ℝ) ^ q ≠ x) := by
      intro up hup
      refine ⟨?_, ?_⟩
      · cases rm with
        | nearest =>
          simp only [Rm.rounds, if_true]
          simp only [Rm.raises] at hup
          cases hu : up with
          | false =>
            simp only [Bool.false_eq_true, if_false]
            rw [hu] at hup
            have hup' := hup.symm
            simp only [Bool.or_eq_false_iff, Bool.and_eq_false_iff] at hup'
            have hle : y ≤ n * (2 * half) + half := by
              by_contra hc
              have h1 : o ≠ .lt := fun h => by have := ol.1 h; linarith
              have h2 : o ≠ .eq := fun h => by have := oe.1 h; linarith
              cases o with
              | lt => exact h1 rfl
              | eq => exact h2 rfl
              | gt => exact absurd hup'.1 (by decide)
            rw [abs_of_nonpos (by linarith)]
            refine ⟨by linarith, ?_⟩
            intro he
            have heq : y = n * (2 * half) + half := by linarith
            have h1 := oe.2 heq
            have := hup'.2
            rw [h1] at this
            simp at this
            omega
          | true =>
            simp only [if_true]
            rw [hu] at hup
            have hup' := hup.symm
            simp only [Bool.or_eq_true, Bool.and_eq_true] at hup'
            rw [up1]
            have hge : n * (2 * half) + half ≤ y := by
              by_contra hc
              have h1 : o = .lt := ol.2 (by linarith)
              rw [h1] at hup'; simp at hup'
            rw [abs_of_nonneg (by linarith)]
            refine ⟨by linarith, ?_⟩
            intro he
            have heq : y = n * (2 * half) + half := by linarith
            have h1 := oe.2 heq
            rw [h1] at hup'
            simp at hup'
            omega
        | zero =>
          have : up = false := by simpa [Rm.raises] using hup
          subst this
          simp [Rm.rounds, Rm.away]; exact ⟨lo, hi⟩
        | up =>
          cases neg with
          | true =>
            have : up = false := by simpa [Rm.raises] using hup
            subst this
            simp [Rm.rounds, Rm.away]; exact ⟨lo, hi⟩
          | false =>
            have : up = cut := by simpa [Rm.raises] using hup
            subst this
            simp only [Rm.rounds, Rm.away]
            simp only [reduceCtorEq, if_false]
            simp only [BEq.rfl, Bool.not_false, Bool.and_self, Bool.true_or, if_true]
            cases hc : up with
            | false =>
              have hyn : y = n * (2 * half) := by
                by_contra hne; have := cutiff.2 hne; simp [hc] at this
              simp only [Bool.false_eq_true, if_false]
              exact ⟨hyn.le, by linarith⟩
            | true =>
              have := cutiff.1 hc
              have hlt : n * (2 * half) < y := lt_of_le_of_ne lo (Ne.symm this)
              simp only [if_true]
              rw [up1]; constructor <;> linarith
        | down =>
          cases neg with
          | false =>
            have : up = false := by simpa [Rm.raises] using hup
            subst this
            simp [Rm.rounds, Rm.away]; exact ⟨lo, hi⟩
          | true =>
            have : up = cut := by simpa [Rm.raises] using hup
            subst this
            simp only [Rm.rounds, Rm.away]
            simp only [reduceCtorEq, if_false]
            simp only [BEq.rfl, Bool.and_self, Bool.or_true, if_true]
            cases hc : up with
            | false =>
              have hyn : y = n * (2 * half) := by
                by_contra hne; have := cutiff.2 hne; simp [hc] at this
              simp only [Bool.false_eq_true, if_false]
              exact ⟨hyn.le, by linarith⟩
            | true =>
              have := cutiff.1 hc
              have hlt : n * (2 * half) < y := lt_of_le_of_ne lo (Ne.symm this)
              simp only [if_true]
              rw [up1]; constructor <;> linarith
      · rw [cut2, cutiff]
        cases hu : up with
        | false => simp
        | true =>
          simp only [if_true]
          rw [up1]
          have : cut = true := by
            by_contra hc
            have hc' : cut = false := by simpa using hc
            have hyn : y = n * (2 * half) := by
              by_contra hne; exact hc (cutiff.2 hne)
            have h1 : o = .lt := ol.2 (by rw [hyn]; linarith)
            rw [h1, hc', hu] at hup
            cases rm <;> simp [Rm.raises] at hup
          have hne := cutiff.1 this
          simp only [hne, ne_eq, not_false_eq_true, true_iff]
          intro hc; linarith
    exact fin _ rfl

/-- A format's greatest finite code lies below its sign bit and below its infinity. -/
def Fmt.sound (f : Fmt) : Prop :=
  f.maxFin < 2 ^ (f.ebits + f.fbits) ∧ (∀ i ∈ f.inf, f.maxFin < i)

/-- The seven formats of R37 are sound. -/
theorem Fmt.sound_of_mem {f : Fmt} (h : f ∈ [fp64, fp32, bf16, fp16, e4m3, e5m2, e2m1]) : f.sound := by
  simp only [List.mem_cons, List.not_mem_nil, or_false] at h
  unfold Fmt.sound
  rcases h with rfl | rfl | rfl | rfl | rfl | rfl | rfl <;> decide

/-- The number of a magnitude code, with no upper end of the exponents. -/
noncomputable def mv (f : Fmt) (c : Nat) : ℝ :=
  if c / 2 ^ f.fbits = 0 then (c % 2 ^ f.fbits : ℕ) * 2 ^ (1 - (f.bias : Int) - f.fbits)
  else ((2 ^ f.fbits + c % 2 ^ f.fbits : ℕ) : ℝ) * 2 ^ (((c / 2 ^ f.fbits : ℕ) : Int) - f.bias - f.fbits)

theorem mv_succ (f : Fmt) (c : Nat) : mv f c < mv f (c + 1) := by
  unfold mv
  set P := 2 ^ f.fbits with hP
  have hPp : 0 < P := by positivity
  have hdm := Nat.div_add_mod c P
  have hlt := Nat.mod_lt c hPp
  set a := c / P
  set b := c % P
  by_cases hb : b + 1 < P
  · have h1 : (c + 1) / P = a := by
      rw [← hdm, Nat.add_assoc, Nat.mul_add_div hPp, Nat.div_eq_of_lt hb]; rfl
    have h2 : (c + 1) % P = b + 1 := by
      rw [← hdm, Nat.add_assoc, Nat.mul_add_mod, Nat.mod_eq_of_lt hb]
    rw [h1, h2]
    split
    · push_cast; gcongr; linarith
    · push_cast; gcongr; linarith
  · have hbe : b + 1 = P := by omega
    have h0 : c + 1 = P * (a + 1) := by rw [← hdm, Nat.add_assoc, hbe]; ring
    have h1 : (c + 1) / P = a + 1 := by rw [h0, Nat.mul_div_cancel_left _ hPp]
    have h2 : (c + 1) % P = 0 := by rw [h0, Nat.mul_mod_right]
    rw [h1, h2]
    have hPR : (b : ℝ) + 1 = P := by exact_mod_cast hbe
    rw [if_neg (Nat.succ_ne_zero a)]
    split
    · rename_i ha
      rw [ha]
      have : ((0 + 1 : ℕ) : Int) - f.bias - f.fbits = 1 - f.bias - f.fbits := by push_cast; ring
      rw [this]
      have hpos : (0:ℝ) < 2 ^ (1 - (f.bias : Int) - f.fbits) := by positivity
      have : (b:ℝ) < P := by linarith
      push_cast
      nlinarith
    · have : (2:ℝ) ^ (((a + 1 : ℕ) : Int) - f.bias - f.fbits) = 2 * 2 ^ ((a : Int) - f.bias - f.fbits) := by
        rw [← zpow_one_add₀ (by norm_num)]; congr 1; push_cast; ring
      rw [this]
      have hpos : (0:ℝ) < 2 ^ ((a : Int) - f.bias - f.fbits) := by positivity
      push_cast
      nlinarith

theorem mv_mono (f : Fmt) : StrictMono (mv f) := strictMono_nat_of_lt_succ (mv_succ f)

theorem mv_magCode (f : Fmt) (n : Nat) (q : Int) (hq : 1 - (f.bias : Int) - f.fbits ≤ q)
    (h : q = 1 - (f.bias : Int) - f.fbits ∧ n ≤ 2 ^ f.fbits ∨ 2 ^ f.fbits ≤ n ∧ n ≤ 2 ^ (f.fbits + 1)) :
    mv f (f.magCode n q) = n * 2 ^ q := by
  set low : Int := 1 - (f.bias : Int) - f.fbits with hlow
  obtain ⟨k, hk⟩ : ∃ k : Nat, q = low + k := ⟨(q - low).toNat, by omega⟩
  have hkk : (q - low).toNat = k := by omega
  have hmc : f.magCode n q = (q - low).toNat * 2 ^ f.fbits + n := rfl
  rw [hmc, hkk]
  unfold mv
  set P := 2 ^ f.fbits with hP
  have hPp : 0 < P := by positivity
  have e1 : ∀ j : Nat, ((j + 1 : ℕ) : Int) - f.bias - f.fbits = low + j := by intro j; rw [hlow]; push_cast; ring
  have key : ∀ j r : Nat, r < P → j * P + r = j * P + r → ((j * P + r) / P = j ∧ (j * P + r) % P = r) := by
    intro j r hr _
    constructor
    · rw [Nat.mul_comm, Nat.mul_add_div hPp, Nat.div_eq_of_lt hr]; rfl
    · rw [Nat.mul_comm, Nat.mul_add_mod, Nat.mod_eq_of_lt hr]
  by_cases hn : n < P
  · have hk0 : k = 0 := by
      rcases h with h | h
      · omega
      · omega
    obtain ⟨a, b⟩ := key k n hn rfl
    rw [a, b, if_pos hk0, hk, hk0, ← hlow]; simp
  · by_cases hn2 : n < 2 * P
    · have : k * P + n = (k + 1) * P + (n - P) := by rw [Nat.add_mul]; omega
      rw [this]
      obtain ⟨a, b⟩ := key (k + 1) (n - P) (by omega) rfl
      rw [a, b, if_neg (by omega), e1, hk]
      congr 2; omega
    · have hn3 : n = 2 * P := by
        rcases h with h | h
        · omega
        · have : 2 ^ (f.fbits + 1) = 2 * P := by rw [hP, pow_succ]; ring
          omega
      have : k * P + n = (k + 2) * P + 0 := by rw [hn3, Nat.add_mul]; omega
      rw [this]
      obtain ⟨a, b⟩ := key (k + 2) 0 hPp rfl
      rw [a, b, if_neg (by omega), hk, hn3]
      have : ((k + 2 : ℕ) : Int) - f.bias - f.fbits = 1 + (low + k) := by rw [hlow]; push_cast; ring
      rw [this, zpow_one_add₀ (by norm_num)]
      push_cast; ring

theorem decode_code (f : Fmt) (hf : f.sound) (neg : Bool) (c : Nat) (hc : c ≤ f.maxFin) :
    ∃ m e, f.decode (f.signBit neg + c) = .fin neg m e ∧ m * (2 : ℝ) ^ e = mv f c := by
  obtain ⟨h1, h2⟩ := hf
  have hlt : c < 2 ^ (f.ebits + f.fbits) := lt_of_le_of_lt hc h1
  have hmag : (f.signBit neg + c) % 2 ^ (f.ebits + f.fbits) = c := by
    unfold Fmt.signBit
    cases neg
    · simp [Nat.mod_eq_of_lt hlt]
    · simp [Nat.mod_eq_of_lt hlt]
  have hneg : ((f.signBit neg + c) >>> (f.ebits + f.fbits)) % 2 = natOf neg := by
    unfold Fmt.signBit
    rw [Nat.shiftRight_eq_div_pow]
    cases neg
    · simp [Nat.div_eq_of_lt hlt, natOf]
    · simp only [if_true]
      rw [Nat.add_div_left _ (by positivity), Nat.div_eq_of_lt hlt]; simp [natOf]
  unfold Fmt.decode
  dsimp only
  rw [hmag, hneg]
  have hinf : (f.inf == some c) = false := by
    cases hi : f.inf with
    | none => rfl
    | some i =>
      have := h2 i (by rw [hi]; simp)
      simp; omega
  rw [hinf, if_neg (by simp), if_neg (by omega)]
  rw [Nat.shiftRight_eq_div_pow]
  have hn : (natOf neg == 1) = neg := by cases neg <;> rfl
  rw [hn]
  unfold mv
  by_cases h : c / 2 ^ f.fbits = 0
  · rw [if_pos (by simpa using h), if_pos h]; exact ⟨_, _, rfl, rfl⟩
  · rw [if_neg (by simpa using h), if_neg h]; exact ⟨_, _, rfl, by push_cast; rfl⟩

theorem rounds_bounds {rm : Rm} {neg : Bool} {n : Nat} {u x : ℝ} (hu : 0 < u) (h : rm.rounds neg n u x) :
    (∀ k : ℕ, (k : ℝ) * u ≤ x → k ≤ n) ∧ (∀ k : ℕ, x < k * u → n ≤ k) := by
  have hb : (n : ℝ) * u < x + u ∧ x < n * u + u := by
    unfold Rm.rounds at h
    split at h
    · have := abs_le.1 (show |(n:ℝ) * u - x| ≤ u / 2 by linarith [h.1])
      constructor <;> linarith [this.1, this.2]
    · split at h
      · exact ⟨h.2, by linarith [h.1]⟩
      · exact ⟨by linarith [h.1], h.2⟩
  constructor
  · intro k hk
    have : (k : ℝ) * u < (n + 1) * u := by nlinarith [hb.2]
    have := lt_of_mul_lt_mul_right this hu.le
    have : k < n + 1 := by exact_mod_cast this
    omega
  · intro k hk
    have : (n : ℝ) * u < (k + 1) * u := by nlinarith [hb.1]
    have := lt_of_mul_lt_mul_right this hu.le
    have : n < k + 1 := by exact_mod_cast this
    omega

theorem within_precise {m : Nat} {e : Int} {st : Bool} {x : ℝ} (hm : m ≠ 0) (h : within m e st x) :
    (2:ℝ) ^ leadExp m e ≤ x ∧ x < 2 ^ (leadExp m e + 1) := by
  obtain ⟨h1, h2, -⟩ := h
  have hE : (0:ℝ) < 2 ^ e := by positivity
  have a : 2 ^ Nat.log2 m ≤ m := Nat.log2_self_le hm
  have b : m < 2 ^ (Nat.log2 m + 1) := Nat.lt_log2_self
  have aR : (2:ℝ) ^ Nat.log2 m ≤ m := by exact_mod_cast a
  have bR : (m:ℝ) + 1 ≤ 2 ^ (Nat.log2 m + 1) := by exact_mod_cast b
  unfold leadExp
  constructor
  · rw [zpow_add₀ (by norm_num), zpow_natCast]
    exact le_trans (by gcongr) h1
  · have : (2:ℝ) ^ ((Nat.log2 m : Int) + e + 1) = 2 ^ (Nat.log2 m + 1) * 2 ^ e := by
      rw [← zpow_natCast, ← zpow_add₀ (by norm_num)]; congr 1; push_cast; ring
    rw [this]
    exact lt_of_lt_of_le h2 (by gcongr)

theorem Fmt.round_rounded (f : Fmt) (hf : f.sound) (rm : Rm) (neg : Bool) (m : Nat) (e : Int) (st : Bool) (x : ℝ)
    (hm : m ≠ 0) (h : within m e st x) (hs : st = true → f.fbits < Nat.log2 m) :
    f.rounded rm neg x (f.round rm neg m e st) := by
  obtain ⟨p1, p2⟩ := within_precise hm h
  set l := leadExp m e with hl
  have hle : l = (Nat.log2 m : Int) + e := rfl
  set low : Int := 1 - (f.bias : Int) - f.fbits with hlow
  set q := f.quantum m e with hq
  have hqv : q = (if l < 1 - (f.bias : Int) then 1 - (f.bias : Int) else l) - f.fbits := rfl
  have hlq : l - f.fbits ≤ q ∧ low ≤ q := by rw [hqv]; split <;> constructor <;> omega
  have z : ∀ a : Int, (2:ℝ) ^ f.fbits * 2 ^ a = 2 ^ (a + f.fbits) := by
    intro a; rw [← zpow_natCast, ← zpow_add₀ (by norm_num)]; congr 1; ring
  have z1 : ∀ a : Int, (2:ℝ) ^ (f.fbits + 1) * 2 ^ a = 2 ^ (a + f.fbits + 1) := by
    intro a; rw [← zpow_natCast, ← zpow_add₀ (by norm_num)]; congr 1; push_cast; ring
  have zm : ∀ a b : Int, a ≤ b → (2:ℝ) ^ a ≤ 2 ^ b := fun a b hab => zpow_le_zpow_right₀ (by norm_num) hab
  have hunit : f.unit q x := by
    unfold Fmt.unit Fmt.precise
    dsimp only
    rw [z, z1]
    by_cases hc : l < 1 - (f.bias : Int)
    · right
      rw [if_pos hc] at hqv
      refine ⟨hqv, lt_of_lt_of_le p2 (zm _ _ (by omega))⟩
    · left
      rw [if_neg hc] at hqv
      refine ⟨⟨?_, ?_⟩, hlq.2⟩
      · exact le_trans (zm _ _ (by omega)) p1
      · exact lt_of_lt_of_le p2 (zm _ _ (by omega))
  have hrt := roundTo_rounds rm neg m e q st x h (fun hh => by have := hs hh; omega)
  set R := roundTo rm neg m e q st with hR
  have hu : (0:ℝ) < 2 ^ q := by positivity
  obtain ⟨bl, bu⟩ := rounds_bounds hu hrt.1
  have hgrid : q = low ∧ R.1 ≤ 2 ^ f.fbits ∨ 2 ^ f.fbits ≤ R.1 ∧ R.1 ≤ 2 ^ (f.fbits + 1) := by
    rcases hunit with ⟨⟨a, b⟩, c⟩ | ⟨a, b⟩
    · right
      exact ⟨bl _ (by push_cast; exact a), bu _ (by push_cast; exact b)⟩
    · left
      exact ⟨a, bu _ (by push_cast; exact b)⟩
  have hcode := mv_magCode f R.1 q hlq.2 hgrid
  -- the tiny test
  have hprec : f.precise (l - f.fbits) x := by
    unfold Fmt.precise
    rw [z, z1]
    exact ⟨le_trans (zm _ _ (by omega)) p1, lt_of_lt_of_le p2 (zm _ _ (by omega))⟩
  have hrt' := roundTo_rounds rm neg m e (l - f.fbits) st x h (fun hh => by have := hs hh; omega)
  have htiny : f.tiny rm neg m e st = true ↔ f.tinyAt rm neg x := by
    have hdef : f.tiny rm neg m e st
        = decide (leadExp (roundTo rm neg m e (l - f.fbits) st).1 (l - f.fbits) < 1 - (f.bias : Int)) := rfl
    rw [hdef]
    set N := (roundTo rm neg m e (l - f.fbits) st).1 with hN
    have hu' : (0:ℝ) < 2 ^ (l - (f.fbits : Int)) := by positivity
    have key : ∀ n : Nat, rm.rounds neg n (2 ^ (l - (f.fbits : Int))) x →
        (leadExp n (l - f.fbits) < 1 - (f.bias : Int) ↔ n * (2:ℝ) ^ (l - (f.fbits : Int)) < 2 ^ (1 - (f.bias : Int)))
          := by
      intro n hn
      have hpos : 2 ^ f.fbits ≤ n := (rounds_bounds hu' hn).1 _ (by push_cast; exact hprec.1)
      have hn0 : n ≠ 0 := by have : 0 < 2 ^ f.fbits := by positivity
                             omega
      have a : (2:ℝ) ^ Nat.log2 n ≤ n := by exact_mod_cast Nat.log2_self_le hn0
      have b : (n:ℝ) < 2 ^ (Nat.log2 n + 1) := by exact_mod_cast Nat.lt_log2_self
      unfold leadExp
      constructor
      · intro hlt
        have h1 : (n:ℝ) * 2 ^ (l - (f.fbits : Int)) < 2 ^ (Nat.log2 n + 1) * 2 ^ (l - (f.fbits : Int)) := by gcongr
        have h2 : (2:ℝ) ^ (Nat.log2 n + 1) * 2 ^ (l - (f.fbits : Int)) = 2 ^ ((Nat.log2 n : Int) + 1 + (l - f.fbits))
            := by
          rw [← zpow_natCast, ← zpow_add₀ (by norm_num)]; congr 1
        rw [h2] at h1
        exact lt_of_lt_of_le h1 (zm _ _ (by omega))
      · intro hlt
        by_contra hge
        have h2 : (2:ℝ) ^ Nat.log2 n * 2 ^ (l - (f.fbits : Int)) = 2 ^ ((Nat.log2 n : Int) + (l - f.fbits)) := by
          rw [← zpow_natCast, ← zpow_add₀ (by norm_num)]
        have h1 : (2:ℝ) ^ Nat.log2 n * 2 ^ (l - (f.fbits : Int)) ≤ n * 2 ^ (l - (f.fbits : Int)) := by gcongr
        rw [h2] at h1
        have := zm (1 - (f.bias : Int)) _ (not_lt.1 hge)
        linarith
    rw [decide_eq_true_eq, key N hrt'.1]
    constructor
    · intro hlt; exact ⟨_, N, hprec, hrt'.1, hlt⟩
    · rintro ⟨q', n', hp', hr', hlt⟩
      have hqq : q' = l - f.fbits := by
        obtain ⟨a1, a2⟩ := hprec
        obtain ⟨b1, b2⟩ := hp'
        rw [z] at a1 b1; rw [z1] at a2 b2
        have c1 := (zpow_lt_zpow_iff_right₀ (by norm_num : (1:ℝ) < 2)).1 (lt_of_le_of_lt a1 b2)
        have c2 := (zpow_lt_zpow_iff_right₀ (by norm_num : (1:ℝ) < 2)).1 (lt_of_le_of_lt b1 a2)
        omega
      subst hqq
      rw [← key N hrt'.1]
      rw [← key n' hr'] at hlt
      -- both roundings stay below the same power of two
      have hnn : (n':ℝ) * 2 ^ (l - (f.fbits : Int)) < 2 ^ (1 - (f.bias : Int)) := (key n' hr').1 hlt
      rw [key N hrt'.1]
      by_contra hge
      have hNn : N = n' := by
        have eqn : ∀ a b : Nat, rm.rounds neg a (2 ^ (l - (f.fbits : Int))) x →
            rm.rounds neg b (2 ^ (l - (f.fbits : Int))) x → a ≤ b := by
          intro a b ha hb
          by_contra hab
          have hab' : (b:ℝ) + 1 ≤ a := by exact_mod_cast (not_le.1 hab)
          have hmul : ((b:ℝ) + 1) * 2 ^ (l - (f.fbits : Int)) ≤ a * 2 ^ (l - (f.fbits : Int)) := by gcongr
          set U : ℝ := 2 ^ (l - (f.fbits : Int)) with hU
          unfold Rm.rounds at ha hb
          split at ha
          · rename_i hrm
            rw [if_pos hrm] at hb
            have a1 := abs_le.1 (show |(a:ℝ) * U - x| ≤ U / 2 by linarith [ha.1])
            have b1 := abs_le.1 (show |(b:ℝ) * U - x| ≤ U / 2 by linarith [hb.1])
            have ea : (a:ℝ) * U - x = U / 2 := by nlinarith [a1.2, b1.1]
            have eb : (b:ℝ) * U - x = -(U / 2) := by nlinarith [a1.2, b1.1]
            have h2a := ha.2 (by rw [ea, abs_of_pos (by linarith)]; ring)
            have h2b := hb.2 (by rw [eb, abs_neg, abs_of_pos (by linarith)]; ring)
            have : (a:ℝ) * U = (b + 1) * U := by linarith
            have : (a:ℝ) = b + 1 := mul_right_cancel₀ hu'.ne' this
            have : a = b + 1 := by exact_mod_cast this
            omega
          · rename_i hrm
            rw [if_neg hrm] at hb
            split at ha
            · rename_i hw
              rw [if_pos hw] at hb
              nlinarith [ha.2, hb.1]
            · rename_i hw
              rw [if_neg hw] at hb
              nlinarith [ha.1, hb.2]
        exact le_antisymm (eqn _ _ hrt'.1 hr') (eqn _ _ hr' hrt'.1)
      rw [hNn] at hge
      exact hge hnn
  refine ⟨q, R.1, hunit, hrt.1, ?_⟩
  intro top htop
  have hround : f.round rm neg m e st = (let code := f.magCode R.1 q
      if f.maxFin < code then
        (if (match rm with
            | .nearest => true
            | .zero => false
            | .up => !neg
            | .down => neg) then f.infCode neg else f.signBit neg + f.maxFin, fOverflow ||| fInexact)
      else (f.signBit neg + code, flagIf R.2 fInexact ||| flagIf (R.2 && f.tiny rm neg m e st) fUnderflow)) := by
    unfold Fmt.round Fmt.roundMag
    rw [if_neg hm] <;> cases rm <;> rfl
  have htv : top = mv f f.maxFin := by
    obtain ⟨n, a, b, h1, h2⟩ := htop
    obtain ⟨m', e', h3, h4⟩ := decode_code f hf false f.maxFin (le_refl _)
    have h5 : f.signBit false + f.maxFin = f.maxFin := by simp [Fmt.signBit]
    rw [h5, h1] at h3
    cases h3
    rw [h2, ← h4]; simp
  have hcmp : f.maxFin < f.magCode R.1 q ↔ top < R.1 * 2 ^ q := by
    rw [htv, ← hcode]; exact (mv_mono f).lt_iff_lt.symm
  constructor
  · intro hle
    have : ¬ f.maxFin < f.magCode R.1 q := by rw [hcmp]; exact not_lt.2 hle
    rw [hround]
    dsimp only
    rw [if_neg this]
    refine ⟨?_, R.2, f.tiny rm neg m e st, rfl, hrt.2, htiny⟩
    obtain ⟨m', e', h3, h4⟩ := decode_code f hf neg _ (not_lt.1 this)
    exact ⟨m', e', h3, by rw [h4, hcode]⟩
  · intro hlt
    rw [hround]
    dsimp only
    rw [if_pos (hcmp.2 hlt)]
    refine ⟨rfl, ?_⟩
    cases rm <;> cases neg <;> rfl
/-- A dyadic number is the number x. -/
def Dyad.num (d : Dyad) (x : ℝ) : Prop := x = d.m * 2 ^ d.e

theorem FVal.is.num {v : FVal} {x : ℝ} (h : v.is x) : v.dyad.num x := by
  obtain ⟨n, m, e, rfl, rfl⟩ := h
  unfold Dyad.num FVal.dyad
  cases n <;> push_cast <;> simp

theorem align_num {a b : Dyad} {x y : ℝ} (ha : a.num x) (hb : b.num y) :
    x = (a.align b).1 * 2 ^ (a.align b).2.2 ∧ y = (a.align b).2.1 * 2 ^ (a.align b).2.2 := by
  unfold Dyad.num at ha hb
  unfold Dyad.align
  have hp : ∀ p q : Int, p ≤ q → (2:ℝ) ^ (q - p).toNat * 2 ^ p = 2 ^ q := by
    intro p q h; rw [← zpow_natCast, ← zpow_add₀ (by norm_num)]; congr 1; omega
  split
  · rename_i h
    refine ⟨ha, ?_⟩
    dsimp only
    push_cast; rw [mul_assoc, hp _ _ h]; exact hb
  · rename_i h
    refine ⟨?_, hb⟩
    dsimp only
    push_cast; rw [mul_assoc, hp _ _ (by omega)]; exact ha

theorem Dyad.add_num {a b : Dyad} {x y : ℝ} (ha : a.num x) (hb : b.num y) : (a.add b).num (x + y) := by
  unfold Dyad.add
  split
  · rename_i h; unfold Dyad.num at ha; rw [ha, h]; simpa using hb
  · split
    · rename_i h; unfold Dyad.num at hb; rw [hb, h]; simpa using ha
    · obtain ⟨h1, h2⟩ := align_num ha hb
      unfold Dyad.num
      dsimp only
      push_cast; rw [add_mul, ← h1, ← h2]

theorem Dyad.mul_num {a b : Dyad} {x y : ℝ} (ha : a.num x) (hb : b.num y) : (a.mul b).num (x * y) := by
  unfold Dyad.num Dyad.mul at *
  rw [ha, hb]; push_cast; rw [zpow_add₀ (by norm_num)]; ring

theorem Dyad.neg_num {a : Dyad} {x : ℝ} (ha : a.num x) : a.neg.num (-x) := by
  unfold Dyad.num Dyad.neg at *
  rw [ha]; push_cast; ring

theorem Dyad.le_num {a b : Dyad} {x y : ℝ} (ha : a.num x) (hb : b.num y) : a.le b = true ↔ x ≤ y := by
  obtain ⟨h1, h2⟩ := align_num ha hb
  have : a.le b = decide ((a.align b).1 ≤ (a.align b).2.1) := rfl
  rw [this, h1, h2, decide_eq_true_eq, mul_le_mul_iff_left₀ (by positivity)]
  exact_mod_cast Iff.rfl

theorem Dyad.lt_num {a b : Dyad} {x y : ℝ} (ha : a.num x) (hb : b.num y) : a.lt b = true ↔ x < y := by
  have : a.lt b = !(b.le a) := rfl
  rw [this, ← not_le, ← Dyad.le_num hb ha]; simp

theorem num_zero {d : Dyad} {x : ℝ} (h : d.num x) : d.m = 0 ↔ x = 0 := by
  unfold Dyad.num at h; rw [h]
  have h2 : (2:ℝ) ^ d.e ≠ 0 := by positivity
  constructor
  · intro hm; rw [hm]; simp
  · intro hm; rcases mul_eq_zero.1 hm with h | h
    · exact_mod_cast h
    · exact absurd h h2

theorem num_neg {d : Dyad} {x : ℝ} (h : d.num x) : d.m < 0 ↔ x < 0 := by
  unfold Dyad.num at h; rw [h]
  have : (0:ℝ) < 2 ^ d.e := by positivity
  constructor
  · intro hm; have : (d.m:ℝ) < 0 := by exact_mod_cast hm
    nlinarith
  · intro hm
    by_contra hc
    have : (0:ℝ) ≤ d.m := by exact_mod_cast not_lt.1 hc
    nlinarith

theorem Fmt.roundDyad_gives {f : Fmt} (hf : f.sound) (rm : Rm) (z : Bool) {d : Dyad} {x : ℝ} (h : d.num x) (hx : x ≠
    0) :
    f.gives rm x (f.roundDyad rm z d) := by
  have hm : d.m ≠ 0 := fun hc => hx ((num_zero h).1 hc)
  unfold Fmt.roundDyad
  rw [if_neg hm]
  refine ⟨decide (d.m < 0), by simpa using num_neg h, ?_⟩
  refine Fmt.round_rounded f hf rm _ _ _ _ _ (by omega) ?_ (by simp)
  unfold Dyad.num at h
  have : |x| = (d.m.natAbs : ℝ) * 2 ^ d.e := by
    rw [h, abs_mul, abs_of_pos (by positivity : (0:ℝ) < 2 ^ d.e)]
    congr 1; rw [Nat.cast_natAbs]; push_cast; rfl
  refine ⟨this.ge, ?_, by simp [this]⟩
  have : (0:ℝ) < 2 ^ d.e := by positivity
  linarith

theorem Fmt.roundDyad_zero {f : Fmt} (rm : Rm) (z : Bool) {d : Dyad} {x : ℝ} (h : d.num x) (hx : x = 0) :
    f.roundDyad rm z d = (f.signBit z, 0) := by
  unfold Fmt.roundDyad
  rw [if_pos ((num_zero h).2 hx)]

theorem FVal.is.plain {v : FVal} {x : ℝ} (h : v.is x) : v.isNan = false ∧ v.isInf = false := by
  obtain ⟨n, m, e, rfl, -⟩ := h; exact ⟨rfl, rfl⟩

theorem nanResult_none (f : Fmt) (l : List FVal) (h : ∀ v ∈ l, v.isNan = false) : nanResult f l = none := by
  unfold nanResult
  have : l.find? FVal.isNan = none := by
    rw [List.find?_eq_none]; intro v hv; simp [h v hv]
  rw [this]

theorem addVal_is {f : Fmt} {rm : Rm} {a b : FVal} {x y : ℝ} (ha : a.is x) (hb : b.is y) :
    addVal f rm a b = f.roundDyad rm (zeroSumSign rm a.neg? b.neg?) (a.dyad.add b.dyad) := by
  unfold addVal
  rw [nanResult_none f _ (by simp [ha.plain, hb.plain])]
  simp [ha.plain, hb.plain]

theorem mulVal_is {f : Fmt} {rm : Rm} {a b : FVal} {x y : ℝ} (ha : a.is x) (hb : b.is y) :
    mulVal f rm a b = f.roundDyad rm (a.neg? != b.neg?) (a.dyad.mul b.dyad) := by
  unfold mulVal
  rw [nanResult_none f _ (by simp [ha.plain, hb.plain])]
  simp [ha.plain, hb.plain]

theorem fmaNan_is {f : Fmt} {rm : Rm} {a b c : FVal} {l : List FVal} {x y z : ℝ} (ha : a.is x) (hb : b.is y)
    (hc : c.is z) (hl : ∀ v ∈ l, v.isNan = false) :
    fmaNan f rm a b c l = f.roundDyad rm (zeroSumSign rm (a.neg? != b.neg?) c.neg?) ((a.dyad.mul b.dyad).add c.dyad)
      := by
  unfold fmaNan
  rw [nanResult_none f _ hl]
  simp [ha.plain, hb.plain, hc.plain]

theorem withSign_is {a : FVal} {x : ℝ} (ha : a.is x) : (a.withSign (!a.neg?)).is (-x) := by
  obtain ⟨n, m, e, rfl, rfl⟩ := ha
  exact ⟨!n, m, e, rfl, by cases n <;> simp⟩

theorem divVal_gives {f : Fmt} (hf : f.sound) (rm : Rm) {a b : FVal} {x y : ℝ} (ha : a.is x) (hb : b.is y)
    (hx : x ≠ 0) (hy : y ≠ 0) : f.gives rm (x / y) (divVal f rm a b) := by
  obtain ⟨n1, m1, e1, rfl, rfl⟩ := ha
  obtain ⟨n2, m2, e2, rfl, rfl⟩ := hb
  have h1 : m1 ≠ 0 := by rintro rfl; simp at hx
  have h2 : m2 ≠ 0 := by rintro rfl; simp at hy
  have hdv : divVal f rm (.fin n1 m1 e1) (.fin n2 m2 e2)
      = f.round rm (n1 != n2) (divMag f.fbits m1 e1 m2 e2).1 (divMag f.fbits m1 e1 m2 e2).2.1
          (divMag f.fbits m1 e1 m2 e2).2.2 := by
    unfold divVal
    rw [nanResult_none f _ (by simp [FVal.isNan])]
    simp only [h1, h2, if_false]
    rfl
  rw [hdv]
  have hp1 : (0:ℝ) < m1 := by exact_mod_cast Nat.pos_of_ne_zero h1
  have hp2 : (0:ℝ) < m2 := by exact_mod_cast Nat.pos_of_ne_zero h2
  have hE1 : (0:ℝ) < 2 ^ e1 := by positivity
  have hE2 : (0:ℝ) < 2 ^ e2 := by positivity
  have habs : |(if n1 then (-1:ℝ) else 1) * (m1 * 2 ^ e1) / ((if n2 then -1 else 1) * (m2 * 2 ^ e2))|
      = (m1 * 2 ^ e1) / (m2 * 2 ^ e2) := by
    have hA : (0:ℝ) < m1 * 2 ^ e1 := by positivity
    have hB : (0:ℝ) < m2 * 2 ^ e2 := by positivity
    have ab : ∀ (n : Bool) (z : ℝ), 0 < z → |(if n then (-1:ℝ) else 1) * z| = z := by
      intro n z hz; cases n <;> simp [abs_of_pos hz]
    rw [abs_div, ab _ _ hA, ab _ _ hB]
  refine ⟨(n1 != n2), ?_, ?_⟩
  · have hq : (0:ℝ) < (m1 * 2 ^ e1) / (m2 * 2 ^ e2) := by positivity
    cases n1 <;> cases n2 <;> simp [neg_div, div_neg] <;> positivity
  · rw [habs]
    unfold divMag
    dsimp only
    set k := f.fbits + 4 + Nat.log2 m2 with hk
    rw [Nat.shiftLeft_eq]
    set N := m1 * 2 ^ k with hN
    set Q := N / m2 with hQ
    have hdm := Nat.div_add_mod N m2
    have hlt := Nat.mod_lt N (Nat.pos_of_ne_zero h2)
    have hval : (m1 * 2 ^ e1 : ℝ) / (m2 * 2 ^ e2) = (N / m2 : ℝ) * 2 ^ (e1 - e2 - (k : Int)) := by
      rw [zpow_sub₀ (by norm_num), zpow_sub₀ (by norm_num), zpow_natCast, hN]
      push_cast; field_simp
    have hlow : (Q : ℝ) ≤ N / m2 := by
      rw [le_div_iff₀ hp2]
      have : Q * m2 ≤ N := Nat.div_mul_le_self N m2
      exact_mod_cast this
    have hhigh : (N / m2 : ℝ) < Q + 1 := by
      rw [div_lt_iff₀ hp2]
      have : N < (Q + 1) * m2 := by rw [Nat.add_mul, one_mul, mul_comm]; rw [hQ]; omega
      exact_mod_cast this
    have hst : (N % m2 != 0) = true ↔ (N / m2 : ℝ) ≠ Q := by
      rw [bne_iff_ne, ne_eq, ne_eq, not_iff_not, div_eq_iff hp2.ne']
      constructor
      · intro h0
        have : N = Q * m2 := by rw [mul_comm]; rw [hQ]; omega
        exact_mod_cast this
      · intro h0
        have : N = Q * m2 := by exact_mod_cast h0
        rw [this]; simp
    have hE : (0:ℝ) < 2 ^ (e1 - e2 - (k : Int)) := by positivity
    have hQbig : 2 ^ (f.fbits + 3) ≤ Q := by
      rw [hQ, Nat.le_div_iff_mul_le (Nat.pos_of_ne_zero h2)]
      have b : m2 < 2 ^ (Nat.log2 m2 + 1) := Nat.lt_log2_self
      calc 2 ^ (f.fbits + 3) * m2 ≤ 2 ^ (f.fbits + 3) * 2 ^ (Nat.log2 m2 + 1) := Nat.mul_le_mul_left _ b.le
        _ = 2 ^ k := by rw [← pow_add, hk]; congr 1; ring
        _ ≤ N := by rw [hN]; exact Nat.le_mul_of_pos_left _ (Nat.pos_of_ne_zero h1)
    have hQ0 : Q ≠ 0 := by have : 0 < 2 ^ (f.fbits + 3) := by positivity
                           omega
    refine Fmt.round_rounded f hf rm _ _ _ _ _ hQ0 ⟨?_, ?_, ?_⟩ ?_
    · rw [hval]; exact mul_le_mul_of_nonneg_right hlow hE.le
    · rw [hval]; exact mul_lt_mul_of_pos_right hhigh hE
    · rw [hval, hst, not_iff_not, mul_left_inj' hE.ne']
    · intro _
      have := (Nat.le_log2 hQ0).2 hQbig
      omega

theorem isqrtAux_spec (n : Nat) : ∀ k r, r * r ≤ n → n < (r + 2 ^ k) * (r + 2 ^ k) →
    isqrtAux n k r * isqrtAux n k r ≤ n ∧ n < (isqrtAux n k r + 1) * (isqrtAux n k r + 1)
  | 0, r, h1, h2 => by simpa [isqrtAux] using ⟨h1, h2⟩
  | k + 1, r, h1, h2 => by
    unfold isqrtAux
    split
    · rename_i h
      exact isqrtAux_spec n k _ h (by rw [Nat.add_assoc, ← Nat.two_mul, ← Nat.pow_succ']; exact h2)
    · rename_i h
      exact isqrtAux_spec n k _ h1 (not_le.1 h)

theorem isqrt_spec (n : Nat) : isqrt n * isqrt n ≤ n ∧ n < (isqrt n + 1) * (isqrt n + 1) := by
  unfold isqrt
  refine isqrtAux_spec n _ 0 (by simp) ?_
  rw [Nat.zero_add, ← pow_add]
  exact lt_of_lt_of_le Nat.lt_log2_self (Nat.pow_le_pow_right (by norm_num) (by omega))

theorem sqrtVal_gives {f : Fmt} (hf : f.sound) (rm : Rm) {a : FVal} {x : ℝ} (ha : a.is x) (hx : 0 < x) :
    f.gives rm (Real.sqrt x) (sqrtVal f rm a) := by
  obtain ⟨n, m, e, rfl, rfl⟩ := ha
  have hE : (0:ℝ) < 2 ^ e := by positivity
  have hn : n = false := by
    cases n with
    | false => rfl
    | true =>
      exfalso
      have : (0:ℝ) ≤ m * 2 ^ e := by positivity
      simp at hx; linarith
  subst hn
  have hm : m ≠ 0 := by rintro rfl; simp at hx
  simp only [Bool.false_eq_true, if_false, one_mul] at hx ⊢
  have hsv : sqrtVal f rm (.fin false m e) = f.round rm false (sqrtMag f.fbits m e).1 (sqrtMag f.fbits m e).2.1
      (sqrtMag f.fbits m e).2.2 := by
    unfold sqrtVal
    rw [nanResult_none f _ (by simp [FVal.isNan])]
    cases m with
    | zero => exact absurd rfl hm
    | succ m => rfl
  rw [hsv]
  refine ⟨false, iff_of_false (by simp) (not_lt.2 (Real.sqrt_nonneg _)), ?_⟩
  rw [abs_of_nonneg (Real.sqrt_nonneg _)]
  obtain ⟨k, hk, hk2, hkp⟩ : ∃ k : Nat, sqrtMag f.fbits m e = (isqrt (m <<< k), (e - k) / 2,
    isqrt (m <<< k) * isqrt (m <<< k) != m <<< k)
      ∧ 2 * ((e - k) / 2) = e - k ∧ 2 * (f.fbits + 4) ≤ k := by
    unfold sqrtMag
    dsimp only
    by_cases hc : (e - ((2 * (f.fbits + 4) : ℕ) : Int)) % 2 = 0
    · refine ⟨2 * (f.fbits + 4), by rw [if_pos hc], by omega, le_refl _⟩
    · refine ⟨2 * (f.fbits + 4) + 1, by rw [if_neg hc], by push_cast at *; omega, by omega⟩
  rw [hk]
  dsimp only
  rw [Nat.shiftLeft_eq]
  set N := m * 2 ^ k with hN
  obtain ⟨s1, s2⟩ := isqrt_spec N
  set r := isqrt N
  set h := (e - (k : Int)) / 2 with hh
  have hH : (0:ℝ) < 2 ^ h := by positivity
  have hHH : (2:ℝ) ^ h * 2 ^ h = 2 ^ (e - (k : Int)) := by rw [← zpow_add₀ (by norm_num)]; congr 1; omega
  have hxv : (m:ℝ) * 2 ^ e = N * (2 ^ h * 2 ^ h) := by
    rw [hHH, hN]; push_cast
    rw [mul_assoc, ← zpow_natCast, ← zpow_add₀ (by norm_num)]; congr 2; ring
  have hsq : Real.sqrt ((m:ℝ) * 2 ^ e) = Real.sqrt N * 2 ^ h := by
    rw [hxv, Real.sqrt_mul (Nat.cast_nonneg _), Real.sqrt_mul_self hH.le]
  have l1 : (r:ℝ) ≤ Real.sqrt N := by
    apply Real.le_sqrt_of_sq_le; rw [sq]; exact_mod_cast s1
  have l2 : Real.sqrt N < r + 1 := by
    rw [Real.sqrt_lt' (by positivity), sq]; exact_mod_cast s2
  have l3 : (r * r != N) = true ↔ Real.sqrt N ≠ r := by
    rw [bne_iff_ne, ne_eq, ne_eq, not_iff_not]
    constructor
    · intro he
      have : (N:ℝ) = r * r := by exact_mod_cast he.symm
      rw [this]; exact Real.sqrt_mul_self (Nat.cast_nonneg _)
    · intro he
      have := Real.mul_self_sqrt (Nat.cast_nonneg (α := ℝ) N)
      rw [he] at this; exact_mod_cast this
  have hbig : 2 ^ (f.fbits + 3) ≤ r := by
    by_contra hc
    have h1 : r + 1 ≤ 2 ^ (f.fbits + 3) := by omega
    have h2 : (r + 1) * (r + 1) ≤ 2 ^ (f.fbits + 3) * 2 ^ (f.fbits + 3) := Nat.mul_le_mul h1 h1
    have h3 : 2 ^ (f.fbits + 3) * 2 ^ (f.fbits + 3) ≤ 2 ^ k := by
      rw [← pow_add]; exact Nat.pow_le_pow_right (by norm_num) (by omega)
    have h4 : 2 ^ k ≤ N := by rw [hN]; exact Nat.le_mul_of_pos_left _ (Nat.pos_of_ne_zero hm)
    omega
  have hr0 : r ≠ 0 := by have : 0 < 2 ^ (f.fbits + 3) := by positivity
                         omega
  refine Fmt.round_rounded f hf rm _ _ _ _ _ hr0 ⟨?_, ?_, ?_⟩ ?_
  · rw [hsq]; exact mul_le_mul_of_nonneg_right l1 hH.le
  · rw [hsq]; exact mul_lt_mul_of_pos_right l2 hH
  · rw [hsq, l3, not_iff_not, mul_left_inj' hH.ne']
  · intro _
    have := (Nat.le_log2 hr0).2 hbig
    omega

theorem cmpVal_is {a b : FVal} {x y : ℝ} (ha : a.is x) (hb : b.is y) :
    (cmpVal a b = .lt ↔ x < y) ∧ (cmpVal a b = .eq ↔ x = y) ∧ (cmpVal a b = .gt ↔ y < x) := by
  have hv : cmpVal a b = if (a.dyad).lt b.dyad then .lt else if (b.dyad).lt a.dyad then .gt else .eq := by
    obtain ⟨n1, m1, e1, rfl, -⟩ := ha
    obtain ⟨n2, m2, e2, rfl, -⟩ := hb
    rfl
  have h1 := Dyad.lt_num ha.num hb.num
  have h2 := Dyad.lt_num hb.num ha.num
  rw [hv]
  by_cases c1 : a.dyad.lt b.dyad = true
  · have := h1.1 c1
    rw [if_pos c1]; simp [this, this.ne, this.le]
  · rw [if_neg c1]
    have n1 := fun h => c1 (h1.2 h)
    by_cases c2 : b.dyad.lt a.dyad = true
    · have := h2.1 c2
      rw [if_pos c2]; simp [this, this.ne', this.le]
    · rw [if_neg c2]
      have n2 := fun h => c2 (h2.2 h)
      have : x = y := le_antisymm (not_lt.1 n2) (not_lt.1 n1)
      simp [this]
/-! ## Exact sums and the accumulator words (R76-R78) -/

theorem FVal.ofDyad_is {d : Dyad} {x : ℝ} (z : Bool) (h : d.num x) : (FVal.ofDyad z d).is x := by
  unfold FVal.ofDyad
  unfold Dyad.num at h
  split
  · rename_i hm
    exact ⟨z, 0, 0, rfl, by rw [h, hm]; simp⟩
  · refine ⟨_, _, _, rfl, ?_⟩
    rw [h, Nat.cast_natAbs]
    by_cases hn : d.m < 0
    · have : (d.m : ℝ) < 0 := by exact_mod_cast hn
      simp only [hn, decide_true, if_true]
      push_cast
      rw [abs_of_neg this]; ring
    · have : (0:ℝ) ≤ d.m := by exact_mod_cast not_lt.1 hn
      simp only [hn, decide_false, Bool.false_eq_true, if_false]
      push_cast
      rw [abs_of_nonneg this]; ring

theorem Dyad.foldl_num : ∀ (l : List Dyad) (xs : List ℝ) (a : Dyad) (x : ℝ), List.Forall₂ Dyad.num l xs → a.num x →
    (l.foldl Dyad.add a).num (x + xs.sum)
  | [], _, a, x, h, ha => by
    cases h; simpa using ha
  | d :: l, _, a, x, h, ha => by
    cases h with
    | cons h1 h2 =>
      rw [List.foldl_cons, List.sum_cons, ← add_assoc]
      exact Dyad.foldl_num l _ _ _ h2 (Dyad.add_num ha h1)

theorem Dyad.sum_num {l : List Dyad} {xs : List ℝ} (h : List.Forall₂ Dyad.num l xs) : (Dyad.sum l).num xs.sum := by
  have := Dyad.foldl_num l xs Dyad.zero 0 h (by simp [Dyad.num, Dyad.zero])
  rwa [zero_add] at this

theorem sumTerms_is {l : List FVal} {xs : List ℝ} (h : List.Forall₂ FVal.is l xs) : (sumTerms l).is xs.sum := by
  have hp : ∀ v ∈ l, v.isNan = false ∧ v.isInf = false := by
    induction h with
    | nil => simp
    | cons h1 _ ih =>
      intro v hv
      rcases List.mem_cons.1 hv with rfl | hv
      · exact h1.plain
      · exact ih v hv
  unfold sumTerms
  have h1 : l.any FVal.isNan = false := by
    rw [List.any_eq_false]; intro v hv; simp [(hp v hv).1]
  have h2 : l.any (fun v => v.isInf && !v.neg?) = false := by
    rw [List.any_eq_false]; intro v hv; simp [(hp v hv).2]
  have h3 : l.any (fun v => v.isInf && v.neg?) = false := by
    rw [List.any_eq_false]; intro v hv; simp [(hp v hv).2]
  rw [h1, h2, h3]
  refine FVal.ofDyad_is _ (Dyad.sum_num ?_)
  rw [List.forall₂_map_left_iff]
  exact h.imp (fun _ _ hh => hh.num)

theorem mulExact_is {a b : FVal} {x y : ℝ} (ha : a.is x) (hb : b.is y) : (mulExact a b).is (x * y) := by
  unfold mulExact
  simp only [ha.plain.1, hb.plain.1, ha.plain.2, hb.plain.2, Bool.or_self, Bool.false_eq_true, if_false, Bool.false_and,
    Bool.and_false]
  obtain ⟨n1, m1, e1, rfl, rfl⟩ := ha
  obtain ⟨n2, m2, e2, rfl, rfl⟩ := hb
  refine ⟨_, _, _, rfl, ?_⟩
  have : ((FVal.fin n1 m1 e1).dyad.mul (FVal.fin n2 m2 e2).dyad).m.natAbs = m1 * m2 := by
    cases n1 <;> cases n2 <;> simp [FVal.dyad, Dyad.mul, Int.natAbs_mul]
  rw [this]
  simp only [FVal.dyad, FVal.neg?]
  rw [zpow_add₀ (by norm_num)]
  cases n1 <;> cases n2 <;> push_cast <;> simp <;> ring

theorem addExact_is {a b : FVal} {x y : ℝ} (ha : a.is x) (hb : b.is y) : (addExact a b).is (x + y) := by
  unfold addExact
  simp only [ha.plain, hb.plain, Bool.false_eq_true, if_false]
  exact FVal.ofDyad_is _ (Dyad.add_num ha.num hb.num)

/-- A fixed-layout word of a number on the layout's grid holds it, or the infinity of its sign with OVERFLOW (R44). -/
theorem w72Fixed_is (lay : Nat) (hl : lay ≠ layFloat) (s : Bool) (m : Nat) (e : Int) (N : Int)
    (hN : N = (if s then -1 else 1) * (m * 2 ^ (e - fixedLsb lay).toNat)) :
    (-(2 ^ 69) ≤ N → N < 2 ^ 69 → (w72Fixed lay (.fin s m e)).2 = 0 ∧
      (w72Val lay (w72Fixed lay (.fin s m e)).1).is (N * 2 ^ fixedLsb lay)) ∧
    (2 ^ 69 ≤ N → (w72Fixed lay (.fin s m e)).2 = fOverflow ∧ w72Val lay (w72Fixed lay (.fin s m e)).1 = .inf false) ∧
    (N < -(2 ^ 69) → (w72Fixed lay (.fin s m e)).2 = fOverflow ∧ w72Val lay (w72Fixed lay (.fin s m e)).1 = .inf true)
      := by
  have hn : (if s then -((m : Int) * 2 ^ (e - fixedLsb lay).toNat) else (m : Int) * 2 ^ (e - fixedLsb lay).toNat) = N
      := by
    rw [hN]; cases s <;> simp
  have hv : w72Fixed lay (.fin s m e) = if N < -(2 ^ 69) then (BitVec.ofNat 72 (2 * 2 ^ 70), fOverflow)
      else if 2 ^ 69 ≤ N then (BitVec.ofNat 72 (1 * 2 ^ 70), fOverflow)
      else (BitVec.ofNat 72 (N % 2 ^ 70).toNat, 0) := by
    rw [← hn]; rfl
  have hw : ∀ w : W72, w72Val lay w = match bits w 71 70 with
      | 0 =>
        let n := signedOf 70 (bits w 69 0)
        .fin (decide (n < 0)) n.natAbs (fixedLsb lay)
      | 1 => .inf false
      | 2 => .inf true
      | _ => .nan false false 0 := by
    intro w; unfold w72Val; refine (if_neg hl).trans ?_; rfl
  refine ⟨fun h1 h2 => ?_, fun h => ?_, fun h => ?_⟩
  · rw [hv, if_neg (by omega), if_neg (by omega)]
    refine ⟨rfl, ?_⟩
    obtain ⟨k, hk⟩ : ∃ k : Nat, N % 2 ^ 70 = k := ⟨(N % 2 ^ 70).toNat, by omega⟩
    have hk2 : k < 2 ^ 70 := by omega
    have hb1 : bits (BitVec.ofNat 72 (N % 2 ^ 70).toNat) 71 70 = 0 := by
      unfold bits; rw [BitVec.toNat_ofNat, hk]; simp only [Int.toNat_natCast]; omega
    have hb2 : bits (BitVec.ofNat 72 (N % 2 ^ 70).toNat) 69 0 = k := by
      unfold bits; rw [BitVec.toNat_ofNat, hk]; simp only [Int.toNat_natCast]; omega
    rw [hw, hb1, hb2]
    have hsig : signedOf 70 k = N := by
      unfold signedOf
      split <;> omega
    dsimp only
    rw [hsig]
    refine ⟨_, _, _, rfl, ?_⟩
    rw [Nat.cast_natAbs]
    by_cases hneg : N < 0
    · have : (N : ℝ) < 0 := by exact_mod_cast hneg
      simp only [hneg, decide_true, if_true]; push_cast; rw [abs_of_neg this]; ring
    · have : (0:ℝ) ≤ N := by exact_mod_cast not_lt.1 hneg
      simp only [hneg, decide_false, Bool.false_eq_true, if_false]; push_cast; rw [abs_of_nonneg this]; ring
  · rw [hv, if_neg (by omega), if_pos h]
    refine ⟨rfl, ?_⟩
    have : bits (BitVec.ofNat 72 (1 * 2 ^ 70)) 71 70 = 1 := by decide
    rw [hw, this]
    rfl
  · rw [hv, if_pos h]
    refine ⟨rfl, ?_⟩
    have : bits (BitVec.ofNat 72 (2 * 2 ^ 70)) 71 70 = 2 := by decide
    rw [hw, this]
    rfl

theorem w72Float_fin (s : Bool) {m : Nat} {e : Int} (hm : m ≠ 0) : w72Float (.fin s m e) =
    if 32768 ≤ leadExp (roundTo .nearest s m e (leadExp m e - 55) false).1 (leadExp m e - 55) then
      (BitVec.ofNat 72 (natOf s * 2 ^ 71 + 0xFFFF * 2 ^ 55 + 0), fOverflow)
    else if leadExp (roundTo .nearest s m e (leadExp m e - 55) false).1 (leadExp m e - 55) < -32766 then
      (BitVec.ofNat 72 (natOf s * 2 ^ 71 + 0 * 2 ^ 55 + 0), fUnderflow)
    else (BitVec.ofNat 72 (natOf s * 2 ^ 71
      + (leadExp (roundTo .nearest s m e (leadExp m e - 55) false).1 (leadExp m e - 55) + 32767).toNat * 2 ^ 55
      + (roundTo .nearest s m e (leadExp m e - 55) false).1 % 2 ^ 55), 0) := by
  rw [w72Float] <;> first
    | exact hm
    | (generalize roundTo .nearest s m e (leadExp m e - 55) false = r
       obtain ⟨n, i⟩ := r
       try dsimp only
       split_ifs <;> congr 3)

/-- A float-layout word of a number is that number rounded to 56 bits, infinity past the range and zero below it
(R77). -/
theorem w72Float_is (s : Bool) (m : Nat) (e : Int) (x : ℝ) (hx : x = m * 2 ^ e) (hm : m ≠ 0) :
    ∃ (q : Int) (n : Nat), 2 ^ 55 * 2 ^ q ≤ x ∧ x < 2 ^ 56 * 2 ^ q ∧ Rm.nearest.rounds s n (2 ^ q) x ∧
      (2 ^ (32768 : Int) ≤ n * (2:ℝ) ^ q → (w72Float (.fin s m e)).2 = fOverflow ∧
        w72Val layFloat (w72Float (.fin s m e)).1 = .inf s) ∧
      (n * (2:ℝ) ^ q < 2 ^ (-32766 : Int) → (w72Float (.fin s m e)).2 = fUnderflow ∧
        w72Val layFloat (w72Float (.fin s m e)).1 = .fin s 0 0) ∧
      (2 ^ (-32766 : Int) ≤ n * (2:ℝ) ^ q → n * (2:ℝ) ^ q < 2 ^ (32768 : Int) → (w72Float (.fin s m e)).2 = 0 ∧
        (w72Val layFloat (w72Float (.fin s m e)).1).is ((if s then -1 else 1) * (n * 2 ^ q))) := by
  have hx0 : (0:ℝ) < 2 ^ e := by positivity
  have hwn : within m e false x := ⟨hx.ge, by rw [hx]; linarith, by simp [hx]⟩
  obtain ⟨p1, p2⟩ := within_precise (st := false) hm hwn
  set q := leadExp m e - 55 with hq
  have zq : ∀ k : Nat, (2:ℝ) ^ k * 2 ^ q = 2 ^ (q + k) := by
    intro k; rw [← zpow_natCast, ← zpow_add₀ (by norm_num)]; congr 1; ring
  have a1 : (2:ℝ) ^ 55 * 2 ^ q ≤ x := by rw [zq]; convert p1 using 2; push_cast; omega
  have a2 : x < 2 ^ 56 * 2 ^ q := by rw [zq]; convert p2 using 2; push_cast; omega
  have hr := (roundTo_rounds .nearest s m e q false x hwn (by simp)).1
  set n := (roundTo .nearest s m e q false).1 with hn
  have hu : (0:ℝ) < 2 ^ q := by positivity
  obtain ⟨bl, bu⟩ := rounds_bounds hu hr
  have n1 : 2 ^ 55 ≤ n := bl _ (by rw [Nat.cast_pow, Nat.cast_ofNat]; exact a1)
  have n2 : n ≤ 2 ^ 56 := bu _ (by rw [Nat.cast_pow, Nat.cast_ofNat]; exact a2)
  have hn0 : n ≠ 0 := by have : 0 < 2 ^ 55 := by positivity
                         omega
  set l := leadExp n q with hl
  have hlv : l = (Nat.log2 n : Int) + q := rfl
  have hcase : (n < 2 ^ 56 ∧ Nat.log2 n = 55) ∨ (n = 2 ^ 56 ∧ Nat.log2 n = 56) := by
    by_cases h : n = 2 ^ 56
    · right; exact ⟨h, by rw [h, Nat.log2_two_pow]⟩
    · left
      refine ⟨by omega, ?_⟩
      exact (Nat.log2_eq_iff hn0).2 ⟨n1, by omega⟩
  have hval : ((2:ℝ) ^ l ≤ n * 2 ^ q) ∧ (n * (2:ℝ) ^ q < 2 ^ (l + 1)) := by
    have b1 : ((2 ^ Nat.log2 n : ℕ) : ℝ) ≤ n := by exact_mod_cast Nat.log2_self_le hn0
    have b2 : (n : ℝ) < ((2 ^ (Nat.log2 n + 1) : ℕ) : ℝ) := by exact_mod_cast Nat.lt_log2_self
    push_cast at b1 b2
    constructor
    · have : (2:ℝ) ^ l = 2 ^ Nat.log2 n * 2 ^ q := by rw [zq, hlv]; congr 1; ring
      rw [this]; gcongr
    · have : (2:ℝ) ^ (l + 1) = 2 ^ (Nat.log2 n + 1) * 2 ^ q := by rw [zq, hlv]; congr 1; push_cast; ring
      rw [this]; gcongr
  have zlt : ∀ a b : Int, (2:ℝ) ^ a < 2 ^ b → a < b := fun a b h => (zpow_lt_zpow_iff_right₀ (by norm_num)).1 h
  have zle : ∀ a b : Int, a ≤ b → (2:ℝ) ^ a ≤ 2 ^ b := fun a b h => zpow_le_zpow_right₀ (by norm_num) h
  let put (s : Bool) (ex fr : Nat) : W72 := BitVec.ofNat 72 (natOf s * 2 ^ 71 + ex * 2 ^ 55 + fr)
  have hv : w72Float (.fin s m e) = if 32768 ≤ l then (put s 0xFFFF 0, fOverflow)
      else if l < -32766 then (put s 0 0, fUnderflow)
      else (put s (l + 32767).toNat (n % 2 ^ 55), 0) := by
    rw [w72Float_fin s hm]
  have hput : ∀ (ex fr : Nat), ex < 2 ^ 16 → fr < 2 ^ 55 → w72Val layFloat (put s ex fr)
      = if ex = 0 then .fin s 0 0
        else if ex = 0xFFFF then
          if fr = 0 then .inf s else .nan s (!(put s ex fr).getLsbD 54) ((fr % 2 ^ 54) <<< 10)
        else .fin s (2 ^ 55 + fr) ((ex : Int) - 32767 - 55) := by
    intro ex fr h1 h2
    have hN : natOf s ≤ 1 := by cases s <;> simp [natOf]
    have ht : (put s ex fr).toNat = natOf s * 2 ^ 71 + ex * 2 ^ 55 + fr := by
      show (BitVec.ofNat 72 _).toNat = _
      rw [BitVec.toNat_ofNat, Nat.mod_eq_of_lt]; omega
    have e1 : bits (put s ex fr) 70 55 = ex := by unfold bits; rw [ht]; omega
    have e2 : bits (put s ex fr) 54 0 = fr := by unfold bits; rw [ht]; omega
    have e3 : (put s ex fr).getLsbD 71 = s := by
      rw [← BitVec.testBit_toNat, Nat.testBit_eq_decide_div_mod_eq, ht]
      have : (natOf s * 2 ^ 71 + ex * 2 ^ 55 + fr) / 2 ^ 71 % 2 = natOf s := by omega
      rw [this]; cases s <;> rfl
    unfold w72Val
    rw [if_pos rfl]
    dsimp only
    rw [e1, e2, e3]
  refine ⟨q, n, a1, a2, hr, fun h => ?_, fun h => ?_, fun h1 h2 => ?_⟩
  · have : 32768 ≤ l := by have := zlt _ _ (lt_of_le_of_lt h hval.2); omega
    rw [hv, if_pos this]
    exact ⟨rfl, by rw [hput _ _ (by norm_num) (by norm_num)]; rfl⟩
  · have : l < -32766 := zlt _ _ (lt_of_le_of_lt hval.1 h)
    rw [hv, if_neg (by omega), if_pos this]
    exact ⟨rfl, by rw [hput _ _ (by norm_num) (by norm_num)]; rfl⟩
  · have c1 : l < 32768 := zlt _ _ (lt_of_le_of_lt hval.1 h2)
    have c2 : -32766 ≤ l := by have := zlt _ _ (lt_of_le_of_lt h1 hval.2); omega
    rw [hv, if_neg (by omega), if_neg (by omega)]
    refine ⟨rfl, ?_⟩
    rw [hput _ _ (by omega) (Nat.mod_lt _ (by positivity)), if_neg (by omega), if_neg (by omega)]
    refine ⟨_, _, _, rfl, ?_⟩
    congr 1
    rcases hcase with ⟨h3, h4⟩ | ⟨h3, h4⟩
    · have e1 : 2 ^ 55 + n % 2 ^ 55 = n := by omega
      have e2 : ((l + 32767).toNat : Int) - 32767 - 55 = q := by rw [hlv, h4]; rw [hlv, h4] at c2; omega
      rw [e1, e2]
    · have e1 : 2 ^ 55 + n % 2 ^ 55 = 2 ^ 55 := by rw [h3]; norm_num
      have e2 : ((l + 32767).toNat : Int) - 32767 - 55 = 1 + q := by rw [hlv, h4]; rw [hlv, h4] at c2; omega
      rw [e1, e2, h3, zpow_one_add₀ (by norm_num), Nat.cast_pow, Nat.cast_pow, Nat.cast_ofNat]
      ring

/-- A code of FP64 has 64 bits. -/
theorem fp64_round_lt (rm : Rm) (neg : Bool) (m : Nat) (e : Int) (st : Bool) : (fp64.round rm neg m e st).1 < 2 ^ 64
    := by
  unfold Fmt.round
  have hs : fp64.signBit neg ≤ 2 ^ 63 := by cases neg <;> simp [Fmt.signBit, fp64]
  generalize fp64.roundMag rm neg m e st = r
  obtain ⟨code, cut, tiny⟩ := r
  dsimp only
  split
  · dsimp only
    have h1 : fp64.infCode neg < 2 ^ 64 := by cases neg <;> decide
    have h2 : fp64.signBit neg + fp64.maxFin < 2 ^ 64 := by cases neg <;> decide
    split_ifs <;> assumption
  · rename_i h
    have : fp64.maxFin < 2 ^ 63 := by decide
    dsimp only
    omega

theorem fp64_roundDyad_lt (rm : Rm) (z : Bool) (d : Dyad) : (fp64.roundDyad rm z d).1 < 2 ^ 64 := by
  unfold Fmt.roundDyad
  split
  · cases z <;> decide
  · exact fp64_round_lt _ _ _ _ _

/-- HI of a pair is the number rounded to FP64, LO the rest rounded again (R78). -/
theorem w72Pair_is (s : Bool) (m : Nat) (e : Int) (x : ℝ) (hx : (FVal.fin s m e).is x) (hm : x ≠ 0) :
    ∃ (hi lo : Nat) (f1 f2 : FpFlags), fp64.gives .nearest x (hi, f1) ∧
      ((fp64.decode hi).isInf = true → w72Pair (.fin s m e) = (BitVec.ofNat 72 hi, 0, fOverflow)) ∧
      (∀ h, (fp64.decode hi).is h → w72Pair (.fin s m e) = (BitVec.ofNat 72 hi, BitVec.ofNat 72 lo, 0) ∧
        (x - h = 0 → lo = 0) ∧ (x - h ≠ 0 → fp64.gives .nearest (x - h) (lo, f2))) ∧
      hi < 2 ^ 64 ∧ lo < 2 ^ 64 := by
  have hs : fp64.sound := by unfold Fmt.sound; decide
  set d : Dyad := (FVal.fin s m e).dyad with hd
  have hdn : d.num x := hx.num
  have hm0 : m ≠ 0 := by
    rintro rfl
    obtain ⟨n', m', e', h1, h2⟩ := hx
    cases h1; simp at h2; exact hm h2
  set hi := (fp64.roundDyad .nearest s d).1 with hhi
  set lo := (fp64.roundDyad .nearest false (d.sub (fp64.decode hi).dyad)).1 with hlo
  have hv : w72Pair (.fin s m e) = if (fp64.decode hi).isInf then (BitVec.ofNat 72 hi, 0, fOverflow)
      else if m = 0 then (BitVec.ofNat 72 hi, 0, 0)
      else (BitVec.ofNat 72 hi, BitVec.ofNat 72 lo, 0) := rfl
  refine ⟨hi, lo, (fp64.roundDyad .nearest s d).2, (fp64.roundDyad .nearest false (d.sub (fp64.decode hi).dyad)).2,
    Fmt.roundDyad_gives hs _ _ hdn hm, fun h => by rw [hv, if_pos h], fun h hh => ?_,
    fp64_roundDyad_lt _ _ _, fp64_roundDyad_lt _ _ _⟩
  have hsub : (d.sub (fp64.decode hi).dyad).num (x - h) := by
    unfold Dyad.sub; rw [sub_eq_add_neg]; exact Dyad.add_num hdn (Dyad.neg_num hh.num)
  rw [hv, if_neg (by simp [hh.plain]), if_neg hm0]
  refine ⟨rfl, fun h0 => ?_, fun h0 => Fmt.roundDyad_gives hs _ _ hsub h0⟩
  rw [hlo, Fmt.roundDyad_zero _ _ hsub h0]; rfl

end Sys2Proof.Machine
end

