-- ==== Sys2Proof/Laws/Converter.lean ====
section
/-! SUPPORT. One element through the converter is the exact product rounded once (R54 to R61). -/
namespace Sys2Proof.Machine

set_option Elab.async false

/-- The generator bits have 16 bits. -/
def Rounding.ok : Rounding → Prop
  | .dir _ => True
  | .sr b => b < 2 ^ 16

theorem Rounding.rounds_bounds {k : Rounding} {neg : Bool} {n : Nat} {u x : ℝ} (hu : 0 < u)
    (h : k.rounds neg n u x) : (∀ i : ℕ, (i : ℝ) * u ≤ x → i ≤ n) ∧ (∀ i : ℕ, x < i * u → n ≤ i) := by
  cases k with
  | dir rm => exact Machine.rounds_bounds hu h
  | sr b =>
    obtain ⟨i, t, h1, h2, -, -, h3⟩ := h
    have key : ∀ j : ℕ, ((j : ℝ) * u ≤ x → j ≤ i) ∧ (x < j * u → i + 1 ≤ j) := by
      intro j
      constructor
      · intro hj
        have : (j : ℝ) < i + 1 := lt_of_mul_lt_mul_right (lt_of_le_of_lt hj h2) hu.le
        have : j < i + 1 := by exact_mod_cast this
        omega
      · intro hj
        have : (i : ℝ) < j := lt_of_mul_lt_mul_right (lt_of_le_of_lt h1 hj) hu.le
        have : i < j := by exact_mod_cast this
        omega
    constructor
    · intro j hj
      have := (key j).1 hj
      split at h3 <;> omega
    · intro j hj
      have := (key j).2 hj
      split at h3 <;> omega

theorem Rounding.rounds_unique {k : Rounding} {neg : Bool} {a b : Nat} {u x : ℝ} (hu : 0 < u)
    (ha : k.rounds neg a u x) (hb : k.rounds neg b u x) : a = b := by
  cases k with
  | dir rm =>
    have eqn : ∀ a b : Nat, rm.rounds neg a u x → rm.rounds neg b u x → a ≤ b := by
      intro a b ha hb
      by_contra hab
      have hab' : (b:ℝ) + 1 ≤ a := by exact_mod_cast (not_le.1 hab)
      have hmul : ((b:ℝ) + 1) * u ≤ a * u := by gcongr
      unfold Rm.rounds at ha hb
      split at ha
      · rename_i hrm
        rw [if_pos hrm] at hb
        have a1 := abs_le.1 (show |(a:ℝ) * u - x| ≤ u / 2 by linarith [ha.1])
        have b1 := abs_le.1 (show |(b:ℝ) * u - x| ≤ u / 2 by linarith [hb.1])
        have ea : (a:ℝ) * u - x = u / 2 := by nlinarith [a1.2, b1.1]
        have eb : (b:ℝ) * u - x = -(u / 2) := by nlinarith [a1.2, b1.1]
        have h2a := ha.2 (by rw [ea, abs_of_pos (by linarith)]; ring)
        have h2b := hb.2 (by rw [eb, abs_neg, abs_of_pos (by linarith)]; ring)
        have : (a:ℝ) * u = (b + 1) * u := by linarith
        have : (a:ℝ) = b + 1 := mul_right_cancel₀ hu.ne' this
        have : a = b + 1 := by exact_mod_cast this
        omega
      · rename_i hrm
        rw [if_neg hrm] at hb
        split at ha
        · rename_i hw
          rw [if_pos hw] at hb
          nlinarith [ha.2, hb.1]
        · rename_i hw
          rw [if_neg hw] at hb
          nlinarith [ha.1, hb.2]
    exact le_antisymm (eqn _ _ ha hb) (eqn _ _ hb ha)
  | sr b =>
    obtain ⟨i, t, h1, h2, h3, h4, h5⟩ := ha
    obtain ⟨i', t', h1', h2', h3', h4', h5'⟩ := hb
    have e1 : i = i' := by
      have c1 : (i : ℝ) < i' + 1 := lt_of_mul_lt_mul_right (lt_of_le_of_lt h1 h2') hu.le
      have c2 : (i' : ℝ) < i + 1 := lt_of_mul_lt_mul_right (lt_of_le_of_lt h1' h2) hu.le
      have c1 : i < i' + 1 := by exact_mod_cast c1
      have c2 : i' < i + 1 := by exact_mod_cast c2
      omega
    subst e1
    have e2 : t = t' := by
      have c1 : (t : ℝ) < t' + 1 := lt_of_mul_lt_mul_right (lt_of_le_of_lt h3 h4') hu.le
      have c2 : (t' : ℝ) < t + 1 := lt_of_mul_lt_mul_right (lt_of_le_of_lt h3' h4) hu.le
      have c1 : t < t' + 1 := by exact_mod_cast c1
      have c2 : t' < t + 1 := by exact_mod_cast c2
      omega
    subst e2
    rw [h5, h5']

/-- The converter's rounding of an exact magnitude (R54, R61). -/
theorem Rounding.to_rounds {k : Rounding} (hk : k.ok) (neg : Bool) (m : Nat) (e q : Int) :
    k.rounds neg (k.to neg m e q).1 (2 ^ q) (m * 2 ^ e) ∧
      ((k.to neg m e q).2 = true ↔ (k.to neg m e q).1 * (2:ℝ) ^ q ≠ m * 2 ^ e) := by
  have he : (0:ℝ) < 2 ^ e := by positivity
  cases k with
  | dir rm => exact roundTo_rounds rm neg m e q false _ ⟨le_rfl, by linarith, by simp⟩ (by simp)
  | sr b =>
    have hb : b < 2 ^ 16 := hk
    show Rounding.rounds (.sr b) neg (srTo b m e q).1 (2 ^ q) (m * 2 ^ e) ∧ _
    unfold Rounding.to srTo Rounding.rounds
    dsimp only
    have hu : (0:ℝ) < 2 ^ q := by positivity
    by_cases h : q ≤ e
    · rw [if_pos h]
      dsimp only
      have hpow : (2:ℝ) ^ (e - q).toNat * 2 ^ q = 2 ^ e := by
        rw [← zpow_natCast, ← zpow_add₀ (by norm_num)]; congr 1; omega
      have hv : ((m * 2 ^ (e - q).toNat : ℕ) : ℝ) * 2 ^ q = m * 2 ^ e := by
        push_cast; rw [mul_assoc, hpow]
      refine ⟨⟨m * 2 ^ (e - q).toNat, 0, hv.le, ?_, ?_, ?_, ?_⟩, ?_⟩
      · rw [add_mul, hv]; linarith
      · rw [hv]; simp
      · rw [hv]; simpa using hu
      · rw [if_neg (by omega)]
      · rw [hv]; simp
    · rw [if_neg h]
      dsimp only
      set sh := (q - e).toNat with hsh
      have hpow : (2:ℝ) ^ sh * 2 ^ e = 2 ^ q := by
        rw [← zpow_natCast, ← zpow_add₀ (by norm_num)]; congr 1; omega
      have hdiv : m >>> sh * 2 ^ sh + m % 2 ^ sh = m := by
        rw [Nat.shiftRight_eq_div_pow]; exact Nat.div_add_mod' m _
      have hlt : m % 2 ^ sh < 2 ^ sh := Nat.mod_lt _ (by positivity)
      have hmR : (m : ℝ) * 2 ^ e = (m >>> sh : ℕ) * 2 ^ q + (m % 2 ^ sh : ℕ) * 2 ^ e := by
        rw [← hpow]
        have : ((m >>> sh * 2 ^ sh + m % 2 ^ sh : ℕ) : ℝ) = m := by exact_mod_cast hdiv
        rw [Nat.cast_add, Nat.cast_mul, Nat.cast_pow, Nat.cast_ofNat] at this
        rw [← this, add_mul, mul_assoc]
      have hrR : ((m % 2 ^ sh : ℕ) : ℝ) * 2 ^ e < 2 ^ q := by
        rw [← hpow]
        have : ((m % 2 ^ sh : ℕ) : ℝ) < 2 ^ sh := by exact_mod_cast hlt
        gcongr
      set r := m % 2 ^ sh with hr
      set n := m >>> sh with hn
      have ht1 : (r * 2 ^ 16) >>> sh * 2 ^ sh ≤ r * 2 ^ 16 := by
        rw [Nat.shiftRight_eq_div_pow]; exact Nat.div_mul_le_self _ _
      have ht2 : r * 2 ^ 16 < ((r * 2 ^ 16) >>> sh + 1) * 2 ^ sh := by
        have := Nat.lt_div_mul_add (a := r * 2 ^ 16) (b := 2 ^ sh) (by positivity)
        rw [Nat.shiftRight_eq_div_pow, Nat.add_mul, Nat.one_mul]; exact this
      refine ⟨⟨n, (r * 2 ^ 16) >>> sh, ?_, ?_, ?_, ?_, rfl⟩, ?_⟩
      · rw [hmR]; have : (0:ℝ) ≤ r * 2 ^ e := by positivity
        linarith
      · rw [hmR, add_mul]; linarith
      · rw [hmR, ← hpow]
        have : (((r * 2 ^ 16) >>> sh : ℕ) : ℝ) * 2 ^ sh ≤ r * 2 ^ 16 := by exact_mod_cast ht1
        calc (((r * 2 ^ 16) >>> sh : ℕ) : ℝ) * (2 ^ sh * 2 ^ e) = (((r * 2 ^ 16) >>> sh : ℕ) : ℝ) * 2 ^ sh * 2 ^ e :=
          (mul_assoc _ _ _).symm
          _ ≤ r * 2 ^ 16 * 2 ^ e := by gcongr
          _ = _ := by ring
      · rw [hmR, ← hpow]
        have : (r : ℝ) * 2 ^ 16 < ((((r * 2 ^ 16) >>> sh : ℕ) : ℝ) + 1) * 2 ^ sh := by exact_mod_cast ht2
        calc (2:ℝ) ^ 16 * ((n:ℝ) * (2 ^ sh * 2 ^ e) + r * 2 ^ e - n * (2 ^ sh * 2 ^ e)) = r * 2 ^ 16 * 2 ^ e := by ring
          _ < ((((r * 2 ^ 16) >>> sh : ℕ) : ℝ) + 1) * 2 ^ sh * 2 ^ e := mul_lt_mul_of_pos_right this he
          _ = _ := by ring
      · rw [hmR]
        have hne : r ≠ 0 → ∀ j : Nat, (j = n ∨ j = n + 1) → (j : ℝ) * 2 ^ q ≠ n * 2 ^ q + r * 2 ^ e := by
          intro h0 j hj
          have hp : (0:ℝ) < r * 2 ^ e := by
            have : (0:ℝ) < r := by exact_mod_cast Nat.pos_of_ne_zero h0
            positivity
          rcases hj with rfl | rfl
          · linarith
          · push_cast; rw [add_mul]; linarith
        by_cases h0 : r = 0
        · have : ¬ 2 ^ 16 ≤ (r * 2 ^ 16) >>> sh + b := by
            rw [h0, Nat.zero_mul, Nat.zero_shiftRight]; omega
          rw [if_neg this, h0]; simp
        · have := hne h0 (if 2 ^ 16 ≤ (r * 2 ^ 16) >>> sh + b then n + 1 else n) (by split <;> simp)
          exact ⟨fun _ => this, fun _ => by simpa using h0⟩

/-- An exact magnitude through the converter (R54, R57, R58). -/
theorem convVal_converts {f : Fmt} (hf : f.sound) {k : Rounding} (hk : k.ok) (sat neg : Bool) {m : Nat} (e : Int) (hm
    : m ≠ 0) :
    f.converts k (f.qnan.isNone || sat) neg (m * 2 ^ e) (convVal f k sat (.fin neg m e)) := by
  have he : (0:ℝ) < 2 ^ e := by positivity
  have hwn : within m e false ((m:ℝ) * 2 ^ e) := ⟨le_rfl, by linarith, by simp⟩
  obtain ⟨p1, p2⟩ := within_precise hm hwn
  set x : ℝ := m * 2 ^ e with hx
  set l := leadExp m e with hl
  set low : Int := 1 - (f.bias : Int) - f.fbits with hlow
  set q := f.quantum m e with hq
  have hqv : q = (if l < 1 - (f.bias : Int) then 1 - (f.bias : Int) else l) - f.fbits := rfl
  have hlq : l - f.fbits ≤ q ∧ low ≤ q := by rw [hqv]; split <;> constructor <;> omega
  have z : ∀ a : Int, (2:ℝ) ^ f.fbits * 2 ^ a = 2 ^ (a + f.fbits) := by
    intro a; rw [← zpow_natCast, ← zpow_add₀ (by norm_num)]; congr 1; omega
  have z1 : ∀ a : Int, (2:ℝ) ^ (f.fbits + 1) * 2 ^ a = 2 ^ (a + f.fbits + 1) := by
    intro a; rw [← zpow_natCast, ← zpow_add₀ (by norm_num)]; congr 1; push_cast; omega
  have zm : ∀ a b : Int, a ≤ b → (2:ℝ) ^ a ≤ 2 ^ b := fun a b hab => zpow_le_zpow_right₀ (by norm_num) hab
  have hunit : f.unit q x := by
    unfold Fmt.unit Fmt.precise
    dsimp only
    rw [z, z1]
    by_cases hc : l < 1 - (f.bias : Int)
    · right
      rw [if_pos hc] at hqv
      refine ⟨hqv, lt_of_lt_of_le p2 (zm _ _ (by omega))⟩
    · left
      rw [if_neg hc] at hqv
      refine ⟨⟨?_, ?_⟩, hlq.2⟩
      · exact le_trans (zm _ _ (by omega)) p1
      · exact lt_of_lt_of_le p2 (zm _ _ (by omega))
  have hrt := Rounding.to_rounds hk neg m e q
  rw [← hx] at hrt
  set R := k.to neg m e q with hR
  have hu : (0:ℝ) < 2 ^ q := by positivity
  obtain ⟨bl, bu⟩ := Rounding.rounds_bounds hu hrt.1
  have hgrid : q = low ∧ R.1 ≤ 2 ^ f.fbits ∨ 2 ^ f.fbits ≤ R.1 ∧ R.1 ≤ 2 ^ (f.fbits + 1) := by
    rcases hunit with ⟨⟨a, b⟩, c⟩ | ⟨a, b⟩
    · right
      exact ⟨bl _ (by push_cast; exact a), bu _ (by push_cast; exact b)⟩
    · left
      exact ⟨a, bu _ (by push_cast; exact b)⟩
  have hcode := mv_magCode f R.1 q hlq.2 hgrid
  have hprec : f.precise (l - f.fbits) x := by
    unfold Fmt.precise
    rw [z, z1]
    exact ⟨le_trans (zm _ _ (by omega)) p1, lt_of_lt_of_le p2 (zm _ _ (by omega))⟩
  have hrt' := Rounding.to_rounds hk neg m e (l - f.fbits)
  rw [← hx] at hrt'
  set N := (k.to neg m e (l - f.fbits)).1 with hN
  have hu' : (0:ℝ) < 2 ^ (l - (f.fbits : Int)) := by positivity
  have htiny : leadExp N (l - f.fbits) < 1 - (f.bias : Int) ↔
      ∃ q n, f.precise q x ∧ k.rounds neg n (2 ^ q) x ∧ n * (2 : ℝ) ^ q < 2 ^ (1 - (f.bias : Int)) := by
    have hpos : 2 ^ f.fbits ≤ N := (Rounding.rounds_bounds hu' hrt'.1).1 _ (by push_cast; exact hprec.1)
    have hn0 : N ≠ 0 := by have : 0 < 2 ^ f.fbits := by positivity
                           omega
    have a : (2:ℝ) ^ Nat.log2 N ≤ N := by exact_mod_cast Nat.log2_self_le hn0
    have b : (N:ℝ) < 2 ^ (Nat.log2 N + 1) := by exact_mod_cast Nat.lt_log2_self
    have key : leadExp N (l - f.fbits) < 1 - (f.bias : Int) ↔
        N * (2:ℝ) ^ (l - (f.fbits : Int)) < 2 ^ (1 - (f.bias : Int)) := by
      unfold leadExp
      constructor
      · intro hlt
        have h1 : (N:ℝ) * 2 ^ (l - (f.fbits : Int)) < 2 ^ (Nat.log2 N + 1) * 2 ^ (l - (f.fbits : Int)) := by gcongr
        have h2 : (2:ℝ) ^ (Nat.log2 N + 1) * 2 ^ (l - (f.fbits : Int)) = 2 ^ ((Nat.log2 N : Int) + 1 + (l - f.fbits))
            := by
          rw [← zpow_natCast, ← zpow_add₀ (by norm_num)]; congr 1
        rw [h2] at h1
        exact lt_of_lt_of_le h1 (zm _ _ (by omega))
      · intro hlt
        by_contra hge
        have h2 : (2:ℝ) ^ Nat.log2 N * 2 ^ (l - (f.fbits : Int)) = 2 ^ ((Nat.log2 N : Int) + (l - f.fbits)) := by
          rw [← zpow_natCast, ← zpow_add₀ (by norm_num)]
        have h1 : (2:ℝ) ^ Nat.log2 N * 2 ^ (l - (f.fbits : Int)) ≤ N * 2 ^ (l - (f.fbits : Int)) := by gcongr
        rw [h2] at h1
        have := zm (1 - (f.bias : Int)) _ (not_lt.1 hge)
        linarith
    rw [key]
    constructor
    · intro h; exact ⟨_, N, hprec, hrt'.1, h⟩
    · rintro ⟨q', n', hp', hr', hlt⟩
      have hqq : q' = l - f.fbits := by
        obtain ⟨a1, a2⟩ := hprec
        obtain ⟨b1, b2⟩ := hp'
        rw [z] at a1 b1; rw [z1] at a2 b2
        have c1 := (zpow_lt_zpow_iff_right₀ (by norm_num : (1:ℝ) < 2)).1 (lt_of_le_of_lt a1 b2)
        have c2 := (zpow_lt_zpow_iff_right₀ (by norm_num : (1:ℝ) < 2)).1 (lt_of_le_of_lt b1 a2)
        omega
      subst hqq
      rw [Rounding.rounds_unique hu' hrt'.1 hr']
      exact hlt
  refine ⟨q, R.1, hunit, hrt.1, ?_⟩
  intro top htop
  have htv : top = mv f f.maxFin := by
    obtain ⟨n, a, b, h1, h2⟩ := htop
    obtain ⟨m', e', h3, h4⟩ := decode_code f hf false f.maxFin (le_refl _)
    have h5 : f.signBit false + f.maxFin = f.maxFin := by simp [Fmt.signBit]
    rw [h5, h1] at h3
    cases h3
    rw [h2, ← h4]; simp
  have hcmp : f.maxFin < f.magCode R.1 q ↔ top < R.1 * 2 ^ q := by
    rw [htv, ← hcode]; exact (mv_mono f).lt_iff_lt.symm
  have hclamp : f.clampsExact m e = true ↔ f = e4m3 ∧ top < x := by
    unfold Fmt.clampsExact
    rw [Bool.and_eq_true, beq_iff_eq]
    have h1 : Dyad.lt ⟨448, 0⟩ ⟨m, e⟩ = true ↔ (448:ℝ) < x :=
      Dyad.lt_num (a := ⟨448, 0⟩) (b := ⟨m, e⟩) (by unfold Dyad.num; norm_num) (by unfold Dyad.num; rw [hx]; norm_cast)
    rw [h1]
    constructor
    · rintro ⟨rfl, h⟩
      refine ⟨rfl, ?_⟩
      rw [htv]
      have : mv e4m3 e4m3.maxFin = 448 := by unfold mv; simp [e4m3]; norm_num
      rw [this]; exact h
    · rintro ⟨rfl, h⟩
      refine ⟨rfl, ?_⟩
      rw [htv] at h
      have : mv e4m3 e4m3.maxFin = 448 := by unfold mv; simp [e4m3]; norm_num
      rw [this] at h; exact h
  have hv : convVal f k sat (.fin neg m e) =
      if f.maxFin < f.magCode R.1 q || ((f.qnan.isNone || sat) && f.clampsExact m e) then
        if f.qnan.isNone || sat then (f.signBit neg + f.maxFin, fSat ||| fInexact, 1)
        else if f.inf.isNone then (f.canonNan, fOverflow ||| fInexact, 0)
        else (f.infCode neg, fOverflow ||| fInexact, 0)
      else (f.signBit neg + f.magCode R.1 q, flagIf R.2 fInexact
        ||| flagIf (R.2 && decide (leadExp N (l - f.fbits) < 1 - (f.bias : Int))) fUnderflow, 0) := by
    unfold convVal Fmt.roundBy
    dsimp only
    rw [if_neg hm]
  constructor
  · intro hov
    have hc : (f.maxFin < f.magCode R.1 q || ((f.qnan.isNone || sat) && f.clampsExact m e)) = true := by
      rcases hov with h | ⟨h1, h2, h3⟩
      · simp [hcmp.2 h]
      · rw [h1, hclamp.2 ⟨h2, h3⟩]; simp
    rw [hv, if_pos hc]
    constructor
    · intro h; rw [if_pos h]
    · intro h
      rw [if_neg (by rw [h]; simp)]
      split <;> simp
  · intro hle hlim
    have hc : ¬ (f.maxFin < f.magCode R.1 q || ((f.qnan.isNone || sat) && f.clampsExact m e)) = true := by
      simp only [Bool.or_eq_true, Bool.and_eq_true, decide_eq_true_eq, not_or, not_and]
      refine ⟨by rw [hcmp]; exact not_lt.2 hle, fun h1 h2 => ?_⟩
      obtain ⟨h3, h4⟩ := hclamp.1 h2
      exact absurd (hlim (by simpa using h1) h3) (not_le.2 h4)
    rw [hv, if_neg hc]
    dsimp only
    have hcle : f.magCode R.1 q ≤ f.maxFin := by rw [← not_lt, hcmp]; exact not_lt.2 hle
    obtain ⟨m', e', h3, h4⟩ := decode_code f hf neg _ hcle
    exact ⟨⟨m', e', h3, by rw [h4, hcode]⟩, rfl, R.2, _, rfl, hrt.2, by rw [decide_eq_true_eq]; exact htiny⟩

end Sys2Proof.Machine
end

