-- ==== Sys2Proof/Laws/Frame.lean ====
section
/-! SUPPORT. What no command changes but those that blow fuses or end a blow: the queue, both fuse copies and the
blow that runs. One lemma for each operation and each command, and the rules by which their bodies are walked through. -/
set_option linter.all false
namespace Sys2Proof.Machine

/-- The queue, the two copies of the fuse array, and the blow that runs. -/
structure Fixed where
  queue : List Instr
  copy0 : Table (BitVec 32)
  copy1 : Table (BitVec 32)
  job   : Option FuseJob

def State.fixed (s : State) : Fixed := ⟨s.pending, s.fuse.copy0, s.fuse.copy1, s.fuse.job⟩

/-- An outcome that keeps them at `x`. -/
def Out.fixes (o : Out) (x : Fixed) : Prop :=
  match o with
  | .next t => t.fixed = x
  | _ => True

@[simp] theorem Out.fixes_next (t : State) (x) : Out.fixes (.next t) x ↔ t.fixed = x := Iff.rfl
@[simp] theorem Out.fixes_fault (r : Fault) (x) : Out.fixes (.fault r) x := trivial

@[simp] theorem fixed_eta (s : State) : Fixed.mk s.pending s.fuse.copy0 s.fuse.copy1 s.fuse.job = s.fixed :=
  (Eq.refl s.fixed).trans (Eq.refl s.fixed)

@[simp] theorem foldl_fixed {α : Type} (f : State → α → State) (l : List α) (s : State)
    (h : ∀ s a, (f s a).fixed = s.fixed) : (l.foldl f s).fixed = s.fixed := by
  induction l generalizing s with
  | nil => rfl
  | cons e l ih => rw [List.foldl_cons, ih, h]

@[simp] theorem foldl_fixed1 {α β : Type} (f : State × β → α → State × β) (l : List α) (p : State × β)
    (h : ∀ p a, (f p a).1.fixed = p.1.fixed) : (l.foldl f p).1.fixed = p.1.fixed := by
  induction l generalizing p with
  | nil => rfl
  | cons e l ih => rw [List.foldl_cons, ih, h]
@[simp] theorem fixed_mk (tiles dies cds mds fds mem fabric update net alm sd sow hrv sites wseal glean clk opt fuse pwr free pending) :
    (State.mk tiles dies cds mds fds mem fabric update net alm sd sow hrv sites wseal glean clk opt fuse pwr free pending).fixed = ⟨pending, fuse.copy0, fuse.copy1, fuse.job⟩ :=
  (Eq.refl (Fixed.mk pending fuse.copy0 fuse.copy1 fuse.job)).trans (Eq.refl _)

/-! Rules for a body: a value bound on the way (kI, kH), a function bound on the way (kF, kG, kJ, kK, kL), a fold
(kfold), a pair taken apart (kU), a choice (kite). -/

theorem kI {x : State} (X : Fixed) (G : Prop) (hx : x.fixed = X) (h : x.fixed = X → G) : G := h hx
theorem kF {x : State → State} (G : Prop) (hx : ∀ s, (x s).fixed = s.fixed)
    (h : (∀ s : State, (x s).fixed = s.fixed) → G) : G := h hx
theorem kG {β : Type} {x : State → β → State} (G : Prop) (hx : ∀ s y, (x s y).fixed = s.fixed)
    (h : (∀ (s : State) y, (x s y).fixed = s.fixed) → G) : G := h hx
theorem kfold {α : Type} {f : State → α → State} {l : List α} {s : State} {X : Fixed}
    (hs : s.fixed = X) (h : ∀ s a, (f s a).fixed = s.fixed) : (l.foldl f s).fixed = X := by
  rw [foldl_fixed f l s h, hs]
theorem kfold1 {α β : Type} {f : State × β → α → State × β} {l : List α} {p : State × β} {X : Fixed}
    (hs : p.1.fixed = X) (h : ∀ p a, (f p a).1.fixed = p.1.fixed) : (l.foldl f p).1.fixed = X := by
  rw [foldl_fixed1 f l p h, hs]
theorem kU1 {β : Type} {p : State × β} {t : State} {y : β} {G : Prop} (X : Fixed) (h : p = (t, y))
    (hp : p.1.fixed = X) (k : t.fixed = X → G) : G := k (by rw [← hp, h])
theorem kU2 {β : Type} {p : β × State} {t : State} {y : β} {G : Prop} (X : Fixed) (h : p = (y, t))
    (hp : p.2.fixed = X) (k : t.fixed = X → G) : G := k (by rw [← hp, h])
theorem takeDelivered_fixed {s t : State} {k : Packet} {n : Nat} {e : Delivered}
    (h : s.takeDelivered k n = some (e, t)) : t.fixed = s.fixed := by
  unfold State.takeDelivered at h
  split at h
  · split at h
    · cases h; rfl
    · cases h
  · cases h
theorem takePacket_fixed {s t : State} {k : Packet} {n : Nat} (h : s.takePacket k n = some t) : t.fixed = s.fixed := by
  simp only [State.takePacket, Option.map_eq_some_iff] at h
  obtain ⟨x, h, rfl⟩ := h
  exact takeDelivered_fixed h
theorem fixed_join {s t u : State} (ht : t.fixed = s.fixed) (hu : u.fixed = s.fixed) :
    Fixed.mk t.pending u.fuse.copy0 u.fuse.copy1 u.fuse.job = s.fixed := by
  rw [← hu]
  exact congrArg (fun x : Fixed => { u.fixed with queue := x.queue }) (ht.trans hu.symm)
theorem kH {β : Type} {x : β → State} (X : Fixed) (G : Prop) (hx : ∀ y, (x y).fixed = X)
    (h : (∀ y, (x y).fixed = X) → G) : G := h hx
theorem kJ {β γ : Type} {x : State → β → γ → State} (G : Prop) (hx : ∀ s y z, (x s y z).fixed = s.fixed)
    (h : (∀ (s : State) y z, (x s y z).fixed = s.fixed) → G) : G := h hx
theorem kK {β γ δ : Type} {x : State → β → γ → State × δ} (G : Prop) (hx : ∀ s y z, (x s y z).1.fixed = s.fixed)
    (h : (∀ (s : State) y z, (x s y z).1.fixed = s.fixed) → G) : G := h hx
theorem kL {β γ δ ε : Type} {x : State → β → γ → δ → State × ε} (G : Prop)
    (hx : ∀ s y z w, (x s y z w).1.fixed = s.fixed)
    (h : (∀ (s : State) y z w, (x s y z w).1.fixed = s.fixed) → G) : G := h hx
theorem kite {c : Prop} [Decidable c] {x y : State} {X : Fixed} (h : c → x.fixed = X) (k : ¬c → y.fixed = X) :
    (if c then x else y).fixed = X := by
  split
  · exact h ‹_›
  · exact k ‹_›
theorem kite1 {β : Type} {c : Prop} [Decidable c] {x y : State × β} {X : Fixed} (h : c → x.1.fixed = X)
    (k : ¬c → y.1.fixed = X) : (if c then x else y).1.fixed = X := by
  split
  · exact h ‹_›
  · exact k ‹_›
theorem kiteO {c : Prop} [Decidable c] {x y : Out} {X : Fixed} (h : c → x.fixes X)
    (k : ¬c → y.fixes X) : (if c then x else y).fixes X := by
  split
  · exact h ‹_›
  · exact k ‹_›

end Sys2Proof.Machine
end

