-- ==== Sys2Proof/Laws/FrameTile.lean ====
section
/-! SUPPORT. The queue, the fuse copies and a blow stay as they are: tiles and the errors they log. -/
namespace Sys2Proof.Machine
set_option linter.all false
set_option Elab.async false
set_option maxRecDepth 4000

@[simp] theorem State.setTile_fixed (s : State) (d t : Nat) (x : Tile) :
    (State.setTile s d t x).fixed = s.fixed := by simp [State.setTile]

@[simp] theorem State.setDie_fixed (s : State) (b : Nat) (x : Die) :
    (State.setDie s b x).fixed = s.fixed := by simp [State.setDie]

@[simp] theorem State.setCd_fixed (s : State) (d : Nat) (x : ComputeDie) :
    (State.setCd s d x).fixed = s.fixed := by simp [State.setCd]

@[simp] theorem State.setMd_fixed (s : State) (m : Nat) (x : MemDie) :
    (State.setMd s m x).fixed = s.fixed := by simp [State.setMd]

@[simp] theorem State.setFd_fixed (s : State) (f : Nat) (x : FactorDie) :
    (State.setFd s f x).fixed = s.fixed := by simp [State.setFd]

@[simp] theorem State.setPort_fixed (s : State) (p : Nat) (x : TorusPort) :
    (State.setPort s p x).fixed = s.fixed := by simp [State.setPort]

@[simp] theorem State.setRing_fixed (s : State) (r : Nat) (x : Ring) :
    (State.setRing s r x).fixed = s.fixed := by simp [State.setRing]

@[simp] theorem State.setColl_fixed (s : State) (k : Nat) (x : CollSlot) :
    (State.setColl s k x).fixed = s.fixed := by simp [State.setColl]

@[simp] theorem State.equalise_fixed (s : State) (b : Nat) :
    (State.equalise s b).fixed = s.fixed := by
  unfold State.equalise
  repeat' first
    | lift_lets -underBinder
    | (intro x; clear_value x)
    | (simp; done)

@[simp] theorem State.take_fixed (s : State) :
    (State.take s).2.fixed = s.fixed := by simp [State.take]

@[simp] theorem State.moment_fixed (s : State) :
    (State.moment s).fixed = s.fixed := by
  unfold State.moment
  repeat' first
    | (simp; done)

@[simp] theorem State.cross_fixed (s : State) (l : List Byte) :
    (State.cross s l).1.fixed = s.fixed := by
  unfold State.cross
  repeat' first
    | lift_lets -underBinder
    | with_reducible apply kite1
    | intro _
    | (simp; done)

@[simp] theorem State.hbmPut_fixed (s : State) (a : Nat) (x0 : List Byte) :
    (State.hbmPut s a x0).fixed = s.fixed := by
  induction x0 generalizing s a with
  | nil =>
    unfold State.hbmPut
    repeat' first
      | (simp [*]; done)
  | cons e l ih =>
    unfold State.hbmPut
    repeat' first
      | (simp [*]; done)

@[simp] theorem State.hostPut_fixed (s : State) (a : Nat) (l : List Byte) :
    (State.hostPut s a l).fixed = s.fixed := by simp [State.hostPut]

@[simp] theorem State.raise_fixed (s : State) (v : Nat) :
    (State.raise s v).fixed = s.fixed := by simp [State.raise]

@[simp] theorem State.postEvent_fixed (s : State) (w0 w1 : BitVec 64) :
    (State.postEvent s w0 w1).fixed = s.fixed := by
  unfold State.postEvent
  repeat' first
    | lift_lets -underBinder
    | (intro (x : State); refine kI (x := x) s.fixed _ ?_ ?_; (on_goal 1 => subst x); (on_goal 2 => (intro hx; clear_value x)))
    | intro _
    | (split <;> (try (rename_i heq; first | (refine kU1 s.fixed heq ?_ ?_; (on_goal 1 => clear heq); (on_goal 2 => intro hx)) | (refine kU2 s.fixed heq ?_ ?_; (on_goal 1 => clear heq); (on_goal 2 => intro hx)) | (refine kI s.fixed _ (takePacket_fixed heq) ?_; intro hx))))
    | (simp [*]; done)

@[simp] theorem State.mapTiles_fixed (s : State) (f : Nat → Tile → Tile) :
    (State.mapTiles s f).fixed = s.fixed := by simp [State.mapTiles]

@[simp] theorem State.mark_fixed (s : State) (block code kind : Nat) :
    (State.mark s block code kind).fixed = s.fixed := by simp [State.mark]

@[simp] theorem State.detect_fixed (s : State) (b code : Nat) (joined : Bool) :
    (State.detect s b code joined).fixed = s.fixed := by simp [State.detect]

@[simp] theorem State.logRaw_fixed (s : State) (b : Nat) (e : ErrSpec) :
    (State.logRaw s b e).fixed = s.fixed := by
  unfold State.logRaw
  repeat' split
  all_goals simp

@[simp] theorem State.wantWarm_fixed (s : State) (source block : Nat) :
    (State.wantWarm s source block).fixed = s.fixed := by simp [State.wantWarm]

@[simp] theorem State.holdQuad_fixed (s : State) (holder q : Nat) :
    (State.holdQuad s holder q).fixed = s.fixed := by
  unfold State.holdQuad
  repeat' first
    | lift_lets -underBinder
    | (intro (x : State); refine kI (x := x) s.fixed _ ?_ ?_; (on_goal 1 => subst x); (on_goal 2 => (intro hx; clear_value x)))
    | (intro x; clear_value x)
    | (split <;> (try (rename_i heq; first | (refine kU1 s.fixed heq ?_ ?_; (on_goal 1 => clear heq); (on_goal 2 => intro hx)) | (refine kU2 s.fixed heq ?_ ?_; (on_goal 1 => clear heq); (on_goal 2 => intro hx)) | (refine kI s.fixed _ (takePacket_fixed heq) ?_; intro hx))))
    | (simp [*]; done)

@[simp] theorem State.holdQuads_fixed (s : State) (holder : Nat) (qs : List Nat) :
    (State.holdQuads s holder qs).fixed = s.fixed := by simp [State.holdQuads]

@[simp] theorem State.release_fixed (s : State) (holder : Nat) (qs : List Nat) :
    (State.release s holder qs).fixed = s.fixed := by simp [State.release]

@[simp] theorem State.react_fixed (s : State) (b code unit : Nat) :
    (State.react s b code unit).fixed = s.fixed := by
  unfold State.react
  repeat' split
  all_goals simp

@[simp] theorem State.fatal_fixed (s : State) (b code : Nat) :
    (State.fatal s b code).fixed = s.fixed := by
  unfold State.fatal
  repeat' first
    | lift_lets -underBinder
    | (intro (x : State); refine kI (x := x) s.fixed _ ?_ ?_; (on_goal 1 => subst x); (on_goal 2 => (intro hx; clear_value x)))
    | (intro x; clear_value x)
    | (split <;> (try (rename_i heq; first | (refine kU1 s.fixed heq ?_ ?_; (on_goal 1 => clear heq); (on_goal 2 => intro hx)) | (refine kU2 s.fixed heq ?_ ?_; (on_goal 1 => clear heq); (on_goal 2 => intro hx)) | (refine kI s.fixed _ (takePacket_fixed heq) ?_; intro hx))))
    | (simp [*]; done)

@[simp] theorem State.logErr_fixed (s : State) (b : Nat) (e : ErrSpec) :
    (State.logErr s b e).fixed = s.fixed := by
  unfold State.logErr
  repeat' split
  all_goals simp

@[simp] theorem State.lockedWrite_fixed (s : State) (block off : Nat) :
    (State.lockedWrite s block off).fixed = s.fixed := by
  unfold State.lockedWrite
  repeat' first
    | lift_lets -underBinder
    | (intro (x : Fuses); subst x)
    | (intro (x : State); refine kI (x := x) s.fixed _ ?_ ?_; (on_goal 1 => subst x); (on_goal 2 => (intro hx; clear_value x)))
    | (intro x; clear_value x)
    | (split <;> (try (rename_i heq; first | (refine kU1 s.fixed heq ?_ ?_; (on_goal 1 => clear heq); (on_goal 2 => intro hx)) | (refine kU2 s.fixed heq ?_ ?_; (on_goal 1 => clear heq); (on_goal 2 => intro hx)) | (refine kI s.fixed _ (takePacket_fixed heq) ?_; intro hx))))
    | (simp [*]; done)

@[simp] theorem State.closeHandler_fixed (s : State) (b : Nat) :
    (State.closeHandler s b).fixed = s.fixed := by simp [State.closeHandler]

@[simp] theorem State.incFlag_fixed (s : State) (d t : Nat) (c : Bool) (f n : Nat) :
    (State.incFlag s d t c f n).fixed = s.fixed := by
  unfold State.incFlag
  repeat' first
    | lift_lets -underBinder
    | (intro (x : State); refine kI (x := x) s.fixed _ ?_ ?_; (on_goal 1 => subst x); (on_goal 2 => (intro hx; clear_value x)))
    | (intro x; clear_value x)
    | (split <;> (try (rename_i heq; first | (refine kU1 s.fixed heq ?_ ?_; (on_goal 1 => clear heq); (on_goal 2 => intro hx)) | (refine kU2 s.fixed heq ?_ ?_; (on_goal 1 => clear heq); (on_goal 2 => intro hx)) | (refine kI s.fixed _ (takePacket_fixed heq) ?_; intro hx))))
    | (simp [*]; done)

@[simp] theorem State.stir_fixed (s : State) (d t : Nat) :
    (State.stir s d t).fixed = s.fixed := by
  unfold State.stir
  repeat' first
    | lift_lets -underBinder
    | (intro x; clear_value x)
    | (simp; done)

@[simp] theorem State.landOne_fixed (s : State) (d t : Nat) (p : Pend) :
    (State.landOne s d t p).fixed = s.fixed := by
  unfold State.landOne
  split <;> simp

@[simp] theorem State.landWhile_fixed (s : State) (d t : Nat) (ok : Pend → Bool) (x0 : Nat) :
    (State.landWhile s d t ok x0).fixed = s.fixed := by
  induction x0 generalizing s d t with
  | zero =>
    unfold State.landWhile
    repeat' first
      | (simp; done)
  | succ n ih =>
    unfold State.landWhile
    repeat' first
      | lift_lets -underBinder
      | (intro x; clear_value x)
      | with_reducible apply kite
      | intro _
      | (simp; done)
      | (split <;> (try (rename_i heq; first | (refine kU1 s.fixed heq ?_ ?_; (on_goal 1 => clear heq); (on_goal 2 => intro hx)) | (refine kU2 s.fixed heq ?_ ?_; (on_goal 1 => clear heq); (on_goal 2 => intro hx)) | (refine kI s.fixed _ (takePacket_fixed heq) ?_; intro hx))))
      | (simp [*]; done)

@[simp] theorem State.atCycle_fixed (s : State) (d t c : Nat) :
    (State.atCycle s d t c).fixed = s.fixed := by
  unfold State.atCycle
  repeat' first
    | lift_lets -underBinder
    | (intro x; clear_value x)
    | (simp; done)

@[simp] theorem State.land_fixed (s : State) (d t c : Nat) :
    (State.land s d t c).fixed = s.fixed := by simp [State.land]

@[simp] theorem State.settle_fixed (s : State) (d t c : Nat) :
    (State.settle s d t c).fixed = s.fixed := by
  unfold State.settle
  repeat' first
    | lift_lets -underBinder
    | (intro (x : State); refine kI (x := x) s.fixed _ ?_ ?_; (on_goal 1 => subst x); (on_goal 2 => (intro hx; clear_value x)))
    | (intro x; clear_value x)
    | (simp; done)
    | (simp [*]; done)

@[simp] theorem State.flushFlags_fixed (s : State) (d t : Nat) :
    (State.flushFlags s d t).fixed = s.fixed := by
  unfold State.flushFlags
  repeat' first
    | lift_lets -underBinder
    | (intro x; clear_value x)
    | with_reducible (refine kfold ?_ ?_; (on_goal 2 => intro s _))
    | (simp; done)

@[simp] theorem State.skip_fixed (s : State) (d t : Nat) (q : QEntry) (code : Nat) :
    (State.skip s d t q code).fixed = s.fixed := by simp [State.skip]

@[simp] theorem State.logTile_fixed (s : State) (d t : Nat) (q : QEntry) (code detail : Nat) :
    (State.logTile s d t q code detail).fixed = s.fixed := by simp [State.logTile]

@[simp] theorem State.scaleCheck_fixed (s : State) (d t c : Nat) (q : QEntry) (rows : List Nat) :
    (State.scaleCheck s d t c q rows).fixed = s.fixed := by
  unfold State.scaleCheck
  repeat' first
    | lift_lets -underBinder
    | (intro (x : State); refine kI (x := x) s.fixed _ ?_ ?_; (on_goal 1 => subst x); (on_goal 2 => (intro hx; clear_value x)))
    | (intro x; clear_value x)
    | (split <;> (try (rename_i heq; first | (refine kU1 s.fixed heq ?_ ?_; (on_goal 1 => clear heq); (on_goal 2 => intro hx)) | (refine kU2 s.fixed heq ?_ ?_; (on_goal 1 => clear heq); (on_goal 2 => intro hx)) | (refine kI s.fixed _ (takePacket_fixed heq) ?_; intro hx))))
    | (simp [*]; done)

@[simp] theorem State.met_fixed (s : State) (d t : Nat) (q : QEntry) :
    (State.met s d t q).fixed = s.fixed := by
  unfold State.met
  repeat' first
    | lift_lets -underBinder
    | with_reducible apply kite
    | intro _
    | (simp; done)
    | (split <;> (try (rename_i heq; first | (refine kU1 s.fixed heq ?_ ?_; (on_goal 1 => clear heq); (on_goal 2 => intro hx)) | (refine kU2 s.fixed heq ?_ ?_; (on_goal 1 => clear heq); (on_goal 2 => intro hx)) | (refine kI s.fixed _ (takePacket_fixed heq) ?_; intro hx))))

@[simp] theorem State.issued_fixed (s : State) (d t : Nat) (q : QEntry) :
    (State.issued s d t q).fixed = s.fixed := by
  unfold State.issued
  repeat' first
    | (simp; done)

@[simp] theorem State.headIssue_fixed (s : State) (acc : Bool) (d t c : Nat) (ok : BitVec 64 → Bool) (run : State → QEntry → State) (hrun : ∀ a0 a1, (run a0 a1).fixed = a0.fixed) :
    Out.fixes (State.headIssue s acc d t c ok run) s.fixed := by
  unfold State.headIssue
  repeat' first
    | lift_lets -underBinder
    | with_reducible refine (Out.fixes_next _ _).mpr ?_
    | (intro (x : State); refine kI (x := x) s.fixed _ ?_ ?_; (on_goal 1 => subst x); (on_goal 2 => (intro hx; clear_value x)))
    | (intro x; clear_value x)
    | with_reducible apply kiteO
    | intro _
    | (simp; done)
    | (split <;> (try (rename_i heq; first | (refine kU1 s.fixed heq ?_ ?_; (on_goal 1 => clear heq); (on_goal 2 => intro hx)) | (refine kU2 s.fixed heq ?_ ?_; (on_goal 1 => clear heq); (on_goal 2 => intro hx)) | (refine kI s.fixed _ (takePacket_fixed heq) ?_; intro hx))))
    | (simp [*]; done)

@[simp] theorem State.execHead_fixed (s : State) (d t c : Nat) (ok : BitVec 64 → Bool) (run : State → QEntry → State) (hrun : ∀ a0 a1, (run a0 a1).fixed = a0.fixed) :
    Out.fixes (State.execHead s d t c ok run) s.fixed := by
  unfold State.execHead
  repeat' first
    | lift_lets -underBinder
    | (intro (x : State); refine kI (x := x) s.fixed _ ?_ ?_; (on_goal 1 => subst x); (on_goal 2 => (intro hx; clear_value x)))
    | (intro x; clear_value x)
    | (split <;> (try (rename_i heq; first | (refine kU1 s.fixed heq ?_ ?_; (on_goal 1 => clear heq); (on_goal 2 => intro hx)) | (refine kU2 s.fixed heq ?_ ?_; (on_goal 1 => clear heq); (on_goal 2 => intro hx)) | (refine kI s.fixed _ (takePacket_fixed heq) ?_; intro hx))))
    | (simp [*]; done)

@[simp] theorem State.accHead_fixed (s : State) (d t c : Nat) (ok : BitVec 64 → Bool) (run : State → QEntry → State) (hrun : ∀ a0 a1, (run a0 a1).fixed = a0.fixed) :
    Out.fixes (State.accHead s d t c ok run) s.fixed := by
  unfold State.accHead
  repeat' first
    | lift_lets -underBinder
    | (intro (x : State); refine kI (x := x) s.fixed _ ?_ ?_; (on_goal 1 => subst x); (on_goal 2 => (intro hx; clear_value x)))
    | (intro x; clear_value x)
    | (split <;> (try (rename_i heq; first | (refine kU1 s.fixed heq ?_ ?_; (on_goal 1 => clear heq); (on_goal 2 => intro hx)) | (refine kU2 s.fixed heq ?_ ?_; (on_goal 1 => clear heq); (on_goal 2 => intro hx)) | (refine kI s.fixed _ (takePacket_fixed heq) ?_; intro hx))))
    | (simp [*]; done)

@[simp] theorem State.ownEvent_fixed (s : State) (d t c : Nat) (run : State → State) (hrun : ∀ a0, (run a0).fixed = a0.fixed) :
    Out.fixes (State.ownEvent s d t c run) s.fixed := by
  unfold State.ownEvent
  repeat' first
    | lift_lets -underBinder
    | with_reducible refine (Out.fixes_next _ _).mpr ?_
    | with_reducible apply kiteO
    | intro _
    | (simp; done)
    | (simp [*]; done)

@[simp] theorem State.setStk_fixed (s : State) (k : Nat) (x : HbmStack) :
    (State.setStk s k x).fixed = s.fixed := by simp [State.setStk]

@[simp] theorem State.miscorrect_fixed (s : State) (k sec f : Nat) (kept : Nat → Bool) :
    (State.miscorrect s k sec f kept).fixed = s.fixed := by
  unfold State.miscorrect
  repeat' first
    | (simp; done)

@[simp] theorem State.writeBack_fixed (s : State) (k sec : Nat) (d : Decoded) (later : List BankEntry) :
    (State.writeBack s k sec d later).fixed = s.fixed := by
  unfold State.writeBack
  repeat' first
    | with_reducible assumption
    | lift_lets -underBinder
    | (intro (x : State); refine kI (x := x) s.fixed _ ?_ ?_; (on_goal 1 => subst x); (on_goal 2 => (intro hx; clear_value x)))
    | (intro x; clear_value x)
    | with_reducible apply kite
    | intro _
    | (simp; done)
    | (split <;> (try (rename_i heq; first | (refine kU1 s.fixed heq ?_ ?_; (on_goal 1 => clear heq); (on_goal 2 => intro hx)) | (refine kU2 s.fixed heq ?_ ?_; (on_goal 1 => clear heq); (on_goal 2 => intro hx)) | (refine kI s.fixed _ (takePacket_fixed heq) ?_; intro hx))))
    | (simp [*]; done)

@[simp] theorem State.reportBursts_fixed (s : State) (k sec : Nat) (l : List Nat) :
    (State.reportBursts s k sec l).fixed = s.fixed := by
  unfold State.reportBursts
  repeat' first
    | lift_lets -underBinder
    | (intro (x : State); refine kI (x := x) s.fixed _ ?_ ?_; (on_goal 1 => subst x); (on_goal 2 => (intro hx; clear_value x)))
    | (intro x; clear_value x)
    | with_reducible (refine kfold ?_ ?_; (on_goal 2 => intro s _))
    | (simp; done)
    | (simp [*]; done)

@[simp] theorem State.countCorrected_fixed (s : State) (k sec : Nat) :
    (State.countCorrected s k sec).fixed = s.fixed := by
  unfold State.countCorrected
  repeat' first
    | with_reducible assumption
    | lift_lets -underBinder
    | (intro (x : State); refine kI (x := x) s.fixed _ ?_ ?_; (on_goal 1 => subst x); (on_goal 2 => (intro hx; clear_value x)))
    | (intro x; clear_value x)
    | with_reducible apply kite
    | intro _
    | (simp; done)
    | (simp [*]; done)

@[simp] theorem State.countDead_fixed (s : State) (k sec : Nat) (scrub : Bool) :
    (State.countDead s k sec scrub).fixed = s.fixed := by
  unfold State.countDead
  repeat' first
    | lift_lets -underBinder
    | (intro (x : State); refine kI (x := x) s.fixed _ ?_ ?_; (on_goal 1 => subst x); (on_goal 2 => (intro hx; clear_value x)))
    | (intro x; clear_value x)
    | (simp; done)
    | (simp [*]; done)

@[simp] theorem State.decodeSector_fixed (s : State) (k sec : Nat) (scrub back : Bool) (later : List BankEntry) :
    (s.decodeSector k sec scrub back later).1.fixed = s.fixed := by
  unfold State.decodeSector
  extract_lets v t corrected
  have ht : t.fixed = s.fixed := by simp [t]
  have hc : ∀ s d, (corrected s d).1.fixed = s.fixed := by
    intro s d
    simp only [corrected]
    split <;> simp
  clear_value t corrected
  split
  · simp [ht]
  split
  · exact ht
  split
  · simp [hc, ht]
  split
  rename_i f w heq
  have hw : w.fixed = s.fixed := by
    split at heq
    · cases heq
      exact ht
    · rw [← ht, ← State.take_fixed t, heq]
  split <;> simp [hc, hw]

@[simp] theorem State.nestedAt_fixed (s : State) (d t : Nat) (count : BitVec 64) (code : Nat) (addr : BitVec 64) :
    (State.nestedAt s d t count code addr).fixed = s.fixed := by
  unfold State.nestedAt
  repeat' first
    | lift_lets -underBinder
    | (intro x; clear_value x)
    | (simp; done)
    | (split <;> (try (rename_i heq; first | (refine kU1 s.fixed heq ?_ ?_; (on_goal 1 => clear heq); (on_goal 2 => intro hx)) | (refine kU2 s.fixed heq ?_ ?_; (on_goal 1 => clear heq); (on_goal 2 => intro hx)) | (refine kI s.fixed _ (takePacket_fixed heq) ?_; intro hx))))

@[simp] theorem State.nestedBehind_fixed (s : State) (d t : Nat) (count : BitVec 64) (before : List AccOp) :
    (State.nestedBehind s d t count before).fixed = s.fixed := by
  unfold State.nestedBehind
  repeat' first
    | lift_lets -underBinder
    | with_reducible (refine kfold ?_ ?_; (on_goal 2 => intro s _))
    | with_reducible apply kite
    | intro _
    | (simp; done)
    | (split <;> (try (rename_i heq; first | (refine kU1 s.fixed heq ?_ ?_; (on_goal 1 => clear heq); (on_goal 2 => intro hx)) | (refine kU2 s.fixed heq ?_ ?_; (on_goal 1 => clear heq); (on_goal 2 => intro hx)) | (refine kI s.fixed _ (takePacket_fixed heq) ?_; intro hx))))

@[simp] theorem State.accFault_fixed (s : State) (d t : Nat) (o : AccOp) (code elem field : Nat) (addr : BitVec 64) :
    (State.accFault s d t o code elem field addr).fixed = s.fixed := by simp [State.accFault]

@[simp] theorem State.sendAway_fixed (s : State) (who : Requester) (ptype : Nat) (ga : BitVec 64) (arg : BitVec 64) (len : Nat) (data : List Byte) :
    (State.sendAway s who ptype ga arg len data).fixed = s.fixed := by
  unfold State.sendAway
  split <;> simp

@[simp] theorem State.sendSignal_fixed (s : State) (who : Option Requester) (desc : BitVec 64) (count : Nat) :
    (State.sendSignal s who desc count).fixed = s.fixed := by
  unfold State.sendSignal
  split <;> simp

@[simp] theorem State.sendSlot_fixed (s : State) (d t k : Nat) (u : SlotUse) :
    (State.sendSlot s d t k u).fixed = s.fixed := by
  unfold State.sendSlot
  split <;> simp

@[simp] theorem State.sendSeg_fixed (s : State) (d t c : Nat) (o : AccOp) (i : Nat) (g : Seg) (k : Nat) :
    (State.sendSeg s d t c o i g k).fixed = s.fixed := by simp [State.sendSeg]

@[simp] theorem State.setStage_fixed (s : State) (who : Requester) (n : Nat) :
    (State.setStage s who n).fixed = s.fixed := by
  unfold State.setStage
  repeat' first
    | lift_lets -underBinder
    | (intro x; clear_value x)
    | (simp; done)
    | (split <;> (try (rename_i heq; first | (refine kU1 s.fixed heq ?_ ?_; (on_goal 1 => clear heq); (on_goal 2 => intro hx)) | (refine kU2 s.fixed heq ?_ ?_; (on_goal 1 => clear heq); (on_goal 2 => intro hx)) | (refine kI s.fixed _ (takePacket_fixed heq) ?_; intro hx))))

@[simp] theorem State.pumpN_fixed (s : State) (d t c : Nat) (x0 : Nat) :
    (State.pumpN s d t c x0).fixed = s.fixed := by
  induction x0 generalizing s d t with
  | zero =>
    unfold State.pumpN
    repeat' first
      | lift_lets -underBinder
      | (intro x; clear_value x)
      | (split <;> (try (rename_i heq; first | (refine kU1 s.fixed heq ?_ ?_; (on_goal 1 => clear heq); (on_goal 2 => intro hx)) | (refine kU2 s.fixed heq ?_ ?_; (on_goal 1 => clear heq); (on_goal 2 => intro hx)) | (refine kI s.fixed _ (takePacket_fixed heq) ?_; intro hx))))
      | (simp [*]; done)
  | succ n ih =>
    unfold State.pumpN
    repeat' first
      | lift_lets -underBinder
      | (intro x; clear_value x)
      | (split <;> (try (rename_i heq; first | (refine kU1 s.fixed heq ?_ ?_; (on_goal 1 => clear heq); (on_goal 2 => intro hx)) | (refine kU2 s.fixed heq ?_ ?_; (on_goal 1 => clear heq); (on_goal 2 => intro hx)) | (refine kI s.fixed _ (takePacket_fixed heq) ?_; intro hx))))
      | (simp [*]; done)

@[simp] theorem State.unpark_fixed (s : State) (d t : Nat) :
    (State.unpark s d t).fixed = s.fixed := by
  unfold State.unpark
  repeat' first
    | lift_lets -underBinder
    | (intro (x : State); refine kI (x := x) s.fixed _ ?_ ?_; (on_goal 1 => subst x); (on_goal 2 => (intro hx; clear_value x)))
    | (intro x; clear_value x)
    | with_reducible (refine kfold ?_ ?_; (on_goal 2 => intro s _))
    | with_reducible apply kite
    | intro _
    | (simp; done)
    | (split <;> (try (rename_i heq; first | (refine kU1 s.fixed heq ?_ ?_; (on_goal 1 => clear heq); (on_goal 2 => intro hx)) | (refine kU2 s.fixed heq ?_ ?_; (on_goal 1 => clear heq); (on_goal 2 => intro hx)) | (refine kI s.fixed _ (takePacket_fixed heq) ?_; intro hx))))
    | (simp [*]; done)

@[simp] theorem State.pump_fixed (s : State) (d t c : Nat) :
    (State.pump s d t c).fixed = s.fixed := by simp [State.pump]

@[simp] theorem State.startOp_fixed (s : State) (d t c : Nat) (o : AccOp) :
    (State.startOp s d t c o).fixed = s.fixed := by
  unfold State.startOp
  repeat' first
    | with_reducible assumption
    | lift_lets -underBinder
    | (intro (x : State); refine kI (x := x) s.fixed _ ?_ ?_; (on_goal 1 => subst x); (on_goal 2 => (intro hx; clear_value x)))
    | (intro x; clear_value x)
    | with_reducible apply kite
    | intro _
    | (simp; done)
    | (split <;> (try (rename_i heq; first | (refine kU1 s.fixed heq ?_ ?_; (on_goal 1 => clear heq); (on_goal 2 => intro hx)) | (refine kU2 s.fixed heq ?_ ?_; (on_goal 1 => clear heq); (on_goal 2 => intro hx)) | (refine kI s.fixed _ (takePacket_fixed heq) ?_; intro hx))))
    | (simp [*]; done)

@[simp] theorem State.startSig_fixed (s : State) (d t c : Nat) (o : AccOp) :
    (State.startSig s d t c o).fixed = s.fixed := by
  unfold State.startSig
  repeat' split
  all_goals simp

@[simp] theorem State.startAny_fixed (s : State) (d t c : Nat) (o : AccOp) :
    (State.startAny s d t c o).fixed = s.fixed := by
  unfold State.startAny
  split <;> simp

@[simp] theorem State.rerun_fixed (s : State) (d t c : Nat) (x0 : List AccOp) :
    (State.rerun s d t c x0).fixed = s.fixed := by
  induction x0 generalizing s d t c with
  | nil =>
    unfold State.rerun
    repeat' first
      | lift_lets -underBinder
      | (intro x; clear_value x)
      | (split <;> (try (rename_i heq; first | (refine kU1 s.fixed heq ?_ ?_; (on_goal 1 => clear heq); (on_goal 2 => intro hx)) | (refine kU2 s.fixed heq ?_ ?_; (on_goal 1 => clear heq); (on_goal 2 => intro hx)) | (refine kI s.fixed _ (takePacket_fixed heq) ?_; intro hx))))
      | (simp [*]; done)
  | cons e l ih =>
    unfold State.rerun
    repeat' first
      | lift_lets -underBinder
      | (intro x; clear_value x)
      | (split <;> (try (rename_i heq; first | (refine kU1 s.fixed heq ?_ ?_; (on_goal 1 => clear heq); (on_goal 2 => intro hx)) | (refine kU2 s.fixed heq ?_ ?_; (on_goal 1 => clear heq); (on_goal 2 => intro hx)) | (refine kI s.fixed _ (takePacket_fixed heq) ?_; intro hx))))
      | (simp [*]; done)

@[simp] theorem State.restartOps_fixed (s : State) (d t : Nat) :
    (State.restartOps s d t).fixed = s.fixed := by simp [State.restartOps]

@[simp] theorem State.aldIssue_fixed (s : State) (d t c : Nat) (q : QEntry) :
    (State.aldIssue s d t c q).fixed = s.fixed := by
  unfold State.aldIssue
  repeat' first
    | lift_lets -underBinder
    | (intro x; clear_value x)
    | (simp; done)
    | (split <;> (try (rename_i heq; first | (refine kU1 s.fixed heq ?_ ?_; (on_goal 1 => clear heq); (on_goal 2 => intro hx)) | (refine kU2 s.fixed heq ?_ ?_; (on_goal 1 => clear heq); (on_goal 2 => intro hx)) | (refine kI s.fixed _ (takePacket_fixed heq) ?_; intro hx))))

@[simp] theorem execAld_fixed (d : Fin 32) (t : Fin 144) (c : Nat) (s : State) :
    Out.fixes (execAld d t c s) s.fixed := by simp [execAld]

@[simp] theorem State.astIssue_fixed (s : State) (d t c : Nat) (q : QEntry) :
    (State.astIssue s d t c q).fixed = s.fixed := by
  unfold State.astIssue
  repeat' first
    | lift_lets -underBinder
    | (intro x; clear_value x)
    | (simp; done)
    | (split <;> (try (rename_i heq; first | (refine kU1 s.fixed heq ?_ ?_; (on_goal 1 => clear heq); (on_goal 2 => intro hx)) | (refine kU2 s.fixed heq ?_ ?_; (on_goal 1 => clear heq); (on_goal 2 => intro hx)) | (refine kI s.fixed _ (takePacket_fixed heq) ?_; intro hx))))

@[simp] theorem execAst_fixed (d : Fin 32) (t : Fin 144) (c : Nat) (s : State) :
    Out.fixes (execAst d t c s) s.fixed := by simp [execAst]

@[simp] theorem State.plainIssue_fixed (s : State) (d t c : Nat) (q : QEntry) (bad : Bool) :
    (State.plainIssue s d t c q bad).fixed = s.fixed := by
  unfold State.plainIssue
  split <;> simp

@[simp] theorem execAcopy_fixed (d : Fin 32) (t : Fin 144) (c : Nat) (s : State) :
    Out.fixes (execAcopy d t c s) s.fixed := by simp [execAcopy]

@[simp] theorem execAlds_fixed (d : Fin 32) (t : Fin 144) (c : Nat) (s : State) :
    Out.fixes (execAlds d t c s) s.fixed := by simp [execAlds]

@[simp] theorem execAsts_fixed (d : Fin 32) (t : Fin 144) (c : Nat) (s : State) :
    Out.fixes (execAsts d t c s) s.fixed := by simp [execAsts]

@[simp] theorem State.asigIssue_fixed (s : State) (d t c : Nat) (q : QEntry) :
    (State.asigIssue s d t c q).fixed = s.fixed := by simp [State.asigIssue]

@[simp] theorem execAsig_fixed (d : Fin 32) (t : Fin 144) (c : Nat) (s : State) :
    Out.fixes (execAsig d t c s) s.fixed := by simp [execAsig]

@[simp] theorem execAfence_fixed (d : Fin 32) (t : Fin 144) (c : Nat) (s : State) :
    Out.fixes (execAfence d t c s) s.fixed := by simp [execAfence]

@[simp] theorem execOqBlockReady_fixed (d : Fin 32) (t : Fin 144) (matrix : Bool) (pos : Nat) (s : State) :
    Out.fixes (execOqBlockReady d t matrix pos s) s.fixed := by
  unfold execOqBlockReady
  repeat' first
    | lift_lets -underBinder
    | with_reducible refine (Out.fixes_next _ _).mpr ?_
    | (intro x; clear_value x)
    | (with_reducible apply State.ownEvent_fixed; intro s)
    | (simp; done)
    | (split <;> (try (rename_i heq; first | (refine kU1 s.fixed heq ?_ ?_; (on_goal 1 => clear heq); (on_goal 2 => intro hx)) | (refine kU2 s.fixed heq ?_ ?_; (on_goal 1 => clear heq); (on_goal 2 => intro hx)) | (refine kI s.fixed _ (takePacket_fixed heq) ?_; intro hx))))

@[simp] theorem execAccessComplete_fixed (d : Fin 32) (t : Fin 144) (count : BitVec 64) (s : State) :
    Out.fixes (execAccessComplete d t count s) s.fixed := by
  unfold execAccessComplete
  repeat' first
    | lift_lets -underBinder
    | (intro x; clear_value x)
    | (simp; done)
    | (split <;> (try (rename_i heq; first | (refine kU1 s.fixed heq ?_ ?_; (on_goal 1 => clear heq); (on_goal 2 => intro hx)) | (refine kU2 s.fixed heq ?_ ?_; (on_goal 1 => clear heq); (on_goal 2 => intro hx)) | (refine kI s.fixed _ (takePacket_fixed heq) ?_; intro hx))))

@[simp] theorem State.writeCvt_fixed (s : State) (d t : Nat) (x : Bool) (off : Nat) (v : BitVec 64) :
    (State.writeCvt s d t x off v).fixed = s.fixed := by
  unfold State.writeCvt
  repeat' first
    | lift_lets -underBinder
    | (intro (x : State); refine kI (x := x) s.fixed _ ?_ ?_; (on_goal 1 => subst x); (on_goal 2 => (intro hx; clear_value x)))
    | (intro x; clear_value x)
    | (simp; done)
    | (simp [*]; done)

@[simp] theorem State.writeTileReg_fixed (s : State) (d t off : Nat) (v : BitVec 64) :
    (State.writeTileReg s d t off v).fixed = s.fixed := by
  unfold State.writeTileReg
  repeat' first
    | (intro (x : _ → State); refine kH (x := x) s.fixed _ ?_ ?_; (on_goal 1 => subst x; intro _; beta_reduce); (on_goal 2 => (intro hx; clear_value x)))
    | with_reducible apply kite
    | intro _
    | (simp [*]; done)

@[simp] theorem execCvtSeedWrite_fixed (d : Fin 32) (t : Fin 144) (bank : Bool) (seed : BitVec 64) (s : State) :
    Out.fixes (execCvtSeedWrite d t bank seed s) s.fixed := by simp [execCvtSeedWrite]

@[simp] theorem State.scalTry_fixed (s : State) (d t : Nat) (q : QEntry) (checks : List (Bool × Nat)) (run : Tile → Tile) :
    (State.scalTry s d t q checks run).fixed = s.fixed := by
  unfold State.scalTry
  split <;> simp

@[simp] theorem State.siaIssue_fixed (s : State) (d t c : Nat) (q : QEntry) :
    (State.siaIssue s d t c q).fixed = s.fixed := by simp [State.siaIssue]

@[simp] theorem execSia_fixed (d : Fin 32) (t : Fin 144) (c : Nat) (s : State) :
    Out.fixes (execSia d t c s) s.fixed := by simp [execSia]

@[simp] theorem State.sfaIssue_fixed (s : State) (d t c : Nat) (q : QEntry) :
    (State.sfaIssue s d t c q).fixed = s.fixed := by simp [State.sfaIssue]

@[simp] theorem execSfa_fixed (d : Fin 32) (t : Fin 144) (c : Nat) (s : State) :
    Out.fixes (execSfa d t c s) s.fixed := by simp [execSfa]

@[simp] theorem execDividerComplete_fixed (d : Fin 32) (t : Fin 144) (s : State) :
    Out.fixes (execDividerComplete d t s) s.fixed := by
  unfold execDividerComplete
  split <;> simp

@[simp] theorem State.scmpIssue_fixed (s : State) (d t c : Nat) (q : QEntry) :
    (State.scmpIssue s d t c q).fixed = s.fixed := by simp [State.scmpIssue]

@[simp] theorem execScmp_fixed (d : Fin 32) (t : Fin 144) (c : Nat) (s : State) :
    Out.fixes (execScmp d t c s) s.fixed := by simp [execScmp]

@[simp] theorem State.sicmpIssue_fixed (s : State) (d t c : Nat) (q : QEntry) :
    (State.sicmpIssue s d t c q).fixed = s.fixed := by simp [State.sicmpIssue]

@[simp] theorem execSicmp_fixed (d : Fin 32) (t : Fin 144) (c : Nat) (s : State) :
    Out.fixes (execSicmp d t c s) s.fixed := by simp [execSicmp]

@[simp] theorem State.scvtIssue_fixed (s : State) (d t c : Nat) (q : QEntry) :
    (State.scvtIssue s d t c q).fixed = s.fixed := by simp [State.scvtIssue]

@[simp] theorem execScvt_fixed (d : Fin 32) (t : Fin 144) (c : Nat) (s : State) :
    Out.fixes (execScvt d t c s) s.fixed := by simp [execScvt]

@[simp] theorem State.sliIssue_fixed (s : State) (d t c : Nat) (q : QEntry) :
    (State.sliIssue s d t c q).fixed = s.fixed := by simp [State.sliIssue]

@[simp] theorem execSli_fixed (d : Fin 32) (t : Fin 144) (c : Nat) (s : State) :
    Out.fixes (execSli d t c s) s.fixed := by simp [execSli]

@[simp] theorem State.pcRange_fixed (s : State) (d t : Nat) (count : BitVec 64) :
    (State.pcRange s d t count).fixed = s.fixed := by simp [State.pcRange]

@[simp] theorem State.brIssue_fixed (s : State) (d t c : Nat) (q : QEntry) :
    (State.brIssue s d t c q).fixed = s.fixed := by
  unfold State.brIssue
  repeat' first
    | lift_lets -underBinder
    | (intro (x : State); refine kI (x := x) s.fixed _ ?_ ?_; (on_goal 1 => subst x); (on_goal 2 => (intro hx; clear_value x)))
    | (intro x; clear_value x)
    | (split <;> (try (rename_i heq; first | (refine kU1 s.fixed heq ?_ ?_; (on_goal 1 => clear heq); (on_goal 2 => intro hx)) | (refine kU2 s.fixed heq ?_ ?_; (on_goal 1 => clear heq); (on_goal 2 => intro hx)) | (refine kI s.fixed _ (takePacket_fixed heq) ?_; intro hx))))
    | (simp [*]; done)

@[simp] theorem execBr_fixed (d : Fin 32) (t : Fin 144) (c : Nat) (s : State) :
    Out.fixes (execBr d t c s) s.fixed := by simp [execBr]

@[simp] theorem execNop_fixed (d : Fin 32) (t : Fin 144) (c : Nat) (s : State) :
    Out.fixes (execNop d t c s) s.fixed := by
  unfold execNop
  repeat' first
    | (with_reducible apply State.execHead_fixed; intro s _)
    | (simp; done)
    | (split <;> (try (rename_i heq; first | (refine kU1 s.fixed heq ?_ ?_; (on_goal 1 => clear heq); (on_goal 2 => intro hx)) | (refine kU2 s.fixed heq ?_ ?_; (on_goal 1 => clear heq); (on_goal 2 => intro hx)) | (refine kI s.fixed _ (takePacket_fixed heq) ?_; intro hx))))

@[simp] theorem execHalt_fixed (d : Fin 32) (t : Fin 144) (c : Nat) (s : State) :
    Out.fixes (execHalt d t c s) s.fixed := by
  unfold execHalt
  repeat' first
    | (with_reducible apply State.execHead_fixed; intro s _)
    | (simp; done)
    | (split <;> (try (rename_i heq; first | (refine kU1 s.fixed heq ?_ ?_; (on_goal 1 => clear heq); (on_goal 2 => intro hx)) | (refine kU2 s.fixed heq ?_ ?_; (on_goal 1 => clear heq); (on_goal 2 => intro hx)) | (refine kI s.fixed _ (takePacket_fixed heq) ?_; intro hx))))

@[simp] theorem State.loopIssue_fixed (s : State) (d t c : Nat) (q : QEntry) :
    (State.loopIssue s d t c q).fixed = s.fixed := by
  unfold State.loopIssue
  repeat' first
    | lift_lets -underBinder
    | (intro (x : _ → State); refine kH (x := x) s.fixed _ ?_ ?_; (on_goal 1 => subst x; intro _; beta_reduce); (on_goal 2 => (intro hx; clear_value x)))
    | (intro x; clear_value x)
    | (split <;> (try (rename_i heq; first | (refine kU1 s.fixed heq ?_ ?_; (on_goal 1 => clear heq); (on_goal 2 => intro hx)) | (refine kU2 s.fixed heq ?_ ?_; (on_goal 1 => clear heq); (on_goal 2 => intro hx)) | (refine kI s.fixed _ (takePacket_fixed heq) ?_; intro hx))))
    | (simp [*]; done)

@[simp] theorem execLoop_fixed (d : Fin 32) (t : Fin 144) (c : Nat) (s : State) :
    Out.fixes (execLoop d t c s) s.fixed := by
  unfold execLoop
  repeat' first
    | (with_reducible apply State.execHead_fixed; intro s _)
    | (simp; done)
    | (split <;> (try (rename_i heq; first | (refine kU1 s.fixed heq ?_ ?_; (on_goal 1 => clear heq); (on_goal 2 => intro hx)) | (refine kU2 s.fixed heq ?_ ?_; (on_goal 1 => clear heq); (on_goal 2 => intro hx)) | (refine kI s.fixed _ (takePacket_fixed heq) ?_; intro hx))))

@[simp] theorem execRdcr_fixed (d : Fin 32) (t : Fin 144) (c : Nat) (s : State) :
    Out.fixes (execRdcr d t c s) s.fixed := by simp [execRdcr]

@[simp] theorem execWrcr_fixed (d : Fin 32) (t : Fin 144) (c : Nat) (s : State) :
    Out.fixes (execWrcr d t c s) s.fixed := by simp [execWrcr]

@[simp] theorem execYield_fixed (d : Fin 32) (t : Fin 144) (c : Nat) (s : State) :
    Out.fixes (execYield d t c s) s.fixed := by
  unfold execYield
  repeat' first
    | lift_lets -underBinder
    | (intro x; clear_value x)
    | (with_reducible apply State.execHead_fixed; intro s _)
    | (simp; done)
    | (split <;> (try (rename_i heq; first | (refine kU1 s.fixed heq ?_ ?_; (on_goal 1 => clear heq); (on_goal 2 => intro hx)) | (refine kU2 s.fixed heq ?_ ?_; (on_goal 1 => clear heq); (on_goal 2 => intro hx)) | (refine kI s.fixed _ (takePacket_fixed heq) ?_; intro hx))))

@[simp] theorem execIllEngine_fixed (d : Fin 32) (t : Fin 144) (c : Nat) (s : State) :
    Out.fixes (execIllEngine d t c s) s.fixed := by simp [execIllEngine]

@[simp] theorem execInstructionDispatch_fixed (d : Fin 32) (t : Fin 144) (c : Nat) (fetch : Fetch) (s : State) :
    Out.fixes (execInstructionDispatch d t c fetch s) s.fixed := by
  unfold execInstructionDispatch
  repeat' first
    | lift_lets -underBinder
    | with_reducible refine (Out.fixes_next _ _).mpr ?_
    | (intro (x : State); refine kI (x := x) s.fixed _ ?_ ?_; (on_goal 1 => subst x); (on_goal 2 => (intro hx; clear_value x)))
    | (intro x; clear_value x)
    | with_reducible apply kiteO
    | intro _
    | (simp; done)
    | (simp [*]; done)

@[simp] theorem State.landAll_fixed (s : State) (d t : Nat) :
    (State.landAll s d t).fixed = s.fixed := by
  unfold State.landAll
  repeat' first
    | (simp; done)

@[simp] theorem execBreakEntry_fixed (d : Fin 32) (t : Fin 144) (s : State) :
    Out.fixes (execBreakEntry d t s) s.fixed := by
  unfold execBreakEntry
  repeat' first
    | lift_lets -underBinder
    | with_reducible refine (Out.fixes_next _ _).mpr ?_
    | (intro (x : State); refine kI (x := x) s.fixed _ ?_ ?_; (on_goal 1 => subst x); (on_goal 2 => (intro hx; clear_value x)))
    | (intro x; clear_value x)
    | with_reducible apply kiteO
    | intro _
    | (simp; done)
    | (simp [*]; done)

@[simp] theorem execStreamHalted_fixed (d : Fin 32) (t : Fin 144) (s : State) :
    Out.fixes (execStreamHalted d t s) s.fixed := by
  unfold execStreamHalted
  repeat' first
    | lift_lets -underBinder
    | (intro (x : State); refine kI (x := x) s.fixed _ ?_ ?_; (on_goal 1 => subst x); (on_goal 2 => (intro hx; clear_value x)))
    | (intro x; clear_value x)
    | (split <;> (try (rename_i heq; first | (refine kU1 s.fixed heq ?_ ?_; (on_goal 1 => clear heq); (on_goal 2 => intro hx)) | (refine kU2 s.fixed heq ?_ ?_; (on_goal 1 => clear heq); (on_goal 2 => intro hx)) | (refine kI s.fixed _ (takePacket_fixed heq) ?_; intro hx))))
    | (simp [*]; done)

@[simp] theorem execCircularWait_fixed (d : Fin 32) (t : Fin 144) (s0 : State) :
    Out.fixes (execCircularWait d t s0) s0.fixed := by
  unfold execCircularWait
  repeat' first
    | lift_lets -underBinder
    | with_reducible refine (Out.fixes_next _ _).mpr ?_
    | (intro (x : State); refine kI (x := x) s0.fixed _ ?_ ?_; (on_goal 1 => subst x); (on_goal 2 => (intro hx; clear_value x)))
    | (intro x; clear_value x)
    | with_reducible apply kiteO
    | intro _
    | (simp; done)
    | (split <;> (try (rename_i heq; first | (refine kU1 s0.fixed heq ?_ ?_; (on_goal 1 => clear heq); (on_goal 2 => intro hx)) | (refine kU2 s0.fixed heq ?_ ?_; (on_goal 1 => clear heq); (on_goal 2 => intro hx)) | (refine kI s0.fixed _ (takePacket_fixed heq) ?_; intro hx))))
    | (simp [*]; done)

@[simp] theorem execCatchCropSwitch_fixed (d : Fin 32) (t : Fin 144) (c : Nat) (s : State) :
    Out.fixes (execCatchCropSwitch d t c s) s.fixed := by
  unfold execCatchCropSwitch
  repeat' first
    | lift_lets -underBinder
    | (intro (x : State); refine kI (x := x) s.fixed _ ?_ ?_; (on_goal 1 => subst x); (on_goal 2 => (intro hx; clear_value x)))
    | (intro x; clear_value x)
    | (split <;> (try (rename_i heq; first | (refine kU1 s.fixed heq ?_ ?_; (on_goal 1 => clear heq); (on_goal 2 => intro hx)) | (refine kU2 s.fixed heq ?_ ?_; (on_goal 1 => clear heq); (on_goal 2 => intro hx)) | (refine kI s.fixed _ (takePacket_fixed heq) ?_; intro hx))))
    | (simp [*]; done)

@[simp] theorem execCatchCropSwitchComplete_fixed (d : Fin 32) (t : Fin 144) (s : State) :
    Out.fixes (execCatchCropSwitchComplete d t s) s.fixed := by
  unfold execCatchCropSwitchComplete
  repeat' first
    | lift_lets -underBinder
    | (intro x; clear_value x)
    | (simp; done)
    | (split <;> (try (rename_i heq; first | (refine kU1 s.fixed heq ?_ ?_; (on_goal 1 => clear heq); (on_goal 2 => intro hx)) | (refine kU2 s.fixed heq ?_ ?_; (on_goal 1 => clear heq); (on_goal 2 => intro hx)) | (refine kI s.fixed _ (takePacket_fixed heq) ?_; intro hx))))

@[simp] theorem execCropReturnBeat_fixed (d : Fin 32) (t : Fin 144) (s : State) :
    Out.fixes (execCropReturnBeat d t s) s.fixed := by
  unfold execCropReturnBeat
  repeat' first
    | lift_lets -underBinder
    | (intro x; clear_value x)
    | (simp; done)
    | (split <;> (try (rename_i heq; first | (refine kU1 s.fixed heq ?_ ?_; (on_goal 1 => clear heq); (on_goal 2 => intro hx)) | (refine kU2 s.fixed heq ?_ ?_; (on_goal 1 => clear heq); (on_goal 2 => intro hx)) | (refine kI s.fixed _ (takePacket_fixed heq) ?_; intro hx))))

@[simp] theorem execCropOverrun_fixed (d : Fin 32) (t : Fin 144) (s : State) :
    Out.fixes (execCropOverrun d t s) s.fixed := by
  unfold execCropOverrun
  repeat' first
    | lift_lets -underBinder
    | (intro x; clear_value x)
    | (simp; done)
    | (split <;> (try (rename_i heq; first | (refine kU1 s.fixed heq ?_ ?_; (on_goal 1 => clear heq); (on_goal 2 => intro hx)) | (refine kU2 s.fixed heq ?_ ?_; (on_goal 1 => clear heq); (on_goal 2 => intro hx)) | (refine kI s.fixed _ (takePacket_fixed heq) ?_; intro hx))))

@[simp] theorem State.streamCtrl_fixed (s : State) (d t : Nat) (w : BitVec 64) :
    (State.streamCtrl s d t w).fixed = s.fixed := by
  unfold State.streamCtrl
  repeat' first
    | lift_lets -underBinder
    | (intro (x : State); refine kI (x := x) s.fixed _ ?_ ?_; (on_goal 1 => subst x); (on_goal 2 => (intro hx; clear_value x)))
    | (intro x; clear_value x)
    | (split <;> (try (rename_i heq; first | (refine kU1 s.fixed heq ?_ ?_; (on_goal 1 => clear heq); (on_goal 2 => intro hx)) | (refine kU2 s.fixed heq ?_ ?_; (on_goal 1 => clear heq); (on_goal 2 => intro hx)) | (refine kI s.fixed _ (takePacket_fixed heq) ?_; intro hx))))
    | (simp [*]; done)

@[simp] theorem State.ctrlRow_fixed (s : State) (d t : Nat) (w : BitVec 64) (a : CtrlAct) :
    Out.fixes (State.ctrlRow s d t w a) s.fixed := by
  unfold State.ctrlRow
  split <;> simp

@[simp] theorem execStart_fixed (d : Fin 32) (t : Fin 144) (w : BitVec 64) (s : State) :
    Out.fixes (execStart d t w s) s.fixed := by simp [execStart]

@[simp] theorem execStop_fixed (d : Fin 32) (t : Fin 144) (w : BitVec 64) (s : State) :
    Out.fixes (execStop d t w s) s.fixed := by simp [execStop]

@[simp] theorem execAbort_fixed (d : Fin 32) (t : Fin 144) (w : BitVec 64) (s : State) :
    Out.fixes (execAbort d t w s) s.fixed := by simp [execAbort]

@[simp] theorem execRestart_fixed (d : Fin 32) (t : Fin 144) (w : BitVec 64) (s : State) :
    Out.fixes (execRestart d t w s) s.fixed := by simp [execRestart]

@[simp] theorem execResume_fixed (d : Fin 32) (t : Fin 144) (w : BitVec 64) (s : State) :
    Out.fixes (execResume d t w s) s.fixed := by simp [execResume]

end Sys2Proof.Machine
end

