-- ==== Sys2Proof/Laws/FrameCommand.lean ====
section
/-! SUPPORT. The queue, the fuse copies and a blow stay as they are: commands on their way and the memory dies. -/
namespace Sys2Proof.Machine
set_option linter.all false
set_option Elab.async false
set_option maxRecDepth 4000

@[simp] theorem State.reply_fixed (s : State) (c : Cmd) (status : Nat) (result : BitVec 64) :
    (State.reply s c status result).fixed = s.fixed := by
  unfold State.reply
  repeat' first
    | lift_lets -underBinder
    | (intro (x : State); refine kI (x := x) s.fixed _ ?_ ?_; (on_goal 1 => subst x); (on_goal 2 => (intro hx; clear_value x)))
    | intro _
    | (split <;> (try (rename_i heq; first | (refine kU1 s.fixed heq ?_ ?_; (on_goal 1 => clear heq); (on_goal 2 => intro hx)) | (refine kU2 s.fixed heq ?_ ?_; (on_goal 1 => clear heq); (on_goal 2 => intro hx)) | (refine kI s.fixed _ (takePacket_fixed heq) ?_; intro hx))))
    | (simp [*]; done)

@[simp] theorem State.ringPut_fixed (s : State) (r : Ring) (pos : Nat) (l : List Byte) :
    (State.ringPut s r pos l).fixed = s.fixed := by simp [State.ringPut]

@[simp] theorem State.acceptEntry_fixed (s : State) (ring : Fin 8) (r : Ring) (e : Entry) :
    (State.acceptEntry s ring r e).fixed = s.fixed := by
  unfold State.acceptEntry
  repeat' split
  all_goals simp

@[simp] theorem execCommandAccept_fixed (ring : Fin 8) (fetched : Option (List Byte)) (s : State) :
    Out.fixes (execCommandAccept ring fetched s) s.fixed := by
  unfold execCommandAccept
  repeat' first
    | lift_lets -underBinder
    | (intro (x : State); refine kI (x := x) s.fixed _ ?_ ?_; (on_goal 1 => subst x); (on_goal 2 => (intro hx; clear_value x)))
    | (intro x; clear_value x)
    | (split <;> (try (rename_i heq; first | (refine kU1 s.fixed heq ?_ ?_; (on_goal 1 => clear heq); (on_goal 2 => intro hx)) | (refine kU2 s.fixed heq ?_ ?_; (on_goal 1 => clear heq); (on_goal 2 => intro hx)) | (refine kI s.fixed _ (takePacket_fixed heq) ?_; intro hx))))
    | (simp [*]; done)

@[simp] theorem State.putCmd_fixed (s : State) (c : Cmd) :
    (State.putCmd s c).fixed = s.fixed := by simp [State.putCmd]

@[simp] theorem State.arriveCmd_fixed (s : State) (c : Cmd) :
    (State.arriveCmd s c).fixed = s.fixed := by simp [State.arriveCmd]

@[simp] theorem State.countDelivered_fixed (s : State) (targets : List Nat) :
    (State.countDelivered s targets).fixed = s.fixed := by
  unfold State.countDelivered
  repeat' first
    | with_reducible (refine kfold ?_ ?_; (on_goal 2 => intro s _))
    | (simp; done)
    | (split <;> (try (rename_i heq; first | (refine kU1 s.fixed heq ?_ ?_; (on_goal 1 => clear heq); (on_goal 2 => intro hx)) | (refine kU2 s.fixed heq ?_ ?_; (on_goal 1 => clear heq); (on_goal 2 => intro hx)) | (refine kI s.fixed _ (takePacket_fixed heq) ?_; intro hx))))

@[simp] theorem State.wakeCmd_fixed (s : State) (c : Cmd) :
    (State.wakeCmd s c).fixed = s.fixed := by
  unfold State.wakeCmd
  repeat' first
    | lift_lets -underBinder
    | with_reducible apply kite
    | intro _
    | (simp; done)

@[simp] theorem execExecBeatReached_fixed (cid : Nat) (s : State) :
    Out.fixes (execExecBeatReached cid s) s.fixed := by
  unfold execExecBeatReached
  repeat' split
  all_goals simp

@[simp] theorem State.wakeHeld_fixed (s : State) :
    (State.wakeHeld s).fixed = s.fixed := by
  unfold State.wakeHeld
  repeat' first
    | lift_lets -underBinder
    | with_reducible (refine kfold ?_ ?_; (on_goal 2 => intro s _))
    | (simp; done)

@[simp] theorem execCommandDeliver_fixed (cid : Nat) (s : State) :
    Out.fixes (execCommandDeliver cid s) s.fixed := by
  unfold execCommandDeliver
  repeat' split
  all_goals simp

@[simp] theorem State.refuseSealed_fixed (s : State) (c : Cmd) :
    (State.refuseSealed s c).fixed = s.fixed := by
  unfold State.refuseSealed
  repeat' first
    | (simp; done)

@[simp] theorem State.runCmd_fixed (s : State) (c : Cmd) (f : State → Cmd → State) (hf : ∀ a0 a1, (f a0 a1).fixed = a0.fixed) :
    (State.runCmd s c f).fixed = s.fixed := by
  unfold State.runCmd
  repeat' first
    | (split <;> (try (rename_i heq; first | (refine kU1 s.fixed heq ?_ ?_; (on_goal 1 => clear heq); (on_goal 2 => intro hx)) | (refine kU2 s.fixed heq ?_ ?_; (on_goal 1 => clear heq); (on_goal 2 => intro hx)) | (refine kI s.fixed _ (takePacket_fixed heq) ?_; intro hx))))
    | (simp [*]; done)

@[simp] theorem State.withCmd_fixed (s : State) (cid op : Nat) (f : State → Cmd → State) (hf : ∀ a0 a1, (f a0 a1).fixed = a0.fixed) :
    Out.fixes (State.withCmd s cid op f) s.fixed := by
  unfold State.withCmd
  repeat' first
    | (split <;> (try (rename_i heq; first | (refine kU1 s.fixed heq ?_ ?_; (on_goal 1 => clear heq); (on_goal 2 => intro hx)) | (refine kU2 s.fixed heq ?_ ?_; (on_goal 1 => clear heq); (on_goal 2 => intro hx)) | (refine kI s.fixed _ (takePacket_fixed heq) ?_; intro hx))))
    | (simp [*]; done)

@[simp] theorem State.atOnce_fixed (s : State) (cid op : Nat) (f : State → Cmd → State) (hf : ∀ a0 a1, (f a0 a1).fixed = a0.fixed) :
    Out.fixes (State.atOnce s cid op f) s.fixed := by
  unfold State.atOnce
  repeat' first
    | (split <;> (try (rename_i heq; first | (refine kU1 s.fixed heq ?_ ?_; (on_goal 1 => clear heq); (on_goal 2 => intro hx)) | (refine kU2 s.fixed heq ?_ ?_; (on_goal 1 => clear heq); (on_goal 2 => intro hx)) | (refine kI s.fixed _ (takePacket_fixed heq) ?_; intro hx))))
    | (simp [*]; done)

@[simp] theorem State.running_fixed (s : State) (c : Cmd) :
    (State.running s c).fixed = s.fixed := by simp [State.running]

@[simp] theorem State.endCmds_fixed (s : State) (which : Cmd → Bool) (status : Nat) :
    (State.endCmds s which status).fixed = s.fixed := by simp [State.endCmds]

@[simp] theorem State.eachDie_fixed (s : State) (c : Cmd) (f : State → Nat → State × Nat × Nat) (hf : ∀ a0 a1, (f a0 a1).1.fixed = a0.fixed) :
    (State.eachDie s c f).1.fixed = s.fixed := by
  unfold State.eachDie
  repeat' first
    | with_reducible (refine kfold1 ?_ ?_; (on_goal 2 => intro (s, _) _))
    | (split <;> (try (rename_i heq; first | (refine kU1 s.fixed heq ?_ ?_; (on_goal 1 => clear heq); (on_goal 2 => intro hx)) | (refine kU2 s.fixed heq ?_ ?_; (on_goal 1 => clear heq); (on_goal 2 => intro hx)) | (refine kI s.fixed _ (takePacket_fixed heq) ?_; intro hx))))
    | (simp [*]; done)

@[simp] theorem State.oneDie_fixed (s : State) (c : Cmd) (f : State → Nat → State) (hf : ∀ a0 a1, (f a0 a1).fixed = a0.fixed) :
    (State.oneDie s c f).fixed = s.fixed := by
  unfold State.oneDie
  repeat' first
    | (split <;> (try (rename_i heq; first | (refine kU1 s.fixed heq ?_ ?_; (on_goal 1 => clear heq); (on_goal 2 => intro hx)) | (refine kU2 s.fixed heq ?_ ?_; (on_goal 1 => clear heq); (on_goal 2 => intro hx)) | (refine kI s.fixed _ (takePacket_fixed heq) ?_; intro hx))))
    | (simp [*]; done)

@[simp] theorem State.cmdSignal_fixed (s : State) (block : Nat) (c : Cmd) (desc : BitVec 64) (count : Nat) :
    (State.cmdSignal s block c desc count).fixed = s.fixed := by
  unfold State.cmdSignal
  split <;> simp

@[simp] theorem State.harvestFail_fixed (s : State) (code addr : Nat) (entry : Nat := 0) :
    (State.harvestFail s code addr entry).fixed = s.fixed := by simp [State.harvestFail]

@[simp] theorem State.harvestAck_fixed (s : State) (a code : Nat) (data : List Byte) :
    (State.harvestAck s a code data).fixed = s.fixed := by
  unfold State.harvestAck
  repeat' first
    | lift_lets -underBinder
    | (intro x; clear_value x)
    | with_reducible apply kite
    | intro _
    | (simp; done)

@[simp] theorem State.restoreAck_fixed (s : State) (a code : Nat) (data : List Byte) :
    (State.restoreAck s a code data).fixed = s.fixed := by
  unfold State.restoreAck
  repeat' first
    | lift_lets -underBinder
    | (intro x; clear_value x)
    | (simp; done)
    | (split <;> (try (rename_i heq; first | (refine kU1 s.fixed heq ?_ ?_; (on_goal 1 => clear heq); (on_goal 2 => intro hx)) | (refine kU2 s.fixed heq ?_ ?_; (on_goal 1 => clear heq); (on_goal 2 => intro hx)) | (refine kI s.fixed _ (takePacket_fixed heq) ?_; intro hx))))

@[simp] theorem State.stewardAck_fixed (s : State) (id code : Nat) (data : List Byte) :
    (State.stewardAck s id code data).fixed = s.fixed := by
  unfold State.stewardAck
  repeat' first
    | lift_lets -underBinder
    | (intro (x : State); refine kI (x := x) s.fixed _ ?_ ?_; (on_goal 1 => subst x); (on_goal 2 => (intro hx; clear_value x)))
    | (intro x; clear_value x)
    | (split <;> (try (rename_i heq; first | (refine kU1 s.fixed heq ?_ ?_; (on_goal 1 => clear heq); (on_goal 2 => intro hx)) | (refine kU2 s.fixed heq ?_ ?_; (on_goal 1 => clear heq); (on_goal 2 => intro hx)) | (refine kI s.fixed _ (takePacket_fixed heq) ?_; intro hx))))
    | (simp [*]; done)

@[simp] theorem State.remoteWrite_fixed (s : State) (id : Nat → Nat) (dest : BitVec 16) (a : Nat) (l : List Byte) :
    (State.remoteWrite s id dest a l).fixed = s.fixed := by simp [State.remoteWrite]

@[simp] theorem State.remoteRead_fixed (s : State) (id : Nat → Nat) (dest : BitVec 16) (a n : Nat) :
    (State.remoteRead s id dest a n).fixed = s.fixed := by
  unfold State.remoteRead
  repeat' first
    | lift_lets -underBinder
    | (intro x; clear_value x)
    | (simp; done)

@[simp] theorem State.copiesLost_fixed (s : State) :
    (State.copiesLost s).fixed = s.fixed := by
  unfold State.copiesLost
  repeat' first
    | with_reducible assumption
    | lift_lets -underBinder
    | (intro (x : State); refine kI (x := x) s.fixed _ ?_ ?_; (on_goal 1 => subst x); (on_goal 2 => (intro hx; clear_value x)))
    | (intro x; clear_value x)
    | with_reducible (refine kfold ?_ ?_; (on_goal 2 => intro s _))
    | with_reducible apply kite
    | intro _
    | (simp; done)
    | (simp [*]; done)

@[simp] theorem State.respond_fixed (s : State) (who : Requester) (data : List Byte) (code : Nat) (retry : Bool) :
    (State.respond s who data code retry).fixed = s.fixed := by
  unfold State.respond
  repeat' first
    | with_reducible assumption
    | lift_lets -underBinder
    | (intro (x : State); refine kI (x := x) s.fixed _ ?_ ?_; (on_goal 1 => subst x); (on_goal 2 => (intro hx; clear_value x)))
    | (intro x; clear_value x)
    | with_reducible apply kite
    | intro _
    | (simp; done)
    | (split <;> (try (rename_i heq; first | (refine kU1 s.fixed heq ?_ ?_; (on_goal 1 => clear heq); (on_goal 2 => intro hx)) | (refine kU2 s.fixed heq ?_ ?_; (on_goal 1 => clear heq); (on_goal 2 => intro hx)) | (refine kI s.fixed _ (takePacket_fixed heq) ?_; intro hx))))
    | (simp [*]; done)

@[simp] theorem State.admitReq_fixed (s : State) (k : Nat) (r : MemReq) :
    (State.admitReq s k r).fixed = s.fixed := by
  unfold State.admitReq
  repeat' first
    | with_reducible apply kite
    | (simp; done)
    | (split <;> (try (rename_i heq; first | (refine kU1 s.fixed heq ?_ ?_; (on_goal 1 => clear heq); (on_goal 2 => intro hx)) | (refine kU2 s.fixed heq ?_ ?_; (on_goal 1 => clear heq); (on_goal 2 => intro hx)) | (refine kI s.fixed _ (takePacket_fixed heq) ?_; intro hx))))

@[simp] theorem State.retry_fixed (s : State) (who : Requester) :
    (State.retry s who).fixed = s.fixed := by simp [State.retry]

@[simp] theorem State.hold_fixed (s : State) (k b : Nat) (r : MemReq) :
    (State.hold s k b r).fixed = s.fixed := by
  unfold State.hold
  repeat' first
    | lift_lets -underBinder
    | (intro (x : _ → State); refine kH (x := x) s.fixed _ ?_ ?_; (on_goal 1 => subst x; intro _; beta_reduce); (on_goal 2 => (intro hx; clear_value x)))
    | (intro x; clear_value x)
    | (split <;> (try (rename_i heq; first | (refine kU1 s.fixed heq ?_ ?_; (on_goal 1 => clear heq); (on_goal 2 => intro hx)) | (refine kU2 s.fixed heq ?_ ?_; (on_goal 1 => clear heq); (on_goal 2 => intro hx)) | (refine kI s.fixed _ (takePacket_fixed heq) ?_; intro hx))))
    | (simp [*]; done)

@[simp] theorem State.enter_fixed (s : State) (k : Nat) (r : MemReq) :
    (State.enter s k r).fixed = s.fixed := by
  unfold State.enter
  repeat' first
    | lift_lets -underBinder
    | (intro x; clear_value x)
    | with_reducible apply kite
    | intro _
    | (simp; done)

@[simp] theorem State.runOutcome_fixed (s : State) (m sec : Nat) (l : List BankEntry) (d : Decoded) :
    (State.runOutcome s m sec l d).fixed = s.fixed := by simp [State.runOutcome]

@[simp] theorem State.spread_fixed (s : State) (k sec f : Nat) (pending : List BankEntry) :
    (State.spread s k sec f pending).fixed = s.fixed := by
  unfold State.spread
  repeat' first
    | lift_lets -underBinder
    | (intro (x : State); refine kI (x := x) s.fixed _ ?_ ?_; (on_goal 1 => subst x); (on_goal 2 => (intro hx; clear_value x)))
    | (intro x; clear_value x)
    | (simp; done)
    | (simp [*]; done)

@[simp] theorem State.sectorAccess_fixed (s : State) (k sec : Nat) (l later : List BankEntry) :
    (s.sectorAccess k sec l later).fixed = s.fixed := by
  unfold State.sectorAccess
  extract_lets m w back
  split
  · simp
  split
  rename_i t d heq
  have ht : t.fixed = s.fixed := by rw [← State.decodeSector_fixed s k sec false back later, heq]
  extract_lets u x
  have hu : u.fixed = s.fixed := by
    simp only [u]
    split <;> simp [ht]
  have hx : x.fixed = s.fixed := by
    clear_value w u
    simp only [x]
    split <;> simp [hu]
  simp [hx]

@[simp] theorem State.finishJobs_fixed (s : State) (m : Nat) (served : List BankEntry) :
    (State.finishJobs s m served).fixed = s.fixed := by
  unfold State.finishJobs
  repeat' first
    | with_reducible (refine kfold ?_ ?_; (on_goal 2 => intro s _))
    | (simp; done)
    | (split <;> (try (rename_i heq; first | (refine kU1 s.fixed heq ?_ ?_; (on_goal 1 => clear heq); (on_goal 2 => intro hx)) | (refine kU2 s.fixed heq ?_ ?_; (on_goal 1 => clear heq); (on_goal 2 => intro hx)) | (refine kI s.fixed _ (takePacket_fixed heq) ?_; intro hx))))

@[simp] theorem State.drainHoldN_fixed (s : State) (k : Nat) (x0 : Nat) :
    (State.drainHoldN s k x0).fixed = s.fixed := by
  induction x0 generalizing s k with
  | zero =>
    unfold State.drainHoldN
    repeat' first
      | (simp; done)
  | succ n ih =>
    unfold State.drainHoldN
    repeat' first
      | lift_lets -underBinder
      | (intro x; clear_value x)
      | (simp; done)
      | (split <;> (try (rename_i heq; first | (refine kU1 s.fixed heq ?_ ?_; (on_goal 1 => clear heq); (on_goal 2 => intro hx)) | (refine kU2 s.fixed heq ?_ ?_; (on_goal 1 => clear heq); (on_goal 2 => intro hx)) | (refine kI s.fixed _ (takePacket_fixed heq) ?_; intro hx))))
      | (simp [*]; done)

@[simp] theorem State.drainHold_fixed (s : State) (k b : Nat) :
    (State.drainHold s k b).fixed = s.fixed := by simp [State.drainHold]

@[simp] theorem State.wake_fixed (s : State) (l : List BankEntry) :
    (State.wake s l).fixed = s.fixed := by
  unfold State.wake
  repeat' first
    | lift_lets -underBinder
    | with_reducible (refine kfold ?_ ?_; (on_goal 2 => intro s _))
    | (simp; done)

@[simp] theorem State.serveList_fixed (s : State) (k b : Nat) (l : List BankEntry) :
    (State.serveList s k b l).fixed = s.fixed := by
  unfold State.serveList
  repeat' first
    | lift_lets -underBinder
    | (intro (x : State); refine kI (x := x) s.fixed _ ?_ ?_; (on_goal 1 => subst x); (on_goal 2 => (intro hx; clear_value x)))
    | (intro x; clear_value x)
    | with_reducible (refine kfold ?_ ?_; (on_goal 2 => intro s _))
    | (simp; done)
    | (simp [*]; done)

@[simp] theorem State.pickOne_fixed (s : State) (l : List BankPage) :
    (State.pickOne s l).2.fixed = s.fixed := by
  unfold State.pickOne
  repeat' first
    | (simp; done)
    | (split <;> (try (rename_i heq; first | (refine kU1 s.fixed heq ?_ ?_; (on_goal 1 => clear heq); (on_goal 2 => intro hx)) | (refine kU2 s.fixed heq ?_ ?_; (on_goal 1 => clear heq); (on_goal 2 => intro hx)) | (refine kI s.fixed _ (takePacket_fixed heq) ?_; intro hx))))

@[simp] theorem State.bestPage_fixed (s : State) (l : List (BankPage × Nat)) :
    (State.bestPage s l).2.fixed = s.fixed := by
  unfold State.bestPage
  repeat' first
    | lift_lets -underBinder
    | (intro x; clear_value x)
    | (simp; done)
    | (split <;> (try (rename_i heq; first | (refine kU1 s.fixed heq ?_ ?_; (on_goal 1 => clear heq); (on_goal 2 => intro hx)) | (refine kU2 s.fixed heq ?_ ?_; (on_goal 1 => clear heq); (on_goal 2 => intro hx)) | (refine kI s.fixed _ (takePacket_fixed heq) ?_; intro hx))))

@[simp] theorem State.winnowChoice_fixed (s : State) (x : HbmStack) (pc now : Nat) (banks : List Nat) :
    (State.winnowChoice s x pc now banks).2.fixed = s.fixed := by
  unfold State.winnowChoice
  repeat' first
    | lift_lets -underBinder
    | (intro x; clear_value x)
    | (split <;> (try (rename_i heq; first | (refine kU1 s.fixed heq ?_ ?_; (on_goal 1 => clear heq); (on_goal 2 => intro hx)) | (refine kU2 s.fixed heq ?_ ?_; (on_goal 1 => clear heq); (on_goal 2 => intro hx)) | (refine kI s.fixed _ (takePacket_fixed heq) ?_; intro hx))))
    | (simp [*]; done)

@[simp] theorem State.serve_fixed (s : State) (k b page : Nat) :
    (State.serve s k b page).fixed = s.fixed := by simp [State.serve]

@[simp] theorem State.reread_fixed (s : State) (k sec : Nat) : (s.reread k sec).fixed = s.fixed := by
  unfold State.reread
  split
  rename_i t d heq
  have ht : t.fixed = s.fixed := by rw [← State.decodeSector_fixed s k sec false false [], heq]
  extract_lets x v u
  have hu : u.fixed = s.fixed := by simp [u, ht]
  split
  · exact ht
  · split <;> simp [hu]

@[simp] theorem State.rereadRow_fixed (s : State) (k row : Nat) :
    (State.rereadRow s k row).fixed = s.fixed := by
  unfold State.rereadRow
  repeat' first
    | lift_lets -underBinder
    | with_reducible (refine kfold ?_ ?_; (on_goal 2 => intro s _))
    | (simp; done)

@[simp] theorem State.pcTurn_fixed (s : State) (k pc : Nat) :
    (State.pcTurn s k pc).fixed = s.fixed := by
  unfold State.pcTurn
  repeat' first
    | with_reducible assumption
    | lift_lets -underBinder
    | (intro x; clear_value x)
    | (simp; done)
    | (split <;> (try (rename_i heq; first | (refine kU1 s.fixed heq ?_ ?_; (on_goal 1 => clear heq); (on_goal 2 => intro hx)) | (refine kU2 s.fixed heq ?_ ?_; (on_goal 1 => clear heq); (on_goal 2 => intro hx)) | (refine kI s.fixed _ (takePacket_fixed heq) ?_; intro hx))))
    | (simp [*]; done)

@[simp] theorem State.pcUntil_fixed (k pc : Nat) (done : State → Bool) (n : Nat) (s : State) :
    (State.pcUntil k pc done n s).fixed = s.fixed := by
  induction n generalizing s with
  | zero => rfl
  | succ n ih =>
    simp only [State.pcUntil]
    split
    · rfl
    · rw [ih, State.pcTurn_fixed]

@[simp] theorem State.ownRequest_fixed (s : State) (k : Nat) (r : MemReq) :
    (State.ownRequest s k r).1.fixed = s.fixed := by
  unfold State.ownRequest
  repeat' first
    | with_reducible assumption
    | lift_lets -underBinder
    | (intro (x : State); refine kI (x := x) s.fixed _ ?_ ?_; (on_goal 1 => subst x); (on_goal 2 => (intro hx; clear_value x)))
    | (intro x; clear_value x)
    | with_reducible apply kite
    | intro _
    | (simp; done)
    | (simp [*]; done)

@[simp] theorem State.unmapped_fixed (s : State) (a : Nat) :
    (State.unmapped s a).fixed = s.fixed := by
  unfold State.unmapped
  repeat' first
    | (simp; done)

@[simp] theorem State.saveArea_fixed (s : State) (d t a : Nat) :
    (State.saveArea s d t a).fixed = s.fixed := by
  unfold State.saveArea
  repeat' first
    | (simp; done)

@[simp] theorem State.stackDown_fixed (s : State) (k a : Nat) :
    (State.stackDown s k a).fixed = s.fixed := by
  unfold State.stackDown
  repeat' first
    | (simp; done)

@[simp] theorem State.readPiece_fixed (s : State) (a n : Nat) :
    (State.readPiece s a n).1.fixed = s.fixed := by
  unfold State.readPiece
  repeat' first
    | with_reducible assumption
    | (simp; done)
    | (split <;> (try (rename_i heq; first | (refine kU1 s.fixed heq ?_ ?_; (on_goal 1 => clear heq); (on_goal 2 => intro hx)) | (refine kU2 s.fixed heq ?_ ?_; (on_goal 1 => clear heq); (on_goal 2 => intro hx)) | (refine kI s.fixed _ (takePacket_fixed heq) ?_; intro hx))))

@[simp] theorem State.writePiece_fixed (s : State) (a : Nat) (l : List Byte) :
    (State.writePiece s a l).1.fixed = s.fixed := by
  unfold State.writePiece
  repeat' first
    | (simp; done)
    | (split <;> (try (rename_i heq; first | (refine kU1 s.fixed heq ?_ ?_; (on_goal 1 => clear heq); (on_goal 2 => intro hx)) | (refine kU2 s.fixed heq ?_ ?_; (on_goal 1 => clear heq); (on_goal 2 => intro hx)) | (refine kI s.fixed _ (takePacket_fixed heq) ?_; intro hx))))

@[simp] theorem State.readLoop_fixed (piece : State → Nat → Nat → State × (List Byte ⊕ (Nat × Nat))) (s : State) (got : List Byte) (x0 : List (Nat × Nat × Nat)) (hpiece : ∀ a0 a1 a2, (piece a0 a1 a2).1.fixed = a0.fixed) :
    (State.readLoop piece s got x0).1.fixed = s.fixed := by
  induction x0 generalizing s got with
  | nil =>
    unfold State.readLoop
    repeat' first
      | (split <;> (try (rename_i heq; first | (refine kU1 s.fixed heq ?_ ?_; (on_goal 1 => clear heq); (on_goal 2 => intro hx)) | (refine kU2 s.fixed heq ?_ ?_; (on_goal 1 => clear heq); (on_goal 2 => intro hx)) | (refine kI s.fixed _ (takePacket_fixed heq) ?_; intro hx))))
      | (simp [*]; done)
  | cons e l ih =>
    unfold State.readLoop
    repeat' first
      | (split <;> (try (rename_i heq; first | (refine kU1 s.fixed heq ?_ ?_; (on_goal 1 => clear heq); (on_goal 2 => intro hx)) | (refine kU2 s.fixed heq ?_ ?_; (on_goal 1 => clear heq); (on_goal 2 => intro hx)) | (refine kI s.fixed _ (takePacket_fixed heq) ?_; intro hx))))
      | (simp [*]; done)

@[simp] theorem State.devRead_fixed (s : State) (a n : Nat) :
    (State.devRead s a n).1.fixed = s.fixed := by simp [State.devRead]

@[simp] theorem State.writeLoop_fixed (piece : State → Nat → List Byte → State × Option (Nat × Nat)) (s : State) (l : List Byte) (x0 : List (Nat × Nat × Nat)) (hpiece : ∀ a0 a1 a2, (piece a0 a1 a2).1.fixed = a0.fixed) :
    (State.writeLoop piece s l x0).1.fixed = s.fixed := by
  induction x0 generalizing s l with
  | nil =>
    unfold State.writeLoop
    repeat' first
      | (split <;> (try (rename_i heq; first | (refine kU1 s.fixed heq ?_ ?_; (on_goal 1 => clear heq); (on_goal 2 => intro hx)) | (refine kU2 s.fixed heq ?_ ?_; (on_goal 1 => clear heq); (on_goal 2 => intro hx)) | (refine kI s.fixed _ (takePacket_fixed heq) ?_; intro hx))))
      | (simp [*]; done)
  | cons e l ih =>
    unfold State.writeLoop
    repeat' first
      | (split <;> (try (rename_i heq; first | (refine kU1 s.fixed heq ?_ ?_; (on_goal 1 => clear heq); (on_goal 2 => intro hx)) | (refine kU2 s.fixed heq ?_ ?_; (on_goal 1 => clear heq); (on_goal 2 => intro hx)) | (refine kI s.fixed _ (takePacket_fixed heq) ?_; intro hx))))
      | (simp [*]; done)

@[simp] theorem State.devWrite_fixed (s : State) (a : Nat) (l : List Byte) :
    (State.devWrite s a l).1.fixed = s.fixed := by simp [State.devWrite]

@[simp] theorem State.takeReq_fixed (s : State) (m k : Nat) (r : MemReq) :
    (State.takeReq s m k r).fixed = s.fixed := by
  unfold State.takeReq
  repeat' first
    | lift_lets -underBinder
    | with_reducible apply kite
    | intro _
    | (simp; done)

@[simp] theorem execMemRequest_fixed (m : Fin 16) (x : Timed MemReq) (s : State) :
    Out.fixes (execMemRequest m x s) s.fixed := by
  unfold execMemRequest
  repeat' first
    | lift_lets -underBinder
    | (intro (x : State); refine kI (x := x) s.fixed _ ?_ ?_; (on_goal 1 => subst x); (on_goal 2 => (intro hx; clear_value x)))
    | (intro x; clear_value x)
    | (split <;> (try (rename_i heq; first | (refine kU1 s.fixed heq ?_ ?_; (on_goal 1 => clear heq); (on_goal 2 => intro hx)) | (refine kU2 s.fixed heq ?_ ?_; (on_goal 1 => clear heq); (on_goal 2 => intro hx)) | (refine kI s.fixed _ (takePacket_fixed heq) ?_; intro hx))))
    | (simp [*]; done)

@[simp] theorem execWinnowerAccess_fixed (m : Fin 16) (stack : Bool) (pc : Fin 64) (now : Nat) (banks : List Nat) (errs : List (Nat × Nat)) (odecc : List Nat) (s : State) :
    Out.fixes (execWinnowerAccess m stack pc now banks errs odecc s) s.fixed := by
  unfold execWinnowerAccess
  repeat' first
    | with_reducible assumption
    | lift_lets -underBinder
    | with_reducible refine (Out.fixes_next _ _).mpr ?_
    | (intro (x : State); refine kI (x := x) s.fixed _ ?_ ?_; (on_goal 1 => subst x); (on_goal 2 => (intro hx; clear_value x)))
    | (intro x; clear_value x)
    | with_reducible apply kiteO
    | intro _
    | (simp; done)
    | (split <;> (try (rename_i heq; first | (refine kU1 s.fixed heq ?_ ?_; (on_goal 1 => clear heq); (on_goal 2 => intro hx)) | (refine kU2 s.fixed heq ?_ ?_; (on_goal 1 => clear heq); (on_goal 2 => intro hx)) | (refine kI s.fixed _ (takePacket_fixed heq) ?_; intro hx))))
    | (simp [*]; done)

@[simp] theorem State.gleanSpend_fixed (s : State) (m bytes : Nat) :
    (State.gleanSpend s m bytes).fixed = s.fixed := by
  unfold State.gleanSpend
  repeat' first
    | lift_lets -underBinder
    | (intro x; clear_value x)
    | (simp; done)

@[simp] theorem execScrubRead_fixed (m : Fin 16) (stack : Bool) (errs : Nat) (odecc : List (Fin 2)) (s : State) :
    Out.fixes (execScrubRead m stack errs odecc s) s.fixed := by
  unfold execScrubRead
  repeat' first
    | lift_lets -underBinder
    | (intro (x : State); refine kI (x := x) s.fixed _ ?_ ?_; (on_goal 1 => subst x); (on_goal 2 => (intro hx; clear_value x)))
    | (intro x; clear_value x)
    | (split <;> (try (rename_i heq; first | (refine kU1 s.fixed heq ?_ ?_; (on_goal 1 => clear heq); (on_goal 2 => intro hx)) | (refine kU2 s.fixed heq ?_ ?_; (on_goal 1 => clear heq); (on_goal 2 => intro hx)) | (refine kI s.fixed _ (takePacket_fixed heq) ?_; intro hx))))
    | (simp [*]; done)

@[simp] theorem State.onBank_fixed (s : State) (m : Nat) (stack : Bool) (b : Nat) (f : Bank → Bank) :
    (State.onBank s m stack b f).fixed = s.fixed := by simp [State.onBank]

@[simp] theorem execRefresh_fixed (m : Fin 16) (stack : Bool) (pc : Fin 64) (bank : Timed (Fin 48)) (s : State) :
    Out.fixes (execRefresh m stack pc bank s) s.fixed := by
  unfold execRefresh
  repeat' first
    | lift_lets -underBinder
    | with_reducible refine (Out.fixes_next _ _).mpr ?_
    | (intro (x : State); refine kI (x := x) s.fixed _ ?_ ?_; (on_goal 1 => subst x); (on_goal 2 => (intro hx; clear_value x)))
    | (intro x; clear_value x)
    | with_reducible apply kiteO
    | intro _
    | (simp; done)
    | (simp [*]; done)

@[simp] theorem execRfm_fixed (m : Fin 16) (stack : Bool) (pc : Fin 64) (bank : Fin 48) (s : State) :
    Out.fixes (execRfm m stack pc bank s) s.fixed := by simp [execRfm]

@[simp] theorem execRepairCandidate_fixed (m : Fin 16) (stack : Bool) (row : BitVec 26) (s : State) :
    Out.fixes (execRepairCandidate m stack row s) s.fixed := by
  unfold execRepairCandidate
  repeat' first
    | lift_lets -underBinder
    | (intro (x : State); refine kI (x := x) s.fixed _ ?_ ?_; (on_goal 1 => subst x); (on_goal 2 => (intro hx; clear_value x)))
    | (intro x; clear_value x)
    | (split <;> (try (rename_i heq; first | (refine kU1 s.fixed heq ?_ ?_; (on_goal 1 => clear heq); (on_goal 2 => intro hx)) | (refine kU2 s.fixed heq ?_ ?_; (on_goal 1 => clear heq); (on_goal 2 => intro hx)) | (refine kI s.fixed _ (takePacket_fixed heq) ?_; intro hx))))
    | (simp [*]; done)

@[simp] theorem execHbmTempPoll_fixed (m : Fin 16) (t0 t1 : BitVec 8) (s : State) :
    Out.fixes (execHbmTempPoll m t0 t1 s) s.fixed := by
  unfold execHbmTempPoll
  repeat' first
    | with_reducible refine (Out.fixes_next _ _).mpr ?_
    | (simp; done)
    | (split <;> (try (rename_i heq; first | (refine kU1 s.fixed heq ?_ ?_; (on_goal 1 => clear heq); (on_goal 2 => intro hx)) | (refine kU2 s.fixed heq ?_ ?_; (on_goal 1 => clear heq); (on_goal 2 => intro hx)) | (refine kI s.fixed _ (takePacket_fixed heq) ?_; intro hx))))

@[simp] theorem execHbmLevel3Throttle_fixed (m : Fin 16) (stack : Bool) (s : State) :
    Out.fixes (execHbmLevel3Throttle m stack s) s.fixed := by
  unfold execHbmLevel3Throttle
  repeat' first
    | lift_lets -underBinder
    | (intro (x : State); refine kI (x := x) s.fixed _ ?_ ?_; (on_goal 1 => subst x); (on_goal 2 => (intro hx; clear_value x)))
    | (intro x; clear_value x)
    | (split <;> (try (rename_i heq; first | (refine kU1 s.fixed heq ?_ ?_; (on_goal 1 => clear heq); (on_goal 2 => intro hx)) | (refine kU2 s.fixed heq ?_ ?_; (on_goal 1 => clear heq); (on_goal 2 => intro hx)) | (refine kI s.fixed _ (takePacket_fixed heq) ?_; intro hx))))
    | (simp [*]; done)

@[simp] theorem execHbmRecalibration_fixed (m : Fin 16) (stack : Bool) (pc : Fin 64) (converged : Bool) (s : State) :
    Out.fixes (execHbmRecalibration m stack pc converged s) s.fixed := by
  unfold execHbmRecalibration
  repeat' first
    | with_reducible assumption
    | lift_lets -underBinder
    | with_reducible refine (Out.fixes_next _ _).mpr ?_
    | (intro (x : State); refine kI (x := x) s.fixed _ ?_ ?_; (on_goal 1 => subst x); (on_goal 2 => (intro hx; clear_value x)))
    | (intro x; clear_value x)
    | with_reducible apply kiteO
    | intro _
    | (simp; done)
    | (simp [*]; done)

end Sys2Proof.Machine
end

