-- ==== Sys2Proof/Laws/FrameLink.lean ====
section
/-! SUPPORT. The queue, the fuse copies and a blow stay as they are: links, packets and the node's groups. -/
namespace Sys2Proof.Machine
set_option linter.all false
set_option Elab.async false
set_option maxRecDepth 4000

@[simp] theorem State.setLd_fixed (s : State) (l : Nat) (x : LinkDie) :
    (State.setLd s l x).fixed = s.fixed := by simp [State.setLd]

@[simp] theorem State.countStale_fixed (s : State) (l : Nat) :
    (State.countStale s l).fixed = s.fixed := by simp [State.countStale]

@[simp] theorem State.countLate_fixed (s : State) (l : Nat) :
    (State.countLate s l).fixed = s.fixed := by simp [State.countLate]

@[simp] theorem State.pushOut_fixed (s : State) (k : Packet) :
    (State.pushOut s k).fixed = s.fixed := by simp [State.pushOut]

@[simp] theorem State.errorBack_fixed (s : State) (k : Packet) (code : Nat) :
    (State.errorBack s k code).fixed = s.fixed := by simp [State.errorBack]

@[simp] theorem State.setRem_fixed (s : State) (i : Nat) (x : RemSlot) :
    (State.setRem s i x).fixed = s.fixed := by simp [State.setRem]

@[simp] theorem State.finishRemote_fixed (s : State) (i : Nat) (data : List Byte) (code : Nat) :
    (State.finishRemote s i data code).fixed = s.fixed := by
  unfold State.finishRemote
  repeat' first
    | lift_lets -underBinder
    | (intro x; clear_value x)
    | (simp; done)
    | (split <;> (try (rename_i heq; first | (refine kU1 s.fixed heq ?_ ?_; (on_goal 1 => clear heq); (on_goal 2 => intro hx)) | (refine kU2 s.fixed heq ?_ ?_; (on_goal 1 => clear heq); (on_goal 2 => intro hx)) | (refine kI s.fixed _ (takePacket_fixed heq) ?_; intro hx))))

@[simp] theorem State.enqueue_fixed (s : State) (p vc : Nat) (k : Packet) :
    (State.enqueue s p vc k).fixed = s.fixed := by simp [State.enqueue]

@[simp] theorem State.failOwn_fixed (s : State) (k : Packet) (code : Nat) :
    (State.failOwn s k code).fixed = s.fixed := by
  unfold State.failOwn
  repeat' first
    | lift_lets -underBinder
    | with_reducible apply kite
    | intro _
    | (simp; done)

@[simp] theorem State.noRoute_fixed (s : State) (l vc : Nat) (k : Packet) :
    (State.noRoute s l vc k).fixed = s.fixed := by
  unfold State.noRoute
  repeat' first
    | lift_lets -underBinder
    | (intro (x : State); refine kI (x := x) s.fixed _ ?_ ?_; (on_goal 1 => subst x); (on_goal 2 => (intro hx; clear_value x)))
    | (split <;> (try (rename_i heq; first | (refine kU1 s.fixed heq ?_ ?_; (on_goal 1 => clear heq); (on_goal 2 => intro hx)) | (refine kU2 s.fixed heq ?_ ?_; (on_goal 1 => clear heq); (on_goal 2 => intro hx)) | (refine kI s.fixed _ (takePacket_fixed heq) ?_; intro hx))))
    | (simp [*]; done)

@[simp] theorem State.loseOwn_fixed (s : State) (k : Packet) :
    (State.loseOwn s k).fixed = s.fixed := by
  unfold State.loseOwn
  split <;> simp

@[simp] theorem State.loseTransit_fixed (s : State) (k : Packet) :
    (State.loseTransit s k).fixed = s.fixed := by
  unfold State.loseTransit
  repeat' first
    | lift_lets -underBinder
    | with_reducible apply kite
    | intro _
    | (simp; done)

@[simp] theorem State.fencePort_fixed (s : State) (p : Nat) :
    (State.fencePort s p).fixed = s.fixed := by
  unfold State.fencePort
  repeat' first
    | with_reducible (refine kfold ?_ ?_; (on_goal 2 => intro s _))
    | (split <;> (try (rename_i heq; first | (refine kU1 s.fixed heq ?_ ?_; (on_goal 1 => clear heq); (on_goal 2 => intro hx)) | (refine kU2 s.fixed heq ?_ ?_; (on_goal 1 => clear heq); (on_goal 2 => intro hx)) | (refine kI s.fixed _ (takePacket_fixed heq) ?_; intro hx))))
    | (simp [*]; done)

@[simp] theorem State.retrainPort_fixed (s : State) (p : Nat) :
    (State.retrainPort s p).fixed = s.fixed := by simp [State.retrainPort]

@[simp] theorem State.freeBuffers_fixed (s : State) (p vc : Nat) (k : Packet) :
    (State.freeBuffers s p vc k).fixed = s.fixed := by simp [State.freeBuffers]

@[simp] theorem execFlitTransmit_fixed (p : Fin 12) (s : State) :
    Out.fixes (execFlitTransmit p s) s.fixed := by
  unfold execFlitTransmit
  repeat' first
    | lift_lets -underBinder
    | (intro x; clear_value x)
    | (simp; done)
    | (split <;> (try (rename_i heq; first | (refine kU1 s.fixed heq ?_ ?_; (on_goal 1 => clear heq); (on_goal 2 => intro hx)) | (refine kU2 s.fixed heq ?_ ?_; (on_goal 1 => clear heq); (on_goal 2 => intro hx)) | (refine kI s.fixed _ (takePacket_fixed heq) ?_; intro hx))))

@[simp] theorem State.acceptFlit_fixed (s : State) (p : Nat) (f : Flit) :
    (State.acceptFlit s p f).fixed = s.fixed := by
  unfold State.acceptFlit
  repeat' first
    | with_reducible assumption
    | lift_lets -underBinder
    | (intro (x : State); refine kI (x := x) s.fixed _ ?_ ?_; (on_goal 1 => subst x); (on_goal 2 => (intro hx; clear_value x)))
    | (intro x; clear_value x)
    | with_reducible apply kite
    | intro _
    | (simp; done)
    | (split <;> (try (rename_i heq; first | (refine kU1 s.fixed heq ?_ ?_; (on_goal 1 => clear heq); (on_goal 2 => intro hx)) | (refine kU2 s.fixed heq ?_ ?_; (on_goal 1 => clear heq); (on_goal 2 => intro hx)) | (refine kI s.fixed _ (takePacket_fixed heq) ?_; intro hx))))
    | (simp [*]; done)

@[simp] theorem execFlitReceive_fixed (p : Fin 12) (x : Received) (s : State) :
    Out.fixes (execFlitReceive p x s) s.fixed := by
  unfold execFlitReceive
  repeat' first
    | lift_lets -underBinder
    | (intro (x : State); refine kI (x := x) s.fixed _ ?_ ?_; (on_goal 1 => subst x); (on_goal 2 => (intro hx; clear_value x)))
    | (intro x; clear_value x)
    | (split <;> (try (rename_i heq; first | (refine kU1 s.fixed heq ?_ ?_; (on_goal 1 => clear heq); (on_goal 2 => intro hx)) | (refine kU2 s.fixed heq ?_ ?_; (on_goal 1 => clear heq); (on_goal 2 => intro hx)) | (refine kI s.fixed _ (takePacket_fixed heq) ?_; intro hx))))
    | (simp [*]; done)

@[simp] theorem execLaneLockLost_fixed (p : Fin 12) (s : State) :
    Out.fixes (execLaneLockLost p s) s.fixed := by
  unfold execLaneLockLost
  repeat' first
    | lift_lets -underBinder
    | (intro x; clear_value x)
    | (simp; done)
    | (split <;> (try (rename_i heq; first | (refine kU1 s.fixed heq ?_ ?_; (on_goal 1 => clear heq); (on_goal 2 => intro hx)) | (refine kU2 s.fixed heq ?_ ?_; (on_goal 1 => clear heq); (on_goal 2 => intro hx)) | (refine kI s.fixed _ (takePacket_fixed heq) ?_; intro hx))))

@[simp] theorem execLinkTrainingComplete_fixed (p : Fin 12) (ok : Bool) (peer : Peer) (s : State) :
    Out.fixes (execLinkTrainingComplete p ok peer s) s.fixed := by
  unfold execLinkTrainingComplete
  repeat' first
    | lift_lets -underBinder
    | (intro x; clear_value x)
    | (simp; done)
    | (split <;> (try (rename_i heq; first | (refine kU1 s.fixed heq ?_ ?_; (on_goal 1 => clear heq); (on_goal 2 => intro hx)) | (refine kU2 s.fixed heq ?_ ?_; (on_goal 1 => clear heq); (on_goal 2 => intro hx)) | (refine kI s.fixed _ (takePacket_fixed heq) ?_; intro hx))))

@[simp] theorem execRetrainComplete_fixed (p : Fin 12) (ok : Bool) (audit : Audit) (s : State) :
    Out.fixes (execRetrainComplete p ok audit s) s.fixed := by
  unfold execRetrainComplete
  repeat' first
    | lift_lets -underBinder
    | (intro (x : State); refine kI (x := x) s.fixed _ ?_ ?_; (on_goal 1 => subst x); (on_goal 2 => (intro hx; clear_value x)))
    | (intro x; clear_value x)
    | (split <;> (try (rename_i heq; first | (refine kU1 s.fixed heq ?_ ?_; (on_goal 1 => clear heq); (on_goal 2 => intro hx)) | (refine kU2 s.fixed heq ?_ ?_; (on_goal 1 => clear heq); (on_goal 2 => intro hx)) | (refine kI s.fixed _ (takePacket_fixed heq) ?_; intro hx))))
    | (simp [*]; done)

@[simp] theorem State.queueAudit_fixed (s : State) (p : Nat) :
    (State.queueAudit s p).fixed = s.fixed := by
  unfold State.queueAudit
  repeat' first
    | lift_lets -underBinder
    | (intro x; clear_value x)
    | (simp; done)

@[simp] theorem execCreditAudit_fixed (p : Fin 12) (marginOk : Bool) (s : State) :
    Out.fixes (execCreditAudit p marginOk s) s.fixed := by
  unfold execCreditAudit
  repeat' first
    | lift_lets -underBinder
    | (intro (x : State); refine kI (x := x) s.fixed _ ?_ ?_; (on_goal 1 => subst x); (on_goal 2 => (intro hx; clear_value x)))
    | (intro x; clear_value x)
    | (split <;> (try (rename_i heq; first | (refine kU1 s.fixed heq ?_ ?_; (on_goal 1 => clear heq); (on_goal 2 => intro hx)) | (refine kU2 s.fixed heq ?_ ?_; (on_goal 1 => clear heq); (on_goal 2 => intro hx)) | (refine kI s.fixed _ (takePacket_fixed heq) ?_; intro hx))))
    | (simp [*]; done)

@[simp] theorem State.auditVc_fixed (s : State) (p vc free : Nat) :
    (State.auditVc s p vc free).fixed = s.fixed := by
  unfold State.auditVc
  repeat' first
    | lift_lets -underBinder
    | (intro (x : State); refine kI (x := x) s.fixed _ ?_ ?_; (on_goal 1 => subst x); (on_goal 2 => (intro hx; clear_value x)))
    | (intro x; clear_value x)
    | (split <;> (try (rename_i heq; first | (refine kU1 s.fixed heq ?_ ?_; (on_goal 1 => clear heq); (on_goal 2 => intro hx)) | (refine kU2 s.fixed heq ?_ ?_; (on_goal 1 => clear heq); (on_goal 2 => intro hx)) | (refine kI s.fixed _ (takePacket_fixed heq) ?_; intro hx))))
    | (simp [*]; done)

@[simp] theorem execAuditFlit_fixed (p : Fin 12) (free : List Nat) (ctot : List (BitVec 7)) (delay : BitVec 32) (s : State) :
    Out.fixes (execAuditFlit p free ctot delay s) s.fixed := by
  unfold execAuditFlit
  repeat' first
    | lift_lets -underBinder
    | (intro (x : State); refine kI (x := x) s.fixed _ ?_ ?_; (on_goal 1 => subst x); (on_goal 2 => (intro hx; clear_value x)))
    | (intro x; clear_value x)
    | (split <;> (try (rename_i heq; first | (refine kU1 s.fixed heq ?_ ?_; (on_goal 1 => clear heq); (on_goal 2 => intro hx)) | (refine kU2 s.fixed heq ?_ ?_; (on_goal 1 => clear heq); (on_goal 2 => intro hx)) | (refine kI s.fixed _ (takePacket_fixed heq) ?_; intro hx))))
    | (simp [*]; done)

@[simp] theorem State.members_fixed (s : State) (w : BitVec 64) (addr : Nat) :
    (State.members s w addr).1.fixed = s.fixed := by
  unfold State.members
  repeat' first
    | with_reducible assumption
    | lift_lets -underBinder
    | (intro x; clear_value x)
    | (simp; done)
    | (split <;> (try (rename_i heq; first | (refine kU1 s.fixed heq ?_ ?_; (on_goal 1 => clear heq); (on_goal 2 => intro hx)) | (refine kU2 s.fixed heq ?_ ?_; (on_goal 1 => clear heq); (on_goal 2 => intro hx)) | (refine kI s.fixed _ (takePacket_fixed heq) ?_; intro hx))))

@[simp] theorem State.pushVote_fixed (s : State) (dest : List (BitVec 16)) (word : BitVec 8) :
    (State.pushVote s dest word).fixed = s.fixed := by simp [State.pushVote]

@[simp] theorem State.voteOn_fixed (s : State) (v : VoteRun) :
    (State.voteOn s v).fixed = s.fixed := by
  unfold State.voteOn
  repeat' split
  all_goals simp

@[simp] theorem State.enterVote_fixed (s : State) (word : BitVec 8) :
    (State.enterVote s word).fixed = s.fixed := by
  unfold State.enterVote
  repeat' first
    | lift_lets -underBinder
    | (intro (x : State); refine kI (x := x) s.fixed _ ?_ ?_; (on_goal 1 => subst x); (on_goal 2 => (intro hx; clear_value x)))
    | (intro x; clear_value x)
    | (split <;> (try (rename_i heq; first | (refine kU1 s.fixed heq ?_ ?_; (on_goal 1 => clear heq); (on_goal 2 => intro hx)) | (refine kU2 s.fixed heq ?_ ?_; (on_goal 1 => clear heq); (on_goal 2 => intro hx)) | (refine kI s.fixed _ (takePacket_fixed heq) ?_; intro hx))))
    | (simp [*]; done)

@[simp] theorem State.endCrossing_fixed (s : State) (x : Crossing) :
    (State.endCrossing s x).fixed = s.fixed := by
  unfold State.endCrossing
  repeat' first
    | lift_lets -underBinder
    | (intro (x : State); refine kI (x := x) s.fixed _ ?_ ?_; (on_goal 1 => subst x); (on_goal 2 => (intro hx; clear_value x)))
    | (intro x; clear_value x)
    | with_reducible apply kite
    | intro _
    | (simp; done)
    | (simp [*]; done)

theorem State.leave_fixed {s t : State} {l q vc : Nat} {k : Packet} (h : s.leave l q vc k = some t) :
    t.fixed = s.fixed := by
  unfold State.leave at h
  repeat' split at h
  all_goals cases h <;> simp

theorem State.leave_getD_fixed {s t : State} {x : Fixed} (l q vc : Nat) (k : Packet) (hs : s.fixed = x)
    (ht : t.fixed = x) : ((t.leave l q vc k).getD s).fixed = x := by
  cases h : t.leave l q vc k with
  | none => exact hs
  | some u => exact (State.leave_fixed h).trans ht

@[simp] theorem State.injectReq_fixed (s : State) (l : Nat) (w : RemoteReq) : (s.injectReq l w).fixed = s.fixed := by
  unfold State.injectReq
  split
  · rfl
  · extract_lets r g k t u v
    have hv : v.fixed = s.fixed := by simp [v, u, t]
    clear_value v
    split
    · rfl
    · split
      · rfl
      · exact State.leave_getD_fixed _ _ _ _ rfl hv
    · simp [hv]

@[simp] theorem State.arrive_fixed (s : State) (x : Delivered) :
    (State.arrive s x).fixed = s.fixed := by
  unfold State.arrive
  split <;> simp

@[simp] theorem State.onward_fixed (s taken : State) (l : Nat) (came : Option (Nat × Nat)) (beat : Nat)
    (k : Packet) (h : taken.fixed = s.fixed) : (s.onward taken l came beat k).fixed = s.fixed := by
  unfold State.onward
  split
  · split <;> simp [h]
  · split
    · rfl
    · exact State.leave_getD_fixed _ _ _ _ rfl h
    · simp [h]

@[simp] theorem State.transit_fixed (s : State) (l : Nat) (e : Arrival) :
    (State.transit s l e).fixed = s.fixed := by
  unfold State.transit
  repeat' first
    | lift_lets -underBinder
    | (intro (x : State); refine kI (x := x) s.fixed _ ?_ ?_; (on_goal 1 => subst x); (on_goal 2 => (intro hx; clear_value x)))
    | (intro x; clear_value x)
    | with_reducible apply kite
    | intro _
    | (simp; done)
    | (simp [*]; done)

@[simp] theorem State.unshelve_fixed (s : State) (l : Nat) (e : Nat × Nat × Packet) :
    (State.unshelve s l e).fixed = s.fixed := by
  unfold State.unshelve
  repeat' first
    | lift_lets -underBinder
    | (intro x; clear_value x)
    | with_reducible apply kite
    | intro _
    | (simp; done)

@[simp] theorem State.sendOwn_fixed (s : State) (l : Nat) (k : Packet) :
    (State.sendOwn s l k).fixed = s.fixed := by
  unfold State.sendOwn
  repeat' first
    | lift_lets -underBinder
    | (intro (x : State); refine kI (x := x) s.fixed _ ?_ ?_; (on_goal 1 => subst x); (on_goal 2 => (intro hx; clear_value x)))
    | (intro x; clear_value x)
    | (split <;> (try (rename_i heq; first | (refine kU1 s.fixed heq ?_ ?_; (on_goal 1 => clear heq); (on_goal 2 => intro hx)) | (refine kU2 s.fixed heq ?_ ?_; (on_goal 1 => clear heq); (on_goal 2 => intro hx)) | (refine kI s.fixed _ (takePacket_fixed heq) ?_; intro hx))))
    | (simp [*]; done)

@[simp] theorem execPacketForward_fixed (l : Fin 8) (k : Packet) (s : State) :
    Out.fixes (execPacketForward l k s) s.fixed := by
  unfold execPacketForward
  repeat' first
    | lift_lets -underBinder
    | with_reducible refine (Out.fixes_next _ _).mpr ?_
    | (intro x; clear_value x)
    | with_reducible apply kite
    | with_reducible apply kiteO
    | intro _
    | (simp; done)
    | (split <;> (try (rename_i heq; first | (refine kU1 s.fixed heq ?_ ?_; (on_goal 1 => clear heq); (on_goal 2 => intro hx)) | (refine kU2 s.fixed heq ?_ ?_; (on_goal 1 => clear heq); (on_goal 2 => intro hx)) | (refine kI s.fixed _ (takePacket_fixed heq) ?_; intro hx))))

@[simp] theorem execRemoteTimeout_fixed (l : Fin 8) (slot : Fin 4096) (s : State) :
    Out.fixes (execRemoteTimeout l slot s) s.fixed := by
  unfold execRemoteTimeout
  repeat' first
    | lift_lets -underBinder
    | (intro (x : State); refine kI (x := x) s.fixed _ ?_ ?_; (on_goal 1 => subst x); (on_goal 2 => (intro hx; clear_value x)))
    | (intro x; clear_value x)
    | (split <;> (try (rename_i heq; first | (refine kU1 s.fixed heq ?_ ?_; (on_goal 1 => clear heq); (on_goal 2 => intro hx)) | (refine kU2 s.fixed heq ?_ ?_; (on_goal 1 => clear heq); (on_goal 2 => intro hx)) | (refine kI s.fixed _ (takePacket_fixed heq) ?_; intro hx))))
    | (simp [*]; done)

@[simp] theorem State.mirror_fixed (s : State) (step : Nat) (r : List Byte) :
    (State.mirror s step r).fixed = s.fixed := by
  unfold State.mirror
  repeat' first
    | lift_lets -underBinder
    | (intro (x : State); refine kI (x := x) s.fixed _ ?_ ?_; (on_goal 1 => subst x); (on_goal 2 => (intro hx; clear_value x)))
    | (intro x; clear_value x)
    | (split <;> (try (rename_i heq; first | (refine kU1 s.fixed heq ?_ ?_; (on_goal 1 => clear heq); (on_goal 2 => intro hx)) | (refine kU2 s.fixed heq ?_ ?_; (on_goal 1 => clear heq); (on_goal 2 => intro hx)) | (refine kI s.fixed _ (takePacket_fixed heq) ?_; intro hx))))
    | (simp [*]; done)

@[simp] theorem State.writeRecord_fixed (s : State) (step : Nat) (r : List Byte) :
    (State.writeRecord s step r).1.fixed = s.fixed := by simp [State.writeRecord]

@[simp] theorem State.harvestPoint_fixed (s : State) (step : Nat) :
    (State.harvestPoint s step).fixed = s.fixed := by simp [State.harvestPoint]

@[simp] theorem State.sowColl_fixed (s : State) (step : Nat) (launch : Option (BitVec 64)) (deadline : Option Nat) (exclIn exclOut carried stale nEff : Nat) :
    (State.sowColl s step launch deadline exclIn exclOut carried stale nEff).fixed = s.fixed := by
  unfold State.sowColl
  split <;> simp

@[simp] theorem State.sowClose_fixed (s : State) (step : Nat) (c : SowClose) :
    (State.sowClose s step c).fixed = s.fixed := by
  unfold State.sowClose
  repeat' first
    | lift_lets -underBinder
    | (intro (x : State); refine kI (x := x) s.fixed _ ?_ ?_; (on_goal 1 => subst x); (on_goal 2 => (intro hx; clear_value x)))
    | (intro x; clear_value x)
    | (split <;> (try (rename_i heq; first | (refine kU1 s.fixed heq ?_ ?_; (on_goal 1 => clear heq); (on_goal 2 => intro hx)) | (refine kU2 s.fixed heq ?_ ?_; (on_goal 1 => clear heq); (on_goal 2 => intro hx)) | (refine kI s.fixed _ (takePacket_fixed heq) ?_; intro hx))))
    | (simp [*]; done)

@[simp] theorem execSowCfg_fixed (cid : Nat) (s : State) :
    Out.fixes (execSowCfg cid s) s.fixed := by
  unfold execSowCfg
  repeat' first
    | (with_reducible apply State.withCmd_fixed; intro s _)
    | (split <;> (try (rename_i heq; first | (refine kU1 s.fixed heq ?_ ?_; (on_goal 1 => clear heq); (on_goal 2 => intro hx)) | (refine kU2 s.fixed heq ?_ ?_; (on_goal 1 => clear heq); (on_goal 2 => intro hx)) | (refine kI s.fixed _ (takePacket_fixed heq) ?_; intro hx))))
    | (simp [*]; done)

@[simp] theorem State.seedTile_fixed (s : State) (seed : BitVec 64) (n t : Nat) :
    (State.seedTile s seed n t).fixed = s.fixed := by simp [State.seedTile]

@[simp] theorem State.seedAll_fixed (s : State) (seed : BitVec 64) :
    (State.seedAll s seed).fixed = s.fixed := by simp [State.seedAll]

@[simp] theorem execSowOpen_fixed (cid : Nat) (s : State) :
    Out.fixes (execSowOpen cid s) s.fixed := by
  unfold execSowOpen
  repeat' first
    | (with_reducible apply State.withCmd_fixed; intro s _)
    | (simp; done)
    | (split <;> (try (rename_i heq; first | (refine kU1 s.fixed heq ?_ ?_; (on_goal 1 => clear heq); (on_goal 2 => intro hx)) | (refine kU2 s.fixed heq ?_ ?_; (on_goal 1 => clear heq); (on_goal 2 => intro hx)) | (refine kI s.fixed _ (takePacket_fixed heq) ?_; intro hx))))

@[simp] theorem State.remirrorN_fixed (s : State) (x0 : Nat) :
    (State.remirrorN s x0).fixed = s.fixed := by
  induction x0 generalizing s with
  | zero =>
    unfold State.remirrorN
    repeat' first
      | (split <;> (try (rename_i heq; first | (refine kU1 s.fixed heq ?_ ?_; (on_goal 1 => clear heq); (on_goal 2 => intro hx)) | (refine kU2 s.fixed heq ?_ ?_; (on_goal 1 => clear heq); (on_goal 2 => intro hx)) | (refine kI s.fixed _ (takePacket_fixed heq) ?_; intro hx))))
      | (simp [*]; done)
  | succ n ih =>
    unfold State.remirrorN
    repeat' first
      | (split <;> (try (rename_i heq; first | (refine kU1 s.fixed heq ?_ ?_; (on_goal 1 => clear heq); (on_goal 2 => intro hx)) | (refine kU2 s.fixed heq ?_ ?_; (on_goal 1 => clear heq); (on_goal 2 => intro hx)) | (refine kI s.fixed _ (takePacket_fixed heq) ?_; intro hx))))
      | (simp [*]; done)

@[simp] theorem execSowRemirror_fixed (s : State) :
    Out.fixes (execSowRemirror s) s.fixed := by
  unfold execSowRemirror
  split <;> simp

@[simp] theorem State.readPieces_fixed (s : State) (got : List Byte) (x0 : List (Nat × Nat)) :
    (State.readPieces s got x0).1.fixed = s.fixed := by
  induction x0 generalizing s got with
  | nil =>
    unfold State.readPieces
    repeat' first
      | (split <;> (try (rename_i heq; first | (refine kU1 s.fixed heq ?_ ?_; (on_goal 1 => clear heq); (on_goal 2 => intro hx)) | (refine kU2 s.fixed heq ?_ ?_; (on_goal 1 => clear heq); (on_goal 2 => intro hx)) | (refine kI s.fixed _ (takePacket_fixed heq) ?_; intro hx))))
      | (simp [*]; done)
  | cons e l ih =>
    unfold State.readPieces
    repeat' first
      | (split <;> (try (rename_i heq; first | (refine kU1 s.fixed heq ?_ ?_; (on_goal 1 => clear heq); (on_goal 2 => intro hx)) | (refine kU2 s.fixed heq ?_ ?_; (on_goal 1 => clear heq); (on_goal 2 => intro hx)) | (refine kI s.fixed _ (takePacket_fixed heq) ?_; intro hx))))
      | (simp [*]; done)

@[simp] theorem State.readParts_fixed (s : State) (got : List (List Byte)) (x0 : List (List (Nat × Nat))) :
    (State.readParts s got x0).1.fixed = s.fixed := by
  induction x0 generalizing s got with
  | nil =>
    unfold State.readParts
    repeat' first
      | (simp; done)
  | cons e l ih =>
    unfold State.readParts
    repeat' first
      | with_reducible assumption
      | lift_lets -underBinder
      | (simp; done)
      | (split <;> (try (rename_i heq; first | (refine kU1 s.fixed heq ?_ ?_; (on_goal 1 => clear heq); (on_goal 2 => intro hx)) | (refine kU2 s.fixed heq ?_ ?_; (on_goal 1 => clear heq); (on_goal 2 => intro hx)) | (refine kI s.fixed _ (takePacket_fixed heq) ?_; intro hx))))
      | (simp [*]; done)

@[simp] theorem State.writeOn_fixed (s : State) (first : Option (Nat × Nat × State)) (x0 : List (Nat × List Byte)) :
    (State.writeOn s first x0).1.fixed = s.fixed := by
  induction x0 generalizing s first with
  | nil =>
    unfold State.writeOn
    repeat' first
      | (simp; done)
  | cons e l ih =>
    unfold State.writeOn
    repeat' first
      | lift_lets -underBinder
      | (simp; done)
      | (split <;> (try (rename_i heq; first | (refine kU1 s.fixed heq ?_ ?_; (on_goal 1 => clear heq); (on_goal 2 => intro hx)) | (refine kU2 s.fixed heq ?_ ?_; (on_goal 1 => clear heq); (on_goal 2 => intro hx)) | (refine kI s.fixed _ (takePacket_fixed heq) ?_; intro hx))))
      | (simp [*]; done)

@[simp] theorem State.segError_fixed (s : State) (die code addr : Nat) :
    (State.segError s die code addr).fixed = s.fixed := by simp [State.segError]

@[simp] theorem State.mixMem_fixed (s : State) (spans : List (Nat × Nat)) (old new : Memory) :
    (State.mixMem s spans old new).fixed = s.fixed := by
  unfold State.mixMem
  repeat' first
    | (simp; done)

@[simp] theorem State.countNonfinite_fixed (s : State) (die addr : Nat) (first : Bool) :
    (State.countNonfinite s die addr first).fixed = s.fixed := by
  unfold State.countNonfinite
  split <;> simp

/-- The accumulator's state, and the state it met a fault in, keep them at `x`. -/
def SegAcc.Keeps (a : SegAcc) (x : Fixed) : Prop :=
  a.s.fixed = x ∧ match a.fault with
    | none => True
    | some p => p.1.fixed = x

theorem SegAcc.fail_keeps {a : SegAcc} {x : Fixed} {s : State} (die : Nat) (e : Nat × Nat) (h : a.Keeps x)
    (hs : s.fixed = x) : (SegAcc.fail a s die e).Keeps x := by
  obtain ⟨run, t, f⟩ := a
  refine ⟨h.1, ?_⟩
  cases f with
  | none => simp [SegAcc.fail, hs]
  | some p => exact h.2

theorem SegAcc.put_keeps {a : SegAcc} {x : Fixed} {s : State} (h : a.Keeps x) (hs : s.fixed = x) :
    SegAcc.Keeps ⟨s, a.run, a.fault⟩ x := ⟨hs, h.2⟩

theorem State.writeOn_error (s : State) (first : Option (Nat × Nat × State)) (l : List (Nat × List Byte))
    (hf : ∀ p, first = some p → p.2.2.fixed = s.fixed) : ∀ p, (s.writeOn first l).2 = some p → p.2.2.fixed = s.fixed := by
  induction l generalizing s first with
  | nil => exact hf
  | cons e l ih =>
    intro p hp
    have h := State.devWrite_fixed s e.1 e.2
    simp only [State.writeOn] at hp
    split at hp <;> rename_i heq <;> rw [heq] at h
    · rw [ih _ _ (fun q hq => (hf q hq).trans h.symm) p hp, h]
    · rw [ih _ _ (fun q hq => ?_) p hp, h]
      cases hq
      cases first with
      | none => rfl
      | some f => exact (hf f rfl).trans h.symm

theorem rowStep_keeps {a : SegAcc} {x : Fixed} (h : a.Keeps x) (c : Cmd) (g : Segment) (others row : Nat) :
    (rowStep c g others a row).Keeps x := by
  have hs : a.s.fixed = x := h.1
  unfold rowStep
  extract_lets die r
  split
  rename_i t got heq
  have ht : t.fixed = x := by rw [← hs, ← State.readParts_fixed a.s [] _, heq]
  split
  · split
    rename_i f u hu
    refine SegAcc.put_keeps (SegAcc.fail_keeps _ _ h ht) ?_
    rw [State.writeOn_fixed, ← ht, ← State.take_fixed t, hu]
  · extract_lets part
    split
    extract_lets old new now bad v maxW b
    have hv : v.fixed = x := by
      simp only [v]
      refine kfold ht ?_
      intro s e
      simp
    have hb : b.Keeps x := ⟨hs, h.2⟩
    clear_value v b
    split <;> rename_i heq
    · exact SegAcc.put_keeps hb (by rw [← hv, ← State.writeOn_fixed v none _, heq])
    · refine SegAcc.put_keeps (SegAcc.fail_keeps _ _ hb ?_) (by rw [← hv, ← State.writeOn_fixed v none _, heq])
      rw [← hv]
      exact State.writeOn_error v none _ (fun p hp => by cases hp) _ (by rw [heq])

theorem rowFold_keeps {a : SegAcc} {x : Fixed} (h : a.Keeps x) (c : Cmd) (g : Segment) (others : Nat)
    (l : List Nat) : (l.foldl (rowStep c g others) a).Keeps x := by
  induction l generalizing a with
  | nil => exact h
  | cons e l ih => exact ih (rowStep_keeps h c g others e)

@[simp] theorem State.runSegment_fixed (s : State) (c : Cmd) (scale : BitVec 32) (others : Nat) (r : SegRun) :
    (s.runSegment c scale others r).1.fixed = s.fixed := by
  unfold State.runSegment
  extract_lets g r a
  have h : a.Keeps s.fixed := rowFold_keeps ⟨rfl, trivial⟩ _ _ _ _
  clear_value a
  split
  · rfl
  split
  · rfl
  split
  · exact h.1
  · rename_i t run heq
    have ht : t.fixed = s.fixed := by simpa [SegAcc.Keeps, heq] using h.2
    simp [ht]

@[simp] theorem State.segDone_fixed (s : State) (stack : Nat) :
    (State.segDone s stack).fixed = s.fixed := by simp [State.segDone]

@[simp] theorem State.runSegments_fixed (s : State) (c : Cmd) (scale : BitVec 32) (done : List SegRun) (x0 : List SegRun) :
    (State.runSegments s c scale done x0).1.fixed = s.fixed := by
  induction x0 generalizing s c scale done with
  | nil =>
    unfold State.runSegments
    repeat' first
      | (simp; done)
  | cons e l ih =>
    unfold State.runSegments
    repeat' first
      | lift_lets -underBinder
      | (intro x; clear_value x)
      | (simp; done)
      | (split <;> (try (rename_i heq; first | (refine kU1 s.fixed heq ?_ ?_; (on_goal 1 => clear heq); (on_goal 2 => intro hx)) | (refine kU2 s.fixed heq ?_ ?_; (on_goal 1 => clear heq); (on_goal 2 => intro hx)) | (refine kI s.fixed _ (takePacket_fixed heq) ?_; intro hx))))
      | (simp [*]; done)

@[simp] theorem State.mapTrain_fixed (s : State) (f : Train → Train) :
    (State.mapTrain s f).fixed = s.fixed := by simp [State.mapTrain]

@[simp] theorem State.voteTake_fixed (s : State) :
    (State.voteTake s).2.fixed = s.fixed := by simp [State.voteTake]

@[simp] theorem State.loadSegment_fixed (s : State) (c : Cmd) (i : Nat) :
    (State.loadSegment s c i).1.fixed = s.fixed := by
  unfold State.loadSegment
  repeat' first
    | with_reducible assumption
    | lift_lets -underBinder
    | (intro x; clear_value x)
    | with_reducible apply kite1
    | intro _
    | (simp; done)
    | (split <;> (try (rename_i heq; first | (refine kU1 s.fixed heq ?_ ?_; (on_goal 1 => clear heq); (on_goal 2 => intro hx)) | (refine kU2 s.fixed heq ?_ ?_; (on_goal 1 => clear heq); (on_goal 2 => intro hx)) | (refine kI s.fixed _ (takePacket_fixed heq) ?_; intro hx))))
    | (simp [*]; done)

@[simp] theorem State.loadSegments_fixed (s : State) (c : Cmd) (x0 : List Nat) :
    (State.loadSegments s c x0).1.fixed = s.fixed := by
  induction x0 generalizing s c with
  | nil =>
    unfold State.loadSegments
    repeat' first
      | (simp [*]; done)
  | cons e l ih =>
    unfold State.loadSegments
    repeat' first
      | (simp [*]; done)

@[simp] theorem execUpdate_fixed (cid : Nat) (s : State) :
    Out.fixes (execUpdate cid s) s.fixed := by
  unfold execUpdate
  repeat' first
    | lift_lets -underBinder
    | (intro x; clear_value x)
    | (with_reducible apply State.withCmd_fixed; intro s _)
    | with_reducible apply kite
    | intro _
    | (simp; done)

@[simp] theorem execVoteRoundComplete_fixed (vote : BitVec 8) (s : State) :
    Out.fixes (execVoteRoundComplete vote s) s.fixed := by
  unfold execVoteRoundComplete
  repeat' first
    | lift_lets -underBinder
    | with_reducible refine (Out.fixes_next _ _).mpr ?_
    | with_reducible apply kiteO
    | intro _
    | (simp; done)
    | (split <;> (try (rename_i heq; first | (refine kU1 s.fixed heq ?_ ?_; (on_goal 1 => clear heq); (on_goal 2 => intro hx)) | (refine kU2 s.fixed heq ?_ ?_; (on_goal 1 => clear heq); (on_goal 2 => intro hx)) | (refine kI s.fixed _ (takePacket_fixed heq) ?_; intro hx))))

@[simp] theorem State.writeRecords_fixed (s : State) (a : Nat) (l : List SegRun) :
    (State.writeRecords s a l).fixed = s.fixed := by
  unfold State.writeRecords
  repeat' first
    | lift_lets -underBinder
    | with_reducible (refine kfold ?_ ?_; (on_goal 2 => intro s _))
    | (simp; done)

@[simp] theorem State.updateOver_fixed (s : State) (last : Nat) :
    (State.updateOver s last).fixed = s.fixed := by simp [State.updateOver]

@[simp] theorem State.endAborts_fixed (s : State) :
    (State.endAborts s).fixed = s.fixed := by simp [State.endAborts]

@[simp] theorem execUpdateComplete_fixed (s : State) :
    Out.fixes (execUpdateComplete s) s.fixed := by
  unfold execUpdateComplete
  repeat' first
    | lift_lets -underBinder
    | with_reducible refine (Out.fixes_next _ _).mpr ?_
    | (simp; done)
    | (split <;> (try (rename_i heq; first | (refine kU1 s.fixed heq ?_ ?_; (on_goal 1 => clear heq); (on_goal 2 => intro hx)) | (refine kU2 s.fixed heq ?_ ?_; (on_goal 1 => clear heq); (on_goal 2 => intro hx)) | (refine kI s.fixed _ (takePacket_fixed heq) ?_; intro hx))))

@[simp] theorem execVoteTimeout_fixed (s : State) :
    Out.fixes (execVoteTimeout s) s.fixed := by
  unfold execVoteTimeout
  repeat' first
    | lift_lets -underBinder
    | with_reducible refine (Out.fixes_next _ _).mpr ?_
    | (intro (x : State); refine kI (x := x) s.fixed _ ?_ ?_; (on_goal 1 => subst x); (on_goal 2 => (intro hx; clear_value x)))
    | (intro x; clear_value x)
    | with_reducible apply kiteO
    | intro _
    | (simp; done)
    | (split <;> (try (rename_i heq; first | (refine kU1 s.fixed heq ?_ ?_; (on_goal 1 => clear heq); (on_goal 2 => intro hx)) | (refine kU2 s.fixed heq ?_ ?_; (on_goal 1 => clear heq); (on_goal 2 => intro hx)) | (refine kI s.fixed _ (takePacket_fixed heq) ?_; intro hx))))
    | (simp [*]; done)

@[simp] theorem execTrainCfg_fixed (cid : Nat) (s : State) :
    Out.fixes (execTrainCfg cid s) s.fixed := by
  unfold execTrainCfg
  repeat' first
    | lift_lets -underBinder
    | (with_reducible apply State.withCmd_fixed; intro s _)
    | with_reducible apply kite
    | intro _
    | (simp; done)

end Sys2Proof.Machine
end

