-- ==== Sys2Proof/Laws/FrameColl.lean ====
section
/-! SUPPORT. The queue, the fuse copies and a blow stay as they are: collectives and Rotations. -/
namespace Sys2Proof.Machine
set_option linter.all false
set_option Elab.async false
set_option maxRecDepth 4000

@[simp] theorem State.setRun_fixed (s : State) (slot : Nat) (r : CollRun) :
    (State.setRun s slot r).fixed = s.fixed := by
  unfold State.setRun
  repeat' first
    | lift_lets -underBinder
    | (intro x; clear_value x)
    | (simp; done)

@[simp] theorem State.mapRun_fixed (s : State) (slot : Nat) (f : CollRun → CollRun) :
    (State.mapRun s slot f).fixed = s.fixed := by
  unfold State.mapRun
  repeat' first
    | (simp; done)
    | (split <;> (try (rename_i heq; first | (refine kU1 s.fixed heq ?_ ?_; (on_goal 1 => clear heq); (on_goal 2 => intro hx)) | (refine kU2 s.fixed heq ?_ ?_; (on_goal 1 => clear heq); (on_goal 2 => intro hx)) | (refine kI s.fixed _ (takePacket_fixed heq) ?_; intro hx))))

@[simp] theorem State.collFail_fixed (s : State) (slot status code : Nat) :
    (State.collFail s slot status code).fixed = s.fixed := by
  unfold State.collFail
  repeat' first
    | (simp; done)

@[simp] theorem State.collRead_fixed (s : State) (slot : Nat) (c : Cmd) (a n : Nat) :
    (State.collRead s slot c a n).1.fixed = s.fixed := by
  unfold State.collRead
  repeat' first
    | with_reducible assumption
    | lift_lets -underBinder
    | (simp; done)
    | (split <;> (try (rename_i heq; first | (refine kU1 s.fixed heq ?_ ?_; (on_goal 1 => clear heq); (on_goal 2 => intro hx)) | (refine kU2 s.fixed heq ?_ ?_; (on_goal 1 => clear heq); (on_goal 2 => intro hx)) | (refine kI s.fixed _ (takePacket_fixed heq) ?_; intro hx))))
    | (simp [*]; done)

@[simp] theorem State.collWriteBytes_fixed (s : State) (slot a : Nat) (l : List Byte) :
    (State.collWriteBytes s slot a l).fixed = s.fixed := by
  unfold State.collWriteBytes
  repeat' first
    | with_reducible assumption
    | lift_lets -underBinder
    | (simp; done)
    | (split <;> (try (rename_i heq; first | (refine kU1 s.fixed heq ?_ ?_; (on_goal 1 => clear heq); (on_goal 2 => intro hx)) | (refine kU2 s.fixed heq ?_ ?_; (on_goal 1 => clear heq); (on_goal 2 => intro hx)) | (refine kI s.fixed _ (takePacket_fixed heq) ?_; intro hx))))
    | (simp [*]; done)

@[simp] theorem State.collWrite_fixed (s : State) (slot : Nat) (c : Cmd) (a : Nat) (l : List Nat) :
    (State.collWrite s slot c a l).fixed = s.fixed := by
  unfold State.collWrite
  repeat' first
    | (simp; done)

@[simp] theorem State.collSend_fixed (s : State) (slot : Nat) (r : CollRun) (dstRank type addr : Nat) (arg : Nat) (data : List Byte) :
    (State.collSend s slot r dstRank type addr arg data).fixed = s.fixed := by
  unfold State.collSend
  repeat' first
    | (simp; done)

@[simp] theorem State.collTurn_fixed (s : State) (slot : Nat) (c : Cmd) (p : ShardPiece) (x0 : Nat) (x1 : Nat) (x2 : Bool) (x3 : List Nat) :
    (State.collTurn s slot c p x0 x1 x2 x3).fixed = s.fixed := by
  induction x0 generalizing s slot c p x1 x2 x3 with
  | zero =>
    unfold State.collTurn
    repeat' first
      | (simp; done)
  | succ n ih =>
    unfold State.collTurn
    repeat' first
      | with_reducible assumption
      | lift_lets -underBinder
      | (intro (x : State); refine kI (x := x) s.fixed _ ?_ ?_; (on_goal 1 => subst x); (on_goal 2 => (intro hx; clear_value x)))
      | (intro (x : State → _ → _ → State); refine kJ (x := x) _ ?_ ?_; (on_goal 1 => subst x; intro s _ _; beta_reduce); (on_goal 2 => (intro hx; clear_value x)))
      | (intro x; clear_value x)
      | with_reducible apply kite
      | intro _
      | (simp; done)
      | (split <;> (try (rename_i heq; first | (refine kU1 s.fixed heq ?_ ?_; (on_goal 1 => clear heq); (on_goal 2 => intro hx)) | (refine kU2 s.fixed heq ?_ ?_; (on_goal 1 => clear heq); (on_goal 2 => intro hx)) | (refine kI s.fixed _ (takePacket_fixed heq) ?_; intro hx))))
      | (simp [*]; done)

@[simp] theorem State.ringLaunch_fixed (s : State) (slot : Nat) (c : Cmd) (r : CollRun) :
    (State.ringLaunch s slot c r).fixed = s.fixed := by
  unfold State.ringLaunch
  repeat' first
    | with_reducible assumption
    | lift_lets -underBinder
    | with_reducible (refine kfold ?_ ?_; (on_goal 2 => intro s _))
    | with_reducible apply kite
    | intro _
    | (simp; done)
    | (split <;> (try (rename_i heq; first | (refine kU1 s.fixed heq ?_ ?_; (on_goal 1 => clear heq); (on_goal 2 => intro hx)) | (refine kU2 s.fixed heq ?_ ?_; (on_goal 1 => clear heq); (on_goal 2 => intro hx)) | (refine kI s.fixed _ (takePacket_fixed heq) ?_; intro hx))))
    | (simp [*]; done)

@[simp] theorem State.ringData_fixed (s : State) (slot : Nat) (c : Cmd) (r : CollRun) (k : Packet) :
    (State.ringData s slot c r k).fixed = s.fixed := by
  unfold State.ringData
  repeat' first
    | lift_lets -underBinder
    | (intro x; clear_value x)
    | with_reducible apply kite
    | intro _
    | (simp; done)
    | (split <;> (try (rename_i heq; first | (refine kU1 s.fixed heq ?_ ?_; (on_goal 1 => clear heq); (on_goal 2 => intro hx)) | (refine kU2 s.fixed heq ?_ ?_; (on_goal 1 => clear heq); (on_goal 2 => intro hx)) | (refine kI s.fixed _ (takePacket_fixed heq) ?_; intro hx))))

@[simp] theorem State.endRotate_fixed (s : State) (r : RotRun) (status : Nat) :
    (State.endRotate s r status).fixed = s.fixed := by
  unfold State.endRotate
  repeat' first
    | with_reducible assumption
    | lift_lets -underBinder
    | (intro (x : State); refine kI (x := x) s.fixed _ ?_ ?_; (on_goal 1 => subst x); (on_goal 2 => (intro hx; clear_value x)))
    | (intro x; clear_value x)
    | with_reducible apply kite
    | intro _
    | (simp; done)
    | (split <;> (try (rename_i heq; first | (refine kU1 s.fixed heq ?_ ?_; (on_goal 1 => clear heq); (on_goal 2 => intro hx)) | (refine kU2 s.fixed heq ?_ ?_; (on_goal 1 => clear heq); (on_goal 2 => intro hx)) | (refine kI s.fixed _ (takePacket_fixed heq) ?_; intro hx))))
    | (simp [*]; done)

@[simp] theorem State.sendChunk_fixed (s : State) (e : RotEntry) :
    (State.sendChunk s e).fixed = s.fixed := by
  unfold State.sendChunk
  repeat' first
    | with_reducible assumption
    | lift_lets -underBinder
    | (intro x; clear_value x)
    | with_reducible (refine kfold ?_ ?_; (on_goal 2 => intro s _))
    | (simp; done)
    | (split <;> (try (rename_i heq; first | (refine kU1 s.fixed heq ?_ ?_; (on_goal 1 => clear heq); (on_goal 2 => intro hx)) | (refine kU2 s.fixed heq ?_ ?_; (on_goal 1 => clear heq); (on_goal 2 => intro hx)) | (refine kI s.fixed _ (takePacket_fixed heq) ?_; intro hx))))
    | (simp [*]; done)

@[simp] theorem State.rotAck_fixed (s : State) (k : Packet) :
    (State.rotAck s k).fixed = s.fixed := by
  unfold State.rotAck
  repeat' first
    | (simp; done)

@[simp] theorem State.rotWrite_fixed (s : State) (r : RotRun) (k : Packet) :
    (State.rotWrite s r k).fixed = s.fixed := by
  unfold State.rotWrite
  repeat' first
    | lift_lets -underBinder
    | (intro (x : State); refine kI (x := x) s.fixed _ ?_ ?_; (on_goal 1 => subst x); (on_goal 2 => (intro hx; clear_value x)))
    | (intro (x : State → State); refine kF (x := x) _ ?_ ?_; (on_goal 1 => subst x; intro s; beta_reduce); (on_goal 2 => (intro hx; clear_value x)))
    | (intro (x : State → _ → State); refine kG (x := x) _ ?_ ?_; (on_goal 1 => subst x; intro s _; beta_reduce); (on_goal 2 => (intro hx; clear_value x)))
    | (intro x; clear_value x)
    | with_reducible apply kite
    | intro _
    | (simp; done)
    | (split <;> (try (rename_i heq; first | (refine kU1 s.fixed heq ?_ ?_; (on_goal 1 => clear heq); (on_goal 2 => intro hx)) | (refine kU2 s.fixed heq ?_ ?_; (on_goal 1 => clear heq); (on_goal 2 => intro hx)) | (refine kI s.fixed _ (takePacket_fixed heq) ?_; intro hx))))
    | (simp [*]; done)

@[simp] theorem State.beginRound_fixed (s : State) (round : Nat) :
    (State.beginRound s round).fixed = s.fixed := by
  unfold State.beginRound
  repeat' first
    | with_reducible assumption
    | lift_lets -underBinder
    | (intro (x : State); refine kI (x := x) s.fixed _ ?_ ?_; (on_goal 1 => subst x); (on_goal 2 => (intro hx; clear_value x)))
    | (intro x; clear_value x)
    | with_reducible (refine kfold ?_ ?_; (on_goal 2 => intro s _))
    | (simp; done)
    | (split <;> (try (rename_i heq; first | (refine kU1 s.fixed heq ?_ ?_; (on_goal 1 => clear heq); (on_goal 2 => intro hx)) | (refine kU2 s.fixed heq ?_ ?_; (on_goal 1 => clear heq); (on_goal 2 => intro hx)) | (refine kI s.fixed _ (takePacket_fixed heq) ?_; intro hx))))

@[simp] theorem execRotate_fixed (cid : Nat) (s : State) :
    Out.fixes (execRotate cid s) s.fixed := by
  unfold execRotate
  repeat' first
    | lift_lets -underBinder
    | (intro (x : State); refine kI (x := x) s.fixed _ ?_ ?_; (on_goal 1 => subst x); (on_goal 2 => (intro hx; clear_value x)))
    | (intro x; clear_value x)
    | (with_reducible apply State.withCmd_fixed; intro s _)
    | with_reducible apply kite
    | intro _
    | (simp; done)
    | (split <;> (try (rename_i heq; first | (refine kU1 s.fixed heq ?_ ?_; (on_goal 1 => clear heq); (on_goal 2 => intro hx)) | (refine kU2 s.fixed heq ?_ ?_; (on_goal 1 => clear heq); (on_goal 2 => intro hx)) | (refine kI s.fixed _ (takePacket_fixed heq) ?_; intro hx))))
    | (simp [*]; done)

@[simp] theorem execRotData_fixed (k : Packet) (s : State) :
    Out.fixes (execRotData k s) s.fixed := by
  unfold execRotData
  repeat' first
    | with_reducible assumption
    | lift_lets -underBinder
    | with_reducible refine (Out.fixes_next _ _).mpr ?_
    | (intro x; clear_value x)
    | with_reducible apply kiteO
    | intro _
    | (simp; done)
    | (split <;> (try (rename_i heq; first | (refine kU1 s.fixed heq ?_ ?_; (on_goal 1 => clear heq); (on_goal 2 => intro hx)) | (refine kU2 s.fixed heq ?_ ?_; (on_goal 1 => clear heq); (on_goal 2 => intro hx)) | (refine kI s.fixed _ (takePacket_fixed heq) ?_; intro hx))))
    | (simp [*]; done)

@[simp] theorem State.rotAnswer_fixed (s : State) (k : Packet) :
    (State.rotAnswer s k).fixed = s.fixed := by
  unfold State.rotAnswer
  repeat' first
    | lift_lets -underBinder
    | (intro x; clear_value x)
    | with_reducible apply kite
    | intro _
    | (simp; done)
    | (split <;> (try (rename_i heq; first | (refine kU1 s.fixed heq ?_ ?_; (on_goal 1 => clear heq); (on_goal 2 => intro hx)) | (refine kU2 s.fixed heq ?_ ?_; (on_goal 1 => clear heq); (on_goal 2 => intro hx)) | (refine kI s.fixed _ (takePacket_fixed heq) ?_; intro hx))))

@[simp] theorem execRotationRoundComplete_fixed (s : State) :
    Out.fixes (execRotationRoundComplete s) s.fixed := by
  unfold execRotationRoundComplete
  repeat' first
    | lift_lets -underBinder
    | with_reducible refine (Out.fixes_next _ _).mpr ?_
    | with_reducible apply kiteO
    | intro _
    | (simp; done)
    | (split <;> (try (rename_i heq; first | (refine kU1 s.fixed heq ?_ ?_; (on_goal 1 => clear heq); (on_goal 2 => intro hx)) | (refine kU2 s.fixed heq ?_ ?_; (on_goal 1 => clear heq); (on_goal 2 => intro hx)) | (refine kI s.fixed _ (takePacket_fixed heq) ?_; intro hx))))

@[simp] theorem State.ownerFinish_fixed (s : State) (slot : Nat) (c : Cmd) :
    (State.ownerFinish s slot c).fixed = s.fixed := by
  unfold State.ownerFinish
  repeat' first
    | with_reducible assumption
    | lift_lets -underBinder
    | (intro (x : State); refine kI (x := x) s.fixed _ ?_ ?_; (on_goal 1 => subst x); (on_goal 2 => (intro hx; clear_value x)))
    | (intro x; clear_value x)
    | with_reducible apply kite
    | intro _
    | (simp; done)
    | (split <;> (try (rename_i heq; first | (refine kU1 s.fixed heq ?_ ?_; (on_goal 1 => clear heq); (on_goal 2 => intro hx)) | (refine kU2 s.fixed heq ?_ ?_; (on_goal 1 => clear heq); (on_goal 2 => intro hx)) | (refine kI s.fixed _ (takePacket_fixed heq) ?_; intro hx))))
    | (simp [*]; done)

@[simp] theorem State.ownerInclude_fixed (s : State) (slot : Nat) (c : Cmd) (i : Nat) (val : List Nat) (vote : BitVec 8) (carried : Bool) :
    (State.ownerInclude s slot c i val vote carried).fixed = s.fixed := by
  unfold State.ownerInclude
  repeat' first
    | with_reducible assumption
    | lift_lets -underBinder
    | (intro (x : State); refine kI (x := x) s.fixed _ ?_ ?_; (on_goal 1 => subst x); (on_goal 2 => (intro hx; clear_value x)))
    | (intro x; clear_value x)
    | with_reducible apply kite
    | intro _
    | (simp; done)
    | (split <;> (try (rename_i heq; first | (refine kU1 s.fixed heq ?_ ?_; (on_goal 1 => clear heq); (on_goal 2 => intro hx)) | (refine kU2 s.fixed heq ?_ ?_; (on_goal 1 => clear heq); (on_goal 2 => intro hx)) | (refine kI s.fixed _ (takePacket_fixed heq) ?_; intro hx))))
    | (simp [*]; done)

@[simp] theorem State.storeCarry_fixed (s : State) (slot : Nat) (c : Cmd) (r : CollRun) (j : Nat) :
    (State.storeCarry s slot c r j).fixed = s.fixed := by
  unfold State.storeCarry
  repeat' first
    | with_reducible assumption
    | lift_lets -underBinder
    | (intro (x : State); refine kI (x := x) s.fixed _ ?_ ?_; (on_goal 1 => subst x); (on_goal 2 => (intro hx; clear_value x)))
    | (simp; done)
    | (split <;> (try (rename_i heq; first | (refine kU1 s.fixed heq ?_ ?_; (on_goal 1 => clear heq); (on_goal 2 => intro hx)) | (refine kU2 s.fixed heq ?_ ?_; (on_goal 1 => clear heq); (on_goal 2 => intro hx)) | (refine kI s.fixed _ (takePacket_fixed heq) ?_; intro hx))))
    | (simp [*]; done)

@[simp] theorem State.excludedBy_fixed (s : State) (slot : Nat) (c : Cmd) (j : Nat) :
    (State.excludedBy s slot c j).fixed = s.fixed := by
  unfold State.excludedBy
  repeat' first
    | with_reducible assumption
    | lift_lets -underBinder
    | (intro (x : State); refine kI (x := x) s.fixed _ ?_ ?_; (on_goal 1 => subst x); (on_goal 2 => (intro hx; clear_value x)))
    | (intro x; clear_value x)
    | with_reducible apply kite
    | intro _
    | (simp; done)
    | (split <;> (try (rename_i heq; first | (refine kU1 s.fixed heq ?_ ?_; (on_goal 1 => clear heq); (on_goal 2 => intro hx)) | (refine kU2 s.fixed heq ?_ ?_; (on_goal 1 => clear heq); (on_goal 2 => intro hx)) | (refine kI s.fixed _ (takePacket_fixed heq) ?_; intro hx))))
    | (simp [*]; done)

@[simp] theorem State.takeCarry_fixed (s : State) (slot : Nat) (c : Cmd) (r : CollRun) (j : Nat) (val : List Nat) :
    (State.takeCarry s slot c r j val).1.fixed = s.fixed := by
  unfold State.takeCarry
  repeat' first
    | with_reducible assumption
    | lift_lets -underBinder
    | (intro (x : State); refine kI (x := x) s.fixed _ ?_ ?_; (on_goal 1 => subst x); (on_goal 2 => (intro hx; clear_value x)))
    | (intro x; clear_value x)
    | with_reducible apply kite1
    | intro _
    | (simp; done)
    | (split <;> (try (rename_i heq; first | (refine kU1 s.fixed heq ?_ ?_; (on_goal 1 => clear heq); (on_goal 2 => intro hx)) | (refine kU2 s.fixed heq ?_ ?_; (on_goal 1 => clear heq); (on_goal 2 => intro hx)) | (refine kI s.fixed _ (takePacket_fixed heq) ?_; intro hx))))
    | (simp [*]; done)

@[simp] theorem State.sendStream_fixed (s : State) (slot : Nat) (r : CollRun) (dstRank : Nat) (carried : Bool) (l : List Byte) :
    (State.sendStream s slot r dstRank carried l).fixed = s.fixed := by
  unfold State.sendStream
  repeat' first
    | lift_lets -underBinder
    | with_reducible (refine kfold ?_ ?_; (on_goal 2 => intro s _))
    | (simp; done)

@[simp] theorem State.launchShard_fixed (s : State) (slot : Nat) (c : Cmd) (j : Nat) :
    (State.launchShard s slot c j).fixed = s.fixed := by
  unfold State.launchShard
  repeat' first
    | with_reducible assumption
    | lift_lets -underBinder
    | (intro (x : State); refine kI (x := x) s.fixed _ ?_ ?_; (on_goal 1 => subst x); (on_goal 2 => (intro hx; clear_value x)))
    | with_reducible apply kite
    | intro _
    | (simp; done)
    | (split <;> (try (rename_i heq; first | (refine kU1 s.fixed heq ?_ ?_; (on_goal 1 => clear heq); (on_goal 2 => intro hx)) | (refine kU2 s.fixed heq ?_ ?_; (on_goal 1 => clear heq); (on_goal 2 => intro hx)) | (refine kI s.fixed _ (takePacket_fixed heq) ?_; intro hx))))
    | (simp [*]; done)

@[simp] theorem State.ownerData_fixed (s : State) (slot : Nat) (c : Cmd) (r : CollRun) (i : Nat) (e : Delivered) :
    (State.ownerData s slot c r i e).fixed = s.fixed := by
  unfold State.ownerData
  repeat' first
    | with_reducible assumption
    | lift_lets -underBinder
    | (intro (x : State); refine kI (x := x) s.fixed _ ?_ ?_; (on_goal 1 => subst x); (on_goal 2 => (intro hx; clear_value x)))
    | (intro x; clear_value x)
    | with_reducible apply kite
    | intro _
    | (simp; done)
    | (split <;> (try (rename_i heq; first | (refine kU1 s.fixed heq ?_ ?_; (on_goal 1 => clear heq); (on_goal 2 => intro hx)) | (refine kU2 s.fixed heq ?_ ?_; (on_goal 1 => clear heq); (on_goal 2 => intro hx)) | (refine kI s.fixed _ (takePacket_fixed heq) ?_; intro hx))))
    | (simp [*]; done)

@[simp] theorem State.expertMapOf_fixed (s : State) (slot : Nat) (c : Cmd) (n bytes : Nat) :
    (State.expertMapOf s slot c n bytes).1.fixed = s.fixed := by
  unfold State.expertMapOf
  repeat' first
    | with_reducible assumption
    | lift_lets -underBinder
    | (intro x; clear_value x)
    | with_reducible apply kite1
    | intro _
    | (simp; done)
    | (split <;> (try (rename_i heq; first | (refine kU1 s.fixed heq ?_ ?_; (on_goal 1 => clear heq); (on_goal 2 => intro hx)) | (refine kU2 s.fixed heq ?_ ?_; (on_goal 1 => clear heq); (on_goal 2 => intro hx)) | (refine kI s.fixed _ (takePacket_fixed heq) ?_; intro hx))))
    | (simp [*]; done)

@[simp] theorem State.expertMap_fixed (s : State) (slot : Nat) (c : Cmd) (n : Nat) :
    (State.expertMap s slot c n).1.fixed = s.fixed := by
  unfold State.expertMap
  repeat' first
    | (simp; done)

@[simp] theorem State.streamsOf_fixed (s : State) (slot : Nat) (c : Cmd) (r : CollRun) :
    (s.streamsOf slot c r).1.fixed = s.fixed := by
  unfold State.streamsOf
  extract_lets n b src read
  have hr : ∀ s a len, (read s a len).1.fixed = s.fixed := by
    intro s a len
    have h := State.devRead_fixed s a len
    simp only [read]
    generalize s.devRead a len = p at h ⊢
    obtain ⟨t, g⟩ := p
    dsimp only at h ⊢
    split
    · simp [h]
    · exact h
  clear_value read
  split
  · split
    rename_i t l heq
    have h : t.fixed = s.fixed := by rw [← hr s (c.cAddr 0x30 + 2 * r.rank) 2, heq]
    extract_lets d
    split
    · split
      rename_i u m heq
      rw [← h, ← hr t src (b * c.u 0x28 8), heq]
    · exact h
  · split
    · have h := State.expertMap_fixed s slot c n
      generalize s.expertMap slot c n = p at h ⊢
      obtain ⟨t, map⟩ := p
      dsimp only at h ⊢
      have h2 := hr t (c.cAddr 0x30) (16 * map.length)
      generalize read t (c.cAddr 0x30) (16 * map.length) = q at h2 ⊢
      obtain ⟨u, g⟩ := q
      dsimp only at h2 ⊢
      refine kfold1 (h2.trans h) ?_
      intro p j
      dsimp only
      refine kfold1 rfl ?_
      intro p a
      exact hr _ _ _
    · refine kfold1 rfl ?_
      intro p a
      exact hr _ _ _

@[simp] theorem State.directLaunch_fixed (s : State) (slot : Nat) (c : Cmd) (r : CollRun) :
    (State.directLaunch s slot c r).fixed = s.fixed := by
  unfold State.directLaunch
  repeat' first
    | lift_lets -underBinder
    | with_reducible (refine kfold ?_ ?_; (on_goal 2 => intro s _))
    | with_reducible apply kite
    | intro _
    | (simp; done)

@[simp] theorem State.expertsDone_fixed (s : State) (slot : Nat) (c : Cmd) (held : Nat) :
    (State.expertsDone s slot c held).fixed = s.fixed := by
  unfold State.expertsDone
  repeat' first
    | lift_lets -underBinder
    | (intro (x : State); refine kI (x := x) s.fixed _ ?_ ?_; (on_goal 1 => subst x); (on_goal 2 => (intro hx; clear_value x)))
    | (intro x; clear_value x)
    | with_reducible apply kite
    | intro _
    | (simp; done)
    | (split <;> (try (rename_i heq; first | (refine kU1 s.fixed heq ?_ ?_; (on_goal 1 => clear heq); (on_goal 2 => intro hx)) | (refine kU2 s.fixed heq ?_ ?_; (on_goal 1 => clear heq); (on_goal 2 => intro hx)) | (refine kI s.fixed _ (takePacket_fixed heq) ?_; intro hx))))
    | (simp [*]; done)

@[simp] theorem State.directData_fixed (s : State) (slot : Nat) (c : Cmd) (r : CollRun) (i : Nat) (k : Packet) :
    (State.directData s slot c r i k).fixed = s.fixed := by
  unfold State.directData
  repeat' first
    | lift_lets -underBinder
    | (intro (x : State); refine kI (x := x) s.fixed _ ?_ ?_; (on_goal 1 => subst x); (on_goal 2 => (intro hx; clear_value x)))
    | (intro x; clear_value x)
    | with_reducible apply kite
    | intro _
    | (simp; done)
    | (split <;> (try (rename_i heq; first | (refine kU1 s.fixed heq ?_ ?_; (on_goal 1 => clear heq); (on_goal 2 => intro hx)) | (refine kU2 s.fixed heq ?_ ?_; (on_goal 1 => clear heq); (on_goal 2 => intro hx)) | (refine kI s.fixed _ (takePacket_fixed heq) ?_; intro hx))))
    | (simp [*]; done)

@[simp] theorem State.directLeft_fixed (s : State) (slot : Nat) (c : Cmd) (r : CollRun) :
    (State.directLeft s slot c r).1.fixed = s.fixed := by
  unfold State.directLeft
  repeat' first
    | with_reducible assumption
    | lift_lets -underBinder
    | (intro x; clear_value x)
    | with_reducible apply kite1
    | intro _
    | (simp; done)
    | (split <;> (try (rename_i heq; first | (refine kU1 s.fixed heq ?_ ?_; (on_goal 1 => clear heq); (on_goal 2 => intro hx)) | (refine kU2 s.fixed heq ?_ ?_; (on_goal 1 => clear heq); (on_goal 2 => intro hx)) | (refine kI s.fixed _ (takePacket_fixed heq) ?_; intro hx))))
    | (simp [*]; done)

@[simp] theorem State.launchColl_fixed (s : State) (slot : Nat) :
    (State.launchColl s slot).fixed = s.fixed := by
  unfold State.launchColl
  repeat' first
    | with_reducible assumption
    | lift_lets -underBinder
    | (intro (x : State); refine kI (x := x) s.fixed _ ?_ ?_; (on_goal 1 => subst x); (on_goal 2 => (intro hx; clear_value x)))
    | (intro x; clear_value x)
    | with_reducible (refine kfold ?_ ?_; (on_goal 2 => intro s _))
    | with_reducible apply kite
    | intro _
    | (simp; done)
    | (split <;> (try (rename_i heq; first | (refine kU1 s.fixed heq ?_ ?_; (on_goal 1 => clear heq); (on_goal 2 => intro hx)) | (refine kU2 s.fixed heq ?_ ?_; (on_goal 1 => clear heq); (on_goal 2 => intro hx)) | (refine kI s.fixed _ (takePacket_fixed heq) ?_; intro hx))))
    | (simp [*]; done)

@[simp] theorem State.shardsFor_fixed (s : State) (c : Cmd) (n : Nat) :
    (State.shardsFor s c n).1.fixed = s.fixed := by
  unfold State.shardsFor
  repeat' first
    | with_reducible assumption
    | lift_lets -underBinder
    | (intro x; clear_value x)
    | with_reducible apply kite1
    | intro _
    | (simp; done)
    | (split <;> (try (rename_i heq; first | (refine kU1 s.fixed heq ?_ ?_; (on_goal 1 => clear heq); (on_goal 2 => intro hx)) | (refine kU2 s.fixed heq ?_ ?_; (on_goal 1 => clear heq); (on_goal 2 => intro hx)) | (refine kI s.fixed _ (takePacket_fixed heq) ?_; intro hx))))
    | (simp [*]; done)

@[simp] theorem State.releaseEarly_fixed (s : State) (slot : Nat) :
    (State.releaseEarly s slot).fixed = s.fixed := by
  unfold State.releaseEarly
  repeat' first
    | with_reducible assumption
    | lift_lets -underBinder
    | (intro (x : State); refine kI (x := x) s.fixed _ ?_ ?_; (on_goal 1 => subst x); (on_goal 2 => (intro hx; clear_value x)))
    | (intro x; clear_value x)
    | with_reducible (refine kfold ?_ ?_; (on_goal 2 => intro s _))
    | with_reducible apply kite
    | intro _
    | (simp; done)

@[simp] theorem State.beginRun_fixed (s : State) (slot : Nat) (c : Cmd) (members : List (BitVec 16)) (rank : Nat) :
    (s.beginRun slot c members rank).fixed = s.fixed := by
  unfold State.beginRun
  extract_lets n
  have h := State.shardsFor_fixed s c n
  generalize s.shardsFor c n = p at h ⊢
  obtain ⟨t, x⟩ := p
  dsimp only at h
  rcases x with shards | ⟨st, code⟩
  · dsimp only
    split
    · split <;> simp [h]
    · split
      · have h2 := State.directLeft_fixed (t.setRun slot { (({ blankRun c.cid (algoOf c) with rank := rank, members := members, shards := shards }) : CollRun) with nEff := n }) slot c { blankRun c.cid (algoOf c) with rank := rank, members := members, shards := shards }
        generalize State.directLeft _ _ _ _ = q at h2 ⊢
        obtain ⟨u, left⟩ := q
        simp only [State.setRun_fixed, h] at h2
        dsimp only
        generalize hv : u.mapRun slot _ = v
        have hv' : v.fixed = s.fixed := by rw [← hv]; simp [h2]
        clear hv
        split
        · have h3 := State.expertMap_fixed v slot c n
          generalize v.expertMap slot c n = m at h3 ⊢
          obtain ⟨w, map⟩ := m
          dsimp only at h3 ⊢
          split <;> simp [h3, hv']
        · exact hv'
      · simp [h]
  · simp [h]

@[simp] theorem State.beginColl_fixed (s : State) (c : Cmd) :
    (State.beginColl s c).fixed = s.fixed := by
  unfold State.beginColl
  repeat' first
    | lift_lets -underBinder
    | (intro (x : State); refine kI (x := x) s.fixed _ ?_ ?_; (on_goal 1 => subst x); (on_goal 2 => (intro hx; clear_value x)))
    | (intro x; clear_value x)
    | with_reducible apply kite
    | intro _
    | (simp; done)
    | (split <;> (try (rename_i heq; first | (refine kU1 s.fixed heq ?_ ?_; (on_goal 1 => clear heq); (on_goal 2 => intro hx)) | (refine kU2 s.fixed heq ?_ ?_; (on_goal 1 => clear heq); (on_goal 2 => intro hx)) | (refine kI s.fixed _ (takePacket_fixed heq) ?_; intro hx))))
    | (simp [*]; done)

@[simp] theorem execColl_fixed (cid : Nat) (s : State) :
    Out.fixes (execColl cid s) s.fixed := by
  unfold execColl
  repeat' first
    | lift_lets -underBinder
    | (with_reducible apply State.withCmd_fixed; intro s _)
    | with_reducible apply kite
    | intro _
    | (simp; done)

@[simp] theorem execCollData_fixed (k : Packet) (s : State) : Out.fixes (execCollData k s) s.fixed := by
  unfold execCollData
  split
  · rfl
  · rename_i e t heq
    have h := takeDelivered_fixed heq
    lift_lets
    intro slot
    split
    · simp [h]
    · split
      · simp [h]
      · split <;> simp [h]

@[simp] theorem execCollCtrl_fixed (k : Packet) (s : State) :
    Out.fixes (execCollCtrl k s) s.fixed := by
  unfold execCollCtrl
  repeat' first
    | with_reducible assumption
    | lift_lets -underBinder
    | with_reducible refine (Out.fixes_next _ _).mpr ?_
    | (intro x; clear_value x)
    | with_reducible apply kiteO
    | intro _
    | (simp; done)
    | (split <;> (try (rename_i heq; first | (refine kU1 s.fixed heq ?_ ?_; (on_goal 1 => clear heq); (on_goal 2 => intro hx)) | (refine kU2 s.fixed heq ?_ ?_; (on_goal 1 => clear heq); (on_goal 2 => intro hx)) | (refine kI s.fixed _ (takePacket_fixed heq) ?_; intro hx))))
    | (simp [*]; done)

@[simp] theorem State.exclude_fixed (s : State) (slot : Nat) (c : Cmd) (i : Nat) :
    (State.exclude s slot c i).fixed = s.fixed := by
  unfold State.exclude
  repeat' first
    | lift_lets -underBinder
    | (intro (x : State); refine kI (x := x) s.fixed _ ?_ ?_; (on_goal 1 => subst x); (on_goal 2 => (intro hx; clear_value x)))
    | (intro x; clear_value x)
    | with_reducible apply kite
    | intro _
    | (simp; done)
    | (split <;> (try (rename_i heq; first | (refine kU1 s.fixed heq ?_ ?_; (on_goal 1 => clear heq); (on_goal 2 => intro hx)) | (refine kU2 s.fixed heq ?_ ?_; (on_goal 1 => clear heq); (on_goal 2 => intro hx)) | (refine kI s.fixed _ (takePacket_fixed heq) ?_; intro hx))))
    | (simp [*]; done)

@[simp] theorem execCollDeadline_fixed (slot : Fin 256) (s : State) :
    Out.fixes (execCollDeadline slot s) s.fixed := by
  unfold execCollDeadline
  repeat' first
    | with_reducible assumption
    | lift_lets -underBinder
    | with_reducible refine (Out.fixes_next _ _).mpr ?_
    | (intro (x : State); refine kI (x := x) s.fixed _ ?_ ?_; (on_goal 1 => subst x); (on_goal 2 => (intro hx; clear_value x)))
    | with_reducible (refine kfold ?_ ?_; (on_goal 2 => intro s _))
    | with_reducible apply kite
    | with_reducible apply kiteO
    | intro _
    | (simp; done)
    | (split <;> (try (rename_i heq; first | (refine kU1 s.fixed heq ?_ ?_; (on_goal 1 => clear heq); (on_goal 2 => intro hx)) | (refine kU2 s.fixed heq ?_ ?_; (on_goal 1 => clear heq); (on_goal 2 => intro hx)) | (refine kI s.fixed _ (takePacket_fixed heq) ?_; intro hx))))
    | (simp [*]; done)

@[simp] theorem State.endColl_fixed (s : State) (slot : Nat) (r : CollRun) (c : Cmd) :
    (State.endColl s slot r c).fixed = s.fixed := by
  unfold State.endColl
  repeat' first
    | with_reducible assumption
    | lift_lets -underBinder
    | (intro (x : State); refine kI (x := x) s.fixed _ ?_ ?_; (on_goal 1 => subst x); (on_goal 2 => (intro hx; clear_value x)))
    | (intro x; clear_value x)
    | with_reducible apply kite
    | intro _
    | (simp; done)
    | (split <;> (try (rename_i heq; first | (refine kU1 s.fixed heq ?_ ?_; (on_goal 1 => clear heq); (on_goal 2 => intro hx)) | (refine kU2 s.fixed heq ?_ ?_; (on_goal 1 => clear heq); (on_goal 2 => intro hx)) | (refine kI s.fixed _ (takePacket_fixed heq) ?_; intro hx))))
    | (simp [*]; done)

@[simp] theorem execCollComplete_fixed (slot : Fin 256) (s : State) :
    Out.fixes (execCollComplete slot s) s.fixed := by
  unfold execCollComplete
  repeat' first
    | lift_lets -underBinder
    | with_reducible refine (Out.fixes_next _ _).mpr ?_
    | with_reducible apply kiteO
    | intro _
    | (simp; done)
    | (split <;> (try (rename_i heq; first | (refine kU1 s.fixed heq ?_ ?_; (on_goal 1 => clear heq); (on_goal 2 => intro hx)) | (refine kU2 s.fixed heq ?_ ?_; (on_goal 1 => clear heq); (on_goal 2 => intro hx)) | (refine kI s.fixed _ (takePacket_fixed heq) ?_; intro hx))))

end Sys2Proof.Machine
end

