-- ==== Sys2Proof/Laws/FrameFactor.lean ====
section
/-! SUPPORT. The queue, the fuse copies and a blow stay as they are: the option store and the factor dies. -/
namespace Sys2Proof.Machine
set_option linter.all false
set_option Elab.async false
set_option maxRecDepth 4000

@[simp] theorem State.startLoad_fixed (s : State) :
    (State.startLoad s).fixed = s.fixed := by
  unfold State.startLoad
  repeat' first
    | (simp; done)

@[simp] theorem State.loadOptions_fixed (s : State) :
    (State.loadOptions s).fixed = s.fixed := by
  unfold State.loadOptions
  repeat' first
    | with_reducible assumption
    | lift_lets -underBinder
    | (intro (x : State); refine kI (x := x) s.fixed _ ?_ ?_; (on_goal 1 => subst x); (on_goal 2 => (intro hx; clear_value x)))
    | (intro x; clear_value x)
    | with_reducible apply kite
    | intro _
    | (simp; done)
    | (split <;> (try (rename_i heq; first | (refine kU1 s.fixed heq ?_ ?_; (on_goal 1 => clear heq); (on_goal 2 => intro hx)) | (refine kU2 s.fixed heq ?_ ?_; (on_goal 1 => clear heq); (on_goal 2 => intro hx)) | (refine kI s.fixed _ (takePacket_fixed heq) ?_; intro hx))))
    | (simp [*]; done)

@[simp] theorem State.programCopy_fixed (s : State) (second : Bool) (img : Memory) :
    (State.programCopy s second img).fixed = s.fixed := by
  unfold State.programCopy
  repeat' first
    | with_reducible assumption
    | lift_lets -underBinder
    | (intro (x : State); refine kI (x := x) s.fixed _ ?_ ?_; (on_goal 1 => subst x); (on_goal 2 => (intro hx; clear_value x)))
    | (intro x; clear_value x)
    | with_reducible apply kite
    | intro _
    | (simp; done)
    | (simp [*]; done)

@[simp] theorem State.queueWrite_fixed (s : State) (host : Bool) (copies : List Bool) (img : Memory) :
    (State.queueWrite s host copies img).fixed = s.fixed := by
  unfold State.queueWrite
  repeat' first
    | (simp; done)

@[simp] theorem State.storeTurn_fixed (s : State) :
    (State.storeTurn s).fixed = s.fixed := by
  unfold State.storeTurn
  repeat' first
    | lift_lets -underBinder
    | (intro (x : State); refine kI (x := x) s.fixed _ ?_ ?_; (on_goal 1 => subst x); (on_goal 2 => (intro hx; clear_value x)))
    | (intro (x : State → _ → State); refine kG (x := x) _ ?_ ?_; (on_goal 1 => subst x; intro s _; beta_reduce); (on_goal 2 => (intro hx; clear_value x)))
    | (intro x; clear_value x)
    | with_reducible apply kite
    | intro _
    | (simp; done)
    | (split <;> (try (rename_i heq; first | (refine kU1 s.fixed heq ?_ ?_; (on_goal 1 => clear heq); (on_goal 2 => intro hx)) | (refine kU2 s.fixed heq ?_ ?_; (on_goal 1 => clear heq); (on_goal 2 => intro hx)) | (refine kI s.fixed _ (takePacket_fixed heq) ?_; intro hx))))
    | (simp [*]; done)

@[simp] theorem State.cutStore_fixed (s : State) :
    (State.cutStore s).fixed = s.fixed := by
  unfold State.cutStore
  repeat' first
    | with_reducible assumption
    | lift_lets -underBinder
    | (intro (x : State); refine kI (x := x) s.fixed _ ?_ ?_; (on_goal 1 => subst x); (on_goal 2 => (intro hx; clear_value x)))
    | (intro x; clear_value x)
    | (simp; done)
    | (split <;> (try (rename_i heq; first | (refine kU1 s.fixed heq ?_ ?_; (on_goal 1 => clear heq); (on_goal 2 => intro hx)) | (refine kU2 s.fixed heq ?_ ?_; (on_goal 1 => clear heq); (on_goal 2 => intro hx)) | (refine kI s.fixed _ (takePacket_fixed heq) ?_; intro hx))))
    | (simp [*]; done)

@[simp] theorem State.repairOptions_fixed (s : State) :
    (State.repairOptions s).fixed = s.fixed := by
  unfold State.repairOptions
  repeat' first
    | lift_lets -underBinder
    | with_reducible apply kite
    | intro _
    | (simp; done)

@[simp] theorem State.programBoth_fixed (s : State) (host : Bool) (base : Memory) :
    (State.programBoth s host base).fixed = s.fixed := by
  unfold State.programBoth
  repeat' first
    | lift_lets -underBinder
    | (intro x; clear_value x)
    | (simp; done)

@[simp] theorem State.optCommit_fixed (s : State) (v : BitVec 64) :
    (State.optCommit s v).fixed = s.fixed := by
  unfold State.optCommit
  repeat' first
    | lift_lets -underBinder
    | with_reducible apply kite
    | intro _
    | (simp; done)

@[simp] theorem execOptionCommit_fixed (value : BitVec 64) (s : State) :
    Out.fixes (execOptionCommit value s) s.fixed := by
  unfold execOptionCommit
  repeat' first
    | lift_lets -underBinder
    | with_reducible refine (Out.fixes_next _ _).mpr ?_
    | (simp; done)

@[simp] theorem State.setBatch_fixed (s : State) (f : Nat) (b : BatchRun) :
    (State.setBatch s f b).fixed = s.fixed := by
  unfold State.setBatch
  repeat' first
    | lift_lets -underBinder
    | (intro x; clear_value x)
    | (simp; done)

@[simp] theorem State.batchError_fixed (s : State) (f lane code addr : Nat) :
    (State.batchError s f lane code addr).fixed = s.fixed := by
  unfold State.batchError
  repeat' first
    | with_reducible assumption
    | lift_lets -underBinder
    | (intro (x : State); refine kI (x := x) s.fixed _ ?_ ?_; (on_goal 1 => subst x); (on_goal 2 => (intro hx; clear_value x)))
    | (simp; done)
    | (split <;> (try (rename_i heq; first | (refine kU1 s.fixed heq ?_ ?_; (on_goal 1 => clear heq); (on_goal 2 => intro hx)) | (refine kU2 s.fixed heq ?_ ?_; (on_goal 1 => clear heq); (on_goal 2 => intro hx)) | (refine kI s.fixed _ (takePacket_fixed heq) ?_; intro hx))))
    | (simp [*]; done)

@[simp] theorem State.endProblem_fixed (s : State) (f : Nat) (p : Problem) (o : Outcome) (start : BitVec 32) :
    (State.endProblem s f p o start).fixed = s.fixed := by
  unfold State.endProblem
  repeat' first
    | with_reducible assumption
    | lift_lets -underBinder
    | (intro (x : State); refine kI (x := x) s.fixed _ ?_ ?_; (on_goal 1 => subst x); (on_goal 2 => (intro hx; clear_value x)))
    | (intro x; clear_value x)
    | (simp; done)
    | (split <;> (try (rename_i heq; first | (refine kU1 s.fixed heq ?_ ?_; (on_goal 1 => clear heq); (on_goal 2 => intro hx)) | (refine kU2 s.fixed heq ?_ ?_; (on_goal 1 => clear heq); (on_goal 2 => intro hx)) | (refine kI s.fixed _ (takePacket_fixed heq) ?_; intro hx))))
    | (simp [*]; done)

@[simp] theorem State.endUnstarted_fixed (s : State) (f i status : Nat) :
    (State.endUnstarted s f i status).fixed = s.fixed := by
  unfold State.endUnstarted
  repeat' first
    | with_reducible assumption
    | lift_lets -underBinder
    | (intro (x : State); refine kI (x := x) s.fixed _ ?_ ?_; (on_goal 1 => subst x); (on_goal 2 => (intro hx; clear_value x)))
    | (simp; done)
    | (split <;> (try (rename_i heq; first | (refine kU1 s.fixed heq ?_ ?_; (on_goal 1 => clear heq); (on_goal 2 => intro hx)) | (refine kU2 s.fixed heq ?_ ?_; (on_goal 1 => clear heq); (on_goal 2 => intro hx)) | (refine kI s.fixed _ (takePacket_fixed heq) ?_; intro hx))))
    | (simp [*]; done)

@[simp] theorem State.endRest_fixed (s : State) (f status : Nat) :
    (State.endRest s f status).fixed = s.fixed := by
  unfold State.endRest
  repeat' first
    | lift_lets -underBinder
    | with_reducible (refine kfold ?_ ?_; (on_goal 2 => intro s _))
    | (simp; done)
    | (split <;> (try (rename_i heq; first | (refine kU1 s.fixed heq ?_ ?_; (on_goal 1 => clear heq); (on_goal 2 => intro hx)) | (refine kU2 s.fixed heq ?_ ?_; (on_goal 1 => clear heq); (on_goal 2 => intro hx)) | (refine kI s.fixed _ (takePacket_fixed heq) ?_; intro hx))))

@[simp] theorem State.endStarted_fixed (s : State) (f : Nat) (p : Problem) (o : Outcome) :
    (State.endStarted s f p o).fixed = s.fixed := by
  unfold State.endStarted
  repeat' first
    | (simp; done)

@[simp] theorem State.stopProblem_fixed (s : State) (f : Nat) (p : Problem) (stage : Nat) (e : FxStop) :
    (State.stopProblem s f p stage e).fixed = s.fixed := by
  unfold State.stopProblem
  repeat' first
    | lift_lets -underBinder
    | (intro x; clear_value x)
    | with_reducible apply kite
    | intro _
    | (simp; done)
    | (split <;> (try (rename_i heq; first | (refine kU1 s.fixed heq ?_ ?_; (on_goal 1 => clear heq); (on_goal 2 => intro hx)) | (refine kU2 s.fixed heq ?_ ?_; (on_goal 1 => clear heq); (on_goal 2 => intro hx)) | (refine kI s.fixed _ (takePacket_fixed heq) ?_; intro hx))))

@[simp] theorem State.faultProblem_fixed (s : State) (f : Nat) (p : Problem) (code addr : Nat) :
    (State.faultProblem s f p code addr).fixed = s.fixed := by
  unfold State.faultProblem
  repeat' first
    | (simp; done)

@[simp] theorem State.laneFault_fixed (s : State) (f : Nat) (p : Problem) :
    (State.laneFault s f p).fixed = s.fixed := by
  unfold State.laneFault
  repeat' first
    | lift_lets -underBinder
    | (intro (x : State); refine kI (x := x) s.fixed _ ?_ ?_; (on_goal 1 => subst x); (on_goal 2 => (intro hx; clear_value x)))
    | (simp; done)
    | (simp [*]; done)

@[simp] theorem State.readRow_fixed (s : State) (a fmt lo hi : Nat) :
    (State.readRow s a fmt lo hi).1.fixed = s.fixed := by
  unfold State.readRow
  repeat' first
    | with_reducible assumption
    | lift_lets -underBinder
    | (intro x; clear_value x)
    | (simp; done)
    | (split <;> (try (rename_i heq; first | (refine kU1 s.fixed heq ?_ ?_; (on_goal 1 => clear heq); (on_goal 2 => intro hx)) | (refine kU2 s.fixed heq ?_ ?_; (on_goal 1 => clear heq); (on_goal 2 => intro hx)) | (refine kI s.fixed _ (takePacket_fixed heq) ?_; intro hx))))

@[simp] theorem State.readMat_fixed (s : State) (a ld fmt cols : Nat) (span : Nat → Nat × Nat) (x0 : List Nat) :
    (State.readMat s a ld fmt cols span x0).1.fixed = s.fixed := by
  induction x0 generalizing s a ld fmt cols with
  | nil =>
    unfold State.readMat
    repeat' first
      | (simp; done)
  | cons e l ih =>
    unfold State.readMat
    repeat' first
      | with_reducible assumption
      | lift_lets -underBinder
      | (simp; done)
      | (split <;> (try (rename_i heq; first | (refine kU1 s.fixed heq ?_ ?_; (on_goal 1 => clear heq); (on_goal 2 => intro hx)) | (refine kU2 s.fixed heq ?_ ?_; (on_goal 1 => clear heq); (on_goal 2 => intro hx)) | (refine kI s.fixed _ (takePacket_fixed heq) ?_; intro hx))))
      | (simp [*]; done)

@[simp] theorem State.readA_fixed (s : State) (d : Desc) :
    (State.readA s d).1.fixed = s.fixed := by
  unfold State.readA
  repeat' first
    | with_reducible assumption
    | lift_lets -underBinder
    | (simp; done)
    | (split <;> (try (rename_i heq; first | (refine kU1 s.fixed heq ?_ ?_; (on_goal 1 => clear heq); (on_goal 2 => intro hx)) | (refine kU2 s.fixed heq ?_ ?_; (on_goal 1 => clear heq); (on_goal 2 => intro hx)) | (refine kI s.fixed _ (takePacket_fixed heq) ?_; intro hx))))

@[simp] theorem State.readB_fixed (s : State) (d : Desc) :
    (State.readB s d).1.fixed = s.fixed := by
  unfold State.readB
  repeat' first
    | lift_lets -underBinder
    | with_reducible apply kite1
    | intro _
    | (simp; done)

@[simp] theorem State.resolve_fixed (s : State) (f : Nat) (d : Desc) :
    (State.resolve s f d).1.fixed = s.fixed := by
  unfold State.resolve
  repeat' first
    | with_reducible assumption
    | lift_lets -underBinder
    | (intro x; clear_value x)
    | with_reducible apply kite1
    | intro _
    | (simp; done)
    | (split <;> (try (rename_i heq; first | (refine kU1 s.fixed heq ?_ ?_; (on_goal 1 => clear heq); (on_goal 2 => intro hx)) | (refine kU2 s.fixed heq ?_ ?_; (on_goal 1 => clear heq); (on_goal 2 => intro hx)) | (refine kI s.fixed _ (takePacket_fixed heq) ?_; intro hx))))
    | (simp [*]; done)

@[simp] theorem State.afterInput_fixed (s : State) (f : Nat) (p : Problem) (d : Desc) (a : List (List FVal)) :
    (State.afterInput s f p d a).fixed = s.fixed := by
  unfold State.afterInput
  repeat' first
    | lift_lets -underBinder
    | (intro (x : State → _ → State); refine kG (x := x) _ ?_ ?_; (on_goal 1 => subst x; intro s _; beta_reduce); (on_goal 2 => (intro hx; clear_value x)))
    | (intro x; clear_value x)
    | with_reducible apply kite
    | intro _
    | (simp; done)
    | (split <;> (try (rename_i heq; first | (refine kU1 s.fixed heq ?_ ?_; (on_goal 1 => clear heq); (on_goal 2 => intro hx)) | (refine kU2 s.fixed heq ?_ ?_; (on_goal 1 => clear heq); (on_goal 2 => intro hx)) | (refine kI s.fixed _ (takePacket_fixed heq) ?_; intro hx))))
    | (simp [*]; done)

@[simp] theorem State.startProblem_fixed (s : State) (f : Nat) (p : Problem) (d : Desc) :
    (State.startProblem s f p d).fixed = s.fixed := by
  unfold State.startProblem
  repeat' first
    | with_reducible assumption
    | lift_lets -underBinder
    | (intro x; clear_value x)
    | with_reducible apply kite
    | with_reducible apply kite1
    | intro _
    | (simp; done)
    | (split <;> (try (rename_i heq; first | (refine kU1 s.fixed heq ?_ ?_; (on_goal 1 => clear heq); (on_goal 2 => intro hx)) | (refine kU2 s.fixed heq ?_ ?_; (on_goal 1 => clear heq); (on_goal 2 => intro hx)) | (refine kI s.fixed _ (takePacket_fixed heq) ?_; intro hx))))
    | (simp [*]; done)

@[simp] theorem execProblemStart_fixed (f : Fin 4) (i cycles : Nat) (bad : Bool) (s : State) :
    Out.fixes (execProblemStart f i cycles bad s) s.fixed := by
  unfold execProblemStart
  repeat' first
    | with_reducible assumption
    | lift_lets -underBinder
    | with_reducible refine (Out.fixes_next _ _).mpr ?_
    | (intro (x : State); refine kI (x := x) s.fixed _ ?_ ?_; (on_goal 1 => subst x); (on_goal 2 => (intro hx; clear_value x)))
    | (intro x; clear_value x)
    | with_reducible apply kiteO
    | intro _
    | (simp; done)
    | (split <;> (try (rename_i heq; first | (refine kU1 s.fixed heq ?_ ?_; (on_goal 1 => clear heq); (on_goal 2 => intro hx)) | (refine kU2 s.fixed heq ?_ ?_; (on_goal 1 => clear heq); (on_goal 2 => intro hx)) | (refine kI s.fixed _ (takePacket_fixed heq) ?_; intro hx))))
    | (simp [*]; done)

@[simp] theorem State.putProblem_fixed (s : State) (f : Nat) (p : Problem) :
    (State.putProblem s f p).fixed = s.fixed := by
  unfold State.putProblem
  repeat' first
    | (simp; done)
    | (split <;> (try (rename_i heq; first | (refine kU1 s.fixed heq ?_ ?_; (on_goal 1 => clear heq); (on_goal 2 => intro hx)) | (refine kU2 s.fixed heq ?_ ?_; (on_goal 1 => clear heq); (on_goal 2 => intro hx)) | (refine kI s.fixed _ (takePacket_fixed heq) ?_; intro hx))))

@[simp] theorem State.writeX_fixed (s : State) (p : Problem) (d : Desc) (x0 : List Nat) :
    (State.writeX s p d x0).1.fixed = s.fixed := by
  induction x0 generalizing s p d with
  | nil =>
    unfold State.writeX
    repeat' first
      | (simp; done)
  | cons e l ih =>
    unfold State.writeX
    repeat' first
      | with_reducible assumption
      | lift_lets -underBinder
      | (intro x; clear_value x)
      | (simp; done)
      | (split <;> (try (rename_i heq; first | (refine kU1 s.fixed heq ?_ ?_; (on_goal 1 => clear heq); (on_goal 2 => intro hx)) | (refine kU2 s.fixed heq ?_ ?_; (on_goal 1 => clear heq); (on_goal 2 => intro hx)) | (refine kI s.fixed _ (takePacket_fixed heq) ?_; intro hx))))
      | (simp [*]; done)

@[simp] theorem State.beginCommit_fixed (s : State) (f : Nat) (p : Problem) :
    (State.beginCommit s f p).fixed = s.fixed := by
  unfold State.beginCommit
  repeat' first
    | lift_lets -underBinder
    | (intro x; clear_value x)
    | with_reducible apply kite
    | intro _
    | (simp; done)
    | (split <;> (try (rename_i heq; first | (refine kU1 s.fixed heq ?_ ?_; (on_goal 1 => clear heq); (on_goal 2 => intro hx)) | (refine kU2 s.fixed heq ?_ ?_; (on_goal 1 => clear heq); (on_goal 2 => intro hx)) | (refine kI s.fixed _ (takePacket_fixed heq) ?_; intro hx))))
    | (simp [*]; done)

@[simp] theorem State.concludeProblem_fixed (s : State) (f : Nat) (p : Problem) (status : Nat) :
    (State.concludeProblem s f p status).fixed = s.fixed := by
  unfold State.concludeProblem
  repeat' first
    | with_reducible assumption
    | lift_lets -underBinder
    | (intro (x : State); refine kI (x := x) s.fixed _ ?_ ?_; (on_goal 1 => subst x); (on_goal 2 => (intro hx; clear_value x)))
    | (intro x; clear_value x)
    | with_reducible apply kite
    | with_reducible apply kite1
    | intro _
    | (simp; done)
    | (split <;> (try (rename_i heq; first | (refine kU1 s.fixed heq ?_ ?_; (on_goal 1 => clear heq); (on_goal 2 => intro hx)) | (refine kU2 s.fixed heq ?_ ?_; (on_goal 1 => clear heq); (on_goal 2 => intro hx)) | (refine kI s.fixed _ (takePacket_fixed heq) ?_; intro hx))))
    | (simp [*]; done)

@[simp] theorem State.factorStage_fixed (s : State) (f : Nat) (p : Problem) (d : Desc) :
    (State.factorStage s f p d).fixed = s.fixed := by
  unfold State.factorStage
  repeat' first
    | lift_lets -underBinder
    | (intro x; clear_value x)
    | with_reducible apply kite
    | intro _
    | (simp; done)
    | (split <;> (try (rename_i heq; first | (refine kU1 s.fixed heq ?_ ?_; (on_goal 1 => clear heq); (on_goal 2 => intro hx)) | (refine kU2 s.fixed heq ?_ ?_; (on_goal 1 => clear heq); (on_goal 2 => intro hx)) | (refine kI s.fixed _ (takePacket_fixed heq) ?_; intro hx))))

@[simp] theorem State.solved_fixed (s : State) (f : Nat) (p : Problem) (d : Desc) (x : List (List Int)) :
    (State.solved s f p d x).fixed = s.fixed := by
  unfold State.solved
  repeat' first
    | lift_lets -underBinder
    | (intro x; clear_value x)
    | with_reducible apply kite
    | intro _
    | (simp; done)
    | (split <;> (try (rename_i heq; first | (refine kU1 s.fixed heq ?_ ?_; (on_goal 1 => clear heq); (on_goal 2 => intro hx)) | (refine kU2 s.fixed heq ?_ ?_; (on_goal 1 => clear heq); (on_goal 2 => intro hx)) | (refine kI s.fixed _ (takePacket_fixed heq) ?_; intro hx))))

@[simp] theorem execFactorStageComplete_fixed (f : Fin 4) (i cycles : Nat) (bad : Bool) (s : State) :
    Out.fixes (execFactorStageComplete f i cycles bad s) s.fixed := by
  unfold execFactorStageComplete
  repeat' first
    | lift_lets -underBinder
    | with_reducible refine (Out.fixes_next _ _).mpr ?_
    | (intro x; clear_value x)
    | with_reducible apply kite
    | with_reducible apply kiteO
    | intro _
    | (simp; done)
    | (split <;> (try (rename_i heq; first | (refine kU1 s.fixed heq ?_ ?_; (on_goal 1 => clear heq); (on_goal 2 => intro hx)) | (refine kU2 s.fixed heq ?_ ?_; (on_goal 1 => clear heq); (on_goal 2 => intro hx)) | (refine kI s.fixed _ (takePacket_fixed heq) ?_; intro hx))))

@[simp] theorem State.loopTest_fixed (s : State) (f : Nat) (p : Problem) (d : Desc) (r : List (List FVal)) :
    (State.loopTest s f p d r).fixed = s.fixed := by
  unfold State.loopTest
  repeat' first
    | lift_lets -underBinder
    | (intro (x : State); refine kI (x := x) s.fixed _ ?_ ?_; (on_goal 1 => subst x); (on_goal 2 => (intro hx; clear_value x)))
    | (intro x; clear_value x)
    | with_reducible apply kite
    | intro _
    | (simp; done)
    | (split <;> (try (rename_i heq; first | (refine kU1 s.fixed heq ?_ ?_; (on_goal 1 => clear heq); (on_goal 2 => intro hx)) | (refine kU2 s.fixed heq ?_ ?_; (on_goal 1 => clear heq); (on_goal 2 => intro hx)) | (refine kI s.fixed _ (takePacket_fixed heq) ?_; intro hx))))
    | (simp [*]; done)

@[simp] theorem execRefineResidual_fixed (f : Fin 4) (i cycles : Nat) (s : State) :
    Out.fixes (execRefineResidual f i cycles s) s.fixed := by
  unfold execRefineResidual
  repeat' first
    | lift_lets -underBinder
    | with_reducible refine (Out.fixes_next _ _).mpr ?_
    | (intro x; clear_value x)
    | with_reducible apply kiteO
    | intro _
    | (simp; done)
    | (split <;> (try (rename_i heq; first | (refine kU1 s.fixed heq ?_ ?_; (on_goal 1 => clear heq); (on_goal 2 => intro hx)) | (refine kU2 s.fixed heq ?_ ?_; (on_goal 1 => clear heq); (on_goal 2 => intro hx)) | (refine kI s.fixed _ (takePacket_fixed heq) ?_; intro hx))))
    | (simp [*]; done)

@[simp] theorem State.finishCommit_fixed (s : State) (f : Nat) (p : Problem) :
    (State.finishCommit s f p).fixed = s.fixed := by
  unfold State.finishCommit
  repeat' first
    | lift_lets -underBinder
    | (intro x; clear_value x)
    | (simp; done)
    | (split <;> (try (rename_i heq; first | (refine kU1 s.fixed heq ?_ ?_; (on_goal 1 => clear heq); (on_goal 2 => intro hx)) | (refine kU2 s.fixed heq ?_ ?_; (on_goal 1 => clear heq); (on_goal 2 => intro hx)) | (refine kI s.fixed _ (takePacket_fixed heq) ?_; intro hx))))
    | (simp [*]; done)

@[simp] theorem execRetainCommit_fixed (f : Fin 4) (i cycles : Nat) (s : State) :
    Out.fixes (execRetainCommit f i cycles s) s.fixed := by
  unfold execRetainCommit
  repeat' first
    | with_reducible assumption
    | lift_lets -underBinder
    | with_reducible refine (Out.fixes_next _ _).mpr ?_
    | (intro (x : State); refine kI (x := x) s.fixed _ ?_ ?_; (on_goal 1 => subst x); (on_goal 2 => (intro hx; clear_value x)))
    | (intro x; clear_value x)
    | with_reducible apply kite
    | with_reducible apply kiteO
    | intro _
    | (simp; done)
    | (split <;> (try (rename_i heq; first | (refine kU1 s.fixed heq ?_ ?_; (on_goal 1 => clear heq); (on_goal 2 => intro hx)) | (refine kU2 s.fixed heq ?_ ?_; (on_goal 1 => clear heq); (on_goal 2 => intro hx)) | (refine kI s.fixed _ (takePacket_fixed heq) ?_; intro hx))))
    | (simp [*]; done)

@[simp] theorem execFactorDeadline_fixed (f : Fin 4) (s : State) :
    Out.fixes (execFactorDeadline f s) s.fixed := by
  unfold execFactorDeadline
  repeat' first
    | lift_lets -underBinder
    | with_reducible refine (Out.fixes_next _ _).mpr ?_
    | with_reducible apply kiteO
    | intro _
    | (simp; done)
    | (split <;> (try (rename_i heq; first | (refine kU1 s.fixed heq ?_ ?_; (on_goal 1 => clear heq); (on_goal 2 => intro hx)) | (refine kU2 s.fixed heq ?_ ?_; (on_goal 1 => clear heq); (on_goal 2 => intro hx)) | (refine kI s.fixed _ (takePacket_fixed heq) ?_; intro hx))))

@[simp] theorem execFactorBatchComplete_fixed (f : Fin 4) (s : State) :
    Out.fixes (execFactorBatchComplete f s) s.fixed := by
  unfold execFactorBatchComplete
  repeat' first
    | lift_lets -underBinder
    | with_reducible refine (Out.fixes_next _ _).mpr ?_
    | (intro x; clear_value x)
    | with_reducible apply kiteO
    | intro _
    | (simp; done)
    | (split <;> (try (rename_i heq; first | (refine kU1 s.fixed heq ?_ ?_; (on_goal 1 => clear heq); (on_goal 2 => intro hx)) | (refine kU2 s.fixed heq ?_ ?_; (on_goal 1 => clear heq); (on_goal 2 => intro hx)) | (refine kI s.fixed _ (takePacket_fixed heq) ?_; intro hx))))

@[simp] theorem State.factorCmd_fixed (s : State) (cid op : Nat) (g : State → Cmd → Nat → State) (hg : ∀ a0 a1 a2, (g a0 a1 a2).fixed = a0.fixed) :
    Out.fixes (State.factorCmd s cid op g) s.fixed := by
  unfold State.factorCmd
  repeat' first
    | lift_lets -underBinder
    | (with_reducible apply State.withCmd_fixed; intro s _)
    | (with_reducible apply State.oneDie_fixed; intro s _)
    | with_reducible apply kite
    | intro _
    | (simp; done)
    | (simp [*]; done)

@[simp] theorem execFactorBatch_fixed (cid : Nat) (s : State) :
    Out.fixes (execFactorBatch cid s) s.fixed := by
  unfold execFactorBatch
  repeat' first
    | with_reducible assumption
    | lift_lets -underBinder
    | (intro (x : State); refine kI (x := x) s.fixed _ ?_ ?_; (on_goal 1 => subst x); (on_goal 2 => (intro hx; clear_value x)))
    | (with_reducible apply State.factorCmd_fixed; intro s _ _)
    | with_reducible apply kite
    | intro _
    | (simp; done)
    | (simp [*]; done)

@[simp] theorem execFactorStore_fixed (cid : Nat) (s : State) :
    Out.fixes (execFactorStore cid s) s.fixed := by
  unfold execFactorStore
  repeat' first
    | lift_lets -underBinder
    | (intro (x : State); refine kI (x := x) s.fixed _ ?_ ?_; (on_goal 1 => subst x); (on_goal 2 => (intro hx; clear_value x)))
    | (intro x; clear_value x)
    | (with_reducible apply State.factorCmd_fixed; intro s _ _)
    | (simp; done)
    | (simp [*]; done)

@[simp] theorem State.eachSlot_fixed (s : State) (f first count : Nat) (g : State → Nat → State × Option (Nat × Nat)) (hg : ∀ a0 a1, (g a0 a1).1.fixed = a0.fixed) :
    (State.eachSlot s f first count g).1.fixed = s.fixed := by
  unfold State.eachSlot
  repeat' first
    | with_reducible assumption
    | lift_lets -underBinder
    | (intro x; clear_value x)
    | with_reducible (refine kfold1 ?_ ?_; (on_goal 2 => intro (s, _) _))
    | (simp; done)
    | (split <;> (try (rename_i heq; first | (refine kU1 s.fixed heq ?_ ?_; (on_goal 1 => clear heq); (on_goal 2 => intro hx)) | (refine kU2 s.fixed heq ?_ ?_; (on_goal 1 => clear heq); (on_goal 2 => intro hx)) | (refine kI s.fixed _ (takePacket_fixed heq) ?_; intro hx))))
    | (simp [*]; done)

@[simp] theorem State.storeReply_fixed (c : Cmd) (r : State × Option Nat) :
    (State.storeReply c r).fixed = r.1.fixed := by simp [State.storeReply]

@[simp] theorem execFactorRelease_fixed (cid : Nat) (s : State) : Out.fixes (execFactorRelease cid s) s.fixed := by
  unfold execFactorRelease
  apply State.factorCmd_fixed
  intro s c f
  dsimp only
  rw [State.storeReply_fixed]
  apply State.eachSlot_fixed
  intro s a
  exact State.devWrite_fixed _ _ _

@[simp] theorem execFactorReset_fixed (cid : Nat) (s : State) : Out.fixes (execFactorReset cid s) s.fixed := by
  unfold execFactorReset
  apply State.factorCmd_fixed
  intro s c f
  dsimp only
  rw [State.storeReply_fixed]
  apply State.eachSlot_fixed
  intro s a
  exact State.devWrite_fixed _ _ _

@[simp] theorem State.abortBatch_fixed (s : State) (f : Nat) :
    (State.abortBatch s f).fixed = s.fixed := by
  unfold State.abortBatch
  repeat' first
    | (simp; done)

@[simp] theorem execFactorAbort_fixed (cid : Nat) (s : State) :
    Out.fixes (execFactorAbort cid s) s.fixed := by
  unfold execFactorAbort
  repeat' first
    | lift_lets -underBinder
    | (with_reducible apply State.atOnce_fixed; intro s _)
    | (with_reducible apply State.oneDie_fixed; intro s _)
    | (simp; done)

end Sys2Proof.Machine
end

