-- ==== Sys2Proof/Laws/FrameRegs.lean ====
section
/-! SUPPORT. The queue, the fuse copies and a blow stay as they are: register accesses, responses and the Almanac. -/
namespace Sys2Proof.Machine
set_option linter.all false
set_option Elab.async false
set_option maxRecDepth 4000

@[simp] theorem State.errTail_fixed (s : State) (b : Nat) (v : BitVec 64) :
    (State.errTail s b v).fixed = s.fixed := by
  unfold State.errTail
  repeat' first
    | lift_lets -underBinder
    | (intro x; clear_value x)
    | (simp; done)

@[simp] theorem State.errAck_fixed (s : State) (b : Nat) (v : BitVec 64) :
    (State.errAck s b v).fixed = s.fixed := by
  unfold State.errAck
  repeat' first
    | lift_lets -underBinder
    | with_reducible apply kite
    | intro _
    | (simp; done)

@[simp] theorem State.writeErr_fixed (s : State) (b off : Nat) (v : BitVec 64) :
    (State.writeErr s b off v).fixed = s.fixed := by
  unfold State.writeErr
  repeat' first
    | lift_lets -underBinder
    | (intro x; clear_value x)
    | with_reducible apply kite
    | intro _
    | (simp; done)

@[simp] theorem State.writeMd_fixed (s : State) (m off : Nat) (v : BitVec 64) :
    (State.writeMd s m off v).fixed = s.fixed := by
  unfold State.writeMd
  repeat' first
    | lift_lets -underBinder
    | (intro x; clear_value x)
    | with_reducible apply kite
    | intro _
    | (simp; done)

@[simp] theorem State.writeLaunch_fixed (s : State) (l : Nat) (w : BitVec 64) :
    (State.writeLaunch s l w).fixed = s.fixed := by
  unfold State.writeLaunch
  repeat' first
    | lift_lets -underBinder
    | (intro x; clear_value x)
    | with_reducible apply kite
    | intro _
    | (simp; done)

@[simp] theorem execLdLaunch_fixed (l : Fin 8) (w : BitVec 64) (s : State) :
    Out.fixes (execLdLaunch l w s) s.fixed := by
  unfold execLdLaunch
  repeat' first
    | lift_lets -underBinder
    | with_reducible refine (Out.fixes_next _ _).mpr ?_
    | (simp; done)

@[simp] theorem State.writeLd_fixed (s : State) (l off : Nat) (v : BitVec 64) :
    (State.writeLd s l off v).fixed = s.fixed := by
  unfold State.writeLd
  repeat' first
    | lift_lets -underBinder
    | (intro x; clear_value x)
    | with_reducible apply kite
    | intro _
    | (simp; done)

@[simp] theorem State.writeFd_fixed (s : State) (f off : Nat) (v : BitVec 64) :
    (State.writeFd s f off v).fixed = s.fixed := by
  unfold State.writeFd
  repeat' first
    | lift_lets -underBinder
    | (intro x; clear_value x)
    | with_reducible apply kite
    | intro _
    | (simp; done)

@[simp] theorem State.writeSteward_fixed (s : State) (off : Nat) (v : BitVec 64) :
    (State.writeSteward s off v).fixed = s.fixed := by
  unfold State.writeSteward
  repeat' first
    | lift_lets -underBinder
    | (intro x; clear_value x)
    | with_reducible apply kite
    | intro _
    | (simp; done)

@[simp] theorem State.writeAlm_fixed (s : State) (off : Nat) (v : BitVec 64) :
    (State.writeAlm s off v).fixed = s.fixed := by
  unfold State.writeAlm
  repeat' first
    | lift_lets -underBinder
    | (intro x; clear_value x)
    | with_reducible apply kite
    | intro _
    | (simp; done)

@[simp] theorem State.writePower_fixed (s : State) (off : Nat) (v : BitVec 64) :
    (State.writePower s off v).fixed = s.fixed := by
  unfold State.writePower
  repeat' first
    | lift_lets -underBinder
    | (intro x; clear_value x)
    | with_reducible apply kite
    | intro _
    | (simp; done)

@[simp] theorem State.writeWarden_fixed (s : State) (off : Nat) (v : BitVec 64) :
    (State.writeWarden s off v).fixed = s.fixed := by
  unfold State.writeWarden
  repeat' first
    | lift_lets -underBinder
    | (intro x; clear_value x)
    | with_reducible apply kite
    | intro _
    | (simp; done)

@[simp] theorem State.writeCd_fixed (s : State) (d off : Nat) (v : BitVec 64) :
    (State.writeCd s d off v).fixed = s.fixed := by
  unfold State.writeCd
  repeat' first
    | lift_lets -underBinder
    | (intro x; clear_value x)
    | with_reducible apply kite
    | intro _
    | (simp; done)

@[simp] theorem State.writeReg_fixed (s : State) (block off : Nat) (v : BitVec 64) :
    (State.writeReg s block off v).fixed = s.fixed := by
  unfold State.writeReg
  repeat' first
    | lift_lets -underBinder
    | (intro x; clear_value x)
    | with_reducible apply kite
    | intro _
    | (simp; done)

@[simp] theorem State.regPut_fixed (s : State) (block off : Nat) (l : List Byte) :
    (State.regPut s block off l).1.fixed = s.fixed := by
  unfold State.regPut
  repeat' first
    | lift_lets -underBinder
    | with_reducible (refine kfold ?_ ?_; (on_goal 2 => intro s _))
    | with_reducible apply kite1
    | intro _
    | (simp; done)

@[simp] theorem execRegisterWrite_fixed (addr : BitVec 48) (value : BitVec 64) (s : State) :
    Out.fixes (execRegisterWrite addr value s) s.fixed := by
  unfold execRegisterWrite
  repeat' first
    | lift_lets -underBinder
    | with_reducible refine (Out.fixes_next _ _).mpr ?_
    | with_reducible apply kiteO
    | intro _
    | (simp; done)
    | (split <;> (try (rename_i heq; first | (refine kU1 s.fixed heq ?_ ?_; (on_goal 1 => clear heq); (on_goal 2 => intro hx)) | (refine kU2 s.fixed heq ?_ ?_; (on_goal 1 => clear heq); (on_goal 2 => intro hx)) | (refine kI s.fixed _ (takePacket_fixed heq) ?_; intro hx))))

@[simp] theorem execPErrTailWrite_fixed (b : Fin 64) (value : BitVec 64) (s : State) :
    Out.fixes (execPErrTailWrite b value s) s.fixed := by
  unfold execPErrTailWrite
  repeat' first
    | lift_lets -underBinder
    | with_reducible refine (Out.fixes_next _ _).mpr ?_
    | with_reducible apply kite
    | intro _
    | (simp; done)

@[simp] theorem execPErrAck_fixed (b : Fin 64) (value : BitVec 64) (s : State) :
    Out.fixes (execPErrAck b value s) s.fixed := by
  unfold execPErrAck
  repeat' first
    | lift_lets -underBinder
    | with_reducible refine (Out.fixes_next _ _).mpr ?_
    | with_reducible apply kite
    | intro _
    | (simp; done)

@[simp] theorem State.localPiece_fixed (s : State) (a n : Nat) :
    (State.localPiece s a n).1.fixed = s.fixed := by
  unfold State.localPiece
  repeat' first
    | lift_lets -underBinder
    | with_reducible apply kite1
    | intro _
    | (simp; done)
    | (split <;> (try (rename_i heq; first | (refine kU1 s.fixed heq ?_ ?_; (on_goal 1 => clear heq); (on_goal 2 => intro hx)) | (refine kU2 s.fixed heq ?_ ?_; (on_goal 1 => clear heq); (on_goal 2 => intro hx)) | (refine kI s.fixed _ (takePacket_fixed heq) ?_; intro hx))))

@[simp] theorem State.localPut_fixed (s : State) (a : Nat) (l : List Byte) :
    (State.localPut s a l).1.fixed = s.fixed := by
  unfold State.localPut
  repeat' first
    | with_reducible assumption
    | lift_lets -underBinder
    | with_reducible apply kite1
    | intro _
    | (simp; done)
    | (split <;> (try (rename_i heq; first | (refine kU1 s.fixed heq ?_ ?_; (on_goal 1 => clear heq); (on_goal 2 => intro hx)) | (refine kU2 s.fixed heq ?_ ?_; (on_goal 1 => clear heq); (on_goal 2 => intro hx)) | (refine kI s.fixed _ (takePacket_fixed heq) ?_; intro hx))))
    | (simp [*]; done)

@[simp] theorem State.localRead_fixed (s : State) (a n : Nat) :
    (State.localRead s a n).1.fixed = s.fixed := by
  unfold State.localRead
  repeat' first
    | lift_lets -underBinder
    | with_reducible apply kite1
    | intro _
    | (simp; done)
    | (split <;> (try (rename_i heq; first | (refine kU1 s.fixed heq ?_ ?_; (on_goal 1 => clear heq); (on_goal 2 => intro hx)) | (refine kU2 s.fixed heq ?_ ?_; (on_goal 1 => clear heq); (on_goal 2 => intro hx)) | (refine kI s.fixed _ (takePacket_fixed heq) ?_; intro hx))))

@[simp] theorem State.localWrite_fixed (s : State) (a : Nat) (l : List Byte) :
    (State.localWrite s a l).1.fixed = s.fixed := by
  unfold State.localWrite
  repeat' first
    | with_reducible assumption
    | lift_lets -underBinder
    | with_reducible apply kite1
    | intro _
    | (simp; done)
    | (split <;> (try (rename_i heq; first | (refine kU1 s.fixed heq ?_ ?_; (on_goal 1 => clear heq); (on_goal 2 => intro hx)) | (refine kU2 s.fixed heq ?_ ?_; (on_goal 1 => clear heq); (on_goal 2 => intro hx)) | (refine kI s.fixed _ (takePacket_fixed heq) ?_; intro hx))))

@[simp] theorem State.errorAt_fixed (s : State) (k : Packet) (code off : Nat) :
    (State.errorAt s k code off).fixed = s.fixed := by
  unfold State.errorAt
  repeat' first
    | (simp; done)

@[simp] theorem State.asksHolder_fixed (s : State) (k : Packet) :
    (State.asksHolder s k).fixed = s.fixed := by
  unfold State.asksHolder
  repeat' first
    | lift_lets -underBinder
    | (intro x; clear_value x)
    | with_reducible apply kite
    | intro _
    | (simp; done)
    | (split <;> (try (rename_i heq; first | (refine kU1 s.fixed heq ?_ ?_; (on_goal 1 => clear heq); (on_goal 2 => intro hx)) | (refine kU2 s.fixed heq ?_ ?_; (on_goal 1 => clear heq); (on_goal 2 => intro hx)) | (refine kI s.fixed _ (takePacket_fixed heq) ?_; intro hx))))

@[simp] theorem execWrite_fixed (k : Packet) (s : State) :
    Out.fixes (execWrite k s) s.fixed := by
  unfold execWrite
  repeat' first
    | lift_lets -underBinder
    | with_reducible refine (Out.fixes_next _ _).mpr ?_
    | (simp; done)
    | (split <;> (try (rename_i heq; first | (refine kU1 s.fixed heq ?_ ?_; (on_goal 1 => clear heq); (on_goal 2 => intro hx)) | (refine kU2 s.fixed heq ?_ ?_; (on_goal 1 => clear heq); (on_goal 2 => intro hx)) | (refine kI s.fixed _ (takePacket_fixed heq) ?_; intro hx))))
    | (simp [*]; done)

@[simp] theorem execRead_fixed (k : Packet) (s : State) :
    Out.fixes (execRead k s) s.fixed := by
  unfold execRead
  repeat' first
    | lift_lets -underBinder
    | with_reducible refine (Out.fixes_next _ _).mpr ?_
    | (simp; done)
    | (split <;> (try (rename_i heq; first | (refine kU1 s.fixed heq ?_ ?_; (on_goal 1 => clear heq); (on_goal 2 => intro hx)) | (refine kU2 s.fixed heq ?_ ?_; (on_goal 1 => clear heq); (on_goal 2 => intro hx)) | (refine kI s.fixed _ (takePacket_fixed heq) ?_; intro hx))))
    | (simp [*]; done)

@[simp] theorem execSignalPacket_fixed (k : Packet) (s : State) :
    Out.fixes (execSignalPacket k s) s.fixed := by
  unfold execSignalPacket
  repeat' first
    | lift_lets -underBinder
    | with_reducible refine (Out.fixes_next _ _).mpr ?_
    | (intro x; clear_value x)
    | with_reducible apply kiteO
    | intro _
    | (simp; done)
    | (split <;> (try (rename_i heq; first | (refine kU1 s.fixed heq ?_ ?_; (on_goal 1 => clear heq); (on_goal 2 => intro hx)) | (refine kU2 s.fixed heq ?_ ?_; (on_goal 1 => clear heq); (on_goal 2 => intro hx)) | (refine kI s.fixed _ (takePacket_fixed heq) ?_; intro hx))))
    | (simp [*]; done)

@[simp] theorem State.sigAnswer_fixed (s : State) (x : Sig) (code : Nat) :
    (State.sigAnswer s x code).fixed = s.fixed := by
  unfold State.sigAnswer
  repeat' first
    | with_reducible assumption
    | lift_lets -underBinder
    | (intro (x : State); refine kI (x := x) s.fixed _ ?_ ?_; (on_goal 1 => subst x); (on_goal 2 => (intro hx; clear_value x)))
    | with_reducible apply kite
    | intro _
    | (simp; done)
    | (split <;> (try (rename_i heq; first | (refine kU1 s.fixed heq ?_ ?_; (on_goal 1 => clear heq); (on_goal 2 => intro hx)) | (refine kU2 s.fixed heq ?_ ?_; (on_goal 1 => clear heq); (on_goal 2 => intro hx)) | (refine kI s.fixed _ (takePacket_fixed heq) ?_; intro hx))))
    | (simp [*]; done)

@[simp] theorem execFlagIncrement_fixed (d : Fin 32) (t : Fin 144) (ctx : Bool) (flag : Fin 64) (count : Timed (BitVec 16)) (s : State) :
    Out.fixes (execFlagIncrement d t ctx flag count s) s.fixed := by
  unfold execFlagIncrement
  repeat' first
    | lift_lets -underBinder
    | with_reducible refine (Out.fixes_next _ _).mpr ?_
    | (intro (x : State); refine kI (x := x) s.fixed _ ?_ ?_; (on_goal 1 => subst x); (on_goal 2 => (intro hx; clear_value x)))
    | (intro x; clear_value x)
    | with_reducible apply kiteO
    | intro _
    | (simp; done)
    | (split <;> (try (rename_i heq; first | (refine kU1 s.fixed heq ?_ ?_; (on_goal 1 => clear heq); (on_goal 2 => intro hx)) | (refine kU2 s.fixed heq ?_ ?_; (on_goal 1 => clear heq); (on_goal 2 => intro hx)) | (refine kI s.fixed _ (takePacket_fixed heq) ?_; intro hx))))
    | (simp [*]; done)

@[simp] theorem State.answered_fixed (s : State) (k : Packet) (data : List Byte) (code : Nat) :
    (State.answered s k data code).fixed = s.fixed := by
  unfold State.answered
  repeat' first
    | lift_lets -underBinder
    | (intro x; clear_value x)
    | with_reducible apply kite
    | intro _
    | (simp; done)

@[simp] theorem execReadRsp_fixed (k : Packet) (s : State) :
    Out.fixes (execReadRsp k s) s.fixed := by
  unfold execReadRsp
  repeat' first
    | lift_lets -underBinder
    | with_reducible refine (Out.fixes_next _ _).mpr ?_
    | (simp; done)
    | (split <;> (try (rename_i heq; first | (refine kU1 s.fixed heq ?_ ?_; (on_goal 1 => clear heq); (on_goal 2 => intro hx)) | (refine kU2 s.fixed heq ?_ ?_; (on_goal 1 => clear heq); (on_goal 2 => intro hx)) | (refine kI s.fixed _ (takePacket_fixed heq) ?_; intro hx))))
    | (simp [*]; done)

@[simp] theorem execWriteAck_fixed (k : Packet) (s : State) :
    Out.fixes (execWriteAck k s) s.fixed := by
  unfold execWriteAck
  repeat' first
    | lift_lets -underBinder
    | with_reducible refine (Out.fixes_next _ _).mpr ?_
    | with_reducible apply kite
    | intro _
    | (simp; done)
    | (split <;> (try (rename_i heq; first | (refine kU1 s.fixed heq ?_ ?_; (on_goal 1 => clear heq); (on_goal 2 => intro hx)) | (refine kU2 s.fixed heq ?_ ?_; (on_goal 1 => clear heq); (on_goal 2 => intro hx)) | (refine kI s.fixed _ (takePacket_fixed heq) ?_; intro hx))))
    | (simp [*]; done)

@[simp] theorem execErrorRsp_fixed (k : Packet) (s : State) :
    Out.fixes (execErrorRsp k s) s.fixed := by
  unfold execErrorRsp
  repeat' first
    | lift_lets -underBinder
    | with_reducible refine (Out.fixes_next _ _).mpr ?_
    | (intro x; clear_value x)
    | with_reducible apply kiteO
    | intro _
    | (simp; done)
    | (split <;> (try (rename_i heq; first | (refine kU1 s.fixed heq ?_ ?_; (on_goal 1 => clear heq); (on_goal 2 => intro hx)) | (refine kU2 s.fixed heq ?_ ?_; (on_goal 1 => clear heq); (on_goal 2 => intro hx)) | (refine kI s.fixed _ (takePacket_fixed heq) ?_; intro hx))))
    | (simp [*]; done)

@[simp] theorem State.opSettled_fixed (s : State) (d t c : Nat) (count : BitVec 64) :
    (State.opSettled s d t c count).fixed = s.fixed := by
  unfold State.opSettled
  repeat' first
    | lift_lets -underBinder
    | (intro x; clear_value x)
    | with_reducible apply kite
    | intro _
    | (simp; done)
    | (split <;> (try (rename_i heq; first | (refine kU1 s.fixed heq ?_ ?_; (on_goal 1 => clear heq); (on_goal 2 => intro hx)) | (refine kU2 s.fixed heq ?_ ?_; (on_goal 1 => clear heq); (on_goal 2 => intro hx)) | (refine kI s.fixed _ (takePacket_fixed heq) ?_; intro hx))))

@[simp] theorem State.nestedFault_fixed (s : State) (d t : Nat) (u : SlotUse) (code off : Nat) :
    (State.nestedFault s d t u code off).fixed = s.fixed := by
  unfold State.nestedFault
  repeat' first
    | lift_lets -underBinder
    | (intro x; clear_value x)
    | (simp; done)
    | (split <;> (try (rename_i heq; first | (refine kU1 s.fixed heq ?_ ?_; (on_goal 1 => clear heq); (on_goal 2 => intro hx)) | (refine kU2 s.fixed heq ?_ ?_; (on_goal 1 => clear heq); (on_goal 2 => intro hx)) | (refine kI s.fixed _ (takePacket_fixed heq) ?_; intro hx))))

@[simp] theorem State.copyOn_fixed (s : State) (d t k c : Nat) (u : SlotUse) (o : AccOp) (g : Seg) (data : List Byte) :
    (State.copyOn s d t k c u o g data).fixed = s.fixed := by
  unfold State.copyOn
  repeat' first
    | lift_lets -underBinder
    | (intro (x : State); refine kI (x := x) s.fixed _ ?_ ?_; (on_goal 1 => subst x); (on_goal 2 => (intro hx; clear_value x)))
    | (intro x; clear_value x)
    | (simp; done)
    | (split <;> (try (rename_i heq; first | (refine kU1 s.fixed heq ?_ ?_; (on_goal 1 => clear heq); (on_goal 2 => intro hx)) | (refine kU2 s.fixed heq ?_ ?_; (on_goal 1 => clear heq); (on_goal 2 => intro hx)) | (refine kI s.fixed _ (takePacket_fixed heq) ?_; intro hx))))
    | (simp [*]; done)

@[simp] theorem State.slotDone_fixed (s : State) (d t k c : Nat) (u : SlotUse) (data : List Byte) (code : Nat) :
    (State.slotDone s d t k c u data code).fixed = s.fixed := by
  unfold State.slotDone
  repeat' first
    | lift_lets -underBinder
    | (intro (x : State); refine kI (x := x) s.fixed _ ?_ ?_; (on_goal 1 => subst x); (on_goal 2 => (intro hx; clear_value x)))
    | (intro x; clear_value x)
    | with_reducible apply kite
    | intro _
    | (simp; done)
    | (split <;> (try (rename_i heq; first | (refine kU1 s.fixed heq ?_ ?_; (on_goal 1 => clear heq); (on_goal 2 => intro hx)) | (refine kU2 s.fixed heq ?_ ?_; (on_goal 1 => clear heq); (on_goal 2 => intro hx)) | (refine kI s.fixed _ (takePacket_fixed heq) ?_; intro hx))))
    | (simp [*]; done)

@[simp] theorem State.serveSlot_fixed (s : State) (u : SlotUse) (a : Nat) :
    (State.serveSlot s u a).1.fixed = s.fixed := by
  unfold State.serveSlot
  repeat' first
    | with_reducible assumption
    | lift_lets -underBinder
    | with_reducible apply kite1
    | intro _
    | (simp; done)
    | (split <;> (try (rename_i heq; first | (refine kU1 s.fixed heq ?_ ?_; (on_goal 1 => clear heq); (on_goal 2 => intro hx)) | (refine kU2 s.fixed heq ?_ ?_; (on_goal 1 => clear heq); (on_goal 2 => intro hx)) | (refine kI s.fixed _ (takePacket_fixed heq) ?_; intro hx))))

@[simp] theorem State.slotAnswer_fixed (s : State) (d : Fin 32) (t : Fin 144) (slot c : Nat) (u : SlotUse) :
    (s.slotAnswer d t slot c u).fixed = s.fixed := by
  unfold State.slotAnswer
  split
  · extract_lets f v
    have hv : v.fixed = s.fixed := by simp [v, f]
    split
    · simp [hv]
    · split <;> simp [hv]
  · split
    · rfl
    · split
      · split
        · split
          · split
            rename_i heq
            refine kU1 s.fixed heq (State.serveSlot_fixed ..) ?_
            intro h
            simp [h]
          · rfl
        · split
          · split
            rename_i heq
            refine kU1 s.fixed heq (State.serveSlot_fixed ..) ?_
            intro h
            simp [h]
          · rfl
        · rfl
      · rfl

@[simp] theorem execAccessResponse_fixed (d : Fin 32) (t : Fin 144) (slot : Timed Nat) (s : State) :
    Out.fixes (execAccessResponse d t slot s) s.fixed := by
  unfold execAccessResponse
  split
  · rfl
  split
  · apply State.ownEvent_fixed
    intro s
    simp
  · rfl

@[simp] theorem execRequestRetryResend_fixed (d : Fin 32) (t : Fin 144) (slot : Nat) (s : State) :
    Out.fixes (execRequestRetryResend d t slot s) s.fixed := by
  unfold execRequestRetryResend
  repeat' first
    | lift_lets -underBinder
    | with_reducible refine (Out.fixes_next _ _).mpr ?_
    | with_reducible apply kiteO
    | intro _
    | (simp; done)
    | (split <;> (try (rename_i heq; first | (refine kU1 s.fixed heq ?_ ?_; (on_goal 1 => clear heq); (on_goal 2 => intro hx)) | (refine kU2 s.fixed heq ?_ ?_; (on_goal 1 => clear heq); (on_goal 2 => intro hx)) | (refine kI s.fixed _ (takePacket_fixed heq) ?_; intro hx))))

@[simp] theorem State.meshServe_fixed (s : State) (r : MemReq) (bad : Option Nat) :
    (State.meshServe s r bad).fixed = s.fixed := by
  unfold State.meshServe
  repeat' first
    | lift_lets -underBinder
    | (intro (x : State); refine kI (x := x) s.fixed _ ?_ ?_; (on_goal 1 => subst x); (on_goal 2 => (intro hx; clear_value x)))
    | (intro x; clear_value x)
    | with_reducible apply kite
    | intro _
    | (simp; done)
    | (split <;> (try (rename_i heq; first | (refine kU1 s.fixed heq ?_ ?_; (on_goal 1 => clear heq); (on_goal 2 => intro hx)) | (refine kU2 s.fixed heq ?_ ?_; (on_goal 1 => clear heq); (on_goal 2 => intro hx)) | (refine kI s.fixed _ (takePacket_fixed heq) ?_; intro hx))))
    | (simp [*]; done)

@[simp] theorem execMeshSramRequest_fixed (d : Fin 32) (t : Fin 144) (x : MeshReq) (s : State) :
    Out.fixes (execMeshSramRequest d t x s) s.fixed := by
  unfold execMeshSramRequest
  repeat' first
    | lift_lets -underBinder
    | with_reducible refine (Out.fixes_next _ _).mpr ?_
    | (intro (x : State); refine kI (x := x) s.fixed _ ?_ ?_; (on_goal 1 => subst x); (on_goal 2 => (intro hx; clear_value x)))
    | with_reducible apply kiteO
    | intro _
    | (simp; done)
    | (split <;> (try (rename_i heq; first | (refine kU1 s.fixed heq ?_ ?_; (on_goal 1 => clear heq); (on_goal 2 => intro hx)) | (refine kU2 s.fixed heq ?_ ?_; (on_goal 1 => clear heq); (on_goal 2 => intro hx)) | (refine kI s.fixed _ (takePacket_fixed heq) ?_; intro hx))))
    | (simp [*]; done)

@[simp] theorem State.setAlm_fixed (s : State) (a : Almanac) :
    (State.setAlm s a).fixed = s.fixed := by
  unfold State.setAlm
  repeat' first
    | (simp; done)

@[simp] theorem State.setCopies_fixed (s : State) (f : Nat → AlmCopy → AlmCopy) :
    (State.setCopies s f).fixed = s.fixed := by
  unfold State.setCopies
  repeat' first
    | lift_lets -underBinder
    | (intro x; clear_value x)
    | (simp; done)

@[simp] theorem State.copyAlm_fixed (s : State) :
    (State.copyAlm s).fixed = s.fixed := by
  unfold State.copyAlm
  repeat' first
    | lift_lets -underBinder
    | (intro x; clear_value x)
    | with_reducible (refine kfold ?_ ?_; (on_goal 2 => intro s _))
    | (simp; done)

@[simp] theorem execAlmCfgApply_fixed (s : State) :
    Out.fixes (execAlmCfgApply s) s.fixed := by
  unfold execAlmCfgApply
  repeat' first
    | lift_lets -underBinder
    | with_reducible refine (Out.fixes_next _ _).mpr ?_
    | (intro x; clear_value x)
    | with_reducible apply kiteO
    | intro _
    | (simp; done)

@[simp] theorem State.sendBeat_fixed (s : State) (child : Nat) (hops b depart : Nat) :
    (State.sendBeat s child hops b depart).fixed = s.fixed := by
  unfold State.sendBeat
  repeat' first
    | lift_lets -underBinder
    | (intro x; clear_value x)
    | with_reducible apply kite
    | intro _
    | (simp; done)

@[simp] theorem State.sendBeats_fixed (s : State) (hops b depart : Nat) :
    (State.sendBeats s hops b depart).fixed = s.fixed := by
  unfold State.sendBeats
  repeat' first
    | lift_lets -underBinder
    | with_reducible (refine kfold ?_ ?_; (on_goal 2 => intro s _))
    | (simp; done)

@[simp] theorem execBeatSend_fixed (depart : BitVec 48) (s : State) :
    Out.fixes (execBeatSend depart s) s.fixed := by
  unfold execBeatSend
  repeat' first
    | lift_lets -underBinder
    | with_reducible refine (Out.fixes_next _ _).mpr ?_
    | (intro x; clear_value x)
    | with_reducible apply kiteO
    | intro _
    | (simp; done)

@[simp] theorem State.discipline_fixed (s : State) (p : Nat) (k : Packet) (beat phase : Nat) :
    (State.discipline s p k beat phase).fixed = s.fixed := by
  unfold State.discipline
  repeat' first
    | with_reducible assumption
    | lift_lets -underBinder
    | (intro (x : State); refine kI (x := x) s.fixed _ ?_ ?_; (on_goal 1 => subst x); (on_goal 2 => (intro hx; clear_value x)))
    | (intro x; clear_value x)
    | with_reducible apply kite
    | intro _
    | (simp; done)
    | (simp [*]; done)

@[simp] theorem execBeat_fixed (p : Fin 12) (k : Packet) (phase : BitVec 12) (depart : BitVec 48) (s : State) :
    Out.fixes (execBeat p k phase depart s) s.fixed := by
  unfold execBeat
  repeat' first
    | lift_lets -underBinder
    | with_reducible refine (Out.fixes_next _ _).mpr ?_
    | with_reducible apply kiteO
    | intro _
    | (simp; done)
    | (split <;> (try (rename_i heq; first | (refine kU1 s.fixed heq ?_ ?_; (on_goal 1 => clear heq); (on_goal 2 => intro hx)) | (refine kU2 s.fixed heq ?_ ?_; (on_goal 1 => clear heq); (on_goal 2 => intro hx)) | (refine kI s.fixed _ (takePacket_fixed heq) ?_; intro hx))))

@[simp] theorem execAlmSyncLost_fixed (s : State) :
    Out.fixes (execAlmSyncLost s) s.fixed := by
  unfold execAlmSyncLost
  repeat' first
    | lift_lets -underBinder
    | with_reducible refine (Out.fixes_next _ _).mpr ?_
    | (intro (x : State); refine kI (x := x) s.fixed _ ?_ ?_; (on_goal 1 => subst x); (on_goal 2 => (intro hx; clear_value x)))
    | (intro x; clear_value x)
    | with_reducible apply kiteO
    | intro _
    | (simp; done)
    | (simp [*]; done)

@[simp] theorem execAlmRefLost_fixed (s : State) :
    Out.fixes (execAlmRefLost s) s.fixed := by
  unfold execAlmRefLost
  repeat' first
    | lift_lets -underBinder
    | with_reducible refine (Out.fixes_next _ _).mpr ?_
    | (intro (x : State); refine kI (x := x) s.fixed _ ?_ ?_; (on_goal 1 => subst x); (on_goal 2 => (intro hx; clear_value x)))
    | (intro x; clear_value x)
    | with_reducible apply kiteO
    | intro _
    | (simp; done)
    | (simp [*]; done)

@[simp] theorem execAlmRefReturn_fixed (s : State) :
    Out.fixes (execAlmRefReturn s) s.fixed := by
  unfold execAlmRefReturn
  repeat' first
    | lift_lets -underBinder
    | with_reducible refine (Out.fixes_next _ _).mpr ?_
    | (intro x; clear_value x)
    | with_reducible apply kiteO
    | intro _
    | (simp; done)

@[simp] theorem execAlmPpsEdge_fixed (e : PpsEdge) (s : State) :
    Out.fixes (execAlmPpsEdge e s) s.fixed := by
  unfold execAlmPpsEdge
  repeat' first
    | lift_lets -underBinder
    | with_reducible refine (Out.fixes_next _ _).mpr ?_
    | (intro x; clear_value x)
    | with_reducible apply kiteO
    | intro _
    | (simp; done)

@[simp] theorem execAlmPpsLost_fixed (s : State) :
    Out.fixes (execAlmPpsLost s) s.fixed := by
  unfold execAlmPpsLost
  repeat' first
    | lift_lets -underBinder
    | with_reducible refine (Out.fixes_next _ _).mpr ?_
    | (intro x; clear_value x)
    | with_reducible apply kiteO
    | intro _
    | (simp; done)

@[simp] theorem execAlmCfg_fixed (cid : Nat) (s : State) :
    Out.fixes (execAlmCfg cid s) s.fixed := by
  unfold execAlmCfg
  repeat' first
    | lift_lets -underBinder
    | (intro x; clear_value x)
    | (with_reducible apply State.withCmd_fixed; intro s _)
    | (simp; done)

@[simp] theorem execAlmSeasonStart_fixed (cid : Nat) (s : State) :
    Out.fixes (execAlmSeasonStart cid s) s.fixed := by
  unfold execAlmSeasonStart
  repeat' first
    | lift_lets -underBinder
    | (intro x; clear_value x)
    | (with_reducible apply State.withCmd_fixed; intro s _)
    | (simp; done)

@[simp] theorem State.dropEarly_fixed (s : State) :
    (State.dropEarly s).fixed = s.fixed := by
  unfold State.dropEarly
  repeat' first
    | lift_lets -underBinder
    | (intro (x : State); refine kI (x := x) s.fixed _ ?_ ?_; (on_goal 1 => subst x); (on_goal 2 => (intro hx; clear_value x)))
    | (intro x; clear_value x)
    | with_reducible (refine kfold ?_ ?_; (on_goal 2 => intro s _))
    | (simp; done)
    | (simp [*]; done)

@[simp] theorem State.enterSeason_fixed (s : State) (p : SeasonPending) :
    (State.enterSeason s p).fixed = s.fixed := by
  unfold State.enterSeason
  repeat' first
    | lift_lets -underBinder
    | (intro (x : State); refine kI (x := x) s.fixed _ ?_ ?_; (on_goal 1 => subst x); (on_goal 2 => (intro hx; clear_value x)))
    | (intro x; clear_value x)
    | (simp; done)
    | (simp [*]; done)

@[simp] theorem execSeasonStartBoundary_fixed (s : State) :
    Out.fixes (execSeasonStartBoundary s) s.fixed := by
  unfold execSeasonStartBoundary
  repeat' first
    | lift_lets -underBinder
    | with_reducible refine (Out.fixes_next _ _).mpr ?_
    | (intro (x : State); refine kI (x := x) s.fixed _ ?_ ?_; (on_goal 1 => subst x); (on_goal 2 => (intro hx; clear_value x)))
    | (intro x; clear_value x)
    | with_reducible apply kiteO
    | intro _
    | (simp; done)
    | (split <;> (try (rename_i heq; first | (refine kU1 s.fixed heq ?_ ?_; (on_goal 1 => clear heq); (on_goal 2 => intro hx)) | (refine kU2 s.fixed heq ?_ ?_; (on_goal 1 => clear heq); (on_goal 2 => intro hx)) | (refine kI s.fixed _ (takePacket_fixed heq) ?_; intro hx))))
    | (simp [*]; done)

@[simp] theorem execGleanWindowEdge_fixed (i : Nat) (s : State) :
    Out.fixes (execGleanWindowEdge i s) s.fixed := by
  unfold execGleanWindowEdge
  repeat' first
    | lift_lets -underBinder
    | with_reducible refine (Out.fixes_next _ _).mpr ?_
    | (intro x; clear_value x)
    | with_reducible apply kiteO
    | intro _
    | (simp; done)
    | (split <;> (try (rename_i heq; first | (refine kU1 s.fixed heq ?_ ?_; (on_goal 1 => clear heq); (on_goal 2 => intro hx)) | (refine kU2 s.fixed heq ?_ ?_; (on_goal 1 => clear heq); (on_goal 2 => intro hx)) | (refine kI s.fixed _ (takePacket_fixed heq) ?_; intro hx))))

@[simp] theorem State.applyTorusCfg_fixed (s : State) (c : Cmd) :
    (State.applyTorusCfg s c).fixed = s.fixed := by
  unfold State.applyTorusCfg
  repeat' first
    | with_reducible assumption
    | lift_lets -underBinder
    | (intro (x : State); refine kI (x := x) s.fixed _ ?_ ?_; (on_goal 1 => subst x); (on_goal 2 => (intro hx; clear_value x)))
    | (intro x; clear_value x)
    | with_reducible (refine kfold ?_ ?_; (on_goal 2 => intro s _))
    | with_reducible apply kite
    | intro _
    | (simp; done)

@[simp] theorem execTorusCfg_fixed (cid : Nat) (s : State) :
    Out.fixes (execTorusCfg cid s) s.fixed := by
  unfold execTorusCfg
  repeat' first
    | lift_lets -underBinder
    | (with_reducible apply State.withCmd_fixed; intro s _)
    | with_reducible apply kite
    | intro _
    | (simp; done)

@[simp] theorem State.applyRouteSet_fixed (s : State) (c : Cmd) :
    (State.applyRouteSet s c).1.fixed = s.fixed := by
  unfold State.applyRouteSet
  repeat' first
    | with_reducible assumption
    | lift_lets -underBinder
    | (intro x; clear_value x)
    | (simp; done)
    | (split <;> (try (rename_i heq; first | (refine kU1 s.fixed heq ?_ ?_; (on_goal 1 => clear heq); (on_goal 2 => intro hx)) | (refine kU2 s.fixed heq ?_ ?_; (on_goal 1 => clear heq); (on_goal 2 => intro hx)) | (refine kI s.fixed _ (takePacket_fixed heq) ?_; intro hx))))
    | (simp [*]; done)

@[simp] theorem execRouteSet_fixed (cid : Nat) (s : State) :
    Out.fixes (execRouteSet cid s) s.fixed := by
  unfold execRouteSet
  repeat' first
    | lift_lets -underBinder
    | (with_reducible apply State.withCmd_fixed; intro s _)
    | (simp; done)

@[simp] theorem State.linkAction_fixed (s : State) (action p : Nat) :
    (State.linkAction s action p).fixed = s.fixed := by
  unfold State.linkAction
  repeat' first
    | lift_lets -underBinder
    | (intro x; clear_value x)
    | with_reducible apply kite
    | intro _
    | (simp; done)

@[simp] theorem execLinkCtrl_fixed (cid : Nat) (s : State) :
    Out.fixes (execLinkCtrl cid s) s.fixed := by
  unfold execLinkCtrl
  repeat' first
    | lift_lets -underBinder
    | (intro (x : State); refine kI (x := x) s.fixed _ ?_ ?_; (on_goal 1 => subst x); (on_goal 2 => (intro hx; clear_value x)))
    | with_reducible (refine kfold ?_ ?_; (on_goal 2 => intro s _))
    | (with_reducible apply State.withCmd_fixed; intro s _)
    | (simp; done)
    | (simp [*]; done)

@[simp] theorem State.applyMemMode_fixed (s : State) (c : Cmd) :
    (State.applyMemMode s c).fixed = s.fixed := by
  unfold State.applyMemMode
  repeat' first
    | with_reducible assumption
    | lift_lets -underBinder
    | (intro (x : State); refine kI (x := x) s.fixed _ ?_ ?_; (on_goal 1 => subst x); (on_goal 2 => (intro hx; clear_value x)))
    | (intro x; clear_value x)
    | with_reducible (refine kfold ?_ ?_; (on_goal 2 => intro s _))
    | with_reducible apply kite
    | intro _
    | (simp; done)
    | (simp [*]; done)

@[simp] theorem execMemMode_fixed (cid : Nat) (s : State) :
    Out.fixes (execMemMode cid s) s.fixed := by
  unfold execMemMode
  repeat' first
    | lift_lets -underBinder
    | (with_reducible apply State.withCmd_fixed; intro s _)
    | with_reducible apply kite
    | intro _
    | (simp; done)

@[simp] theorem State.hardRepair_fixed (s : State) (k : Nat) :
    (State.hardRepair s k).fixed = s.fixed := by
  unfold State.hardRepair
  repeat' first
    | lift_lets -underBinder
    | (intro (x : State); refine kI (x := x) s.fixed _ ?_ ?_; (on_goal 1 => subst x); (on_goal 2 => (intro hx; clear_value x)))
    | (intro x; clear_value x)
    | with_reducible (refine kfold ?_ ?_; (on_goal 2 => intro s _))
    | (simp; done)
    | (simp [*]; done)

@[simp] theorem execHbmRepair_fixed (cid : Nat) (s : State) :
    Out.fixes (execHbmRepair cid s) s.fixed := by
  unfold execHbmRepair
  repeat' first
    | lift_lets -underBinder
    | (intro (x : State); refine kI (x := x) s.fixed _ ?_ ?_; (on_goal 1 => subst x); (on_goal 2 => (intro hx; clear_value x)))
    | (intro x; clear_value x)
    | (with_reducible apply State.withCmd_fixed; intro s _)
    | (with_reducible apply State.oneDie_fixed; intro s _)
    | (simp; done)
    | (split <;> (try (rename_i heq; first | (refine kU1 s.fixed heq ?_ ?_; (on_goal 1 => clear heq); (on_goal 2 => intro hx)) | (refine kU2 s.fixed heq ?_ ?_; (on_goal 1 => clear heq); (on_goal 2 => intro hx)) | (refine kI s.fixed _ (takePacket_fixed heq) ?_; intro hx))))
    | (simp [*]; done)

@[simp] theorem State.setService_fixed (s : State) (k : Nat) (out : Bool) :
    (State.setService s k out).fixed = s.fixed := by
  unfold State.setService
  repeat' first
    | lift_lets -underBinder
    | (intro x; clear_value x)
    | (simp; done)

@[simp] theorem State.marginResult_fixed (s : State) (c : Cmd) (records : List (BitVec 32)) :
    (State.marginResult s c records).fixed = s.fixed := by
  unfold State.marginResult
  repeat' first
    | lift_lets -underBinder
    | (intro x; clear_value x)
    | (simp; done)

@[simp] theorem execHbmMargin_fixed (cid : Nat) (records : List (BitVec 32)) (s : State) :
    Out.fixes (execHbmMargin cid records s) s.fixed := by
  unfold execHbmMargin
  repeat' first
    | lift_lets -underBinder
    | with_reducible refine (Out.fixes_next _ _).mpr ?_
    | (with_reducible apply State.withCmd_fixed; intro s _)
    | (with_reducible apply State.oneDie_fixed; intro s _)
    | with_reducible apply kiteO
    | intro _
    | (simp; done)
    | (split <;> (try (rename_i heq; first | (refine kU1 s.fixed heq ?_ ?_; (on_goal 1 => clear heq); (on_goal 2 => intro hx)) | (refine kU2 s.fixed heq ?_ ?_; (on_goal 1 => clear heq); (on_goal 2 => intro hx)) | (refine kI s.fixed _ (takePacket_fixed heq) ?_; intro hx))))

@[simp] theorem execEccInject_fixed (cid : Nat) (s : State) :
    Out.fixes (execEccInject cid s) s.fixed := by
  unfold execEccInject
  repeat' first
    | lift_lets -underBinder
    | (intro x; clear_value x)
    | (with_reducible apply State.withCmd_fixed; intro s _)
    | (with_reducible apply State.oneDie_fixed; intro s _)
    | with_reducible apply kite
    | intro _
    | (simp; done)

@[simp] theorem State.loseRequest_fixed (s : State) (who : Requester) :
    (State.loseRequest s who).fixed = s.fixed := by
  unfold State.loseRequest
  repeat' first
    | with_reducible assumption
    | lift_lets -underBinder
    | (intro (x : State); refine kI (x := x) s.fixed _ ?_ ?_; (on_goal 1 => subst x); (on_goal 2 => (intro hx; clear_value x)))
    | (intro x; clear_value x)
    | with_reducible apply kite
    | intro _
    | (simp; done)
    | (split <;> (try (rename_i heq; first | (refine kU1 s.fixed heq ?_ ?_; (on_goal 1 => clear heq); (on_goal 2 => intro hx)) | (refine kU2 s.fixed heq ?_ ?_; (on_goal 1 => clear heq); (on_goal 2 => intro hx)) | (refine kI s.fixed _ (takePacket_fixed heq) ?_; intro hx))))
    | (simp [*]; done)

@[simp] theorem State.losePacket_fixed (s : State) (k : Packet) :
    (State.losePacket s k).fixed = s.fixed := by
  unfold State.losePacket
  repeat' first
    | with_reducible assumption
    | lift_lets -underBinder
    | (intro (x : State); refine kI (x := x) s.fixed _ ?_ ?_; (on_goal 1 => subst x); (on_goal 2 => (intro hx; clear_value x)))
    | (intro x; clear_value x)
    | with_reducible apply kite
    | intro _
    | (simp; done)
    | (split <;> (try (rename_i heq; first | (refine kU1 s.fixed heq ?_ ?_; (on_goal 1 => clear heq); (on_goal 2 => intro hx)) | (refine kU2 s.fixed heq ?_ ?_; (on_goal 1 => clear heq); (on_goal 2 => intro hx)) | (refine kI s.fixed _ (takePacket_fixed heq) ?_; intro hx))))
    | (simp [*]; done)

@[simp] theorem State.loseHeld_fixed (s : State) (h : Held) :
    (State.loseHeld s h).fixed = s.fixed := by
  unfold State.loseHeld
  repeat' first
    | with_reducible assumption
    | lift_lets -underBinder
    | (intro (x : State); refine kI (x := x) s.fixed _ ?_ ?_; (on_goal 1 => subst x); (on_goal 2 => (intro hx; clear_value x)))
    | (intro x; clear_value x)
    | with_reducible apply kite
    | intro _
    | (simp; done)
    | (split <;> (try (rename_i heq; first | (refine kU1 s.fixed heq ?_ ?_; (on_goal 1 => clear heq); (on_goal 2 => intro hx)) | (refine kU2 s.fixed heq ?_ ?_; (on_goal 1 => clear heq); (on_goal 2 => intro hx)) | (refine kI s.fixed _ (takePacket_fixed heq) ?_; intro hx))))
    | (simp [*]; done)

@[simp] theorem State.fenceEdge_fixed (s : State) (e : Edge) (held : List Held) :
    (State.fenceEdge s e held).fixed = s.fixed := by
  unfold State.fenceEdge
  repeat' first
    | with_reducible assumption
    | lift_lets -underBinder
    | (intro (x : State); refine kI (x := x) s.fixed _ ?_ ?_; (on_goal 1 => subst x); (on_goal 2 => (intro hx; clear_value x)))
    | (intro x; clear_value x)
    | with_reducible (refine kfold ?_ ?_; (on_goal 2 => intro s _))
    | (simp; done)
    | (simp [*]; done)

@[simp] theorem execDieFabricFlit_fixed (e : Edge) (good : Bool) (held : List Held) (s : State) :
    Out.fixes (execDieFabricFlit e good held s) s.fixed := by
  unfold execDieFabricFlit
  repeat' first
    | lift_lets -underBinder
    | with_reducible refine (Out.fixes_next _ _).mpr ?_
    | (intro x; clear_value x)
    | with_reducible apply kiteO
    | intro _
    | (simp; done)

@[simp] theorem State.setSite_fixed (s : State) (k : Nat) (st : BitVec 2) (cd : BitVec 5) :
    (State.setSite s k st cd).fixed = s.fixed := by
  unfold State.setSite
  repeat' first
    | lift_lets -underBinder
    | (intro x; clear_value x)
    | with_reducible apply kite
    | intro _
    | (simp; done)

@[simp] theorem State.fenceLd_fixed (s : State) (l : Nat) :
    (State.fenceLd s l).fixed = s.fixed := by
  unfold State.fenceLd
  repeat' first
    | lift_lets -underBinder
    | with_reducible (refine kfold ?_ ?_; (on_goal 2 => intro s _))
    | (simp; done)

@[simp] theorem State.dropTiles_fixed (s : State) (d : Nat) :
    (State.dropTiles s d).fixed = s.fixed := by
  unfold State.dropTiles
  repeat' first
    | lift_lets -underBinder
    | (intro x; clear_value x)
    | (simp; done)

@[simp] theorem State.dropRunning_fixed (s : State) (b : Nat) :
    (State.dropRunning s b).fixed = s.fixed := by
  unfold State.dropRunning
  repeat' first
    | lift_lets -underBinder
    | (intro (x : State); refine kI (x := x) s.fixed _ ?_ ?_; (on_goal 1 => subst x); (on_goal 2 => (intro hx; clear_value x)))
    | (intro x; clear_value x)
    | with_reducible apply kite
    | intro _
    | (simp; done)
    | (simp [*]; done)

@[simp] theorem State.retire_fixed (s : State) (b : Nat) :
    (State.retire s b).fixed = s.fixed := by
  unfold State.retire
  repeat' first
    | with_reducible assumption
    | lift_lets -underBinder
    | (intro (x : State); refine kI (x := x) s.fixed _ ?_ ?_; (on_goal 1 => subst x); (on_goal 2 => (intro hx; clear_value x)))
    | (intro x; clear_value x)
    | with_reducible apply kite
    | intro _
    | (simp; done)
    | (split <;> (try (rename_i heq; first | (refine kU1 s.fixed heq ?_ ?_; (on_goal 1 => clear heq); (on_goal 2 => intro hx)) | (refine kU2 s.fixed heq ?_ ?_; (on_goal 1 => clear heq); (on_goal 2 => intro hx)) | (refine kI s.fixed _ (takePacket_fixed heq) ?_; intro hx))))
    | (simp [*]; done)

@[simp] theorem State.adopt_fixed (s : State) (k cd : Nat) :
    (State.adopt s k cd).fixed = s.fixed := by
  unfold State.adopt
  repeat' first
    | lift_lets -underBinder
    | (intro (x : State); refine kI (x := x) s.fixed _ ?_ ?_; (on_goal 1 => subst x); (on_goal 2 => (intro hx; clear_value x)))
    | (intro x; clear_value x)
    | (simp; done)
    | (simp [*]; done)

@[simp] theorem execSpareAdopt_fixed (cid : Nat) (checkOk : Bool) (s : State) :
    Out.fixes (execSpareAdopt cid checkOk s) s.fixed := by
  unfold execSpareAdopt
  repeat' first
    | lift_lets -underBinder
    | (intro x; clear_value x)
    | (with_reducible apply State.withCmd_fixed; intro s _)
    | with_reducible apply kite
    | intro _
    | (simp; done)
    | (split <;> (try (rename_i heq; first | (refine kU1 s.fixed heq ?_ ?_; (on_goal 1 => clear heq); (on_goal 2 => intro hx)) | (refine kU2 s.fixed heq ?_ ?_; (on_goal 1 => clear heq); (on_goal 2 => intro hx)) | (refine kI s.fixed _ (takePacket_fixed heq) ?_; intro hx))))

@[simp] theorem execDieRetire_fixed (cid : Nat) (s : State) :
    Out.fixes (execDieRetire cid s) s.fixed := by
  unfold execDieRetire
  repeat' first
    | lift_lets -underBinder
    | (with_reducible apply State.withCmd_fixed; intro s _)
    | (simp; done)

@[simp] theorem State.routeChange_fixed (s : State) (c : Cmd) :
    (State.routeChange s c).1.fixed = s.fixed := by
  unfold State.routeChange
  repeat' first
    | lift_lets -underBinder
    | with_reducible apply kite1
    | intro _
    | (simp; done)
    | (split <;> (try (rename_i heq; first | (refine kU1 s.fixed heq ?_ ?_; (on_goal 1 => clear heq); (on_goal 2 => intro hx)) | (refine kU2 s.fixed heq ?_ ?_; (on_goal 1 => clear heq); (on_goal 2 => intro hx)) | (refine kI s.fixed _ (takePacket_fixed heq) ?_; intro hx))))

@[simp] theorem State.runtimeRetires_fixed (s : State) :
    (State.runtimeRetires s).fixed = s.fixed := by
  unfold State.runtimeRetires
  repeat' first
    | lift_lets -underBinder
    | with_reducible apply kite
    | intro _
    | (simp; done)
    | (split <;> (try (rename_i heq; first | (refine kU1 s.fixed heq ?_ ?_; (on_goal 1 => clear heq); (on_goal 2 => intro hx)) | (refine kU2 s.fixed heq ?_ ?_; (on_goal 1 => clear heq); (on_goal 2 => intro hx)) | (refine kI s.fixed _ (takePacket_fixed heq) ?_; intro hx))))

@[simp] theorem execRouteTableChange_fixed (cid : Nat) (s : State) :
    Out.fixes (execRouteTableChange cid s) s.fixed := by
  unfold execRouteTableChange
  repeat' first
    | lift_lets -underBinder
    | with_reducible refine (Out.fixes_next _ _).mpr ?_
    | with_reducible apply kiteO
    | intro _
    | (simp; done)
    | (split <;> (try (rename_i heq; first | (refine kU1 s.fixed heq ?_ ?_; (on_goal 1 => clear heq); (on_goal 2 => intro hx)) | (refine kU2 s.fixed heq ?_ ?_; (on_goal 1 => clear heq); (on_goal 2 => intro hx)) | (refine kI s.fixed _ (takePacket_fixed heq) ?_; intro hx))))

@[simp] theorem execRouteDrainTimeout_fixed (cid : Nat) (s : State) :
    Out.fixes (execRouteDrainTimeout cid s) s.fixed := by
  unfold execRouteDrainTimeout
  repeat' first
    | lift_lets -underBinder
    | with_reducible refine (Out.fixes_next _ _).mpr ?_
    | with_reducible apply kiteO
    | intro _
    | (simp; done)
    | (split <;> (try (rename_i heq; first | (refine kU1 s.fixed heq ?_ ?_; (on_goal 1 => clear heq); (on_goal 2 => intro hx)) | (refine kU2 s.fixed heq ?_ ?_; (on_goal 1 => clear heq); (on_goal 2 => intro hx)) | (refine kI s.fixed _ (takePacket_fixed heq) ?_; intro hx))))

end Sys2Proof.Machine
end

