-- ==== Sys2Proof/Laws/FrameDevice.lean ====
section
/-! SUPPORT. The queue, the fuse copies and a blow stay as they are: the steward, the warden and what is left of the tiles. -/
namespace Sys2Proof.Machine
set_option linter.all false
set_option Elab.async false
set_option maxRecDepth 4000

@[simp] theorem State.doorbell_fixed (s : State) (n : Nat) (v : BitVec 64) :
    (State.doorbell s n v).fixed = s.fixed := by
  unfold State.doorbell
  repeat' first
    | lift_lets -underBinder
    | (intro x; clear_value x)
    | with_reducible apply kite
    | intro _
    | (simp; done)

@[simp] theorem execSdDoorbell_fixed (ring : Fin 8) (value : BitVec 64) (s : State) :
    Out.fixes (execSdDoorbell ring value s) s.fixed := by
  unfold execSdDoorbell
  repeat' first
    | lift_lets -underBinder
    | with_reducible refine (Out.fixes_next _ _).mpr ?_
    | with_reducible apply kite
    | intro _
    | (simp; done)

@[simp] theorem State.ringCfg_fixed (s : State) (n : Nat) (v : BitVec 64) :
    (State.ringCfg s n v).fixed = s.fixed := by
  unfold State.ringCfg
  repeat' first
    | (simp; done)

@[simp] theorem execRingEnable_fixed (ring : Fin 8) (value : BitVec 64) (s : State) :
    Out.fixes (execRingEnable ring value s) s.fixed := by
  unfold execRingEnable
  repeat' first
    | lift_lets -underBinder
    | with_reducible refine (Out.fixes_next _ _).mpr ?_
    | with_reducible apply kite
    | intro _
    | (simp; done)

@[simp] theorem State.writeRing_fixed (s : State) (n off : Nat) (v : BitVec 64) :
    (State.writeRing s n off v).fixed = s.fixed := by
  unfold State.writeRing
  repeat' first
    | lift_lets -underBinder
    | (intro x; clear_value x)
    | with_reducible apply kite
    | intro _
    | (simp; done)
    | (split <;> (try (rename_i heq; first | (refine kU1 s.fixed heq ?_ ?_; (on_goal 1 => clear heq); (on_goal 2 => intro hx)) | (refine kU2 s.fixed heq ?_ ?_; (on_goal 1 => clear heq); (on_goal 2 => intro hx)) | (refine kI s.fixed _ (takePacket_fixed heq) ?_; intro hx))))

@[simp] theorem State.setBoot_fixed (s : State) (st : Nat) :
    (State.setBoot s st).fixed = s.fixed := by
  unfold State.setBoot
  repeat' first
    | lift_lets -underBinder
    | (intro x; clear_value x)
    | with_reducible apply kite
    | intro _
    | (simp; done)

@[simp] theorem State.loadFails_fixed (s : State) (result : Nat) :
    (State.loadFails s result).fixed = s.fixed := by
  unfold State.loadFails
  repeat' first
    | lift_lets -underBinder
    | (intro (x : State); refine kI (x := x) s.fixed _ ?_ ?_; (on_goal 1 => subst x); (on_goal 2 => (intro hx; clear_value x)))
    | (intro x; clear_value x)
    | (simp; done)
    | (simp [*]; done)

@[simp] theorem State.holdDies_fixed (s : State) (l : List Nat) :
    (State.holdDies s l).fixed = s.fixed := by
  unfold State.holdDies
  repeat' first
    | lift_lets -underBinder
    | (intro x; clear_value x)
    | with_reducible (refine kfold ?_ ?_; (on_goal 2 => intro s _))
    | (simp; done)

@[simp] theorem State.letGo_fixed (s : State) :
    (State.letGo s).fixed = s.fixed := by
  unfold State.letGo
  repeat' first
    | lift_lets -underBinder
    | (intro x; clear_value x)
    | with_reducible (refine kfold ?_ ?_; (on_goal 2 => intro s _))
    | (simp; done)

@[simp] theorem State.bootCtrl_fixed (s : State) (v : BitVec 64) : (s.bootCtrl v).fixed = s.fixed := by
  unfold State.bootCtrl
  extract_lets d t b u result h digest v
  have ht : t.fixed = s.fixed := rfl
  have hu : u.fixed = s.fixed := by simp [u, ht]
  have hl : v.fixed = s.fixed := by simp [v, hu]
  clear_value t u v
  split
  · split
    · rw [fixed_mk]
      exact fixed_join (t := v) hl hu
    · simp [hu]
  · exact ht

@[simp] theorem execSdBootGo_fixed (value : BitVec 64) (s : State) :
    Out.fixes (execSdBootGo value s) s.fixed := by
  unfold execSdBootGo
  repeat' first
    | lift_lets -underBinder
    | with_reducible refine (Out.fixes_next _ _).mpr ?_
    | with_reducible apply kite
    | intro _
    | (simp; done)

@[simp] theorem State.cbrkWrite_fixed (s : State) (v : BitVec 64) :
    (State.cbrkWrite s v).fixed = s.fixed := by
  unfold State.cbrkWrite
  repeat' first
    | with_reducible assumption
    | lift_lets -underBinder
    | (intro (x : State); refine kI (x := x) s.fixed _ ?_ ?_; (on_goal 1 => subst x); (on_goal 2 => (intro hx; clear_value x)))
    | (intro x; clear_value x)
    | with_reducible apply kite
    | intro _
    | (simp; done)
    | (simp [*]; done)

@[simp] theorem execCbrkResume_fixed (value : BitVec 64) (s : State) :
    Out.fixes (execCbrkResume value s) s.fixed := by
  unfold execCbrkResume
  repeat' first
    | lift_lets -underBinder
    | with_reducible refine (Out.fixes_next _ _).mpr ?_
    | with_reducible apply kite
    | intro _
    | (simp; done)

@[simp] theorem State.writeBar0_fixed (s : State) (off : Nat) (v : BitVec 64) :
    (State.writeBar0 s off v).fixed = s.fixed := by
  unfold State.writeBar0
  repeat' first
    | lift_lets -underBinder
    | (intro (x : _ → State); refine kH (x := x) s.fixed _ ?_ ?_; (on_goal 1 => subst x; intro _; beta_reduce); (on_goal 2 => (intro hx; clear_value x)))
    | (intro x; clear_value x)
    | with_reducible apply kite
    | intro _
    | (simp; done)
    | (simp [*]; done)

@[simp] theorem State.barAnswer_fixed (s : State) (r : BarReply) :
    (State.barAnswer s r).fixed = s.fixed := by
  unfold State.barAnswer
  repeat' first
    | lift_lets -underBinder
    | (intro x; clear_value x)
    | (simp; done)

@[simp] theorem State.reopen_fixed (s : State) (off : Nat) :
    (State.reopen s off).fixed = s.fixed := by
  unfold State.reopen
  repeat' first
    | lift_lets -underBinder
    | (intro x; clear_value x)
    | with_reducible apply kite
    | intro _
    | (simp; done)

@[simp] theorem State.bar0_fixed (s : State) (write : Bool) (off len : Nat) (l : List Byte) :
    (State.bar0 s write off len l).fixed = s.fixed := by
  unfold State.bar0
  repeat' first
    | lift_lets -underBinder
    | (intro x; clear_value x)
    | with_reducible apply kite
    | intro _
    | (simp; done)

@[simp] theorem State.deny_fixed (s : State) (write : Bool) (a : Nat) :
    (State.deny s write a).fixed = s.fixed := by
  unfold State.deny
  repeat' first
    | lift_lets -underBinder
    | (intro (x : State); refine kI (x := x) s.fixed _ ?_ ?_; (on_goal 1 => subst x); (on_goal 2 => (intro hx; clear_value x)))
    | (simp; done)
    | (split <;> (try (rename_i heq; first | (refine kU1 s.fixed heq ?_ ?_; (on_goal 1 => clear heq); (on_goal 2 => intro hx)) | (refine kU2 s.fixed heq ?_ ?_; (on_goal 1 => clear heq); (on_goal 2 => intro hx)) | (refine kI s.fixed _ (takePacket_fixed heq) ?_; intro hx))))
    | (simp [*]; done)

@[simp] theorem State.barDone_fixed (s : State) :
    (State.barDone s).fixed = s.fixed := by
  unfold State.barDone
  repeat' first
    | (simp; done)

@[simp] theorem State.barAccess_fixed (s : State) (write : Bool) (a len : Nat) (l : List Byte) :
    (State.barAccess s write a len l).fixed = s.fixed := by
  unfold State.barAccess
  repeat' first
    | lift_lets -underBinder
    | (intro (x : State → _ → _ → State); refine kJ (x := x) _ ?_ ?_; (on_goal 1 => subst x; intro s _ _; beta_reduce); (on_goal 2 => (intro hx; clear_value x)))
    | with_reducible apply kite
    | intro _
    | (simp; done)
    | (split <;> (try (rename_i heq; first | (refine kU1 s.fixed heq ?_ ?_; (on_goal 1 => clear heq); (on_goal 2 => intro hx)) | (refine kU2 s.fixed heq ?_ ?_; (on_goal 1 => clear heq); (on_goal 2 => intro hx)) | (refine kI s.fixed _ (takePacket_fixed heq) ?_; intro hx))))
    | (simp [*]; done)

@[simp] theorem execHostBarAccess_fixed (bar : Fin 3) (write : Bool) (off : BitVec 34) (len : Nat) (data : List Byte) (s : State) :
    Out.fixes (execHostBarAccess bar write off len data s) s.fixed := by
  unfold execHostBarAccess
  repeat' first
    | lift_lets -underBinder
    | with_reducible refine (Out.fixes_next _ _).mpr ?_
    | (intro x; clear_value x)
    | with_reducible apply kiteO
    | intro _
    | (simp; done)

@[simp] theorem State.hostReset_fixed (s : State) :
    (State.hostReset s).fixed = s.fixed := by
  unfold State.hostReset
  repeat' first
    | lift_lets -underBinder
    | (intro x; clear_value x)
    | (simp; done)

@[simp] theorem execPcieHostReset_fixed (s : State) :
    Out.fixes (execPcieHostReset s) s.fixed := by
  unfold execPcieHostReset
  repeat' first
    | lift_lets -underBinder
    | with_reducible refine (Out.fixes_next _ _).mpr ?_
    | (simp; done)

@[simp] theorem execUcieFrame_fixed (m : Fin 9) (frame : UcieFrame) (s : State) :
    Out.fixes (execUcieFrame m frame s) s.fixed := by
  unfold execUcieFrame
  repeat' first
    | with_reducible assumption
    | lift_lets -underBinder
    | with_reducible refine (Out.fixes_next _ _).mpr ?_
    | (intro (x : State); refine kI (x := x) s.fixed _ ?_ ?_; (on_goal 1 => subst x); (on_goal 2 => (intro hx; clear_value x)))
    | (intro (x : State → _ → State); refine kG (x := x) _ ?_ ?_; (on_goal 1 => subst x; intro s _; beta_reduce); (on_goal 2 => (intro hx; clear_value x)))
    | (intro x; clear_value x)
    | with_reducible apply kiteO
    | intro _
    | (simp; done)
    | (simp [*]; done)

@[simp] theorem State.senseWord_fixed (s : State) (w : Nat) (r : FuseRead × FuseRead) :
    (State.senseWord s w r).fixed = s.fixed := by
  unfold State.senseWord
  repeat' first
    | lift_lets -underBinder
    | (intro (x : Fuses); subst x)
    | (intro (x : State); refine kI (x := x) s.fixed _ ?_ ?_; (on_goal 1 => subst x); (on_goal 2 => (intro hx; clear_value x)))
    | (intro (x : State → State); refine kF (x := x) _ ?_ ?_; (on_goal 1 => subst x; intro s; beta_reduce); (on_goal 2 => (intro hx; clear_value x)))
    | (intro (x : State → _ → State); refine kG (x := x) _ ?_ ?_; (on_goal 1 => subst x; intro s _; beta_reduce); (on_goal 2 => (intro hx; clear_value x)))
    | (intro x; clear_value x)
    | (simp; done)
    | (split <;> (try (rename_i heq; first | (refine kU1 s.fixed heq ?_ ?_; (on_goal 1 => clear heq); (on_goal 2 => intro hx)) | (refine kU2 s.fixed heq ?_ ?_; (on_goal 1 => clear heq); (on_goal 2 => intro hx)) | (refine kI s.fixed _ (takePacket_fixed heq) ?_; intro hx))))
    | (simp [*]; done)

@[simp] theorem State.senseFuses_fixed (s : State) (reads : List (FuseRead × FuseRead)) :
    (State.senseFuses s reads).fixed = s.fixed := by
  unfold State.senseFuses
  repeat' first
    | with_reducible assumption
    | lift_lets -underBinder
    | (intro (x : Fuses); subst x)
    | (intro (x : State); refine kI (x := x) s.fixed _ ?_ ?_; (on_goal 1 => subst x); (on_goal 2 => (intro hx; clear_value x)))
    | with_reducible (refine kfold ?_ ?_; (on_goal 2 => intro s _))
    | (simp; done)

@[simp] theorem State.shadowWords_fixed (s : State) (l : List (Nat × BitVec 32)) :
    (State.shadowWords s l).fixed = s.fixed := by
  unfold State.shadowWords
  repeat' first
    | lift_lets -underBinder
    | (intro (x : Fuses); subst x)
    | (simp; done)

@[simp] theorem execNopCommand_fixed (cid : Nat) (s : State) :
    Out.fixes (execNopCommand cid s) s.fixed := by
  unfold execNopCommand
  repeat' first
    | lift_lets -underBinder
    | (with_reducible apply State.withCmd_fixed; intro s _)
    | (simp; done)

@[simp] theorem State.writeEntry_fixed (s : State) (c : Cmd) (a : Nat) (v : BitVec 64) :
    (State.writeEntry s c a v).1.fixed = s.fixed := by
  unfold State.writeEntry
  repeat' first
    | lift_lets -underBinder
    | with_reducible apply kite1
    | intro _
    | (simp; done)
    | (split <;> (try (rename_i heq; first | (refine kU1 s.fixed heq ?_ ?_; (on_goal 1 => clear heq); (on_goal 2 => intro hx)) | (refine kU2 s.fixed heq ?_ ?_; (on_goal 1 => clear heq); (on_goal 2 => intro hx)) | (refine kI s.fixed _ (takePacket_fixed heq) ?_; intro hx))))

@[simp] theorem State.replyCount_fixed (x : State × Nat × Nat) (c : Cmd) :
    (State.replyCount x c).fixed = x.1.fixed := by simp [State.replyCount]

@[simp] theorem State.writeEntries_fixed (s : State) (c : Cmd) :
    (State.writeEntries s c).1.fixed = s.fixed := by
  unfold State.writeEntries
  repeat' first
    | lift_lets -underBinder
    | with_reducible (refine kfold1 ?_ ?_; (on_goal 2 => intro (s, _) _))
    | with_reducible apply kite1
    | intro _
    | (simp; done)

@[simp] theorem execRegWrite_fixed (cid : Nat) (s : State) :
    Out.fixes (execRegWrite cid s) s.fixed := by
  unfold execRegWrite
  repeat' first
    | lift_lets -underBinder
    | (with_reducible apply State.withCmd_fixed; intro s _)
    | (simp; done)

@[simp] theorem execRegRead_fixed (cid : Nat) (s : State) :
    Out.fixes (execRegRead cid s) s.fixed := by
  unfold execRegRead
  repeat' first
    | lift_lets -underBinder
    | (intro x; clear_value x)
    | (with_reducible apply State.withCmd_fixed; intro s _)
    | with_reducible apply kite
    | intro _
    | (simp; done)
    | (split <;> (try (rename_i heq; first | (refine kU1 s.fixed heq ?_ ?_; (on_goal 1 => clear heq); (on_goal 2 => intro hx)) | (refine kU2 s.fixed heq ?_ ?_; (on_goal 1 => clear heq); (on_goal 2 => intro hx)) | (refine kI s.fixed _ (takePacket_fixed heq) ?_; intro hx))))

@[simp] theorem State.eachTile_fixed (s : State) (d : Nat) (ts : List Nat) (f : State → Tile → Option Tile) :
    (State.eachTile s d ts f).1.fixed = s.fixed := by
  unfold State.eachTile
  repeat' first
    | with_reducible assumption
    | lift_lets -underBinder
    | with_reducible (refine kfold1 ?_ ?_; (on_goal 2 => intro (s, _) _))
    | (simp; done)
    | (split <;> (try (rename_i heq; first | (refine kU1 s.fixed heq ?_ ?_; (on_goal 1 => clear heq); (on_goal 2 => intro hx)) | (refine kU2 s.fixed heq ?_ ?_; (on_goal 1 => clear heq); (on_goal 2 => intro hx)) | (refine kI s.fixed _ (takePacket_fixed heq) ?_; intro hx))))
    | (simp [*]; done)

@[simp] theorem State.loadDie_fixed (s : State) (c : Cmd) (d : Nat) :
    (State.loadDie s c d).1.fixed = s.fixed := by
  unfold State.loadDie
  repeat' first
    | with_reducible assumption
    | lift_lets -underBinder
    | (intro x; clear_value x)
    | (simp; done)
    | (split <;> (try (rename_i heq; first | (refine kU1 s.fixed heq ?_ ?_; (on_goal 1 => clear heq); (on_goal 2 => intro hx)) | (refine kU2 s.fixed heq ?_ ?_; (on_goal 1 => clear heq); (on_goal 2 => intro hx)) | (refine kI s.fixed _ (takePacket_fixed heq) ?_; intro hx))))
    | (simp [*]; done)

@[simp] theorem execProgLoad_fixed (cid : Nat) (s : State) :
    Out.fixes (execProgLoad cid s) s.fixed := by
  unfold execProgLoad
  repeat' first
    | with_reducible assumption
    | lift_lets -underBinder
    | (intro x; clear_value x)
    | (with_reducible apply State.withCmd_fixed; intro s _)
    | (with_reducible apply State.eachDie_fixed; intro s _)
    | (simp; done)
    | (split <;> (try (rename_i heq; first | (refine kU1 s.fixed heq ?_ ?_; (on_goal 1 => clear heq); (on_goal 2 => intro hx)) | (refine kU2 s.fixed heq ?_ ?_; (on_goal 1 => clear heq); (on_goal 2 => intro hx)) | (refine kI s.fixed _ (takePacket_fixed heq) ?_; intro hx))))
    | (simp [*]; done)

@[simp] theorem State.runDie_fixed (s : State) (c : Cmd) (d : Nat) :
    (State.runDie s c d).1.fixed = s.fixed := by
  unfold State.runDie
  repeat' first
    | lift_lets -underBinder
    | (intro x; clear_value x)
    | (simp; done)

@[simp] theorem execRunStart_fixed (cid : Nat) (s : State) :
    Out.fixes (execRunStart cid s) s.fixed := by
  unfold execRunStart
  repeat' first
    | lift_lets -underBinder
    | (with_reducible apply State.withCmd_fixed; intro s _)
    | (simp; done)

@[simp] theorem State.ctrlDie_fixed (s : State) (c : Cmd) (d : Nat) :
    (State.ctrlDie s c d).1.fixed = s.fixed := by
  unfold State.ctrlDie
  repeat' first
    | lift_lets -underBinder
    | with_reducible (refine kfold1 ?_ ?_; (on_goal 2 => intro (s, _) _))
    | (simp; done)

@[simp] theorem execRunCtrl_fixed (cid : Nat) (s : State) :
    Out.fixes (execRunCtrl cid s) s.fixed := by
  unfold execRunCtrl
  repeat' first
    | lift_lets -underBinder
    | (with_reducible apply State.withCmd_fixed; intro s _)
    | (simp; done)

@[simp] theorem State.abortColl_fixed (s : State) (slot : Nat) :
    (State.abortColl s slot).fixed = s.fixed := by
  unfold State.abortColl
  repeat' first
    | lift_lets -underBinder
    | (intro (x : State); refine kI (x := x) s.fixed _ ?_ ?_; (on_goal 1 => subst x); (on_goal 2 => (intro hx; clear_value x)))
    | (intro x; clear_value x)
    | with_reducible (refine kfold ?_ ?_; (on_goal 2 => intro s _))
    | (simp; done)
    | (split <;> (try (rename_i heq; first | (refine kU1 s.fixed heq ?_ ?_; (on_goal 1 => clear heq); (on_goal 2 => intro hx)) | (refine kU2 s.fixed heq ?_ ?_; (on_goal 1 => clear heq); (on_goal 2 => intro hx)) | (refine kI s.fixed _ (takePacket_fixed heq) ?_; intro hx))))
    | (simp [*]; done)

@[simp] theorem State.abortRotate_fixed (s : State) :
    (State.abortRotate s).fixed = s.fixed := by
  unfold State.abortRotate
  repeat' first
    | lift_lets -underBinder
    | (intro x; clear_value x)
    | (simp; done)
    | (split <;> (try (rename_i heq; first | (refine kU1 s.fixed heq ?_ ?_; (on_goal 1 => clear heq); (on_goal 2 => intro hx)) | (refine kU2 s.fixed heq ?_ ?_; (on_goal 1 => clear heq); (on_goal 2 => intro hx)) | (refine kI s.fixed _ (takePacket_fixed heq) ?_; intro hx))))

@[simp] theorem State.abortAll_fixed (s : State) :
    (State.abortAll s).fixed = s.fixed := by
  unfold State.abortAll
  repeat' first
    | with_reducible assumption
    | lift_lets -underBinder
    | (intro (x : State); refine kI (x := x) s.fixed _ ?_ ?_; (on_goal 1 => subst x); (on_goal 2 => (intro hx; clear_value x)))
    | with_reducible (refine kfold ?_ ?_; (on_goal 2 => intro s _))
    | (simp; done)
    | (simp [*]; done)

@[simp] theorem execRunAbort_fixed (cid : Nat) (s : State) :
    Out.fixes (execRunAbort cid s) s.fixed := by
  unfold execRunAbort
  repeat' first
    | lift_lets -underBinder
    | (intro (x : State); refine kI (x := x) s.fixed _ ?_ ?_; (on_goal 1 => subst x); (on_goal 2 => (intro hx; clear_value x)))
    | (with_reducible apply State.withCmd_fixed; intro s _)
    | with_reducible apply kite
    | intro _
    | (simp; done)
    | (simp [*]; done)

@[simp] theorem State.dmaMove_fixed (s : State) (c : Cmd) (hostData : List Byte) :
    (State.dmaMove s c hostData).1.fixed = s.fixed := by
  unfold State.dmaMove
  repeat' first
    | with_reducible assumption
    | lift_lets -underBinder
    | (intro (x : State → _ → _ → _ → State × _); refine kL (x := x) _ ?_ ?_; (on_goal 1 => subst x; intro s _ _ _; beta_reduce); (on_goal 2 => (intro hx; clear_value x)))
    | (intro x; clear_value x)
    | with_reducible apply kite1
    | intro _
    | (simp; done)
    | (split <;> (try (rename_i heq; first | (refine kU1 s.fixed heq ?_ ?_; (on_goal 1 => clear heq); (on_goal 2 => intro hx)) | (refine kU2 s.fixed heq ?_ ?_; (on_goal 1 => clear heq); (on_goal 2 => intro hx)) | (refine kI s.fixed _ (takePacket_fixed heq) ?_; intro hx))))
    | (simp [*]; done)

@[simp] theorem execDmaCopy_fixed (cid : Nat) (hostData : List Byte) (s : State) :
    Out.fixes (execDmaCopy cid hostData s) s.fixed := by
  unfold execDmaCopy
  repeat' first
    | with_reducible assumption
    | lift_lets -underBinder
    | (intro (x : State); refine kI (x := x) s.fixed _ ?_ ?_; (on_goal 1 => subst x); (on_goal 2 => (intro hx; clear_value x)))
    | (with_reducible apply State.withCmd_fixed; intro s _)
    | with_reducible apply kite
    | intro _
    | (simp; done)
    | (split <;> (try (rename_i heq; first | (refine kU1 s.fixed heq ?_ ?_; (on_goal 1 => clear heq); (on_goal 2 => intro hx)) | (refine kU2 s.fixed heq ?_ ?_; (on_goal 1 => clear heq); (on_goal 2 => intro hx)) | (refine kI s.fixed _ (takePacket_fixed heq) ?_; intro hx))))
    | (simp [*]; done)

@[simp] theorem State.setMode_fixed (s : State) (m : Nat) :
    (State.setMode s m).fixed = s.fixed := by
  unfold State.setMode
  repeat' first
    | lift_lets -underBinder
    | (intro x; clear_value x)
    | with_reducible apply kite
    | intro _
    | (simp; done)

@[simp] theorem execMaintEnter_fixed (cid : Nat) (s : State) :
    Out.fixes (execMaintEnter cid s) s.fixed := by
  unfold execMaintEnter
  repeat' first
    | lift_lets -underBinder
    | (with_reducible apply State.withCmd_fixed; intro s _)
    | with_reducible apply kite
    | intro _
    | (simp; done)
    | (split <;> (try (rename_i heq; first | (refine kU1 s.fixed heq ?_ ?_; (on_goal 1 => clear heq); (on_goal 2 => intro hx)) | (refine kU2 s.fixed heq ?_ ?_; (on_goal 1 => clear heq); (on_goal 2 => intro hx)) | (refine kI s.fixed _ (takePacket_fixed heq) ?_; intro hx))))

@[simp] theorem State.auditAll_fixed (s : State) :
    (State.auditAll s).fixed = s.fixed := by
  unfold State.auditAll
  repeat' first
    | lift_lets -underBinder
    | (intro (x : State); refine kI (x := x) s.fixed _ ?_ ?_; (on_goal 1 => subst x); (on_goal 2 => (intro hx; clear_value x)))
    | (intro x; clear_value x)
    | with_reducible (refine kfold ?_ ?_; (on_goal 2 => intro s _))
    | (simp; done)
    | (simp [*]; done)

@[simp] theorem State.checkAgain_fixed (s : State) :
    (State.checkAgain s).fixed = s.fixed := by
  unfold State.checkAgain
  repeat' first
    | (simp; done)

@[simp] theorem State.leaveMaint_fixed (s : State) (c : Cmd) :
    (State.leaveMaint s c).fixed = s.fixed := by
  unfold State.leaveMaint
  repeat' first
    | (simp; done)

@[simp] theorem execMaintExit_fixed (cid : Nat) (s : State) :
    Out.fixes (execMaintExit cid s) s.fixed := by
  unfold execMaintExit
  repeat' first
    | lift_lets -underBinder
    | with_reducible refine (Out.fixes_next _ _).mpr ?_
    | (intro (x : State); refine kI (x := x) s.fixed _ ?_ ?_; (on_goal 1 => subst x); (on_goal 2 => (intro hx; clear_value x)))
    | (with_reducible apply State.withCmd_fixed; intro s _)
    | with_reducible apply kite
    | intro _
    | (simp; done)
    | (split <;> (try (rename_i heq; first | (refine kU1 s.fixed heq ?_ ?_; (on_goal 1 => clear heq); (on_goal 2 => intro hx)) | (refine kU2 s.fixed heq ?_ ?_; (on_goal 1 => clear heq); (on_goal 2 => intro hx)) | (refine kI s.fixed _ (takePacket_fixed heq) ?_; intro hx))))
    | (simp [*]; done)

@[simp] theorem execMaintReset_fixed (cid : Nat) (s : State) :
    Out.fixes (execMaintReset cid s) s.fixed := by
  unfold execMaintReset
  repeat' first
    | lift_lets -underBinder
    | (with_reducible apply State.withCmd_fixed; intro s _)
    | (simp; done)

@[simp] theorem State.leaveDebug_fixed (s : State) (b : Nat) :
    (State.leaveDebug s b).fixed = s.fixed := by
  unfold State.leaveDebug
  repeat' first
    | lift_lets -underBinder
    | (intro (x : State); refine kI (x := x) s.fixed _ ?_ ?_; (on_goal 1 => subst x); (on_goal 2 => (intro hx; clear_value x)))
    | (intro x; clear_value x)
    | (simp; done)
    | (simp [*]; done)

@[simp] theorem State.leaveHostDebug_fixed (s : State) :
    (State.leaveHostDebug s).fixed = s.fixed := by
  unfold State.leaveHostDebug
  repeat' first
    | lift_lets -underBinder
    | (intro x; clear_value x)
    | (simp; done)

@[simp] theorem State.debugDie_fixed (s : State) (c : Cmd) (on host : Bool) (b : Nat) :
    (State.debugDie s c on host b).1.fixed = s.fixed := by
  unfold State.debugDie
  repeat' first
    | lift_lets -underBinder
    | (intro x; clear_value x)
    | with_reducible apply kite
    | with_reducible apply kite1
    | intro _
    | (simp; done)

@[simp] theorem State.debugHost_fixed (s : State) (on host : Bool) :
    (State.debugHost s on host).fixed = s.fixed := by
  unfold State.debugHost
  repeat' first
    | lift_lets -underBinder
    | (intro x; clear_value x)
    | with_reducible apply kite
    | intro _
    | (simp; done)

@[simp] theorem execDbgMode_fixed (cid : Nat) (s : State) :
    Out.fixes (execDbgMode cid s) s.fixed := by
  unfold execDbgMode
  repeat' first
    | with_reducible assumption
    | lift_lets -underBinder
    | (intro (x : State); refine kI (x := x) s.fixed _ ?_ ?_; (on_goal 1 => subst x); (on_goal 2 => (intro hx; clear_value x)))
    | (intro x; clear_value x)
    | (with_reducible apply State.withCmd_fixed; intro s _)
    | (with_reducible apply State.eachDie_fixed; intro s _)
    | with_reducible apply kite
    | with_reducible apply kite1
    | intro _
    | (simp; done)
    | (split <;> (try (rename_i heq; first | (refine kU1 s.fixed heq ?_ ?_; (on_goal 1 => clear heq); (on_goal 2 => intro hx)) | (refine kU2 s.fixed heq ?_ ?_; (on_goal 1 => clear heq); (on_goal 2 => intro hx)) | (refine kI s.fixed _ (takePacket_fixed heq) ?_; intro hx))))
    | (simp [*]; done)

@[simp] theorem State.keepMem_fixed (s : State) (keep : Nat → Bool) :
    (State.keepMem s keep).fixed = s.fixed := by
  unfold State.keepMem
  repeat' first
    | (simp; done)

@[simp] theorem State.failQueues_fixed (s : State) (m : Nat) :
    (State.failQueues s m).fixed = s.fixed := by
  unfold State.failQueues
  repeat' first
    | lift_lets -underBinder
    | (intro x; clear_value x)
    | with_reducible (refine kfold ?_ ?_; (on_goal 2 => intro s _))
    | (simp; done)

@[simp] theorem State.loseStacks_fixed (s : State) (m : Nat) :
    (State.loseStacks s m).fixed = s.fixed := by
  unfold State.loseStacks
  repeat' first
    | lift_lets -underBinder
    | (intro (x : State); refine kI (x := x) s.fixed _ ?_ ?_; (on_goal 1 => subst x); (on_goal 2 => (intro hx; clear_value x)))
    | (intro x; clear_value x)
    | (simp; done)
    | (simp [*]; done)

@[simp] theorem State.downPorts_fixed (s : State) (l : Nat) :
    (State.downPorts s l).fixed = s.fixed := by
  unfold State.downPorts
  repeat' first
    | lift_lets -underBinder
    | (intro (x : State); refine kI (x := x) s.fixed _ ?_ ?_; (on_goal 1 => subst x); (on_goal 2 => (intro hx; clear_value x)))
    | (intro x; clear_value x)
    | with_reducible (refine kfold ?_ ?_; (on_goal 2 => intro s _))
    | (simp; done)
    | (simp [*]; done)

@[simp] theorem State.clearDie_fixed (s : State) (b : Nat) :
    (State.clearDie s b).fixed = s.fixed := by
  unfold State.clearDie
  repeat' first
    | lift_lets -underBinder
    | (intro (x : State); refine kI (x := x) s.fixed _ ?_ ?_; (on_goal 1 => subst x); (on_goal 2 => (intro hx; clear_value x)))
    | with_reducible apply kite
    | intro _
    | (simp; done)
    | (simp [*]; done)

@[simp] theorem State.domainReset_fixed (s : State) (b : Nat) :
    (State.domainReset s b).fixed = s.fixed := by
  unfold State.domainReset
  repeat' first
    | (simp; done)

@[simp] theorem State.trainMd_fixed (s : State) (m : Nat) (pass0 pass1 : Bool) :
    (State.trainMd s m pass0 pass1).fixed = s.fixed := by
  unfold State.trainMd
  repeat' first
    | lift_lets -underBinder
    | (intro x; clear_value x)
    | (simp; done)

@[simp] theorem State.flushBank_fixed (s : State) (k b : Nat) :
    (State.flushBank s k b).fixed = s.fixed := by
  unfold State.flushBank
  repeat' first
    | lift_lets -underBinder
    | (intro (x : State); refine kI (x := x) s.fixed _ ?_ ?_; (on_goal 1 => subst x); (on_goal 2 => (intro hx; clear_value x)))
    | (intro x; clear_value x)
    | with_reducible (refine kfold ?_ ?_; (on_goal 2 => intro s _))
    | (simp; done)
    | (simp [*]; done)

@[simp] theorem State.flushMd_fixed (s : State) (m : Nat) :
    (State.flushMd s m).fixed = s.fixed := by
  unfold State.flushMd
  repeat' first
    | lift_lets -underBinder
    | (intro (x : State); refine kI (x := x) s.fixed _ ?_ ?_; (on_goal 1 => subst x); (on_goal 2 => (intro hx; clear_value x)))
    | (intro x; clear_value x)
    | with_reducible (refine kfold ?_ ?_; (on_goal 2 => intro s _))
    | (simp; done)
    | (simp [*]; done)

@[simp] theorem State.mixUpdate_fixed (s : State) :
    (State.mixUpdate s).fixed = s.fixed := by
  unfold State.mixUpdate
  repeat' first
    | lift_lets -underBinder
    | with_reducible apply kite
    | intro _
    | (simp; done)
    | (split <;> (try (rename_i heq; first | (refine kU1 s.fixed heq ?_ ?_; (on_goal 1 => clear heq); (on_goal 2 => intro hx)) | (refine kU2 s.fixed heq ?_ ?_; (on_goal 1 => clear heq); (on_goal 2 => intro hx)) | (refine kI s.fixed _ (takePacket_fixed heq) ?_; intro hx))))

@[simp] theorem State.resetEvent_fixed (s : State) (kind source block : Nat) :
    (State.resetEvent s kind source block).fixed = s.fixed := by
  unfold State.resetEvent
  repeat' first
    | (simp; done)

@[simp] theorem State.warmCause_fixed (s : State) (source block : Nat) :
    (State.warmCause s source block).fixed = s.fixed := by
  unfold State.warmCause
  repeat' first
    | lift_lets -underBinder
    | (intro x; clear_value x)
    | (simp; done)

@[simp] theorem State.restartRuntime_fixed (s : State) (measured : Bool) :
    (State.restartRuntime s measured).fixed = s.fixed := by
  unfold State.restartRuntime
  repeat' first
    | lift_lets -underBinder
    | (intro (x : Fuses); subst x)
    | (intro (x : State); refine kI (x := x) s.fixed _ ?_ ?_; (on_goal 1 => subst x); (on_goal 2 => (intro hx; clear_value x)))
    | (intro x; clear_value x)
    | with_reducible apply kite
    | intro _
    | (simp; done)
    | (simp [*]; done)

@[simp] theorem State.warmSequence_fixed (s : State) (source block : Nat) (fuses : List (FuseRead × FuseRead)) (measured : Bool) :
    (State.warmSequence s source block fuses measured).fixed = s.fixed := by
  unfold State.warmSequence
  repeat' first
    | lift_lets -underBinder
    | (intro (x : State); refine kI (x := x) s.fixed _ ?_ ?_; (on_goal 1 => subst x); (on_goal 2 => (intro hx; clear_value x)))
    | (intro x; clear_value x)
    | with_reducible apply kite
    | intro _
    | (simp; done)
    | (simp [*]; done)

@[simp] theorem State.warmGoesOn_fixed (s : State) :
    (State.warmGoesOn s).fixed = s.fixed := by
  unfold State.warmGoesOn
  repeat' first
    | lift_lets -underBinder
    | (intro (x : State); refine kI (x := x) s.fixed _ ?_ ?_; (on_goal 1 => subst x); (on_goal 2 => (intro hx; clear_value x)))
    | (intro x; clear_value x)
    | with_reducible apply kite
    | intro _
    | (simp; done)
    | (simp [*]; done)

@[simp] theorem State.absorb_fixed (s : State) (l : List (Nat × Nat)) :
    (State.absorb s l).fixed = s.fixed := by
  unfold State.absorb
  repeat' first
    | lift_lets -underBinder
    | (intro x; clear_value x)
    | with_reducible (refine kfold ?_ ?_; (on_goal 2 => intro s _))
    | (simp; done)

@[simp] theorem State.takeOptions_fixed (s : State) :
    (State.takeOptions s).fixed = s.fixed := by
  unfold State.takeOptions
  repeat' first
    | with_reducible assumption
    | lift_lets -underBinder
    | (intro (x : State); refine kI (x := x) s.fixed _ ?_ ?_; (on_goal 1 => subst x); (on_goal 2 => (intro hx; clear_value x)))
    | (intro x; clear_value x)
    | with_reducible (refine kfold ?_ ?_; (on_goal 2 => intro s _))
    | (simp; done)

@[simp] theorem State.endLoad_fixed (s : State) :
    (State.endLoad s).fixed = s.fixed := by
  unfold State.endLoad
  repeat' first
    | with_reducible assumption
    | lift_lets -underBinder
    | (intro (x : State); refine kI (x := x) s.fixed _ ?_ ?_; (on_goal 1 => subst x); (on_goal 2 => (intro hx; clear_value x)))
    | with_reducible apply kite
    | intro _
    | (simp; done)
    | (simp [*]; done)

@[simp] theorem State.loadTurn_fixed (s : State) :
    (State.loadTurn s).fixed = s.fixed := by
  unfold State.loadTurn
  repeat' first
    | lift_lets -underBinder
    | (intro x; clear_value x)
    | with_reducible apply kite
    | intro _
    | (simp; done)

@[simp] theorem State.coldStart_fixed (s : State) (kind : Nat) (fuses : List (FuseRead × FuseRead)) :
    (State.coldStart s kind fuses).fixed = s.fixed := by
  unfold State.coldStart
  repeat' first
    | lift_lets -underBinder
    | (intro (x : State); refine kI (x := x) s.fixed _ ?_ ?_; (on_goal 1 => subst x); (on_goal 2 => (intro hx; clear_value x)))
    | (intro x; clear_value x)
    | (simp; done)
    | (simp [*]; done)

@[simp] theorem execResetNRelease_fixed (fuses : List (FuseRead × FuseRead)) (s : State) :
    Out.fixes (execResetNRelease fuses s) s.fixed := by
  unfold execResetNRelease
  repeat' first
    | lift_lets -underBinder
    | with_reducible refine (Out.fixes_next _ _).mpr ?_
    | (intro x; clear_value x)
    | with_reducible apply kiteO
    | intro _
    | (simp; done)

@[simp] theorem State.mark32_fixed (s : State) :
    (State.mark32 s).2.fixed = s.fixed := by
  unfold State.mark32
  repeat' first
    | (simp; done)

@[simp] theorem State.railsUp_fixed (s : State) :
    (State.railsUp s).fixed = s.fixed := by
  unfold State.railsUp
  repeat' first
    | lift_lets -underBinder
    | (intro (x : State); refine kI (x := x) s.fixed _ ?_ ?_; (on_goal 1 => subst x); (on_goal 2 => (intro hx; clear_value x)))
    | (intro x; clear_value x)
    | with_reducible apply kite
    | intro _
    | (simp; done)
    | (split <;> (try (rename_i heq; first | (refine kU1 s.fixed heq ?_ ?_; (on_goal 1 => clear heq); (on_goal 2 => intro hx)) | (refine kU2 s.fixed heq ?_ ?_; (on_goal 1 => clear heq); (on_goal 2 => intro hx)) | (refine kI s.fixed _ (takePacket_fixed heq) ?_; intro hx))))
    | (simp [*]; done)

@[simp] theorem execOscWaitEnd_fixed (running : Bool) (s : State) :
    Out.fixes (execOscWaitEnd running s) s.fixed := by
  unfold execOscWaitEnd
  repeat' first
    | with_reducible assumption
    | lift_lets -underBinder
    | with_reducible refine (Out.fixes_next _ _).mpr ?_
    | (intro (x : State); refine kI (x := x) s.fixed _ ?_ ?_; (on_goal 1 => subst x); (on_goal 2 => (intro hx; clear_value x)))
    | (intro x; clear_value x)
    | with_reducible apply kiteO
    | intro _
    | (simp; done)
    | (simp [*]; done)

@[simp] theorem execVinInRange_fixed (mv : Nat) (s : State) :
    Out.fixes (execVinInRange mv s) s.fixed := by
  unfold execVinInRange
  repeat' first
    | with_reducible assumption
    | lift_lets -underBinder
    | with_reducible refine (Out.fixes_next _ _).mpr ?_
    | (intro (x : State); refine kI (x := x) s.fixed _ ?_ ?_; (on_goal 1 => subst x); (on_goal 2 => (intro hx; clear_value x)))
    | (intro x; clear_value x)
    | with_reducible apply kiteO
    | intro _
    | (simp; done)
    | (simp [*]; done)

@[simp] theorem State.escape_fixed (s : State) (k : Clock) :
    (State.escape s k).fixed = s.fixed := by
  unfold State.escape
  repeat' first
    | lift_lets -underBinder
    | (intro (x : State); refine kI (x := x) s.fixed _ ?_ ?_; (on_goal 1 => subst x); (on_goal 2 => (intro hx; clear_value x)))
    | (intro x; clear_value x)
    | (simp; done)
    | (simp [*]; done)

@[simp] theorem execOscRetry_fixed (s : State) :
    Out.fixes (execOscRetry s) s.fixed := by
  unfold execOscRetry
  repeat' first
    | lift_lets -underBinder
    | with_reducible refine (Out.fixes_next _ _).mpr ?_
    | (intro (x : State); refine kI (x := x) s.fixed _ ?_ ?_; (on_goal 1 => subst x); (on_goal 2 => (intro hx; clear_value x)))
    | (intro x; clear_value x)
    | with_reducible apply kiteO
    | intro _
    | (simp; done)
    | (simp [*]; done)

@[simp] theorem State.trainModules_fixed (s : State) (ifc : BitVec 9) :
    (State.trainModules s ifc).fixed = s.fixed := by
  unfold State.trainModules
  repeat' first
    | with_reducible assumption
    | lift_lets -underBinder
    | (intro (x : State); refine kI (x := x) s.fixed _ ?_ ?_; (on_goal 1 => subst x); (on_goal 2 => (intro hx; clear_value x)))
    | (intro x; clear_value x)
    | with_reducible (refine kfold ?_ ?_; (on_goal 2 => intro s _))
    | with_reducible apply kite
    | intro _
    | (simp; done)
    | (simp [*]; done)

@[simp] theorem State.trainStacks_fixed (s : State) (l : List Nat) (trained : BitVec 32) :
    (State.trainStacks s l trained).fixed = s.fixed := by
  unfold State.trainStacks
  repeat' first
    | lift_lets -underBinder
    | (intro x; clear_value x)
    | with_reducible (refine kfold ?_ ?_; (on_goal 2 => intro s _))
    | with_reducible apply kite
    | intro _
    | (simp; done)

@[simp] theorem State.readyFault_fixed (s : State) :
    (State.readyFault s).fixed = s.fixed := by
  unfold State.readyFault
  repeat' first
    | lift_lets -underBinder
    | (intro x; clear_value x)
    | (simp; done)

@[simp] theorem State.testTile_fixed (s : State) (d t : Nat) (failed : Option Nat) :
    (State.testTile s d t failed).fixed = s.fixed := by
  unfold State.testTile
  repeat' first
    | with_reducible assumption
    | lift_lets -underBinder
    | (intro (x : State); refine kI (x := x) s.fixed _ ?_ ?_; (on_goal 1 => subst x); (on_goal 2 => (intro hx; clear_value x)))
    | (intro x; clear_value x)
    | (simp; done)
    | (split <;> (try (rename_i heq; first | (refine kU1 s.fixed heq ?_ ?_; (on_goal 1 => clear heq); (on_goal 2 => intro hx)) | (refine kU2 s.fixed heq ?_ ?_; (on_goal 1 => clear heq); (on_goal 2 => intro hx)) | (refine kI s.fixed _ (takePacket_fixed heq) ?_; intro hx))))
    | (simp [*]; done)

@[simp] theorem State.testAll_fixed (s : State) (failed : List (Nat × Nat × Nat)) :
    (State.testAll s failed).fixed = s.fixed := by
  unfold State.testAll
  repeat' first
    | lift_lets -underBinder
    | with_reducible (refine kfold ?_ ?_; (on_goal 2 => intro s _))
    | with_reducible apply kite
    | intro _
    | (simp; done)

@[simp] theorem execPowerUpReady_fixed (trained : BitVec 32) (checks : PowerUp) (s : State) :
    Out.fixes (execPowerUpReady trained checks s) s.fixed := by
  unfold execPowerUpReady
  repeat' first
    | with_reducible assumption
    | lift_lets -underBinder
    | with_reducible refine (Out.fixes_next _ _).mpr ?_
    | (intro (x : State); refine kI (x := x) s.fixed _ ?_ ?_; (on_goal 1 => subst x); (on_goal 2 => (intro hx; clear_value x)))
    | (intro x; clear_value x)
    | with_reducible apply kite
    | with_reducible apply kiteO
    | intro _
    | (simp; done)
    | (split <;> (try (rename_i heq; first | (refine kU1 s.fixed heq ?_ ?_; (on_goal 1 => clear heq); (on_goal 2 => intro hx)) | (refine kU2 s.fixed heq ?_ ?_; (on_goal 1 => clear heq); (on_goal 2 => intro hx)) | (refine kI s.fixed _ (takePacket_fixed heq) ?_; intro hx))))
    | (simp [*]; done)

@[simp] theorem State.recordLoss_fixed (s : State) (b : Nat) (k : Clock) (action : Nat) :
    (State.recordLoss s b k action).fixed = s.fixed := by
  unfold State.recordLoss
  repeat' first
    | lift_lets -underBinder
    | (intro x; clear_value x)
    | with_reducible apply kite
    | intro _
    | (simp; done)

@[simp] theorem State.domainResets_fixed (s : State) (block : Nat) (l : List Nat) :
    (State.domainResets s block l).fixed = s.fixed := by
  unfold State.domainResets
  repeat' first
    | lift_lets -underBinder
    | with_reducible (refine kfold ?_ ?_; (on_goal 2 => intro s _))
    | with_reducible apply kite
    | intro _
    | (simp; done)

@[simp] theorem State.refBack_fixed (s : State) :
    (State.refBack s).fixed = s.fixed := by
  unfold State.refBack
  repeat' first
    | lift_lets -underBinder
    | (intro x; clear_value x)
    | (simp; done)
    | (split <;> (try (rename_i heq; first | (refine kU1 s.fixed heq ?_ ?_; (on_goal 1 => clear heq); (on_goal 2 => intro hx)) | (refine kU2 s.fixed heq ?_ ?_; (on_goal 1 => clear heq); (on_goal 2 => intro hx)) | (refine kI s.fixed _ (takePacket_fixed heq) ?_; intro hx))))

@[simp] theorem execPllRelock_fixed (b : Fin 64) (k : Clock) (locked : Relock) (s : State) :
    Out.fixes (execPllRelock b k locked s) s.fixed := by
  unfold execPllRelock
  repeat' first
    | with_reducible assumption
    | lift_lets -underBinder
    | with_reducible refine (Out.fixes_next _ _).mpr ?_
    | (intro (x : State); refine kI (x := x) s.fixed _ ?_ ?_; (on_goal 1 => subst x); (on_goal 2 => (intro hx; clear_value x)))
    | (intro x; clear_value x)
    | with_reducible apply kite
    | with_reducible apply kiteO
    | intro _
    | (simp; done)
    | (simp [*]; done)

@[simp] theorem execWclkReturn_fixed (again : Restart) (s : State) :
    Out.fixes (execWclkReturn again s) s.fixed := by
  unfold execWclkReturn
  repeat' first
    | lift_lets -underBinder
    | with_reducible refine (Out.fixes_next _ _).mpr ?_
    | (intro (x : State); refine kI (x := x) s.fixed _ ?_ ?_; (on_goal 1 => subst x); (on_goal 2 => (intro hx; clear_value x)))
    | (intro x; clear_value x)
    | with_reducible apply kiteO
    | intro _
    | (simp; done)
    | (simp [*]; done)

@[simp] theorem State.stewardOff_fixed (s : State) :
    (State.stewardOff s).fixed = s.fixed := by
  unfold State.stewardOff
  repeat' first
    | lift_lets -underBinder
    | (intro (x : State); refine kI (x := x) s.fixed _ ?_ ?_; (on_goal 1 => subst x); (on_goal 2 => (intro hx; clear_value x)))
    | (intro x; clear_value x)
    | (simp; done)
    | (simp [*]; done)

@[simp] theorem State.powerOff_fixed (s : State) (b : Nat) :
    (State.powerOff s b).fixed = s.fixed := by
  unfold State.powerOff
  repeat' first
    | with_reducible assumption
    | lift_lets -underBinder
    | (intro (x : State); refine kI (x := x) s.fixed _ ?_ ?_; (on_goal 1 => subst x); (on_goal 2 => (intro hx; clear_value x)))
    | (intro x; clear_value x)
    | with_reducible apply kite
    | intro _
    | (simp; done)
    | (simp [*]; done)

@[simp] theorem State.groupOff_fixed (s : State) (g : Nat) :
    (State.groupOff s g).fixed = s.fixed := by
  unfold State.groupOff
  repeat' first
    | with_reducible assumption
    | lift_lets -underBinder
    | (intro (x : State); refine kI (x := x) s.fixed _ ?_ ?_; (on_goal 1 => subst x); (on_goal 2 => (intro hx; clear_value x)))
    | (intro x; clear_value x)
    | with_reducible (refine kfold ?_ ?_; (on_goal 2 => intro s _))
    | (simp; done)

@[simp] theorem State.assertFaultN_fixed (s : State) :
    (State.assertFaultN s).fixed = s.fixed := by
  unfold State.assertFaultN
  repeat' first
    | lift_lets -underBinder
    | (intro x; clear_value x)
    | (simp; done)

@[simp] theorem State.allOff_fixed (s : State) (keep : List Nat) :
    (State.allOff s keep).fixed = s.fixed := by
  unfold State.allOff
  repeat' first
    | (simp; done)

@[simp] theorem execPowerLimitWindow_fixed (watts : Nat) (s : State) :
    Out.fixes (execPowerLimitWindow watts s) s.fixed := by
  unfold execPowerLimitWindow
  repeat' first
    | with_reducible assumption
    | lift_lets -underBinder
    | with_reducible refine (Out.fixes_next _ _).mpr ?_
    | (intro (x : State); refine kI (x := x) s.fixed _ ?_ ?_; (on_goal 1 => subst x); (on_goal 2 => (intro hx; clear_value x)))
    | (intro x; clear_value x)
    | with_reducible apply kiteO
    | intro _
    | (simp; done)
    | (simp [*]; done)

@[simp] theorem execCoolOkDeassert_fixed (s : State) :
    Out.fixes (execCoolOkDeassert s) s.fixed := by
  unfold execCoolOkDeassert
  repeat' first
    | lift_lets -underBinder
    | with_reducible refine (Out.fixes_next _ _).mpr ?_
    | (simp; done)

@[simp] theorem execCoolLost_fixed (s : State) :
    Out.fixes (execCoolLost s) s.fixed := by
  unfold execCoolLost
  repeat' first
    | lift_lets -underBinder
    | with_reducible refine (Out.fixes_next _ _).mpr ?_
    | (intro (x : State); refine kI (x := x) s.fixed _ ?_ ?_; (on_goal 1 => subst x); (on_goal 2 => (intro hx; clear_value x)))
    | (intro x; clear_value x)
    | with_reducible apply kiteO
    | intro _
    | (simp; done)
    | (simp [*]; done)

@[simp] theorem execCoolLostShutdown_fixed (s : State) :
    Out.fixes (execCoolLostShutdown s) s.fixed := by
  unfold execCoolLostShutdown
  repeat' first
    | lift_lets -underBinder
    | with_reducible refine (Out.fixes_next _ _).mpr ?_
    | with_reducible apply kiteO
    | intro _
    | (simp; done)

@[simp] theorem execCoolOkAssert_fixed (s : State) :
    Out.fixes (execCoolOkAssert s) s.fixed := by
  unfold execCoolOkAssert
  repeat' first
    | lift_lets -underBinder
    | with_reducible refine (Out.fixes_next _ _).mpr ?_
    | (simp; done)

@[simp] theorem execPumpDutyUpdate_fixed (s : State) :
    Out.fixes (execPumpDutyUpdate s) s.fixed := by
  unfold execPumpDutyUpdate
  repeat' first
    | lift_lets -underBinder
    | with_reducible refine (Out.fixes_next _ _).mpr ?_
    | (intro x; clear_value x)
    | with_reducible apply kiteO
    | intro _
    | (simp; done)

@[simp] theorem State.afterReading_fixed (s : State) (b : Nat) (was : Nat) :
    (State.afterReading s b was).fixed = s.fixed := by
  unfold State.afterReading
  repeat' first
    | with_reducible assumption
    | lift_lets -underBinder
    | (intro (x : State); refine kI (x := x) s.fixed _ ?_ ?_; (on_goal 1 => subst x); (on_goal 2 => (intro hx; clear_value x)))
    | (intro x; clear_value x)
    | with_reducible apply kite
    | intro _
    | (simp; done)
    | (simp [*]; done)

@[simp] theorem execDieTempPoll_fixed (temps : List (BitVec 8)) (s : State) :
    Out.fixes (execDieTempPoll temps s) s.fixed := by
  unfold execDieTempPoll
  repeat' first
    | lift_lets -underBinder
    | with_reducible refine (Out.fixes_next _ _).mpr ?_
    | (intro x; clear_value x)
    | with_reducible (refine kfold ?_ ?_; (on_goal 2 => intro s _))
    | with_reducible apply kite
    | with_reducible apply kiteO
    | intro _
    | (simp; done)

@[simp] theorem execSealVerify_fixed (cid : Nat) (s : State) :
    Out.fixes (execSealVerify cid s) s.fixed := by
  unfold execSealVerify
  repeat' first
    | lift_lets -underBinder
    | (with_reducible apply State.withCmd_fixed; intro s _)
    | with_reducible apply kite
    | intro _
    | (simp; done)

@[simp] theorem State.sealRelease_fixed (s : State) :
    (State.sealRelease s).fixed = s.fixed := by
  unfold State.sealRelease
  repeat' first
    | lift_lets -underBinder
    | (intro x; clear_value x)
    | (simp; done)

@[simp] theorem execSealRelease_fixed (cid : Nat) (s : State) :
    Out.fixes (execSealRelease cid s) s.fixed := by
  unfold execSealRelease
  repeat' first
    | lift_lets -underBinder
    | (with_reducible apply State.withCmd_fixed; intro s _)
    | with_reducible apply kite
    | intro _
    | (simp; done)

@[simp] theorem State.injectedMark_fixed (s : State) (b code : Nat) :
    (State.injectedMark s b code).fixed = s.fixed := by
  unfold State.injectedMark
  repeat' first
    | lift_lets -underBinder
    | with_reducible apply kite
    | intro _
    | (simp; done)

@[simp] theorem State.testDie_fixed (s : State) (c : Cmd) (failed : List (Nat × Nat × Nat)) (d : Nat) :
    (State.testDie s c failed d).1.fixed = s.fixed := by
  unfold State.testDie
  repeat' first
    | lift_lets -underBinder
    | (intro x; clear_value x)
    | with_reducible (refine kfold1 ?_ ?_; (on_goal 2 => intro (s, _) _))
    | with_reducible apply kite1
    | intro _
    | (simp; done)

@[simp] theorem execSelftestRun_fixed (cid : Nat) (failed : List (Nat × Nat × Nat)) (s : State) :
    Out.fixes (execSelftestRun cid failed s) s.fixed := by
  unfold execSelftestRun
  repeat' first
    | lift_lets -underBinder
    | (intro x; clear_value x)
    | with_reducible (refine kfold1 ?_ ?_; (on_goal 2 => intro (s, _) _))
    | (with_reducible apply State.withCmd_fixed; intro s _)
    | (with_reducible apply State.eachDie_fixed; intro s _)
    | with_reducible apply kite1
    | intro _
    | (simp; done)
    | (split <;> (try (rename_i heq; first | (refine kU1 s.fixed heq ?_ ?_; (on_goal 1 => clear heq); (on_goal 2 => intro hx)) | (refine kU2 s.fixed heq ?_ ?_; (on_goal 1 => clear heq); (on_goal 2 => intro hx)) | (refine kI s.fixed _ (takePacket_fixed heq) ?_; intro hx))))
    | (simp [*]; done)

@[simp] theorem execSelftest_fixed (d : Fin 32) (t : Fin 144) (failed : Option (Fin 8)) (s : State) :
    Out.fixes (execSelftest d t failed s) s.fixed := by
  unfold execSelftest
  repeat' first
    | lift_lets -underBinder
    | with_reducible refine (Out.fixes_next _ _).mpr ?_
    | with_reducible apply kiteO
    | intro _
    | (simp; done)

@[simp] theorem execSelftestOverdue_fixed (d : Fin 32) (s : State) :
    Out.fixes (execSelftestOverdue d s) s.fixed := by
  unfold execSelftestOverdue
  repeat' first
    | with_reducible assumption
    | lift_lets -underBinder
    | with_reducible refine (Out.fixes_next _ _).mpr ?_
    | (intro (x : State); refine kI (x := x) s.fixed _ ?_ ?_; (on_goal 1 => subst x); (on_goal 2 => (intro hx; clear_value x)))
    | (intro x; clear_value x)
    | with_reducible (refine kfold ?_ ?_; (on_goal 2 => intro s _))
    | with_reducible apply kiteO
    | intro _
    | (simp; done)
    | (simp [*]; done)

@[simp] theorem execGleanCfg_fixed (cid : Nat) (s : State) :
    Out.fixes (execGleanCfg cid s) s.fixed := by
  unfold execGleanCfg
  repeat' first
    | lift_lets -underBinder
    | (intro x; clear_value x)
    | (with_reducible apply State.withCmd_fixed; intro s _)
    | (simp; done)

@[simp] theorem execGleanWindow_fixed (cid : Nat) (s : State) :
    Out.fixes (execGleanWindow cid s) s.fixed := by
  unfold execGleanWindow
  repeat' first
    | lift_lets -underBinder
    | (intro x; clear_value x)
    | (with_reducible apply State.withCmd_fixed; intro s _)
    | with_reducible apply kite
    | intro _
    | (simp; done)

@[simp] theorem execTelemCfg_fixed (cid : Nat) (s : State) :
    Out.fixes (execTelemCfg cid s) s.fixed := by
  unfold execTelemCfg
  repeat' first
    | lift_lets -underBinder
    | (intro x; clear_value x)
    | (with_reducible apply State.withCmd_fixed; intro s _)
    | (simp; done)

@[simp] theorem State.raiseRail_fixed (s : State) (b : Nat) :
    (State.raiseRail s b).fixed = s.fixed := by
  unfold State.raiseRail
  repeat' first
    | with_reducible assumption
    | lift_lets -underBinder
    | (intro (x : State); refine kI (x := x) s.fixed _ ?_ ?_; (on_goal 1 => subst x); (on_goal 2 => (intro hx; clear_value x)))
    | (intro x; clear_value x)
    | with_reducible apply kite
    | intro _
    | (simp; done)
    | (simp [*]; done)

@[simp] theorem execAgingGuardband_fixed (low : List (Fin 64)) (s : State) :
    Out.fixes (execAgingGuardband low s) s.fixed := by
  unfold execAgingGuardband
  repeat' first
    | lift_lets -underBinder
    | with_reducible refine (Out.fixes_next _ _).mpr ?_
    | (intro (x : State); refine kI (x := x) s.fixed _ ?_ ?_; (on_goal 1 => subst x); (on_goal 2 => (intro hx; clear_value x)))
    | (intro x; clear_value x)
    | with_reducible (refine kfold ?_ ?_; (on_goal 2 => intro s _))
    | with_reducible apply kiteO
    | intro _
    | (simp; done)
    | (simp [*]; done)

@[simp] theorem execTelemetryRecord_fixed (r : TelemetryReading) (s : State) :
    Out.fixes (execTelemetryRecord r s) s.fixed := by
  unfold execTelemetryRecord
  repeat' first
    | lift_lets -underBinder
    | with_reducible refine (Out.fixes_next _ _).mpr ?_
    | (intro (x : State); refine kI (x := x) s.fixed _ ?_ ?_; (on_goal 1 => subst x); (on_goal 2 => (intro hx; clear_value x)))
    | (intro x; clear_value x)
    | with_reducible apply kiteO
    | intro _
    | (simp; done)
    | (simp [*]; done)

@[simp] theorem execWatchdog_fixed (s : State) :
    Out.fixes (execWatchdog s) s.fixed := by
  unfold execWatchdog
  repeat' first
    | lift_lets -underBinder
    | with_reducible refine (Out.fixes_next _ _).mpr ?_
    | with_reducible apply kiteO
    | intro _
    | (simp; done)

@[simp] theorem execCtrlParity_fixed (b : Fin 64) (s : State) :
    Out.fixes (execCtrlParity b s) s.fixed := by
  unfold execCtrlParity
  repeat' first
    | lift_lets -underBinder
    | with_reducible refine (Out.fixes_next _ _).mpr ?_
    | (simp; done)

@[simp] theorem execFuseParity_fixed (s : State) :
    Out.fixes (execFuseParity s) s.fixed := by
  unfold execFuseParity
  repeat' first
    | lift_lets -underBinder
    | with_reducible refine (Out.fixes_next _ _).mpr ?_
    | (simp; done)

@[simp] theorem State.refuse_fixed (s : State) (c : Cmd) (code detail : Nat) :
    (State.refuse s c code detail).fixed = s.fixed := by
  unfold State.refuse
  repeat' first
    | (simp; done)

@[simp] theorem State.withIdentity_fixed (s : State) (c : Cmd) (f : State → State) (hf : ∀ a0, (f a0).fixed = a0.fixed) :
    (State.withIdentity s c f).fixed = s.fixed := by
  unfold State.withIdentity
  repeat' first
    | lift_lets -underBinder
    | with_reducible apply kite
    | intro _
    | (simp; done)
    | (simp [*]; done)

@[simp] theorem State.answerAt_fixed (s : State) (c : Cmd) (a : Nat) (l : List Byte) (result : BitVec 64) :
    (State.answerAt s c a l result).fixed = s.fixed := by
  unfold State.answerAt
  repeat' first
    | lift_lets -underBinder
    | (simp; done)
    | (split <;> (try (rename_i heq; first | (refine kU1 s.fixed heq ?_ ?_; (on_goal 1 => clear heq); (on_goal 2 => intro hx)) | (refine kU2 s.fixed heq ?_ ?_; (on_goal 1 => clear heq); (on_goal 2 => intro hx)) | (refine kI s.fixed _ (takePacket_fixed heq) ?_; intro hx))))
    | (simp [*]; done)

@[simp] theorem execSecIdentity_fixed (cid : Nat) (s : State) :
    Out.fixes (execSecIdentity cid s) s.fixed := by
  unfold execSecIdentity
  repeat' first
    | lift_lets -underBinder
    | (with_reducible apply State.withCmd_fixed; intro s _)
    | (with_reducible apply State.withIdentity_fixed; intro s)
    | (simp; done)

@[simp] theorem execSecAttest_fixed (cid : Nat) (s : State) :
    Out.fixes (execSecAttest cid s) s.fixed := by
  unfold execSecAttest
  repeat' first
    | lift_lets -underBinder
    | (intro x; clear_value x)
    | (with_reducible apply State.withCmd_fixed; intro s _)
    | (with_reducible apply State.withIdentity_fixed; intro s)
    | (simp; done)

@[simp] theorem State.levelRaised_fixed (s : State) :
    (State.levelRaised s).fixed = s.fixed := by
  unfold State.levelRaised
  repeat' first
    | with_reducible assumption
    | lift_lets -underBinder
    | (intro (x : State); refine kI (x := x) s.fixed _ ?_ ?_; (on_goal 1 => subst x); (on_goal 2 => (intro hx; clear_value x)))
    | with_reducible (refine kfold ?_ ?_; (on_goal 2 => intro s _))
    | with_reducible apply kite
    | intro _
    | (simp; done)
    | (simp [*]; done)

@[simp] theorem execJtagInstruction_fixed (instr : JtagInstr) (s : State) :
    Out.fixes (execJtagInstruction instr s) s.fixed := by
  unfold execJtagInstruction
  repeat' first
    | lift_lets -underBinder
    | with_reducible refine (Out.fixes_next _ _).mpr ?_
    | (intro (x : State); refine kI (x := x) s.fixed _ ?_ ?_; (on_goal 1 => subst x); (on_goal 2 => (intro hx; clear_value x)))
    | (intro x; clear_value x)
    | with_reducible apply kiteO
    | intro _
    | (simp; done)
    | (simp [*]; done)

@[simp] theorem execI3cTransfer_fixed (head : I3cHead) (data : BitVec 16) (s : State) :
    Out.fixes (execI3cTransfer head data s) s.fixed := by
  unfold execI3cTransfer
  repeat' first
    | lift_lets -underBinder
    | with_reducible refine (Out.fixes_next _ _).mpr ?_
    | (intro x; clear_value x)
    | with_reducible apply kiteO
    | intro _
    | (simp; done)

@[simp] theorem State.beat_fixed (s : State) :
    (State.beat s).fixed = s.fixed := by
  unfold State.beat
  repeat' first
    | lift_lets -underBinder
    | (intro (x : State); refine kI (x := x) s.fixed _ ?_ ?_; (on_goal 1 => subst x); (on_goal 2 => (intro hx; clear_value x)))
    | (intro x; clear_value x)
    | (simp; done)
    | (simp [*]; done)

@[simp] theorem State.applyImage_fixed (s : State) (g : Nat → BitVec 64) :
    (State.applyImage s g).fixed = s.fixed := by
  unfold State.applyImage
  repeat' first
    | with_reducible assumption
    | lift_lets -underBinder
    | (intro (x : State); refine kI (x := x) s.fixed _ ?_ ?_; (on_goal 1 => subst x); (on_goal 2 => (intro hx; clear_value x)))
    | (intro x; clear_value x)
    | with_reducible (refine kfold ?_ ?_; (on_goal 2 => intro s _))
    | with_reducible apply kite
    | intro _
    | (simp; done)
    | (simp [*]; done)

@[simp] theorem execHarvestCfg_fixed (cid : Nat) (s : State) :
    Out.fixes (execHarvestCfg cid s) s.fixed := by
  unfold execHarvestCfg
  repeat' first
    | lift_lets -underBinder
    | (intro (x : State); refine kI (x := x) s.fixed _ ?_ ?_; (on_goal 1 => subst x); (on_goal 2 => (intro hx; clear_value x)))
    | (intro x; clear_value x)
    | (with_reducible apply State.withCmd_fixed; intro s _)
    | with_reducible apply kite
    | intro _
    | (simp; done)
    | (simp [*]; done)

@[simp] theorem execHarvestTake_fixed (cid : Nat) (s : State) :
    Out.fixes (execHarvestTake cid s) s.fixed := by
  unfold execHarvestTake
  repeat' first
    | lift_lets -underBinder
    | (intro x; clear_value x)
    | (with_reducible apply State.withCmd_fixed; intro s _)
    | (simp; done)

@[simp] theorem State.readChunks_fixed (s : State) (got : List Byte) (x0 : List Nat) :
    (State.readChunks s got x0).1.fixed = s.fixed := by
  induction x0 generalizing s got with
  | nil =>
    unfold State.readChunks
    repeat' first
      | (simp; done)
  | cons e l ih =>
    unfold State.readChunks
    repeat' first
      | with_reducible assumption
      | lift_lets -underBinder
      | (simp; done)
      | (split <;> (try (rename_i heq; first | (refine kU1 s.fixed heq ?_ ?_; (on_goal 1 => clear heq); (on_goal 2 => intro hx)) | (refine kU2 s.fixed heq ?_ ?_; (on_goal 1 => clear heq); (on_goal 2 => intro hx)) | (refine kI s.fixed _ (takePacket_fixed heq) ?_; intro hx))))
      | (simp [*]; done)

@[simp] theorem State.writeChunks_fixed (s : State) (b : List Byte) (x0 : List Nat) :
    (State.writeChunks s b x0).1.fixed = s.fixed := by
  induction x0 generalizing s b with
  | nil =>
    unfold State.writeChunks
    repeat' first
      | (simp; done)
  | cons e l ih =>
    unfold State.writeChunks
    repeat' first
      | with_reducible assumption
      | lift_lets -underBinder
      | (simp; done)
      | (split <;> (try (rename_i heq; first | (refine kU1 s.fixed heq ?_ ?_; (on_goal 1 => clear heq); (on_goal 2 => intro hx)) | (refine kU2 s.fixed heq ?_ ?_; (on_goal 1 => clear heq); (on_goal 2 => intro hx)) | (refine kI s.fixed _ (takePacket_fixed heq) ?_; intro hx))))
      | (simp [*]; done)

@[simp] theorem State.readShard_fixed (s : State) (x : Shard) :
    (State.readShard s x).1.fixed = s.fixed := by
  unfold State.readShard
  repeat' first
    | (simp; done)

@[simp] theorem State.readRegions_fixed (s : State) :
    (State.readRegions s).1.fixed = s.fixed := by
  unfold State.readRegions
  repeat' first
    | with_reducible assumption
    | lift_lets -underBinder
    | (intro x; clear_value x)
    | (simp; done)
    | (split <;> (try (rename_i heq; first | (refine kU1 s.fixed heq ?_ ?_; (on_goal 1 => clear heq); (on_goal 2 => intro hx)) | (refine kU2 s.fixed heq ?_ ?_; (on_goal 1 => clear heq); (on_goal 2 => intro hx)) | (refine kI s.fixed _ (takePacket_fixed heq) ?_; intro hx))))

@[simp] theorem State.writeImage_fixed (s : State) (l : List Byte) :
    Out.fixes (State.writeImage s l) s.fixed := by
  unfold State.writeImage
  repeat' first
    | lift_lets -underBinder
    | with_reducible refine (Out.fixes_next _ _).mpr ?_
    | (simp; done)
    | (split <;> (try (rename_i heq; first | (refine kU1 s.fixed heq ?_ ?_; (on_goal 1 => clear heq); (on_goal 2 => intro hx)) | (refine kU2 s.fixed heq ?_ ?_; (on_goal 1 => clear heq); (on_goal 2 => intro hx)) | (refine kI s.fixed _ (takePacket_fixed heq) ?_; intro hx))))
    | (simp [*]; done)

@[simp] theorem State.takePoint_fixed (s : State) :
    (State.takePoint s).fixed = s.fixed := by
  unfold State.takePoint
  repeat' first
    | lift_lets -underBinder
    | (intro x; clear_value x)
    | (simp; done)

@[simp] theorem execHarvestCapture_fixed (s : State) : Out.fixes (execHarvestCapture s) s.fixed := by
  unfold execHarvestCapture
  split
  · have h := State.readRegions_fixed s.takePoint
    rw [State.takePoint_fixed] at h
    generalize s.takePoint.readRegions = p at h ⊢
    obtain ⟨t, x⟩ := p
    dsimp only at h
    rcases x with l | a
    · dsimp only
      split <;> simp [← h]
    · simp [h]
  · rfl

@[simp] theorem State.readHeads_fixed (s : State) (id : Nat → Nat) (dest : BitVec 16) :
    (State.readHeads s id dest).fixed = s.fixed := by
  unfold State.readHeads
  repeat' first
    | lift_lets -underBinder
    | with_reducible (refine kfold ?_ ?_; (on_goal 2 => intro s _))
    | (simp; done)

@[simp] theorem State.askHeads_fixed (s : State) :
    (State.askHeads s).fixed = s.fixed := by
  unfold State.askHeads
  repeat' first
    | with_reducible assumption
    | lift_lets -underBinder
    | (intro (x : State); refine kI (x := x) s.fixed _ ?_ ?_; (on_goal 1 => subst x); (on_goal 2 => (intro hx; clear_value x)))
    | (intro x; clear_value x)
    | with_reducible (refine kfold ?_ ?_; (on_goal 2 => intro s _))
    | with_reducible apply kite
    | intro _
    | (simp; done)
    | (simp [*]; done)

@[simp] theorem State.askHolder_fixed (s : State) (a : Nat) (arg : BitVec 64) (l : List Byte) :
    (State.askHolder s a arg l).fixed = s.fixed := by
  unfold State.askHolder
  repeat' first
    | lift_lets -underBinder
    | (intro x; clear_value x)
    | (simp; done)

@[simp] theorem State.toHolder_fixed (s : State) (off : Nat) (l : List Byte) :
    (State.toHolder s off l).fixed = s.fixed := by
  unfold State.toHolder
  repeat' first
    | lift_lets -underBinder
    | (intro (x : State); refine kI (x := x) s.fixed _ ?_ ?_; (on_goal 1 => subst x); (on_goal 2 => (intro hx; clear_value x)))
    | (intro x; clear_value x)
    | (simp; done)
    | (simp [*]; done)

@[simp] theorem State.sendShards_fixed (s : State) (x0 : List Shard) :
    (State.sendShards s x0).fixed = s.fixed := by
  induction x0 generalizing s with
  | nil =>
    unfold State.sendShards
    repeat' first
      | (simp; done)
  | cons e l ih =>
    unfold State.sendShards
    repeat' first
      | lift_lets -underBinder
      | (intro (x : State); refine kI (x := x) s.fixed _ ?_ ?_; (on_goal 1 => subst x); (on_goal 2 => (intro hx; clear_value x)))
      | (intro x; clear_value x)
      | (simp; done)
      | (split <;> (try (rename_i heq; first | (refine kU1 s.fixed heq ?_ ?_; (on_goal 1 => clear heq); (on_goal 2 => intro hx)) | (refine kU2 s.fixed heq ?_ ?_; (on_goal 1 => clear heq); (on_goal 2 => intro hx)) | (refine kI s.fixed _ (takePacket_fixed heq) ?_; intro hx))))
      | (simp [*]; done)

@[simp] theorem State.claim_fixed (s : State) (m : List Byte) :
    (State.claim s m).fixed = s.fixed := by
  unfold State.claim
  repeat' first
    | lift_lets -underBinder
    | (intro (x : State); refine kI (x := x) s.fixed _ ?_ ?_; (on_goal 1 => subst x); (on_goal 2 => (intro hx; clear_value x)))
    | (intro x; clear_value x)
    | (simp; done)
    | (simp [*]; done)

@[simp] theorem State.beginPhase_fixed (s : State) (phase : Nat) :
    (State.beginPhase s phase).fixed = s.fixed := by
  unfold State.beginPhase
  repeat' first
    | lift_lets -underBinder
    | (intro (x : State); refine kI (x := x) s.fixed _ ?_ ?_; (on_goal 1 => subst x); (on_goal 2 => (intro hx; clear_value x)))
    | (intro x; clear_value x)
    | with_reducible apply kite
    | intro _
    | (simp; done)
    | (split <;> (try (rename_i heq; first | (refine kU1 s.fixed heq ?_ ?_; (on_goal 1 => clear heq); (on_goal 2 => intro hx)) | (refine kU2 s.fixed heq ?_ ?_; (on_goal 1 => clear heq); (on_goal 2 => intro hx)) | (refine kI s.fixed _ (takePacket_fixed heq) ?_; intro hx))))
    | (simp [*]; done)

@[simp] theorem State.askCheck_fixed (s : State) :
    (State.askCheck s).fixed = s.fixed := by
  unfold State.askCheck
  repeat' first
    | lift_lets -underBinder
    | (intro x; clear_value x)
    | (simp; done)

@[simp] theorem State.harvestDone_fixed (s : State) :
    (State.harvestDone s).fixed = s.fixed := by
  unfold State.harvestDone
  repeat' first
    | lift_lets -underBinder
    | (intro x; clear_value x)
    | (simp; done)

@[simp] theorem execHarvestPhaseEnd_fixed (s : State) :
    Out.fixes (execHarvestPhaseEnd s) s.fixed := by
  unfold execHarvestPhaseEnd
  repeat' first
    | lift_lets -underBinder
    | with_reducible refine (Out.fixes_next _ _).mpr ?_
    | (intro x; clear_value x)
    | with_reducible apply kite
    | with_reducible apply kiteO
    | intro _
    | (simp; done)

@[simp] theorem State.readAll_fixed (s : State) (a n : Nat) :
    (State.readAll s a n).1.fixed = s.fixed := by
  unfold State.readAll
  repeat' first
    | with_reducible assumption
    | lift_lets -underBinder
    | (simp; done)
    | (split <;> (try (rename_i heq; first | (refine kU1 s.fixed heq ?_ ?_; (on_goal 1 => clear heq); (on_goal 2 => intro hx)) | (refine kU2 s.fixed heq ?_ ?_; (on_goal 1 => clear heq); (on_goal 2 => intro hx)) | (refine kI s.fixed _ (takePacket_fixed heq) ?_; intro hx))))

@[simp] theorem State.readManifest_fixed (s : State) (base : Nat) :
    (State.readManifest s base).1.fixed = s.fixed := by
  unfold State.readManifest
  repeat' first
    | with_reducible assumption
    | lift_lets -underBinder
    | (simp; done)
    | (split <;> (try (rename_i heq; first | (refine kU1 s.fixed heq ?_ ?_; (on_goal 1 => clear heq); (on_goal 2 => intro hx)) | (refine kU2 s.fixed heq ?_ ?_; (on_goal 1 => clear heq); (on_goal 2 => intro hx)) | (refine kI s.fixed _ (takePacket_fixed heq) ?_; intro hx))))
    | (simp [*]; done)

@[simp] theorem State.tallyBad_fixed (s : State) (entry : Nat) :
    (State.tallyBad s entry).fixed = s.fixed := by
  unfold State.tallyBad
  repeat' first
    | (simp; done)

@[simp] theorem State.checkShards_fixed (s : State) (base : Nat) (x0 : List (Nat × Shard)) :
    (State.checkShards s base x0).1.fixed = s.fixed := by
  induction x0 generalizing s base with
  | nil =>
    unfold State.checkShards
    repeat' first
      | (simp; done)
  | cons e l ih =>
    unfold State.checkShards
    repeat' first
      | with_reducible assumption
      | lift_lets -underBinder
      | with_reducible apply kite1
      | intro _
      | (simp; done)
      | (split <;> (try (rename_i heq; first | (refine kU1 s.fixed heq ?_ ?_; (on_goal 1 => clear heq); (on_goal 2 => intro hx)) | (refine kU2 s.fixed heq ?_ ?_; (on_goal 1 => clear heq); (on_goal 2 => intro hx)) | (refine kI s.fixed _ (takePacket_fixed heq) ?_; intro hx))))
      | (simp [*]; done)

@[simp] theorem State.markArea_fixed (s : State) (base st : Nat) :
    (State.markArea s base st).fixed = s.fixed := by
  unfold State.markArea
  repeat' first
    | (simp; done)

@[simp] theorem State.verdict_fixed (s : State) (k : Packet) (code : Nat) (entry : Nat := 0) :
    (State.verdict s k code entry).fixed = s.fixed := by
  unfold State.verdict
  repeat' first
    | lift_lets -underBinder
    | (intro (x : State); refine kI (x := x) s.fixed _ ?_ ?_; (on_goal 1 => subst x); (on_goal 2 => (intro hx; clear_value x)))
    | (intro x; clear_value x)
    | (simp; done)
    | (simp [*]; done)

@[simp] theorem execHarvestTallyCheck_fixed (area : Bool) (s : State) :
    Out.fixes (execHarvestTallyCheck area s) s.fixed := by
  unfold execHarvestTallyCheck
  repeat' first
    | with_reducible assumption
    | lift_lets -underBinder
    | with_reducible refine (Out.fixes_next _ _).mpr ?_
    | (intro x; clear_value x)
    | with_reducible apply kiteO
    | intro _
    | (simp; done)
    | (split <;> (try (rename_i heq; first | (refine kU1 s.fixed heq ?_ ?_; (on_goal 1 => clear heq); (on_goal 2 => intro hx)) | (refine kU2 s.fixed heq ?_ ?_; (on_goal 1 => clear heq); (on_goal 2 => intro hx)) | (refine kI s.fixed _ (takePacket_fixed heq) ?_; intro hx))))
    | (simp [*]; done)

@[simp] theorem State.drainShards_fixed (s : State) (base host n : Nat) (x0 : List (Nat × Shard)) :
    (State.drainShards s base host n x0).1.fixed = s.fixed := by
  induction x0 generalizing s base host n with
  | nil =>
    unfold State.drainShards
    repeat' first
      | (simp; done)
  | cons e l ih =>
    unfold State.drainShards
    repeat' first
      | with_reducible assumption
      | lift_lets -underBinder
      | with_reducible apply kite1
      | intro _
      | (simp; done)
      | (split <;> (try (rename_i heq; first | (refine kU1 s.fixed heq ?_ ?_; (on_goal 1 => clear heq); (on_goal 2 => intro hx)) | (refine kU2 s.fixed heq ?_ ?_; (on_goal 1 => clear heq); (on_goal 2 => intro hx)) | (refine kI s.fixed _ (takePacket_fixed heq) ?_; intro hx))))
      | (simp [*]; done)

@[simp] theorem State.drainBad_fixed (s : State) (base entry : Nat) :
    (State.drainBad s base entry).fixed = s.fixed := by
  unfold State.drainBad
  repeat' first
    | (simp; done)

@[simp] theorem State.drainEnd_fixed (s : State) (c : Cmd) :
    (State.drainEnd s c).fixed = s.fixed := by
  unfold State.drainEnd
  repeat' first
    | lift_lets -underBinder
    | (intro x; clear_value x)
    | with_reducible apply kite
    | intro _
    | (simp; done)
    | (split <;> (try (rename_i heq; first | (refine kU1 s.fixed heq ?_ ?_; (on_goal 1 => clear heq); (on_goal 2 => intro hx)) | (refine kU2 s.fixed heq ?_ ?_; (on_goal 1 => clear heq); (on_goal 2 => intro hx)) | (refine kI s.fixed _ (takePacket_fixed heq) ?_; intro hx))))
    | (simp [*]; done)

@[simp] theorem execHarvestDrain_fixed (cid : Nat) (s : State) :
    Out.fixes (execHarvestDrain cid s) s.fixed := by
  unfold execHarvestDrain
  repeat' first
    | lift_lets -underBinder
    | (intro x; clear_value x)
    | (with_reducible apply State.withCmd_fixed; intro s _)
    | with_reducible apply kite
    | intro _
    | (simp; done)
    | (split <;> (try (rename_i heq; first | (refine kU1 s.fixed heq ?_ ?_; (on_goal 1 => clear heq); (on_goal 2 => intro hx)) | (refine kU2 s.fixed heq ?_ ?_; (on_goal 1 => clear heq); (on_goal 2 => intro hx)) | (refine kI s.fixed _ (takePacket_fixed heq) ?_; intro hx))))
    | (simp [*]; done)

@[simp] theorem State.restoreFails_fixed (s : State) (verifyOnly : Bool) :
    (State.restoreFails s verifyOnly).fixed = s.fixed := by
  unfold State.restoreFails
  repeat' first
    | lift_lets -underBinder
    | (intro x; clear_value x)
    | with_reducible apply kite
    | intro _
    | (simp; done)

@[simp] theorem State.restoreShards_fixed (s : State) (x0 : List (Shard × List Byte)) :
    (State.restoreShards s x0).1.fixed = s.fixed := by
  induction x0 generalizing s with
  | nil =>
    unfold State.restoreShards
    repeat' first
      | (simp; done)
  | cons e l ih =>
    unfold State.restoreShards
    repeat' first
      | with_reducible assumption
      | lift_lets -underBinder
      | (simp; done)
      | (split <;> (try (rename_i heq; first | (refine kU1 s.fixed heq ?_ ?_; (on_goal 1 => clear heq); (on_goal 2 => intro hx)) | (refine kU2 s.fixed heq ?_ ?_; (on_goal 1 => clear heq); (on_goal 2 => intro hx)) | (refine kI s.fixed _ (takePacket_fixed heq) ?_; intro hx))))
      | (simp [*]; done)

@[simp] theorem State.restoreEnd_fixed (s : State) (m mirror : List Byte) (withMirror : Bool) :
    (State.restoreEnd s m mirror withMirror).fixed = s.fixed := by
  unfold State.restoreEnd
  repeat' first
    | with_reducible assumption
    | lift_lets -underBinder
    | (intro (x : State); refine kI (x := x) s.fixed _ ?_ ?_; (on_goal 1 => subst x); (on_goal 2 => (intro hx; clear_value x)))
    | (intro x; clear_value x)
    | with_reducible apply kite
    | intro _
    | (simp; done)
    | (split <;> (try (rename_i heq; first | (refine kU1 s.fixed heq ?_ ?_; (on_goal 1 => clear heq); (on_goal 2 => intro hx)) | (refine kU2 s.fixed heq ?_ ?_; (on_goal 1 => clear heq); (on_goal 2 => intro hx)) | (refine kI s.fixed _ (takePacket_fixed heq) ?_; intro hx))))
    | (simp [*]; done)

@[simp] theorem State.endRestore_fixed (s : State) :
    (State.endRestore s).fixed = s.fixed := by
  unfold State.endRestore
  repeat' first
    | lift_lets -underBinder
    | (intro x; clear_value x)
    | (simp; done)

@[simp] theorem State.restoreWith_fixed (s : State) (c : Cmd) (manifest : List Byte) (shards : List (List Byte)) (mirror : List Byte) :
    (State.restoreWith s c manifest shards mirror).fixed = s.fixed := by
  unfold State.restoreWith
  repeat' first
    | lift_lets -underBinder
    | (intro x; clear_value x)
    | with_reducible apply kite
    | with_reducible apply kite1
    | intro _
    | (simp; done)
    | (split <;> (try (rename_i heq; first | (refine kU1 s.fixed heq ?_ ?_; (on_goal 1 => clear heq); (on_goal 2 => intro hx)) | (refine kU2 s.fixed heq ?_ ?_; (on_goal 1 => clear heq); (on_goal 2 => intro hx)) | (refine kI s.fixed _ (takePacket_fixed heq) ?_; intro hx))))
    | (simp [*]; done)

@[simp] theorem State.noManifest_fixed (s : State) (c : Cmd) :
    (State.noManifest s c).fixed = s.fixed := by
  unfold State.noManifest
  repeat' first
    | (simp; done)

@[simp] theorem State.fetchHolder_fixed (s : State) (c : Cmd) (r : Restore) (l : List (Nat × Nat)) :
    (State.fetchHolder s c r l).fixed = s.fixed := by
  unfold State.fetchHolder
  repeat' first
    | lift_lets -underBinder
    | (intro (x : _ → State); refine kH (x := x) s.fixed _ ?_ ?_; (on_goal 1 => subst x; intro _; beta_reduce); (on_goal 2 => (intro hx; clear_value x)))
    | (intro x; clear_value x)
    | with_reducible (refine kfold ?_ ?_; (on_goal 2 => intro s _))
    | with_reducible apply kite
    | intro _
    | (simp; done)
    | (split <;> (try (rename_i heq; first | (refine kU1 s.fixed heq ?_ ?_; (on_goal 1 => clear heq); (on_goal 2 => intro hx)) | (refine kU2 s.fixed heq ?_ ?_; (on_goal 1 => clear heq); (on_goal 2 => intro hx)) | (refine kI s.fixed _ (takePacket_fixed heq) ?_; intro hx))))
    | (simp [*]; done)

@[simp] theorem State.startRestore_fixed (s : State) (c : Cmd) :
    (State.startRestore s c).fixed = s.fixed := by
  unfold State.startRestore
  repeat' first
    | lift_lets -underBinder
    | (intro (x : State); refine kI (x := x) s.fixed _ ?_ ?_; (on_goal 1 => subst x); (on_goal 2 => (intro hx; clear_value x)))
    | (intro x; clear_value x)
    | with_reducible apply kite
    | intro _
    | (simp; done)
    | (simp [*]; done)

@[simp] theorem State.restoreStep_fixed (s : State) (c : Cmd) (r : Restore) :
    (State.restoreStep s c r).fixed = s.fixed := by
  unfold State.restoreStep
  repeat' first
    | lift_lets -underBinder
    | (intro x; clear_value x)
    | with_reducible apply kite
    | intro _
    | (simp; done)
    | (split <;> (try (rename_i heq; first | (refine kU1 s.fixed heq ?_ ?_; (on_goal 1 => clear heq); (on_goal 2 => intro hx)) | (refine kU2 s.fixed heq ?_ ?_; (on_goal 1 => clear heq); (on_goal 2 => intro hx)) | (refine kI s.fixed _ (takePacket_fixed heq) ?_; intro hx))))

@[simp] theorem State.restoreTurn_fixed (s : State) (c : Cmd) (manifest : List Byte) (shards : List (List Byte)) :
    (State.restoreTurn s c manifest shards).fixed = s.fixed := by
  unfold State.restoreTurn
  repeat' first
    | lift_lets -underBinder
    | with_reducible apply kite
    | intro _
    | (simp; done)
    | (split <;> (try (rename_i heq; first | (refine kU1 s.fixed heq ?_ ?_; (on_goal 1 => clear heq); (on_goal 2 => intro hx)) | (refine kU2 s.fixed heq ?_ ?_; (on_goal 1 => clear heq); (on_goal 2 => intro hx)) | (refine kI s.fixed _ (takePacket_fixed heq) ?_; intro hx))))

@[simp] theorem execHarvestRestore_fixed (cid : Nat) (head entries : List Byte) (shards : List (List Byte)) (s : State) :
    Out.fixes (execHarvestRestore cid head entries shards s) s.fixed := by
  unfold execHarvestRestore
  repeat' first
    | lift_lets -underBinder
    | (intro x; clear_value x)
    | (with_reducible apply State.withCmd_fixed; intro s _)
    | with_reducible apply kite
    | with_reducible apply kite1
    | intro _
    | (simp; done)
    | (split <;> (try (rename_i heq; first | (refine kU1 s.fixed heq ?_ ?_; (on_goal 1 => clear heq); (on_goal 2 => intro hx)) | (refine kU2 s.fixed heq ?_ ?_; (on_goal 1 => clear heq); (on_goal 2 => intro hx)) | (refine kI s.fixed _ (takePacket_fixed heq) ?_; intro hx))))
    | (simp [*]; done)

@[simp] theorem State.mmaIssue_fixed (s : State) (d t c : Nat) (q : QEntry) :
    (State.mmaIssue s d t c q).fixed = s.fixed := by
  unfold State.mmaIssue
  repeat' first
    | with_reducible assumption
    | lift_lets -underBinder
    | (intro (x : State); refine kI (x := x) s.fixed _ ?_ ?_; (on_goal 1 => subst x); (on_goal 2 => (intro hx; clear_value x)))
    | (intro x; clear_value x)
    | with_reducible apply kite
    | intro _
    | (simp; done)
    | (split <;> (try (rename_i heq; first | (refine kU1 s.fixed heq ?_ ?_; (on_goal 1 => clear heq); (on_goal 2 => intro hx)) | (refine kU2 s.fixed heq ?_ ?_; (on_goal 1 => clear heq); (on_goal 2 => intro hx)) | (refine kI s.fixed _ (takePacket_fixed heq) ?_; intro hx))))
    | (simp [*]; done)

@[simp] theorem execMma_fixed (d : Fin 32) (t : Fin 144) (c : Nat) (s : State) :
    Out.fixes (execMma d t c s) s.fixed := by
  unfold execMma
  repeat' first
    | lift_lets -underBinder
    | (with_reducible apply State.execHead_fixed; intro s _)
    | (simp; done)

@[simp] theorem State.mmaResult_fixed (s : State) (d t : Nat) (upset : Option (Fin 4096 × BitVec 72)) (j : MmaJob) :
    (State.mmaResult s d t upset j).fixed = s.fixed := by
  unfold State.mmaResult
  repeat' first
    | lift_lets -underBinder
    | (intro x; clear_value x)
    | (simp; done)

@[simp] theorem execMmaResultCycle_fixed (d : Fin 32) (t : Fin 144) (upset : Option (Fin 4096 × BitVec 72)) (s : State) :
    Out.fixes (execMmaResultCycle d t upset s) s.fixed := by
  unfold execMmaResultCycle
  repeat' first
    | lift_lets -underBinder
    | with_reducible refine (Out.fixes_next _ _).mpr ?_
    | (simp; done)
    | (split <;> (try (rename_i heq; first | (refine kU1 s.fixed heq ?_ ?_; (on_goal 1 => clear heq); (on_goal 2 => intro hx)) | (refine kU2 s.fixed heq ?_ ?_; (on_goal 1 => clear heq); (on_goal 2 => intro hx)) | (refine kI s.fixed _ (takePacket_fixed heq) ?_; intro hx))))

@[simp] theorem State.condemn_fixed (s : State) (d : Nat) :
    (State.condemn s d).fixed = s.fixed := by
  unfold State.condemn
  repeat' first
    | lift_lets -underBinder
    | (intro x; clear_value x)
    | with_reducible apply kite
    | intro _
    | (simp; done)

@[simp] theorem State.abftFail_fixed (s : State) (d t : Nat) (j : MmaJob) (col row : Nat) :
    (State.abftFail s d t j col row).fixed = s.fixed := by
  unfold State.abftFail
  repeat' first
    | with_reducible assumption
    | lift_lets -underBinder
    | (intro (x : State); refine kI (x := x) s.fixed _ ?_ ?_; (on_goal 1 => subst x); (on_goal 2 => (intro hx; clear_value x)))
    | (intro x; clear_value x)
    | with_reducible apply kite
    | intro _
    | (simp; done)
    | (simp [*]; done)

@[simp] theorem State.abftJudge_fixed (s : State) (d t : Nat) (x : AbftJob) :
    (State.abftJudge s d t x).fixed = s.fixed := by
  unfold State.abftJudge
  repeat' first
    | with_reducible assumption
    | lift_lets -underBinder
    | (intro (x : State); refine kI (x := x) s.fixed _ ?_ ?_; (on_goal 1 => subst x); (on_goal 2 => (intro hx; clear_value x)))
    | (intro x; clear_value x)
    | with_reducible apply kite
    | intro _
    | (simp; done)
    | (simp [*]; done)

@[simp] theorem execAbftVerdict_fixed (d : Fin 32) (t : Fin 144) (s : State) :
    Out.fixes (execAbftVerdict d t s) s.fixed := by
  unfold execAbftVerdict
  repeat' first
    | with_reducible assumption
    | lift_lets -underBinder
    | with_reducible refine (Out.fixes_next _ _).mpr ?_
    | (intro (x : State); refine kI (x := x) s.fixed _ ?_ ?_; (on_goal 1 => subst x); (on_goal 2 => (intro hx; clear_value x)))
    | (intro x; clear_value x)
    | with_reducible apply kiteO
    | intro _
    | (simp; done)
    | (split <;> (try (rename_i heq; first | (refine kU1 s.fixed heq ?_ ?_; (on_goal 1 => clear heq); (on_goal 2 => intro hx)) | (refine kU2 s.fixed heq ?_ ?_; (on_goal 1 => clear heq); (on_goal 2 => intro hx)) | (refine kI s.fixed _ (takePacket_fixed heq) ?_; intro hx))))
    | (simp [*]; done)

@[simp] theorem State.hazard_fixed (s : State) (d t : Nat) (q : QEntry) (accs : List Nat) (early : Bool) :
    (State.hazard s d t q accs early).fixed = s.fixed := by
  unfold State.hazard
  repeat' first
    | lift_lets -underBinder
    | (intro x; clear_value x)
    | with_reducible apply kite
    | intro _
    | (simp; done)
    | (split <;> (try (rename_i heq; first | (refine kU1 s.fixed heq ?_ ?_; (on_goal 1 => clear heq); (on_goal 2 => intro hx)) | (refine kU2 s.fixed heq ?_ ?_; (on_goal 1 => clear heq); (on_goal 2 => intro hx)) | (refine kI s.fixed _ (takePacket_fixed heq) ?_; intro hx))))

@[simp] theorem State.accstIssue_fixed (s : State) (d t c : Nat) (q : QEntry) :
    (State.accstIssue s d t c q).fixed = s.fixed := by
  unfold State.accstIssue
  repeat' first
    | lift_lets -underBinder
    | (intro (x : State); refine kI (x := x) s.fixed _ ?_ ?_; (on_goal 1 => subst x); (on_goal 2 => (intro hx; clear_value x)))
    | (intro x; clear_value x)
    | (simp; done)
    | (split <;> (try (rename_i heq; first | (refine kU1 s.fixed heq ?_ ?_; (on_goal 1 => clear heq); (on_goal 2 => intro hx)) | (refine kU2 s.fixed heq ?_ ?_; (on_goal 1 => clear heq); (on_goal 2 => intro hx)) | (refine kI s.fixed _ (takePacket_fixed heq) ?_; intro hx))))
    | (simp [*]; done)

@[simp] theorem execAccst_fixed (d : Fin 32) (t : Fin 144) (c : Nat) (s : State) :
    Out.fixes (execAccst d t c s) s.fixed := by
  unfold execAccst
  repeat' first
    | lift_lets -underBinder
    | (with_reducible apply State.execHead_fixed; intro s _)
    | (simp; done)

@[simp] theorem execConverterRow_fixed (d : Fin 32) (t : Fin 144) (s : State) :
    Out.fixes (execConverterRow d t s) s.fixed := by
  unfold execConverterRow
  repeat' first
    | lift_lets -underBinder
    | with_reducible refine (Out.fixes_next _ _).mpr ?_
    | (intro x; clear_value x)
    | (simp; done)
    | (split <;> (try (rename_i heq; first | (refine kU1 s.fixed heq ?_ ?_; (on_goal 1 => clear heq); (on_goal 2 => intro hx)) | (refine kU2 s.fixed heq ?_ ?_; (on_goal 1 => clear heq); (on_goal 2 => intro hx)) | (refine kI s.fixed _ (takePacket_fixed heq) ?_; intro hx))))

@[simp] theorem State.accsaveIssue_fixed (s : State) (d t c : Nat) (q : QEntry) :
    (State.accsaveIssue s d t c q).fixed = s.fixed := by
  unfold State.accsaveIssue
  repeat' first
    | lift_lets -underBinder
    | (intro (x : State); refine kI (x := x) s.fixed _ ?_ ?_; (on_goal 1 => subst x); (on_goal 2 => (intro hx; clear_value x)))
    | (intro x; clear_value x)
    | (simp; done)
    | (split <;> (try (rename_i heq; first | (refine kU1 s.fixed heq ?_ ?_; (on_goal 1 => clear heq); (on_goal 2 => intro hx)) | (refine kU2 s.fixed heq ?_ ?_; (on_goal 1 => clear heq); (on_goal 2 => intro hx)) | (refine kI s.fixed _ (takePacket_fixed heq) ?_; intro hx))))
    | (simp [*]; done)

@[simp] theorem execAccsave_fixed (d : Fin 32) (t : Fin 144) (c : Nat) (s : State) :
    Out.fixes (execAccsave d t c s) s.fixed := by
  unfold execAccsave
  repeat' first
    | lift_lets -underBinder
    | (with_reducible apply State.execHead_fixed; intro s _)
    | (simp; done)

@[simp] theorem State.accloadIssue_fixed (s : State) (d t c : Nat) (q : QEntry) :
    (State.accloadIssue s d t c q).fixed = s.fixed := by
  unfold State.accloadIssue
  repeat' first
    | lift_lets -underBinder
    | (intro x; clear_value x)
    | (simp; done)
    | (split <;> (try (rename_i heq; first | (refine kU1 s.fixed heq ?_ ?_; (on_goal 1 => clear heq); (on_goal 2 => intro hx)) | (refine kU2 s.fixed heq ?_ ?_; (on_goal 1 => clear heq); (on_goal 2 => intro hx)) | (refine kI s.fixed _ (takePacket_fixed heq) ?_; intro hx))))

@[simp] theorem execAccload_fixed (d : Fin 32) (t : Fin 144) (c : Nat) (s : State) :
    Out.fixes (execAccload d t c s) s.fixed := by
  unfold execAccload
  repeat' first
    | lift_lets -underBinder
    | (with_reducible apply State.execHead_fixed; intro s _)
    | (simp; done)

@[simp] theorem execAccloadExchange_fixed (d : Fin 32) (t : Fin 144) (s : State) :
    Out.fixes (execAccloadExchange d t s) s.fixed := by
  unfold execAccloadExchange
  repeat' first
    | with_reducible assumption
    | lift_lets -underBinder
    | with_reducible refine (Out.fixes_next _ _).mpr ?_
    | (intro (x : State); refine kI (x := x) s.fixed _ ?_ ?_; (on_goal 1 => subst x); (on_goal 2 => (intro hx; clear_value x)))
    | (intro x; clear_value x)
    | (simp; done)
    | (split <;> (try (rename_i heq; first | (refine kU1 s.fixed heq ?_ ?_; (on_goal 1 => clear heq); (on_goal 2 => intro hx)) | (refine kU2 s.fixed heq ?_ ?_; (on_goal 1 => clear heq); (on_goal 2 => intro hx)) | (refine kI s.fixed _ (takePacket_fixed heq) ?_; intro hx))))
    | (simp [*]; done)

@[simp] theorem execAccumulatorReadComplete_fixed (d : Fin 32) (t : Fin 144) (s : State) :
    Out.fixes (execAccumulatorReadComplete d t s) s.fixed := by
  unfold execAccumulatorReadComplete
  repeat' first
    | lift_lets -underBinder
    | with_reducible refine (Out.fixes_next _ _).mpr ?_
    | (intro (x : State); refine kI (x := x) s.fixed _ ?_ ?_; (on_goal 1 => subst x); (on_goal 2 => (intro hx; clear_value x)))
    | (intro x; clear_value x)
    | with_reducible apply kiteO
    | intro _
    | (simp; done)
    | (split <;> (try (rename_i heq; first | (refine kU1 s.fixed heq ?_ ?_; (on_goal 1 => clear heq); (on_goal 2 => intro hx)) | (refine kU2 s.fixed heq ?_ ?_; (on_goal 1 => clear heq); (on_goal 2 => intro hx)) | (refine kI s.fixed _ (takePacket_fixed heq) ?_; intro hx))))
    | (simp [*]; done)

@[simp] theorem State.redTry_fixed (s : State) (d t c : Nat) (q : QEntry) (run : Tile → Tile) :
    (State.redTry s d t c q run).fixed = s.fixed := by
  unfold State.redTry
  repeat' first
    | lift_lets -underBinder
    | (intro x; clear_value x)
    | (simp; done)
    | (split <;> (try (rename_i heq; first | (refine kU1 s.fixed heq ?_ ?_; (on_goal 1 => clear heq); (on_goal 2 => intro hx)) | (refine kU2 s.fixed heq ?_ ?_; (on_goal 1 => clear heq); (on_goal 2 => intro hx)) | (refine kI s.fixed _ (takePacket_fixed heq) ?_; intro hx))))

@[simp] theorem State.redIssue_fixed (s : State) (d t c : Nat) (q : QEntry) :
    (State.redIssue s d t c q).fixed = s.fixed := by
  unfold State.redIssue
  repeat' first
    | (simp; done)

@[simp] theorem execRed_fixed (d : Fin 32) (t : Fin 144) (c : Nat) (s : State) :
    Out.fixes (execRed d t c s) s.fixed := by
  unfold execRed
  repeat' first
    | lift_lets -underBinder
    | (with_reducible apply State.execHead_fixed; intro s _)
    | (simp; done)

@[simp] theorem State.raccIssue_fixed (s : State) (d t c : Nat) (q : QEntry) :
    (State.raccIssue s d t c q).fixed = s.fixed := by
  unfold State.raccIssue
  repeat' first
    | (simp; done)

@[simp] theorem execRacc_fixed (d : Fin 32) (t : Fin 144) (c : Nat) (s : State) :
    Out.fixes (execRacc d t c s) s.fixed := by
  unfold execRacc
  repeat' first
    | lift_lets -underBinder
    | (with_reducible apply State.execHead_fixed; intro s _)
    | (simp; done)

@[simp] theorem State.rfoldIssue_fixed (s : State) (d t c : Nat) (q : QEntry) :
    (State.rfoldIssue s d t c q).fixed = s.fixed := by
  unfold State.rfoldIssue
  repeat' first
    | (simp; done)

@[simp] theorem execRfold_fixed (d : Fin 32) (t : Fin 144) (c : Nat) (s : State) :
    Out.fixes (execRfold d t c s) s.fixed := by
  unfold execRfold
  repeat' first
    | lift_lets -underBinder
    | (with_reducible apply State.execHead_fixed; intro s _)
    | (simp; done)

@[simp] theorem State.rclrIssue_fixed (s : State) (d t c : Nat) (q : QEntry) :
    (State.rclrIssue s d t c q).fixed = s.fixed := by
  unfold State.rclrIssue
  repeat' first
    | (simp; done)

@[simp] theorem execRclr_fixed (d : Fin 32) (t : Fin 144) (c : Nat) (s : State) :
    Out.fixes (execRclr d t c s) s.fixed := by
  unfold execRclr
  repeat' first
    | lift_lets -underBinder
    | (with_reducible apply State.execHead_fixed; intro s _)
    | (simp; done)

@[simp] theorem execReductionComplete_fixed (d : Fin 32) (t : Fin 144) (s : State) :
    Out.fixes (execReductionComplete d t s) s.fixed := by
  unfold execReductionComplete
  repeat' first
    | lift_lets -underBinder
    | with_reducible refine (Out.fixes_next _ _).mpr ?_
    | (intro x; clear_value x)
    | (with_reducible apply State.ownEvent_fixed; intro s)
    | (simp; done)
    | (split <;> (try (rename_i heq; first | (refine kU1 s.fixed heq ?_ ?_; (on_goal 1 => clear heq); (on_goal 2 => intro hx)) | (refine kU2 s.fixed heq ?_ ?_; (on_goal 1 => clear heq); (on_goal 2 => intro hx)) | (refine kI s.fixed _ (takePacket_fixed heq) ?_; intro hx))))

@[simp] theorem State.stashDone_fixed (s : State) (b : Nat) (c : Cmd) (err : Option Nat) (len bad : Nat) :
    (State.stashDone s b c err len bad).fixed = s.fixed := by
  unfold State.stashDone
  repeat' first
    | lift_lets -underBinder
    | (intro (x : State); refine kI (x := x) s.fixed _ ?_ ?_; (on_goal 1 => subst x); (on_goal 2 => (intro hx; clear_value x)))
    | with_reducible apply kite
    | intro _
    | (simp; done)
    | (split <;> (try (rename_i heq; first | (refine kU1 s.fixed heq ?_ ?_; (on_goal 1 => clear heq); (on_goal 2 => intro hx)) | (refine kU2 s.fixed heq ?_ ?_; (on_goal 1 => clear heq); (on_goal 2 => intro hx)) | (refine kI s.fixed _ (takePacket_fixed heq) ?_; intro hx))))
    | (simp [*]; done)

@[simp] theorem State.stashError_fixed (s : State) (b code addr : Nat) :
    (State.stashError s b code addr).fixed = s.fixed := by
  unfold State.stashError
  repeat' first
    | (simp; done)

@[simp] theorem execStashPack_fixed (cid : Nat) (s : State) :
    Out.fixes (execStashPack cid s) s.fixed := by
  unfold execStashPack
  repeat' first
    | lift_lets -underBinder
    | (intro x; clear_value x)
    | (with_reducible apply State.withCmd_fixed; intro s _)
    | (with_reducible apply State.oneDie_fixed; intro s _)
    | (simp; done)
    | (split <;> (try (rename_i heq; first | (refine kU1 s.fixed heq ?_ ?_; (on_goal 1 => clear heq); (on_goal 2 => intro hx)) | (refine kU2 s.fixed heq ?_ ?_; (on_goal 1 => clear heq); (on_goal 2 => intro hx)) | (refine kI s.fixed _ (takePacket_fixed heq) ?_; intro hx))))
    | (simp [*]; done)

theorem unpackStep_fixed (b src dst : Nat) (u : Unpack) (i : Nat) :
    (unpackStep b src dst u i).s.fixed = u.s.fixed := by
  unfold unpackStep
  split
  · rfl
  lift_lets -underBinder
  intro fail
  have hf : ∀ s code addr, (fail s code addr).s.fixed = s.fixed := by
    intro s code addr
    simp [fail]
  clear_value fail
  repeat' first
    | with_reducible assumption
    | lift_lets -underBinder
    | (intro (x : State); refine kI (x := x) u.s.fixed _ ?_ ?_; (on_goal 1 => subst x); (on_goal 2 => (intro hx; clear_value x)))
    | (intro x; clear_value x)
    | (simp; done)
    | (split <;> (try (rename_i heq; refine kU1 u.s.fixed heq ?_ ?_; (on_goal 1 => clear heq); (on_goal 2 => intro hx))))
    | (simp [*]; done)

@[simp] theorem unpackFold_fixed (b src dst : Nat) (l : List Nat) (u : Unpack) :
    (l.foldl (unpackStep b src dst) u).s.fixed = u.s.fixed := by
  induction l generalizing u with
  | nil => rfl
  | cons e l ih => rw [List.foldl_cons, ih, unpackStep_fixed]

@[simp] theorem execStashUnpack_fixed (cid : Nat) (s : State) : Out.fixes (execStashUnpack cid s) s.fixed := by
  unfold execStashUnpack
  apply State.withCmd_fixed
  intro s c
  apply State.oneDie_fixed
  intro s b
  dsimp only
  rw [State.stashDone_fixed, unpackFold_fixed]

@[simp] theorem State.syncTry_fixed (s : State) (d t : Nat) (q : QEntry) (run : Tile → Tile) :
    (State.syncTry s d t q run).fixed = s.fixed := by
  unfold State.syncTry
  repeat' first
    | lift_lets -underBinder
    | with_reducible apply kite
    | intro _
    | (simp; done)

@[simp] theorem execSignal_fixed (d : Fin 32) (t : Fin 144) (acc : Bool) (c : Nat) (s : State) :
    Out.fixes (execSignal d t acc c s) s.fixed := by
  unfold execSignal
  repeat' first
    | lift_lets -underBinder
    | (with_reducible apply State.sideHead_fixed; intro s _)
    | (simp; done)

@[simp] theorem execWait_fixed (d : Fin 32) (t : Fin 144) (acc : Bool) (c : Nat) (s : State) :
    Out.fixes (execWait d t acc c s) s.fixed := by
  unfold execWait
  repeat' first
    | lift_lets -underBinder
    | (with_reducible apply State.sideHead_fixed; intro s _)
    | (simp; done)

@[simp] theorem execWaitalm_fixed (d : Fin 32) (t : Fin 144) (acc : Bool) (c : Nat) (s : State) :
    Out.fixes (execWaitalm d t acc c s) s.fixed := by
  unfold execWaitalm
  repeat' first
    | lift_lets -underBinder
    | (with_reducible apply State.sideHead_fixed; intro s _)
    | (simp; done)

@[simp] theorem execNotify_fixed (d : Fin 32) (t : Fin 144) (acc : Bool) (c : Nat) (s : State) :
    Out.fixes (execNotify d t acc c s) s.fixed := by
  unfold execNotify
  repeat' first
    | lift_lets -underBinder
    | (intro x; clear_value x)
    | (with_reducible apply State.headIssue_fixed; intro s _)
    | with_reducible apply kite
    | intro _
    | (simp; done)

@[simp] theorem execFset_fixed (d : Fin 32) (t : Fin 144) (acc : Bool) (c : Nat) (s : State) :
    Out.fixes (execFset d t acc c s) s.fixed := by
  unfold execFset
  repeat' first
    | lift_lets -underBinder
    | (with_reducible apply State.sideHead_fixed; intro s _)
    | (simp; done)

@[simp] theorem execNotifyEventTake_fixed (d : Fin 32) (s : State) :
    Out.fixes (execNotifyEventTake d s) s.fixed := by
  unfold execNotifyEventTake
  repeat' first
    | lift_lets -underBinder
    | with_reducible refine (Out.fixes_next _ _).mpr ?_
    | (intro x; clear_value x)
    | (simp; done)
    | (split <;> (try (rename_i heq; first | (refine kU1 s.fixed heq ?_ ?_; (on_goal 1 => clear heq); (on_goal 2 => intro hx)) | (refine kU2 s.fixed heq ?_ ?_; (on_goal 1 => clear heq); (on_goal 2 => intro hx)) | (refine kI s.fixed _ (takePacket_fixed heq) ?_; intro hx))))

@[simp] theorem State.vecTry_fixed (s : State) (d t : Nat) (q : QEntry) (checks : List (Bool × Nat)) (run : Tile → Tile) :
    (State.vecTry s d t q checks run).fixed = s.fixed := by
  unfold State.vecTry
  repeat' first
    | (simp; done)
    | (split <;> (try (rename_i heq; first | (refine kU1 s.fixed heq ?_ ?_; (on_goal 1 => clear heq); (on_goal 2 => intro hx)) | (refine kU2 s.fixed heq ?_ ?_; (on_goal 1 => clear heq); (on_goal 2 => intro hx)) | (refine kI s.fixed _ (takePacket_fixed heq) ?_; intro hx))))

@[simp] theorem State.vsetvlIssue_fixed (s : State) (d t c : Nat) (q : QEntry) :
    (State.vsetvlIssue s d t c q).fixed = s.fixed := by
  unfold State.vsetvlIssue
  repeat' first
    | (simp; done)

@[simp] theorem execVsetvl_fixed (d : Fin 32) (t : Fin 144) (c : Nat) (s : State) :
    Out.fixes (execVsetvl d t c s) s.fixed := by
  unfold execVsetvl
  repeat' first
    | lift_lets -underBinder
    | (with_reducible apply State.execHead_fixed; intro s _)
    | (simp; done)

@[simp] theorem State.vfaIssue_fixed (s : State) (d t c : Nat) (q : QEntry) :
    (State.vfaIssue s d t c q).fixed = s.fixed := by
  unfold State.vfaIssue
  repeat' first
    | (simp; done)

@[simp] theorem execVfa_fixed (d : Fin 32) (t : Fin 144) (c : Nat) (s : State) :
    Out.fixes (execVfa d t c s) s.fixed := by
  unfold execVfa
  repeat' first
    | lift_lets -underBinder
    | (with_reducible apply State.execHead_fixed; intro s _)
    | with_reducible apply kite
    | intro _
    | (simp; done)

@[simp] theorem State.vfdIssue_fixed (s : State) (d t c : Nat) (q : QEntry) :
    (State.vfdIssue s d t c q).fixed = s.fixed := by
  unfold State.vfdIssue
  repeat' first
    | (simp; done)

@[simp] theorem execVfd_fixed (d : Fin 32) (t : Fin 144) (c : Nat) (s : State) :
    Out.fixes (execVfd d t c s) s.fixed := by
  unfold execVfd
  repeat' first
    | lift_lets -underBinder
    | (with_reducible apply State.execHead_fixed; intro s _)
    | (simp; done)

@[simp] theorem State.vtrIssue_fixed (s : State) (d t c : Nat) (q : QEntry) :
    (State.vtrIssue s d t c q).fixed = s.fixed := by
  unfold State.vtrIssue
  repeat' first
    | (simp; done)

@[simp] theorem execVtr_fixed (d : Fin 32) (t : Fin 144) (c : Nat) (s : State) :
    Out.fixes (execVtr d t c s) s.fixed := by
  unfold execVtr
  repeat' first
    | lift_lets -underBinder
    | (with_reducible apply State.execHead_fixed; intro s _)
    | (simp; done)

@[simp] theorem State.viaIssue_fixed (s : State) (d t c : Nat) (q : QEntry) :
    (State.viaIssue s d t c q).fixed = s.fixed := by
  unfold State.viaIssue
  repeat' first
    | (simp; done)

@[simp] theorem execVia_fixed (d : Fin 32) (t : Fin 144) (c : Nat) (s : State) :
    Out.fixes (execVia d t c s) s.fixed := by
  unfold execVia
  repeat' first
    | lift_lets -underBinder
    | (with_reducible apply State.execHead_fixed; intro s _)
    | (simp; done)

@[simp] theorem State.vcmpIssue_fixed (s : State) (d t c : Nat) (q : QEntry) :
    (State.vcmpIssue s d t c q).fixed = s.fixed := by
  unfold State.vcmpIssue
  repeat' first
    | (simp; done)

@[simp] theorem execVcmp_fixed (d : Fin 32) (t : Fin 144) (c : Nat) (s : State) :
    Out.fixes (execVcmp d t c s) s.fixed := by
  unfold execVcmp
  repeat' first
    | lift_lets -underBinder
    | (with_reducible apply State.execHead_fixed; intro s _)
    | (simp; done)

@[simp] theorem State.vicmpIssue_fixed (s : State) (d t c : Nat) (q : QEntry) :
    (State.vicmpIssue s d t c q).fixed = s.fixed := by
  unfold State.vicmpIssue
  repeat' first
    | (simp; done)

@[simp] theorem execVicmp_fixed (d : Fin 32) (t : Fin 144) (c : Nat) (s : State) :
    Out.fixes (execVicmp d t c s) s.fixed := by
  unfold execVicmp
  repeat' first
    | lift_lets -underBinder
    | (with_reducible apply State.execHead_fixed; intro s _)
    | (simp; done)

@[simp] theorem State.vmaskIssue_fixed (s : State) (d t c : Nat) (q : QEntry) :
    (State.vmaskIssue s d t c q).fixed = s.fixed := by
  unfold State.vmaskIssue
  repeat' first
    | (simp; done)

@[simp] theorem execVmask_fixed (d : Fin 32) (t : Fin 144) (c : Nat) (s : State) :
    Out.fixes (execVmask d t c s) s.fixed := by
  unfold execVmask
  repeat' first
    | lift_lets -underBinder
    | (with_reducible apply State.execHead_fixed; intro s _)
    | (simp; done)

@[simp] theorem State.vcvtIssue_fixed (s : State) (d t c : Nat) (q : QEntry) :
    (State.vcvtIssue s d t c q).fixed = s.fixed := by
  unfold State.vcvtIssue
  repeat' first
    | (simp; done)

@[simp] theorem execVcvt_fixed (d : Fin 32) (t : Fin 144) (c : Nat) (s : State) :
    Out.fixes (execVcvt d t c s) s.fixed := by
  unfold execVcvt
  repeat' first
    | lift_lets -underBinder
    | (with_reducible apply State.execHead_fixed; intro s _)
    | (simp; done)

@[simp] theorem State.vpermIssue_fixed (s : State) (d t c : Nat) (q : QEntry) :
    (State.vpermIssue s d t c q).fixed = s.fixed := by
  unfold State.vpermIssue
  repeat' first
    | (simp; done)

@[simp] theorem execVperm_fixed (d : Fin 32) (t : Fin 144) (c : Nat) (s : State) :
    Out.fixes (execVperm d t c s) s.fixed := by
  unfold execVperm
  repeat' first
    | lift_lets -underBinder
    | (with_reducible apply State.execHead_fixed; intro s _)
    | (simp; done)

@[simp] theorem State.vqpopIssue_fixed (s : State) (d t c : Nat) (q : QEntry) :
    (State.vqpopIssue s d t c q).fixed = s.fixed := by
  unfold State.vqpopIssue
  repeat' first
    | with_reducible assumption
    | lift_lets -underBinder
    | (intro (x : State); refine kI (x := x) s.fixed _ ?_ ?_; (on_goal 1 => subst x); (on_goal 2 => (intro hx; clear_value x)))
    | (intro x; clear_value x)
    | with_reducible apply kite
    | intro _
    | (simp; done)
    | (split <;> (try (rename_i heq; first | (refine kU1 s.fixed heq ?_ ?_; (on_goal 1 => clear heq); (on_goal 2 => intro hx)) | (refine kU2 s.fixed heq ?_ ?_; (on_goal 1 => clear heq); (on_goal 2 => intro hx)) | (refine kI s.fixed _ (takePacket_fixed heq) ?_; intro hx))))
    | (simp [*]; done)

@[simp] theorem execVqpop_fixed (d : Fin 32) (t : Fin 144) (c : Nat) (s : State) :
    Out.fixes (execVqpop d t c s) s.fixed := by
  unfold execVqpop
  repeat' first
    | lift_lets -underBinder
    | (with_reducible apply State.execHead_fixed; intro s _)
    | (simp; done)

@[simp] theorem State.vqpushConvert_fixed (s : State) (d t c : Nat) (q : QEntry) (len : Nat) :
    (State.vqpushConvert s d t c q len).fixed = s.fixed := by
  unfold State.vqpushConvert
  repeat' first
    | lift_lets -underBinder
    | (intro x; clear_value x)
    | (simp; done)

@[simp] theorem State.vqpushIssue_fixed (s : State) (d t c : Nat) (q : QEntry) :
    (State.vqpushIssue s d t c q).fixed = s.fixed := by
  unfold State.vqpushIssue
  repeat' first
    | lift_lets -underBinder
    | (intro x; clear_value x)
    | with_reducible apply kite
    | intro _
    | (simp; done)
    | (split <;> (try (rename_i heq; first | (refine kU1 s.fixed heq ?_ ?_; (on_goal 1 => clear heq); (on_goal 2 => intro hx)) | (refine kU2 s.fixed heq ?_ ?_; (on_goal 1 => clear heq); (on_goal 2 => intro hx)) | (refine kI s.fixed _ (takePacket_fixed heq) ?_; intro hx))))

@[simp] theorem execVqpush_fixed (d : Fin 32) (t : Fin 144) (c : Nat) (s : State) :
    Out.fixes (execVqpush d t c s) s.fixed := by
  unfold execVqpush
  repeat' first
    | lift_lets -underBinder
    | (with_reducible apply State.execHead_fixed; intro s _)
    | (simp; done)

@[simp] theorem execVectorComplete_fixed (d : Fin 32) (t : Fin 144) (s : State) :
    Out.fixes (execVectorComplete d t s) s.fixed := by
  unfold execVectorComplete
  repeat' first
    | lift_lets -underBinder
    | with_reducible refine (Out.fixes_next _ _).mpr ?_
    | (simp; done)
    | (split <;> (try (rename_i heq; first | (refine kU1 s.fixed heq ?_ ?_; (on_goal 1 => clear heq); (on_goal 2 => intro hx)) | (refine kU2 s.fixed heq ?_ ?_; (on_goal 1 => clear heq); (on_goal 2 => intro hx)) | (refine kI s.fixed _ (takePacket_fixed heq) ?_; intro hx))))

@[simp] theorem execVote_fixed (k : Packet) (s : State) :
    Out.fixes (execVote k s) s.fixed := by
  unfold execVote
  repeat' first
    | with_reducible assumption
    | lift_lets -underBinder
    | with_reducible refine (Out.fixes_next _ _).mpr ?_
    | (intro (x : State); refine kI (x := x) s.fixed _ ?_ ?_; (on_goal 1 => subst x); (on_goal 2 => (intro hx; clear_value x)))
    | (intro x; clear_value x)
    | with_reducible apply kiteO
    | intro _
    | (simp; done)
    | (split <;> (try (rename_i heq; first | (refine kU1 s.fixed heq ?_ ?_; (on_goal 1 => clear heq); (on_goal 2 => intro hx)) | (refine kU2 s.fixed heq ?_ ?_; (on_goal 1 => clear heq); (on_goal 2 => intro hx)) | (refine kI s.fixed _ (takePacket_fixed heq) ?_; intro hx))))
    | (simp [*]; done)

end Sys2Proof.Machine
end

