-- ==== Sys2Proof/Laws/Table.lean ====
section
/-! SUPPORT. Tables: a read after a write, and the canonical form that every write keeps. -/
namespace Sys2Proof
set_option Elab.async false

variable {α : Type}

theorem Table.find_erase (t : Table α) (k n : Nat) :
    Table.find (Table.erase t k) n = if k = n then none else Table.find t n := by
  induction t with
  | nil => simp [Table.erase, Table.find]
  | cons e t ih =>
    by_cases h : e.1 = k <;> by_cases h2 : k = n <;> simp_all [Table.erase, Table.find]

theorem Table.find_put (t : Table α) (k n : Nat) (x : α) (h : Table.find t k = none) :
    Table.find (Table.put t k x) n = if k = n then some x else Table.find t n := by
  induction t with
  | nil => simp [Table.put, Table.find]
  | cons e t ih =>
    obtain ⟨j, v⟩ := e
    by_cases hj : j = k
    · simp [Table.find, hj] at h
    · simp only [Table.find, hj, if_false] at h
      by_cases hk : k < j
      · simp [Table.put, Table.find, hk]
      · by_cases hn : j = n
        · subst hn; simp [Table.put, Table.find, hk, Ne.symm hj]
        · simp [Table.put, Table.find, hk, ih h, hn]

@[simp] theorem Table.get_set [DecidableEq α] (d : α) (t : Table α) (k n : Nat) (x : α) :
    Table.get d (Table.set d t k x) n = if k = n then x else Table.get d t n := by
  have h : Table.find (Table.erase t k) k = none := by simp [Table.find_erase]
  by_cases hx : x = d
  · by_cases hk : k = n <;> simp [Table.get, Table.set, hx, Table.find_erase, hk]
  · rw [Table.get, Table.set, if_neg hx, Table.find_put _ _ _ _ h, Table.find_erase]
    by_cases hk : k = n <;> simp [Table.get, hk]

theorem Table.erase_erase (t : Table α) (k : Nat) : Table.erase (Table.erase t k) k = Table.erase t k := by
  induction t with
  | nil => rfl
  | cons e t ih => by_cases h : e.1 = k <;> simp_all [Table.erase]

theorem Table.erase_put (t : Table α) (k : Nat) (x : α) : Table.erase (Table.put t k x) k = Table.erase t k := by
  induction t with
  | nil => simp [Table.put, Table.erase]
  | cons e t ih =>
    by_cases h : k < e.1
    · simp [Table.put, Table.erase, h]
    · by_cases h2 : e.1 = k <;> simp [Table.put, Table.erase, h, h2, ih]

@[simp] theorem Table.set_set [DecidableEq α] (d : α) (t : Table α) (k : Nat) (x y : α) :
    Table.set d (Table.set d t k x) k y = Table.set d t k y := by
  by_cases hx : x = d <;> by_cases hy : y = d <;>
    simp [Table.set, hx, hy, Table.erase_erase, Table.erase_put]

/-! ## The canonical form -/

theorem Table.mem_erase {t : Table α} {k : Nat} {e : Nat × α} (h : e ∈ Table.erase t k) : e ∈ t ∧ e.1 ≠ k := by
  induction t with
  | nil => simp [Table.erase] at h
  | cons a t ih =>
    by_cases ha : a.1 = k
    · simp only [Table.erase, ha, if_true] at h
      exact ⟨.tail _ (ih h).1, (ih h).2⟩
    · simp only [Table.erase, ha, if_false, List.mem_cons] at h
      rcases h with rfl | h
      · exact ⟨by simp, ha⟩
      · exact ⟨.tail _ (ih h).1, (ih h).2⟩

theorem Table.wf_erase [DecidableEq α] (d : α) (t : Table α) (k : Nat) (h : Table.wf d t = true) :
    Table.wf d (Table.erase t k) = true := by
  induction t with
  | nil => rfl
  | cons a t ih =>
    simp only [Table.wf, Bool.and_eq_true, List.all_eq_true, decide_eq_true_eq] at h
    by_cases ha : a.1 = k
    · simpa [Table.erase, ha] using ih h.2
    · simp only [Table.erase, ha, if_false, Table.wf, Bool.and_eq_true, List.all_eq_true, decide_eq_true_eq]
      exact ⟨⟨h.1.1, fun e he => h.1.2 e (Table.mem_erase he).1⟩, ih h.2⟩

theorem Table.mem_put {t : Table α} {k : Nat} {x : α} {e : Nat × α} (h : e ∈ Table.put t k x) :
    e = (k, x) ∨ e ∈ t := by
  induction t with
  | nil => simpa [Table.put] using h
  | cons a t ih =>
    by_cases ha : k < a.1
    · simpa [Table.put, ha] using h
    · simp only [Table.put, ha, if_false, List.mem_cons] at h
      rcases h with rfl | h
      · simp
      · rcases ih h with h | h <;> simp [h]

theorem Table.wf_put [DecidableEq α] (d : α) (t : Table α) (k : Nat) (x : α) (hx : x ≠ d)
    (hk : ∀ e ∈ t, e.1 ≠ k) (h : Table.wf d t = true) : Table.wf d (Table.put t k x) = true := by
  induction t with
  | nil => simp [Table.put, Table.wf, hx]
  | cons a t ih =>
    simp only [Table.wf, Bool.and_eq_true, List.all_eq_true, decide_eq_true_eq] at h
    have hne := hk a (by simp)
    by_cases ha : k < a.1
    · simp only [Table.put, ha, if_true, Table.wf, Bool.and_eq_true, List.all_eq_true, decide_eq_true_eq,
        List.mem_cons]
      refine ⟨⟨hx, ?_⟩, h⟩
      rintro e (rfl | he)
      · exact ha
      · exact Nat.lt_trans ha (h.1.2 e he)
    · simp only [Table.put, ha, if_false, Table.wf, Bool.and_eq_true, List.all_eq_true, decide_eq_true_eq]
      refine ⟨⟨h.1.1, fun e he => ?_⟩, ih (fun e he => hk e (.tail _ he)) h.2⟩
      rcases Table.mem_put he with rfl | he
      · simp only; omega
      · exact h.1.2 e he

theorem Table.wf_set [DecidableEq α] (d : α) (t : Table α) (k : Nat) (x : α) (h : Table.wf d t = true) :
    Table.wf d (Table.set d t k x) = true := by
  by_cases hx : x = d
  · simp [Table.set, hx, Table.wf_erase d t k h]
  · simp only [Table.set, hx, if_false]
    exact Table.wf_put d _ k x hx (fun e he => (Table.mem_erase he).2) (Table.wf_erase d t k h)

end Sys2Proof
end

