-- ==== Sys2Proof/Laws/FrameFuse.lean ====
section
/-! SUPPORT. What the operations that blow fuses or end a blow keep: the queue stays as it is, no blown bit is lost, and
where no reserved bit is blown or to be blown none is after them. -/
namespace Sys2Proof.Machine
set_option maxRecDepth 4000
set_option Elab.async false

/-- No reserved bit is blown, or is to be blown by the command that runs. -/
def Fixed.ok (x : Fixed) : Prop :=
  fuseCopyOk x.copy0 ∧ fuseCopyOk x.copy1 ∧ ∀ j ∈ x.job, ∀ e ∈ j.todo, e.2 &&& ~~~fuseMask e.1 = 0

theorem State.fusesOk_iff (s : State) : s.fusesOk ↔ s.fixed.ok := Iff.rfl

/-- `y` has the queue of `x` and every bit blown in it, and no reserved one if `x` has none. -/
def Fixed.grows (x y : Fixed) : Prop :=
  y.queue = x.queue ∧ fuseGrows x.copy0 y.copy0 ∧ fuseGrows x.copy1 y.copy1 ∧ (x.ok → y.ok)

theorem fuseGrows_refl (t : Table (BitVec 32)) : fuseGrows t t := fun _ => BitVec.and_not_self _

/-- Every bit of `a` is one of `b`. -/
theorem bits_below (a b : BitVec 32) : a &&& ~~~b = 0 ↔ ∀ i, a.getLsbD i = true → b.getLsbD i = true := by
  constructor
  · intro h i ha
    have hi : i < 32 := BitVec.lt_of_getLsbD ha
    have h := congrArg (fun x : BitVec 32 => x.getLsbD i) h
    simpa [ha, hi] using h
  · intro h
    refine BitVec.eq_of_getLsbD_eq (fun i hi => ?_)
    cases ha : a.getLsbD i with
    | false => simp [ha]
    | true => simp [ha, h i ha]

theorem fuseGrows_trans {a b c : Table (BitVec 32)} (h : fuseGrows a b) (k : fuseGrows b c) : fuseGrows a c :=
  fun w => (bits_below _ _).mpr (fun i hi => (bits_below _ _).mp (k w) i ((bits_below _ _).mp (h w) i hi))

theorem Fixed.grows_refl (x : Fixed) : x.grows x := ⟨rfl, fuseGrows_refl _, fuseGrows_refl _, id⟩

theorem Fixed.grows_trans {x y z : Fixed} (h : x.grows y) (k : y.grows z) : x.grows z :=
  ⟨k.1.trans h.1, fuseGrows_trans h.2.1 k.2.1, fuseGrows_trans h.2.2.1 k.2.2.1, fun o => k.2.2.2 (h.2.2.2 o)⟩

/-- What keeps the queue, the copies and the blow keeps all of this. -/
theorem grows_of_fixed {s t : State} (h : t.fixed = s.fixed) : s.fixed.grows t.fixed := h ▸ Fixed.grows_refl _

/-- No blow runs any more. -/
def Fixed.endJob (x : Fixed) : Fixed := ⟨x.queue, x.copy0, x.copy1, none⟩

/-- An outcome in which they have only grown from `x`. -/
def Out.grows (o : Out) (x : Fixed) : Prop :=
  match o with
  | .next t => x.grows t.fixed
  | _ => True

theorem Out.grows_of_fixes {o : Out} {x : Fixed} (h : Out.fixes o x) : Out.grows o x := by
  cases o with
  | next t => exact (show t.fixed = x from h) ▸ Fixed.grows_refl _
  | fault r => trivial
  | refused r => trivial

/-! ## Bits of a copy -/

theorem fuseGrows_set (t : Table (BitVec 32)) (w : Nat) (v : BitVec 32)
    (h : Table.get 0 t w &&& ~~~v = 0) : fuseGrows t (Table.set 0 t w v) := by
  intro x
  rw [Table.get_set]
  split
  · subst_vars; exact h
  · exact BitVec.and_not_self _

theorem fuseCopyOk_set {t : Table (BitVec 32)} (h : fuseCopyOk t) (w : Nat) (v : BitVec 32)
    (hv : v &&& ~~~fuseMask w = 0) : fuseCopyOk (Table.set 0 t w v) := by
  intro x
  rw [Table.get_set]
  split
  · subst_vars; exact hv
  · exact h x

/-- A blow of bits of `v` in one word, none of them reserved. -/
theorem blown_grows {t : Table (BitVec 32)} (w : Nat) (v : BitVec 32) (miss : Option FuseMiss) (second : Bool) :
    fuseGrows t (Table.set 0 t w (blown (Table.get 0 t w) v miss w second)) ∧
    (fuseCopyOk t → v &&& ~~~fuseMask w = 0 →
      fuseCopyOk (Table.set 0 t w (blown (Table.get 0 t w) v miss w second))) := by
  have hb : ∃ y : BitVec 32, blown (Table.get 0 t w) v miss w second = Table.get 0 t w ||| y ∧ y &&& ~~~v = 0 := by
    unfold blown
    split
    · split
      · exact ⟨_, rfl, (bits_below _ _).mpr (fun i h => by simp at h; exact h.1)⟩
      · exact ⟨_, rfl, BitVec.and_not_self _⟩
    · exact ⟨_, rfl, BitVec.and_not_self _⟩
  obtain ⟨y, hy, hv⟩ := hb
  rw [hy]
  refine ⟨fuseGrows_set t w _ ((bits_below _ _).mpr (fun i h => by
    rw [BitVec.getLsbD_or, h, Bool.true_or])), fun ht hm => ?_⟩
  refine fuseCopyOk_set ht w _ ((bits_below _ _).mpr (fun i h => ?_))
  simp only [BitVec.getLsbD_or, Bool.or_eq_true] at h
  rcases h with h | h
  · exact (bits_below _ _).mp (ht w) i h
  · exact (bits_below _ _).mp hm i ((bits_below _ _).mp hv i h)

/-! ## Operations -/

/-- One word of both copies; the blow that runs stays. -/
theorem State.blowWord_grows (s : State) (w : Nat) (v : BitVec 32) (miss : Option FuseMiss) :
    let t := (s.blowWord w v miss).1
    t.pending = s.pending ∧ t.fuse.job = s.fuse.job ∧ fuseGrows s.fuse.copy0 t.fuse.copy0 ∧
    fuseGrows s.fuse.copy1 t.fuse.copy1 ∧
    (v &&& ~~~fuseMask w = 0 → (fuseCopyOk s.fuse.copy0 → fuseCopyOk t.fuse.copy0) ∧
      (fuseCopyOk s.fuse.copy1 → fuseCopyOk t.fuse.copy1)) := by
  have h0 := blown_grows (t := s.fuse.copy0) w v miss false
  have h1 := blown_grows (t := s.fuse.copy1) w v miss true
  unfold State.blowWord
  lift_lets
  intro f want a b x s1
  split
  · exact ⟨rfl, rfl, h0.1, fuseGrows_refl _, fun hv => ⟨fun o => h0.2 o hv, id⟩⟩
  · exact ⟨rfl, rfl, h0.1, h1.1, fun hv => ⟨fun o => h0.2 o hv, fun o => h1.2 o hv⟩⟩

/-- A blow ends: the queue and the copies stay. -/
theorem State.endBlow_grows (s : State) (j : FuseJob) (done : List (Nat × BitVec 32)) (bad : Option Nat) :
    (s.endBlow j done bad).fixed = s.fixed.endJob := by
  unfold State.endBlow
  extract_lets level f t u
  have ht : t.fixed = s.fixed.endJob := rfl
  have hu : u.fixed = s.fixed.endJob := by
    simp only [u]
    split <;> simp [ht]
  clear_value u
  split <;> simp [hu]

theorem Fixed.ok_none {x : Fixed} (h : fuseCopyOk x.copy0 ∧ fuseCopyOk x.copy1) : x.endJob.ok :=
  ⟨h.1, h.2, fun _ h => by cases h⟩

/-- One beat of a blow. -/
theorem State.fuseTurn_grows (s : State) : s.fixed.grows s.fuseTurn.fixed := by
  unfold State.fuseTurn
  cases hj : s.fuse.job with
  | none => exact Fixed.grows_refl _
  | some j =>
    dsimp only
    split
    · refine ⟨rfl, fuseGrows_refl _, fuseGrows_refl _, fun o => ⟨o.1, o.2.1, fun k hk => ?_⟩⟩
      cases hk
      exact o.2.2 j hj
    · cases ht : j.todo with
      | nil =>
        dsimp only
        rw [State.endBlow_grows]
        exact ⟨rfl, fuseGrows_refl _, fuseGrows_refl _, fun o => Fixed.ok_none ⟨o.1, o.2.1⟩⟩
      | cons e rest =>
        obtain ⟨w, v⟩ := e
        have h := State.blowWord_grows s w v j.miss
        dsimp only
        generalize s.blowWord w v j.miss = p at h ⊢
        obtain ⟨t, good⟩ := p
        dsimp only at h ⊢
        obtain ⟨hp, hjob, h0, h1, hk⟩ := h
        have hv : s.fixed.ok → v &&& ~~~fuseMask w = 0 := fun o => o.2.2 j hj (w, v) (by simp [ht])
        have fine : s.fixed.grows t.fixed.endJob :=
          ⟨hp, h0, h1, fun o => Fixed.ok_none ⟨(hk (hv o)).1 o.1, (hk (hv o)).2 o.2.1⟩⟩
        split
        · rw [State.endBlow_grows]
          exact fine
        · split
          · rw [State.endBlow_grows]
            exact fine
          · refine ⟨hp, h0, h1, fun o => ⟨(hk (hv o)).1 o.1, (hk (hv o)).2 o.2.1, fun k hk' => ?_⟩⟩
            cases hk'
            intro x hx
            exact o.2.2 j hj x (by simp [ht]; exact .inr hx)

/-- A reset ends a blow. -/
theorem State.cutBlow_grows (s : State) : s.fixed.grows s.cutBlow.fixed := by
  unfold State.cutBlow
  cases hj : s.fuse.job with
  | none => exact Fixed.grows_refl _
  | some j =>
    have put (on : Bool) (t : Table (BitVec 32)) (w : Nat) (v : BitVec 32) :
        fuseGrows t (if on then Table.set 0 t w (Table.get 0 t w ||| v) else t) ∧
        (fuseCopyOk t → v &&& ~~~fuseMask w = 0 →
          fuseCopyOk (if on then Table.set 0 t w (Table.get 0 t w ||| v) else t)) := by
      have h := blown_grows (t := t) w v none false
      cases on
      · exact ⟨fuseGrows_refl _, fun o _ => o⟩
      · exact h
    dsimp only [State.take]
    cases ht : j.todo with
    | nil => exact ⟨rfl, fuseGrows_refl _, fuseGrows_refl _, fun o => Fixed.ok_none ⟨o.1, o.2.1⟩⟩
    | cons e rest =>
      obtain ⟨w, v⟩ := e
      have hv : s.fixed.ok → v &&& ~~~fuseMask w = 0 := fun o => o.2.2 j hj (w, v) (by simp [ht])
      exact ⟨rfl, (put _ _ w v).1, (put _ _ w v).1,
        fun o => ⟨(put _ _ w v).2 o.1 (hv o), (put _ _ w v).2 o.2.1 (hv o), fun _ h => by cases h⟩⟩

/-- A blow begins. -/
theorem State.startBlow_grows (s : State) (c : Cmd) (miss : Option FuseMiss) (l : List (Nat × BitVec 32))
    (hl : ∀ e ∈ l, e.2 &&& ~~~fuseMask e.1 = 0) : s.fixed.grows (s.startBlow c miss l).fixed := by
  unfold State.startBlow
  split
  · exact grows_of_fixed (by simp)
  · have h : ((s.take.2).running c).fixed = s.fixed := by simp
    have hk : s.take.2.fixed = s.fixed := by simp
    dsimp only
    generalize s.take.2.running c = t at h
    generalize s.take.2 = u at hk
    rw [show s.fixed = u.fixed from hk.symm]
    show u.fixed.grows ⟨t.pending, u.fuse.copy0, u.fuse.copy1, _⟩
    have hq : t.pending = u.pending := congrArg Fixed.queue (h.trans hk.symm)
    refine ⟨hq, fuseGrows_refl _, fuseGrows_refl _, fun o => ⟨o.1, o.2.1, fun k e => ?_⟩⟩
    cases e
    exact hl

/-! ## Resets -/

theorem State.warmClear_grows (s : State) : s.fixed.grows s.warmClear.fixed := by
  have h : s.warmClear.fixed = s.mixUpdate.cutStore.cutBlow.fixed := by simp [State.warmClear]
  rw [h]
  exact Fixed.grows_trans (grows_of_fixed (by simp)) (State.cutBlow_grows _)

theorem State.cold_grows (s : State) (powerOn : Bool) : s.fixed.grows (s.cold powerOn).fixed := by
  have h : (s.cold powerOn).fixed = s.cutStore.cutBlow.fixed.endJob := rfl
  rw [h]
  have k := Fixed.grows_trans (grows_of_fixed (by simp : s.cutStore.fixed = s.fixed)) (State.cutBlow_grows s.cutStore)
  exact ⟨k.1, k.2.1, k.2.2.1, fun o => Fixed.ok_none ⟨(k.2.2.2 o).1, (k.2.2.2 o).2.1⟩⟩

theorem State.holdAll_grows (s : State) : s.fixed.grows s.holdAll.fixed := by
  have h : s.holdAll.fixed = s.warmClear.fixed := by simp [State.holdAll]
  rw [h]
  exact State.warmClear_grows s

theorem State.standbyLost_grows (s : State) : s.fixed.grows s.standbyLost.fixed := State.cold_grows s true

theorem State.lossReset_grows (s : State) (b : Nat) (k : Clock) : s.fixed.grows (s.lossReset b k).fixed := by
  have he : (s.escape k).fixed = s.fixed := by simp
  unfold State.lossReset
  generalize s.escape k = t at he
  dsimp only
  split
  · exact grows_of_fixed (by simp [he])
  · exact grows_of_fixed (by simp [he])
  · refine grows_of_fixed ?_
    have hd (x : State) : ((List.range 8).foldl State.downPorts x).fixed = x.fixed := foldl_fixed _ _ _ (by simp)
    refine (hd _).trans ((State.domainResets_fixed ..).trans ?_)
    rw [← he]
    exact fixed_mk ..
  · rw [← he]
    exact State.holdAll_grows t

theorem State.clockLost_grows (s : State) (b : Nat) (k : Clock) (code : Nat) :
    s.fixed.grows (s.clockLost b k code).fixed :=
  Fixed.grows_trans (grows_of_fixed (by simp)) (State.lossReset_grows _ b k)

theorem State.injectedSupply_grows (s : State) (b unit code : Nat) :
    s.fixed.grows (s.injectedSupply b unit code).fixed := by
  unfold State.injectedSupply
  split
  · exact grows_of_fixed (by simp)
  split
  · split
    · exact grows_of_fixed (by simp)
    · exact Fixed.grows_refl _
  split
  · exact State.standbyLost_grows s
  · exact Fixed.grows_refl _

theorem State.injectedLoss_grows (s : State) (b unit code : Nat) : s.fixed.grows (s.injectedLoss b unit code).fixed :=
    by
  unfold State.injectedLoss
  extract_lets d
  split
  · exact State.lossReset_grows s _ _
  · exact Fixed.grows_refl _

/-! ## Commands -/

theorem execBeatBoundary_grows (s : State) : (execBeatBoundary s).grows s.fixed := by
  have h : s.beat.loadTurn.storeTurn.fixed = s.fixed := by simp
  show s.fixed.grows (s.beat.loadTurn.storeTurn.fuseTurn).fixed
  rw [← h]
  exact State.fuseTurn_grows _

theorem execPowerOnReset_grows (rise : Bool) (fuses : List (FuseRead × FuseRead)) (s : State) :
    (execPowerOnReset rise fuses s).grows s.fixed := by
  have h := State.cold_grows s true
  unfold execPowerOnReset
  extract_lets t
  split
  · exact Fixed.grows_trans h (grows_of_fixed (by simp [t]))
  · exact h

theorem execResetN_grows (ns : Nat) (s : State) : (execResetN ns s).grows s.fixed := by
  unfold execResetN
  split
  · exact State.cold_grows s false
  · exact Fixed.grows_refl _

theorem execWarmReset_grows (fuses : List (FuseRead × FuseRead)) (again : Bool) (s : State) :
    (execWarmReset fuses again s).grows s.fixed := by
  unfold execWarmReset
  split
  · exact Fixed.grows_refl _
  · rename_i source block rest _
    extract_lets _ t u _ v
    have ht : t.fixed = s.fixed := rfl
    have hu : s.fixed.grows u.fixed := by
      rw [← ht]
      exact State.warmClear_grows t
    have hv : s.fixed.grows v.fixed := Fixed.grows_trans hu (grows_of_fixed (fixed_mk ..))
    clear_value t u v
    split
    · exact Fixed.grows_trans hv (grows_of_fixed (by simp))
    · exact grows_of_fixed (by simp [ht])

theorem execInputVoltage_grows (mv us : Nat) (stages : BitVec 5) (s : State) :
    (execInputVoltage mv us stages s).grows s.fixed := by
  unfold execInputVoltage
  split
  · exact grows_of_fixed (by split <;> rfl)
  split
  · exact Fixed.grows_refl _
  split
  · exact State.cold_grows s true
  · exact grows_of_fixed (by simp)

theorem execSupplyFault_grows (stage2 : Bool) (group : Fin 64) (s : State) :
    (execSupplyFault stage2 group s).grows s.fixed := by
  unfold execSupplyFault
  extract_lets log b
  have hl : ∀ s, (log s).fixed = s.fixed := by simp [log]
  split
  · exact Fixed.grows_refl _
  split
  · exact grows_of_fixed (by split <;> simp [hl])
  split
  · exact grows_of_fixed (by split <;> simp [hl])
  split
  · exact Fixed.grows_trans (grows_of_fixed (hl s)) (State.standbyLost_grows _)
  · exact Fixed.grows_refl _

/-- A command whose run on every state lets them only grow. -/
theorem State.runCmd_grows (s : State) (c : Cmd) (f : State → Cmd → State)
    (h : ∀ s : State, s.fixed.grows (f s c).fixed) : s.fixed.grows (s.runCmd c f).fixed := by
  unfold State.runCmd
  split
  · exact grows_of_fixed (by simp)
  split
  · exact grows_of_fixed (by simp)
  split
  · exact grows_of_fixed (by simp)
  · exact h s

theorem State.withCmd_grows (s : State) (cid op : Nat) (f : State → Cmd → State)
    (h : ∀ (s : State) c, s.fixed.grows (f s c).fixed) : (s.withCmd cid op f).grows s.fixed := by
  unfold State.withCmd
  split
  · exact Fixed.grows_refl _
  · split
    · exact State.runCmd_grows s _ f (fun s => h s _)
    · exact Fixed.grows_refl _

theorem State.oneDie_grows (s : State) (c : Cmd) (f : State → Nat → State)
    (h : ∀ (s : State) b, s.fixed.grows (f s b).fixed) : s.fixed.grows (s.oneDie c f).fixed := by
  unfold State.oneDie
  split
  · split
    · exact grows_of_fixed (by simp)
    · exact h s _
  · exact grows_of_fixed (by simp)

theorem execErrInject_grows (cid : Nat) (s : State) : (execErrInject cid s).grows s.fixed := by
  refine State.withCmd_grows _ _ _ _ (fun s c => State.oneDie_grows _ _ _ (fun s b => ?_))
  split
  · exact grows_of_fixed (by simp)
  · exact Fixed.grows_trans (Fixed.grows_trans (grows_of_fixed (by simp)) (State.injectedSupply_grows ..))
      (State.injectedLoss_grows ..)

/-- No command asks for a reserved bit. -/
theorem State.fieldBits_mask (s : State) (field v : Nat) :
    ∀ e ∈ s.fieldBits field v, e.2 &&& ~~~fuseMask e.1 = 0 := by
  intro e he
  have full (w : Nat) (x : BitVec 32) (h : fuseMask w = 0xFFFFFFFF) : x &&& ~~~fuseMask w = 0 := by simp [h]
  unfold State.fieldBits at he
  split at he
  · split at he
    · rw [List.mem_singleton.mp he]
      rename_i h
      have hv : min v 3 = 1 ∨ min v 3 = 2 ∨ min v 3 = 3 := by omega
      rcases hv with h | h | h <;> rw [h] <;> decide
    · cases he
  · rw [List.mem_singleton.mp he]
    decide
  · rw [List.mem_singleton.mp he]
    decide
  · rw [List.mem_singleton.mp he]
    have hv := Nat.mod_lt v (show 0 < 16 by decide)
    generalize v % 16 = n at hv
    interval_cases n <;> decide
  · rw [List.mem_singleton.mp he]
    refine (bits_below _ _).mpr (fun i h => ?_)
    have hv := Nat.mod_lt v (show 0 < 2 ^ 13 by decide)
    generalize v % 2 ^ 13 = n at hv h
    have hi : i < 13 := by
      by_contra hc
      rw [BitVec.getLsbD_ofNat, Nat.testBit_lt_two_pow (lt_of_lt_of_le hv (Nat.pow_le_pow_right (by decide) (by
        omega)))] at h
      simp at h
    change (fuseMask 14).getLsbD i = true
    interval_cases i <;> decide
  · split at he
    · split at he
      · rw [List.mem_singleton.mp he]
        exact full 15 _ (by decide)
      · rw [List.mem_singleton.mp he]
        exact full 16 _ (by decide)
    · cases he

theorem provisionBits_mask (s : State) (b : List Byte) (h : s.provisionFails b = none) :
    ∀ e ∈ provisionBits b, e.2 &&& ~~~fuseMask e.1 = 0 := by
  have hs : ¬(leField b 0 1 = 0 ∨ 3 < leField b 0 1) := by
    intro hc
    have : s.provisionFails b = some 1 := by
      unfold State.provisionFails
      dsimp only
      rw [if_pos (by tauto)]
    rw [this] at h
    cases h
  intro e he
  unfold provisionBits at he
  dsimp only at he
  generalize leField b 0 1 = slot at hs he
  rw [List.mem_append] at he
  rcases he with he | he
  · obtain ⟨i, hi, rfl⟩ := List.mem_map.mp he
    have hi := List.mem_range.mp hi
    have hm : fuseMask (17 + 12 * slot + i) = 0xFFFFFFFF := by
      unfold fuseMask
      rw [if_neg (by omega), if_neg (by omega), if_neg (by omega), if_pos (by omega)]
    simp [hm]
  · rw [List.mem_singleton.mp he]
    have hv : slot = 1 ∨ slot = 2 ∨ slot = 3 := by omega
    rcases hv with rfl | rfl | rfl <;> decide

theorem execSecFuseBlow_grows (cid : Nat) (miss : Option FuseMiss) (s : State) :
    (execSecFuseBlow cid miss s).grows s.fixed := by
  refine State.withCmd_grows _ _ _ _ (fun s c => ?_)
  split
  · exact Fixed.grows_refl _
  split
  · exact grows_of_fixed (by simp)
  · exact State.startBlow_grows _ _ _ _ (s.fieldBits_mask _ _)

theorem execSecKeyProvision_grows (cid : Nat) (miss : Option FuseMiss) (s : State) :
    (execSecKeyProvision cid miss s).grows s.fixed := by
  refine State.withCmd_grows _ _ _ _ (fun s c => ?_)
  split
  · exact Fixed.grows_refl _
  · have h := State.devRead_fixed s (c.u 0 8) 288
    generalize s.devRead (c.u 0 8) 288 = p at h ⊢
    obtain ⟨t, g⟩ := p
    dsimp only at h ⊢
    rw [← h]
    split
    · exact grows_of_fixed (by simp)
    · split
      · exact grows_of_fixed (by simp)
      · rename_i hp
        exact State.startBlow_grows _ _ _ _ (provisionBits_mask t g.data hp)

theorem execPllUnlock_grows (b : Fin 64) (k : Clock) (s : State) : (execPllUnlock b k s).grows s.fixed := by
  unfold execPllUnlock
  split
  · exact State.clockLost_grows _ _ _ _
  · exact Fixed.grows_refl _

theorem execClockMonitorWindow_grows (b : Fin 64) (k : Clock) (n : Nat) (s : State) :
    (execClockMonitorWindow b k n s).grows s.fixed := by
  unfold execClockMonitorWindow
  extract_lets c
  split
  · split
    · exact grows_of_fixed (by split <;> simp)
    · split
      · exact State.clockLost_grows _ _ _ _
      · exact Fixed.grows_refl _
  split
  · split
    · exact State.clockLost_grows _ _ _ _
    · exact Fixed.grows_refl _
  split
  · exact State.clockLost_grows _ _ _ _
  · exact Fixed.grows_refl _

end Sys2Proof.Machine
end

