-- ==== Sys2Proof/Laws/Lanes.lean ====
section
/-! SUPPORT. The elements of vector groups: what groupAt reads and what putGroup, vecElem and vecCmp put in hand
(R99 to R112). -/
namespace Sys2Proof.Machine

set_option Elab.async false

/-! ## Lists of equal pieces -/

theorem length_flatMap_const {α : Type} (k : Nat) (F : Nat → List α) (hF : ∀ h, (F h).length = k) (n : Nat) :
    ((List.range n).flatMap F).length = n * k := by
  induction n with
  | zero => simp
  | succ n ih => rw [List.range_succ, List.flatMap_append, List.length_append, ih]; simp [hF, Nat.succ_mul]

/-- Element e of n pieces of k elements each. -/
theorem getElem?_flatMap_const {α : Type} (k : Nat) (F : Nat → List α) (hF : ∀ h, (F h).length = k)
    (n e : Nat) (he : e < n * k) : ((List.range n).flatMap F)[e]? = (F (e / k))[e % k]? := by
  induction n with
  | zero => omega
  | succ n ih =>
    rw [List.range_succ, List.flatMap_append]
    have hl := length_flatMap_const k F hF n
    by_cases h : e < n * k
    · rw [List.getElem?_append_left (by omega), ih h]
    · rw [List.getElem?_append_right (by omega), hl]
      rw [Nat.succ_mul] at he
      have h1 : e / k = n := by rw [Nat.div_eq_of_lt_le] <;> first | omega | (rw [Nat.succ_mul]; omega)
      have h2 : e % k = e - n * k := by
        have := Nat.div_add_mod e k; rw [h1, Nat.mul_comm] at this; omega
      simp [h1, h2]

theorem getElem?_map_range {α : Type} (k e : Nat) (F : Nat → α) (he : e < k) :
    ((List.range k).map F)[e]? = some (F e) := by simp [he]

/-! ## Reading (R111) -/

/-- The widths of elements. -/
def laneWidth (w : Nat) : Prop := w = 4 ∨ w = 8 ∨ w = 16 ∨ w = 32 ∨ w = 64

theorem groupAt_eq (T : Tile) (c cc base g w wide : Nat) : T.groupAt c cc base g w wide =
    (List.range (2 * g * wide / w)).flatMap (fun h => (List.range (2048 / wide)).map (fun e =>
      ((T.chunkAt (c + cc * h) (base + h * (2048 / wide) * w / 2048 / 2) (h * (2048 / wide) * w / 2048 % 2)).toNat
        >>> (w * (h * (2048 / wide) % (2048 / w) + e))) % 2 ^ w)) := by
  unfold Tile.groupAt stepsOf
  dsimp only
  rw [List.flatMap_map]

/-- Steps, chunks and places of an element, for a width and a width of steps at least as great. -/
theorem lane_place {w wide : Nat} (hw : laneWidth w) (hv : laneWidth wide) (h : w ≤ wide) (g e : Nat)
    (he : e < vlmax w g) :
    0 < 2048 / wide ∧ e < 2 * g * wide / w * (2048 / wide) ∧ e / (2048 / wide) < 2 * g * wide / w ∧
      e / (2048 / wide) * (2048 / wide) * w / 2048 / 2 = e * w / 4096 ∧
      e / (2048 / wide) * (2048 / wide) * w / 2048 = e * w / 2048 ∧
      e / (2048 / wide) * (2048 / wide) % (2048 / w) + e % (2048 / wide) = e % (2048 / w) := by
  unfold vlmax at he
  rcases hw with rfl | rfl | rfl | rfl | rfl <;> rcases hv with rfl | rfl | rfl | rfl | rfl <;>
    first
      | (exfalso; omega)
      | (norm_num at he ⊢; omega)

theorem groupAt_getD (T : Tile) {w wide : Nat} (hw : laneWidth w) (hv : laneWidth wide) (h : w ≤ wide)
    (c cc base g e : Nat) (he : e < vlmax w g) :
    (T.groupAt c cc base g w wide).getD e 0 = T.elemAt c cc base w wide e := by
  obtain ⟨h0, h1, h2, h3, h4, h5⟩ := lane_place hw hv h g e he
  rw [groupAt_eq, List.getD_eq_getElem?_getD, getElem?_flatMap_const (2048 / wide) _ (by simp) _ _ h1,
    getElem?_map_range _ _ _ (Nat.mod_lt _ h0)]
  simp only [Option.getD_some]
  rw [h3, h4, h5]
  rfl

/-! ## Digits of width w -/

/-- Digit d put at place k of base 2^w. -/
theorem testBit_digits (w e0 : Nat) (d : Nat → Nat) (hd : ∀ e, d e < 2 ^ w) : ∀ n : Nat,
    let N := (List.range n).foldl (fun s e => s + d e * 2 ^ (w * (e0 + e))) 0
    N < 2 ^ (w * (e0 + n)) ∧ ∀ k i, i < w → N.testBit (w * k + i) =
      (decide (e0 ≤ k) && decide (k < e0 + n) && (d (k - e0)).testBit i) := by
  intro n
  induction n with
  | zero =>
    simp
  | succ n ih =>
    dsimp only at ih ⊢
    obtain ⟨i1, i2⟩ := ih
    rw [List.range_succ, List.foldl_append]
    simp only [List.foldl_cons, List.foldl_nil]
    set N := (List.range n).foldl (fun s e => s + d e * 2 ^ (w * (e0 + e))) 0
    have hp : 2 ^ (w * (e0 + (n + 1))) = 2 ^ w * 2 ^ (w * (e0 + n)) := by
      rw [← pow_add]; congr 1; ring
    constructor
    · rw [hp]
      have := hd n
      calc N + d n * 2 ^ (w * (e0 + n)) < 2 ^ (w * (e0 + n)) + d n * 2 ^ (w * (e0 + n)) := Nat.add_lt_add_right i1 _
        _ = (d n + 1) * 2 ^ (w * (e0 + n)) := by ring
        _ ≤ 2 ^ w * 2 ^ (w * (e0 + n)) := by gcongr; omega
    · intro k i hi
      have hcomm : N + d n * 2 ^ (w * (e0 + n)) = 2 ^ (w * (e0 + n)) * d n + N := by ring
      rw [hcomm, Nat.testBit_two_pow_mul_add _ i1]
      by_cases hk : k < e0 + n
      · have hlt : w * k + i < w * (e0 + n) := by
          have h1 : w * (k + 1) ≤ w * (e0 + n) := Nat.mul_le_mul_left _ (by omega)
          rw [Nat.mul_succ] at h1
          omega
        rw [if_pos hlt, i2 k i hi]
        simp [hk, show k < e0 + (n + 1) by omega]
      · have hge : w * (e0 + n) ≤ w * k := by gcongr; omega
        rw [if_neg (by omega)]
        by_cases he : k = e0 + n
        · subst he
          simp [show w * (e0 + n) + i - w * (e0 + n) = i by omega]
        · have h1 : e0 + n + 1 ≤ k := by omega
          have h2 : w * (e0 + n) + w ≤ w * k := by
            calc w * (e0 + n) + w = w * (e0 + n + 1) := by ring
              _ ≤ w * k := by gcongr
          rw [Nat.testBit_lt_two_pow (lt_of_lt_of_le (hd n) (Nat.pow_le_pow_right (by norm_num) (by omega)))]
          simp [show ¬ k < e0 + (n + 1) by omega]

/-! ## Writing (R111) -/

/-- Mask and codes that step h of a group puts into its chunk. -/
def stepBits (w wide h : Nat) (f : Nat → Option Nat) : Nat × Nat :=
  (List.range (2048 / wide)).foldl (fun (mv : Nat × Nat) e =>
    match f (h * (2048 / wide) + e) with
    | some x => (mv.1 + (2 ^ w - 1) * 2 ^ (w * (h * (2048 / wide) % (2048 / w) + e)),
        mv.2 + (x % 2 ^ w) * 2 ^ (w * (h * (2048 / wide) % (2048 / w) + e)))
    | none => mv) (0, 0)

theorem foldl_pair {α : Type} (l : List α) (F : Nat → α → Nat) (G : Nat → α → Nat) (a b : Nat) :
    l.foldl (fun (mv : Nat × Nat) e => (F mv.1 e, G mv.2 e)) (a, b) = (l.foldl F a, l.foldl G b) := by
  induction l generalizing a b with
  | nil => rfl
  | cons x l ih => simp only [List.foldl_cons]; exact ih _ _

theorem stepBits_eq (w wide h : Nat) (f : Nat → Option Nat) : stepBits w wide h f =
    ((List.range (2048 / wide)).foldl (fun s e => s
        + (if (f (h * (2048 / wide) + e)).isSome then 2 ^ w - 1 else 0)
          * 2 ^ (w * (h * (2048 / wide) % (2048 / w) + e))) 0,
      (List.range (2048 / wide)).foldl (fun s e => s + ((f (h * (2048 / wide) + e)).getD 0 % 2 ^ w)
          * 2 ^ (w * (h * (2048 / wide) % (2048 / w) + e))) 0) := by
  rw [← foldl_pair]
  unfold stepBits
  congr 1
  funext mv e
  cases f (h * (2048 / wide) + e) <;> simp

theorem stepBits_bit (w wide h : Nat) (f : Nat → Option Nat) (k i : Nat) (hi : i < w) :
    ((stepBits w wide h f).1.testBit (w * k + i) =
      (decide (h * (2048 / wide) % (2048 / w) ≤ k)
        && decide (k < h * (2048 / wide) % (2048 / w) + 2048 / wide)
        && (f (h * (2048 / wide) + (k - h * (2048 / wide) % (2048 / w)))).isSome)) ∧
    ((stepBits w wide h f).2.testBit (w * k + i) =
      (decide (h * (2048 / wide) % (2048 / w) ≤ k)
        && decide (k < h * (2048 / wide) % (2048 / w) + 2048 / wide)
        && ((f (h * (2048 / wide) + (k - h * (2048 / wide) % (2048 / w)))).getD 0).testBit i)) := by
  rw [stepBits_eq]
  have p : 0 < 2 ^ w := by positivity
  constructor
  · dsimp only
    rw [(testBit_digits w _ _ (fun e => by split <;> omega) (2048 / wide)).2 k i hi]
    congr 1
    split
    · rename_i h1; rw [h1, Nat.testBit_two_pow_sub_one]; simp [hi]
    · rename_i h1; simp at h1 ⊢; simp [h1]
  · dsimp only
    rw [(testBit_digits w _ _ (fun e => Nat.mod_lt _ p) (2048 / wide)).2 k i hi, Nat.testBit_mod_two_pow]
    simp [hi]

/-- The landings of putGroup. -/
def stepPends (n : BitVec 64) (i lat cc base g w wide : Nat) (f : Nat → Option Nat) : List Pend :=
  (List.range (2 * g * wide / w)).filterMap (fun h =>
    if (stepBits w wide h f).1 = 0 then none
    else some ⟨i + lat + cc * h - cc, n.toNat, .vchunk (base + h * (2048 / wide) * w / 2048 / 2)
      (h * (2048 / wide) * w / 2048 % 2) (BitVec.ofNat 2048 (stepBits w wide h f).1)
      (BitVec.ofNat 2048 (stepBits w wide h f).2)⟩)

theorem insertPend_perm (p : Pend) : ∀ l : List Pend, (insertPend p l).Perm (l ++ [p])
  | [] => .refl _
  | x :: l => by
    unfold insertPend
    split
    · exact (insertPend_perm p l).cons x
    · exact (List.perm_append_singleton p (x :: l)).symm

theorem Tile.addPend_pend (T : Tile) (n : BitVec 64) (c : Nat) (e : Landing) :
    (T.addPend n c e).pend.Perm (T.pend ++ [⟨c, n.toNat, e⟩]) := insertPend_perm _ _

theorem foldl_addPend {α : Type} (l : List α) (T : Tile) (P : α → Option Pend) (F : Tile → α → Tile)
    (hF : ∀ T x, (F T x).pend.Perm (T.pend ++ (P x).toList)) :
    (l.foldl F T).pend.Perm (T.pend ++ l.filterMap P) := by
  induction l generalizing T with
  | nil => simp
  | cons x l ih =>
    rw [List.foldl_cons, List.filterMap_cons]
    refine (ih _).trans ?_
    have h := (hF T x).append_right (l.filterMap P)
    cases hx : P x with
    | none => rw [hx] at h; simpa using h
    | some p => rw [hx] at h; simpa using h

theorem putGroup_pend (T : Tile) (n : BitVec 64) (i lat cc base g w wide : Nat) (f : Nat → Option Nat) :
    (T.putGroup n i lat cc base g w wide f).pend.Perm (T.pend ++ stepPends n i lat cc base g w wide f) := by
  unfold Tile.putGroup stepsOf stepPends
  rw [List.foldl_map]
  apply foldl_addPend
  intro T h
  show Tile.pend (if (stepBits w wide h f).1 = 0 then T else T.addPend n (i + lat + cc * h - cc) _) |>.Perm _
  split
  · simp
  · exact Tile.addPend_pend _ _ _ _

theorem putGroup_active (T : Tile) (n : BitVec 64) (i lat cc base g w wide : Nat) (f : Nat → Option Nat) :
    (T.putGroup n i lat cc base g w wide f).active = T.active := by
  unfold Tile.putGroup
  dsimp only
  generalize stepsOf g w wide = l
  induction l generalizing T with
  | nil => rfl
  | cons x l ih =>
    rw [List.foldl_cons, ih]
    split <;> rfl

theorem stepPends_spec {w wide : Nat} (hw : laneWidth w) (hv : laneWidth wide) (hle : w ≤ wide)
    (n : BitVec 64) (c lat cc base g : Nat) (f : Nat → Option Nat) (e : Nat) (he : e < vlmax w g) :
    match f e with
    | some x => ∃ m v : BitVec 2048,
        (⟨c + lat + cc * (e / (2048 / wide)) - cc, n.toNat,
          .vchunk (base + e * w / 4096) (e * w / 2048 % 2) m v⟩ : Pend) ∈ stepPends n c lat cc base g w wide f ∧
        ∀ i < w, m.getLsbD (w * (e % (2048 / w)) + i) = true ∧ v.getLsbD (w * (e % (2048 / w)) + i) = x.testBit i
    | none => ∀ p ∈ stepPends n c lat cc base g w wide f, ∀ m v,
        p.eff = .vchunk (base + e * w / 4096) (e * w / 2048 % 2) m v →
        ∀ i < w, m.getLsbD (w * (e % (2048 / w)) + i) = false := by
  obtain ⟨h0, h1, h2, h3, h4, h5⟩ := lane_place hw hv hle g e he
  have hbound : ∀ i < w, w * (e % (2048 / w)) + i < 2048 := by
    intro i hi
    rcases hw with rfl | rfl | rfl | rfl | rfl <;> omega
  have hplace : e / (2048 / wide) * (2048 / wide) + (e % (2048 / w) - e / (2048 / wide) * (2048 / wide) % (2048 / w))
      = e := by
    have := Nat.div_add_mod e (2048 / wide)
    rw [Nat.mul_comm] at this
    omega
  have hin : e % (2048 / w) < e / (2048 / wide) * (2048 / wide) % (2048 / w) + 2048 / wide := by
    have := Nat.mod_lt e h0
    omega
  cases hf : f e with
  | some x =>
    dsimp only
    have hb : ∀ i < w, (stepBits w wide (e / (2048 / wide)) f).1.testBit (w * (e % (2048 / w)) + i) = true ∧
        (stepBits w wide (e / (2048 / wide)) f).2.testBit (w * (e % (2048 / w)) + i) = x.testBit i := by
      intro i hi
      obtain ⟨b1, b2⟩ := stepBits_bit w wide (e / (2048 / wide)) f (e % (2048 / w)) i hi
      rw [b1, b2, hplace, hf]
      have : e / (2048 / wide) * (2048 / wide) % (2048 / w) ≤ e % (2048 / w) := by omega
      simp [this, hin]
    have hw0 : 0 < w := by rcases hw with rfl | rfl | rfl | rfl | rfl <;> norm_num
    have hne : (stepBits w wide (e / (2048 / wide)) f).1 ≠ 0 := by
      intro h; have := (hb 0 hw0).1; rw [h] at this; simp at this
    refine ⟨BitVec.ofNat 2048 (stepBits w wide (e / (2048 / wide)) f).1,
      BitVec.ofNat 2048 (stepBits w wide (e / (2048 / wide)) f).2, ?_, ?_⟩
    · unfold stepPends
      rw [List.mem_filterMap]
      refine ⟨e / (2048 / wide), List.mem_range.2 h2, ?_⟩
      rw [if_neg hne, h3, h4]
    · intro i hi
      rw [BitVec.getLsbD_ofNat, BitVec.getLsbD_ofNat]
      have := hbound i hi
      simp [this, hb i hi]
  | none =>
    dsimp only
    intro p hp m v hpe i hi
    unfold stepPends at hp
    rw [List.mem_filterMap] at hp
    obtain ⟨h, hh, hs⟩ := hp
    split at hs
    · cases hs
    · cases hs
      simp only [Landing.vchunk.injEq] at hpe
      obtain ⟨p1, p2, rfl, -⟩ := hpe
      rw [BitVec.getLsbD_ofNat]
      obtain ⟨b1, -⟩ := stepBits_bit w wide h f (e % (2048 / w)) i hi
      rw [b1]
      have hchunk : h * (2048 / wide) * w / 2048 = e * w / 2048 := by
        have : e * w / 4096 = e * w / 2048 / 2 := by omega
        omega
      by_cases hm : h = e / (2048 / wide)
      · subst hm
        rw [hplace, hf]; simp
      · have hout : ¬ (h * (2048 / wide) % (2048 / w) ≤ e % (2048 / w) ∧
            e % (2048 / w) < h * (2048 / wide) % (2048 / w) + 2048 / wide) := by
          rcases hw with rfl | rfl | rfl | rfl | rfl <;> rcases hv with rfl | rfl | rfl | rfl | rfl <;>
            first
              | (exfalso; omega)
              | (norm_num at hchunk hm ⊢; omega)
        by_cases q1 : h * (2048 / wide) % (2048 / w) ≤ e % (2048 / w)
        · have q2 : ¬ e % (2048 / w) < h * (2048 / wide) % (2048 / w) + 2048 / wide := fun q2 => hout ⟨q1, q2⟩
          simp [q2]
        · simp [q1]

/-! ## Whole instructions (R103, R104, R111, R113) -/

theorem allFlags_bit (l : List FpFlags) (i : Nat) :
    (allFlags l).getLsbD i = true ↔ ∃ f ∈ l, f.getLsbD i = true := by
  have : ∀ (a : FpFlags), (l.foldl (· ||| ·) a).getLsbD i = true ↔ a.getLsbD i = true ∨ ∃ f ∈ l,
      f.getLsbD i = true := by
    induction l with
    | nil => simp
    | cons x l ih =>
      intro a
      rw [List.foldl_cons, ih, BitVec.getLsbD_or]
      simp [or_assoc]
  unfold allFlags
  rw [this]
  simp

theorem sum_filter (l : List Nat) (act : Nat → Bool) (n : Nat → Nat) :
    (l.map (fun e => if act e then n e else 0)).sum = ((l.filter act).map n).sum := by
  induction l with
  | nil => rfl
  | cons x l ih =>
    rw [List.map_cons, List.sum_cons, ih, List.filter_cons]
    split <;> simp

theorem vecBusy_pend (T : Tile) (q : QEntry) (c busy due : Nat) (f : FpFlags) (clamps : Nat) :
    ∃ l : List Pend, (T.vecBusy q c busy due f clamps).pend.Perm (T.pend ++ l) ∧
      (∀ p ∈ l, p = ⟨due, q.count.toNat, .cvtUpdate T.active none clamps f⟩) ∧
      (f ≠ 0 ∨ clamps ≠ 0 → (⟨due, q.count.toNat, .cvtUpdate T.active none clamps f⟩ : Pend) ∈ l) := by
  unfold Tile.vecBusy
  dsimp only
  split
  · rename_i h
    exact ⟨[], by simp, by simp, fun h' => by rcases h' with h' | h' <;> simp [h.1, h.2] at h'⟩
  · exact ⟨[_], Tile.addPend_pend _ _ _ _, by simp, by simp⟩

/-- A group put in hand and the engine's completion are lanes. -/
theorem lanes_of_putGroup (T : Tile) (q : QEntry) {w wide : Nat} (hw : laneWidth w) (hv : laneWidth wide)
    (hle : w ≤ wide) (c lat cc base g len busy clamps : Nat) (act : Nat → Bool) (f : Nat → Option Nat)
    (fl : FpFlags) (flags : Nat → FpFlags × Nat)
    (hf : ∀ i, fl.getLsbD i = true ↔ ∃ e < len, act e = true ∧ (flags e).1.getLsbD i = true)
    (hc : clamps = (((List.range len).filter act).map (fun e => (flags e).2)).sum) :
    T.lanes ((T.putGroup q.count c lat cc base g w wide f).vecBusy q c busy
      (c + lat + cc * chunksOf wide len - 2 * cc) fl clamps) q c lat cc base g w wide len act f flags := by
  obtain ⟨l, h1, h2, h3⟩ := vecBusy_pend (T.putGroup q.count c lat cc base g w wide f) q c busy
    (c + lat + cc * chunksOf wide len - 2 * cc) fl clamps
  rw [putGroup_active] at h2 h3
  refine ⟨stepPends q.count c lat cc base g w wide f ++ l, fl, clamps, ?_, ?_, hf, hc,
    fun h => List.mem_append_right _ (h3 h)⟩
  · refine h1.trans ?_
    rw [← List.append_assoc]
    exact (putGroup_pend _ _ _ _ _ _ _ _ _ _).append_right _
  · intro e he
    have h := stepPends_spec hw hv hle q.count c lat cc base g f e he
    cases hx : f e with
    | some x =>
      rw [hx] at h
      obtain ⟨m, v, p1, p2⟩ := h
      exact ⟨m, v, List.mem_append_left _ p1, p2⟩
    | none =>
      rw [hx] at h
      intro p hp m v hpe i hi
      rcases List.mem_append.1 hp with hp | hp
      · exact h p hp m v hpe i hi
      · rw [h2 p hp] at hpe; cases hpe

/-- Nothing is put in hand where the effective length is 0. -/
theorem lanes_of_idle (T T' : Tile) (hT : T'.pend = T.pend) (q : QEntry) (c lat cc base g w wide : Nat)
    (act : Nat → Bool) (f : Nat → Option Nat) (hf : ∀ e, f e = none) (flags : Nat → FpFlags × Nat) :
    T.lanes T' q c lat cc base g w wide 0 act f flags := by
  refine ⟨[], 0, 0, by simp [hT], ?_, by simp, by simp, by simp⟩
  intro e _
  rw [hf]
  simp

/-- An element of a source as the instruction reads it. -/
def VSrc.elem (T : Tile) (c cc wide e : Nat) : VSrc → Nat
  | .grp g w => T.elemAt c cc g.base w wide e
  | .scal x => x

theorem foldl_max_le (l : List Nat) (a : Nat) : a ≤ l.foldl max a ∧ ∀ x ∈ l, x ≤ l.foldl max a := by
  induction l generalizing a with
  | nil => simp
  | cons y l ih =>
    obtain ⟨h1, h2⟩ := ih (max a y)
    rw [List.foldl_cons]
    refine ⟨by omega, fun x hx => ?_⟩
    rcases List.mem_cons.1 hx with rfl | hx
    · omega
    · exact h2 x hx

theorem foldl_min_le (l : List Nat) (a : Nat) : l.foldl min a ≤ a ∧ ∀ x ∈ l, l.foldl min a ≤ x := by
  induction l generalizing a with
  | nil => simp
  | cons y l ih =>
    obtain ⟨h1, h2⟩ := ih (min a y)
    rw [List.foldl_cons]
    refine ⟨by omega, fun x hx => ?_⟩
    rcases List.mem_cons.1 hx with rfl | hx
    · omega
    · exact h2 x hx

theorem foldl_max_width (l : List Nat) (a : Nat) (ha : laneWidth a) (hl : ∀ x ∈ l, x = 0 ∨ laneWidth x) :
    laneWidth (l.foldl max a) := by
  induction l generalizing a with
  | nil => exact ha
  | cons y l ih =>
    rw [List.foldl_cons]
    refine ih _ ?_ (fun x hx => hl x (List.mem_cons_of_mem _ hx))
    rcases hl y List.mem_cons_self with rfl | hy
    · simpa using ha
    · rcases le_total a y with h | h
      · rw [max_eq_right h]; exact hy
      · rw [max_eq_left h]; exact ha

/-- Element-wise execution puts in hand what the function gives for each active element. -/
theorem vecElem_lanes (T : Tile) (q : QEntry) (c lat cc : Nat) (srcs : List VSrc) (dst : Grp) {w : Nat}
    (f : List Nat → Nat × FpFlags × Nat) (hw : laneWidth w) (hs : ∀ s ∈ srcs, s.width = 0 ∨ laneWidth s.width)
    (wide len : Nat) (hwide : wide = (srcs.map VSrc.width).foldl max w)
    (hgrp : ∀ s ∈ srcs, s.width = 0 → ∃ x, s = .scal x)
    (hlen : len = effLen T.cur.vl (vlmax w dst.n :: srcs.flatMap VSrc.max)) :
    T.lanes (T.vecElem c q lat cc srcs dst w f) q c lat cc dst.base dst.n w wide len
      (activeIn q.word (T.mask (vMsk q.word)))
      (writeOf q.word (T.mask (vMsk q.word)) len (fun e => (f (srcs.map (VSrc.elem T c cc wide e))).1))
      (fun e => (f (srcs.map (VSrc.elem T c cc wide e))).2) := by
  unfold Tile.vecElem
  dsimp only
  rw [← hlen, ← hwide]
  by_cases h0 : len = 0
  · rw [if_pos h0, h0]
    exact lanes_of_idle T (T.vecIdle c) rfl q c lat cc _ _ w wide _ _ (fun e => by simp [writeOf]) _
  rw [if_neg h0]
  have hv : laneWidth wide := by
    rw [hwide]
    refine foldl_max_width _ _ hw (fun x hx => ?_)
    obtain ⟨s, h1, rfl⟩ := List.mem_map.1 hx
    exact hs s h1
  have hle : w ≤ wide := by rw [hwide]; exact (foldl_max_le _ _).1
  have hmax : ∀ s ∈ srcs, s.width ≤ wide := by
    intro s h; rw [hwide]; exact (foldl_max_le _ _).2 _ (List.mem_map.2 ⟨s, h, rfl⟩)
  have hlm : ∀ s ∈ srcs, ∀ x ∈ s.max, len ≤ x := by
    intro s h x hx
    rw [hlen]
    exact (foldl_min_le _ _).2 _ (List.mem_cons_of_mem _ (List.mem_flatMap.2 ⟨s, h, hx⟩))
  have hcodes : ∀ e < len, (srcs.map (fun s => (s, s.codes T c cc wide))).map (fun p => p.1.at p.2 e)
      = srcs.map (VSrc.elem T c cc wide e) := by
    intro e he
    rw [List.map_map]
    apply List.map_congr_left
    intro s h
    cases s with
    | scal x => rfl
    | grp g ws =>
      show (Array.getD (T.groupAt c cc g.base g.n ws wide).toArray e 0) = T.elemAt c cc g.base ws wide e
      have hlw : laneWidth ws := by
        rcases hs _ h with h' | h'
        · obtain ⟨x, hx⟩ := hgrp _ h h'; cases hx
        · exact h'
      have hlt : e < vlmax ws g.n := lt_of_lt_of_le he (hlm _ h _ (List.mem_singleton.2 rfl))
      rw [← groupAt_getD T hlw hv (hmax _ h) c cc g.base g.n e hlt]
      unfold Array.getD
      rw [List.getD_eq_getElem?_getD]
      split
      · rename_i h1
        rw [List.getElem?_eq_getElem (by simpa using h1)]; simp
      · rename_i h1
        rw [List.getElem?_eq_none (by simpa using h1)]; rfl
  have hact : (List.range len).map (fun e => if activeIn q.word (T.mask (vMsk q.word)) e then
        some (f ((srcs.map (fun s => (s, s.codes T c cc wide))).map (fun p => p.1.at p.2 e))) else none)
      = (List.range len).map (fun e => if activeIn q.word (T.mask (vMsk q.word)) e then
        some (f (srcs.map (VSrc.elem T c cc wide e))) else none) := by
    apply List.map_congr_left
    intro e he
    rw [hcodes e (List.mem_range.1 he)]
  rw [hact]
  have hwr : (writeOf q.word (T.mask (vMsk q.word)) len (fun e =>
      ((((List.range len).map (fun e => if activeIn q.word (T.mask (vMsk q.word)) e then
        some (f (srcs.map (VSrc.elem T c cc wide e))) else none)).toArray.getD e none).map (·.1)).getD 0))
      = writeOf q.word (T.mask (vMsk q.word)) len (fun e => (f (srcs.map (VSrc.elem T c cc wide e))).1) := by
    funext e
    unfold writeOf
    by_cases he : len ≤ e
    · simp [he]
    · simp only [he, if_false]
      split
      · rename_i ha
        have : e < len := by omega
        simp [Array.getD, this, ha]
      · rfl
  rw [hwr]
  apply lanes_of_putGroup T q hw hv hle
  · intro i
    rw [allFlags_bit]
    constructor
    · rintro ⟨x, hx, hb⟩
      rw [List.map_map, List.mem_map] at hx
      obtain ⟨e, he, rfl⟩ := hx
      refine ⟨e, List.mem_range.1 he, ?_⟩
      by_cases ha : activeIn q.word (T.mask (vMsk q.word)) e
      · exact ⟨ha, by simpa [ha] using hb⟩
      · simp [ha] at hb
    · rintro ⟨e, he, ha, hb⟩
      exact ⟨_, List.mem_map.2 ⟨_, List.mem_map.2 ⟨e, List.mem_range.2 he, rfl⟩, rfl⟩, by simpa [ha] using hb⟩
  · rw [List.map_map, ← sum_filter]
    congr 1
    apply List.map_congr_left
    intro e _
    by_cases ha : activeIn q.word (T.mask (vMsk q.word)) e <;> simp [ha]

/-! ## Comparisons (R105) -/

theorem zipIdx_map_range {α : Type} (n : Nat) (A : Nat → α) :
    ((List.range n).map A).zipIdx = (List.range n).map (fun e => (A e, e)) := by
  apply List.ext_getElem
  · simp
  · intro i h1 h2
    simp

/-- Mask and results that step h of a comparison puts in hand. -/
def cmpBits (per h : Nat) (act : List (Option (Bool × FpFlags))) : Nat × Nat :=
  (act.zipIdx).foldl (fun (mv : Nat × Nat) p =>
    if p.2 / per = h then
      match p.1 with
      | some (b, _) => (mv.1 + 2 ^ p.2, mv.2 + (if b then 2 ^ p.2 else 0))
      | none => mv
    else mv) (0, 0)

theorem cmpBits_eq (per h len : Nat) (A : Nat → Option (Bool × FpFlags)) :
    cmpBits per h ((List.range len).map A) =
    ((List.range len).foldl (fun s e => s
        + (if e / per = h ∧ (A e).isSome then 1 else 0) * 2 ^ (1 * (0 + e))) 0,
      (List.range len).foldl (fun s e => s
        + (if e / per = h ∧ ((A e).map (·.1)).getD false then 1 else 0) * 2 ^ (1 * (0 + e))) 0) := by
  unfold cmpBits
  rw [zipIdx_map_range, List.foldl_map, ← foldl_pair]
  congr 1
  funext mv e
  dsimp only
  by_cases he : e / per = h
  · rcases A e with _ | ⟨b, fl⟩
    · simp [he]
    · cases b <;> simp [he]
  · simp [he]

theorem cmpBits_bit (per h len e : Nat) (A : Nat → Option (Bool × FpFlags)) :
    ((cmpBits per h ((List.range len).map A)).1.testBit e =
      (decide (e < len) && decide (e / per = h) && (A e).isSome)) ∧
    ((cmpBits per h ((List.range len).map A)).2.testBit e =
      (decide (e < len) && decide (e / per = h) && ((A e).map (·.1)).getD false)) := by
  rw [cmpBits_eq]
  constructor
  · have := (testBit_digits 1 0 (fun e => if e / per = h ∧ (A e).isSome then 1 else 0)
      (fun e => by split <;> norm_num) len).2 e 0 (by norm_num)
    rw [Nat.one_mul, Nat.add_zero] at this
    dsimp only
    rw [this]
    by_cases h1 : e / per = h <;> cases h2 : (A e).isSome <;> simp [h1]
  · have := (testBit_digits 1 0 (fun e => if e / per = h ∧ ((A e).map (·.1)).getD false then 1 else 0)
      (fun e => by split <;> norm_num) len).2 e 0 (by norm_num)
    rw [Nat.one_mul, Nat.add_zero] at this
    dsimp only
    rw [this]
    by_cases h1 : e / per = h <;> cases h2 : ((A e).map (·.1)).getD false <;> simp [h1]

/-- The landings of a comparison. -/
def cmpPends (n : BitVec 64) (i lat dst w len : Nat) (A : Nat → Option (Bool × FpFlags)) : List Pend :=
  (List.range (chunksOf w len)).filterMap (fun h =>
    if (cmpBits (2048 / w) h ((List.range len).map A)).1 = 0 then none
    else some ⟨i + lat + h - 1, n.toNat, .mreg dst
      (BitVec.ofNat 4096 (cmpBits (2048 / w) h ((List.range len).map A)).1)
      (BitVec.ofNat 4096 (cmpBits (2048 / w) h ((List.range len).map A)).2)⟩)

theorem foldl_active {α : Type} (l : List α) (T : Tile) (F : Tile → α → Tile)
    (hF : ∀ T x, (F T x).active = T.active) : (l.foldl F T).active = T.active := by
  induction l generalizing T with
  | nil => rfl
  | cons x l ih => rw [List.foldl_cons, ih, hF]

/-- A comparison puts in hand what the function gives for each active element. -/
theorem vecCmp_bits (T : Tile) (q : QEntry) (c lat : Nat) (srcs : List VSrc) (dst g : Nat) {w : Nat}
    (f : List Nat → Bool × FpFlags) (hw : laneWidth w) (hs : ∀ s ∈ srcs, s.width = 0 ∨ s.width = w)
    (hgrp : ∀ s ∈ srcs, s.width = 0 → ∃ x, s = .scal x) (len : Nat)
    (hlen : len = effLen T.cur.vl (vlmax w g :: srcs.flatMap VSrc.max)) :
    T.bitLanes (T.vecCmp c q lat srcs dst w g f) q c lat dst w len
      (activeIn q.word (T.mask (vMsk q.word))) (fun e => f (srcs.map (VSrc.elem T c 1 w e))) := by
  unfold Tile.vecCmp
  dsimp only
  rw [← hlen]
  by_cases h0 : len = 0
  · rw [if_pos h0, h0]
    exact ⟨[], 0, by simp [Tile.vecIdle], by intro e _; simp, by simp, by simp⟩
  rw [if_neg h0]
  have hw0 : 0 < w := by rcases hw with rfl | rfl | rfl | rfl | rfl <;> norm_num
  have hlm : ∀ s ∈ srcs, ∀ x ∈ s.max, len ≤ x := by
    intro s h x hx
    rw [hlen]
    exact (foldl_min_le _ _).2 _ (List.mem_cons_of_mem _ (List.mem_flatMap.2 ⟨s, h, hx⟩))
  have hcodes : ∀ e < len, (srcs.map (fun s => (s, s.codes T c 1 w))).map (fun p => p.1.at p.2 e)
      = srcs.map (VSrc.elem T c 1 w e) := by
    intro e he
    rw [List.map_map]
    apply List.map_congr_left
    intro s h
    cases s with
    | scal x => rfl
    | grp g ws =>
      show (Array.getD (T.groupAt c 1 g.base g.n ws w).toArray e 0) = T.elemAt c 1 g.base ws w e
      have hlw : ws = w := by
        rcases hs _ h with h' | h'
        · obtain ⟨x, hx⟩ := hgrp _ h h'; cases hx
        · exact h'
      subst hlw
      have hlt : e < vlmax ws g.n := lt_of_lt_of_le he (hlm _ h _ (List.mem_singleton.2 rfl))
      rw [← groupAt_getD T hw hw le_rfl c 1 g.base g.n e hlt]
      unfold Array.getD
      rw [List.getD_eq_getElem?_getD]
      split
      · rename_i h1
        rw [List.getElem?_eq_getElem (by simpa using h1)]; simp
      · rename_i h1
        rw [List.getElem?_eq_none (by simpa using h1)]; rfl
  set A : Nat → Option (Bool × FpFlags) := fun e => if activeIn q.word (T.mask (vMsk q.word)) e then
        some (f (srcs.map (VSrc.elem T c 1 w e))) else none with hA
  have hact : (List.range len).map (fun e => if activeIn q.word (T.mask (vMsk q.word)) e then
        some (f ((srcs.map (fun s => (s, s.codes T c 1 w))).map (fun p => p.1.at p.2 e))) else none)
      = (List.range len).map A := by
    apply List.map_congr_left
    intro e he
    rw [hcodes e (List.mem_range.1 he)]
  rw [hact]
  set T1 := (List.range (chunksOf w len)).foldl (fun T h =>
      let (mm, v) := (((List.range len).map A).zipIdx).foldl (fun (mv : Nat × Nat) p =>
        if p.2 / (2048 / w) = h then
          match p.1 with
          | some (b, _) => (mv.1 + 2 ^ p.2, mv.2 + (if b then 2 ^ p.2 else 0))
          | none => mv
        else mv) (0, 0)
      if mm = 0 then T
      else T.addPend q.count (c + lat + h - 1) (.mreg dst (BitVec.ofNat 4096 mm) (BitVec.ofNat 4096 v))) T with hT1
  have hp1 : T1.pend.Perm (T.pend ++ cmpPends q.count c lat dst w len A) := by
    rw [hT1]
    unfold cmpPends
    apply foldl_addPend
    intro T h
    show Tile.pend (if (cmpBits (2048 / w) h ((List.range len).map A)).1 = 0 then T
      else T.addPend q.count (c + lat + h - 1) _) |>.Perm _
    split
    · simp
    · exact Tile.addPend_pend _ _ _ _
  have ha1 : T1.active = T.active := by
    rw [hT1]
    apply foldl_active
    intro T h
    dsimp only
    split <;> rfl
  obtain ⟨l, h1, h2, h3⟩ := vecBusy_pend T1 q c (chunksOf w len) (c + lat + chunksOf w len - 2)
    (allFlags (((List.range len).map A).map (fun r => (r.map (·.2)).getD 0))) 0
  rw [ha1] at h2 h3
  refine ⟨cmpPends q.count c lat dst w len A ++ l, _, ?_, ?_, ?_, fun h => List.mem_append_right _ (h3 (.inl h))⟩
  · refine h1.trans ?_
    rw [← List.append_assoc]
    exact hp1.append_right _
  · intro e he
    split
    · rename_i hc
      simp only [Bool.and_eq_true, decide_eq_true_eq] at hc
      obtain ⟨b1, b2⟩ := cmpBits_bit (2048 / w) (e / (2048 / w)) len e A
      have hAe : A e = some (f (srcs.map (VSrc.elem T c 1 w e))) := by rw [hA]; simp [hc.2]
      have hb1 : (cmpBits (2048 / w) (e / (2048 / w)) ((List.range len).map A)).1.testBit e = true := by
        rw [b1, hAe]; simp [hc.1]
      refine ⟨BitVec.ofNat 4096 (cmpBits (2048 / w) (e / (2048 / w)) ((List.range len).map A)).1,
        BitVec.ofNat 4096 (cmpBits (2048 / w) (e / (2048 / w)) ((List.range len).map A)).2,
        List.mem_append_left _ (List.mem_filterMap.2 ⟨e / (2048 / w), ?_, ?_⟩), ?_, ?_⟩
      · rw [List.mem_range]
        have := hc.1
        unfold chunksOf
        rcases hw with rfl | rfl | rfl | rfl | rfl <;> norm_num <;> omega
      · rw [if_neg (by intro h; rw [h] at hb1; simp at hb1)]
      · rw [BitVec.getLsbD_ofNat]; simp [he, hb1]
      · rw [BitVec.getLsbD_ofNat, b2, hAe]; simp [he, hc.1]
    · rename_i hc
      intro p hp m v hpe
      rcases List.mem_append.1 hp with hp | hp
      · obtain ⟨h, hh, hs⟩ := List.mem_filterMap.1 hp
        split at hs
        · cases hs
        · cases hs
          simp only [Landing.mreg.injEq] at hpe
          obtain ⟨-, rfl, -⟩ := hpe
          rw [BitVec.getLsbD_ofNat, (cmpBits_bit (2048 / w) h len e A).1]
          by_cases h4 : e < len
          · have : activeIn q.word (T.mask (vMsk q.word)) e = false := by
              simpa [h4] using hc
            simp [hA, this]
          · simp [h4]
      · rw [h2 p hp] at hpe; cases hpe
  · intro i
    rw [allFlags_bit]
    constructor
    · rintro ⟨x, hx, hb⟩
      rw [List.map_map, List.mem_map] at hx
      obtain ⟨e, he, rfl⟩ := hx
      refine ⟨e, List.mem_range.1 he, ?_⟩
      by_cases ha : activeIn q.word (T.mask (vMsk q.word)) e
      · exact ⟨ha, by simpa [hA, ha] using hb⟩
      · simp [hA, ha] at hb
    · rintro ⟨e, he, ha, hb⟩
      exact ⟨_, List.mem_map.2 ⟨_, List.mem_map.2 ⟨e, List.mem_range.2 he, rfl⟩, rfl⟩, by simpa [hA, ha] using hb⟩

end Sys2Proof.Machine
end

