-- ==== Sys2Proof/Laws/State.lean ====
section
/-! SUPPORT. What each write of a part of the state leaves in every field, and what it reads as afterwards. -/
namespace Sys2Proof.Machine
set_option Elab.async false

variable (s : State)

/-! ## State.setTile -/

@[simp] theorem State.setTile_dies (d t : Nat) (x : Tile) : (s.setTile d t x).dies = s.dies := rfl
@[simp] theorem State.setTile_cds (d t : Nat) (x : Tile) : (s.setTile d t x).cds = s.cds := rfl
@[simp] theorem State.setTile_mds (d t : Nat) (x : Tile) : (s.setTile d t x).mds = s.mds := rfl
@[simp] theorem State.setTile_fds (d t : Nat) (x : Tile) : (s.setTile d t x).fds = s.fds := rfl
@[simp] theorem State.setTile_mem (d t : Nat) (x : Tile) : (s.setTile d t x).mem = s.mem := rfl
@[simp] theorem State.setTile_fabric (d t : Nat) (x : Tile) : (s.setTile d t x).fabric = s.fabric := rfl
@[simp] theorem State.setTile_update (d t : Nat) (x : Tile) : (s.setTile d t x).update = s.update := rfl
@[simp] theorem State.setTile_net (d t : Nat) (x : Tile) : (s.setTile d t x).net = s.net := rfl
@[simp] theorem State.setTile_alm (d t : Nat) (x : Tile) : (s.setTile d t x).alm = s.alm := rfl
@[simp] theorem State.setTile_sd (d t : Nat) (x : Tile) : (s.setTile d t x).sd = s.sd := rfl
@[simp] theorem State.setTile_sow (d t : Nat) (x : Tile) : (s.setTile d t x).sow = s.sow := rfl
@[simp] theorem State.setTile_hrv (d t : Nat) (x : Tile) : (s.setTile d t x).hrv = s.hrv := rfl
@[simp] theorem State.setTile_sites (d t : Nat) (x : Tile) : (s.setTile d t x).sites = s.sites := rfl
@[simp] theorem State.setTile_wseal (d t : Nat) (x : Tile) : (s.setTile d t x).wseal = s.wseal := rfl
@[simp] theorem State.setTile_glean (d t : Nat) (x : Tile) : (s.setTile d t x).glean = s.glean := rfl
@[simp] theorem State.setTile_clk (d t : Nat) (x : Tile) : (s.setTile d t x).clk = s.clk := rfl
@[simp] theorem State.setTile_opt (d t : Nat) (x : Tile) : (s.setTile d t x).opt = s.opt := rfl
@[simp] theorem State.setTile_fuse (d t : Nat) (x : Tile) : (s.setTile d t x).fuse = s.fuse := rfl
@[simp] theorem State.setTile_pwr (d t : Nat) (x : Tile) : (s.setTile d t x).pwr = s.pwr := rfl
@[simp] theorem State.setTile_free (d t : Nat) (x : Tile) : (s.setTile d t x).free = s.free := rfl
@[simp] theorem State.setTile_pending (d t : Nat) (x : Tile) : (s.setTile d t x).pending = s.pending := rfl
@[simp] theorem State.setTile_die (d t : Nat) (x : Tile) (i : Nat) : (s.setTile d t x).die i = s.die i := rfl
@[simp] theorem State.setTile_cd (d t : Nat) (x : Tile) (i : Nat) : (s.setTile d t x).cd i = s.cd i := rfl
@[simp] theorem State.setTile_md (d t : Nat) (x : Tile) (i : Nat) : (s.setTile d t x).md i = s.md i := rfl
@[simp] theorem State.setTile_fd (d t : Nat) (x : Tile) (i : Nat) : (s.setTile d t x).fd i = s.fd i := rfl
@[simp] theorem State.setTile_port (d t : Nat) (x : Tile) (i : Nat) : (s.setTile d t x).port i = s.port i := rfl
@[simp] theorem State.setTile_ring (d t : Nat) (x : Tile) (i : Nat) : (s.setTile d t x).ring i = s.ring i := rfl
@[simp] theorem State.setTile_colls (d t : Nat) (x : Tile) (i : Nat) : (s.setTile d t x).colls i = s.colls i := rfl
@[simp] theorem State.setTile_ld (d t : Nat) (x : Tile) (i : Nat) : (s.setTile d t x).ld i = s.ld i := rfl
@[simp] theorem State.setTile_tile (d t : Nat) (x : Tile) (i j : Nat) :
    (s.setTile d t x).tile i j = if tileKey d t = tileKey i j then x else s.tile i j :=
  Table.get_set _ _ _ _ _
@[simp] theorem State.setTile_setTile (d t : Nat) (x y : Tile) :
    (s.setTile d t x).setTile d t y = s.setTile d t y := by simp [State.setTile]

/-! ## State.setDie -/

@[simp] theorem State.setDie_tiles (b : Nat) (x : Die) : (s.setDie b x).tiles = s.tiles := rfl
@[simp] theorem State.setDie_cds (b : Nat) (x : Die) : (s.setDie b x).cds = s.cds := rfl
@[simp] theorem State.setDie_mds (b : Nat) (x : Die) : (s.setDie b x).mds = s.mds := rfl
@[simp] theorem State.setDie_fds (b : Nat) (x : Die) : (s.setDie b x).fds = s.fds := rfl
@[simp] theorem State.setDie_mem (b : Nat) (x : Die) : (s.setDie b x).mem = s.mem := rfl
@[simp] theorem State.setDie_fabric (b : Nat) (x : Die) : (s.setDie b x).fabric = s.fabric := rfl
@[simp] theorem State.setDie_update (b : Nat) (x : Die) : (s.setDie b x).update = s.update := rfl
@[simp] theorem State.setDie_net (b : Nat) (x : Die) : (s.setDie b x).net = s.net := rfl
@[simp] theorem State.setDie_alm (b : Nat) (x : Die) : (s.setDie b x).alm = s.alm := rfl
@[simp] theorem State.setDie_sd (b : Nat) (x : Die) : (s.setDie b x).sd = s.sd := rfl
@[simp] theorem State.setDie_sow (b : Nat) (x : Die) : (s.setDie b x).sow = s.sow := rfl
@[simp] theorem State.setDie_hrv (b : Nat) (x : Die) : (s.setDie b x).hrv = s.hrv := rfl
@[simp] theorem State.setDie_sites (b : Nat) (x : Die) : (s.setDie b x).sites = s.sites := rfl
@[simp] theorem State.setDie_wseal (b : Nat) (x : Die) : (s.setDie b x).wseal = s.wseal := rfl
@[simp] theorem State.setDie_glean (b : Nat) (x : Die) : (s.setDie b x).glean = s.glean := rfl
@[simp] theorem State.setDie_clk (b : Nat) (x : Die) : (s.setDie b x).clk = s.clk := rfl
@[simp] theorem State.setDie_opt (b : Nat) (x : Die) : (s.setDie b x).opt = s.opt := rfl
@[simp] theorem State.setDie_fuse (b : Nat) (x : Die) : (s.setDie b x).fuse = s.fuse := rfl
@[simp] theorem State.setDie_pwr (b : Nat) (x : Die) : (s.setDie b x).pwr = s.pwr := rfl
@[simp] theorem State.setDie_free (b : Nat) (x : Die) : (s.setDie b x).free = s.free := rfl
@[simp] theorem State.setDie_pending (b : Nat) (x : Die) : (s.setDie b x).pending = s.pending := rfl
@[simp] theorem State.setDie_tile (b : Nat) (x : Die) (i j : Nat) : (s.setDie b x).tile i j = s.tile i j := rfl
@[simp] theorem State.setDie_cd (b : Nat) (x : Die) (i : Nat) : (s.setDie b x).cd i = s.cd i := rfl
@[simp] theorem State.setDie_md (b : Nat) (x : Die) (i : Nat) : (s.setDie b x).md i = s.md i := rfl
@[simp] theorem State.setDie_fd (b : Nat) (x : Die) (i : Nat) : (s.setDie b x).fd i = s.fd i := rfl
@[simp] theorem State.setDie_port (b : Nat) (x : Die) (i : Nat) : (s.setDie b x).port i = s.port i := rfl
@[simp] theorem State.setDie_ring (b : Nat) (x : Die) (i : Nat) : (s.setDie b x).ring i = s.ring i := rfl
@[simp] theorem State.setDie_colls (b : Nat) (x : Die) (i : Nat) : (s.setDie b x).colls i = s.colls i := rfl
@[simp] theorem State.setDie_ld (b : Nat) (x : Die) (i : Nat) : (s.setDie b x).ld i = s.ld i := rfl
@[simp] theorem State.setDie_die (b : Nat) (x : Die) (i : Nat) :
    (s.setDie b x).die i = if b = i then x else s.die i :=
  Table.get_set _ _ _ _ _
@[simp] theorem State.setDie_setDie (b : Nat) (x y : Die) :
    (s.setDie b x).setDie b y = s.setDie b y := by simp [State.setDie]

/-! ## State.setCd -/

@[simp] theorem State.setCd_tiles (d : Nat) (x : ComputeDie) : (s.setCd d x).tiles = s.tiles := rfl
@[simp] theorem State.setCd_dies (d : Nat) (x : ComputeDie) : (s.setCd d x).dies = s.dies := rfl
@[simp] theorem State.setCd_mds (d : Nat) (x : ComputeDie) : (s.setCd d x).mds = s.mds := rfl
@[simp] theorem State.setCd_fds (d : Nat) (x : ComputeDie) : (s.setCd d x).fds = s.fds := rfl
@[simp] theorem State.setCd_mem (d : Nat) (x : ComputeDie) : (s.setCd d x).mem = s.mem := rfl
@[simp] theorem State.setCd_fabric (d : Nat) (x : ComputeDie) : (s.setCd d x).fabric = s.fabric := rfl
@[simp] theorem State.setCd_update (d : Nat) (x : ComputeDie) : (s.setCd d x).update = s.update := rfl
@[simp] theorem State.setCd_net (d : Nat) (x : ComputeDie) : (s.setCd d x).net = s.net := rfl
@[simp] theorem State.setCd_alm (d : Nat) (x : ComputeDie) : (s.setCd d x).alm = s.alm := rfl
@[simp] theorem State.setCd_sd (d : Nat) (x : ComputeDie) : (s.setCd d x).sd = s.sd := rfl
@[simp] theorem State.setCd_sow (d : Nat) (x : ComputeDie) : (s.setCd d x).sow = s.sow := rfl
@[simp] theorem State.setCd_hrv (d : Nat) (x : ComputeDie) : (s.setCd d x).hrv = s.hrv := rfl
@[simp] theorem State.setCd_sites (d : Nat) (x : ComputeDie) : (s.setCd d x).sites = s.sites := rfl
@[simp] theorem State.setCd_wseal (d : Nat) (x : ComputeDie) : (s.setCd d x).wseal = s.wseal := rfl
@[simp] theorem State.setCd_glean (d : Nat) (x : ComputeDie) : (s.setCd d x).glean = s.glean := rfl
@[simp] theorem State.setCd_clk (d : Nat) (x : ComputeDie) : (s.setCd d x).clk = s.clk := rfl
@[simp] theorem State.setCd_opt (d : Nat) (x : ComputeDie) : (s.setCd d x).opt = s.opt := rfl
@[simp] theorem State.setCd_fuse (d : Nat) (x : ComputeDie) : (s.setCd d x).fuse = s.fuse := rfl
@[simp] theorem State.setCd_pwr (d : Nat) (x : ComputeDie) : (s.setCd d x).pwr = s.pwr := rfl
@[simp] theorem State.setCd_free (d : Nat) (x : ComputeDie) : (s.setCd d x).free = s.free := rfl
@[simp] theorem State.setCd_pending (d : Nat) (x : ComputeDie) : (s.setCd d x).pending = s.pending := rfl
@[simp] theorem State.setCd_tile (d : Nat) (x : ComputeDie) (i j : Nat) : (s.setCd d x).tile i j = s.tile i j := rfl
@[simp] theorem State.setCd_die (d : Nat) (x : ComputeDie) (i : Nat) : (s.setCd d x).die i = s.die i := rfl
@[simp] theorem State.setCd_md (d : Nat) (x : ComputeDie) (i : Nat) : (s.setCd d x).md i = s.md i := rfl
@[simp] theorem State.setCd_fd (d : Nat) (x : ComputeDie) (i : Nat) : (s.setCd d x).fd i = s.fd i := rfl
@[simp] theorem State.setCd_port (d : Nat) (x : ComputeDie) (i : Nat) : (s.setCd d x).port i = s.port i := rfl
@[simp] theorem State.setCd_ring (d : Nat) (x : ComputeDie) (i : Nat) : (s.setCd d x).ring i = s.ring i := rfl
@[simp] theorem State.setCd_colls (d : Nat) (x : ComputeDie) (i : Nat) : (s.setCd d x).colls i = s.colls i := rfl
@[simp] theorem State.setCd_ld (d : Nat) (x : ComputeDie) (i : Nat) : (s.setCd d x).ld i = s.ld i := rfl
@[simp] theorem State.setCd_cd (d : Nat) (x : ComputeDie) (i : Nat) :
    (s.setCd d x).cd i = if d = i then x else s.cd i :=
  Table.get_set _ _ _ _ _
@[simp] theorem State.setCd_setCd (d : Nat) (x y : ComputeDie) :
    (s.setCd d x).setCd d y = s.setCd d y := by simp [State.setCd]

/-! ## State.setMd -/

@[simp] theorem State.setMd_tiles (m : Nat) (x : MemDie) : (s.setMd m x).tiles = s.tiles := rfl
@[simp] theorem State.setMd_dies (m : Nat) (x : MemDie) : (s.setMd m x).dies = s.dies := rfl
@[simp] theorem State.setMd_cds (m : Nat) (x : MemDie) : (s.setMd m x).cds = s.cds := rfl
@[simp] theorem State.setMd_fds (m : Nat) (x : MemDie) : (s.setMd m x).fds = s.fds := rfl
@[simp] theorem State.setMd_mem (m : Nat) (x : MemDie) : (s.setMd m x).mem = s.mem := rfl
@[simp] theorem State.setMd_fabric (m : Nat) (x : MemDie) : (s.setMd m x).fabric = s.fabric := rfl
@[simp] theorem State.setMd_update (m : Nat) (x : MemDie) : (s.setMd m x).update = s.update := rfl
@[simp] theorem State.setMd_net (m : Nat) (x : MemDie) : (s.setMd m x).net = s.net := rfl
@[simp] theorem State.setMd_alm (m : Nat) (x : MemDie) : (s.setMd m x).alm = s.alm := rfl
@[simp] theorem State.setMd_sd (m : Nat) (x : MemDie) : (s.setMd m x).sd = s.sd := rfl
@[simp] theorem State.setMd_sow (m : Nat) (x : MemDie) : (s.setMd m x).sow = s.sow := rfl
@[simp] theorem State.setMd_hrv (m : Nat) (x : MemDie) : (s.setMd m x).hrv = s.hrv := rfl
@[simp] theorem State.setMd_sites (m : Nat) (x : MemDie) : (s.setMd m x).sites = s.sites := rfl
@[simp] theorem State.setMd_wseal (m : Nat) (x : MemDie) : (s.setMd m x).wseal = s.wseal := rfl
@[simp] theorem State.setMd_glean (m : Nat) (x : MemDie) : (s.setMd m x).glean = s.glean := rfl
@[simp] theorem State.setMd_clk (m : Nat) (x : MemDie) : (s.setMd m x).clk = s.clk := rfl
@[simp] theorem State.setMd_opt (m : Nat) (x : MemDie) : (s.setMd m x).opt = s.opt := rfl
@[simp] theorem State.setMd_fuse (m : Nat) (x : MemDie) : (s.setMd m x).fuse = s.fuse := rfl
@[simp] theorem State.setMd_pwr (m : Nat) (x : MemDie) : (s.setMd m x).pwr = s.pwr := rfl
@[simp] theorem State.setMd_free (m : Nat) (x : MemDie) : (s.setMd m x).free = s.free := rfl
@[simp] theorem State.setMd_pending (m : Nat) (x : MemDie) : (s.setMd m x).pending = s.pending := rfl
@[simp] theorem State.setMd_tile (m : Nat) (x : MemDie) (i j : Nat) : (s.setMd m x).tile i j = s.tile i j := rfl
@[simp] theorem State.setMd_die (m : Nat) (x : MemDie) (i : Nat) : (s.setMd m x).die i = s.die i := rfl
@[simp] theorem State.setMd_cd (m : Nat) (x : MemDie) (i : Nat) : (s.setMd m x).cd i = s.cd i := rfl
@[simp] theorem State.setMd_fd (m : Nat) (x : MemDie) (i : Nat) : (s.setMd m x).fd i = s.fd i := rfl
@[simp] theorem State.setMd_port (m : Nat) (x : MemDie) (i : Nat) : (s.setMd m x).port i = s.port i := rfl
@[simp] theorem State.setMd_ring (m : Nat) (x : MemDie) (i : Nat) : (s.setMd m x).ring i = s.ring i := rfl
@[simp] theorem State.setMd_colls (m : Nat) (x : MemDie) (i : Nat) : (s.setMd m x).colls i = s.colls i := rfl
@[simp] theorem State.setMd_ld (m : Nat) (x : MemDie) (i : Nat) : (s.setMd m x).ld i = s.ld i := rfl
@[simp] theorem State.setMd_md (m : Nat) (x : MemDie) (i : Nat) :
    (s.setMd m x).md i = if m = i then x else s.md i :=
  Table.get_set _ _ _ _ _
@[simp] theorem State.setMd_setMd (m : Nat) (x y : MemDie) :
    (s.setMd m x).setMd m y = s.setMd m y := by simp [State.setMd]

/-! ## State.setFd -/

@[simp] theorem State.setFd_tiles (f : Nat) (x : FactorDie) : (s.setFd f x).tiles = s.tiles := rfl
@[simp] theorem State.setFd_dies (f : Nat) (x : FactorDie) : (s.setFd f x).dies = s.dies := rfl
@[simp] theorem State.setFd_cds (f : Nat) (x : FactorDie) : (s.setFd f x).cds = s.cds := rfl
@[simp] theorem State.setFd_mds (f : Nat) (x : FactorDie) : (s.setFd f x).mds = s.mds := rfl
@[simp] theorem State.setFd_mem (f : Nat) (x : FactorDie) : (s.setFd f x).mem = s.mem := rfl
@[simp] theorem State.setFd_fabric (f : Nat) (x : FactorDie) : (s.setFd f x).fabric = s.fabric := rfl
@[simp] theorem State.setFd_update (f : Nat) (x : FactorDie) : (s.setFd f x).update = s.update := rfl
@[simp] theorem State.setFd_net (f : Nat) (x : FactorDie) : (s.setFd f x).net = s.net := rfl
@[simp] theorem State.setFd_alm (f : Nat) (x : FactorDie) : (s.setFd f x).alm = s.alm := rfl
@[simp] theorem State.setFd_sd (f : Nat) (x : FactorDie) : (s.setFd f x).sd = s.sd := rfl
@[simp] theorem State.setFd_sow (f : Nat) (x : FactorDie) : (s.setFd f x).sow = s.sow := rfl
@[simp] theorem State.setFd_hrv (f : Nat) (x : FactorDie) : (s.setFd f x).hrv = s.hrv := rfl
@[simp] theorem State.setFd_sites (f : Nat) (x : FactorDie) : (s.setFd f x).sites = s.sites := rfl
@[simp] theorem State.setFd_wseal (f : Nat) (x : FactorDie) : (s.setFd f x).wseal = s.wseal := rfl
@[simp] theorem State.setFd_glean (f : Nat) (x : FactorDie) : (s.setFd f x).glean = s.glean := rfl
@[simp] theorem State.setFd_clk (f : Nat) (x : FactorDie) : (s.setFd f x).clk = s.clk := rfl
@[simp] theorem State.setFd_opt (f : Nat) (x : FactorDie) : (s.setFd f x).opt = s.opt := rfl
@[simp] theorem State.setFd_fuse (f : Nat) (x : FactorDie) : (s.setFd f x).fuse = s.fuse := rfl
@[simp] theorem State.setFd_pwr (f : Nat) (x : FactorDie) : (s.setFd f x).pwr = s.pwr := rfl
@[simp] theorem State.setFd_free (f : Nat) (x : FactorDie) : (s.setFd f x).free = s.free := rfl
@[simp] theorem State.setFd_pending (f : Nat) (x : FactorDie) : (s.setFd f x).pending = s.pending := rfl
@[simp] theorem State.setFd_tile (f : Nat) (x : FactorDie) (i j : Nat) : (s.setFd f x).tile i j = s.tile i j := rfl
@[simp] theorem State.setFd_die (f : Nat) (x : FactorDie) (i : Nat) : (s.setFd f x).die i = s.die i := rfl
@[simp] theorem State.setFd_cd (f : Nat) (x : FactorDie) (i : Nat) : (s.setFd f x).cd i = s.cd i := rfl
@[simp] theorem State.setFd_md (f : Nat) (x : FactorDie) (i : Nat) : (s.setFd f x).md i = s.md i := rfl
@[simp] theorem State.setFd_port (f : Nat) (x : FactorDie) (i : Nat) : (s.setFd f x).port i = s.port i := rfl
@[simp] theorem State.setFd_ring (f : Nat) (x : FactorDie) (i : Nat) : (s.setFd f x).ring i = s.ring i := rfl
@[simp] theorem State.setFd_colls (f : Nat) (x : FactorDie) (i : Nat) : (s.setFd f x).colls i = s.colls i := rfl
@[simp] theorem State.setFd_ld (f : Nat) (x : FactorDie) (i : Nat) : (s.setFd f x).ld i = s.ld i := rfl
@[simp] theorem State.setFd_fd (f : Nat) (x : FactorDie) (i : Nat) :
    (s.setFd f x).fd i = if f = i then x else s.fd i :=
  Table.get_set _ _ _ _ _
@[simp] theorem State.setFd_setFd (f : Nat) (x y : FactorDie) :
    (s.setFd f x).setFd f y = s.setFd f y := by simp [State.setFd]

/-! ## State.setPort -/

@[simp] theorem State.setPort_tiles (p : Nat) (x : TorusPort) : (s.setPort p x).tiles = s.tiles := rfl
@[simp] theorem State.setPort_dies (p : Nat) (x : TorusPort) : (s.setPort p x).dies = s.dies := rfl
@[simp] theorem State.setPort_cds (p : Nat) (x : TorusPort) : (s.setPort p x).cds = s.cds := rfl
@[simp] theorem State.setPort_mds (p : Nat) (x : TorusPort) : (s.setPort p x).mds = s.mds := rfl
@[simp] theorem State.setPort_fds (p : Nat) (x : TorusPort) : (s.setPort p x).fds = s.fds := rfl
@[simp] theorem State.setPort_mem (p : Nat) (x : TorusPort) : (s.setPort p x).mem = s.mem := rfl
@[simp] theorem State.setPort_fabric (p : Nat) (x : TorusPort) : (s.setPort p x).fabric = s.fabric := rfl
@[simp] theorem State.setPort_update (p : Nat) (x : TorusPort) : (s.setPort p x).update = s.update := rfl
@[simp] theorem State.setPort_alm (p : Nat) (x : TorusPort) : (s.setPort p x).alm = s.alm := rfl
@[simp] theorem State.setPort_sd (p : Nat) (x : TorusPort) : (s.setPort p x).sd = s.sd := rfl
@[simp] theorem State.setPort_sow (p : Nat) (x : TorusPort) : (s.setPort p x).sow = s.sow := rfl
@[simp] theorem State.setPort_hrv (p : Nat) (x : TorusPort) : (s.setPort p x).hrv = s.hrv := rfl
@[simp] theorem State.setPort_sites (p : Nat) (x : TorusPort) : (s.setPort p x).sites = s.sites := rfl
@[simp] theorem State.setPort_wseal (p : Nat) (x : TorusPort) : (s.setPort p x).wseal = s.wseal := rfl
@[simp] theorem State.setPort_glean (p : Nat) (x : TorusPort) : (s.setPort p x).glean = s.glean := rfl
@[simp] theorem State.setPort_clk (p : Nat) (x : TorusPort) : (s.setPort p x).clk = s.clk := rfl
@[simp] theorem State.setPort_opt (p : Nat) (x : TorusPort) : (s.setPort p x).opt = s.opt := rfl
@[simp] theorem State.setPort_fuse (p : Nat) (x : TorusPort) : (s.setPort p x).fuse = s.fuse := rfl
@[simp] theorem State.setPort_pwr (p : Nat) (x : TorusPort) : (s.setPort p x).pwr = s.pwr := rfl
@[simp] theorem State.setPort_free (p : Nat) (x : TorusPort) : (s.setPort p x).free = s.free := rfl
@[simp] theorem State.setPort_pending (p : Nat) (x : TorusPort) : (s.setPort p x).pending = s.pending := rfl
@[simp] theorem State.setPort_tile (p : Nat) (x : TorusPort) (i j : Nat) :
    (s.setPort p x).tile i j = s.tile i j := rfl
@[simp] theorem State.setPort_die (p : Nat) (x : TorusPort) (i : Nat) : (s.setPort p x).die i = s.die i := rfl
@[simp] theorem State.setPort_cd (p : Nat) (x : TorusPort) (i : Nat) : (s.setPort p x).cd i = s.cd i := rfl
@[simp] theorem State.setPort_md (p : Nat) (x : TorusPort) (i : Nat) : (s.setPort p x).md i = s.md i := rfl
@[simp] theorem State.setPort_fd (p : Nat) (x : TorusPort) (i : Nat) : (s.setPort p x).fd i = s.fd i := rfl
@[simp] theorem State.setPort_ring (p : Nat) (x : TorusPort) (i : Nat) : (s.setPort p x).ring i = s.ring i := rfl
@[simp] theorem State.setPort_port (p : Nat) (x : TorusPort) (i : Nat) :
    (s.setPort p x).port i = if p = i then x else s.port i :=
  Table.get_set _ _ _ _ _
@[simp] theorem State.setPort_setPort (p : Nat) (x y : TorusPort) :
    (s.setPort p x).setPort p y = s.setPort p y := by simp [State.setPort]
@[simp] theorem State.setPort_colls (p : Nat) (x : TorusPort) (i : Nat) : (s.setPort p x).colls i = s.colls i := rfl
@[simp] theorem State.setPort_ld (p : Nat) (x : TorusPort) (i : Nat) : (s.setPort p x).ld i = s.ld i := rfl

/-! ## State.setRing -/

@[simp] theorem State.setRing_tiles (r : Nat) (x : Ring) : (s.setRing r x).tiles = s.tiles := rfl
@[simp] theorem State.setRing_dies (r : Nat) (x : Ring) : (s.setRing r x).dies = s.dies := rfl
@[simp] theorem State.setRing_cds (r : Nat) (x : Ring) : (s.setRing r x).cds = s.cds := rfl
@[simp] theorem State.setRing_mds (r : Nat) (x : Ring) : (s.setRing r x).mds = s.mds := rfl
@[simp] theorem State.setRing_fds (r : Nat) (x : Ring) : (s.setRing r x).fds = s.fds := rfl
@[simp] theorem State.setRing_mem (r : Nat) (x : Ring) : (s.setRing r x).mem = s.mem := rfl
@[simp] theorem State.setRing_fabric (r : Nat) (x : Ring) : (s.setRing r x).fabric = s.fabric := rfl
@[simp] theorem State.setRing_update (r : Nat) (x : Ring) : (s.setRing r x).update = s.update := rfl
@[simp] theorem State.setRing_net (r : Nat) (x : Ring) : (s.setRing r x).net = s.net := rfl
@[simp] theorem State.setRing_alm (r : Nat) (x : Ring) : (s.setRing r x).alm = s.alm := rfl
@[simp] theorem State.setRing_sow (r : Nat) (x : Ring) : (s.setRing r x).sow = s.sow := rfl
@[simp] theorem State.setRing_hrv (r : Nat) (x : Ring) : (s.setRing r x).hrv = s.hrv := rfl
@[simp] theorem State.setRing_sites (r : Nat) (x : Ring) : (s.setRing r x).sites = s.sites := rfl
@[simp] theorem State.setRing_wseal (r : Nat) (x : Ring) : (s.setRing r x).wseal = s.wseal := rfl
@[simp] theorem State.setRing_glean (r : Nat) (x : Ring) : (s.setRing r x).glean = s.glean := rfl
@[simp] theorem State.setRing_clk (r : Nat) (x : Ring) : (s.setRing r x).clk = s.clk := rfl
@[simp] theorem State.setRing_opt (r : Nat) (x : Ring) : (s.setRing r x).opt = s.opt := rfl
@[simp] theorem State.setRing_fuse (r : Nat) (x : Ring) : (s.setRing r x).fuse = s.fuse := rfl
@[simp] theorem State.setRing_pwr (r : Nat) (x : Ring) : (s.setRing r x).pwr = s.pwr := rfl
@[simp] theorem State.setRing_free (r : Nat) (x : Ring) : (s.setRing r x).free = s.free := rfl
@[simp] theorem State.setRing_pending (r : Nat) (x : Ring) : (s.setRing r x).pending = s.pending := rfl
@[simp] theorem State.setRing_tile (r : Nat) (x : Ring) (i j : Nat) : (s.setRing r x).tile i j = s.tile i j := rfl
@[simp] theorem State.setRing_die (r : Nat) (x : Ring) (i : Nat) : (s.setRing r x).die i = s.die i := rfl
@[simp] theorem State.setRing_cd (r : Nat) (x : Ring) (i : Nat) : (s.setRing r x).cd i = s.cd i := rfl
@[simp] theorem State.setRing_md (r : Nat) (x : Ring) (i : Nat) : (s.setRing r x).md i = s.md i := rfl
@[simp] theorem State.setRing_fd (r : Nat) (x : Ring) (i : Nat) : (s.setRing r x).fd i = s.fd i := rfl
@[simp] theorem State.setRing_port (r : Nat) (x : Ring) (i : Nat) : (s.setRing r x).port i = s.port i := rfl
@[simp] theorem State.setRing_colls (r : Nat) (x : Ring) (i : Nat) : (s.setRing r x).colls i = s.colls i := rfl
@[simp] theorem State.setRing_ld (r : Nat) (x : Ring) (i : Nat) : (s.setRing r x).ld i = s.ld i := rfl
@[simp] theorem State.setRing_ring (r : Nat) (x : Ring) (i : Nat) :
    (s.setRing r x).ring i = if r = i then x else s.ring i :=
  Table.get_set _ _ _ _ _
@[simp] theorem State.setRing_setRing (r : Nat) (x y : Ring) :
    (s.setRing r x).setRing r y = s.setRing r y := by simp [State.setRing]

/-! ## State.setColl -/

@[simp] theorem State.setColl_tiles (k : Nat) (x : CollSlot) : (s.setColl k x).tiles = s.tiles := rfl
@[simp] theorem State.setColl_dies (k : Nat) (x : CollSlot) : (s.setColl k x).dies = s.dies := rfl
@[simp] theorem State.setColl_cds (k : Nat) (x : CollSlot) : (s.setColl k x).cds = s.cds := rfl
@[simp] theorem State.setColl_mds (k : Nat) (x : CollSlot) : (s.setColl k x).mds = s.mds := rfl
@[simp] theorem State.setColl_fds (k : Nat) (x : CollSlot) : (s.setColl k x).fds = s.fds := rfl
@[simp] theorem State.setColl_mem (k : Nat) (x : CollSlot) : (s.setColl k x).mem = s.mem := rfl
@[simp] theorem State.setColl_fabric (k : Nat) (x : CollSlot) : (s.setColl k x).fabric = s.fabric := rfl
@[simp] theorem State.setColl_update (k : Nat) (x : CollSlot) : (s.setColl k x).update = s.update := rfl
@[simp] theorem State.setColl_alm (k : Nat) (x : CollSlot) : (s.setColl k x).alm = s.alm := rfl
@[simp] theorem State.setColl_sd (k : Nat) (x : CollSlot) : (s.setColl k x).sd = s.sd := rfl
@[simp] theorem State.setColl_sow (k : Nat) (x : CollSlot) : (s.setColl k x).sow = s.sow := rfl
@[simp] theorem State.setColl_hrv (k : Nat) (x : CollSlot) : (s.setColl k x).hrv = s.hrv := rfl
@[simp] theorem State.setColl_sites (k : Nat) (x : CollSlot) : (s.setColl k x).sites = s.sites := rfl
@[simp] theorem State.setColl_wseal (k : Nat) (x : CollSlot) : (s.setColl k x).wseal = s.wseal := rfl
@[simp] theorem State.setColl_glean (k : Nat) (x : CollSlot) : (s.setColl k x).glean = s.glean := rfl
@[simp] theorem State.setColl_clk (k : Nat) (x : CollSlot) : (s.setColl k x).clk = s.clk := rfl
@[simp] theorem State.setColl_opt (k : Nat) (x : CollSlot) : (s.setColl k x).opt = s.opt := rfl
@[simp] theorem State.setColl_fuse (k : Nat) (x : CollSlot) : (s.setColl k x).fuse = s.fuse := rfl
@[simp] theorem State.setColl_pwr (k : Nat) (x : CollSlot) : (s.setColl k x).pwr = s.pwr := rfl
@[simp] theorem State.setColl_free (k : Nat) (x : CollSlot) : (s.setColl k x).free = s.free := rfl
@[simp] theorem State.setColl_pending (k : Nat) (x : CollSlot) : (s.setColl k x).pending = s.pending := rfl
@[simp] theorem State.setColl_tile (k : Nat) (x : CollSlot) (i j : Nat) : (s.setColl k x).tile i j = s.tile i j := rfl
@[simp] theorem State.setColl_die (k : Nat) (x : CollSlot) (i : Nat) : (s.setColl k x).die i = s.die i := rfl
@[simp] theorem State.setColl_cd (k : Nat) (x : CollSlot) (i : Nat) : (s.setColl k x).cd i = s.cd i := rfl
@[simp] theorem State.setColl_md (k : Nat) (x : CollSlot) (i : Nat) : (s.setColl k x).md i = s.md i := rfl
@[simp] theorem State.setColl_fd (k : Nat) (x : CollSlot) (i : Nat) : (s.setColl k x).fd i = s.fd i := rfl
@[simp] theorem State.setColl_ring (k : Nat) (x : CollSlot) (i : Nat) : (s.setColl k x).ring i = s.ring i := rfl
@[simp] theorem State.setColl_colls (k : Nat) (x : CollSlot) (i : Nat) :
    (s.setColl k x).colls i = if k = i then x else s.colls i :=
  Table.get_set _ _ _ _ _
@[simp] theorem State.setColl_setColl (k : Nat) (x y : CollSlot) :
    (s.setColl k x).setColl k y = s.setColl k y := by simp [State.setColl]
@[simp] theorem State.setColl_port (k : Nat) (x : CollSlot) (i : Nat) : (s.setColl k x).port i = s.port i := rfl
@[simp] theorem State.setColl_ld (k : Nat) (x : CollSlot) (i : Nat) : (s.setColl k x).ld i = s.ld i := rfl

/-! ## State.setLd -/

@[simp] theorem State.setLd_tiles (l : Nat) (x : LinkDie) : (s.setLd l x).tiles = s.tiles := rfl
@[simp] theorem State.setLd_dies (l : Nat) (x : LinkDie) : (s.setLd l x).dies = s.dies := rfl
@[simp] theorem State.setLd_cds (l : Nat) (x : LinkDie) : (s.setLd l x).cds = s.cds := rfl
@[simp] theorem State.setLd_mds (l : Nat) (x : LinkDie) : (s.setLd l x).mds = s.mds := rfl
@[simp] theorem State.setLd_fds (l : Nat) (x : LinkDie) : (s.setLd l x).fds = s.fds := rfl
@[simp] theorem State.setLd_mem (l : Nat) (x : LinkDie) : (s.setLd l x).mem = s.mem := rfl
@[simp] theorem State.setLd_fabric (l : Nat) (x : LinkDie) : (s.setLd l x).fabric = s.fabric := rfl
@[simp] theorem State.setLd_update (l : Nat) (x : LinkDie) : (s.setLd l x).update = s.update := rfl
@[simp] theorem State.setLd_alm (l : Nat) (x : LinkDie) : (s.setLd l x).alm = s.alm := rfl
@[simp] theorem State.setLd_sd (l : Nat) (x : LinkDie) : (s.setLd l x).sd = s.sd := rfl
@[simp] theorem State.setLd_sow (l : Nat) (x : LinkDie) : (s.setLd l x).sow = s.sow := rfl
@[simp] theorem State.setLd_hrv (l : Nat) (x : LinkDie) : (s.setLd l x).hrv = s.hrv := rfl
@[simp] theorem State.setLd_sites (l : Nat) (x : LinkDie) : (s.setLd l x).sites = s.sites := rfl
@[simp] theorem State.setLd_wseal (l : Nat) (x : LinkDie) : (s.setLd l x).wseal = s.wseal := rfl
@[simp] theorem State.setLd_glean (l : Nat) (x : LinkDie) : (s.setLd l x).glean = s.glean := rfl
@[simp] theorem State.setLd_clk (l : Nat) (x : LinkDie) : (s.setLd l x).clk = s.clk := rfl
@[simp] theorem State.setLd_opt (l : Nat) (x : LinkDie) : (s.setLd l x).opt = s.opt := rfl
@[simp] theorem State.setLd_fuse (l : Nat) (x : LinkDie) : (s.setLd l x).fuse = s.fuse := rfl
@[simp] theorem State.setLd_pwr (l : Nat) (x : LinkDie) : (s.setLd l x).pwr = s.pwr := rfl
@[simp] theorem State.setLd_free (l : Nat) (x : LinkDie) : (s.setLd l x).free = s.free := rfl
@[simp] theorem State.setLd_pending (l : Nat) (x : LinkDie) : (s.setLd l x).pending = s.pending := rfl
@[simp] theorem State.setLd_tile (l : Nat) (x : LinkDie) (i j : Nat) : (s.setLd l x).tile i j = s.tile i j := rfl
@[simp] theorem State.setLd_die (l : Nat) (x : LinkDie) (i : Nat) : (s.setLd l x).die i = s.die i := rfl
@[simp] theorem State.setLd_cd (l : Nat) (x : LinkDie) (i : Nat) : (s.setLd l x).cd i = s.cd i := rfl
@[simp] theorem State.setLd_md (l : Nat) (x : LinkDie) (i : Nat) : (s.setLd l x).md i = s.md i := rfl
@[simp] theorem State.setLd_fd (l : Nat) (x : LinkDie) (i : Nat) : (s.setLd l x).fd i = s.fd i := rfl
@[simp] theorem State.setLd_ring (l : Nat) (x : LinkDie) (i : Nat) : (s.setLd l x).ring i = s.ring i := rfl
@[simp] theorem State.setLd_ld (l : Nat) (x : LinkDie) (i : Nat) :
    (s.setLd l x).ld i = if l = i then x else s.ld i :=
  Table.get_set _ _ _ _ _
@[simp] theorem State.setLd_setLd (l : Nat) (x y : LinkDie) :
    (s.setLd l x).setLd l y = s.setLd l y := by simp [State.setLd]
@[simp] theorem State.setLd_port (l : Nat) (x : LinkDie) (i : Nat) : (s.setLd l x).port i = s.port i := rfl
@[simp] theorem State.setLd_colls (l : Nat) (x : LinkDie) (i : Nat) : (s.setLd l x).colls i = s.colls i := rfl

/-! ## State.setAlm -/

@[simp] theorem State.setAlm_tiles (a : Almanac) : (s.setAlm a).tiles = s.tiles := rfl
@[simp] theorem State.setAlm_dies (a : Almanac) : (s.setAlm a).dies = s.dies := rfl
@[simp] theorem State.setAlm_cds (a : Almanac) : (s.setAlm a).cds = s.cds := rfl
@[simp] theorem State.setAlm_mds (a : Almanac) : (s.setAlm a).mds = s.mds := rfl
@[simp] theorem State.setAlm_fds (a : Almanac) : (s.setAlm a).fds = s.fds := rfl
@[simp] theorem State.setAlm_mem (a : Almanac) : (s.setAlm a).mem = s.mem := rfl
@[simp] theorem State.setAlm_fabric (a : Almanac) : (s.setAlm a).fabric = s.fabric := rfl
@[simp] theorem State.setAlm_update (a : Almanac) : (s.setAlm a).update = s.update := rfl
@[simp] theorem State.setAlm_net (a : Almanac) : (s.setAlm a).net = s.net := rfl
@[simp] theorem State.setAlm_sd (a : Almanac) : (s.setAlm a).sd = s.sd := rfl
@[simp] theorem State.setAlm_sow (a : Almanac) : (s.setAlm a).sow = s.sow := rfl
@[simp] theorem State.setAlm_hrv (a : Almanac) : (s.setAlm a).hrv = s.hrv := rfl
@[simp] theorem State.setAlm_sites (a : Almanac) : (s.setAlm a).sites = s.sites := rfl
@[simp] theorem State.setAlm_wseal (a : Almanac) : (s.setAlm a).wseal = s.wseal := rfl
@[simp] theorem State.setAlm_glean (a : Almanac) : (s.setAlm a).glean = s.glean := rfl
@[simp] theorem State.setAlm_clk (a : Almanac) : (s.setAlm a).clk = s.clk := rfl
@[simp] theorem State.setAlm_opt (a : Almanac) : (s.setAlm a).opt = s.opt := rfl
@[simp] theorem State.setAlm_fuse (a : Almanac) : (s.setAlm a).fuse = s.fuse := rfl
@[simp] theorem State.setAlm_pwr (a : Almanac) : (s.setAlm a).pwr = s.pwr := rfl
@[simp] theorem State.setAlm_free (a : Almanac) : (s.setAlm a).free = s.free := rfl
@[simp] theorem State.setAlm_pending (a : Almanac) : (s.setAlm a).pending = s.pending := rfl
@[simp] theorem State.setAlm_alm (a : Almanac) : (s.setAlm a).alm = a := rfl
@[simp] theorem State.setAlm_tile (a : Almanac) (i j : Nat) : (s.setAlm a).tile i j = s.tile i j := rfl
@[simp] theorem State.setAlm_die (a : Almanac) (i : Nat) : (s.setAlm a).die i = s.die i := rfl
@[simp] theorem State.setAlm_cd (a : Almanac) (i : Nat) : (s.setAlm a).cd i = s.cd i := rfl
@[simp] theorem State.setAlm_md (a : Almanac) (i : Nat) : (s.setAlm a).md i = s.md i := rfl
@[simp] theorem State.setAlm_fd (a : Almanac) (i : Nat) : (s.setAlm a).fd i = s.fd i := rfl
@[simp] theorem State.setAlm_port (a : Almanac) (i : Nat) : (s.setAlm a).port i = s.port i := rfl
@[simp] theorem State.setAlm_ring (a : Almanac) (i : Nat) : (s.setAlm a).ring i = s.ring i := rfl
@[simp] theorem State.setAlm_colls (a : Almanac) (i : Nat) : (s.setAlm a).colls i = s.colls i := rfl
@[simp] theorem State.setAlm_ld (a : Almanac) (i : Nat) : (s.setAlm a).ld i = s.ld i := rfl

end Sys2Proof.Machine
end

