-- ==== Sys2Proof/Laws/Log.lean ====
section
/-! SUPPORT. What a log entry (R386) leaves: everything but the error rings, the warden's log and seal, the dispatch of
streams, throttles, reset sources, the steward's event queue and the counter of free values. -/
namespace Sys2Proof.Machine
set_option Elab.async false

/-- The state without the parts that an entry may change. -/
def State.unlogged (s : State) : State :=
  { s with tiles := [], dies := [], wseal := State.reset.wseal, pwr := State.reset.pwr, clk := State.reset.clk,
           sd := State.reset.sd, free := 0 }

theorem Table.find_foldr_set (f : Nat → Tile → Tile) (t acc : Table Tile) (n : Nat) :
    Table.get Tile.reset (t.foldr (fun e acc => Table.set Tile.reset acc e.1 (f e.1 e.2)) acc) n =
      match Table.find t n with
      | some x => f n x
      | none => Table.get Tile.reset acc n := by
  induction t with
  | nil => rfl
  | cons e t ih =>
    by_cases h : e.1 = n
    · simp [Table.find, h]
    · simp [Table.find, h, ih]

/-- Every tile is mapped, those not listed as the tile after reset. -/
theorem State.mapTiles_tile (s : State) (f : Nat → Tile → Tile) (hf : ∀ k, f k Tile.reset = Tile.reset) (d t : Nat) :
    (s.mapTiles f).tile d t = f (tileKey d t) (s.tile d t) := by
  rw [State.mapTiles, State.tile, Table.find_foldr_set, State.tile, Table.get]
  cases Table.find s.tiles (tileKey d t) <;> simp [hf]

/-- What an entry does to a tile. -/
def Tile.logged (T U : Tile) : Prop := U = T ∨ U = T.stopDispatch

theorem Tile.logged_trans {T U V : Tile} (h : T.logged U) (k : U.logged V) : T.logged V := by
  have hh : T.stopDispatch.stopDispatch = T.stopDispatch := by
    simp only [Tile.stopDispatch]
    split <;> simp
  rcases h with rfl | rfl <;> rcases k with rfl | rfl <;> simp [Tile.logged, hh]

/-- `t` is `s` but for what entries change. -/
def State.logsTo (s t : State) : Prop := t.unlogged = s.unlogged ∧ ∀ d u, (s.tile d u).logged (t.tile d u)

theorem State.logsTo_refl (s : State) : s.logsTo s := ⟨rfl, fun _ _ => .inl rfl⟩

theorem State.logsTo_trans {s t u : State} (h : s.logsTo t) (k : t.logsTo u) : s.logsTo u :=
  ⟨k.1.trans h.1, fun d n => Tile.logged_trans (h.2 d n) (k.2 d n)⟩

theorem State.logsTo_ite {s t u : State} {p : Prop} [Decidable p] (h : s.logsTo t) (k : s.logsTo u) :
    s.logsTo (if p then t else u) := by split <;> assumption

theorem State.setDie_logsTo (s : State) (b : Nat) (D : Die) : s.logsTo (s.setDie b D) := ⟨rfl, fun _ _ => .inl rfl⟩

theorem State.setWseal_logsTo (s : State) (w : Seal) : s.logsTo { s with wseal := w } := ⟨rfl, fun _ _ => .inl rfl⟩

theorem State.wantWarm_logsTo (s : State) (a b : Nat) : s.logsTo (s.wantWarm a b) := ⟨rfl, fun _ _ => .inl rfl⟩

theorem State.postEvent_logsTo (s : State) (a b : BitVec 64) : s.logsTo (s.postEvent a b) := by
  simp only [State.postEvent]
  exact State.logsTo_ite ⟨rfl, fun _ _ => .inl rfl⟩ ⟨rfl, fun _ _ => .inl rfl⟩

theorem State.detect_logsTo (s : State) (b code : Nat) (joined : Bool) : s.logsTo (s.detect b code joined) := by
  refine ⟨rfl, fun d t => ?_⟩
  simp only [State.detect]
  rw [State.mapTiles_tile _ _ (fun _ => rfl)]
  exact .inr rfl

theorem State.moment_logsTo (s : State) : s.logsTo s.moment := ⟨rfl, fun _ _ => .inl rfl⟩

theorem State.logRaw_logsTo (s : State) (b : Nat) (e : ErrSpec) : s.logsTo (s.logRaw b e) := by
  have h (D : Die) : s.logsTo (if e.det = true then (s.setDie b D).detect b e.code (e.sev == 3 || e.hold)
      else s.setDie b D) :=
    State.logsTo_ite (State.logsTo_trans (s.setDie_logsTo b D) (State.detect_logsTo _ _ _ _)) (s.setDie_logsTo b D)
  exact State.logsTo_trans (State.logsTo_ite (State.logsTo_trans (h _) (State.postEvent_logsTo _ _ _)) (h _))
    (State.moment_logsTo _)

theorem State.holdQuads_logsTo (s : State) (h : Nat) (qs : List Nat) : s.logsTo (s.holdQuads h qs) := by
  induction qs generalizing s with
  | nil => exact s.logsTo_refl
  | cons q qs ih =>
    have k (l : List (Nat × Nat)) : s.logsTo { s with pwr := { s.pwr with holders := l } } :=
      ⟨rfl, fun _ _ => .inl rfl⟩
    exact State.logsTo_trans (State.logsTo_ite s.logsTo_refl
      (State.logsTo_ite (k _) (State.logsTo_trans (k _) (State.logRaw_logsTo _ _ _)))) (ih _)

theorem State.react_logsTo (s : State) (b code unit : Nat) : s.logsTo (s.react b code unit) :=
  State.logsTo_ite (State.holdQuads_logsTo _ _ _) (State.logsTo_ite (State.holdQuads_logsTo _ _ _)
    (State.logsTo_ite (State.holdQuads_logsTo _ _ _) s.logsTo_refl))

theorem State.fatal_logsTo (s : State) (b code : Nat) : s.logsTo (s.fatal b code) := by
  have k (t : State) : t.logsTo (if code = 0x90 then t.wantWarm 4 b else if code = 0x91 then t.wantWarm 5 b
      else if code = 0x92 then t.wantWarm 3 b else t) :=
    State.logsTo_ite (State.wantWarm_logsTo _ _ _) (State.logsTo_ite (State.wantWarm_logsTo _ _ _)
      (State.logsTo_ite (State.wantWarm_logsTo _ _ _) t.logsTo_refl))
  refine State.logsTo_trans (s.setWseal_logsTo { s.wseal with
    fatalOpen := s.wseal.fatalOpen ||| BitVec.ofNat 16 (2 ^ codeClass code) }) (State.logsTo_trans ?_ (k _))
  exact State.logsTo_ite (State.logsTo_trans (State.logRaw_logsTo _ _ _)
    (State.logsTo_trans (State.setWseal_logsTo _ _) (State.wantWarm_logsTo _ _ _))) (State.logsTo_refl _)

/-- An entry changes what entries may change, and no more. -/
theorem State.logErr_logsTo (s : State) (b : Nat) (e : ErrSpec) : s.logsTo (s.logErr b e) := by
  have h := s.logRaw_logsTo (s.dieOf b) e
  have k := State.logsTo_ite (p := e.det = true) (State.logsTo_trans h (State.react_logsTo _ (s.dieOf b) e.code
      e.unit)) h
  exact State.logsTo_ite (State.logsTo_trans k (State.fatal_logsTo _ _ _)) k

section
variable (s : State) (b : Nat) (e : ErrSpec)
@[simp] theorem State.logErr_mem : (s.logErr b e).mem = s.mem := (congrArg State.mem (s.logErr_logsTo b e).1 :)
@[simp] theorem State.logErr_cds : (s.logErr b e).cds = s.cds := (congrArg State.cds (s.logErr_logsTo b e).1 :)
@[simp] theorem State.logErr_mds : (s.logErr b e).mds = s.mds := (congrArg State.mds (s.logErr_logsTo b e).1 :)
@[simp] theorem State.logErr_fds : (s.logErr b e).fds = s.fds := (congrArg State.fds (s.logErr_logsTo b e).1 :)
@[simp] theorem State.logErr_fabric : (s.logErr b e).fabric = s.fabric :=
  (congrArg State.fabric (s.logErr_logsTo b e).1 :)
@[simp] theorem State.logErr_update : (s.logErr b e).update = s.update :=
  (congrArg State.update (s.logErr_logsTo b e).1 :)
@[simp] theorem State.logErr_net : (s.logErr b e).net = s.net := (congrArg State.net (s.logErr_logsTo b e).1 :)
@[simp] theorem State.logErr_alm : (s.logErr b e).alm = s.alm := (congrArg State.alm (s.logErr_logsTo b e).1 :)
@[simp] theorem State.logErr_sow : (s.logErr b e).sow = s.sow := (congrArg State.sow (s.logErr_logsTo b e).1 :)
@[simp] theorem State.logErr_hrv : (s.logErr b e).hrv = s.hrv := (congrArg State.hrv (s.logErr_logsTo b e).1 :)
@[simp] theorem State.logErr_sites : (s.logErr b e).sites = s.sites := (congrArg State.sites (s.logErr_logsTo b e).1 :)
@[simp] theorem State.logErr_glean : (s.logErr b e).glean = s.glean := (congrArg State.glean (s.logErr_logsTo b e).1 :)
@[simp] theorem State.logErr_opt : (s.logErr b e).opt = s.opt := (congrArg State.opt (s.logErr_logsTo b e).1 :)
@[simp] theorem State.logErr_fuse : (s.logErr b e).fuse = s.fuse := (congrArg State.fuse (s.logErr_logsTo b e).1 :)
@[simp] theorem State.logErr_pending : (s.logErr b e).pending = s.pending :=
  (congrArg State.pending (s.logErr_logsTo b e).1 :)
@[simp] theorem State.logErr_cd (d : Nat) : (s.logErr b e).cd d = s.cd d := by simp [State.cd]
@[simp] theorem State.logErr_md (d : Nat) : (s.logErr b e).md d = s.md d := by simp [State.md]
@[simp] theorem State.logErr_port (p : Nat) : (s.logErr b e).port p = s.port p := by simp [State.port]

/-- An entry stops a stream's dispatch at most; the tile's registers, queues and memory stay. -/
theorem State.logErr_tile (d t : Nat) : (s.tile d t).logged ((s.logErr b e).tile d t) := (s.logErr_logsTo b e).2 d t
end

end Sys2Proof.Machine
end

