-- ==== Sys2Proof/Laws/Memory.lean ====
section
/-! SUPPORT. Memory: every operation keeps the canonical form, and what a write leaves alone. -/
namespace Sys2Proof.Machine
set_option Elab.async false

theorem Memory.wf_writeBytes (m : Memory) (a : Nat) (l : List Byte) (h : Memory.wf m = true) :
    Memory.wf (writeBytes m a l) = true := by
  induction l generalizing m a with
  | nil => exact h
  | cons b l ih => exact ih _ _ (Table.wf_set 0 m a b h)

theorem Memory.get_writeBytes_below (m : Memory) (a x : Nat) (l : List Byte) (h : x < a) :
    Table.get 0 (writeBytes m a l) x = Table.get 0 m x := by
  induction l generalizing m a with
  | nil => rfl
  | cons b l ih =>
    rw [writeBytes, ih _ _ (by omega), Table.get_set, if_neg (by omega)]

theorem Memory.get_writeBytes_above (m : Memory) (a x : Nat) (l : List Byte) (h : a + l.length ≤ x) :
    Table.get 0 (writeBytes m a l) x = Table.get 0 m x := by
  induction l generalizing m a with
  | nil => rfl
  | cons b l ih =>
    simp only [List.length_cons] at h
    rw [writeBytes, ih _ _ (by omega), Table.get_set, if_neg (by omega)]

theorem readBytes_length (m : Memory) (a n : Nat) : (readBytes m a n).length = n := by
  induction n generalizing a with
  | zero => rfl
  | succ n ih => simp [readBytes, ih]

theorem Memory.wf_hostPut (s : State) (a : Nat) (l : List Byte) (h : Memory.wf s.sd.hostMem = true) :
    Memory.wf (s.hostPut a l).sd.hostMem = true := Memory.wf_writeBytes _ _ _ h

theorem Memory.wf_reset : Memory.wf State.reset.mem = true ∧ Memory.wf State.reset.sd.hostMem = true := by decide

end Sys2Proof.Machine
end

