-- ==== Sys2Proof/Laws/Sums.lean ====
section
/-! SUPPORT. Sums in a tree and pair additions (R78, R88, R121). -/
namespace Sys2Proof.Machine

set_option Elab.async false

theorem SumTree.perm {α : Type} {add : α → α → α} {l l' : List α} {v : α} (h : SumTree add l v) (hp : l.Perm l') :
    SumTree add l' v := by
  cases h with
  | leaf => rw [← List.singleton_perm.1 hp]; exact .leaf _
  | node l a b x y h1 h2 h3 => exact .node l' a b x y (hp.symm.trans h1) h2 h3

/-- Values that are trees themselves, added up in a tree. -/
theorem treeSumAux_forest {α : Type} (join : Nat → Nat × Nat) (add : α → α → α) (z : α) :
    ∀ (k : Nat) (F : List (List α × α)), F ≠ [] → F.length ≤ k + 1 → (∀ p ∈ F, SumTree add p.1 p.2) →
      SumTree add (F.flatMap (·.1)) (treeSumAux join add z k (F.map (·.2))) := by
  intro k
  induction k with
  | zero =>
    intro F h0 h1 h2
    match F, h0, h1, h2 with
    | [p], _, _, h2 => simpa [treeSumAux] using h2 p (by simp)
  | succ k ih =>
    intro F h0 h1 h2
    match F, h0 with
    | [p], _ => simpa [treeSumAux] using h2 p (by simp)
    | p :: p' :: F', _ =>
      generalize hF : p :: p' :: F' = F at *
      have hlen : 2 ≤ F.length := by rw [← hF]; simp
      have hstep : treeSumAux join add z (k + 1) (F.map (·.2)) =
          treeSumAux join add z k (((F.map (·.2)).eraseIdx ((join k).1 % F.length)).eraseIdx ((join k).2 % (F.length -
            1))
            ++ [add ((F.map (·.2)).getD ((join k).1 % F.length) z)
              (((F.map (·.2)).eraseIdx ((join k).1 % F.length)).getD ((join k).2 % (F.length - 1)) z)]) := by
        rw [← hF]
        rw [treeSumAux]
        · have : ((List.map (fun x => x.2) (p :: p' :: F')).eraseIdx ((join k).1 % (List.map (fun x => x.2) (p :: p'
          :: F')).length)).length
              = (p :: p' :: F').length - 1 := by
            rw [List.length_eraseIdx_of_lt (by apply Nat.mod_lt; simp)]
            simp
          generalize join k = r at *
          obtain ⟨i, j⟩ := r
          dsimp only at this ⊢
          rw [this]
          simp only [List.length_map]
        · intro h; simp at h
        · intro x h; simp at h
      set i := (join k).1 % F.length
      have hi : i < F.length := Nat.mod_lt _ (by omega)
      have hp1 : F.Perm (F[i] :: F.eraseIdx i) := (List.getElem_cons_eraseIdx_perm hi).symm
      set j := (join k).2 % (F.length - 1)
      have hl1 : (F.eraseIdx i).length = F.length - 1 := List.length_eraseIdx_of_lt hi
      have hj : j < (F.eraseIdx i).length := by rw [hl1]; exact Nat.mod_lt _ (by omega)
      have hp2 : (F.eraseIdx i).Perm ((F.eraseIdx i)[j] :: (F.eraseIdx i).eraseIdx j) :=
        (List.getElem_cons_eraseIdx_perm hj).symm
      set G := (F.eraseIdx i).eraseIdx j
      set a := F[i]
      set b := (F.eraseIdx i)[j]
      have hall : F.Perm (a :: b :: G) := hp1.trans (hp2.cons a)
      have hmem : ∀ p ∈ a :: b :: G, p ∈ F := fun p hp => hall.symm.subset hp
      have hnew : SumTree add (a.1 ++ b.1) (add a.2 b.2) :=
        .node _ _ _ _ _ (.refl _) (h2 a (hmem a (by simp))) (h2 b (hmem b (by simp)))
      have := ih (G ++ [(a.1 ++ b.1, add a.2 b.2)]) (by simp)
        (by have := hall.length_eq; simp at this ⊢; omega)
        (by
          intro p hp
          rcases List.mem_append.1 hp with hp | hp
          · exact h2 p (hmem p (by simp [hp]))
          · rw [List.mem_singleton.1 hp]; exact hnew)
      have e1 : (F.map (·.2)).getD i z = a.2 := by simp [hi, a]
      have e2 : ((F.map (·.2)).eraseIdx i).getD j z = b.2 := by
        rw [List.eraseIdx_map]; simp [hj, b]
      have e3 : ((F.map (·.2)).eraseIdx i).eraseIdx j = G.map (·.2) := by
        rw [List.eraseIdx_map, List.eraseIdx_map]
      rw [hstep, e1, e2, e3]
      have e4 : G.map (·.2) ++ [add a.2 b.2] = (G ++ [(a.1 ++ b.1, add a.2 b.2)]).map (·.2) := by simp
      rw [e4]
      refine this.perm ?_
      have p1 : (F.flatMap (·.1)).Perm ((a :: b :: G).flatMap (·.1)) := hall.flatMap_right _
      refine List.Perm.trans ?_ p1.symm
      simp only [List.flatMap_append, List.flatMap_cons, List.flatMap_nil, List.append_nil]
      refine List.perm_append_comm.trans ?_
      rw [List.append_assoc]

/-- A sum in the tree of a shape is a tree of additions over the values. -/
theorem treeSumAux_tree {α : Type} (join : Nat → Nat × Nat) (add : α → α → α) (z : α) (l : List α) (h : l ≠ []) :
    SumTree add l (treeSumAux join add z l.length l) := by
  have := treeSumAux_forest join add z l.length (l.map (fun x => ([x], x))) (by simpa using h) (by simp)
    (by intro p hp; obtain ⟨x, -, rfl⟩ := List.mem_map.1 hp; exact .leaf x)
  rw [List.map_map] at this
  have e1 : (l.map (fun x => ([x], x))).flatMap (·.1) = l := by
    rw [List.flatMap_map]; simp
  have e2 : l.map ((·.2) ∘ fun x => ([x], x)) = l := by simp [Function.comp_def]
  rw [e1, e2] at this
  exact this

/-! ## Pair additions (R78, R121) -/

theorem bits_ofNat72 {n : Nat} (h : n < 2 ^ 64) : bits (BitVec.ofNat 72 n) 63 0 = n := by
  unfold bits
  rw [BitVec.toNat_ofNat]
  omega

theorem FVal.is.zero {v : FVal} (h : v.is 0) : ∃ n e, v = .fin n 0 e := by
  obtain ⟨n, m, e, rfl, h⟩ := h
  have : (m : ℝ) * 2 ^ e = 0 := by
    rcases n with _ | _ <;> simpa using h.symm
  have hm : m = 0 := by
    have h2 : (2 : ℝ) ^ e ≠ 0 := by positivity
    simpa [h2] using this
  exact ⟨n, e, by rw [hm]⟩

theorem addExact_zero {a b : FVal} {x y : ℝ} (ha : a.is x) (hb : b.is y) (h : x + y = 0) :
    addExact a b = .fin (a.neg? && b.neg?) 0 0 := by
  unfold addExact
  have hm : (a.dyad.add b.dyad).m = 0 := (num_zero (Dyad.add_num ha.num hb.num)).2 h
  simp [ha.plain, hb.plain, FVal.ofDyad, hm]

theorem neg_of_is {a : FVal} {x : ℝ} (ha : a.is x) (hx : x ≠ 0) : a.neg? = true ↔ x < 0 := by
  obtain ⟨n, m, e, rfl, rfl⟩ := ha
  have hp : 0 < (m : ℝ) * 2 ^ e := by
    have : 0 ≤ (m : ℝ) * 2 ^ e := by positivity
    rcases this.lt_or_eq with h | h
    · exact h
    · exfalso; apply hx; rw [← h]; simp
  cases n
  · simp [FVal.neg?]; linarith
  · simp [FVal.neg?]; linarith

/-- A pair addition whose exact sum is 0 gives a zero of R49's sign. -/
theorem dfAdd_zero {a b : FVal} (p q : FpFlags) {x y : ℝ} (ha : a.is x) (hb : b.is y) (h : x + y = 0) :
    dfAdd (a, p) (b, q) = (.fin (a.neg? && b.neg?) 0 0, p ||| q) := by
  have e := addExact_zero ha hb h
  unfold dfAdd lineAdd
  dsimp only
  rw [e]
  simp [layPair, layFloat, FVal.isZero, FVal.isNan, flagIf]
  have h0 : ∀ n, (w72Pair (.fin n 0 0)).2.2 = 0 := by decide
  rw [h0]; simp

/-- A pair addition of numbers is HI + LO of the exact sum (R78). -/
theorem dfAdd_is {a b : FVal} (p q : FpFlags) {x y : ℝ} (ha : a.is x) (hb : b.is y) (h : x + y ≠ 0) :
    ∃ hi lo, pairOf (x + y) hi lo ∧
      (∀ h l, (fp64.decode hi).is h → (fp64.decode lo).is l →
        ∃ v, dfAdd (a, p) (b, q) = (v, p ||| q) ∧ v.is (h + l)) ∧
      (∀ n, fp64.decode hi = .inf n → dfAdd (a, p) (b, q) = (.inf n, p ||| q ||| fOverflow)) := by
  have hs := addExact_is ha hb
  obtain ⟨n, m, e, hv, -⟩ := id hs
  rw [hv] at hs
  obtain ⟨hi, lo, f1, f2, h1, h2, h3, hb1, hb2⟩ := w72Pair_is n m e (x + y) hs h
  have hz : (FVal.fin n m e).isZero = false := by
    cases m with
    | zero => exfalso; obtain ⟨_, _, _, h4, h5⟩ := hs; cases h4; simp at h5; exact h h5
    | succ m => rfl
  refine ⟨hi, lo, ⟨f1, f2, h1, fun y hy => (h3 y hy).2⟩, fun y l hy hl => ?_, fun n' hn => ?_⟩
  · have h4 := (h3 y hy).1
    refine ⟨addExact (fp64.decode hi) (fp64.decode lo), ?_, addExact_is hy hl⟩
    unfold dfAdd lineAdd
    dsimp only
    rw [hv]
    simp only [layPair, layFloat, hz, h4]
    simp [FVal.isNan, flagIf, pairVal, bits_ofNat72 hb1, bits_ofNat72 hb2]
  · have h4 := h2 (by rw [hn]; rfl)
    unfold dfAdd lineAdd
    dsimp only
    rw [hv]
    simp only [layPair, layFloat, hz, h4]
    have h0 : fp64.decode (bits (0 : BitVec 72) 63 0) = .fin false 0 (-1074) := by decide
    simp only [pairVal, bits_ofNat72 hb1, hn, h0, addExact, FVal.isNan, FVal.isInf, flagIf]
    simp

end Sys2Proof.Machine
end

