-- ==== Sys2Proof/Laws/Turn.lean ====
section
/-! SUPPORT. What an instruction at the head of a queue, and a command that may run, come down to. -/
namespace Sys2Proof.Machine
set_option Elab.async false

theorem State.headIssue_turn {s : State} {acc : Bool} {d t c : Nat} {ok : BitVec 64 → Bool} {q : QEntry}
    {rest : List QEntry} (h : s.sideTurn acc d t c ok q rest = true) (run : State → QEntry → State) :
    s.headIssue acc d t c ok run = .next ((run (s.sideTaken acc d t c rest) q).issued d t q) := by
  simp only [State.sideTurn, Bool.and_eq_true, decide_eq_true_eq] at h
  obtain ⟨⟨⟨⟨⟨h1, h2⟩, h3⟩, h4⟩, h5⟩, h6⟩ := h
  simp [State.headIssue, State.sideTaken, h1, h2, h3, h4, h5, h6]

theorem State.execHead_turn {s : State} {d t c : Nat} {ok : BitVec 64 → Bool} {q : QEntry} {rest : List QEntry}
    (h : s.execTurn d t c ok q rest = true) (run : State → QEntry → State) :
    s.execHead d t c ok run = .next ((run (s.execTaken d t c rest) q).issued d t q) := s.headIssue_turn h run

theorem State.accHead_turn {s : State} {d t c : Nat} {ok : BitVec 64 → Bool} {q : QEntry} {rest : List QEntry}
    (h : s.accTurn d t c ok q rest = true) (run : State → QEntry → State) :
    s.accHead d t c ok run = .next ((run (s.accTaken d t c rest) q).issued d t q) := s.headIssue_turn h run

/-- An event of the tile that nothing comes before happens in its cycle. -/
theorem State.ownEvent_reached {s : State} {d t c : Nat} (h : s.reached d t c = true) (run : State → State) :
    s.ownEvent d t c run = .next (run (s.land d t c)) := by simp [State.ownEvent, h]

/-- A command that may run does. -/
theorem State.withCmd_canRun {s : State} {cid op : Nat} {c : Cmd} (h : s.canRun cid op c = true)
    (f : State → Cmd → State) : s.withCmd cid op f = .next (f s c) := by
  simp only [State.canRun, Bool.and_eq_true, decide_eq_true_eq, Bool.not_eq_true'] at h
  obtain ⟨⟨⟨⟨⟨⟨⟨h1, h2⟩, h3⟩, h4⟩, h5⟩, h6⟩, h7⟩, h8⟩ := h
  simp [State.withCmd, State.runCmd, h1, h2, h3, h4, h5, h6, h7, h8]

theorem State.atOnce_canRunNow {s : State} {cid op : Nat} {c : Cmd} (h : s.canRunNow cid op c = true)
    (f : State → Cmd → State) : s.atOnce cid op f = .next (f s c) := by
  simp only [State.canRunNow, Bool.and_eq_true, decide_eq_true_eq, Bool.not_eq_true'] at h
  obtain ⟨⟨⟨⟨⟨h1, h2⟩, h3⟩, h4⟩, h5⟩, h6⟩ := h
  simp [State.atOnce, State.runCmd, h1, h2, h3, h4, h5, h6]

/-- Whatever holds a command back or refuses it, it answers a next state. -/
theorem State.withCmd_next (s : State) (cid op : Nat) (f : State → Cmd → State) : ∃ t,
    s.withCmd cid op f = .next t := by
  unfold State.withCmd
  split
  · exact ⟨_, rfl⟩
  · split <;> exact ⟨_, rfl⟩

theorem State.headIssue_next (s : State) (acc : Bool) (d t c : Nat) (ok : BitVec 64 → Bool)
    (run : State → QEntry → State) : ∃ u, s.headIssue acc d t c ok run = .next u := by
  simp only [State.headIssue]
  split
  · exact ⟨_, rfl⟩
  · split <;> exact ⟨_, rfl⟩

theorem State.ownEvent_next (s : State) (d t c : Nat) (run : State → State) :
    ∃ u, s.ownEvent d t c run = .next u := by
  unfold State.ownEvent
  split <;> exact ⟨_, rfl⟩

end Sys2Proof.Machine
end

