-- ==== Sys2Proof/WellFormed.lean ====
section
/-! DEFINITION. What a command's operands must satisfy to be one that the outside of the device can send: list lengths,
sizes and places that the manual fixes. exec is total and meets ill-formed commands too. -/
namespace Sys2Proof

/-- Bytes to move: 1 to 256 (R148, R205), with the data of a write. -/
def MemReq.wf (r : MemReq) : Bool :=
  decide (1 ≤ r.len) && decide (r.len ≤ 256) && r.data.length == (if r.write then r.len else 0)

/-- A payload of at most 4,096 bytes, of the length that the header gives (R269). -/
def Packet.wf (k : Packet) : Bool := k.data.length == k.len && decide (k.len ≤ 4096)

/-- 244 bytes of payload at most; one that does not fill them is followed by zeros (R266). -/
def Flit.wf (f : Flit) : Bool := decide (f.payload.length ≤ 244)

/-- Eight virtual channels (R280). -/
def Audit.wf (a : Audit) : Bool := a.free.length == 8 && a.ctot.length == 8

/-- An edge joins two dies (R16). -/
def Edge.wf (e : Edge) : Bool := e.a != e.b

/-- Failed self-tests: die, tile, SRC of the engine. -/
def testsWf (l : List (Nat × Nat × Nat)) : Bool :=
  l.all (fun x => decide (x.1 < 32) && decide (x.2.1 < 144) && decide (x.2.2 < 8))

/-- At most one read-out for each of the 96 fuse words (R434). -/
def fuseReadsWf (l : List (FuseRead × FuseRead)) : Bool := decide (l.length ≤ 96)

/-- A word of the fuse map (R436). -/
def FuseMiss.wf (m : FuseMiss) : Bool := decide (m.word < 65)

/-- One access through a BAR moves 1 to 4,096 bytes (R333). -/
def barWf (write : Bool) (len : Nat) (data : List Byte) : Bool :=
  decide (1 ≤ len) && decide (len ≤ 4096) && data.length == (if write then len else 0)

def Instr.wf : Instr → Bool
  | .meshSramRequest _ _ r => r.item.wf
  | .memRequest _ r => r.item.wf
  | .dieFabricFlit e _ _ => e.wf
  | .winnowerAccess _ _ _ _ banks _ _ => banks.all (fun b => decide (b < 48))
  | .scrubRead _ _ errs _ => decide (errs ≤ 36)
  | .hbmMargin _ records => records.length == 2176
  | .flitReceive _ f => f.flit.wf
  | .retrainComplete _ _ audit => audit.wf
  | .auditFlit _ free ctot _ => free.length == 8 && ctot.length == 8
  | .packetForward _ k => k.wf
  | .write k => k.wf
  | .read k => k.wf
  | .readRsp k => k.wf
  | .writeAck k => k.wf
  | .errorRsp k => k.wf
  | .signalPacket k => k.wf
  | .collData k => k.wf
  | .collCtrl k => k.wf
  | .vote k => k.wf
  | .rotData k => k.wf
  | .beat _ k _ _ => k.wf
  | .commandAccept _ (some raw) => raw.length % 64 == 0 && decide (64 ≤ raw.length)
  | .hostBarAccess _ wr _ len data => barWf wr len data
  | .selftestRun _ failed => testsWf failed
  | .telemetryRecord r => r.words.length == 6
  | .powerOnReset _ fuses => fuseReadsWf fuses
  | .warmReset fuses _ => fuseReadsWf fuses
  | .wclkReturn again => fuseReadsWf again.fuses
  | .powerUpReady _ checks => testsWf checks.failed
  | .resetNRelease fuses => fuseReadsWf fuses
  | .secFuseBlow _ (some m) => m.wf
  | .secKeyProvision _ (some m) => m.wf
  | .dieTempPoll temps => temps.length == 64
  | _ => true

end Sys2Proof
end

