-- ==== Sys2Proof/Tests/Slice0.lean ====
section
/-! SUPPORT. Small tests: ill-formed operands that the check refuses, single steps on small states, and for every
statement with hypotheses a state and operands that meet them. -/
namespace Sys2Proof.Tests
set_option Elab.async false

open Sys2Proof Sys2Proof.Machine

/-! ## Small states -/

/-- A word by its engine, opcode and lower bits. -/
def word (eng opc low : Nat) : BitVec 64 := BitVec.ofNat 64 (eng * 2 ^ 61 + opc * 2 ^ 56 + low)

/-- The word stands at the head of a queue since cycle 3, as instruction 1. -/
def entry (eng opc low : Nat) : QEntry := ⟨word eng opc low, 1, 3, false, .none⟩

def tile0 (T : Tile) : State := State.reset.setTile 0 0 T

/-- A stream that runs and has reached cycle 10. -/
def running : Tile := { Tile.reset with stream := .run, times := { Tile.reset.times with now := 10 } }

/-- Tile 0 of die 0 runs with one word in its execute queue. -/
def execAt (eng opc low : Nat) : State := tile0 { running with eq := [entry eng opc low] }

/-- The same of the access queue. -/
def accAt (opc low : Nat) : State := tile0 { running with aq := [entry 1 opc low] }

/-- What an instruction of either queue runs on. -/
def taken (s : State) : Tile := (s.execTaken 0 0 10 []).tile 0 0
def accTile (s : State) : Tile := (s.accTaken 0 0 10 []).tile 0 0

/-- The instruction issues in cycle 10 and no check stops it. -/
def issues (s : State) (eng opc low : Nat) (ok : BitVec 64 → Bool) (checks : Tile → Nat → BitVec 64 →
    List (Bool × Nat)) :
    Bool :=
  s.execTurn 0 0 10 ok (entry eng opc low) [] && decide (firstCode (checks (taken s) 10 (word eng opc low)) = none)

def scalAt (eng opc low : Nat) (ok : BitVec 64 → Bool) (checks : Tile → Nat → BitVec 64 → List (Bool × Nat)) : Bool :=
  issues (execAt eng opc low) eng opc low ok checks
def scal (opc low : Nat) (ok : BitVec 64 → Bool) (checks : Tile → Nat → BitVec 64 → List (Bool × Nat)) : Bool :=
  scalAt 0 opc low ok checks
def vec (opc low : Nat) (ok : BitVec 64 → Bool) (checks : Tile → Nat → BitVec 64 → List (Bool × Nat)) : Bool :=
  scalAt 3 opc low ok checks

/-- The instruction issues in cycle 10 and a check stops it. -/
def stopsIn (s : State) (eng opc low : Nat) (ok : BitVec 64 → Bool)
    (checks : Tile → Nat → BitVec 64 → List (Bool × Nat)) : Bool :=
  s.execTurn 0 0 10 ok (entry eng opc low) [] && (firstCode (checks (taken s) 10 (word eng opc low))).isSome

def stops (eng opc low : Nat) (ok : BitVec 64 → Bool) (checks : Tile → Nat → BitVec 64 → List (Bool × Nat)) : Bool :=
  stopsIn (execAt eng opc low) eng opc low ok checks

/-- FUNC, VD, VS1, VS2 and FMT of a vector word. -/
def low (fn vd vs1 vs2 fmt : Nat) : Nat := fn * 2 ^ 52 + vd * 2 ^ 47 + vs1 * 2 ^ 42 + vs2 * 2 ^ 37 + fmt * 2 ^ 28

/-- A block of `size` bytes at the head of an operand queue, ready. -/
def block (id size : Nat) : OqBlock := ⟨id, 0, size, false, none, true, List.replicate size 0⟩

/-! ## Small states: commands -/

/-- `n` parameter bytes, all 0 but the fields given by offset, length and value. -/
def par (n : Nat) (l : List (Nat × Nat × Nat)) : List Byte :=
  l.foldl (fun p e => p.take e.1 ++ leBytes e.2.1 e.2.2 ++ p.drop (e.1 + e.2.1)) (List.replicate n 0)

/-- Command 1, which nothing precedes. -/
def cmd1 (stage : CmdStage) (op : Nat) (targets : List Nat) (params : List Byte) : Cmd :=
  { cid := 1, ring := 0, opcode := BitVec.ofNat 16 op, tag := 7, irq := false, fence := false, execEn := false
    execBeat := 0, targets := targets, params := params, clamped := false, late := false, mute := false, status := 0
    result := 0, began := 0, since := 0, lost := [], cutOff := [], stage := stage }

/-- The command is in the device and every module is up. -/
def holding (s : State) (c : Cmd) : State :=
  { s with sd := { s.sd with cmds := [c], modules := (List.range 8).map (fun m => (m, 2)) } }

def readyIn (s : State) (op : Nat) (targets : List Nat) (params : List Byte) : State :=
  holding s (cmd1 .ready op targets params)
def runsIn (s : State) (op : Nat) (targets : List Nat) (params : List Byte) : Bool :=
  (readyIn s op targets params).canRun 1 op (cmd1 .ready op targets params)
def runs (op : Nat) (targets : List Nat) (params : List Byte) : Bool := runsIn State.reset op targets params
def reaches (op b : Nat) (params : List Byte) : Bool :=
  runs op [b] params && decide ((readyIn State.reset op [b] params).barred (cmd1 .ready op [b] params) b = none)

/-! ## Ill-formed operands -/

def badReq : MemReq := ⟨.agent 32 0, false, 0, 0, [], none, 0⟩
def badPacket : Packet := ⟨0, 0, 0, 1, 0, false, false, 1, 0, 0, 0, 0, 0, 0, 0, []⟩
def badFlit : Flit := ⟨1, true, false, 0, 0, 0, false, 0, 0, 0, List.replicate 245 0, 0⟩

/-- One operand for each check, which the check refuses. -/
theorem test_wellformed_refuses :
    ([.meshSramRequest 0 0 ⟨0, badReq, none⟩, .memRequest 0 ⟨0, badReq⟩, .memRequest 0 ⟨0, { badReq with len := 257 }⟩,
      .memRequest 0 ⟨0, { badReq with len := 4, write := true }⟩, .dieFabricFlit ⟨5, 5⟩ true [],
      .winnowerAccess 0 false 0 0 [48] [] [], .scrubRead 0 false 37 [],
      .hbmMargin 1 [], .flitReceive 0 ⟨badFlit, []⟩, .retrainComplete 0 true ⟨List.replicate 9 0, List.replicate 8 0,
        0⟩,
      .retrainComplete 0 true ⟨List.replicate 8 0, [], 0⟩,
      .auditFlit 0 [] (List.replicate 8 0) 0, .auditFlit 0 (List.replicate 8 0) [] 0, .packetForward 0 badPacket,
      .write badPacket, .read badPacket, .readRsp badPacket, .writeAck badPacket, .errorRsp badPacket,
      .signalPacket badPacket, .collData badPacket, .collCtrl badPacket, .vote badPacket, .rotData badPacket,
      .beat 0 badPacket 0 0, .write { badPacket with len := 4097, data := List.replicate 4097 0 },
      .commandAccept 0 (some []), .commandAccept 0 (some (List.replicate 65 0)), .hostBarAccess 0 false 0 0 [],
      .hostBarAccess 0 false 0 4097 [], .hostBarAccess 0 true 0 1 [], .selftestRun 1 [(32, 0, 0)],
      .selftestRun 1 [(0, 144, 0)], .selftestRun 1 [(0, 0, 8)], .telemetryRecord ⟨[]⟩,
      .powerOnReset true (List.replicate 97 (.clean, .clean)), .warmReset (List.replicate 97 (.clean, .clean)) true,
      .wclkReturn ⟨List.replicate 97 (.clean, .clean), true⟩, .powerUpReady 0 ⟨0, [(32, 0, 0)]⟩,
        .resetNRelease (List.replicate 97 (.clean, .clean)),
      .secFuseBlow 1 (some ⟨65, false, 0⟩), .secKeyProvision 1 (some ⟨65, false, 0⟩), .dieTempPoll []] : List Instr).all
        (fun c => !c.wf) = true := by
  decide +kernel

/-! ## The checker's tree, whatever its shape -/

theorem getD_mem {α : Type} (l : List α) (z : α) (i : Nat) (h : l ≠ []) : l.getD (i % l.length) z ∈ l := by
  have hi : i % l.length < l.length := Nat.mod_lt _ (List.length_pos_iff.mpr h)
  simp [List.getD, List.getElem?_eq_getElem hi]

/-- What holds of a line's elements and of every sum of two such holds of the line's sum. -/
theorem treeSumAux_all {α : Type} {P : α → Prop} {join : Nat → Nat × Nat} {add : α → α → α} {z : α}
    (h : ∀ a b, P a → P b → P (add a b)) :
    ∀ (n : Nat) (l : List α), l ≠ [] → (∀ x ∈ l, P x) → P (treeSumAux join add z n l)
  | _, [], h0, _ => absurd rfl h0
  | 0, [x], _, hl => by simpa [treeSumAux] using hl x
  | _ + 1, [x], _, hl => by simpa [treeSumAux] using hl x
  | 0, x :: y :: l, _, hl => by simpa [treeSumAux] using hl x
  | n + 1, x :: y :: l, h0, hl => by
      simp only [treeSumAux]
      have h1 : (x :: y :: l).eraseIdx ((join n).1 % (x :: y :: l).length) ≠ [] := by
        apply List.ne_nil_of_length_pos
        rw [List.length_eraseIdx_of_lt (Nat.mod_lt _ (by simp))]
        simp
      refine treeSumAux_all h n _ (by simp) (fun v hv => ?_)
      rcases List.mem_append.mp hv with hv | hv
      · exact hl v (List.mem_of_mem_eraseIdx (List.mem_of_mem_eraseIdx hv))
      · rw [List.mem_singleton.mp hv]
        exact h _ _ (hl _ (getD_mem _ _ _ h0)) (hl _ (List.mem_of_mem_eraseIdx (getD_mem _ _ _ h1)))

theorem Dyad_add_pos (a b : Dyad) (ha : 0 < a.m) (hb : 0 < b.m) : 0 < (a.add b).m := by
  have p (k : Nat) : 0 < (2 : Int) ^ k := Int.pow_pos (by decide)
  simp only [Dyad.add, Dyad.align]
  rw [if_neg (by omega), if_neg (by omega)]
  split
  · have := Int.mul_pos hb (p (b.e - a.e).toNat)
    simp only
    omega
  · have := Int.mul_pos ha (p (a.e - b.e).toNat)
    simp only
    omega

/-- A number above zero. -/
def IsPos (v : FVal) : Prop := ∃ m e, v = .fin false (m + 1) e

theorem IsPos.dyad {v : FVal} (h : IsPos v) : 0 < v.dyad.m := by
  obtain ⟨m, e, rfl⟩ := h
  show (0 : Int) < ((m + 1 : Nat) : Int)
  omega

theorem addExact_pos (a b : FVal) (ha : IsPos a) (hb : IsPos b) : IsPos (addExact a b) := by
  have hk := Dyad_add_pos _ _ ha.dyad hb.dyad
  obtain ⟨m, e, rfl⟩ := ha
  obtain ⟨n, f, rfl⟩ := hb
  generalize hg : (FVal.fin false (m + 1) e).dyad.add (FVal.fin false (n + 1) f).dyad = g at hk
  refine ⟨g.m.natAbs - 1, g.e, ?_⟩
  have h1 : decide (g.m < 0) = false := by simp; omega
  have h2 : g.m.natAbs - 1 + 1 = g.m.natAbs := by omega
  have h3 : ¬ g.m = 0 := by omega
  simp [addExact, FVal.isNan, FVal.isInf, hg, FVal.ofDyad, h1, h2, h3]

theorem lineVerdict_fails {newM : List (FVal × Dyad)} {ks : List (FVal × FVal)} {b : Bool} {e : Int}
    (h0 : newM ≠ []) (h : ∀ p ∈ newM, IsPos p.1)
    (he : lineRound layFixed8 (sumTerms (ks.map (fun p => mulExact p.1 p.2))) = .fin b 0 e) :
    lineVerdict layFixed8 newM [] ks = .fail := by
  have hg : IsPos (treeSum (lineAdd layFixed8) (.fin false 0 0) (newM.map (·.1))) :=
    treeSumAux_all (P := IsPos) (fun a b ha hb => by
      simpa [lineAdd, layFixed8, layFloat, layPair] using addExact_pos a b ha hb) _ _ (by simpa using h0)
      (fun v hv => by obtain ⟨p, hp, rfl⟩ := List.mem_map.mp hv; exact h p hp)
  have hd := hg.dyad
  have hn : (newM.map (·.1)).any (fun v => !v.finite) = false := by
    rw [List.any_eq_false]
    intro v hv
    obtain ⟨p, hp, rfl⟩ := List.mem_map.mp hv
    obtain ⟨_, _, hv⟩ := h p hp
    simp [hv, FVal.finite]
  simp only [lineVerdict, List.map_nil, List.isEmpty_nil, if_true, he, hn]
  generalize treeSum (lineAdd layFixed8) (.fin false 0 0) (newM.map (·.1)) = g at hg hd
  have hz : (FVal.fin b 0 e).dyad.neg.m = 0 := by cases b <;> rfl
  have hm : (g.dyad.sub (FVal.fin b 0 e).dyad).m ≠ 0 := by
    rw [Dyad.sub, Dyad.add, if_neg (by omega), if_pos hz]
    omega
  simp [FVal.finite, hm]

/-! ## Witnesses: the execute side of a tile -/

theorem witness_ScalarUnitComputesItsResult :
    (scal 0 0 (isOpOr 0 0 7) siaChecks && scal 1 0 (isOp 0 1) sfaChecks && scal 2 0 (isOp 0 2) scmpChecks
      && scal 3 0 (isOp 0 3) sicmpChecks && scal 4 0 (isOp 0 4) scvtChecks && scal 5 0 (isOp 0 5) sliChecks) = true :=
        by
  decide +kernel

def mmaJob : MmaJob := ⟨1, false, 0, false, 0, 0, [], [], 20⟩
def redJob (carry : Option (Nat × Table CarryLane)) : RedJob := ⟨1, false, 20, word 4 0 0, 0, 0, 0, 0, [], carry⟩
def dividing : Tile := { running with div := some 20 }
def computing : Tile := { running with vjobs := [⟨1, false, 20⟩] }
def reducing (carry : Option (Nat × Table CarryLane)) : Tile := { running with rjobs := [redJob carry] }

theorem witness_EngineCompletionsRecordTheirResults :
    (((tile0 dividing).tile 0 0).div = some 20 ∧ (tile0 dividing).reached 0 0 20 = true) ∧
    (firstDue ((tile0 computing).tile 0 0).vjobs = some (⟨1, false, 20⟩, []) ∧
      (tile0 computing).reached 0 0 20 = true) ∧
    ([none, some (3, [])].all (fun k =>
      decide (firstRed ((tile0 (reducing k)).tile 0 0).rjobs = some (redJob k,
        [])) && (tile0 (reducing k)).reached 0 0 20
        && decide (firstRed (((tile0 (reducing k)).land 0 0 20).tile 0 0).rjobs = some (redJob k, [])))) = true := by
  decide +kernel

/-- BR with FUNC `f` and displacement `x`, of the word before `pc`. -/
def brAt (f x pc : Nat) : State :=
  tile0 { running with eq := [entry 0 6 (f * 2 ^ 52 + x * 2 ^ 16)], ctx0 := { Ctx.reset with pc := pc } }

theorem witness_BranchGoesToItsTarget :
    ((brAt 0 0 5).execTurn 0 0 10 (isOp 0 6) (entry 0 6 0) [] && brTaken (taken (brAt 0 0 5)) (word 0 6 0)) = true ∧
    ((brAt 2 0 5).execTurn 0 0 10 (isOp 0 6) (entry 0 6 (2 * 2 ^ 52)) []
      && !brTaken (taken (brAt 2 0 5)) (word 0 6 (2 * 2 ^ 52))) = true ∧
    ((brAt 0 1 16384).execTurn 0 0 10 (isOp 0 6) (entry 0 6 (2 ^ 16)) []
      && brTaken (taken (brAt 0 1 16384)) (word 0 6 (2 ^ 16))
      && decide (16383 < ((16384 - 1 : Nat) : Int) + signedOf 21 (bits (word 0 6 (2 ^ 16)) 36 16))) = true ∧
    ((brAt 5 0 5).execTurn 0 0 10 (isOp 0 6) (entry 0 6 (5 * 2 ^ 52)) []
      && decide (5 ≤ sFunc (word 0 6 (5 * 2 ^ 52)))) = true := by
  decide +kernel

def mmaState (size : Nat) : State := tile0 { running with eq := [entry 2 0 0], oqm := [block 0 size, block 1 size] }

theorem witness_MmaTakesItsBlocksAndTheArray :
    ((mmaState 1024).execTurn 0 0 10 (isOpOr 2 0 4) (entry 2 0 0) []
      && decide (firstCode (mmaChecks (taken (mmaState 1024)) 10 (word 2 0 0)) = none)
      && decide (((taken (mmaState 1024)).oqm.take 2).any OqBlock.hole = false)) = true := by
  decide +kernel

theorem witness_AccumulatorInstructionsIssue :
    (scalAt 2 1 0 (isOp 2 1) accstChecks && scalAt 2 2 0 (isOp 2 2) accsaveChecks && scalAt 2 3 0 (isOp 2 3)
      accloadChecks
      && stopsIn (mmaState 8) 2 0 0 (isOpOr 2 0 4) mmaChecks && stops 2 4 0 (isOpOr 2 0 4) mmaChecks
      && stops 2 1 (2 ^ 51) (isOp 2 1) accstChecks
      && stops 2 2 (2 ^ 16) (isOp 2 2) accsaveChecks && stops 2 3 (2 ^ 16) (isOp 2 3) accloadChecks) = true := by
  decide +kernel

def loadJob : LoadJob := ⟨1, false, 0, 0, [], 20⟩
def abftJob : AbftJob := ⟨mmaJob, [], [], [], []⟩
/-- Operands of zeros whose result was made visible as 5 in column 0. -/
def wrongJob : AbftJob :=
  ⟨{ mmaJob with fmtA := 4, fmtB := 4 }, [], [], (List.range 64).map (fun r => (64 * r, 5)), []⟩
def checkerOff : State :=
  (tile0 { running with abft := [abftJob], regs := { running.regs with mxCtrl := 1 } }).setMode 1
def mismatching : State := tile0 { running with abft := [wrongJob] }

theorem witness_AccumulatorBanksExchange :
    (((tile0 { running with mmas := [mmaJob] }).tile 0 0).mmas = [mmaJob] ∧
      (tile0 { running with mmas := [mmaJob] }).reached 0 0 20 = true) ∧
    (((tile0 { running with loads := [loadJob] }).tile 0 0).loads = [loadJob] ∧
      (tile0 { running with loads := [loadJob] }).reached 0 0 20 = true ∧
      (((tile0 { running with loads := [loadJob] }).land 0 0 20).tile 0 0).loads = [loadJob]) ∧
    (((tile0 { running with readers := [⟨1, false, 0, 20⟩] }).tile 0 0).readers = [⟨1, false, 0, 20⟩] ∧
      (tile0 { running with readers := [⟨1, false, 0, 20⟩] }).reached 0 0 20 = true) ∧
    ((checkerOff.tile 0 0).abft = [abftJob] ∧ checkerOff.reached 0 0 36 = true ∧
      (checkerOff.land 0 0 36).abftOff ((checkerOff.land 0 0 36).tile 0 0) = true) ∧
    ((mismatching.tile 0 0).abft = [wrongJob] ∧ mismatching.reached 0 0 36 = true ∧
      (mismatching.land 0 0 36).abftOff ((mismatching.land 0 0 36).tile 0 0) = false) := by
  decide +kernel

theorem firstFail_ne {l : List LineVerdict} (h : l[0]? = some .fail) : firstFail l ≠ 0xFF := by
  cases l with
  | nil => simp at h
  | cons a l =>
    have : a = .fail := by simpa using h
    subst this
    simp [firstFail, List.findIdx_cons]

theorem wrong_elems : ∀ r < 64, w72Val layFixed8 (Table.get 0 wrongJob.new (r * 64 + 0)) = .fin false (4 + 1) (-32) :=
    by
  decide +kernel

theorem witness_AbftFails : firstFail wrongJob.verdicts.1 ≠ 0xFF := by
  apply firstFail_ne
  simp only [AbftJob.verdicts, List.getElem?_map, List.getElem?_range (show 0 < 64 by decide), Option.map_some]
  refine congrArg some (lineVerdict_fails (b := false) (e := 0) (by simp) (fun p hp => ?_) (by decide +kernel))
  obtain ⟨r, hr, rfl⟩ := List.mem_map.mp hp
  have hr := List.mem_range.mp hr
  refine ⟨4, -32, ?_⟩
  simp only [Array.getD_eq_getD_getElem?, List.getElem?_map,
    List.getElem?_range (show r * 64 + 0 < 4096 by omega), Option.map_some, Option.getD_some, List.getElem?_toArray]
  exact wrong_elems r hr

/-- A result whose diagonal lies beyond the layout's range: no line can be checked. -/
def rangeJob : AbftJob :=
  ⟨{ mmaJob with fmtA := 4, fmtB := 4 }, [], [], (List.range 64).map (fun r => (65 * r, 2 ^ 70)), []⟩
def unchecking : State := tile0 { running with abft := [rangeJob] }

theorem range_elems : ∀ r < 64, (w72Val layFixed8 (Table.get 0 rangeJob.new (r * 64 + r))).finite = false := by
  decide +kernel

theorem lineVerdict_unchecked {f : Nat → FVal × Dyad} {oldM : List (FVal × Dyad)} {ks : List (FVal × FVal)} {lay i :
    Nat}
    (hi : i < 64) (h : (f i).1.finite = false) : lineVerdict lay ((List.range 64).map f) oldM ks = .unchecked := by
  simp only [lineVerdict]
  rw [if_pos]
  rw [Bool.or_eq_true]
  exact .inr (List.any_eq_true.mpr ⟨(f i).1, by simpa using ⟨i, hi, rfl⟩, by simp [h]⟩)

theorem firstFail_none {l : List LineVerdict} (h : ∀ v ∈ l, v ≠ .fail) : firstFail l = 0xFF := by
  rw [firstFail, if_neg]
  simpa using fun hm => h _ hm rfl

theorem witness_AbftLeavesLinesUnchecked :
    firstFail rangeJob.verdicts.1 = 0xFF ∧ firstFail rangeJob.verdicts.2 = 0xFF ∧
    (unchecking.tile 0 0).abft = [rangeJob] ∧ unchecking.reached 0 0 36 = true ∧
    (unchecking.land 0 0 36).abftOff ((unchecking.land 0 0 36).tile 0 0) = false := by
  refine ⟨firstFail_none ?_, firstFail_none ?_, by decide +kernel⟩ <;>
  · intro v hv
    simp only [AbftJob.verdicts] at hv
    obtain ⟨i, hi, rfl⟩ := List.mem_map.mp hv
    have hi := List.mem_range.mp hi
    refine fun hf => absurd ((lineVerdict_unchecked hi ?_).symm.trans hf) (by decide)
    simp only [Array.getD_eq_getD_getElem?, List.getElem?_map,
      List.getElem?_range (show i * 64 + i < 4096 by omega), Option.map_some, Option.getD_some, List.getElem?_toArray]
    exact range_elems i hi

def cvtJob (row : Nat) : CvtJob :=
  { count := 1, ctx := false, issue := 5, acc := some (0, false, false, 0), vec := none, tail := 0, fmt := 1,
    scale := []
    ctrl := 0, seed := 0, n := 0, row := row, sq := 7 }
def converting (row : Nat) : State :=
  tile0 { running with cvt := [cvtJob row], sq := [⟨7, false, false, 8192, []⟩] }

theorem witness_ConverterPassesARow :
    ([0, 63].all (fun row => decide (((converting row).tile 0 0).cvt = [cvtJob row])
      && (converting row).reached 0 0 (cvtJob row).rowCycle)) = true := by
  decide +kernel

theorem witness_VectorEngineComputesItsResult :
    (vec 0 (low 0 3 1 0 0) (isOp 3 0) vsetvlChecks && vec 1 (low 0 8 0 4 1) (isOpOr 3 1 12) vfaChecks
      && vec 2 (low 0 8 0 4 0) (isOp 3 2) vfdChecks && vec 3 (low 0 8 0 0 0) (isOp 3 3) vtrChecks
      && vec 4 (low 0 8 0 4 0) (isOp 3 4) viaChecks && vec 5 (low 0 0 0 4 0) (isOp 3 5) vcmpChecks
      && vec 6 (low 0 0 0 4 0) (isOp 3 6) vicmpChecks && vec 7 (low 0 0 0 0 0) (isOp 3 7) vmaskChecks
      && vec 8 (low 0 8 0 0 1) (isOp 3 8) vcvtChecks && vec 9 (low 4 8 0 4 0) (isOp 3 9) vpermChecks) = true := by
  decide +kernel

theorem witness_VsetvlTakesTheSmaller : vec 0 (low 0 3 1 0 0) (isOp 3 0) vsetvlChecks = true := by decide +kernel

def popState (vl : Nat) : State :=
  tile0 { running with eq := [entry 3 10 (low 0 8 0 0 0)], oqv := [block 0 256], ctx0 := { Ctx.reset with vl := vl } }
def pushLow (conv : Bool) : Nat := low 0 0 8 0 0 + if conv then 2 ^ 32 else 0
def pushState (vl : Nat) (conv : Bool) : State :=
  tile0 { running with eq := [entry 3 11 (pushLow conv)], ctx0 := { Ctx.reset with vl := vl } }

theorem witness_StoppedVectorInstructionsAreSkipped :
    (stops 3 0 (low 1 0 0 0 0) (isOp 3 0) vsetvlChecks && stops 3 1 (low 15 8 0 4 1) (isOpOr 3 1 12) vfaChecks
      && stops 3 2 (low 9 8 0 4 0) (isOp 3 2) vfdChecks && stops 3 3 (low 15 8 0 0 0) (isOp 3 3) vtrChecks
      && stops 3 4 (low 0 8 0 4 9) (isOp 3 4) viaChecks && stops 3 5 (low 15 0 0 4 0) (isOp 3 5) vcmpChecks
      && stops 3 6 (low 15 0 0 4 0) (isOp 3 6) vicmpChecks && stops 3 7 (low 15 0 0 0 0) (isOp 3 7) vmaskChecks
      && stops 3 8 (low 0 8 0 0 15) (isOp 3 8) vcvtChecks && stops 3 9 (low 9 8 0 4 0) (isOp 3 9) vpermChecks
      && stopsIn (tile0 { running with eq := [entry 3 10 (low 0 8 0 0 9)], oqv := [block 0 256] }) 3 10 (low 0 8 0 0 9)
        (isOp 3 10) vqpopChecks
      && stops 3 11 (low 0 0 0 0 15) (isOp 3 11) vqpushChecks) = true ∧
    ((execAt 3 12 0).execTurn 0 0 10 (isOpOr 3 1 12) (entry 3 12 0) [] && wOpc (word 3 12 0) != 1) = true := by
  decide +kernel

theorem witness_VectorQueuesPopAndPush :
    ([0, 4].all (fun vl => issues (popState vl) 3 10 (low 0 8 0 0 0) (isOp 3 10) vqpopChecks
      && decide ((taken (popState vl)).oqv = [block 0 256]) && decide ((taken (popState vl)).cur.vl = vl))) = true ∧
    ([0, 4].all (fun vl => [false, true].all (fun k => issues (pushState vl k) 3 11 (pushLow k) (isOp 3 11) vqpushChecks
      && (vqConverts (word 3 11 (pushLow k)) == k) && decide ((taken (pushState vl k)).cur.vl = vl)))) = true := by
  decide +kernel

theorem witness_ReductionUnitComputesItsResult :
    (scalAt 4 0 (low 0 1 0 0 0) (isOpOr 4 0 4) redChecks && scalAt 4 1 0 (isOp 4 1) redChecks
      && scalAt 4 2 (low 0 1 0 0 0) (isOp 4 2) redChecks && scalAt 4 3 0 (isOp 4 3) redChecks
      && stops 4 0 (low 15 1 0 0 0) (isOpOr 4 0 4) redChecks && stops 4 1 (low 15 1 0 0 0) (isOp 4 1) redChecks
      && stops 4 2 (low 15 1 0 0 0) (isOp 4 2) redChecks && stops 4 3 (low 15 1 0 0 0) (isOp 4 3) redChecks) = true :=
        by
  decide +kernel

/-! ## Witnesses: the access side, sync, misc and streams -/

/-- S1 and S2 hold addresses of the tile's own SRAM, S3 a length of 64. -/
def accCtx (vl : Nat) : Ctx := { Ctx.reset with vl := vl, sregs := [(1, 0x400000000000), (2, 0x400000001000), (3, 64)] }

/-- SB, SX and SY of an access word. -/
def regs3 (sb sx sy : Nat) : Nat := sb * 2 ^ 51 + sx * 2 ^ 46 + sy * 2 ^ 41

/-- The word heads the access queue; the store queue holds `sq`. -/
def accState (opc low vl : Nat) (sq : List SqBlock) : State :=
  tile0 { running with aq := [entry 1 opc low], ctx0 := accCtx vl, sq := sq }
def accIssues (opc low vl : Nat) (sq : List SqBlock) (ok : BitVec 64 → Bool) : Bool :=
  (accState opc low vl sq).accTurn 0 0 10 ok (entry 1 opc low) []
/-- The form is legal and there is an element to move. -/
def moves (opc low vl : Nat) (sq : List SqBlock) : Bool :=
  decide (vecFormCode (accTile (accState opc low vl sq)) (word 1 opc low) = none)
    && !emptyLen (accTile (accState opc low vl sq)) (word 1 opc low)
/-- A complete block of the store queue. -/
def stored (hole : Bool) (size : Nat) : List SqBlock := [⟨0, hole, true, size, List.replicate size 1⟩]

theorem witness_AccessInstructionsStart :
    (accIssues 7 0 4 [] (isOpOr 1 0 7) && accIssues 0 (regs3 1 0 0) 4 [] (isOpOr 1 0 7) && moves 0 (regs3 1 0 0) 4 []
      && accIssues 0 (regs3 1 0 0) 0 [] (isOpOr 1 0 7)
      && decide (vecFormCode (accTile (accState 0 (regs3 1 0 0) 0 [])) (word 1 0 (regs3 1 0 0)) = none)
      && emptyLen (accTile (accState 0 (regs3 1 0 0) 0 [])) (word 1 0 (regs3 1 0 0))
      && accIssues 0 (15 * 2 ^ 37) 4 [] (isOpOr 1 0 7)
      && (vecFormCode (accTile (accState 0 (15 * 2 ^ 37) 4 [])) (word 1 0 (15 * 2 ^ 37))).isSome) = true ∧
    (accIssues 1 (regs3 1 0 0) 4 (stored false 32) (isOp 1 1) && moves 1 (regs3 1 0 0) 4 (stored false 32)
      && decide (((accTile (accState 1 (regs3 1 0 0) 4 (stored false 32))).sq.take 1).map (·.size)
        = blockSizes (accTile (accState 1 (regs3 1 0 0) 4 (stored false 32))) (word 1 1 (regs3 1 0 0)))
      && accIssues 1 (regs3 1 0 0) 4 (stored false 8) (isOp 1 1) && moves 1 (regs3 1 0 0) 4 (stored false 8)
      && accIssues 1 (regs3 1 0 0) 4 (stored true 0) (isOp 1 1) && moves 1 (regs3 1 0 0) 4 (stored true 0)
      && accIssues 1 (regs3 1 0 0) 0 (stored false 0) (isOp 1 1)
      && emptyLen (accTile (accState 1 (regs3 1 0 0) 0 (stored false 0))) (word 1 1 (regs3 1 0 0))
      && accIssues 1 (15 * 2 ^ 37) 4 (stored false 32) (isOp 1 1)
      && (vecFormCode (accTile (accState 1 (15 * 2 ^ 37) 4 [])) (word 1 1 (15 * 2 ^ 37))).isSome) = true ∧
    (accIssues 2 (regs3 1 2 3) 4 [] (isOp 1 2) && accIssues 2 (regs3 4 2 3) 4 [] (isOp 1 2)
      && accIssues 3 (regs3 1 4 0) 4 [] (isOp 1 3) && accIssues 3 (regs3 4 4 0) 4 [] (isOp 1 3)
      && accIssues 4 (regs3 1 2 0) 4 [] (isOp 1 4) && accIssues 4 (regs3 4 2 0) 4 [] (isOp 1 4)) = true := by
  decide +kernel

/-- An access instruction whose one request has its answer. -/
def accOp (st : SegState) : AccOp :=
  { count := 5, ctx := false, word := word 1 0 (regs3 1 0 0), segs := [⟨0, 32, 0, 0, 0, 0, none, st, []⟩], blocks := []
    taken := [], len := 4, mask := 0, s1 := 0, s2 := 0, s3 := 0, idx := [], due := 12, held := false, nested :=
      false, upset := false }
def slotUse (stage : Nat) : SlotUse :=
  { count := 5, seg := 0, kind := 2, addr := 0, len := 32, data := [], half := none, stage := stage, made := 5, seq := 0
    age := 0 }
def answered1 : State :=
  let s := tile0 { running with ops := [accOp (.sent 0)], slots := [(0, slotUse 1)] }
  { s with fabric := { s.fabric with resp := [⟨.tile 0 0 0, List.replicate 32 7, 0, false⟩] } }
/-- A block whose bytes have arrived and are to be ready in cycle 12. -/
def arrived : Tile := { running with oqm := [⟨0, 0, 8, false, some 12, false, List.replicate 8 0⟩] }
def waiting (opc : Nat) : State := tile0 { running with aq := [entry 1 opc 0], ops := [accOp (.sent 0)] }

theorem witness_FencesAndAccessesEnd :
    (accIssues 6 0 4 [] (isOp 1 6) && accIssues 5 (regs3 1 2 3) 4 [] (isOp 1 5)) = true ∧
    ([5, 6].all (fun k => decide ((((waiting k).land 0 0 10).tile 0 0).aq = [entry 1 k 0])
      && !(((waiting k).land 0 0 10).tile 0 0).ops.isEmpty)) = true ∧
    ((((tile0 arrived).tile 0 0).oq true)[0]?.bind (·.due) = some 12 ∧ (tile0 arrived).reached 0 0 12 = true) ∧
    (((tile0 { running with ops := [accOp .done] }).tile 0 0).ops.find?
        (fun o => o.count == 5 && ((tile0 { running with ops := [accOp .done] }).tile 0 0).opComplete o) = some (accOp
          .done) ∧
      (tile0 { running with ops := [accOp .done] }).reached 0 0 12 = true) ∧
    (Table.find (answered1.tile 0 0).slots 0 = some (slotUse 1) ∧ (slotUse 1).made < 12 ∧
      answered1.reached 0 0 12 = true ∧
      ((answered1.land 0 0 12).fabric.resp.find? (fun r => r.who == .tile 0 0 0)).map (·.retry) = some false) ∧
    Table.find ((tile0 { running with slots := [(0, slotUse 3)] }).tile 0 0).slots 0 = some (slotUse 3) := by
  decide +kernel

/-- A sync instruction with FLAG `f` and COUNT `n` on either side, with 2 in flag 1. -/
def syncLow (f n : Nat) : Nat := f * 2 ^ 49 + n * 2 ^ 33
def syncTile (acc : Bool) (q : QEntry) : Tile :=
  { running with eq := if acc then [] else [q], aq := if acc then [q] else [], ctx0 := { Ctx.reset with flags := [(1,
    2)] } }
def syncAt (acc : Bool) (q : QEntry) : State := tile0 (syncTile acc q)
def syncs (illegal acc : Bool) (q : QEntry) (ok : BitVec 64 → Bool) : Bool :=
  (yIllegal q.word == illegal) && (syncAt acc q).sideTurn acc 0 0 10 ok q []

theorem witness_SyncInstructionsComplete :
    ([false, true].all (fun acc =>
      syncs false acc (entry 5 0 (syncLow 63 65535)) (isOpOr 5 0 5) && syncs false acc (entry 5 1 (syncLow 1 2)) (isOp
        5 1)
        && syncs false acc (entry 5 2 0) (isOp 5 2) && syncs false acc (entry 5 3 0) (isOp 5 3)
        && syncs false acc (entry 5 4 (syncLow 0 1)) (isOp 5 4)
        && syncs true acc (entry 5 0 (2 ^ 16)) (isOpOr 5 0 5) && syncs true acc (entry 5 1 (2 ^ 16)) (isOp 5 1)
        && syncs true acc (entry 5 2 (2 ^ 16)) (isOp 5 2) && syncs true acc (entry 5 3 (2 ^ 16)) (isOp 5 3)
        && syncs true acc (entry 5 4 (2 ^ 16)) (isOp 5 4))) = true ∧
    (((syncAt false (entry 5 1 (syncLow 1 3))).land 0 0 10).tile 0 0).side false = [entry 5 1 (syncLow 1 3)] ∧
    ((((syncAt false (entry 5 1 (syncLow 1 3))).land 0 0 10).tile 0 0).flag false 1).toNat < yCount (word 5 1 (syncLow
      1 3)) ∧
    ((State.reset.setCd 0 { ComputeDie.reset with notify := [5] }).cd 0).notify = [5] := by
  decide +kernel

/-- Offset, ARG and registers of a misc word. -/
def miscLow (sd ss1 off arg : Nat) : Nat := sd * 2 ^ 51 + ss1 * 2 ^ 46 + off * 2 ^ 34 + arg * 2 ^ 16
def misc (illegal : Bool) (opc low : Nat) (ok : BitVec 64 → Bool) : Bool :=
  (iIllegal (word 6 opc low) == illegal) && (execAt 6 opc low).execTurn 0 0 10 ok (entry 6 opc low) []
def cropReady : Tile :=
  { running with crop := .ready, eq := [entry 6 5 0], regs := { running.regs with cropCtrl := 1 } }
def inCrop : Tile := { running with active := true, crop := .running, eq := [entry 6 5 0] }
/-- LOOP of 3 words at word 4, whose count is in S1 or, with 4, in a register of 0. -/
def loopAt (ss : Nat) : State := tile0 { running with eq := [entry 6 2 (miscLow 0 ss 0 3)], ctx0 :=
    { accCtx 4 with pc := 5 } }

theorem witness_MiscInstructionsComplete :
    ((execAt 7 0 0).execTurn 0 0 10 (fun w => wEng w == 7) (entry 7 0 0) []
      && misc false 0 0 (isOp 6 0) && misc false 0 (miscLow 0 0 0 16383) (isOp 6 0) && misc true 0 (2 ^ 30) (isOp 6 0)
      && misc false 1 0 (isOp 6 1) && misc true 1 (2 ^ 30) (isOp 6 1)
      && misc false 3 (miscLow 1 0 0x278 0) (isOp 6 3) && rdcrOk (iOff (word 6 3 (miscLow 1 0 0x278 0)))
      && misc false 3 (miscLow 1 0 0x400 0) (isOp 6 3) && rdcrOk (iOff (word 6 3 (miscLow 1 0 0x400 0)))
      && misc false 3 (miscLow 1 0 0xFF8 0) (isOp 6 3) && !rdcrOk (iOff (word 6 3 (miscLow 1 0 0xFF8 0))) && misc true
        3 (2 ^ 30) (isOp 6 3)
      && misc false 4 (miscLow 0 1 0x9F8 0) (isOp 6 4) && wrcrOk (iOff (word 6 4 (miscLow 0 1 0x9F8 0)))
      && misc false 4 (miscLow 0 1 0xFF8 0) (isOp 6 4) && !wrcrOk (iOff (word 6 4 (miscLow 0 1 0xFF8 0))) && misc true
        4 (2 ^ 30) (isOp 6 4)
      && misc true 5 (2 ^ 30) (isOp 6 5) && misc false 5 0 (isOp 6 5) && !(taken (execAt 6 5 0)).mayYield) = true ∧
    ((tile0 cropReady).execTurn 0 0 10 (isOp 6 5) (entry 6 5 0) [] && (taken (tile0 cropReady)).mayYield
      && !(taken (tile0 cropReady)).active && (tile0 cropReady).windowFits 0 (taken (tile0 cropReady)) (word 6 5 0)) =
        true ∧
    ((tile0 inCrop).execTurn 0 0 10 (isOp 6 5) (entry 6 5 0) [] && (taken (tile0 inCrop)).active) = true ∧
    ([1, 4].all (fun k => (loopAt k).execTurn 0 0 10 (isOpOr 6 2 6) (entry 6 2 (miscLow 0 k 0 3)) []
      && decide (iArg (word 6 2 (miscLow 0 k 0 3)) = 3) && !loopTooDeep (taken (loopAt k)).cur.loops 4 3)) = true := by
  decide +kernel

/-- A breakpoint on instruction 1 of the main context. -/
def breaking : TileRegs := { running.regs with brkCtrl := 1, brkCount := 1 }
def dispatching (T : Tile) : State := (tile0 T).setDie 0 { (tile0 T).die 0 with debug := true }

theorem witness_DispatchSendsAndStops :
    ([running, { running with eq := List.replicate 32 (entry 0 0 0) }, { running with regs := breaking },
      { running with ctx0 := { Ctx.reset with pc := 16384 } }].all (fun T =>
        (dispatching T).dispatches 0 ((dispatching T).tile 0 0) 10 && (dispatching T).reached 0 0 10)) = true ∧
    ((dispatching running).tile 0 0).cur.pc < 16384 ∧ ((dispatching running).die 0).debug = true ∧
    running.brkMatch 1 0 = false ∧ ({ running with regs := breaking } : Tile).brkMatch 1 0 = true ∧
    toAccess (word 1 0 0) = true ∧ toAccess 0 = false ∧
    (let T := (tile0 { running with stall := .breakpoint }).tile 0 0
     T.stream = .run ∧ T.stall = .breakpoint ∧ T.drained = true ∧ T.slots.isEmpty = true ∧ T.mayLand = true) := by
  decide +kernel

def cropTile : Tile := { running with active := true, crop := .running }
def leaving : Tile := { running with leaving := true }
def switching : Tile := { running with switching := true, swAt := 5 }
def overrunning : Tile := { cropTile with eq := [entry 0 0 0], regs := { running.regs with cropCtrl := 1 } }
def waits : State :=
  let s := tile0 { running with eq := [entry 5 1 (syncLow 1 1)], aq := [entry 5 1 (syncLow 2 1)] }
  { s with alm := { s.alm with total := 4096 } }

theorem witness_StreamsHaltSwitchAndWait :
    ([{ running with stall := .halt }, { cropTile with stall := .stopped }, { cropTile with stall :=
      .range }].all (fun T =>
      (((tile0 T).tile 0 0).stream == .run) && ((tile0 T).tile 0 0).drained && !((tile0 T).tile 0 0).switching
        && ((tile0 T).tile 0 0).mayLand)) = true ∧
    (((tile0 { running with stall := .halt }).landAll 0 0).tile 0 0).active = false ∧
    ((((tile0 { cropTile with stall := .range }).landAll 0 0).tile 0 0).active = true ∧
      (((tile0 { cropTile with stall := .range }).landAll 0 0).tile 0 0).crop ≠ .done) ∧
    (leaving.stream = .run ∧ leaving.switching = false ∧ ((tile0 leaving).tile 0 0).quiet = true ∧
      leaving.switchesAt leaving.lastLand = true ∧ (tile0 leaving).reached 0 0 leaving.lastLand = true) ∧
    (((tile0 switching).tile 0 0).switching = true ∧ (tile0 switching).reached 0 0 1285 = true) ∧
    (cropTile.stream.open = true ∧ ((tile0 cropTile).tile 0 0).active = true ∧ cropTile.leaving = false ∧
      cropTile.retDead = false ∧
      ((tile0 cropTile).tile 0 0).regs.cropRet.toNat ≤ (tile0 cropTile).nowAt 0) ∧
    (overrunning.stream.open = true ∧ overrunning.active = true ∧ overrunning.switching = false ∧
      overrunning.retDead = false ∧ ((tile0 overrunning).tile 0 0).quiet = false ∧ overrunning.overrun = false ∧
      overrunning.regs.cropRet.toNat + bits overrunning.regs.cropCtrl 31 16 ≤ (tile0 overrunning).nowAt 0) ∧
    ((let s := waits.landAll 0 0
      let T := s.tile 0 0
      T.sideHeld false (s.dispatching 0 T) = some 0 ∧ T.sideHeld true (s.dispatching 0 T) = some 0 ∧ T.stream = .run ∧
        T.switching = false ∧ T.still + 4096 ≤ s.alm.total) ∧ (waits.tile 0 0).mayLand = true) := by
  decide +kernel

theorem witness_OneStreamCommandActs :
    State.reset.absent 0 = false ∧ State.reset.ctrlAct 0 0 1 = .start ∧ (tile0 running).ctrlAct 0 0 0x1F = .abort ∧
    (tile0 running).ctrlAct 0 0 0xF = .stop ∧ (tile0 { running with stream := .faultHold }).ctrlAct 0 0 0xF = .restart ∧
    (tile0 { running with stream := .abftHalt }).ctrlAct 0 0 8 = .restart ∧
    (tile0 { running with stream := .brk }).ctrlAct 0 0 0xF = .resume ∧
    ({ State.reset with wseal := { State.reset.wseal with isSealed := true } } : State).ctrlAct 0 0 1 ≠ .start := by
  decide +kernel

/-- A request of memory die 0 for tile SRAM of die 0, with its write's data. -/
def meshReq (a : Nat) (write : Bool) : MemReq :=
  ⟨.agent 32 0, write, BitVec.ofNat 48 a, 64, if write then List.replicate 64 1 else [], none, 0⟩
def meshState (t : Nat) (who : Requester) : State :=
  let s1 := State.reset.land 0 t 10
  (s1.setTile 0 t ((s1.tile 0 t).switchTo 10)).setStage who 1
/-- The last half of the last tile's SRAM: the other 32 bytes lie in no tile. -/
def pastEnd : Nat := 0x400011FFFFE0

/-- The rails of the dies are up. -/
def railed : State := { State.reset with pwr := { State.reset.pwr with rails := true } }

theorem witness_TilesAnswerTheMesh :
    (State.reset.locate 0x7F0000000000 = .reg 0 0 ∧ State.reset.absent (State.reset.dieOf 0) = false ∧
      ({ State.reset with dies := [(0, { Die.reset with retired := true })] } : State).absent (State.reset.dieOf 0) =
        true ∧
      State.reset.locate 0x7FFFFFFFFFF8 = .unmapped) ∧
    ([false, true].all (fun w => State.reset.requestIs (meshReq 0x400000200000 w) && State.reset.requestIs (meshReq
      pastEnd w))) = true ∧
    State.reset.locate 0x400000200000 = .sram 0 1 0 ∧ State.reset.locate pastEnd = .sram 0 143 0x1FFFE0 ∧
    State.reset.reached 0 1 10 = true ∧ State.reset.reached 0 143 10 = true ∧
    railed.diesUp = true ∧ State.reset.diesUp = false ∧
    (railed.locate 0x7F0000000000 = .reg 0 0 ∧ railed.locate 0x7FFFFFFFFFF8 = .unmapped) ∧
    ((meshState 1 (.agent 32 0)).localRead 0x400000200000 64).2.err = none ∧
    ((meshState 1 (.agent 32 0)).localRead 0x400000200000 64).1.locate 0x400000200000 = .sram 0 1 0 ∧
    ((meshState 143 (.agent 32 0)).localRead pastEnd 64).2.err.isSome = true ∧
    ((meshState 1 (.agent 32 0)).localWrite 0x400000200000
      ((meshState 1 (.agent 32 0)).withHalf 0x400000200000 none (List.replicate 64 1))).2 = none ∧
    ((meshState 143 (.agent 32 0)).localWrite pastEnd
      ((meshState 143 (.agent 32 0)).withHalf pastEnd none (List.replicate 64 1))).2.isSome = true := by
  decide +kernel

theorem witness_FabricAndCommandsMove :
    (State.reset.edgeOpen (edgeSorted ⟨0, 32⟩).a.val (edgeSorted ⟨0, 32⟩).b.val = true ∧
      Table.get 0 State.reset.fabric.retries (edgeKey (edgeSorted ⟨0, 32⟩)) < 8 ∧
      (let s : State := { State.reset with fabric := { State.reset.fabric with retries := [(edgeKey (edgeSorted ⟨0,
        32⟩), 8)] } }
       s.edgeOpen (edgeSorted ⟨0, 32⟩).a.val (edgeSorted ⟨0, 32⟩).b.val = true ∧
         8 ≤ Table.get 0 s.fabric.retries (edgeKey (edgeSorted ⟨0, 32⟩)))) ∧
    (let c := cmd1 .accepted 0 [] []
     (holding State.reset c).cmd? 1 = some c ∧ (holding State.reset c).mayDeliver c = true ∧ c.execEn = false) ∧
    (let c : Cmd := { cmd1 .accepted 0 [] [] with execEn := true, execBeat := 5 }
     (holding State.reset c).mayDeliver c = true ∧ c.beatReached (holding State.reset c) = false ∧
       ({ c with execBeat := 0 } : Cmd).beatReached (holding State.reset c) = true) ∧
    (let c := cmd1 .held 0 [] []
     (holding State.reset c).cmd? 1 = some c ∧ c.beatReached (holding State.reset c) = true ∧
       (holding State.reset c).sd.cmds.any (fun x => (holding State.reset c).heldBefore x c) = false ∧
       ({ c with execBeat := 5 } : Cmd).beatReached (holding State.reset c) = false) := by
  decide +kernel

/-! ## Witnesses: factor dies, memory dies and training -/

/-- Die `b` has lost its rails. -/
def dark (b : Nat) : State := State.reset.setDie b { State.reset.die b with railsOff := true }
def drain (op : Nat) (params : List Byte) (busy : Bool) (beats : Nat) : Bool × State × Cmd :=
  let c := cmd1 .running op [] params
  let s : State := if busy then tile0 { running with slots := [(0, {
    count := 5, seg := 0, kind := 2, addr := 0, len := 32, data := [], half := none, stage := 1, made := 5, seq := 0,
      age := 0 })] }
    else State.reset
  let s := holding { s with alm := { s.alm with total := beats } } c
  ((fabricOps ++ linkOps).contains c.op && decide (s.runningCmd 1 = some c), s, c)

theorem witness_RouteTablesChange :
    ([0x0104, 0x0101, 0x0102, 0x0810, 0x0811].all (fun op =>
      (drain op (par 64 []) false 0).1 && (drain op (par 64 []) false 0).2.1.drainedFor op
        && decide ((drain op (par 64 []) false 0).2.1.waited (drain op (par 64 []) false 0).2.2 < 4096)
        && (drain op (par 64 []) false 4096).1
        && decide (4096 ≤ (drain op (par 64 []) false 4096).2.1.waited (drain op (par 64 []) false 4096).2.2))) = true ∧
    ((drain 0x0104 (par 64 []) true 0).1 && !(drain 0x0104 (par 64 []) true 0).2.1.drainedFor 0x0104) = true ∧
    runsIn { State.reset with sites := { State.reset.sites with retired := 1 } } 0x0810 [] (par 64 [(1, 1, 1)]) = true ∧
    (readyIn { State.reset with sites := { State.reset.sites with retired := 1 } } 0x0810 [] (par 64 [(1, 1,
      1)])).adoptBars 1 0 = none ∧
    runs 0x0810 [] (par 64 [(1, 1, 1)]) = true ∧ (readyIn State.reset 0x0810 [] (par 64 [(1, 1,
      1)])).adoptBars 1 0 = some stBusy ∧
    runs 0x0811 [] (par 64 []) = true ∧ runs 0x0101 [] (par 64 [(0, 4, 4)]) = true ∧
    (cmd1 .ready 0x0101 [] (par 64 [(0, 4, 4)])).u 0 4 &&& 0xB = 0 ∧ runs 0x0101 [] (par 64 [(0, 4, 8)]) = true ∧
    (cmd1 .ready 0x0101 [] (par 64 [(0, 4, 8)])).u 0 4 &&& 0xB ≠ 0 ∧ runs 0x0102 [] (par 64 []) = true ∧
    runs 0x0103 [] (par 64 [(0, 2, 1)]) = true := by
  decide +kernel

def down56 (op : Nat) : State := readyIn (dark 56) op [56] (par 64 [])

theorem witness_FactorCommandsRun :
    (let c := cmd1 .ready 0x0701 [56] (par 64 [(0x18, 4, 2)])
     reaches 0x0701 56 (par 64 [(0x18, 4, 2)]) = true ∧ (readyIn State.reset 0x0701 [56] (par 64 [(0x18, 4,
       2)])).batch 0 = none ∧
       (((readyIn State.reset 0x0701 [56] (par 64 [(0x18, 4, 2)])).running c).setBatch 0 (BatchRun.new c 0)).batchLate 0
         (BatchRun.new c 0) = false) ∧
    (reaches 0x0702 56 (par 64 []) && reaches 0x0703 56 (par 64 []) && reaches 0x0704 59 (par 64 [])
      && reaches 0x0705 56 (par 64 [])) = true ∧
    (readyIn State.reset 0x0705 [56] (par 64 [])).canRunNow 1 0x0705 (cmd1 .ready 0x0705 [56] (par 64 [])) = true ∧
    ([0x0701, 0x0702, 0x0703, 0x0704].all (fun op => (down56 op).targetDown op 56
      && (down56 op).canRun 1 op (cmd1 .ready op [56] (par 64 [])))) = true ∧
    ((down56 0x0705).targetDown 0x0705 56
      && (down56 0x0705).canRunNow 1 0x0705 (cmd1 .ready 0x0705 [56] (par 64 []))) = true ∧
    (let c : Cmd := { cmd1 .ready 0x0701 [56] (par 64 []) with cutOff := [56] }
     let s : State := holding State.reset c
     s.targetDown c.op 56 = false ∧ c.cutOff.contains 56 = true ∧ s.canRun 1 0x0701 c = true) := by
  decide +kernel

/-- A batch of two problems on factor die 0 whose descriptors lie in the die's own store: FACTOR of a 1 by 1 matrix. -/
def descBytes : List Byte :=
  ([0x10000, 0, 0x600000001000, 8, 0x600000002000, 8, 0x600000003000,
    8] ++ List.replicate 8 0).flatMap (fun w => leBytes 8 w)
def batchCmd (at? late : Nat) : Cmd := cmd1 .running 0x0701 [56] (par 64 [(0, 8, at?), (0x18, 4, 2), (0x1C, 4, late)])
def batchState (c : Cmd) (desc : List Byte) : State :=
  ((holding State.reset c).setBatch 0 (BatchRun.new c 0)).devWrite 0x600000000000 desc |>.1
def store0 : Nat := 0x600000000000

/-- The batch can start its first problem, at this address. -/
def starts (s : State) (c : Cmd) (at? : Nat) : Bool :=
  decide (s.batch 0 = some (BatchRun.new c 0)) && decide ((BatchRun.new c 0).next = 0) && decide (0 < (BatchRun.new c
    0).count)
    && !s.wseal.isSealed && decide (s.batchParam (BatchRun.new c 0) 0 8 + 128 * 0 = at?)

theorem witness_FactorProblemsStartInOrder :
    (let c := batchCmd store0 0
     let s := batchState c descBytes
     let g := s.devRead store0 128
     starts s c store0 = true ∧ s.batchLate 0 (BatchRun.new c 0) = false ∧ g.2.err = none ∧
       g.1.descOk 0 (descOf (wordsOf g.2.data)) = true ∧ (BatchRun.new c 0).lane? (descOf (wordsOf g.2.data)).quad =
         some 0 ∧
       g.1.batch 0 = some (BatchRun.new c 0)) ∧
    (let c := batchCmd store0 0
     let s := batchState c (List.replicate 128 0xFF)
     starts s c store0 = true ∧ s.batchLate 0 (BatchRun.new c 0) = false ∧ (s.devRead store0 128).2.err = none ∧
       (s.devRead store0 128).1.descOk 0 (descOf (wordsOf (s.devRead store0 128).2.data)) = false) ∧
    (let c := batchCmd 0x7FFFFFFFFF00 0
     let s := batchState c []
     starts s c 0x7FFFFFFFFF00 = true ∧ s.batchLate 0 (BatchRun.new c 0) = false ∧
       (s.devRead 0x7FFFFFFFFF00 128).2.err.isSome = true) ∧
    (starts (batchState (batchCmd store0 1) descBytes) (batchCmd store0 1) store0 = true ∧
      (batchState (batchCmd store0 1) descBytes).batchLate 0 (BatchRun.new (batchCmd store0 1) 0) = true) ∧
    (let s := batchState (batchCmd store0 1) descBytes
     ({ s with wseal := { s.wseal with isSealed := true } } : State).batch 0 = some (BatchRun.new (batchCmd store0 1)
       0)) := by
  decide +kernel

def problem (stage : FactorStage) : Problem := { Problem.new 0 0 (wordsOf descBytes) 0 with stage := stage }
def inStage (stage : FactorStage) : State :=
  (batchState (batchCmd store0 0) descBytes).setBatch 0
    { BatchRun.new (batchCmd store0 0) 0 with next := 1, probs := [problem stage] }

theorem witness_FactorStagesAndBatchesEnd :
    ([FactorStage.factor, .first, .second, .residual, .commit].all (fun g =>
      decide ((inStage g).problem? 0 0 = some (problem g)))) = true ∧
    eachCol (problem .first).rhs (solveIn (problem .first) (descOf (problem .first).words)).stage1 = .ok [] ∧
    eachCol (problem .second).mid (solveIn (problem .second) (descOf (problem .second).words)).stage2 = .ok [] ∧
    ((inStage .residual).readA (descOf (problem .residual).words)).2 = .inl [[.fin false 0 (-1074)]] ∧
    badColumn (descOf (problem .residual).words).n [[.fin false 0 (-1074)]] = none ∧
    ((inStage .commit).putProblem 0 (problem .commit)).problem? 0 0 = some (problem .commit) ∧
    (let b : BatchRun := { BatchRun.new (batchCmd store0 0) 0 with done := 2 }
     let s := (batchState (batchCmd store0 0) descBytes).setBatch 0 b
     s.batch 0 = some b ∧ s.cmd? b.cid = some (batchCmd store0 0) ∧ b.count ≤ b.done) := by
  refine ⟨?_, rfl, rfl, ?_, ?_, ?_, ?_⟩ <;> decide +kernel

/-- A read of 64 bytes of HBM that tile 0 of die 0 has sent. -/
def hbmRead (a : Nat) : State := tile0 { running with slots := [(0, {
  count := 5, seg := 0, kind := 2, addr := BitVec.ofNat 64 a, len := 64, data := [], half := none, stage := 0, made := 5
  seq := 0, age := 0 })] }
def hbmReq (a : Nat) : MemReq := ⟨.tile 0 0 0, false, BitVec.ofNat 48 a, 64, [], none, 0⟩
def stackUp (s : State) (k : Nat) : State := s.setStk k { s.stk k with trained := true, down := false }
def bankEntry (seq : Nat) : BankEntry := ⟨seq, .agent 0 0, 0, 64, false, false, false, false, 0, 0⟩
def bankFull (s : State) (k b : Nat) : State :=
  s.setStk k { s.stk k with banks := [(b, { (s.stk k).bank b with queue := List.replicate 256 (bankEntry 0) })] }

/-- The request reaches memory die m, and this is the state when it has crossed. -/
def arrives (m : Fin 16) (s : State) : Bool :=
  s.requestIs (hbmReq 0) && s.arrives m 5 (hbmReq 0).who && s.agentRoom (hbmReq 0) && decide (s.locate 0 = .hbm 0 0)
def crossed (m : Fin 16) (s : State) : State :=
  ((s.setMd m { s.md m with clock := 5, lastEdge := s.arrivalEdge m (hbmReq 0).who }).cross []).1.setStage (.tile 0 0
    0) 1
def admits (s : State) : Bool :=
  ((crossed 0 s).stk 0).room (entriesOf (hbmLoc (crossed 0 s).fabric.quadLocal 0).2 64)
    && ((crossed 0 s).stk 0).noHold (entriesOf (hbmLoc (crossed 0 s).fabric.quadLocal 0).2 64)

theorem witness_MemoryRequestsAreAdmitted :
    (arrives 0 (stackUp (hbmRead 0) 0) && !((crossed 0 (stackUp (hbmRead 0) 0)).stk 0).down && admits (stackUp
      (hbmRead 0) 0)) = true ∧
    (arrives 0 (bankFull (stackUp (hbmRead 0) 0) 0 0) && !((crossed 0 (bankFull (stackUp (hbmRead 0) 0) 0 0)).stk
      0).down
      && !admits (bankFull (stackUp (hbmRead 0) 0) 0 0)) = true ∧
    arrives 1 (hbmRead 0) = true ∧
    (let s := (hbmRead 0).setStk 0 { (hbmRead 0).stk 0 with down := true }
     arrives 0 s = true ∧ ((crossed 0 s).stk 0).down = true) := by
  decide +kernel

def queued : State :=
  let s := stackUp State.reset 0
  s.setStk 0 { s.stk 0 with banks := [(3, { (s.stk 0).bank 3 with queue := [bankEntry 0] })] }

theorem witness_WinnowerServesAndRefreshCloses :
    ((queued.md 0).stk false).waits 0 = false ∧ ((queued.md 0).stk false).trained = true ∧
    ((queued.md 0).stk false).down = false ∧ (queued.md 0).clock ≤ 0 ∧ (State.reset.md 0).clock ≤ 0 ∧
    (queued.stk 0).recal.contains 0 = false ∧ queued.glean.tasks.getLsbD 0 = true ∧
    ((queued.setStk 0 { queued.stk 0 with recal := [0] }).stk 0).recal.contains 0 = true := by
  decide +kernel

def scrubbing : State := stackUp { State.reset with alm := { State.reset.alm with total := 1 } } 0
def worn (l : List (Nat × Bool)) : State := scrubbing.setStk 0 { scrubbing.stk 0 with rowCorr := [(0, 4)], repairs :=
    l }

theorem witness_MemoryDiesAreWatched :
    ((scrubbing.scrubCfgOf 0).getLsbD 0 = true ∧ (scrubbing.md 0).st0.oos = false ∧ (scrubbing.md 0).st1.oos = false ∧
      (scrubbing.stk 0).scrubbed = false ∧ scrubbing.gleanLimit 0 64 = true ∧
      scrubbing.scrubTurn 0 0 (scrubbing.stk 0).scrub = true) ∧
    ((scrubbing.setStk 0 { scrubbing.stk 0 with oos := true }).md 0).st0.oos = true ∧
    (16 * 0 + 15 < sectorsPerStack ∧ ((worn []).stk 0).candidate 0 = true ∧ ((worn []).stk 0).trained = true ∧
      ((worn []).stk 0).down = false ∧ ((worn []).stk 0).waits (bankNo 0 / 48) = false ∧
      (worn []).repairTurn 0 0 0 = true) ∧
    (let M := { State.reset.md 0 with st0 := { (State.reset.md 0).st0 with level := 3 } }
     3 ≤ (M.st0.reading (throttleAt M) 104).level) ∧
    (let M := { State.reset.md 0 with st0 := { (State.reset.md 0).st0 with hot := 10 } }
     10 ≤ (M.stk false).hot ∧ (M.stk false).level < 3) := by
  decide +kernel

theorem witness_NoUpkeepIsDue : ((queued.md 0).stk false).upkeepDue 0 0 0 = false := by
  have h : ∀ b ∈ pcBanks 0, (((queued.md 0).stk false).bank b).acts = 0 ∧
      (((queued.md 0).stk false).bank b).fresh = 0 := by
    decide +kernel
  have hl : ((queued.md 0).stk false).level = 0 := by decide +kernel
  rw [HbmStack.upkeepDue, List.any_eq_false]
  intro b hb
  simp [Bank.rfmDue, Bank.refreshDue, h b hb, hl]

theorem witness_ScrubIsReady : scrubbing.scrubReady 0 0 0 = true := by
  have h : ∀ b ∈ pcBanks 0, ((scrubbing.stk 0).bank b).acts = 0 ∧ ((scrubbing.stk 0).bank b).fresh = 0 := by
    decide +kernel
  have hl : (scrubbing.stk 0).level = 0 ∧ (scrubbing.stk 0).waits 0 = false ∧ bankNo 0 / 48 = 0 ∧
      (scrubbing.md 0).clock = 0 ∧ ((scrubbing.stk 0).bank (bankNo 0)).queue = [] := by decide +kernel
  have hu : (scrubbing.stk 0).upkeepDue 0 0 0 = false := by
    rw [HbmStack.upkeepDue, List.any_eq_false]
    intro b hb
    simp [Bank.rfmDue, Bank.refreshDue, h b hb, hl.1]
  have e := hl.2.2.1
  simp [State.scrubReady, e, hl.2.1, hl.2.2.2, hu]

/-- All banks of pseudo-channel 0 are bubbles. -/
theorem witness_CalTurn : queued.calTurn 0 0 = true := by
  have hg : queued.glean.tasks.getLsbD 0 = true ∧ ∀ b ∈ pcBanks 0, ((queued.stk 0).bank b).bubble = true :=
      by decide +kernel
  have hb : (pcBanks 0).all (fun b => ((queued.stk 0).bank b).bubble) = true := List.all_eq_true.mpr hg.2
  simp [State.calTurn, hg.1, hb]

theorem witness_WinnowerChooses :
    (((queued.setMd 0 { queued.md 0 with clock := 0 }).setStk 0 (((queued.md 0).stk false).decay [] [])).winnowChoice
      ((queued.md 0).stk false) 0 0 [3]).1 = some (3, 0) := by
  decide +kernel

theorem witness_SparesLeft : ((worn []).stk 0).sparesLeft 0 ≠ 0 ∧
    ((worn (List.replicate Config.spareRows (0, false))).stk 0).sparesLeft 0 = 0 := by
  refine ⟨?_, ?_⟩
  · show Config.moreSpares + 1 - 0 ≠ 0
    omega
  · show Config.spareRows - ((List.replicate Config.spareRows (0, false)).filter (fun e => groupOfRow e.1 ==
    groupOfRow 0)).length = 0
    simp

/-- In maintenance mode. -/
def maint : State := State.reset.setMode 1
def reachesIn (s : State) (op b : Nat) (params : List Byte) : Bool :=
  runsIn s op [b] params && decide ((readyIn s op [b] params).barred (cmd1 .ready op [b] params) b = none)

def armedMany : State :=
  maint.setStk 0 { maint.stk 0 with
    sectors := (List.range 16).map (fun i => (i + 1, { Sector.clean with armed := some ⟨1, 0, 0, 0⟩ })) }
def marginCmd (stage : CmdStage) : Cmd := cmd1 stage 0x0C05 [32] (par 64 [(8, 8, 0x600000000000)])

theorem witness_MemoryCommandsRun :
    (runs 0x0104 [] (par 64 [(0, 4, 1)]) && runs 0x0104 [] (par 64 [(0, 4, 2)]) && reachesIn maint 0x0C04 32 (par 64 [])
      && reachesIn maint 0x0C05 32 (par 64 [(8, 8, 0x600000000000)]) && reachesIn maint 0x0D01 32 (par 64 [])
      && reachesIn armedMany 0x0D01 32 (par 64 [])) = true ∧
    (cmd1 .ready 0x0104 [] (par 64 [(0, 4, 1)])).u 0 4 % 2 = 1 ∧ (cmd1 .ready 0x0104 [] (par 64 [(0, 4,
      2)])).u 0 4 % 2 ≠ 1 ∧
    (holding maint (marginCmd .ready)).runningCmd 1 = none ∧ (holding maint (marginCmd .ready)).margining = false ∧
    (holding maint (marginCmd .running)).runningCmd 1 = some (marginCmd .running) ∧
    (marginCmd .running).op = 0x0C05 ∧
    (readyIn maint 0x0D01 [32] (par 64 [])).diagOk 0 = true ∧ ((readyIn maint 0x0D01 [32] (par 64 [])).md 0).armed <
      16 ∧
    (readyIn armedMany 0x0D01 [32] (par 64 [])).diagOk 0 = true ∧ 16 ≤ ((readyIn armedMany 0x0D01 [32] (par 64 [])).md
      0).armed ∧
    (((readyIn armedMany 0x0D01 [32] (par 64 [])).stk 0).sector 0).armed = none := by
  decide +kernel

def updCmd : Cmd := cmd1 .running 0x0303 [] (par 64 [])
def upd (vote : Option (BitVec 8)) : UpdateRun := ⟨1, 0, 0x47000000, [], vote, 0, 0, []⟩
def updating (vote : Option (BitVec 8)) (v : VoteRun) : State :=
  let s := holding State.reset updCmd
  { s with update := some (upd vote), net := { s.net with vote := some v }, alm := { s.alm with now := 0xFFFFFFFF } }
/-- The segment list of the UPDATE lies in a poisoned sector. -/
def poisoned : State :=
  let s := stackUp State.reset 0
  s.setStk 0 { s.stk 0 with sectors := [(0, { Sector.clean with poison := true })] }

theorem witness_UpdateReadsSeal :
    runsIn poisoned 0x0303 [] (par 64 [(0x0C, 4, 1)]) = true ∧
    ((readyIn poisoned 0x0303 [] (par 64 [(0x0C, 4, 1)])).loadSegments
      (cmd1 .ready 0x0303 [] (par 64 [(0x0C, 4, 1)])) [0]).1.wseal.isSealed = true := by
  decide +kernel

theorem witness_UpdatesRunToTheirEnd :
    (State.reset.update = none ∧ runs 0x0105 [] (par 64 []) = true ∧ runs 0x0303 [] (par 64 []) = true ∧
      State.reset.firstOf [0x0303, 0x0105] (cmd1 .ready 0x0303 [] (par 64 [])) = true ∧
      ((readyIn State.reset 0x0303 [] (par 64 [])).loadSegments (cmd1 .ready 0x0303 [] (par 64 []))
        []).1.wseal.isSealed = false) ∧
    ([0, 4].all (fun v => decide ((updating none ⟨v, [], [], none, some v⟩).update = some (upd none))
      && decide ((updating none ⟨v, [], [], none, some v⟩).cmd? 1 = some updCmd)
      && decide ((updating none ⟨v, [], [], none, some v⟩).net.vote = some ⟨v, [], [], none, some v⟩))) = true ∧
    ((upd none).entered.toNat + (Train.of (updating none ⟨0, [], [], none, none⟩)).vtimeout.toNat
      ≤ (updating none ⟨0, [], [], none, none⟩).alm.now.toNat) ∧
    (updating (some 0) ⟨0, [], [], none, some 0⟩).update = some (upd (some 0)) ∧
    (updating (some 0) ⟨0, [], [], none, some 0⟩).cmd? 1 = some updCmd := by
  decide +kernel

def stashPar : List Byte := par 64 [(0, 8, 0x600000000000), (8, 8, 0x600000100000), (0x10, 4, 1)]

theorem locate_store {s : State} {a : Nat} (h : 0x600000000000 ≤ a ∧ a < 0x600004000000) :
    s.locate a = .store 0 (a - 0x600000000000) := by
  have h1 : (a - 0x600000000000) % 2 ^ 32 = a - 0x600000000000 := Nat.mod_eq_of_lt (by omega)
  have h2 : (a - 0x600000000000) / 2 ^ 32 = 0 := Nat.div_eq_of_lt (by omega)
  simp only [State.locate, decodeLocal, h1, h2]
  rw [if_neg (by omega), if_neg (by omega), if_pos (by omega), if_pos (by omega)]

/-- Writing memory moves no die. -/
theorem gone_mem (s : State) (m : Memory) (a : Nat) : ({ s with mem := m } : State).gone a = s.gone a := rfl

theorem cross_gone (s : State) (l : List Byte) (a : Nat) : (s.cross l).1.gone a = s.gone a := by
  unfold State.cross
  split <;> rfl

theorem writeLoop_store (l : List Byte) : ∀ (p : List (Nat × Nat × Nat)) (s : State), (∀ e ∈ p, s.gone e.2.1 = false) →
    (∀ e ∈ p, 0x600000000000 ≤ e.2.1 ∧ e.2.1 < 0x600004000000) → (s.writeLoop State.writePiece l p).2 = none
  | [], _, _, _ => rfl
  | (off, a, n) :: p, s, hg, h => by
      simp only [State.writeLoop, State.writePiece, locate_store (h (off, a, n) (by simp)), hg (off, a, n) (by simp)]
      exact writeLoop_store l p _ (fun e he => (gone_mem s _ e.2.1).trans (hg e (by simp [he]))) (fun e he => h e (by
        simp [he]))

theorem cross_length (s : State) (l : List Byte) : (s.cross l).2.length = l.length := by
  unfold State.cross
  split <;> simp

/-- A write into a factor die's own store is never refused while the die is there. -/
theorem devWrite_store (s : State) (l : List Byte) (h : l.length < 0x3000000)
    (hg : ∀ a, 0x600000000000 ≤ a → a < 0x600004000000 → s.gone a = false) :
    (s.devWrite 0x600000100000 l).2 = none := by
  have hl : (s.cross l).2.length < 0x3000000 := by rwa [cross_length]
  have hp : ∀ e ∈ sectorsOf 0x600000100000 (s.cross l).2.length, 0x600000000000 ≤ e.2.1 ∧ e.2.1 < 0x600004000000 := by
    intro e he
    unfold sectorsOf blocksOf at he
    split at he
    · simp at he
    · obtain ⟨i, hi, rfl⟩ := List.mem_map.mp he
      have := List.mem_range.mp hi
      simp only
      omega
  exact writeLoop_store (s.cross l).2 _ (s.cross l).1
    (fun e he => (cross_gone s l e.2.1).trans (hg e.2.1 (hp e he).1 (hp e he).2)) hp

theorem packBlock_length (l : List Byte) : (packBlock l).1.length < 0x2000 := by
  simp only [packBlock]
  split
  · simp only [padTo64, fitBytes, List.length_take, List.length_append, List.length_replicate]
    omega
  · simp only [padTo64, fitBytes, List.length_take, List.length_append, List.length_replicate, List.length_map,
      List.length_range]
    omega

theorem packStream_length (l : List Byte) : (packStream 1 l).length < 0x3000000 := by
  have := packBlock_length ((l.drop (4096 * 0)).take 4096)
  simp only [packStream, indexBytes, List.range_one, List.map_cons, List.map_nil, List.flatMap_cons, List.flatMap_nil,
    List.length_append, fitBytes, List.length_take, List.length_nil]
  omega

theorem witness_StashCommandsRun :
    (reaches 0x0402 32 stashPar && reaches 0x0403 32 stashPar) = true ∧
    (let g := (readyIn State.reset 0x0402 [32] stashPar).devRead 0x600000000000 4096
     g.2.err = none ∧ (g.1.devWrite 0x600000100000 (packStream 1 g.2.data)).2 = none) :=
  ⟨by decide +kernel, by decide +kernel, devWrite_store _ _ (packStream_length _) (fun a h1 h2 => by
    simp only [State.gone, State.homeOf, locate_store ⟨h1, h2⟩]
    decide +kernel)⟩

/-! ## Witnesses: links and packets -/

def port0 (P : TorusPort) : State := State.reset.setPort 0 P
def upPort : TorusPort := { State.reset.port 0 with state := .up, credits := [(0, 5)] }
def flit (kind : BitVec 2) (seq : BitVec 12) : Flit :=
  { kind := kind, sop := true, eop := false, vc := 0, seq := seq, ack := 0, nak := false, cvc := 0, ctot := 0,
    bytes := 0
    payload := [], crc := 0 }
def placed : State := { State.reset with net := { State.reset.net with coordValid := true } }

theorem witness_LinksCarryFlits :
    (((port0 upPort).port 0).live = true ∧ ({ upPort with resend := 1 } : TorusPort).live = true ∧ upPort.resend = 0 ∧
      ({ upPort with queue := [⟨flit 1 0, none⟩] } : TorusPort).next = some ⟨flit 1 0, none⟩ ∧
      ({ upPort with state := .standby, queue := [⟨flit 2 0, none⟩] } : TorusPort).next = some ⟨flit 2 0, none⟩ ∧
      upPort.next = none) ∧
    ((flit 0 0).seal.sequenced = false ∧
      (upPort.control (flit 0 0).seal).2 = false ∧ (upPort.control (flit 1 5).seal).2 = false ∧
        (flit 1 5).seal.sequenced = true ∧
      (flit 1 5).seal.seq.toNat ≠ (upPort.control (flit 1 5).seal).1.expect ∧
      (upPort.control (flit 1 0).seal).2 = false ∧ (flit 1 0).seal.kind = 1 ∧
      (flit 1 0).seal.seq.toNat = (upPort.control (flit 1 0).seal).1.expect ∧ (flit 1 0).seal.eop = false) ∧
    (((port0 { upPort with state := .training }).port 0).state = .training ∧
      (port0 { upPort with state := .training }).peerOk 0 (some 9) = true ∧ placed.peerOk 0 (some 0xFFFF) = false) ∧
    (let P : TorusPort := { upPort with state := .standby, role := 1 }
     ((placed.setPort 0 P).port 0).state = .standby ∧ ((placed.setPort 0 P).port 0).role = 1 ∧
       (placed.setPort 0 P).net.coordValid = true ∧ (placed.setPort 0 P).peerOk 0 (some (placed.net.neighbour (dirOf
         0))) = true ∧
       (placed.setPort 0 P).peerOk 0 (some 0xFFFF) = false) ∧
    (((port0 { upPort with state := .retrain }).port 0).state = .retrain ∧ upPort.failed < 2 ∧
      2 ≤ ({ upPort with failed := 2 } : TorusPort).failed) ∧
    ((port0 upPort).marginTurn 0 = true ∧
      ({ port0 upPort with glean := { State.reset.glean with tasks := 0 } } : State).marginTurn 0 = false) := by
  decide +kernel

theorem witness_ReplayBufferIsFull :
    2048 ≤ ({ upPort with replay := List.replicate 2048 ⟨flit 1 0, none⟩ } : TorusPort).replay.length :=
  Nat.le_of_eq List.length_replicate.symm

/-- A flit with its own CRC is good, and one with another is not. -/
theorem witness_FlitsAreGoodOrBad (f : Flit) : f.seal.good = true ∧ ({ f with crc :=
    f.seal.crc + 1 } : Flit).good = false := by
  refine ⟨?_, ?_⟩
  · have h : f.seal.covered = f.covered := rfl
    rw [Flit.good, h]
    exact beq_self_eq_true _
  · have h : ({ f with crc := f.seal.crc + 1 } : Flit).covered = f.covered := rfl
    rw [Flit.good, h, Flit.seal]
    generalize crc32 f.covered = x
    simp

/-- A packet for this device. -/
def packet (ptype : BitVec 6) (tag : BitVec 16) : Packet :=
  ⟨0, 1, 0, ptype, 0, false, false, 32, 0, 1, 0, 0, tag, 0x600000000000, 0x20, List.replicate 32 5⟩
def got (s : State) (k : Packet) : State := { s with net := { s.net with inbox := [⟨0, k, 0⟩] } }
def takes (k : Packet) : Bool := ((got State.reset k).takePacket k k.ptype.toNat).isSome
/-- A drain reads hold area 0. -/
def draining : State :=
  let s := holding State.reset (cmd1 .running 0x0803 [] (par 64 []))
  { s with hrv := { s.hrv with area := 0x4000000 } }
/-- A Harvest's first write for an area. -/
def claim (s : State) (a : Nat) : Packet := { packet 1 0 with arg := claimArg, addr := BitVec.ofNat 48 (s.holdArea a) }
/-- Outside every window of the device. -/
def nowhere (k : Packet) : Packet := { k with addr := 0x7FFFFFFFFF00 }

theorem witness_PacketsReachTheirDie :
    (draining.mustWait (claim draining 0) = true ∧ draining.mustWait (claim draining 1) = false ∧
      ((got draining (claim draining 0)).takePacket (claim draining 0) 1).isSome = true) ∧
    ([1, 2, 3, 4, 5, 6].all (fun t => takes (packet t 0) && takes (nowhere (packet t 0)))) = true ∧
    (State.reset.localWrite 0x600000000000 (List.replicate 32 5)).2 = none ∧
    (State.reset.localWrite 0x7FFFFFFFFF00 (List.replicate 32 5)).2.isSome = true ∧
    (State.reset.localRead 0x600000000000 (min 4096 0x20)).2.err = none ∧
    (State.reset.localRead 0x7FFFFFFFFF00 (min 4096 0x20)).2.err.isSome = true ∧
    sigBad (packet 6 0).arg = false ∧ (takes { packet 6 0 with arg := 2 ^ 64 - 1 } && sigBad (2 ^ 64 - 1)) = true ∧
    (packet 4 0).tag ≠ tagRot ∧ (packet 4 0).tag ≠ tagHarvest ∧ takes (packet 5 tagColl) = true ∧
      (packet 5 0).tag ≠ tagColl ∧
    (([⟨none, 31, 143, true, 63, 65535, none⟩] : List Sig).find? (fun x => x.is 31 143 true 63 65535)
      = some ⟨none, 31, 143, true, 63, 65535, none⟩ ∧ State.reset.absent 31 = false ∧
        State.reset.reached 31 143 5 = true ∧
      (dark 31).absent 31 = true) := by
  decide +kernel

/-- A COLL on slot 0 with this device as its first of two members. -/
def collCmd (flags : Nat) : Cmd := cmd1 .running 0x0501 [] (par 128 [(6, 2, flags)])
def collRun (algo : Nat) : CollRun :=
  { cid := 1, algo := algo, rank := 0, members := [0, 1], shards := [(0, 0), (0, 0)], launched := none, scale := 0,
    vote := 0
    votes := 0, contribs := [⟨0, false, false⟩, ⟨0, false, false⟩], acc := [], anyIn := false, outs := [0, 0],
      finished := false
    exclIn := 0, nEff := 0, carried := 0, stale := 0, vals := [], wait := [], left := 0, status := 0, code := 0,
      ended := false }
def colling (c : Cmd) (r : CollRun) (k : Packet) : State :=
  let s := got (holding State.reset c) k
  (s.setColl 0 { s.colls 0 with gen := 1, run := some r })
def collPkt (ptype : BitVec 6) (arg : BitVec 64) : Packet := { packet ptype 0 with arg := arg }
def directCmd : Cmd := cmd1 .running 0x0501 [] (par 128 [(0, 1, 5)])
def lateColl : Cmd := cmd1 .running 0x0501 [] (par 128 [(0x10, 8, 5)])
def voting (v : VoteRun) : State :=
  got { State.reset with net := { State.reset.net with vote := some v } } (collPkt 0x21 3)

theorem witness_CollectivesRunToTheirEnd :
    (runs 0x0501 [] (par 128 []) = true ∧ (readyIn State.reset 0x0501 [] (par 128 [])).collRun 0 = none ∧
      (readyIn State.reset 0x0501 [] (par 128 [])).firstOnSlot (cmd1 .ready 0x0501 [] (par 128 [])) = true ∧
      (let s := State.reset.setColl 0 { State.reset.colls 0 with run := some (collRun 4) }
       runsIn s 0x0501 [] (par 128 []) = true)) ∧
    takes (collPkt 0x10 0) = true ∧ State.reset.collOf (collPkt 0x10 0) = none ∧
    (colling (collCmd 0) (collRun 4) (collPkt 0x10 0)).collOf (collPkt 0x10 0) = some (collCmd 0, collRun 4, 1) ∧
    (colling (collCmd 0) (collRun 1) (collPkt 0x10 0)).collOf (collPkt 0x10 0) = some (collCmd 0, collRun 1, 1) ∧
    (colling directCmd (collRun 1) (collPkt 0x10 0)).collOf (collPkt 0x10 0) = some (directCmd, collRun 1, 1) ∧
    (collCmd 0).cDirect = false ∧ directCmd.cDirect = true ∧ (collCmd 1).cFlag 0 = true ∧
    (collRun 4).finished = false ∧ (collRun 4).ended = false ∧ (collRun 4).outs.getD 1 1 = 0 ∧
    ([1, 2].all (fun a => ((colling (collCmd 0) (collRun 4) (collPkt 0x11 a)).takePacket (collPkt 0x11 a)
      0x11).isSome)) = true ∧
    bits (collPkt 0x11 1).arg 7 0 = ctrlExcluded ∧ bits (collPkt 0x11 2).arg 7 0 = ctrlIncluded ∧
    ((colling (collCmd 1) (collRun 4) (collPkt 0x10 0)).collRun 0 = some (collRun 4) ∧
      (colling (collCmd 1) (collRun 4) (collPkt 0x10 0)).cmd? 1 = some (collCmd 1) ∧ (collCmd 1).overdue 0 = true ∧
      lateColl.overdue 0 = false) ∧
    ({ collRun 1 with ended := true } : CollRun).complete = true ∧ (collRun 1).complete = false ∧
    (let v : VoteRun := ⟨1, [1], [1], some 2, none⟩
     ((voting v).takePacket (collPkt 0x21 3) 0x21).isSome = true ∧ v.due.contains (collPkt 0x21 3).src = true ∧
       (⟨1, [1], [], some 1, none⟩ : VoteRun).parent = some (collPkt 0x21 3).src ∧
       (⟨1, [1], [2], some 5, none⟩ : VoteRun).due.contains (collPkt 0x21 3).src = false) := by
  decide +kernel

def rotPar (n : Nat) : List Byte := par 64 [(0, 8, 0x600000000000), (8, 4, n)]
def rotCmd (n : Nat) : Cmd := cmd1 .ready 0x0601 [] (rotPar n)
def scheduleIn (n a : Nat) : State :=
  let s := readyIn State.reset 0x0601 [] (par 64 [(0, 8, a), (8, 4, n)])
  { s with net := { s.net with rotGen := nextGen s.net.rotGen } }

theorem witness_RotationsGoRoundByRound :
    (runs 0x0601 [] (rotPar 0) = true ∧ State.reset.net.rot = none ∧
      (readyIn State.reset 0x0601 [] (rotPar 0)).firstOf [0x0601] (rotCmd 0) = true ∧
      ((scheduleIn 0 0x600000000000).devRead 0x600000000000 0).2.err = none ∧ State.reset.scheduleOk [] = true ∧
      runs 0x0601 [] (rotPar 1) = true ∧ ((scheduleIn 1 0x600000000000).devRead 0x600000000000 32).2.err = none ∧
      (scheduleIn 1 0x600000000000).scheduleOk [List.replicate 32 0] = false ∧
      runs 0x0601 [] (par 64 [(0, 8, 0x7FFFFFFFFF00), (8, 4, 1)]) = true ∧
      ((scheduleIn 1 0x7FFFFFFFFF00).devRead 0x7FFFFFFFFF00 32).2.err.isSome = true) ∧
    (let k := { packet 0x12 tagRot with arg := 0x10000 }
     let r : RotRun := ⟨1, 0, 2, [⟨true, 1, 0, 0, 0, 32, 32⟩], 0⟩
     let s := got { State.reset with net := { State.reset.net with rot := some r, rotGen := 1 } } k
     (s.takePacket k 0x12).isSome = true ∧ k.gen.toNat = s.net.rotGen ∧ r.round < rotRoundOf k ∧
       rotRoundOf { k with arg := 0 } ≤ r.round ∧ (r.entries.filter (fun e => e.round == r.round)).all (·.done) = true ∧
       r.round + 1 < r.rounds ∧ ({ r with rounds := 1 } : RotRun).rounds ≤ r.round + 1 ∧
       (⟨true, 1, 0, 0, 0, 32, 0⟩ : RotEntry).done = false) := by
  decide +kernel

/-! ## Witnesses: Almanac, rings, steward and node host -/

def almIs (a : Almanac) : State := { State.reset with alm := a }
/-- A Season start that is due, of a running command. -/
def seasonDue (T : Tile) : State :=
  holding ((almIs { State.reset.alm with seasons := [⟨1, 0, 7, 1⟩] }).setTile 0 0 T) (cmd1 .running 0x0A02 [] (par 64
    []))

theorem witness_BeatsAndAlmanacCommands :
    State.reset.alm.now.toNat % max 1 State.reset.alm.period.toNat = 0 ∧
    ({ State.reset.alm with now := 1, period := 4 } : Almanac).now.toNat % max 1 4 ≠ 0 ∧
    ([⟨0, 5, 1, false⟩] : List GleanWin)[0]? = some ⟨0, 5, 1, false⟩ ∧
    (runs 0x0A01 [] (par 64 []) && runs 0x0A02 [] (par 64 [])) = true ∧
    ([Tile.reset, running].all (fun T =>
      decide ((seasonDue T).alm.seasons.find? (fun p => decide (p.start.toNat ≤ (seasonDue T).alm.now.toNat)) = some
        ⟨1, 0, 7, 1⟩)
        && decide ((seasonDue T).runningCmd 1 = some (cmd1 .running 0x0A02 [] (par 64 []))))) = true ∧
    (seasonDue Tile.reset).quiescent = true ∧ (seasonDue running).quiescent = false := by
  decide +kernel

/-- A BEAT packet has come in whole at port 0, on channel 6. -/
def beatIn (gen : BitVec 8) (season : BitVec 4) (parent : BitVec 4) : State × Packet :=
  let k : Packet := { packet 0x20 0 with gen := gen, season := season }
  let s := almIs { State.reset.alm with role := roleFollower, state := almLocked, parent := parent }
  ({ s with net := { s.net with arrived := [⟨0, 6, k, 0⟩] } }, k)
def beatFound (x : State × Packet) : Bool :=
  decide (x.1.net.arrived.find? (fun e => e.port == 0 && e.pkt == x.2 && x.2.ptype == 0x20 && x.2.dest == x.1.net.coord)
    = some ⟨0, 6, x.2, 0⟩)
/-- Its buffers are free and it is gone. -/
def beatTaken (x : State × Packet) : State :=
  let s1 := x.1.freeBuffers 0 6 x.2
  { s1 with net := { s1.net with arrived := s1.net.arrived.erase ⟨0, 6, x.2, 0⟩ } }
def beatGood (x : State × Packet) : Bool := (beatTaken x).fresh (portLd 0) x.2 && (beatTaken x).genTest x.2 == .deliver
def beatMine (x : State × Packet) : Bool :=
  (beatTaken x).alm.role == roleFollower && (beatTaken x).alm.state != almFree && (beatTaken x).alm.parent.toNat == 0

theorem witness_AlmanacsFollowTheirReference :
    (let a : Almanac := { State.reset.alm with role := roleMaster, now := 1500 }
     a.role = roleMaster ∧ placed.net.coordValid = true ∧ a.now.toNat - a.now.toNat % max 1 a.period.toNat = 1000 ∧
       (1000 : Nat) ≠ 0 ∧ 1000 ≠ a.beatSent ∧ State.reset.alm.now.toNat - State.reset.alm.now.toNat % 1000 = 0) ∧
    (beatFound (beatIn 1 0 0) && beatGood (beatIn 1 0 0) && beatMine (beatIn 1 0 0)
      && beatFound (beatIn 1 0 5) && beatGood (beatIn 1 0 5) && !beatMine (beatIn 1 0 5)
      && beatFound (beatIn 1 3 0) && !beatGood (beatIn 1 3 0)) = true ∧
    (let a : Almanac := { State.reset.alm with role := roleFollower, state := almLocked, sinceBeat := 100000 }
     a.role = roleFollower ∧ a.state = almLocked ∧ a.miss.toNat * a.period.toNat ≤ a.sinceBeat ∧
       ({ a with sinceBeat := 0 } : Almanac).sinceBeat < a.miss.toNat * a.period.toNat) ∧
    (let a : Almanac := { State.reset.alm with role := roleMaster, refOk := true, ppsOk := true, state := almAcquire }
     a.role = roleMaster ∧ a.refOk = true ∧ a.ppsOk = true ∧ (a.refOk && a.ppsOk && a.state == almAcquire) = true ∧
       ({ a with refOk := false } : Almanac).refOk = false ∧ a.refSeen = false ∧ a.lostLogged = false) := by
  decide +kernel

def hosted : State := { State.reset with pwr := { State.reset.pwr with rails := true } }
def ringOn (prod : Nat) : State :=
  let s := hosted.setRing 3 { hosted.ring 3 with en := true, cqLog := 12, rqLog := 4, prod := prod }
  { s with sd := { s.sd with boot := 2 } }
/-- A breakpoint on ring 3's command 0. -/
def ringBreaks : State :=
  { ringOn 1 with sd := { (ringOn 1).sd with hostDebug := true, cbrkCtrl := 0x61 } }
/-- An entry of three units: 32 bytes of header and 128 of parameters. -/
def entry3 : List Byte := [0, 0, 0, 4] ++ List.replicate 156 0

theorem witness_RingsTakeCommands :
    (hosted.hostUp = true ∧ ((ringOn 1).ring 3).en = true ∧ (hosted.ring 3).en = false) ∧ hosted.ringTurn ≠ some 3 ∧
    (ringOn 1).ringTurn = some 3 ∧ (ringOn 1).cmdBreak 3 ((ringOn 1).ring 3) 0 = false ∧
    ((ringOn 1).readEntry (List.replicate 64 0)).units ≤ ((ringOn 1).ring 3).avail ∧
    ringBreaks.ringTurn = some 3 ∧ ringBreaks.cmdBreak 3 (ringBreaks.ring 3) 0 = true ∧
    (∃ raw : List Byte, ((ringOn 1).ring 3).avail < ((ringOn 1).readEntry raw).units) := by
  refine ⟨?_, ?_, ?_, ?_, ?_, ?_, ?_, entry3, ?_⟩ <;> decide +kernel

def dmaPar (dir sig a n : Nat) : List Byte := par 64 [(0, 1, dir), (1, 1, sig), (0x10, 8, a), (0x20, 8, n)]
def dmaIn (dir sig a n : Nat) : Cmd := cmd1 .ready 0x0401 [] (dmaPar dir sig a n)
def dmaCode (a n : Nat) (l : List Byte) : Nat × Option Nat := ((readyIn State.reset 0x0401 [] (dmaPar 0 0 a
    n)).dmaMove (dmaIn 0 0 a n) l).2

def maintLeft : Cmd := cmd1 .running 0x0C02 [] (par 64 [])
/-- A port that is up has not been heard since MAINT_EXIT began. -/
def unheard (c : Cmd) : State :=
  let s := holding (maint.setPort 0 { maint.port 0 with state := .up }) c
  { s with net := { s.net with unheard := [0] } }
/-- MAINT_EXIT beside another maintenance command that runs. -/
def maintBusy : State :=
  let s := readyIn maint 0x0C02 [] (par 64 [])
  { s with sd := { s.sd with cmds := [{ cmd1 .running 0x0C05 [] (par 64 []) with cid := 0 },
    cmd1 .ready 0x0C02 [] (par 64 [])] } }

theorem witness_StewardCommandsRun :
    (runs 0 [] [] && runs 0x0106 [] (par 64 [(0, 2, 1)]) && runs 0x0107 [] (par 64 [(0, 8, 0x7F003C000000)])
      && runs 0x0107 [] (par 64 []) && runs 0x0201 [] (par 64 []) && runs 0x0301 [0] (par 64 []) && runs 0x0302 [0]
        (par 64 [])
      && runs 0x0304 [] (par 64 []) && runs 0x0401 [] (dmaPar 0 0 0x600000000000 3)
      && runs 0x0401 [] (dmaPar 0 1 0x600000000000 3) && runs 0x0401 [] (dmaPar 0 0 0x7FFFFFFFFF00 3)
      && runs 0x0C01 [] (par 64 []) && runsIn maint 0x0C01 [] (par 64 []) && runsIn maint 0x0C02 [] (par 64 [])
      && runs 0x0C03 [] (par 64 []) && runs 0x0F01 [0] (par 64 [(0, 1, 1)])) = true ∧
    (readyIn State.reset 0x0107 [] (par 64 [(0, 8, 0x7F003C000000)])).regDown 60 = false ∧
    (runsIn (dark 0) 0x0107 [] (par 64 [(0, 8, 0x7F0000000000)])
      && (readyIn (dark 0) 0x0107 [] (par 64 [(0, 8, 0x7F0000000000)])).locate 0x7F0000000000 == .reg 0 0
      && (readyIn (dark 0) 0x0107 [] (par 64 [(0, 8, 0x7F0000000000)])).regDown 0) = true ∧
    (readyIn State.reset 0x0304 [] (par 64 [])).abortAll.update = none ∧
    (let s : State := { readyIn State.reset 0x0304 [] (par 64 []) with update := some ⟨0, 0, 0, [], none, 0, 0, []⟩ }
     s.canRun 1 0x0304 (cmd1 .ready 0x0304 [] (par 64 [])) = true ∧ s.abortAll.update.isSome = true) ∧
    (dmaCode 0x600000000000 3 [1, 2, 3] = (3, none) ∧ dmaCode 0x7FFFFFFFFF00 3 [1, 2, 3] = (0, some 0x20) ∧
      (dmaIn 0 0 0x600000000000 3).u 0x20 8 = 3 ∧ (dmaIn 0 1 0x600000000000 3).u 1 1 % 2 = 1) ∧
    ((readyIn State.reset 0x0C01 [] (par 64 [])).quiescent = true ∧ State.reset.sd.mode = 0 ∧ maint.sd.mode ≠ 0 ∧
      (readyIn maint 0x0C01 [] (par 64 [])).quiescent = true ∧
      runsIn (tile0 { Tile.reset with stream := .run }) 0x0C01 [] (par 64 []) = true ∧
      (readyIn (tile0 { Tile.reset with stream := .run }) 0x0C01 [] (par 64 [])).quiescent = false) ∧
    ((readyIn maint 0x0C02 [] (par 64 [])).runningCmd 1 = none ∧ (readyIn maint 0x0C02 [] (par 64
      [])).checkAgain.audited = true ∧
      (unheard (cmd1 .ready 0x0C02 [] (par 64 []))).canRun 1 0x0C02 (cmd1 .ready 0x0C02 [] (par 64 [])) = true ∧
      (unheard (cmd1 .ready 0x0C02 [] (par 64 []))).checkAgain.audited = false ∧
      maintBusy.canRun 1 0x0C02 (cmd1 .ready 0x0C02 [] (par 64 [])) = true ∧
      maintBusy.sd.cmds.any (fun x => x.cid != 1 && x.stage == .running && x.op / 256 == 0x0C) = true ∧
      (unheard maintLeft).runningCmd 1 = some maintLeft ∧ (unheard maintLeft).audited = false ∧
      (holding maint maintLeft).runningCmd 1 = some maintLeft ∧ (holding maint maintLeft).audited = true) := by
  decide +kernel

theorem witness_RegistersAreLocated : State.reset.locate 0x7F003C000000 = .reg 60 0 := by decide +kernel

def booted : State := { hosted with sd := { hosted.sd with bars := true, boot := 2, modules := [(0, 2), (8, 2)] } }
/-- Reads of HBM and writes of tile SRAM are forbidden, and reads of the warden. -/
def mapped : State := { booted with fuse := { booted.fuse with shadow := [(14, 0x1009)] } }

theorem witness_HostAccessesReachTheirWindow :
    hosted.hostUp = true ∧ (hosted.sd.bars && hosted.sd.boot == 2) = false ∧ booted.hostUp = true ∧
    (booted.sd.bars && booted.sd.boot == 2) = true ∧
    booted.mapForbids ([0 % 2 ^ 30 / 2 ^ 24, (0 + (64 - 1)) % 2 ^ 30 / 2 ^ 24].flatMap (blockBits true)) = false ∧
    booted.mapForbids ([booted.locate 0, booted.locate (0 + (64 - 1))].flatMap (targetBits true)) = false ∧
    booted.module 0 = 2 ∧ booted.module 8 = 2 ∧ Table.get 0 booted.sd.modRetry 0 < 8 ∧
    (let s : State := { booted with sd := { booted.sd with modRetry := [(0, 8)] } }
     s.module 0 = 2 ∧ 8 ≤ Table.get 0 s.sd.modRetry 0) := by
  decide +kernel

/-! ## Witnesses: Sow and Harvest -/

/-- A manifest of `n` entries of zeros in STATE `st`; its MTALLY, a SHA-384 digest with STATE 0, was computed outside
the model. -/
def manifestOf (n st tally : Nat) : List Byte :=
  par 0x100 [(0, 2, 1), (4, 4, n), (0x16, 1, st), (0xD0, 48, tally)] ++ List.replicate (128 * n) 0
def manifest0 (st : Nat) : List Byte :=
  manifestOf 0 st 0x1d6b906e5ce715c8aabc0e1bff33a19d83151d7ad5e2cdab961b9f0a26b3f91de5f5003aadbc72b6fec0140689e66d68
def manifest1 : List Byte :=
  manifestOf 1 0 0xddb879e0229190f42f17096240443c8f060bc0b60f8484505e4b5dce806ee7c3dbc4cb1d66b9f53f792d22d6912f071f

theorem manifest_tally : manifestTally (manifest0 0) = true ∧ manifestTally (manifest0 1) = true ∧
    manifestTally manifest1 = true := by decide +kernel

def sowing (base : BitVec 48) : State := { State.reset with sow := { State.reset.sow with en := true, base := base } }
def opens (base : BitVec 48) : State := readyIn (sowing base) 0x0902 [] (par 64 [(0, 8, 1)])
def openCmd : Cmd := cmd1 .ready 0x0902 [] (par 64 [(0, 8, 1)])
def buddied : State :=
  let s := placed.setPort 0 { placed.port 0 with role := 1, state := .up }
  { s with sow := { s.sow with dir := 0 } }
def due (stage regions : Nat) : State :=
  { State.reset with hrv := { State.reset.hrv with
    pointDue := true, area := 0x4000000, stage := BitVec.ofNat 48 stage, regions := BitVec.ofNat 32 regions
    regionAddr := 0x7FFFFFFFFF00 } }
def harvestIn (st phase left : Nat) : State :=
  { State.reset with hrv := { State.reset.hrv with state := st, phase := phase, left := left } }

theorem witness_SowAndHarvestRun :
    (runs 0x0901 [] (par 64 []) = true ∧ State.reset.harvesting = false ∧ (due 0 0).harvesting = true ∧
      runsIn (due 0 0) 0x0901 [] (par 64 []) = true) ∧
    (runsIn (sowing 0x600000000000) 0x0902 [] (par 64 [(0, 8, 1)]) = true ∧ (sowing 0).mainIdle = true ∧
      (sowing 0).sow.en = true ∧
      State.reset.sow.en = false ∧ runs 0x0902 [] (par 64 [(0, 8, 1)]) = true ∧
      ((opens 0x600000000000).writeRecord 1 (openRecordOf (opens 0x600000000000) openCmd)).2 = none ∧
      runsIn (sowing 0x7FFFFFFFFE00) 0x0902 [] (par 64 [(0, 8, 1)]) = true ∧
      ((opens 0x7FFFFFFFFE00).writeRecord 1 (openRecordOf (opens 0x7FFFFFFFFE00) openCmd)).2.isSome = true) ∧
    (buddied.buddyUp = true ∧ buddied.net.coordValid = true) ∧
    (runs 0x0801 [] (par 64 []) && runsIn (due 0 0) 0x0801 [] (par 64 []) && runs 0x0802 [] (par 64 [])) = true ∧
    ((due 0 0).hrv.state = 0 ∧ (due 0 0).captureQuiet = true ∧ (due 0 1).captureQuiet = true ∧
      (due 0 0).takePoint.readRegions.2 = .inl [] ∧ (due 0 1).takePoint.readRegions.2 = .inr 0x7FFFFFFFFF00 ∧
      ({ due 0 0 with hrv := { (due 0 0).hrv with area := 0 } } : State).harvestFits [] = false) ∧
    ((harvestIn 1 0 0).hrv.state = 1 ∧ (harvestIn 2 3 0).hrv.left = 0 ∧ (harvestIn 2 3 1).hrv.left ≠ 0 ∧
      (harvestIn 2 3 0).hrv.waits = false ∧ (harvestIn 2 5 0).hrv.phase = 5 ∧ (harvestIn 2 6 0).hrv.phase = 6 ∧
      (harvestIn 2 7 0).hrv.phase = 7 ∧ ({ (harvestIn 2 3 0).hrv with waits := true } : Harvest).waits = true) := by
  decide +kernel

theorem image_length (s : State) : s.image.length < 0x2000000 := by
  have h : ∀ l : List Nat, (l.flatMap (fun i => leBytes 8 (s.imageWord (8 * i)).toNat)).length = 8 * l.length := by
    intro l
    induction l with
    | nil => rfl
    | cons i l ih =>
      rw [List.flatMap_cons, List.length_append, ih]
      simp [leBytes]
      omega
  unfold State.image
  rw [h, List.length_range]
  decide

/-- The image is written: the copy may begin. -/
theorem witness_HarvestCaptures : (due 0x600000100000 0).hrv.stage.toNat = 0x600000100000 ∧
    (((due 0x600000100000 0).takePoint.readRegions.1).devWrite 0x600000100000
      ((due 0x600000100000 0).takePoint.readRegions.1).image).2 = none :=
  ⟨by decide +kernel, devWrite_store _ _ (Nat.lt_trans (image_length _) (by omega)) (fun a h1 h2 => by
    simp only [State.gone, State.homeOf, locate_store ⟨h1, h2⟩]
    decide +kernel)⟩

theorem witness_HarvestFits : (due 0 0).harvestFits [] = true := by decide +kernel

/-- Hold area 0, in factor die 0's store, holds the manifest, and its source has asked for the check. -/
def held (m : List Byte) : State :=
  let s : State := { State.reset with hrv := { State.reset.hrv with
    hold := 0x600000000000, area := 0x4000000, checks := [{ packet 1 0 with addr := 0x600000000010 }] } }
  (s.devWrite 0x600000000000 m).1
def heldIn (m : List Byte) : State := ((held m).readManifest ((held m).holdArea 0)).1

theorem witness_HarvestTallies :
    ([manifest0 0, manifest0 1, manifest1].all (fun m =>
      ((held m).hrv.checks.find? (fun k => k.addr.toNat == (held m).stateWord 0)).isSome
        && decide (((held m).readManifest ((held m).holdArea 0)).2 = .inl m))) = true ∧
    (leField (manifest0 0) 0 2 == 1 && leField (manifest0 0) 0x16 1 == 0) = true ∧
    (leField (manifest0 1) 0x16 1 == 0) = false ∧ (leField manifest1 0 2 == 1 && leField manifest1 0x16 1 == 0) = true ∧
    ((heldIn (manifest0 0)).checkShards ((held (manifest0 0)).holdArea 0) (indexed (shardsOf (manifest0 0)))).2 = none ∧
    ((heldIn manifest1).checkShards ((held manifest1).holdArea 0) (indexed (shardsOf manifest1))).2 = some (.inl 0) :=
      by
  decide +kernel

/-- Hold area 0, in HBM, holds a COMPLETE Harvest. -/
def complete : State := (({ State.reset with hrv := { State.reset.hrv with area :=
    0x4000000 } } : State).devWrite 0 (manifest0 1)).1

theorem witness_HarvestsAreDrainedAndRestored :
    (runsIn complete 0x0803 [] (par 64 []) = true ∧ (readyIn complete 0x0803 [] (par 64 [])).drainArea 0 = some 0 ∧
      (readyIn complete 0x0803 [] (par 64 [])).runningCmd 1 = none ∧
      runs 0x0803 [] (par 64 []) = true ∧ (readyIn State.reset 0x0803 [] (par 64 [])).drainArea 0 = none) ∧
    (runs 0x0804 [] (par 64 []) = true ∧ (readyIn State.reset 0x0804 [] (par 64 [])).quiescent = true ∧
      runsIn (tile0 running) 0x0804 [] (par 64 []) = true ∧ (readyIn (tile0 running) 0x0804 [] (par 64 [])).quiescent
        = false) ∧
    ([0x0803, 0x0804].all (fun op =>
      decide ((holding State.reset (cmd1 .running op [] (par 64 []))).runningCmd 1 = some (cmd1 .running op [] (par 64
        [])))
        && decide ((cmd1 .running op [] (par 64 [])).op = op))) = true := by
  decide +kernel

/-- A restore from the node host has read the mirror ring. -/
def restoring : Restore := ⟨1, 2, 0, 0, [], [], none⟩
def restore (source : Nat) : Cmd := cmd1 .running 0x0804 [] (par 64 [(0, 1, source)])
/-- It runs on a device of coordinate 0 whose mirror ring has a record. -/
def restores (source : Nat) : State :=
  let s := holding State.reset (restore source)
  { s with hrv := { s.hrv with restore := some restoring }, sow := { s.sow with records := 1 } }

theorem witness_RestoresGoOn :
    [0, 1].all (fun x => (restores x).runningCmd 1 == some (restore x)) = true ∧
      (restores 1).hrv.restore = some restoring ∧
    (restore 0).op = 0x0804 ∧ restoring.left = 0 ∧ ({ restoring with left := 1 } : Restore).left ≠ 0 ∧
      restoring.err = none ∧
    ({ restoring with err := some 0x27 } : Restore).err = some 0x27 ∧ (restore 0).fromHost = false ∧
    (restore 1).fromHost = true ∧ (restores 1).manifestFits (manifest0 1) ((restore 1).u 8 8) = true ∧
    (restores 1).manifestFits (manifest0 0) ((restore 1).u 8 8) = false ∧
    ((readyIn State.reset 0x0804 [] (par 64 [])).quiescent = true ∧ (readyIn State.reset 0x0804 [] (par 64
      [])).hrv.restore = none ∧
      runsIn (restores 1) 0x0804 [] (par 64 []) = true) := by
  decide +kernel

/-! ## Witnesses: errors, Gleaning, resets, clocks, security and power -/

/-- Debug mode on die 0. -/
def debugging : State := State.reset.setDie 0 { State.reset.die 0 with debug := true }

theorem witness_ErrorsAreLoggedAndFreed :
    railed.diesUp = true ∧ State.reset.diesUp = false ∧
    (1 : BitVec 64).getLsbD 0 = true ∧ (2 : BitVec 64).getLsbD 0 = false ∧
    runs 0x0D02 [] (par 64 [(0, 2, 1)]) = true ∧ State.reset.verdictsGiven = true ∧ State.reset.alm.season.toNat ≠ 1 ∧
    (let s : State := almIs { State.reset.alm with now := 1 }
     runsIn s 0x0D02 [] (par 64 []) = true ∧ (cmd1 .ready 0x0D02 [] (par 64 [])).u 0x10 8 < s.alm.now.toNat) ∧
    (runs 0x0D02 [] (par 64 []) = true ∧ State.reset.alm.now.toNat ≤ (cmd1 .ready 0x0D02 [] (par 64 [])).u 0x10 8) ∧
    (reachesIn debugging 0x0D04 0 (par 64 []) = true ∧ (readyIn debugging 0x0D04 [0] (par 64 [])).diagOk 0 = true ∧
      reachesIn State.reset 0x0D04 0 (par 64 []) = true ∧ (readyIn State.reset 0x0D04 [0] (par 64 [])).diagOk 0 =
        false) ∧
    ({ State.reset.clk with armed := true } : Clocks).armed = true := by
  decide +kernel

/-- The rails named rise by a step from 0. -/
def raised : State := (allBlocks.filter (fun b => b == 3)).foldl State.raiseRail State.reset

theorem witness_GleaningRuns :
    (runs 0x0B01 [] (par 64 []) && runs 0x0B02 [] (par 64 []) && runs 0x0B03 [] (par 64 [])
      && runsIn maint 0x0D05 [0] (par 64 [])) = true ∧
    (State.reset.alm.windows.filter (fun w => !w.isOpen)).length < 4 ∧
    4 ≤ ((List.replicate 4 (⟨0, 0, 0, false⟩ : GleanWin)).filter (fun w => !w.isOpen)).length ∧
    (State.reset.glean.tasks.getLsbD 2 = true ∧ State.reset.glean.tasks.getLsbD 3 = true ∧
      (State.reset.die 31).retired = false ∧
      (State.reset.tile 31 143).loadable = true ∧
      ((List.range 144).filter (fun t => (State.reset.tile 0 t).untested)) = [] ∧
      ((List.range 144).filter (fun t => ((tile0 { Tile.reset with untested := true }).tile 0 t).untested)) = [0]) ∧
    (State.reset.glean.telAt + State.reset.glean.telPeriod.toNat ≤ State.reset.alm.total ∨
      State.reset.alm.total < State.reset.glean.telAt + State.reset.glean.telPeriod.toNat) ∧
    (raised.glean.hours = 24 ∧ raised.trimUnsaved = true ∧ State.reset.trimUnsaved = false) ∧
    ({ State.reset.glean with telEn := true } : Glean).telEn = true := by
  decide +kernel

def powered : State :=
  { hosted with clk := { hosted.clk with step := .ready }, pwr := { hosted.pwr with cbus := true, qbus := 15 } }

def clocked (step : BootStep) : State := { State.reset with clk := { State.reset.clk with step := step } }

theorem witness_ResetsRunTheirSequence :
    State.reset.pwr.resetN = false ∧ State.reset.pwr.standby = true ∧
    ({ State.reset.pwr with resetN := true } : Power).resetN = true ∧
    (clocked .crystalWait).clk.step = .crystalWait ∧ vinOk State.reset.pwr.vin.toNat = false ∧
    vinOk ({ State.reset.pwr with vin := 48000 } : Power).vin.toNat = true ∧
    ((clocked .crystalHung).clk.step = .crystalHung ∧ ((clocked .crystalHung).escape .wclk).clk.oscRetries < 5 ∧
      5 ≤ (({ State.reset with clk := { State.reset.clk with oscRetries :=
        5 } } : State).escape .wclk).clk.oscRetries) ∧
    (clocked .starting).clk.step = .starting ∧ (clocked .starting).endLoad.clk.step = .starting ∧
    (clocked .crystalWait).endLoad.clk.step = .crystalWait ∧
    (let s : State := { clocked .loading with opt := { State.reset.opt with load := 1 } }
     s.clk.step = .loading ∧ s.opt.load ≠ 0 ∧ s.clk.loop < 4 ∧
       ({ s with clk := { s.clk with passes := false } } : State).clk.passes = false) ∧
    (let c : Clocks := { State.reset.clk with armed := true, due := [(2, 0xFF), (1, 5)] }
     c.due = (2, 0xFF) :: [(1, 5)] ∧ c.armed = true ∧ State.reset.clk.armed = false) ∧
    (clocked .wclkLost).clk.step = .wclkLost := by
  decide +kernel

def clocksRun : State :=
  { hosted with clk := { hosted.clk with step := .ready, ref156 := true, wclkOk := true, bypass := [(1,
    clockNum .cclk)] } }

theorem witness_LostClocksAreCaught :
    clocksRun.pllRuns (clocksRun.dieOf 0) .cclk = true ∧ State.reset.pllRuns (State.reset.dieOf 0) .cclk = false ∧
    clocksRun.clk.ref156 = true ∧ State.reset.clk.ref156 = false ∧ clocksRun.clk.wclkOk = true ∧
    State.reset.clk.wclkOk = false ∧ Clock.cclk ≠ .ref156 ∧ Clock.cclk ≠ .wclk ∧
    (clocksRun.clk.misses .cclk (clocksRun.clk.expected .cclk / 2 - 1) = true ∧
      clocksRun.clk.misses .cclk (clocksRun.clk.expected .cclk) = false ∧ clocksRun.clk.misses .ref156 625 = false) ∧
    ({ State.reset.clk with almWas := some 0 } : Clocks).almWas = some 0 ∧
    clocksRun.clk.bypass.contains (clocksRun.dieOf 1, clockNum .cclk) = true ∧
    (clocksRun.clk.bypass.filter (fun e => e != (1, clockNum .cclk))).any (fun e => e.1 == 1) = false ∧
    ([(1, clockNum .cclk), (1, clockNum .hclk)].filter (fun e => e != (1,
      clockNum .cclk))).any (fun e => e.1 == 1) = true := by
  decide +kernel

/-- Fuse words as the shadow holds them; the maker's words count as failed, so that none is open. -/
def fused (l : Table (BitVec 32)) (lost : List Nat) : State :=
  { maint with fuse := { maint.fuse with shadow := l, lostWords := lost } }
def blowsKind (kind slot : Nat) (l : Table (BitVec 32)) : Bool := runsIn (fused l []) 0x0E03 [] (par 64 [(0, 1,
    kind), (2, 2, slot)])

theorem witness_OptionAndSecurityCommandsRun :
    (let v : BitVec 64 := 0x4F50000000000001
     (v.getLsbD 0 && bits v 63 48 == 0x4F50 && maint.maint) = true ∧ (fused [(13, 0x100)] []).ostoreLock = true ∧
       (fused [] []).ostoreLock = false ∧ ((0 : BitVec 64).getLsbD 0 && bits (0 : BitVec 64) 63 48 == 0x4F50 &&
         maint.maint) = false) ∧
    (runs 0x0E01 [] (par 64 []) && runs 0x0E02 [] (par 64 []) && blowsKind 1 0 [] && blowsKind 3 0 []
      && runsIn (fused [] []) 0x0E04 [] (par 64 [(0, 8, 0x600000000000)])
      && runsIn (fused [] []) 0x0E04 [] (par 64 [(0, 8, 0x7FFFFFFFFF00)])) = true ∧
    (fused [] []).idValid = false ∧ (fused [] []).slotRemains 0 = false ∧
    ((fused [] []).fuse.job = none ∧ (fused [] []).fieldBits 1 0 ≠ []) ∧
    ((fused [] []).devRead 0x600000000000 288).2.err = none ∧
    ((fused [] []).devRead 0x7FFFFFFFFF00 288).2.err.isSome = true ∧
    (fused [] []).provisionFails (List.replicate 288 0) = some 1 ∧
    ((fused [] []).pwr.standby = true ∧ jtagAllowed (fused [(13, 7)] []).debugLevel .bypass = true ∧
      jtagAllowed (fused [(13, 7)] []).debugLevel .boundaryScan = false) ∧
    (clocked .ready).wardenOn = true := by
  decide +kernel

/-- Two words are to be blown; the first takes `left` beats more, and its second copy may fail. -/
def blowJob (left : Nat) (miss : Option FuseMiss) : FuseJob := ⟨1, [(13, 4), (14, 1)], [], miss, left⟩
def blowing (left : Nat) (miss : Option FuseMiss) : State :=
  let s := holding (fused [] []) (cmd1 .running 0x0E03 [] (par 64 []))
  { s with fuse := { s.fuse with job := some (blowJob left miss) } }

theorem witness_BlowsGoOn :
    runsIn { fused [] [] with fuse := (blowing 1 none).fuse } 0x0E03 [] (par 64 []) = true ∧
    runsIn { fused [] [] with fuse := (blowing 1 none).fuse } 0x0E04 [] (par 64 []) = true ∧
    (blowing 1 none).fuse.job.isSome = true ∧ (blowJob 1 none).todo = (13, 4) :: [(14, 1)] ∧ [(14,
      (1 : BitVec 32))] ≠ [] ∧
    1 < (blowJob 2 none).left ∧ (blowJob 1 none).left ≤ 1 ∧
    ((blowing 1 (some ⟨13, true, 0⟩)).blowWord 13 4 (some ⟨13, true, 0⟩)).2 = false ∧
    ((blowing 1 none).blowWord 13 4 none).2 = true ∧
    (blowing 1 none).runningCmd 1 = some (cmd1 .running 0x0E03 [] (par 64 [])) ∧
    (let s := blowing 1 none
     let s1 := ({ s with fuse := { s.fuse with job := none } } : State).shadowWords []
     ¬s.debugLevel < s1.debugLevel ∧ s1.runningCmd 1 = some (cmd1 .running 0x0E03 [] (par 64 []))) ∧
    (let s := { blowing 1 none with fuse := { (blowing 1 none).fuse with job := some { blowJob 1 none with done :=
      [(13, 1)] } } }
     let s1 := ({ s with fuse := { s.fuse with job := none } } : State).shadowWords [(13, 1)]
     s.debugLevel < s1.debugLevel ∧ s1.levelRaised.runningCmd 1 = some (cmd1 .running 0x0E03 [] (par 64 []))) ∧
    ((fused [] []).ostoreLock = false ∧ (fused [] []).opt.writes.any (·.host) = false) := by
  decide +kernel

theorem witness_BusesAnswer :
    powered.diesUp = true ∧ (clocked .ready).opt.load = 0 ∧ (BitVec.ofNat 7 (clocked .ready).optI3c).toNat = (clocked
      .ready).optI3c ∧
    (BitVec.ofNat 7 ((clocked .ready).optI3c + 1)).toNat ≠ (clocked .ready).optI3c ∧ State.reset.sd.gpio = false ∧
    ({ State.reset.sd with gpio := true } : Steward).gpio = true := by
  decide +kernel

/-- Word 12 is no word that the maker writes. -/
theorem witness_IdentityIsValid : (fused [(12, 0x11)] [17]).idValid = true ∧
    (fused [(12, 0x31), (13, 0x10000)] []).slotRemains 0 = true := by
  decide +kernel

theorem witness_PowerAndCoolingAreWatched :
    powered.wardenOn = true ∧ vinOk 44000 = true ∧ vinOk 56000 = true ∧ vinOk 43999 = false ∧ vinOk 56001 = false ∧
    vinOk 35999 = false ∧ powered.clk.step ≠ .waitVin ∧ (clocked .waitVin).wardenOn = true ∧ powered.pwr.rails = true ∧
    (clocked .ready).wardenOn = true ∧ (clocked .ready).pwr.rails = false ∧
    powered.railOn (powered.dieOf 0) = true ∧ powered.busOn 4 = true ∧ powered.busOn 3 = true ∧
    (powered.pwr.pinLow = true ∧ powered.pwr.coolGone = false) ∧ ({ powered.pwr with coolGone :=
      true } : Power).coolGone = true ∧
    booted.sd.boot = 2 ∧ (powered.pwr.rails = true ∧ ({ powered.pwr with pinLow := true } : Power).pinLow = true) ∧
      powered.pwr.limiting = false ∧ ({ powered.pwr with limiting := true } : Power).limiting = true := by
  decide +kernel

/-- A detection of code 0x20 has been recorded. -/
def detected : State := { readyIn State.reset 0x0D03 [] (par 64 []) with
  wseal := (State.reset.wseal.record 5 0 3 0x20 0) }

theorem witness_SealReleaseObeysItsConditions :
    runs 0x0D03 [] (par 64 []) = true ∧ (readyIn State.reset 0x0D03 [] (par 64 [])).anyHandler = false ∧
    (readyIn State.reset 0x0D03 [] (par 64 [])).quiescent = true ∧
    runsIn (tile0 running) 0x0D03 [] (par 64 []) = true ∧ (readyIn (tile0 running) 0x0D03 [] (par 64 [])).quiescent =
      false ∧
    (State.reset.setDie 0 { State.reset.die 0 with errs := { (State.reset.die 0).errs with handling :=
      true } }).anyHandler = true ∧
    (detected.canRun 1 0x0D03 (cmd1 .ready 0x0D03 [] (par 64 [])) = true ∧ detected.quiescent = true ∧
      detected.wseal.entries.any (fun e => e.kind == 0 && e.season == 0 && decide (1 ≤ e.beat.toNat) && decide
        (e.beat.toNat ≤ 9)) = true) := by
  decide +kernel

theorem witness_ForbiddenAccessesAreDenied :
    mapped.hostUp = true ∧ mapped.sd.bars = true ∧ mapped.sd.boot = 2 ∧
    mapped.mapForbids (blockBits false (60 * 2 ^ 24 % 2 ^ 30 / 2 ^ 24)) = true ∧
    mapped.mapForbids (blockBits false ((60 * 2 ^ 24 - 1 + (2 - 1)) % 2 ^ 30 / 2 ^ 24)) = true ∧
    mapped.mapForbids (targetBits false (mapped.locate 0)) = true ∧
    mapped.mapForbids (targetBits true (mapped.locate 0x400000000000)) = true ∧
    mapped.mapForbids (targetBits true (mapped.locate 0)) = false := by
  decide +kernel

/-! ## A key bundle that every check passes -/

/-- A bundle for slot 2 signed with slot 1's key over brainpoolP384r1, made outside the model. -/
def keyBundle : List Byte :=
  leBytes 288 (0xdec7b54706a9ba8fd97f8810ae40ed3013ef4a62b45dcfe58d8fe7048db19ce8640e4cdfb8253eca2ed5c5b158fa2684102fe3e3d7e59886a2e87081728d198ac79347c9efff340e1ac398e7328f7fdff319a72c920ad8fb236f126d825770850000000000000000000000000000000000000000000000d12973ae837e0d308d754365ce07bd28f8b2b05ecdf979b1c36d6ae3266de53f36f853c94ba91ced9a572a0d266c033f9d53690ecba206a3400d7ed84b08130c8d8607d340d0f472d170b2f2e5a87b7695046ce55dbe197f18784f85504d685304939291908f8e8d8c8b8a898887868584838281807f7e7d7c7b7a797877767574737271706f6e6d6c6b6a6968676665640f0e0d0c0b0a090807060504030201000000000000000102)

/-- The fuses of the device it is for. -/
def signed : State := fused
  [(0, 0x3020100), (1, 0x7060504), (2, 0xB0A0908), (3, 0xF0E0D0C), (12, 0x31), (29, 0x66A8CC86), (30, 0x5A1315CD),
    (31, 0xFA6310FA), (32, 0x87477D77), (33, 0x5C5E064B), (34, 0x8588A12B), (35, 0x277D61ED), (36, 0x3788145D), (37,
    0x7CE718EC), (38, 0x23EC5AC7), (39, 0xBC514024), (40, 0x4F681739)]
  [0, 1, 2, 3]

theorem witness_KeyBundlePasses : signed.provisionFails keyBundle = none ∧
    (provisionBits keyBundle).all (fun e => (signed.blowWord e.1 e.2 none).2) = true := by
  decide +kernel

/-! ## Witnesses: packets, the queue, memory and fuses -/

def crossingOf (k : Packet) : Crossing := ⟨3, 0, 0, k⟩
def awaited : RemoteReq := ⟨.agent 60 1, 1, 1, 0, 0, 32, List.replicate 32 5⟩
def requested : Packet := { packet 1 0 with dest := 1, addr := 0, arg := awaited.argOf }

theorem witness_PacketsAreForwarded :
    (let k := packet 1 0
     ([crossingOf k].find? (fun x => x.pkt == k && (portLds x.port).contains (portLd 0)) = some (crossingOf k) ∧
       inFlow (·.pkt) (crossingOf k) [crossingOf k] = true) ∧
     ([(0, 0, k)].find? (fun e => e.2.2 == k && (portLds e.1).contains (portLd 0)) = some (0, 0, k) ∧
       inFlow (fun x => x.2.2) (0, 0, k) [(0, 0, k)] = true) ∧
     [(0, 0, k)].find? (fun e => e.2.2 == k) = some (0, 0, k) ∧ placed.net.coordValid = true ∧
       placed.net.crossing = [] ∧
     placed.net.arrived = [] ∧ placed.net.parked = [] ∧ [k].contains k = true ∧ inFlow id k [k] = true ∧
     placed.net.out.contains k = false) ∧
    (∃ k, awaited.is k = true) ∧
    (let s := State.reset.setRem (7 * 4096 + 4095) { State.reset.rem 0 with busy := some (.agent 0 0) }
     let s : State := { s with alm := { s.alm with total := 0xFFFFF } }
     (s.rem (7 * 4096 + 4095)).busy.isSome = true ∧
       (s.rem (7 * 4096 + 4095)).since + s.net.reqTimeout.toNat ≤ s.alm.total ∧
       State.reset.alm.total < (State.reset.rem 0).since + State.reset.net.reqTimeout.toNat) := by
  refine ⟨?_, ⟨requested, ?_⟩, ?_⟩ <;> decide +kernel

theorem witness_StepRunsTheFrontCommand : ({ State.reset with pending :=
    [.beatBoundary] } : State).pending = [.beatBoundary] ∧
    State.reset.pending = [] := ⟨rfl, rfl⟩

theorem witness_CommandsLeaveTheQueue : ∃ t, exec .beatBoundary State.reset = .next t := ⟨_, rfl⟩

/-- No bit of either copy is blown. -/
def unblown : State := { State.reset with fuse := { State.reset.fuse with copy0 := [], copy1 := [] } }

theorem witness_StepsKeepTheReservedFuses : unblown.fusesOk ∧ step unblown = .next unblown :=
  ⟨⟨fun _ => by simp [unblown, Table.get, Table.find], fun _ => by simp [unblown, Table.get, Table.find], fun _ h => by
    simp [unblown, State.reset, Fuses.reset] at h⟩, rfl⟩

theorem witness_BlownFusesStayBlown : step State.reset = .next State.reset := rfl

theorem witness_MemoryKeepsWhatIsWritten : Memory.wf [(3, 1), (7, 0xFF)] = true ∧ (2 < 3 ∨ 3 + 4 ≤ 2) ∧ (7 < 3 ∨
    3 + 4 ≤ 7) := by
  decide

theorem witness_WindowsStandAtTheirAddresses : 31 < 32 ∧ 143 < 144 ∧ 0x12000000 < 2 ^ 32 ∧ 0x3FFFFFF < 0x4000000 ∧
    144 * 2 ^ 21 = 0x12000000 := by
  decide

theorem witness_InterleavesAreOneToOne : 0x011FFFFFFFFF < 0x012000000000 := by decide

theorem witness_ParametersAreBroughtToLegalValues :
    1 ≤ 4096 ∧ 0 < 64 ∧ 64 % 64 = 0 ∧ 4096 % 64 = 0 ∧ ([2, 4, 8] : List Nat) ≠ [] ∧ 4 ∈ [2, 4, 8] := by
  decide

/-! ## Single steps -/

/-- What an execute instruction leaves in tile 0 once the cycles up to `n` have passed. -/
def after (i : Instr) (s : State) (n : Nat) : Option Tile :=
  match exec i s with
  | .next t => some ((t.land 0 0 n).tile 0 0)
  | _ => none

def scalars (l : Table (BitVec 64)) (q : QEntry) : State := tile0 { running with eq := [q], ctx0 :=
    { Ctx.reset with sregs := l } }

/-- S[3] after the scalar instruction in cycle 10 and the cycles up to 20. -/
def scalarOf (i : Instr) (l : Table (BitVec 64)) (opc low : Nat) : Option (BitVec 64) :=
  (after i (scalars l (entry 0 opc low)) 20).map (fun T => T.sreg false 3)

/-- R140: INT32 ADD wraps and its result is sign-extended; S3 ← S1 + S2. -/
theorem test_sia_wraps :
    scalarOf (.sia 0 0 10) [(1, 0x7FFFFFFF), (2, 1)] 0 (3 * 2 ^ 47 + 1 * 2 ^ 42 + 2 * 2 ^ 37 + 1 * 2 ^ 33)
      = some 0xFFFFFFFF80000000 := by
  decide +kernel

/-- R140: 1.0 + (−1), the immediate converted exactly, is +0. -/
theorem test_sfa_immediate :
    scalarOf (.sfa 0 0 10) [(1, 0x3FF0000000000000)] 1 (3 * 2 ^ 47 + 1 * 2 ^ 42 + 2 ^ 30 + 0x3FFF * 2 ^ 16) = some 0
      := by
  decide +kernel

/-- R140: an FP32 result is zero-extended and the sources' upper halves are ignored; 1.0 + 2.0 = 3.0. -/
theorem test_sfa_fp32 :
    scalarOf (.sfa 0 0 10) [(1, 0xFFFFFFFF3F800000), (2, 0x40000000)] 1 (3 * 2 ^ 47 + 1 * 2 ^ 42 + 2 * 2 ^ 37 + 1 * 2
      ^ 33)
      = some 0x40400000 := by
  decide +kernel

/-- R140: quarter 1 is written, the others kept or zeroed. -/
theorem test_sli_quarters :
    scalarOf (.sli 0 0 10) [(3, 0x1111222233334444)] 5 (1 * 2 ^ 52 + 3 * 2 ^ 47 + 0xABCD * 2 ^ 16) = some
      0x11112222ABCD4444 ∧
    scalarOf (.sli 0 0 10) [(3, 0x1111222233334444)] 5 (5 * 2 ^ 52 + 3 * 2 ^ 47 + 0xABCD * 2 ^ 16) = some 0xABCD0000
      := by
  decide +kernel

/-- R140: a NaN converts to the most negative integer. -/
theorem test_scvt_nan :
    scalarOf (.scvt 0 0 10) [(1, 0x7FF8000000000000)] 4 (3 * 2 ^ 47 + 1 * 2 ^ 42) = some 0x8000000000000000 := by
  decide +kernel

/-- R102: S1 = 1,000 in FP64 and one register gives 64 elements. -/
theorem test_vsetvl_limits :
    (after (.vsetvl 0 0 10) (scalars [(1, 1000)] (entry 3 0 (low 0 3 1 0 0))) 20).map (fun T => (T.ctx0.vl,
      T.sreg false 3))
      = some (64, 64) := by
  decide +kernel

/-- R133, R155: a branch at word 4 with offset −2 goes on at word 2. -/
theorem test_branch_back :
    (after (.br 0 0 10) (brAt 0 (2 ^ 21 - 2) 5) 20).map (fun T => T.ctx0.pc) = some 2 := by
  decide +kernel

/-- R157: ENGINE 0b111 is skipped and logged. -/
theorem test_ill_engine_logs :
    (match exec (.illEngine 0 0 10) (execAt 7 0 0) with
     | .next t => ((t.die 0).errs.logged, (t.tile 0 0).eq.length)
     | _ => (0, 1)) = (1, 0) := by
  decide +kernel

/-- R309, R310: the beat after 41 is 42, and each die counts on from its own copy. -/
theorem test_beat_counts :
    (match exec .beatBoundary (almIs { State.reset.alm with now := 41 }) with
     | .next t => (t.alm.now.toNat, (t.almOf 31).now.toNat)
     | _ => (0, 0)) = (42, 1) := by
  decide +kernel

/-- The published check values of CRC-32 and SHA-384. -/
theorem test_digests :
    crc32 [0x31, 0x32, 0x33, 0x34, 0x35, 0x36, 0x37, 0x38, 0x39] = 0xCBF43926 ∧
    beNat (sha384 [0x61, 0x62, 0x63]) =
      0xCB00753F45A35E8BB5A03D699AC65007272C32AB0EDED1631A8B605A43FF5BED8086072BA1E7CC2358BAECA134C825A7 := by
  decide +kernel

/-- A queue of two commands: the first runs, the second waits. -/
theorem test_step_takes_the_front :
    (match step { State.reset with pending := [.beatBoundary, .fuseParity] } with
     | .next t => (t.alm.now, t.pending)
     | _ => (0, [])) = (1, [.fuseParity]) := by
  decide +kernel

/-! ## Witnesses: numbers

The premises of the clauses that give numbers, met by 0, 1, −1 and the values at the ends of the ranges. -/

theorem FVal.is_one {v : FVal} {n : Bool} {m : Nat} {e : Int} {x : ℝ} (h : v = .fin n m e)
    (hx : x = (if n then -1 else 1) * (m * 2 ^ e)) : v.is x := ⟨n, m, e, h, hx⟩

/-- Codes of 0, 1, −1 and 2 in FP64 and FP32. -/
theorem codes_are_numbers :
    (fp64.decode 0).is 0 ∧ (fp64.decode 0x3FF0000000000000).is 1 ∧ (fp64.decode 0xBFF0000000000000).is (-1) ∧
    (fp32.decode 0).is 0 ∧ (fp32.decode 0x3F800000).is 1 ∧ (fp32.decode 0xBF800000).is (-1) ∧
    (fp32.decode 0x40000000).is 2 := by
  refine ⟨⟨false, 0, -1074, by decide +kernel, by norm_num⟩, ⟨false, 2 ^ 52, -52, by decide +kernel, ?_⟩,
    ⟨true, 2 ^ 52, -52, by decide +kernel, ?_⟩, ⟨false, 0, -149, by decide +kernel, by norm_num⟩,
    ⟨false, 2 ^ 23, -23, by decide +kernel, ?_⟩, ⟨true, 2 ^ 23, -23, by decide +kernel, ?_⟩,
    ⟨false, 2 ^ 23, -22, by decide +kernel, ?_⟩⟩ <;> norm_num

def zero : FVal := .fin false 0 0
def one : FVal := .fin false 1 0
def less : FVal := .fin true 1 0
def quiet : FVal := .nan true false 5

theorem values_are_numbers : zero.is 0 ∧ one.is 1 ∧ less.is (-1) :=
  ⟨⟨false, 0, 0, rfl, by norm_num⟩, ⟨false, 1, 0, rfl, by norm_num⟩, ⟨true, 1, 0, rfl, by norm_num⟩⟩

theorem witness_NumbersAreComputed :
    ((1 : ℝ) + 1 ≠ 0 ∧ (1 : ℝ) + -1 = 0 ∧ (1 : ℝ) - -1 ≠ 0 ∧ (1 : ℝ) - 1 = 0 ∧ (1 : ℝ) * 1 ≠ 0 ∧ (0 : ℝ) * 1 = 0 ∧
      (1 : ℝ) * 1 + 1 ≠ 0 ∧ (1 : ℝ) * 1 + -1 = 0 ∧ (0 : ℝ) < 1 ∧ (-1 : ℝ) < 0) ∧
    [quiet, one].find? FVal.isNan = some (.nan true false 5) ∧ [one, zero,
      quiet].find? FVal.isNan = some (.nan true false 5) := by
  refine ⟨by norm_num, ?_⟩
  decide

/-- Numbers at and beyond the ends of a 32-bit integer. -/
theorem witness_ConversionsMeetTheirRange :
    (fp64.decode 0x41DFFFFFFFC00000 = .fin false (2 ^ 53 - 2 ^ 22) (-22) ∧
      fp64.decode 0x41E0000000000000 = .fin false (2 ^ 52) (-21) ∧ fp64.decode 0xC1E0000000200000 = .fin true (2 ^ 52
        + 2 ^ 21) (-21)) ∧
    Rm.nearest.rounds false (2 ^ 31 - 1) 1 ((2 ^ 53 - 2 ^ 22 : Nat) * 2 ^ (-22 : Int)) ∧
    Rm.nearest.rounds false (2 ^ 31) 1 ((2 ^ 52 : Nat) * 2 ^ (-21 : Int)) ∧
    Rm.nearest.rounds true (2 ^ 31 + 1) 1 ((2 ^ 52 + 2 ^ 21 : Nat) * 2 ^ (-21 : Int)) := by
  refine ⟨by decide +kernel, ?_, ?_, ?_⟩ <;> norm_num [Rm.rounds]

/-- A block that the MMA takes, and one that a VQPOP takes, is a placeholder. -/
def holed (s : State) : State :=
  let T := s.tile 0 0
  let empty (b : OqBlock) : OqBlock := { b with hole := true, data := [] }
  s.setTile 0 0 { T with oqm := T.oqm.map empty, oqv := T.oqv.map empty }

theorem witness_PlaceholdersAreTaken :
    issues (holed (mmaState 1024)) 2 0 0 (isOpOr 2 0 4) mmaChecks = true ∧
    ((taken (holed (mmaState 1024))).oqm.take 2).any OqBlock.hole = true ∧
    issues (holed (popState 4)) 3 10 (low 0 8 0 0 0) (isOp 3 10) vqpopChecks = true ∧
    (taken (holed (popState 4))).oqv.any OqBlock.hole = true := by
  decide +kernel

/-- Sums of 0, in and beyond the range of the fixed layouts. -/
theorem witness_MatrixSumsAreRounded :
    (List.Forall₂ (fun p x => FVal.is p.1 x.1 ∧ FVal.is p.2 x.2) [(one, one)] [((1 : ℝ), (1 : ℝ))] ∧
      List.Forall₂ FVal.is [zero] [0] ∧ List.Forall₂ FVal.is [less] [-1] ∧
      ([0] : List ℝ).sum + ([((1 : ℝ), (1 : ℝ))].map (fun x => x.1 * x.2)).sum ≠ 0 ∧
      ([-1] : List ℝ).sum + ([((1 : ℝ), (1 : ℝ))].map (fun x => x.1 * x.2)).sum = 0) ∧
    ((∃ w, w72Val layFixed8 w = .fin false (2 ^ 69 - 1) (-32)) ∧ (∃ w, w72Val layFixed8 w = .fin true (2 ^ 69) (-32)) ∧
      fixedLsb layFixed8 = -32 ∧ (2 : Int) ^ 69 ≤ (2 ^ 69 - 1) + (2 ^ 69 - 1) ∧ -(2 : Int) ^ 69 - 2 ^ 69 < -(2 ^ 69)) ∧
    (∃ x y, (e4m3.decode x, e5m2.decode y) = (e4m3.decode 0x38, e5m2.decode 0x3C)) ∧
    (∃ x y, (e2m1.decode x, e2m1.decode y) = (e2m1.decode 2, e2m1.decode 2)) := by
  obtain ⟨h0, h1, hm⟩ := values_are_numbers
  refine ⟨⟨.cons ⟨h1, h1⟩ .nil, .cons h0 .nil, .cons hm .nil, by norm_num, by norm_num⟩,
    ⟨⟨2 ^ 69 - 1, by decide +kernel⟩, ⟨2 ^ 70 - 2 ^ 69, by decide +kernel⟩, by decide, by decide, by decide⟩, ⟨_, _,
      rfl⟩, ⟨_, _, rfl⟩⟩

/-- Lines of one element: sums that agree, that differ, that are no number, and a bound beyond the exponents. -/
theorem witness_LinesAreJudged :
    lineVerdict layFixed8 [(one, ⟨1, 0⟩)] [] [(one, one)] = .pass ∧ lineVerdict layFixed8 [(zero, ⟨1, 0⟩)] [] [(one,
      one)] = .fail ∧
    lineVerdict layFloat [(one, ⟨1, 0⟩)] [(zero, ⟨1, 0⟩)] [(one, one)] = .pass ∧
    lineVerdict layPair [(less, ⟨1, 0⟩)] [(zero, ⟨1, 0⟩)] [(one, one)] = .fail ∧
    lineVerdict layPair [(.inf false, ⟨1, 0⟩)] [] [(one, one)] = .unchecked ∧
    (lineAdd layFloat (.fin false 1 32767) (.fin false 1 32767)).finite = false ∧
    (lineAdd layFixed8 one less).isNan = false ∧ (magAdd layFloat (magAdd layFloat (some ⟨1, 0⟩) (some ⟨1,
      0⟩)) (some ⟨1, 0⟩)).isSome = true ∧
    magAdd layPair (some ⟨1, 1023⟩) (some ⟨1, 1023⟩) = none ∧
    lineRound layFixed8 (sumTerms [mulExact one one]) = one ∧ (0 : Int) < (⟨1, 0⟩ : Dyad).m := by
  decide +kernel

theorem witness_ElementsAreConverted :
    ([0, 1, 2, 3, 4, 5, 6].all (fun k => (fmtOf k).isSome)) = true ∧ ((0 : BitVec 6).getLsbD 0 = false ∧
      (1 : BitVec 6).getLsbD 0 = true) ∧
    (scaleBad 0x3F800000 = false ∧ scaleBad 0 = true) := by
  decide +kernel

/-- Words of the vector formats and functions that the clauses speak of. -/
theorem witness_VectorWords :
    ([0, 1, 2, 3].all (fun k => [0, 6, 12, 13].all (fun fn => vFmt (word 3 1 (low fn 8 0 4 k)) == k && vFunc (word 3 1
      (low fn 8 0 4 k)) == fn
      && (fmtOf k).isSome))) = true ∧
    fmtWidth 2 = 16 ∧ fmtOf (bits (word 3 8 (2 ^ 32)) 35 32) = fmtOf 1 ∧
    (fp32.decode 0x7F800000 = .inf false ∧ fp32.decode 0xFF800000 = .inf true ∧ fp32.decode 0 = .fin false 0 (-149) ∧
      fp32.decode 0xBF800000 = .fin true (2 ^ 23) (-23)) := by
  decide +kernel

/-- Reductions of nothing, of a NaN, of both infinities and of numbers. -/
theorem witness_ReductionsOfEveryKind :
    (let f := fp32
     [(3, 0x7FC00005)].find? (fun x => (f.decode x.2).isNan) = some (3, 0x7FC00005) ∧
       f.decode 0x7FC00005 = .nan false false (5 * 2 ^ 42) ∧
     FVal.inf false ∈ [0x7F800000, 0xFF800000].map f.decode ∧ FVal.inf true ∈ [0x7F800000, 0xFF800000].map f.decode ∧
     [0x7F800000, 0xFF800000, 0x3F800000].all (fun x => !(f.decode x).isNan) = true) ∧
    ([(0, 1), (1, 2)] : List (Nat × Nat)).Pairwise (fun x y => x.1 < y.1) ∧
    laneVal CarryLane.reset = .fin false 0 0 ∧
    (fp64.decode CarryLane.reset.hi.toNat).isNan = false := by
  refine ⟨by decide +kernel, by decide, by decide +kernel, by decide +kernel⟩

/-- One equation each: solved, with a zero pivot, and with a second row below. -/
theorem witness_FactorStepsAreTaken :
    (fxRound 0 0 ⟨1, 0⟩ = .ok (2 ^ 46) ∧ fxRound 0 0 ⟨1, 1⟩ = .error (.breach 0)) ∧
    (luStep 0 1 ([[2 ^ 46]], []) 0 = .ok ([[2 ^ 46]], [0]) ∧ luStep 0 1 ([[0]], []) 0 = .error (.singular 0)) ∧
    (cholStep 0 1 [[2 ^ 46]] 0 = .ok [[2 ^ 46]] ∧ cholStep 0 1 [[0]] 0 = .error (.notSpd 0)) ∧
    (ldltStep 0 0 1 [[2 ^ 46]] 0 = .ok [[2 ^ 46]] ∧ ldltStep 0 0 1 [[0]] 0 = .error (.singular 0)) ∧
    (qrStep 0 1 ([[2 ^ 46]], []) 0 = .ok ([[2 ^ 42]], [0]) ∧
      (qrStep 0 2 ([[2 ^ 46], [2 ^ 46]], []) 0).toBool = true) ∧
    ([0, 1, 2, 3, 4].all (fun k => [false, true].all (fun t =>
      let q : SolveIn := ⟨k, t, 1, 1, 0, 0, [[2 ^ 46]], [0], false, false, 0, 4, 4⟩
      (q.stage1 0 [2 ^ 46]).toBool && (q.stage2 0 [2 ^ 42]).toBool))) = true ∧
    corrected [[0x3FF0000000000000]] [[2 ^ 46]] 0 = .ok [[0x4000000000000000]] ∧
    residuals { descOf [] with n := 1, nrhs := 1 } [[one]] [[0x3FF0000000000000]] [[0x3FF0000000000000]] =
      [[fp64.decode 0]] := by
  decide +kernel

theorem witness_UpdatesAreComputed :
    ([0, 1, 2].all (fun k => (cmd1 .running 0x0303 [] (par 128 [(8, 1, k)])).u 8 1 == k)) = true ∧
      f32fin 0x3F800000 = true ∧
    (f32 0x3F800000).is 1 ∧ (f32 0xBF800000).is (-1) ∧ (f32 0).is 0 ∧ (0 : ℝ) < 1 ∧ (1 : ℝ) * 1 ≠ 0 ∧
      (0 : ℝ) * 1 = 0 := by
  obtain ⟨_, _, _, h0, h1, hm, _⟩ := codes_are_numbers
  exact ⟨by decide +kernel, by decide +kernel, h1, hm, h0, by norm_num, by norm_num, by norm_num⟩

end Sys2Proof.Tests
end

section
/-! The windows of the tile SRAMs and of the factor dies' local stores (R30, R31). -/
namespace Sys2Proof.Machine

/-- Every 4 GiB slot of the tile window belongs to one compute die: below tile 144 it holds that die's SRAMs, above it
is a hole (R30). -/
theorem locate_tileSlot (s : State) {n off : Nat} (hn : n < 32) (hoff : off < 2 ^ 32) :
    s.locate (0x400000000000 + n * 2 ^ 32 + off) =
      if off / 2 ^ 21 < 144 then .sram n (off / 2 ^ 21) (off % 2 ^ 21) else .unmapped := by
  have hrel : 0x400000000000 + n * 2 ^ 32 + off - 0x400000000000 = n * 2 ^ 32 + off := by omega
  have hdie : (n * 2 ^ 32 + off) / 2 ^ 32 = n := by omega
  have hslot : (n * 2 ^ 32 + off) % 2 ^ 32 = off := by omega
  simp only [State.locate, decodeLocal, hrel, hdie, hslot]
  rw [if_neg (by omega), if_pos (by omega)]

/-- Every 4 GiB slot of the store window belongs to one factor die: its first 64 MiB are the store, the rest is a hole
(R31). -/
theorem locate_storeSlot (s : State) {q off : Nat} (hq : q < 4) (hoff : off < 2 ^ 32) :
    s.locate (0x600000000000 + q * 2 ^ 32 + off) = if off < 0x4000000 then .store q off else .unmapped := by
  have hrel : 0x600000000000 + q * 2 ^ 32 + off - 0x600000000000 = q * 2 ^ 32 + off := by omega
  have hdie : (q * 2 ^ 32 + off) / 2 ^ 32 = q := by omega
  have hslot : (q * 2 ^ 32 + off) % 2 ^ 32 = off := by omega
  simp only [State.locate, decodeLocal, hrel, hdie, hslot]
  rw [if_neg (by omega), if_neg (by omega), if_pos (by omega)]

theorem locate_tileSram (s : State) {n t off : Nat} (hn : n < 32) (ht : t < 144) (hoff : off < 2 ^ 21) :
    s.locate (0x400000000000 + n * 2 ^ 32 + t * 2 ^ 21 + off) = .sram n t off := by
  have htile : (t * 2 ^ 21 + off) / 2 ^ 21 = t := by omega
  have hoffset : (t * 2 ^ 21 + off) % 2 ^ 21 = off := by omega
  rw [Nat.add_assoc _ (t * 2 ^ 21), locate_tileSlot s hn (by omega), htile, hoffset, if_pos ht]

theorem locate_tileHole (s : State) {n off : Nat} (hn : n < 32) (hlo : 0x12000000 ≤ off) (hhi : off < 2 ^ 32) :
    s.locate (0x400000000000 + n * 2 ^ 32 + off) = .unmapped := by
  rw [locate_tileSlot s hn hhi, if_neg (by omega)]

theorem locate_factorStore (s : State) {q off : Nat} (hq : q < 4) (hoff : off < 0x4000000) :
    s.locate (0x600000000000 + q * 2 ^ 32 + off) = .store q off := by
  rw [locate_storeSlot s hq (by omega), if_pos hoff]

theorem locate_storeHole (s : State) {q off : Nat} (hq : q < 4) (hlo : 0x4000000 ≤ off) (hhi : off < 2 ^ 32) :
    s.locate (0x600000000000 + q * 2 ^ 32 + off) = .unmapped := by
  rw [locate_storeSlot s hq hhi, if_neg (by omega)]

/-- The address map asks for the interleave only, never for the physical die behind a number. -/
theorem locate_sites (s : State) (sites : Sites) (a : Nat) :
    ({ s with sites := sites } : State).locate a = s.locate a := rfl

end Sys2Proof.Machine

namespace Sys2Proof
open Sys2Proof.Machine

/-- Settles O50: each window is a row of 4 GiB slots, and the offset in the slot says whether it is mapped. -/
theorem windowsStandAtTheirAddresses : Obligations.WindowsStandAtTheirAddresses := fun s =>
  ⟨fun _ _ _ hn ht hoff => locate_tileSram s hn ht hoff, fun _ _ hn hlo hhi => locate_tileHole s hn hlo hhi,
    fun _ _ hq hoff => locate_factorStore s hq hoff, fun _ _ hq hlo hhi => locate_storeHole s hq hlo hhi,
    fun sites a => locate_sites s sites a⟩

end Sys2Proof
end

section
/-! SEAL_RELEASE (R400, R425, R465; log entry 43), and SEAL_VERIFY over a span that holds a detection (R399). -/
namespace Sys2Proof.Machine

/-- Only fields that begin at bit 0 reach it: a word has bit 0 clear when they are all 0. -/
theorem word64_getLsbD_zero {fields : List (Nat × Nat)} (hlow : ∀ e ∈ fields, e.2 = 0 → e.1 = 0) :
    (word64 fields).getLsbD 0 = false := by
  have heven : ∀ e ∈ fields, 2 ∣ e.1 * 2 ^ e.2 := fun e he => by
    by_cases hbit : e.2 = 0
    · simp [hlow e he hbit]
    · exact dvd_mul_of_dvd_right (dvd_pow_self 2 hbit) _
  have hsum : 2 ∣ (fields.map (fun e => e.1 * 2 ^ e.2)).sum :=
    List.dvd_sum (List.forall_mem_map.mpr heven)
  rw [word64, BitVec.getLsbD_ofNat, Nat.testBit_zero, Nat.dvd_iff_mod_eq_zero.mp hsum]
  rfl

/-- A detection logged in the span is counted there, so one check of R399 fails, and RESULT's bit 0, which says that
all of them hold, is 0. -/
theorem State.sealVerify_detected {s : State} {season start stop : Nat} {e : DetEntry} (hlogged : e ∈ s.wseal.entries)
    (hkind : e.kind = 0) (hseason : e.season = season) (hstart : start ≤ e.beat.toNat) (hstop : e.beat.toNat ≤ stop) :
    (s.sealVerify season start stop).getLsbD 0 = false := by
  have hcount : 0 < (s.wseal.entries.filter (fun e => e.kind == 0 && (e.season == season &&
      decide (start ≤ e.beat.toNat) && decide (e.beat.toNat ≤ stop)))).length :=
    List.length_pos_of_mem (List.mem_filter.mpr ⟨hlogged, by simp [hkind, hseason, hstart, hstop]⟩)
  refine word64_getLsbD_zero ?_
  simp [hcount, natOf]

/-- The log of detections stands as it was (R400). -/
@[simp] theorem State.sealRelease_entries (s : State) : s.sealRelease.wseal.entries = s.wseal.entries := rfl

theorem State.exec_sealRelease_of_canRun {s : State} {cid : Nat} {c : Cmd} (hrun : s.canRun cid 0x0D03 c = true) :
    exec (.sealRelease cid) s =
      .next (if s.anyHandler || !s.quiescent then s.reply c stBusy 0 else s.sealRelease.reply c stOk 0) :=
  State.withCmd_canRun hrun _

end Sys2Proof.Machine

namespace Sys2Proof
open Sys2Proof.Machine

/-- Settles O48: whether a handler is open or the device busy picks the reply, and the release leaves the log as it is,
so that SEAL_VERIFY still counts its detections. -/
theorem sealReleaseObeysItsConditions : Obligations.SealReleaseObeysItsConditions := by
  intro cid c s hrun
  have hexec := State.exec_sealRelease_of_canRun hrun
  refine ⟨fun hclosed hquiet => ⟨?_, rfl, rfl, rfl, rfl, rfl, rfl, rfl, ?_⟩, fun hnot => ?_⟩
  · simpa [hclosed, hquiet] using hexec
  · intro season start stop e hlogged hkind hseason hstart hstop
    have hkept : e ∈ s.sealRelease.wseal.entries := by rwa [State.sealRelease_entries]
    exact State.sealVerify_detected hkept hkind hseason hstart hstop
  · rw [hexec, if_pos (by simpa using hnot)]

end Sys2Proof
end

section
/-! Accesses through BAR2 and BAR4 and what the host-window protection map says to them (R333, R443, R444). -/
namespace Sys2Proof.Machine

/-- The device address of an access through BAR2 (bar 1) or BAR4 (bar 2) at an offset (R333). -/
def State.barAddr (s : State) (bar : Fin 3) (off : Nat) : Nat :=
  if bar = 1 then 0x7F0000000000 + off % 2 ^ 30 else s.sd.aper.toNat * 2 ^ 32 + off

/-- HOST_MAP bits that one byte of an access meets: by its control block through BAR2, by its target through BAR4. -/
def State.barBits (s : State) (bar : Fin 3) (write : Bool) (off : Nat) : List Nat :=
  if bar = 1 then blockBits write (off % 2 ^ 30 / 2 ^ 24) else targetBits write (s.locate (s.barAddr bar off))

@[simp] theorem State.mapForbids_append (s : State) (first last : List Nat) :
    s.mapForbids (first ++ last) = (s.mapForbids first || s.mapForbids last) := List.any_append

/-- Through an open window, the map is asked about an access's first and last byte together: the access is denied as a
whole or made as a whole. -/
theorem State.exec_hostBarAccess_of_open {s : State} {bar : Fin 3} {write : Bool} {off : BitVec 34} {len : Nat}
    {data : List Byte} (hbar : bar ≠ 0) (hlen : write = true → data.length = len) (hup : s.hostUp = true)
    (hbars : s.sd.bars = true) (hboot : s.sd.boot = 2) :
    exec (.hostBarAccess bar write off len data) s =
      if s.mapForbids (s.barBits bar write off.toNat ++ s.barBits bar write (off.toNat + (len - 1))) then
        .next (s.deny write (s.barAddr bar off.toNat))
      else .next (s.barAccess write (s.barAddr bar off.toNat) len data) := by
  have hwhole : ¬(write && data.length != len) = true := by simpa using hlen
  have hopen : ¬(!(s.sd.bars && s.sd.boot == 2)) = true := by simp [hbars, hboot]
  change execHostBarAccess bar write off len data s = _
  rw [execHostBarAccess, if_neg hwhole, if_neg (by simp [hup]), if_neg hbar, if_neg hopen]
  by_cases hbar2 : bar = 1 <;>
    simp [State.barBits, State.barAddr, hbar2, Nat.add_assoc]

end Sys2Proof.Machine

namespace Sys2Proof
open Sys2Proof.Machine

/-- Settles O49: one end of the access that the map forbids is enough for State.deny, which only logs the access and
answers it. -/
theorem forbiddenAccessesAreDenied : Obligations.ForbiddenAccessesAreDenied := by
  intro off len data write s hlen hup hbars hboot
  have hdenied (bar : Fin 3) (hbar : bar ≠ 0) (hend : s.mapForbids (s.barBits bar write off.toNat) = true ∨
      s.mapForbids (s.barBits bar write (off.toNat + (len - 1))) = true) :
      exec (.hostBarAccess bar write off len data) s = .next (s.deny write (s.barAddr bar off.toNat)) := by
    rw [State.exec_hostBarAccess_of_open hbar hlen hup hbars hboot, if_pos (by simpa using hend)]
  refine ⟨fun hend => ?_, fun hend => ?_⟩
  · simpa [State.barAddr, State.deny] using hdenied 1 (by decide) (by simpa [State.barBits] using hend)
  · simpa [State.barAddr, State.deny] using
      hdenied 2 (by decide) (by simpa [State.barBits, State.barAddr, Nat.add_assoc] using hend)

end Sys2Proof
end

section
/-! What every step keeps: the queue behind the front command and both copies of the fuse array (R436, R437, R439). -/
namespace Sys2Proof.Machine

/-- Every command leaves the queue as it is, loses no blown fuse bit and blows no reserved one: those that blow fuses or
end a blow by their own lemma, all others because they touch neither. -/
theorem exec_grows (i : Instr) (s : State) : Out.grows (exec i s) s.fixed := by
  cases i with
  | instructionDispatch => exact Out.grows_of_fixes (execInstructionDispatch_fixed ..)
  | breakEntry => exact Out.grows_of_fixes (execBreakEntry_fixed ..)
  | streamHalted => exact Out.grows_of_fixes (execStreamHalted_fixed ..)
  | illEngine => exact Out.grows_of_fixes (execIllEngine_fixed ..)
  | mma => exact Out.grows_of_fixes (execMma_fixed ..)
  | mmaResultCycle => exact Out.grows_of_fixes (execMmaResultCycle_fixed ..)
  | abftVerdict => exact Out.grows_of_fixes (execAbftVerdict_fixed ..)
  | accst => exact Out.grows_of_fixes (execAccst_fixed ..)
  | converterRow => exact Out.grows_of_fixes (execConverterRow_fixed ..)
  | accsave => exact Out.grows_of_fixes (execAccsave_fixed ..)
  | accload => exact Out.grows_of_fixes (execAccload_fixed ..)
  | accloadExchange => exact Out.grows_of_fixes (execAccloadExchange_fixed ..)
  | accumulatorReadComplete => exact Out.grows_of_fixes (execAccumulatorReadComplete_fixed ..)
  | vsetvl => exact Out.grows_of_fixes (execVsetvl_fixed ..)
  | vfa => exact Out.grows_of_fixes (execVfa_fixed ..)
  | vfd => exact Out.grows_of_fixes (execVfd_fixed ..)
  | vtr => exact Out.grows_of_fixes (execVtr_fixed ..)
  | via => exact Out.grows_of_fixes (execVia_fixed ..)
  | vcmp => exact Out.grows_of_fixes (execVcmp_fixed ..)
  | vicmp => exact Out.grows_of_fixes (execVicmp_fixed ..)
  | vmask => exact Out.grows_of_fixes (execVmask_fixed ..)
  | vcvt => exact Out.grows_of_fixes (execVcvt_fixed ..)
  | vperm => exact Out.grows_of_fixes (execVperm_fixed ..)
  | vqpop => exact Out.grows_of_fixes (execVqpop_fixed ..)
  | vqpush => exact Out.grows_of_fixes (execVqpush_fixed ..)
  | vectorComplete => exact Out.grows_of_fixes (execVectorComplete_fixed ..)
  | red => exact Out.grows_of_fixes (execRed_fixed ..)
  | racc => exact Out.grows_of_fixes (execRacc_fixed ..)
  | rfold => exact Out.grows_of_fixes (execRfold_fixed ..)
  | rclr => exact Out.grows_of_fixes (execRclr_fixed ..)
  | reductionComplete => exact Out.grows_of_fixes (execReductionComplete_fixed ..)
  | sia => exact Out.grows_of_fixes (execSia_fixed ..)
  | sfa => exact Out.grows_of_fixes (execSfa_fixed ..)
  | dividerComplete => exact Out.grows_of_fixes (execDividerComplete_fixed ..)
  | scmp => exact Out.grows_of_fixes (execScmp_fixed ..)
  | sicmp => exact Out.grows_of_fixes (execSicmp_fixed ..)
  | scvt => exact Out.grows_of_fixes (execScvt_fixed ..)
  | sli => exact Out.grows_of_fixes (execSli_fixed ..)
  | br => exact Out.grows_of_fixes (execBr_fixed ..)
  | ald => exact Out.grows_of_fixes (execAld_fixed ..)
  | ast => exact Out.grows_of_fixes (execAst_fixed ..)
  | acopy => exact Out.grows_of_fixes (execAcopy_fixed ..)
  | alds => exact Out.grows_of_fixes (execAlds_fixed ..)
  | asts => exact Out.grows_of_fixes (execAsts_fixed ..)
  | asig => exact Out.grows_of_fixes (execAsig_fixed ..)
  | afence => exact Out.grows_of_fixes (execAfence_fixed ..)
  | accessResponse => exact Out.grows_of_fixes (execAccessResponse_fixed ..)
  | oqBlockReady => exact Out.grows_of_fixes (execOqBlockReady_fixed ..)
  | accessComplete => exact Out.grows_of_fixes (execAccessComplete_fixed ..)
  | requestRetryResend => exact Out.grows_of_fixes (execRequestRetryResend_fixed ..)
  | signal => exact Out.grows_of_fixes (execSignal_fixed ..)
  | wait => exact Out.grows_of_fixes (execWait_fixed ..)
  | waitalm => exact Out.grows_of_fixes (execWaitalm_fixed ..)
  | notify => exact Out.grows_of_fixes (execNotify_fixed ..)
  | fset => exact Out.grows_of_fixes (execFset_fixed ..)
  | notifyEventTake => exact Out.grows_of_fixes (execNotifyEventTake_fixed ..)
  | nop => exact Out.grows_of_fixes (execNop_fixed ..)
  | halt => exact Out.grows_of_fixes (execHalt_fixed ..)
  | loop => exact Out.grows_of_fixes (execLoop_fixed ..)
  | rdcr => exact Out.grows_of_fixes (execRdcr_fixed ..)
  | wrcr => exact Out.grows_of_fixes (execWrcr_fixed ..)
  | yield => exact Out.grows_of_fixes (execYield_fixed ..)
  | catchCropSwitch => exact Out.grows_of_fixes (execCatchCropSwitch_fixed ..)
  | catchCropSwitchComplete => exact Out.grows_of_fixes (execCatchCropSwitchComplete_fixed ..)
  | cropReturnBeat => exact Out.grows_of_fixes (execCropReturnBeat_fixed ..)
  | cropOverrun => exact Out.grows_of_fixes (execCropOverrun_fixed ..)
  | circularWait => exact Out.grows_of_fixes (execCircularWait_fixed ..)
  | start => exact Out.grows_of_fixes (execStart_fixed ..)
  | stop => exact Out.grows_of_fixes (execStop_fixed ..)
  | abort => exact Out.grows_of_fixes (execAbort_fixed ..)
  | restart => exact Out.grows_of_fixes (execRestart_fixed ..)
  | resume => exact Out.grows_of_fixes (execResume_fixed ..)
  | cvtSeedWrite => exact Out.grows_of_fixes (execCvtSeedWrite_fixed ..)
  | registerWrite => exact Out.grows_of_fixes (execRegisterWrite_fixed ..)
  | meshSramRequest => exact Out.grows_of_fixes (execMeshSramRequest_fixed ..)
  | flagIncrement => exact Out.grows_of_fixes (execFlagIncrement_fixed ..)
  | dieFabricFlit => exact Out.grows_of_fixes (execDieFabricFlit_fixed ..)
  | routeTableChange => exact Out.grows_of_fixes (execRouteTableChange_fixed ..)
  | routeDrainTimeout => exact Out.grows_of_fixes (execRouteDrainTimeout_fixed ..)
  | commandDeliver => exact Out.grows_of_fixes (execCommandDeliver_fixed ..)
  | execBeatReached => exact Out.grows_of_fixes (execExecBeatReached_fixed ..)
  | problemStart => exact Out.grows_of_fixes (execProblemStart_fixed ..)
  | factorStageComplete => exact Out.grows_of_fixes (execFactorStageComplete_fixed ..)
  | refineResidual => exact Out.grows_of_fixes (execRefineResidual_fixed ..)
  | retainCommit => exact Out.grows_of_fixes (execRetainCommit_fixed ..)
  | factorDeadline => exact Out.grows_of_fixes (execFactorDeadline_fixed ..)
  | factorBatchComplete => exact Out.grows_of_fixes (execFactorBatchComplete_fixed ..)
  | factorBatch => exact Out.grows_of_fixes (execFactorBatch_fixed ..)
  | factorStore => exact Out.grows_of_fixes (execFactorStore_fixed ..)
  | factorRelease => exact Out.grows_of_fixes (execFactorRelease_fixed ..)
  | factorReset => exact Out.grows_of_fixes (execFactorReset_fixed ..)
  | factorAbort => exact Out.grows_of_fixes (execFactorAbort_fixed ..)
  | memRequest => exact Out.grows_of_fixes (execMemRequest_fixed ..)
  | winnowerAccess => exact Out.grows_of_fixes (execWinnowerAccess_fixed ..)
  | scrubRead => exact Out.grows_of_fixes (execScrubRead_fixed ..)
  | refresh => exact Out.grows_of_fixes (execRefresh_fixed ..)
  | rfm => exact Out.grows_of_fixes (execRfm_fixed ..)
  | repairCandidate => exact Out.grows_of_fixes (execRepairCandidate_fixed ..)
  | hbmTempPoll => exact Out.grows_of_fixes (execHbmTempPoll_fixed ..)
  | hbmLevel3Throttle => exact Out.grows_of_fixes (execHbmLevel3Throttle_fixed ..)
  | hbmRecalibration => exact Out.grows_of_fixes (execHbmRecalibration_fixed ..)
  | memMode => exact Out.grows_of_fixes (execMemMode_fixed ..)
  | hbmRepair => exact Out.grows_of_fixes (execHbmRepair_fixed ..)
  | hbmMargin => exact Out.grows_of_fixes (execHbmMargin_fixed ..)
  | eccInject => exact Out.grows_of_fixes (execEccInject_fixed ..)
  | update => exact Out.grows_of_fixes (execUpdate_fixed ..)
  | voteRoundComplete => exact Out.grows_of_fixes (execVoteRoundComplete_fixed ..)
  | voteTimeout => exact Out.grows_of_fixes (execVoteTimeout_fixed ..)
  | updateComplete => exact Out.grows_of_fixes (execUpdateComplete_fixed ..)
  | trainCfg => exact Out.grows_of_fixes (execTrainCfg_fixed ..)
  | stashPack => exact Out.grows_of_fixes (execStashPack_fixed ..)
  | stashUnpack => exact Out.grows_of_fixes (execStashUnpack_fixed ..)
  | flitTransmit => exact Out.grows_of_fixes (execFlitTransmit_fixed ..)
  | flitReceive => exact Out.grows_of_fixes (execFlitReceive_fixed ..)
  | laneLockLost => exact Out.grows_of_fixes (execLaneLockLost_fixed ..)
  | linkTrainingComplete => exact Out.grows_of_fixes (execLinkTrainingComplete_fixed ..)
  | retrainComplete => exact Out.grows_of_fixes (execRetrainComplete_fixed ..)
  | creditAudit => exact Out.grows_of_fixes (execCreditAudit_fixed ..)
  | auditFlit => exact Out.grows_of_fixes (execAuditFlit_fixed ..)
  | packetForward => exact Out.grows_of_fixes (execPacketForward_fixed ..)
  | write => exact Out.grows_of_fixes (execWrite_fixed ..)
  | read => exact Out.grows_of_fixes (execRead_fixed ..)
  | readRsp => exact Out.grows_of_fixes (execReadRsp_fixed ..)
  | writeAck => exact Out.grows_of_fixes (execWriteAck_fixed ..)
  | errorRsp => exact Out.grows_of_fixes (execErrorRsp_fixed ..)
  | signalPacket => exact Out.grows_of_fixes (execSignalPacket_fixed ..)
  | remoteTimeout => exact Out.grows_of_fixes (execRemoteTimeout_fixed ..)
  | coll => exact Out.grows_of_fixes (execColl_fixed ..)
  | ldLaunch => exact Out.grows_of_fixes (execLdLaunch_fixed ..)
  | collData => exact Out.grows_of_fixes (execCollData_fixed ..)
  | collCtrl => exact Out.grows_of_fixes (execCollCtrl_fixed ..)
  | collDeadline => exact Out.grows_of_fixes (execCollDeadline_fixed ..)
  | collComplete => exact Out.grows_of_fixes (execCollComplete_fixed ..)
  | vote => exact Out.grows_of_fixes (execVote_fixed ..)
  | rotate => exact Out.grows_of_fixes (execRotate_fixed ..)
  | rotData => exact Out.grows_of_fixes (execRotData_fixed ..)
  | rotationRoundComplete => exact Out.grows_of_fixes (execRotationRoundComplete_fixed ..)
  | torusCfg => exact Out.grows_of_fixes (execTorusCfg_fixed ..)
  | routeSet => exact Out.grows_of_fixes (execRouteSet_fixed ..)
  | linkCtrl => exact Out.grows_of_fixes (execLinkCtrl_fixed ..)
  | beatBoundary => exact execBeatBoundary_grows ..
  | seasonStartBoundary => exact Out.grows_of_fixes (execSeasonStartBoundary_fixed ..)
  | beatSend => exact Out.grows_of_fixes (execBeatSend_fixed ..)
  | beat => exact Out.grows_of_fixes (execBeat_fixed ..)
  | almSyncLost => exact Out.grows_of_fixes (execAlmSyncLost_fixed ..)
  | almCfgApply => exact Out.grows_of_fixes (execAlmCfgApply_fixed ..)
  | almRefLost => exact Out.grows_of_fixes (execAlmRefLost_fixed ..)
  | almRefReturn => exact Out.grows_of_fixes (execAlmRefReturn_fixed ..)
  | almPpsEdge => exact Out.grows_of_fixes (execAlmPpsEdge_fixed ..)
  | almPpsLost => exact Out.grows_of_fixes (execAlmPpsLost_fixed ..)
  | almCfg => exact Out.grows_of_fixes (execAlmCfg_fixed ..)
  | almSeasonStart => exact Out.grows_of_fixes (execAlmSeasonStart_fixed ..)
  | gleanWindowEdge => exact Out.grows_of_fixes (execGleanWindowEdge_fixed ..)
  | sdDoorbell => exact Out.grows_of_fixes (execSdDoorbell_fixed ..)
  | commandAccept => exact Out.grows_of_fixes (execCommandAccept_fixed ..)
  | nopCommand => exact Out.grows_of_fixes (execNopCommand_fixed ..)
  | regWrite => exact Out.grows_of_fixes (execRegWrite_fixed ..)
  | regRead => exact Out.grows_of_fixes (execRegRead_fixed ..)
  | progLoad => exact Out.grows_of_fixes (execProgLoad_fixed ..)
  | runStart => exact Out.grows_of_fixes (execRunStart_fixed ..)
  | runCtrl => exact Out.grows_of_fixes (execRunCtrl_fixed ..)
  | runAbort => exact Out.grows_of_fixes (execRunAbort_fixed ..)
  | dmaCopy => exact Out.grows_of_fixes (execDmaCopy_fixed ..)
  | maintEnter => exact Out.grows_of_fixes (execMaintEnter_fixed ..)
  | maintExit => exact Out.grows_of_fixes (execMaintExit_fixed ..)
  | maintReset => exact Out.grows_of_fixes (execMaintReset_fixed ..)
  | dbgMode => exact Out.grows_of_fixes (execDbgMode_fixed ..)
  | sdBootGo => exact Out.grows_of_fixes (execSdBootGo_fixed ..)
  | cbrkResume => exact Out.grows_of_fixes (execCbrkResume_fixed ..)
  | ringEnable => exact Out.grows_of_fixes (execRingEnable_fixed ..)
  | hostBarAccess => exact Out.grows_of_fixes (execHostBarAccess_fixed ..)
  | pcieHostReset => exact Out.grows_of_fixes (execPcieHostReset_fixed ..)
  | ucieFrame => exact Out.grows_of_fixes (execUcieFrame_fixed ..)
  | sowCfg => exact Out.grows_of_fixes (execSowCfg_fixed ..)
  | sowOpen => exact Out.grows_of_fixes (execSowOpen_fixed ..)
  | sowRemirror => exact Out.grows_of_fixes (execSowRemirror_fixed ..)
  | harvestCfg => exact Out.grows_of_fixes (execHarvestCfg_fixed ..)
  | harvestTake => exact Out.grows_of_fixes (execHarvestTake_fixed ..)
  | harvestCapture => exact Out.grows_of_fixes (execHarvestCapture_fixed ..)
  | harvestPhaseEnd => exact Out.grows_of_fixes (execHarvestPhaseEnd_fixed ..)
  | harvestTallyCheck => exact Out.grows_of_fixes (execHarvestTallyCheck_fixed ..)
  | harvestDrain => exact Out.grows_of_fixes (execHarvestDrain_fixed ..)
  | harvestRestore => exact Out.grows_of_fixes (execHarvestRestore_fixed ..)
  | spareAdopt => exact Out.grows_of_fixes (execSpareAdopt_fixed ..)
  | dieRetire => exact Out.grows_of_fixes (execDieRetire_fixed ..)
  | pErrTailWrite => exact Out.grows_of_fixes (execPErrTailWrite_fixed ..)
  | pErrAck => exact Out.grows_of_fixes (execPErrAck_fixed ..)
  | sealVerify => exact Out.grows_of_fixes (execSealVerify_fixed ..)
  | sealRelease => exact Out.grows_of_fixes (execSealRelease_fixed ..)
  | errInject => exact execErrInject_grows ..
  | selftestRun => exact Out.grows_of_fixes (execSelftestRun_fixed ..)
  | gleanCfg => exact Out.grows_of_fixes (execGleanCfg_fixed ..)
  | gleanWindow => exact Out.grows_of_fixes (execGleanWindow_fixed ..)
  | telemCfg => exact Out.grows_of_fixes (execTelemCfg_fixed ..)
  | selftest => exact Out.grows_of_fixes (execSelftest_fixed ..)
  | selftestOverdue => exact Out.grows_of_fixes (execSelftestOverdue_fixed ..)
  | agingGuardband => exact Out.grows_of_fixes (execAgingGuardband_fixed ..)
  | telemetryRecord => exact Out.grows_of_fixes (execTelemetryRecord_fixed ..)
  | watchdog => exact Out.grows_of_fixes (execWatchdog_fixed ..)
  | ctrlParity => exact Out.grows_of_fixes (execCtrlParity_fixed ..)
  | fuseParity => exact Out.grows_of_fixes (execFuseParity_fixed ..)
  | powerOnReset => exact execPowerOnReset_grows ..
  | resetN => exact execResetN_grows ..
  | warmReset => exact execWarmReset_grows ..
  | oscWaitEnd => exact Out.grows_of_fixes (execOscWaitEnd_fixed ..)
  | oscRetry => exact Out.grows_of_fixes (execOscRetry_fixed ..)
  | powerUpReady => exact Out.grows_of_fixes (execPowerUpReady_fixed ..)
  | clockMonitorWindow => exact execClockMonitorWindow_grows ..
  | pllUnlock => exact execPllUnlock_grows ..
  | pllRelock => exact Out.grows_of_fixes (execPllRelock_fixed ..)
  | wclkReturn => exact Out.grows_of_fixes (execWclkReturn_fixed ..)
  | optionCommit => exact Out.grows_of_fixes (execOptionCommit_fixed ..)
  | secAttest => exact Out.grows_of_fixes (execSecAttest_fixed ..)
  | secIdentity => exact Out.grows_of_fixes (execSecIdentity_fixed ..)
  | secFuseBlow => exact execSecFuseBlow_grows ..
  | secKeyProvision => exact execSecKeyProvision_grows ..
  | jtagInstruction => exact Out.grows_of_fixes (execJtagInstruction_fixed ..)
  | i3cTransfer => exact Out.grows_of_fixes (execI3cTransfer_fixed ..)
  | dieTempPoll => exact Out.grows_of_fixes (execDieTempPoll_fixed ..)
  | powerLimitWindow => exact Out.grows_of_fixes (execPowerLimitWindow_fixed ..)
  | inputVoltage => exact execInputVoltage_grows ..
  | supplyFault => exact execSupplyFault_grows ..
  | coolOkDeassert => exact Out.grows_of_fixes (execCoolOkDeassert_fixed ..)
  | coolLost => exact Out.grows_of_fixes (execCoolLost_fixed ..)
  | coolLostShutdown => exact Out.grows_of_fixes (execCoolLostShutdown_fixed ..)
  | pumpDutyUpdate => exact Out.grows_of_fixes (execPumpDutyUpdate_fixed ..)
  | coolOkAssert => exact Out.grows_of_fixes (execCoolOkAssert_fixed ..)
  | resetNRelease => exact Out.grows_of_fixes (execResetNRelease_fixed ..)
  | vinInRange => exact Out.grows_of_fixes (execVinInRange_fixed ..)

theorem step_cons {s : State} {c : Instr} {rest : List Instr} (h : s.pending = c :: rest) :
    step s = exec c { s with pending := rest } := by simp only [step, h]

theorem step_nil {s : State} (h : s.pending = []) : step s = .next s := by simp only [step, h]

/-- What a command lets only grow, its outcome lets only grow. -/
theorem exec_next_grows {c : Instr} {s t : State} (h : exec c s = .next t) : s.fixed.grows t.fixed := by
  have hg := exec_grows c s
  rwa [h] at hg

/-- A step takes the front command off and lets the fuses only grow. -/
theorem step_next_grows {s t : State} (h : step s = .next t) :
    Fixed.grows ⟨s.pending.tail, s.fuse.copy0, s.fuse.copy1, s.fuse.job⟩ t.fixed := by
  cases hp : s.pending with
  | nil =>
    rw [step_nil hp] at h
    cases h
    rw [List.tail_nil, ← hp]
    exact Fixed.grows_refl _
  | cons c rest =>
    rw [step_cons hp] at h
    exact exec_next_grows h

end Sys2Proof.Machine

namespace Sys2Proof
open Sys2Proof.Machine

/-- Settles O54. -/
theorem stepRunsTheFrontCommand : Obligations.StepRunsTheFrontCommand :=
  fun _ => ⟨fun _ _ h => step_cons h, fun h => step_nil h⟩

/-- Settles O56: the front command's queue plays no part in the invariant, and every command keeps it. -/
theorem stepsKeepTheReservedFuses : Obligations.StepsKeepTheReservedFuses := by
  intro s t hok hstep
  obtain ⟨-, -, -, hkeeps⟩ := step_next_grows hstep
  exact hkeeps hok

/-- Settles O57. -/
theorem blownFusesStayBlown : Obligations.BlownFusesStayBlown := by
  intro s t hstep
  obtain ⟨-, hcopy0, hcopy1, -⟩ := step_next_grows hstep
  exact ⟨hcopy0, hcopy1⟩

/-- Settles O58. -/
theorem commandsLeaveTheQueue : Obligations.CommandsLeaveTheQueue :=
  ⟨fun _ _ _ h => (exec_next_grows h).1, fun _ _ h => (step_next_grows h).1⟩

end Sys2Proof
end

section
/-! Every command answers a next state: the shared operations first, then the commands, whose choices all end in one. -/
namespace Sys2Proof.Machine

/-- The outcome is a next state. -/
def Out.answers (o : Out) : Prop := ∃ t, o = .next t

@[simp] theorem Out.answers_next (s : State) : Out.answers (.next s) := ⟨s, rfl⟩

@[simp] theorem State.headIssue_answers (s : State) (acc : Bool) (d t c : Nat) (ok : BitVec 64 → Bool)
    (run : State → QEntry → State) : Out.answers (s.headIssue acc d t c ok run) := s.headIssue_next ..

@[simp] theorem State.execHead_answers (s : State) (d t c : Nat) (ok : BitVec 64 → Bool)
    (run : State → QEntry → State) : Out.answers (s.execHead d t c ok run) := s.headIssue_next ..

@[simp] theorem State.accHead_answers (s : State) (d t c : Nat) (ok : BitVec 64 → Bool)
    (run : State → QEntry → State) : Out.answers (s.accHead d t c ok run) := s.headIssue_next ..

@[simp] theorem State.ownEvent_answers (s : State) (d t c : Nat) (run : State → State) :
    Out.answers (s.ownEvent d t c run) := s.ownEvent_next ..

@[simp] theorem State.withCmd_answers (s : State) (cid op : Nat) (f : State → Cmd → State) :
    Out.answers (s.withCmd cid op f) := s.withCmd_next ..

@[simp] theorem State.factorCmd_answers (s : State) (cid op : Nat) (g : State → Cmd → Nat → State) :
    Out.answers (s.factorCmd cid op g) := s.withCmd_next ..

@[simp] theorem State.atOnce_answers (s : State) (cid op : Nat) (f : State → Cmd → State) :
    Out.answers (s.atOnce cid op f) := by
  unfold State.atOnce
  split
  · exact ⟨_, rfl⟩
  · split <;> exact ⟨_, rfl⟩

@[simp] theorem State.writeImage_answers (s : State) (l : List Byte) : Out.answers (s.writeImage l) := by
  unfold State.writeImage
  split <;> exact ⟨_, rfl⟩

@[simp] theorem State.ctrlRow_answers (s : State) (d t : Nat) (w : BitVec 64) (a : CtrlAct) :
    Out.answers (s.ctrlRow d t w a) := by
  unfold State.ctrlRow
  split <;> exact Out.answers_next _

theorem execCircularWait_answers (d : Fin 32) (t : Fin 144) (s : State) : Out.answers (execCircularWait d t s) := by
  unfold execCircularWait
  extract_lets s1 T isOpen
  cases T.sideHeld false isOpen <;> cases T.sideHeld true isOpen
  case some.some =>
    dsimp only
    split <;> exact Out.answers_next _
  all_goals exact Out.answers_next _

theorem execInstructionDispatch_answers (d : Fin 32) (t : Fin 144) (c : Nat) (fetch : Fetch) (s : State) :
    Out.answers (execInstructionDispatch d t c fetch s) := by
  unfold execInstructionDispatch
  repeat' first | exact Out.answers_next _ | split | intro _ | lift_lets

theorem execBreakEntry_answers (d : Fin 32) (t : Fin 144) (s : State) : Out.answers (execBreakEntry d t s) := by
  unfold execBreakEntry
  repeat' first | exact Out.answers_next _ | split | intro _ | lift_lets

theorem execStreamHalted_answers (d : Fin 32) (t : Fin 144) (s : State) : Out.answers (execStreamHalted d t s) := by
  unfold execStreamHalted
  repeat' first | exact Out.answers_next _ | split | intro _ | lift_lets

theorem execMmaResultCycle_answers (d : Fin 32) (t : Fin 144) (upset : Option (Fin 4096 × BitVec 72))
    (s : State) : Out.answers (execMmaResultCycle d t upset s) := by
  unfold execMmaResultCycle
  repeat' first | exact Out.answers_next _ | exact State.ownEvent_answers .. | split

theorem execAbftVerdict_answers (d : Fin 32) (t : Fin 144) (s : State) : Out.answers (execAbftVerdict d t s) := by
  unfold execAbftVerdict
  repeat' first | exact Out.answers_next _ | exact State.ownEvent_answers .. | split

theorem execConverterRow_answers (d : Fin 32) (t : Fin 144) (s : State) : Out.answers (execConverterRow d t s) := by
  unfold execConverterRow
  repeat' first | exact Out.answers_next _ | exact State.ownEvent_answers .. | split

theorem execAccloadExchange_answers (d : Fin 32) (t : Fin 144) (s : State) :
    Out.answers (execAccloadExchange d t s) := by
  unfold execAccloadExchange
  repeat' first | exact Out.answers_next _ | exact State.ownEvent_answers .. | split

theorem execAccumulatorReadComplete_answers (d : Fin 32) (t : Fin 144) (s : State) :
    Out.answers (execAccumulatorReadComplete d t s) := by
  unfold execAccumulatorReadComplete
  repeat' first | exact Out.answers_next _ | exact State.ownEvent_answers .. | split

theorem execVectorComplete_answers (d : Fin 32) (t : Fin 144) (s : State) : Out.answers (execVectorComplete d t s) := by
  unfold execVectorComplete
  repeat' first | exact Out.answers_next _ | exact State.ownEvent_answers .. | split

theorem execReductionComplete_answers (d : Fin 32) (t : Fin 144) (s : State) :
    Out.answers (execReductionComplete d t s) := by
  unfold execReductionComplete
  repeat' first | exact Out.answers_next _ | exact State.ownEvent_answers .. | split

theorem execDividerComplete_answers (d : Fin 32) (t : Fin 144) (s : State) :
    Out.answers (execDividerComplete d t s) := by
  unfold execDividerComplete
  repeat' first | exact Out.answers_next _ | exact State.ownEvent_answers .. | split

theorem execAccessResponse_answers (d : Fin 32) (t : Fin 144) (slot : Timed Nat) (s : State) :
    Out.answers (execAccessResponse d t slot s) := by
  unfold execAccessResponse
  repeat' first | exact Out.answers_next _ | exact State.ownEvent_answers .. | split

theorem execOqBlockReady_answers (d : Fin 32) (t : Fin 144) (matrix : Bool) (pos : Nat) (s : State) :
    Out.answers (execOqBlockReady d t matrix pos s) := by
  unfold execOqBlockReady
  repeat' first | exact Out.answers_next _ | exact State.ownEvent_answers .. | split

theorem execAccessComplete_answers (d : Fin 32) (t : Fin 144) (count : BitVec 64) (s : State) :
    Out.answers (execAccessComplete d t count s) := by
  unfold execAccessComplete
  repeat' first | exact Out.answers_next _ | exact State.ownEvent_answers .. | split | intro _ | lift_lets

theorem execRequestRetryResend_answers (d : Fin 32) (t : Fin 144) (slot : Nat) (s : State) :
    Out.answers (execRequestRetryResend d t slot s) := by
  unfold execRequestRetryResend
  repeat' first | exact Out.answers_next _ | split | intro _ | lift_lets

theorem execNotifyEventTake_answers (d : Fin 32) (s : State) : Out.answers (execNotifyEventTake d s) := by
  unfold execNotifyEventTake
  repeat' first | exact Out.answers_next _ | split | intro _ | lift_lets

theorem execCatchCropSwitch_answers (d : Fin 32) (t : Fin 144) (c : Nat) (s : State) :
    Out.answers (execCatchCropSwitch d t c s) := by
  unfold execCatchCropSwitch
  repeat' first | exact Out.answers_next _ | exact State.ownEvent_answers .. | split | intro _ | lift_lets

theorem execCatchCropSwitchComplete_answers (d : Fin 32) (t : Fin 144) (s : State) :
    Out.answers (execCatchCropSwitchComplete d t s) := by
  unfold execCatchCropSwitchComplete
  repeat' first | exact Out.answers_next _ | exact State.ownEvent_answers .. | split | intro _ | lift_lets

theorem execCropReturnBeat_answers (d : Fin 32) (t : Fin 144) (s : State) : Out.answers (execCropReturnBeat d t s) := by
  unfold execCropReturnBeat
  repeat' first | exact Out.answers_next _ | split | intro _ | lift_lets

theorem execCropOverrun_answers (d : Fin 32) (t : Fin 144) (s : State) : Out.answers (execCropOverrun d t s) := by
  unfold execCropOverrun
  repeat' first | exact Out.answers_next _ | split | intro _ | lift_lets

theorem execStart_answers (d : Fin 32) (t : Fin 144) (w : BitVec 64) (s : State) : Out.answers (execStart d t w s) :=
  State.ctrlRow_answers ..

theorem execStop_answers (d : Fin 32) (t : Fin 144) (w : BitVec 64) (s : State) : Out.answers (execStop d t w s) :=
  State.ctrlRow_answers ..

theorem execAbort_answers (d : Fin 32) (t : Fin 144) (w : BitVec 64) (s : State) : Out.answers (execAbort d t w s) :=
  State.ctrlRow_answers ..

theorem execRestart_answers (d : Fin 32) (t : Fin 144) (w : BitVec 64) (s : State) :
    Out.answers (execRestart d t w s) :=
  State.ctrlRow_answers ..

theorem execResume_answers (d : Fin 32) (t : Fin 144) (w : BitVec 64) (s : State) : Out.answers (execResume d t w s) :=
  State.ctrlRow_answers ..

theorem execRegisterWrite_answers (addr : BitVec 48) (value : BitVec 64) (s : State) :
    Out.answers (execRegisterWrite addr value s) := by
  unfold execRegisterWrite
  repeat' first | exact Out.answers_next _ | split

theorem execMeshSramRequest_answers (d : Fin 32) (t : Fin 144) (x : MeshReq) (s : State) :
    Out.answers (execMeshSramRequest d t x s) := by
  unfold execMeshSramRequest
  repeat' first | exact Out.answers_next _ | exact State.ownEvent_answers .. | split | intro _ | lift_lets

theorem execFlagIncrement_answers (d : Fin 32) (t : Fin 144) (ctx : Bool) (flag : Fin 64) (count : Timed
    (BitVec 16)) (s : State) : Out.answers (execFlagIncrement d t ctx flag count s) := by
  unfold execFlagIncrement
  repeat' first | exact Out.answers_next _ | split | intro _ | lift_lets

theorem execDieFabricFlit_answers (e : Edge) (good : Bool) (held : List Held) (s : State) :
    Out.answers (execDieFabricFlit e good held s) := by
  unfold execDieFabricFlit
  repeat' first | exact Out.answers_next _ | split | intro _ | lift_lets

theorem execRouteTableChange_answers (cid : Nat) (s : State) : Out.answers (execRouteTableChange cid s) := by
  unfold execRouteTableChange
  repeat' first | exact Out.answers_next _ | split

theorem execRouteDrainTimeout_answers (cid : Nat) (s : State) : Out.answers (execRouteDrainTimeout cid s) := by
  unfold execRouteDrainTimeout
  repeat' first | exact Out.answers_next _ | split

theorem execCommandDeliver_answers (cid : Nat) (s : State) : Out.answers (execCommandDeliver cid s) := by
  unfold execCommandDeliver
  repeat' first | exact Out.answers_next _ | split

theorem execExecBeatReached_answers (cid : Nat) (s : State) : Out.answers (execExecBeatReached cid s) := by
  unfold execExecBeatReached
  repeat' first | exact Out.answers_next _ | split

theorem execProblemStart_answers (f : Fin 4) (i cycles : Nat) (bad : Bool) (s : State) :
    Out.answers (execProblemStart f i cycles bad s) := by
  unfold execProblemStart
  repeat' first | exact Out.answers_next _ | split | intro _ | lift_lets

theorem execFactorStageComplete_answers (f : Fin 4) (i cycles : Nat) (bad : Bool) (s : State) :
    Out.answers (execFactorStageComplete f i cycles bad s) := by
  unfold execFactorStageComplete
  repeat' first | exact Out.answers_next _ | split | intro _ | lift_lets

theorem execRefineResidual_answers (f : Fin 4) (i cycles : Nat) (s : State) :
    Out.answers (execRefineResidual f i cycles s) := by
  unfold execRefineResidual
  repeat' first | exact Out.answers_next _ | split | intro _ | lift_lets

theorem execRetainCommit_answers (f : Fin 4) (i cycles : Nat) (s : State) :
    Out.answers (execRetainCommit f i cycles s) := by
  unfold execRetainCommit
  repeat' first | exact Out.answers_next _ | split | intro _ | lift_lets

theorem execFactorDeadline_answers (f : Fin 4) (s : State) : Out.answers (execFactorDeadline f s) := by
  unfold execFactorDeadline
  repeat' first | exact Out.answers_next _ | split

theorem execFactorBatchComplete_answers (f : Fin 4) (s : State) : Out.answers (execFactorBatchComplete f s) := by
  unfold execFactorBatchComplete
  repeat' first | exact Out.answers_next _ | split

theorem execMemRequest_answers (m : Fin 16) (x : Timed MemReq) (s : State) : Out.answers (execMemRequest m x s) := by
  unfold execMemRequest
  repeat' first | exact Out.answers_next _ | split | intro _ | lift_lets

theorem execWinnowerAccess_answers (m : Fin 16) (stack : Bool) (pc : Fin 64) (now : Nat) (banks : List Nat)
    (errs : List (Nat × Nat)) (odecc : List Nat) (s : State) :
    Out.answers (execWinnowerAccess m stack pc now banks errs odecc s) := by
  unfold execWinnowerAccess
  repeat' first | exact Out.answers_next _ | split | intro _ | lift_lets

theorem execScrubRead_answers (m : Fin 16) (stack : Bool) (errs : Nat) (odecc : List (Fin 2)) (s : State) :
    Out.answers (execScrubRead m stack errs odecc s) := by
  unfold execScrubRead
  repeat' first | exact Out.answers_next _ | split | intro _ | lift_lets

theorem execRefresh_answers (m : Fin 16) (stack : Bool) (pc : Fin 64) (bank : Timed (Fin 48)) (s : State) :
    Out.answers (execRefresh m stack pc bank s) := by
  unfold execRefresh
  repeat' first | exact Out.answers_next _ | split | intro _ | lift_lets

theorem execRfm_answers (m : Fin 16) (stack : Bool) (pc : Fin 64) (bank : Fin 48) (s : State) :
    Out.answers (execRfm m stack pc bank s) := by
  unfold execRfm
  exact Out.answers_next _

theorem execRepairCandidate_answers (m : Fin 16) (stack : Bool) (row : BitVec 26) (s : State) :
    Out.answers (execRepairCandidate m stack row s) := by
  unfold execRepairCandidate
  repeat' first | exact Out.answers_next _ | split | intro _ | lift_lets

theorem execHbmTempPoll_answers (m : Fin 16) (t0 t1 : BitVec 8) (s : State) :
    Out.answers (execHbmTempPoll m t0 t1 s) := by
  unfold execHbmTempPoll
  exact Out.answers_next _

theorem execHbmLevel3Throttle_answers (m : Fin 16) (stack : Bool) (s : State) :
    Out.answers (execHbmLevel3Throttle m stack s) := by
  unfold execHbmLevel3Throttle
  repeat' first | exact Out.answers_next _ | split | intro _ | lift_lets

theorem execHbmRecalibration_answers (m : Fin 16) (stack : Bool) (pc : Fin 64) (converged : Bool)
    (s : State) : Out.answers (execHbmRecalibration m stack pc converged s) := by
  unfold execHbmRecalibration
  repeat' first | exact Out.answers_next _ | split | intro _ | lift_lets

theorem execHbmMargin_answers (cid : Nat) (records : List (BitVec 32)) (s : State) :
    Out.answers (execHbmMargin cid records s) := by
  unfold execHbmMargin
  repeat' first | exact Out.answers_next _ | exact State.withCmd_answers .. | split

theorem execVoteRoundComplete_answers (vote : BitVec 8) (s : State) : Out.answers (execVoteRoundComplete vote s) := by
  unfold execVoteRoundComplete
  repeat' first | exact Out.answers_next _ | split

theorem execVoteTimeout_answers (s : State) : Out.answers (execVoteTimeout s) := by
  unfold execVoteTimeout
  repeat' first | exact Out.answers_next _ | split

theorem execUpdateComplete_answers (s : State) : Out.answers (execUpdateComplete s) := by
  unfold execUpdateComplete
  repeat' first | exact Out.answers_next _ | split

theorem execFlitTransmit_answers (p : Fin 12) (s : State) : Out.answers (execFlitTransmit p s) := by
  unfold execFlitTransmit
  exact Out.answers_next _

theorem execFlitReceive_answers (p : Fin 12) (x : Received) (s : State) : Out.answers (execFlitReceive p x s) := by
  unfold execFlitReceive
  repeat' first | exact Out.answers_next _ | split | intro _ | lift_lets

theorem execLaneLockLost_answers (p : Fin 12) (s : State) : Out.answers (execLaneLockLost p s) := by
  unfold execLaneLockLost
  repeat' first | exact Out.answers_next _ | split | intro _ | lift_lets

theorem execLinkTrainingComplete_answers (p : Fin 12) (ok : Bool) (peer : Peer) (s : State) :
    Out.answers (execLinkTrainingComplete p ok peer s) := by
  unfold execLinkTrainingComplete
  repeat' first | exact Out.answers_next _ | split | intro _ | lift_lets

theorem execRetrainComplete_answers (p : Fin 12) (ok : Bool) (audit : Audit) (s : State) :
    Out.answers (execRetrainComplete p ok audit s) := by
  unfold execRetrainComplete
  repeat' first | exact Out.answers_next _ | split | intro _ | lift_lets

theorem execCreditAudit_answers (p : Fin 12) (marginOk : Bool) (s : State) :
    Out.answers (execCreditAudit p marginOk s) := by
  unfold execCreditAudit
  repeat' first | exact Out.answers_next _ | split | intro _ | lift_lets

theorem execAuditFlit_answers (p : Fin 12) (free : List Nat) (ctot : List (BitVec 7)) (delay : BitVec 32)
    (s : State) : Out.answers (execAuditFlit p free ctot delay s) := by
  unfold execAuditFlit
  repeat' first | exact Out.answers_next _ | split | intro _ | lift_lets

theorem execPacketForward_answers (l : Fin 8) (k : Packet) (s : State) : Out.answers (execPacketForward l k s) := by
  unfold execPacketForward
  repeat' first | exact Out.answers_next _ | split | intro _ | lift_lets

theorem execWrite_answers (k : Packet) (s : State) : Out.answers (execWrite k s) := by
  unfold execWrite
  repeat' first | exact Out.answers_next _ | split

theorem execRead_answers (k : Packet) (s : State) : Out.answers (execRead k s) := by
  unfold execRead
  repeat' first | exact Out.answers_next _ | split

theorem execReadRsp_answers (k : Packet) (s : State) : Out.answers (execReadRsp k s) := by
  unfold execReadRsp
  repeat' first | exact Out.answers_next _ | split

theorem execWriteAck_answers (k : Packet) (s : State) : Out.answers (execWriteAck k s) := by
  unfold execWriteAck
  repeat' first | exact Out.answers_next _ | split

theorem execErrorRsp_answers (k : Packet) (s : State) : Out.answers (execErrorRsp k s) := by
  unfold execErrorRsp
  repeat' first | exact Out.answers_next _ | split

theorem execSignalPacket_answers (k : Packet) (s : State) : Out.answers (execSignalPacket k s) := by
  unfold execSignalPacket
  repeat' first | exact Out.answers_next _ | split

theorem execRemoteTimeout_answers (l : Fin 8) (slot : Fin 4096) (s : State) :
    Out.answers (execRemoteTimeout l slot s) := by
  unfold execRemoteTimeout
  repeat' first | exact Out.answers_next _ | split | intro _ | lift_lets

theorem execCollData_answers (k : Packet) (s : State) : Out.answers (execCollData k s) := by
  unfold execCollData
  repeat' first | exact Out.answers_next _ | split

theorem execCollCtrl_answers (k : Packet) (s : State) : Out.answers (execCollCtrl k s) := by
  unfold execCollCtrl
  repeat' first | exact Out.answers_next _ | split

theorem execCollDeadline_answers (slot : Fin 256) (s : State) : Out.answers (execCollDeadline slot s) := by
  unfold execCollDeadline
  repeat' first | exact Out.answers_next _ | split

theorem execCollComplete_answers (slot : Fin 256) (s : State) : Out.answers (execCollComplete slot s) := by
  unfold execCollComplete
  repeat' first | exact Out.answers_next _ | split

theorem execVote_answers (k : Packet) (s : State) : Out.answers (execVote k s) := by
  unfold execVote
  repeat' first | exact Out.answers_next _ | split

theorem execRotData_answers (k : Packet) (s : State) : Out.answers (execRotData k s) := by
  unfold execRotData
  repeat' first | exact Out.answers_next _ | split

theorem execRotationRoundComplete_answers (s : State) : Out.answers (execRotationRoundComplete s) := by
  unfold execRotationRoundComplete
  repeat' first | exact Out.answers_next _ | split

theorem execSeasonStartBoundary_answers (s : State) : Out.answers (execSeasonStartBoundary s) := by
  unfold execSeasonStartBoundary
  repeat' first | exact Out.answers_next _ | split

theorem execBeatSend_answers (depart : BitVec 48) (s : State) : Out.answers (execBeatSend depart s) := by
  unfold execBeatSend
  repeat' first | exact Out.answers_next _ | split | intro _ | lift_lets

theorem execBeat_answers (p : Fin 12) (k : Packet) (phase : BitVec 12) (depart : BitVec 48) (s : State) :
    Out.answers (execBeat p k phase depart s) := by
  unfold execBeat
  repeat' first | exact Out.answers_next _ | split | intro _ | lift_lets

theorem execAlmSyncLost_answers (s : State) : Out.answers (execAlmSyncLost s) := by
  unfold execAlmSyncLost
  repeat' first | exact Out.answers_next _ | split | intro _ | lift_lets

theorem execAlmCfgApply_answers (s : State) : Out.answers (execAlmCfgApply s) := by
  unfold execAlmCfgApply
  repeat' first | exact Out.answers_next _ | split | intro _ | lift_lets

theorem execAlmRefLost_answers (s : State) : Out.answers (execAlmRefLost s) := by
  unfold execAlmRefLost
  repeat' first | exact Out.answers_next _ | split | intro _ | lift_lets

theorem execAlmRefReturn_answers (s : State) : Out.answers (execAlmRefReturn s) := by
  unfold execAlmRefReturn
  repeat' first | exact Out.answers_next _ | split | intro _ | lift_lets

theorem execAlmPpsEdge_answers (e : PpsEdge) (s : State) : Out.answers (execAlmPpsEdge e s) := by
  unfold execAlmPpsEdge
  repeat' first | exact Out.answers_next _ | split | intro _ | lift_lets

theorem execAlmPpsLost_answers (s : State) : Out.answers (execAlmPpsLost s) := by
  unfold execAlmPpsLost
  repeat' first | exact Out.answers_next _ | split | intro _ | lift_lets

theorem execGleanWindowEdge_answers (i : Nat) (s : State) : Out.answers (execGleanWindowEdge i s) := by
  unfold execGleanWindowEdge
  repeat' first | exact Out.answers_next _ | split | intro _ | lift_lets

theorem execCommandAccept_answers (ring : Fin 8) (fetched : Option (List Byte)) (s : State) :
    Out.answers (execCommandAccept ring fetched s) := by
  unfold execCommandAccept
  repeat' first | exact Out.answers_next _ | split | intro _ | lift_lets

theorem execMaintExit_answers (cid : Nat) (s : State) : Out.answers (execMaintExit cid s) := by
  unfold execMaintExit
  repeat' first | exact Out.answers_next _ | exact State.withCmd_answers .. | split

theorem execHostBarAccess_answers (bar : Fin 3) (write : Bool) (off : BitVec 34) (len : Nat) (data : List Byte)
    (s : State) : Out.answers (execHostBarAccess bar write off len data s) := by
  unfold execHostBarAccess
  repeat' first | exact Out.answers_next _ | split | intro _ | lift_lets

theorem execUcieFrame_answers (m : Fin 9) (frame : UcieFrame) (s : State) : Out.answers (execUcieFrame m frame s) := by
  unfold execUcieFrame
  repeat' first | exact Out.answers_next _ | split | intro _ | lift_lets

theorem execSowRemirror_answers (s : State) : Out.answers (execSowRemirror s) := by
  unfold execSowRemirror
  repeat' first | exact Out.answers_next _ | split

theorem execHarvestCapture_answers (s : State) : Out.answers (execHarvestCapture s) := by
  unfold execHarvestCapture
  repeat' first | exact Out.answers_next _ | exact State.writeImage_answers .. | split

theorem execHarvestPhaseEnd_answers (s : State) : Out.answers (execHarvestPhaseEnd s) := by
  unfold execHarvestPhaseEnd
  repeat' first | exact Out.answers_next _ | split | intro _ | lift_lets

theorem execHarvestTallyCheck_answers (area : Bool) (s : State) : Out.answers (execHarvestTallyCheck area s) := by
  unfold execHarvestTallyCheck
  repeat' first | exact Out.answers_next _ | split | intro _ | lift_lets

theorem execHarvestDrain_answers (cid : Nat) (s : State) : Out.answers (execHarvestDrain cid s) := by
  unfold execHarvestDrain
  repeat' first | exact Out.answers_next _ | exact State.withCmd_answers .. | split

theorem execHarvestRestore_answers (cid : Nat) (head entries : List Byte) (shards : List (List Byte))
    (s : State) : Out.answers (execHarvestRestore cid head entries shards s) := by
  unfold execHarvestRestore
  repeat' first | exact Out.answers_next _ | exact State.withCmd_answers .. | split

theorem execSelftest_answers (d : Fin 32) (t : Fin 144) (failed : Option (Fin 8)) (s : State) :
    Out.answers (execSelftest d t failed s) := by
  unfold execSelftest
  repeat' first | exact Out.answers_next _ | split

theorem execSelftestOverdue_answers (d : Fin 32) (s : State) : Out.answers (execSelftestOverdue d s) := by
  unfold execSelftestOverdue
  repeat' first | exact Out.answers_next _ | split | intro _ | lift_lets

theorem execAgingGuardband_answers (low : List (Fin 64)) (s : State) : Out.answers (execAgingGuardband low s) := by
  unfold execAgingGuardband
  repeat' first | exact Out.answers_next _ | split | intro _ | lift_lets

theorem execTelemetryRecord_answers (r : TelemetryReading) (s : State) : Out.answers (execTelemetryRecord r s) := by
  unfold execTelemetryRecord
  repeat' first | exact Out.answers_next _ | split | intro _ | lift_lets

theorem execWatchdog_answers (s : State) : Out.answers (execWatchdog s) := by
  unfold execWatchdog
  repeat' first | exact Out.answers_next _ | split

theorem execPowerOnReset_answers (rise : Bool) (fuses : List (FuseRead × FuseRead)) (s : State) :
    Out.answers (execPowerOnReset rise fuses s) := by
  unfold execPowerOnReset
  repeat' first | exact Out.answers_next _ | split | intro _ | lift_lets

theorem execResetN_answers (ns : Nat) (s : State) : Out.answers (execResetN ns s) := by
  unfold execResetN
  repeat' first | exact Out.answers_next _ | split

theorem execWarmReset_answers (fuses : List (FuseRead × FuseRead)) (remeasured : Bool) (s : State) :
    Out.answers (execWarmReset fuses remeasured s) := by
  unfold execWarmReset
  repeat' first | exact Out.answers_next _ | split | intro _ | lift_lets

theorem execOscWaitEnd_answers (running : Bool) (s : State) : Out.answers (execOscWaitEnd running s) := by
  unfold execOscWaitEnd
  repeat' first | exact Out.answers_next _ | split | intro _ | lift_lets

theorem execOscRetry_answers (s : State) : Out.answers (execOscRetry s) := by
  unfold execOscRetry
  repeat' first | exact Out.answers_next _ | split | intro _ | lift_lets

theorem execPowerUpReady_answers (trained : BitVec 32) (checks : PowerUp) (s : State) :
    Out.answers (execPowerUpReady trained checks s) := by
  unfold execPowerUpReady
  repeat' first | exact Out.answers_next _ | split | intro _ | lift_lets

theorem execClockMonitorWindow_answers (b : Fin 64) (k : Clock) (n : Nat) (s : State) :
    Out.answers (execClockMonitorWindow b k n s) := by
  unfold execClockMonitorWindow
  repeat' first | exact Out.answers_next _ | split | intro _ | lift_lets

theorem execPllUnlock_answers (b : Fin 64) (k : Clock) (s : State) : Out.answers (execPllUnlock b k s) := by
  unfold execPllUnlock
  repeat' first | exact Out.answers_next _ | split

theorem execPllRelock_answers (b : Fin 64) (k : Clock) (locked : Relock) (s : State) :
    Out.answers (execPllRelock b k locked s) := by
  unfold execPllRelock
  repeat' first | exact Out.answers_next _ | split | intro _ | lift_lets

theorem execWclkReturn_answers (again : Restart) (s : State) : Out.answers (execWclkReturn again s) := by
  unfold execWclkReturn
  repeat' first | exact Out.answers_next _ | split

theorem execJtagInstruction_answers (instr : JtagInstr) (s : State) : Out.answers (execJtagInstruction instr s) := by
  unfold execJtagInstruction
  repeat' first | exact Out.answers_next _ | split

theorem execI3cTransfer_answers (head : I3cHead) (data : BitVec 16) (s : State) :
    Out.answers (execI3cTransfer head data s) := by
  unfold execI3cTransfer
  repeat' first | exact Out.answers_next _ | split

theorem execDieTempPoll_answers (temps : List (BitVec 8)) (s : State) : Out.answers (execDieTempPoll temps s) := by
  unfold execDieTempPoll
  repeat' first | exact Out.answers_next _ | split

theorem execPowerLimitWindow_answers (watts : Nat) (s : State) : Out.answers (execPowerLimitWindow watts s) := by
  unfold execPowerLimitWindow
  repeat' first | exact Out.answers_next _ | split | intro _ | lift_lets

theorem execInputVoltage_answers (mv us : Nat) (stages : BitVec 5) (s : State) :
    Out.answers (execInputVoltage mv us stages s) := by
  unfold execInputVoltage
  repeat' first | exact Out.answers_next _ | split

theorem execSupplyFault_answers (stage2 : Bool) (group : Fin 64) (s : State) :
    Out.answers (execSupplyFault stage2 group s) := by
  unfold execSupplyFault
  repeat' first | exact Out.answers_next _ | split

theorem execCoolLost_answers (s : State) : Out.answers (execCoolLost s) := by
  unfold execCoolLost
  repeat' first | exact Out.answers_next _ | split | intro _ | lift_lets

theorem execCoolLostShutdown_answers (s : State) : Out.answers (execCoolLostShutdown s) := by
  unfold execCoolLostShutdown
  repeat' first | exact Out.answers_next _ | split

theorem execPumpDutyUpdate_answers (s : State) : Out.answers (execPumpDutyUpdate s) := by
  unfold execPumpDutyUpdate
  repeat' first | exact Out.answers_next _ | split

theorem execResetNRelease_answers (fuses : List (FuseRead × FuseRead)) (s : State) :
    Out.answers (execResetNRelease fuses s) := by
  unfold execResetNRelease
  repeat' first | exact Out.answers_next _ | split

theorem execVinInRange_answers (mv : Nat) (s : State) : Out.answers (execVinInRange mv s) := by
  unfold execVinInRange
  repeat' first | exact Out.answers_next _ | split | intro _ | lift_lets

/-- Every command answers a next state. -/
theorem exec_answers (i : Instr) (s : State) : Out.answers (exec i s) := by
  cases i with
  | instructionDispatch => exact execInstructionDispatch_answers ..
  | breakEntry => exact execBreakEntry_answers ..
  | streamHalted => exact execStreamHalted_answers ..
  | illEngine d t c => exact (State.execHead_answers .. : Out.answers (execIllEngine d t c s))
  | mma d t c => exact (State.execHead_answers .. : Out.answers (execMma d t c s))
  | mmaResultCycle => exact execMmaResultCycle_answers ..
  | abftVerdict => exact execAbftVerdict_answers ..
  | accst d t c => exact (State.execHead_answers .. : Out.answers (execAccst d t c s))
  | converterRow => exact execConverterRow_answers ..
  | accsave d t c => exact (State.execHead_answers .. : Out.answers (execAccsave d t c s))
  | accload d t c => exact (State.execHead_answers .. : Out.answers (execAccload d t c s))
  | accloadExchange => exact execAccloadExchange_answers ..
  | accumulatorReadComplete => exact execAccumulatorReadComplete_answers ..
  | vsetvl d t c => exact (State.execHead_answers .. : Out.answers (execVsetvl d t c s))
  | vfa d t c => exact (State.execHead_answers .. : Out.answers (execVfa d t c s))
  | vfd d t c => exact (State.execHead_answers .. : Out.answers (execVfd d t c s))
  | vtr d t c => exact (State.execHead_answers .. : Out.answers (execVtr d t c s))
  | via d t c => exact (State.execHead_answers .. : Out.answers (execVia d t c s))
  | vcmp d t c => exact (State.execHead_answers .. : Out.answers (execVcmp d t c s))
  | vicmp d t c => exact (State.execHead_answers .. : Out.answers (execVicmp d t c s))
  | vmask d t c => exact (State.execHead_answers .. : Out.answers (execVmask d t c s))
  | vcvt d t c => exact (State.execHead_answers .. : Out.answers (execVcvt d t c s))
  | vperm d t c => exact (State.execHead_answers .. : Out.answers (execVperm d t c s))
  | vqpop d t c => exact (State.execHead_answers .. : Out.answers (execVqpop d t c s))
  | vqpush d t c => exact (State.execHead_answers .. : Out.answers (execVqpush d t c s))
  | vectorComplete => exact execVectorComplete_answers ..
  | red d t c => exact (State.execHead_answers .. : Out.answers (execRed d t c s))
  | racc d t c => exact (State.execHead_answers .. : Out.answers (execRacc d t c s))
  | rfold d t c => exact (State.execHead_answers .. : Out.answers (execRfold d t c s))
  | rclr d t c => exact (State.execHead_answers .. : Out.answers (execRclr d t c s))
  | reductionComplete => exact execReductionComplete_answers ..
  | sia d t c => exact (State.execHead_answers .. : Out.answers (execSia d t c s))
  | sfa d t c => exact (State.execHead_answers .. : Out.answers (execSfa d t c s))
  | dividerComplete => exact execDividerComplete_answers ..
  | scmp d t c => exact (State.execHead_answers .. : Out.answers (execScmp d t c s))
  | sicmp d t c => exact (State.execHead_answers .. : Out.answers (execSicmp d t c s))
  | scvt d t c => exact (State.execHead_answers .. : Out.answers (execScvt d t c s))
  | sli d t c => exact (State.execHead_answers .. : Out.answers (execSli d t c s))
  | br d t c => exact (State.execHead_answers .. : Out.answers (execBr d t c s))
  | ald d t c => exact (State.accHead_answers .. : Out.answers (execAld d t c s))
  | ast d t c => exact (State.accHead_answers .. : Out.answers (execAst d t c s))
  | acopy d t c => exact (State.accHead_answers .. : Out.answers (execAcopy d t c s))
  | alds d t c => exact (State.accHead_answers .. : Out.answers (execAlds d t c s))
  | asts d t c => exact (State.accHead_answers .. : Out.answers (execAsts d t c s))
  | asig d t c => exact (State.accHead_answers .. : Out.answers (execAsig d t c s))
  | afence d t c => exact (State.accHead_answers .. : Out.answers (execAfence d t c s))
  | accessResponse => exact execAccessResponse_answers ..
  | oqBlockReady => exact execOqBlockReady_answers ..
  | accessComplete => exact execAccessComplete_answers ..
  | requestRetryResend => exact execRequestRetryResend_answers ..
  | signal d t acc c => exact (State.headIssue_answers .. : Out.answers (execSignal d t acc c s))
  | wait d t acc c => exact (State.headIssue_answers .. : Out.answers (execWait d t acc c s))
  | waitalm d t acc c => exact (State.headIssue_answers .. : Out.answers (execWaitalm d t acc c s))
  | notify d t acc c => exact (State.headIssue_answers .. : Out.answers (execNotify d t acc c s))
  | fset d t acc c => exact (State.headIssue_answers .. : Out.answers (execFset d t acc c s))
  | notifyEventTake => exact execNotifyEventTake_answers ..
  | nop d t c => exact (State.execHead_answers .. : Out.answers (execNop d t c s))
  | halt d t c => exact (State.execHead_answers .. : Out.answers (execHalt d t c s))
  | loop d t c => exact (State.execHead_answers .. : Out.answers (execLoop d t c s))
  | rdcr d t c => exact (State.execHead_answers .. : Out.answers (execRdcr d t c s))
  | wrcr d t c => exact (State.execHead_answers .. : Out.answers (execWrcr d t c s))
  | yield d t c => exact (State.execHead_answers .. : Out.answers (execYield d t c s))
  | catchCropSwitch => exact execCatchCropSwitch_answers ..
  | catchCropSwitchComplete => exact execCatchCropSwitchComplete_answers ..
  | cropReturnBeat => exact execCropReturnBeat_answers ..
  | cropOverrun => exact execCropOverrun_answers ..
  | circularWait => exact execCircularWait_answers ..
  | start => exact execStart_answers ..
  | stop => exact execStop_answers ..
  | abort => exact execAbort_answers ..
  | restart => exact execRestart_answers ..
  | resume => exact execResume_answers ..
  | cvtSeedWrite d t bank seed => exact (Out.answers_next .. : Out.answers (execCvtSeedWrite d t bank seed s))
  | registerWrite => exact execRegisterWrite_answers ..
  | meshSramRequest => exact execMeshSramRequest_answers ..
  | flagIncrement => exact execFlagIncrement_answers ..
  | dieFabricFlit => exact execDieFabricFlit_answers ..
  | routeTableChange => exact execRouteTableChange_answers ..
  | routeDrainTimeout => exact execRouteDrainTimeout_answers ..
  | commandDeliver => exact execCommandDeliver_answers ..
  | execBeatReached => exact execExecBeatReached_answers ..
  | problemStart => exact execProblemStart_answers ..
  | factorStageComplete => exact execFactorStageComplete_answers ..
  | refineResidual => exact execRefineResidual_answers ..
  | retainCommit => exact execRetainCommit_answers ..
  | factorDeadline => exact execFactorDeadline_answers ..
  | factorBatchComplete => exact execFactorBatchComplete_answers ..
  | factorBatch cid => exact (State.factorCmd_answers .. : Out.answers (execFactorBatch cid s))
  | factorStore cid => exact (State.factorCmd_answers .. : Out.answers (execFactorStore cid s))
  | factorRelease cid => exact (State.factorCmd_answers .. : Out.answers (execFactorRelease cid s))
  | factorReset cid => exact (State.factorCmd_answers .. : Out.answers (execFactorReset cid s))
  | factorAbort cid => exact (State.atOnce_answers .. : Out.answers (execFactorAbort cid s))
  | memRequest => exact execMemRequest_answers ..
  | winnowerAccess => exact execWinnowerAccess_answers ..
  | scrubRead => exact execScrubRead_answers ..
  | refresh => exact execRefresh_answers ..
  | rfm => exact execRfm_answers ..
  | repairCandidate => exact execRepairCandidate_answers ..
  | hbmTempPoll => exact execHbmTempPoll_answers ..
  | hbmLevel3Throttle => exact execHbmLevel3Throttle_answers ..
  | hbmRecalibration => exact execHbmRecalibration_answers ..
  | memMode cid => exact (State.withCmd_answers .. : Out.answers (execMemMode cid s))
  | hbmRepair cid => exact (State.withCmd_answers .. : Out.answers (execHbmRepair cid s))
  | hbmMargin => exact execHbmMargin_answers ..
  | eccInject cid => exact (State.withCmd_answers .. : Out.answers (execEccInject cid s))
  | update cid => exact (State.withCmd_answers .. : Out.answers (execUpdate cid s))
  | voteRoundComplete => exact execVoteRoundComplete_answers ..
  | voteTimeout => exact execVoteTimeout_answers ..
  | updateComplete => exact execUpdateComplete_answers ..
  | trainCfg cid => exact (State.withCmd_answers .. : Out.answers (execTrainCfg cid s))
  | stashPack cid => exact (State.withCmd_answers .. : Out.answers (execStashPack cid s))
  | stashUnpack cid => exact (State.withCmd_answers .. : Out.answers (execStashUnpack cid s))
  | flitTransmit => exact execFlitTransmit_answers ..
  | flitReceive => exact execFlitReceive_answers ..
  | laneLockLost => exact execLaneLockLost_answers ..
  | linkTrainingComplete => exact execLinkTrainingComplete_answers ..
  | retrainComplete => exact execRetrainComplete_answers ..
  | creditAudit => exact execCreditAudit_answers ..
  | auditFlit => exact execAuditFlit_answers ..
  | packetForward => exact execPacketForward_answers ..
  | write => exact execWrite_answers ..
  | read => exact execRead_answers ..
  | readRsp => exact execReadRsp_answers ..
  | writeAck => exact execWriteAck_answers ..
  | errorRsp => exact execErrorRsp_answers ..
  | signalPacket => exact execSignalPacket_answers ..
  | remoteTimeout => exact execRemoteTimeout_answers ..
  | coll cid => exact (State.withCmd_answers .. : Out.answers (execColl cid s))
  | ldLaunch l w => exact (Out.answers_next .. : Out.answers (execLdLaunch l w s))
  | collData => exact execCollData_answers ..
  | collCtrl => exact execCollCtrl_answers ..
  | collDeadline => exact execCollDeadline_answers ..
  | collComplete => exact execCollComplete_answers ..
  | vote => exact execVote_answers ..
  | rotate cid => exact (State.withCmd_answers .. : Out.answers (execRotate cid s))
  | rotData => exact execRotData_answers ..
  | rotationRoundComplete => exact execRotationRoundComplete_answers ..
  | torusCfg cid => exact (State.withCmd_answers .. : Out.answers (execTorusCfg cid s))
  | routeSet cid => exact (State.withCmd_answers .. : Out.answers (execRouteSet cid s))
  | linkCtrl cid => exact (State.withCmd_answers .. : Out.answers (execLinkCtrl cid s))
  | beatBoundary => exact (Out.answers_next .. : Out.answers (execBeatBoundary s))
  | seasonStartBoundary => exact execSeasonStartBoundary_answers ..
  | beatSend => exact execBeatSend_answers ..
  | beat => exact execBeat_answers ..
  | almSyncLost => exact execAlmSyncLost_answers ..
  | almCfgApply => exact execAlmCfgApply_answers ..
  | almRefLost => exact execAlmRefLost_answers ..
  | almRefReturn => exact execAlmRefReturn_answers ..
  | almPpsEdge => exact execAlmPpsEdge_answers ..
  | almPpsLost => exact execAlmPpsLost_answers ..
  | almCfg cid => exact (State.withCmd_answers .. : Out.answers (execAlmCfg cid s))
  | almSeasonStart cid => exact (State.withCmd_answers .. : Out.answers (execAlmSeasonStart cid s))
  | gleanWindowEdge => exact execGleanWindowEdge_answers ..
  | sdDoorbell ring value => exact (Out.answers_next .. : Out.answers (execSdDoorbell ring value s))
  | commandAccept => exact execCommandAccept_answers ..
  | nopCommand cid => exact (State.withCmd_answers .. : Out.answers (execNopCommand cid s))
  | regWrite cid => exact (State.withCmd_answers .. : Out.answers (execRegWrite cid s))
  | regRead cid => exact (State.withCmd_answers .. : Out.answers (execRegRead cid s))
  | progLoad cid => exact (State.withCmd_answers .. : Out.answers (execProgLoad cid s))
  | runStart cid => exact (State.withCmd_answers .. : Out.answers (execRunStart cid s))
  | runCtrl cid => exact (State.withCmd_answers .. : Out.answers (execRunCtrl cid s))
  | runAbort cid => exact (State.withCmd_answers .. : Out.answers (execRunAbort cid s))
  | dmaCopy cid hostData => exact (State.withCmd_answers .. : Out.answers (execDmaCopy cid hostData s))
  | maintEnter cid => exact (State.withCmd_answers .. : Out.answers (execMaintEnter cid s))
  | maintExit => exact execMaintExit_answers ..
  | maintReset cid => exact (State.withCmd_answers .. : Out.answers (execMaintReset cid s))
  | dbgMode cid => exact (State.withCmd_answers .. : Out.answers (execDbgMode cid s))
  | sdBootGo value => exact (Out.answers_next .. : Out.answers (execSdBootGo value s))
  | cbrkResume value => exact (Out.answers_next .. : Out.answers (execCbrkResume value s))
  | ringEnable ring value => exact (Out.answers_next .. : Out.answers (execRingEnable ring value s))
  | hostBarAccess => exact execHostBarAccess_answers ..
  | pcieHostReset => exact (Out.answers_next .. : Out.answers (execPcieHostReset s))
  | ucieFrame => exact execUcieFrame_answers ..
  | sowCfg cid => exact (State.withCmd_answers .. : Out.answers (execSowCfg cid s))
  | sowOpen cid => exact (State.withCmd_answers .. : Out.answers (execSowOpen cid s))
  | sowRemirror => exact execSowRemirror_answers ..
  | harvestCfg cid => exact (State.withCmd_answers .. : Out.answers (execHarvestCfg cid s))
  | harvestTake cid => exact (State.withCmd_answers .. : Out.answers (execHarvestTake cid s))
  | harvestCapture => exact execHarvestCapture_answers ..
  | harvestPhaseEnd => exact execHarvestPhaseEnd_answers ..
  | harvestTallyCheck => exact execHarvestTallyCheck_answers ..
  | harvestDrain => exact execHarvestDrain_answers ..
  | harvestRestore => exact execHarvestRestore_answers ..
  | spareAdopt cid checkOk => exact (State.withCmd_answers .. : Out.answers (execSpareAdopt cid checkOk s))
  | dieRetire cid => exact (State.withCmd_answers .. : Out.answers (execDieRetire cid s))
  | pErrTailWrite b value => exact (Out.answers_next .. : Out.answers (execPErrTailWrite b value s))
  | pErrAck b value => exact (Out.answers_next .. : Out.answers (execPErrAck b value s))
  | sealVerify cid => exact (State.withCmd_answers .. : Out.answers (execSealVerify cid s))
  | sealRelease cid => exact (State.withCmd_answers .. : Out.answers (execSealRelease cid s))
  | errInject cid => exact (State.withCmd_answers .. : Out.answers (execErrInject cid s))
  | selftestRun cid failed => exact (State.withCmd_answers .. : Out.answers (execSelftestRun cid failed s))
  | gleanCfg cid => exact (State.withCmd_answers .. : Out.answers (execGleanCfg cid s))
  | gleanWindow cid => exact (State.withCmd_answers .. : Out.answers (execGleanWindow cid s))
  | telemCfg cid => exact (State.withCmd_answers .. : Out.answers (execTelemCfg cid s))
  | selftest => exact execSelftest_answers ..
  | selftestOverdue => exact execSelftestOverdue_answers ..
  | agingGuardband => exact execAgingGuardband_answers ..
  | telemetryRecord => exact execTelemetryRecord_answers ..
  | watchdog => exact execWatchdog_answers ..
  | ctrlParity b => exact (Out.answers_next .. : Out.answers (execCtrlParity b s))
  | fuseParity => exact (Out.answers_next .. : Out.answers (execFuseParity s))
  | powerOnReset => exact execPowerOnReset_answers ..
  | resetN => exact execResetN_answers ..
  | warmReset => exact execWarmReset_answers ..
  | oscWaitEnd => exact execOscWaitEnd_answers ..
  | oscRetry => exact execOscRetry_answers ..
  | powerUpReady => exact execPowerUpReady_answers ..
  | clockMonitorWindow => exact execClockMonitorWindow_answers ..
  | pllUnlock => exact execPllUnlock_answers ..
  | pllRelock => exact execPllRelock_answers ..
  | wclkReturn => exact execWclkReturn_answers ..
  | optionCommit value => exact (Out.answers_next .. : Out.answers (execOptionCommit value s))
  | secAttest cid => exact (State.withCmd_answers .. : Out.answers (execSecAttest cid s))
  | secIdentity cid => exact (State.withCmd_answers .. : Out.answers (execSecIdentity cid s))
  | secFuseBlow cid miss => exact (State.withCmd_answers .. : Out.answers (execSecFuseBlow cid miss s))
  | secKeyProvision cid miss => exact (State.withCmd_answers .. : Out.answers (execSecKeyProvision cid miss s))
  | jtagInstruction => exact execJtagInstruction_answers ..
  | i3cTransfer => exact execI3cTransfer_answers ..
  | dieTempPoll => exact execDieTempPoll_answers ..
  | powerLimitWindow => exact execPowerLimitWindow_answers ..
  | inputVoltage => exact execInputVoltage_answers ..
  | supplyFault => exact execSupplyFault_answers ..
  | coolOkDeassert => exact (Out.answers_next .. : Out.answers (execCoolOkDeassert s))
  | coolLost => exact execCoolLost_answers ..
  | coolLostShutdown => exact execCoolLostShutdown_answers ..
  | pumpDutyUpdate => exact execPumpDutyUpdate_answers ..
  | coolOkAssert => exact (Out.answers_next .. : Out.answers (execCoolOkAssert s))
  | resetNRelease => exact execResetNRelease_answers ..
  | vinInRange => exact execVinInRange_answers ..

end Sys2Proof.Machine
end

section
namespace Sys2Proof
open Sys2Proof.Machine

/-- Settles O59. -/
theorem everyCommandAnswers : Obligations.EveryCommandAnswers := exec_answers

end Sys2Proof
end

section
/-! The state after reset (R102, R165, R262, R326, R355, R409, R436). -/
namespace Sys2Proof.Machine

/-- The bits that a device is shipped with lie in fields that commands may blow. -/
theorem fusesShipped_ok : fuseCopyOk fusesShipped := by
  intro w
  simp only [fusesShipped, Table.get, Table.find]
  split
  · subst_vars; decide
  · split
    · subst_vars; decide
    · simp

theorem reset_fusesOk : State.reset.fusesOk :=
  ⟨fusesShipped_ok, fusesShipped_ok, fun _ h => by cases h⟩

end Sys2Proof.Machine

namespace Sys2Proof
open Sys2Proof.Machine

/-- Settles O55. -/
theorem resetIsAtRest : Obligations.ResetIsAtRest := by
  refine ⟨reset_fusesOk, by decide, rfl, fun d t => ⟨rfl, rfl, rfl⟩, fun n => rfl, rfl, rfl, rfl, rfl⟩

end Sys2Proof
end

section
/-! Memory, interleaves and clamping (R29, R36, R204, R343). -/
namespace Sys2Proof.Machine

/-- Bytes written are read back (R36): the first byte is not touched by the writes behind it. -/
theorem readBytes_writeBytes (m : Memory) (a : Nat) (l : List Byte) : readBytes (writeBytes m a l) a l.length = l := by
  induction l generalizing m a with
  | nil => rfl
  | cons b l ih =>
    rw [List.length_cons, readBytes, writeBytes, ih, Memory.get_writeBytes_below _ _ _ _ (Nat.lt_succ_self a),
      Table.get_set, if_pos rfl]

/-- The nearest member: what the fold has met so far, and no member of the list, lies nearer. -/
theorem foldl_nearest (dist : Nat → Nat) (l : List Nat) (best : Nat) :
    let x := l.foldl (fun best x => if dist x < dist best then x else best) best
    (x = best ∨ x ∈ l) ∧ dist x ≤ dist best ∧ ∀ w ∈ l, dist x ≤ dist w := by
  induction l generalizing best with
  | nil => simp
  | cons y l ih =>
    obtain ⟨hmem, hbest, hall⟩ := ih (if dist y < dist best then y else best)
    rw [List.foldl_cons]
    generalize l.foldl _ _ = x at hmem hbest hall ⊢
    have hy : dist x ≤ dist y := by split at hbest <;> omega
    refine ⟨?_, by split at hbest <;> omega, fun w hw => ?_⟩
    · rcases hmem with rfl | h
      · split <;> simp
      · exact .inr (.tail _ h)
    · rcases List.mem_cons.1 hw with rfl | h
      · exact hy
      · exact hall w h

/-- How far two numbers lie apart. -/
theorem max_sub_min (x v : Nat) : max x v - min x v = if x < v then v - x else x - v := by split <;> omega

/-- A member of the list, and none is nearer. -/
theorem nearest_spec (l : List Nat) (v : Nat) (hl : l ≠ []) : nearest l v ∈ l ∧
    ∀ w ∈ l, max (nearest l v) v - min (nearest l v) v ≤ max w v - min w v := by
  obtain ⟨hmem, -, hall⟩ := foldl_nearest (fun x => if x < v then v - x else x - v) l (l.headD 0)
  have hhead : l.headD 0 ∈ l := by
    cases l with
    | nil => exact absurd rfl hl
    | cons a l => exact List.mem_cons_self
  refine ⟨?_, fun w hw => ?_⟩
  · rcases hmem with h | h
    · rwa [← h] at hhead
    · exact h
  · rw [max_sub_min, max_sub_min]
    exact hall w hw

/-- Clamping stays in the range, keeps what lies in it, and goes no further than any member of it. -/
theorem clampNat_spec {lo hi : Nat} (h : lo ≤ hi) (v : Nat) :
    lo ≤ clampNat lo hi v ∧ clampNat lo hi v ≤ hi ∧ (lo ≤ v → v ≤ hi → clampNat lo hi v = v) ∧
    ∀ w, lo ≤ w → w ≤ hi → max (clampNat lo hi v) v - min (clampNat lo hi v) v ≤ max w v - min w v := by
  unfold clampNat
  split
  · exact ⟨le_rfl, h, by omega, by omega⟩
  · split
    · exact ⟨h, le_rfl, by omega, by omega⟩
    · exact ⟨by omega, by omega, fun _ _ => rfl, by omega⟩

/-- Clamping between multiples keeps a multiple one. -/
theorem clampNat_mod {a lo hi v : Nat} (hlo : lo % a = 0) (hhi : hi % a = 0) (hv : v % a = 0) :
    clampNat lo hi v % a = 0 := by
  unfold clampNat
  split
  · exact hlo
  · split
    · exact hhi
    · exact hv

end Sys2Proof.Machine

namespace Sys2Proof
open Sys2Proof.Machine

/-- Settles O51: the bits of an address below the stack's offset, the stack and the page number give it back. -/
theorem interleavesAreOneToOne : Obligations.InterleavesAreOneToOne := by
  intro quadLocal a ha
  refine ⟨?_, ?_, fun b hb h => ?_, by simp only [decodeLocal, if_pos ha]⟩
  · cases quadLocal <;> simp only [hbmLoc, Bool.false_eq_true, if_false, if_true] <;> omega
  · cases quadLocal <;> simp only [hbmLoc, Bool.false_eq_true, if_false, if_true] <;> omega
  · cases quadLocal <;> simp only [hbmLoc, Prod.mk.injEq, Bool.false_eq_true, if_false, if_true] at h <;> omega

/-- Settles O52. -/
theorem memoryKeepsWhatIsWritten : Obligations.MemoryKeepsWhatIsWritten := by
  refine fun m a l => ⟨readBytes_writeBytes m a l, fun x hx => ?_, Memory.wf_writeBytes m a l⟩
  rcases hx with h | h
  · exact Memory.get_writeBytes_below m a x l h
  · exact Memory.get_writeBytes_above m a x l h

/-- Settles O53. -/
theorem parametersAreBroughtToLegalValues : Obligations.ParametersAreBroughtToLegalValues := by
  refine fun s die off n v p => ⟨fun lo hi h => clampNat_spec h v, fun a lo hi ha h hlo hhi => ?_, fun l hl => ?_⟩
  · obtain ⟨hge, hle, hkeep, -⟩ := clampNat_spec h (v - v % a)
    have hmod : (v - v % a) % a = 0 := Nat.sub_mod_eq_zero_of_mod_eq (Nat.mod_mod _ _).symm
    refine ⟨hge, hle, clampNat_mod hlo hhi hmod, fun hv hlo' hhi' => ?_⟩
    rw [hv] at hkeep
    exact (by rw [hv]; exact hkeep hlo' hhi' : clampNat lo hi (v - v % a) = v)
  · obtain ⟨hmem, hnear⟩ := nearest_spec l v hl
    refine ⟨hmem, fun hv => ?_, hnear⟩
    change nearest l v = v
    have h := hnear v hv
    omega

end Sys2Proof
end

section
/-! Completions of the engines, branches, and the instructions of the matrix engine (R69 to R86, R113, R120, R155,
R156). -/
namespace Sys2Proof.Machine

/-! ## Completions -/

theorem execDividerComplete_of_div {d : Fin 32} {t : Fin 144} {s : State} {due : Nat}
    (hdiv : (s.tile d t).div = some due) (h : s.reached d t due = true) :
    execDividerComplete d t s
      = .next ((s.land d t due).setTile d t { (s.land d t due).tile d t with div := none }) := by
  simp only [execDividerComplete, hdiv, State.ownEvent_reached h]

theorem execVectorComplete_of_firstDue {d : Fin 32} {t : Fin 144} {s : State} {j : VecJob} {rest : List VecJob}
    (hjob : firstDue (s.tile d t).vjobs = some (j, rest)) (h : s.reached d t j.due = true) :
    execVectorComplete d t s
      = .next ((s.land d t j.due).setTile d t { (s.land d t j.due).tile d t with vjobs := rest }) := by
  simp only [execVectorComplete, hjob, State.ownEvent_reached h]

theorem execReductionComplete_of_firstRed {d : Fin 32} {t : Fin 144} {s : State} {j0 j : RedJob} {l0 rest : List RedJob}
    (hjob : firstRed (s.tile d t).rjobs = some (j0, l0)) (h : s.reached d t j0.due = true)
    (hlanded : firstRed ((s.land d t j0.due).tile d t).rjobs = some (j, rest)) :
    execReductionComplete d t s = .next ((s.land d t j0.due).setTile d t
      { ((s.land d t j0.due).tile d t).leaveLanes j with rjobs := rest }) := by
  simp only [execReductionComplete, hjob, State.ownEvent_reached h, hlanded]

end Sys2Proof.Machine

namespace Sys2Proof
open Sys2Proof.Machine

/-- Settles O2: each completion is an event of the tile's own, so what is due by its cycle lands first. -/
theorem engineCompletionsRecordTheirResults : Obligations.EngineCompletionsRecordTheirResults := by
  refine fun d t s => ⟨fun due hdiv h => execDividerComplete_of_div hdiv h,
    fun j rest hjob h => execVectorComplete_of_firstDue hjob h, fun j0 l0 j rest hjob h hlanded => ?_⟩
  have hrun := execReductionComplete_of_firstRed hjob h hlanded
  exact ⟨fun hcarry => hrun.trans (by simp only [Tile.leaveLanes, hcarry]),
    fun k l hcarry => hrun.trans (by simp only [Tile.leaveLanes, hcarry])⟩

end Sys2Proof
end

section
namespace Sys2Proof.Machine

variable {s : State} {d t c : Nat} {q : QEntry}

/-! ## BR (R155) -/

theorem State.brIssue_reserved (h : 5 ≤ sFunc q.word) :
    let T0 := s.tile d t
    let T : Tile := { T0 with times := { T0.times with exec := c + 2 } }
    s.brIssue d t c q = (s.setTile d t
      ((T0.setCtx T0.active (T0.cur.advance (T.cur.pc - 1))).resumeDispatch c)).skip d t q 0x01 := by
  unfold State.brIssue
  exact if_pos h

/-- A branch of a condition: taken to its target or beyond the program, or not taken. -/
theorem State.brIssue_condition (h : sFunc q.word < 5) :
    let T : Tile := { s.tile d t with times := { (s.tile d t).times with exec := c + 2 } }
    let word := T.cur.pc - 1
    let target := (word : Int) + signedOf 21 (bits q.word 36 16)
    s.brIssue d t c q =
      if brTaken T q.word then
        if target < 0 ∨ 16383 < target then (s.setTile d t T).pcRange d t q.count
        else s.setTile d t ((T.setCtx T.active
          { T.cur with pc := target.toNat, loops := loopsAt target.toNat T.cur.loops }).resumeDispatch c)
      else s.setTile d t ((T.setCtx T.active (T.cur.advance word)).resumeDispatch c) := by
  unfold State.brIssue
  exact if_neg (Nat.not_le.2 h)

end Sys2Proof.Machine

namespace Sys2Proof
open Sys2Proof.Machine

/-- Settles O3. -/
theorem branchGoesToItsTarget : Obligations.BranchGoesToItsTarget := by
  intro d t c s q rest hturn
  refine ⟨fun hfunc => ⟨fun htaken => ?_, fun htaken hlo hhi => ?_, fun htaken hout => ?_⟩, fun hfunc => ?_⟩
  all_goals refine (State.execHead_turn hturn _ : execBr d t c s = _).trans ?_
  case refine_4 => rw [State.brIssue_reserved hfunc]
  all_goals
    rw [State.brIssue_condition hfunc]
    dsimp only
  · rw [if_neg (ne_true_of_eq_false htaken)]
  · rw [if_pos htaken, if_neg (not_or.2 ⟨not_lt.2 hlo, not_lt.2 hhi⟩)]
  · rw [if_pos htaken, if_pos hout]

end Sys2Proof
end

section
namespace Sys2Proof.Machine

/-! ## Accumulator tiles that an instruction marks busy -/

@[simp] theorem Tile.setAcc_acc (T : Tile) (a b : Nat) (x : Acc) :
    (T.setAcc a x).acc b = if a = b then x else T.acc b := Table.get_set _ _ _ _ _

/-- The fold that marks a list of tiles busy. -/
def Tile.markBusy (T : Tile) (l : List Nat) : Tile := l.foldl (fun T a => T.setAcc a { T.acc a with busy := true }) T

/-- Marking tiles busy changes nothing but the accumulators. -/
theorem Tile.markBusy_accs (T : Tile) (l : List Nat) : T.markBusy l = { T with accs := (T.markBusy l).accs } := by
  unfold Tile.markBusy
  induction l generalizing T with
  | nil => rfl
  | cons a l ih => rw [List.foldl_cons, ih]; rfl

theorem Tile.markBusy_busy (T : Tile) (l : List Nat) (a : Nat) :
    ((T.markBusy l).acc a).busy = (decide (a ∈ l) || (T.acc a).busy) := by
  unfold Tile.markBusy
  induction l generalizing T with
  | nil => simp
  | cons b l ih =>
    rw [List.foldl_cons, ih, Tile.setAcc_acc]
    by_cases h : b = a
    · simp [h]
    · simp [h, Ne.symm h]

/-! ## MMA (R70, R73, R81) -/

variable {s : State} {d t c : Nat} {q : QEntry}

/-- The bytes of operand block n of an MMA; a placeholder reads as zero bits (R146). -/
def Tile.mmaBytes (T : Tile) (n fmt : Nat) : List Byte :=
  match T.oqm[n]? with
  | some b => if b.hole then List.replicate (blockBytes fmt) 0 else b.data
  | none => []

/-- The work that an MMA leaves for its result cycle. -/
def Tile.mmaJob (T : Tile) (c : Nat) (q : QEntry) : MmaJob :=
  ⟨q.count, T.active, Fin.ofNat 8 (mAcc q.word), mAdd q.word, mFmtA q.word, mFmtB q.word,
    T.mmaBytes 0 (mFmtA q.word), T.mmaBytes 1 (mFmtB q.word), c + 76⟩

/-- A tile behind the issue of an MMA. -/
def Tile.mmaTaken (T : Tile) (c : Nat) (q : QEntry) : Tile :=
  { T with oqm := T.oqm.drop 2, mmas := T.mmas ++ [T.mmaJob c q], times := { T.times with array := c + 64 } }.markBusy
    (accNames (Fin.ofNat 8 (mAcc q.word)).val (mFmtA q.word == 0))

/-- What the issue leaves in every field but the accumulators. -/
theorem Tile.mmaTaken_accs (T : Tile) (c : Nat) (q : QEntry) : T.mmaTaken c q =
    { T with oqm := T.oqm.drop 2, mmas := T.mmas ++ [T.mmaJob c q], times := { T.times with array := c + 64 }
             accs := (T.mmaTaken c q).accs } := Tile.markBusy_accs _ _

theorem ofNat_mAcc (w : BitVec 64) : (Fin.ofNat 8 (mAcc w)).val = mAcc w :=
  Nat.mod_eq_of_lt (Nat.mod_lt _ (by decide))

theorem State.mmaIssue_run (h : firstCode (mmaChecks (s.tile d t) c q.word) = none) : s.mmaIssue d t c q =
    let T := s.tile d t
    if (T.oqm.take 2).any OqBlock.hole then (s.setTile d t (T.mmaTaken c q)).logTile d t q 0x12 0
      else s.setTile d t (T.mmaTaken c q) := by
  simp only [State.mmaIssue, h]
  rfl

theorem State.mmaIssue_skip {code : Nat} (h : firstCode (mmaChecks (s.tile d t) c q.word) = some code) :
    s.mmaIssue d t c q = (s.setTile d t (if wOpc q.word = 0 then { s.tile d t with oqm := (s.tile d t).oqm.drop 2 }
      else s.tile d t)).skip d t q code := by
  simp only [State.mmaIssue, h]

/-! ## ACCST, ACCSAVE and ACCLOAD (R84 to R86) -/

theorem State.accstIssue_skip {code : Nat} (h : firstCode (accstChecks (s.tile d t) c q.word) = some code) :
    s.accstIssue d t c q = (s.setTile d t (s.tile d t).addSqHole).skip d t q code := by
  simp only [State.accstIssue, h]

theorem State.accsaveIssue_skip {code : Nat} (h : firstCode (accsaveChecks (s.tile d t) c q.word) = some code) :
    s.accsaveIssue d t c q = s.skip d t q code := by
  simp only [State.accsaveIssue, h]

theorem State.accloadIssue_skip {code : Nat} (h : firstCode (accloadChecks (s.tile d t) c q.word) = some code) :
    s.accloadIssue d t c q = s.skip d t q code := by
  simp only [State.accloadIssue, h]

end Sys2Proof.Machine

namespace Sys2Proof
open Sys2Proof.Machine

/-- Settles O4: the tile behind the issue is Tile.mmaTaken, which touches the accumulators' busy bits and the fields
that it names. -/
theorem mmaTakesItsBlocksAndTheArray : Obligations.MmaTakesItsBlocksAndTheArray := by
  intro d t c s q rest s1 T hturn hchecks bytes
  refine ⟨T.mmaTaken c q, ?_, ?_⟩
  · exact (State.execHead_turn hturn _ : execMma d t c s = _).trans (by rw [State.mmaIssue_run hchecks])
  · have hbusy (a : Nat) (ha : a ∈ accNames (mAcc q.word) (mFmtA q.word == 0)) :
        ((T.mmaTaken c q).acc a).busy = true := by
      rw [Tile.mmaTaken, Tile.markBusy_busy, ofNat_mAcc, decide_eq_true ha, Bool.true_or]
    have hjob : (T.mmaTaken c q).mmas = T.mmas ++ [T.mmaJob c q] := by rw [Tile.mmaTaken_accs]
    refine ⟨?_, ?_, hbusy, ⟨T.mmaJob c q, hjob, rfl, rfl, ofNat_mAcc q.word, rfl, rfl, rfl, rfl, rfl⟩,
      ?_, ?_, ?_, ?_, ?_⟩
    all_goals rw [Tile.mmaTaken_accs]

end Sys2Proof
end

section
namespace Sys2Proof
open Sys2Proof.Machine

/-- Settles O5: an ACCST, an ACCSAVE and an ACCLOAD by their own meanings, and what each condition of R73 skips. -/
theorem accumulatorInstructionsIssue : Obligations.AccumulatorInstructionsIssue := by
  intro d t c s q rest s1 T a off
  refine ⟨fun hturn hchecks => ?_, fun hturn hchecks => ?_, fun hturn hchecks => ?_,
    fun code => ⟨fun hturn hchecks => ?_, fun hturn hchecks => ?_, fun hturn hchecks => ?_,
      fun hturn hchecks => ?_⟩⟩
  · exact (State.execHead_turn hturn _ : execAccst d t c s = _).trans (by
      unfold State.accstIssue
      dsimp only
      rw [hchecks])
  · exact (State.execHead_turn hturn _ : execAccsave d t c s = _).trans (by
      unfold State.accsaveIssue
      dsimp only
      rw [hchecks])
  · exact (State.execHead_turn hturn _ : execAccload d t c s = _).trans (by
      unfold State.accloadIssue
      dsimp only
      rw [hchecks])
  · exact (State.execHead_turn hturn _ : execMma d t c s = _).trans (by rw [State.mmaIssue_skip hchecks])
  · exact (State.execHead_turn hturn _ : execAccst d t c s = _).trans (by rw [State.accstIssue_skip hchecks])
  · exact (State.execHead_turn hturn _ : execAccsave d t c s = _).trans (by rw [State.accsaveIssue_skip hchecks])
  · exact (State.execHead_turn hturn _ : execAccload d t c s = _).trans (by rw [State.accloadIssue_skip hchecks])

end Sys2Proof
end

section
/-! The vector engine's instructions in their turn: skipped by the first condition, else run (R102, R110, R118, R145,
R146, R157). -/
namespace Sys2Proof.Machine

variable {s : State} {d t c : Nat} {q : QEntry} {checks : List (Bool × Nat)}

theorem State.vecTry_skip {code : Nat} (h : firstCode checks = some code) (run : Tile → Tile) :
    s.vecTry d t q checks run = s.skip d t q code := by simp only [State.vecTry, h]

theorem State.vecTry_run (h : firstCode checks = none) (run : Tile → Tile) :
    s.vecTry d t q checks run = s.setTile d t (run (s.tile d t)) := by simp only [State.vecTry, h]

/-- No condition of the list holds. -/
theorem firstCode_none_iff {l : List (Bool × Nat)} : firstCode l = none ↔ ∀ p ∈ l, p.1 = false := by
  induction l with
  | nil => simp [firstCode]
  | cons p l ih =>
    obtain ⟨b, c⟩ := p
    cases b <;> simp [firstCode, ih]

/-! ## Landings -/

theorem Tile.mem_addPend (T : Tile) (n : BitVec 64) (c : Nat) (e : Landing) :
    (⟨c, n.toNat, e⟩ : Pend) ∈ (T.addPend n c e).pend :=
  (Tile.addPend_pend T n c e).symm.subset (by simp)

theorem Tile.mem_addPend_of_mem {T : Tile} {p : Pend} (h : p ∈ T.pend) (n : BitVec 64) (c : Nat) (e : Landing) :
    p ∈ (T.addPend n c e).pend :=
  (Tile.addPend_pend T n c e).symm.subset (List.mem_append_left _ h)

/-- What a busy engine leaves to land stays, and so does everything outside times, jobs and landings. -/
theorem Tile.mem_vecBusy_of_mem {T : Tile} {p : Pend} (h : p ∈ T.pend) (q : QEntry) (c busy due : Nat) (f : FpFlags)
    (clamps : Nat) : p ∈ (T.vecBusy q c busy due f clamps).pend := by
  obtain ⟨l, hl, -, -⟩ := vecBusy_pend T q c busy due f clamps
  exact hl.symm.subset (List.mem_append_left _ h)

/-- An engine that is busy has its own times, jobs and landings; every other field is as it was. -/
theorem Tile.vecBusy_eq (T : Tile) (q : QEntry) (c busy due : Nat) (f : FpFlags) (clamps : Nat) :
    let U := T.vecBusy q c busy due f clamps
    U = { T with times := U.times, vjobs := U.vjobs, pend := U.pend } := by
  unfold Tile.vecBusy
  dsimp only
  split <;> rfl

theorem vsetvlRun_keeps (c : Nat) (q : QEntry) (T : Tile) :
    let U := vsetvlRun c q T
    U.vregs = T.vregs ∧ U.masks = T.masks ∧ U.sram = T.sram ∧ U.ctx0 = T.ctx0 ∧ U.ctx1 = T.ctx1 := by
  dsimp only
  rw [vsetvlRun, Tile.vecBusy_eq]
  exact ⟨rfl, rfl, rfl, rfl, rfl⟩

/-- The parts of a tile that hold data: vector registers, masks, SRAM and accumulators. -/
def Tile.data (T : Tile) : Table (BitVec 4096) × Table (BitVec 4096) × Memory × Table Acc :=
  (T.vregs, T.masks, T.sram, T.accs)

/-- A log entry reaches a tile only to stop its dispatch. -/
theorem State.logErr_tile_data (s : State) (b : Nat) (e : ErrSpec) (d t : Nat) :
    ((s.logErr b e).tile d t).data = (s.tile d t).data := by
  rcases State.logErr_tile s b e d t with h | h <;> rw [h]
  unfold Tile.stopDispatch
  split <;> rfl

/-- A skip logs and keeps the word of the last skip; no tile's data changes. -/
theorem State.skip_tile_data (s : State) (d t : Nat) (q : QEntry) (code d' t' : Nat) :
    ((s.skip d t q code).tile d' t').data = (s.tile d' t').data := by
  rw [State.skip, State.logErr_tile_data, State.setTile_tile]
  split
  · rename_i hkey
    simp only [Tile.data, State.tile, hkey]
  · rfl

theorem State.skip_mem (s : State) (d t : Nat) (q : QEntry) (code : Nat) : (s.skip d t q code).mem = s.mem := by
  rw [State.skip, State.logErr_mem]
  rfl

end Sys2Proof.Machine

namespace Sys2Proof
open Sys2Proof.Machine

/-- Settles O9. -/
theorem vsetvlTakesTheSmaller : Obligations.VsetvlTakesTheSmaller := by
  intro d t c s q rest s1 T hturn hchecks n
  refine ⟨vsetvlRun c q T, ?_, ?_, ?_, ?_⟩
  · exact (State.execHead_turn hturn _ : execVsetvl d t c s = _).trans (by
      rw [State.vsetvlIssue, State.vecTry_run hchecks])
  · exact Tile.mem_vecBusy_of_mem (Tile.mem_addPend_of_mem (Tile.mem_addPend T q.count (c + 1) (.vl T.active n)) _ _ _)
      _ _ _ _ _ _
  · exact Tile.mem_vecBusy_of_mem (Tile.mem_addPend _ _ _ _) _ _ _ _ _ _
  · exact vsetvlRun_keeps c q T

/-- Settles O10: one shared operation skips, by the first condition that holds; a reserved opcode is skipped outright,
and VQPOP and VQPUSH first lose or leave their block. -/
theorem stoppedVectorInstructionsAreSkipped : Obligations.StoppedVectorInstructionsAreSkipped := by
  intro d t c s q rest code s1 T skipped
  refine ⟨fun hturn hcode => ?_, fun hturn hopc hcode => ?_, fun hturn hopc hcode => ?_, fun hturn hcode => ?_,
    fun hturn hcode => ?_, fun hturn hcode => ?_, fun hturn hcode => ?_, fun hturn hcode => ?_, fun hturn hcode => ?_,
    fun hturn hcode => ?_, fun hturn hcode => ?_, fun hturn hcode => ?_, fun hturn hcode => ?_,
    fun s2 => ⟨s2.skip_mem d t q code, fun d' t' => ?_⟩⟩
  · exact (State.execHead_turn hturn _ : execVsetvl d t c s = _).trans (by
      rw [State.vsetvlIssue, State.vecTry_skip hcode])
  · exact (State.execHead_turn hturn _ : execVfa d t c s = _).trans (by
      rw [if_pos hopc, State.vfaIssue, State.vecTry_skip hcode])
  · exact (State.execHead_turn hturn _ : execVfa d t c s = _).trans (by rw [if_neg hopc, ← hcode])
  · exact (State.execHead_turn hturn _ : execVfd d t c s = _).trans (by rw [State.vfdIssue, State.vecTry_skip hcode])
  · exact (State.execHead_turn hturn _ : execVtr d t c s = _).trans (by rw [State.vtrIssue, State.vecTry_skip hcode])
  · exact (State.execHead_turn hturn _ : execVia d t c s = _).trans (by rw [State.viaIssue, State.vecTry_skip hcode])
  · exact (State.execHead_turn hturn _ : execVcmp d t c s = _).trans (by rw [State.vcmpIssue, State.vecTry_skip hcode])
  · exact (State.execHead_turn hturn _ : execVicmp d t c s = _).trans (by
      rw [State.vicmpIssue, State.vecTry_skip hcode])
  · exact (State.execHead_turn hturn _ : execVmask d t c s = _).trans (by
      rw [State.vmaskIssue, State.vecTry_skip hcode])
  · exact (State.execHead_turn hturn _ : execVcvt d t c s = _).trans (by rw [State.vcvtIssue, State.vecTry_skip hcode])
  · exact (State.execHead_turn hturn _ : execVperm d t c s = _).trans (by
      rw [State.vpermIssue, State.vecTry_skip hcode])
  · exact (State.execHead_turn hturn _ : execVqpop d t c s = _).trans (by
      unfold State.vqpopIssue
      dsimp only
      rw [hcode])
  · exact (State.execHead_turn hturn _ : execVqpush d t c s = _).trans (by
      unfold State.vqpushIssue
      dsimp only
      rw [hcode])
  · have hdata := s2.skip_tile_data d t q code d' t'
    simpa only [Tile.data, Prod.mk.injEq] using hdata

end Sys2Proof
end

section
namespace Sys2Proof.Machine

/-! ## VQPOP and VQPUSH (R118, R145, R146) -/

theorem fmtWidth_laneWidth {fmt : Nat} (h : fmt < 7) : laneWidth (fmtWidth fmt) := by
  unfold laneWidth
  interval_cases fmt <;> decide

theorem toArray_getD (l : List Nat) (e : Nat) : l.toArray.getD e 0 = l.getD e 0 := by
  simp [Array.getD, List.getD_eq_getElem?_getD]
  grind

/-- The codes of a block as the elements of VD take them; a placeholder reads as zero bits (R146). -/
def OqBlock.codes (b : OqBlock) (width len : Nat) : List Nat :=
  if b.hole then List.replicate len 0 else unpackCodes width b.data

/-- What VQPOP writes to element e: nothing behind the block's last code (log entry 151). -/
def popWrite (w : BitVec 64) (m : BitVec 4096) (len : Nat) (codes : List Nat) (e : Nat) : Option Nat :=
  if e < codes.length then writeOf w m len (fun e => codes.getD e 0) e else none

theorem writeOf_beyond (w : BitVec 64) (m : BitVec 4096) {len e : Nat} (h : len ≤ e) (f : Nat → Nat) :
    writeOf w m len f e = none := if_pos h

theorem popWrite_codes (b : OqBlock) (w : BitVec 64) (m : BitVec 4096) (width len e : Nat) :
    popWrite w m len (b.codes width len) e =
      let a := if b.hole then #[] else (unpackCodes width b.data).toArray
      if b.hole || e < a.size then writeOf w m len (fun e => a.getD e 0) e else none := by
  unfold popWrite OqBlock.codes
  cases b.hole with
  | false => simp only [Bool.false_eq_true, if_false, Bool.false_or, decide_eq_true_eq, List.size_toArray, toArray_getD]
  | true =>
    simp only [if_true, Bool.true_or, List.length_replicate]
    split
    · rename_i he
      congr 1
      funext e
      simp [List.getD_eq_getElem?_getD, List.getElem?_replicate]
      grind
    · rename_i he
      exact (writeOf_beyond w m (Nat.le_of_not_lt he) _).symm

variable {s : State} {d t c : Nat} {q : QEntry}

theorem State.vqpopIssue_idle (hchecks : firstCode (vqpopChecks (s.tile d t) c q.word) = none)
    (hlen : effLen (s.tile d t).cur.vl [vlmax (fmtWidth (vFmt q.word)) (vGrp q.word)] = 0) :
    s.vqpopIssue d t c q = s.setTile d t ((s.tile d t).vecIdle c) := by
  unfold State.vqpopIssue
  dsimp only
  rw [hchecks]
  exact if_pos hlen

/-- A tile whose VQPOP has taken block b and leaves l in the queue. -/
def Tile.popped (T : Tile) (c : Nat) (q : QEntry) (len : Nat) (b : OqBlock) (l : List OqBlock) : Tile :=
  let width := fmtWidth (vFmt q.word)
  ({ T with oqv := l }.putGroup q.count c 3 1 (vVd q.word) (vGrp q.word) width width
    (popWrite q.word (T.mask (vMsk q.word)) len (b.codes width len))).vecBusy q c (chunksOf width len)
      (c + 3 + chunksOf width len - 2) 0 0

theorem State.vqpopIssue_pop {len : Nat} {b : OqBlock} {l : List OqBlock}
    (hchecks : firstCode (vqpopChecks (s.tile d t) c q.word) = none)
    (hlen : effLen (s.tile d t).cur.vl [vlmax (fmtWidth (vFmt q.word)) (vGrp q.word)] = len) (hpos : 0 < len)
    (hblock : (s.tile d t).oqv = b :: l) :
    s.vqpopIssue d t c q = if b.hole then (s.setTile d t ((s.tile d t).popped c q len b l)).logTile d t q 0x12 0
      else s.setTile d t ((s.tile d t).popped c q len b l) := by
  have hwrite : popWrite q.word ((s.tile d t).mask (vMsk q.word)) len (b.codes (fmtWidth (vFmt q.word)) len) = _ :=
    funext fun e => popWrite_codes b q.word _ _ len e
  unfold State.vqpopIssue Tile.popped
  dsimp only
  rw [hchecks, hlen, hwrite, hblock]
  exact if_neg hpos.ne'

/-- Elements put in hand change only what is to land. -/
theorem Tile.putGroup_eq (T : Tile) (n : BitVec 64) (i lat cc base g w wide : Nat) (f : Nat → Option Nat) :
    T.putGroup n i lat cc base g w wide f = { T with pend := (T.putGroup n i lat cc base g w wide f).pend } := by
  unfold Tile.putGroup
  dsimp only
  generalize stepsOf g w wide = l
  induction l generalizing T with
  | nil => rfl
  | cons x l ih =>
    rw [List.foldl_cons, ih]
    split <;> rfl

theorem Tile.popped_lanes (T : Tile) (c : Nat) (q : QEntry) (len : Nat) (b : OqBlock) (l : List OqBlock)
    (hfmt : vFmt q.word < 7) :
    let width := fmtWidth (vFmt q.word)
    T.lanes (T.popped c q len b l) q c 3 1 (vVd q.word) (vGrp q.word) width width len
      (activeIn q.word (T.mask (vMsk q.word)))
      (popWrite q.word (T.mask (vMsk q.word)) len (b.codes width len)) (fun _ => (0, 0)) := by
  have hw := fmtWidth_laneWidth hfmt
  have h := lanes_of_putGroup { T with oqv := l } q hw hw le_rfl c 3 1 (vVd q.word) (vGrp q.word) len
    (chunksOf (fmtWidth (vFmt q.word)) len) 0 (activeIn q.word (T.mask (vMsk q.word)))
    (popWrite q.word (T.mask (vMsk q.word)) len (b.codes (fmtWidth (vFmt q.word)) len)) 0 (fun _ => (0, 0))
    (by simp) (by simp)
  rw [one_mul, mul_one] at h
  exact h

theorem Tile.popped_keeps (T : Tile) (c : Nat) (q : QEntry) (len : Nat) (b : OqBlock) (l : List OqBlock) :
    let U := T.popped c q len b l
    U.oqv = l ∧ U.oqm = T.oqm ∧ U.sq = T.sq ∧ U.sram = T.sram ∧ U.masks = T.masks ∧ U.ctx0 = T.ctx0 ∧
      U.ctx1 = T.ctx1 := by
  dsimp only
  rw [Tile.popped, Tile.vecBusy_eq, Tile.putGroup_eq]
  exact ⟨rfl, rfl, rfl, rfl, rfl, rfl, rfl⟩

theorem vqpopChecks_fmt {T : Tile} {w : BitVec 64} (h : firstCode (vqpopChecks T c w) = none) : vFmt w < 7 := by
  have h := firstCode_none_iff.1 h (decide (7 ≤ vFmt w), 0x03) (by simp [vqpopChecks, vecChecks])
  simpa using h

/-! VQPUSH -/

theorem Tile.vqpushWhole_keeps (T : Tile) (c : Nat) (q : QEntry) (len : Nat) :
    let U := T.vqpushWhole c q len
    let width := fmtWidth (vFmt q.word)
    U.sq = T.sq ++ [⟨T.nextId, false, false, vqBytes T q.word,
      packCodes width ((T.groupAt c 1 (vVs1 q.word) (vGrp q.word) width width).take len)⟩] ∧
    U.vregs = T.vregs ∧ U.masks = T.masks ∧ U.sram = T.sram ∧ U.oqv = T.oqv := by
  dsimp only
  rw [Tile.vqpushWhole, Tile.vecBusy_eq]
  exact ⟨rfl, rfl, rfl, rfl, rfl⟩

end Sys2Proof.Machine

namespace Sys2Proof
open Sys2Proof.Machine

/-- Settles O11. -/
theorem vectorQueuesPopAndPush : Obligations.VectorQueuesPopAndPush := by
  intro d t c s q rest s1 T width len
  refine ⟨fun hturn hchecks => ⟨fun hlen => ?_, fun b l hpos hblock => ?_⟩,
    fun hturn hchecks => ⟨fun hlen => ?_, fun hpos hconv => ?_, fun hpos hconv => ?_⟩⟩
  · exact (State.execHead_turn hturn _ : execVqpop d t c s = _).trans (by rw [State.vqpopIssue_idle hchecks hlen])
  · refine ⟨T.popped c q len b l, ?_, T.popped_lanes c q len b l (vqpopChecks_fmt hchecks),
      T.popped_keeps c q len b l⟩
    exact (State.execHead_turn hturn _ : execVqpop d t c s = _).trans (by
      rw [State.vqpopIssue_pop hchecks rfl hpos hblock])
  all_goals have hrun := (State.execHead_turn hturn _ : execVqpush d t c s = _)
  all_goals unfold State.vqpushIssue at hrun; dsimp only at hrun; rw [hchecks] at hrun
  · exact hrun.trans (by rw [if_pos hlen])
  · exact hrun.trans (by rw [if_neg hpos.ne', if_pos hconv])
  · refine ⟨T.vqpushWhole c q len, ?_, T.vqpushWhole_keeps c q len⟩
    exact hrun.trans (by rw [if_neg hpos.ne', if_neg (ne_true_of_eq_false hconv)])

end Sys2Proof
end

section
/-! The access side in its turn: ALD, AST, ACOPY, ALDS and ASTS start or are skipped (R114, R115, R141, R144-R146). -/
namespace Sys2Proof.Machine

variable {s : State} {d t c : Nat} {q : QEntry}

/-- An ALD whose form is legal and that has an element to move starts with its blocks reserved. -/
theorem State.aldIssue_start (h7 : wOpc q.word < 7) (hform : vecFormCode (s.tile d t) q.word = none)
    (hlen : emptyLen (s.tile d t) q.word = false) :
    s.aldIssue d t c q =
      (let T := s.tile d t
       let new : List OqBlock := (blockSizes T q.word).zipIdx.map (fun e =>
         ⟨T.nextId + e.2, q.count, e.1, false, none, false, []⟩)
       let o' : AccOp := { accOpOf T q c with blocks := new.map (·.id) }
       let T1 := T.setOq (xDest q.word) (T.oq (xDest q.word) ++ new)
       ((s.setTile d t { T1 with nextId := T1.nextId + new.length, ops := T1.ops ++ [o'] }).startOp d t c o').pump
         d t c) := by
  unfold State.aldIssue
  dsimp only
  rw [if_neg (Nat.not_le.2 h7), hform]
  dsimp only
  rw [if_neg (ne_true_of_eq_false hlen)]

theorem State.aldIssue_reserved (h7 : 7 ≤ wOpc q.word) : s.aldIssue d t c q = s.skip d t q 0x01 := if_pos h7

theorem State.aldIssue_form {code : Nat} (h7 : wOpc q.word < 7)
    (hform : vecFormCode (s.tile d t) q.word = some code) :
    s.aldIssue d t c q
      = (s.setTile d t ((s.tile d t).addOqHoles (xDest q.word) q.count (xNf q.word))).skip d t q code := by
  unfold State.aldIssue
  dsimp only
  rw [if_neg (Nat.not_le.2 h7), hform]

theorem State.aldIssue_empty (h7 : wOpc q.word < 7) (hform : vecFormCode (s.tile d t) q.word = none)
    (hlen : emptyLen (s.tile d t) q.word = true) :
    s.aldIssue d t c q = s.setTile d t ((s.tile d t).flagOn (accOpOf (s.tile d t) q c) c) := by
  unfold State.aldIssue
  dsimp only
  rw [if_neg (Nat.not_le.2 h7), hform]
  dsimp only
  rw [if_pos hlen]

theorem State.astIssue_form {code : Nat} (hform : vecFormCode (s.tile d t) q.word = some code) :
    s.astIssue d t c q = (s.setTile d t { s.tile d t with sq := (s.tile d t).sq.drop (astTakes q.word) }).skip
      d t q code := by
  unfold State.astIssue
  dsimp only
  rw [hform]

/-- What an AST of a legal form does, by its length and by the blocks that it finds in the store queue. -/
theorem State.astIssue_legal (hform : vecFormCode (s.tile d t) q.word = none) :
    s.astIssue d t c q =
      (let T := s.tile d t
       let o := accOpOf T q c
       let blocks := T.sq.take (astTakes q.word)
       let popped : Tile := { T with sq := T.sq.drop (astTakes q.word) }
       if emptyLen T q.word then s.setTile d t (T.flagOn o c)
       else if blocks.any (·.hole) then (s.setTile d t (popped.flagOn o c)).logTile d t q 0x13 0
       else if blocks.map (·.size) != blockSizes T q.word then (s.setTile d t popped).skip d t q 0x11
       else
         let o' : AccOp := { o with taken := blocks }
         ((s.setTile d t { popped with ops := T.ops ++ [o'] }).startOp d t c o').pump d t c) := by
  unfold State.astIssue
  dsimp only
  rw [hform]

theorem State.plainIssue_eq (bad : Bool) : s.plainIssue d t c q bad =
    if bad then s.skip d t q 0x04
    else
      let o := accOpOf (s.tile d t) q c
      ((s.setTile d t { s.tile d t with ops := (s.tile d t).ops ++ [o] }).startOp d t c o).pump d t c := rfl

/-- A choice of two states is issued as a choice. -/
theorem State.issued_if (p : Prop) [Decidable p] (x y : State) :
    (if p then x else y).issued d t q = if p then x.issued d t q else y.issued d t q := by split <;> rfl

/-- Settles O13: each instruction in its turn, by the cases of its issue. -/
theorem accessInstructionsStart : Obligations.AccessInstructionsStart := by
  unfold Obligations.AccessInstructionsStart
  intro d t c s q rest s1 T o starts
  refine ⟨fun hturn => ⟨fun h7 => ?_, fun code h7 hform => ?_, fun h7 hform hlen => ?_, fun h7 hform hlen => ?_⟩,
    fun hturn => ⟨fun code hform => ?_, fun hform hlen => ?_, fun hform hlen hhole => ?_,
      fun hform hlen hhole hsize => ?_, fun hform hlen hhole hsize => ?_⟩,
    fun hturn => ?_, fun hturn => ?_, fun hturn => ?_⟩
  · exact (State.accHead_turn hturn _ : execAld d t c s = _).trans (by rw [State.aldIssue_reserved h7])
  · exact (State.accHead_turn hturn _ : execAld d t c s = _).trans (by rw [State.aldIssue_form h7 hform])
  · exact (State.accHead_turn hturn _ : execAld d t c s = _).trans (by rw [State.aldIssue_empty h7 hform hlen])
  · exact (State.accHead_turn hturn _ : execAld d t c s = _).trans (by rw [State.aldIssue_start h7 hform hlen])
  · exact (State.accHead_turn hturn _ : execAst d t c s = _).trans (by rw [State.astIssue_form hform])
  · exact (State.accHead_turn hturn _ : execAst d t c s = _).trans (by
      rw [State.astIssue_legal hform]; dsimp only; rw [if_pos hlen])
  · exact (State.accHead_turn hturn _ : execAst d t c s = _).trans (by
      rw [State.astIssue_legal hform]; dsimp only; rw [if_neg (ne_true_of_eq_false hlen), if_pos hhole])
  · exact (State.accHead_turn hturn _ : execAst d t c s = _).trans (by
      rw [State.astIssue_legal hform]; dsimp only
      rw [if_neg (ne_true_of_eq_false hlen), if_neg (ne_true_of_eq_false hhole), if_pos (bne_iff_ne.2 hsize)])
  · exact (State.accHead_turn hturn _ : execAst d t c s = _).trans (by
      rw [State.astIssue_legal hform]; dsimp only
      rw [if_neg (ne_true_of_eq_false hlen), if_neg (ne_true_of_eq_false hhole),
        if_neg (fun h => bne_iff_ne.1 h hsize)])
  · exact (State.accHead_turn hturn _ : execAcopy d t c s = _).trans (by
      rw [State.plainIssue_eq, State.issued_if])
  · exact (State.accHead_turn hturn _ : execAlds d t c s = _).trans (by
      rw [State.plainIssue_eq, State.issued_if])
  · exact (State.accHead_turn hturn _ : execAsts d t c s = _).trans (by
      rw [State.plainIssue_eq, State.issued_if])

/-! ## Gates -/

/-- A head whose gate is shut stays where it is. -/
theorem State.headIssue_shut {acc : Bool} {ok : BitVec 64 → Bool} {rest : List QEntry}
    (hside : ((s.land d t c).tile d t).side acc = q :: rest)
    (hgate : (s.land d t c).gate acc d t c ((s.land d t c).tile d t) q = false) (run : State → QEntry → State) :
    s.headIssue acc d t c ok run = .next s := by
  simp only [State.headIssue, hside, State.canIssue, hgate, Bool.and_false, Bool.false_and]
  rfl

/-- While an access instruction has not completed, the fence gates of AFENCE and ASIG are shut. -/
theorem gate_fence {acc : Bool} {T : Tile} {o : Nat} (hop : isOp 1 o q.word = true) (ho : o = 5 ∨ o = 6)
    (hops : T.ops ≠ []) : s.gate acc d t c T q = false := by
  simp only [isOp, Bool.and_eq_true, beq_iff_eq] at hop
  obtain ⟨he, hopc⟩ := hop
  have hfence : T.fenceOpen = false := by simpa [Tile.fenceOpen] using hops
  rcases ho with rfl | rfl <;> simp only [State.gate, State.gateAccess, he, hopc, hfence, Bool.false_and]

/-- A WAIT whose count the flag does not hold has a shut gate. -/
theorem gate_wait {acc : Bool} {T : Tile} (hop : isOp 5 1 q.word = true) (hlegal : yIllegal q.word = false)
    (hflag : (T.flag T.active (yFlag q.word)).toNat < yCount q.word) : s.gate acc d t c T q = false := by
  simp only [isOp, Bool.and_eq_true, beq_iff_eq] at hop
  obtain ⟨he, hopc⟩ := hop
  simp only [State.gate, State.gateSync, he, hopc, hlegal, Nat.not_le.2 hflag, decide_false]
  rfl

/-! ## Completions (R144, R148, R151) -/

theorem execOqBlockReady_reached {d : Fin 32} {t : Fin 144} {matrix : Bool} {pos due : Nat} {b : OqBlock}
    (hb : ((s.tile d t).oq matrix)[pos]? = some b) (hdue : b.due = some due) (h : s.reached d t due = true) :
    execOqBlockReady d t matrix pos s = .next (((s.land d t due).setTile d t (((s.land d t due).tile d t).setOq matrix
      (updAt (((s.land d t due).tile d t).oq matrix) pos (fun b => { b with ready := true })))).stir d t) := by
  simp only [execOqBlockReady, hb, Option.bind_some, hdue, State.ownEvent_reached h]

theorem execAccessComplete_found {d : Fin 32} {t : Fin 144} {count : BitVec 64} {o : AccOp}
    (ho : (s.tile d t).ops.find? (fun o => o.count == count && (s.tile d t).opComplete o) = some o)
    (h : s.reached d t o.due = true) :
    execAccessComplete d t count s = .next ((s.land d t o.due).setTile d t (Tile.flagOn
      { (s.land d t o.due).tile d t with
        ops := ((s.land d t o.due).tile d t).ops.filter (fun x => x.count != o.count) } o o.due)) := by
  simp only [execAccessComplete, ho, State.ownEvent_reached h]

/-- A response that is no RETRY ends its slot. -/
theorem State.slotAnswer_done {d : Fin 32} {t : Fin 144} {slot : Nat} {u : SlotUse} {r : Response}
    (hr : s.fabric.resp.find? (fun r => r.who == .tile d t slot) = some r) (hretry : r.retry = false) :
    s.slotAnswer d t slot c u =
      ({ s with fabric := { s.fabric with resp := removeResp r s.fabric.resp } } : State).slotDone d t slot c u
        r.data r.code := by
  simp only [State.slotAnswer, hr, hretry, Bool.not_false, if_true]

theorem execAccessResponse_done {d : Fin 32} {t : Fin 144} {slot c : Nat} {u : SlotUse} {r : Response}
    (hu : Table.find (s.tile d t).slots slot = some u) (hmade : u.made < c) (h : s.reached d t c = true)
    (hr : (s.land d t c).fabric.resp.find? (fun r => r.who == .tile d t slot) = some r) (hretry : r.retry = false) :
    execAccessResponse d t ⟨c, slot⟩ s = .next (({ s.land d t c with fabric := { (s.land d t c).fabric with
      resp := removeResp r (s.land d t c).fabric.resp } } : State).slotDone d t slot c u r.data r.code) := by
  simp only [execAccessResponse, hu, if_pos hmade, State.ownEvent_reached h, State.slotAnswer_done hr hretry]

theorem execRequestRetryResend_refused {d : Fin 32} {t : Fin 144} {slot : Nat} {u : SlotUse}
    (hu : Table.find (s.tile d t).slots slot = some u) (hstage : u.stage = 3) :
    execRequestRetryResend d t slot s = .next
      (({ s with fabric := { s.fabric with issued := s.fabric.issued + 1 } } : State).setTile d t { s.tile d t with
        slots := putSlot (s.tile d t).slots slot { u with stage := 0, seq := s.fabric.issued } }) := by
  simp only [execRequestRetryResend, hu, if_pos hstage, Nat.add_sub_cancel]

/-- Settles O14: the fence is a gate, and each completion finds what its premises name. -/
theorem fencesAndAccessesEnd : Obligations.FencesAndAccessesEnd := by
  unfold Obligations.FencesAndAccessesEnd
  refine ⟨fun d t c s q rest => ⟨fun hturn => ?_, fun hturn => ?_, fun hops e l hq => ⟨fun hop => ?_, fun hop => ?_⟩⟩,
    fun d t s => ⟨fun matrix pos b due hb hdue h => ?_, fun count o ho h => ?_,
      fun slot c u r hu hmade h hr hretry => ?_, fun slot u hu hstage => ?_⟩⟩
  · exact (State.accHead_turn hturn _ : execAfence d t c s = _)
  · exact (State.accHead_turn hturn _ : execAsig d t c s = _)
  · exact State.headIssue_shut (acc := true) hq (gate_fence hop (.inr rfl) hops)
      (fun s q => s.setTile d.val t.val ((s.tile d.val t.val).flagOn (accOpOf (s.tile d.val t.val) q c) c))
  · exact State.headIssue_shut (acc := true) hq (gate_fence hop (.inl rfl) hops)
      (fun s q => s.asigIssue d.val t.val c q)
  · exact execOqBlockReady_reached hb hdue h
  · exact execAccessComplete_found ho h
  · exact execAccessResponse_done hu hmade h hr hretry
  · exact execRequestRetryResend_refused hu hstage

/-! ## The sync engine (R142, R150, R153, R157) -/

theorem State.syncTry_legal (h : yIllegal q.word = false) (run : Tile → Tile) :
    s.syncTry d t q run = s.setTile d t (run (s.tile d t)) := if_neg (ne_true_of_eq_false h)

theorem State.syncTry_illegal (h : yIllegal q.word = true) (run : Tile → Tile) :
    s.syncTry d t q run = s.skip d t q 0x01 := if_pos h

@[simp] theorem State.setCd_stampAt (s : State) (d : Nat) (C : ComputeDie) (b : Nat) :
    (s.setCd d C).stampAt b = s.stampAt b := by rfl

/-- Settles O15: each instruction in its turn is run where its form is legal, and skipped where it is not. -/
theorem syncInstructionsComplete : Obligations.SyncInstructionsComplete := by
  unfold Obligations.SyncInstructionsComplete
  refine ⟨fun d t acc c s q rest => ⟨fun hlegal => ⟨fun hturn => ?_, fun hturn => ?_, fun hturn => ?_,
      fun hturn => ?_, fun hturn => ?_⟩, fun hbad => ⟨fun hturn => ?_, fun hturn => ?_, fun hturn => ?_,
      fun hturn => ?_, fun hturn => ?_⟩⟩,
    fun d t acc c s q rest hside hop hlegal hflag => ?_, fun d s w rest hq => ?_⟩
  · exact (State.headIssue_turn hturn _ : execSignal d t acc c s = _).trans (by rw [State.syncTry_legal hlegal])
  · exact (State.headIssue_turn hturn _ : execWait d t acc c s = _).trans (by rw [State.syncTry_legal hlegal])
  · exact (State.headIssue_turn hturn _ : execWaitalm d t acc c s = _).trans (by rw [State.syncTry_legal hlegal])
  · exact (State.headIssue_turn hturn _ : execNotify d t acc c s = _).trans (by
      rw [if_neg (ne_true_of_eq_false hlegal)])
  · exact (State.headIssue_turn hturn _ : execFset d t acc c s = _).trans (by rw [State.syncTry_legal hlegal])
  · exact (State.headIssue_turn hturn _ : execSignal d t acc c s = _).trans (by rw [State.syncTry_illegal hbad])
  · exact (State.headIssue_turn hturn _ : execWait d t acc c s = _).trans (by rw [State.syncTry_illegal hbad])
  · exact (State.headIssue_turn hturn _ : execWaitalm d t acc c s = _).trans (by rw [State.syncTry_illegal hbad])
  · exact (State.headIssue_turn hturn _ : execNotify d t acc c s = _).trans (by rw [if_pos hbad])
  · exact (State.headIssue_turn hturn _ : execFset d t acc c s = _).trans (by rw [State.syncTry_illegal hbad])
  · exact (State.headIssue_shut hside (gate_wait hop hlegal hflag) _ : execWait d t acc c s = _)
  · show execNotifyEventTake d s = _
    simp only [execNotifyEventTake, hq, State.setCd_stampAt]

/-! ## The misc engine (R134, R143, R154, R157, R161) -/

/-- RDCR and WRCR are skipped for their form, then for their offset. -/
theorem State.scalTry_form_offset (run : Tile → Tile) (ok : Bool) :
    s.scalTry d t q [(iIllegal q.word, 0x01), (!ok, 0x04)] run =
      if iIllegal q.word then s.skip d t q 0x01
      else if ok then s.setTile d t (run (s.tile d t)) else s.skip d t q 0x04 := by
  cases h : iIllegal q.word <;> cases ok <;> simp [State.scalTry, firstCode]

/-- What a LOOP does, by the first condition that it meets. -/
theorem State.loopIssue_cases :
    s.loopIssue d t c q =
      (let T := s.tile d t
       let w := q.word
       let word := T.cur.pc - 1
       let n := (T.sreg T.active (iSs1 w)).toNat
       let goesOn (x : Ctx) : State := s.setTile d t ((T.setCtx T.active x).resumeDispatch c)
       if iIllegal w then (goesOn (T.cur.advance word)).skip d t q 0x01
       else if iArg w = 0 then (goesOn (T.cur.advance word)).skip d t q 0x04
       else if loopTooDeep T.cur.loops word (iArg w) then (goesOn (T.cur.advance word)).skip d t q 0x10
       else if n = 0 then goesOn (T.cur.advance (word + iArg w))
       else goesOn { T.cur with loops := ⟨word + 1, word + iArg w, n - 1⟩ :: T.cur.loops }) := by
  unfold State.loopIssue
  dsimp only
  by_cases h1 : iIllegal q.word = true
  · simp only [firstCode, h1, if_true]
  by_cases h2 : iArg q.word = 0
  · simp only [firstCode, h1, h2, if_true, if_false, beq_self_eq_true, Bool.false_eq_true]
  cases h3 : loopTooDeep (s.tile d t).cur.loops ((s.tile d t).cur.pc - 1) (iArg q.word) <;>
    simp only [firstCode, h1, h2, if_true, if_false, beq_iff_eq, Bool.false_eq_true]

/-- Settles O16: each instruction in its turn, by the cases of its issue. -/
theorem miscInstructionsComplete : Obligations.MiscInstructionsComplete := by
  unfold Obligations.MiscInstructionsComplete
  intro d t c s q rest s1 T w word goesOn skipped
  refine ⟨fun hturn => ?_, fun hturn => ?_, fun hturn => ?_, fun hturn => ?_, fun hturn => ?_, fun hturn => ?_,
    fun hturn => ?_⟩
  · exact (State.execHead_turn hturn _ : execIllEngine d t c s = _)
  · exact (State.execHead_turn hturn _ : execNop d t c s = _).trans (by rw [State.issued_if])
  · exact (State.execHead_turn hturn _ : execHalt d t c s = _).trans (by rw [State.issued_if])
  · exact (State.execHead_turn hturn _ : execRdcr d t c s = _).trans (by
      rw [State.scalTry_form_offset, State.issued_if, State.issued_if])
  · exact (State.execHead_turn hturn _ : execWrcr d t c s = _).trans (by
      rw [State.scalTry_form_offset, State.issued_if, State.issued_if])
  · exact (State.execHead_turn hturn _ : execYield d t c s = _).trans (by
      rw [State.issued_if, State.issued_if, State.issued_if])
  · exact (State.execHead_turn hturn _ : execLoop d t c s = _).trans (by
      rw [State.loopIssue_cases]; dsimp only
      rw [State.issued_if, State.issued_if, State.issued_if, State.issued_if, State.issued_if])

end Sys2Proof.Machine
end

section
/-! Dispatch, the ends of a stream, and the command bits of CDT_STREAM_CTRL (R130-R133, R143, R155, R159-R166, R395). -/
namespace Sys2Proof.Machine

variable {d : Fin 32} {t : Fin 144} {c : Nat} {fetch : Fetch} {s : State}

/-- What dispatch does with the word at the pc in a cycle in which it may take it. -/
theorem execInstructionDispatch_open (h : s.dispatches d (s.tile d t) c = true) (hr : s.reached d t c = true) :
    execInstructionDispatch d t c fetch s =
      (let T := s.tile d t
       let w := Table.get 0 T.imem T.cur.pc
       if 16384 ≤ T.cur.pc then .next (s.pcRange d t T.cur.icount)
       else if fetch.ecc = .double then
         .next ((s.setTile d t { T with stream := .imemFault, stall := .fetchFault }).logErr d
           { code := 0x43, src := 8, unit := t, ctx := T.active, icount := bits T.cur.icount 31 0, hold := true })
       else if (s.die d).debug && !T.passBrk && T.brkMatch (T.cur.icount + 1) w then
         .next (s.setTile d t { T with
           stall := .breakpoint, begins := none, regs := { T.regs with brkCtrl := T.regs.brkCtrl ||| 0x10 } })
       else if 32 ≤ (if toAccess w then T.aq else T.eq).length then .next s
       else
         let s1 := s.atCycle d t c
         .next ((s1.setTile d t ((s1.tile d t).enqueue c w fetch.upset)).stir d t)) := by
  unfold execInstructionDispatch
  dsimp only
  rw [h, hr]
  rfl

theorem Ctx.advance_icount (x : Ctx) (last : Nat) : (x.advance last).icount = x.icount := rfl

theorem Tile.enqueue_icount (T : Tile) (c : Nat) (w : BitVec 64) (u : Upset) :
    (T.enqueue c w u).cur.icount = T.cur.icount + 1 := by
  unfold Tile.enqueue Tile.cur
  by_cases hb : stallOf w = .branch ∨ stallOf w = .loop <;> cases hT : T.active <;> cases toAccess w <;>
    simp [Tile.setCtx, Tile.ctx, hT, hb, Ctx.advance_icount]

theorem Tile.enqueue_access (T : Tile) (c : Nat) {w : BitVec 64} (u : Upset) (h : toAccess w = true) :
    (T.enqueue c w u).aq = T.aq ++ [⟨w, T.cur.icount + 1, c, false, u⟩] ∧ (T.enqueue c w u).eq = T.eq := by
  unfold Tile.enqueue
  cases hT : T.active <;> simp [Tile.setCtx, hT, h]

theorem Tile.enqueue_execute (T : Tile) (c : Nat) {w : BitVec 64} (u : Upset) (h : toAccess w = false) :
    (T.enqueue c w u).eq = T.eq ++ [⟨w, T.cur.icount + 1, c, false, u⟩] ∧ (T.enqueue c w u).aq = T.aq := by
  unfold Tile.enqueue
  cases hT : T.active <;> simp [Tile.setCtx, hT, h]

/-- Settles O17: the cases of a dispatch, in their order. -/
theorem dispatchSendsAndStops : Obligations.DispatchSendsAndStops := by
  unfold Obligations.DispatchSendsAndStops
  refine ⟨fun d t c fetch s hopen hr => ⟨fun hpc hecc hhit hlen => ?_, fun hpc hecc hhit hlen => ?_,
      fun hpc hecc hhit => ?_, fun hpc hecc => ?_, fun hpc => ?_⟩,
    fun T c w u => ⟨T.enqueue_icount c w u, T.enqueue_access c u, T.enqueue_execute c u⟩,
    fun d t s hrun hstall hdrained hslots hland => ?_⟩
  · exact (execInstructionDispatch_open hopen hr).trans (by
      dsimp only
      rw [if_neg (Nat.not_le.2 hpc), if_neg hecc, if_neg (ne_true_of_eq_false hhit), if_neg (Nat.not_le.2 hlen)])
  · exact (execInstructionDispatch_open hopen hr).trans (by
      dsimp only
      rw [if_neg (Nat.not_le.2 hpc), if_neg hecc, if_neg (ne_true_of_eq_false hhit), if_pos hlen])
  · exact (execInstructionDispatch_open hopen hr).trans (by
      dsimp only
      rw [if_neg (Nat.not_le.2 hpc), if_neg hecc, if_pos hhit])
  · exact (execInstructionDispatch_open hopen hr).trans (by
      dsimp only
      rw [if_neg (Nat.not_le.2 hpc), if_pos hecc])
  · exact (execInstructionDispatch_open hopen hr).trans (by
      dsimp only
      rw [if_pos hpc])
  · exact if_pos ⟨hrun, hstall, hdrained, hslots, hland⟩

/-! ## The ends of a stream -/

theorem Tile.switchOver_facts (T : Tile) :
    T.switchOver.active = !T.active ∧ T.switchOver.switching = false ∧ T.switchOver.leaving = false ∧
      T.switchOver.times.exec = T.swAt + 1296 ∧ T.switchOver.times.acc = T.swAt + 1296 ∧
      (T.active = false → T.switchOver.crop = .running) :=
  ⟨rfl, rfl, rfl, rfl, rfl, fun h => by simp only [Tile.switchOver, h]; rfl⟩

theorem execStreamHalted_done (h : (s.tile d t).stream = .run ∧
      ((s.tile d t).stall = .halt ∨ (s.tile d t).stall = .stopped ∨ (s.tile d t).stall = .range) ∧
      (s.tile d t).drained = true ∧ (!(s.tile d t).switching) = true ∧ (s.tile d t).mayLand = true) :
    execStreamHalted d t s =
      (let s1 := s.landAll d t
       let T1 := s1.tile d t
       if T1.active && T1.stall != .stopped then
         if T1.crop = .done then .next s1 else .next (s1.setTile d t { T1 with crop := .done, leaving := true })
       else .next (s1.setTile d t { T1 with stream := .halted })) := if_pos h

/-- Settles O18: each end of a stream's run under its own condition. -/
theorem streamsHaltSwitchAndWait : Obligations.StreamsHaltSwitchAndWait := by
  unfold Obligations.StreamsHaltSwitchAndWait
  intro d t c s T
  refine ⟨fun hrun hstall hdrained hsw hland => ⟨fun h => ?_, fun hcrop hstop hdone => ?_⟩,
    fun hrun hleave hsw hquiet hat hr => ?_, fun hsw hr => ⟨?_, Tile.switchOver_facts _⟩,
    fun hopen hact hleave hdead hret => ?_, fun hopen hact hsw hover hdead hquiet hret => ?_,
    fun a b ha hb hrun hsw hstill hland => ?_⟩
  · refine (execStreamHalted_done ⟨hrun, hstall, hdrained, by simpa using hsw, hland⟩).trans (if_neg ?_)
    rcases h with h | h <;> simp [h]
  · refine (execStreamHalted_done ⟨hrun, hstall, hdrained, by simpa using hsw, hland⟩).trans ?_
    exact (if_pos (by simp [hcrop, hstop])).trans (if_neg hdone)
  · exact (if_pos ⟨hrun, hleave, by simpa using hsw, hquiet, hat⟩ : execCatchCropSwitch d t c s = _).trans
      (State.ownEvent_reached hr _)
  · exact (if_pos hsw : execCatchCropSwitchComplete d t s = _).trans (State.ownEvent_reached hr _)
  · exact if_pos ⟨hopen, hact, by simpa using hleave, by simpa using hdead, hret⟩
  · exact if_pos ⟨hopen, hact, by simpa using hsw, by simpa using hover, by simpa using hdead, by simpa using hquiet,
      hret⟩
  · show execCircularWait d t s = _
    unfold execCircularWait
    dsimp only
    rw [ha, hb]
    exact if_pos ⟨hrun, by simpa using hsw, hstill, hland⟩

/-! ## CDT_STREAM_CTRL (R166, R395) -/

@[simp] theorem State.setTile_tile_self (s : State) (d t : Nat) (x : Tile) : (s.setTile d t x).tile d t = x := by
  rw [State.setTile_tile, if_pos rfl]

/-- The tile with VIEW and CTX as a write of CDT_STREAM_CTRL leaves them. -/
def Tile.viewed (T : Tile) (w : BitVec 64) : Tile :=
  { T with regs := { T.regs with view := w.getLsbD 7, ctxSel := w.getLsbD 5 } }

theorem State.writeTileReg_ctrl (s : State) (d t : Nat) (w : BitVec 64) :
    s.writeTileReg d t 0 w = s.setTile d t ((s.tile d t).viewed w) := rfl

/-- VIEW and CTX do not change which command bit acts. -/
theorem State.ctrlAct_viewed (s : State) (d t : Nat) (w : BitVec 64) :
    (s.setTile d t ((s.tile d t).viewed w)).ctrlAct d t w = s.ctrlAct d t w := by
  simp only [State.ctrlAct, State.setTile_tile_self]
  rfl

/-- A write that does more than set VIEW and CTX: its acting bit on the tile, and what goes with it. -/
theorem State.streamCtrl_eq (s : State) (d t : Nat) (w : BitVec 64) :
    s.streamCtrl d t w =
      (let a := s.ctrlAct d t w
       let s1 := if a = .resume ∨ a = .abort then
         s.setCd d { s.cd d with broke := (s.cd d).broke.filter (fun x => x != t) } else s
       let s2 := s1.setTile d t (Tile.act s1 d ((s.tile d t).viewed w) w a)
       if a = .restart then s2.restartOps d t else s2) := by
  unfold State.streamCtrl
  dsimp only
  rw [State.writeTileReg_ctrl, State.ctrlAct_viewed, State.setTile_tile_self, State.setTile_cd]
  by_cases h : s.ctrlAct d t w = .resume ∨ s.ctrlAct d t w = .abort
  · rw [if_pos h, if_pos h]
    have hset (C : ComputeDie) (U : Tile) :
        ((s.setTile d t ((s.tile d t).viewed w)).setCd d C).setTile d t U = (s.setCd d C).setTile d t U :=
      (s.setCd d C).setTile_setTile d t _ U
    rw [hset]
    rfl
  · rw [if_neg h, if_neg h, State.setTile_setTile]
    rfl

theorem State.ctrlRow_acts {s : State} {d t : Nat} {w : BitVec 64} {a : CtrlAct} (hd : s.absent d = false)
    (ha : s.ctrlAct d t w = a) :
    s.ctrlRow d t w a = .next (
      let s1 := if a = .resume ∨ a = .abort then
        s.setCd d { s.cd d with broke := (s.cd d).broke.filter (fun x => x != t) } else s
      let s2 := s1.setTile d t (Tile.act s1 d ((s.tile d t).viewed w) w a)
      if a = .restart then s2.restartOps d t else s2) := by
  rw [State.ctrlRow, if_pos ⟨by simpa using hd, ha⟩, State.streamCtrl_eq, ha]

/-- Outside a sealed result the device's acting bit is the tile's. -/
theorem State.ctrlAct_open {s : State} (h : s.wseal.isSealed = false) (d t : Nat) (w : BitVec 64) :
    s.ctrlAct d t w = (s.tile d t).ctrlAct w := by simp [State.ctrlAct, h]

/-- ABORT and STOP act in a sealed result as well. -/
theorem State.ctrlAct_of_stop {s : State} {d t : Nat} {w : BitVec 64} {a : CtrlAct} (h : (s.tile d t).ctrlAct w = a)
    (ha : a = .abort ∨ a = .stop) : s.ctrlAct d t w = a := by
  rcases ha with rfl | rfl <;> simp [State.ctrlAct, h]

theorem State.ctrlAct_sealed {s : State} (h : s.wseal.isSealed = true) (d t : Nat) (w : BitVec 64) :
    s.ctrlAct d t w ≠ .start ∧ s.ctrlAct d t w ≠ .restart ∧ s.ctrlAct d t w ≠ .resume := by
  cases ha : (s.tile d t).ctrlAct w <;> simp [State.ctrlAct, h, ha]

theorem Tile.ctrlAct_abort {T : Tile} {w : BitVec 64} (h4 : w.getLsbD 4 = true) (h : T.stream ≠ .idle) :
    T.ctrlAct w = .abort := by simp only [Tile.ctrlAct, h4, bne_iff_ne.2 h, Bool.and_self, if_true]

theorem Tile.ctrlAct_stop {T : Tile} {w : BitVec 64} (h4 : w.getLsbD 4 = false) (h1 : w.getLsbD 1 = true)
    (h : T.stream = .run) (hab : T.aborting = false) : T.ctrlAct w = .stop := by
  simp [-BitVec.getLsbD_eq_getElem, Tile.ctrlAct, h4, h1, h, hab]

theorem Tile.ctrlAct_restart {T : Tile} {w : BitVec 64} (h4 : w.getLsbD 4 = false) (h3 : w.getLsbD 3 = true)
    (h : T.stream = .faultHold ∨ T.stream = .abftHalt) (hab : T.aborting = false) : T.ctrlAct w = .restart := by
  rcases h with h | h <;> simp [-BitVec.getLsbD_eq_getElem, Tile.ctrlAct, h4, h3, h, hab]

theorem Tile.ctrlAct_resume {T : Tile} {w : BitVec 64} (h4 : w.getLsbD 4 = false) (h2 : w.getLsbD 2 = true)
    (h : T.stream = .brk) (hab : T.aborting = false) : T.ctrlAct w = .resume := by
  simp [-BitVec.getLsbD_eq_getElem, Tile.ctrlAct, h4, h2, h, hab]

theorem Tile.ctrlAct_start {T : Tile} {w : BitVec 64} (h0 : w.getLsbD 0 = true) (h : T.stream = .idle)
    (h5 : w.getLsbD 5 = false) (hab : T.aborting = false) : T.ctrlAct w = .start := by
  simp [-BitVec.getLsbD_eq_getElem, Tile.ctrlAct, Tile.mayStart, h0, h5, h, hab]

/-- Settles O19: the acting bit by the tile's state, and what each does. -/
theorem oneStreamCommandActs : Obligations.OneStreamCommandActs := by
  unfold Obligations.OneStreamCommandActs
  intro d t w s hd T V untold
  refine ⟨fun ha => State.ctrlRow_acts hd ha, fun ha => State.ctrlRow_acts hd ha, fun ha => State.ctrlRow_acts hd ha,
    fun ha => (State.ctrlRow_acts hd ha).trans (congrArg Host.Outcome.next (if_pos rfl)),
    fun ha => State.ctrlRow_acts hd ha, fun h4 hidle => ?_,
    fun h4 h1 hrun hab => ?_, fun h4 h3 hheld hab hseal => ?_, fun h4 h2 hbrk hab hseal => ?_,
    fun h0 hidle h5 hab hseal => ?_, fun hseal => State.ctrlAct_sealed hseal d t w⟩
  · exact State.ctrlAct_of_stop (Tile.ctrlAct_abort h4 hidle) (.inl rfl)
  · exact State.ctrlAct_of_stop (Tile.ctrlAct_stop h4 h1 hrun hab) (.inr rfl)
  · exact (State.ctrlAct_open hseal d t w).trans (Tile.ctrlAct_restart h4 h3 hheld hab)
  · exact (State.ctrlAct_open hseal d t w).trans (Tile.ctrlAct_resume h4 h2 hbrk hab)
  · exact (State.ctrlAct_open hseal d t w).trans (Tile.ctrlAct_start h0 hidle h5 hab)

/-! ## Writes and requests from the mesh (R28, R61, R147, R149, R392, R469) -/

theorem State.writeTileReg_seed (s : State) (d t : Nat) (bank : Bool) (v : BitVec 64) :
    s.writeTileReg d t ((if bank then 0xA00 else 0x400) + 0x08) v = s.writeCvt d t bank 0x08 v := by
  cases bank <;> rfl

/-- What serving a request answers: of a write its fault, of a read its data, a bad byte or its fault. -/
theorem State.meshServe_eq (s : State) (r : MemReq) (bad : Option Nat) :
    s.meshServe r bad =
      (let s1 := s.setStage r.who 1
       let p := s1.localWrite r.addr.toNat (s1.withHalf r.addr.toNat r.half r.data)
       let g := s1.localRead r.addr.toNat r.len
       if r.write then
         match p.2 with
         | none => p.1.respond r.who [] 0 false
         | some (x, off) => p.1.respond r.who (offsetBytes off) x false
       else
         match g.2.err, bad with
         | none, none => g.1.respond r.who g.2.data 0 false
         | none, some off =>
           (match g.1.locate r.addr.toNat with
            | .sram d t _ => g.1.logErr d { code := 0x41, src := 0, unit := t, addr := r.addr.toNat + off }
            | _ => g.1).respond r.who (offsetBytes off) 0x41 false
         | some (x, off), _ => g.1.respond r.who (offsetBytes off) x false) := by
  unfold State.meshServe
  dsimp only
  split
  · split <;> next h => rw [h]
  · rfl

theorem execMeshSramRequest_reached {d : Fin 32} {t : Fin 144} {s : State} {c : Nat} {r : MemReq}
    {bad : Option (Fin 256)}
    {o : Nat} (hr : s.requestIs r = true) (hl : s.locate r.addr.toNat = .sram d t o) (h : s.reached d t c = true) :
    execMeshSramRequest d t ⟨c, r, bad⟩ s = .next (((s.land d t c).setTile d t
      (((s.land d t c).tile d t).switchTo c)).meshServe r (bad.map (·.val))) := by
  simp only [execMeshSramRequest, hr, hl, State.ownEvent_reached h, Bool.not_true, Bool.false_eq_true, if_false,
    ne_eq, not_true, or_self]

/-- Settles O20: each write by where its address lies, each request by what its access gives. -/
theorem tilesAnswerTheMesh : Obligations.TilesAnswerTheMesh := by
  unfold Obligations.TilesAnswerTheMesh
  intro d t s
  refine ⟨fun bank seed => ?_, fun addr v b off hup hl => ?_, fun addr v hup hl => ?_, fun addr v hup => ?_,
    fun c r o hreq hl hr => ⟨fun hw herr => ?_, fun off hw herr hl' => ?_, fun code at? bad hw herr => ?_,
      fun bad hw herr => ?_, fun code at? bad hw herr => ?_⟩⟩
  · exact congrArg Host.Outcome.next (State.writeTileReg_seed s d t bank seed)
  · show execRegisterWrite addr v s = _
    simp only [execRegisterWrite, hup, hl]
    exact (apply_ite Host.Outcome.next _ _ _).symm
  · show execRegisterWrite addr v s = _
    simp only [execRegisterWrite, hup, hl]
    rfl
  · show execRegisterWrite addr v s = _
    simp only [execRegisterWrite, hup]
    rfl
  · exact (execMeshSramRequest_reached hreq hl hr).trans (by
      rw [State.meshServe_eq]; dsimp only; rw [if_neg (ne_true_of_eq_false hw), herr]; rfl)
  · exact (execMeshSramRequest_reached hreq hl hr).trans (by
      rw [State.meshServe_eq]; dsimp only; rw [if_neg (ne_true_of_eq_false hw), herr]; simp only [Option.map_some, hl'])
  · exact (execMeshSramRequest_reached hreq hl hr).trans (by
      rw [State.meshServe_eq]; dsimp only; rw [if_neg (ne_true_of_eq_false hw), herr])
  · exact (execMeshSramRequest_reached hreq hl hr).trans (by
      rw [State.meshServe_eq]; dsimp only; rw [if_pos hw, herr])
  · exact (execMeshSramRequest_reached hreq hl hr).trans (by
      rw [State.meshServe_eq]; dsimp only; rw [if_pos hw, herr])

end Sys2Proof.Machine
end

section
/-! Fabric edges, the delivery of commands, route tables, and the factor dies' commands and starts (R19, R23-R25, R173,
R176, R185, R190-R198, R275, R302, R341, R375, R395). -/
namespace Sys2Proof.Machine

variable {cid : Nat} {c : Cmd} {s : State}

/-! ## Edges and delivery -/

theorem execDieFabricFlit_open {e : Edge} {held : List Held}
    (h : s.edgeOpen (edgeSorted e).a.val (edgeSorted e).b.val = true) (good : Bool) :
    execDieFabricFlit e good held s =
      (let e' := edgeSorted e
       let n := Table.get 0 s.fabric.retries (edgeKey e')
       let count (x : Nat) : State :=
         { s with fabric := { s.fabric with retries := Table.set 0 s.fabric.retries (edgeKey e') x } }
       if good then .next (count 0) else if n < 8 then .next (count (n + 1)) else .next (s.fenceEdge e' held)) := by
  simp only [execDieFabricFlit, h, Bool.not_true, Bool.false_eq_true, if_false]

theorem execCommandDeliver_accepted (hc : s.cmd? cid = some c) (hstage : c.stage = .accepted)
    (hmay : s.mayDeliver c = true) :
    execCommandDeliver cid s = .next ((s.wakeHeld.countDelivered c.targets).arriveCmd { c with
      late := c.execEn && c.beatReached s
      stage := if c.execEn && !(c.execEn && c.beatReached s) then .held else .ready }) := by
  simp only [execCommandDeliver, hc, hstage, hmay, and_self, if_true]

theorem execExecBeatReached_held (hc : s.cmd? cid = some c) (hstage : c.stage = .held) :
    execExecBeatReached cid s = .next (
      if c.beatReached s ∧ s.sd.cmds.any (fun x => s.heldBefore x c) = false then
        s.arriveCmd { c with stage := .ready } else s) := by
  simp only [execExecBeatReached, hc, State.wakeCmd, hstage, true_and, Bool.not_eq_true']

/-- Settles O21: an edge by its flit and its count; a command by its stage and its beat. -/
theorem fabricAndCommandsMove : Obligations.FabricAndCommandsMove := by
  unfold Obligations.FabricAndCommandsMove
  refine ⟨fun e held s hopen => ⟨?_, fun hn => ?_, fun hn => ?_⟩,
    fun cid c s hc => ⟨fun hstage hmay => ⟨fun hen => ?_, fun hen hbeat => ?_, fun hen hbeat => ?_⟩,
      fun hstage hbeat hfirst => ?_, fun hstage hbeat => ?_⟩⟩
  · exact execDieFabricFlit_open hopen true
  · exact (execDieFabricFlit_open hopen false).trans (if_pos hn)
  · exact (execDieFabricFlit_open hopen false).trans (if_neg (Nat.not_lt.2 hn))
  · exact (execCommandDeliver_accepted hc hstage hmay).trans (by rw [hen]; rfl)
  · exact (execCommandDeliver_accepted hc hstage hmay).trans (by rw [hen, hbeat]; rfl)
  · exact (execCommandDeliver_accepted hc hstage hmay).trans (by rw [hen, hbeat]; rfl)
  · exact (execExecBeatReached_held hc hstage).trans (by rw [if_pos ⟨hbeat, hfirst⟩])
  · exact (execExecBeatReached_held hc hstage).trans (by rw [if_neg (fun h => ne_true_of_eq_false hbeat h.1)])

/-! ## Route tables -/

theorem execRouteTableChange_running (hc : s.runningCmd cid = some c)
    (hop : (fabricOps ++ linkOps).contains c.op = true) :
    execRouteTableChange cid s = .next (if s.drainedFor c.op && decide (s.waited c < 4096) then
      (s.routeChange c).1.reply c (s.routeChange c).2 0 else s) := by
  simp only [execRouteTableChange, hc, hop, Bool.true_and]
  exact (apply_ite Host.Outcome.next _ _ _).symm

theorem execRouteDrainTimeout_running (hc : s.runningCmd cid = some c)
    (hop : (fabricOps ++ linkOps).contains c.op = true) :
    execRouteDrainTimeout cid s = .next (if 4096 ≤ s.waited c then s.reply c stBusy 0 else s) := by
  simp only [execRouteDrainTimeout, hc, hop, Bool.true_and, decide_eq_true_eq]
  exact (apply_ite Host.Outcome.next _ _ _).symm

theorem execSpareAdopt_free (h : s.canRun cid 0x0810 c = true) (hbar : s.adoptBars (c.u 1 1) (c.u 0 1) = none)
    (checkOk : Bool) : execSpareAdopt cid checkOk s
      = .next (if checkOk then s.running c else (s.setSite (c.u 1 1) 2 0).reply c stDown 0) :=
  (State.withCmd_canRun h _).trans (by dsimp only; rw [hbar])

theorem execSpareAdopt_barred {st : Nat} (h : s.canRun cid 0x0810 c = true)
    (hbar : s.adoptBars (c.u 1 1) (c.u 0 1) = some st) (checkOk : Bool) :
    execSpareAdopt cid checkOk s = .next (s.reply c st 0) :=
  (State.withCmd_canRun h _).trans (by dsimp only; rw [hbar])

/-- Settles O22: a change by its drain and its wait; each command when it may run. -/
theorem routeTablesChange : Obligations.RouteTablesChange := by
  unfold Obligations.RouteTablesChange
  refine ⟨fun cid c s hc hop => ⟨fun hdrained hwait => ?_, fun hwait => ?_, fun hwait => ?_, fun hdrained => ?_⟩,
    fun cid c s => ⟨fun h hbar => ⟨execSpareAdopt_free h hbar true, execSpareAdopt_free h hbar false⟩,
      fun st checkOk h hbar => execSpareAdopt_barred h hbar checkOk, fun h => State.withCmd_canRun h _⟩,
    fun cid c s => ⟨fun h hset => ?_, fun h hset => ?_, fun h => State.withCmd_canRun h _,
      fun h => State.withCmd_canRun h _⟩⟩
  · exact (execRouteTableChange_running hc hop).trans (by rw [hdrained, decide_eq_true hwait]; rfl)
  · exact (execRouteDrainTimeout_running hc hop).trans (by rw [if_pos hwait])
  · exact (execRouteDrainTimeout_running hc hop).trans (by rw [if_neg (Nat.not_le.2 hwait)])
  · exact (execRouteTableChange_running hc hop).trans (by rw [hdrained]; rfl)
  · exact (State.withCmd_canRun h _ : execTorusCfg cid s = _).trans (by rw [if_pos hset])
  · exact (State.withCmd_canRun h _ : execTorusCfg cid s = _).trans (by rw [if_neg (not_not.2 hset)])

/-! ## The factor dies' commands -/

section
variable {b : Nat} {l : List Nat}

theorem State.oneDie_open (hl : c.targets = b :: l) (hbar : s.barred c b = none) (f : State → Nat → State) :
    s.oneDie c f = f s (s.dieOf b) := by simp only [State.oneDie, hl, hbar]

theorem State.oneDie_barred {st : Nat} (hl : c.targets = b :: l) (hbar : s.barred c b = some st)
    (f : State → Nat → State) : s.oneDie c f = s.reply c st 0 := by simp only [State.oneDie, hl, hbar]

/-- A die that is down, or that a fenced edge has cut off, bars a command. -/
theorem State.barred_of_down {st : Nat} (h : s.targetDown c.op b = true ∧ st = stDown ∨
    s.targetDown c.op b = false ∧ c.cutOff.contains b = true ∧ st = stErr 0x50) : s.barred c b = some st := by
  rcases h with ⟨h, rfl⟩ | ⟨h, hcut, rfl⟩
  · simp only [State.barred, h, if_true]
  · simp only [State.barred, h, hcut, Bool.false_eq_true, if_false, if_true]

theorem State.factorCmd_free {op : Nat} (h : s.canRun cid op c = true) (hl : c.targets = b :: l)
    (hbar : s.barred c b = none) (hfree : s.batch (s.dieOf b - 56) = none) (g : State → Cmd → Nat → State) :
    s.factorCmd cid op g = .next (g s c (s.dieOf b - 56)) :=
  (State.withCmd_canRun h _).trans (by rw [State.oneDie_open hl hbar, hfree]; rfl)

theorem State.factorCmd_barred {op st : Nat} (h : s.canRun cid op c = true) (hl : c.targets = b :: l)
    (hbar : s.barred c b = some st) (g : State → Cmd → Nat → State) :
    s.factorCmd cid op g = .next (s.reply c st 0) :=
  (State.withCmd_canRun h _).trans (by rw [State.oneDie_barred hl hbar])

theorem execFactorAbort_open (h : s.canRunNow cid 0x0705 c = true) (hl : c.targets = b :: l)
    (hbar : s.barred c b = none) :
    execFactorAbort cid s = .next ((s.endRest (s.dieOf b - 56) psAborted).reply c stOk 0) :=
  (State.atOnce_canRunNow h _).trans (by rw [State.oneDie_open hl hbar]; rfl)

theorem execFactorAbort_barred {st : Nat} (h : s.canRunNow cid 0x0705 c = true) (hl : c.targets = b :: l)
    (hbar : s.barred c b = some st) : execFactorAbort cid s = .next (s.reply c st 0) :=
  (State.atOnce_canRunNow h _).trans (by rw [State.oneDie_barred hl hbar])

end

/-- Settles O23: a factor command on a free die does its work, and a barred one is answered with the bar. -/
theorem factorCommandsRun : Obligations.FactorCommandsRun := by
  unfold Obligations.FactorCommandsRun
  intro cid c s b l hl f r s1
  refine ⟨fun h hbar hfree => (State.factorCmd_free h hl hbar hfree _ : execFactorBatch cid s = _),
    fun h hbar hfree => (State.factorCmd_free h hl hbar hfree _ : execFactorStore cid s = _),
    fun h hbar hfree => (State.factorCmd_free h hl hbar hfree _ : execFactorRelease cid s = _),
    fun h hbar hfree => (State.factorCmd_free h hl hbar hfree _ : execFactorReset cid s = _),
    fun h hbar => execFactorAbort_open h hl hbar, fun st hst => ?_⟩
  have hbar := State.barred_of_down hst
  exact ⟨fun h => (State.factorCmd_barred h hl hbar _ : execFactorBatch cid s = _),
    fun h => (State.factorCmd_barred h hl hbar _ : execFactorStore cid s = _),
    fun h => (State.factorCmd_barred h hl hbar _ : execFactorRelease cid s = _),
    fun h => (State.factorCmd_barred h hl hbar _ : execFactorReset cid s = _),
    fun h => execFactorAbort_barred h hl hbar⟩

/-! ## The start of problems -/

theorem execFactorDeadline_batch {f : Fin 4} {b : BatchRun} (hb : s.batch f = some b) :
    execFactorDeadline f s
      = if s.batchLate f b && !s.wseal.isSealed then .next (s.endRest f psNotRun) else .next s := by
  simp only [execFactorDeadline, hb]

/-- The next problem of a batch, on a device that is not sealed. -/
theorem execProblemStart_next {f : Fin 4} {j cycles : Nat} {b : BatchRun} (hb : s.batch f = some b) (hnext : b.next = j)
    (hj : j < b.count) (hseal : s.wseal.isSealed = false) (bad : Bool) :
    execProblemStart f j cycles bad s =
      if s.batchLate f b then .next (s.endRest f psNotRun)
      else
        let at? := s.batchParam b 0 8 + 128 * j
        let s1 := (s.devRead at? 128).1
        let words := wordsOf (s.devRead at? 128).2.data
        match (s.devRead at? 128).2.err with
        | some (code, off) => .next ((s1.batchError f 0 code (at? + off)).endUnstarted f j psData)
        | none =>
          if !s1.descOk f (descOf words) then .next (s1.endUnstarted f j psInvalid)
          else
            match b.lane? (descOf words).quad with
            | none => .next s1
            | some lane =>
              let p : Problem := { Problem.new j lane words s1.alm.now with cycles := cycles }
              match s1.batch f with
              | none => .next s1
              | some b1 =>
                let s2 := s1.setBatch f { b1 with next := j + 1, probs := b1.probs ++ [p] }
                if bad then .next (s2.laneFault f p) else .next (s2.startProblem f p (descOf words)) := by
  have hgo : ¬ (b.next ≠ j ∨ b.count ≤ j ∨ s.wseal.isSealed = true) := by
    rintro (h | h | h)
    · exact h hnext
    · exact Nat.not_le.2 hj h
    · exact ne_true_of_eq_false hseal h
  simp only [execProblemStart, hb, if_neg hgo] <;> rfl

/-- Settles O24: the deadline first, then the record, its legality and the lane. -/
theorem factorProblemsStartInOrder : Obligations.FactorProblemsStartInOrder := by
  unfold Obligations.FactorProblemsStartInOrder
  refine fun f j cycles s b hb => ⟨fun hlate hseal => ?_, fun hseal => ?_, fun hnext hj hseal =>
    ⟨fun bad hlate => ?_, fun hlate => ⟨fun bad code off herr => ?_, fun herr => ⟨fun bad hbad => ?_,
      fun lane b1 hok hlane hb1 => ⟨?_, ?_⟩⟩⟩⟩⟩
  · exact (execFactorDeadline_batch hb).trans (by rw [hlate, hseal]; rfl)
  · exact (execFactorDeadline_batch hb).trans (by rw [hseal, Bool.not_true, Bool.and_false]; rfl)
  · exact (execProblemStart_next hb hnext hj hseal bad).trans (if_pos hlate)
  · exact (execProblemStart_next hb hnext hj hseal bad).trans (by
      rw [if_neg (ne_true_of_eq_false hlate)]; dsimp only; rw [herr])
  · exact (execProblemStart_next hb hnext hj hseal bad).trans (by
      rw [if_neg (ne_true_of_eq_false hlate)]; dsimp only; rw [herr]; dsimp only; rw [hbad]; rfl)
  · exact (execProblemStart_next hb hnext hj hseal false).trans (by
      rw [if_neg (ne_true_of_eq_false hlate)]; dsimp only; rw [herr]; dsimp only; rw [hok, hlane]; dsimp only
      rw [hb1]; rfl)
  · exact (execProblemStart_next hb hnext hj hseal true).trans (by
      rw [if_neg (ne_true_of_eq_false hlate)]; dsimp only; rw [herr]; dsimp only; rw [hok, hlane]; dsimp only
      rw [hb1]; rfl)

end Sys2Proof.Machine
end

section
/-! The memory dies: requests, refresh, scrub, temperatures and commands, and the stash (R202-R226, R253, R254,
R401, R402, R406). -/
namespace Sys2Proof.Machine

variable {cid : Nat} {c : Cmd} {s : State} {m : Fin 16}

/-! ## Requests -/

/-- A request that reaches its memory die goes into it with the bytes that have crossed. -/
theorem execMemRequest_arrived {cycle : Nat} {r : MemReq} {k o : Nat} (hreq : s.requestIs r = true)
    (harr : s.arrives m cycle r.who = true) (hroom : s.agentRoom r = true) (hl : s.locate r.addr.toNat = .hbm k o) :
    execMemRequest m ⟨cycle, r⟩ s =
      (let s0 := (s.setMd m { s.md m with clock := cycle, lastEdge := s.arrivalEdge m r.who }).cross r.data
       .next ((s0.1.setStage r.who 1).takeReq m k { r with data := s0.2 })) := by
  simp only [execMemRequest, hreq, harr, hroom, hl, Bool.and_self, Bool.not_true, Bool.false_eq_true, if_false]

/-- A request of a die's own stack that is in service is admitted where its entries have room and no hold. -/
theorem State.takeReq_up {k : Nat} {r : MemReq} {n : Nat} (hk : k / 2 = n) (hup : (s.stk k).down = false) :
    s.takeReq n k r =
      (let entries := entriesOf (hbmLoc s.fabric.quadLocal r.addr.toNat).2 r.len
       if (s.stk k).room entries && (s.stk k).noHold entries then s.admitReq k r
       else s.hold k ((s.stk k).fullBank entries) r) := by
  rw [State.takeReq, if_neg (not_not.2 hk), if_neg (ne_true_of_eq_false hup)]
  rfl

/-- Settles O26: by the die that has the stack, the stack's service and the room of its banks. -/
theorem memoryRequestsAreAdmitted : Obligations.MemoryRequestsAreAdmitted := by
  unfold Obligations.MemoryRequestsAreAdmitted
  intro m cycle r s k o hreq harr hroom hl s0 s1 r1 entries free
  have hrun := execMemRequest_arrived hreq harr hroom hl
  refine ⟨fun hk hup hfree => hrun.trans ?_, fun hk hup hfree => hrun.trans ?_, fun hk => hrun.trans ?_,
    fun hk hdown => hrun.trans ?_⟩
  · exact congrArg Host.Outcome.next ((State.takeReq_up hk hup).trans (if_pos hfree))
  · exact congrArg Host.Outcome.next ((State.takeReq_up hk hup).trans (if_neg (ne_true_of_eq_false hfree)))
  · exact congrArg Host.Outcome.next (if_pos hk)
  · exact congrArg Host.Outcome.next ((if_neg (not_not.2 hk)).trans (if_pos hdown))

/-! ## The Winnower, refresh and recalibration -/

theorem execWinnowerAccess_page {stack : Bool} {pc : Fin 64} {now b page : Nat} {banks odecc : List Nat}
    {errs : List (Nat × Nat)} (hw : ((s.md m).stk stack).waits pc = false)
    (htrained : ((s.md m).stk stack).trained = true) (hdown : ((s.md m).stk stack).down = false)
    (hnow : (s.md m).clock ≤ now) (hup : ((s.md m).stk stack).upkeepDue (2 * m.val + natOf stack) pc now = false)
    (hpage : (((s.setMd m { s.md m with clock := now }).setStk (2 * m.val + natOf stack)
      (((s.md m).stk stack).decay errs odecc)).winnowChoice ((s.md m).stk stack) pc now banks).1 = some (b, page)) :
    execWinnowerAccess m stack pc now banks errs odecc s = .next ((((s.setMd m { s.md m with clock := now }).setStk
      (2 * m.val + natOf stack) (((s.md m).stk stack).decay errs odecc)).winnowChoice ((s.md m).stk stack) pc now
        banks).2.serve (2 * m.val + natOf stack) b page) := by
  unfold execWinnowerAccess
  dsimp only
  rw [hw, htrained, hdown, hup, decide_eq_false (Nat.not_lt.2 hnow), if_neg (by decide)]
  split
  · next h => rw [h] at hpage ⊢; cases hpage; rfl
  · next h => rw [h] at hpage; cases hpage

theorem execRefresh_due {stack : Bool} {pc : Fin 64} {cycle : Nat} {bank : Fin 48} (h : (s.md m).clock ≤ cycle) :
    execRefresh m stack pc ⟨cycle, bank⟩ s = .next ((s.setMd m { s.md m with clock := cycle }).onBank m stack
      (pc * 48 + bank) (fun q => { q.close with fresh := cycle })) := if_neg (Nat.not_lt.2 h)

/-- Settles O27: the guards of each event hold by its premises. -/
theorem winnowerServesAndRefreshCloses : Obligations.WinnowerServesAndRefreshCloses := by
  unfold Obligations.WinnowerServesAndRefreshCloses
  intro m stack pc s k x
  refine ⟨fun now banks errs odecc b page hw htrained hdown hnow hup hpage =>
      execWinnowerAccess_page hw htrained hdown hnow hup hpage, fun cycle bank h => execRefresh_due h, fun bank => rfl,
    fun converged hin htrained hdown hturn => ?_, fun hin => ⟨?_, ?_⟩⟩
  · exact (if_neg (ne_true_of_eq_false hin) : execHbmRecalibration m stack pc converged s = _).trans
      (if_pos (by rw [htrained, hdown, hturn]; rfl))
  · exact (if_pos hin : execHbmRecalibration m stack pc true s = _)
  · exact (if_pos hin : execHbmRecalibration m stack pc false s = _)

/-! ## Scrub, repair and temperatures -/

/-- A reading below 105 °C is no crossing, whatever the one before. -/
theorem execHbmTempPoll_cool {t0 t1 : BitVec 8} (h0 : t0.toNat < 105) (h1 : t1.toNat < 105) :
    execHbmTempPoll m t0 t1 s =
      (let M := s.md m
       let M1 : MemDie := { M with st0 := M.st0.reading (throttleAt M) t0, st1 := M.st1.reading (throttleAt M) t1 }
       .next (if M1.st0.level < 3 ∧ M1.st1.level < 3 then (s.setMd m M1).release (holdThermal (blkMd m)) [quadOfMd m]
         else s.setMd m M1)) := by
  simp only [execHbmTempPoll, decide_eq_false (Nat.not_le.2 h0), decide_eq_false (Nat.not_le.2 h1), Bool.false_and,
    Bool.false_eq_true, if_false]

theorem execScrubRead_paused {stack : Bool} {errs : Nat} {odecc : List (Fin 2)}
    (h : (s.md m).st0.oos = true ∨ (s.md m).st1.oos = true) : execScrubRead m stack errs odecc s = .next s :=
  if_pos (by rcases h with h | h <;> simp only [h, Bool.or_true, Bool.true_or])

/-- Settles O28: the guards of each event hold by its premises. -/
theorem memoryDiesAreWatched : Obligations.MemoryDiesAreWatched := by
  unfold Obligations.MemoryDiesAreWatched
  refine ⟨fun m stack row s => ⟨fun errs odecc hcfg h0 h1 hscrub hlimit hturn hready => ?_,
      fun errs odecc h => execScrubRead_paused h, fun hrow hcand htrained hdown hw hturn =>
        ⟨fun hspare => ?_, fun hspare => ?_⟩⟩,
    fun m stack t0 t1 s => ⟨fun h0 h1 => execHbmTempPoll_cool h0 h1, fun hhot hlevel => if_pos ⟨hhot, hlevel⟩⟩⟩
  · exact (if_neg (by rw [hcfg, h0, h1]; decide) : execScrubRead m stack errs odecc s = _).trans
      ((if_neg (ne_true_of_eq_false hscrub)).trans (if_neg (by rw [hlimit, hturn, hready]; decide)))
  · exact (if_pos ⟨hrow, hcand, htrained, by simpa using hdown, by simpa using hw, hturn⟩ :
      execRepairCandidate m stack row s = _).trans (if_pos hspare)
  · exact (if_pos ⟨hrow, hcand, htrained, by simpa using hdown, by simpa using hw, hturn⟩ :
      execRepairCandidate m stack row s = _).trans (if_neg hspare)

/-! ## Commands -/

section
variable {b : Nat} {l : List Nat}

/-- A command of one die that is not barred runs on that die. -/
theorem State.withCmd_oneDie {op : Nat} (h : s.canRun cid op c = true) (hl : c.targets = b :: l)
    (hbar : s.barred c b = none) (f : State → Cmd → State → Nat → State) :
    s.withCmd cid op (fun s c => s.oneDie c (f s c)) = .next (f s c s (s.dieOf b)) :=
  (State.withCmd_canRun h _).trans (by rw [State.oneDie_open hl hbar])

end

/-- 2,176 records are written as they are. -/
theorem State.marginResult_whole {records : List (BitVec 32)} (h : records.length = 2176) :
    s.marginResult c records =
      (let g := s.devWrite (c.u 8 8) (records.flatMap (fun r => leBytes 4 r.toNat))
       g.1.reply c (match g.2 with
         | some (code, _) => stErr code
         | none => stOk) 0) := by
  have hl : (records ++ List.replicate (2176 - records.length) 0).take 2176 = records := by
    rw [← h, Nat.sub_self, List.replicate_zero, List.append_nil, List.take_length]
  unfold State.marginResult
  dsimp only
  rw [hl] <;> rfl

theorem execHbmMargin_ends {records : List (BitVec 32)} (hc : s.runningCmd cid = some c) (hop : c.op = 0x0C05) :
    execHbmMargin cid records s = .next ((s.setService (s.namedStack c) false).marginResult c records) := by
  simp only [execHbmMargin, hc, if_pos hop]

theorem execHbmMargin_starts {records : List (BitVec 32)} (hc : s.runningCmd cid = none) :
    execHbmMargin cid records s = s.withCmd cid 0x0C05 (fun s c => s.oneDie c (fun s _ =>
      if s.margining then s else (s.setService (s.namedStack c) true).running c)) := by
  simp only [execHbmMargin, hc]

/-- Settles O29: each command on its die, by the cases of its work. -/
theorem memoryCommandsRun : Obligations.MemoryCommandsRun := by
  unfold Obligations.MemoryCommandsRun
  intro cid c s status
  refine ⟨fun h hmode => ?_, fun h hmode => ?_, fun b l h hl hbar => ?_, fun b l records h hrun hl hbar hfree => ?_,
    fun records hc hop hlen => ?_, fun b l h hl hbar hdiag => ⟨fun harm => ?_, fun harm hfull => ?_⟩⟩
  · exact (State.withCmd_canRun h _ : execMemMode cid s = _).trans (by rw [if_pos hmode])
  · exact (State.withCmd_canRun h _ : execMemMode cid s = _).trans (by rw [if_neg hmode])
  · exact (State.withCmd_oneDie h hl hbar _ : execHbmRepair cid s = _)
  · exact (execHbmMargin_starts hrun).trans ((State.withCmd_oneDie h hl hbar _).trans (by
      rw [if_neg (ne_true_of_eq_false hfree)]))
  · exact (execHbmMargin_ends hc hop).trans (by rw [State.marginResult_whole hlen] <;> rfl)
  · refine (State.withCmd_oneDie h hl hbar _ : execEccInject cid s = _).trans (congrArg Host.Outcome.next ?_)
    refine (if_neg (by rw [hdiag]; decide)).trans (if_neg ?_)
    rcases harm with harm | harm
    · rw [Option.isNone_eq_false_iff.2 harm]; exact Bool.false_ne_true
    · rw [decide_eq_false (Nat.not_le.2 harm), Bool.and_false]; exact Bool.false_ne_true
  · refine (State.withCmd_oneDie h hl hbar _ : execEccInject cid s = _).trans (congrArg Host.Outcome.next ?_)
    exact (if_neg (by rw [hdiag]; decide)).trans (if_pos (by rw [harm, decide_eq_true hfull]; rfl))

/-! ## The stash -/

theorem execStashPack_done {b : Nat} {l : List Nat} (h : s.canRun cid 0x0402 c = true) (hl : c.targets = b :: l)
    (hbar : s.barred c b = none) (hread : (s.devRead (c.u 0 8) (4096 * c.u 0x10 4)).2.err = none)
    (hwrite : ((s.devRead (c.u 0 8) (4096 * c.u 0x10 4)).1.devWrite (c.u 8 8)
      (packStream (c.u 0x10 4) (s.devRead (c.u 0 8) (4096 * c.u 0x10 4)).2.data)).2 = none) :
    execStashPack cid s =
      (let g := s.devRead (c.u 0 8) (4096 * c.u 0x10 4)
       let out := packStream (c.u 0x10 4) g.2.data
       .next ((g.1.devWrite (c.u 8 8) out).1.stashDone (s.dieOf b) c none out.length 0)) := by
  refine (State.withCmd_oneDie h hl hbar _ : execStashPack cid s = _).trans (congrArg Host.Outcome.next ?_)
  dsimp only
  rw [hread]
  dsimp only
  split
  · next h => rw [h] at hwrite; cases hwrite
  · next h => rw [h]

/-- Settles O31: a pack whose read and write succeed, and an unpack. -/
theorem stashCommandsRun : Obligations.StashCommandsRun := by
  unfold Obligations.StashCommandsRun
  intro cid c s b l hl hbar
  exact ⟨fun h hread hwrite => execStashPack_done h hl hbar hread hwrite,
    fun h => (State.withCmd_oneDie h hl hbar _ : execStashUnpack cid s = _)⟩

end Sys2Proof.Machine
end

section
/-! Torus ports, packets, collectives and rotations (R150, R152, R264-R301, R351, R372, R401). -/
namespace Sys2Proof.Machine

variable {s s1 : State} {p : Fin 12} {k : Packet}

/-! ## Ports -/

@[simp] theorem State.setPort_port_self (s : State) (p : Nat) (P : TorusPort) : (s.setPort p P).port p = P :=
  (State.setPort_port s p P p).trans (if_pos rfl)

theorem execFlitTransmit_live (h : (s.port p).live = true) :
    execFlitTransmit p s = .next (s.setPort p (s.port p).transmit) :=
  congrArg Host.Outcome.next (if_pos h)

/-- The port with the counts of a received flit's codewords. -/
def TorusPort.counted (P : TorusPort) (x : Received) : TorusPort :=
  { P with corr := satAdd 0xFFFFFFFF P.corr (wordsCorrected x), uncorr := satAdd 0xFFFF P.uncorr (wordsLost x) }

theorem execFlitReceive_bad {x : Received} (h : (s.port p).live = true) (hbad : x.flit.good = false) :
    execFlitReceive p x s = .next (s.setPort p { (s.port p).counted x with
      nakOut := ((s.port p).counted x).nakOut || x.flit.sequenced }) := by
  simp only [execFlitReceive, h, hbad, Bool.not_true, Bool.false_eq_true, if_false, Bool.not_false, if_true]
  rfl

/-- A good flit that is no eighth NAK is taken in where it has a SEQ. -/
theorem execFlitReceive_good {x : Received} (h : (s.port p).live = true) (hgood : x.flit.good = true)
    (hnak : (((s.port p).counted x).control x.flit).2 = false) :
    execFlitReceive p x s =
      (let t := s.setPort p (((s.port p).counted x).control x.flit).1
       .next (if x.flit.sequenced then t.acceptFlit p x.flit else t)) := by
  simp only [execFlitReceive, h, hgood, Bool.not_true, Bool.false_eq_true, if_false]
  exact congrArg Host.Outcome.next (if_neg (ne_true_of_eq_false hnak))

theorem State.acceptFlit_outOfSequence {f : Flit} {n : Nat} (h : f.seq.toNat ≠ (s.port n).expect) :
    s.acceptFlit n f = s.setPort n { s.port n with nakOut := true } := if_pos h

/-- A packet flit in sequence that is no packet's last joins its packet. -/
theorem State.acceptFlit_packet {f : Flit} {n : Nat} (hkind : f.kind = 1) (h : f.seq.toNat = (s.port n).expect)
    (heop : f.eop = false) :
    s.acceptFlit n f =
      (let P : TorusPort := { s.port n with expect := ((s.port n).expect + 1) % 4096 }
       s.setPort n { P with
         used := Table.set 0 P.used f.vc.val (Table.get 0 P.used f.vc.val + 1)
         rx := Table.set [] P.rx f.vc.val ((if f.sop then [] else Table.get [] P.rx f.vc.val) ++ f.valid) }) := by
  unfold State.acceptFlit
  dsimp only
  rw [if_neg (not_not.2 h), if_pos hkind]
  simp only [TorusPort.collect, heop]
  rfl

theorem TorusPort.transmit_resend {P : TorusPort} (h : P.resend ≠ 0) : P.transmit = P.sendAgain := if_pos h

theorem TorusPort.transmit_new {P : TorusPort} {b : BufFlit} (h : P.resend = 0) (hlen : P.replay.length < 2048)
    (hb : P.next = some b) : P.transmit = P.sendNew b := by
  simp only [TorusPort.transmit, h, hlen, hb, ne_eq, not_true, if_false, if_true]

theorem TorusPort.transmit_idle {P : TorusPort} (h : P.resend = 0) (hnone : 2048 ≤ P.replay.length ∨ P.next = none) :
    P.transmit = P.idle := by
  rcases hnone with hlen | hnone
  · simp only [TorusPort.transmit, h, Nat.not_lt.2 hlen, ne_eq, not_true, if_false]
  · simp only [TorusPort.transmit, h, hnone, ne_eq, not_true, if_false, ite_self]

/-- What a training that succeeds makes of the port, by its neighbour. -/
theorem execLinkTrainingComplete_training {peer : Peer} (h : (s.port p).state = .training) :
    execLinkTrainingComplete p true peer s =
      (let P1 := (s.port p).met peer
       if s.peerOk p peer.coord then .next (s.setPort p
         (P1.fresh (if !s.net.coordValid || P1.role == 2 then .standby else .up)))
       else .next ((s.setPort p { P1 with state := .down, queue := [] }).logErr (portBlock p)
         { code := 0x60, src := 14, unit := p })) :=
  if_pos h

theorem execLinkTrainingComplete_failed {peer : Peer} (h : (s.port p).state = .training) :
    execLinkTrainingComplete p false peer s = .next (s.setPort p { s.port p with state := .down }) := if_pos h

theorem execLinkTrainingComplete_standby {peer : Peer} (h : (s.port p).state = .standby) (hrole : (s.port p).role = 1)
    (hcoord : s.net.coordValid = true) :
    execLinkTrainingComplete p true peer s =
      (let P1 := (s.port p).met peer
       if s.peerOk p peer.coord then .next (s.setPort p { P1 with state := .up })
       else .next (((s.setPort p P1).fencePort p).logErr (portBlock p)
         { code := 0x60, src := 14, unit := p })) := by
  have hstate : ((s.port p).met peer).state = .standby := h
  have hrole' : ((s.port p).met peer).role = 1 := hrole
  simp only [execLinkTrainingComplete, if_true, hstate, hrole', hcoord, and_self, Bool.true_and, reduceCtorEq, if_false]

theorem execRetrainComplete_retrain {audit : Audit} (h : (s.port p).state = .retrain) (ok : Bool) :
    execRetrainComplete p ok audit s =
      (let P := s.port p
       let s' := s.setPort p { P with failed := P.failed + 1 }
       if ok then .next (s.setPort p
         (P.resume audit (if s.net.coordValid && P.role == 1 && !P.fromStandby then .up else .standby)))
       else if P.failed + 1 < 3 then .next s'
       else .next ((s'.fencePort p).logErr (portBlock p) { code := 0x62, src := 14, unit := p })) :=
  if_neg (not_not.2 h)

theorem execCreditAudit_live (h : (s.port p).live = true) (ok : Bool) :
    execCreditAudit p ok s =
      (let s1 := s.queueAudit p
       let s2 := s1.setPort p { s1.port p with spent := spend s1.alm.total auditBytes (s1.port p).spent }
       if s.marginTurn p then
         if ok then .next s2
         else .next ((s2.logErr (portBlock p) { code := 0xD1, src := 14, unit := p }).retrainPort p)
       else .next s1) := if_pos h

theorem State.queueAudit_queue (s : State) (p : Nat) :
    ((s.queueAudit p).port p).queue = (s.port p).queue ++ [controlFlit, delayFlit] := by
  simp only [State.queueAudit, State.setPort_port_self]

/-- Settles O32: each event by the state of its port and the flit that comes. -/
theorem linksCarryFlits : Obligations.LinksCarryFlits := by
  unfold Obligations.LinksCarryFlits
  refine ⟨fun p s => ⟨fun hlive => ⟨fun hre => ?_, fun b hre hlen hb => ?_, fun hre hnone => ?_,
        fun x => ⟨fun hbad => execFlitReceive_bad hlive hbad, fun hgood hnak => ⟨fun hseq => ?_, fun hseq hne => ?_,
          fun hkind heq heop => ?_⟩⟩, if_pos hlive⟩,
      fun peer h => ⟨execLinkTrainingComplete_failed h, fun hok => ?_, fun hok => ?_⟩,
      fun peer h hrole hcoord => ⟨fun hok => ?_, fun hok => ?_⟩,
      fun audit h => ⟨execRetrainComplete_retrain h true, fun hf => ?_, fun hf => ?_⟩⟩,
    fun p s hlive => ⟨State.queueAudit_queue s p, fun ok hturn => ?_, fun hturn => ?_, fun hturn => ?_,
      fun free ctot delay => if_pos hlive⟩⟩
  · exact (execFlitTransmit_live hlive).trans (by rw [TorusPort.transmit_resend hre])
  · exact (execFlitTransmit_live hlive).trans (by rw [TorusPort.transmit_new hre hlen hb])
  · exact (execFlitTransmit_live hlive).trans (by rw [TorusPort.transmit_idle hre hnone])
  · exact (execFlitReceive_good hlive hgood hnak).trans (by dsimp only; rw [if_neg (ne_true_of_eq_false hseq)]; rfl)
  · refine (execFlitReceive_good hlive hgood hnak).trans ?_
    dsimp only
    rw [if_pos hseq, State.acceptFlit_outOfSequence (by rw [State.setPort_port_self]; exact hne),
      State.setPort_port_self]
    rfl
  · refine (execFlitReceive_good hlive hgood hnak).trans ?_
    dsimp only
    rw [if_pos (by simp [Flit.sequenced, hkind]),
      State.acceptFlit_packet hkind (by rw [State.setPort_port_self]; exact heq) heop, State.setPort_port_self]
    rfl
  · exact (execLinkTrainingComplete_training h).trans (if_pos hok)
  · exact (execLinkTrainingComplete_training h).trans (if_neg (ne_true_of_eq_false hok))
  · exact (execLinkTrainingComplete_standby h hrole hcoord).trans (if_pos hok)
  · exact (execLinkTrainingComplete_standby h hrole hcoord).trans (if_neg (ne_true_of_eq_false hok))
  · exact (execRetrainComplete_retrain h false).trans (if_pos (Nat.succ_lt_succ hf))
  · exact (execRetrainComplete_retrain h false).trans (if_neg (Nat.not_lt.2 (Nat.succ_le_succ hf)))
  · exact (execCreditAudit_live hlive ok).trans (if_neg (ne_true_of_eq_false hturn))
  · exact (execCreditAudit_live hlive true).trans (if_pos hturn)
  · exact (execCreditAudit_live hlive false).trans (if_pos hturn)

/-! ## Packets at their destination -/

/-- A WRITE that need not wait is answered by what its access gives. -/
theorem execWrite_taken (h : s.takePacket k 0x01 = some s1) (hwait : s1.mustWait k = false) :
    execWrite k s =
      (let w := s1.localWrite k.addr.toNat k.data
       match w.2 with
       | none => .next ((w.1.asksHolder k).pushOut (w.1.answerPacket k 0x04 0 []))
       | some (code, off) => .next (w.1.errorAt k code off)) := by
  simp only [execWrite, h, if_neg (ne_true_of_eq_false hwait)]
  split <;> next hw => rw [hw]

theorem execWrite_waits (h : s.takePacket k 0x01 = some s1) (hwait : s1.mustWait k = true) :
    execWrite k s = .next (s1.errorAt k waitCode 0) := by
  simp only [execWrite, h, if_pos hwait]

theorem execSignalPacket_bad (h : s.takePacket k 0x06 = some s1) (hbad : sigBad k.arg = true) :
    execSignalPacket k s = .next
      ((s1.logErr blkSteward { code := 0x24, src := 0, addr := k.arg.toNat }).errorAt k 0x24 0) := by
  simp only [execSignalPacket, h, if_pos hbad]

theorem execSignalPacket_good (h : s.takePacket k 0x06 = some s1) (hbad : sigBad k.arg = false) :
    execSignalPacket k s = .next { s1 with fabric := { s1.fabric with sigs := s1.fabric.sigs ++
      [⟨none, sigDie k.arg, sigTile k.arg, k.arg.getLsbD 26, bits k.arg 5 0, bits k.addr 15 0, some k⟩] } } := by
  simp only [execSignalPacket, h, if_neg (ne_true_of_eq_false hbad)]

theorem execErrorRsp_taken (h : s.takePacket k 0x05 = some s1) :
    execErrorRsp k s =
      (let code := bits k.arg 7 0
       if k.tag = tagColl then .next (s1.collFail (k.id.toNat % 256) (if code = 0x64 then 3 else 4) code)
       else if k.tag = tagRot then .next (s1.rotAnswer k)
       else if k.tag = tagHarvest then
         .next (s1.stewardAck (harvestId k.addr.toNat) code (offsetBytes (bits k.arg 31 16)))
       else .next (s1.answered k (offsetBytes (bits k.arg 31 16)) code)) := by
  simp only [execErrorRsp, h]

theorem execFlagIncrement_found {d : Fin 32} {t : Fin 144} {ctx : Bool} {flag : Fin 64} {c : Nat} {count : BitVec 16}
    {x : Sig} (hx : s.fabric.sigs.find? (fun x => x.is d.val t.val ctx flag.val count.toNat) = some x) :
    execFlagIncrement d t ctx flag ⟨c, count⟩ s =
      (let off : State := { s with fabric := { s.fabric with sigs := s.fabric.sigs.erase x } }
       if s.absent d.val then
         .next ((off.logErr (memAt (d.val / 8) (t.val % 4))
           { code := 0x50, src := 15, unit := d.val }).sigAnswer x 0x50)
       else if s.reached d.val t.val c then
         let s1 := off.land d.val t.val c
         .next ((s1.setTile d.val t.val
           ((s1.tile d.val t.val).addPend 0 (c + 1) (.flagInc ctx flag.val count.toNat))).sigAnswer x 0)
       else .next s) := by
  simp only [execFlagIncrement, hx]

/-- Settles O33: each packet that has been taken, by its type and by what its access gives. -/
theorem packetsReachTheirDie : Obligations.PacketsReachTheirDie := by
  unfold Obligations.PacketsReachTheirDie
  refine ⟨fun k s s1 => ⟨fun h => ⟨execWrite_waits h, fun hwait hw => ?_, fun code off hwait hw => ?_⟩,
      fun h => ⟨fun hg => ?_, fun code off hg => ?_⟩, fun h => ⟨execSignalPacket_bad h, execSignalPacket_good h⟩,
      fun h => ?_, fun h hrot hhrv => ?_, fun h => ⟨fun hcoll => ?_, fun hcoll hrot hhrv => ?_⟩⟩,
    fun d t ctx flag c count x s hx => ⟨fun habs => ?_, fun habs hr => ?_⟩⟩
  · exact (execWrite_taken h hwait).trans (by dsimp only; rw [hw])
  · exact (execWrite_taken h hwait).trans (by dsimp only; rw [hw])
  · show execRead k s = _
    simp only [execRead, h, hg]
  · show execRead k s = _
    simp only [execRead, h, hg]
  · show execReadRsp k s = _
    simp only [execReadRsp, h]
  · show execWriteAck k s = _
    simp only [execWriteAck, h, if_neg hrot, if_neg hhrv]
  · exact (execErrorRsp_taken h).trans (if_pos hcoll)
  · exact (execErrorRsp_taken h).trans ((if_neg hcoll).trans ((if_neg hrot).trans (if_neg hhrv)))
  · exact (execFlagIncrement_found hx).trans (if_pos habs)
  · exact (execFlagIncrement_found hx).trans ((if_neg (ne_true_of_eq_false habs)).trans (if_pos hr))

/-! ## Collectives and votes -/

theorem execCollData_live {e : Delivered} {c : Cmd} {r : CollRun} {j : Nat}
    (h : s.takeDelivered k 0x10 = some (e, s1)) (hc : s1.collOf k = some (c, r, j)) :
    execCollData k s =
      (let i := k.id.toNat % 256
       if r.algo = 4 then .next (s1.ownerData i c r j e)
       else if c.cDirect then .next (s1.directData i c r j k)
       else .next (s1.ringData i c r k)) := by
  simp only [execCollData, h, hc]

theorem execCollCtrl_live {c : Cmd} {r : CollRun} {j : Nat} (h : s.takePacket k 0x11 = some s1)
    (hc : s1.collOf k = some (c, r, j)) :
    execCollCtrl k s =
      if bits k.arg 7 0 = ctrlExcluded then .next (s1.excludedBy (k.id.toNat % 256) c j)
      else if bits k.arg 7 0 = ctrlIncluded ∧ r.outs.getD j 1 = 0 then
        .next (s1.setRun (k.id.toNat % 256) { r with outs := updAt r.outs j (fun _ => 1) })
      else .next s1 := by
  simp only [execCollCtrl, h, hc]

theorem execCollDeadline_run {slot : Fin 256} {r : CollRun} {c : Cmd} (hr : s.collRun slot = some r)
    (hc : s.cmd? r.cid = some c) :
    execCollDeadline slot s =
      if r.algo = 4 ∧ !r.finished ∧ !r.ended ∧ c.overdue (s.nowAt (blkLd 0)) then
        let s2 := (s.missed slot c r).foldl (fun s i => s.exclude slot c i) s
        .next (if (s2.collRun slot).any CollRun.allIn then s2.ownerFinish slot c else s2)
      else .next s := by
  simp only [execCollDeadline, hr, hc]

theorem execCollComplete_run {slot : Fin 256} {r : CollRun} {c : Cmd} (hr : s.collRun slot = some r)
    (hc : s.cmd? r.cid = some c) :
    execCollComplete slot s = if r.complete then .next (s.endColl slot r c) else .next s := by
  simp only [execCollComplete, hr, hc]

theorem execVote_running {v : VoteRun} (h : s.takePacket k 0x21 = some s1) (hv : s1.net.vote = some v) :
    execVote k s =
      (let word := BitVec.ofNat 8 (bits k.arg 7 0)
       if v.due.contains k.src then
         .next (s1.voteOn { v with word := v.word ||| word, due := v.due.filter (· != k.src) })
       else if v.parent = some k.src ∧ v.due.isEmpty ∧ v.result.isNone then
         let s2 : State := { s1 with net := { s1.net with vote := some { v with result := some word } } }
         .next (s2.pushVote v.children word)
       else .next s1) := by
  simp only [execVote, h, hv]

/-- Settles O34: each event by its collective or its vote round. -/
theorem collectivesRunToTheirEnd : Obligations.CollectivesRunToTheirEnd := by
  unfold Obligations.CollectivesRunToTheirEnd
  refine ⟨fun s s1 k slot => ⟨fun cid c hrun => ⟨fun hnone hfirst => ?_, fun hsome => ?_⟩, fun l w => rfl,
      fun e he => ⟨fun hnone => ?_, fun c r j hc => ⟨fun halgo => ?_, fun halgo hdir => ?_, fun halgo hdir => ?_⟩⟩,
      fun c r j h hc => ⟨fun harg => ?_, fun harg hout => ?_⟩,
      fun r c hr hc => ⟨fun halgo _ hfin hend hover => ?_, fun hover => ?_, fun hcomp => ?_, fun hcomp => ?_⟩⟩,
    fun k s s1 v h hv => ⟨fun hdue => ?_, fun hdue hpar hres => ?_, fun hdue hpar => ?_⟩⟩
  · exact (State.withCmd_canRun hrun _ : execColl cid s = _).trans (by rw [hnone, hfirst]; rfl)
  · exact (State.withCmd_canRun hrun _ : execColl cid s = _).trans (by rw [hsome]; rfl)
  · show execCollData k s = _
    simp only [execCollData, he, hnone]
  · exact (execCollData_live he hc).trans (if_pos halgo)
  · exact (execCollData_live he hc).trans ((if_neg halgo).trans (if_pos hdir))
  · exact (execCollData_live he hc).trans ((if_neg halgo).trans (if_neg (ne_true_of_eq_false hdir)))
  · exact (execCollCtrl_live h hc).trans (if_pos harg)
  · exact (execCollCtrl_live h hc).trans ((if_neg (by rw [harg]; decide)).trans (if_pos ⟨harg, hout⟩))
  · exact (execCollDeadline_run hr hc).trans (if_pos ⟨halgo, by simpa using hfin, by simpa using hend, hover⟩)
  · exact (execCollDeadline_run hr hc).trans (if_neg (fun h => ne_true_of_eq_false hover h.2.2.2))
  · exact (execCollComplete_run hr hc).trans (if_pos hcomp)
  · exact (execCollComplete_run hr hc).trans (if_neg (ne_true_of_eq_false hcomp))
  · exact (execVote_running h hv).trans (if_pos hdue)
  · exact (execVote_running h hv).trans ((if_neg (by rw [hdue]; exact Bool.false_ne_true)).trans
      (if_pos ⟨hpar, by rw [hdue]; rfl, by rw [hres]; rfl⟩))
  · exact (execVote_running h hv).trans ((if_neg (ne_true_of_eq_false hdue)).trans (if_neg (fun h => hpar h.1)))

/-! ## Rotations -/

/-- A ROTATE reads its schedule, and begins, or ends with the error of the read or of the schedule. -/
theorem execRotate_first {cid : Nat} {c : Cmd} (h : s.canRun cid 0x0601 c = true) (hrot : s.net.rot = none)
    (hfirst : s.firstOf [0x0601] c = true) :
    execRotate cid s = .next
      (let n := c.u 8 4
       let s2 : State := { s with net := { s.net with rotGen := nextGen s.net.rotGen } }
       let g := s2.devRead (c.u 0 8) (32 * n)
       let run (l : List RotEntry) : RotRun := ⟨cid, 0, (l.foldl (fun m e => max m (e.round + 1)) 0), l, 0⟩
       let raw := (List.range n).map (fun i => (g.2.data.drop (32 * i)).take 32)
       match g.2.err with
       | some (code, _) => g.1.endRotate (run []) (stErr code)
       | none =>
         if g.1.scheduleOk raw then
           ({ g.1.running c with net := { g.1.net with rot := some (run (raw.map rotEntry)) } }).beginRound 0
         else (g.1.logErr (blkLd 0) { code := 0x67, src := 14, icount := c.tag.toNat, addr := c.u 0 8 }).endRotate
           (run []) (stErr 0x67)) :=
  (State.withCmd_canRun h _ : execRotate cid s = _).trans (by rw [hrot, hfirst]; rfl)

theorem execRotData_running {r : RotRun} (h : s.takePacket k 0x12 = some s1) (hr : s1.net.rot = some r)
    (hgen : k.gen.toNat = s1.net.rotGen) :
    execRotData k s = if r.round < rotRoundOf k then .next s else .next (s1.rotWrite r k) := by
  simp only [execRotData, h, hr, if_neg (not_not.2 hgen)]

theorem execRotationRoundComplete_running {r : RotRun} (hr : s.net.rot = some r) :
    execRotationRoundComplete s =
      if (r.entries.filter (fun e => e.round == r.round)).all (·.done) then
        if r.round + 1 < r.rounds then .next (s.beginRound (r.round + 1))
        else .next (s.endRotate { r with round := r.rounds } r.status)
      else .next s := by
  simp only [execRotationRoundComplete, hr]

/-- Settles O35: the schedule's read and legality, a chunk's round, and the entries left. -/
theorem rotationsGoRoundByRound : Obligations.RotationsGoRoundByRound := by
  unfold Obligations.RotationsGoRoundByRound
  refine fun cid c k s s1 => ⟨fun h hrot hfirst => ⟨fun code off herr => ?_, fun herr hok => ?_, fun herr hok => ?_⟩,
    fun r h hr hgen => ⟨fun hround => ?_, fun hround => ?_⟩,
    fun r hr => ⟨fun hdone hround => ?_, fun hdone hround => ?_, fun hdone => ?_⟩⟩
  · exact (execRotate_first h hrot hfirst).trans (by dsimp only; rw [herr]; rfl)
  · exact (execRotate_first h hrot hfirst).trans (by
      dsimp only; rw [herr]; dsimp only; rw [if_neg (ne_true_of_eq_false hok)]; rfl)
  · exact (execRotate_first h hrot hfirst).trans (by dsimp only; rw [herr]; dsimp only; rw [if_pos hok]; rfl)
  · exact (execRotData_running h hr hgen).trans (if_pos hround)
  · exact (execRotData_running h hr hgen).trans (if_neg (Nat.not_lt.2 hround))
  · exact (execRotationRoundComplete_running hr).trans ((if_pos hdone).trans (if_pos hround))
  · exact (execRotationRoundComplete_running hr).trans ((if_pos hdone).trans (if_neg (Nat.not_lt.2 hround)))
  · exact (execRotationRoundComplete_running hr).trans (if_neg (ne_true_of_eq_false hdone))

end Sys2Proof.Machine
end

section
/-! The Almanac, the rings and the steward's commands (R309-R323, R335-R354, R406, R442). -/
namespace Sys2Proof.Machine

variable {s : State}

/-! ## Copies of the Almanac -/

/-- A table made of the values of some keys, those of the default left out, gives them back. -/
theorem Table.get_filter_map {α : Type} [DecidableEq α] (d : α) (g : Nat → α) (l : List Nat) (k : Nat) :
    Table.get d ((l.map (fun i => (i, g i))).filter (fun e => decide (e.2 ≠ d))) k = if k ∈ l then g k else d := by
  induction l with
  | nil => rfl
  | cons i l ih =>
    by_cases hi : g i = d
    · rw [List.map_cons, List.filter_cons_of_neg (by simpa using hi), ih]
      by_cases hk : k = i
      · subst hk
        simp [hi]
      · simp [hk]
    · rw [List.map_cons, List.filter_cons_of_pos (by simpa using hi)]
      by_cases hk : i = k
      · simp [Table.get, Table.find, hk]
      · have hk' : k ≠ i := fun h => hk h.symm
        simpa [Table.get, Table.find, hk, hk'] using ih

theorem State.setCopies_almOf (s : State) (f : Nat → AlmCopy → AlmCopy) {b : Nat} (h : b < 64) :
    (s.setCopies f).almOf b = f b (s.almOf b) :=
  (Table.get_filter_map AlmCopy.reset (fun b => f b (s.almOf b)) (List.range 64) b).trans
    (if_pos (List.mem_range.2 h))

/-- Settles O36: a beat by the copies' table; the configurations, windows and Seasons by their times. -/
theorem beatsAndAlmanacCommands : Obligations.BeatsAndAlmanacCommands := by
  unfold Obligations.BeatsAndAlmanacCommands
  refine ⟨fun s => ⟨rfl, fun b => ?_, fun h => if_pos h, fun h => if_neg h, fun j w hw => ⟨fun hstop => ?_,
      fun hstart hstop => ?_, fun hstart hstop => ?_⟩⟩,
    fun cid c s => ⟨fun h => State.withCmd_canRun h _, fun h => State.withCmd_canRun h _,
      fun p hp hc => ⟨fun hq => ?_, fun hq => ?_⟩⟩⟩
  · rw [State.setCopies_almOf _ _ b.isLt]
    exact ⟨rfl, rfl⟩
  · show execGleanWindowEdge j s = _
    simp only [execGleanWindowEdge, hw, if_pos hstop]
  · show execGleanWindowEdge j s = _
    simp only [execGleanWindowEdge, hw, if_neg (Nat.not_le.2 hstop), if_pos hstart]
  · show execGleanWindowEdge j s = _
    simp only [execGleanWindowEdge, hw, if_neg (Nat.not_le.2 hstop), if_neg (Nat.not_le.2 hstart)]
  · show execSeasonStartBoundary s = _
    simp only [execSeasonStartBoundary, hp, hc, if_pos hq]
  · show execSeasonStartBoundary s = _
    simp only [execSeasonStartBoundary, hp, hc, if_neg (ne_true_of_eq_false hq)]

/-! ## References -/

/-- The rate of a master that slews towards an edge's phase. -/
theorem adjOf_acquire (phase : BitVec 12) :
    adjOf almAcquire (if phase.toNat < 2048 then phase.toNat else (phase.toNat : Int) - 4096) 0
      = if phase.toNat = 0 then 0 else if phase.toNat < 2048 then -100000 else 100000 := by
  have h := phase.isLt
  rw [adjOf, if_pos rfl]
  split_ifs <;> omega

theorem execAlmPpsEdge_master {e : PpsEdge} (h : s.alm.role = roleMaster) :
    execAlmPpsEdge e s =
      (let a := s.alm
       let ok := a.ppsOk ||
         (decide (9999999 ≤ e.refCycles) && decide (e.refCycles ≤ 10000001) && decide (1 ≤ a.ppsRun))
       let a1 : Almanac := { a with ppsOk := ok, ppsRun := a.ppsRun + 1 }
       if a.refOk && ok && a.state == almAcquire then
         .next (s.setAlm { a1 with
           state := if e.phase.toNat = 0 then almLocked else almAcquire
           adj := BitVec.ofInt 32
             (if e.phase.toNat = 0 then 0 else if e.phase.toNat < 2048 then -100000 else 100000) })
       else .next (s.setAlm a1)) := by
  rw [← adjOf_acquire]
  exact if_neg (not_not.2 h)

/-- A test that fails, or a verdict other than the one named, is the failure of both together. -/
theorem not_or_ne_iff {α : Type} [DecidableEq α] (f : Bool) (x y : α) :
    ((!f) = true ∨ x ≠ y) ↔ ¬ (f && x == y) = true := by cases f <;> simp

theorem eq_and_ne_and_eq_iff {n m : Nat} (r r' : BitVec n) (x x' : BitVec m) (i j : Nat) :
    (r = r' ∧ x ≠ x' ∧ i = j) ↔ (r == r' && x != x' && i == j) = true := by simp [and_assoc]

theorem execBeat_arrived {p : Fin 12} {k : Packet} {phase : BitVec 12} {depart : BitVec 48} {e : Arrival}
    (he : s.net.arrived.find? (fun e => e.port == p.val && e.pkt == k && k.ptype == 0x20 && k.dest == s.net.coord)
      = some e) :
    execBeat p k phase depart s =
      (let s1 := s.freeBuffers p.val e.vc k
       let s2 : State := { s1 with net := { s1.net with arrived := s1.net.arrived.erase e } }
       let count (s : State) : State := s.setAlm { s.alm with staleBeats := satInc 0xFFFF s.alm.staleBeats }
       let good := s2.fresh (portLd p.val) k && s2.genTest k == .deliver
       let mine := s2.alm.role == roleFollower && s2.alm.state != almFree && s2.alm.parent.toNat == p.val
       if good then
         if mine then
           .next ((s2.discipline p.val k e.beat phase.toNat).sendBeats (k.tag.toNat + 1) k.arg.toNat depart.toNat)
         else .next (count s2)
       else .next (count (s2.countStale (portLd p.val)))) := by
  simp only [execBeat, he, not_or_ne_iff, ite_not, eq_and_ne_and_eq_iff]

/-- Settles O37: each event by the role and the state of the Almanac. -/
theorem almanacsFollowTheirReference : Obligations.AlmanacsFollowTheirReference := by
  unfold Obligations.AlmanacsFollowTheirReference
  refine fun s => ⟨fun depart => ⟨fun hrole hcoord h0 hsent => if_pos ⟨hrole, hcoord, h0, hsent⟩, fun h => if_neg ?_⟩,
    fun p k phase depart e he => ⟨fun hgood hmine => ?_, fun hgood hmine => ?_, fun hgood => ?_⟩,
    fun hrole hstate => ⟨fun hmiss => if_pos ⟨hrole, hstate, hmiss⟩,
      fun hmiss => if_neg (fun h => Nat.not_le.2 hmiss h.2.2)⟩,
    fun hrole => ⟨fun href => ?_, fun href hseen hlog => ?_, fun href => if_pos ⟨hrole, by simpa using href⟩,
      fun e => ⟨fun hsteer hphase => ?_, fun hsteer hphase => ?_, fun hsteer => ?_⟩, fun hpps => if_pos ⟨hrole, hpps⟩⟩⟩
  · rintro ⟨-, -, h0, hsent⟩
    exact h.elim h0 hsent
  · exact (execBeat_arrived he).trans ((if_pos hgood).trans (if_pos hmine))
  · exact (execBeat_arrived he).trans ((if_pos hgood).trans (if_neg (ne_true_of_eq_false hmine)))
  · exact (execBeat_arrived he).trans (if_neg (ne_true_of_eq_false hgood))
  · exact (if_neg (not_not.2 hrole) : execAlmRefLost s = _).trans (if_pos href)
  · exact (if_neg (not_not.2 hrole) : execAlmRefLost s = _).trans ((if_neg (ne_true_of_eq_false href)).trans
      (if_pos ⟨by simpa using hseen, by simpa using hlog⟩))
  · refine (execAlmPpsEdge_master hrole).trans ((if_pos hsteer).trans ?_)
    have h0 : e.phase.toNat = 0 := by rw [hphase]; rfl
    rw [if_pos h0, if_pos h0]
    rfl
  · refine (execAlmPpsEdge_master hrole).trans ((if_pos hsteer).trans ?_)
    have h0 : e.phase.toNat ≠ 0 := fun h => hphase (BitVec.eq_of_toNat_eq h)
    rw [if_neg h0, if_neg h0]
  · exact (execAlmPpsEdge_master hrole).trans (if_neg (ne_true_of_eq_false hsteer))

/-! ## Rings -/

theorem State.doorbell_disabled {n : Nat} (v : BitVec 64) (h : (s.ring n).en = false) : s.doorbell n v = s :=
  if_neg (ne_true_of_eq_false h)

theorem State.doorbell_enabled {n : Nat} (v : BitVec 64) (h : (s.ring n).en = true) :
    s.doorbell n v = s.setRing n { s.ring n with prod := bits v 17 0 % (s.ring n).units } := if_pos h

/-- What the entry of the ring whose turn it is meets. -/
theorem execCommandAccept_turn {ring : Fin 8} (h : s.ringTurn = some ring.val) (raw : List Byte) :
    execCommandAccept ring (some raw) s =
      (let r := s.ring ring
       let tag := leField (fitBytes 8 raw) 4 2
       if s.cmdBreak ring r tag then
         let s1 := s.setRing ring { r with brk := true }
         let s2 : State := { s1 with sd := { s1.sd with cbrkCtrl := s1.sd.cbrkCtrl ||| 0x10 } }
         .next (s2.logErr blkSteward { code := 0xC1, src := 18, unit := ring, icount := tag })
       else if r.avail < (s.readEntry raw).units then .next s
       else .next (s.acceptEntry ring r (s.readEntry raw))) := if_neg (not_not.2 h)

/-- Settles O38: the doorbell by its ring's enable, an entry by what its fetch meets. -/
theorem ringsTakeCommands : Obligations.RingsTakeCommands := by
  unfold Obligations.RingsTakeCommands
  intro ring value s r
  refine ⟨fun hup => ⟨fun hen => ?_, fun hen => ?_, ?_⟩, fun fetched hturn => if_pos hturn,
    fun hturn => ⟨if_neg (not_not.2 hturn), fun raw => ⟨fun hbrk => ?_, fun hbrk => ⟨fun hlen => ?_, fun hlen => ?_⟩⟩⟩⟩
  · exact congrArg Host.Outcome.next ((if_pos hup).trans (State.doorbell_enabled value hen))
  · exact congrArg Host.Outcome.next ((if_pos hup).trans (State.doorbell_disabled value hen))
  · exact congrArg Host.Outcome.next (if_pos hup)
  · exact (execCommandAccept_turn hturn raw).trans (if_pos hbrk)
  · exact (execCommandAccept_turn hturn raw).trans
      ((if_neg (ne_true_of_eq_false hbrk)).trans (if_neg (Nat.not_lt.2 hlen)))
  · exact (execCommandAccept_turn hturn raw).trans ((if_neg (ne_true_of_eq_false hbrk)).trans (if_pos hlen))

/-! ## The steward's commands -/

section
variable {cid : Nat} {c : Cmd}

/-- An address that is no register's is logged and answered so. -/
theorem execRegRead_unmapped (h : s.canRun cid 0x0107 c = true) (hl : ∀ b off, s.locate (c.u 0 8) ≠ .reg b off) :
    execRegRead cid s = .next ((s.logErr blkSteward
      { code := 0x20, src := 0, icount := c.tag.toNat, addr := c.u 0 8 }).reply c (stErr 0x20) 0) := by
  refine (State.withCmd_canRun h _ : execRegRead cid s = _).trans (congrArg Host.Outcome.next ?_)
  dsimp only
  split
  · next b off hb => exact absurd hb (hl b off)
  · rfl

theorem execRegRead_reg {b off : Nat} (h : s.canRun cid 0x0107 c = true) (hl : s.locate (c.u 0 8) = .reg b off) :
    execRegRead cid s = .next (if s.regDown b then s.reply c stDown 0 else s.reply c stOk (s.readReg b off)) :=
  (State.withCmd_canRun h _ : execRegRead cid s = _).trans (by dsimp only; rw [hl])

/-- A copy that brings the host's bytes it needs: its move, and the signal where all went. -/
theorem execDmaCopy_whole {l : List Byte} (h : s.canRun cid 0x0401 c = true)
    (hlen : c.u 0 1 = 0 → l.length = c.u 0x20 8) :
    execDmaCopy cid l s = .next (
      match s.dmaMove c l with
      | (t, n, none) =>
        (if c.u 1 1 % 2 = 1 then t.cmdSignal blkSteward c (BitVec.ofNat 64 (c.u 0x28 8)) (c.u 0x30 2) else t).reply
          c stOk (BitVec.ofNat 64 n)
      | (t, n, some code) => t.reply c (stErr code) (BitVec.ofNat 64 n)) := by
  refine (State.withCmd_canRun h _ : execDmaCopy cid l s = _).trans (congrArg Host.Outcome.next ?_)
  exact if_neg (fun hne => hne.2 (hlen hne.1))

theorem execMaintExit_starts (hc : s.runningCmd cid = none) (h : s.canRun cid 0x0C02 c = true) :
    execMaintExit cid s = .next (
      if s.sd.cmds.any (fun x => x.cid != c.cid && x.stage == .running && x.op / 256 == 0x0C) then s.reply c stBusy 0
      else if s.checkAgain.audited then s.checkAgain.leaveMaint c else s.checkAgain.running c) := by
  simp only [execMaintExit, hc]
  exact State.withCmd_canRun h _

theorem execMaintExit_running (hc : s.runningCmd cid = some c) :
    execMaintExit cid s = .next (if c.op = 0x0C02 ∧ s.audited then s.leaveMaint c else s) := by
  simp only [execMaintExit, hc]

end

/-- Settles O39: each command when it may run, by the cases of its work. -/
theorem stewardCommandsRun : Obligations.StewardCommandsRun := by
  unfold Obligations.StewardCommandsRun
  refine fun cid c s => ⟨fun h => State.withCmd_canRun h _, fun h => State.withCmd_canRun h _,
    fun h => ⟨fun b off hl hdown => ?_, fun b off hl hdown => ?_, fun hl => execRegRead_unmapped h hl⟩,
    fun h => State.withCmd_canRun h _, fun h => State.withCmd_canRun h _, fun h => State.withCmd_canRun h _,
    fun h => ⟨fun hu => ?_, fun hu => ?_⟩,
    fun l t n h hlen => ⟨fun hmove => ⟨fun hsig => ?_, fun hsig => ?_⟩, fun code hmove => ?_⟩,
    fun h => ⟨fun hq hmode => ?_, fun hq hmode => ?_, fun hq => ?_⟩,
    fun h hc => ⟨fun hother => ?_, fun hother haud => ?_, fun hother haud => ?_⟩,
    fun hc hop => ⟨fun haud => ?_, fun haud => ?_⟩, fun h => State.withCmd_canRun h _,
    fun h => State.withCmd_canRun h _⟩
  · exact (execRegRead_reg h hl).trans (by rw [if_neg (ne_true_of_eq_false hdown)])
  · exact (execRegRead_reg h hl).trans (by rw [if_pos hdown])
  · exact (State.withCmd_canRun h _ : execRunAbort cid s = _).trans (by dsimp only; rw [hu]; rfl)
  · exact (State.withCmd_canRun h _ : execRunAbort cid s = _).trans (by rw [if_pos hu])
  · exact (execDmaCopy_whole h hlen).trans (by rw [hmove]; dsimp only; rw [if_neg hsig])
  · exact (execDmaCopy_whole h hlen).trans (by rw [hmove]; dsimp only; rw [if_pos hsig])
  · exact (execDmaCopy_whole h hlen).trans (by rw [hmove])
  · exact (State.withCmd_canRun h _ : execMaintEnter cid s = _).trans (by rw [if_pos hq, if_pos hmode])
  · exact (State.withCmd_canRun h _ : execMaintEnter cid s = _).trans (by rw [if_pos hq, if_neg hmode])
  · exact (State.withCmd_canRun h _ : execMaintEnter cid s = _).trans (by rw [if_neg (ne_true_of_eq_false hq)])
  · exact (execMaintExit_starts hc h).trans (by rw [if_pos hother])
  · exact (execMaintExit_starts hc h).trans (by rw [if_neg (ne_true_of_eq_false hother), if_pos haud]; rfl)
  · exact (execMaintExit_starts hc h).trans (by
      rw [if_neg (ne_true_of_eq_false hother), if_neg (ne_true_of_eq_false haud)])
  · exact (execMaintExit_running hc).trans (by rw [if_pos ⟨hop, haud⟩]; rfl)
  · exact (execMaintExit_running hc).trans (by rw [if_neg (fun h => ne_true_of_eq_false haud h.2)])

end Sys2Proof.Machine
end

section
/-! Host accesses, UCIe frames, the Sowing Log and the Harvest (R328-R333, R353-R355, R362-R373, R382, R443). -/
namespace Sys2Proof.Machine

variable {s : State} {cid : Nat} {c : Cmd}

/-! ## BAR accesses and UCIe frames -/

/-- What an access through BAR2 or BAR4 does once they are open, and what one through BAR0 does. -/
theorem execHostBarAccess_up {bar : Fin 3} {write : Bool} {off : BitVec 34} {len : Nat} {data : List Byte}
    (hup : s.hostUp = true) (hlen : write = true → data.length = len) :
    execHostBarAccess bar write off len data s =
      (let o := off.toNat
       let last := o + (len - 1)
       let a2 := 0x7F0000000000 + o % 2 ^ 30
       let a4 := s.sd.aper.toNat * 2 ^ 32 + o
       if bar = 0 then .next (s.bar0 write (o % 0x2000000) len data)
       else if !(s.sd.bars && s.sd.boot == 2) then .next (s.barAnswer (if write then .done else .unsupported))
       else if bar = 1 then
         if s.mapForbids ([o % 2 ^ 30 / 2 ^ 24, last % 2 ^ 30 / 2 ^ 24].flatMap (blockBits write)) then
           .next (s.deny write a2)
         else .next (s.barAccess write a2 len data)
       else
         if s.mapForbids ([s.locate a4, s.locate (a4 + (len - 1))].flatMap (targetBits write)) then
           .next (s.deny write a4)
         else .next (s.barAccess write a4 len data)) := by
  have hwhole : ¬ ((write && data.length != len) = true) := by
    cases write
    · exact Bool.false_ne_true
    · rw [hlen rfl, bne_self_eq_false]; exact Bool.false_ne_true
  exact (if_neg hwhole).trans (if_neg (by rw [hup]; exact Bool.false_ne_true))

theorem execUcieFrame_up {m : Fin 9} (hm : s.module m.val = 2) (good : Bool) (lost : List (Nat × Nat)) :
    execUcieFrame m ⟨good, lost⟩ s =
      (let n := Table.get 0 s.sd.modRetry m.val
       let put (k : Nat) : State := { s with sd := { s.sd with modRetry := Table.set 0 s.sd.modRetry m.val k } }
       let hub := 4 * (m.val / 2)
       let s1 : State := { put 0 with sd := { (put 0).sd with
         modules := Table.set 0 s.sd.modules m.val 0, cmds := s.sd.cmds.map (fun c => c.lose lost) } }
       if good then .next (put 0)
       else if n < 8 then
         if m.val = 8 then .next (put (n + 1))
         else .next ((put (n + 1)).setMd hub
           { (put (n + 1)).md hub with retries := satInc 0xFFFFFFFF (s.md hub).retries })
       else .next (s1.logErr blkSteward { code := 0x51, src := 16, unit := m.val })) := if_neg (not_not.2 hm)

/-- Settles O40: an access by its BAR, the BARs' state and the host map; a frame by its module and its count. -/
theorem hostAccessesReachTheirWindow : Obligations.HostAccessesReachTheirWindow := by
  unfold Obligations.HostAccessesReachTheirWindow
  refine ⟨fun value off len data write s => ⟨rfl, fun hup => ⟨congrArg Host.Outcome.next (if_pos hup),
      congrArg Host.Outcome.next (if_pos hup), fun hlen => ⟨?_, fun hopen => ⟨fun hmap => ?_, fun hmap => ?_⟩,
      fun hclosed bar hbar => ?_⟩⟩⟩,
    fun m lost s hm => ⟨?_, fun hn => ⟨fun h8 => ?_, fun h8 => ?_⟩, fun hn => ?_⟩⟩
  · exact (execHostBarAccess_up hup hlen).trans (if_pos rfl)
  · refine (execHostBarAccess_up hup hlen).trans ((if_neg (by decide)).trans ((if_neg ?_).trans ((if_pos rfl).trans
      (if_neg (ne_true_of_eq_false hmap)))))
    rw [hopen]; exact Bool.false_ne_true
  · refine (execHostBarAccess_up hup hlen).trans ((if_neg (by decide)).trans ((if_neg ?_).trans
      ((if_neg (by decide)).trans (if_neg (ne_true_of_eq_false hmap)))))
    rw [hopen]; exact Bool.false_ne_true
  · refine (execHostBarAccess_up hup hlen).trans ((if_neg hbar).trans (if_pos ?_))
    rw [hclosed]; rfl
  · exact (execUcieFrame_up hm true lost).trans (if_pos rfl)
  · exact (execUcieFrame_up hm false lost).trans
      ((if_neg Bool.false_ne_true).trans ((if_pos hn).trans (if_pos h8)))
  · exact (execUcieFrame_up hm false lost).trans
      ((if_neg Bool.false_ne_true).trans ((if_pos hn).trans (if_neg h8)))
  · exact (execUcieFrame_up hm false lost).trans
      ((if_neg Bool.false_ne_true).trans (if_neg (Nat.not_lt.2 hn)))

/-! ## The Sowing Log -/

/-- The state in which SOW_OPEN answers: the record written, the step open and every converter seeded. -/
def State.sowOpened (s : State) (c : Cmd) : State :=
  let w := (s.writeRecord (c.u 0 8) (openRecordOf s c)).1
  ({ w with sow := { w.sow with
    step := BitVec.ofNat 64 (c.u 0 8), isOpen := true, replay := c.u 0x11 1 % 2 == 1, any := true } } : State).seedAll
      (BitVec.ofNat 64 (c.u 8 8))

theorem execSowOpen_runs (h : s.canRun cid 0x0902 c = true) (hopen : (s.mainIdle && s.sow.en) = true) :
    execSowOpen cid s = .next ((s.sowOpened c).reply c
      (match (s.writeRecord (c.u 0 8) (openRecordOf s c)).2 with
       | some (code, _) => stErr code
       | none => stOk) 0) := by
  refine (State.withCmd_canRun h _ : execSowOpen cid s = _).trans (congrArg Host.Outcome.next (if_neg ?_))
  rw [← Bool.not_and, hopen]
  exact Bool.false_ne_true

theorem execSowOpen_busy (h : s.canRun cid 0x0902 c = true) (hopen : (s.mainIdle && s.sow.en) = false) :
    execSowOpen cid s = .next (s.reply c stBusy 0) := by
  refine (State.withCmd_canRun h _ : execSowOpen cid s = _).trans (congrArg Host.Outcome.next (if_pos ?_))
  rw [← Bool.not_and, hopen]
  rfl

/-! ## The Harvest -/

theorem execHarvestCapture_due (hdue : s.hrv.pointDue = true) (h1 : s.hrv.state ≠ 1) (h2 : s.hrv.state ≠ 2)
    (hq : s.captureQuiet = true) :
    execHarvestCapture s =
      match s.takePoint.readRegions with
      | (s1, .inr a) => .next (s1.harvestFail 0x83 a)
      | (s1, .inl l) =>
        if !s1.harvestFits l then .next (s1.harvestFail 0x82 0)
        else
          let w := s1.devWrite s1.hrv.stage.toNat s1.image
          match w.2 with
          | some (_, off) => .next (w.1.harvestFail 0x83 (w.1.hrv.stage.toNat + off))
          | none => .next { w.1 with hrv := { w.1.hrv with state := 1, phase := 0 } } := by
  unfold execHarvestCapture
  exact (if_pos ⟨hdue, h1, h2, hq⟩).trans (by
    rcases s.takePoint.readRegions with ⟨s1, l | a⟩
    · dsimp only [State.writeImage]
      rcases s1.devWrite s1.hrv.stage.toNat s1.image with ⟨s2, _ | ⟨_, off⟩⟩ <;> rfl
    · rfl)

theorem execHarvestPhaseEnd_copied (h2 : s.hrv.state = 2) (hleft : s.hrv.left = 0) :
    execHarvestPhaseEnd s = .next (if s.hrv.waits then s.beginPhase 2
      else if s.hrv.phase < 6 then s.beginPhase (s.hrv.phase + 1)
      else if s.hrv.phase = 6 then s.askCheck else s.harvestDone) :=
  (if_neg (by rw [h2]; decide) : execHarvestPhaseEnd s = _).trans (if_pos ⟨h2, hleft⟩)

theorem execHarvestPhaseEnd_waits (h2 : s.hrv.state = 2) (hleft : s.hrv.left ≠ 0) :
    execHarvestPhaseEnd s = .next s :=
  (if_neg (by rw [h2]; decide) : execHarvestPhaseEnd s = _).trans (if_neg (fun h => hleft h.2))

/-- A manifest fits its test: the fields it must have and its Tally. -/
theorem manifestBad_iff (m : List Byte) :
    (leField m 0 2 ≠ 1 ∨ leField m 0x16 1 ≠ 0 ∨ (!manifestTally m) = true) ↔
      (leField m 0 2 == 1 && leField m 0x16 1 == 0 && manifestTally m) = false := by
  cases manifestTally m <;> simp [or_iff_not_imp_left]

theorem execHarvestTallyCheck_read {area : Bool} {k : Packet} {s1 : State} {m : List Byte}
    (hk : s.hrv.checks.find? (fun k => k.addr.toNat == s.stateWord (natOf area)) = some k)
    (hm : s.readManifest (s.holdArea (natOf area)) = (s1, .inl m)) :
    execHarvestTallyCheck area s =
      if (leField m 0 2 == 1 && leField m 0x16 1 == 0 && manifestTally m) = false then
        .next ((s1.tallyBad (entriesIn? m)).verdict k 0x84 (entriesIn? m))
      else
        let base := s.holdArea (natOf area)
        match s1.checkShards base (indexed (shardsOf m)) with
        | (s2, none) => .next ((s2.markArea base 1).verdict k 0)
        | (s2, some (.inl i)) => .next ((s2.tallyBad i).verdict k 0x84 i)
        | (s2, some (.inr code)) =>
          .next ((s2.logErr blkSteward { code := 0x83, src := 9, addr := base }).verdict k code) := by
  simp only [execHarvestTallyCheck, hk, hm, manifestBad_iff] <;> rfl

theorem execHarvestDrain_starts (hc : s.runningCmd cid = none) (h : s.canRun cid 0x0803 c = true) :
    execHarvestDrain cid s = .next (
      match s.drainArea (c.u 0 1) with
      | none => s.reply c stBusy 0
      | some a => ({ s with hrv := { s.hrv with drain := a } } : State).running c) := by
  simp only [execHarvestDrain, hc]
  exact State.withCmd_canRun h _

theorem execHarvestRestore_starts {head entries : List Byte} {shards : List (List Byte)}
    (hc : s.runningCmd cid = none) (h : s.canRun cid 0x0804 c = true) :
    execHarvestRestore cid head entries shards s = .next (
      if !s.quiescent || s.hrv.restore.isSome then s.reply c stBusy 0 else (s.startRestore c).running c) := by
  simp only [execHarvestRestore, hc]
  exact State.withCmd_canRun h _

theorem execHarvestRestore_running {head entries : List Byte} {shards : List (List Byte)} {r : Restore}
    (hc : s.runningCmd cid = some c) (hop : c.op = 0x0804) (hr : s.hrv.restore = some r) :
    execHarvestRestore cid head entries shards s = .next (
      let m := fitBytes 0x100 head ++ entries
      if r.left ≠ 0 then s
      else
        match r.err with
        | some code => (s.endRestore.restoreFails c.verifyOnly).reply c (stErr code) 0
        | none =>
          if c.fromHost then
            if s.manifestFits m (c.u 8 8) then s.endRestore.restoreWith c m shards
              (r.bytes s.sow.mirrorOut.toNat (512 * s.sow.records.toNat))
            else s.noManifest c
          else s.restoreStep c r) := by
  simp only [execHarvestRestore, hc, if_pos hop, State.restoreTurn, hr] <;> rfl

/-- Settles O41: each command and each event by the conditions that it names. -/
theorem sowAndHarvestRun : Obligations.SowAndHarvestRun := by
  unfold Obligations.SowAndHarvestRun
  refine ⟨fun cid c s => ⟨fun h => ⟨fun hh => ?_, fun hh => ?_⟩, fun h => ⟨execSowOpen_busy h, fun hopen =>
        ⟨fun hw => ?_, fun code off hw => ?_⟩⟩, fun hup hcoord => if_pos ⟨hup, hcoord⟩,
      fun h => ⟨fun hh => ?_, fun hh => ?_⟩, fun h => State.withCmd_canRun h _⟩,
    fun s hdue h1 h2 hq => ⟨fun s1 a hread => ?_, fun s1 l hread => ⟨fun hfit => ?_, fun hfit => ⟨fun hw => ?_,
      fun code off hw => ?_⟩⟩⟩,
    fun s => ⟨fun h1 => if_pos h1, fun h2 hleft => ⟨fun hwait => ?_, fun hwait hphase => ?_, fun hwait hphase => ?_,
      fun hwait hphase => ?_⟩, fun h2 hleft => execHarvestPhaseEnd_waits h2 hleft⟩,
    fun area k s s1 s2 m hk hm => ⟨fun hgood => ?_, fun hgood hshards => ?_, fun j hgood hshards => ?_⟩,
    fun cid c head entries shards s => ⟨fun hc => ⟨fun h => ⟨fun ha => ?_, fun a ha => ?_⟩,
        fun h => ⟨fun hbusy => ?_, fun hq hr => ?_⟩⟩,
      fun hc => ⟨fun hop => ?_, fun r hop hr => ⟨fun hleft => ?_, fun code hleft herr => ?_, fun hleft herr =>
        ⟨fun hhost => ?_, fun hhost hfit => ?_, fun hhost hfit => ?_⟩⟩⟩⟩⟩
  · exact (State.withCmd_canRun h _ : execSowCfg cid s = _).trans (by rw [if_pos hh])
  · exact (State.withCmd_canRun h _ : execSowCfg cid s = _).trans (by rw [if_neg (ne_true_of_eq_false hh)])
  · exact (execSowOpen_runs h hopen).trans (by rw [hw]; rfl)
  · exact (execSowOpen_runs h hopen).trans (by rw [hw]; rfl)
  · exact (State.withCmd_canRun h _ : execHarvestCfg cid s = _).trans (by rw [if_pos hh])
  · exact (State.withCmd_canRun h _ : execHarvestCfg cid s = _).trans (by rw [if_neg (ne_true_of_eq_false hh)])
  · exact (execHarvestCapture_due hdue h1 h2 hq).trans (by rw [hread])
  · exact (execHarvestCapture_due hdue h1 h2 hq).trans (by rw [hread]; dsimp only; rw [hfit]; rfl)
  · exact (execHarvestCapture_due hdue h1 h2 hq).trans (by rw [hread]; dsimp only; rw [hfit, hw]; rfl)
  · exact (execHarvestCapture_due hdue h1 h2 hq).trans (by rw [hread]; dsimp only; rw [hfit, hw]; rfl)
  · exact (execHarvestPhaseEnd_copied h2 hleft).trans (by rw [if_pos hwait])
  · exact (execHarvestPhaseEnd_copied h2 hleft).trans (by rw [if_neg (ne_true_of_eq_false hwait), if_pos hphase])
  · exact (execHarvestPhaseEnd_copied h2 hleft).trans (by
      rw [if_neg (ne_true_of_eq_false hwait), if_neg (by omega), if_pos hphase])
  · exact (execHarvestPhaseEnd_copied h2 hleft).trans (by
      rw [if_neg (ne_true_of_eq_false hwait), if_neg (by omega), if_neg (by omega)])
  · exact (execHarvestTallyCheck_read hk hm).trans (if_pos hgood)
  · exact (execHarvestTallyCheck_read hk hm).trans ((if_neg (by rw [hgood]; decide)).trans (by
      dsimp only; rw [hshards]))
  · exact (execHarvestTallyCheck_read hk hm).trans ((if_neg (by rw [hgood]; decide)).trans (by
      dsimp only; rw [hshards]))
  · exact (execHarvestDrain_starts hc h).trans (by rw [ha])
  · exact (execHarvestDrain_starts hc h).trans (by rw [ha])
  · refine (execHarvestRestore_starts hc h).trans (congrArg Host.Outcome.next (if_pos ?_))
    rcases hbusy with hbusy | hbusy <;> simp [hbusy]
  · exact (execHarvestRestore_starts hc h).trans (by rw [hq, hr]; rfl)
  · show execHarvestDrain cid s = _
    simp only [execHarvestDrain, hc, if_pos hop]
  · exact (execHarvestRestore_running hc hop hr).trans (by dsimp only; rw [if_pos hleft])
  · exact (execHarvestRestore_running hc hop hr).trans (by dsimp only; rw [if_neg (not_not.2 hleft), herr])
  · exact (execHarvestRestore_running hc hop hr).trans (by
      dsimp only; rw [if_neg (not_not.2 hleft), herr]; dsimp only; rw [if_neg (ne_true_of_eq_false hhost)])
  · exact (execHarvestRestore_running hc hop hr).trans (by
      dsimp only; rw [if_neg (not_not.2 hleft), herr]; dsimp only
      rw [if_pos hhost, if_neg (ne_true_of_eq_false hfit)])
  · exact (execHarvestRestore_running hc hop hr).trans (by
      dsimp only; rw [if_neg (not_not.2 hleft), herr]; dsimp only; rw [if_pos hhost, if_pos hfit])

end Sys2Proof.Machine
end

section
/-! Errors, the Gleaning, resets and lost clocks (R385-R407, R414-R427). -/
namespace Sys2Proof.Machine

variable {s : State} {cid : Nat} {c : Cmd}

/-! ## What an entry leaves of the dies and the clocks -/

/-- `t` has the dies of `s` but for their error rings, its clocks but for the resets that wait, and its power but for
what holds the quadrants back. -/
def State.logsDies (s t : State) : Prop :=
  (∃ l, t.clk = { s.clk with due := l }) ∧ (∃ l, t.pwr = { s.pwr with holders := l }) ∧
    ∀ b, ∃ r, t.die b = { s.die b with errs := r }

theorem State.logsDies_of_eq {s t : State} (hc : t.clk = s.clk) (hp : t.pwr = s.pwr) (hd : t.dies = s.dies) :
    s.logsDies t :=
  ⟨⟨s.clk.due, hc⟩, ⟨s.pwr.holders, hp⟩, fun b => ⟨(s.die b).errs, by rw [State.die, hd]; rfl⟩⟩

theorem State.logsDies_refl (s : State) : s.logsDies s := State.logsDies_of_eq rfl rfl rfl

theorem State.logsDies_trans {s t u : State} (h : s.logsDies t) (k : t.logsDies u) : s.logsDies u := by
  obtain ⟨⟨l, hl⟩, ⟨p, hp⟩, hr⟩ := h
  obtain ⟨⟨l', hl'⟩, ⟨p', hp'⟩, hr'⟩ := k
  refine ⟨⟨l', by rw [hl', hl]⟩, ⟨p', by rw [hp', hp]⟩, fun b => ?_⟩
  obtain ⟨r, h⟩ := hr b
  obtain ⟨r', h'⟩ := hr' b
  exact ⟨r', by rw [h', h]⟩

theorem State.logsDies_ite {s t u : State} {p : Prop} [Decidable p] (h : s.logsDies t) (k : s.logsDies u) :
    s.logsDies (if p then t else u) := by split <;> assumption

theorem State.setErrs_logsDies (s : State) (b : Nat) (r : ErrRing) :
    s.logsDies (s.setDie b { s.die b with errs := r }) := by
  refine ⟨⟨s.clk.due, rfl⟩, ⟨s.pwr.holders, rfl⟩, fun b' => ?_⟩
  rw [State.die, State.setDie, Table.get_set]
  split
  · next h => exact ⟨r, by rw [h]⟩
  · exact ⟨(s.die b').errs, rfl⟩

theorem State.wantWarm_logsDies (s : State) (a b : Nat) : s.logsDies (s.wantWarm a b) :=
  ⟨⟨_, rfl⟩, ⟨s.pwr.holders, rfl⟩, fun b => ⟨(s.die b).errs, rfl⟩⟩

theorem State.setHolders_logsDies (s : State) (l : List (Nat × Nat)) :
    s.logsDies { s with pwr := { s.pwr with holders := l } } :=
  ⟨⟨s.clk.due, rfl⟩, ⟨l, rfl⟩, fun b => ⟨(s.die b).errs, rfl⟩⟩

theorem State.postEvent_logsDies (s : State) (a b : BitVec 64) : s.logsDies (s.postEvent a b) :=
  State.logsDies_ite (State.logsDies_of_eq rfl rfl rfl) (State.logsDies_of_eq rfl rfl rfl)

theorem State.logRaw_logsDies (s : State) (b : Nat) (e : ErrSpec) : s.logsDies (s.logRaw b e) := by
  have h (r : ErrRing) : s.logsDies (if e.det = true
      then (s.setDie b { s.die b with errs := r }).detect b e.code (e.sev == 3 || e.hold)
      else s.setDie b { s.die b with errs := r }) :=
    State.logsDies_ite (State.logsDies_trans (s.setErrs_logsDies b r) (State.logsDies_of_eq rfl rfl rfl))
      (s.setErrs_logsDies b r)
  exact State.logsDies_trans
    (State.logsDies_ite (State.logsDies_trans (h _) (State.postEvent_logsDies _ _ _)) (h _))
    (State.logsDies_of_eq rfl rfl rfl)

theorem State.holdQuads_logsDies (s : State) (h : Nat) (qs : List Nat) : s.logsDies (s.holdQuads h qs) := by
  induction qs generalizing s with
  | nil => exact s.logsDies_refl
  | cons q qs ih =>
    have k := s.setHolders_logsDies
    exact State.logsDies_trans (State.logsDies_ite s.logsDies_refl
      (State.logsDies_ite (k _) (State.logsDies_trans (k _) (State.logRaw_logsDies _ _ _)))) (ih _)

theorem State.react_logsDies (s : State) (b code unit : Nat) : s.logsDies (s.react b code unit) :=
  State.logsDies_ite (State.holdQuads_logsDies _ _ _) (State.logsDies_ite (State.holdQuads_logsDies _ _ _)
    (State.logsDies_ite (State.holdQuads_logsDies _ _ _) s.logsDies_refl))

theorem State.fatal_logsDies (s : State) (b code : Nat) : s.logsDies (s.fatal b code) := by
  have w (t : State) (x : Seal) : t.logsDies { t with wseal := x } := State.logsDies_of_eq rfl rfl rfl
  have k (t : State) : t.logsDies (if code = 0x90 then t.wantWarm 4 b else if code = 0x91 then t.wantWarm 5 b
      else if code = 0x92 then t.wantWarm 3 b else t) :=
    State.logsDies_ite (State.wantWarm_logsDies _ _ _) (State.logsDies_ite (State.wantWarm_logsDies _ _ _)
      (State.logsDies_ite (State.wantWarm_logsDies _ _ _) t.logsDies_refl))
  refine State.logsDies_trans (w s { s.wseal with
    fatalOpen := s.wseal.fatalOpen ||| BitVec.ofNat 16 (2 ^ codeClass code) }) (State.logsDies_trans ?_ (k _))
  exact State.logsDies_ite (State.logsDies_trans (State.logRaw_logsDies _ _ _)
    (State.logsDies_trans (w _ _) (State.wantWarm_logsDies _ _ _))) (State.logsDies_refl _)

theorem State.logErr_logsDies (s : State) (b : Nat) (e : ErrSpec) : s.logsDies (s.logErr b e) := by
  have h := s.logRaw_logsDies (s.dieOf b) e
  have k := State.logsDies_ite (p := e.det = true)
    (State.logsDies_trans h (State.react_logsDies _ (s.dieOf b) e.code e.unit)) h
  exact State.logsDies_ite (State.logsDies_trans k (State.fatal_logsDies _ _ _)) k

@[simp] theorem State.logErr_die_guard (s : State) (b : Nat) (e : ErrSpec) (i : Nat) :
    ((s.logErr b e).die i).guard = (s.die i).guard := by
  obtain ⟨r, h⟩ := (s.logErr_logsDies b e).2.2 i
  rw [h]

theorem State.logErr_clk (s : State) (b : Nat) (e : ErrSpec) : ∃ l, (s.logErr b e).clk = { s.clk with due := l } :=
  (s.logErr_logsDies b e).1

@[simp] theorem State.logErr_resetN (s : State) (b : Nat) (e : ErrSpec) :
    (s.logErr b e).pwr.resetN = s.pwr.resetN := by
  obtain ⟨l, h⟩ := (s.logErr_logsDies b e).2.1
  rw [h]

/-! ## Error rings and injected errors -/

theorem sealVerify_waits_iff {a b : Bool} : (a = true ∨ b = false) ↔ (a || !b) = true := by cases a <;> cases b <;> simp

/-- Settles O42: each write, command and event by the conditions that it names. -/
theorem errorsAreLoggedAndFreed : Obligations.ErrorsAreLoggedAndFreed := by
  unfold Obligations.ErrorsAreLoggedAndFreed
  refine fun b value cid c s => ⟨fun hup => ⟨congrArg Host.Outcome.next (if_pos hup), fun h0 => ?_, fun h0 => ?_⟩,
    fun hup => ⟨congrArg Host.Outcome.next (if_neg (ne_true_of_eq_false hup)),
      congrArg Host.Outcome.next (if_neg (ne_true_of_eq_false hup))⟩,
    fun h => ⟨fun hopen hv => ?_, fun hwait => ?_⟩, fun x l h hl hbar => ⟨fun hdiag => ?_, fun hdiag => ?_⟩,
    rfl, rfl, fun harm => if_pos harm, fun harm => if_neg (ne_true_of_eq_false harm)⟩
  · exact congrArg Host.Outcome.next ((if_pos hup).trans (if_pos h0))
  · exact congrArg Host.Outcome.next ((if_pos hup).trans (if_neg (ne_true_of_eq_false h0)))
  · refine (State.withCmd_canRun h _ : execSealVerify cid s = _).trans (congrArg Host.Outcome.next (if_neg ?_))
    rw [hopen, hv]; exact Bool.false_ne_true
  · exact (State.withCmd_canRun h _ : execSealVerify cid s = _).trans
      (congrArg Host.Outcome.next (if_pos (sealVerify_waits_iff.1 hwait)))
  · refine (State.withCmd_oneDie h hl hbar _ : execErrInject cid s = _).trans (congrArg Host.Outcome.next (if_pos ?_))
    rw [hdiag]; rfl
  · refine (State.withCmd_oneDie h hl hbar _ : execErrInject cid s = _).trans (congrArg Host.Outcome.next (if_neg ?_))
    rw [hdiag]; exact Bool.false_ne_true

/-! ## The Gleaning -/

theorem tileKey_inj {d t u : Nat} : tileKey d t = tileKey d u ↔ t = u := by unfold tileKey; omega

/-- Tiles of one die set one after another, each from what it was: a tile of the list is set, another stays. -/
theorem State.foldl_setTile (d : Nat) (f : Nat → Tile → Tile) (l : List Nat) (hl : l.Nodup) (s : State) (t : Nat) :
    (l.foldl (fun s t => s.setTile d t (f t (s.tile d t))) s).tile d t
      = if t ∈ l then f t (s.tile d t) else s.tile d t := by
  induction l generalizing s with
  | nil => rfl
  | cons u l ih =>
    obtain ⟨hu, hl⟩ := List.nodup_cons.1 hl
    rw [List.foldl_cons, ih hl, State.setTile_tile]
    by_cases h : u = t
    · subst h
      simp [hu]
    · have h' : t ≠ u := fun e => h e.symm
      simp [tileKey_inj, h, h']

/-- A tile at the end of a period: untested again, and overdue if it was not tested in it. -/
def Tile.periodEnd (late : List Nat) (t : Nat) (T : Tile) : Tile :=
  { T with untested := true, overdue := late.contains t }

/-- At the end of a period the tiles that were untested are overdue. -/
theorem overdue_of_untested (s : State) (d : Nat) {t : Nat} (ht : t < 144) :
    (((List.range 144).foldl (fun r t => r.setTile d t (Tile.periodEnd
      ((List.range 144).filter (fun t => (s.tile d t).untested)) t (r.tile d t))) s).tile d t).overdue
      = (s.tile d t).untested := by
  rw [State.foldl_setTile d _ _ List.nodup_range, if_pos (List.mem_range.2 ht)]
  cases h : (s.tile d t).untested <;> simp [Tile.periodEnd, h, ht]

theorem execSelftestOverdue_on {d : Fin 32} (htask : s.glean.tasks.getLsbD 2 = true)
    (hret : (s.die d).retired = false) :
    execSelftestOverdue d s =
      (let late := (List.range 144).filter (fun t => (s.tile d t).untested)
       let s1 := (List.range 144).foldl (fun s t => s.setTile d t (Tile.periodEnd late t (s.tile d t))) s
       if late.isEmpty then .next s1
       else .next ((s1.logErr d { code := 0xD0, src := 19, detail := late.length }).mark d 4 1)) :=
  if_neg (by rw [htask, hret]; decide)

theorem execSelftest_on {d : Fin 32} {t : Fin 144} (htask : s.glean.tasks.getLsbD 2 = true)
    (hret : (s.die d).retired = false) (hload : (s.tile d t).loadable = true) (failed : Option (Fin 8)) :
    execSelftest d t failed s = .next (s.testTile d t (failed.map (fun x => x.val))) :=
  if_pos (by rw [htask, hret, hload]; rfl)

/-- A rail goes up a step below eight, and no other rail moves. -/
theorem State.raiseRail_guard (s : State) (b i : Nat) :
    ((s.raiseRail b).die i).guard
      = if i = b ∧ (s.die i).guard < 8 then (s.die i).guard + 1 else (s.die i).guard := by
  unfold State.raiseRail
  dsimp only
  by_cases h8 : 8 ≤ (s.die b).guard
  · rw [if_pos h8, if_neg (by rintro ⟨rfl, h⟩; omega)]
  · have hset : ((s.setDie b { s.die b with guard := (s.die b).guard + 1 }).die i).guard
        = if i = b ∧ (s.die i).guard < 8 then (s.die i).guard + 1 else (s.die i).guard := by
      rw [State.setDie_die]
      by_cases hi : b = i
      · subst hi
        rw [if_pos rfl, if_pos ⟨rfl, Nat.not_le.1 h8⟩]
      · rw [if_neg hi, if_neg (fun h => hi h.1.symm)]
    rw [if_neg h8]
    split
    · rw [State.logErr_die_guard]; exact hset
    · exact hset

theorem State.foldl_raiseRail_guard (l : List Nat) (hl : l.Nodup) (s : State) (i : Nat) :
    ((l.foldl State.raiseRail s).die i).guard
      = if i ∈ l ∧ (s.die i).guard < 8 then (s.die i).guard + 1 else (s.die i).guard := by
  induction l generalizing s with
  | nil => simp
  | cons b l ih =>
    obtain ⟨hb, hl⟩ := List.nodup_cons.1 hl
    rw [List.foldl_cons, ih hl, State.raiseRail_guard]
    by_cases h : i = b
    · subst h
      simp [hb]
    · simp [h]

theorem mem_allBlocks_filter (low : List (Fin 64)) (x : Fin 64) :
    x.val ∈ allBlocks.filter (fun b => low.any (fun x => x.val == b)) ↔ x ∈ low := by
  simp [allBlocks, Fin.val_inj]

theorem execAgingGuardband_on {low : List (Fin 64)} (htask : s.glean.tasks.getLsbD 3 = true) :
    execAgingGuardband low s =
      (let s1 := (allBlocks.filter (fun b => low.any (fun x => x.val == b))).foldl State.raiseRail s
       if 24 ≤ s1.glean.hours ∧ s1.trimUnsaved then
         .next { s1.programBoth false s1.storedImage with glean := { s1.glean with hours := 1 } }
       else .next { s1 with glean := { s1.glean with hours := min 24 (s1.glean.hours + 1) } }) :=
  if_neg (by rw [htask]; decide)

/-- Settles O43: each command, test and record by its task and its time. -/
theorem gleaningRuns : Obligations.GleaningRuns := by
  unfold Obligations.GleaningRuns
  refine ⟨fun cid c s => ⟨fun h => State.withCmd_canRun h _, fun h => ⟨fun hn => ?_, fun hn => ?_⟩,
      fun h => State.withCmd_canRun h _, fun failed h => State.withCmd_canRun h _⟩,
    fun d s htask hret => ⟨fun t hload => ⟨execSelftest_on htask hret hload none,
        fun src => execSelftest_on htask hret hload (some src)⟩,
      fun hlate => ?_, fun hlate => ?_, fun t => overdue_of_untested s d t.isLt⟩,
    fun low s htask => ⟨fun h => ?_, fun h24 htrim => ?_, fun x => ?_⟩,
    fun r s hen => ⟨fun hdue => ?_, fun hdue => ?_⟩⟩
  · exact (State.withCmd_canRun h _ : execGleanWindow cid s = _).trans (by
      dsimp only; rw [if_neg (Nat.not_le.2 hn)])
  · exact (State.withCmd_canRun h _ : execGleanWindow cid s = _).trans (by dsimp only; rw [if_pos hn])
  · exact (execSelftestOverdue_on htask hret).trans (if_pos (by rw [hlate]; rfl))
  · exact (execSelftestOverdue_on htask hret).trans (if_neg (by simpa using hlate))
  · refine (execAgingGuardband_on htask).trans (if_neg ?_)
    rintro ⟨h24, htrim⟩
    rcases h with h | h
    · exact Nat.not_lt.2 h24 h
    · exact ne_true_of_eq_false h htrim
  · exact (execAgingGuardband_on htask).trans (if_pos ⟨h24, htrim⟩)
  · rw [State.foldl_raiseRail_guard _ ((show allBlocks.Nodup from List.nodup_range).filter _)]
    simp only [mem_allBlocks_filter]
  · exact (if_neg (by rw [hen, decide_eq_false (Nat.not_lt.2 hdue)]; decide) : execTelemetryRecord r s = _)
  · exact (if_pos (by rw [hen, decide_eq_true hdue]; rfl) : execTelemetryRecord r s = _)

/-! ## Resets -/

theorem execResetN_long {ns : Nat} (hstandby : s.pwr.standby = true) (h : 120 ≤ ns) :
    execResetN ns s = .next { s.cold false with pwr := { (s.cold false).pwr with resetN := true } } :=
  if_pos ⟨hstandby, .inl h⟩

theorem execResetN_short {ns : Nat} (h : ns < 80) : execResetN ns s = .next s :=
  if_neg (by rintro ⟨-, h' | h'⟩ <;> omega)

theorem execOscWaitEnd_waits (h : s.endLoad.clk.step = .crystalWait) (running : Bool) :
    execOscWaitEnd running s =
      (let s0 := s.endLoad
       let m := s0.mark32
       let s1 : State := { m.2 with clk := { m.2.clk with
         onRc := false, wclkOk := true, xtal := m.1, step := .waitVin } }
       if running then (if vinOk s0.pwr.vin.toNat then .next s1.railsUp else .next s1)
       else .next { s0 with clk := { s0.clk with step := .crystalHung } }) := if_neg (not_not.2 h)

theorem execOscRetry_hung (h : s.clk.step = .crystalHung) :
    execOscRetry s =
      (let s1 := s.escape .wclk
       let failed : State := { s1 with clk := { s1.clk with step := .oscFail } }
       let again : State := { s1 with clk := { s1.clk with
         step := .crystalWait, oscRetries := s1.clk.oscRetries + 1, oscWait := min 128 (2 * s1.clk.oscWait) } }
       if 5 ≤ s1.clk.oscRetries then .next (failed.logErr blkWarden { code := 0xA4, src := 17 })
       else .next (again.logErr blkWarden { code := 0xA3, src := 17 })) := if_neg (not_not.2 h)

theorem execWarmReset_due {fuses : List (FuseRead × FuseRead)} {pass : Bool} {source block : Nat}
    {rest : List (Nat × Nat)} (h : s.clk.due = (source, block) :: rest) :
    execWarmReset fuses pass s =
      (let s1 : State := { s with clk := { s.clk with due := [] } }
       let s2 : State := { s1.warmClear with clk := { s1.warmClear.clk with inWarm := true } }
       if s.clk.armed then .next ((s2.warmSequence source block fuses pass).absorb rest)
       else .next (s1.absorb ((source, block) :: rest))) := by
  simp only [execWarmReset, h]

/-- The option store's load changes no step of the start-up. -/
theorem State.loadOptions_clk (s : State) : ∃ l, s.loadOptions.clk = { s.clk with due := l } := by
  unfold State.loadOptions
  dsimp only
  split
  · exact State.logErr_clk _ _ _
  · split
    · exact ⟨s.clk.due, rfl⟩
    · exact State.logErr_clk _ _ _

theorem State.endLoad_loading (hstep : s.clk.step = .loading) (hload : s.opt.load ≠ 0) :
    s.endLoad = if 4 ≤ s.loadOptions.clk.loop then s.loadOptions.warmGoesOn
      else s.loadOptions.restartRuntime s.loadOptions.clk.passes := by
  obtain ⟨l, hclk⟩ := s.loadOptions_clk
  have hstep' : s.loadOptions.clk.step = .loading := by rw [hclk]; exact hstep
  unfold State.endLoad
  rw [if_neg hload]
  dsimp only
  rw [hstep', if_neg (by decide), if_pos rfl]
  split
  · rfl
  · next h => exact if_neg h

theorem State.setBoot_boot (s : State) (n : Nat) : (s.setBoot n).sd.boot = n := by
  unfold State.setBoot
  split
  · assumption
  · rfl

theorem State.setBoot_fuse (s : State) (n : Nat) : (s.setBoot n).fuse = s.fuse := by
  unfold State.setBoot
  split <;> rfl

/-- Images that do not pass the measurement are discarded, and the runtime waits for others. -/
theorem State.restartRuntime_discards (s : State) :
    (s.restartRuntime false).fuse.bundle = [] ∧ (s.restartRuntime false).sd.boot = 0 := by
  unfold State.restartRuntime
  split
  · next h => exact ⟨by rw [State.setBoot_fuse]; exact List.isEmpty_iff.1 h, State.setBoot_boot _ 0⟩
  · rw [if_neg Bool.false_ne_true]
    exact ⟨by rw [State.setBoot_fuse], State.setBoot_boot _ 0⟩

theorem State.programCopy_resetN (s : State) (second : Bool) (img : Memory) :
    (s.programCopy second img).pwr.resetN = s.pwr.resetN := by
  have h (t : State) (p : Prop) [Decidable p] (e : ErrSpec) (ht : t.pwr.resetN = s.pwr.resetN) :
      (if p then t.logErr blkWarden e else t).pwr.resetN = s.pwr.resetN := by
    split
    · rw [State.logErr_resetN, ht]
    · exact ht
  exact h _ _ _ rfl

theorem State.cutStore_resetN (s : State) : s.cutStore.pwr.resetN = s.pwr.resetN := by
  unfold State.cutStore
  split
  · rfl
  · next w rest h =>
    cases w.copies
    · rfl
    · exact State.programCopy_resetN _ _ _

theorem State.cutBlow_pwr (s : State) : s.cutBlow.pwr = s.pwr := by
  unfold State.cutBlow
  split
  · rfl
  · next j h =>
    dsimp only
    split <;> rfl

/-- RESET_N is a pin: a cold reset leaves it as it stands. -/
theorem State.cold_resetN (s : State) (powerOn : Bool) : (s.cold powerOn).pwr.resetN = s.pwr.resetN := by
  show s.cutStore.cutBlow.pwr.resetN = _
  rw [State.cutBlow_pwr, State.cutStore_resetN]

/-- Settles O44: each event by the step of the start-up in which it comes. -/
theorem resetsRunTheirSequence : Obligations.ResetsRunTheirSequence := by
  unfold Obligations.ResetsRunTheirSequence
  refine fun fuses s => ⟨fun hn => ?_, rfl, fun ns hstandby h => execResetN_long hstandby h,
    fun ns h => execResetN_short h, fun hn => if_pos hn,
    fun h => ⟨execOscWaitEnd_waits h false, fun hvin => ?_, fun hvin => ?_⟩,
    fun h => ⟨fun h5 => ?_, fun h5 => ?_⟩, fun trained checks h => if_neg (not_not.2 h),
    fun source block rest pass h => ⟨fun harm => ?_, fun harm => ?_⟩,
    fun hstep hload => ⟨State.endLoad_loading hstep hload, fun hloop hpass => ?_⟩, fun again h => if_pos h⟩
  · exact if_pos (by rw [State.cold_resetN, hn]; rfl)
  · exact (execOscWaitEnd_waits h true).trans ((if_pos rfl).trans (if_pos hvin))
  · exact (execOscWaitEnd_waits h true).trans ((if_pos rfl).trans (if_neg (ne_true_of_eq_false hvin)))
  · exact (execOscRetry_hung h).trans (if_pos h5)
  · exact (execOscRetry_hung h).trans (if_neg (Nat.not_le.2 h5))
  · exact (execWarmReset_due h).trans (if_pos harm)
  · exact (execWarmReset_due h).trans (if_neg (ne_true_of_eq_false harm))
  · obtain ⟨l, hclk⟩ := s.loadOptions_clk
    rw [State.endLoad_loading hstep hload, if_neg (by rw [hclk]; exact Nat.not_le.2 hloop),
      show s.loadOptions.clk.passes = false by rw [hclk]; exact hpass]
    exact State.restartRuntime_discards _

/-! ## Lost clocks -/

theorem Clocks.misses_iff (x : Clocks) (k : Clock) (n : Nat) :
    x.misses k n = true ↔ 2 * n < x.expected k ∨ 3 * x.expected k < 2 * n := by
  simp only [Clocks.misses, Bool.or_eq_true, decide_eq_true_eq]

/-- A monitor of a clock that a PLL makes finds a loss where that PLL runs. -/
theorem execClockMonitorWindow_pll {b : Fin 64} {k : Clock} (h1 : k ≠ .ref156) (h2 : k ≠ .wclk) (n : Nat) :
    execClockMonitorWindow b k n s =
      if s.clk.misses k n ∧ s.pllRuns (s.dieOf b) k then .next (s.clockLost (s.dieOf b) k 0xA0) else .next s :=
  (if_neg h1).trans (if_neg h2)

theorem execClockMonitorWindow_wclk (b : Fin 64) (n : Nat) :
    execClockMonitorWindow b .wclk n s
      = .next (if s.clk.misses .wclk n ∧ s.clk.wclkOk then s.clockLost 61 .wclk 0xA0 else s) := by
  simp only [execClockMonitorWindow, reduceCtorEq, if_false, if_true]
  exact (apply_ite Host.Outcome.next _ _ _).symm

theorem execClockMonitorWindow_ref_lost (b : Fin 64) {n : Nat} (h : s.clk.misses .ref156 n = true) :
    execClockMonitorWindow b .ref156 n s = .next (if s.clk.ref156 then s.clockLost 61 .ref156 0xA0 else s) := by
  simp only [execClockMonitorWindow, if_true, h, Bool.not_true, Bool.false_eq_true, if_false]
  exact (apply_ite Host.Outcome.next _ _ _).symm

theorem execClockMonitorWindow_ref_here (b : Fin 64) {n : Nat} (h : s.clk.misses .ref156 n = false) :
    execClockMonitorWindow b .ref156 n s = .next (if s.clk.ref156 then s else s.refBack) := by
  simp only [execClockMonitorWindow, if_true, h, Bool.not_false]

theorem State.refBack_was {was : BitVec 3} (h : s.clk.almWas = some was) :
    s.refBack =
      (let rest := s.clk.bypass.filter (fun e => e.2 != clockNum .lclk)
       { s with
         clk := { s.clk with ref156 := true, almWas := none, bypass := rest, locked := rest.isEmpty }
         alm := { s.alm with state := if s.alm.state ≠ 3 then s.alm.state else if was = 0 then 0 else 1 } }) := by
  simp only [State.refBack, h]

/-- What a PLL on bypass does when it locks again, or fails to. -/
theorem execPllRelock_bypassed {b : Fin 64} {k : Clock}
    (h : s.clk.bypass.contains (s.dieOf b, clockNum k) = true) (x : Relock) :
    execPllRelock b k x s =
      (let d := s.dieOf b
       let rest := s.clk.bypass.filter (fun e => e != (d, clockNum k))
       let s1 : State := { s with clk := { s.clk with bypass := rest, locked := rest.isEmpty } }
       let free := s1.setDie d { s1.die d with held := s.clk.step == .failed && s.sd.result == 5 }
       let shut := s.setDie d { s.die d with held := true }
       if x.locked then
         if rest.any (fun e => e.1 == d) then .next s1
         else .next (if 32 ≤ d ∧ d < 48 ∧ !free.absent d then free.trainMd (d - 32) x.stack0 x.stack1 else free)
       else .next (if 48 ≤ d ∧ d < 56 then shut.fenceLd (d - 48) else shut)) :=
  if_neg (by rw [h]; decide)

/-- Settles O45: a monitor by its clock and its count, a PLL by its bypass. -/
theorem lostClocksAreCaught : Obligations.LostClocksAreCaught := by
  unfold Obligations.LostClocksAreCaught
  refine fun b k n s => ⟨Clocks.misses_iff _ _ _, fun h1 h2 => ⟨fun hout hrun => ?_, fun hrun => ?_, fun hout => ?_⟩,
    fun hk => ?_, fun hk => ⟨fun hout => ?_, fun hout href => ?_, fun was hout href hwas => ?_⟩,
    fun hrun => if_pos hrun, fun hrun => if_neg (ne_true_of_eq_false hrun),
    fun hby => ⟨fun x hx hrest => ?_, fun x hx hrest => ?_, fun x hx => ?_⟩⟩
  · exact (execClockMonitorWindow_pll h1 h2 n).trans (if_pos ⟨hout, hrun⟩)
  · exact (execClockMonitorWindow_pll h1 h2 n).trans (if_neg (fun h => ne_true_of_eq_false hrun h.2))
  · exact (execClockMonitorWindow_pll h1 h2 n).trans (if_neg (fun h => ne_true_of_eq_false hout h.1))
  · subst hk
    exact execClockMonitorWindow_wclk b n
  · subst hk
    exact execClockMonitorWindow_ref_lost b hout
  · subst hk
    exact (execClockMonitorWindow_ref_here b hout).trans (by rw [if_pos href])
  · subst hk
    exact (execClockMonitorWindow_ref_here b hout).trans (by
      rw [if_neg (ne_true_of_eq_false href), State.refBack_was hwas])
  · exact (execPllRelock_bypassed hby x).trans ((if_pos hx).trans (if_pos hrest))
  · exact (execPllRelock_bypassed hby x).trans ((if_pos hx).trans (if_neg (ne_true_of_eq_false hrest)))
  · exact (execPllRelock_bypassed hby x).trans (if_neg (ne_true_of_eq_false hx))

end Sys2Proof.Machine
end

section
/-! The option store, security, JTAG and I3C, power and cooling, and the forwarding of packets (R271-R284,
R424-R470). -/
namespace Sys2Proof.Machine

variable {s : State} {cid : Nat} {c : Cmd}

/-! ## Options and security -/

theorem State.optCommit_asked {v : BitVec 64} (h : (v.getLsbD 0 && bits v 63 48 == 0x4F50 && s.maint) = true) :
    s.optCommit v =
      if s.ostoreLock then s.logErr blkWarden { code := 0xE2, src := 17 }
      else if s.opt.writes.any (·.host) then s
      else s.programBoth true s.opt.stage := if_neg (by rw [h]; decide)

theorem State.optCommit_ignored {v : BitVec 64} (h : (v.getLsbD 0 && bits v 63 48 == 0x4F50 && s.maint) = false) :
    s.optCommit v = s := if_pos (by rw [h]; rfl)

theorem State.withIdentity_valid (h : s.idValid = true) (f : State → State) : s.withIdentity c f = f s := if_pos h

theorem State.withIdentity_none (h : s.idValid = false) (f : State → State) :
    s.withIdentity c f = s.refuse c 0xE4 0 := if_neg (ne_true_of_eq_false h)

theorem execSecFuseBlow_free {miss : Option FuseMiss} (h : s.canRun cid 0x0E03 c = true) (hjob : s.fuse.job = none) :
    execSecFuseBlow cid miss s = .next (
      if c.u 0 1 = 3 ∧ !s.slotRemains (c.u 2 2) then s.refuse c 0xE6 0
      else s.startBlow c miss (s.fieldBits (c.u 0 1) (c.u 2 2))) :=
  (State.withCmd_canRun h _ : execSecFuseBlow cid miss s = _).trans (by rw [hjob]; rfl)

theorem execSecKeyProvision_free {miss : Option FuseMiss} (h : s.canRun cid 0x0E04 c = true)
    (hjob : s.fuse.job = none) :
    execSecKeyProvision cid miss s = .next (
      let g := s.devRead (c.u 0 8) 288
      match g.2.err with
      | some (code, _) => g.1.reply c (stErr code) 0
      | none =>
        match g.1.provisionFails g.2.data with
        | some k => g.1.refuse c 0xE5 k
        | none => g.1.startBlow c miss (provisionBits g.2.data)) :=
  (State.withCmd_canRun h _ : execSecKeyProvision cid miss s = _).trans (by rw [hjob]; rfl)

/-! ## The blowing of fuses -/

section
variable {j : FuseJob}

theorem State.fuseTurn_waits (hj : s.fuse.job = some j) (hleft : 1 < j.left) :
    s.fuseTurn = { s with fuse := { s.fuse with job := some { j with left := j.left - 1 } } } := by
  simp only [State.fuseTurn, hj, if_pos hleft]

/-- A word whose time has come is blown; a job goes on with the next, or ends. -/
theorem State.fuseTurn_word {w : Nat} {v : BitVec 32} {rest : List (Nat × BitVec 32)} (hj : s.fuse.job = some j)
    (htodo : j.todo = (w, v) :: rest) (hleft : j.left ≤ 1) :
    s.fuseTurn =
      (let b := s.blowWord w v j.miss
       let done := j.done ++ [(w, v)]
       if !b.2 then b.1.endBlow j j.done (some w)
       else if rest.isEmpty then b.1.endBlow j done none
       else
         let t := b.1.take
         { t.2 with fuse := { t.2.fuse with
           job := some { j with todo := rest, done := done, left := Config.blowBeats t.1 + 1 } } }) := by
  simp only [State.fuseTurn, hj, if_neg (Nat.not_lt.2 hleft), htodo]

theorem State.endBlow_running {done : List (Nat × BitVec 32)} {bad : Option Nat}
    (hc : (if s.debugLevel < (({ s with fuse := { s.fuse with job := none } } : State).shadowWords done).debugLevel
      then (({ s with fuse := { s.fuse with job := none } } : State).shadowWords done).levelRaised
      else ({ s with fuse := { s.fuse with job := none } } : State).shadowWords done).runningCmd j.cid = some c) :
    s.endBlow j done bad =
      (let s1 := ({ s with fuse := { s.fuse with job := none } } : State).shadowWords done
       let s2 := if s.debugLevel < s1.debugLevel then s1.levelRaised else s1
       match bad with
       | some w => s2.refuse c 0xE7 w
       | none => s2.reply c stOk 0) := by
  unfold State.endBlow
  dsimp only
  rw [hc]
  cases bad <;> rfl

end

/-! ## JTAG and I3C -/

theorem execJtagInstruction_up {i : JtagInstr} (hup : s.diesUp = true) :
    execJtagInstruction i s =
      if jtagAllowed s.debugLevel i then .next { s with pwr := { s.pwr with jtag := i } }
      else .next (({ s with pwr := { s.pwr with jtag := .bypass } } : State).logErr blkWarden
        { code := 0xE1, src := 17 }) := if_neg (by rw [hup]; decide)

theorem execI3cTransfer_addressed {target : BitVec 7} {data : BitVec 16} (hon : s.wardenOn = true)
    (hload : s.opt.load = 0) (ht : target.toNat = s.optI3c) (write : Bool) :
    execI3cTransfer ⟨target, write⟩ data s =
      if write then .next { s with pwr := { s.pwr with i3cPtr := data } }
      else .next { s with pwr := { s.pwr with
        i3cPtr := s.pwr.i3cPtr + 1
        i3cData := if i3cServed (8 * s.pwr.i3cPtr.toNat) then s.readWarden (8 * s.pwr.i3cPtr.toNat) else 0 } } :=
  if_neg (by rw [hon, hload, ht]; simp)

theorem execI3cTransfer_other {h : I3cHead} {data : BitVec 16} (ht : h.target.toNat ≠ s.optI3c) :
    execI3cTransfer h data s = .next s := if_pos (by rw [bne_iff_ne.2 ht, Bool.or_true])

/-- Settles O46: each command and transfer by the conditions that it names. -/
theorem optionAndSecurityCommandsRun : Obligations.OptionAndSecurityCommandsRun := by
  unfold Obligations.OptionAndSecurityCommandsRun
  refine ⟨fun value s => ⟨fun ha hlock => ?_, fun ha hlock hw => ?_, fun ha hlock hw => ?_, fun ha => ?_⟩,
    fun cid c s => ⟨fun h => ⟨fun hid => ?_, fun hid => ?_⟩, fun h => ⟨fun hid => ?_, fun hid => ?_⟩,
      fun miss hjob => ⟨fun h => ?_, fun h => ?_⟩, fun miss h hjob => ⟨fun h3 hslot => ?_, fun hslot => ?_⟩,
      fun miss h hjob => ⟨fun code off herr => ?_, fun herr => ⟨fun k hk => ?_, fun hk => ?_⟩⟩,
      fun miss e l => ⟨rfl, rfl⟩⟩,
    fun s j w v rest hj htodo => ⟨fun hleft => State.fuseTurn_waits hj hleft, fun hleft hgood => ?_,
      fun hleft hgood hrest => ?_, fun hleft hgood hrest => ?_, fun c bad _ hc => State.endBlow_running hc⟩,
    fun s => ⟨fun i hup => ⟨fun hall => ?_, fun hall => ?_⟩, fun target data hon hload ht => ⟨?_, ?_⟩,
      fun h data ht => execI3cTransfer_other ht⟩⟩
  · exact congrArg Host.Outcome.next ((State.optCommit_asked ha).trans (if_pos hlock))
  · exact congrArg Host.Outcome.next ((State.optCommit_asked ha).trans
      ((if_neg (ne_true_of_eq_false hlock)).trans (if_neg (ne_true_of_eq_false hw))))
  · exact congrArg Host.Outcome.next ((State.optCommit_asked ha).trans
      ((if_neg (ne_true_of_eq_false hlock)).trans (if_pos hw)))
  · exact congrArg Host.Outcome.next (State.optCommit_ignored ha)
  · exact (State.withCmd_canRun h _ : execSecIdentity cid s = _).trans (by rw [State.withIdentity_valid hid])
  · exact (State.withCmd_canRun h _ : execSecIdentity cid s = _).trans (by rw [State.withIdentity_none hid])
  · exact (State.withCmd_canRun h _ : execSecAttest cid s = _).trans (by rw [State.withIdentity_valid hid])
  · exact (State.withCmd_canRun h _ : execSecAttest cid s = _).trans (by rw [State.withIdentity_none hid])
  · exact (State.withCmd_canRun h _ : execSecFuseBlow cid miss s = _).trans (by rw [if_pos hjob])
  · exact (State.withCmd_canRun h _ : execSecKeyProvision cid miss s = _).trans (by rw [if_pos hjob])
  · exact (execSecFuseBlow_free h hjob).trans (by rw [if_pos ⟨h3, by rw [hslot]; rfl⟩])
  · refine (execSecFuseBlow_free h hjob).trans (congrArg Host.Outcome.next (if_neg ?_))
    rintro ⟨h3, hno⟩
    rw [hslot h3] at hno
    exact Bool.false_ne_true hno
  · exact (execSecKeyProvision_free h hjob).trans (by dsimp only; rw [herr])
  · exact (execSecKeyProvision_free h hjob).trans (by dsimp only; rw [herr]; dsimp only; rw [hk])
  · exact (execSecKeyProvision_free h hjob).trans (by dsimp only; rw [herr]; dsimp only; rw [hk])
  · exact (State.fuseTurn_word hj htodo hleft).trans (if_pos (by rw [hgood]; rfl))
  · exact (State.fuseTurn_word hj htodo hleft).trans ((if_neg (by rw [hgood]; decide)).trans
      (if_pos (by rw [hrest]; rfl)))
  · rw [State.fuseTurn_word hj htodo hleft]
    dsimp only
    rw [if_neg (by rw [hgood]; decide), if_neg (by simpa using hrest)]
    exact ⟨_, rfl⟩
  · exact (execJtagInstruction_up hup).trans (if_pos hall)
  · exact (execJtagInstruction_up hup).trans (if_neg (ne_true_of_eq_false hall))
  · exact execI3cTransfer_addressed hon hload ht true
  · exact execI3cTransfer_addressed hon hload ht false

/-! ## Power and cooling -/

theorem execVinInRange_ok {mv : Nat} (h : vinOk mv = true) :
    execVinInRange mv s =
      (let s1 : State := { s with pwr := { s.pwr with vin := BitVec.ofNat 16 mv } }
       if s.clk.step = .waitVin then .next s1.railsUp else .next s1) := if_pos h

theorem execInputVoltage_ok {mv us : Nat} {stages : BitVec 5} (hon : s.wardenOn = true) (h : vinOk mv = true) :
    execInputVoltage mv us stages s = .next { s with pwr := { s.pwr with vin := BitVec.ofNat 16 mv } } :=
  (if_pos h : execInputVoltage mv us stages s = _).trans (by rw [if_pos hon])

/-- An input out of range by its length and its depth. -/
theorem execInputVoltage_out {mv us : Nat} {stages : BitVec 5} (hon : s.wardenOn = true) (h : vinOk mv = false) :
    execInputVoltage mv us stages s =
      (let s1 : State := { s with pwr := { s.pwr with vin := BitVec.ofNat 16 (min 65535 mv) } }
       let s2 := s1.logErr blkWarden { code := 0xB9, src := 17 }
       if us ≤ 5 then .next s
       else if mv < 36000 then .next (s.cold true)
       else .next (((List.range 5).filter (fun g => stages.getLsbD g && s2.busOn g)).foldl State.groupOff s2)) := by
  simp only [execInputVoltage, h, hon, Bool.false_eq_true, if_false, Bool.not_true, or_false]

theorem execSupplyFault_on (hon : s.wardenOn = true) (stage2 : Bool) (g : Fin 64) :
    execSupplyFault stage2 g s =
      (let s1 := s.logErr blkWarden { code := 0xB8, src := 17, unit := g.val }
       if stage2 then .next (if s.railOn (s.dieOf g.val) then s1.powerOff (s.dieOf g.val) else s)
       else if g.val < 5 then .next (if s.busOn g.val then s1.groupOff g.val else s)
       else if g.val = 5 then .next s1.standbyLost
       else .next s) := if_neg (by rw [hon]; decide)

theorem execPowerLimitWindow_on {watts : Nat} (hon : s.wardenOn = true) :
    execPowerLimitWindow watts s =
      (let s1 : State := { s with pwr := { s.pwr with pin := BitVec.ofNat 16 (min 65535 watts) } }
       if 16000 < watts ∧ !s.pwr.limiting then
         .next (({ s1 with pwr := { s1.pwr with limiting := true } } : State).holdQuads holdPower [0, 1, 2, 3])
       else if watts < 15500 ∧ s.pwr.limiting then
         .next (({ s1 with pwr := { s1.pwr with limiting := false } } : State).release holdPower [0, 1, 2, 3])
       else .next s1) := if_neg (by rw [hon]; decide)

theorem State.logRaw_pwr (s : State) (b : Nat) (e : ErrSpec) : (s.logRaw b e).pwr = s.pwr := by
  have h (t : State) (p : Prop) [Decidable p] (x y : BitVec 64) (ht : t.pwr = s.pwr) :
      (if p then t.postEvent x y else t).moment.pwr = s.pwr := by
    split
    · unfold State.postEvent
      dsimp only
      split <;> exact ht
    · exact ht
  refine h _ _ _ _ ?_
  split <;> rfl

/-- Holding a quadrant throttles it, and releases none. -/
theorem State.holdQuad_throttled (s : State) (holder q q' : Nat) (h : q' = q ∨ s.throttled q' = true) :
    (s.holdQuad holder q).throttled q' = true := by
  unfold State.holdQuad
  split
  · next hin =>
    rcases h with rfl | h
    · simp only [State.throttled, List.any_eq_true]
      exact ⟨_, by simpa using hin, by simp⟩
    · exact h
  · have hadd : ({ s with pwr := { s.pwr with holders := s.pwr.holders ++ [(q, holder)] } } : State).throttled q'
        = true := by
      rcases h with rfl | h
      · simp [State.throttled]
      · simp only [State.throttled, List.any_append, Bool.or_eq_true] at h ⊢
        exact .inl h
    dsimp only
    split
    · exact hadd
    · rw [State.throttled, State.logRaw_pwr]
      exact hadd

theorem State.holdQuads_throttled (holder : Nat) (qs : List Nat) (s : State) (q : Nat)
    (h : q ∈ qs ∨ s.throttled q = true) : (s.holdQuads holder qs).throttled q = true := by
  induction qs generalizing s with
  | nil => exact h.resolve_left (by simp)
  | cons q' qs ih =>
    refine ih _ ?_
    rcases h with h | h
    · rcases List.mem_cons.1 h with rfl | h
      · exact .inr (s.holdQuad_throttled holder _ _ (.inl rfl))
      · exact .inl h
    · exact .inr (s.holdQuad_throttled holder _ _ (.inr h))

theorem State.holdQuads_limiting (s : State) (holder : Nat) (qs : List Nat) :
    (s.holdQuads holder qs).pwr.limiting = s.pwr.limiting := by
  obtain ⟨l, h⟩ := (s.holdQuads_logsDies holder qs).2.1
  rw [h]

/-- What a holder lets go of, and what stays held. -/
theorem State.release_contains (s : State) (holder : Nat) (qs : List Nat) (q h : Nat) :
    (s.release holder qs).pwr.holders.contains (q, h)
      = (s.pwr.holders.contains (q, h) && !(h == holder && qs.contains q)) := by
  rw [Bool.eq_iff_iff]
  simp [State.release, List.mem_filter]

theorem mem_quads {q : Nat} (h : q < 4) : q ∈ [0, 1, 2, 3] := by
  simp only [List.mem_cons, List.not_mem_nil, or_false]
  omega

/-- Settles O47: each event while the warden is on, by the conditions that it names. -/
theorem powerAndCoolingAreWatched : Obligations.PowerAndCoolingAreWatched := by
  unfold Obligations.PowerAndCoolingAreWatched
  refine ⟨fun s hon => ⟨fun mv hv => ⟨fun hstep => ?_, fun hstep => ?_, fun us stages => execInputVoltage_ok hon hv⟩,
      fun mv us stages hv => ⟨fun h5 => ?_, fun h5 h36 => ?_, fun h5 h36 => ?_⟩,
      fun g => ⟨fun hrail => ?_, fun hg hbus => ?_, fun hg => ?_⟩, rfl, rfl,
      fun hrails hpin hgone => if_pos ⟨hon, hrails, hpin, by rw [hgone]; rfl⟩, fun hgone hpin => if_pos ⟨hgone, hpin⟩,
      fun hboot => if_pos hboot, fun temps => if_neg (by rw [hon]; decide),
      fun k => ⟨fun hg => if_neg (ne_true_of_eq_false hg), fun hg => if_pos hg⟩⟩,
    fun s watts hon => ⟨fun hw hlim => ⟨?_, ?_, fun q hq => ?_⟩, fun hw hlim => ⟨?_, rfl, fun q hq => ?_,
      fun q h hh => ?_⟩, fun hlow hhigh => ?_⟩⟩
  · exact (execVinInRange_ok hv).trans (if_neg hstep)
  · exact (execVinInRange_ok hv).trans (if_pos hstep)
  · exact (execInputVoltage_out hon hv).trans (if_pos h5)
  · exact (execInputVoltage_out hon hv).trans ((if_neg (Nat.not_le.2 h5)).trans (if_pos h36))
  · exact (execInputVoltage_out hon hv).trans ((if_neg (Nat.not_le.2 h5)).trans (if_neg (Nat.not_lt.2 h36)))
  · exact (execSupplyFault_on hon true g).trans ((if_pos rfl).trans (by rw [if_pos hrail]))
  · exact (execSupplyFault_on hon false g).trans
      ((if_neg Bool.false_ne_true).trans ((if_pos hg).trans (by rw [if_pos hbus])))
  · exact (execSupplyFault_on hon false g).trans
      ((if_neg Bool.false_ne_true).trans ((if_neg (by omega)).trans (if_pos hg)))
  · exact (execPowerLimitWindow_on hon).trans (if_pos ⟨hw, by rw [hlim]; rfl⟩)
  · exact State.holdQuads_limiting _ _ _
  · exact State.holdQuads_throttled _ _ _ _ (.inl (mem_quads hq))
  · exact (execPowerLimitWindow_on hon).trans ((if_neg (by omega)).trans (if_pos ⟨hw, hlim⟩))
  · rw [State.release_contains]
    simp [mem_quads hq]
  · rw [State.release_contains]
    simp [hh]
  · exact (execPowerLimitWindow_on hon).trans ((if_neg (by omega)).trans (if_neg (by omega)))

/-! ## Forwarding -/

/-- `t` has the Almanac and the links of `s`. -/
def State.sameNet (s t : State) : Prop := t.alm = s.alm ∧ t.net = s.net

theorem State.sameNet_trans {s t u : State} (k : t.sameNet u) (h : s.sameNet t) : s.sameNet u :=
  ⟨k.1.trans h.1, k.2.trans h.2⟩

theorem State.sameNet_ite {s t u : State} {p : Prop} [Decidable p] (h : s.sameNet t) (k : s.sameNet u) :
    s.sameNet (if p then t else u) := by split <;> assumption

theorem State.logErr_sameNet (s : State) (b : Nat) (e : ErrSpec) : s.sameNet (s.logErr b e) :=
  ⟨State.logErr_alm s b e, State.logErr_net s b e⟩

theorem State.harvestFail_sameNet (s : State) (code addr entry : Nat) : s.sameNet (s.harvestFail code addr entry) :=
  s.logErr_sameNet _ _

theorem State.stewardAck_sameNet (s : State) (id code : Nat) (data : List Byte) :
    s.sameNet (s.stewardAck id code data) := by
  have hself : s.sameNet s := ⟨rfl, rfl⟩
  unfold State.stewardAck
  refine State.sameNet_ite ?_ (State.sameNet_ite ?_ ?_)
  · exact State.sameNet_ite hself (State.sameNet_ite ⟨rfl, rfl⟩ (State.sameNet_ite ⟨rfl, rfl⟩
      (State.sameNet_ite (s.harvestFail_sameNet _ _ _) (s.harvestFail_sameNet _ _ _))))
  · unfold State.restoreAck
    split
    · exact hself
    · exact ⟨rfl, rfl⟩
  · refine State.sameNet_ite ⟨rfl, rfl⟩ (State.sameNet_ite ⟨rfl, rfl⟩ ?_)
    exact State.sameNet_trans (State.logErr_sameNet _ _ _) ⟨rfl, rfl⟩

theorem State.cross_sameNet (s : State) (l : List Byte) : s.sameNet (s.cross l).1 := by
  unfold State.cross
  split <;> exact ⟨rfl, rfl⟩

theorem State.respond_sameNet (s : State) (who : Requester) (data : List Byte) (code : Nat) (retry : Bool) :
    s.sameNet (s.respond who data code retry) := by
  cases who with
  | agent b id =>
    exact State.sameNet_ite (State.sameNet_trans (State.stewardAck_sameNet _ _ _ _) ⟨rfl, rfl⟩) ⟨rfl, rfl⟩
  | tile d t k =>
    exact State.sameNet_ite ⟨rfl, rfl⟩ (State.sameNet_trans ⟨rfl, rfl⟩ (s.cross_sameNet data))

/-- The end of a remote request changes no time of the links. -/
theorem State.finishRemote_times (s : State) (i : Nat) (data : List Byte) (code : Nat) :
    (s.finishRemote i data code).alm.total = s.alm.total
      ∧ (s.finishRemote i data code).net.lifetime = s.net.lifetime := by
  unfold State.finishRemote
  dsimp only
  split
  · exact ⟨rfl, rfl⟩
  · next who h =>
    obtain ⟨ha, hn⟩ := State.respond_sameNet (s.setRem i { s.rem i with busy := none }) who data code false
    exact ⟨by rw [ha]; rfl, by rw [hn]; rfl⟩

theorem execRemoteTimeout_due {l : Fin 8} {slot : Fin 4096} (hbusy : (s.rem (l * 4096 + slot)).busy.isSome = true)
    (hdue : (s.rem (l * 4096 + slot)).since + s.net.reqTimeout.toNat ≤ s.alm.total) :
    execRemoteTimeout l slot s =
      (let i := l.val * 4096 + slot.val
       let t := (s.logErr (blkLd l.val) { code := 0x27, src := 0, addr := (s.rem i).addr.toNat }).finishRemote i
         (offsetBytes 0) 0x27
       .next (t.setRem i { t.rem i with
         gen := nextGen (s.rem i).gen, block := s.alm.total + s.net.lifetime.toNat })) := by
  refine (if_pos ⟨hbusy, hdue⟩ : execRemoteTimeout l slot s = _).trans ?_
  dsimp only
  obtain ⟨ha, hn⟩ := (s.logErr (blkLd l.val) { code := 0x27, src := 0, addr := (s.rem (l * 4096 + slot)).addr.toNat
    }).finishRemote_times (l * 4096 + slot) (offsetBytes 0) 0x27
  rw [ha, hn, State.logErr_alm, State.logErr_net]

/-- Settles O60: a packet by the place where it stands, a request by its time. -/
theorem packetsAreForwarded : Obligations.PacketsAreForwarded := by
  unfold Obligations.PacketsAreForwarded
  refine fun l k s => ⟨fun x hx => ?_, fun e hx he => ?_, fun e hx he hp => ?_, fun hx he hp hcoord hout => ?_,
    fun w hx he hp hcoord hout hw => ?_, fun slot => ⟨execRemoteTimeout_due, fun hdue => if_neg ?_⟩⟩
  · show execPacketForward l k s = _
    simp only [execPacketForward, hx]
  · show execPacketForward l k s = _
    simp only [execPacketForward, hx, he]
  · show execPacketForward l k s = _
    simp only [execPacketForward, hx, he, hp]
  · show execPacketForward l k s = _
    simp only [execPacketForward, hx, he, hp, hcoord, hout, Bool.not_true, Bool.false_eq_true, if_false, if_true]
  · show execPacketForward l k s = _
    simp only [execPacketForward, hx, he, hp, hcoord, hout, hw, Bool.not_true, Bool.false_eq_true, if_false]
  · exact fun h => Nat.not_le.2 hdue h.2

end Sys2Proof.Machine
end

section
/-! What integer operations, sign changes and moved fields do to bits: the functions on numbers agree with those of
machine words of every width (R104, R105, R107, R140). -/
namespace Sys2Proof.Machine

theorem toSigned_toNat {N : Nat} (x : BitVec N) : toSigned N x.toNat = x.toInt := by
  have hlt := x.isLt
  rw [toSigned, Nat.mod_eq_of_lt hlt, signedOf, BitVec.toInt_eq_toNat_cond]
  rcases N with _ | n
  · have h0 : x.toNat = 0 := by omega
    simp [h0]
  · rw [Nat.add_sub_cancel]
    have hiff : x.toNat < 2 ^ n ↔ 2 * x.toNat < 2 ^ (n + 1) := by omega
    simp only [hiff]
    push_cast
    rfl

theorem ofSigned_eq (N : Nat) (z : Int) : ofSigned N z = (BitVec.ofInt N z).toNat :=
  (BitVec.toNat_ofInt z).symm

theorem ofInt_toInt_sub {N : Nat} (x y : BitVec N) : BitVec.ofInt N (x.toInt - y.toInt) = x - y :=
  BitVec.eq_of_toInt_eq (by rw [BitVec.toInt_ofInt, BitVec.toInt_sub])

theorem toNat_pick {N : Nat} {p r : Prop} [Decidable p] [Decidable r] (h : p ↔ r) (x y : BitVec N) :
    (if p then x.toNat else y.toNat) = (if r then x else y).toNat := by
  simp only [h]
  split <;> rfl

/-- The integer functions on machine words of N bits (R105). -/
def intWord {N : Nat} (fn : Nat) (x y : BitVec N) : BitVec N :=
  match fn with
  | 0 => x + y
  | 1 => x - y
  | 2 => x * y
  | 3 => x &&& y
  | 4 => x ||| y
  | 5 => x ^^^ y
  | 6 => x <<< (y.toNat % N)
  | 7 => x >>> (y.toNat % N)
  | 8 => x.sshiftRight (y.toNat % N)
  | 9 => if x.sle y then x else y
  | 10 => if x.sle y then y else x
  | 11 => if x.ule y then x else y
  | _ => if x.ule y then y else x

/-- An integer function of the model is that of machine words. -/
theorem intOp_eq {N : Nat} (fn : Nat) (x y : BitVec N) : intOp fn N x.toNat y.toNat = (intWord fn x y).toNat := by
  have hle : toSigned N x.toNat ≤ toSigned N y.toNat ↔ x.sle y = true := by
    rw [toSigned_toNat, toSigned_toNat, BitVec.sle_iff_toInt_le]
  match fn with
  | 0 => exact (BitVec.toNat_add x y).symm
  | 1 =>
    exact (congrArg₂ (fun a b => ofSigned N (a - b)) (toSigned_toNat x) (toSigned_toNat y)).trans
      ((ofSigned_eq N _).trans (congrArg BitVec.toNat (ofInt_toInt_sub x y)))
  | 2 => exact (BitVec.toNat_mul x y).symm
  | 3 => exact (BitVec.toNat_and x y).symm
  | 4 => exact (BitVec.toNat_or x y).symm
  | 5 => exact (BitVec.toNat_xor x y).symm
  | 6 => exact BitVec.toNat_shiftLeft.symm
  | 7 => exact congrArg (· >>> (y.toNat % N)) (Nat.mod_eq_of_lt x.isLt)
  | 8 =>
    exact (congrArg (fun a : Int => ofSigned N (a >>> (y.toNat % N))) (toSigned_toNat x)).trans (ofSigned_eq N _)
  | 9 => exact toNat_pick hle x y
  | 10 => exact toNat_pick hle y x
  | 11 => exact toNat_pick BitVec.ule_iff_toNat_le.symm x y
  | n + 12 => exact toNat_pick BitVec.ule_iff_toNat_le.symm y x

/-- The integer comparisons on machine words of N bits (R106). -/
def intTest {N : Nat} (fn : Nat) (x y : BitVec N) : Bool :=
  match fn with
  | 0 => x == y
  | 1 => x != y
  | 2 => x.slt y
  | 3 => x.sle y
  | 4 => x.ult y
  | _ => x.ule y

/-- An integer comparison of the model is that of machine words. -/
theorem intCmp_eq {N : Nat} (fn : Nat) (x y : BitVec N) : intCmp fn N x.toNat y.toNat = intTest fn x y := by
  have heq : (x.toNat == y.toNat) = (x == y) := by
    rw [Bool.eq_iff_iff]
    simp [BitVec.toNat_inj]
  match fn with
  | 0 => exact heq
  | 1 => exact congrArg (!·) heq
  | 2 => exact congrArg₂ (fun a b => decide (a < b)) (toSigned_toNat x) (toSigned_toNat y)
  | 3 => exact congrArg₂ (fun a b => decide (a ≤ b)) (toSigned_toNat x) (toSigned_toNat y)
  | 4 => rfl
  | n + 5 => rfl

theorem sExtend_toNat {N : Nat} (x : BitVec N) : sExtend N x.toNat = x.signExtend 64 := by
  rw [sExtend, toSigned_toNat, ofSigned_eq, BitVec.ofNat_toNat, BitVec.setWidth_eq]
  rfl

theorem sExtend_ofSigned {N : Nat} {z : Int} (hlow : -(2 : Int) ^ (N - 1) ≤ z) (hhigh : z < 2 ^ (N - 1)) (hN : 0 < N) :
    sExtend N (ofSigned N z) = BitVec.ofInt 64 z := by
  rw [ofSigned_eq, sExtend_toNat]
  show BitVec.ofInt 64 _ = _
  rw [BitVec.toInt_ofInt_eq_self hN hlow hhigh]

/-! ## Bits of a field -/

theorem bits_testBit {w : Nat} (x : BitVec w) (hi lo i : Nat) :
    (bits x hi lo).testBit i = (decide (i < hi + 1 - lo) && x.getLsbD (lo + i)) := by
  rw [bits, Nat.testBit_mod_two_pow, Nat.testBit_div_two_pow, BitVec.getLsbD, Nat.add_comm lo]

theorem mask_testBit (n k i : Nat) : ((2 ^ n - 1) * 2 ^ k).testBit i = decide (k ≤ i ∧ i < k + n) := by
  rw [Nat.mul_comm, Nat.testBit_two_pow_mul, Nat.testBit_two_pow_sub_one]
  by_cases hk : k ≤ i
  · have : i - k < n ↔ i < k + n := by omega
    simp [hk, this]
  · simp [hk]

theorem setBits_getLsbD {w : Nat} (x : BitVec w) (hi lo v i : Nat) (hi' : i < w) (hle : lo ≤ hi) :
    (setBits x hi lo v).getLsbD i = if lo ≤ i ∧ i ≤ hi then v.testBit (i - lo) else x.getLsbD i := by
  have hrange : (lo ≤ i ∧ i < lo + (hi + 1 - lo)) ↔ (lo ≤ i ∧ i ≤ hi) := by omega
  have hmask : ((2 ^ (hi + 1 - lo) - 1) * 2 ^ lo).testBit i = decide (lo ≤ i ∧ i ≤ hi) :=
    (mask_testBit (hi + 1 - lo) lo i).trans (decide_eq_decide.2 hrange)
  unfold setBits
  dsimp only
  rw [BitVec.getLsbD_or, BitVec.getLsbD_and, BitVec.getLsbD_and, BitVec.getLsbD_not, BitVec.getLsbD_ofNat,
    BitVec.getLsbD_ofNat, hmask, Nat.mul_comm v, Nat.testBit_two_pow_mul]
  by_cases h : lo ≤ i ∧ i ≤ hi
  · simp [hi', h]
  · simp [hi', h]

/-! ## Bits of the sign functions -/

theorem two_pow_add_testBit {K r : Nat} (hr : r < 2 ^ K) (i : Nat) :
    (2 ^ K + r).testBit i = (decide (i = K) || r.testBit i) := by
  have hor := Nat.two_pow_add_eq_or_of_lt hr 1
  rw [Nat.mul_one] at hor
  rw [hor, Nat.testBit_or, Nat.testBit_two_pow]
  simp only [eq_comm]

theorem testBit_above {K r : Nat} (hr : r < 2 ^ K) {i : Nat} (hi : K ≤ i) : r.testBit i = false :=
  Nat.testBit_lt_two_pow (lt_of_lt_of_le hr (Nat.pow_le_pow_right Nat.two_pos hi))

/-- Adding or taking away the top bit turns it over. -/
theorem flipTop_testBit {K a : Nat} (ha : a < 2 ^ (K + 1)) (i : Nat) :
    (if 2 ^ K ≤ a then a - 2 ^ K else a + 2 ^ K).testBit i = (a.testBit i ^^ decide (i = K)) := by
  split
  · rename_i hle
    obtain ⟨r, rfl⟩ := Nat.exists_eq_add_of_le hle
    have hr : r < 2 ^ K := by omega
    rw [Nat.add_sub_cancel_left, two_pow_add_testBit hr]
    by_cases hi : i = K
    · simp [hi, testBit_above hr (le_refl K)]
    · simp [hi]
  · rename_i hle
    have hr : a < 2 ^ K := by omega
    rw [Nat.add_comm, two_pow_add_testBit hr]
    by_cases hi : i = K
    · simp [hi, testBit_above hr (le_refl K)]
    · simp [hi]

end Sys2Proof.Machine
end

section
/-! What the operations of a format give where an operand is a zero, a NaN or an infinity, and what comparisons and
conversions to integers say of the numbers (R48 to R51, R104, R108). -/
namespace Sys2Proof.Machine

variable {f : Fmt} {rm : Rm} {a b z : FVal} {x y u : ℝ}

/-! ## Finite numbers -/

theorem FVal.is.notNan (h : a.is x) : a.isNan = false := h.plain.1

theorem FVal.is.zeroMag {n : Bool} {m : Nat} {e : Int} (h : (FVal.fin n m e).is x) : m = 0 ↔ x = 0 := by
  have hz := num_zero h.num
  rw [← hz]
  cases n <;> simp [FVal.dyad]

theorem FVal.is.neg_of_neg (h : a.is x) (hx : x < 0) : a.neg? = true := by
  obtain ⟨n, m, e, rfl, rfl⟩ := h
  cases n
  · have : (0 : ℝ) ≤ m * 2 ^ e := by positivity
    simp only [Bool.false_eq_true, if_false, one_mul] at hx
    linarith
  · rfl

theorem withSign_neg? (a : FVal) (n : Bool) : (a.withSign n).neg? = n := by cases a <;> rfl

theorem addVal_gives (hf : f.sound) (ha : a.is x) (hb : b.is y) (hxy : x + y ≠ 0) :
    f.gives rm (x + y) (addVal f rm a b) := by
  rw [addVal_is ha hb]
  exact Fmt.roundDyad_gives hf rm _ (Dyad.add_num ha.num hb.num) hxy

theorem addVal_zero (ha : a.is x) (hb : b.is y) (hxy : x + y = 0) :
    addVal f rm a b = (f.signBit (zeroSumSign rm a.neg? b.neg?), 0) := by
  rw [addVal_is ha hb]
  exact Fmt.roundDyad_zero rm _ (Dyad.add_num ha.num hb.num) hxy

theorem subVal_is (hb : b.is y) : subVal f rm a b = addVal f rm a (b.withSign (!b.neg?)) := by
  rw [subVal, hb.notNan]
  rfl

theorem mulVal_gives (hf : f.sound) (ha : a.is x) (hb : b.is y) (hxy : x * y ≠ 0) :
    f.gives rm (x * y) (mulVal f rm a b) := by
  rw [mulVal_is ha hb]
  exact Fmt.roundDyad_gives hf rm _ (Dyad.mul_num ha.num hb.num) hxy

theorem mulVal_zero (ha : a.is x) (hb : b.is y) (hxy : x * y = 0) :
    mulVal f rm a b = (f.signBit (a.neg? != b.neg?), 0) := by
  rw [mulVal_is ha hb]
  exact Fmt.roundDyad_zero rm _ (Dyad.mul_num ha.num hb.num) hxy

theorem fmaNan_num (ha : a.is x) (hb : b.is y) (hz : z.is u) {l : List FVal} (hl : ∀ v ∈ l, v.isNan = false) :
    fmaNan f rm a b z l = f.roundDyad rm (zeroSumSign rm (a.neg? != b.neg?) z.neg?)
      ((a.dyad.mul b.dyad).add z.dyad) ∧ ((a.dyad.mul b.dyad).add z.dyad).num (x * y + u) :=
  ⟨fmaNan_is ha hb hz hl, Dyad.add_num (Dyad.mul_num ha.num hb.num) hz.num⟩

theorem plain_three (ha : a.is x) (hb : b.is y) (hz : z.is u) : ∀ v ∈ [a, b, z], v.isNan = false := by
  simp [ha.notNan, hb.notNan, hz.notNan]

theorem fmaVal_gives (hf : f.sound) (ha : a.is x) (hb : b.is y) (hz : z.is u) (h : x * y + u ≠ 0) :
    f.gives rm (x * y + u) (fmaVal f rm a b z) := by
  obtain ⟨heq, hnum⟩ := fmaNan_num (f := f) (rm := rm) ha hb hz (plain_three ha hb hz)
  rw [fmaVal, heq]
  exact Fmt.roundDyad_gives hf rm _ hnum h

theorem fmaVal_zero (ha : a.is x) (hb : b.is y) (hz : z.is u) (h : x * y + u = 0) :
    fmaVal f rm a b z = (f.signBit (zeroSumSign rm (a.neg? != b.neg?) z.neg?), 0) := by
  obtain ⟨heq, hnum⟩ := fmaNan_num (f := f) (rm := rm) ha hb hz (plain_three ha hb hz)
  rw [fmaVal, heq]
  exact Fmt.roundDyad_zero rm _ hnum h

theorem divVal_fin (f : Fmt) (rm : Rm) (m n : Bool) (i j : Nat) (e k : Int) (h : i = 0 ∨ j = 0) :
    divVal f rm (.fin m i e) (.fin n j k) = if j = 0 then
      (if i = 0 then (f.canonNan, fInvalid) else (f.infCode (m != n), fDivZero)) else (f.signBit (m != n), 0) := by
  have hsimp : divVal f rm (.fin m i e) (.fin n j k) = if j = 0 then
      (if i = 0 then invalidResult f else (f.infCode (m != n), fDivZero)) else if i = 0 then (f.signBit (m != n), 0)
      else f.round rm (m != n) (divMag f.fbits i e j k).1 (divMag f.fbits i e j k).2.1
        (divMag f.fbits i e j k).2.2 := rfl
  rw [hsimp]
  split
  · rfl
  · rename_i hj
    rw [if_pos (h.resolve_right hj)]

theorem divVal_zero (ha : a.is x) (hb : b.is y) (hx : x = 0) (hy : y ≠ 0) :
    divVal f rm a b = (f.signBit (a.neg? != b.neg?), 0) := by
  obtain ⟨m, i, e, rfl, -⟩ := id ha
  obtain ⟨n, j, k, rfl, -⟩ := id hb
  rw [divVal_fin f rm m n i j e k (.inl (ha.zeroMag.2 hx)), if_neg (fun h => hy (hb.zeroMag.1 h))]
  rfl

theorem divVal_by_zero (ha : a.is x) (hb : b.is y) (hx : x ≠ 0) (hy : y = 0) :
    divVal f rm a b = (f.infCode (a.neg? != b.neg?), fDivZero) := by
  obtain ⟨m, i, e, rfl, -⟩ := id ha
  obtain ⟨n, j, k, rfl, -⟩ := id hb
  rw [divVal_fin f rm m n i j e k (.inr (hb.zeroMag.2 hy)), if_pos (hb.zeroMag.2 hy),
    if_neg (fun h => hx (ha.zeroMag.1 h))]
  rfl

theorem divVal_zeros (ha : a.is x) (hb : b.is y) (hx : x = 0) (hy : y = 0) :
    divVal f rm a b = (f.canonNan, fInvalid) := by
  obtain ⟨m, i, e, rfl, -⟩ := id ha
  obtain ⟨n, j, k, rfl, -⟩ := id hb
  rw [divVal_fin f rm m n i j e k (.inr (hb.zeroMag.2 hy)), if_pos (hb.zeroMag.2 hy), if_pos (ha.zeroMag.2 hx)]

theorem sqrtVal_zero (ha : a.is x) (hx : x = 0) : sqrtVal f rm a = (f.signBit a.neg?, 0) := by
  obtain ⟨m, i, e, rfl, -⟩ := id ha
  obtain rfl := ha.zeroMag.2 hx
  rfl

theorem sqrtVal_negative (ha : a.is x) (hx : x < 0) : sqrtVal f rm a = (f.canonNan, fInvalid) := by
  obtain ⟨m, i, e, rfl, -⟩ := id ha
  obtain rfl : m = true := ha.neg_of_neg hx
  obtain ⟨j, rfl⟩ := Nat.exists_eq_succ_of_ne_zero (fun h => hx.ne (ha.zeroMag.1 h))
  rfl

theorem ofVal_gives (hf : f.sound) (ha : a.is x) (hx : x ≠ 0) : f.gives rm x (f.ofVal rm a) := by
  obtain ⟨n, m, e, rfl, hval⟩ := id ha
  have hmag : |x| = m * 2 ^ e := by
    have hpos : (0 : ℝ) ≤ m * 2 ^ e := by positivity
    cases n <;> simp [hval, abs_of_nonneg hpos]
  have hpow : (0 : ℝ) < 2 ^ e := by positivity
  refine ⟨n, ?_, Fmt.round_rounded f hf rm n m e false _ (fun h => hx (ha.zeroMag.1 h))
    ⟨hmag.ge, by linarith, by simp [hmag]⟩ (by simp)⟩
  refine ⟨fun hn => ?_, fun h => ha.neg_of_neg h⟩
  have hm : 0 < |x| := abs_pos.2 hx
  subst hn
  simp only [if_true] at hval
  linarith

/-! ## Comparisons -/

theorem maxminVal_is (hb : b.is y) (ha : a.is x) (isMax : Bool) : maxminVal f isMax a b =
    f.ofVal .nearest (if ltZ a b then (if isMax then b else a) else (if isMax then a else b)) := by
  rw [maxminVal, nanResult_none f _ (by simp [ha.notNan, hb.notNan])]

theorem ltZ_of_lt (ha : a.is x) (hb : b.is y) (h : x < y) : ltZ a b = true := by
  rw [ltZ, (cmpVal_is ha hb).1.2 h]

theorem ltZ_of_gt (ha : a.is x) (hb : b.is y) (h : y < x) : ltZ a b = false := by
  rw [ltZ, (cmpVal_is ha hb).2.2.2 h]

/-- A comparison of two numbers says what they are and raises nothing. -/
theorem cmpFlag_is (c : Cmp) (ha : a.is x) (hb : b.is y) : cmpFlag c a b = (c.holds (cmpVal a b), 0) := by
  simp [cmpFlag, ha.notNan, hb.notNan]

theorem cmpFlag_says (ha : a.is x) (hb : b.is y) :
    (cmpFlag .lt a b = (true, 0) ↔ x < y) ∧ (cmpFlag .eq a b = (true, 0) ↔ x = y) ∧
    (cmpFlag .le a b = (true, 0) ↔ x ≤ y) ∧ (cmpFlag .ne a b = (true, 0) ↔ x ≠ y) := by
  obtain ⟨hlt, heq, hgt⟩ := cmpVal_is ha hb
  simp only [cmpFlag_is _ ha hb, Prod.mk.injEq, and_true]
  rcases lt_trichotomy x y with h | h | h
  · simp [hlt.2 h, h, h.le, h.ne, Cmp.holds]
  · simp [heq.2 h, h, Cmp.holds]
  · simp [hgt.2 h, h.ne', h.not_ge, h.not_gt, Cmp.holds]

/-! ## NaNs and infinities -/

/-- The first NaN comes through, and whether one signals. -/
theorem nanResult_first {l : List FVal} {n g : Bool} {p : Nat} (h : l.find? FVal.isNan = some (.nan n g p)) :
    nanResult f l = some (f.nanCode n p, flagIf (l.any FVal.isSnan) fInvalid) := by
  rw [nanResult, h]

theorem isSnan_of_not_nan (h : b.isNan = false) : b.isSnan = false := by
  cases b with
  | nan n s p => simp [FVal.isNan] at h
  | _ => rfl

theorem withSign_isNan (b : FVal) (n : Bool) : (b.withSign n).isNan = b.isNan := by cases b <;> rfl

theorem withSign_isSnan (b : FVal) (n : Bool) : (b.withSign n).isSnan = b.isSnan := by cases b <;> rfl

end Sys2Proof.Machine
end

section
/-! The scalar unit in its turn, and what each of its functions leaves to land (R140, R156, R157). -/
namespace Sys2Proof.Machine

variable {s : State} {d t : Nat} {q : QEntry}

theorem State.scalTry_run {checks : List (Bool × Nat)} (h : firstCode checks = none) (run : Tile → Tile) :
    s.scalTry d t q checks run = s.setTile d t (run (s.tile d t)) := by simp only [State.scalTry, h]

/-- A value for S[SD], with the flags that its instruction raises, waits to land lat cycles after c. -/
def Tile.scalarLands (T T' : Tile) (q : QEntry) (c lat : Nat) (v : BitVec 64) (flags : FpFlags) : Prop :=
  (⟨c + lat, q.count.toNat, .sreg T.active (sSd q.word) v⟩ : Pend) ∈ T'.pend ∧
  (flags ≠ 0 → (⟨c + lat, q.count.toNat, .cvtUpdate T.active none 0 flags⟩ : Pend) ∈ T'.pend)

theorem Tile.sPut_lands (T : Tile) (q : QEntry) (c lat : Nat) (v : BitVec 64) (flags : FpFlags) :
    T.scalarLands (T.sPut q (c + lat) (sSd q.word) v flags) q c lat v flags := by
  unfold Tile.sPut
  dsimp only
  split
  · rename_i h
    exact ⟨Tile.mem_addPend _ _ _ _, fun hne => absurd h hne⟩
  · exact ⟨Tile.mem_addPend_of_mem (Tile.mem_addPend _ _ _ _) _ _ _, fun _ => Tile.mem_addPend _ _ _ _⟩

theorem Tile.sPut_lands_of_eq {T T' : Tile} {q : QEntry} {c lat : Nat} {v v' : BitVec 64} {flags flags' : FpFlags}
    (h : T'.pend = (T.sPut q (c + lat) (sSd q.word) v flags).pend) (hv : v = v') (hf : flags = flags') :
    T.scalarLands T' q c lat v' flags' := by
  subst hv hf
  have hput := T.sPut_lands q c lat v flags
  unfold Tile.scalarLands at hput ⊢
  rwa [h]

theorem Tile.sLow_eq (T : Tile) (r N : Nat) : T.sLow r N = ((T.sreg T.active r).setWidth N).toNat :=
  (BitVec.toNat_setWidth _ _).symm

/-- The second integer source of a scalar instruction, as a machine word. -/
theorem Tile.sInt2_eq (T : Tile) (w : BitVec 64) (N : Nat) : T.sInt2 w N =
    (if sImmf w then BitVec.ofInt N (sImm w) else (T.sreg T.active (sSs2 w)).setWidth N).toNat := by
  unfold Tile.sInt2
  split
  · exact ofSigned_eq N _
  · exact T.sLow_eq _ N

theorem natOf_word (b : Bool) : BitVec.ofNat 64 (natOf b) = if b then 1 else 0 := by cases b <;> rfl

theorem sWidth_cases (fmt : Nat) : sWidth fmt = 64 ∧ sFloat fmt = fp64 ∨ sWidth fmt = 32 ∧ sFloat fmt = fp32 := by
  unfold sWidth sFloat
  split <;> simp

theorem sWidth_pos (fmt : Nat) : 0 < sWidth fmt := by
  rcases sWidth_cases fmt with ⟨h, -⟩ | ⟨h, -⟩ <;> omega

theorem sFloat_signBit (fmt : Nat) : (sFloat fmt).signBit true = 2 ^ (sWidth fmt - 1) := by
  rcases sWidth_cases fmt with ⟨h, hf⟩ | ⟨h, hf⟩ <;> rw [h, hf] <;> rfl

theorem sWidth_le (fmt : Nat) : sWidth fmt ≤ 64 := by
  rcases sWidth_cases fmt with ⟨h, -⟩ | ⟨h, -⟩ <;> omega

/-! ## What each function leaves to land -/

section
variable (c : Nat) (q : QEntry) (T : Tile)

/-- SFA of a function other than quotient and root. -/
theorem sfaRun_short (h4 : sFunc q.word ≠ 4) (h5 : sFunc q.word ≠ 5) : sfaRun c q T =
    T.sPut q (c + (if sFunc q.word ≤ 3 then 4 else 2)) (sSd q.word)
      (BitVec.ofNat 64 (sfaResult (sFunc q.word) (sFloat (sFmt q.word)) (sRm q.word)
        (T.sLow (sSs1 q.word) (sWidth (sFmt q.word)))
        (T.sFp2 q.word (sFloat (sFmt q.word)) (sWidth (sFmt q.word)))
        (T.sLow (sSd q.word) (sWidth (sFmt q.word)))).1)
      (sfaResult (sFunc q.word) (sFloat (sFmt q.word)) (sRm q.word)
        (T.sLow (sSs1 q.word) (sWidth (sFmt q.word)))
        (T.sFp2 q.word (sFloat (sFmt q.word)) (sWidth (sFmt q.word)))
        (T.sLow (sSd q.word) (sWidth (sFmt q.word)))).2 := by
  unfold sfaRun
  simp [h4, h5]

theorem sfaRun_lands {k lat : Nat} {r : Nat × FpFlags} (hk : sFunc q.word = k) (h4 : k ≠ 4) (h5 : k ≠ 5)
    (hlat : (if k ≤ 3 then 4 else 2) = lat)
    (hr : sfaResult k (sFloat (sFmt q.word)) (sRm q.word)
      ((T.sreg T.active (sSs1 q.word)).setWidth (sWidth (sFmt q.word))).toNat
      (T.sFp2 q.word (sFloat (sFmt q.word)) (sWidth (sFmt q.word)))
      (T.sLow (sSd q.word) (sWidth (sFmt q.word))) = r) :
    T.scalarLands (sfaRun c q T) q c lat (BitVec.ofNat 64 r.1) r.2 := by
  subst hk hlat hr
  rw [← T.sLow_eq]
  exact Tile.sPut_lands_of_eq (congrArg Tile.pend (sfaRun_short c q T h4 h5)) rfl rfl

theorem sfaRun_long_lands (h : sFunc q.word = 4 ∨ sFunc q.word = 5) :
    let f := sFloat (sFmt q.word)
    let N := sWidth (sFmt q.word)
    let a := f.decode ((T.sreg T.active (sSs1 q.word)).setWidth N).toNat
    let b := f.decode (T.sFp2 q.word f N)
    let r := if sFunc q.word = 4 then divVal f (sRm q.word) a b else sqrtVal f (sRm q.word) a
    T.scalarLands (sfaRun c q T) q c (if N = 64 then 22 else 12) (BitVec.ofNat 64 r.1) r.2 := by
  dsimp only
  rw [← T.sLow_eq]
  refine Tile.sPut_lands_of_eq (v := BitVec.ofNat 64 (if sFunc q.word = 4 then _ else _ : Nat × FpFlags).1) ?_ rfl rfl
  unfold sfaRun
  rcases h with h | h <;> simp [h]

theorem siaRun_lands : T.scalarLands (siaRun c q T) q c (if sFunc q.word = 2 then 3 else 1)
    (BitVec.signExtend 64 (intWord (sFunc q.word)
      ((T.sreg T.active (sSs1 q.word)).setWidth (sWidth (sFmt q.word)))
      (if sImmf q.word then BitVec.ofInt _ (sImm q.word) else (T.sreg T.active (sSs2 q.word)).setWidth _))) 0 :=
  Tile.sPut_lands_of_eq rfl (by rw [T.sLow_eq, T.sInt2_eq, intOp_eq, sExtend_toNat]) rfl

theorem sicmpRun_lands : T.scalarLands (sicmpRun c q T) q c 1 (if intTest (sFunc q.word)
      ((T.sreg T.active (sSs1 q.word)).setWidth (sWidth (sFmt q.word)))
      (if sImmf q.word then BitVec.ofInt _ (sImm q.word) else (T.sreg T.active (sSs2 q.word)).setWidth _)
    then 1 else 0) 0 :=
  Tile.sPut_lands_of_eq rfl (by rw [T.sLow_eq, T.sInt2_eq, intCmp_eq, natOf_word]) rfl

theorem scmpRun_lands : let f := sFloat (sFmt q.word)
    let N := sWidth (sFmt q.word)
    let r := cmpFlag (cmpOf (sFunc q.word)) (f.decode ((T.sreg T.active (sSs1 q.word)).setWidth N).toNat)
      (f.decode (T.sFp2 q.word f N))
    T.scalarLands (scmpRun c q T) q c 2 (BitVec.ofNat 64 (natOf r.1)) r.2 := by
  dsimp only
  rw [← T.sLow_eq]
  exact Tile.sPut_lands_of_eq rfl rfl rfl

/-- The bit of the word that says whether an SLI clears the other quarters. -/
theorem sFunc_clears (w : BitVec 64) : (sFunc w).testBit 2 = w.getLsbD 54 := by
  rw [sFunc, bits_testBit]
  rfl

/-- SLI writes one quarter of its register and keeps or clears the others. -/
theorem sliRun_lands : ∃ v : BitVec 64, T.scalarLands (sliRun c q T) q c 1 v 0 ∧ ∀ i < 64, v.getLsbD i =
    if i / 16 = sFunc q.word % 4 then q.word.getLsbD (16 + i % 16)
    else !q.word.getLsbD 54 && (T.sreg T.active (sSd q.word)).getLsbD i := by
  refine ⟨_, Tile.sPut_lands_of_eq rfl rfl rfl, fun i hi => ?_⟩
  rw [setBits_getLsbD _ _ _ _ _ hi (by omega), bits_testBit, sFunc_clears]
  have hquarter : (16 * (sFunc q.word % 4) ≤ i ∧ i ≤ 16 * (sFunc q.word % 4) + 15) ↔ i / 16 = sFunc q.word % 4 := by
    omega
  by_cases h : i / 16 = sFunc q.word % 4
  · rw [if_pos (hquarter.2 h), if_pos h]
    have hlt : i - 16 * (sFunc q.word % 4) < 31 + 1 - 16 := by omega
    have hrest : i - 16 * (sFunc q.word % 4) = i % 16 := by omega
    rw [decide_eq_true hlt, Bool.true_and, hrest]
  · rw [if_neg (fun hq => h (hquarter.1 hq)), if_neg h]
    cases q.word.getLsbD 54 <;> simp [-BitVec.getLsbD_eq_getElem]

theorem scvtRun_toInt (h : sFunc q.word = 0) :
    let r := fpToInt (sFloat (bits q.word 19 16)) (sWidth (sFmt q.word)) (sRm q.word)
      ((T.sreg T.active (sSs1 q.word)).setWidth (sWidth (bits q.word 19 16))).toNat
    T.scalarLands (scvtRun c q T) q c 3 (sExtend (sWidth (sFmt q.word)) r.1) r.2 := by
  dsimp only
  rw [← T.sLow_eq]
  exact Tile.sPut_lands_of_eq (congrArg Tile.pend (by simp only [scvtRun, h])) rfl rfl

theorem scvtRun_ofInt (h : sFunc q.word = 1) :
    let r := (sFloat (sFmt q.word)).roundDyad (sRm q.word) false
      ⟨((T.sreg T.active (sSs1 q.word)).setWidth (sWidth (bits q.word 19 16))).toInt, 0⟩
    T.scalarLands (scvtRun c q T) q c 3 (BitVec.ofNat 64 r.1) r.2 := by
  dsimp only
  rw [← toSigned_toNat, ← T.sLow_eq]
  exact Tile.sPut_lands_of_eq (congrArg Tile.pend (by simp only [scvtRun, h, intToFp])) rfl rfl

theorem scvtRun_float (h : sFunc q.word = 2) :
    let r := (sFloat (sFmt q.word)).ofVal (sRm q.word) ((sFloat (bits q.word 19 16)).decode
      ((T.sreg T.active (sSs1 q.word)).setWidth (sWidth (bits q.word 19 16))).toNat)
    T.scalarLands (scvtRun c q T) q c 3 (BitVec.ofNat 64 r.1) r.2 := by
  dsimp only
  rw [← T.sLow_eq]
  exact Tile.sPut_lands_of_eq (congrArg Tile.pend (by simp only [scvtRun, h])) rfl rfl

end

/-- A conversion of a finite number to an integer: rounded once to a whole number, an end of the range where it lies
outside. -/
theorem fpToInt_fin {f : Fmt} {N code : Nat} {rm : Rm} {n : Bool} {m : Nat} {e : Int}
    (h : f.decode code = .fin n m e) : ∃ k : Nat, ∃ cut : Bool, rm.rounds n k 1 (m * 2 ^ e) ∧
      (cut = true ↔ (k : ℝ) ≠ m * 2 ^ e) ∧
      let v : Int := if n then -(k : Int) else k
      fpToInt f N rm code = if ((2 ^ (N - 1) - 1 : Nat) : Int) < v then (2 ^ (N - 1) - 1, fInvalid)
        else if v < -((2 ^ (N - 1) : Nat) : Int) then (2 ^ (N - 1), fInvalid)
        else (ofSigned N v, flagIf cut fInexact) := by
  obtain ⟨hrounds, hcut⟩ := roundTo_rounds rm n m e 0 false (m * 2 ^ e)
    ⟨le_refl _, by have : (0 : ℝ) < 2 ^ e := by positivity
                   linarith, by simp⟩ (by simp)
  rw [zpow_zero] at hrounds hcut
  rw [mul_one] at hcut
  refine ⟨_, _, hrounds, hcut, ?_⟩
  simp only [fpToInt, h]

theorem sExtend_top {N : Nat} (hN : 0 < N) : sExtend N (2 ^ (N - 1) - 1) = BitVec.ofInt 64 (2 ^ (N - 1) - 1) := by
  have hpos : (0 : Int) < 2 ^ (N - 1) := by positivity
  rw [← sExtend_ofSigned (by omega) (by omega) hN]
  congr 1
  have hlt : (2 : Int) ^ (N - 1) - 1 < 2 ^ N := by
    have : (2 : Int) ^ (N - 1) ≤ 2 ^ N := by gcongr <;> omega
    omega
  unfold ofSigned
  push_cast
  rw [Int.emod_eq_of_lt (by omega) hlt]
  have := Nat.one_le_two_pow (n := N - 1)
  zify [this]
  omega

theorem sExtend_bottom {N : Nat} (hN : 0 < N) : sExtend N (2 ^ (N - 1)) = BitVec.ofInt 64 (-2 ^ (N - 1)) := by
  have hpos : (0 : Int) < 2 ^ (N - 1) := by positivity
  rw [← sExtend_ofSigned (by omega) (by omega) hN]
  congr 1
  obtain ⟨n, rfl⟩ := Nat.exists_eq_succ_of_ne_zero hN.ne'
  have hmod : (-(2 : Int) ^ n) % 2 ^ (n + 1) = 2 ^ n := by
    have hlt : (2 : Int) ^ n < 2 ^ (n + 1) := by gcongr <;> omega
    rw [← Int.add_emod_right, show -(2 : Int) ^ n + 2 ^ (n + 1) = 2 ^ n by ring,
      Int.emod_eq_of_lt (by positivity) hlt]
  unfold ofSigned
  push_cast
  simp only [Nat.succ_eq_add_one, hmod]
  exact_mod_cast rfl

end Sys2Proof.Machine
end

section
/-! What the scalar unit's functions give (R48 to R51, R140). -/
namespace Sys2Proof.Machine

section
variable (c : Nat) (q : QEntry) (T : Tile)

/-- ABS clears the sign. -/
theorem sfaRun_abs (h : sFunc q.word = 10) : ∃ v : BitVec 64, T.scalarLands (sfaRun c q T) q c 2 v 0 ∧
    ∀ i, v.getLsbD i = (decide (i < sWidth (sFmt q.word) - 1) &&
      ((T.sreg T.active (sSs1 q.word)).setWidth (sWidth (sFmt q.word))).getLsbD i) := by
  refine ⟨_, sfaRun_lands c q T (r := (_, 0)) h (by decide) (by decide) rfl rfl, fun i => ?_⟩
  have hle := sWidth_le (sFmt q.word)
  rw [BitVec.getLsbD_ofNat, sFloat_signBit, Nat.testBit_mod_two_pow]
  by_cases hi : i < sWidth (sFmt q.word) - 1
  · rw [decide_eq_true hi, decide_eq_true (by omega : i < 64)]
    rfl
  · rw [decide_eq_false hi, Bool.false_and, Bool.false_and, Bool.and_false]

/-- NEG turns the sign over. -/
theorem sfaRun_neg (h : sFunc q.word = 11) : ∃ v : BitVec 64, T.scalarLands (sfaRun c q T) q c 2 v 0 ∧
    ∀ i, v.getLsbD i = (((T.sreg T.active (sSs1 q.word)).setWidth (sWidth (sFmt q.word))).getLsbD i ^^
      decide (i = sWidth (sFmt q.word) - 1)) := by
  refine ⟨_, sfaRun_lands c q T (r := (_, 0)) h (by decide) (by decide) rfl rfl, fun i => ?_⟩
  have hle := sWidth_le (sFmt q.word)
  have hpos := sWidth_pos (sFmt q.word)
  generalize hx : (T.sreg T.active (sSs1 q.word)).setWidth (sWidth (sFmt q.word)) = x
  have hlt : x.toNat < 2 ^ (sWidth (sFmt q.word) - 1 + 1) := by
    rw [Nat.sub_add_cancel hpos]
    exact x.isLt
  rw [BitVec.getLsbD_ofNat, sFloat_signBit, flipTop_testBit hlt]
  by_cases hi : i < 64
  · rw [decide_eq_true hi, Bool.true_and]
    rfl
  · rw [decide_eq_false hi, Bool.false_and, decide_eq_false (by omega), Bool.xor_false,
      BitVec.getLsbD_of_ge _ _ (by omega)]

/-- SCVT to an integer: rounded once, or an end of the range with INVALID. -/
theorem scvtRun_toInt_fin (h : sFunc q.word = 0) {n : Bool} {m : Nat} {e : Int}
    (hdec : (sFloat (bits q.word 19 16)).decode
      ((T.sreg T.active (sSs1 q.word)).setWidth (sWidth (bits q.word 19 16))).toNat = .fin n m e) :
    let N := sWidth (sFmt q.word)
    ∃ k : Nat, (sRm q.word).rounds n k 1 (m * 2 ^ e) ∧
      let v : Int := if n then -(k : Int) else k
      (-(2 : Int) ^ (N - 1) ≤ v → v < 2 ^ (N - 1) → ∃ cut : Bool, (cut = true ↔ (k : ℝ) ≠ m * 2 ^ e) ∧
        T.scalarLands (scvtRun c q T) q c 3 (BitVec.ofInt 64 v) (flagIf cut fInexact)) ∧
      ((2 : Int) ^ (N - 1) ≤ v → T.scalarLands (scvtRun c q T) q c 3 (BitVec.ofInt 64 (2 ^ (N - 1) - 1)) fInvalid) ∧
      (v < -(2 : Int) ^ (N - 1) → T.scalarLands (scvtRun c q T) q c 3 (BitVec.ofInt 64 (-(2 : Int) ^ (N - 1))) fInvalid)
      := by
  intro N
  have hN : 0 < N := sWidth_pos _
  obtain ⟨k, cut, hrounds, hcut, hval⟩ := fpToInt_fin (N := N) (rm := sRm q.word) hdec
  have hlands := scvtRun_toInt c q T h
  dsimp only at hlands
  rw [hval] at hlands
  have hone := Nat.one_le_two_pow (n := N - 1)
  have hmost : ((2 ^ (N - 1) - 1 : Nat) : Int) = 2 ^ (N - 1) - 1 := by push_cast [hone]; rfl
  have hleast : ((2 ^ (N - 1) : Nat) : Int) = 2 ^ (N - 1) := by push_cast; rfl
  rw [hmost, hleast] at hlands
  refine ⟨k, hrounds, fun hlow hhigh => ⟨cut, hcut, ?_⟩, fun hhigh => ?_, fun hlow => ?_⟩
  · rw [if_neg (by omega), if_neg (by omega)] at hlands
    dsimp only at hlands
    rwa [sExtend_ofSigned hlow hhigh hN] at hlands
  · rw [if_pos (by omega)] at hlands
    dsimp only at hlands
    rwa [sExtend_top hN] at hlands
  · have hpos : (0 : Int) < 2 ^ (N - 1) := by positivity
    rw [if_neg (by omega), if_pos hlow] at hlands
    dsimp only at hlands
    rwa [sExtend_bottom hN] at hlands

end

/-! ## The first NaN, infinities -/

variable {f : Fmt} {rm : Rm} {a b z : FVal} {n g : Bool} {p : Nat}

theorem addVal_nan (h : [a, b].find? FVal.isNan = some (.nan n g p)) :
    addVal f rm a b = (f.nanCode n p, flagIf (a.isSnan || b.isSnan) fInvalid) := by
  rw [addVal, nanResult_first h]
  simp

/-- Where b is no NaN, the first NaN of the two is a, whatever b's sign. -/
theorem subVal_nan (h : [a, b].find? FVal.isNan = some (.nan n g p)) :
    subVal f rm a b = (f.nanCode n p, flagIf (a.isSnan || b.isSnan) fInvalid) := by
  unfold subVal
  split
  · exact addVal_nan h
  · rw [← withSign_isSnan b (!b.neg?)]
    refine addVal_nan (g := g) ?_
    simp_all [List.find?_cons, withSign_isNan]

theorem mulVal_nan (h : [a, b].find? FVal.isNan = some (.nan n g p)) :
    mulVal f rm a b = (f.nanCode n p, flagIf (a.isSnan || b.isSnan) fInvalid) := by
  rw [mulVal, nanResult_first h]
  simp

theorem divVal_nan (h : [a, b].find? FVal.isNan = some (.nan n g p)) :
    divVal f rm a b = (f.nanCode n p, flagIf (a.isSnan || b.isSnan) fInvalid) := by
  rw [divVal, nanResult_first h]
  simp

theorem maxminVal_nan (h : [a, b].find? FVal.isNan = some (.nan n g p)) (isMax : Bool) :
    maxminVal f isMax a b = (f.nanCode n p, flagIf (a.isSnan || b.isSnan) fInvalid) := by
  rw [maxminVal, nanResult_first h]
  simp

theorem fmaVal_nan (h : [a, b, z].find? FVal.isNan = some (.nan n g p)) :
    fmaVal f rm a b z = (f.nanCode n p, flagIf (a.isSnan || b.isSnan || z.isSnan) fInvalid) := by
  rw [fmaVal, fmaNan, nanResult_first h]
  simp [Bool.or_assoc]

theorem addVal_infs (f : Fmt) (rm : Rm) (m n : Bool) :
    addVal f rm (.inf m) (.inf n) = if m = n then (f.infCode m, 0) else (f.canonNan, fInvalid) := by
  cases m <;> cases n <;> rfl

end Sys2Proof.Machine

namespace Sys2Proof
open Sys2Proof.Machine

/-- Settles O1: the issue is one shared operation; each function's value is that of the integer operations, or one
rounding of the exact result. -/
theorem scalarUnitComputesItsResult : Obligations.ScalarUnitComputesItsResult := by
  refine ⟨?_, ?_, ?_, ?_⟩
  · intro d t c s q rest s1 T
    refine ⟨fun hturn h => ?_, fun hturn h => ?_, fun hturn h => ?_, fun hturn h => ?_, fun hturn h => ?_,
      fun hturn h => ?_⟩
    · exact (State.execHead_turn hturn _ : execSia d t c s = _).trans (by rw [State.siaIssue, State.scalTry_run h])
    · exact (State.execHead_turn hturn _ : execSfa d t c s = _).trans (by rw [State.sfaIssue, State.scalTry_run h])
    · exact (State.execHead_turn hturn _ : execScmp d t c s = _).trans (by rw [State.scmpIssue, State.scalTry_run h])
    · exact (State.execHead_turn hturn _ : execSicmp d t c s = _).trans (by
        rw [State.sicmpIssue, State.scalTry_run h])
    · exact (State.execHead_turn hturn _ : execScvt d t c s = _).trans (by rw [State.scvtIssue, State.scalTry_run h])
    · exact (State.execHead_turn hturn _ : execSli d t c s = _).trans (by rw [State.sliIssue, State.scalTry_run h])
  · intro c q T w fn N f x y a b lands float
    refine ⟨siaRun_lands c q T, sicmpRun_lands c q T, fun h => ?_, fun h => ?_, fun h => ?_, fun h => ?_, fun h => ?_,
      fun h => ?_, ?_, ?_, sfaRun_abs c q T, sfaRun_neg c q T, scmpRun_lands c q T, ⟨?_, scvtRun_ofInt c q T,
      scvtRun_float c q T⟩, sliRun_lands c q T⟩
    · exact sfaRun_lands c q T h (by decide) (by decide) rfl rfl
    · exact sfaRun_lands c q T h (by decide) (by decide) rfl rfl
    · exact sfaRun_lands c q T h (by decide) (by decide) rfl rfl
    · exact sfaRun_lands c q T h (by decide) (by decide) rfl rfl
    · have hl := sfaRun_long_lands c q T (.inl h)
      dsimp only at hl
      rwa [if_pos h] at hl
    · have hl := sfaRun_long_lands c q T (.inr h)
      dsimp only at hl
      have hne : sFunc q.word ≠ 4 := fun h4 => absurd (h4.symm.trans h) (by decide)
      rwa [if_neg hne] at hl
    · rintro (h | h)
      · exact sfaRun_lands c q T h (by decide) (by decide) rfl (by rw [show fn = 6 from h]; rfl)
      · exact sfaRun_lands c q T h (by decide) (by decide) rfl (by rw [show fn = 7 from h]; rfl)
    · rintro (h | h)
      · exact sfaRun_lands c q T h (by decide) (by decide) rfl (by rw [show fn = 8 from h]; rfl)
      · exact sfaRun_lands c q T h (by decide) (by decide) rfl (by rw [show fn = 9 from h]; rfl)
    · exact fun h n m e hdec => scvtRun_toInt_fin c q T h hdec
  · intro f hf rm a b z x y u ha hb hz zero sumSign
    have hs : f.sound := Fmt.sound_of_mem (List.mem_append_left [e4m3, e5m2, e2m1] hf)
    have hneg := withSign_is hb
    refine ⟨addVal_gives hs ha hb, addVal_zero ha hb, fun h => ?_, fun h => ?_, mulVal_gives hs ha hb,
      mulVal_zero ha hb, fmaVal_gives hs ha hb hz, fmaVal_zero ha hb hz, divVal_gives hs rm ha hb, divVal_zero ha hb,
      divVal_by_zero ha hb, divVal_zeros ha hb, sqrtVal_gives hs rm ha, sqrtVal_zero ha, sqrtVal_negative ha,
      ofVal_gives hs ha, fun h => ?_, fun h => ?_, cmpFlag_says ha hb⟩
    · rw [subVal_is hb, sub_eq_add_neg]
      exact addVal_gives hs ha hneg (by rwa [← sub_eq_add_neg])
    · rw [subVal_is hb, addVal_zero ha hneg (by rwa [← sub_eq_add_neg]), withSign_neg?]
      rfl
    · rw [maxminVal_is hb ha, maxminVal_is hb ha, ltZ_of_lt ha hb h]
      exact ⟨rfl, rfl⟩
    · rw [maxminVal_is hb ha, maxminVal_is hb ha, ltZ_of_gt ha hb h]
      exact ⟨rfl, rfl⟩
  · intro f rm a b
    refine ⟨fun n g p h => ⟨addVal_nan h, subVal_nan h, mulVal_nan h, divVal_nan h, maxminVal_nan h true,
      maxminVal_nan h false⟩, fun z n g p h => fmaVal_nan h, addVal_infs f rm, fun m n e => ⟨rfl, rfl, rfl, rfl⟩⟩

end Sys2Proof
end

section
/-! What the vector engine puts in hand for each lane: a run of sources of one width, and what each function gives
there (R102 to R109, R112). -/
namespace Sys2Proof.Machine

/-! ## Sources of one width -/

/-- A source is a scalar or a group of g registers in lanes of W bits. -/
def VSrc.fits (W g : Nat) (x : VSrc) : Prop := (∃ n, x = .scal n) ∨ ∃ b, x = .grp ⟨b, g⟩ W

theorem vec2_fits (T : Tile) (w : BitVec 64) (W g : Nat) : (vec2 T w W g).fits W g := by
  unfold vec2 VSrc.fits
  split <;> simp

theorem vec2_elem (T : Tile) (w : BitVec 64) (W g c cc wide e : Nat) : (vec2 T w W g).elem T c cc wide e =
    if vSsrc w then (T.sreg T.active (vVs2 w)).toNat % 2 ^ W else T.elemAt c cc (vVs2 w) W wide e := by
  unfold vec2
  split <;> rfl

theorem foldl_max_fits {W g : Nat} {srcs : List VSrc} (h : ∀ x ∈ srcs, x.fits W g) :
    (srcs.map VSrc.width).foldl max W = W := by
  induction srcs with
  | nil => rfl
  | cons x l ih =>
    rw [List.map_cons, List.foldl_cons]
    have hx : max W x.width = W := by
      rcases h x List.mem_cons_self with ⟨n, rfl⟩ | ⟨b, rfl⟩
      · exact Nat.max_zero W
      · exact Nat.max_self W
    rw [hx, ih (fun y hy => h y (List.mem_cons_of_mem _ hy))]

theorem effLen_fits {W g vl : Nat} {srcs : List VSrc} (h : ∀ x ∈ srcs, x.fits W g) :
    effLen vl (vlmax W g :: srcs.flatMap VSrc.max) = min vl (vlmax W g) := by
  have hall : ∀ y ∈ srcs.flatMap VSrc.max, y = vlmax W g := by
    intro y hy
    obtain ⟨x, hx, hxy⟩ := List.mem_flatMap.1 hy
    rcases h x hx with ⟨n, rfl⟩ | ⟨b, rfl⟩
    · simp [VSrc.max] at hxy
    · simpa [VSrc.max] using hxy
  rw [effLen, List.foldl_cons]
  generalize srcs.flatMap VSrc.max = l at hall
  induction l with
  | nil => rfl
  | cons y l ih =>
    rw [List.foldl_cons, hall y List.mem_cons_self, Nat.min_assoc, Nat.min_self]
    exact ih (fun z hz => hall z (List.mem_cons_of_mem _ hz))

theorem VSrc.fits.width {W g : Nat} {x : VSrc} (h : x.fits W g) (hw : laneWidth W) :
    (x.width = 0 ∨ x.width = W) ∧ (x.width = 0 → ∃ n, x = .scal n) := by
  rcases h with ⟨n, rfl⟩ | ⟨b, rfl⟩
  · exact ⟨.inl rfl, fun _ => ⟨n, rfl⟩⟩
  · refine ⟨.inr rfl, fun h0 => ?_⟩
    obtain rfl : W = 0 := h0
    exact absurd hw (by unfold laneWidth; omega)

variable {T : Tile} {q : QEntry} {c lat cc : Nat}

/-- Results for VD: what val gives for each active element below the effective length (R112). -/
def Tile.puts (T T' : Tile) (q : QEntry) (c lat cc dg W wide : Nat) (val : Nat → Nat × FpFlags) : Prop :=
  let m := T.mask (vMsk q.word)
  let len := min T.cur.vl (vlmax W dg)
  T.lanes T' q c lat cc (vVd q.word) dg W wide len (activeIn q.word m)
    (writeOf q.word m len (fun e => (val e).1)) (fun e => ((val e).2, 0))

theorem vecMap_puts {srcs : List VSrc} {W g : Nat} {f : List Nat → Nat × FpFlags} {val : Nat → Nat × FpFlags}
    (hw : laneWidth W) (hfit : ∀ x ∈ srcs, x.fits W g)
    (hval : ∀ e, f (srcs.map (VSrc.elem T c cc W e)) = val e) :
    T.puts (T.vecMap c q lat cc srcs ⟨vVd q.word, g⟩ W f) q c lat cc g W W val := by
  obtain rfl : (fun e => f (srcs.map (VSrc.elem T c cc W e))) = val := funext hval
  exact vecElem_lanes T q c lat cc srcs ⟨vVd q.word, g⟩ _ hw
    (fun x hx => ((hfit x hx).width hw).1.imp_right (fun (h : x.width = W) => by rwa [h])) W _
    (foldl_max_fits hfit).symm (fun x hx => ((hfit x hx).width hw).2) (effLen_fits hfit).symm

theorem vecCmp_puts {srcs : List VSrc} {W g dst : Nat} {f : List Nat → Bool × FpFlags}
    {val : Nat → Bool × FpFlags} (hw : laneWidth W) (hfit : ∀ x ∈ srcs, x.fits W g)
    (hval : ∀ e, f (srcs.map (VSrc.elem T c 1 W e)) = val e) :
    T.bitLanes (T.vecCmp c q lat srcs dst W g f) q c lat dst W (min T.cur.vl (vlmax W g))
      (activeIn q.word (T.mask (vMsk q.word))) val := by
  obtain rfl : (fun e => f (srcs.map (VSrc.elem T c 1 W e))) = val := funext hval
  exact vecCmp_bits T q c lat srcs dst g f hw (fun x hx => ((hfit x hx).width hw).1)
    (fun x hx => ((hfit x hx).width hw).2) _ (effLen_fits hfit).symm

/-! ## Float functions -/

theorem fmt_slowCc {fmt : Nat} (h : fmt < 4) :
    slowCc fmt = if fmtWidth fmt = 64 then 4 else if fmtWidth fmt = 32 then 2 else 1 := by
  interval_cases fmt <;> rfl

theorem fmt_fmaLat {fmt : Nat} (h : fmt < 4) :
    fmaLat fmt = if fmtWidth fmt = 64 then 9 else if fmtWidth fmt = 32 then 7 else 6 := by
  interval_cases fmt <;> rfl

/-- A latency that depends on the format depends on its width. -/
theorem fmt_latency {fmt : Nat} (h : fmt < 4) (a b e : Nat) :
    (if fmt = 0 then a else if fmt = 1 then b else e) =
      if fmtWidth fmt = 64 then a else if fmtWidth fmt = 32 then b else e := by
  interval_cases fmt <;> rfl

theorem fmtWidth_of {fmt : Nat} {f : Fmt} (h : fmtOf fmt = some f) : fmtWidth fmt = f.width := by
  rw [fmtWidth, h]
  rfl

/-- The sources of a VFA that is not widening: only those that its function uses. -/
def vfaSrcs (T : Tile) (w : BitVec 64) (W g : Nat) (u : Uses) : List VSrc :=
  [.grp ⟨vVs1 w, g⟩ W] ++ (if u.vs2 then [vec2 T w W g] else []) ++ (if u.vs3 then [.grp ⟨vVs3 w, g⟩ W] else [])

theorem vfaSrcs_fits (T : Tile) (w : BitVec 64) (W g : Nat) (u : Uses) : ∀ x ∈ vfaSrcs T w W g u, x.fits W g := by
  have h2 := vec2_fits T w W g
  unfold vfaSrcs
  cases u.vs2 <;> cases u.vs3 <;> simp [VSrc.fits] <;> exact h2

theorem vfaRun_plain {f : Fmt} (hf : fmtOf (vFmt q.word) = some f) (h13 : vFunc q.word ≠ 13) :
    vfaRun c q T = T.vecMap c q (if vFunc q.word ≤ 5 then fmaLat (vFmt q.word) else 4) 1
      (vfaSrcs T q.word f.width (vGrp q.word) (vfaUses (vFunc q.word))) ⟨vVd q.word, vGrp q.word⟩ f.width
      (fun l => faOp (vFunc q.word) f (vRm q.word) (l.getD 0 0) (l.getD 1 0) (l.getD 2 0)) := by
  have hne : (vFunc q.word == 13) = false := by simpa using h13
  unfold vfaRun vfaSrcs
  simp only [hf, hne, Bool.false_eq_true, if_false]

/-- A VFA that does not use a source gives the same whatever stands there. -/
theorem vfaSrcs_value {fn : Nat} (hfn : fn < 13) (T : Tile) (w : BitVec 64) (W g c e : Nat) (f : Fmt) (rm : Rm) :
    let l := (vfaSrcs T w W g (vfaUses fn)).map (VSrc.elem T c 1 W e)
    faOp fn f rm (l.getD 0 0) (l.getD 1 0) (l.getD 2 0) =
      faOp fn f rm (T.elemAt c 1 (vVs1 w) W W e) ((vec2 T w W g).elem T c 1 W e) (T.elemAt c 1 (vVs3 w) W W e) := by
  interval_cases fn <;> rfl

theorem vfaRun_puts {f : Fmt} (hf : fmtOf (vFmt q.word) = some f) (hfmt : vFmt q.word < 4)
    (hfn : vFunc q.word < 13) :
    let w := q.word
    let N := fmtWidth (vFmt w)
    T.puts (vfaRun c q T) q c (if 5 < vFunc w then 4 else if N = 64 then 9 else if N = 32 then 7 else 6) 1 (vGrp w) N N
      (fun e => faOp (vFunc w) f (vRm w) (T.elemAt c 1 (vVs1 w) N N e)
        (if vSsrc w then (T.sreg T.active (vVs2 w)).toNat % 2 ^ N else T.elemAt c 1 (vVs2 w) N N e)
        (T.elemAt c 1 (vVs3 w) N N e)) := by
  intro w N
  have hlat : (if 5 < vFunc w then 4 else if N = 64 then 9 else if N = 32 then 7 else 6) =
      if vFunc w ≤ 5 then fmaLat (vFmt w) else 4 := by
    rw [fmt_fmaLat hfmt]
    by_cases h : vFunc w ≤ 5
    · rw [if_pos h, if_neg (by omega)]
    · rw [if_neg h, if_pos (by omega)]
  have hN : N = f.width := fmtWidth_of hf
  rw [hlat, vfaRun_plain hf hfn.ne, ← hN]
  refine vecMap_puts (fmtWidth_laneWidth (hfmt.trans (by decide))) (vfaSrcs_fits T w N _ _) fun e => ?_
  exact (vfaSrcs_value hfn T w N (vGrp w) c e f (vRm w)).trans (by rw [vec2_elem])

/-- The widening fused sum reads half-width elements with full-width ones. -/
theorem vfaRun_wide_puts {f : Fmt} (hf : fmtOf (vFmt q.word) = some f) (hfn : vFunc q.word = 13)
    (hN : fmtWidth (vFmt q.word) = 16) :
    let w := q.word
    T.puts (vfaRun c q T) q c 7 1 (2 * vGrp w) 32 32 (fun e => fmaVal fp32 (vRm w)
        (f.decode (T.elemAt c 1 (vVs1 w) 16 32 e))
        (f.decode (if vSsrc w then (T.sreg T.active (vVs2 w)).toNat % 2 ^ 16 else T.elemAt c 1 (vVs2 w) 16 32 e))
        (fp32.decode (T.elemAt c 1 (vVs3 w) 32 32 e))) := by
  intro w
  have hrun : vfaRun c q T = T.vecMap c q 7 1 [.grp ⟨vVs1 w, vGrp w⟩ 16, vec2 T w 16 (vGrp w),
      .grp ⟨vVs3 w, 2 * vGrp w⟩ 32] ⟨vVd w, 2 * vGrp w⟩ 32 (fun l => fmaVal fp32 (vRm w) (f.decode (l.getD 0 0))
        (f.decode (l.getD 1 0)) (fp32.decode (l.getD 2 0))) := by
    have hw : f.width = 16 := (fmtWidth_of hf).symm.trans hN
    unfold vfaRun
    simp only [hf, hfn, hw]
    rfl
  have hval : (fun e => fmaVal fp32 (vRm w) (f.decode (T.elemAt c 1 (vVs1 w) 16 32 e))
        (f.decode (if vSsrc w then (T.sreg T.active (vVs2 w)).toNat % 2 ^ 16 else T.elemAt c 1 (vVs2 w) 16 32 e))
        (fp32.decode (T.elemAt c 1 (vVs3 w) 32 32 e))) = fun e => (fun l : List Nat => fmaVal fp32 (vRm w)
          (f.decode (l.getD 0 0)) (f.decode (l.getD 1 0)) (fp32.decode (l.getD 2 0)))
          (([.grp ⟨vVs1 w, vGrp w⟩ 16, vec2 T w 16 (vGrp w), .grp ⟨vVs3 w, 2 * vGrp w⟩ 32] : List VSrc).map
            (VSrc.elem T c 1 32 e)) := by
    funext e
    rw [← vec2_elem T w 16 (vGrp w)]
    rfl
  have hmax : vlmax 16 (vGrp w) = vlmax 32 (2 * vGrp w) := by
    show 4096 / 16 * vGrp w = 4096 / 32 * (2 * vGrp w)
    generalize vGrp w = g
    omega
  rw [hrun, hval]
  rcases vec2_fits T w 16 (vGrp w) with ⟨n, h2⟩ | ⟨b, h2⟩ <;> rw [h2]
  all_goals
    refine vecElem_lanes T q c 7 1 _ ⟨vVd w, 2 * vGrp w⟩ _ (by unfold laneWidth; decide) ?_ 32 _ rfl ?_ ?_
    · simp [VSrc.width, laneWidth]
    · simp [VSrc.width]
    · simp [effLen, VSrc.max, hmax]

/-- What VFD gives on the codes x and y (R103, R124). -/
def vfdValue (fn : Nat) (f : Fmt) (rm : Rm) (fmt x y : Nat) : Nat × FpFlags :=
  match fn with
  | 0 => divVal f rm (f.decode x) (f.decode y)
  | 1 => sqrtVal f rm (f.decode x)
  | 2 => divVal f rm (if (f.decode x).isNan then f.decode x else f.decode (oneCode f)) (f.decode x)
  | _ => tEval .rsqrt fmt x

theorem vfdRun_eq {f : Fmt} (hf : fmtOf (vFmt q.word) = some f) : vfdRun c q T =
    T.vecMap c q (if vFmt q.word = 0 then 28 else if vFmt q.word = 1 then 14 else 10) (slowCc (vFmt q.word))
      (.grp ⟨vVs1 q.word, vGrp q.word⟩ f.width ::
        (if vFunc q.word = 0 then [vec2 T q.word f.width (vGrp q.word)] else []))
      ⟨vVd q.word, vGrp q.word⟩ f.width
      (fun l => vfdValue (vFunc q.word) f (vRm q.word) (vFmt q.word) (l.getD 0 0) (l.getD 1 0)) := by
  unfold vfdRun
  simp only [hf]
  congr 1
  funext l
  match vFunc q.word with
  | 0 => rfl
  | 1 => rfl
  | 2 =>
    show (if (f.decode (l.getD 0 0)).isNan then _ else _) =
      divVal f _ (if (f.decode (l.getD 0 0)).isNan then _ else _) _
    split <;> rfl
  | n + 3 => rfl

/-- Division, roots and reciprocals. -/
theorem vfdRun_puts {f : Fmt} (hf : fmtOf (vFmt q.word) = some f) (hfmt : vFmt q.word < 4) :
    let w := q.word
    let N := fmtWidth (vFmt w)
    let cc := if N = 64 then 4 else if N = 32 then 2 else 1
    T.puts (vfdRun c q T) q c (if N = 64 then 28 else if N = 32 then 14 else 10) cc (vGrp w) N N (fun e =>
      vfdValue (vFunc w) f (vRm w) (vFmt w) (T.elemAt c cc (vVs1 w) N N e)
        (if vSsrc w then (T.sreg T.active (vVs2 w)).toNat % 2 ^ N else T.elemAt c cc (vVs2 w) N N e)) := by
  intro w N cc
  have hN : N = f.width := fmtWidth_of hf
  have h2 := vec2_fits T w N (vGrp w)
  rw [vfdRun_eq hf, fmt_latency hfmt, fmt_slowCc hfmt, ← hN]
  refine vecMap_puts (fmtWidth_laneWidth (hfmt.trans (by decide))) ?_ fun e => ?_
  · intro y hy
    rcases List.mem_cons.1 hy with rfl | hy
    · exact .inr ⟨_, rfl⟩
    · split at hy
      · exact List.mem_singleton.1 hy ▸ h2
      · cases hy
  · rw [← vec2_elem T w N (vGrp w)]
    by_cases h0 : vFunc w = 0
    · rw [if_pos h0]
      rfl
    · rw [if_neg h0]
      obtain ⟨n, hn⟩ := Nat.exists_eq_succ_of_ne_zero h0
      rw [hn]
      match n with
      | 0 => rfl
      | 1 => rfl
      | n + 2 => rfl

theorem vtrRun_puts (hfmt : vFmt q.word < 4) :
    let w := q.word
    let N := fmtWidth (vFmt w)
    let cc := if N = 64 then 4 else if N = 32 then 2 else 1
    T.puts (vtrRun c q T) q c (if N = 64 then 40 else if N = 32 then 20 else 12) cc (vGrp w) N N (fun e =>
      tEval (tFunOf (vFunc w)) (vFmt w) (T.elemAt c cc (vVs1 w) N N e)) := by
  intro w N cc
  have hrun : vtrRun c q T = T.vecMap c q (if N = 64 then 40 else if N = 32 then 20 else 12) cc
      [.grp ⟨vVs1 w, vGrp w⟩ N] ⟨vVd w, vGrp w⟩ N (fun l => tEval (tFunOf (vFunc w)) (vFmt w) (l.getD 0 0)) := by
    have hcc : slowCc (vFmt w) = cc := fmt_slowCc hfmt
    rw [← fmt_latency hfmt, ← hcc]
    rfl
  rw [hrun]
  exact vecMap_puts (fmtWidth_laneWidth (hfmt.trans (by decide))) (fun y hy => .inr ⟨_, List.mem_singleton.1 hy⟩)
    fun e => rfl

theorem pair_fits (T : Tile) (w : BitVec 64) (W g : Nat) : ∀ x ∈ [.grp ⟨vVs1 w, g⟩ W, vec2 T w W g], x.fits W g := by
  have h2 := vec2_fits T w W g
  intro y hy
  rcases List.mem_cons.1 hy with rfl | hy
  · exact .inr ⟨_, rfl⟩
  · exact List.mem_singleton.1 hy ▸ h2

theorem vcmpRun_puts {f : Fmt} (hf : fmtOf (vFmt q.word) = some f) (hfmt : vFmt q.word < 4) :
    let w := q.word
    let N := fmtWidth (vFmt w)
    T.bitLanes (vcmpRun c q T) q c 4 (bits w 49 47) N (min T.cur.vl (vlmax N (vGrp w)))
      (activeIn w (T.mask (vMsk w))) (fun e => cmpFlag (cmpOf (vFunc w)) (f.decode (T.elemAt c 1 (vVs1 w) N N e))
        (f.decode (if vSsrc w then (T.sreg T.active (vVs2 w)).toNat % 2 ^ N else T.elemAt c 1 (vVs2 w) N N e))) := by
  intro w N
  have hN : N = f.width := fmtWidth_of hf
  unfold vcmpRun
  simp only [hf]
  rw [← hN]
  refine vecCmp_puts (fmtWidth_laneWidth (hfmt.trans (by decide))) (pair_fits T w N (vGrp w)) fun e => ?_
  rw [← vec2_elem T w N (vGrp w)]
  rfl

/-! ## Integer functions -/

theorem intWidth_laneWidth {fmt : Nat} (h : fmt < 4) : laneWidth (intWidth fmt) := by
  unfold laneWidth
  interval_cases fmt <;> decide

theorem elemAt_word (T : Tile) (c cc base W wide e : Nat) :
    (BitVec.ofNat W (T.elemAt c cc base W wide e)).toNat = T.elemAt c cc base W wide e := by
  rw [BitVec.toNat_ofNat, Tile.elemAt, Nat.mod_mod]

/-- The second source of an integer function in lane e. -/
def Tile.lane2 (T : Tile) (w : BitVec 64) (c W e : Nat) : Nat :=
  if vSsrc w then (T.sreg T.active (vVs2 w)).toNat % 2 ^ W else T.elemAt c 1 (vVs2 w) W W e

theorem lane2_word (T : Tile) (w : BitVec 64) (c W e : Nat) :
    (BitVec.ofNat W (T.lane2 w c W e)).toNat = T.lane2 w c W e := by
  unfold Tile.lane2
  split
  · rw [BitVec.toNat_ofNat, Nat.mod_mod]
  · exact elemAt_word T c 1 _ W W e

theorem viaRun_puts (hfmt : vFmt q.word < 4) :
    let w := q.word
    let I := intWidth (vFmt w)
    T.puts (viaRun c q T) q c (if vFunc w = 2 then 6 else 3) 1 (vGrp w) I I (fun e =>
      ((intWord (vFunc w) (BitVec.ofNat I (T.elemAt c 1 (vVs1 w) I I e)) (BitVec.ofNat I (T.lane2 w c I e))).toNat,
        0)) := by
  intro w I
  refine vecMap_puts (intWidth_laneWidth hfmt) (pair_fits T w I (vGrp w)) fun e => ?_
  rw [← intOp_eq, elemAt_word, lane2_word, Tile.lane2, ← vec2_elem T w I (vGrp w)]
  rfl

theorem vicmpRun_puts (hfmt : vFmt q.word < 4) :
    let w := q.word
    let I := intWidth (vFmt w)
    T.bitLanes (vicmpRun c q T) q c 3 (bits w 49 47) I (min T.cur.vl (vlmax I (vGrp w)))
      (activeIn w (T.mask (vMsk w))) (fun e => (intTest (vFunc w) (BitVec.ofNat I (T.elemAt c 1 (vVs1 w) I I e))
        (BitVec.ofNat I (T.lane2 w c I e)), 0)) := by
  intro w I
  refine vecCmp_puts (intWidth_laneWidth hfmt) (pair_fits T w I (vGrp w)) fun e => ?_
  rw [← intCmp_eq, elemAt_word, lane2_word, Tile.lane2, ← vec2_elem T w I (vGrp w)]
  rfl

end Sys2Proof.Machine
end

section
/-! The vector engine's masks, conversions and permutations, and its issue (R102 to R112). -/
namespace Sys2Proof.Machine

variable {T : Tile} {q : QEntry} {c : Nat}

/-! ## Masks -/

/-- The mask functions, bit by bit (R106). -/
def maskBit (fn : Nat) (a b : Bool) : Bool :=
  match fn with
  | 0 => a && b
  | 1 => a || b
  | 2 => a ^^ b
  | 3 => a && !b
  | _ => !a

theorem maskLogic_bit (fn : Nat) (a b : BitVec 4096) {e : Nat} (he : e < 4096) :
    (maskLogic fn a b).getLsbD e = maskBit fn (a.getLsbD e) (b.getLsbD e) := by
  have hnot (x : BitVec 4096) : (~~~x).getLsbD e = !x.getLsbD e := by
    rw [BitVec.getLsbD_not, decide_eq_true he, Bool.true_and]
  match fn with
  | 0 => exact BitVec.getLsbD_and
  | 1 => exact BitVec.getLsbD_or
  | 2 => exact BitVec.getLsbD_xor
  | 3 => exact BitVec.getLsbD_and.trans (congrArg (a.getLsbD e && ·) (hnot b))
  | n + 4 => exact hnot a

theorem vmaskRun_logic (hvl : 0 < T.cur.vl) (hfn : vFunc q.word ≤ 4) : ∃ k v : BitVec 4096,
    (⟨c + 2, q.count.toNat, .mreg (vVd q.word % 8) k v⟩ : Pend) ∈ (vmaskRun c q T).pend ∧
    ∀ e < 4096, k.getLsbD e = decide (e < T.cur.vl) ∧ (e < T.cur.vl → v.getLsbD e = maskBit (vFunc q.word)
      ((T.mask (vVs1 q.word % 8)).getLsbD e) ((T.mask (vVs2 q.word % 8)).getLsbD e)) := by
  have hrun : vmaskRun c q T = (T.addPend q.count (c + 2) (.mreg (vVd q.word % 8) (BitVec.ofNat 4096 (2 ^ T.cur.vl - 1))
      (maskLogic (vFunc q.word) (T.mask (vVs1 q.word % 8)) (T.mask (vVs2 q.word % 8))))).vecBusy q c 1 (c + 2) 0 0 :=
    (if_neg hvl.ne').trans (if_pos hfn)
  rw [hrun]
  refine ⟨_, _, Tile.mem_vecBusy_of_mem (Tile.mem_addPend _ _ _ _) _ _ _ _ _ _, fun e he => ⟨?_, fun _ =>
    maskLogic_bit _ _ _ he⟩⟩
  rw [BitVec.getLsbD_ofNat, Nat.testBit_two_pow_sub_one, decide_eq_true he, Bool.true_and]

/-- The number of VMASK's POPC and FFS. -/
theorem vmaskRun_number (hvl : 0 < T.cur.vl) (hfn : ¬ vFunc q.word ≤ 4) :
    let a := T.mask (vVs1 q.word % 8)
    let n := if vFunc q.word = 5 then popCount a T.cur.vl
      else if lowestBit a T.cur.vl < T.cur.vl then lowestBit a T.cur.vl else 0xFFFFFFFF
    (⟨c + 4, q.count.toNat, .sreg T.active (vVd q.word) (BitVec.ofNat 64 n)⟩ : Pend) ∈ (vmaskRun c q T).pend := by
  have hrun : vmaskRun c q T = _ := (if_neg hvl.ne').trans (if_neg hfn)
  rw [hrun]
  exact Tile.mem_vecBusy_of_mem (Tile.mem_addPend _ _ _ _) _ _ _ _ _ _

theorem vmaskRun_popc (hvl : 0 < T.cur.vl) (hfn : vFunc q.word = 5) :
    (⟨c + 4, q.count.toNat, .sreg T.active (vVd q.word)
      (BitVec.ofNat 64 ((List.range T.cur.vl).countP (fun e => (T.mask (vVs1 q.word % 8)).getLsbD e)))⟩ : Pend) ∈
        (vmaskRun c q T).pend := by
  have hnum := vmaskRun_number (c := c) hvl (by rw [hfn]; decide)
  dsimp only at hnum
  rwa [if_pos hfn] at hnum

/-- The lowest bit that is set, or none below the length. -/
theorem lowestBit_spec (a : BitVec 4096) (vl : Nat) :
    let n := if lowestBit a vl < vl then lowestBit a vl else 0xFFFFFFFF
    n < vl ∧ a.getLsbD n = true ∧ (∀ e < n, a.getLsbD e = false) ∨ n = 0xFFFFFFFF ∧ ∀ e < vl, a.getLsbD e = false := by
  unfold lowestBit
  rcases h : (List.range vl).find? (fun i => a.getLsbD i) with _ | n
  · right
    rw [Option.getD_none, if_neg (lt_irrefl vl)]
    refine ⟨rfl, fun e he => ?_⟩
    have hnone := List.find?_eq_none.1 h e (List.mem_range.2 he)
    exact Bool.eq_false_iff.2 hnone
  · left
    rw [List.find?_range_eq_some] at h
    obtain ⟨hbit, hmem, hbelow⟩ := h
    have hlt : n < vl := List.mem_range.1 hmem
    rw [Option.getD_some, if_pos hlt]
    exact ⟨hlt, hbit, fun e he => by simpa using hbelow e he⟩

theorem vmaskRun_ffs (hvl : 0 < T.cur.vl) (hfn : vFunc q.word = 6) :
    let a := T.mask (vVs1 q.word % 8)
    ∃ n, (⟨c + 4, q.count.toNat, .sreg T.active (vVd q.word) (BitVec.ofNat 64 n)⟩ : Pend) ∈ (vmaskRun c q T).pend ∧
      (n < T.cur.vl ∧ a.getLsbD n = true ∧ (∀ e < n, a.getLsbD e = false) ∨
        n = 0xFFFFFFFF ∧ ∀ e < T.cur.vl, a.getLsbD e = false) := by
  have hnum := vmaskRun_number (c := c) hvl (by rw [hfn]; decide)
  dsimp only at hnum
  rw [if_neg (by rw [hfn]; decide)] at hnum
  exact ⟨_, hnum, lowestBit_spec _ _⟩

/-! ## Conversions -/

theorem fmtOf_lt {fmt : Nat} {f : Fmt} (h : fmtOf fmt = some f) : fmt < 7 := by
  by_contra hlt
  obtain ⟨n, rfl⟩ : ∃ n, fmt = n + 7 := ⟨fmt - 7, by omega⟩
  cases h

theorem vcvtRun_lanes {fs fd : Fmt} (hs : fmtOf (bits q.word 35 32) = some fs) (hd : fmtOf (vFmt q.word) = some fd) :
    let w := q.word
    let W := fs.width
    let N := fmtWidth (vFmt w)
    let dg := cvtGroup W N (vGrp w)
    let len := min T.cur.vl (min (vlmax N dg) (vlmax W (vGrp w)))
    let val (e : Nat) := convVal fd (.dir (vRm w)) (satOf T.cur.cvt.ctrl (vFmt w))
      (fs.decode (T.elemAt c 1 (vVs1 w) W (max N W) e))
    T.lanes (vcvtRun c q T) q c 5 1 (vVd w) dg N (max N W) len (activeIn w (T.mask (vMsk w)))
      (writeOf w (T.mask (vMsk w)) len (fun e => (val e).1)) (fun e => (val e).2) := by
  intro w W N dg len val
  have hN : laneWidth N := fmtWidth_laneWidth (fmtOf_lt hd)
  have hW : laneWidth W := by
    have h := fmtWidth_laneWidth (fmtOf_lt hs)
    rw [fmtWidth_of hs] at h
    exact h
  have hne : fmtWidth (vFmt q.word) ≠ 0 := by
    change N ≠ 0
    unfold laneWidth at hN
    omega
  have hrun : vcvtRun c q T = T.vecElem c q 5 1 [.grp ⟨vVs1 w, vGrp w⟩ W] ⟨vVd w, dg⟩ N (fun l =>
      convVal fd (.dir (vRm w)) (satOf T.cur.cvt.ctrl (vFmt w)) (fs.decode (l.getD 0 0))) := by
    unfold vcvtRun
    simp only [hs, hd, if_neg hne, fmtWidth_of hs]
    rfl
  rw [hrun]
  refine vecElem_lanes T q c 5 1 _ ⟨vVd w, dg⟩ _ hN ?_ _ len rfl ?_ (Nat.min_assoc _ _ _).symm
  · intro y hy
    exact .inr (List.mem_singleton.1 hy ▸ hW)
  · intro y hy h0
    rw [List.mem_singleton.1 hy] at h0
    obtain hW0 : W = 0 := h0
    unfold laneWidth at hW
    omega

/-! ## Permutations -/

theorem writeOf_congr {w : BitVec 64} {m : BitVec 4096} {len : Nat} {f g : Nat → Nat}
    (h : ∀ e < len, f e = g e) : writeOf w m len f = writeOf w m len g := by
  funext e
  unfold writeOf
  by_cases he : len ≤ e
  · rw [if_pos he, if_pos he]
  · rw [if_neg he, if_neg he, h e (Nat.lt_of_not_le he)]

theorem Tile.group_getD {W : Nat} (hW : laneWidth W) (T : Tile) (c base g e : Nat) (he : e < vlmax W g) :
    (T.groupAt c 1 base g W W).toArray.getD e 0 = T.elemAt c 1 base W W e := by
  rw [toArray_getD, groupAt_getD T hW hW le_rfl c 1 base g e he]

theorem activeBelow_le (w : BitVec 64) (m : BitVec 4096) (e : Nat) : activeBelow w m e ≤ e := by
  have h := List.countP_le_length (p := fun i => activeIn w m i) (l := List.range e)
  rwa [List.length_range] at h

/-- The elements that a permutation writes, by its function (R109). -/
def permPicks (T : Tile) (c : Nat) (w : BitVec 64) (fn N g len : Nat) : Nat → Option Nat :=
  let m := T.mask (vMsk w)
  let act := activeIn w m
  let top := vlmax N g
  let s2 := (T.sreg T.active (vVs2 w)).toNat
  let x (e : Nat) : Nat := T.elemAt c 1 (vVs1 w) N N e
  match fn with
  | 0 => fun e => if len ≤ e then none else match ((List.range len).filter act)[e]? with
      | some j => some (x j)
      | none => if vMz w then some 0 else none
  | 1 => writeOf w m len (fun e => x ((List.range e).countP act))
  | 2 => fun e => if e < s2 then none else writeOf w m len (fun e => x (e - s2)) e
  | 3 => writeOf w m len (fun e => if top ≤ e + s2 then 0 else x (e + s2))
  | 4 => writeOf w m len (fun e => if top ≤ T.lane2 w c N e then 0 else x (T.lane2 w c N e))
  | 5 => writeOf w m len (fun e => e)
  | _ => writeOf w m len (fun _ => (T.sreg T.active (vVs1 w)).toNat % 2 ^ N)

/-- COMPRESS gives element e the e-th of those picked. -/
theorem packed_value {l : List Nat} (read x : Nat → Nat) (h : ∀ j ∈ l, read j = x j) (rest : Option Nat) (e : Nat) :
    (if e < (l.map read).toArray.size then some ((l.map read).toArray.getD e 0) else rest) =
      match l[e]? with
      | some j => some (x j)
      | none => rest := by
  rw [List.size_toArray, List.length_map, toArray_getD, List.getD_eq_getElem?_getD, List.getElem?_map]
  rcases hl : l[e]? with _ | j
  · rw [if_neg (Nat.not_lt.2 (List.getElem?_eq_none_iff.1 hl))]
  · rw [if_pos (List.getElem?_eq_some_iff.1 hl).1, Option.map_some, Option.getD_some, h j (List.mem_of_getElem? hl)]

/-- The writes of the model's permutations. -/
theorem permWrite_eq {N : Nat} (hN : laneWidth N) (T : Tile) (c : Nat) (w : BitVec 64) (fn : Nat) {g len : Nat}
    (hlen : len ≤ vlmax N g) : permWrite T c w fn N g len = permPicks T c w fn N g len := by
  have hgroup (e : Nat) (he : e < vlmax N g) :
      (T.groupAt c 1 (vVs1 w) g N N).toArray.getD e 0 = T.elemAt c 1 (vVs1 w) N N e := T.group_getD hN c _ g e he
  match fn with
  | 0 =>
    funext e
    show (if len ≤ e then none else _) = if len ≤ e then none else _
    split
    · rfl
    · exact packed_value _ _ (fun j hj => hgroup j ((List.mem_range.1 (List.mem_filter.1 hj).1).trans_le hlen)) _ e
  | 1 =>
    exact writeOf_congr fun e he => hgroup _ (((activeBelow_le w _ e).trans_lt he).trans_le hlen)
  | 2 =>
    funext e
    show (if e < _ then none else _) = if e < _ then none else _
    split
    · rfl
    · exact congrFun (writeOf_congr fun e he => hgroup _ ((Nat.sub_le e _).trans_lt (he.trans_le hlen))) e
  | 3 =>
    refine writeOf_congr fun e he => ?_
    split
    · rfl
    · next h => exact hgroup _ (Nat.lt_of_not_le h)
  | 4 =>
    refine writeOf_congr fun e he => ?_
    have hix : (vec2 T w N g).at ((vec2 T w N g).codes T c 1 N) e = T.lane2 w c N e := by
      unfold vec2 Tile.lane2
      split
      · rfl
      · exact T.group_getD hN c _ g e (he.trans_le hlen)
    dsimp only
    rw [hix]
    split
    · rfl
    · next h => exact hgroup _ (Nat.lt_of_not_le h)
  | 5 => rfl
  | n + 6 => rfl

theorem permPicks_none (T : Tile) (c : Nat) (w : BitVec 64) (fn N g e : Nat) : permPicks T c w fn N g 0 e = none := by
  unfold permPicks
  dsimp only
  split <;> simp [writeOf]

/-- A permutation puts in hand what its function picks; with no element to write it only lets the engine rest. -/
theorem vpermRun_picks {k : Nat} (hfmt : vFmt q.word < 6) (hk : vFunc q.word = k) (hfn : k < 7) :
    let w := q.word
    let N := fmtWidth (vFmt w)
    let g := vGrp w
    let len := min T.cur.vl (vlmax N g)
    T.lanes (vpermRun c q T) q c (if vFunc w ≤ 4 then 8 + chunksOf N len else 3) 1 (vVd w) g N N len
      (activeIn w (T.mask (vMsk w))) (permPicks T c w k N g len) (fun _ => (0, 0)) := by
  subst hk
  intro w N g len
  have hN : laneWidth N := fmtWidth_laneWidth (hfmt.trans (by decide))
  have hle : len ≤ vlmax N g := Nat.min_le_right _ _
  by_cases h0 : len = 0
  · have hrun : vpermRun c q T = T.vecIdle c := if_pos h0
    rw [hrun, h0]
    exact lanes_of_idle T (T.vecIdle c) rfl q c _ 1 _ g N N _ _ (permPicks_none T c w _ N g) _
  · have hrun : vpermRun c q T = (T.putGroup q.count c (if vFunc w ≤ 4 then 8 + chunksOf N len else 3) 1 (vVd w) g N N
        (permWrite T c w (vFunc w) N g len)).vecBusy q c (chunksOf N len)
          (c + (if vFunc w ≤ 4 then 8 + chunksOf N len else 3) + chunksOf N len - 2) 0 0 :=
      (if_neg h0).trans ((if_neg (Nat.ne_of_lt hfn)).trans (if_neg (Nat.ne_of_lt (hfn.trans (by decide)))))
    rw [hrun, permWrite_eq hN T c w _ hle]
    have h := lanes_of_putGroup T q hN hN le_rfl c (if vFunc w ≤ 4 then 8 + chunksOf N len else 3) 1 (vVd w) g len
      (chunksOf N len) 0 (activeIn w (T.mask (vMsk w))) (permPicks T c w (vFunc w) N g len) 0 (fun _ => (0, 0))
      (by simp) (by simp)
    rw [one_mul, mul_one] at h
    exact h

/-- INSERT writes its one element (log entry 145). -/
theorem vpermRun_insert (hfmt : vFmt q.word < 6) (hfn : vFunc q.word = 8) :
    let w := q.word
    let N := fmtWidth (vFmt w)
    let g := vGrp w
    let len := min T.cur.vl (vlmax N g)
    0 < len → T.lanes (vpermRun c q T) q c (if vFunc w ≤ 4 then 8 + chunksOf N len else 3) 1 (vVd w) g N N len
      (activeIn w (T.mask (vMsk w)))
      (fun e => if e = (T.sreg T.active (vVs2 w)).toNat then some ((T.sreg T.active (vVs1 w)).toNat % 2 ^ N) else none)
      (fun _ => (0, 0)) := by
  intro w N g len h0
  have hN : laneWidth N := fmtWidth_laneWidth (hfmt.trans (by decide))
  have hrun : vpermRun c q T = _ := (if_neg h0.ne').trans ((if_neg (by rw [hfn]; decide)).trans (if_pos hfn))
  rw [hrun, if_neg (show ¬ vFunc q.word ≤ 4 by rw [hfn]; decide)]
  have h := lanes_of_putGroup T q hN hN le_rfl c 3 1 (vVd w) g len (chunksOf N len) 0
    (activeIn w (T.mask (vMsk w))) (fun e => if e = (T.sreg T.active (vVs2 w)).toNat then
      some ((T.sreg T.active (vVs1 w)).toNat % 2 ^ N) else none) 0 (fun _ => (0, 0)) (by simp) (by simp)
  rw [one_mul, mul_one] at h
  exact h

/-- EXTRACT reads its one element (log entry 144). -/
theorem vpermRun_extract (hfmt : vFmt q.word < 6) (hfn : vFunc q.word = 7) :
    let w := q.word
    let N := fmtWidth (vFmt w)
    let s2 := (T.sreg T.active (vVs2 w)).toNat
    0 < min T.cur.vl (vlmax N (vGrp w)) → (⟨c + 4, q.count.toNat, .sreg T.active (vVd w)
      (BitVec.ofNat 64 (if vlmax N (vGrp w) ≤ s2 then 0 else T.elemAt c 1 (vVs1 w) N N s2))⟩ : Pend) ∈
        (vpermRun c q T).pend := by
  intro w N s2 h0
  have hN : laneWidth N := fmtWidth_laneWidth (hfmt.trans (by decide))
  have hrun : vpermRun c q T = _ := (if_neg h0.ne').trans (if_pos hfn)
  have hval : (if vlmax N (vGrp w) ≤ s2 then 0 else T.elemAt c 1 (vVs1 w) N N s2) =
      if vlmax N (vGrp w) ≤ s2 then 0 else (T.groupAt c 1 (vVs1 w) (vGrp w) N N).getD s2 0 := by
    split
    · rfl
    · next h => exact (groupAt_getD T hN hN le_rfl c 1 _ _ _ (Nat.lt_of_not_le h)).symm
  rw [hrun, hval]
  exact Tile.mem_vecBusy_of_mem (Tile.mem_addPend _ _ _ _) _ _ _ _ _ _

end Sys2Proof.Machine
end

section
/-! The vector engine's functions on numbers and on their bits, and at the special inputs (R48 to R51, R103, R124). -/
namespace Sys2Proof.Machine

/-! ## Numbers -/

theorem oneCode_is {f : Fmt} (h : f ∈ [fp64, fp32, bf16, fp16]) : (f.decode (oneCode f)).is 1 := by
  simp only [List.mem_cons, List.not_mem_nil, or_false] at h
  rcases h with rfl | rfl | rfl | rfl
  · exact ⟨false, 2 ^ 52, -52, by decide +kernel, by norm_num⟩
  · exact ⟨false, 2 ^ 23, -23, by decide +kernel, by norm_num⟩
  · exact ⟨false, 2 ^ 7, -7, by decide +kernel, by norm_num⟩
  · exact ⟨false, 2 ^ 10, -10, by decide +kernel, by norm_num⟩

variable {f : Fmt} {rm : Rm} {x y z : Nat} {r s u : ℝ}

/-- FMS and FNMA are fused sums with a sign turned over, rounded once. -/
theorem faOp_fms (hf : f.sound) (ha : (f.decode x).is r) (hb : (f.decode y).is s) (hd : (f.decode z).is u)
    (h : r * s - u ≠ 0) : f.gives rm (r * s - u) (faOp 4 f rm x y z) := by
  obtain ⟨heq, hnum⟩ := fmaNan_num (f := f) (rm := rm) ha hb (withSign_is hd) (plain_three ha hb hd)
  rw [sub_eq_add_neg] at h ⊢
  show f.gives rm _ (fmaNan f rm _ _ _ _)
  rw [heq]
  exact Fmt.roundDyad_gives hf rm _ hnum h

theorem faOp_fnma (hf : f.sound) (ha : (f.decode x).is r) (hb : (f.decode y).is s) (hd : (f.decode z).is u)
    (h : u - r * s ≠ 0) : f.gives rm (u - r * s) (faOp 5 f rm x y z) := by
  obtain ⟨heq, hnum⟩ := fmaNan_num (f := f) (rm := rm) (withSign_is ha) hb hd (plain_three ha hb hd)
  rw [show u - r * s = -r * s + u by ring] at h ⊢
  show f.gives rm _ (fmaNan f rm _ _ _ _)
  rw [heq]
  exact Fmt.roundDyad_gives hf rm _ hnum h

/-! ## Signs -/

/-- The sign of what a code says is its top bit. -/
theorem decode_neg? (f : Fmt) (x : Nat) : (f.decode x).neg? = x.testBit (f.ebits + f.fbits) := by
  have hbit : ((x >>> (f.ebits + f.fbits)) % 2 == 1) = x.testBit (f.ebits + f.fbits) := by
    rw [Nat.testBit, Nat.and_comm, Nat.and_one_is_mod]
    rcases Nat.mod_two_eq_zero_or_one (x >>> (f.ebits + f.fbits)) with h | h <;> rw [h] <;> rfl
  rw [← hbit, Fmt.decode]
  split
  · rfl
  · split
    · split <;> rfl
    · split <;> rfl

theorem top_iff {i : Nat} : i + 1 = f.width ↔ i = f.ebits + f.fbits := by
  unfold Fmt.width
  omega

theorem faOp_abs_bit {i : Nat} (hi : i < f.width) :
    (faOp 10 f rm x y z).1.testBit i = (!decide (i + 1 = f.width) && x.testBit i) := by
  show (x % 2 ^ (f.ebits + f.fbits)).testBit i = _
  rw [Nat.testBit_mod_two_pow]
  simp only [top_iff]
  have hlt : i < f.ebits + f.fbits ↔ ¬ i = f.ebits + f.fbits := by
    unfold Fmt.width at hi
    omega
  simp [hlt]

theorem faOp_neg_bit {i : Nat} (hx : x < 2 ^ f.width) :
    (faOp 11 f rm x y z).1.testBit i = (decide (i + 1 = f.width) ^^ x.testBit i) := by
  show (if 2 ^ (f.ebits + f.fbits) ≤ x then x - 2 ^ (f.ebits + f.fbits) else x + 2 ^ (f.ebits + f.fbits)).testBit i = _
  have hx' : x < 2 ^ (f.ebits + f.fbits + 1) := by
    unfold Fmt.width at hx
    rwa [show f.ebits + f.fbits + 1 = 1 + f.ebits + f.fbits by omega]
  rw [flipTop_testBit hx', Bool.xor_comm]
  simp only [top_iff]

theorem faOp_copysign_bit {i : Nat} (hi : i < f.width) :
    (faOp 12 f rm x y z).1.testBit i = if i + 1 = f.width then y.testBit i else x.testBit i := by
  show (x % 2 ^ (f.ebits + f.fbits) + f.signBit (f.decode y).neg?).testBit i = _
  have hlow : x % 2 ^ (f.ebits + f.fbits) < 2 ^ (f.ebits + f.fbits) := Nat.mod_lt _ (by positivity)
  have hlt : i < f.ebits + f.fbits ↔ ¬ i = f.ebits + f.fbits := by
    unfold Fmt.width at hi
    omega
  rw [decode_neg?, Fmt.signBit]
  simp only [top_iff]
  cases hy : y.testBit (f.ebits + f.fbits)
  · rw [if_neg Bool.false_ne_true, Nat.add_zero, Nat.testBit_mod_two_pow]
    by_cases h : i = f.ebits + f.fbits
    · simp [h, hy]
    · simp [h, hlt.2 h]
  · rw [if_pos rfl, Nat.add_comm, two_pow_add_testBit hlow, Nat.testBit_mod_two_pow]
    by_cases h : i = f.ebits + f.fbits
    · simp [h, hy]
    · simp [h, hlt.2 h]

/-! ## Special inputs -/

section
variable {fmt : Nat} {m : Nat} {n : Bool} {e : Int}

/-- Infinities (R125). -/
theorem tEval_inf (hf : fmtOf fmt = some f) (h : f.decode x = .inf n) :
    tEval .exp fmt x = (if n then (f.signBit false, 0) else (f.infCode false, 0)) ∧
    tEval .log fmt x = (if n then (f.canonNan, fInvalid) else (f.infCode false, 0)) ∧
    tEval .sin fmt x = (f.canonNan, fInvalid) ∧ tEval .cos fmt x = (f.canonNan, fInvalid) ∧
    tEval .tanh fmt x = (f.signBit n + oneCode f, 0) ∧
    tEval .sigmoid fmt x = (if n then (f.signBit false, 0) else (oneCode f, 0)) ∧
    tEval .rsqrt fmt x = (if n then (f.canonNan, fInvalid) else (f.signBit false, 0)) := by
  simp only [tEval, hf, h]
  cases n <;> exact ⟨rfl, rfl, rfl, rfl, rfl, rfl, rfl⟩

/-- Zeros (R125). -/
theorem tEval_zero (hf : fmtOf fmt = some f) (h : f.decode x = .fin n 0 e) :
    tEval .exp fmt x = (oneCode f, 0) ∧ tEval .log fmt x = (f.infCode true, fDivZero) ∧ tEval .sin fmt x = (x, 0) ∧
    tEval .cos fmt x = (oneCode f, 0) ∧ tEval .tanh fmt x = (x, 0) ∧ tEval .sigmoid fmt x = (halfCode f, 0) ∧
    tEval .rsqrt fmt x = (f.infCode n, fDivZero) := by
  simp only [tEval, hf, h]
  exact ⟨rfl, rfl, rfl, rfl, rfl, rfl, rfl⟩

/-- Negative numbers (R125). -/
theorem tEval_negative (hf : fmtOf fmt = some f) (h : f.decode x = .fin true m e) (hm : m ≠ 0) :
    tEval .log fmt x = (f.canonNan, fInvalid) ∧ tEval .rsqrt fmt x = (f.canonNan, fInvalid) := by
  obtain ⟨k, rfl⟩ := Nat.exists_eq_succ_of_ne_zero hm
  simp only [tEval, hf, h]
  exact ⟨rfl, rfl⟩

end

end Sys2Proof.Machine

namespace Sys2Proof
open Sys2Proof.Machine

/-- Settles O8: the issue is one shared operation; every function's sources are lanes of one width, but for the
widening fused sum and the conversions, and what it gives there is its function. -/
theorem vectorEngineComputesItsResult : Obligations.VectorEngineComputesItsResult := by
  refine ⟨?_, ?_, ?_, ?_⟩
  · intro d t c s q rest s1 T
    refine ⟨fun hturn h => ?_, fun hturn hopc h => ?_, fun hturn h => ?_, fun hturn h => ?_, fun hturn h => ?_,
      fun hturn h => ?_, fun hturn h => ?_, fun hturn h => ?_, fun hturn h => ?_, fun hturn h => ?_⟩
    · exact (State.execHead_turn hturn _ : execVsetvl d t c s = _).trans (by
        rw [State.vsetvlIssue, State.vecTry_run h])
    · exact (State.execHead_turn hturn _ : execVfa d t c s = _).trans (by
        rw [if_pos hopc, State.vfaIssue, State.vecTry_run h])
    · exact (State.execHead_turn hturn _ : execVfd d t c s = _).trans (by rw [State.vfdIssue, State.vecTry_run h])
    · exact (State.execHead_turn hturn _ : execVtr d t c s = _).trans (by rw [State.vtrIssue, State.vecTry_run h])
    · exact (State.execHead_turn hturn _ : execVia d t c s = _).trans (by rw [State.viaIssue, State.vecTry_run h])
    · exact (State.execHead_turn hturn _ : execVcmp d t c s = _).trans (by rw [State.vcmpIssue, State.vecTry_run h])
    · exact (State.execHead_turn hturn _ : execVicmp d t c s = _).trans (by
        rw [State.vicmpIssue, State.vecTry_run h])
    · exact (State.execHead_turn hturn _ : execVmask d t c s = _).trans (by
        rw [State.vmaskIssue, State.vecTry_run h])
    · exact (State.execHead_turn hturn _ : execVcvt d t c s = _).trans (by rw [State.vcvtIssue, State.vecTry_run h])
    · exact (State.execHead_turn hturn _ : execVperm d t c s = _).trans (by
        rw [State.vpermIssue, State.vecTry_run h])
  · intro c q T w fn g m act N I vl s2 src2 puts
    refine ⟨?_, ?_, ?_, ?_, ?_⟩
    · intro f hf hfmt x y cc
      refine ⟨fun hfn => vfaRun_puts hf hfmt hfn, fun hfn hN => ?_, fun _ => vfdRun_puts hf hfmt,
        fun _ => vtrRun_puts hfmt, fun _ => vcmpRun_puts hf hfmt⟩
      have hwide := vfaRun_wide_puts (c := c) (T := T) hf hfn hN
      rw [← hN] at hwide
      exact hwide
    · intro hfmt x y
      exact ⟨fun _ => viaRun_puts hfmt, fun _ => vicmpRun_puts hfmt⟩
    · intro hvl _ a b
      exact ⟨vmaskRun_logic hvl, vmaskRun_popc hvl, vmaskRun_ffs hvl⟩
    · exact fun fs fd hs hd => vcvtRun_lanes hs hd
    · intro hfmt len top x s1 picks
      exact ⟨fun h => vpermRun_picks hfmt h (by decide), fun h => vpermRun_picks hfmt h (by decide),
        fun h => vpermRun_picks hfmt h (by decide), fun h => vpermRun_picks hfmt h (by decide),
        fun h => vpermRun_picks hfmt h (by decide), fun h => vpermRun_picks hfmt h (by decide),
        fun h => vpermRun_picks hfmt h (by decide), vpermRun_extract hfmt, vpermRun_insert hfmt⟩
  · intro f hmem rm x y z a b d
    have hs : f.sound := Fmt.sound_of_mem (List.mem_append_left [e4m3, e5m2, e2m1] hmem)
    refine ⟨rfl, rfl, rfl, rfl, rfl, rfl, rfl, rfl, fun r s u ha hb hd => ⟨faOp_fms hs ha hb hd,
      faOp_fnma hs ha hb hd, fun hr => divVal_gives hs rm (oneCode_is hmem) ha one_ne_zero hr⟩, ?_⟩
    exact fun hx _ i hi => ⟨faOp_abs_bit hi, faOp_neg_bit hx, faOp_copysign_bit hi⟩
  · intro fmt _ f hf x m n e zero inf bad one
    exact ⟨tEval_inf hf, tEval_zero hf, tEval_negative hf⟩

end Sys2Proof
end

section
/-! Which candidate a MAX, MIN or integer reduction keeps: the comparison is that of a strict order, so a fold keeps
one that none beats (R122). -/
namespace Sys2Proof.Machine

/-! ## The order of numbers with signed zeros -/

/-- Where a value that is no NaN lies: the infinities at the ends, −0 directly below +0. -/
noncomputable def FVal.rank (v : FVal) : EReal ×ₗ ℕ :=
  toLex (match v with
    | .inf true => ⊥
    | .inf false => ⊤
    | .fin n m e => (((if n then -1 else 1) * (m * 2 ^ e) : ℝ) : EReal)
    | .nan _ _ _ => 0, if v.isZero && v.neg? then 0 else 1)

theorem FVal.is.rank {v : FVal} {x : ℝ} (h : v.is x) :
    v.rank = toLex ((x : EReal), if v.isZero && v.neg? then 0 else 1) := by
  obtain ⟨n, m, e, rfl, rfl⟩ := h
  rfl

theorem FVal.is.isZero {v : FVal} {x : ℝ} (h : v.is x) : v.isZero = true ↔ x = 0 := by
  obtain ⟨n, m, e, rfl, -⟩ := id h
  rw [← h.zeroMag]
  cases m <;> simp [FVal.isZero]

theorem fin_is (n : Bool) (m : Nat) (e : Int) :
    (FVal.fin n m e).is ((if n then -1 else 1) * (m * 2 ^ e)) := ⟨n, m, e, rfl, rfl⟩

/-- The comparison of two numbers, zeros by their sign. -/
theorem ltZ_is {a b : FVal} {x y : ℝ} (ha : a.is x) (hb : b.is y) :
    ltZ a b = true ↔ x < y ∨ x = 0 ∧ y = 0 ∧ a.neg? = true ∧ b.neg? = false := by
  obtain ⟨hlt, heq, hgt⟩ := cmpVal_is ha hb
  rw [ltZ]
  rcases lt_trichotomy x y with h | h | h
  · simp [hlt.2 h, h]
  · subst h
    simp only [heq.2 rfl, lt_irrefl, false_or, Bool.and_eq_true, ha.isZero, hb.isZero, Bool.not_eq_true']
    tauto
  · simp only [hgt.2 h, Bool.false_eq_true, false_iff]
    rintro (h' | ⟨hx, hy, -⟩)
    · exact lt_asymm h h'
    · rw [hx, hy] at h
      exact lt_irrefl _ h

theorem ltZ_rank_is {a b : FVal} {x y : ℝ} (ha : a.is x) (hb : b.is y) : ltZ a b = true ↔ a.rank < b.rank := by
  rw [ltZ_is ha hb, ha.rank, hb.rank, Prod.Lex.toLex_lt_toLex, EReal.coe_lt_coe_iff, EReal.coe_eq_coe_iff]
  refine or_congr_right' fun hxy => ?_
  constructor
  · rintro ⟨hx, hy, hna, hnb⟩
    simp [ha.isZero.2 hx, hb.isZero.2 hy, hx, hy, hna, hnb]
  · rintro ⟨rfl, hlt⟩
    by_cases hx : x = 0
    · simp only [ha.isZero.2 hx, hb.isZero.2 hx, Bool.true_and] at hlt
      cases hna : a.neg? <;> cases hnb : b.neg? <;> simp_all
    · have hza : a.isZero = false := Bool.eq_false_iff.2 fun h => hx (ha.isZero.1 h)
      have hzb : b.isZero = false := Bool.eq_false_iff.2 fun h => hx (hb.isZero.1 h)
      simp [hza, hzb] at hlt

/-- One value comes before another where it ranks lower. -/
theorem ltZ_rank {a b : FVal} (ha : a.isNan = false) (hb : b.isNan = false) :
    ltZ a b = true ↔ a.rank < b.rank := by
  cases a with
  | nan => cases ha
  | inf m =>
    cases b with
    | nan => cases hb
    | inf n => cases m <;> cases n <;> simp [ltZ, cmpVal, FVal.rank, FVal.isZero, Prod.Lex.toLex_lt_toLex]
    | fin n k e => cases m <;> simp [ltZ, cmpVal, FVal.rank, FVal.isZero, Prod.Lex.toLex_lt_toLex, EReal.bot_lt_coe]
  | fin m j d =>
    cases b with
    | nan => cases hb
    | inf n => cases n <;> simp [ltZ, cmpVal, FVal.rank, FVal.isZero, Prod.Lex.toLex_lt_toLex, EReal.coe_lt_top]
    | fin n k e =>
      exact ltZ_rank_is (fin_is m j d) (fin_is n k e)

/-! ## The candidates' order -/

theorem candWins_nan {isMax : Bool} {a b : Cand} (ha : a.v.isNan = true) :
    candWins isMax a b = true ↔ b.v.isNan = true ∧ b.i < a.i := by
  rw [candWins, if_pos ha]
  simp

theorem candWins_over_number {isMax : Bool} {a b : Cand} (ha : a.v.isNan = false) (hb : b.v.isNan = true) :
    candWins isMax a b = true := by
  rw [candWins, if_neg (by rw [ha]; decide), if_pos hb]

/-- Among numbers the higher rank wins, for MIN the lower one, and of one rank the lower index. -/
theorem candWins_number {isMax : Bool} {a b : Cand} (ha : a.v.isNan = false) (hb : b.v.isNan = false) :
    candWins isMax a b = true ↔ (if isMax then a.v.rank < b.v.rank else b.v.rank < a.v.rank) ∨
      a.v.rank = b.v.rank ∧ b.i < a.i := by
  rw [candWins, if_neg (by rw [ha]; decide), if_neg (by rw [hb]; decide)]
  rw [Bool.eq_iff_iff.2 ((ltZ_rank ha hb).trans decide_eq_true_iff.symm),
    Bool.eq_iff_iff.2 ((ltZ_rank hb ha).trans decide_eq_true_iff.symm)]
  rcases lt_trichotomy a.v.rank b.v.rank with h | h | h
  · cases isMax <;> simp [h, h.ne, h.not_gt]
  · cases isMax <;> simp [h]
  · cases isMax <;> simp [h, h.ne', h.not_gt]

theorem candWins_irrefl (isMax : Bool) (a : Cand) : candWins isMax a a = false := by
  refine Bool.eq_false_iff.2 fun h => ?_
  cases ha : a.v.isNan
  · rcases (candWins_number ha ha).1 h with h | ⟨-, h⟩
    · split at h <;> exact lt_irrefl _ h
    · exact lt_irrefl _ h
  · exact lt_irrefl _ ((candWins_nan ha).1 h).2

/-- Beating is transitive: NaNs stand before numbers, and either kind is ordered. -/
theorem candWins_trans {isMax : Bool} {a b c : Cand} (hab : candWins isMax a b = true)
    (hbc : candWins isMax b c = true) :
    candWins isMax a c = true := by
  cases ha : a.v.isNan
  · cases hc : c.v.isNan
    · cases hb : b.v.isNan
      · rw [candWins_number ha hb] at hab
        rw [candWins_number hb hc] at hbc
        rw [candWins_number ha hc]
        rcases hab with hab | ⟨hab, hi⟩ <;> rcases hbc with hbc | ⟨hbc, hj⟩
        · left
          cases isMax
          · exact lt_trans hbc hab
          · exact lt_trans hab hbc
        · exact .inl (hbc ▸ hab)
        · exact .inl (hab ▸ hbc)
        · exact .inr ⟨hab.trans hbc, hj.trans hi⟩
      · exact absurd ((candWins_nan hb).1 hbc).1 (by rw [hc]; decide)
    · exact candWins_over_number ha hc
  · obtain ⟨hb, hi⟩ := (candWins_nan ha).1 hab
    obtain ⟨hc, hj⟩ := (candWins_nan hb).1 hbc
    exact (candWins_nan ha).2 ⟨hc, hj.trans hi⟩

/-! ## What a fold keeps -/

/-- The candidate kept so far, or the next one where it wins. -/
def keepBest {α : Type} (wins : α → α → Bool) (acc : Option α) (b : α) : Option α :=
  some (match acc with
    | none => b
    | some a => if wins a b then b else a)

/-- A fold of a strict order keeps a candidate that none beats; it is the first one or beats it. -/
theorem keepBest_foldl {α : Type} {wins : α → α → Bool} (hirr : ∀ a, wins a a = false)
    (htrans : ∀ a b c, wins a b = true → wins b c = true → wins a c = true) (l : List α) (a : α) :
    ∃ x ∈ a :: l, l.foldl (keepBest wins) (some a) = some x ∧ (x = a ∨ wins a x = true) ∧
      ∀ y ∈ a :: l, wins x y = false := by
  induction l generalizing a with
  | nil => exact ⟨a, List.mem_singleton_self a, rfl, .inl rfl, fun y hy => List.mem_singleton.1 hy ▸ hirr a⟩
  | cons b l ih =>
    obtain ⟨x, hx, hfold, hfirst, hbest⟩ := ih (if wins a b then b else a)
    have hkept := hbest _ List.mem_cons_self
    have hrest : ∀ y ∈ l, wins x y = false := fun y hy => hbest y (List.mem_cons_of_mem _ hy)
    cases hab : wins a b <;> simp only [hab, Bool.false_eq_true, if_false, if_true] at hx hfirst hkept
    · refine ⟨x, ?_, hfold, hfirst, ?_⟩
      · rcases List.mem_cons.1 hx with rfl | hx <;> simp [*]
      · have hxb : wins x b = false := Bool.eq_false_iff.2 fun h => by
          rcases hfirst with rfl | hax
          · exact absurd (hab.symm.trans h) (by decide)
          · exact absurd (hab.symm.trans (htrans a x b hax h)) (by decide)
        simpa [hkept, hxb] using hrest
    · refine ⟨x, List.mem_cons_of_mem _ hx, hfold, .inr ?_, ?_⟩
      · rcases hfirst with rfl | hbx
        · exact hab
        · exact htrans a b x hab hbx
      · have hxa : wins x a = false := Bool.eq_false_iff.2 fun h =>
          absurd (hkept.symm.trans (htrans x a b h hab)) (by decide)
        simpa [hkept, hxa] using hrest

theorem keepBest_fold {α : Type} {wins : α → α → Bool} (hirr : ∀ a, wins a a = false)
    (htrans : ∀ a b c, wins a b = true → wins b c = true → wins a c = true) {l : List α} (hl : l ≠ []) :
    ∃ x ∈ l, l.foldl (keepBest wins) none = some x ∧ ∀ y ∈ l, wins x y = false := by
  obtain ⟨a, l, rfl⟩ := List.exists_cons_of_ne_nil hl
  obtain ⟨x, hx, hfold, -, hbest⟩ := keepBest_foldl hirr htrans l a
  exact ⟨x, hx, hfold, hbest⟩

/-- MAX or MIN keeps a candidate that none beats (R122). -/
theorem bestCand_spec (isMax : Bool) {l : List Cand} (hl : l ≠ []) :
    ∃ x ∈ l, bestCand isMax l = some x ∧ ∀ y ∈ l, candWins isMax x y = false := by
  obtain ⟨x, hx, hfold, hbest⟩ := keepBest_fold (candWins_irrefl isMax)
    (fun a b c => candWins_trans (isMax := isMax)) hl
  refine ⟨x, hx, hfold ▸ ?_, hbest⟩
  unfold bestCand
  congr 1
  funext acc b
  cases acc <;> rfl

/-- Whether integer candidate b takes the place of a (R122). -/
def intWins (isMax : Bool) (a b : Int × Nat) : Bool :=
  decide ((if isMax then a.1 < b.1 else b.1 < a.1) ∨ (a.1 = b.1 ∧ b.2 < a.2))

theorem intWins_trans {isMax : Bool} {a b c : Int × Nat} (hab : intWins isMax a b = true)
    (hbc : intWins isMax b c = true) : intWins isMax a c = true := by
  unfold intWins at *
  cases isMax <;> simp only [Bool.false_eq_true, if_false, if_true, decide_eq_true_eq] at * <;> omega

theorem bestInt_spec (isMax : Bool) {l : List (Int × Nat)} (hl : l ≠ []) :
    ∃ x ∈ l, bestInt isMax l = some x ∧ ∀ y ∈ l, intWins isMax x y = false := by
  obtain ⟨x, hx, hfold, hbest⟩ := keepBest_fold (wins := intWins isMax)
    (fun a => by cases isMax <;> simp [intWins]) (fun a b c => intWins_trans) hl
  refine ⟨x, hx, hfold ▸ ?_, hbest⟩
  unfold bestInt
  congr 1
  funext acc b
  cases acc with
  | none => rfl
  | some a => cases isMax <;> simp [keepBest, intWins]

end Sys2Proof.Machine
end

section
/-! Sums in a tree of pair additions, and what MAX and MIN give (R121, R122). -/
namespace Sys2Proof.Machine

variable {f out : Fmt} {rm : Rm}

/-! ## One rounding of a root -/

theorem ofVal_zero {v : FVal} (h : v.is 0) : (f.ofVal rm v).1 = f.signBit v.neg? := by
  obtain ⟨n, e, rfl⟩ := h.zero
  have hmag : f.roundMag rm n 0 e false = (0, false, false) := by rw [Fmt.roundMag, if_pos rfl]
  show (f.round rm n 0 e false).1 = f.signBit n
  simp [Fmt.round, hmag]

theorem firstNan_none {l : List FVal} (h : ∀ v ∈ l, v.isNan = false) : firstNan out l = none := by
  have hfind : l.find? FVal.isNan = none := List.find?_eq_none.2 fun v hv => by rw [h v hv]; decide
  rw [firstNan, hfind]

theorem dfTree_tree (join : Nat → Nat × Nat) {l : List FVal} (hl : l ≠ []) :
    SumTree dfAdd (l.map (fun v => (v, 0))) (dfTree join l) := by
  have h := treeSumAux_tree join dfAdd (.fin false 0 0, 0) (l.map (fun v => (v, (0 : FpFlags))))
    (fun hnil => hl (List.map_eq_nil_iff.1 hnil))
  rw [List.length_map] at h
  exact h

/-- A SUM of no NaN is the root of its tree, rounded once. -/
theorem sumOf_numbers (out : Fmt) (join : Nat → Nat × Nat) {l : List FVal} (h : ∀ v ∈ l, v.isNan = false)
    (hl : l ≠ []) : sumOf out join l =
      if (dfTree join l).1.isNan then (out.canonNan, fInvalid) else sumResult out (dfTree join l) (sumTerms l) := by
  rw [sumOf, firstNan_none h]
  exact if_neg (fun he => hl (List.isEmpty_iff.1 he))

theorem sumResult_code (out : Fmt) (root : FVal × FpFlags) (exact : FVal) :
    (sumResult out root exact).1 = (out.ofVal .nearest root.1).1 := rfl

/-- A root that is a number is rounded once; a zero keeps its sign. -/
theorem sumResult_number (ho : out.sound) {root : FVal × FpFlags} {x : ℝ} (hx : root.1.is x) (exact : FVal) :
    (x ≠ 0 → ∃ code fl, out.gives .nearest x (code, fl) ∧ (sumResult out root exact).1 = code) ∧
    (x = 0 → (sumResult out root exact).1 = out.signBit root.1.neg?) := by
  refine ⟨fun hne => ⟨(out.ofVal .nearest root.1).1, (out.ofVal .nearest root.1).2, ofVal_gives ho hx hne, rfl⟩,
    fun h0 => ?_⟩
  subst h0
  exact ofVal_zero hx

theorem overflow_kept (r : FpFlags) (b : Bool) :
    (((r ||| 0) &&& (fOverflow ||| fInvalid)) ||| flagIf b fInexact ||| ((0 : FpFlags) &&& fUnderflow)) &&& fOverflow =
      r &&& fOverflow := by
  have hinexact : flagIf b fInexact &&& fOverflow = 0 := by cases b <;> rfl
  have hmask : (fOverflow ||| fInvalid) &&& fOverflow = fOverflow := rfl
  have hr : r ||| 0 = r := BitVec.or_zero
  have hnone : (0 : FpFlags) &&& fUnderflow = 0 := rfl
  have hrest (x : FpFlags) : x ||| 0 = x := BitVec.or_zero
  rw [hr, hnone, hrest, BitVec.and_or_distrib_right, hinexact, hrest, BitVec.and_assoc, hmask]

theorem sumResult_inf {root : FVal × FpFlags} {n : Bool} (h : root.1 = .inf n) (exact : FVal) :
    (sumResult out root exact).1 = out.infCode n ∧
      (sumResult out root exact).2 &&& fOverflow = root.2 &&& fOverflow := by
  refine ⟨by rw [sumResult_code, h]; rfl, ?_⟩
  unfold sumResult
  simp only [h, Fmt.ofVal]
  exact overflow_kept root.2 _

/-! ## Infinities in a tree -/

theorem pairVal_nan {v : FVal} (h : v.isNan = true) : (pairVal (w72Pair v).1 (w72Pair v).2.1).isNan = true := by
  cases v with
  | nan n s p =>
    show (pairVal (BitVec.ofNat 72 fp64.canonNan) 0).isNan = true
    decide
  | _ => cases h

theorem pairVal_inf (n : Bool) : pairVal (w72Pair (.inf n)).1 (w72Pair (.inf n)).2.1 = .inf n := by
  cases n <;> decide

/-- A pair addition that meets an infinity gives it, or a NaN. -/
theorem dfAdd_infinite {x y : FVal × FpFlags} {n : Bool}
    (h : (addExact x.1 y.1).isNan = true ∨ addExact x.1 y.1 = .inf n) :
    (dfAdd x y).1.isNan = true ∨ (dfAdd x y).1 = .inf n := by
  have hz : (addExact x.1 y.1).isZero = false := by
    rcases h with h | h
    · cases hv : addExact x.1 y.1 <;> simp_all [FVal.isNan, FVal.isZero]
    · rw [h]
      rfl
  have hval : (dfAdd x y).1 = pairVal (w72Pair (addExact x.1 y.1)).1 (w72Pair (addExact x.1 y.1)).2.1 := by
    show lineAdd layPair x.1 y.1 = _
    unfold lineAdd
    dsimp only
    rw [if_neg (by decide), if_pos rfl, if_neg (by rw [hz]; decide)]
  rw [hval]
  rcases h with h | h
  · exact .inl (pairVal_nan h)
  · rw [h]
    exact .inr (pairVal_inf n)

theorem addExact_inf_left {a b : FVal} {n : Bool} (h : a.isNan = true ∨ a = .inf n) :
    (addExact a b).isNan = true ∨ addExact a b = .inf n := by
  rcases h with h | rfl
  · rw [addExact, if_pos h]
    exact .inl h
  · cases b with
    | nan m s p => exact .inl rfl
    | inf m => cases m <;> cases n <;> simp [addExact, FVal.isNan, FVal.isInf, FVal.neg?]
    | fin m k e => exact .inr rfl

theorem addExact_inf_right {a b : FVal} {n : Bool} (h : b.isNan = true ∨ b = .inf n) :
    (addExact a b).isNan = true ∨ addExact a b = .inf n := by
  cases ha : a.isNan
  · rcases h with h | rfl
    · rw [addExact, if_neg (by rw [ha]; decide), if_pos h]
      exact .inl h
    · cases a with
      | nan m s p => cases ha
      | inf m => cases m <;> cases n <;> simp [addExact, FVal.isNan, FVal.isInf, FVal.neg?]
      | fin m k e => exact .inr rfl
  · exact addExact_inf_left (.inl ha)

/-- The root of a tree with an infinity is that infinity or a NaN. -/
theorem SumTree.infinite {l : List (FVal × FpFlags)} {r : FVal × FpFlags} (h : SumTree dfAdd l r) {n : Bool}
    (hinf : ∃ p ∈ l, p.1 = .inf n) : r.1.isNan = true ∨ r.1 = .inf n := by
  induction h with
  | leaf x =>
    obtain ⟨p, hp, hval⟩ := hinf
    exact .inr (List.mem_singleton.1 hp ▸ hval)
  | node l a b x y hperm _ _ iha ihb =>
    obtain ⟨p, hp, hval⟩ := hinf
    rcases List.mem_append.1 (hperm.subset hp) with hp | hp
    · exact dfAdd_infinite (addExact_inf_left (iha ⟨p, hp, hval⟩))
    · exact dfAdd_infinite (addExact_inf_right (ihb ⟨p, hp, hval⟩))

/-- Infinities of both signs make the sum invalid. -/
theorem sumOf_infinities (out : Fmt) (join : Nat → Nat × Nat) {l : List FVal} (h : ∀ v ∈ l, v.isNan = false)
    (hpos : .inf false ∈ l) (hneg : .inf true ∈ l) : sumOf out join l = (out.canonNan, fInvalid) := by
  have hl : l ≠ [] := List.ne_nil_of_mem hpos
  have htree := dfTree_tree join hl
  have hmem (n : Bool) (hn : .inf n ∈ l) : ∃ p ∈ l.map (fun v => (v, (0 : FpFlags))), p.1 = .inf n :=
    ⟨_, List.mem_map_of_mem hn, rfl⟩
  have hnan : (dfTree join l).1.isNan = true := by
    rcases htree.infinite (hmem false hpos) with h1 | h1
    · exact h1
    · rcases htree.infinite (hmem true hneg) with h2 | h2
      · exact h2
      · exact absurd (h1.symm.trans h2) (by decide)
  rw [sumOf_numbers out join h hl, if_pos hnan]

/-! ## MAX and MIN of numbers -/

/-- What is not beaten comes first by value, and of equal values by index. -/
theorem unbeaten {isMax : Bool} {x y : Cand} (hx : x.v.isNan = false) (hy : y.v.isNan = false)
    (h : candWins isMax x y = false) :
    (if isMax then ltZ x.v y.v else ltZ y.v x.v) = false ∧
      ((if isMax then ltZ y.v x.v else ltZ x.v y.v) = false → x.i ≤ y.i) := by
  rw [candWins, if_neg (by rw [hx]; decide), if_neg (by rw [hy]; decide)] at h
  obtain ⟨hbetter, hrest⟩ := Bool.or_eq_false_iff.1 h
  refine ⟨hbetter, fun hworse => ?_⟩
  rw [hworse] at hrest
  simpa using hrest

/-- Elements in ascending order of their indices are known by them. -/
theorem eq_of_index {act : List (Nat × Nat)} (h : act.Pairwise (fun x y => x.1 < y.1)) {x y : Nat × Nat}
    (hx : x ∈ act) (hy : y ∈ act) (hxy : x.1 = y.1) : x = y := by
  obtain ⟨i, hi, rfl⟩ := List.getElem_of_mem hx
  obtain ⟨j, hj, rfl⟩ := List.getElem_of_mem hy
  have hlt := List.pairwise_iff_getElem.1 h
  rcases lt_trichotomy i j with hij | rfl | hij
  · exact absurd hxy (hlt i j hi hj hij).ne
  · rfl
  · exact absurd hxy (hlt j i hj hi hij).ne'

/-- The first NaN has the lowest index of all. -/
theorem first_index {act : List (Nat × Nat)} (h : act.Pairwise (fun x y => x.1 < y.1)) {p : Nat × Nat → Bool}
    {x y : Nat × Nat} (hx : act.find? p = some x) (hy : y ∈ act) (hpy : p y = true) : x.1 ≤ y.1 := by
  obtain ⟨-, before, behind, rfl, hbefore⟩ := List.find?_eq_some_iff_append.1 hx
  rcases List.mem_append.1 hy with hy | hy
  · exact absurd hpy (by simpa using hbefore y hy)
  · rcases List.mem_cons.1 hy with rfl | hy
    · exact le_refl _
    · exact (List.rel_of_pairwise_cons (List.pairwise_append.1 h).2.1 hy).le

end Sys2Proof.Machine
end

section
/-! What a reduction gives of its active elements, what RACC leaves in a lane and what RFOLD makes of the lanes (R121
to R123). -/
namespace Sys2Proof.Machine

variable {fmt fn : Nat} {f : Fmt}

theorem fmtOf_mem (h : fmt < 4) (hf : fmtOf fmt = some f) : f ∈ [fp64, fp32, bf16, fp16] := by
  interval_cases fmt <;> cases hf <;> decide

theorem fmtOf_sound (h : fmt < 4) (hf : fmtOf fmt = some f) : f.sound :=
  Fmt.sound_of_mem (List.mem_append_left [e4m3, e5m2, e2m1] (fmtOf_mem h hf))

theorem fp64_sound : fp64.sound := Fmt.sound_of_mem (by decide)

theorem wide_sound (h : fmt < 4) (hf : fmtOf fmt = some f) (wide : Bool) : (if wide then fp64 else f).sound := by
  cases wide
  · exact fmtOf_sound h hf
  · exact fp64_sound

/-! ## The value of RED -/

section
variable (hf : fmtOf fmt = some f) (wide : Bool) (act : List (Nat × Nat))
include hf

theorem redValue_sum : redValue 0 fmt wide act =
    let r := sumOf (if wide then fp64 else f) (Config.redJoin (act.map (fun p => 2 ^ p.1)).sum)
      (act.map (fun p => f.decode p.2))
    (BitVec.ofNat 64 r.1, 0, r.2) := by
  simp only [redValue, hf]
  rfl

/-- The candidates of MAX and MIN. -/
theorem redValue_pick (hfn : fn ∈ [1, 2]) : redValue fn fmt wide act =
    match bestCand (fn == 1) (act.map (fun p => ⟨f.decode p.2, p.1⟩)) with
    | none => (BitVec.ofNat 64 (f.infCode (fn == 1)), 0xFFFFFFFF, 0)
    | some x => (BitVec.ofNat 64 (f.ofVal .nearest x.v).1, x.i, flagIf x.v.isSnan fInvalid) := by
  simp only [List.mem_cons, List.not_mem_nil, or_false] at hfn
  rcases hfn with rfl | rfl <;> (simp only [redValue, hf]; rfl)

theorem redValue_pick_best (hfn : fn ∈ [1, 2]) {x : Cand}
    (h : bestCand (fn == 1) (act.map (fun p => ⟨f.decode p.2, p.1⟩)) = some x) :
    redValue fn fmt wide act = (BitVec.ofNat 64 (f.ofVal .nearest x.v).1, x.i, flagIf x.v.isSnan fInvalid) := by
  rw [redValue_pick hf wide act hfn, h]

theorem redValue_nan {act : List (Nat × Nat)} (hact : act.Pairwise (fun x y => x.1 < y.1)) {x : Nat × Nat}
    {n s : Bool} {p : Nat} (hx : act.find? (fun x => (f.decode x.2).isNan) = some x)
    (hval : f.decode x.2 = .nan n s p) :
    redValue 0 fmt wide act = (BitVec.ofNat 64 ((if wide then fp64 else f).nanCode n p), 0, flagIf s fInvalid) ∧
    ∀ fn ∈ [1, 2], redValue fn fmt wide act = (BitVec.ofNat 64 (f.nanCode n p), x.1, flagIf s fInvalid) := by
  have hmem := List.mem_of_find?_eq_some hx
  refine ⟨?_, fun fn hfn => ?_⟩
  · have hfirst : firstNan (if wide then fp64 else f) (act.map (fun p => f.decode p.2)) =
        some ((if wide then fp64 else f).nanCode n p, flagIf s fInvalid) := by
      have hfind : (act.map (fun p => f.decode p.2)).find? FVal.isNan = some (.nan n s p) := by
        rw [List.find?_map]
        exact (congrArg (Option.map _) hx).trans (congrArg some hval)
      rw [firstNan, hfind]
    rw [redValue_sum hf]
    simp only [sumOf, hfirst]
  · obtain ⟨z, hz, hbest, hall⟩ := bestCand_spec (fn == 1)
      (l := act.map (fun p => (⟨f.decode p.2, p.1⟩ : Cand)))
      (fun h => List.ne_nil_of_mem hmem (List.map_eq_nil_iff.1 h))
    obtain ⟨y, hy, rfl⟩ := List.mem_map.1 hz
    have hunbeaten := hall _ (List.mem_map_of_mem hmem)
    have hxnan : (f.decode x.2).isNan = true := by
      rw [hval]
      rfl
    have hynan : (f.decode y.2).isNan = true := by
      by_contra h
      exact absurd (hunbeaten.symm.trans (candWins_over_number (Bool.eq_false_iff.2 h) hxnan)) (by decide)
    have hle : y.1 ≤ x.1 := by
      by_contra h
      exact absurd (hunbeaten.symm.trans ((candWins_nan hynan).2 ⟨hxnan, Nat.lt_of_not_le h⟩)) (by decide)
    obtain rfl : x = y := eq_of_index hact hmem hy (le_antisymm (first_index hact hx hy hynan) hle)
    rw [redValue_pick_best hf wide act hfn hbest, hval]
    rfl

theorem redValue_number {act : List (Nat × Nat)} (hact : act.Pairwise (fun x y => x.1 < y.1))
    (hnum : ∀ v ∈ act.map (fun x => f.decode x.2), v.isNan = false) (hne : act ≠ []) (hfn : fn ∈ [1, 2]) :
    let before (a b : FVal) : Bool := if fn = 1 then ltZ b a else ltZ a b
    ∃ x ∈ act, redValue fn fmt wide act = (BitVec.ofNat 64 (f.ofVal .nearest (f.decode x.2)).1, x.1, 0) ∧
      ∀ y ∈ act, y = x ∨ before (f.decode x.2) (f.decode y.2) = true ∨
        before (f.decode y.2) (f.decode x.2) = false ∧ x.1 < y.1 := by
  intro before
  obtain ⟨z, hz, hbest, hall⟩ := bestCand_spec (fn == 1)
    (l := act.map (fun p => (⟨f.decode p.2, p.1⟩ : Cand))) (fun h => hne (List.map_eq_nil_iff.1 h))
  obtain ⟨x, hx, rfl⟩ := List.mem_map.1 hz
  have hxn : (f.decode x.2).isNan = false := hnum _ (List.mem_map_of_mem hx)
  refine ⟨x, hx, ?_, fun y hy => ?_⟩
  · rw [redValue_pick_best hf wide act hfn hbest, isSnan_of_not_nan hxn]
    rfl
  · have hyn : (f.decode y.2).isNan = false := hnum _ (List.mem_map_of_mem hy)
    obtain ⟨hfirst, hindex⟩ := unbeaten hxn hyn (hall _ (List.mem_map_of_mem hy))
    simp only [beq_iff_eq] at hfirst hindex
    by_cases hyx : y = x
    · exact .inl hyx
    · right
      cases hb : before (f.decode x.2) (f.decode y.2)
      · have hle := hindex hb
        exact .inr ⟨hfirst, lt_of_le_of_ne hle fun h => hyx (eq_of_index hact hx hy h).symm⟩
      · exact .inl rfl

end

end Sys2Proof.Machine
end

section
namespace Sys2Proof.Machine

/-! ## Integer reductions (R122) -/

theorem toSigned_eq (W n : Nat) : toSigned W n = (BitVec.ofNat W n).toInt := by
  rw [← toSigned_toNat, toSigned, toSigned, BitVec.toNat_ofNat, Nat.mod_mod]

theorem ofNat_ofSigned (z : Int) : BitVec.ofNat 64 (ofSigned 64 z) = BitVec.ofInt 64 z := by
  rw [ofSigned_eq, BitVec.ofNat_toNat, BitVec.setWidth_eq]

theorem intWidth_le (fmt : Nat) : intWidth fmt ≤ 64 := by
  unfold intWidth
  split <;> decide

/-- The value of an integer element: sign-extended to 64 bits. -/
def intVal (fmt : Nat) (x : Nat × Nat) : BitVec 64 := (BitVec.ofNat (intWidth fmt) x.2).signExtend 64

theorem intVal_toInt (fmt : Nat) (x : Nat × Nat) : (intVal fmt x).toInt = toSigned (intWidth fmt) x.2 := by
  rw [intVal, BitVec.toInt_signExtend_of_le (intWidth_le fmt), toSigned_eq]

theorem ofInt_toSigned (fmt : Nat) (x : Nat × Nat) : BitVec.ofInt 64 (toSigned (intWidth fmt) x.2) = intVal fmt x := by
  rw [toSigned_eq]
  rfl

theorem ofInt_sum (fmt : Nat) (act : List (Nat × Nat)) :
    BitVec.ofInt 64 ((act.map (fun p => toSigned (intWidth fmt) p.2)).sum) =
      (act.map (intVal fmt)).foldr (· + ·) 0 := by
  induction act with
  | nil => rfl
  | cons p l ih => rw [List.map_cons, List.sum_cons, List.map_cons, List.foldr_cons, BitVec.ofInt_add, ih,
      ofInt_toSigned]

theorem redValue_isum (fmt : Nat) (wide : Bool) (act : List (Nat × Nat)) :
    redValue 3 fmt wide act = ((act.map (intVal fmt)).foldr (· + ·) 0, 0, 0) := by
  have hsum : redValue 3 fmt wide act =
      (BitVec.ofNat 64 (ofSigned 64 (((act.map (fun p => (toSigned (intWidth fmt) p.2, p.1))).map (·.1)).sum)), 0, 0) :=
    rfl
  rw [hsum, ofNat_ofSigned, List.map_map]
  exact congrArg (·, 0, 0) (ofInt_sum fmt act)

/-- What no integer candidate beats. -/
theorem int_unbeaten {isMax : Bool} {x y : Int × Nat} (h : intWins isMax x y = false) :
    (if isMax then y.1 ≤ x.1 else x.1 ≤ y.1) ∧ (x.1 = y.1 → x.2 ≤ y.2) := by
  unfold intWins at h
  cases isMax <;> simp only [Bool.false_eq_true, if_false, if_true, decide_eq_false_iff_not, not_or, not_and,
    not_lt] at h ⊢ <;> exact h

theorem redValue_ipick {fn : Nat} (fmt : Nat) (wide : Bool) {act : List (Nat × Nat)}
    (hact : act.Pairwise (fun x y => x.1 < y.1)) (hne : act ≠ []) (hfn : fn ∈ [4, 5]) :
    ∃ x ∈ act, redValue fn fmt wide act = (intVal fmt x, x.1, 0) ∧
      ∀ y ∈ act, y = x ∨
        (if fn = 4 then (intVal fmt y).slt (intVal fmt x) else (intVal fmt x).slt (intVal fmt y)) = true ∨
        intVal fmt y = intVal fmt x ∧ x.1 < y.1 := by
  obtain ⟨z, hz, hbest, hall⟩ := bestInt_spec (fn == 4)
    (l := act.map (fun p => (toSigned (intWidth fmt) p.2, p.1))) (fun h => hne (List.map_eq_nil_iff.1 h))
  obtain ⟨x, hx, rfl⟩ := List.mem_map.1 hz
  refine ⟨x, hx, ?_, fun y hy => ?_⟩
  · have hval : redValue fn fmt wide act =
        (BitVec.ofNat 64 (ofSigned 64 (toSigned (intWidth fmt) x.2)), x.1, 0) := by
      simp only [List.mem_cons, List.not_mem_nil, or_false] at hfn
      rcases hfn with rfl | rfl
      · have hb : bestInt (rIsMax 4) (act.map (fun p => (toSigned (intWidth fmt) p.2, p.1))) = _ := hbest
        simp [redValue, rIsFloat, hb]
      · have hb : bestInt (rIsMax 5) (act.map (fun p => (toSigned (intWidth fmt) p.2, p.1))) = _ := hbest
        simp [redValue, rIsFloat, hb]
    rw [hval, ofNat_ofSigned, ofInt_toSigned]
  · obtain ⟨hfirst, hindex⟩ := int_unbeaten (hall _ (List.mem_map_of_mem hy))
    rw [← intVal_toInt, ← intVal_toInt] at hfirst hindex
    by_cases hyx : y = x
    · exact .inl hyx
    · right
      by_cases heq : intVal fmt y = intVal fmt x
      · have hle : x.1 ≤ y.1 := hindex (by rw [heq])
        exact .inr ⟨heq, lt_of_le_of_ne hle fun h => hyx (eq_of_index hact hx hy h).symm⟩
      · left
        have hint : (intVal fmt y).toInt ≠ (intVal fmt x).toInt := fun h => heq (BitVec.eq_of_toInt_eq h)
        simp only [beq_iff_eq] at hfirst
        split
        · next h => exact BitVec.slt_iff_toInt_lt.2 (lt_of_le_of_ne ((if_pos h).mp hfirst) hint)
        · next h => exact BitVec.slt_iff_toInt_lt.2 (lt_of_le_of_ne ((if_neg h).mp hfirst) hint.symm)

end Sys2Proof.Machine
end

section
/-! Sums of RED and RFOLD, the lanes of RACC and RCLR, and the unit's issue (R120 to R123). -/
namespace Sys2Proof.Machine

variable {fmt fn : Nat} {f out : Fmt}

/-! ## Sums -/

/-- The sum of numbers: a tree's root, rounded once. -/
theorem sumOf_finite (ho : out.sound) (join : Nat → Nat × Nat) {l : List FVal} (h : ∀ v ∈ l, ∃ x, v.is x)
    (hl : l ≠ []) : ∃ root : FVal × FpFlags, SumTree dfAdd (l.map (fun v => (v, 0))) root ∧
      (∀ x, root.1.is x →
        (x ≠ 0 → ∃ code fl, out.gives .nearest x (code, fl) ∧
          BitVec.ofNat 64 (sumOf out join l).1 = BitVec.ofNat 64 code) ∧
        (x = 0 → BitVec.ofNat 64 (sumOf out join l).1 = BitVec.ofNat 64 (out.signBit root.1.neg?))) ∧
      (∀ n, root.1 = .inf n → BitVec.ofNat 64 (sumOf out join l).1 = BitVec.ofNat 64 (out.infCode n) ∧
        (sumOf out join l).2 &&& fOverflow = root.2 &&& fOverflow) := by
  have hplain : ∀ v ∈ l, v.isNan = false := fun v hv => (h v hv).choose_spec.notNan
  refine ⟨dfTree join l, dfTree_tree join hl, fun x hx => ?_, fun n hn => ?_⟩
  · rw [sumOf_numbers out join hplain hl, if_neg (by rw [hx.notNan]; decide)]
    obtain ⟨hne, hzero⟩ := sumResult_number ho hx (sumTerms l)
    refine ⟨fun hx0 => ?_, fun hx0 => congrArg (BitVec.ofNat 64) (hzero hx0)⟩
    obtain ⟨code, fl, hgives, hcode⟩ := hne hx0
    exact ⟨code, fl, hgives, congrArg (BitVec.ofNat 64) hcode⟩
  · rw [sumOf_numbers out join hplain hl, if_neg (by rw [hn]; exact Bool.false_ne_true)]
    obtain ⟨hcode, hflag⟩ := sumResult_inf (out := out) hn (sumTerms l)
    exact ⟨congrArg (BitVec.ofNat 64) hcode, hflag⟩

/-! ## Lanes -/

theorem applyLanes_append (fn fmt base : Nat) (lanes : Table CarryLane) (act : List (Nat × Nat)) (e x : Nat) :
    applyLanes fn fmt base lanes (act ++ [(e, x)]) =
      let r := applyLanes fn fmt base lanes act
      let one := laneApply fn fmt (Table.get CarryLane.reset r.1 (e % 64)) x ((base + e) % 2 ^ 32)
      (Table.set CarryLane.reset r.1 (e % 64) one.1, r.2 ||| one.2) := by
  unfold applyLanes
  rw [List.foldl_append]
  rfl

section
variable (hf : fmtOf fmt = some f) {l : CarryLane} {code : Nat}
include hf

/-- A float element added to a lane: the exact sum as a pair (R78). -/
theorem laneApply_sum {x y : ℝ} (hl : (laneVal l).is x) (hv : (f.decode code).is y) (hne : x + y ≠ 0) (i : Nat) :
    ∃ hi lo, pairOf (x + y) hi lo ∧ ∀ h, (fp64.decode hi).is h →
      laneApply 0 fmt l code i = (⟨BitVec.ofNat 64 hi, BitVec.ofNat 64 lo, l.idx + 1⟩, 0) := by
  have hsum := addExact_is hl hv
  obtain ⟨n, m, e, heq, -⟩ := id hsum
  rw [heq] at hsum
  obtain ⟨hi, lo, f1, f2, hgives, -, hpair, hlt1, hlt2⟩ := w72Pair_is n m e (x + y) hsum hne
  refine ⟨hi, lo, ⟨f1, f2, hgives, fun h hh => (hpair h hh).2⟩, fun h hh => ?_⟩
  have hflags : flagIf (f.decode code).isSnan fInvalid = 0 := by rw [isSnan_of_not_nan hv.notNan]; rfl
  simp only [laneApply, rIsFloat, hf, heq, (hpair h hh).1, hflags, bits_ofNat72 hlt1, bits_ofNat72 hlt2]
  simp [FVal.isNan, flagIf]

/-- MAX and MIN of an element and a lane, neither a NaN. -/
theorem laneApply_pick (hv : (f.decode code).isNan = false) (hl : (fp64.decode l.hi.toNat).isNan = false)
    (hfn : fn ∈ [1, 2]) (i : Nat) :
    let a := fp64.decode l.hi.toNat
    let v := f.decode code
    let wins := if fn = 1 then ltZ a v else ltZ v a
    let loses := if fn = 1 then ltZ v a else ltZ a v
    laneApply fn fmt l code i = (if wins || !loses && decide (i < l.idx.toNat)
      then { l with hi := BitVec.ofNat 64 (fp64.ofVal .nearest v).1, idx := BitVec.ofNat 64 i } else l, 0) := by
  have hflags : flagIf (f.decode code).isSnan fInvalid = 0 := by rw [isSnan_of_not_nan hv]; rfl
  simp only [List.mem_cons, List.not_mem_nil, or_false] at hfn
  rcases hfn with rfl | rfl
  all_goals
    simp only [laneApply, rIsFloat, rIsMax, hf, hl, candWins, hv, hflags]
    simp
    split <;> rfl

end

theorem laneApply_isum (fmt : Nat) (l : CarryLane) (code i : Nat) :
    laneApply 3 fmt l code i = ({ l with hi := l.hi + intVal fmt (i, code) }, 0) := by
  rw [← ofInt_toSigned]
  rfl

theorem laneApply_ipick (fmt : Nat) (l : CarryLane) (code i : Nat) (hfn : fn ∈ [4, 5]) :
    let z := intVal fmt (i, code)
    laneApply fn fmt l code i =
      (if (if fn = 4 then l.hi.slt z else z.slt l.hi) || l.hi == z && decide (i < l.idx.toNat)
        then { l with hi := z, idx := BitVec.ofNat 64 i } else l, 0) := by
  intro z
  have hz : toSigned (intWidth fmt) code = z.toInt := (intVal_toInt fmt (i, code)).symm
  have heq : (l.hi.toInt = z.toInt) = (l.hi = z) := propext BitVec.toInt_inj
  simp only [List.mem_cons, List.not_mem_nil, or_false] at hfn
  rcases hfn with rfl | rfl
  all_goals
    simp only [laneApply, rIsFloat, rIsMax, hz, heq, BitVec.ofInt_toInt]
    simp [BitVec.slt]
    split <;> rfl

end Sys2Proof.Machine
end

section
namespace Sys2Proof.Machine

variable {fmt fn : Nat} {f : Fmt} {s : State} {d t c : Nat} {q : QEntry} {T : Tile}

/-! ## RFOLD and RCLR (R123) -/

/-- The 64 lanes of a slot. -/
def slotLanes (t : Table CarryLane) : List CarryLane := (List.range 64).map (Table.get CarryLane.reset t)

theorem slotLanes_ne_nil (t : Table CarryLane) : slotLanes t ≠ [] := fun h =>
  absurd (congrArg List.length h) (by rw [slotLanes, List.length_map, List.length_range]; decide)

theorem foldLanes_sum (hf : fmtOf fmt = some f) (wide : Bool) (t : Table CarryLane) : foldLanes 0 fmt wide t =
    let r := sumOf (if wide then fp64 else f) (Config.treeJoin 64) ((slotLanes t).map laneVal)
    (BitVec.ofNat 64 r.1, 0, r.2) := by
  simp only [foldLanes, hf]
  rfl

theorem foldLanes_finite (hfmt : fmt < 4) (hf : fmtOf fmt = some f) (wide : Bool) (t : Table CarryLane)
    (h : ∀ l ∈ slotLanes t, ∃ x, (laneVal l).is x) : ∃ root : FVal × FpFlags,
      SumTree dfAdd ((slotLanes t).map (fun l => (laneVal l, 0))) root ∧ ∀ x, root.1.is x →
        (x ≠ 0 → ∃ code fl, (if wide then fp64 else f).gives .nearest x (code, fl) ∧
          (foldLanes 0 fmt wide t).1 = BitVec.ofNat 64 code) ∧
        (x = 0 → (foldLanes 0 fmt wide t).1 = BitVec.ofNat 64 ((if wide then fp64 else f).signBit root.1.neg?)) := by
  rw [foldLanes_sum hf]
  obtain ⟨root, htree, hnum, -⟩ := sumOf_finite (wide_sound hfmt hf wide) (Config.treeJoin 64)
    (l := (slotLanes t).map laneVal) (by simpa using h) (fun hnil => slotLanes_ne_nil t (List.map_eq_nil_iff.1 hnil))
  rw [List.map_map] at htree
  exact ⟨root, htree, hnum⟩

theorem foldLanes_pick (hf : fmtOf fmt = some f) (wide : Bool) (t : Table CarryLane)
    (h : ∀ l ∈ slotLanes t, (fp64.decode l.hi.toNat).isNan = false) (hfn : fn ∈ [1, 2]) :
    let val (l : CarryLane) := fp64.decode l.hi.toNat
    let before (a b : FVal) : Bool := if fn = 1 then ltZ b a else ltZ a b
    ∃ l ∈ slotLanes t, foldLanes fn fmt wide t =
        (BitVec.ofNat 64 (f.ofVal .nearest (val l)).1, l.idx.toNat % 2 ^ 32, 0) ∧
      ∀ m ∈ slotLanes t, before (val m) (val l) = false ∧
        (before (val l) (val m) = false → l.idx.toNat ≤ m.idx.toNat) := by
  intro val before
  obtain ⟨z, hz, hbest, hall⟩ := bestCand_spec (fn == 1)
    (l := (slotLanes t).map (fun l => (⟨val l, l.idx.toNat⟩ : Cand)))
    (fun hnil => slotLanes_ne_nil t (List.map_eq_nil_iff.1 hnil))
  obtain ⟨l, hl, rfl⟩ := List.mem_map.1 hz
  refine ⟨l, hl, ?_, fun m hm => ?_⟩
  · simp only [List.mem_cons, List.not_mem_nil, or_false] at hfn
    rcases hfn with rfl | rfl
    · have hb : bestCand (rIsMax 1) (((List.range 64).map (fun k => Table.get CarryLane.reset t k)).map
        (fun l => ⟨fp64.decode l.hi.toNat, l.idx.toNat⟩)) = _ := hbest
      simp only [foldLanes, rIsFloat, hf, hb]
      rfl
    · have hb : bestCand (rIsMax 2) (((List.range 64).map (fun k => Table.get CarryLane.reset t k)).map
        (fun l => ⟨fp64.decode l.hi.toNat, l.idx.toNat⟩)) = _ := hbest
      simp only [foldLanes, rIsFloat, hf, hb]
      rfl
  · obtain ⟨hfirst, hindex⟩ := unbeaten (h l hl) (h m hm) (hall _ (List.mem_map_of_mem hm))
    simp only [beq_iff_eq] at hfirst hindex
    exact ⟨hfirst, hindex⟩

theorem foldLanes_ipick (fmt : Nat) (wide : Bool) (t : Table CarryLane) (hfn : fn ∈ [4, 5]) :
    ∃ l ∈ slotLanes t, foldLanes fn fmt wide t = (l.hi, l.idx.toNat % 2 ^ 32, 0) ∧
      ∀ m ∈ slotLanes t, (if fn = 4 then l.hi.slt m.hi else m.hi.slt l.hi) = false ∧
        (m.hi = l.hi → l.idx.toNat ≤ m.idx.toNat) := by
  obtain ⟨z, hz, hbest, hall⟩ := bestInt_spec (fn == 4)
    (l := (slotLanes t).map (fun l => (l.hi.toInt, l.idx.toNat)))
    (fun hnil => slotLanes_ne_nil t (List.map_eq_nil_iff.1 hnil))
  obtain ⟨l, hl, rfl⟩ := List.mem_map.1 hz
  refine ⟨l, hl, ?_, fun m hm => ?_⟩
  · have hval : foldLanes fn fmt wide t = (BitVec.ofInt 64 l.hi.toInt, l.idx.toNat % 2 ^ 32, 0) := by
      simp only [List.mem_cons, List.not_mem_nil, or_false] at hfn
      rcases hfn with rfl | rfl
      · have hb : bestInt (rIsMax 4) (((List.range 64).map (fun k => Table.get CarryLane.reset t k)).map
          (fun l => (l.hi.toInt, l.idx.toNat))) = _ := hbest
        simp only [foldLanes, rIsFloat, hb]
        rfl
      · have hb : bestInt (rIsMax 5) (((List.range 64).map (fun k => Table.get CarryLane.reset t k)).map
          (fun l => (l.hi.toInt, l.idx.toNat))) = _ := hbest
        simp only [foldLanes, rIsFloat, hb]
        rfl
    rw [hval, BitVec.ofInt_toInt]
  · obtain ⟨hfirst, hindex⟩ := int_unbeaten (hall _ (List.mem_map_of_mem hm))
    refine ⟨?_, fun h => hindex (by rw [h])⟩
    simp only [beq_iff_eq] at hfirst
    split
    · next h =>
      exact Bool.eq_false_iff.2 fun hlt => absurd (BitVec.slt_iff_toInt_lt.1 hlt) ((if_pos h).mp hfirst).not_gt
    · next h =>
      exact Bool.eq_false_iff.2 fun hlt => absurd (BitVec.slt_iff_toInt_lt.1 hlt) ((if_neg h).mp hfirst).not_gt

theorem find_map_const {α : Type} (x : α) {l : List Nat} {k : Nat} (hk : k ∈ l) :
    Table.find (l.map (fun j => (j, x))) k = some x := by
  induction l with
  | nil => cases hk
  | cons j l ih =>
    rw [List.map_cons, Table.find]
    split
    · rfl
    · next hne => exact ih ((List.mem_cons.1 hk).resolve_left (fun h => hne h.symm))

/-- Numbers other than 0 that cancel have unlike signs. -/
theorem opposite_signs {a b : FVal} {x y : ℝ} (ha : a.is x) (hb : b.is y) (h : x + y = 0) (hx : x ≠ 0) :
    (a.neg? && b.neg?) = false := by
  have hy : y ≠ 0 := fun h0 => hx (by rw [h0, add_zero] at h; exact h)
  refine Bool.eq_false_iff.2 fun hboth => ?_
  obtain ⟨hna, hnb⟩ := Bool.and_eq_true_iff.1 hboth
  have hx' := (neg_of_is ha hx).1 hna
  have hy' := (neg_of_is hb hy).1 hnb
  linarith

/-- The lanes that RCLR leaves: each the identity of its function. -/
theorem clearedLanes_get (fn : Nat) {k : Nat} (hk : k < 64) :
    Table.get CarryLane.reset (clearedLanes fn) k = laneIdentity fn := by
  by_cases hid : laneIdentity fn = CarryLane.reset
  · have hnil : clearedLanes fn = [] := by
      unfold clearedLanes
      rw [List.filter_eq_nil_iff]
      simp [hid]
    rw [hnil, hid]
    rfl
  · have hall : clearedLanes fn = (List.range 64).map (fun k => (k, laneIdentity fn)) := by
      unfold clearedLanes
      rw [List.filter_eq_self]
      simp [hid]
    rw [hall, Table.get, find_map_const _ (List.mem_range.2 hk)]
    rfl

/-! ## The jobs in flight -/

theorem State.redTry_run (h : firstCode (redChecks (s.tile d t) c q.word) = none) (run : Tile → Tile) :
    s.redTry d t c q run = s.setTile d t (run (s.tile d t)) := by simp only [State.redTry, h]

theorem State.redTry_skip {code : Nat} (h : firstCode (redChecks (s.tile d t) c q.word) = some code)
    (run : Tile → Tile) : s.redTry d t c q run = s.skip d t q code := by simp only [State.redTry, h]

/-- Landings put in hand one behind the other are all there. -/
theorem foldl_addPend_mem (l : List Nat) (T : Tile) (n : BitVec 64) (at? : Nat → Nat) (e : Nat → Landing) {h : Nat}
    (hh : h ∈ l) : (⟨at? h, n.toNat, e h⟩ : Pend) ∈ (l.foldl (fun T h => T.addPend n (at? h) (e h)) T).pend := by
  have hperm := foldl_addPend l T (fun h => some ⟨at? h, n.toNat, e h⟩) (fun T h => T.addPend n (at? h) (e h))
    (fun T h => Tile.addPend_pend T n _ _)
  refine hperm.symm.subset (List.mem_append_right _ (List.mem_filterMap.2 ⟨h, hh, rfl⟩))

theorem foldl_addPend_rjobs (l : List Nat) (T : Tile) (n : BitVec 64) (at? : Nat → Nat) (e : Nat → Landing) :
    (l.foldl (fun T h => T.addPend n (at? h) (e h)) T).rjobs = T.rjobs ∧
      (l.foldl (fun T h => T.addPend n (at? h) (e h)) T).times = T.times := by
  induction l generalizing T with
  | nil => exact ⟨rfl, rfl⟩
  | cons x l ih => exact ih _

/-- A reduction with elements is in flight and reads chunk h of its source in cycle c + h. -/
theorem redStart_reads (T : Tile) (c : Nat) (j : RedJob) (hn : j.n ≠ 0) :
    (T.redStart c j).rjobs = T.rjobs ++ [j] ∧ (T.redStart c j).times.red = c + j.n ∧
      ∀ h < j.n, (⟨c + h, j.count.toNat, .redRead j.count h⟩ : Pend) ∈ (T.redStart c j).pend := by
  have hstart : T.redStart c j =
      (List.range j.n).foldl (fun T h => T.addPend j.count (c + h) (.redRead j.count h)) (T.redBusy c j.n j) :=
    if_neg hn
  rw [hstart]
  obtain ⟨hjobs, htimes⟩ := foldl_addPend_rjobs (List.range j.n) (T.redBusy c j.n j) j.count (fun h => c + h)
    (fun h => .redRead j.count h)
  refine ⟨hjobs, ?_, fun h hh => foldl_addPend_mem _ _ _ (fun h => c + h) (fun h => .redRead j.count h)
    (List.mem_range.2 hh)⟩
  rw [htimes]
  show c + max 1 j.n = c + j.n
  omega

/-- A function on numbers reads elements of its format, one on integers those of its width. -/
theorem rWidth_eq (fn a b : Nat) : (if rIsFloat fn then a else b) = if fn < 3 then a else b := by
  unfold rIsFloat
  by_cases h : fn < 3
  · rw [if_pos h, if_pos (decide_eq_true (by omega))]
  · rw [if_neg h, if_neg (by rw [decide_eq_true_iff]; omega)]

theorem redRun_reads (c lat : Nat) (q : QEntry) (T : Tile) :
    let w := q.word
    let fn := vFunc w
    let N := if fn < 3 then fmtWidth (vFmt w) else intWidth (vFmt w)
    let len := min T.cur.vl (vlmax N (vGrp w))
    let n := chunksOf N len
    let T' := T.redStart c (redJobOf T c lat q)
    n ≠ 0 →
      (∃ j : RedJob, T'.rjobs = T.rjobs ++ [j] ∧ j.count = q.count ∧ j.ctx = T.active ∧ j.due = c + lat + n ∧
        j.word = w ∧ j.len = len ∧ j.n = n ∧ j.mask = T.mask (vMsk w) ∧
        j.base = (T.sreg T.active (rSi w)).toNat ∧ j.got = []) ∧
      T'.times.red = c + n ∧ ∀ h < n, (⟨c + h, q.count.toNat, .redRead q.count h⟩ : Pend) ∈ T'.pend := by
  intro w fn N len n T' hn
  have hN : (if rIsFloat (vFunc q.word) then fmtWidth (vFmt q.word) else intWidth (vFmt q.word)) = N :=
    rWidth_eq _ _ _
  have hlen : (redJobOf T c lat q).len = len := by
    rw [redJobOf, hN]
    rfl
  have hchunks : (redJobOf T c lat q).n = n := by
    rw [redJobOf, hN]
    rfl
  obtain ⟨hjobs, htime, hreads⟩ := redStart_reads T c (redJobOf T c lat q) (hchunks ▸ hn)
  rw [hchunks] at htime hreads
  refine ⟨⟨redJobOf T c lat q, hjobs, rfl, rfl, ?_, rfl, hlen, hchunks, rfl, rfl, rfl⟩, htime, hreads⟩
  rw [redJobOf, hN]
  rfl

theorem rfoldRun_lands (c : Nat) (q : QEntry) (T : Tile) :
    let w := q.word
    let fold := foldLanes (vFunc w) (vFmt w) (rWide w) (T.slotView (rSlot w) (some c))
    let lands (e : Landing) : Prop := (⟨c + 14, q.count.toNat, e⟩ : Pend) ∈ (rfoldRun c q T).pend
    lands (.sreg T.active (rSd w) fold.1) ∧ lands (.cvtUpdate T.active none 0 fold.2.2) ∧
      (rIsPick (vFunc w) = true → lands (.sreg T.active (rSi w) (BitVec.ofNat 64 fold.2.1))) := by
  intro w fold lands
  unfold lands
  rcases Bool.eq_false_or_eq_true (rIsPick (vFunc q.word)) with hp | hp
  · simp only [rfoldRun, hp, if_true]
    exact ⟨Tile.mem_addPend_of_mem (Tile.mem_addPend_of_mem (Tile.mem_addPend _ _ _ _) _ _ _) _ _ _,
      Tile.mem_addPend _ _ _ _, fun _ => Tile.mem_addPend_of_mem (Tile.mem_addPend _ _ _ _) _ _ _⟩
  · simp only [rfoldRun, hp, Bool.false_eq_true, if_false]
    exact ⟨Tile.mem_addPend_of_mem (Tile.mem_addPend _ _ _ _) _ _ _, Tile.mem_addPend _ _ _ _,
      fun h => absurd (hp.symm.trans h) (by decide)⟩

theorem finishRed_lands (T : Tile) (j : RedJob) (hopc : wOpc j.word = 0) :
    let r := redValue (vFunc j.word) (vFmt j.word) (rWide j.word) j.act
    let lands (e : Landing) : Prop := (⟨j.due, j.count.toNat, e⟩ : Pend) ∈ (T.finishRed j).pend
    lands (.sreg j.ctx (rSd j.word) r.1) ∧ lands (.cvtUpdate j.ctx none 0 r.2.2) ∧
      (rIsPick (vFunc j.word) = true → lands (.sreg j.ctx (rSi j.word) (BitVec.ofNat 64 r.2.1))) := by
  intro r lands
  have hne : ¬ wOpc j.word = 1 := by rw [hopc]; decide
  have hrun : T.finishRed j = _ := if_neg hne
  unfold lands
  rw [hrun]
  refine ⟨Tile.mem_addPend_of_mem ?_ _ _ _, Tile.mem_addPend _ _ _ _, fun hpick => Tile.mem_addPend_of_mem ?_ _ _ _⟩
  · split
    · exact Tile.mem_addPend_of_mem (Tile.mem_addPend _ _ _ _) _ _ _
    · exact Tile.mem_addPend _ _ _ _
  · rw [if_pos hpick]
    exact Tile.mem_addPend _ _ _ _

theorem finishRed_leaves (T : Tile) (j : RedJob) (hopc : wOpc j.word = 1) :
    let r := applyLanes (vFunc j.word) (vFmt j.word) j.base (T.slotView (rSlot j.word) none) j.act
    (⟨j.due, j.count.toNat, .cvtUpdate j.ctx none 0 r.2⟩ : Pend) ∈ (T.finishRed j).pend ∧
      (T.finishRed j).rjobs = T.rjobs.map (fun x =>
        if x.count = j.count then { j with carry := some (rSlot j.word, r.1) } else x) := by
  unfold Tile.finishRed
  dsimp only
  rw [if_pos hopc]
  exact ⟨Tile.mem_addPend _ _ _ _, rfl⟩

theorem redRead_eq (T : Tile) (j : RedJob) (h : Nat) (hj : T.rjobs.find? (fun x => x.count == j.count) = some j) :
    let j' := { j with got := j.got ++ [BitVec.ofNat 2048 ((T.vreg (rVs j.word + h / 2)).toNat >>> (2048 * (h % 2)))] }
    let T' : Tile := { T with rjobs := T.rjobs.map (fun x => if x.count = j.count then j' else x) }
    T.redRead j.count h = if h + 1 = j.n then T'.finishRed j' else T' := by
  simp only [Tile.redRead, hj]

theorem array_getD {α : Type} (l : List α) (e : Nat) (x : α) : l.toArray.getD e x = l.getD e x := by
  by_cases h : e < l.length <;> simp [Array.getD, List.getD_eq_getElem?_getD, h]

/-- The elements of a reduction: the active ones, with their codes. -/
theorem act_iff (j : RedJob) (e x : Nat) :
    let W := if vFunc j.word < 3 then fmtWidth (vFmt j.word) else intWidth (vFmt j.word)
    (e, x) ∈ j.act ↔ e < j.len ∧ activeIn j.word j.mask e = true ∧
      x = (j.got.getD (e / (2048 / W)) 0).toNat >>> (W * (e % (2048 / W))) % 2 ^ W := by
  intro W
  have hW : (if rIsFloat (vFunc j.word) then fmtWidth (vFmt j.word) else intWidth (vFmt j.word)) = W :=
    rWidth_eq _ _ _
  unfold RedJob.act
  simp only [hW, array_getD, List.mem_map, List.mem_filter, List.mem_range, Prod.mk.injEq]
  constructor
  · rintro ⟨i, ⟨hi, hact⟩, rfl, rfl⟩
    exact ⟨hi, hact, rfl⟩
  · rintro ⟨he, hact, rfl⟩
    exact ⟨e, ⟨he, hact⟩, rfl, rfl⟩

end Sys2Proof.Machine

namespace Sys2Proof
open Sys2Proof.Machine

/-- Settles O12: the issue and its jobs; a fold of a strict order keeps what nothing beats, and a sum is the root of
a tree. -/
theorem reductionUnitComputesItsResult : Obligations.ReductionUnitComputesItsResult := by
  refine ⟨?_, ?_, ?_, ?_, ?_, ?_, ?_, ?_, ?_⟩
  · intro d t c s q rest s1 T
    refine ⟨fun h => ⟨fun hturn => ?_, fun hturn => ?_, fun hturn => ?_, fun hturn => ?_⟩,
      fun code h => ⟨fun hturn => ?_, fun hturn => ?_, fun hturn => ?_, fun hturn => ?_⟩⟩
    · exact (State.execHead_turn hturn _ : execRed d t c s = _).trans (by rw [State.redIssue, State.redTry_run h])
    · exact (State.execHead_turn hturn _ : execRacc d t c s = _).trans (by rw [State.raccIssue, State.redTry_run h])
    · exact (State.execHead_turn hturn _ : execRfold d t c s = _).trans (by rw [State.rfoldIssue, State.redTry_run h])
    · exact (State.execHead_turn hturn _ : execRclr d t c s = _).trans (by rw [State.rclrIssue, State.redTry_run h])
    · exact (State.execHead_turn hturn _ : execRed d t c s = _).trans (by rw [State.redIssue, State.redTry_skip h])
    · exact (State.execHead_turn hturn _ : execRacc d t c s = _).trans (by rw [State.raccIssue, State.redTry_skip h])
    · exact (State.execHead_turn hturn _ : execRfold d t c s = _).trans (by
        rw [State.rfoldIssue, State.redTry_skip h])
    · exact (State.execHead_turn hturn _ : execRclr d t c s = _).trans (by rw [State.rclrIssue, State.redTry_skip h])
  · intro c q T w fn N len n reads fold lands
    obtain ⟨hvalue, hflags, hindex⟩ := rfoldRun_lands c q T
    exact ⟨redRun_reads c 12 q T, redRun_reads c 6 q T, hvalue, hflags, hindex, fun j =>
      ⟨redRead_eq T j, act_iff j, finishRed_lands T j, finishRed_leaves T j⟩⟩
  · intro fmt hfmt f hf wide act hact out vals sum
    refine ⟨?_, fun x n s p => redValue_nan hf wide hact, fun hplain hpos hneg => ?_, fun hfin hne => ?_,
      fun hplain hne fn hfn => redValue_number hf wide hact hplain hne hfn⟩
    · rintro rfl
      refine ⟨?_, redValue_pick hf wide [] (by decide), redValue_pick hf wide [] (by decide)⟩
      exact redValue_sum hf wide []
    · have hsum := redValue_sum hf wide act
      rw [sumOf_infinities out _ hplain hpos hneg] at hsum
      exact hsum
    · obtain ⟨root, htree, hnum, hinf⟩ := sumOf_finite (wide_sound hfmt hf wide)
        (Config.redJoin (act.map (fun p => 2 ^ p.1)).sum) hfin (fun hnil => hne (List.map_eq_nil_iff.1 hnil))
      have hsum : sum = _ := redValue_sum hf wide act
      rw [hsum]
      exact ⟨root, htree, hnum, hinf⟩
  · intro a b p q x y ha hb
    exact ⟨ltZ_is ha hb, fun h => ⟨_, _, dfAdd_zero p q ha hb h, opposite_signs ha hb h, fun _ => rfl⟩,
      dfAdd_is p q ha hb⟩
  · intro fmt hfmt wide act hact W val
    refine ⟨redValue_isum fmt wide act, ?_, fun hne fn hfn => redValue_ipick fmt wide hact hne hfn⟩
    rintro rfl
    exact ⟨rfl, rfl⟩
  · intro fn fmt base lanes act e x k r r' one
    have happend : r' = _ := applyLanes_append fn fmt base lanes act e x
    rw [happend]
    refine ⟨rfl, rfl, ?_⟩
    rw [Table.get_set]
    simp only [eq_comm]
    rfl
  · intro fmt hfmt f hf l code i v
    exact ⟨fun x y hl hv hne => laneApply_sum hf hl hv hne i, fun hv hl fn hfn => laneApply_pick hf hv hl hfn i,
      laneApply_isum fmt l code i, fun fn hfn => laneApply_ipick fmt l code i hfn⟩
  · intro fmt hfmt f hf wide t out lanes sum
    exact ⟨foldLanes_finite hfmt hf wide t, fun h fn hfn => foldLanes_pick hf wide t h hfn, rfl,
      fun fn hfn => foldLanes_ipick fmt wide t hfn⟩
  · intro c q T
    refine ⟨_, rfl, rfl, _, rfl, fun k hk => ?_⟩
    rw [clearedLanes_get _ hk]
    generalize vFunc q.word = fn
    match fn with
    | 0 => rfl
    | 1 => decide
    | 2 => decide
    | 3 => rfl
    | 4 => rfl
    | 5 => rfl
    | n + 6 => rfl

end Sys2Proof
end

section
/-! The converter: one row of the oldest store, and each of its elements (R54 to R61, R145). -/
namespace Sys2Proof.Machine

/-! ## A row -/

/-- The bytes of a row of a store: its elements' codes, and the free codes behind a vector store's last (R59). -/
def CvtJob.rowOut (j : CvtJob) (T : Tile) : List (Nat × FpFlags × Nat) :=
  (j.rowVals T).zipIdx.map (fun p => convElem j.fmt j.ctrl j.seed j.n
    (scaleInForce j.ctrl (Table.get scaleReset j.scale j.rowNo)) j.rowNo p.2 p.1)

theorem CvtJob.rowOut_length (j : CvtJob) (T : Tile) : (j.rowOut T).length = (j.rowVals T).length := by
  rw [rowOut, List.length_map, List.length_zipIdx]

theorem Tile.cvtRow_sq (T : Tile) (j : CvtJob) : (T.cvtRow j).sq = T.sq.map (fun b => if b.id = j.sq then
    { b with data := b.data ++ packCodes (fmtWidth j.fmt) ((j.rowOut T).map (·.1) ++ j.tailCodes (j.rowVals T).length) }
    else b) := by
  rw [← j.rowOut_length T]
  unfold Tile.cvtRow
  dsimp only
  split <;> rfl

theorem Tile.cvtRow_cvt (T : Tile) (j : CvtJob) : (T.cvtRow j).cvt =
    (if j.vec.isSome || j.row == 63 then T.cvt.drop 1 else { j with row := j.row + 1 } :: T.cvt.drop 1) := by
  unfold Tile.cvtRow
  dsimp only
  cases (j.vec.isSome || j.row == 63) <;> rfl

theorem Tile.cvtRow_keeps (T : Tile) (j : CvtJob) :
    (T.cvtRow j).accs = T.accs ∧ (T.cvtRow j).vregs = T.vregs ∧ (T.cvtRow j).sram = T.sram := by
  unfold Tile.cvtRow
  dsimp only
  cases (j.vec.isSome || j.row == 63) <;> exact ⟨rfl, rfl, rfl⟩

/-- A cycle behind the row its maximum, clamps and flags reach the bank. -/
theorem Tile.cvtRow_lands (T : Tile) (j : CvtJob) :
    (⟨j.rowCycle + 1, j.count.toNat, .cvtUpdate j.ctx
      (if ctrlFreeze j.ctrl then none else some (j.rowNo, rowMax (j.rowVals T)))
      ((j.rowOut T).map (fun x => x.2.2)).sum (allFlags ((j.rowOut T).map (fun x => x.2.1)))⟩ : Pend) ∈
        (T.cvtRow j).pend := by
  unfold Tile.cvtRow
  dsimp only
  cases (j.vec.isSome || j.row == 63)
  · exact Tile.mem_addPend _ _ _ _
  · exact Tile.mem_addPend_of_mem (Tile.mem_addPend _ _ _ _) _ _ _

theorem allFlags_map_bit {α : Type} (l : List α) (g : α → FpFlags) (i : Nat) :
    (allFlags (l.map g)).getLsbD i = true ↔ ∃ x ∈ l, (g x).getLsbD i = true := by
  rw [allFlags_bit]
  simp

/-! ## The scale in force (R55) -/

theorem scaleInForce_off {ctrl : BitVec 6} {s : BitVec 32} (h : ctrl.getLsbD 0 = false ∨ scaleBad s = true) :
    scaleInForce ctrl s = ⟨1, 0⟩ := by
  have hoff : (!ctrlScaleEn ctrl || scaleBad s) = true := by
    rcases h with h | h
    · rw [show ctrlScaleEn ctrl = false from h]
      rfl
    · rw [h, Bool.or_true]
  rw [scaleInForce, if_pos hoff]

/-- A usable scale register holds a positive normal number. -/
theorem scale_decode {s : BitVec 32} (h : scaleBad s = false) :
    ∃ m e, fp32.decode s.toNat = .fin false m e ∧ 0 < m := by
  obtain ⟨hsign, h255⟩ := Bool.or_eq_false_iff.1 h
  obtain ⟨hsign, h0⟩ := Bool.or_eq_false_iff.1 hsign
  have hex : bits s 30 23 = s.toNat % 2147483648 / 8388608 := by
    unfold bits
    omega
  have hlow : s.toNat % 2147483648 / 8388608 ≠ 0 := hex ▸ by simpa using h0
  have hhigh : s.toNat % 2147483648 / 8388608 ≠ 255 := hex ▸ by simpa using h255
  have hneg : ((s.toNat >>> 31) % 2 == 1) = false := by
    rw [← hsign, BitVec.getLsbD, Nat.testBit, Nat.and_comm, Nat.and_one_is_mod]
    rcases Nat.mod_two_eq_zero_or_one (s.toNat >>> 31) with h | h <;> rw [h] <;> rfl
  refine ⟨8388608 + s.toNat % 2147483648 % 8388608, ((s.toNat % 2147483648 / 8388608 : Nat) : Int) - 127 - 23, ?_,
    by omega⟩
  have hinf : ¬ ((some 0x7F800000 : Option Nat) == some (s.toNat % 2147483648)) = true := by
    rw [beq_iff_eq, Option.some.injEq]
    omega
  have hmax : ¬ 0x7F7FFFFF < s.toNat % 2147483648 := by omega
  have hne : ¬ ((s.toNat % 2147483648) >>> 23 == 0) = true := by
    rw [beq_iff_eq, Nat.shiftRight_eq_div_pow]
    omega
  have hdec : fp32.decode s.toNat = FVal.fin ((s.toNat >>> 31) % 2 == 1) (8388608 + s.toNat % 2147483648 % 8388608)
      (((s.toNat % 2147483648) >>> 23 : Nat) - 127 - 23) :=
    (if_neg hinf).trans ((if_neg hmax).trans (if_neg hne))
  rw [hdec, hneg, Nat.shiftRight_eq_div_pow]

theorem scaleInForce_on {ctrl : BitVec 6} {s : BitVec 32} (hctrl : ctrl.getLsbD 0 = true) (h : scaleBad s = false) :
    let scale := scaleInForce ctrl s
    (0 : ℝ) < scale.m * 2 ^ scale.e ∧ (fp32.decode s.toNat).is (scale.m * 2 ^ scale.e) ∧ 0 < scale.m := by
  obtain ⟨m, e, hdec, hm⟩ := scale_decode h
  have hscale : scaleInForce ctrl s = ⟨m, e⟩ := by
    rw [scaleInForce, if_neg (by rw [show ctrlScaleEn ctrl = true from hctrl, h]; decide), hdec]
    rfl
  dsimp only
  rw [hscale]
  refine ⟨by positivity, ⟨false, m, e, hdec, by push_cast; simp⟩, Int.natCast_pos.2 hm⟩

/-- The scale in force is positive. -/
theorem scaleInForce_pos (ctrl : BitVec 6) (s : BitVec 32) : 0 < (scaleInForce ctrl s).m := by
  by_cases h : ctrl.getLsbD 0 = false ∨ scaleBad s = true
  · rw [scaleInForce_off h]
    decide
  · simp only [not_or, Bool.not_eq_false, Bool.not_eq_true] at h
    exact (scaleInForce_on h.1 h.2).2.2

/-! ## An element -/

section
variable {fmt : Nat} {f : Fmt} (hf : fmtOf fmt = some f)
include hf

theorem fmt_cases : (fmt = 0 ∧ f = fp64) ∨ (fmt = 1 ∧ f = fp32) ∨ (fmt = 2 ∧ f = bf16) ∨ (fmt = 3 ∧ f = fp16) ∨
    (fmt = 4 ∧ f = e4m3) ∨ (fmt = 5 ∧ f = e5m2) ∨ (fmt = 6 ∧ f = e2m1) := by
  have hlt : fmt < 7 := by
    by_contra h
    obtain ⟨n, rfl⟩ := Nat.exists_eq_add_of_le (Nat.le_of_not_lt h)
    rw [Nat.add_comm] at hf
    cases hf
  interval_cases fmt <;> cases hf <;> simp

theorem fmt_sound : f.sound := by
  refine Fmt.sound_of_mem ?_
  rcases fmt_cases hf with ⟨-, rfl⟩ | ⟨-, rfl⟩ | ⟨-, rfl⟩ | ⟨-, rfl⟩ | ⟨-, rfl⟩ | ⟨-, rfl⟩ | ⟨-, rfl⟩ <;> decide

/-- Only FP4 has no NaN. -/
theorem fmt_noNan : f.qnan.isNone = (fmt == 6) := by
  rcases fmt_cases hf with ⟨rfl, rfl⟩ | ⟨rfl, rfl⟩ | ⟨rfl, rfl⟩ | ⟨rfl, rfl⟩ | ⟨rfl, rfl⟩ | ⟨rfl, rfl⟩ | ⟨rfl, rfl⟩ <;>
    rfl

/-- E4M3 and FP4 have no infinity. -/
theorem fmt_noInf : f.inf.isNone = (fmt == 4 || fmt == 6) := by
  rcases fmt_cases hf with ⟨rfl, rfl⟩ | ⟨rfl, rfl⟩ | ⟨rfl, rfl⟩ | ⟨rfl, rfl⟩ | ⟨rfl, rfl⟩ | ⟨rfl, rfl⟩ | ⟨rfl, rfl⟩ <;>
    rfl

theorem plusZero_inf (b : Bool) : plusZero f (f.infCode b) = f.infCode b := by
  rcases fmt_cases hf with ⟨-, rfl⟩ | ⟨-, rfl⟩ | ⟨-, rfl⟩ | ⟨-, rfl⟩ | ⟨-, rfl⟩ | ⟨-, rfl⟩ | ⟨-, rfl⟩ <;>
    cases b <;> rfl

theorem plusZero_max (b : Bool) : plusZero f (f.signBit b + f.maxFin) = f.signBit b + f.maxFin := by
  rcases fmt_cases hf with ⟨-, rfl⟩ | ⟨-, rfl⟩ | ⟨-, rfl⟩ | ⟨-, rfl⟩ | ⟨-, rfl⟩ | ⟨-, rfl⟩ | ⟨-, rfl⟩ <;>
    cases b <;> rfl

theorem plusZero_canonNan : plusZero f f.canonNan = f.canonNan := by
  rcases fmt_cases hf with ⟨-, rfl⟩ | ⟨-, rfl⟩ | ⟨-, rfl⟩ | ⟨-, rfl⟩ | ⟨-, rfl⟩ | ⟨-, rfl⟩ | ⟨-, rfl⟩ <;> rfl

theorem plusZero_nan (b : Bool) (p : Nat) : plusZero f (f.nanCode b p) = f.nanCode b p := by
  refine ite_eq_right_iff.2 fun h => ?_
  rcases fmt_cases hf with ⟨-, rfl⟩ | ⟨-, rfl⟩ | ⟨-, rfl⟩ | ⟨-, rfl⟩ | ⟨-, rfl⟩ | ⟨-, rfl⟩ | ⟨-, rfl⟩ <;> cases b <;>
    simp [Fmt.nanCode, Fmt.signBit, fp64, fp32, bf16, fp16, e4m3, e5m2, e2m1] at h ⊢ <;> omega

/-- How an element is rounded: to nearest even, or by the generator's bits (R54, R61). -/
def elemRounding (ctrl : BitVec 6) (fmt : Nat) (seed : BitVec 64) (n : BitVec 32) (row col : Nat) : Rounding :=
  if srOf ctrl fmt then .sr (srBits seed n row col) else .dir .nearest

omit hf in
theorem elemRounding_ok (ctrl : BitVec 6) (fmt : Nat) (seed : BitVec 64) (n : BitVec 32) (row col : Nat) :
    (elemRounding ctrl fmt seed n row col).ok := by
  unfold elemRounding
  split
  · exact Nat.mod_lt _ (by decide)
  · trivial

/-- An element goes through the converter at its row's scale. -/
theorem convElem_fin (ctrl : BitVec 6) (seed : BitVec 64) (n : BitVec 32) (scale : Dyad) (row col : Nat) (b : Bool)
    (m : Nat) (e : Int) : convElem fmt ctrl seed n scale row col (.fin b m e) =
      let r := convVal f (elemRounding ctrl fmt seed n row col) (satOf ctrl fmt)
        (.fin b (m * scale.m.natAbs) (e + scale.e))
      (plusZero f r.1, r.2) := by
  simp only [convElem, hf]
  rfl

theorem convElem_nan (ctrl : BitVec 6) (seed : BitVec 64) (n : BitVec 32) (scale : Dyad) (row col : Nat) (b sg : Bool)
    (p : Nat) : convElem fmt ctrl seed n scale row col (.nan b sg p) =
      if f.qnan.isNone then (plusZero f 0, flagIf sg fInvalid ||| fNanOut, 0)
      else (plusZero f (f.nanCode b p), flagIf sg fInvalid, 0) := by
  simp only [convElem, hf, convVal]
  split <;> rfl

theorem convElem_inf (ctrl : BitVec 6) (seed : BitVec 64) (n : BitVec 32) (scale : Dyad) (row col : Nat) (b : Bool) :
    convElem fmt ctrl seed n scale row col (.inf b) =
      if f.qnan.isNone || satOf ctrl fmt then (f.signBit b + f.maxFin, fSat, 1)
      else if f.inf.isNone then (f.canonNan, fInvalid, 0) else (f.infCode b, 0, 0) := by
  simp only [convElem, hf, convVal]
  split
  · rw [plusZero_max hf]
  · split
    · rw [plusZero_canonNan hf]
    · rw [plusZero_inf hf]

end

end Sys2Proof.Machine
end

section
namespace Sys2Proof.Machine

section
variable {fmt : Nat} {f : Fmt} (hf : fmtOf fmt = some f)
include hf

/-- A number other than 0 is scaled exactly and rounded once (R54 to R58). -/
theorem convElem_number (ctrl : BitVec 6) (seed : BitVec 64) (n : BitVec 32) {scale : Dyad} (hs : 0 < scale.m)
    (row col : Nat) {v : FVal} {x : ℝ} (hv : v.is x) (hx : x ≠ 0) :
    ∃ r', f.converts (elemRounding ctrl fmt seed n row col) (fmt == 6 || satOf ctrl fmt) v.neg?
        |x * (scale.m * 2 ^ scale.e)| r' ∧
      convElem fmt ctrl seed n scale row col v = (if r'.1 = f.signBit true then 0 else r'.1, r'.2) := by
  obtain ⟨b, m, e, rfl, hval⟩ := id hv
  have hm : m ≠ 0 := fun h => hx (hv.zeroMag.1 h)
  have hconv := convVal_converts (fmt_sound hf) (elemRounding_ok ctrl fmt seed n row col) (satOf ctrl fmt) b
    (e + scale.e) (Nat.mul_ne_zero hm (Int.natAbs_ne_zero.2 hs.ne'))
  have hmag : ((m * scale.m.natAbs : Nat) : ℝ) * 2 ^ (e + scale.e) = |x * (scale.m * 2 ^ scale.e)| := by
    have hpos : (0 : ℝ) ≤ m * 2 ^ e := by positivity
    have hscale : (0 : ℝ) < scale.m * 2 ^ scale.e := by
      have h : (0 : ℝ) < scale.m := by exact_mod_cast hs
      positivity
    have habs : ((scale.m.natAbs : Nat) : ℝ) = scale.m := by
      rw [Nat.cast_natAbs, abs_of_pos hs]
    have hmagx : |x| = m * 2 ^ e := by
      cases b <;> simp [hval, abs_of_nonneg hpos]
    rw [abs_mul, abs_of_pos hscale, hmagx, Nat.cast_mul, habs, zpow_add₀ (by norm_num)]
    ring
  rw [hmag, fmt_noNan hf] at hconv
  exact ⟨_, hconv, convElem_fin hf ctrl seed n scale row col b m e⟩

/-- A zero is +0 and raises nothing (R56). -/
theorem convElem_zero (ctrl : BitVec 6) (seed : BitVec 64) (n : BitVec 32) (scale : Dyad) (row col : Nat) {v : FVal}
    (hv : v.is 0) : convElem fmt ctrl seed n scale row col v = (0, 0, 0) := by
  obtain ⟨b, e, rfl⟩ := hv.zero
  have hexact (e : Int) : f.clampsExact 0 e = false := by
    have h : Dyad.lt ⟨448, 0⟩ ⟨0, e⟩ = false := by
      refine Bool.eq_false_iff.2 fun hlt => ?_
      have hnum := (Dyad.lt_num (a := ⟨448, 0⟩) (b := ⟨0, e⟩) (x := 448) (y := 0) (by norm_num [Dyad.num])
        (by norm_num [Dyad.num])).1 hlt
      norm_num at hnum
    rw [Fmt.clampsExact]
    exact (congrArg _ h).trans (Bool.and_false _)
  have hzero : plusZero f (f.signBit b) = 0 := by
    unfold plusZero
    cases b
    · exact ite_self _
    · exact if_pos rfl
  rw [convElem_fin hf, Nat.zero_mul]
  simp [convVal, Fmt.roundBy, hexact, hzero, flagIf]

/-- A NaN stays one; FP4 has none, and takes 0 for it (R58). -/
theorem convElem_isNan (ctrl : BitVec 6) (seed : BitVec 64) (n : BitVec 32) (scale : Dyad) (row col : Nat)
    (b sg : Bool) (p : Nat) : let r := convElem fmt ctrl seed n scale row col (.nan b sg p)
    r.2 = (flagIf sg fInvalid ||| flagIf (fmt == 6) fNanOut, 0) ∧ r.1 = if fmt = 6 then 0 else f.nanCode b p := by
  intro r
  have hr : r = _ := convElem_nan hf ctrl seed n scale row col b sg p
  rw [hr, fmt_noNan hf]
  by_cases h6 : fmt = 6
  · rw [if_pos (beq_iff_eq.2 h6), if_pos h6, beq_iff_eq.2 h6]
    exact ⟨rfl, ite_self _⟩
  · have hne : (fmt == 6) = false := beq_eq_false_iff_ne.2 h6
    rw [hne, if_neg Bool.false_ne_true, if_neg h6]
    exact ⟨congrArg (·, 0) BitVec.or_zero.symm, plusZero_nan hf b p⟩

/-- An infinity is clamped, or stays; E4M3 has none (R57). -/
theorem convElem_isInf (ctrl : BitVec 6) (seed : BitVec 64) (n : BitVec 32) (scale : Dyad) (row col : Nat)
    (b : Bool) : convElem fmt ctrl seed n scale row col (.inf b) =
      if fmt == 6 || satOf ctrl fmt then (f.signBit b + f.maxFin, fSat, 1)
      else if fmt = 4 then (f.canonNan, fInvalid, 0) else (f.infCode b, 0, 0) := by
  rw [convElem_inf hf, fmt_noNan hf, fmt_noInf hf]
  by_cases h6 : fmt = 6
  · rw [beq_iff_eq.2 h6]
    rfl
  · have hne : (fmt == 6) = false := beq_eq_false_iff_ne.2 h6
    rw [hne, Bool.or_false]
    simp only [beq_iff_eq]

end

theorem execConverterRow_due {d : Fin 32} {t : Fin 144} {s : State} {j : CvtJob} {rest : List CvtJob}
    (hcvt : (s.tile d t).cvt = j :: rest) (h : s.reached d t j.rowCycle = true) :
    execConverterRow d t s = .next ((s.land d t j.rowCycle).setTile d t
      (((s.land d t j.rowCycle).tile d t).cvtRow j)) := by
  simp only [execConverterRow, hcvt, State.ownEvent_reached h]

theorem ofNat_mod_self (k : Nat) : BitVec.ofNat 64 (k % 2 ^ 64) = BitVec.ofNat 64 k :=
  BitVec.eq_of_toNat_eq (by rw [BitVec.toNat_ofNat, BitVec.toNat_ofNat, Nat.mod_mod])

/-- The generator's bits of a seed, store, row and column (R61). -/
theorem srBits_eq (seed : BitVec 64) (n : BitVec 32) (row col : Nat) :
    let z1 := seed ^^^ BitVec.ofNat 64 (n.toNat * 2 ^ 16 % 2 ^ 64) ^^^ BitVec.ofNat 64 (row * 2 ^ 8) ^^^
      BitVec.ofNat 64 col
    let z2 := (z1 ^^^ z1 >>> 30) * 0xBF58476D1CE4E5B9
    let z3 := (z2 ^^^ z2 >>> 27) * 0x94D049BB133111EB
    srBits seed n row col = (z3 ^^^ z3 >>> 31).toNat % 2 ^ 16 := by
  intro z1 z2 z3
  unfold z3 z2 z1
  rw [ofNat_mod_self, srBits, bits, pow_zero, Nat.div_one]

theorem withSign_mag {v : FVal} {x : ℝ} (h : v.is x) : (v.withSign false).is |x| := by
  obtain ⟨b, m, e, rfl, rfl⟩ := h
  have hpos : (0 : ℝ) ≤ m * 2 ^ e := by positivity
  exact ⟨false, m, e, rfl, by cases b <;> simp [abs_of_nonneg hpos]⟩

/-- A magnitude raised into the running maxima is rounded up (R59). -/
theorem up32_gives {v : FVal} {x : ℝ} (h : v.is x) (hx : x ≠ 0) :
    ∃ code fl, fp32.gives .up |x| (code, fl) ∧ up32 v = BitVec.ofNat 32 code :=
  ⟨_, _, ofVal_gives (Fmt.sound_of_mem (by decide)) (withSign_mag h) (abs_ne_zero.2 hx), rfl⟩

end Sys2Proof.Machine

namespace Sys2Proof
open Sys2Proof.Machine

/-- Settles O7: the row's bytes, landing and frame by the row's equations; an element by what the converter gives of
a number, a zero, a NaN and an infinity. -/
theorem converterPassesARow : Obligations.ConverterPassesARow := by
  refine ⟨?_, ?_, ?_⟩
  · intro d t s j rest hcvt hreached s1 T T'
    refine ⟨?_, T.cvtRow_cvt j, ⟨?_, _, allFlags_map_bit _ _, T.cvtRow_lands j⟩, T.cvtRow_keeps j⟩
    · exact execConverterRow_due hcvt hreached
    · exact T.cvtRow_sq j
  · intro fmt f hf ctrl seed n s row col v scale unit r k clamps
    refine ⟨fun h => ?_, fun hctrl hs => ?_,
      fun x hv hx => convElem_number hf ctrl seed n (scaleInForce_pos ctrl s) row col hv hx,
      convElem_zero hf ctrl seed n scale row col, ?_, ?_, fun x => up32_gives⟩
    · have hscale : scale = ⟨1, 0⟩ := scaleInForce_off h
      simp [unit, hscale]
    · obtain ⟨hpos, hdec, -⟩ := scaleInForce_on hctrl hs
      exact ⟨hpos, hdec⟩
    · rintro b sg p rfl
      exact convElem_isNan hf ctrl seed n scale row col b sg p
    · rintro b rfl
      exact convElem_isInf hf ctrl seed n scale row col b
  · intro seed n row col
    exact ⟨_, _, _, rfl, rfl, rfl, srBits_eq seed n row col⟩

end Sys2Proof
end

section
/-! The accumulator banks: what a result cycle makes visible (R75, R79, R83, R86, R89). -/
namespace Sys2Proof.Machine

variable {d : Fin 32} {t : Fin 144} {s : State}

/-! ## Tables of a list -/

theorem find_indexed {α : Type} [DecidableEq α] (x0 : α) (l : List α) (k n : Nat) :
    (Table.find (((l.zipIdx k).map (fun e => (e.2, e.1))).filter (fun e => decide (e.2 ≠ x0))) n).getD x0 =
      if k ≤ n then l.getD (n - k) x0 else x0 := by
  induction l generalizing k with
  | nil => simp [Table.find]
  | cons x l ih =>
    have hrest := ih (k + 1)
    have hbehind : k ≤ n → k ≠ n → (x :: l).getD (n - k) x0 = l.getD (n - (k + 1)) x0 := fun hle hne => by
      obtain ⟨i, rfl⟩ := Nat.exists_eq_add_of_lt (lt_of_le_of_ne hle hne)
      simp [show k + i + 1 - k = i + 1 by omega, show k + i + 1 - (k + 1) = i by omega]
    rw [List.zipIdx_cons, List.map_cons, List.filter_cons]
    by_cases hx : x = x0
    · rw [if_neg (by simpa using hx), hrest]
      rcases lt_trichotomy k n with h | h | h
      · rw [if_pos (by omega), if_pos (by omega), hbehind h.le h.ne]
      · simp [h, hx]
      · rw [if_neg (by omega), if_neg (by omega)]
    · rw [if_pos (by simpa using hx), Table.find]
      rcases lt_trichotomy k n with h | h | h
      · rw [if_neg h.ne, hrest, if_pos (by omega), if_pos (by omega), hbehind h.le h.ne]
      · simp [h]
      · rw [if_neg h.ne', hrest, if_neg (by omega), if_neg (by omega)]

theorem tableOfList_get {α : Type} [DecidableEq α] (x0 : α) (l : List α) (n : Nat) :
    Table.get x0 (tableOfList x0 l) n = l.getD n x0 := by
  have h := find_indexed x0 l 0 n
  rwa [if_pos (Nat.zero_le n), Nat.sub_zero] at h

/-! ## The exchange of banks -/

@[simp] theorem Acc.exchange_visible (x : Acc) (v : Table (BitVec 72)) : (x.exchange v).visible = !x.visible := rfl

@[simp] theorem Acc.exchange_busy (x : Acc) (v : Table (BitVec 72)) : (x.exchange v).busy = false := rfl

/-- The bank that an exchange makes visible is the one it has written. -/
theorem Acc.exchange_bank (x : Acc) (v : Table (BitVec 72)) : (x.exchange v).bank (x.exchange v).visible = v := by
  obtain ⟨b0, b1, visible, busy⟩ := x
  cases visible <;> rfl

theorem Tile.setLayout_acc (T : Tile) (c : Bool) (a l b : Nat) : (T.setLayout c a l).acc b = T.acc b := by
  cases c <;> rfl

/-- The layouts that a result brings into force change nothing but a context. -/
theorem Tile.setLayouts_keep (l : List Nat) (T : Tile) (c : Bool) (lay : Nat) :
    let U := l.foldl (fun T n => T.setLayout c n lay) T
    (∀ b, U.acc b = T.acc b) ∧ U.mmas = T.mmas ∧ U.vregs = T.vregs ∧ U.masks = T.masks ∧ U.sram = T.sram ∧
      U.oqm = T.oqm := by
  induction l generalizing T with
  | nil => exact ⟨fun _ => rfl, rfl, rfl, rfl, rfl, rfl⟩
  | cons a l ih =>
    obtain ⟨hacc, hmmas, hv, hm, hs, hq⟩ := ih (T.setLayout c a lay)
    have hone : (∀ b, (T.setLayout c a lay).acc b = T.acc b) ∧ (T.setLayout c a lay).mmas = T.mmas ∧
        (T.setLayout c a lay).vregs = T.vregs ∧ (T.setLayout c a lay).masks = T.masks ∧
        (T.setLayout c a lay).sram = T.sram ∧ (T.setLayout c a lay).oqm = T.oqm := by
      cases c <;> exact ⟨fun _ => rfl, rfl, rfl, rfl, rfl, rfl⟩
    obtain ⟨gacc, gmmas, gv, gm, gs, gq⟩ := hone
    exact ⟨fun b => (hacc b).trans (gacc b), hmmas.trans gmmas, hv.trans gv, hm.trans gm, hs.trans gs, hq.trans gq⟩

/-! ## The result of an MMA -/

/-- The new elements of an MMA's accumulator, with their flags. -/
def Tile.mmaSums (T : Tile) (j : MmaJob) : List (W72 × W72 × FpFlags) :=
  j.result (T.visBank j.acc.val) (if fmtLayout j.fmtA == layPair then T.visBank (j.acc.val + 1) else [])

/-- The bank that a result makes visible, with the hardware fault that meets it. -/
def Tile.mmaHigh (T : Tile) (upset : Option (Fin 4096 × BitVec 72)) (j : MmaJob) : Table (BitVec 72) :=
  match upset with
  | some (e, v) => Table.set 0 (tableOfList 0 ((T.mmaSums j).map (·.1))) e.val v
  | none => tableOfList 0 ((T.mmaSums j).map (·.1))

def Tile.mmaLow (T : Tile) (j : MmaJob) : Table (BitVec 72) :=
  if fmtLayout j.fmtA == layPair then tableOfList 0 ((T.mmaSums j).map (fun x => x.2.1)) else []

/-- The tile behind a result, with its new banks in force. -/
def Tile.mmaBanks (T : Tile) (upset : Option (Fin 4096 × BitVec 72)) (j : MmaJob) : Tile :=
  let U := T.setAcc j.acc.val ((T.acc j.acc.val).exchange (T.mmaHigh upset j))
  if fmtLayout j.fmtA == layPair then U.setAcc (j.acc.val + 1) ((U.acc (j.acc.val + 1)).exchange (T.mmaLow j)) else U

def Tile.mmaDone (T : Tile) (upset : Option (Fin 4096 × BitVec 72)) (j : MmaJob) (abft : List AbftJob) : Tile :=
  let U := (accNames j.acc.val (fmtLayout j.fmtA == layPair)).foldl
    (fun T n => T.setLayout j.ctx n (fmtLayout j.fmtA)) (T.mmaBanks upset j)
  let V := U.addPend j.count j.due (.cvtUpdate j.ctx none 0 (allFlags ((T.mmaSums j).map (fun x => x.2.2))))
  { V with mmas := V.mmas.drop 1, abft := abft }

theorem execMmaResultCycle_due {j : MmaJob} {rest : List MmaJob} (upset : Option (Fin 4096 × BitVec 72))
    (hm : (s.tile d t).mmas = j :: rest) (h : s.reached d t j.due = true) : ∃ abft,
    execMmaResultCycle d t upset s = .next ((s.land d t j.due).setTile d t
      (((s.land d t j.due).tile d t).mmaDone upset j abft)) := by
  simp only [execMmaResultCycle, hm, State.ownEvent_reached h]
  exact ⟨_, rfl⟩

variable {T : Tile} {j : MmaJob} {upset : Option (Fin 4096 × BitVec 72)}

theorem Tile.mmaDone_acc (abft : List AbftJob) (b : Nat) : (T.mmaDone upset j abft).acc b =
    (T.mmaBanks upset j).acc b :=
  (Tile.setLayouts_keep _ _ _ _).1 b

/-- The banks that a result exchanges. -/
theorem Tile.mmaBanks_acc (b : Nat) : (T.mmaBanks upset j).acc b =
    if b = j.acc.val then (T.acc b).exchange (T.mmaHigh upset j)
    else if fmtLayout j.fmtA = layPair ∧ b = j.acc.val + 1 then (T.acc b).exchange (T.mmaLow j) else T.acc b := by
  unfold Tile.mmaBanks
  dsimp only
  split
  · next hp =>
    rw [Tile.setAcc_acc, Tile.setAcc_acc, Tile.setAcc_acc]
    rw [beq_iff_eq] at hp
    by_cases hb : b = j.acc.val
    · subst hb
      simp
    · by_cases hb1 : b = j.acc.val + 1
      · subst hb1
        simp [hp]
      · simp [hb, hb1, Ne.symm hb, Ne.symm hb1]
  · next hp =>
    rw [beq_iff_eq] at hp
    rw [Tile.setAcc_acc]
    by_cases hb : b = j.acc.val
    · subst hb
      simp
    · simp [hb, hp, Ne.symm hb]

theorem Tile.mmaDone_names (abft : List AbftJob) : ∀ a ∈ accNames j.acc.val (fmtLayout j.fmtA == layPair),
    ((T.mmaDone upset j abft).acc a).visible = !(T.acc a).visible ∧ ((T.mmaDone upset j abft).acc a).busy = false := by
  intro a ha
  rw [Tile.mmaDone_acc, Tile.mmaBanks_acc]
  unfold accNames at ha
  split
  · exact ⟨rfl, rfl⟩
  · next hne =>
    split at ha
    · next hp =>
      have ha1 : a = j.acc.val + 1 := by simpa [hne] using ha
      rw [if_pos ⟨beq_iff_eq.1 hp, ha1⟩]
      exact ⟨rfl, rfl⟩
    · exact absurd (List.mem_singleton.1 ha) hne

/-- Element e of an MMA's result, from the visible banks (R76 to R78). -/
def Tile.mmaNew (T : Tile) (j : MmaJob) (e : Nat) : W72 × W72 × FpFlags :=
  mmaElem (fmtLayout j.fmtA) (kPairs (opVals j.fmtA j.a) (opVals j.fmtB j.b) (kSlice j.fmtA) (e / 64) (e % 64))
    (if j.add then addends (fmtLayout j.fmtA) (T.visBank j.acc.val) (T.visBank (j.acc.val + 1)) e else [])

theorem addends_low (lay : Nat) (hi lo : Table (BitVec 72)) (e : Nat) :
    addends lay hi (if lay == layPair then lo else []) e = addends lay hi lo e := by
  unfold addends
  by_cases h : lay = layPair
  · rw [if_pos h, if_pos h, if_pos (beq_iff_eq.2 h)]
  · rw [if_neg h, if_neg h]

theorem Tile.mmaSums_eq (T : Tile) (j : MmaJob) : T.mmaSums j = (List.range 4096).map (T.mmaNew j) := by
  unfold Tile.mmaSums MmaJob.result
  refine List.map_congr_left fun e _ => ?_
  rw [addends_low]
  rfl

theorem Tile.mmaSums_getD {α : Type} (T : Tile) (j : MmaJob) (g : W72 × W72 × FpFlags → α) (x : α) {e : Nat}
    (he : e < 4096) : ((T.mmaSums j).map g).getD e x = g (T.mmaNew j e) := by
  rw [Tile.mmaSums_eq]
  simp [List.getD_eq_getElem?_getD, he]

theorem Tile.mmaHigh_get {e : Nat} (he : e < 4096) (hu : ∀ u ∈ upset, u.1.val ≠ e) :
    Table.get 0 (T.mmaHigh upset j) e = (T.mmaNew j e).1 := by
  unfold Tile.mmaHigh
  cases upset with
  | none => exact (tableOfList_get _ _ _).trans (T.mmaSums_getD j _ _ he)
  | some u =>
    obtain ⟨n, v⟩ := u
    have hne : ¬ n.val = e := hu (n, v) rfl
    rw [Table.get_set, if_neg hne]
    exact (tableOfList_get _ _ _).trans (T.mmaSums_getD j _ _ he)

theorem Tile.mmaDone_high (abft : List AbftJob) {e : Nat} (he : e < 4096) (hu : ∀ u ∈ upset, u.1.val ≠ e) :
    Table.get 0 ((T.mmaDone upset j abft).visBank j.acc.val) e = (T.mmaNew j e).1 := by
  rw [Tile.visBank, Tile.mmaDone_acc, Tile.mmaBanks_acc, if_pos rfl, Acc.exchange_bank, Tile.mmaHigh_get he hu]

theorem Tile.mmaDone_low (abft : List AbftJob) (hp : fmtLayout j.fmtA = layPair) {e : Nat} (he : e < 4096) :
    Table.get 0 ((T.mmaDone upset j abft).visBank (j.acc.val + 1)) e = (T.mmaNew j e).2.1 := by
  rw [Tile.visBank, Tile.mmaDone_acc, Tile.mmaBanks_acc, if_neg (by omega), if_pos ⟨hp, rfl⟩, Acc.exchange_bank,
    Tile.mmaLow, if_pos (beq_iff_eq.2 hp), tableOfList_get]
  exact T.mmaSums_getD j _ _ he

/-- The flags of a result land with it (R79). -/
theorem Tile.mmaDone_flags (abft : List AbftJob) : ∃ fl : FpFlags,
    (∀ i, fl.getLsbD i = true ↔ ∃ e < 4096, (T.mmaNew j e).2.2.getLsbD i = true) ∧
    (⟨j.due, j.count.toNat, .cvtUpdate j.ctx none 0 fl⟩ : Pend) ∈ (T.mmaDone upset j abft).pend := by
  refine ⟨_, fun i => ?_, Tile.mem_addPend _ _ _ _⟩
  rw [allFlags_map_bit, Tile.mmaSums_eq]
  simp

theorem Tile.mmaDone_keeps (abft : List AbftJob) :
    let U := T.mmaDone upset j abft
    U.mmas = T.mmas.drop 1 ∧ U.vregs = T.vregs ∧ U.masks = T.masks ∧ U.sram = T.sram ∧ U.oqm = T.oqm := by
  obtain ⟨-, hmmas, hv, hm, hs, hq⟩ := Tile.setLayouts_keep (accNames j.acc.val (fmtLayout j.fmtA == layPair))
    (T.mmaBanks upset j) j.ctx (fmtLayout j.fmtA)
  have hbanks : (T.mmaBanks upset j).mmas = T.mmas ∧ (T.mmaBanks upset j).vregs = T.vregs ∧
      (T.mmaBanks upset j).masks = T.masks ∧ (T.mmaBanks upset j).sram = T.sram ∧
      (T.mmaBanks upset j).oqm = T.oqm := by
    unfold Tile.mmaBanks
    dsimp only
    split <;> exact ⟨rfl, rfl, rfl, rfl, rfl⟩
  obtain ⟨gmmas, gv, gm, gs, gq⟩ := hbanks
  exact ⟨congrArg (List.drop 1) (hmmas.trans gmmas), hv.trans gv, hm.trans gm, hs.trans gs, hq.trans gq⟩

/-! ## Exchanges, readers and verdicts -/

theorem execAccloadExchange_due {j0 j : LoadJob} {rest0 rest : List LoadJob} (h0 : (s.tile d t).loads = j0 :: rest0)
    (h : s.reached d t j0.due = true) (hl : ((s.land d t j0.due).tile d t).loads = j :: rest) :
    execAccloadExchange d t s = .next ((s.land d t j0.due).setTile d t
      (let T := (s.land d t j0.due).tile d t
       { (T.setAcc j.acc.val ((T.acc j.acc.val).exchange (accOfImage j.data))).setLayout j.ctx j.acc.val j.layout.toNat
          with loads := rest })) := by
  simp only [execAccloadExchange, h0, State.ownEvent_reached h, Tile.loadExchange, hl]

theorem execAccumulatorReadComplete_due {r : AccReader} {l : List AccReader} (hr : (s.tile d t).readers = r :: l)
    (h : s.reached d t r.due = true) : execAccumulatorReadComplete d t s =
      .next ((s.land d t r.due).setTile d t { (s.land d t r.due).tile d t with
        readers := ((s.land d t r.due).tile d t).readers.filter (fun x => x.count != r.count) }) := by
  simp only [execAccumulatorReadComplete, hr, State.ownEvent_reached h]

theorem execAbftVerdict_due {x : AbftJob} {rest : List AbftJob} (hx : (s.tile d t).abft = x :: rest)
    (h : s.reached d t (x.mma.due + 16) = true) :
    execAbftVerdict d t s = .next ((s.land d t (x.mma.due + 16)).abftJudge d t x) := by
  simp only [execAbftVerdict, hx, State.ownEvent_reached h]

/-- A verdict: off, it only leaves the list; on, the lines not checked are counted and a failure is recorded. -/
theorem State.abftJudge_eq (s : State) (d t : Nat) (x : AbftJob) :
    let T : Tile := { s.tile d t with abft := (s.tile d t).abft.drop 1 }
    let n := (x.verdicts.1 ++ x.verdicts.2).countP (· == .unchecked)
    let s2 := (s.setTile d t T).setTile d t { T with regs := { T.regs with
      linesUn := BitVec.ofNat 32 (satAdd 0xFFFFFFFF T.regs.linesUn.toNat n) } }
    s.abftJudge d t x = if s.abftOff T then s.setTile d t T
      else if firstFail x.verdicts.1 = 0xFF ∧ firstFail x.verdicts.2 = 0xFF then s2
      else s2.abftFail d t x.mma (firstFail x.verdicts.1) (firstFail x.verdicts.2) := by
  intro T n s2
  unfold State.abftJudge
  dsimp only
  rw [State.setTile_tile_self]
  rfl

end Sys2Proof.Machine
end

section
/-! The sums of the accumulator layouts: exact, then one fixed word, one rounding to 56 bits or a pair (R76 to R78). -/
namespace Sys2Proof.Machine

/-! ## Exact sums of numbers -/

theorem all_plain {l : List FVal} {xs : List ℝ} (h : List.Forall₂ FVal.is l xs) : ∀ v ∈ l, ∃ x, v.is x := by
  intro v hv
  obtain ⟨i, hi, rfl⟩ := List.getElem_of_mem hv
  exact ⟨_, (List.forall₂_iff_get.1 h).2 i hi ((List.forall₂_iff_get.1 h).1 ▸ hi)⟩

theorem any_false {α : Type} {l : List α} {p : α → Bool} (h : ∀ x ∈ l, p x = false) : l.any p = false :=
  List.any_eq_false.2 fun x hx => by rw [h x hx]; exact Bool.false_ne_true

theorem no_infinity {l : List FVal} (h : ∀ v ∈ l, ∃ x, v.is x) (p : FVal → Bool) :
    l.any (fun v => v.isInf && p v) = false := any_false fun v hv => by
  obtain ⟨x, hx⟩ := h v hv
  rw [hx.plain.2, Bool.false_and]

theorem sumTerms_eq {l : List FVal} {xs : List ℝ} (h : List.Forall₂ FVal.is l xs) :
    sumTerms l = FVal.ofDyad (l.all FVal.neg?) (Dyad.sum (l.map FVal.dyad)) ∧
      (Dyad.sum (l.map FVal.dyad)).num xs.sum := by
  have hp := all_plain h
  have hnan : l.any FVal.isNan = false := any_false fun v hv => (hp v hv).choose_spec.notNan
  refine ⟨?_, Dyad.sum_num ?_⟩
  · unfold sumTerms
    rw [hnan, no_infinity hp, no_infinity hp]
    rfl
  · rw [List.forall₂_map_left_iff]
    exact h.imp fun _ _ hh => hh.num

theorem sumTerms_zero {l : List FVal} {xs : List ℝ} (h : List.Forall₂ FVal.is l xs) (h0 : xs.sum = 0) :
    sumTerms l = .fin (l.all FVal.neg?) 0 0 := by
  obtain ⟨heq, hnum⟩ := sumTerms_eq h
  rw [heq, FVal.ofDyad, if_pos ((num_zero hnum).2 h0)]

theorem mulExact_neg {a b : FVal} {x y : ℝ} (ha : a.is x) (hb : b.is y) :
    (mulExact a b).neg? = (a.neg? != b.neg?) := by
  obtain ⟨n1, m1, e1, rfl, -⟩ := ha
  obtain ⟨n2, m2, e2, rfl, -⟩ := hb
  simp [mulExact, FVal.isNan, FVal.isInf, FVal.neg?]

section
variable {ops : List (FVal × FVal)} {old : List FVal} {xs : List (ℝ × ℝ)} {us : List ℝ}
  (hops : List.Forall₂ (fun p x => p.1.is x.1 ∧ p.2.is x.2) ops xs) (hold : List.Forall₂ FVal.is old us)
include hops

theorem ops_plain : ∀ p ∈ ops, ∃ x y, p.1.is x ∧ p.2.is y := by
  intro p hp
  obtain ⟨i, hi, rfl⟩ := List.getElem_of_mem hp
  have h := (List.forall₂_iff_get.1 hops).2 i hi ((List.forall₂_iff_get.1 hops).1 ▸ hi)
  exact ⟨_, _, h.1, h.2⟩

include hold

/-- The terms of an element: its old value and its products. -/
theorem terms_is : List.Forall₂ FVal.is (old ++ ops.map (fun p => mulExact p.1 p.2))
    (us ++ xs.map (fun x => x.1 * x.2)) := by
  refine List.rel_append hold ?_
  rw [List.forall₂_map_left_iff, List.forall₂_map_right_iff]
  exact hops.imp fun _ _ h => mulExact_is h.1 h.2

omit hold in
theorem terms_sign : (old ++ ops.map (fun p => mulExact p.1 p.2)).all FVal.neg? =
    (old.map FVal.neg? ++ ops.map (fun p => p.1.neg? != p.2.neg?)).all id := by
  rw [List.all_append, List.all_append, List.all_map, List.all_map, List.all_map]
  congr 1
  rw [Bool.eq_iff_iff, List.all_eq_true, List.all_eq_true]
  refine forall₂_congr fun p hp => ?_
  obtain ⟨x, y, hx, hy⟩ := ops_plain hops p hp
  exact Bool.eq_iff_iff.1 (mulExact_neg hx hy)

theorem sumInvalid_numbers : sumInvalid ops old = false := by
  have hterms := all_plain (terms_is hops hold)
  have hop : ops.any (fun p => p.1.isSnan || p.2.isSnan || (p.1.isInf && p.2.isZero) || (p.1.isZero && p.2.isInf)) =
      false := any_false fun p hp => by
    obtain ⟨x, y, hx, hy⟩ := ops_plain hops p hp
    rw [isSnan_of_not_nan hx.notNan, isSnan_of_not_nan hy.notNan, hx.plain.2, hy.plain.2]
    simp
  have hadd : old.any FVal.isSnan = false := any_false fun v hv => by
    obtain ⟨x, hx⟩ := all_plain hold v hv
    exact isSnan_of_not_nan hx.notNan
  unfold sumInvalid
  dsimp only
  rw [hop, hadd, no_infinity hterms]
  rfl

theorem mmaElem_pair : mmaElem layPair ops old =
    w72Pair (sumTerms (old ++ ops.map (fun p => mulExact p.1 p.2))) := by
  unfold mmaElem
  rw [sumInvalid_numbers hops hold, if_pos rfl]
  exact Prod.ext rfl (Prod.ext rfl BitVec.or_zero)

theorem mmaElem_float : mmaElem layFloat ops old =
    let r := w72Float (sumTerms (old ++ ops.map (fun p => mulExact p.1 p.2)))
    (r.1, 0, r.2) := by
  unfold mmaElem
  rw [sumInvalid_numbers hops hold, if_neg (by decide), if_pos rfl]
  exact Prod.ext rfl (Prod.ext rfl BitVec.or_zero)

theorem mmaElem_fixed {lay : Nat} (hlay : lay < 2) : mmaElem lay ops old =
    let r := w72Fixed lay (sumTerms (old ++ ops.map (fun p => mulExact p.1 p.2)))
    (r.1, 0, r.2) := by
  have hpair : lay ≠ layPair := by unfold layPair; omega
  have hfloat : lay ≠ layFloat := by unfold layFloat; omega
  unfold mmaElem
  rw [sumInvalid_numbers hops hold, if_neg hpair, if_neg hfloat]
  exact Prod.ext rfl (Prod.ext rfl BitVec.or_zero)

end

/-! ## A word of an exact sum -/

theorem w72Pair_zero (s : Bool) : w72Pair (.fin s 0 0) = (BitVec.ofNat 72 (fp64.signBit s), 0, 0) := by
  cases s <;> decide

/-- HI and LO of a number (R78). -/
theorem w72Pair_number {v : FVal} {x : ℝ} (hv : v.is x) (hx : x ≠ 0) : ∃ hi lo, pairOf x hi lo ∧
    (∀ h, (fp64.decode hi).is h → w72Pair v = (BitVec.ofNat 72 hi, BitVec.ofNat 72 lo, 0)) ∧
    (∀ n, fp64.decode hi = .inf n → w72Pair v = (BitVec.ofNat 72 hi, 0, fOverflow)) := by
  obtain ⟨s, m, e, rfl, -⟩ := id hv
  obtain ⟨hi, lo, f1, f2, hgives, hinf, hpair, -, -⟩ := w72Pair_is s m e x hv hx
  exact ⟨hi, lo, ⟨f1, f2, hgives, fun h hh => (hpair h hh).2⟩, fun h hh => (hpair h hh).1,
    fun n hn => hinf (by rw [hn]; rfl)⟩

theorem w72Float_zero (s : Bool) : w72Val layFloat (w72Float (.fin s 0 0)).1 = .fin s 0 0 ∧
    (w72Float (.fin s 0 0)).2 = 0 := by
  cases s <;> decide

/-- A number rounded once to 56 bits (R43, R77). -/
theorem w72Float_number {v : FVal} {x : ℝ} (hv : v.is x) (hx : x ≠ 0) :
    floatOf x (w72Val layFloat (w72Float v).1, (w72Float v).2) := by
  obtain ⟨s, m, e, rfl, hval⟩ := id hv
  have hpos : (0 : ℝ) ≤ m * 2 ^ e := by positivity
  have habs : |x| = m * 2 ^ e := by cases s <;> simp [hval, abs_of_nonneg hpos]
  obtain ⟨q, n, hlow, hhigh, hround, hover, hunder, hin⟩ := w72Float_is s m e |x| habs (fun h => hx (hv.zeroMag.1 h))
  refine ⟨s, q, n, neg_of_is hv hx, hlow, hhigh, hround, fun h => ?_, fun h => ?_, hin⟩
  · exact Prod.ext (hover h).2 (hover h).1
  · exact Prod.ext (hunder h).2 (hunder h).1

/-! ## Exponents of the fixed layouts -/

/-- A number lies on the grid of exponent L. -/
def FVal.onGrid (L : Int) (v : FVal) : Prop := ∀ n m e, v = .fin n m e → L ≤ e

theorem decode_onGrid (f : Fmt) (x : Nat) : (f.decode x).onGrid (1 - f.bias - f.fbits) := by
  intro n m e h
  simp only [Fmt.decode] at h
  split at h
  · cases h
  · split at h
    · split at h <;> cases h
    · split at h
      · cases h
        exact le_refl _
      · next hne =>
        cases h
        have hpos : (x % 2 ^ (f.ebits + f.fbits)) >>> f.fbits ≠ 0 := by simpa using hne
        have hone : (1 : Int) ≤ ((x % 2 ^ (f.ebits + f.fbits)) >>> f.fbits : Nat) := by
          exact_mod_cast Nat.pos_of_ne_zero hpos
        linarith

theorem add_onGrid {L : Int} {a b : Dyad} (ha : L ≤ a.e) (hb : L ≤ b.e) : L ≤ (a.add b).e := by
  have halign : L ≤ (a.align b).2.2 := by
    unfold Dyad.align
    split <;> assumption
  unfold Dyad.add
  split
  · exact hb
  · split
    · exact ha
    · exact halign

theorem sum_onGrid {L : Int} (l : List Dyad) (a : Dyad) (ha : L ≤ a.e) (h : ∀ d ∈ l, L ≤ d.e) :
    L ≤ (l.foldl Dyad.add a).e := by
  induction l generalizing a with
  | nil => exact ha
  | cons d l ih =>
    exact ih _ (add_onGrid ha (h d List.mem_cons_self)) fun x hx => h x (List.mem_cons_of_mem _ hx)

theorem sumTerms_onGrid {L : Int} (hL : L ≤ 0) {l : List FVal} {xs : List ℝ} (h : List.Forall₂ FVal.is l xs)
    (hgrid : ∀ v ∈ l, v.onGrid L) : (sumTerms l).onGrid L := by
  have hsum : L ≤ (Dyad.sum (l.map FVal.dyad)).e := by
    refine sum_onGrid _ _ hL fun d hd => ?_
    obtain ⟨v, hv, rfl⟩ := List.mem_map.1 hd
    obtain ⟨x, n, m, e, rfl, -⟩ := all_plain h v hv
    exact hgrid _ hv n m e rfl
  rw [(sumTerms_eq h).1]
  intro n m e heq
  unfold FVal.ofDyad at heq
  split at heq <;> cases heq
  · exact hL
  · exact hsum

theorem mulExact_onGrid {L K : Int} {a b : FVal} {x y : ℝ} (ha : a.is x) (hb : b.is y) (hga : a.onGrid L)
    (hgb : b.onGrid K) : (mulExact a b).onGrid (L + K) := by
  obtain ⟨n1, m1, e1, rfl, -⟩ := ha
  obtain ⟨n2, m2, e2, rfl, -⟩ := hb
  have h1 := hga n1 m1 e1 rfl
  have h2 := hgb n2 m2 e2 rfl
  have hmul : ∃ m, mulExact (.fin n1 m1 e1) (.fin n2 m2 e2) = .fin (n1 != n2) m (e1 + e2) :=
    ⟨((FVal.fin n1 m1 e1).dyad.mul (FVal.fin n2 m2 e2).dyad).m.natAbs, by
      simp [mulExact, FVal.isNan, FVal.isInf, FVal.neg?, FVal.dyad]⟩
  obtain ⟨k, hmul⟩ := hmul
  intro n m e heq
  rw [hmul] at heq
  cases heq
  exact add_le_add h1 h2

theorem w72Val_onGrid {lay : Nat} (hlay : lay < 2) (w : W72) : (w72Val lay w).onGrid (fixedLsb lay) := by
  intro n m e heq
  have hfloat : lay ≠ layFloat := by unfold layFloat; omega
  rw [w72Val, if_neg hfloat] at heq
  split at heq <;> cases heq
  exact le_refl _

theorem onGrid_mono {L K : Int} (h : K ≤ L) {v : FVal} (hv : v.onGrid L) : v.onGrid K :=
  fun n m e heq => h.trans (hv n m e heq)

/-- A fixed-layout word of an exact sum on the layout's grid (R44, R76). -/
theorem w72Fixed_number {lay : Nat} (hlay : lay < 2) {v : FVal} {x : ℝ} (hv : v.is x)
    (hgrid : v.onGrid (fixedLsb lay)) : ∃ N : Int, x = N * 2 ^ fixedLsb lay ∧
      (-(2 ^ 69) ≤ N → N < 2 ^ 69 → (w72Fixed lay v).2 = 0 ∧ (w72Val lay (w72Fixed lay v).1).is x) ∧
      (2 ^ 69 ≤ N → (w72Fixed lay v).2 = fOverflow ∧ w72Val lay (w72Fixed lay v).1 = .inf false) ∧
      (N < -(2 ^ 69) → (w72Fixed lay v).2 = fOverflow ∧ w72Val lay (w72Fixed lay v).1 = .inf true) := by
  obtain ⟨s, m, e, rfl, hval⟩ := hv
  have hle := hgrid s m e rfl
  have hfloat : lay ≠ layFloat := by unfold layFloat; omega
  obtain ⟨hin, hover, hunder⟩ := w72Fixed_is lay hfloat s m e _ rfl
  have hx : x = (((if s then -1 else 1) * (m * 2 ^ (e - fixedLsb lay).toNat) : Int) : ℝ) * 2 ^ fixedLsb lay := by
    have hpow : (2 : ℝ) ^ (e - fixedLsb lay).toNat * 2 ^ fixedLsb lay = 2 ^ e := by
      rw [← zpow_natCast, ← zpow_add₀ (by norm_num)]
      congr 1
      omega
    rw [hval, ← hpow]
    cases s <;> push_cast <;> simp <;> ring
  refine ⟨_, hx, fun h1 h2 => ?_, hover, hunder⟩
  obtain ⟨hflag, hword⟩ := hin h1 h2
  rw [← hx] at hword
  exact ⟨hflag, hword⟩

end Sys2Proof.Machine
end

section
/-! Line sums and verdicts (R88 to R90), and the accumulator obligation. -/
namespace Sys2Proof.Machine

variable {a b : FVal} {x y : ℝ}

/-! ## Additions of a line -/

theorem lineAdd_fixed {lay : Nat} (hlay : lay < 2) (a b : FVal) : lineAdd lay a b = addExact a b := by
  have hfloat : lay ≠ layFloat := by unfold layFloat; omega
  have hpair : lay ≠ layPair := by unfold layPair; omega
  rw [lineAdd, if_neg hfloat, if_neg hpair]

theorem lineAdd_float (a b : FVal) : lineAdd layFloat a b = w72Val layFloat (w72Float (addExact a b)).1 := by
  rw [lineAdd, if_pos rfl]

theorem lineAdd_pair (a b : FVal) : lineAdd layPair a b = (dfAdd (a, 0) (b, 0)).1 := rfl

theorem lineAdd_floatOf (ha : a.is x) (hb : b.is y) (h : x + y ≠ 0) :
    ∃ fl, floatOf (x + y) (lineAdd layFloat a b, fl) := by
  rw [lineAdd_float]
  exact ⟨_, w72Float_number (addExact_is ha hb) h⟩

theorem lineAdd_pairOf (ha : a.is x) (hb : b.is y) (h : x + y ≠ 0) : ∃ hi lo, pairOf (x + y) hi lo ∧
    ∀ h l, (fp64.decode hi).is h → (fp64.decode lo).is l → (lineAdd layPair a b).is (h + l) := by
  obtain ⟨hi, lo, hpair, hval, -⟩ := dfAdd_is 0 0 ha hb h
  refine ⟨hi, lo, hpair, fun h l hh hl => ?_⟩
  obtain ⟨v, heq, hv⟩ := hval h l hh hl
  rw [lineAdd_pair, heq]
  exact hv

theorem lineAdd_zero {lay : Nat} (hlay : lay < 4) (ha : a.is x) (hb : b.is y) (h : x + y = 0) :
    (lineAdd lay a b).is 0 := by
  have hzero (n : Bool) : (FVal.fin n 0 0).is 0 := ⟨n, 0, 0, rfl, by simp⟩
  have hlays : lay < 2 ∨ lay = layFloat ∨ lay = layPair := by unfold layFloat layPair; omega
  rcases hlays with hlay | rfl | rfl
  · rw [lineAdd_fixed hlay, addExact_zero ha hb h]
    exact hzero _
  · rw [lineAdd_float, addExact_zero ha hb h, (w72Float_zero _).1]
    exact hzero _
  · rw [lineAdd_pair, dfAdd_zero 0 0 ha hb h]
    exact hzero _

/-! ## Magnitudes, rounded up (R89) -/

section
variable {d : Dyad}

theorem natAbs_mag (hd : 0 < d.m) : ((d.m.natAbs : Nat) : ℝ) = d.m := by
  rw [Nat.cast_natAbs, abs_of_pos hd]

theorem magUp_float (hd : 0 < d.m) : ∃ (q : Int) (n : Nat), 2 ^ 55 * 2 ^ q ≤ (d.m * 2 ^ d.e : ℝ) ∧
    (d.m * 2 ^ d.e : ℝ) < 2 ^ 56 * 2 ^ q ∧ Rm.up.rounds false n (2 ^ q) (d.m * 2 ^ d.e) ∧
    magUp layFloat (some d) = some ⟨n, q⟩ := by
  have hpow : (0 : ℝ) < 2 ^ d.e := by positivity
  have hwithin : within d.m.natAbs d.e false (d.m * 2 ^ d.e) := by
    refine ⟨by rw [natAbs_mag hd], by rw [natAbs_mag hd]; linarith, by simp [natAbs_mag hd]⟩
  obtain ⟨hlow, hhigh⟩ := within_precise (Int.natAbs_ne_zero.2 hd.ne') hwithin
  have hpow2 (k : Nat) (q : Int) : (2 : ℝ) ^ k * 2 ^ q = 2 ^ ((k : Int) + q) := by
    rw [← zpow_natCast, ← zpow_add₀ (by norm_num)]
  refine ⟨leadExp d.m.natAbs d.e - 55, (roundTo .up false d.m.natAbs d.e (leadExp d.m.natAbs d.e - 55) false).1,
    ?_, ?_, (roundTo_rounds _ _ _ _ _ _ _ hwithin (by simp)).1, ?_⟩
  · rw [hpow2]
    refine le_trans (le_of_eq ?_) hlow
    congr 1
    push_cast
    ring
  · rw [hpow2]
    refine lt_of_lt_of_eq hhigh ?_
    congr 1
    push_cast
    ring
  · rw [magUp, if_neg hd.ne', if_neg (by decide)]

theorem magUp_pair (hd : 0 < d.m) : ∃ code fl, fp64.gives .up (d.m * 2 ^ d.e) (code, fl) ∧
    magUp layPair (some d) = (fp64.decode code).mag? := by
  have hnum : d.num (d.m * 2 ^ d.e) := rfl
  have hne : (d.m * 2 ^ d.e : ℝ) ≠ 0 := fun h => hd.ne' ((num_zero hnum).2 h)
  refine ⟨(fp64.roundDyad .up false d).1, (fp64.roundDyad .up false d).2,
    Fmt.roundDyad_gives fp64_sound .up false hnum hne, ?_⟩
  rw [magUp, if_neg hd.ne', if_pos rfl]

end

/-! ## Verdicts -/

theorem treeSum_tree {α : Type} (add : α → α → α) (z : α) {l : List α} (h : l ≠ []) :
    SumTree add l (treeSum add z l) := treeSumAux_tree _ add z l h

/-- The sum E that a line is held against. -/
def lineExpected (lay : Nat) (old : List (FVal × Dyad)) (ks : List (FVal × FVal)) : FVal :=
  let k := lineRound lay (sumTerms (ks.map (fun p => mulExact p.1 p.2)))
  if (old.map (·.1)).isEmpty then k else lineAdd lay k (treeSum (lineAdd lay) (.fin false 0 0) (old.map (·.1)))

/-- A sum of magnitudes in the line's tree. -/
def magSum (lay : Nat) (l : List (FVal × Dyad)) : Mag :=
  treeSum (magAdd lay) (some Dyad.zero) (l.map (fun v => magUp lay (some v.2)))

def factorSum (lay : Nat) (ks : List (FVal × FVal)) : Mag :=
  treeSum (magAdd lay) (some Dyad.zero) (ks.map (fun p => some (p.1.dyad.mul p.2.dyad).abs))

section
variable {lay : Nat} {new old : List (FVal × Dyad)} {ks : List (FVal × FVal)}

theorem lineVerdict_eq (lay : Nat) (new old : List (FVal × Dyad)) (ks : List (FVal × FVal)) :
    lineVerdict lay new old ks =
      let e := lineExpected lay old ks
      let g := treeSum (lineAdd lay) (.fin false 0 0) (new.map (·.1))
      if !e.finite || (new.map (·.1)).any (fun v => !v.finite) then .unchecked
      else if lay = layFixed8 || lay = layFixed4 then (if (g.dyad.sub e.dyad).m = 0 then .pass else .fail)
      else if withinTol (if lay = layPair then 96 else 48) (magAdd lay (magAdd lay (magSum lay new) (magSum lay old))
        (factorSum lay ks)) g e then .pass else .fail := rfl

theorem lineVerdict_unchecked_of (h : (lineExpected lay old ks).finite = false ∨ ∃ n ∈ new, n.1.finite = false) :
    lineVerdict lay new old ks = .unchecked := by
  rw [lineVerdict_eq]
  refine if_pos ?_
  rcases h with h | ⟨n, hn, h⟩
  · rw [h]
    rfl
  · rw [Bool.or_eq_true, List.any_eq_true]
    exact .inr ⟨n.1, List.mem_map_of_mem hn, by rw [h]; rfl⟩

theorem lineVerdict_finite (he : (lineExpected lay old ks).finite = true) (hn : ∀ n ∈ new, n.1.finite = true) :
    lineVerdict lay new old ks =
      let e := lineExpected lay old ks
      let g := treeSum (lineAdd lay) (.fin false 0 0) (new.map (·.1))
      if lay = layFixed8 || lay = layFixed4 then (if (g.dyad.sub e.dyad).m = 0 then .pass else .fail)
      else if withinTol (if lay = layPair then 96 else 48) (magAdd lay (magAdd lay (magSum lay new) (magSum lay old))
        (factorSum lay ks)) g e then .pass else .fail := by
  rw [lineVerdict_eq]
  refine if_neg ?_
  rw [he, any_false (fun v hv => ?_)]
  · decide
  · obtain ⟨n, hmem, rfl⟩ := List.mem_map.1 hv
    rw [hn n hmem]
    rfl

theorem pass_iff (p : Prop) [Decidable p] : ((if p then LineVerdict.pass else .fail) = .pass ↔ p) ∧
    ((if p then LineVerdict.pass else .fail) = .fail ↔ ¬ p) := by
  by_cases h : p <;> simp [h]

theorem sub_num {g e : FVal} (hg : g.is x) (he : e.is y) : (g.dyad.sub e.dyad).num (x - y) := by
  rw [sub_eq_add_neg]
  exact Dyad.add_num hg.num (Dyad.neg_num he.num)

/-- In the fixed layouts a line passes where both sums are one number. -/
theorem lineVerdict_fixed (hlay : lay < 2) (he : (lineExpected lay old ks).finite = true)
    (hn : ∀ n ∈ new, n.1.finite = true)
    (hg : (treeSum (lineAdd lay) (.fin false 0 0) (new.map (·.1))).is x) (hy : (lineExpected lay old ks).is y) :
    (lineVerdict lay new old ks = .pass ↔ x = y) ∧ (lineVerdict lay new old ks = .fail ↔ x ≠ y) := by
  have hfix : (decide (lay = layFixed8) || decide (lay = layFixed4)) = true := by
    unfold layFixed8 layFixed4
    simp only [Bool.or_eq_true, decide_eq_true_eq]
    omega
  rw [lineVerdict_finite he hn]
  dsimp only
  rw [if_pos hfix]
  obtain ⟨hpass, hfail⟩ := pass_iff
    (((treeSum (lineAdd lay) (.fin false 0 0) (new.map (·.1))).dyad.sub (lineExpected lay old ks).dyad).m = 0)
  have hiff := (num_zero (sub_num hg hy)).trans sub_eq_zero
  exact ⟨hpass.trans hiff, hfail.trans (not_congr hiff)⟩

theorem lineVerdict_tol (hlay : 2 ≤ lay) (he : (lineExpected lay old ks).finite = true)
    (hn : ∀ n ∈ new, n.1.finite = true) : lineVerdict lay new old ks =
      if withinTol (if lay = layPair then 96 else 48) (magAdd lay (magAdd lay (magSum lay new) (magSum lay old))
        (factorSum lay ks)) (treeSum (lineAdd lay) (.fin false 0 0) (new.map (·.1))) (lineExpected lay old ks)
      then .pass else .fail := by
  have hfix : ¬ (decide (lay = layFixed8) || decide (lay = layFixed4)) = true := by
    unfold layFixed8 layFixed4
    simp only [Bool.or_eq_true, decide_eq_true_eq]
    omega
  rw [lineVerdict_finite he hn]
  exact if_neg hfix

theorem abs_num {d : Dyad} (h : d.num x) : d.abs.num |x| := by
  have hpow : (0 : ℝ) < 2 ^ d.e := by positivity
  show |x| = _
  rw [show x = d.m * 2 ^ d.e from h, abs_mul, abs_of_pos hpow]
  congr 1
  show |(d.m : ℝ)| = ((d.m.natAbs : Int) : ℝ)
  rw [Int.natCast_natAbs, Int.cast_abs]

theorem withinTol_iff {t : Int} {M : Dyad} {g e : FVal} (hg : g.is x) (he : e.is y) :
    withinTol t (some M) g e = true ↔ |x - y| ≤ M.m * 2 ^ (M.e - t) := by
  have hfin : g.finite = true := by
    obtain ⟨n, m, k, rfl, -⟩ := hg
    rfl
  have hle := Dyad.le_num (abs_num (sub_num hg he)) (b := ⟨M.m, M.e - t⟩) (y := M.m * 2 ^ (M.e - t)) rfl
  rw [withinTol, hfin, Bool.true_and]
  exact hle

end

/-- The verdict on a line: its sums are roots of trees, and they are held against each other (R88 to R90). -/
theorem lineVerdict_spec (lay : Nat) {new : List (FVal × Dyad)} (old : List (FVal × Dyad)) {ks : List (FVal × FVal)}
    (hnew : new ≠ []) (hks : ks ≠ []) :
    let k := lineRound lay (sumTerms (ks.map (fun p => mulExact p.1 p.2)))
    let v := lineVerdict lay new old ks
    ∃ g e : FVal, SumTree (lineAdd lay) (new.map (·.1)) g ∧
      (old = [] → e = k) ∧ (old ≠ [] → ∃ o, SumTree (lineAdd lay) (old.map (·.1)) o ∧ e = lineAdd lay k o) ∧
      ((e.finite = false ∨ ∃ n ∈ new, n.1.finite = false) → v = .unchecked) ∧
      (e.finite = true → (∀ n ∈ new, n.1.finite = true) →
        (lay < 2 → ∀ x y, g.is x → e.is y → (v = .pass ↔ x = y) ∧ (v = .fail ↔ x ≠ y)) ∧
        (2 ≤ lay → ∃ mn mo mk, SumTree (magAdd lay) (new.map (fun n => magUp lay (some n.2))) mn ∧
          (old = [] → mo = some Dyad.zero) ∧
          (old ≠ [] → SumTree (magAdd lay) (old.map (fun n => magUp lay (some n.2))) mo) ∧
          SumTree (magAdd lay) (ks.map (fun p => some (p.1.dyad.mul p.2.dyad).abs)) mk ∧
          (magAdd lay (magAdd lay mn mo) mk = none → g.isNan = false → v = .pass) ∧
          ∀ M : Dyad, magAdd lay (magAdd lay mn mo) mk = some M →
            (g.finite = false → v = .fail) ∧
            ∀ x y, g.is x → e.is y →
              let near := |x - y| ≤ M.m * 2 ^ (M.e - if lay = layPair then 96 else 48)
              (v = .pass ↔ near) ∧ (v = .fail ↔ ¬ near))) := by
  intro k v
  have hmap {β : Type} {l : List (FVal × Dyad)} (f : FVal × Dyad → β) (h : l ≠ []) : l.map f ≠ [] :=
    fun hnil => h (List.map_eq_nil_iff.1 hnil)
  refine ⟨treeSum (lineAdd lay) (.fin false 0 0) (new.map (·.1)), lineExpected lay old ks,
    treeSum_tree _ _ (hmap _ hnew), ?_, fun h => ⟨_, treeSum_tree _ (.fin false 0 0) (hmap (·.1) h), ?_⟩,
    lineVerdict_unchecked_of, fun he hn => ⟨fun hlay x y hg hy => lineVerdict_fixed hlay he hn hg hy,
      fun hlay => ⟨magSum lay new, magSum lay old, factorSum lay ks, treeSum_tree _ _ (hmap _ hnew), ?_,
        fun h => treeSum_tree _ _ (hmap _ h), treeSum_tree _ _ (fun hnil => hks (List.map_eq_nil_iff.1 hnil)), ?_, ?_⟩⟩⟩
  · rintro rfl
    rfl
  · refine if_neg fun hempty => hmap (·.1) h (List.isEmpty_iff.1 hempty)
  · rintro rfl
    rfl
  · intro hnone hnan
    have hv : v = _ := lineVerdict_tol hlay he hn
    rw [hv, hnone, withinTol, hnan]
    rfl
  · intro M hM
    have hv : v = _ := lineVerdict_tol hlay he hn
    rw [hM] at hv
    refine ⟨fun hg => ?_, fun x y hg hy => ?_⟩
    · rw [hv, withinTol, hg]
      rfl
    · rw [hv]
      obtain ⟨hpass, hfail⟩ := pass_iff (withinTol (if lay = layPair then 96 else 48) (some M)
        (treeSum (lineAdd lay) (.fin false 0 0) (new.map (·.1))) (lineExpected lay old ks) = true)
      have hiff := withinTol_iff (t := if lay = layPair then 96 else 48) (M := M) hg hy
      exact ⟨hpass.trans hiff, hfail.trans (not_congr hiff)⟩

end Sys2Proof.Machine

namespace Sys2Proof
open Sys2Proof.Machine

/-- An FP4 element is a multiple of `2⁻¹` (R43). -/
theorem e2m1_lsb : (-1 : Int) ≤ 1 - e2m1.bias - e2m1.fbits := by decide

/-- An FP8 element is a multiple of `2⁻¹⁶` (R43). -/
theorem fp8_lsb : ∀ f ∈ [e4m3, e5m2], (-16 : Int) ≤ 1 - f.bias - f.fbits := by decide

/-- Two numbers of a fixed layout's operand formats, multiplied exactly, lie on the layout's grid (R70, R76). -/
theorem product_onGrid {lay : Nat} {p : FVal × FVal} (hplain : ∃ x y, p.1.is x ∧ p.2.is y)
    (hfmt : ∃ x y, if lay = layFixed4 then p = (e2m1.decode x, e2m1.decode y)
      else ∃ f ∈ [e4m3, e5m2], ∃ g ∈ [e4m3, e5m2], p = (f.decode x, g.decode y)) :
    (mulExact p.1 p.2).onGrid (fixedLsb lay) := by
  obtain ⟨u, v, hu, hv⟩ := hplain
  obtain ⟨x, y, hp⟩ := hfmt
  split at hp
  case isTrue h4 =>
    subst hp
    rw [fixedLsb, if_pos h4]
    exact mulExact_onGrid (L := -1) (K := -1) hu hv (onGrid_mono e2m1_lsb (decode_onGrid e2m1 x))
      (onGrid_mono e2m1_lsb (decode_onGrid e2m1 y))
  case isFalse h8 =>
    obtain ⟨f, hf, g, hg, rfl⟩ := hp
    rw [fixedLsb, if_neg h8]
    exact mulExact_onGrid (L := -16) (K := -16) hu hv (onGrid_mono (fp8_lsb f hf) (decode_onGrid f x))
      (onGrid_mono (fp8_lsb g hg) (decode_onGrid g y))

/-- Old elements and products of a fixed layout lie on its grid (R76). -/
theorem fixed_onGrid {lay : Nat} (hlay : lay < 2) {ops : List (FVal × FVal)} {old : List FVal}
    (hplain : ∀ p ∈ ops, ∃ x y, p.1.is x ∧ p.2.is y)
    (hfmt : ∀ p ∈ ops, ∃ x y, if lay = layFixed4 then p = (e2m1.decode x, e2m1.decode y)
      else ∃ f ∈ [e4m3, e5m2], ∃ g ∈ [e4m3, e5m2], p = (f.decode x, g.decode y))
    (hwords : ∀ v ∈ old, ∃ w, v = w72Val lay w) :
    ∀ v ∈ old ++ ops.map (fun p => mulExact p.1 p.2), v.onGrid (fixedLsb lay) := by
  intro v hv
  rcases List.mem_append.1 hv with hold | hprod
  · obtain ⟨w, rfl⟩ := hwords v hold
    exact w72Val_onGrid hlay w
  · obtain ⟨p, hp, rfl⟩ := List.mem_map.1 hprod
    exact product_onGrid (hplain p hp) (hfmt p hp)

/-- Settles O6: the exchange of banks by its equations; an element is a word of one exact sum; a line's sums are roots
of trees. -/
theorem accumulatorBanksExchange : Obligations.AccumulatorBanksExchange := by
  refine ⟨?_, ?_, ?_, ?_, ?_⟩
  · intro d t s
    refine ⟨?_, ?_, fun r l hr h => execAccumulatorReadComplete_due hr h, ?_⟩
    · intro upset j rest hm h s1 T
      obtain ⟨abft, hexec⟩ := execMmaResultCycle_due upset hm h
      obtain ⟨hmmas, hv, hmask, hsram, hoq⟩ := Tile.mmaDone_keeps (T := T) (j := j) (upset := upset) abft
      exact ⟨_, hexec, hmmas, Tile.mmaDone_names abft, ⟨fun e he hu => Tile.mmaDone_high abft he hu,
        fun hp _ e he => Tile.mmaDone_low abft hp he, Tile.mmaDone_flags abft⟩, hv, hmask, hsram, hoq⟩
    · intro j0 rest0 j rest h0 h s1 T hl
      exact execAccloadExchange_due h0 h hl
    · intro x rest hx h s1 T n s2 col row
      have hexec := execAbftVerdict_due hx h
      rw [State.abftJudge_eq] at hexec
      refine ⟨fun hoff => ?_, fun hoff hcol hrow => ?_, fun hoff hfail => ?_⟩
      · exact hexec.trans (congrArg Host.Outcome.next (if_pos hoff))
      · exact hexec.trans (congrArg Host.Outcome.next ((if_neg (ne_true_of_eq_false hoff)).trans (if_pos ⟨hcol, hrow⟩)))
      · exact hexec.trans (congrArg Host.Outcome.next ((if_neg (ne_true_of_eq_false hoff)).trans
          (if_neg fun hboth => hfail.elim (fun h => h hboth.1) (fun h => h hboth.2))))
  · intro ops old xs us hops hold total sign
    have hterms := terms_is hops hold
    have hsum := sumTerms_is hterms
    rw [List.sum_append] at hsum
    have hzero (h0 : total = 0) : sumTerms (old ++ ops.map (fun p => mulExact p.1 p.2)) = .fin sign 0 0 := by
      rw [sumTerms_zero hterms (by rw [List.sum_append]; exact h0), terms_sign hops]
    refine ⟨fun hne => ?_, fun h0 => ?_, ⟨fun hne => ?_, fun h0 => ?_⟩, fun lay hlay hfmt hwords => ?_⟩
    · rw [mmaElem_pair hops hold]
      exact w72Pair_number hsum hne
    · rw [mmaElem_pair hops hold, hzero h0, w72Pair_zero]
    · rw [mmaElem_float hops hold]
      exact w72Float_number hsum hne
    · rw [mmaElem_float hops hold, hzero h0]
      exact w72Float_zero sign
    · rw [mmaElem_fixed hops hold hlay]
      refine w72Fixed_number hlay hsum (sumTerms_onGrid ?_ hterms ?_)
      · unfold fixedLsb
        split <;> decide
      · exact fixed_onGrid hlay (ops_plain hops) hfmt hwords
  · intro lay a b x y ha hb
    refine ⟨fun hlay => ?_, fun hne => ⟨lineAdd_floatOf ha hb hne, lineAdd_pairOf ha hb hne⟩,
      fun h0 hlay => lineAdd_zero hlay ha hb h0⟩
    rw [lineAdd_fixed hlay]
    exact addExact_is ha hb
  · exact fun d hd => ⟨magUp_float hd, magUp_pair hd⟩
  · exact fun lay new old ks _ hnew hks => lineVerdict_spec lay old hnew hks

end Sys2Proof
end

section
/-! FP32 arithmetic of training support (R237): every operation rounds once, and a code encoded again keeps its
number. -/
namespace Sys2Proof.Machine

variable {f : Fmt} {rm : Rm} {a b : FVal} {x y : ℝ}

/-! ## Codes -/

theorem fp32_sound : fp32.sound := Fmt.sound_of_mem (by simp)

theorem decode_signBit (hf : f.sound) (n : Bool) : (f.decode (f.signBit n)).is 0 := by
  obtain ⟨m, e, h, hval⟩ := decode_code f hf n 0 (Nat.zero_le _)
  refine ⟨n, m, e, h, ?_⟩
  rw [hval]
  simp [mv]

/-- What a finite code's value is made of (R37). -/
theorem decode_fin {c : Nat} {n : Bool} {m : Nat} {e : Int} (h : f.decode c = .fin n m e) :
    m < 2 ^ (f.fbits + 1) ∧ ∃ k ≤ f.maxFin, (m : ℝ) * 2 ^ e = mv f k := by
  simp only [Fmt.decode, Nat.shiftRight_eq_div_pow] at h
  have hfrac : c % 2 ^ (f.ebits + f.fbits) % 2 ^ f.fbits < 2 ^ f.fbits := Nat.mod_lt _ (by positivity)
  split at h
  · cases h
  split at h
  · split at h <;> cases h
  rename_i hmax
  split at h <;> rename_i hexp
  · cases h
    refine ⟨by rw [pow_succ]; omega, _, Nat.le_of_not_lt hmax, ?_⟩
    rw [mv, if_pos (by simpa using hexp)]
  · cases h
    refine ⟨by rw [pow_succ]; omega, _, Nat.le_of_not_lt hmax, ?_⟩
    rw [mv, if_neg (by simpa using hexp)]

/-- The number of a code is a multiple of the unit at it. -/
theorem unit_dvd {c : Nat} {n : Bool} {m : Nat} {e q : Int} (h : f.decode c = .fin n m e)
    (hq : f.unit q (m * 2 ^ e)) : ∃ k : Nat, (m : ℝ) * 2 ^ e = k * 2 ^ q := by
  have hle : q ≤ e := by
    rcases hq with ⟨⟨hlow, -⟩, -⟩ | ⟨rfl, -⟩
    · have hm : (m : ℝ) < 2 ^ (f.fbits + 1) := by exact_mod_cast (decode_fin h).1
      have hlt : (2 : ℝ) ^ f.fbits * 2 ^ q < 2 ^ (f.fbits + 1) * 2 ^ e :=
        hlow.trans_lt ((mul_lt_mul_iff_left₀ (by positivity)).2 hm)
      have hpow : (2 : ℝ) ^ q < 2 ^ (e + 1) := by
        rw [zpow_add_one₀ (by norm_num)]
        rw [pow_succ, mul_assoc] at hlt
        linarith [lt_of_mul_lt_mul_left hlt (by positivity)]
      exact Int.lt_add_one_iff.1 ((zpow_lt_zpow_iff_right₀ (by norm_num)).1 hpow)
    · exact decode_onGrid f c n m e h
  refine ⟨m * 2 ^ (e - q).toNat, ?_⟩
  have hsplit : (2 : ℝ) ^ e = 2 ^ (e - q).toNat * 2 ^ q := by
    rw [← zpow_natCast, ← zpow_add₀ (by norm_num), Int.toNat_of_nonneg (by omega)]
    congr 1
    omega
  rw [hsplit]
  push_cast
  ring

/-- A multiple of the unit is rounded to itself. -/
theorem rounds_self {neg : Bool} {n k : Nat} {u : ℝ} (hu : 0 < u) (h : rm.rounds neg n u (k * u)) : n = k := by
  obtain ⟨hlow, hhigh⟩ := rounds_bounds hu h
  refine le_antisymm ?_ (hlow k le_rfl)
  unfold Rm.rounds at h
  by_contra hgt
  have hstep : ((k : ℝ) + 1) * u ≤ n * u := by
    have : (k : ℝ) + 1 ≤ n := by exact_mod_cast (not_le.1 hgt)
    exact mul_le_mul_of_nonneg_right this hu.le
  split at h
  · have := le_abs_self ((n : ℝ) * u - k * u)
    linarith [h.1]
  · split at h
    · linarith [h.2]
    · linarith [h.1]

/-- A code's number rounded to the same format keeps its value (R48). -/
theorem gives_same {c : Nat} {r : Nat × FpFlags} (hf : f.sound) (hc : (f.decode c).is x) (h : f.gives rm x r) :
    (f.decode r.1).is x := by
  obtain ⟨n, m, e, hdec, hval⟩ := hc
  have habs : |x| = m * 2 ^ e := by
    have hpos : (0 : ℝ) ≤ m * 2 ^ e := by positivity
    cases n <;> simp [hval, abs_of_nonneg hpos]
  obtain ⟨neg, hneg, q, k, hunit, hround, htop⟩ := h
  rw [habs] at hunit hround
  obtain ⟨j, hj⟩ := unit_dvd hdec hunit
  obtain rfl : k = j := rounds_self (by positivity) (hj ▸ hround)
  obtain ⟨i, hi, hmv⟩ := (decode_fin hdec).2
  obtain ⟨tm, te, htdec, htval⟩ := decode_code f hf false f.maxFin le_rfl
  have hmax : f.decode f.maxFin = .fin false tm te := by simpa [Fmt.signBit] using htdec
  have hle : (k : ℝ) * 2 ^ q ≤ mv f f.maxFin := by
    rw [← hj, hmv]
    exact (mv_mono f).monotone hi
  obtain ⟨⟨m', e', hdec', hval'⟩, -⟩ := (htop (mv f f.maxFin) ⟨false, tm, te, hmax, by simp [htval]⟩).1 hle
  refine ⟨neg, m', e', hdec', ?_⟩
  rw [hval', ← hj, ← habs]
  cases neg
  · simp only [Bool.false_eq_true, if_false, one_mul]
    exact (abs_of_nonneg (not_lt.1 fun h => Bool.false_ne_true (hneg.2 h))).symm
  · simp only [if_true, neg_one_mul]
    rw [abs_of_neg (hneg.1 rfl), neg_neg]

/-- A result rounded to nearest does not pass infinity's code. -/
theorem round_le_inf (hf : f.sound) (n : Bool) (m : Nat) (e : Int) (st : Bool) :
    (f.round .nearest n m e st).1 ≤ f.infCode n := by
  have hmax : f.maxFin ≤ f.inf.getD f.maxFin := by
    cases hinf : f.inf with
    | none => exact le_rfl
    | some i => exact (hf.2 i (by simp [hinf])).le
  unfold Fmt.round Fmt.infCode
  dsimp only
  split
  · simp
  · dsimp only
    omega

/-! ## Operations on FP32 codes -/

theorem near_of_gives {r : Nat × FpFlags} {n : Bool} (hf : f.sound) (hgives : x ≠ 0 → f.gives .nearest x r)
    (hzero : x = 0 → r.1 = f.signBit n) : f.near x r.1 :=
  ⟨fun h => hzero h ▸ decode_signBit hf n, fun h => ⟨r.2, hgives h⟩⟩

variable {p q r : Nat} {z : ℝ}

theorem f32mul_near (hx : (f32 p).is x) (hy : (f32 q).is y) : fp32.near (x * y) (f32mul p q) :=
  near_of_gives fp32_sound (mulVal_gives fp32_sound hx hy) fun h => congrArg Prod.fst (mulVal_zero hx hy h)

theorem f32add_near (hx : (f32 p).is x) (hy : (f32 q).is y) : fp32.near (x + y) (f32add p q) :=
  near_of_gives fp32_sound (addVal_gives fp32_sound hx hy) fun h => congrArg Prod.fst (addVal_zero hx hy h)

theorem f32sub_near (hx : (f32 p).is x) (hy : (f32 q).is y) : fp32.near (x - y) (f32sub p q) := by
  have hneg := withSign_is hy
  rw [f32sub, subVal_is hy, sub_eq_add_neg]
  exact near_of_gives fp32_sound (addVal_gives fp32_sound hx hneg) fun h => congrArg Prod.fst (addVal_zero hx hneg h)

theorem f32div_near (hx : (f32 p).is x) (hy : (f32 q).is y) (h0 : y ≠ 0) : fp32.near (x / y) (f32div p q) :=
  near_of_gives fp32_sound (fun h => divVal_gives fp32_sound .nearest hx hy (fun hx0 => h (by simp [hx0])) h0)
    fun h => congrArg Prod.fst (divVal_zero hx hy ((div_eq_zero_iff.1 h).resolve_right h0) h0)

theorem f32fma_near (hx : (f32 p).is x) (hy : (f32 q).is y) (hz : (f32 r).is z) :
    fp32.near (x * y + z) (f32fma p q r) :=
  near_of_gives fp32_sound (fmaVal_gives fp32_sound hx hy hz) fun h => congrArg Prod.fst (fmaVal_zero hx hy hz h)

theorem f32sqrt_near (hx : (f32 p).is x) (h0 : 0 ≤ x) : fp32.near (Real.sqrt x) (f32sqrt p) :=
  near_of_gives fp32_sound
    (fun h => sqrtVal_gives fp32_sound .nearest hx (h0.lt_of_ne fun hx0 => h (by simp [← hx0])))
    fun h => congrArg Prod.fst (sqrtVal_zero hx ((Real.sqrt_eq_zero h0).1 h))

/-- The sign of a number as an FP32 code (R237). -/
theorem f32sign_is (hx : (f32 p).is x) :
    f32sign p = if 0 < x then f32One else if x < 0 then 2 ^ 31 + f32One else 0 := by
  obtain ⟨n, m, e, hdec, hval⟩ := id hx
  unfold f32sign
  rw [hdec]
  cases m with
  | zero => simp [hval]
  | succ m =>
    have hpos : (0 : ℝ) < (m + 1 : ℕ) * 2 ^ e := by positivity
    cases n
    · have hlt : 0 < x := by rw [hval]; simpa using hpos
      rw [if_pos hlt]
      rfl
    · have hlt : x < 0 := by rw [hval]; simpa using hpos
      rw [if_neg hlt.le.not_gt, if_pos hlt]
      rfl

/-- The scale of gradients: clip over the loss scale times the count, each rounded once (R237). -/
theorem gsOf_near (hx : (f32 p).is x) (scale : BitVec 32) (n : Nat) {S : ℝ} (hS : (f32 scale.toNat).is S) :
    ∃ code, fp32.near (S * n) code ∧ ∀ t, (f32 code).is t → t ≠ 0 → fp32.near (x / t) (gsOf p scale n) := by
  have hn : (FVal.fin false n 0).is n := ⟨false, n, 0, rfl, by simp⟩
  exact ⟨_, near_of_gives fp32_sound (mulVal_gives fp32_sound hS hn) fun h => congrArg Prod.fst (mulVal_zero hS hn h),
    fun t ht h0 => f32div_near hx ht h0⟩

end Sys2Proof.Machine
end

section
/-! The rules of training support and the working copies of a row (R237, R239). -/
namespace Sys2Proof.Machine

variable {x y : ℝ} {ws : List Nat} {X : Nat → ℝ}

/-! ## The rules -/

/-- What a rule keeps of a parameter: its results, where all of them are finite. -/
def keptParam (g w m v : Nat) : Option Param := if [g, w, m, v].all f32fin then some ⟨w, m, v⟩ else none

theorem keptParam_of {g w m v : Nat} {b : Bool} (h : b = (f32fin g && f32fin w && f32fin m && f32fin v)) :
    (if b then some (⟨w, m, v⟩ : Param) else none) = keptParam g w m v := by
  rw [keptParam, h]
  simp [Bool.and_assoc]

/-- What SGD, Adam and Lion step by (R237). -/
theorem applyRule_sgd (c : Cmd) (gs grad : Nat) (p : Param) (h : c.u 8 1 = 0) (hv : f32fin p.v = true) :
    let g := f32mul (grad * 65536) gs
    let m := f32fma (c.u 0x20 4) p.m g
    applyRule c gs grad p =
      keptParam g (f32sub p.w (f32mul (c.u 0x3C 4) (f32fma (c.u 0x40 4) p.w m))) m p.v := by
  intro g m
  rw [applyRule, h]
  refine keptParam_of ?_
  rw [hv]
  simp only [Bool.and_true]
  exact (Bool.and_true _).trans (Bool.and_right_comm ..)

theorem applyRule_adam (c : Cmd) (gs grad : Nat) (p : Param) (h : c.u 8 1 = 1) :
    let g := f32mul (grad * 65536) gs
    let m := f32fma (c.u 0x20 4) p.m (f32mul (c.u 0x24 4) g)
    let v := f32fma (c.u 0x28 4) p.v (f32mul (c.u 0x2C 4) (f32mul g g))
    let u := f32div (f32mul m (c.u 0x30 4)) (f32add (f32sqrt (f32mul v (c.u 0x34 4))) (c.u 0x38 4))
    applyRule c gs grad p =
      keptParam g (f32sub p.w (f32mul (c.u 0x3C 4) (f32fma (c.u 0x40 4) p.w u))) m v := by
  intro g m v u
  rw [applyRule, h]
  refine keptParam_of ?_
  exact congrArg (· && f32fin v) (Bool.and_right_comm ..)

theorem applyRule_lion (c : Cmd) (gs grad : Nat) (p : Param) (h : c.u 8 1 = 2) (hv : f32fin p.v = true) :
    let g := f32mul (grad * 65536) gs
    let k := f32fma (c.u 0x20 4) p.m (f32mul (c.u 0x24 4) g)
    applyRule c gs grad p =
      keptParam g (f32sub p.w (f32mul (c.u 0x3C 4) (f32fma (c.u 0x40 4) p.w (f32sign k))))
        (f32fma (c.u 0x28 4) p.m (f32mul (c.u 0x2C 4) g)) p.v := by
  intro g k
  rw [applyRule, h]
  refine keptParam_of ?_
  rw [hv]
  simp only [Bool.and_true]
  exact (Bool.and_true _).trans (Bool.and_right_comm ..)

/-! ## The greatest magnitude of a row -/

/-- The greatest magnitude of a row so far. -/
def rowPeak (ws : List Nat) (start : Nat) : Nat :=
  ws.foldl (fun a w => (maxminVal fp32 true (f32 a) ((f32 w).withSign false)).1) start

theorem withSign_false_is {v : FVal} (h : v.is x) : (v.withSign false).is |x| := by
  obtain ⟨n, m, e, rfl, rfl⟩ := h
  refine ⟨false, m, e, rfl, ?_⟩
  have hpos : (0 : ℝ) ≤ m * 2 ^ e := by positivity
  cases n <;> simp [abs_of_nonneg hpos]

/-- The sign of a code may be taken away: what is left is the value of a code. -/
theorem gives_abs {w : Nat} {r : Nat × FpFlags} (hw : (f32 w).is x) (h : fp32.gives .nearest |x| r) :
    (f32 r.1).is |x| := by
  obtain ⟨n, m, e, hdec, hval⟩ := hw
  obtain ⟨k, hk, hmv⟩ := (decode_fin hdec).2
  obtain ⟨m', e', hdec', hval'⟩ := decode_code fp32 fp32_sound false k hk
  refine gives_same fp32_sound (c := fp32.signBit false + k) ⟨false, m', e', hdec', ?_⟩ h
  have hpos : (0 : ℝ) ≤ m * 2 ^ e := by positivity
  rw [hval', ← hmv]
  cases n <;> simp [hval, abs_of_nonneg hpos]

/-- A code of the greatest magnitude so far: a number not below 0, and `+0` for 0. -/
def isMagnitude (a : Nat) (R : ℝ) : Prop := (f32 a).is R ∧ 0 ≤ R ∧ (R = 0 → a = 0)

theorem isMagnitude_zero : isMagnitude 0 0 :=
  ⟨⟨false, 0, _, rfl, by simp⟩, le_rfl, fun _ => rfl⟩

theorem isMagnitude.neg? {a : Nat} {R : ℝ} (h : isMagnitude a R) (h0 : R = 0) : (f32 a).neg? = false := by
  rw [h.2.2 h0]
  decide

theorem max_step {a w : Nat} {R : ℝ} (ha : isMagnitude a R) (hw : (f32 w).is x) :
    isMagnitude (maxminVal fp32 true (f32 a) ((f32 w).withSign false)).1 (max R |x|) := by
  have hmag := withSign_false_is hw
  rw [maxminVal_is hmag ha.1]
  simp only [if_true]
  split <;> rename_i hlt
  · have hle : R ≤ |x| := not_lt.1 fun h => by simp [ltZ_of_gt ha.1 hmag h] at hlt
    rw [max_eq_right hle]
    refine ⟨?_, abs_nonneg x, fun h0 => ?_⟩
    · by_cases h0 : |x| = 0
      · rw [h0] at hmag ⊢
        rw [ofVal_zero hmag]
        exact decode_signBit fp32_sound _
      · exact gives_abs hw (ofVal_gives fp32_sound hmag h0)
    · rw [h0] at hmag
      rw [ofVal_zero hmag, withSign_neg?]
      rfl
  · have hle : |x| ≤ R := not_lt.1 fun h => hlt (ltZ_of_lt ha.1 hmag h)
    rw [max_eq_left hle]
    refine ⟨?_, ha.2.1, fun h0 => ?_⟩
    · by_cases h0 : R = 0
      · have hzero := ha.1
        rw [h0] at hzero ⊢
        rw [ofVal_zero hzero]
        exact decode_signBit fp32_sound _
      · exact gives_same fp32_sound ha.1 (ofVal_gives fp32_sound ha.1 h0)
    · have hneg := ha.neg? h0
      obtain ⟨hzero, -⟩ := ha
      rw [h0] at hzero
      rw [ofVal_zero hzero, hneg]
      rfl

/-- The greatest magnitude of a row is that of one of its elements, or where it began. -/
theorem rowPeak_is : ∀ (ws : List Nat) (a : Nat) (R : ℝ), isMagnitude a R → (∀ w ∈ ws, (f32 w).is (X w)) →
    ∃ T, isMagnitude (rowPeak ws a) T ∧ R ≤ T ∧ (∀ w ∈ ws, |X w| ≤ T) ∧ (T = R ∨ ∃ w ∈ ws, T = |X w|)
  | [], a, R, ha, _ => ⟨R, ha, le_rfl, by simp, .inl rfl⟩
  | w :: ws, a, R, ha, hws => by
    obtain ⟨hw, hrest⟩ := List.forall_mem_cons.1 hws
    obtain ⟨T, hT, hle, hall, hpick⟩ := rowPeak_is ws _ _ (max_step ha hw) hrest
    refine ⟨T, hT, (le_max_left _ _).trans hle, List.forall_mem_cons.2 ⟨(le_max_right _ _).trans hle, hall⟩, ?_⟩
    rcases hpick with rfl | ⟨v, hv, rfl⟩
    · rcases max_choice R |X w| with h | h <;> rw [h]
      · exact .inl rfl
      · exact .inr ⟨w, List.mem_cons_self, rfl⟩
    · exact .inr ⟨v, List.mem_cons_of_mem _ hv, rfl⟩

/-! ## The scale of a row -/

/-- A code up to `2¹²⁷` is a number not below 0. -/
theorem f32_small {c : Nat} (h : c ≤ f32P127) : ∃ m e, f32 c = .fin false m e := by
  obtain ⟨m, e, hdec, -⟩ := decode_code fp32 fp32_sound false c (h.trans (by decide))
  rw [Fmt.signBit, if_neg Bool.false_ne_true, Nat.zero_add] at hdec
  exact ⟨m, e, hdec⟩

/-- A quotient of positive numbers has no code behind infinity's. -/
theorem f32div_le {p q : Nat} {m n : Nat} {d e : Int} (hp : f32 p = .fin false m d) (hq : f32 q = .fin false n e)
    (hm : m ≠ 0) (hn : n ≠ 0) : f32div p q ≤ 0x7F800000 := by
  have heq : divVal fp32 .nearest (f32 p) (f32 q) = fp32.round .nearest false (divMag fp32.fbits m d n e).1
      (divMag fp32.fbits m d n e).2.1 (divMag fp32.fbits m d n e).2.2 := by
    rw [hp, hq]
    exact (if_neg hn).trans (if_neg hm)
  rw [f32div, heq]
  exact round_le_inf fp32_sound _ _ _ _

/-- A positive number's sign. -/
theorem FVal.is.fin_pos {v : FVal} (h : v.is x) (hx : 0 < x) : ∃ m e, v = .fin false m e ∧ m ≠ 0 := by
  obtain ⟨n, m, e, rfl, hval⟩ := id h
  refine ⟨m, e, ?_, fun h0 => hx.ne' (h.zeroMag.1 h0)⟩
  cases n
  · rfl
  · have hpos : (0 : ℝ) ≤ m * 2 ^ e := by positivity
    simp only [if_true] at hval
    linarith

/-- The scale of a row by its greatest magnitude (R239). -/
def rowScale (target rmax : Nat) : Nat :=
  if rmax = 0 then f32One
  else if f32P127 < f32div target rmax ∧ f32div target rmax ≤ 0x7F800000 then f32P127 else f32div target rmax

theorem rowScale_is {target rmax : Nat} {t R : ℝ} (ht : (f32 target).is t) (hpos : 0 < t)
    (hR : isMagnitude rmax R) :
    (R = 0 → rowScale target rmax = f32One) ∧
    (R ≠ 0 → ∃ q, fp32.near (t / R) q ∧ rowScale target rmax = if f32P127 < q then f32P127 else q) ∧
    rowScale target rmax ≤ f32P127 := by
  obtain ⟨hcode, hnonneg, hzero⟩ := hR
  by_cases h0 : R = 0
  · have hone : rowScale target rmax = f32One := if_pos (hzero h0)
    exact ⟨fun _ => hone, fun h => absurd h0 h, hone ▸ by decide⟩
  · have hne : rmax ≠ 0 := by
      rintro rfl
      exact h0 (hcode.zeroMag.1 rfl)
    obtain ⟨m, d, hp, hm⟩ := ht.fin_pos hpos
    obtain ⟨n, e, hq, hn⟩ := hcode.fin_pos (lt_of_le_of_ne hnonneg (Ne.symm h0))
    have hscale : rowScale target rmax =
        if f32P127 < f32div target rmax then f32P127 else f32div target rmax := by
      simp [rowScale, hne, f32div_le hp hq hm hn]
    refine ⟨fun h => absurd h h0, fun _ => ⟨_, f32div_near ht hcode h0, hscale⟩, ?_⟩
    rw [hscale]
    split <;> omega

/-! ## The elements of a row -/

/-- A copy's element: its code, with `+0` for `−0`. -/
def plusCode (neg c : Nat) : Nat := if c = neg then 0 else c

theorem plusCode_mod (neg c : Nat) : (if c % neg = 0 ∧ c = neg then 0 else c) = plusCode neg c :=
  if_congr ⟨And.right, fun h => ⟨h ▸ Nat.mod_self neg, h⟩⟩ rfl rfl

theorem plusCode_number {f : Fmt} {v : FVal} (hf : f.sound) (hv : v.is x) (hx : x ≠ 0) (neg : Nat) :
    ∃ code fl, f.gives .nearest x (code, fl) ∧
      plusCode neg (f.ofVal .nearest v).1 = if code = neg then 0 else code :=
  ⟨_, _, ofVal_gives hf hv hx, rfl⟩

theorem plusCode_zero {f : Fmt} {v : FVal} (hv : v.is 0) :
    plusCode (f.signBit true) (f.ofVal .nearest v).1 = 0 := by
  rw [ofVal_zero hv]
  cases v.neg?
  · unfold plusCode Fmt.signBit
    simp
  · exact if_pos rfl

theorem getD_map {g : Nat → Nat} {i : Nat} (hi : i < ws.length) : (ws.map g).getD i 1 = g (ws.getD i 0) := by
  simp [List.getD, hi]

theorem copyRow_bf16 (target : Nat) (ws : List Nat) : copyRow 2 target ws =
    (f32One, rowPeak ws 0, ws.map (fun w => plusCode 0x8000 (bf16.ofVal .nearest (f32 w)).1)) := by
  refine Prod.ext rfl (Prod.ext rfl (List.map_congr_left fun w _ => ?_))
  exact plusCode_mod _ _

theorem copyRow_scale {fmt : Nat} (h : fmt ≠ 2) (target : Nat) (ws : List Nat) :
    (copyRow fmt target ws).1 = rowScale target (rowPeak ws 0) ∧ (copyRow fmt target ws).2.1 = rowPeak ws 0 ∧
      (copyRow fmt target ws).2.2.length = ws.length := by
  rw [copyRow]
  simp only [if_neg h, List.length_map]
  exact ⟨rfl, rfl, trivial⟩

/-- An element of an E4M3 copy is the scaled number, encoded (R239). -/
theorem copyRow_elem (target : Nat) (ws : List Nat) {S : ℝ} {m : Nat} {e : Int}
    (hscale : f32 (copyRow 4 target ws).1 = .fin false m e) (hS : S = m * 2 ^ e) {i : Nat} (hi : i < ws.length)
    (hx : (f32 (ws.getD i 0)).is x) :
    ∃ v : FVal, v.is (x * S) ∧ (copyRow 4 target ws).2.2.getD i 1 = plusCode 0x80 (e4m3.ofVal .nearest v).1 := by
  obtain ⟨n, j, d, hdec, hval⟩ := hx
  refine ⟨.fin n (j * m) (d + e), ⟨n, _, _, rfl, ?_⟩, ?_⟩
  · rw [hval, hS, zpow_add₀ (by norm_num)]
    push_cast
    ring
  · have hmap : (copyRow 4 target ws).2.2 = ws.map (fun w =>
        match f32 w, f32 (copyRow 4 target ws).1 with
        | .fin n m e, .fin _ m' e' =>
          if (e4m3.round .nearest n (m * m') (e + e') false).1 % 0x80 = 0 ∧
            (e4m3.round .nearest n (m * m') (e + e') false).1 = 0x80 then 0
          else (e4m3.round .nearest n (m * m') (e + e') false).1
        | v, sc => (mulVal e4m3 .nearest v sc).1) := rfl
    rw [hmap, getD_map hi, hdec, hscale]
    exact plusCode_mod _ _

end Sys2Proof.Machine
end

section
/-! UPDATE, TRAIN_CFG and the vote's events (R244 to R247, R258), and the obligation of training support. -/
namespace Sys2Proof.Machine

variable {s : State} {u : UpdateRun} {c : Cmd} {cid : Nat}

/-! ## The commands -/

theorem execTrainCfg_runs (hfree : s.update = none) (hfirst : s.firstOf [0x0303, 0x0105] c = true)
    (hcan : s.canRun cid 0x0105 c = true) :
    execTrainCfg cid s = .next ((s.mapTrain (fun t => t.configure c)).reply c stOk 0) := by
  refine (State.withCmd_canRun hcan _).trans (congrArg Host.Outcome.next (if_neg ?_))
  simp [hfree, hfirst]

/-- An UPDATE that may run: on a sealed device it is refused, else it takes the vote (R246, R395). -/
theorem execUpdate_runs (hfree : s.update = none) (hfirst : s.firstOf [0x0303, 0x0105] c = true)
    (hcan : s.canRun cid 0x0303 c = true) :
    let l := s.loadSegments c (List.range (c.u 0x0C 4))
    let v := l.1.voteTake.1 ||| (if l.2.any (·.nonfin) then 4 else 0)
    let s1 := (l.1.voteTake.2.running c).mapTrain (fun t => { t with active := true, segDone := 0 })
    execUpdate cid s = .next (if l.1.wseal.isSealed then l.1.refuseSealed c
      else ({ s1 with update := some ⟨cid, s1.alm.now, (Train.of s).scale, l.2, none, 0, 0, []⟩ } : State).enterVote
        (BitVec.ofNat 8 v)) := by
  intro l v s1
  refine (State.withCmd_canRun hcan _).trans (congrArg Host.Outcome.next (if_neg ?_))
  simp [hfree, hfirst]

/-! ## The vote round's end -/

theorem State.mapTrain_mem (s : State) (f : Train → Train) : (s.mapTrain f).mem = s.mem := by
  suffices h : ∀ (l : List Nat) (s : State),
      (l.foldl (fun s m => s.setMd m { s.md m with train := f (s.md m).train }) s).mem = s.mem from h _ s
  intro l
  induction l with
  | nil => exact fun _ => rfl
  | cons m l ih => exact fun s => ih _

/-- What the result of a vote round leaves in the counters (R245). -/
def State.voteCounted (s : State) (c : Cmd) (vote : BitVec 8) : State :=
  ({ s with net := { s.net with vote := none } } : State).mapTrain (fun t => { t with
    vstep := BitVec.ofNat 32 (c.u 0 8), vvalid := true, vote := vote
    skips := if vote = 0 then t.skips else BitVec.ofNat 32 (satInc 0xFFFFFFFF t.skips.toNat) })

/-- The segments behind a vote's result: skipped, or run in their order (R246). -/
def State.voteSegments (s : State) (c : Cmd) (vote : BitVec 8) (u : UpdateRun) : State × List SegRun :=
  if vote ≠ 0 then (s, u.segs.map (fun r => { r with status := 1, nEff := 0 }))
  else s.runSegments c u.scale [] u.segs

/-- A vote round whose result has come (R245, R246). -/
theorem execVoteRoundComplete_result {v : VoteRun} {vote : BitVec 8} (hu : s.update = some u)
    (hc : s.cmd? u.cid = some c) (hnone : u.vote = none) (hv : s.net.vote = some v) (hresult : v.result = some vote) :
    execVoteRoundComplete vote s = .next { ((s.voteCounted c vote).voteSegments c vote u).1 with update := some { u with
      vote := some vote, segs := ((s.voteCounted c vote).voteSegments c vote u).2
      voteBeat := ((s.voteCounted c vote).voteSegments c vote u).1.alm.now, before := s.mem } } := by
  have hgo : ¬ (u.vote.isSome ∨ v.result ≠ some vote) := by simp [hnone, hresult]
  unfold execVoteRoundComplete
  split
  case h_1 u' v' hu' hv' =>
    obtain rfl := Option.some.inj (hu'.symm.trans hu)
    obtain rfl := Option.some.inj (hv'.symm.trans hv)
    refine (if_neg hgo).trans ?_
    split
    case h_1 hc' => exact absurd (hc'.symm.trans hc) (by simp)
    case h_2 c' hc' =>
      obtain rfl := Option.some.inj (hc'.symm.trans hc)
      by_cases h0 : vote = 0
      · simp only [State.voteSegments, if_neg (not_not_intro h0)]
        rfl
      · simp only [State.voteSegments, if_pos h0]
        rfl
  case h_2 h => exact absurd hv (h u v hu)

theorem execVoteTimeout_due (hu : s.update = some u) (hc : s.cmd? u.cid = some c) (hnone : u.vote = none)
    (hdue : u.entered.toNat + (Train.of s).vtimeout.toNat ≤ s.alm.now.toNat) :
    let t := Train.of s
    let s1 := (s.logErr blkSteward { code := 0x80, src := 12, icount := c.tag.toNat }).mapTrain (fun t =>
      { t with vstep := BitVec.ofNat 32 (c.u 0 8), vvalid := false })
    let s2 := (s1.sowClose (c.u 0 8) ⟨0, t.scale, t.scale, t.clean, 0, 2, false⟩).updateOver 2
    execVoteTimeout s = .next (s2.reply c 3 (BitVec.ofNat 64 (t.scale.toNat * 2 ^ 32))).endAborts := by
  intro t s1 s2
  have hgo : u.vote.isNone ∧ u.entered.toNat + (Train.of s).vtimeout.toNat ≤ s.alm.now.toNat := ⟨by simp [hnone], hdue⟩
  unfold execVoteTimeout
  simp only [hu, hc]
  exact if_pos hgo

/-- An UPDATE whose segments are done (R246, R247). -/
theorem execUpdateComplete_vote {vote : BitVec 8} (hu : s.update = some u) (hc : s.cmd? u.cid = some c)
    (hvote : u.vote = some vote) :
    let s1 := s.mapTrain (Train.lossRule vote)
    let t := Train.of s1
    let s2 := s1.writeRecords (c.u 0x18 8) u.segs
    let point := vote == 0 && s2.isPoint (c.u 0 8)
    let s3 := s2.sowClose (c.u 0 8)
      ⟨u.voteBeat, (Train.of s).scale, t.scale, t.clean, vote, natOf (vote != 0), point⟩
    let s4 := (if point then s3.harvestPoint (c.u 0 8) else s3).updateOver (natOf (vote != 0))
    let s5 := if c.u 9 1 % 2 = 1 then
        s4.cmdSignal blkSteward c (BitVec.ofNat 64 (c.u 0x50 8)) (c.u 0x58 2) else s4
    execUpdateComplete s = .next
      (s5.reply c (if vote = 0 then 1 else 2) (BitVec.ofNat 64 (t.scale.toNat * 2 ^ 32 + vote.toNat))).endAborts := by
  intro s1 t s2 point s3 s4 s5
  unfold execUpdateComplete
  simp only [hu, hvote, hc]
  rfl

/-! ## Working copies -/

/-- The scale and the greatest magnitude of a working copy (R239). -/
theorem copyRow_peak (fmt : Nat) {target : Nat} {ws : List Nat} {t : ℝ} {X : Nat → ℝ}
    (hws : ∀ w ∈ ws, (f32 w).is (X w)) (ht : (f32 target).is t) (hpos : 0 < t) :
    ∃ R : ℝ, (f32 (copyRow fmt target ws).2.1).is R ∧ (∀ w ∈ ws, |X w| ≤ R) ∧ (R = 0 ∨ ∃ w ∈ ws, R = |X w|) ∧
      (fmt = 4 → (R = 0 → (copyRow fmt target ws).1 = f32One) ∧
        (R ≠ 0 → ∃ q, fp32.near (t / R) q ∧ (copyRow fmt target ws).1 = if f32P127 < q then f32P127 else q)) := by
  obtain ⟨R, hR, -, hall, hpick⟩ := rowPeak_is ws 0 0 isMagnitude_zero hws
  have hpeak : (copyRow fmt target ws).2.1 = rowPeak ws 0 := by
    unfold copyRow
    split <;> rfl
  refine ⟨R, hpeak ▸ hR.1, hall, hpick, fun hfmt => ?_⟩
  obtain ⟨hone, hscale, -⟩ := rowScale_is ht hpos hR
  have hne : fmt ≠ 2 := by omega
  rw [(copyRow_scale hne target ws).1]
  exact ⟨hone, hscale⟩

theorem copyRow_length (fmt target : Nat) (ws : List Nat) : (copyRow fmt target ws).2.2.length = ws.length := by
  unfold copyRow
  split <;> exact List.length_map _

theorem getD_mem {ws : List Nat} {i : Nat} (hi : i < ws.length) : ws.getD i 0 ∈ ws := by
  simp [List.getD, hi]

/-- Elements of a BF16 copy (R239). -/
theorem copyRow_bf16_elem {target : Nat} {ws : List Nat} {X : Nat → ℝ} (hws : ∀ w ∈ ws, (f32 w).is (X w)) {i : Nat}
    (hi : i < ws.length) :
    (X (ws.getD i 0) = 0 → (copyRow 2 target ws).2.2.getD i 1 = 0) ∧
    (X (ws.getD i 0) ≠ 0 → ∃ code fl, bf16.gives .nearest (X (ws.getD i 0)) (code, fl) ∧
      (copyRow 2 target ws).2.2.getD i 1 = if code = 0x8000 then 0 else code) := by
  have hx := hws _ (getD_mem hi)
  rw [copyRow_bf16, getD_map hi]
  refine ⟨fun h0 => ?_, fun h0 => plusCode_number (Fmt.sound_of_mem (by simp)) hx h0 _⟩
  rw [h0] at hx
  exact plusCode_zero hx

/-- Elements of an E4M3 copy (R239). -/
theorem copyRow_e4m3_elem {target : Nat} {ws : List Nat} {t : ℝ} {X : Nat → ℝ}
    (hws : ∀ w ∈ ws, (f32 w).is (X w)) (ht : (f32 target).is t) (hpos : 0 < t) :
    ∃ S : ℝ, (f32 (copyRow 4 target ws).1).is S ∧ ∀ i < ws.length,
      (X (ws.getD i 0) * S = 0 → (copyRow 4 target ws).2.2.getD i 1 = 0) ∧
      (X (ws.getD i 0) * S ≠ 0 → ∃ code fl, e4m3.gives .nearest (X (ws.getD i 0) * S) (code, fl) ∧
        (copyRow 4 target ws).2.2.getD i 1 = if code = 0x80 then 0 else code) := by
  obtain ⟨R, hR, -, -, -⟩ := rowPeak_is ws 0 0 isMagnitude_zero hws
  have hsmall : (copyRow 4 target ws).1 ≤ f32P127 :=
    (copyRow_scale (show (4 : Nat) ≠ 2 by decide) target ws).1 ▸ (rowScale_is ht hpos hR).2.2
  obtain ⟨m, e, hscale⟩ := f32_small hsmall
  refine ⟨m * 2 ^ e, ⟨false, m, e, hscale, by simp⟩, fun i hi => ?_⟩
  obtain ⟨v, hv, helem⟩ := copyRow_elem target ws hscale rfl hi (hws _ (getD_mem hi))
  rw [helem]
  refine ⟨fun h0 => ?_, fun h0 => plusCode_number (Fmt.sound_of_mem (by simp)) hv h0 _⟩
  rw [h0] at hv
  exact plusCode_zero hv

/-! ## The obligation -/

/-- Settles O30: the commands and events by their equations, FP32 arithmetic by what each operation gives, a row's
greatest magnitude by induction over its elements. -/
theorem updatesRunToTheirEnd : Obligations.UpdatesRunToTheirEnd := by
  refine ⟨?_, ?_, ?_, ?_, ?_, ?_⟩
  · intro cid c s hfree hfirst
    refine ⟨fun hcan => execTrainCfg_runs hfree hfirst hcan, fun hcan => ?_⟩
    intro l v s1
    have hrun := execUpdate_runs hfree hfirst hcan
    exact ⟨fun hsealed => hrun.trans (congrArg Host.Outcome.next (if_pos hsealed)),
      fun hopen => hrun.trans (congrArg Host.Outcome.next (if_neg (ne_true_of_eq_false hopen)))⟩
  · intro s u c hu hc hnone
    refine ⟨fun v vote hv hresult => ?_, fun hdue => execVoteTimeout_due hu hc hnone hdue⟩
    intro s1 r
    have hrun := execVoteRoundComplete_result hu hc hnone hv hresult
    refine ⟨fun hne => ⟨?_, State.mapTrain_mem _ _⟩, fun h0 => ?_⟩
    · rw [State.voteSegments, if_pos hne] at hrun
      exact hrun
    · rw [State.voteSegments, if_neg (not_not_intro h0)] at hrun
      exact hrun
  · intro s u c vote hu hc hvote
    exact execUpdateComplete_vote hu hc hvote
  · intro a b c x y z hx hy hz
    exact ⟨f32mul_near hx hy, f32add_near hx hy, f32sub_near hx hy, f32div_near hx hy, f32fma_near hx hy hz,
      f32sqrt_near hx, f32sign_is hx, fun scale n S hS => gsOf_near hx scale n hS⟩
  · intro c gs grad p b1 b2 rest1 rest2 g stepped kept
    exact ⟨applyRule_sgd c gs grad p, applyRule_adam c gs grad p, applyRule_lion c gs grad p⟩
  · intro fmt target ws t X hws ht hpos row
    refine ⟨copyRow_peak fmt hws ht hpos, copyRow_length fmt target ws, ?_, ?_⟩
    · rintro rfl
      exact ⟨rfl, fun i hi => copyRow_bf16_elem hws hi⟩
    · rintro rfl
      exact copyRow_e4m3_elem hws ht hpos

end Sys2Proof.Machine
end

section
/-! Fixed-point rounding of the factor engine (R40, R42, R180): each value rounded once to its grid, or a breach. -/
namespace Sys2Proof.Machine

variable {col k : Nat} {e : Int} {x y : ℝ} {a b : Dyad}

/-! ## The nearest integer -/

/-- An integer is the nearest to a number, the even one of two. -/
def intNear (n : Int) (t : ℝ) : Prop := 2 * |(n : ℝ) - t| ≤ 1 ∧ (2 * |(n : ℝ) - t| = 1 → n % 2 = 0)

theorem intNear_unique {n m : Int} {t : ℝ} (hn : intNear n t) (hm : intNear m t) : n = m := by
  have htri : |((n - m : Int) : ℝ)| ≤ |(n : ℝ) - t| + |(m : ℝ) - t| := by
    have := abs_sub ((n : ℝ) - t) ((m : ℝ) - t)
    push_cast
    rwa [sub_sub_sub_cancel_right] at this
  have hone : |n - m| ≤ 1 := by
    have : |((n - m : Int) : ℝ)| ≤ 1 := by linarith [hn.1, hm.1]
    exact_mod_cast this
  by_contra hne
  have heq : |n - m| = 1 := le_antisymm hone (Int.one_le_abs (sub_ne_zero.2 hne))
  have hreal : |((n - m : Int) : ℝ)| = 1 := by exact_mod_cast heq
  have hne1 := hn.2 (by linarith [hn.1, hm.1])
  have hme1 := hm.2 (by linarith [hn.1, hm.1])
  rcases abs_eq (by norm_num) |>.1 heq with h | h <;> omega

theorem roundDiv_near {num den : Int} (hden : 0 < den) : intNear (roundDiv num den) (num / den) := by
  have hd : (0 : ℝ) < den := by exact_mod_cast hden
  have hsplit : (num : ℝ) = den * (num / den : Int) + (num % den : Int) := by
    exact_mod_cast (Int.mul_ediv_add_emod num den).symm
  have hnonneg : (0 : ℝ) ≤ (num % den : Int) := by exact_mod_cast Int.emod_nonneg num hden.ne'
  have hlt : ((num % den : Int) : ℝ) < den := by exact_mod_cast Int.emod_lt_of_pos num hden
  have hfrac : (num : ℝ) / den = (num / den : Int) + (num % den : Int) / den := by
    rw [hsplit]
    field_simp
  have hfrac0 : (0 : ℝ) ≤ (num % den : Int) / den := div_nonneg hnonneg hd.le
  have hfrac1 : ((num % den : Int) : ℝ) / den < 1 := (div_lt_one hd).2 hlt
  unfold roundDiv
  dsimp only
  rw [hfrac]
  split <;> rename_i hup
  · have hhalf : (1 : ℝ) ≤ 2 * ((num % den : Int) / den) := by
      rw [← mul_div_assoc, le_div_iff₀ hd]
      rcases hup with h | h
      · exact_mod_cast (by omega : 1 * den ≤ 2 * (num % den))
      · exact_mod_cast (by omega : 1 * den ≤ 2 * (num % den))
    have habs : |(((num / den + 1 : Int)) : ℝ) - ((num / den : Int) + (num % den : Int) / den)|
        = 1 - (num % den : Int) / den := by
      push_cast
      rw [abs_of_nonneg] <;> linarith
    refine ⟨by rw [habs]; linarith, fun heq => ?_⟩
    rw [habs] at heq
    have htie : 2 * (num % den) = den := by
      have : (2 : ℝ) * (num % den : Int) = den := by
        rw [← mul_div_cancel₀ ((num % den : Int) : ℝ) hd.ne'] at *
        field_simp at heq ⊢
        linarith
      exact_mod_cast this
    omega
  · have habs : |((num / den : Int) : ℝ) - ((num / den : Int) + (num % den : Int) / den)|
        = (num % den : Int) / den := by
      rw [sub_add_cancel_left, abs_neg, abs_of_nonneg hfrac0]
    have hhalf : 2 * (((num % den : Int) : ℝ) / den) ≤ 1 := by
      rw [← mul_div_assoc, div_le_iff₀ hd]
      exact_mod_cast (by omega : 2 * (num % den) ≤ 1 * den)
    refine ⟨by rw [habs]; exact hhalf, fun heq => ?_⟩
    rw [habs, ← mul_div_assoc, div_eq_iff hd.ne'] at heq
    have htie : 2 * (num % den) = 1 * den := by exact_mod_cast heq
    omega

/-! ## Rounding to a grid -/

/-- The unit of a grid. -/
theorem fxUnit_pos (e : Int) : (0 : ℝ) < 2 ^ (e - 46) := by positivity

theorem fxNear_iff {n : Int} : fxNear e n x ↔ intNear n (x / 2 ^ (e - 46)) ∧ |n| < 2 ^ 47 := by
  have hu := fxUnit_pos e
  have hscale : |fxReal e n - x| = |(n : ℝ) - x / 2 ^ (e - 46)| * 2 ^ (e - 46) := by
    rw [fxReal, ← abs_of_pos hu, ← abs_mul, abs_of_pos hu, sub_mul, div_mul_cancel₀ _ hu.ne']
  rw [fxNear, hscale, intNear, ← mul_assoc]
  have hle : 2 * |(n : ℝ) - x / 2 ^ (e - 46)| * 2 ^ (e - 46) ≤ 2 ^ (e - 46) ↔ 2 * |(n : ℝ) - x / 2 ^ (e - 46)| ≤ 1 :=
    mul_le_iff_le_one_left hu
  have heq : 2 * |(n : ℝ) - x / 2 ^ (e - 46)| * 2 ^ (e - 46) = 2 ^ (e - 46) ↔ 2 * |(n : ℝ) - x / 2 ^ (e - 46)| = 1 :=
    mul_eq_right₀ hu.ne'
  rw [hle, heq, and_assoc]

theorem fxNear_unique {n m : Int} (hn : fxNear e n x) (hm : fxNear e m x) : n = m :=
  intNear_unique (fxNear_iff.1 hn).1 (fxNear_iff.1 hm).1

/-- A number rounded once onto a grid, or a breach where FX48 has no such number (R42, R182). -/
def fxRounded (col : Nat) (e : Int) (x : ℝ) (r : Except FxStop Int) : Prop :=
  (∃ n, fxNear e n x ∧ r = .ok n) ∨ ((∀ n, ¬fxNear e n x) ∧ r = .error (.breach col))

theorem fxRounded.near {r : Except FxStop Int} (h : fxRounded col e x r) {n : Int} (hr : r = .ok n) :
    fxNear e n x := by
  rcases h with ⟨m, hm, rfl⟩ | ⟨-, rfl⟩
  · cases hr
    exact hm
  · cases hr

theorem fxRounded.breach {r : Except FxStop Int} (h : fxRounded col e x r) {s : FxStop} (hr : r = .error s) :
    s = .breach col := by
  rcases h with ⟨m, -, rfl⟩ | ⟨-, rfl⟩ <;> cases hr
  rfl

theorem fxRounded.ok {r : Except FxStop Int} (h : fxRounded col e x r) {n : Int} (hn : fxNear e n x) : r = .ok n := by
  rcases h with ⟨m, hm, rfl⟩ | ⟨hnone, -⟩
  · rw [fxNear_unique hm hn]
  · exact absurd hn (hnone n)

/-- The guard behind a rounded integer (R182). -/
theorem fxRounded_of_near {n : Int} (h : intNear n (x / 2 ^ (e - 46))) :
    fxRounded col e x (if fxMax < n.natAbs then .error (.breach col) else .ok n) := by
  split <;> rename_i hmax
  · refine .inr ⟨fun m hm => ?_, rfl⟩
    obtain ⟨hnear, hrange⟩ := fxNear_iff.1 hm
    obtain rfl := intNear_unique hnear h
    rw [Int.natCast_natAbs, fxMax] at hmax
    omega
  · refine .inl ⟨n, fxNear_iff.2 ⟨h, ?_⟩, rfl⟩
    rw [Int.natCast_natAbs, fxMax] at hmax
    omega

/-- A quotient onto a grid is the nearest integer to it. -/
theorem fxQuot_near (ha : a.num x) (hb : b.num y) (hy : y ≠ 0) : intNear (fxQuot e a b) (x / y / 2 ^ (e - 46)) := by
  have hbm : b.m ≠ 0 := fun h => hy ((num_zero hb).1 h)
  have hquot (p q : Int) (hq : q ≠ 0) (heq : (p : ℝ) / q = x / y / 2 ^ (e - 46)) :
      intNear (if q < 0 then roundDiv (-p) (-q) else roundDiv p q) (x / y / 2 ^ (e - 46)) := by
    rw [← heq]
    split <;> rename_i hneg
    · have := roundDiv_near (num := -p) (den := -q) (by omega)
      push_cast at this
      rwa [neg_div_neg_eq] at this
    · exact roundDiv_near (by omega)
  have hvalue : x / y / 2 ^ (e - 46) = (a.m : ℝ) / b.m * 2 ^ (a.e - b.e + 46 - e) := by
    rw [ha, hb, mul_div_mul_comm, ← zpow_sub₀ (by norm_num), mul_div_assoc, ← zpow_sub₀ (by norm_num)]
    congr 2
    omega
  unfold fxQuot
  dsimp only
  split <;> rename_i hsh
  · refine hquot _ _ hbm ?_
    rw [hvalue, ← Int.toNat_of_nonneg hsh, zpow_natCast, Int.toNat_natCast]
    push_cast
    ring
  · refine hquot _ _ (mul_ne_zero hbm (by positivity)) ?_
    have hpow : (2 : ℝ) ^ (a.e - b.e + 46 - e) = ((2 : ℝ) ^ (-(a.e - b.e + 46 - e)).toNat)⁻¹ := by
      rw [← zpow_natCast, ← zpow_neg, Int.toNat_of_nonneg (by omega), neg_neg]
    rw [hvalue, hpow]
    push_cast
    rw [div_mul_eq_div_div, div_eq_mul_inv]

theorem one_num : Dyad.one.num 1 := by simp [Dyad.num, Dyad.one]

theorem fxRound_is (ha : a.num x) : fxRounded col e x (fxRound col e a) := by
  have h := fxQuot_near (e := e) ha one_num one_ne_zero
  rw [div_one] at h
  exact fxRounded_of_near h

theorem fxDiv_is (ha : a.num x) (hb : b.num y) (hy : y ≠ 0) : fxRounded col e (x / y) (fxDiv col k e a b) := by
  unfold fxDiv
  rw [if_neg fun h => hy ((num_zero hb).1 h)]
  exact fxRounded_of_near (fxQuot_near ha hb hy)

theorem fxDiv_zero (hb : b.num y) (hy : y = 0) : fxDiv col k e a b = .error (.zeroDiv k) :=
  if_pos ((num_zero hb).2 hy)

/-- A quotient that is there has a divisor and is rounded once. -/
theorem fxDiv_ok {n : Int} (ha : a.num x) (hb : b.num y) (h : fxDiv col k e a b = .ok n) :
    y ≠ 0 ∧ fxNear e n (x / y) := by
  have hy : y ≠ 0 := fun h0 => by
    rw [fxDiv_zero hb h0] at h
    cases h
  exact ⟨hy, (fxDiv_is ha hb hy).near h⟩

theorem fxDiv_error {s : FxStop} (ha : a.num x) (hb : b.num y) (hy : y ≠ 0)
    (h : fxDiv col k e a b = .error s) : s = .breach col := (fxDiv_is ha hb hy).breach h

/-- The root of a natural number, to the nearest integer. -/
theorem isqrt_near (q : Nat) :
    intNear (if isqrt q * isqrt q + isqrt q < q then isqrt q + 1 else isqrt q : Nat) (Real.sqrt q) := by
  obtain ⟨hlow, hhigh⟩ := isqrt_spec q
  generalize isqrt q = r at *
  have hsq : Real.sqrt q * Real.sqrt q = q := Real.mul_self_sqrt (by positivity)
  have hpos := Real.sqrt_nonneg (q : ℝ)
  have hlow' : (r : ℝ) ≤ Real.sqrt q := Real.le_sqrt_of_sq_le (by rw [sq]; exact_mod_cast hlow)
  have hhigh' : Real.sqrt q < r + 1 := (Real.sqrt_lt' (by positivity)).2 (by rw [sq]; exact_mod_cast hhigh)
  split <;> rename_i hup
  · have hup' : (r : ℝ) * r + r + 1 ≤ q := by exact_mod_cast hup
    have hhalf : (r : ℝ) + 1 / 2 < Real.sqrt q := by nlinarith
    have habs : |(((r + 1 : Nat) : Int) : ℝ) - Real.sqrt q| = r + 1 - Real.sqrt q := by
      push_cast
      rw [abs_of_nonneg] ; linarith
    exact ⟨by rw [habs]; linarith, fun h => by rw [habs] at h; linarith⟩
  · have hup' : (q : ℝ) ≤ r * r + r := by exact_mod_cast not_lt.1 hup
    have hhalf : Real.sqrt q < (r : ℝ) + 1 / 2 := by nlinarith
    have habs : |((r : Int) : ℝ) - Real.sqrt q| = Real.sqrt q - r := by
      push_cast
      rw [abs_sub_comm, abs_of_nonneg] ; linarith
    exact ⟨by rw [habs]; linarith, fun h => by rw [habs] at h; linarith⟩

theorem fxSqrt_is (ha : a.num x) (hx : 0 ≤ x) (he : 0 ≤ a.e + 92 - 2 * e) :
    fxRounded col e (Real.sqrt x) (fxSqrt col e a) := by
  have hm : 0 ≤ a.m := not_lt.1 fun h => absurd ((num_neg ha).1 h) (not_lt.2 hx)
  have hroot : Real.sqrt x / 2 ^ (e - 46) = Real.sqrt (a.m.toNat * 2 ^ (a.e + 92 - 2 * e).toNat : Nat) := by
    have hu := fxUnit_pos e
    rw [div_eq_iff hu.ne', ← Real.sqrt_sq hu.le, ← Real.sqrt_mul (by positivity)]
    congr 1
    rw [ha]
    push_cast
    have hcast : ((a.m.toNat : ℕ) : ℝ) = a.m := by exact_mod_cast Int.toNat_of_nonneg hm
    rw [hcast, mul_assoc, ← zpow_natCast, ← zpow_natCast, ← zpow_mul, ← zpow_add₀ (by norm_num),
      Int.toNat_of_nonneg he]
    congr 2
    push_cast
    ring
  unfold fxSqrt
  dsimp only
  rw [if_pos he]
  have hnear := isqrt_near (a.m.toNat * 2 ^ (a.e + 92 - 2 * e).toNat)
  rw [← hroot] at hnear
  exact fxRounded_of_near hnear

theorem fxOfVal_is {v : FVal} (h : v.is x) : fxRounded col e x (fxOfVal col e v) := by
  obtain ⟨n, m, d, rfl, -⟩ := id h
  exact fxRound_is h.num

theorem fxOfVal_none {v : FVal} (h : ¬∃ x, v.is x) : fxOfVal col e v = .error (.breach col) := by
  cases v with
  | nan => rfl
  | inf => rfl
  | fin n m d => exact absurd ⟨_, n, m, d, rfl, rfl⟩ h

end Sys2Proof.Machine
end

section
/-! The cells of FX48 matrices, and the steps that replace a row's or a column's cells one by one. -/
namespace Sys2Proof.Machine

variable {rows n : Nat} {m m1 : FxMat}

/-! ## Cells -/

theorem updAt_modify {α : Type} (f : α → α) : ∀ (l : List α) (i : Nat), updAt l i f = l.modify i f
  | [], i => by cases i <;> rfl
  | _ :: _, 0 => rfl
  | x :: l, i + 1 => congrArg (x :: ·) (updAt_modify f l i)

/-- A matrix of so many rows and columns. -/
def FxMat.rect (m : FxMat) (rows n : Nat) : Prop := m.length = rows ∧ ∀ r ∈ m, r.length = n

theorem FxMat.rect.row {i : Nat} (h : m.rect rows n) (hi : i < rows) : (m.getD i []).length = n := by
  have hi' : i < m.length := h.1.symm ▸ hi
  rw [List.getD_eq_getElem _ _ hi']
  exact h.2 _ (List.getElem_mem hi')

theorem FxMat.put_at {i j : Nat} (v : Int) (h : m.rect rows n) (hi : i < rows) (hj : j < n) (a b : Nat) :
    (m.put i j v).at a b = if a = i ∧ b = j then v else m.at a b := by
  have hi' : i < m.length := h.1.symm ▸ hi
  have hj' : j < m[i].length := by rw [h.2 _ (List.getElem_mem hi')]; exact hj
  unfold FxMat.at FxMat.put
  simp only [updAt_modify, List.getD_eq_getElem?_getD, List.getElem?_modify]
  by_cases ha : a = i
  · subst ha
    simp only [List.getElem?_eq_getElem hi', if_true, Option.map_eq_map, Option.map_some, Option.getD_some, true_and,
      List.getElem?_modify]
    by_cases hb : b = j
    · subst hb
      simp [List.getElem?_eq_getElem hj']
    · have hb' : ¬ j = b := fun h => hb h.symm
      simp [hb, hb']
  · have ha' : ¬ i = a := fun h => ha h.symm
    simp [ha, ha']

theorem FxMat.put_rect {i j : Nat} (v : Int) (h : m.rect rows n) : (m.put i j v).rect rows n := by
  unfold FxMat.put
  rw [updAt_modify]
  refine ⟨by rw [List.length_modify]; exact h.1, fun r hr => ?_⟩
  obtain ⟨a, ha, rfl⟩ := List.getElem_of_mem hr
  rw [List.getElem_modify]
  rw [List.length_modify] at ha
  split
  · rw [updAt_modify, List.length_modify]
    exact h.2 _ (List.getElem_mem ha)
  · exact h.2 _ (List.getElem_mem ha)

/-- Which row stands in a place behind an exchange. -/
def swapRow (i p a : Nat) : Nat := if a = i then p else if a = p then i else a

theorem FxMat.swap_at {i p : Nat} (h : m.rect rows n) (hi : i < rows) (hp : p < rows) (a b : Nat) :
    (m.swap i p).at a b = m.at (swapRow i p a) b := by
  have hi' : i < m.length := h.1.symm ▸ hi
  have hp' : p < m.length := h.1.symm ▸ hp
  unfold FxMat.at FxMat.swap swapRow
  simp only [List.getD_eq_getElem?_getD, List.getElem?_set, List.length_set]
  by_cases hap : p = a
  · subst hap
    by_cases hpi : p = i
    · subst hpi
      simp [hp']
    · simp [hp', hpi]
  · by_cases hai : i = a
    · subst hai
      simp [hap, hi']
    · have h1 : a ≠ i := fun h => hai h.symm
      have h2 : a ≠ p := fun h => hap h.symm
      simp [hap, hai, h1, h2]

theorem FxMat.swap_rect {i p : Nat} (h : m.rect rows n) (hi : i < rows) (hp : p < rows) :
    (m.swap i p).rect rows n := by
  have hi' := h.row hi
  have hp' := h.row hp
  refine ⟨by simp [FxMat.swap, h.1], fun r hr => ?_⟩
  rcases List.mem_or_eq_of_mem_set hr with hr | rfl
  · rcases List.mem_or_eq_of_mem_set hr with hr | rfl
    · exact h.2 _ hr
    · exact hp'
  · exact hi'

/-! ## Filling cells -/

/-- What the cells of a list become: in each the value that f gives for the matrix as it was. -/
structure Filled (cells : List (Nat × Nat)) (f : Nat → Nat → Except FxStop Int) (m m1 : FxMat) : Prop where
  cell : ∀ c ∈ cells, f c.1 c.2 = .ok (m1.at c.1 c.2)
  other : ∀ i j, (i, j) ∉ cells → m1.at i j = m.at i j

/-- f gives a cell the same value for every matrix in which the cell and all others behind the list are the same. -/
def readsOthers (cells : List (Nat × Nat)) (m : FxMat) (f : FxMat → Nat → Nat → Except FxStop Int) : Prop :=
  ∀ c ∈ cells, ∀ m' : FxMat, m'.at c.1 c.2 = m.at c.1 c.2 → (∀ i j, (i, j) ∉ cells → m'.at i j = m.at i j) →
    f m' c.1 c.2 = f m c.1 c.2

theorem fill_nil (f : FxMat → Nat → Nat → Except FxStop Int) : m.fill [] f = .ok m := rfl

theorem fill_cons (c : Nat × Nat) (l : List (Nat × Nat)) (f : FxMat → Nat → Nat → Except FxStop Int) :
    m.fill (c :: l) f = match f m c.1 c.2 with
      | .ok v => (m.put c.1 c.2 v).fill l f
      | .error e => .error e := by
  unfold FxMat.fill
  rw [List.foldlM_cons]
  cases f m c.1 c.2 <;> rfl

/-- Filling goes through, each cell by the matrix as it was, or stops at the first that has none. -/
theorem fill_cases {cells : List (Nat × Nat)} {f : FxMat → Nat → Nat → Except FxStop Int}
    {m0 : FxMat} (hreads : readsOthers cells m0 f) : ∀ (l : List (Nat × Nat)) (m : FxMat), l ⊆ cells → l.Nodup →
    (∀ c ∈ l, c.1 < rows ∧ c.2 < n) → m.rect rows n → (∀ c ∈ l, m.at c.1 c.2 = m0.at c.1 c.2) →
    (∀ i j, (i, j) ∉ cells → m.at i j = m0.at i j) →
    (∃ m1, m.fill l f = .ok m1 ∧ m1.rect rows n ∧ Filled l (f m0) m m1) ∨
      ∃ c ∈ l, ∃ e, f m0 c.1 c.2 = .error e ∧ m.fill l f = .error e
  | [], m, _, _, _, hm, _, _ => .inl ⟨m, rfl, hm, by simp, fun _ _ _ => rfl⟩
  | c :: l, m, hsub, hnodup, hin, hm, hcells, hothers => by
    obtain ⟨hnotin, hnodup⟩ := List.nodup_cons.1 hnodup
    obtain ⟨hc, hin⟩ := List.forall_mem_cons.1 hin
    obtain ⟨hcell, hcells⟩ := List.forall_mem_cons.1 hcells
    obtain ⟨hcsub, hsub⟩ := List.cons_subset.1 hsub
    have hval : f m c.1 c.2 = f m0 c.1 c.2 := hreads c hcsub m hcell hothers
    rw [fill_cons, hval]
    cases hf : f m0 c.1 c.2 with
    | error e => exact .inr ⟨c, List.mem_cons_self, e, hf, rfl⟩
    | ok v =>
      have hput (i j : Nat) (hne : (i, j) ≠ c) : (m.put c.1 c.2 v).at i j = m.at i j := by
        rw [FxMat.put_at v hm hc.1 hc.2, if_neg fun h => hne (Prod.ext h.1 h.2)]
      rcases fill_cases hreads l (m.put c.1 c.2 v) hsub hnodup hin (FxMat.put_rect v hm)
          (fun d hd => (hput _ _ fun h => hnotin (h ▸ hd)).trans (hcells d hd))
          (fun i j hij => (hput i j fun h => hij (h ▸ hcsub)).trans (hothers i j hij)) with
        ⟨m1, hok, hrect, hcell1, hother1⟩ | ⟨d, hd, e, he, herr⟩
      · refine .inl ⟨m1, hok, hrect, ?_, fun i j hij => ?_⟩
        · refine List.forall_mem_cons.2 ⟨?_, hcell1⟩
          rw [hf, hother1 c.1 c.2 hnotin, FxMat.put_at v hm hc.1 hc.2, if_pos ⟨rfl, rfl⟩]
        · obtain ⟨hne, hij⟩ := not_or.1 (fun h => hij (List.mem_cons.2 h))
          rw [hother1 i j hij, hput i j hne]
      · exact .inr ⟨d, List.mem_cons_of_mem _ hd, e, he, herr⟩

/-- Filling a whole list of cells. -/
theorem fill_all {cells : List (Nat × Nat)} {f : FxMat → Nat → Nat → Except FxStop Int} (hreads : readsOthers cells m f)
    (hnodup : cells.Nodup) (hin : ∀ c ∈ cells, c.1 < rows ∧ c.2 < n) (hm : m.rect rows n) :
    (∃ m1, m.fill cells f = .ok m1 ∧ m1.rect rows n ∧ Filled cells (f m) m m1) ∨
      ∃ c ∈ cells, ∃ e, f m c.1 c.2 = .error e ∧ m.fill cells f = .error e :=
  fill_cases hreads cells m (List.Subset.refl _) hnodup hin hm (fun _ _ => rfl) fun _ _ _ => rfl

/-! ## Rows and columns -/

theorem mem_colCells {k lo hi i j : Nat} : (i, j) ∈ colCells k lo hi ↔ lo ≤ i ∧ i < hi ∧ j = k := by
  simp only [colCells, List.mem_map, List.mem_range, Prod.mk.injEq]
  constructor
  · rintro ⟨t, ht, rfl, rfl⟩
    omega
  · rintro ⟨h1, h2, rfl⟩
    exact ⟨i - lo, by omega, by omega, rfl⟩

theorem mem_rowCells {k lo hi i j : Nat} : (i, j) ∈ rowCells k lo hi ↔ i = k ∧ lo ≤ j ∧ j < hi := by
  simp only [rowCells, List.mem_map, List.mem_range, Prod.mk.injEq]
  constructor
  · rintro ⟨t, ht, rfl, rfl⟩
    omega
  · rintro ⟨rfl, h1, h2⟩
    exact ⟨j - lo, by omega, rfl, by omega⟩

theorem colCells_nodup (k lo hi : Nat) : (colCells k lo hi).Nodup :=
  List.nodup_range.map fun a b h => by simpa using h

theorem rowCells_nodup (k lo hi : Nat) : (rowCells k lo hi).Nodup :=
  List.nodup_range.map fun a b h => by simpa using h

/-- A column from row lo on, filled from the cells outside it and from the cell itself. -/
theorem fillCol {k lo : Nat} {f : FxMat → Nat → Nat → Except FxStop Int} (hm : m.rect rows n) (hk : k < n)
    (hreads : readsOthers (colCells k lo rows) m f) :
    (∃ m1, m.fill (colCells k lo rows) f = .ok m1 ∧ m1.rect rows n ∧
      (∀ i, lo ≤ i → i < rows → f m i k = .ok (m1.at i k)) ∧
      ∀ i j, ¬(lo ≤ i ∧ i < rows ∧ j = k) → m1.at i j = m.at i j) ∨
    ∃ i e, lo ≤ i ∧ i < rows ∧ f m i k = .error e ∧ m.fill (colCells k lo rows) f = .error e := by
  have hin : ∀ c ∈ colCells k lo rows, c.1 < rows ∧ c.2 < n := fun c hc => by
    obtain ⟨-, h2, h3⟩ := mem_colCells.1 hc
    exact ⟨h2, h3 ▸ hk⟩
  rcases fill_all hreads (colCells_nodup k lo rows) hin hm with ⟨m1, hok, hrect, hcell, hother⟩ | ⟨c, hc, e, he, herr⟩
  · exact .inl ⟨m1, hok, hrect, fun i h1 h2 => hcell (i, k) (mem_colCells.2 ⟨h1, h2, rfl⟩),
      fun i j hij => hother i j fun h => hij (mem_colCells.1 h)⟩
  · obtain ⟨h1, h2, h3⟩ := mem_colCells.1 hc
    exact .inr ⟨c.1, e, h1, h2, h3 ▸ he, herr⟩

/-- A row from column lo on, likewise. -/
theorem fillRow {k lo : Nat} {f : FxMat → Nat → Nat → Except FxStop Int} (hm : m.rect rows n) (hk : k < rows)
    (hreads : readsOthers (rowCells k lo n) m f) :
    (∃ m1, m.fill (rowCells k lo n) f = .ok m1 ∧ m1.rect rows n ∧
      (∀ j, lo ≤ j → j < n → f m k j = .ok (m1.at k j)) ∧ ∀ i j, ¬(i = k ∧ lo ≤ j ∧ j < n) → m1.at i j = m.at i j) ∨
    ∃ j e, lo ≤ j ∧ j < n ∧ f m k j = .error e ∧ m.fill (rowCells k lo n) f = .error e := by
  have hin : ∀ c ∈ rowCells k lo n, c.1 < rows ∧ c.2 < n := fun c hc => by
    obtain ⟨h1, -, h3⟩ := mem_rowCells.1 hc
    exact ⟨h1 ▸ hk, h3⟩
  rcases fill_all hreads (rowCells_nodup k lo n) hin hm with ⟨m1, hok, hrect, hcell, hother⟩ | ⟨c, hc, e, he, herr⟩
  · exact .inl ⟨m1, hok, hrect, fun j h1 h2 => hcell (k, j) (mem_rowCells.2 ⟨rfl, h1, h2⟩),
      fun i j hij => hother i j fun h => hij (mem_rowCells.1 h)⟩
  · obtain ⟨h1, h2, h3⟩ := mem_rowCells.1 hc
    exact .inr ⟨c.2, e, h2, h3, h1 ▸ he, herr⟩

/-! ## The pivot -/

/-- The lowest row from k on whose entry in column k has the greatest magnitude (R181). -/
theorem pivotRow_is {k : Nat} (hk : k < n) : k ≤ pivotRow m n k ∧ pivotRow m n k < n ∧
    ∀ i, k ≤ i → i < n → |m.at i k| ≤ |m.at (pivotRow m n k) k| ∧
      (|m.at i k| = |m.at (pivotRow m n k) k| → pivotRow m n k ≤ i) := by
  have hstep (c : Nat) : ∀ r, r = (List.range c).foldl (fun best t =>
      if (m.at best k).natAbs < (m.at (k + t) k).natAbs then k + t else best) k →
      (k ≤ r ∧ (r = k ∨ r < k + c)) ∧ ∀ i, k ≤ i → i < k + c → (m.at i k).natAbs ≤ (m.at r k).natAbs ∧
        ((m.at i k).natAbs = (m.at r k).natAbs → r ≤ i) := by
    induction c with
    | zero =>
      rintro r rfl
      exact ⟨⟨le_rfl, .inl rfl⟩, fun i h1 h2 => absurd h2 (by omega)⟩
    | succ c ih =>
      intro r hr
      rw [List.range_succ, List.foldl_append] at hr
      obtain ⟨⟨hlow, hhigh⟩, hall⟩ := ih _ rfl
      generalize (List.range c).foldl _ k = b at hr hlow hhigh hall
      simp only [List.foldl_cons, List.foldl_nil] at hr
      split at hr <;> rename_i hgt <;> subst hr
      · refine ⟨⟨by omega, .inr (by omega)⟩, fun i h1 h2 => ?_⟩
        rcases Nat.lt_or_ge i (k + c) with hi | hi
        · have := (hall i h1 hi).1
          exact ⟨by omega, fun h => absurd h (by omega)⟩
        · obtain rfl : i = k + c := by omega
          exact ⟨le_rfl, fun _ => le_rfl⟩
      · refine ⟨⟨hlow, hhigh.imp_right fun h => by omega⟩, fun i h1 h2 => ?_⟩
        rcases Nat.lt_or_ge i (k + c) with hi | hi
        · exact hall i h1 hi
        · obtain rfl : i = k + c := by omega
          exact ⟨by omega, fun _ => by omega⟩
  obtain ⟨⟨hlow, hhigh⟩, hall⟩ := hstep (n - k) (pivotRow m n k) rfl
  refine ⟨hlow, by omega, fun i h1 h2 => ?_⟩
  obtain ⟨hle, hfirst⟩ := hall i h1 (by omega)
  rw [Int.abs_eq_natAbs, Int.abs_eq_natAbs]
  exact ⟨by exact_mod_cast hle, fun h => hfirst (by exact_mod_cast h)⟩

end Sys2Proof.Machine
end

section
/-! The steps of LU, Cholesky and LDLT (R174, R180, R181): each element one exact sum, rounded or divided once. -/
namespace Sys2Proof.Machine

variable {ea el : Int} {n k : Nat} {m m1 m2 : FxMat} {piv piv1 : List Int}

/-! ## Exact sums -/

theorem fxVal_num (e n : Int) : (fxVal e n).num (fxReal e n) := rfl

theorem Dyad.sub_num {a b : Dyad} {x y : ℝ} (ha : a.num x) (hb : b.num y) : (a.sub b).num (x - y) := by
  rw [sub_eq_add_neg]
  exact Dyad.add_num ha (Dyad.neg_num hb)

theorem fxReal_eq_zero {e n : Int} : fxReal e n = 0 ↔ n = 0 := by
  rw [fxReal, mul_eq_zero]
  simp [(fxUnit_pos e).ne']

theorem fxDot_sum (k : Nat) (f g : Nat → Int) : fxDot k f g = ((List.range k).map (fun p => f p * g p)).sum := by
  rw [fxDot, List.sum_eq_foldl, List.foldl_map]

theorem fxDot_congr {f g f' g' : Nat → Int} (hf : ∀ p < k, f' p = f p) (hg : ∀ p < k, g' p = g p) :
    fxDot k f' g' = fxDot k f g := by
  rw [fxDot_sum, fxDot_sum]
  congr 1
  refine List.map_congr_left fun p hp => ?_
  rw [hf p (List.mem_range.1 hp), hg p (List.mem_range.1 hp)]

/-- A dot product over a grid is the exact sum of what its terms stand for. -/
theorem fxDot_num {f g : Nat → Int} {e : Int} {t : Nat → ℝ} (ht : ∀ p, t p = ((f p * g p : Int) : ℝ) * 2 ^ e) :
    (⟨fxDot k f g, e⟩ : Dyad).num ((List.range k).map t).sum := by
  unfold Dyad.num
  simp only [fxDot_sum, funext ht]
  rw [List.sum_map_mul_right]
  rw [Int.cast_list_sum, List.map_map]
  rfl

/-! ## LU -/

/-- An element of a Crout step (R181). -/
def luElem (ea : Int) (k : Nat) (m : FxMat) (i j : Nat) : Except FxStop Int :=
  fxRound k ea ((fxVal ea (m.at i j)).sub ⟨fxDot k (fun p => m.at i p) (fun p => m.at p j), ea - 92⟩)

/-- The exact sum of an element of a Crout step. -/
noncomputable def luRest (ea : Int) (m : FxMat) (k i j : Nat) : ℝ :=
  fxReal ea (m.at i j) - ((List.range k).map (fun q => fxReal 0 (m.at i q) * fxReal ea (m.at q j))).sum

theorem luElem_is (m : FxMat) (i j : Nat) : fxRounded k ea (luRest ea m k i j) (luElem ea k m i j) := by
  refine fxRound_is (Dyad.sub_num (fxVal_num _ _) (fxDot_num fun p => ?_))
  unfold fxReal
  rw [show ea - 92 = (0 - 46) + (ea - 46) by ring, zpow_add₀ (by norm_num)]
  push_cast
  ring

theorem luElem_congr {m' : FxMat} {i j : Nat} (hij : m'.at i j = m.at i j) (hrow : ∀ p < k, m'.at i p = m.at i p)
    (hcol : ∀ p < k, m'.at p j = m.at p j) : luElem ea k m' i j = luElem ea k m i j := by
  rw [luElem, luElem, hij, fxDot_congr hrow hcol]

theorem luRest_congr {m' : FxMat} {i i' j : Nat} (hij : m'.at i j = m.at i' j)
    (hrow : ∀ p < k, m'.at i p = m.at i' p) (hcol : ∀ p < k, m'.at p j = m.at p j) :
    luRest ea m' k i j = luRest ea m k i' j := by
  rw [luRest, luRest, hij]
  congr 2
  refine List.map_congr_left fun p hp => ?_
  rw [hrow p (List.mem_range.1 hp), hcol p (List.mem_range.1 hp)]

theorem luElem_readsCol (m : FxMat) : readsOthers (colCells k k n) m (luElem ea k) := by
  intro c hc m' hcell hother
  obtain ⟨h1, h2, h3⟩ := mem_colCells.1 hc
  exact luElem_congr hcell (fun p hp => hother _ _ fun h => by have := mem_colCells.1 h; omega)
    fun p hp => hother _ _ fun h => by have := mem_colCells.1 h; omega

theorem luElem_readsRow (m : FxMat) : readsOthers (rowCells k (k + 1) n) m (luElem ea k) := by
  intro c hc m' hcell hother
  obtain ⟨h1, h2, h3⟩ := mem_rowCells.1 hc
  exact luElem_congr hcell (fun p hp => hother _ _ fun h => by have := mem_rowCells.1 h; omega)
    fun p hp => hother _ _ fun h => by have := mem_rowCells.1 h; omega

/-- What a Crout step does behind its pivot: the row of U, then the column of L. -/
def luTail (ea : Int) (n k p : Nat) (piv : List Int) (m : FxMat) : Except FxStop (FxMat × List Int) := do
  let m ← m.fill (rowCells k (k + 1) n) (luElem ea k)
  let m ← m.fill (colCells k (k + 1) n) (fun m i _ => fxDiv k k 0 (fxVal ea (m.at i k)) (fxVal ea (m.at k k)))
  pure (m, piv ++ [(p : Int)])

theorem luStep_eq (ea : Int) (n : Nat) (m : FxMat) (piv : List Int) (k : Nat) : luStep ea n (m, piv) k =
    (m.fill (colCells k k n) (luElem ea k) >>= fun m2 =>
      if (m2.swap k (pivotRow m2 n k)).at k k = 0 then .error (.singular k)
      else luTail ea n k (pivotRow m2 n k) piv (m2.swap k (pivotRow m2 n k))) := rfl

/-- The row and the column behind a pivot that is not 0. -/
theorem luTail_cases (hm : m.rect n n) (hk : k < n) (h0 : m.at k k ≠ 0) (p : Nat) (piv : List Int) :
    luTail ea n k p piv m = .error (.breach k) ∨ ∃ m1, luTail ea n k p piv m = .ok (m1, piv ++ [(p : Int)]) ∧
      (∀ j, k < j → j < n → fxNear ea (m1.at k j) (luRest ea m k k j)) ∧
      (∀ i, k < i → i < n → fxNear 0 (m1.at i k) (fxReal ea (m.at i k) / fxReal ea (m.at k k))) ∧
      ∀ i j, ¬(i = k ∧ k < j ∧ j < n) → ¬(k < i ∧ i < n ∧ j = k) → m1.at i j = m.at i j := by
  unfold luTail
  rcases fillRow hm hk (luElem_readsRow (ea := ea) m) with ⟨m2, hrow, hrect, hcell, hother⟩ | ⟨j, e, -, -, he, herr⟩
  · rw [hrow]
    have hkk : m2.at k k = m.at k k := hother k k (by omega)
    have hne : fxReal ea (m2.at k k) ≠ 0 := fun h => h0 (hkk ▸ fxReal_eq_zero.1 h)
    have hreads : readsOthers (colCells k (k + 1) n) m2
        (fun m i _ => fxDiv k k 0 (fxVal ea (m.at i k)) (fxVal ea (m.at k k))) := by
      intro c hc m' hcell' hother'
      obtain ⟨h1, h2, h3⟩ := mem_colCells.1 hc
      dsimp only
      rw [← h3] at hkk ⊢
      rw [hcell', hother' c.2 c.2 fun h => by have := mem_colCells.1 h; omega]
    rcases fillCol hrect hk hreads with ⟨m1, hcol, -, hcell1, hother1⟩ | ⟨i, e, -, -, he, herr⟩
    · refine .inr ⟨m1, ?_, fun j h1 h2 => ?_, fun i h1 h2 => ?_, fun i j h1 h2 => ?_⟩
      · show (m2.fill _ _ >>= fun m => _) = _
        rw [hcol]
        rfl
      · rw [hother1 k j (by omega)]
        exact (luElem_is m k j).near (hcell j h1 h2)
      · rw [← hkk, ← hother i k (by omega)]
        exact (fxDiv_ok (fxVal_num _ _) (fxVal_num _ _) (hcell1 i h1 h2)).2
      · rw [hother1 i j fun h => h2 ⟨by omega, h.2⟩, hother i j fun h => h1 ⟨h.1, by omega, h.2.2⟩]
    · left
      obtain rfl := fxDiv_error (fxVal_num _ _) (fxVal_num _ _) hne he
      show (m2.fill _ _ >>= fun m => _) = _
      rw [herr]
      rfl
  · left
    obtain rfl := (luElem_is m k j).breach he
    rw [herr]
    rfl

/-- A Crout step up to its pivot: a breach in its column, a column of zeros, or the rest behind the exchange. -/
theorem luStep_cases (hm : m.rect n n) (hk : k < n) (piv : List Int) :
    (∃ i, k ≤ i ∧ i < n ∧ (∀ v, ¬fxNear ea v (luRest ea m k i k)) ∧ luStep ea n (m, piv) k = .error (.breach k)) ∨
    ∃ m2 : FxMat, m2.rect n n ∧ (∀ i, k ≤ i → i < n → fxNear ea (m2.at i k) (luRest ea m k i k)) ∧
      (∀ i j, ¬(k ≤ i ∧ i < n ∧ j = k) → m2.at i j = m.at i j) ∧
      (m2.at (pivotRow m2 n k) k = 0 → luStep ea n (m, piv) k = .error (.singular k)) ∧
      (m2.at (pivotRow m2 n k) k ≠ 0 → luStep ea n (m, piv) k =
        luTail ea n k (pivotRow m2 n k) piv (m2.swap k (pivotRow m2 n k))) := by
  rw [luStep_eq]
  rcases fillCol hm hk (luElem_readsCol (ea := ea) m) with ⟨m2, hcol, hrect, hcell, hother⟩ | ⟨i, e, h1, h2, he, herr⟩
  · right
    obtain ⟨hp1, hp2, -⟩ := pivotRow_is (m := m2) hk
    have hkk : (m2.swap k (pivotRow m2 n k)).at k k = m2.at (pivotRow m2 n k) k := by
      rw [FxMat.swap_at hrect hk hp2, swapRow, if_pos rfl]
    refine ⟨m2, hrect, fun i h1 h2 => (luElem_is m i k).near (hcell i h1 h2), hother, fun h0 => ?_, fun h0 => ?_⟩
    · rw [hcol]
      exact if_pos (hkk.trans h0)
    · rw [hcol]
      exact if_neg fun h => h0 (hkk.symm.trans h)
  · left
    have hr := luElem_is (ea := ea) (k := k) m i k
    refine ⟨i, h1, h2, fun v hv => ?_, ?_⟩
    · rw [hr.ok hv] at he
      cases he
    · obtain rfl := hr.breach he
      rw [herr]
      rfl

/-- A step of LU that ends (R181). -/
theorem luStep_ok (hm : m.rect n n) (hk : k < n) (h : luStep ea n (m, piv) k = .ok (m1, piv1)) :
    ∃ (p : Nat) (v : Nat → Int), k ≤ p ∧ p < n ∧ piv1 = piv ++ [(p : Int)] ∧
      (∀ i, k ≤ i → i < n → fxNear ea (v i) (luRest ea m k i k) ∧ |v i| ≤ |v p| ∧ (|v i| = |v p| → p ≤ i)) ∧
      v p ≠ 0 ∧ m1.at k k = v p ∧ ∀ i j, i < n → j < n →
        (i = k → k < j → fxNear ea (m1.at k j) (luRest ea m k p j)) ∧
        (k < i → j = k → fxNear 0 (m1.at i k) (fxReal ea (v (swapRow k p i)) / fxReal ea (v p))) ∧
        (i < k ∨ j < k ∨ k < i ∧ k < j → m1.at i j = m.at (swapRow k p i) j) := by
  rcases luStep_cases (ea := ea) hm hk piv with ⟨i, -, -, -, herr⟩ | ⟨m2, hrect, hcol, hother, hzero, htail⟩
  · rw [h] at herr
    cases herr
  obtain ⟨hp1, hp2, hgreatest⟩ := pivotRow_is (m := m2) hk
  generalize hp : pivotRow m2 n k = p at *
  by_cases h0 : m2.at p k = 0
  · rw [hzero h0] at h
    cases h
  rw [htail h0] at h
  have hswap := FxMat.swap_at hrect hk hp2
  have hkk : (m2.swap k p).at k k = m2.at p k := by rw [hswap, swapRow, if_pos rfl]
  rcases luTail_cases (ea := ea) (FxMat.swap_rect hrect hk hp2) hk (hkk ▸ h0) p piv with
    herr | ⟨m', hok, hrow, hdiv, hrest⟩
  · rw [h] at herr
    cases herr
  rw [hok] at h
  cases h
  refine ⟨p, fun i => m2.at i k, hp1, hp2, rfl, fun i h1 h2 => ⟨hcol i h1 h2, hgreatest i h1 h2⟩, h0, ?_, ?_⟩
  · rw [hrest k k (by omega) (by omega), hkk]
  intro i j hi hj
  refine ⟨fun _ hkj => ?_, fun hki _ => ?_, fun hout => ?_⟩
  · have hrow' (b : Nat) (hb : b ≠ k) : (m2.swap k p).at k b = m.at p b := by
      rw [hswap, swapRow, if_pos rfl, hother p b fun h => hb h.2.2]
    have hsame := luRest_congr (ea := ea) (k := k) (hrow' j (by omega)) (fun q hq => hrow' q (by omega)) fun q hq => by
      rw [hswap, swapRow, if_neg (by omega), if_neg (by omega), hother q j (by omega)]
    rw [← hsame]
    exact hrow j hkj hj
  · have h := hdiv i hki hi
    rwa [hkk, hswap] at h
  · have hne : ¬(k ≤ swapRow k p i ∧ swapRow k p i < n ∧ j = k) := by
      rintro ⟨h1, -, rfl⟩
      unfold swapRow at h1
      split at h1
      · omega
      · split at h1 <;> omega
    rw [hrest i j (by omega) (by omega), hswap, hother _ _ hne]

theorem luStep_error (hm : m.rect n n) (hk : k < n) {e : FxStop} (h : luStep ea n (m, piv) k = .error e) :
    e = .singular k ∨ e = .breach k := by
  rcases luStep_cases (ea := ea) hm hk piv with ⟨i, -, -, -, herr⟩ | ⟨m2, hrect, -, -, hzero, htail⟩
  · rw [h] at herr
    cases herr
    exact .inr rfl
  obtain ⟨hp1, hp2, -⟩ := pivotRow_is (m := m2) hk
  by_cases h0 : m2.at (pivotRow m2 n k) k = 0
  · rw [hzero h0] at h
    cases h
    exact .inl rfl
  · have hkk : (m2.swap k (pivotRow m2 n k)).at k k ≠ 0 := by
      rwa [FxMat.swap_at hrect hk hp2, swapRow, if_pos rfl]
    rw [htail h0] at h
    rcases luTail_cases (ea := ea) (FxMat.swap_rect hrect hk hp2) hk hkk _ piv with herr | ⟨m', hok, -⟩
    · rw [h] at herr
      cases herr
      exact .inr rfl
    · rw [h] at hok
      cases hok

/-- SINGULAR where every candidate for the pivot is 0 (R181). -/
theorem luStep_singular (hm : m.rect n n) (hk : k < n) : luStep ea n (m, piv) k = .error (.singular k) ↔
    ∀ i, k ≤ i → i < n → fxNear ea 0 (luRest ea m k i k) := by
  rcases luStep_cases (ea := ea) hm hk piv with ⟨i, h1, h2, hnone, herr⟩ | ⟨m2, hrect, hcol, -, hzero, htail⟩
  · rw [herr]
    exact ⟨fun h => (by cases h), fun h => absurd (h i h1 h2) (hnone 0)⟩
  obtain ⟨hp1, hp2, hgreatest⟩ := pivotRow_is (m := m2) hk
  constructor
  · intro h i h1 h2
    have h0 : m2.at (pivotRow m2 n k) k = 0 := by
      by_contra h0
      have hkk : (m2.swap k (pivotRow m2 n k)).at k k ≠ 0 := by
        rwa [FxMat.swap_at hrect hk hp2, swapRow, if_pos rfl]
      rw [htail h0] at h
      rcases luTail_cases (ea := ea) (FxMat.swap_rect hrect hk hp2) hk hkk _ piv with herr | ⟨m', hok, -⟩
      · rw [h] at herr
        cases herr
      · rw [h] at hok
        cases hok
    have hle := (hgreatest i h1 h2).1
    rw [h0, abs_zero] at hle
    have hi : m2.at i k = 0 := abs_eq_zero.1 (le_antisymm hle (abs_nonneg _))
    exact hi ▸ hcol i h1 h2
  · intro h
    exact hzero (fxNear_unique (hcol _ hp1 hp2) (h _ hp1 hp2))

end Sys2Proof.Machine
end

section
/-! The steps of Cholesky and LDLT (R174, R180, R181): a pivot, and the column below it divided once. -/
namespace Sys2Proof.Machine

variable {ea el : Int} {n k : Nat} {m m1 : FxMat}

/-! ## The column below a pivot -/

/-- The column below a pivot that has been put in its place, each element divided by it. -/
def belowPivot (k n : Nat) (ed eo : Int) (g : FxMat → Nat → Dyad) (r : Int) (m : FxMat) : Except FxStop FxMat :=
  (m.put k k r).fill (colCells k (k + 1) n) (fun m i _ => fxDiv k k eo (g m i) (fxVal ed (m.at k k)))

/-- A row's exact sum reads its own element of column k and what stands before that column. -/
def readsBefore (k n : Nat) (g : FxMat → Nat → Dyad) : Prop :=
  ∀ (m m' : FxMat) (i : Nat), k < i → i < n → m'.at i k = m.at i k →
    (∀ a b, b < k → m'.at a b = m.at a b) → g m' i = g m i

theorem belowPivot_cases {ed eo : Int} {g : FxMat → Nat → Dyad} {R : Nat → ℝ} (hm : m.rect n n) (hk : k < n)
    (hg : readsBefore k n g) (hR : ∀ i, (g m i).num (R i)) (r : Int) :
    (belowPivot k n ed eo g r m = .error (.breach k) ∨ belowPivot k n ed eo g r m = .error (.zeroDiv k)) ∨
    ∃ m1, belowPivot k n ed eo g r m = .ok m1 ∧ m1.at k k = r ∧
      (∀ i, k < i → i < n → fxNear eo (m1.at i k) (R i / fxReal ed r)) ∧
      ∀ i j, i < n → j < n → i < k ∨ j ≠ k → m1.at i j = m.at i j := by
  have hput (a b : Nat) (hne : ¬(a = k ∧ b = k)) : (m.put k k r).at a b = m.at a b := by
    rw [FxMat.put_at r hm hk hk, if_neg hne]
  have hkk : (m.put k k r).at k k = r := by rw [FxMat.put_at r hm hk hk, if_pos ⟨rfl, rfl⟩]
  have hreads : readsOthers (colCells k (k + 1) n) (m.put k k r)
      (fun m i _ => fxDiv k k eo (g m i) (fxVal ed (m.at k k))) := by
    intro c hc m' hcell hother
    obtain ⟨h1, h2, h3⟩ := mem_colCells.1 hc
    dsimp only
    rw [hg (m.put k k r) m' c.1 (by omega) h2 (h3 ▸ hcell) fun a b hb => hother a b fun h => by
        have := mem_colCells.1 h
        omega,
      hother k k fun h => by have := mem_colCells.1 h; omega]
  have hrow (i : Nat) (h1 : k < i) (h2 : i < n) : g (m.put k k r) i = g m i :=
    hg m _ i h1 h2 (hput i k (by omega)) fun a b hb => hput a b (by omega)
  have hval := fxVal_num ed r
  rcases fillCol (FxMat.put_rect r hm) hk hreads with ⟨m1, hok, -, hcell, hother⟩ | ⟨i, e, h1, h2, he, herr⟩
  · refine .inr ⟨m1, hok, ?_, fun i h1 h2 => ?_, fun i j hi hj hout => ?_⟩
    · rw [hother k k (by omega), hkk]
    · have h := hcell i h1 h2
      rw [hrow i h1 h2, hkk] at h
      exact (fxDiv_ok (hR i) hval h).2
    · rw [hother i j (by omega), hput i j (by omega)]
  · left
    rw [hrow i h1 h2, hkk] at he
    by_cases h0 : fxReal ed r = 0
    · rw [fxDiv_zero hval h0] at he
      cases he
      exact .inr herr
    · obtain rfl := fxDiv_error (hR i) hval h0 he
      exact .inl herr

/-! ## Cholesky -/

theorem ceilHalf_le (e : Int) : 2 * ceilHalf e ≤ e + 1 := by
  unfold ceilHalf
  omega

/-- A row's exact sum in a Cholesky step. -/
def cholRest (ea : Int) (k : Nat) (m : FxMat) (i : Nat) : Dyad :=
  (fxVal ea (m.at i k)).sub ⟨fxDot k (fun p => m.at i p) (fun p => m.at k p), 2 * ceilHalf ea - 92⟩

theorem cholStep_eq (ea : Int) (n : Nat) (m : FxMat) (k : Nat) : cholStep ea n m k =
    if (cholRest ea k m k).m ≤ 0 then .error (.notSpd k)
    else fxSqrt k (ceilHalf ea) (cholRest ea k m k) >>= fun r =>
      belowPivot k n (ceilHalf ea) (ceilHalf ea) (cholRest ea k) r m := rfl

theorem cholRest_num (m : FxMat) (i : Nat) : (cholRest ea k m i).num (fxReal ea (m.at i k) -
    ((List.range k).map (fun q => fxReal (ceilHalf ea) (m.at i q) * fxReal (ceilHalf ea) (m.at k q))).sum) := by
  refine Dyad.sub_num (fxVal_num _ _) (fxDot_num fun p => ?_)
  unfold fxReal
  rw [show 2 * ceilHalf ea - 92 = (ceilHalf ea - 46) + (ceilHalf ea - 46) by ring, zpow_add₀ (by norm_num)]
  push_cast
  ring

theorem cholRest_reads : readsBefore k n (cholRest ea k) := by
  intro m m' i h1 h2 hik hbefore
  rw [cholRest, cholRest, hik, fxDot_congr (fun p hp => hbefore i p hp) fun p hp => hbefore k p hp]

theorem Dyad.add_exp (a b : Dyad) : min a.e b.e ≤ (a.add b).e := by
  unfold Dyad.add
  split
  · exact min_le_right _ _
  split
  · exact min_le_left _ _
  unfold Dyad.align
  dsimp only
  split <;> dsimp only <;> omega

theorem cholRest_exp (m : FxMat) (i : Nat) : 0 ≤ (cholRest ea k m i).e + 92 - 2 * ceilHalf ea := by
  have hexp := Dyad.add_exp (fxVal ea (m.at i k))
    (Dyad.neg ⟨fxDot k (fun p => m.at i p) (fun p => m.at k p), 2 * ceilHalf ea - 92⟩)
  have hmin : 2 * ceilHalf ea - 92 ≤ min (fxVal ea (m.at i k)).e
      (Dyad.neg ⟨fxDot k (fun p => m.at i p) (fun p => m.at k p), 2 * ceilHalf ea - 92⟩).e := by
    refine le_min ?_ le_rfl
    have := ceilHalf_le ea
    show 2 * ceilHalf ea - 92 ≤ ea - 46
    omega
  have := hmin.trans hexp
  unfold cholRest Dyad.sub
  omega

section
variable {rest : Nat → ℝ} (hm : m.rect n n) (hk : k < n) (hrest : ∀ i, rest i = fxReal ea (m.at i k) -
  ((List.range k).map (fun q => fxReal (ceilHalf ea) (m.at i q) * fxReal (ceilHalf ea) (m.at k q))).sum)
include hm hk hrest

/-- A Cholesky step: NOT_SPD at a pivot that is not above 0, else a root and a divided column, or a stop (R181). -/
theorem cholStep_cases : (rest k ≤ 0 ∧ cholStep ea n m k = .error (.notSpd k)) ∨ 0 < rest k ∧
    ((cholStep ea n m k = .error (.breach k) ∨ cholStep ea n m k = .error (.zeroDiv k)) ∨
    ∃ m1, cholStep ea n m k = .ok m1 ∧ fxNear (ceilHalf ea) (m1.at k k) (Real.sqrt (rest k)) ∧
      (∀ i, k < i → i < n → fxNear (ceilHalf ea) (m1.at i k) (rest i / fxReal (ceilHalf ea) (m1.at k k))) ∧
      ∀ i j, i < n → j < n → i < k ∨ j ≠ k → m1.at i j = m.at i j) := by
  have hnum (i : Nat) : (cholRest ea k m i).num (rest i) := hrest i ▸ cholRest_num m i
  have hsign : (cholRest ea k m k).m ≤ 0 ↔ rest k ≤ 0 := by
    rw [le_iff_lt_or_eq, le_iff_lt_or_eq, num_neg (hnum k), num_zero (hnum k)]
  rw [cholStep_eq]
  by_cases hpos : rest k ≤ 0
  · exact .inl ⟨hpos, if_pos (hsign.2 hpos)⟩
  refine .inr ⟨not_le.1 hpos, ?_⟩
  rw [if_neg fun h => hpos (hsign.1 h)]
  have hroot := fxSqrt_is (col := k) (hnum k) (not_le.1 hpos).le (cholRest_exp m k)
  cases hr : fxSqrt k (ceilHalf ea) (cholRest ea k m k) with
  | error e =>
    obtain rfl := hroot.breach hr
    exact .inl (.inl rfl)
  | ok r =>
    rcases belowPivot_cases (ed := ceilHalf ea) (eo := ceilHalf ea) hm hk cholRest_reads hnum r with
      herr | ⟨m1, hok, hkk, hdiv, hother⟩
    · exact .inl herr
    · exact .inr ⟨m1, hok, hkk ▸ hroot.near hr, fun i h1 h2 => hkk ▸ hdiv i h1 h2, hother⟩

theorem cholStep_ok (h : cholStep ea n m k = .ok m1) :
    0 < rest k ∧ fxNear (ceilHalf ea) (m1.at k k) (Real.sqrt (rest k)) ∧
      (∀ i, k < i → i < n → fxNear (ceilHalf ea) (m1.at i k) (rest i / fxReal (ceilHalf ea) (m1.at k k))) ∧
      ∀ i j, i < n → j < n → i < k ∨ j ≠ k → m1.at i j = m.at i j := by
  rcases cholStep_cases hm hk hrest with ⟨-, herr⟩ | ⟨hpos, (herr | herr) | ⟨m', hok, hall⟩⟩
  · cases h.symm.trans herr
  · cases h.symm.trans herr
  · cases h.symm.trans herr
  · cases h.symm.trans hok
    exact ⟨hpos, hall⟩

theorem cholStep_notSpd : cholStep ea n m k = .error (.notSpd k) ↔ rest k ≤ 0 := by
  rcases cholStep_cases hm hk hrest with ⟨hle, herr⟩ | ⟨hpos, (herr | herr) | ⟨m', hok, -⟩⟩
  · exact ⟨fun _ => hle, fun _ => herr⟩
  · exact ⟨fun h => (by cases h.symm.trans herr), fun h => absurd hpos h.not_gt⟩
  · exact ⟨fun h => (by cases h.symm.trans herr), fun h => absurd hpos h.not_gt⟩
  · exact ⟨fun h => (by cases h.symm.trans hok), fun h => absurd hpos h.not_gt⟩

end

/-! ## LDLT -/

/-- A row's exact sum in an LDLT step. -/
def ldltRest (ea el : Int) (k : Nat) (m : FxMat) (i : Nat) : Dyad :=
  (fxVal ea (m.at i k)).sub ⟨fxDot k (fun p => m.at i p * m.at k p) (fun p => m.at p p), 2 * el + ea - 138⟩

theorem ldltStep_eq (ea el : Int) (n : Nat) (m : FxMat) (k : Nat) : ldltStep ea el n m k =
    (fxRound k ea (ldltRest ea el k m k) >>= fun d =>
      if d = 0 then .error (.singular k) else belowPivot k n ea el (ldltRest ea el k) d m) := rfl

theorem ldltRest_num (m : FxMat) (i : Nat) : (ldltRest ea el k m i).num (fxReal ea (m.at i k) -
    ((List.range k).map (fun q => fxReal el (m.at i q) * fxReal el (m.at k q) * fxReal ea (m.at q q))).sum) := by
  refine Dyad.sub_num (fxVal_num _ _) (fxDot_num fun p => ?_)
  unfold fxReal
  rw [show 2 * el + ea - 138 = (el - 46) + (el - 46) + (ea - 46) by ring, zpow_add₀ (by norm_num),
    zpow_add₀ (by norm_num)]
  push_cast
  ring

theorem ldltRest_reads : readsBefore k n (ldltRest ea el k) := by
  intro m m' i h1 h2 hik hbefore
  rw [ldltRest, ldltRest, hik, fxDot_congr (fun p hp => ?_) fun p hp => hbefore p p hp]
  rw [hbefore i p hp, hbefore k p hp]

section
variable {rest : Nat → ℝ} (hm : m.rect n n) (hk : k < n) (hrest : ∀ i, rest i = fxReal ea (m.at i k) -
  ((List.range k).map (fun q => fxReal el (m.at i q) * fxReal el (m.at k q) * fxReal ea (m.at q q))).sum)
include hm hk hrest

/-- An LDLT step: SINGULAR at a pivot of 0, else a divided column, or a stop (R181). -/
theorem ldltStep_cases : (fxNear ea 0 (rest k) ∧ ldltStep ea el n m k = .error (.singular k)) ∨ ¬fxNear ea 0 (rest k) ∧
    ((ldltStep ea el n m k = .error (.breach k) ∨ ldltStep ea el n m k = .error (.zeroDiv k)) ∨
    ∃ m1, ldltStep ea el n m k = .ok m1 ∧ m1.at k k ≠ 0 ∧ fxNear ea (m1.at k k) (rest k) ∧
      (∀ i, k < i → i < n → fxNear el (m1.at i k) (rest i / fxReal ea (m1.at k k))) ∧
      ∀ i j, i < n → j < n → i < k ∨ j ≠ k → m1.at i j = m.at i j) := by
  have hnum (i : Nat) : (ldltRest ea el k m i).num (rest i) := hrest i ▸ ldltRest_num m i
  have hround := fxRound_is (col := k) (e := ea) (hnum k)
  rw [ldltStep_eq]
  cases hd : fxRound k ea (ldltRest ea el k m k) with
  | error e =>
    obtain rfl := hround.breach hd
    refine .inr ⟨fun h0 => ?_, .inl (.inl rfl)⟩
    cases (hround.ok h0).symm.trans hd
  | ok d =>
    have hnear := hround.near hd
    by_cases h0 : d = 0
    · subst h0
      exact .inl ⟨hnear, rfl⟩
    · refine .inr ⟨fun h => h0 (fxNear_unique hnear h), ?_⟩
      have hrun : (Except.ok d >>= fun d => if d = 0 then (.error (.singular k) : Except FxStop FxMat)
          else belowPivot k n ea el (ldltRest ea el k) d m) = belowPivot k n ea el (ldltRest ea el k) d m := if_neg h0
      rw [hrun]
      rcases belowPivot_cases (ed := ea) (eo := el) hm hk ldltRest_reads hnum d with
        herr | ⟨m1, hok, hkk, hdiv, hother⟩
      · exact .inl herr
      · exact .inr ⟨m1, hok, hkk ▸ h0, hkk ▸ hnear, fun i h1 h2 => hkk ▸ hdiv i h1 h2, hother⟩

theorem ldltStep_ok (h : ldltStep ea el n m k = .ok m1) :
    m1.at k k ≠ 0 ∧ fxNear ea (m1.at k k) (rest k) ∧
      (∀ i, k < i → i < n → fxNear el (m1.at i k) (rest i / fxReal ea (m1.at k k))) ∧
      ∀ i j, i < n → j < n → i < k ∨ j ≠ k → m1.at i j = m.at i j := by
  rcases ldltStep_cases hm hk hrest with ⟨-, herr⟩ | ⟨-, (herr | herr) | ⟨m', hok, hall⟩⟩
  · cases h.symm.trans herr
  · cases h.symm.trans herr
  · cases h.symm.trans herr
  · cases h.symm.trans hok
    exact hall

theorem ldltStep_singular : ldltStep ea el n m k = .error (.singular k) ↔ fxNear ea 0 (rest k) := by
  rcases ldltStep_cases hm hk hrest with ⟨h0, herr⟩ | ⟨hne, (herr | herr) | ⟨m', hok, -⟩⟩
  · exact ⟨fun _ => h0, fun _ => herr⟩
  · exact ⟨fun h => (by cases h.symm.trans herr), fun h => absurd h hne⟩
  · exact ⟨fun h => (by cases h.symm.trans herr), fun h => absurd h hne⟩
  · exact ⟨fun h => (by cases h.symm.trans hok), fun h => absurd h hne⟩

end

end Sys2Proof.Machine
end

section
/-! Reflectors and the step of QR (R174, R180, R181). -/
namespace Sys2Proof.Machine

variable {ea : Int} {rows n k : Nat} {m m1 : FxMat} {piv piv1 taus : List Int}

/-! ## Reflectors, exactly -/

theorem sum_num_map {f : Nat → Dyad} {F : Nat → ℝ} {l : List Nat} (h : ∀ i ∈ l, (f i).num (F i)) :
    (Dyad.sum (l.map f)).num (l.map F).sum :=
  Dyad.sum_num (List.forall₂_map_left_iff.2 (List.forall₂_map_right_iff.2 (List.forall₂_same.2 h)))

/-- A vector of exact values. -/
def dyadsOf (v : List Dyad) (V : Nat → ℝ) : Prop := ∀ i < v.length, (v.getD i Dyad.zero).num (V i)

theorem dyadsOf_map {f : Nat → Dyad} {V : Nat → ℝ} (h : ∀ i < rows, (f i).num (V i)) :
    dyadsOf ((List.range rows).map f) V := by
  intro i hi
  rw [List.length_map, List.length_range] at hi
  rw [List.getD_eq_getElem _ _ (by simpa using hi)]
  simpa using h i hi

theorem zero_num : Dyad.zero.num 0 := by simp [Dyad.num, Dyad.zero]

theorem FxMat.col_getD (m : FxMat) {i j : Nat} (hi : i < rows) : (m.col rows j).getD i 0 = m.at i j := by
  simp [FxMat.col, List.getD, hi]

/-- The reflector of a factor's column. -/
noncomputable def reflector (m : FxMat) (k i : Nat) : ℝ :=
  if i < k then 0 else if i = k then 1 else fxReal 0 (m.at i k)

theorem reflect_length (h : List Int) (tau : Int) (lo : Nat) (v : List Dyad) :
    (reflect h tau lo v).length = v.length := by
  simp [reflect]

theorem reflect_is (tau : Int) {v : List Dyad} {V : Nat → ℝ} (hlen : v.length = rows) (hv : dyadsOf v V) :
    dyadsOf (reflect (m.col rows k) tau k v) (houseReal rows (fxReal 0 tau) (reflector m k) V) := by
  subst hlen
  have hrefl (i : Nat) (hi : i < v.length) : (if i < k then Dyad.zero else if i = k then Dyad.one
      else fxVal 0 ((m.col v.length k).getD i 0) : Dyad).num (reflector m k i) := by
    unfold reflector
    rw [m.col_getD hi]
    split
    · exact zero_num
    split
    · exact one_num
    · exact fxVal_num _ _
  refine dyadsOf_map fun i hi => Dyad.sub_num (hv i hi) (Dyad.mul_num (Dyad.mul_num (fxVal_num _ _) ?_) (hrefl i hi))
  exact sum_num_map fun t ht => Dyad.mul_num (hrefl t (List.mem_range.1 ht)) (hv t (List.mem_range.1 ht))

/-- Reflectors applied in an order, each exactly. -/
theorem reflectAll_is (m : FxMat) (taus : List Int) : ∀ (ks : List Nat) {v : List Dyad} {V : Nat → ℝ},
    v.length = rows → dyadsOf v V → (reflectAll m taus rows ks v).length = rows ∧
      dyadsOf (reflectAll m taus rows ks v) (housesReal m taus rows ks V)
  | [], _, _, hlen, hv => ⟨hlen, hv⟩
  | k :: ks, _, _, hlen, hv =>
    reflectAll_is m taus ks ((reflect_length _ _ _ _).trans hlen) (reflect_is (k := k) (taus.getD k 0) hlen hv)

/-! ## The step of QR -/

theorem except_bind_ok {α β : Type} {x : Except FxStop α} {f : α → Except FxStop β} {b : β}
    (h : (x >>= f) = .ok b) : ∃ a, x = .ok a ∧ f a = .ok b := by
  cases x with
  | error e => cases h
  | ok a => exact ⟨a, rfl, h⟩

theorem fxReal_div (e a b : Int) : fxReal e a / fxReal e b = a / b :=
  mul_div_mul_right _ _ (fxUnit_pos e).ne'

/-- A step of QR behind its column: the norm, and the reflector that the column leaves. -/
def qrTail (ea : Int) (rows k : Nat) (taus : List Int) (m : FxMat) : Except FxStop (FxMat × List Int) := do
  let norm ← fxSqrt k (ea + 4)
    ⟨(List.range (rows - k)).foldl (fun s t => s + m.at (k + t) k * m.at (k + t) k) 0, 2 * (ea + 4) - 92⟩
  let beta := if m.at k k < 0 then norm else -norm
  let tau ← fxDiv k k 0 (fxVal (ea + 4) (beta - m.at k k)) (fxVal (ea + 4) beta)
  let m1 ← m.fill (colCells k (k + 1) rows) (fun m' i _ =>
    fxDiv k k 0 (fxVal (ea + 4) (m'.at i k)) (fxVal (ea + 4) (m.at k k - beta)))
  pure (m1.put k k beta, taus ++ [tau])

theorem qrStep_eq (ea : Int) (rows : Nat) (m : FxMat) (taus : List Int) (k : Nat) : qrStep ea rows (m, taus) k =
    (m.fill (colCells k 0 rows) (fun _ i _ => fxRound k (ea + 4) ((reflectAll m taus rows (List.range k)
        ((m.col rows k).map (fxVal ea))).getD i Dyad.zero)) >>= fun m2 =>
      if ((List.range (rows - (k + 1))).all (fun t => m2.at (k + 1 + t) k == 0)) then .ok (m2, taus ++ [0])
      else qrTail ea rows k taus m2) := rfl

theorem filter_from (hk : k ≤ rows) :
    (List.range rows).filter (fun i => k ≤ i) = (List.range (rows - k)).map (fun t => k + t) := by
  conv_lhs => rw [← Nat.add_sub_cancel' hk, List.range_add, List.filter_append]
  rw [List.filter_eq_nil_iff.2 fun i hi => by simpa using hi, List.nil_append, List.filter_eq_self]
  intro i hi
  obtain ⟨t, -, rfl⟩ := List.mem_map.1 hi
  simp

/-- The norm's square: a sum of exact squares. -/
theorem qrSquares_num (m : FxMat) (e : Int) (hk : k ≤ rows) :
    (⟨(List.range (rows - k)).foldl (fun s t => s + m.at (k + t) k * m.at (k + t) k) 0, 2 * e - 92⟩ : Dyad).num
      (((List.range rows).filter (fun i => k ≤ i)).map (fun i => fxReal e (m.at i k) ^ 2)).sum := by
  rw [filter_from hk, List.map_map]
  refine fxDot_num (f := fun t => m.at (k + t) k) (g := fun t => m.at (k + t) k) fun t => ?_
  unfold fxReal Function.comp
  rw [show 2 * e - 92 = (e - 46) + (e - 46) by ring, zpow_add₀ (by norm_num)]
  push_cast
  ring

theorem qrTail_ok (hm : m.rect rows n) (hk : k < n) (hkr : k < rows) (h : qrTail ea rows k taus m = .ok (m1, piv1)) :
    ∃ norm tau : Int, piv1 = taus ++ [tau] ∧
      fxNear (ea + 4) norm (Real.sqrt ((((List.range rows).filter (fun i => k ≤ i)).map
        (fun i => fxReal (ea + 4) (m.at i k) ^ 2)).sum)) ∧
      let beta := if m.at k k < 0 then norm else -norm
      m1.at k k = beta ∧ fxNear 0 tau (((beta - m.at k k : Int) : ℝ) / beta) ∧
      (∀ i, k < i → i < rows → fxNear 0 (m1.at i k) ((m.at i k : ℝ) / (m.at k k - beta : Int))) ∧
      ∀ i j, ¬(k ≤ i ∧ i < rows ∧ j = k) → m1.at i j = m.at i j := by
  obtain ⟨norm, hnorm, h⟩ := except_bind_ok h
  obtain ⟨tau, htau, h⟩ := except_bind_ok h
  obtain ⟨m2, hfill, h⟩ := except_bind_ok h
  have hsquares : 0 ≤ (((List.range rows).filter (fun i => k ≤ i)).map (fun i => fxReal (ea + 4) (m.at i k) ^ 2)).sum :=
    List.sum_nonneg fun x hx => by
      obtain ⟨i, -, rfl⟩ := List.mem_map.1 hx
      exact sq_nonneg _
  have hroot := (fxSqrt_is (qrSquares_num m (ea + 4) hkr.le) hsquares (by dsimp only; omega)).near hnorm
  cases h
  refine ⟨norm, tau, rfl, hroot, ?_⟩
  generalize (if m.at k k < 0 then norm else -norm) = beta at *
  have hreads : readsOthers (colCells k (k + 1) rows) m (fun m' i _ =>
      fxDiv k k 0 (fxVal (ea + 4) (m'.at i k)) (fxVal (ea + 4) (m.at k k - beta))) := by
    intro c hc m' hcell hother
    obtain ⟨-, -, h3⟩ := mem_colCells.1 hc
    dsimp only
    rw [← h3, hcell]
  rcases fillCol hm hk hreads with ⟨m3, hok, hrect, hcell, hother⟩ | ⟨i, e, -, -, -, herr⟩
  case inr => cases hfill.symm.trans herr
  cases hfill.symm.trans hok
  have hput := FxMat.put_at beta hrect hkr hk
  refine ⟨by rw [hput, if_pos ⟨rfl, rfl⟩], ?_, fun i h1 h2 => ?_, fun i j hij => ?_⟩
  · have hdiv := (fxDiv_ok (fxVal_num _ _) (fxVal_num _ _) htau).2
    rwa [fxReal_div] at hdiv
  · have hdiv := (fxDiv_ok (fxVal_num _ _) (fxVal_num _ _) (hcell i h1 h2)).2
    rw [fxReal_div] at hdiv
    rwa [hput, if_neg (by omega)]
  · rw [hput, if_neg (by omega), hother i j (by omega)]

/-- A step of QR that ends (R181). -/
theorem qrStep_ok (hm : m.rect rows n) (hk : k < n) (hn : n ≤ rows) (h : qrStep ea rows (m, piv) k = .ok (m1, piv1)) :
    ∃ r : Nat → Int, (∀ i < rows, fxNear (ea + 4) (r i)
        (housesReal m piv rows (List.range k) (fun t => fxReal ea (m.at t k)) i)) ∧
      (∀ i j, i < rows → j < n → j ≠ k → m1.at i j = m.at i j) ∧ (∀ i < k, m1.at i k = r i) ∧
      ((∀ i, k < i → i < rows → r i = 0) → piv1 = piv ++ [0] ∧ ∀ i, k ≤ i → i < rows → m1.at i k = r i) ∧
      ((∃ i, k < i ∧ i < rows ∧ r i ≠ 0) → ∃ norm tau : Int, piv1 = piv ++ [tau] ∧
        fxNear (ea + 4) norm (Real.sqrt ((((List.range rows).filter (fun i => k ≤ i)).map
          (fun i => fxReal (ea + 4) (r i) ^ 2)).sum)) ∧
        let beta := if r k < 0 then norm else -norm
        m1.at k k = beta ∧ fxNear 0 tau (((beta - r k : Int) : ℝ) / beta) ∧
        ∀ i, k < i → i < rows → fxNear 0 (m1.at i k) ((r i : ℝ) / (r k - beta : Int))) := by
  have hkr : k < rows := by omega
  rw [qrStep_eq] at h
  obtain ⟨m2, hfill, h⟩ := except_bind_ok h
  have hcol : (m.col rows k).map (fxVal ea) = (List.range rows).map (fun i => fxVal ea (m.at i k)) := by
    rw [FxMat.col, List.map_map]
    rfl
  obtain ⟨hlen, hdyads⟩ := reflectAll_is (rows := rows) m piv (List.range k)
    (v := (m.col rows k).map (fxVal ea)) (V := fun t => fxReal ea (m.at t k)) (by simp [FxMat.col])
    (hcol ▸ dyadsOf_map fun i _ => fxVal_num _ _)
  rcases fillCol (lo := 0) hm hk (f := fun _ i _ => fxRound k (ea + 4) ((reflectAll m piv rows (List.range k)
    ((m.col rows k).map (fxVal ea))).getD i Dyad.zero)) (fun _ _ _ _ _ => rfl) with
    ⟨m3, hok, hrect, hcell, hother⟩ | ⟨i, e, -, -, -, herr⟩
  case inr => cases hfill.symm.trans herr
  cases hfill.symm.trans hok
  have hzeros : ((List.range (rows - (k + 1))).all (fun t => m2.at (k + 1 + t) k == 0)) = true ↔
      ∀ i, k < i → i < rows → m2.at i k = 0 := by
    rw [List.all_eq_true]
    constructor
    · intro hall i h1 h2
      have := hall (i - (k + 1)) (List.mem_range.2 (by omega))
      rwa [Nat.add_sub_cancel' (by omega), beq_iff_eq] at this
    · intro hall t ht
      rw [List.mem_range] at ht
      exact beq_iff_eq.2 (hall _ (by omega) (by omega))
  refine ⟨fun i => m2.at i k, fun i hi => (fxRound_is (hdyads i (by omega))).near (hcell i (Nat.zero_le i) hi), ?_⟩
  have hleft (i j : Nat) (hj : j ≠ k) : m2.at i j = m.at i j := hother i j fun h => hj h.2.2
  split at h <;> rename_i hall
  · cases h
    have hall := hzeros.1 hall
    refine ⟨fun i j _ _ => hleft i j, fun _ _ => rfl, fun _ => ⟨rfl, fun _ _ _ => rfl⟩, ?_⟩
    rintro ⟨i, h1, h2, hne⟩
    exact absurd (hall i h1 h2) hne
  · obtain ⟨norm, tau, hpiv, hnorm, hkk, htau, hcell', hother'⟩ := qrTail_ok hrect hk hkr h
    refine ⟨fun i j _ _ hj => ?_, fun i hi => hother' i k (by omega), fun hz => absurd (hzeros.2 hz) hall,
      fun _ => ⟨norm, tau, hpiv, hnorm, hkk, htau, hcell'⟩⟩
    rw [hother' i j fun h => hj h.2.2, hleft i j hj]

end Sys2Proof.Machine
end

section
/-! The stages of a solve (R175, R180): rows of triangular systems, each divided once, and reflectors. -/
namespace Sys2Proof.Machine

variable {col n : Nat} {eo : Int} {r : Nat → Dyad} {coef : Nat → Nat → Dyad} {d : Nat → Dyad}
  {R D : Nat → ℝ} {C : Nat → Nat → ℝ} {order : List Nat} {x : List Int}

/-! ## Triangular stages -/

/-- Two filtered sums, the one over more terms, of which the rest are 0. -/
theorem sum_filter_eq {p q : Nat → Bool} {F G : Nat → ℝ} : ∀ {l : List Nat},
    (∀ i ∈ l, q i = true → p i = true ∧ F i = G i) → (∀ i ∈ l, p i = true → q i = false → F i = 0) →
    ((l.filter p).map F).sum = ((l.filter q).map G).sum
  | [], _, _ => rfl
  | i :: l, hq, hp => by
    obtain ⟨hqi, hq⟩ := List.forall_mem_cons.1 hq
    obtain ⟨hpi, hp⟩ := List.forall_mem_cons.1 hp
    have ih := sum_filter_eq hq hp
    rw [List.filter_cons, List.filter_cons]
    by_cases hiq : q i = true
    · obtain ⟨hip, heq⟩ := hqi hiq
      rw [if_pos hip, if_pos hiq, List.map_cons, List.map_cons, List.sum_cons, List.sum_cons, heq, ih]
    · rw [if_neg hiq]
      split <;> rename_i hip
      · rw [List.map_cons, List.sum_cons, hpi hip (Bool.eq_false_iff.2 hiq), zero_add, ih]
      · exact ih

theorem getD_set_self {i : Nat} {v : Int} (hi : i < x.length) : (x.set i v).getD i 0 = v := by
  simp [List.getD, hi]

theorem getD_set_ne {i p : Nat} {v : Int} (h : i ≠ p) : (x.set i v).getD p 0 = x.getD p 0 := by
  simp [List.getD, h]

/-- A row of a triangular stage: one exact sum, divided once. -/
def triRow (col : Nat) (eo : Int) (order : List Nat) (r : Nat → Dyad) (coef : Nat → Nat → Dyad) (d : Nat → Dyad)
    (x : List Int) (i : Nat) : Except FxStop Int :=
  fxDiv col i eo ((r i).sub (Dyad.sum ((order.filter (· != i)).map (fun p => (coef i p).mul (fxVal eo (x.getD p 0))))))
    (d i)

theorem triStage_eq : triStage col eo order n r coef d =
    order.foldlM (fun x i => triRow col eo order r coef d x i >>= fun v => .ok (x.set i v)) (List.replicate n 0) := rfl

/-- An order of rows by a relation that tells which stand before which. -/
def orderedBy (before : Nat → Nat → Bool) (order : List Nat) : Prop :=
  order.Pairwise (fun p i => before p i = true ∧ before i p = false) ∧ ∀ i, before i i = false

section
variable {before : Nat → Nat → Bool} (hnum : ∀ i, (r i).num (R i)) (hcoef : ∀ i p, (coef i p).num (C i p))
  (hd : ∀ i, (d i).num (D i))
include hnum hcoef hd

theorem triRow_ok {x0 : List Int} {i : Nat} {v : Int} (h : triRow col eo order r coef d x0 i = .ok v) :
    fxNear eo v ((R i - ((order.filter (· != i)).map (fun p => C i p * fxReal eo (x0.getD p 0))).sum) / D i) :=
  (fxDiv_ok (Dyad.sub_num (hnum i) (sum_num_map fun p _ => Dyad.mul_num (hcoef i p) (fxVal_num _ _))) (hd i) h).2

/-- The rows behind those that are solved: each by those before it. -/
theorem triRows_ok (hord : orderedBy before order) (hin : ∀ p ∈ order, p < n) : ∀ (l pre : List Nat) (x0 : List Int),
    order = pre ++ l → x0.length = n → (∀ p ∈ l, x0.getD p 0 = 0) →
    l.foldlM (fun x i => triRow col eo order r coef d x i >>= fun v => .ok (x.set i v)) x0 = .ok x →
    x.length = n ∧ (∀ p, p ∉ l → x.getD p 0 = x0.getD p 0) ∧ ∀ i ∈ l, fxNear eo (x.getD i 0)
      ((R i - ((order.filter (before · i)).map (fun p => C i p * fxReal eo (x.getD p 0))).sum) / D i)
  | [], _, x0, _, hlen, _, h => by
    cases h
    exact ⟨hlen, fun _ _ => rfl, by simp⟩
  | i :: l, pre, x0, hsplit, hlen, hzero, h => by
    rw [List.foldlM_cons] at h
    obtain ⟨x1, hx1, h⟩ := except_bind_ok h
    obtain ⟨v, hv, hx1⟩ := except_bind_ok hx1
    cases hx1
    obtain ⟨hpair, hirr⟩ := id hord
    rw [hsplit, List.pairwise_append, List.pairwise_cons] at hpair
    obtain ⟨-, ⟨hafter, -⟩, hbefore⟩ := hpair
    have hnot {p : Nat} (hp : p ∈ i :: l) (hpre : p ∈ pre) : False := by
      have := (hbefore p hpre p hp).1
      rw [hirr] at this
      cases this
    have hi : i ∉ l := fun h => by
      have := (hafter i h).1
      rw [hirr] at this
      cases this
    have hirange : i < x0.length := hlen.symm ▸ hin i (hsplit ▸ by simp)
    have hzero' : ∀ p ∈ l, (x0.set i v).getD p 0 = 0 := fun p hp =>
      (getD_set_ne fun h : i = p => hi (h ▸ hp)).trans (hzero p (List.mem_cons_of_mem _ hp))
    obtain ⟨hxlen, hkeep, hrows⟩ := triRows_ok hord hin l (pre ++ [i]) (x0.set i v) (by simpa using hsplit)
      (by simpa using hlen) hzero' h
    refine ⟨hxlen, fun p hp => ?_, List.forall_mem_cons.2 ⟨?_, hrows⟩⟩
    · obtain ⟨hne, hp⟩ := not_or.1 (fun h => hp (List.mem_cons.2 h))
      rw [hkeep p hp, getD_set_ne (Ne.symm hne)]
    · have hrow := triRow_ok (eo := eo) hnum hcoef hd hv
      rw [hkeep i hi, getD_set_self hirange]
      rw [sum_filter_eq (q := (before · i)) (G := fun p => C i p * fxReal eo (x.getD p 0))] at hrow
      · exact hrow
      · intro p hp hpi
        have hne : p ≠ i := fun h => by
          rw [h, hirr] at hpi
          cases hpi
        have hpl : p ∉ l := fun hl => by
          rw [(hafter p hl).2] at hpi
          cases hpi
        rw [hkeep p hpl, getD_set_ne (Ne.symm hne)]
        exact ⟨by simpa using hne, rfl⟩
      · intro p hp hne hpi
        have hne : p ≠ i := by simpa using hne
        have hp' : p ∈ i :: l := by
          rcases List.mem_append.1 (hsplit ▸ hp) with hpre | hl
          · rw [(hbefore p hpre i List.mem_cons_self).1] at hpi
            cases hpi
          · exact hl
        rw [hzero p hp', fxReal]
        simp

/-- A triangular stage that ends (R175). -/
theorem triStage_ok (hord : orderedBy before order) (hin : ∀ p ∈ order, p < n)
    (h : triStage col eo order n r coef d = .ok x) : x.length = n ∧ ∀ i ∈ order, fxNear eo (x.getD i 0)
      ((R i - ((order.filter (before · i)).map (fun p => C i p * fxReal eo (x.getD p 0))).sum) / D i) := by
  rw [triStage_eq] at h
  obtain ⟨hlen, -, hrows⟩ := triRows_ok hnum hcoef hd hord hin order [] _ rfl (List.length_replicate ..)
    (fun p hp => by simp [List.getD, hin p hp]) h
  exact ⟨hlen, hrows⟩

theorem triStage_up (h : triStage col eo (List.range n) n r coef d = .ok x) : triSolved true n eo R C D x := by
  have hord : orderedBy (fun p i => decide (if true = true then p < i else i < p)) (List.range n) :=
    ⟨List.pairwise_lt_range.imp fun hlt => by simp [hlt, hlt.le], fun i => by simp⟩
  obtain ⟨hlen, hrows⟩ := triStage_ok hnum hcoef hd hord (fun p hp => List.mem_range.1 hp) h
  exact ⟨hlen, fun i hi => hrows i (List.mem_range.2 hi)⟩

theorem triStage_down (h : triStage col eo (List.range n).reverse n r coef d = .ok x) :
    triSolved false n eo R C D x := by
  have hord : orderedBy (fun p i => decide (if false = true then p < i else i < p)) (List.range n).reverse :=
    ⟨List.pairwise_reverse.2 (List.pairwise_lt_range.imp fun hlt => by simp [hlt, hlt.le]), fun i => by simp⟩
  obtain ⟨hlen, hrows⟩ := triStage_ok hnum hcoef hd hord (fun p hp => by simpa using hp) h
  refine ⟨hlen, fun i hi => ?_⟩
  have hrow := hrows i (by simpa using hi)
  rwa [List.filter_reverse, List.map_reverse, List.sum_reverse] at hrow

theorem triStage_dir (up : Bool)
    (h : triStage col eo (if up then List.range n else (List.range n).reverse) n r coef d = .ok x) :
    triSolved up n eo R C D x := by
  cases up
  · exact triStage_down hnum hcoef hd h
  · exact triStage_up hnum hcoef hd h

end

/-! ## Vectors rounded element by element -/

theorem mapM_ok {α β : Type} {f : α → Except FxStop β} : ∀ {l : List α} {l' : List β}, l.mapM f = .ok l' →
    List.Forall₂ (fun a b => f a = .ok b) l l'
  | [], l', h => by
    cases h
    exact .nil
  | a :: l, l', h => by
    rw [List.mapM_cons] at h
    obtain ⟨b, hb, h⟩ := except_bind_ok h
    obtain ⟨bs, hbs, h⟩ := except_bind_ok h
    cases h
    exact .cons hb (mapM_ok hbs)

theorem forall₂_getD {α β : Type} {P : α → β → Prop} {l : List α} {l' : List β} (h : List.Forall₂ P l l') {i : Nat}
    (hi : i < l.length) (a : α) (b : β) : P (l.getD i a) (l'.getD i b) := by
  have hi' : i < l'.length := h.length_eq ▸ hi
  rw [List.getD_eq_getElem _ _ hi, List.getD_eq_getElem _ _ hi']
  exact (List.forall₂_iff_get.1 h).2 i hi hi'

/-- Exact values rounded one by one. -/
theorem roundAll_ok {v : List Dyad} {V : Nat → ℝ} (hv : dyadsOf v V) (h : v.mapM (fxRound col eo) = .ok x) :
    x.length = v.length ∧ ∀ i < v.length, fxNear eo (x.getD i 0) (V i) := by
  have hall := mapM_ok h
  exact ⟨hall.length_eq.symm, fun i hi => (fxRound_is (hv i hi)).near (forall₂_getD hall hi Dyad.zero 0)⟩

theorem dyadsOf_take {v : List Dyad} {V : Nat → ℝ} (hv : dyadsOf v V) (k : Nat) : dyadsOf (v.take k) V := by
  intro i hi
  rw [List.length_take] at hi
  have hget : (v.take k).getD i Dyad.zero = v.getD i Dyad.zero := by
    simp only [List.getD_eq_getElem?_getD, List.getElem?_take, if_pos (lt_of_lt_of_le hi (min_le_left _ _))]
  rw [hget]
  exact hv i (by omega)

/-! ## The stages by kind -/

section
variable {q : SolveIn} {b y : List Int}

theorem stage1_lu (h0 : q.kind = 0) (ht : q.trans = false) (h : q.stage1 col b = .ok y) :
    triSolved true q.n q.ey (fun i => fxReal q.eb ((permute q.piv b).getD i 0)) (fun i p => fxReal 0 (q.m.at i p))
      (fun _ => 1) y := by
  unfold SolveIn.stage1 at h
  rw [h0, ht] at h
  exact triStage_up (fun _ => fxVal_num _ _) (fun _ _ => fxVal_num _ _) (fun _ => one_num) h

theorem stage1_luT (h0 : q.kind = 0) (ht : q.trans = true) (h : q.stage1 col b = .ok y) :
    triSolved true q.n q.ey (fun i => fxReal q.eb (b.getD i 0)) (fun i p => fxReal q.ea (q.m.at p i))
      (fun i => fxReal q.ea (q.m.at i i)) y := by
  unfold SolveIn.stage1 at h
  rw [h0, ht] at h
  exact triStage_up (fun _ => fxVal_num _ _) (fun _ _ => fxVal_num _ _) (fun _ => fxVal_num _ _) h

theorem stage1_chol (h1 : q.kind = 1) (h : q.stage1 col b = .ok y) :
    triSolved true q.n q.ey (fun i => fxReal q.eb (b.getD i 0)) (fun i p => fxReal (ceilHalf q.ea) (q.m.at i p))
      (fun i => fxReal (ceilHalf q.ea) (q.m.at i i)) y := by
  unfold SolveIn.stage1 at h
  rw [h1] at h
  exact triStage_up (fun _ => fxVal_num _ _) (fun _ _ => fxVal_num _ _) (fun _ => fxVal_num _ _) h

theorem stage1_ldlt (h2 : q.kind = 2) (h : q.stage1 col b = .ok y) :
    triSolved true q.n q.ey (fun i => fxReal q.eb (b.getD i 0)) (fun i p => fxReal q.el (q.m.at i p))
      (fun _ => 1) y := by
  unfold SolveIn.stage1 at h
  rw [h2] at h
  exact triStage_up (fun _ => fxVal_num _ _) (fun _ _ => fxVal_num _ _) (fun _ => one_num) h

theorem stage1_qr (h3 : q.kind = 3) (ht : q.trans = false) (hn : q.n ≤ q.rows) (h : q.stage1 col b = .ok y) :
    y.length = q.n ∧ ∀ i < q.n, fxNear q.ey (y.getD i 0)
      (housesReal q.m q.piv q.rows (List.range q.n) (fun i => fxReal q.eb (b.getD i 0)) i) := by
  unfold SolveIn.stage1 at h
  rw [h3, ht] at h
  obtain ⟨hlen, hdyads⟩ := reflectAll_is (rows := q.rows) q.m q.piv (List.range q.n)
    (v := (List.range q.rows).map (fun i => fxVal q.eb (b.getD i 0))) (V := fun i => fxReal q.eb (b.getD i 0))
    (by simp) (dyadsOf_map fun i _ => fxVal_num _ _)
  obtain ⟨hy, hall⟩ := roundAll_ok (dyadsOf_take hdyads q.n) h
  rw [List.length_take, hlen, min_eq_left hn] at hy hall
  exact ⟨hy, hall⟩

theorem stage1_qrT (h3 : q.kind = 3) (ht : q.trans = true) (h : q.stage1 col b = .ok y) :
    triSolved true q.n q.ey (fun i => fxReal q.eb (b.getD i 0)) (fun i p => fxReal (q.ea + 4) (q.m.at p i))
      (fun i => fxReal (q.ea + 4) (q.m.at i i)) y := by
  unfold SolveIn.stage1 at h
  rw [h3, ht] at h
  exact triStage_up (fun _ => fxVal_num _ _) (fun _ _ => fxVal_num _ _) (fun _ => fxVal_num _ _) h

theorem stage2_lu (h0 : q.kind = 0) (ht : q.trans = false) (h : q.stage2 col y = .ok x) :
    triSolved false q.n q.ex (fun i => fxReal q.ey (y.getD i 0)) (fun i p => fxReal q.ea (q.m.at i p))
      (fun i => fxReal q.ea (q.m.at i i)) x := by
  unfold SolveIn.stage2 at h
  rw [h0, ht] at h
  exact triStage_down (fun _ => fxVal_num _ _) (fun _ _ => fxVal_num _ _) (fun _ => fxVal_num _ _) h

theorem except_map_ok {α β : Type} {x : Except FxStop α} {f : α → β} {b : β} (h : x.map f = .ok b) :
    ∃ a, x = .ok a ∧ b = f a := by
  cases x with
  | error e => cases h
  | ok a =>
    cases h
    exact ⟨a, rfl, rfl⟩

theorem stage2_luT (h0 : q.kind = 0) (ht : q.trans = true) (h : q.stage2 col y = .ok x) :
    ∃ z, triSolved false q.n q.ex (fun i => fxReal q.ey (y.getD i 0)) (fun i p => fxReal 0 (q.m.at p i))
      (fun _ => 1) z ∧
      x = unpermute q.piv z := by
  unfold SolveIn.stage2 at h
  rw [h0, ht] at h
  obtain ⟨z, hz, hx⟩ := except_map_ok h
  exact ⟨z, triStage_down (fun _ => fxVal_num _ _) (fun _ _ => fxVal_num _ _) (fun _ => one_num) hz, hx⟩

theorem stage2_chol (h1 : q.kind = 1) (h : q.stage2 col y = .ok x) :
    triSolved false q.n q.ex (fun i => fxReal q.ey (y.getD i 0)) (fun i p => fxReal (ceilHalf q.ea) (q.m.at p i))
      (fun i => fxReal (ceilHalf q.ea) (q.m.at i i)) x := by
  unfold SolveIn.stage2 at h
  rw [h1] at h
  exact triStage_down (fun _ => fxVal_num _ _) (fun _ _ => fxVal_num _ _) (fun _ => fxVal_num _ _) h

theorem stage2_ldlt (h2 : q.kind = 2) (h : q.stage2 col y = .ok x) :
    triSolved false q.n q.ex (fun i => fxReal q.ey (y.getD i 0))
      (fun i p => fxReal q.el (q.m.at p i) * fxReal q.ea (q.m.at i i)) (fun i => fxReal q.ea (q.m.at i i)) x := by
  unfold SolveIn.stage2 at h
  rw [h2] at h
  exact triStage_down (fun _ => fxVal_num _ _) (fun _ _ => Dyad.mul_num (fxVal_num _ _) (fxVal_num _ _))
    (fun _ => fxVal_num _ _) h

theorem stage2_qr (h3 : q.kind = 3) (ht : q.trans = false) (h : q.stage2 col y = .ok x) :
    triSolved false q.n q.ex (fun i => fxReal q.ey (y.getD i 0)) (fun i p => fxReal (q.ea + 4) (q.m.at i p))
      (fun i => fxReal (q.ea + 4) (q.m.at i i)) x := by
  unfold SolveIn.stage2 at h
  rw [h3, ht] at h
  exact triStage_down (fun _ => fxVal_num _ _) (fun _ _ => fxVal_num _ _) (fun _ => fxVal_num _ _) h

theorem stage2_qrT (h3 : q.kind = 3) (ht : q.trans = true) (h : q.stage2 col y = .ok x) :
    x.length = q.rows ∧ ∀ i < q.rows, fxNear q.ex (x.getD i 0)
      (housesReal q.m q.piv q.rows (List.range q.n).reverse
        (fun i => if i < q.n then fxReal q.ey (y.getD i 0) else 0) i) := by
  unfold SolveIn.stage2 at h
  rw [h3, ht] at h
  have hstart (i : Nat) : (if i < q.n then fxVal q.ey (y.getD i 0) else Dyad.zero).num
      (if i < q.n then fxReal q.ey (y.getD i 0) else 0) := by
    split
    · exact fxVal_num _ _
    · exact zero_num
  obtain ⟨hlen, hdyads⟩ := reflectAll_is (rows := q.rows) q.m q.piv (List.range q.n).reverse
    (v := (List.range q.rows).map (fun i => if i < q.n then fxVal q.ey (y.getD i 0) else Dyad.zero))
    (V := fun i => if i < q.n then fxReal q.ey (y.getD i 0) else 0) (by simp) (dyadsOf_map fun i _ => hstart i)
  obtain ⟨hx, hall⟩ := roundAll_ok hdyads h
  rw [hlen] at hx hall
  exact ⟨hx, hall⟩

theorem stage2_tri (h4 : 4 ≤ q.kind) (h : q.stage2 col y = .ok x) :
    triSolved (q.upper == q.trans) q.n q.ex (fun i => fxReal q.eb (y.getD i 0))
      (if q.trans then fun i p => fxReal q.ea (q.m.at p i) else fun i p => fxReal q.ea (q.m.at i p))
      (if q.unit then fun _ => 1 else fun i => fxReal q.ea (q.m.at i i)) x := by
  obtain ⟨j, hj⟩ := Nat.exists_eq_add_of_le' h4
  unfold SolveIn.stage2 at h
  rw [hj] at h
  refine triStage_dir (fun _ => fxVal_num _ _) (fun i p => ?_) (fun i => ?_) _ h
  · cases q.trans <;> exact fxVal_num _ _
  · cases q.unit
    · exact fxVal_num _ _
    · exact one_num

end

end Sys2Proof.Machine
end

section
/-! Refinement (R183), the factor engine's events (R181, R188, R194), and their obligation. -/
namespace Sys2Proof.Machine

/-! ## Residuals and corrections -/

theorem fp64_isSound : fp64.sound := Fmt.sound_of_mem (by simp)

theorem range_getD {n i : Nat} (hi : i < n) : (List.range n).getD i 0 = i := by
  rw [List.getD_eq_getElem _ _ (by simpa using hi)]
  simp

theorem roundDyad_near {f : Fmt} {d : Dyad} {x : ℝ} (hf : f.sound) (z : Bool) (h : d.num x) :
    f.near x (f.roundDyad .nearest z d).1 :=
  near_of_gives hf (Fmt.roundDyad_gives hf .nearest z h) fun h0 =>
    congrArg Prod.fst (Fmt.roundDyad_zero .nearest z h h0)

/-- An element of a residual: one exact sum, rounded once to FP64 (R183). -/
theorem residuals_near {d : Desc} {a : List (List FVal)} {b x : List (List (BitVec 64))} {A B X : Nat → Nat → ℝ}
    (hA : ∀ i k, i < d.n → k < d.n → ((a.getD i []).getD k (.fin false 0 0)).is (A i k))
    (hBX : ∀ j i, j < d.nrhs → i < d.n → (fp64.decode ((b.getD j []).getD i 0).toNat).is (B j i) ∧
      (fp64.decode ((x.getD j []).getD i 0).toNat).is (X j i)) {j i : Nat} (hj : j < d.nrhs) (hi : i < d.n) :
    ∃ code, ((residuals d a b x).getD j []).getD i (.inf false) = fp64.decode code ∧
      fp64.near (B j i - ((List.range d.n).map
        (fun k => (if d.trans then A k i else A i k) * X j k)).sum) code := by
  refine ⟨_, ?_, roundDyad_near fp64_isSound false (Dyad.sub_num (hBX j i hj hi).1.num
    (sum_num_map (f := fun k => (if d.trans then ((a.getD k []).getD i (.fin false 0 0)).dyad
      else ((a.getD i []).getD k (.fin false 0 0)).dyad).mul
      (fp64.decode ((x.getD j []).getD k 0).toNat).dyad) fun k hk => ?_))⟩
  · simp [residuals, List.getD, hj, hi]
  · have hk := List.mem_range.1 hk
    refine Dyad.mul_num ?_ (hBX j k hj hk).2.num
    split
    · exact (hA k i hk hi).num
    · exact (hA i k hi hk).num

/-- The smallest power of two above a positive number (R183). -/
theorem expAbove_is {v : FVal} {rho : ℝ} (h : v.is rho) (hpos : 0 < rho) :
    rho < 2 ^ expAbove v ∧ 2 ^ (expAbove v - 1) ≤ rho := by
  obtain ⟨m, e, rfl, hm⟩ := h.fin_pos hpos
  obtain ⟨n, m', e', heq, hval⟩ := h
  cases heq
  have hrho : rho = m * 2 ^ e := by simpa using hval
  have hunit : (0 : ℝ) < 2 ^ e := by positivity
  obtain ⟨hlow, hhigh⟩ := within_precise (st := false) hm (x := rho) ⟨hrho.ge, by linarith, by simp [hrho]⟩
  refine ⟨hhigh, ?_⟩
  rw [expAbove, Int.add_sub_cancel]
  exact hlow

/-- An FP64 result fits its word. -/
theorem roundDyad_lt (z : Bool) (d : Dyad) : (fp64.roundDyad .nearest z d).1 < 2 ^ 64 := by
  unfold Fmt.roundDyad
  split
  · cases z <;> decide
  · refine (round_le_inf fp64_isSound _ _ _ _).trans_lt ?_
    cases decide (d.m < 0) <;> decide

/-- A correction is added once in FP64 (R183). -/
theorem corrected_near {x x1 : List (List (BitVec 64))} {dx : List (List Int)} {e : Int}
    (h : corrected x dx e = .ok x1) {j i : Nat} {X : ℝ} (hj : j < x.length) (hi : i < (x.getD j []).length)
    (hX : (fp64.decode ((x.getD j []).getD i 0).toNat).is X) :
    fp64.near (X + fxReal e ((dx.getD j []).getD i 0)) ((x1.getD j []).getD i 0).toNat ∧
      (fp64.decode ((x1.getD j []).getD i 0).toNat).isFin = true := by
  have hcol := forall₂_getD (mapM_ok h) (i := j) (by simpa using hj) 0 []
  rw [range_getD hj] at hcol
  have helem := forall₂_getD (mapM_ok hcol) (i := i) (by simpa using hi) 0 0
  rw [range_getD hi] at helem
  have hdx := FVal.ofDyad_is false (fxVal_num e ((dx.getD j []).getD i 0))
  have hsum := addVal_is (f := fp64) (rm := .nearest) hX hdx
  have hlt : (addVal fp64 .nearest (fp64.decode ((x.getD j []).getD i 0).toNat)
      (FVal.ofDyad false (fxVal e ((dx.getD j []).getD i 0)))).1 < 2 ^ 64 := by
    rw [hsum]
    exact roundDyad_lt _ _
  have hnear := near_of_gives (x := X + fxReal e ((dx.getD j []).getD i 0)) fp64_isSound
    (addVal_gives (rm := .nearest) fp64_isSound hX hdx) fun h0 => congrArg Prod.fst (addVal_zero hX hdx h0)
  dsimp only at helem
  generalize (addVal fp64 .nearest (fp64.decode ((x.getD j []).getD i 0).toNat)
    (FVal.ofDyad false (fxVal e ((dx.getD j []).getD i 0)))).1 = r at *
  split at helem <;> rename_i hfin
  · have hword : ((x1.getD j []).getD i 0).toNat = r := by
      rw [← Except.ok.inj helem, BitVec.toNat_ofNat, Nat.mod_eq_of_lt hlt]
    rw [hword]
    exact ⟨hnear, hfin⟩
  · cases helem

/-! ## The stages of a problem -/

section
variable {f : Fin 4} {j cycles : Nat} {s : State} {p : Problem} (hp : s.problem? f j = some p)
include hp

theorem execFactorStageComplete_factor (hstage : p.stage = .factor) :
    execFactorStageComplete f j cycles false s =
      .next (s.factorStage f { p with cycles := p.cycles + cycles } (descOf p.words)) := by
  unfold execFactorStageComplete
  rw [hp]
  exact (if_pos hstage).trans (congrArg Host.Outcome.next (if_neg Bool.false_ne_true))

theorem execFactorStageComplete_fault (hstage : p.stage = .factor) :
    execFactorStageComplete f j cycles true s = .next (s.laneFault f { p with cycles := p.cycles + cycles }) := by
  unfold execFactorStageComplete
  rw [hp]
  exact (if_pos hstage).trans (congrArg Host.Outcome.next (if_pos rfl))

theorem execFactorStageComplete_first {y : List (List Int)} (hstage : p.stage = .first)
    (hy : eachCol p.rhs (solveIn { p with cycles := p.cycles + cycles } (descOf p.words)).stage1 = .ok y) :
    execFactorStageComplete f j cycles false s = .next (s.putProblem f
      { p with cycles := p.cycles + cycles, stage := .second, mid := y, reading := none }) := by
  have hfactor : p.stage ≠ .factor := by simp [hstage]
  unfold execFactorStageComplete
  rw [hp]
  refine (if_neg hfactor).trans ((if_pos hstage).trans ((if_neg Bool.false_ne_true).trans ?_))
  dsimp only
  rw [hy]

theorem execFactorStageComplete_second {x : List (List Int)} (hstage : p.stage = .second)
    (hx : eachCol p.mid (solveIn { p with cycles := p.cycles + cycles } (descOf p.words)).stage2 = .ok x) :
    execFactorStageComplete f j cycles false s = .next
      (s.solved f { p with cycles := p.cycles + cycles } (descOf p.words) x) := by
  have hfactor : p.stage ≠ .factor := by simp [hstage]
  have hfirst : p.stage ≠ .first := by simp [hstage]
  unfold execFactorStageComplete
  rw [hp]
  refine (if_neg hfactor).trans ((if_neg hfirst).trans ((if_pos hstage).trans ((if_neg Bool.false_ne_true).trans ?_)))
  dsimp only
  rw [hx]

theorem execRefineResidual_finite {a : List (List FVal)} (hstage : p.stage = .residual)
    (ha : (s.readA (descOf p.words)).2 = .inl a) (hbad : badColumn (descOf p.words).n a = none) :
    execRefineResidual f j cycles s = .next ((s.readA (descOf p.words)).1.loopTest f
      { p with cycles := p.cycles + cycles } (descOf p.words) (residuals (descOf p.words) a p.b p.x)) := by
  unfold execRefineResidual
  rw [hp]
  refine (if_pos hstage).trans ?_
  rcases hr : s.readA (descOf p.words) with ⟨s', ra⟩
  rw [hr] at ha
  cases ha
  dsimp only
  rw [hr]
  dsimp only
  rw [hbad]

theorem execRetainCommit_commit {p2 : Problem} (hstage : p.stage = .commit)
    (hp2 : (s.putProblem f { p with cycles := p.cycles + cycles }).problem? f j = some p2)
    (hstage2 : p2.stage = .commit) :
    execRetainCommit f j cycles s = .next
      ((s.putProblem f { p with cycles := p.cycles + cycles }).finishCommit f p2) := by
  have hwait : p.stage ≠ .commitWait := by simp [hstage]
  unfold execRetainCommit
  rw [hp]
  dsimp only
  rw [if_neg hwait, if_pos hstage, hp2]
  exact if_pos hstage2

end

/-- A batch whose problems have all ended (R194). -/
theorem execFactorBatchComplete_done {f : Fin 4} {s : State} {b : BatchRun} {c : Cmd} (hb : s.batch f = some b)
    (hc : s.cmd? b.cid = some c) (hdone : b.count ≤ b.done) :
    let g := s.devWrite (c.u 0x10 8) (bytesOfWords (summaryWords b c.tag))
    let s1 := match g.2 with
      | some (code, off) => g.1.batchError f 0 code (c.u 0x10 8 + off)
      | none => g.1
    let s2 := if b.off then s1.mark (blkFd f) 1 1 else s1
    let s3 := if b.unmet then s2.mark (blkFd f) 5 1 else s2
    let s4 := if c.u 0x1C 4 / 2 % 2 = 1 then
        s3.cmdSignal (blkFd f) c (BitVec.ofNat 64 (c.u 0x28 8)) (c.u 0x30 2)
      else s3
    let err := match s4.batch f with
      | some b => b.err
      | none => 0
    execFactorBatchComplete f s = .next ((s4.setFd f { s4.fd f with batch := none }).reply c
      (if err = 0 then stOk else stErr (err - 1)) (BitVec.ofNat 64 (b.count * 2 ^ 32 + b.ok))) := by
  intro g s1 s2 s3 s4 err
  unfold execFactorBatchComplete
  rw [hb]
  dsimp only
  rw [hc]
  exact if_neg hdone.not_gt

/-! ## The obligation -/

/-- Settles O25: each event by its equation, each arithmetic step by the exact value that is rounded once. -/
theorem factorStagesAndBatchesEnd : Obligations.FactorStagesAndBatchesEnd := by
  refine ⟨?_, ?_, ?_, ?_, ?_, ?_, ?_, ?_⟩
  · intro f j cycles s p hp p1 d
    exact ⟨fun h => execFactorStageComplete_factor hp h, fun h => execFactorStageComplete_fault hp h,
      fun y h hy => execFactorStageComplete_first hp h hy, fun x h hx => execFactorStageComplete_second hp h hx,
      fun a h ha hbad => execRefineResidual_finite hp h ha hbad,
      fun p2 h hp2 h2 => execRetainCommit_commit hp h hp2 h2⟩
  · intro f s b c hb hc hdone
    exact execFactorBatchComplete_done hb hc hdone
  · intro col k e a b x y rounded
    have ha : a.num x := rfl
    have hb : b.num y := rfl
    exact ⟨fxRound_is ha, fun hy => fxDiv_is ha hb hy, fun hy => fxDiv_zero hb hy, fun hx he => fxSqrt_is ha hx he,
      fun v => ⟨fun x hx => fxOfVal_is hx, fxOfVal_none⟩⟩
  · intro ea el n rows k m m1 piv piv1 hk hlen hwidth sum
    refine ⟨?_, ?_, ?_, fun hn h => qrStep_ok ⟨hlen, hwidth⟩ hk hn h⟩
    · rintro rfl v?
      have hm : m.rect rows rows := ⟨hlen, hwidth⟩
      exact ⟨fun h => luStep_ok hm hk h, luStep_singular hm hk, fun e h => luStep_error hm hk h⟩
    · rintro rfl c rest
      have hm : m.rect rows rows := ⟨hlen, hwidth⟩
      exact ⟨fun h => cholStep_ok hm hk (rest := rest) (fun _ => rfl) h,
        cholStep_notSpd hm hk (rest := rest) fun _ => rfl⟩
    · rintro rfl rest
      have hm : m.rect rows rows := ⟨hlen, hwidth⟩
      exact ⟨fun h => ldltStep_ok hm hk (rest := rest) (fun _ => rfl) h,
        ldltStep_singular hm hk (rest := rest) fun _ => rfl⟩
  · intro q col b y x at' low high diag from? one c
    exact ⟨fun h => ⟨fun h0 ht => stage1_lu h0 ht h, fun h0 ht => stage1_luT h0 ht h, fun h1 => stage1_chol h1 h,
        fun h2 => stage1_ldlt h2 h, fun h3 ht hn => stage1_qr h3 ht hn h, fun h3 ht => stage1_qrT h3 ht h⟩,
      fun h => ⟨fun h0 ht => stage2_lu h0 ht h, fun h0 ht => stage2_luT h0 ht h, fun h1 => stage2_chol h1 h,
        fun h2 => stage2_ldlt h2 h, fun h3 ht => stage2_qr h3 ht h, fun h3 ht => stage2_qrT h3 ht h,
        fun h4 => stage2_tri h4 h⟩⟩
  · exact fun d a b x A B X hA hBX j i hj hi => residuals_near hA hBX hj hi
  · exact fun v rho h hpos => expAbove_is h hpos
  · exact fun x x1 dx e h j i X hj hi hX => corrected_near h hj hi hX

end Sys2Proof.Machine
end
